-- ==== Sys2Proof/Word.lean ====
section
/-! DEFINITION. Sys2Proof/Word.lean: the word types of the 4917 and the operand, modifier and packet types that its
instructions and acts carry. Plain types only: what computes with them stands in Decode.lean and under Machine/. -/

namespace Sys2Proof

/-- A dword: 64 bits (R14). An instruction word and a block header are dwords. -/
abbrev Word := BitVec 64

/-- A word in the manual's sense: 32 bits (R14), one vector lane. -/
abbrev Lane := BitVec 32

/-- A byte (R14). -/
abbrev Byte := BitVec 8

/-- A vector register: 64 lanes of 32 bits, lane i in bits [32i+31:32i] (Table 1.2). -/
abbrev VReg := BitVec 2048

/-- Sparse data by number: pairs with rising numbers; a number that is not listed has the reader's default. -/
abbrev Tab (α : Type) := List (Nat × α)

/-- The register an operand code selects (Table 2.4). -/
inductive Reg where
  | s (n : Fin 32)
  | v (n : Fin 32)
  | p (n : Fin 8)
  | h (n : Fin 8)
  | latch
  deriving DecidableEq, Repr

/-- Class of the latch, STAT.LCLS (Table 1.3). -/
inductive LCls where
  | empty | scalar | vector | pred | handle
  deriving DecidableEq, Repr

/-- Next-address selector (Table 2.6). -/
inductive Seq where
  | next | t0 | t1 | either | callT0 | callBt | goBt | ret | loop
  deriving DecidableEq, Repr

/-- The fields every instruction word carries: SEQ, G (negate bit and predicate) and LA (Table 2.2). -/
structure Ctl where
  seq : Seq
  neg : Bool
  gp  : Fin 8
  la  : Fin 16
  deriving DecidableEq, Repr

/-- Element width W (Table 3.1). -/
inductive Width where
  | full | b8 | b16 | b32 | b64
  deriving DecidableEq, Repr

/-- The W and XS fields of the integer MOD (Table 3.1). -/
structure IntMod where
  w  : Width
  xs : Bool
  deriving DecidableEq, Repr

/-- CMP conditions (Table 3.4). -/
inductive CmpCc where
  | eq | ne | lt | ge | ltu | geu | le | gt | leu | gtu | any | none
  deriving DecidableEq, Repr

/-- Rounding modes (Table 7.4). -/
inductive RoundMode where
  | rne | rz | rup | rdn | rna
  deriving DecidableEq, Repr

/-- The floating-point formats (Table 7.1). -/
inductive FpFmt where
  | fp64 | fp32 | fp16 | bf16 | e4m3 | e5m2
  deriving DecidableEq, Repr

/-- FCMP conditions (Table 8.4). -/
inductive FcmpCc where
  | eq | ne | lt | le | gt | ge | uo | o
  deriving DecidableEq, Repr

/-- KIND of VSHUF with the operand or constant that the kind uses (R236). -/
inductive Shuf where
  | xor (k : Fin 64)
  | ziplo (b : Reg)
  | ziphi (b : Reg)
  | unze (b : Reg)
  | unzo (b : Reg)
  deriving DecidableEq, Repr

/-- Combining operations of VRED and VSCAN (Table 8.9). -/
inductive Rop where
  | add | and | or | xor | min | max | minu | maxu | fadd | fmin | fmax
  deriving DecidableEq, Repr

/-- SZ of a scalar access (Table 4.6): 8, 1, 2 or 4 bytes. -/
inductive ScalarSz where
  | d | b | h | w
  deriving DecidableEq, Repr

/-- SZ of a vector element (Table 4.6): 4, 1, 2 or 8 bytes. -/
inductive VecSz where
  | w | b | h | d
  deriving DecidableEq, Repr

/-- The six scopes of the memory model (R4, Table 4.6). -/
inductive Scope where
  | strand | tile | field | sector | module | system
  deriving DecidableEq, Repr

/-- ORD (Table 4.5). -/
inductive Ord4 where
  | relaxed | acquire | release | acqRel
  deriving DecidableEq, Repr

/-- Operations of AOP (Table 4.8). -/
inductive AopOp where
  | add | and | or | xor | min | max | minu | maxu | swap
  deriving DecidableEq, Repr

/-- Kinds of FENCE (R143). -/
inductive FenceKind where
  | seq | acq | rel | ar
  deriving DecidableEq, Repr

/-- The tensor identifier of TDEF, TGET and TDROP: literal, or in a register (R302). -/
inductive TensorId where
  | lit (n : Fin 1024)
  | reg (r : Reg)
  deriving DecidableEq, Repr

/-- Traffic classes (R508). -/
inductive TrafficClass where
  | req | rsp | sync | bulk | port
  deriving DecidableEq, Repr

/-- One Giben packet as a port receives or sends it (Table 21.3): header fields and payload bytes. -/
structure Packet where
  session : BitVec 16
  vf      : BitVec 11
  reserved : BitVec 5
  kind    : Byte
  ver     : Byte
  seq     : BitVec 32
  ack     : BitVec 32
  arg     : Word
  addr    : Word
  payload : List Byte
  deriving DecidableEq, Repr

/-- A part that Assay tests (Table 19.10, R504). -/
inductive AssayPart where
  | coreBank (core row : Nat)
  | wholeCore (core : Nat)
  | tileBank (tile bank : Nat)
  | wholeTile (tile : Nat)
  | sliceRow (field slice row : Nat)
  | rdcRow (field row : Nat)
  | dramRow (pa : Nat)
  deriving DecidableEq, Repr

/-- What one link of the second tier reports while it trains (R471, R546). -/
structure LinkReport where
  trained  : Bool
  half     : Bool
  capacity : Nat
  deriving DecidableEq, Repr

/-- A firmware image as LOADFW receives it (R519). -/
structure FwImage where
  version : BitVec 16
  digest  : List Byte
  sig     : List Byte
  key     : List Byte
  body    : List Byte
  deriving DecidableEq, Repr

/-- A row of a bank of an HBM4E stack (R457, R462, R465): one of 40 stacks, of the stack's 64 pseudo-channels, of the 16 banks,
and the row number. -/
structure RowId where
  stack : Fin 40
  pch   : Fin 64
  bank  : Fin 16
  row   : Nat
  deriving DecidableEq, Repr

end Sys2Proof
end

