-- ==== Sys2Proof/Config.lean ====
section
/-! DEFINITION. Sys2Proof/Config.lean: the values that the spec leaves open. Each is an opaque constant: nothing in Lean can
evaluate it or prove a value of it, so a statement about it holds for every value. -/

namespace Sys2Proof.Config

/-- Content of scalar `i` of a strand when its group becomes live again, at the `n`-th block entry that meets one (R39, log 22). -/
opaque freeScalar : Nat → Nat → Word

/-- Content of vector `i` of a strand when its group becomes live again (R39, log 22). -/
opaque freeVector : Nat → Nat → VReg

/-- Which of the two bracketing values an approximated function returns: function, format and input bits (R228, R336,
R369, log 20). True stands for the value of greater magnitude. -/
opaque bracketUp : Nat → Nat → Nat → Bool

/-- Which of the FP32 values within the bound a Planisher function that is given within 2 ulp returns: by the function and
the input bits (R369, log 20); taken modulo how many values there are. -/
opaque ulpOffset : Nat → Nat → Nat

/-- The 57 bytes of the identity's private key as each boot derives them from the fused secret (R518, log 16). -/
opaque identityKey : List Byte → List Byte

/-- Whether the `n`-th Assay that ends by itself passes: an outcome of the hardware (R258, R504, log 23). -/
opaque assayPass : Nat → Bool

/-- Spare rows of an HBM4E stack (R505, log 6). -/
opaque spareRows : Nat → Nat

/-- Whether a tile of a field has no route through good routers to an anchor, given the retired tiles of the field: the spec
does not give the routers' places within a field (R507, log 24). -/
opaque cutOff : Nat → List Nat → Nat → Bool

/-- AGENT of a fault descriptor for an access of the module scheduler, which Table 15.6 gives no number; taken modulo 4 (log 56). -/
opaque schedulerAgent : Nat

/-- Base of the strand area of the partition with this PCB: the spec names the area and gives no place for it (R28, log 12). -/
opaque strandArea : Word → Word

end Sys2Proof.Config
end

