-- ==== Sys2Proof/Syntax.lean ====
section
/-! DEFINITION. Sys2Proof/Syntax.lean: Instr, one constructor for each row of spec/opcode_table.json. The rows up to
ROUTE, with UNASSIGNED_OPCODE, are instruction words of a strand; every other row is an act of an agent of the machine
(the Mandrel, a core's vector side, a home slice, an engine, a broker, the module scheduler, a port, the management
block) and carries the number of the part that acts. -/

namespace Sys2Proof

/-- The operations and acts of the 4917. Register operands are `Reg`; an operand whose code 0 stands for all ones
(class pred1) is an `Option Reg`. Parts are named by number: a tile is field * 16 + tile, a core tile * 16 + core, a slot
core * 4 + slot, so that a slot's number is bits [15:0] of PCOORD (Table 1.6). -/
inductive Instr where
  -- integer, logic, compare and move (chapter 3)
  | addR (k : Ctl) (d a b : Reg) (m : IntMod)
  | addI (k : Ctl) (d a : Reg) (imm : BitVec 23)
  | sub (k : Ctl) (d a b : Reg) (m : IntMod)
  | mulR (k : Ctl) (d a b : Reg) (m : IntMod)
  | mulI (k : Ctl) (d a : Reg) (imm : BitVec 23)
  | mulh (k : Ctl) (d a b : Reg) (m : IntMod)
  | mulhu (k : Ctl) (d a b : Reg) (m : IntMod)
  | div (k : Ctl) (d a b : Reg) (m : IntMod)
  | divu (k : Ctl) (d a b : Reg) (m : IntMod)
  | rem (k : Ctl) (d a b : Reg) (m : IntMod)
  | remu (k : Ctl) (d a b : Reg) (m : IntMod)
  | andR (k : Ctl) (d a b : Reg) (m : IntMod)
  | andI (k : Ctl) (d a : Reg) (imm : BitVec 23)
  | orR (k : Ctl) (d a b : Reg) (m : IntMod)
  | orI (k : Ctl) (d a : Reg) (imm : BitVec 23)
  | xorR (k : Ctl) (d a b : Reg) (m : IntMod)
  | xorI (k : Ctl) (d a : Reg) (imm : BitVec 23)
  | andn (k : Ctl) (d a b : Reg) (m : IntMod)
  | orn (k : Ctl) (d a b : Reg) (m : IntMod)
  | xnor (k : Ctl) (d a b : Reg) (m : IntMod)
  | shlR (k : Ctl) (d a b : Reg) (m : IntMod)
  | shlI (k : Ctl) (d a : Reg) (imm : BitVec 23)
  | shrR (k : Ctl) (d a b : Reg) (m : IntMod)
  | shrI (k : Ctl) (d a : Reg) (imm : BitVec 23)
  | sarR (k : Ctl) (d a b : Reg) (m : IntMod)
  | sarI (k : Ctl) (d a : Reg) (imm : BitVec 23)
  | rotlR (k : Ctl) (d a b : Reg) (m : IntMod)
  | rotlI (k : Ctl) (d a : Reg) (imm : BitVec 23)
  | clz (k : Ctl) (d a : Reg) (m : IntMod)
  | ctz (k : Ctl) (d a : Reg) (m : IntMod)
  | popc (k : Ctl) (d a : Reg) (m : IntMod)
  | brev (k : Ctl) (d a : Reg) (m : IntMod)
  | minR (k : Ctl) (d a b : Reg) (m : IntMod)
  | minI (k : Ctl) (d a : Reg) (imm : BitVec 23)
  | maxR (k : Ctl) (d a b : Reg) (m : IntMod)
  | maxI (k : Ctl) (d a : Reg) (imm : BitVec 23)
  | minuR (k : Ctl) (d a b : Reg) (m : IntMod)
  | minuI (k : Ctl) (d a : Reg) (imm : BitVec 23)
  | maxuR (k : Ctl) (d a b : Reg) (m : IntMod)
  | maxuI (k : Ctl) (d a : Reg) (imm : BitVec 23)
  | abs (k : Ctl) (d a : Reg) (m : IntMod)
  | addsat (k : Ctl) (d a b : Reg) (m : IntMod) (u : Bool)
  | subsat (k : Ctl) (d a b : Reg) (m : IntMod) (u : Bool)
  | sext (k : Ctl) (d a : Reg) (w : Width)
  | zext (k : Ctl) (d a : Reg) (w : Width)
  | bfx (k : Ctl) (d a : Reg) (m : IntMod) (pos lenm : Fin 64)
  | bfi (k : Ctl) (d a b : Reg) (m : IntMod) (pos lenm : Fin 64)
  | movR (k : Ctl) (d a : Reg) (w64 : Bool)
  | movI (k : Ctl) (d : Reg) (imm : BitVec 23)
  | sel (k : Ctl) (d a b c : Reg) (m : IntMod)
  | cmpR (k : Ctl) (d a b : Reg) (w : Width) (cc : CmpCc)
  | cmpI (k : Ctl) (d a : Reg) (cc : CmpCc) (imm : BitVec 23)
  | scadd (k : Ctl) (d a b : Reg) (m : IntMod) (sh : Fin 64)
  | movw (k : Ctl) (d : Reg) (hw : Fin 4) (chunk : BitVec 16)
  | plog (k : Ctl) (d : Reg) (a b c : Option Reg) (tt : BitVec 8)
  | pany (k : Ctl) (d a : Reg) (b : Option Reg)
  | pall (k : Ctl) (d a : Reg) (b : Option Reg)
  | pcount (k : Ctl) (d a : Reg) (b : Option Reg)
  -- floating point, lanes and blocks (chapter 8)
  | fadd (k : Ctl) (d a b : Reg) (rnd : Option RoundMode) (ft : Option FpFmt)
  | fsub (k : Ctl) (d a b : Reg) (rnd : Option RoundMode) (ft : Option FpFmt)
  | fmul (k : Ctl) (d a b : Reg) (rnd : Option RoundMode) (ft : Option FpFmt)
  | fma (k : Ctl) (d a b c : Reg) (rnd : Option RoundMode) (ft : Option FpFmt)
  | fms (k : Ctl) (d a b c : Reg) (rnd : Option RoundMode) (ft : Option FpFmt)
  | fnma (k : Ctl) (d a b c : Reg) (rnd : Option RoundMode) (ft : Option FpFmt)
  | fnms (k : Ctl) (d a b c : Reg) (rnd : Option RoundMode) (ft : Option FpFmt)
  | fdiv (k : Ctl) (d a b : Reg) (rnd : Option RoundMode) (ft : Option FpFmt)
  | fsqrt (k : Ctl) (d a : Reg) (rnd : Option RoundMode) (ft : Option FpFmt)
  | frcp (k : Ctl) (d a : Reg) (rnd : Option RoundMode) (ft : Option FpFmt)
  | frsq (k : Ctl) (d a : Reg) (ft : Option FpFmt)
  | fexp2 (k : Ctl) (d a : Reg) (ft : Option FpFmt)
  | flog2 (k : Ctl) (d a : Reg) (ft : Option FpFmt)
  | ftanh (k : Ctl) (d a : Reg) (ft : Option FpFmt)
  | fmin (k : Ctl) (d a b : Reg) (ft : Option FpFmt)
  | fmax (k : Ctl) (d a b : Reg) (ft : Option FpFmt)
  | fabs (k : Ctl) (d a : Reg) (ft : Option FpFmt)
  | fneg (k : Ctl) (d a : Reg) (ft : Option FpFmt)
  | fcpys (k : Ctl) (d a b : Reg) (ft : Option FpFmt)
  | fcmp (k : Ctl) (d a b : Reg) (ft : Option FpFmt) (cc : FcmpCc)
  | fclass (k : Ctl) (d a : Reg) (ft : Option FpFmt)
  | fcvt (k : Ctl) (d a : Reg) (rnd : Option RoundMode) (ft fs : Option FpFmt)
  | ftoi (k : Ctl) (d a : Reg) (rnd : Option RoundMode) (ft : Option FpFmt) (iw : Width) (u : Bool)
  | itof (k : Ctl) (d a : Reg) (rnd : Option RoundMode) (ft : Option FpFmt) (iw : Width) (u : Bool)
  | fround (k : Ctl) (d a : Reg) (rnd : Option RoundMode) (ft : Option FpFmt)
  | vbcast (k : Ctl) (d a b : Reg) (w64 : Bool)
  | vshuf (k : Ctl) (d a : Reg) (sh : Shuf) (w64 : Bool)
  | vperm (k : Ctl) (d a b c : Reg) (w64 : Bool)
  | vslide (k : Ctl) (d a b c : Reg) (up w64 : Bool)
  | vextr (k : Ctl) (d a b : Reg) (xs w64 : Bool)
  | vins (k : Ctl) (d a b : Reg) (w64 : Bool)
  | vred (k : Ctl) (d a : Reg) (rop : Rop) (rnd : Option RoundMode) (m : IntMod)
  | vscan (k : Ctl) (d a : Reg) (rop : Rop) (rnd : Option RoundMode) (ex : Bool) (w : Width)
  | vcompress (k : Ctl) (d a : Reg) (w64 : Bool)
  | viota (k : Ctl) (d : Reg) (a : Option Reg) (w64 : Bool)
  | bquant (k : Ctl) (d a : Reg) (ft : Option FpFmt) (wq : Fin 7)
  | bdeq (k : Ctl) (d a : Reg) (rnd : Option RoundMode) (ft : Option FpFmt) (wq : Fin 7)
  -- memory (chapter 4)
  | ld (k : Ctl) (d a : Reg) (imm : BitVec 23) (sz : ScalarSz) (sx : Bool) (acq : Option Scope)
  | ldx (k : Ctl) (d a b : Reg) (sh : Fin 8) (sz : ScalarSz) (sx : Bool) (acq : Option Scope)
  | st (k : Ctl) (d a : Reg) (imm : BitVec 23) (sz : ScalarSz) (rel : Option Scope)
  | ldv (k : Ctl) (d a : Reg) (imm : BitVec 23) (sz : VecSz) (sx : Bool)
  | stv (k : Ctl) (d a : Reg) (imm : BitVec 23) (sz : VecSz)
  | ldg (k : Ctl) (d a b : Reg) (sh : Fin 8) (sz : VecSz) (sx : Bool)
  | stsc (k : Ctl) (a b c : Reg) (sh : Fin 8) (sz : VecSz)
  | pref (k : Ctl) (a : Reg) (imm : BitVec 23) (l2 : Bool)
  | aop (k : Ctl) (d a b : Reg) (op : AopOp) (ord : Ord4) (sc : Scope) (w32 sx : Bool)
  | acas (k : Ctl) (d a b c : Reg) (ord : Ord4) (sc : Scope) (w32 sx : Bool)
  | afadd (k : Ctl) (d a b : Reg) (ord : Ord4) (sc : Scope) (w32 : Bool)
  | cadd (k : Ctl) (a b : Reg) (sc : Scope)
  | cwait (k : Ctl) (d a b : Reg) (sc : Scope)
  | ctest (k : Ctl) (d a b : Reg) (acq : Bool) (sc : Scope)
  | fence (k : Ctl) (kind : FenceKind) (sc : Scope)
  -- strands and the Mandrel (chapter 10)
  | split (k : Ctl)
  | join (k : Ctl) (d : Reg)
  | spawn (k : Ctl) (d a b c : Reg)
  | yieldOp (k : Ctl)
  | endOp (k : Ctl)
  | send (k : Ctl) (d a b c : Reg) (len8 : Fin 64)
  -- groups (chapter 16)
  | gcreate (k : Ctl) (d a b : Reg)
  | gopen (k : Ctl) (d a b : Reg)
  | gleave (k : Ctl) (d : Reg)
  | gbar (k : Ctl) (d a : Reg) (wait : Bool)
  | garrive (k : Ctl) (a : Reg)
  | gdrop (k : Ctl) (d : Reg)
  | gvote (k : Ctl) (d a b : Reg)
  | gred (k : Ctl) (d a b : Reg) (rop : Fin 9)
  | ginfo (k : Ctl) (d a : Reg) (item : Fin 7)
  -- tokens (chapter 17)
  | treq (k : Ctl) (d a : Reg) (all : Bool)
  | trel (k : Ctl) (d a : Reg)
  | tlend (k : Ctl) (d a b : Reg)
  | tstat (k : Ctl) (d : Reg) (item : Fin 9)
  -- tensors and copies (chapter 11)
  | tdef (k : Ctl) (t : TensorId) (b : Reg)
  | tget (k : Ctl) (t : TensorId) (b : Reg)
  | tdrop (k : Ctl) (t : TensorId)
  | copy (k : Ctl) (a : Reg) (sc : Scope)
  | copys (k : Ctl) (a b c : Reg) (sc : Scope)
  -- engines (chapters 12, 13, 14) and the gateway (chapter 21)
  | mm (k : Ctl) (a : Reg) (tx ty : Fin 1024) (acc : Bool)
  | mmdist (k : Ctl) (a : Reg) (tx ty : Fin 1024) (acc : Bool)
  | mmtopk (k : Ctl) (a b : Reg) (tx ty : Fin 1024) (dist : Bool)
  | spcomp (k : Ctl) (d : Reg) (tx ty : Fin 1024)
  | spmm (k : Ctl) (a b : Reg) (tx ty : Fin 1024) (acc : Bool)
  | attn (k : Ctl) (d a b : Reg) (tx ty : Fin 1024) (causal : Bool)
  | attmerge (k : Ctl) (a b : Reg) (tx ty : Fin 1024)
  | kvapp (k : Ctl) (d : Reg) (tx ty : Fin 1024)
  | kvlook (k : Ctl) (d a b : Reg) (tx : Fin 1024) (v : Bool)
  | ttset (k : Ctl) (a : Reg) (tx : Fin 1024)
  | ttmask (k : Ctl) (d a : Reg)
  | ttpos (k : Ctl) (d a : Reg) (depth : Bool)
  | ttprune (k : Ctl) (d a : Reg) (tx : Fin 1024) (clr : Bool)
  | ttclr (k : Ctl)
  | vemap (k : Ctl) (a b : Reg) (tx : Fin 1024)
  | vezip (k : Ctl) (a b : Reg) (tx ty : Fin 1024)
  | vered (k : Ctl) (a b : Reg) (tx : Fin 1024) (acc : Bool)
  | venorm (k : Ctl) (a b : Reg) (tx : Fin 1024) (gain : Option (Fin 1024)) (mean : Bool)
  | vesoft (k : Ctl) (a b : Reg) (tx : Fin 1024)
  | vecvt (k : Ctl) (a : Reg) (tx : Fin 1024) (rnd : Option RoundMode)
  | baddq (k : Ctl) (d a : Reg) (tx ty : Fin 1024) (f32 : Bool)
  | gwnext (k : Ctl) (d : Reg)
  -- special registers (R48), traps (chapter 6), system words (chapters 15 and 19)
  | mfs (k : Ctl) (d : Reg) (n : BitVec 12)
  | mts (k : Ctl) (n : BitVec 12) (a : Reg)
  | writeClass (k : Ctl) (a : Reg)
  | writeFpst (k : Ctl) (a : Reg)
  | writeRsp (k : Ctl) (a : Reg)
  | writeStatus (k : Ctl) (a : Reg)
  | writeDroopth (k : Ctl) (a : Reg)
  | writeCpwt (k : Ctl) (a : Reg)
  | readDroopcntCecnt (k : Ctl) (d : Reg) (cecnt : Bool)
  | trap (k : Ctl) (n : BitVec 16)
  | brk (k : Ctl) (n : BitVec 16)
  | rft (k : Ctl) (a b : Reg)
  | halt (k : Ctl)
  | nop (k : Ctl)
  | tgen (k : Ctl) (d a b : Reg)
  | cinvCode (k : Ctl)
  | cinvLine (k : Ctl) (a : Reg)
  | cinvRdc (k : Ctl) (a : Reg)
  | scrub (k : Ctl) (a : Reg)
  | route (k : Ctl) (d a : Reg) (cls : TrafficClass)
  | unassignedOpcode (w : Word)
  -- acts: block entry and the core's pipelines (chapters 2, 4, 8, 9)
  | blockEntry
  | longLatencyComplete (slot : Nat)
  | vectorSideStart (core : Nat)
  | vectorResultReturn (slot : Nat)
  | leaseRequest (core : Nat)
  | leaseIdleReturn (core : Nat)
  | droopWindowExpiry (core : Nat)
  | droopHoldExit (field : Nat)
  | storeBufferDrain (slot : Nat)
  | memoryReply (slot : Nat)
  -- acts: home slices, translation and the second tier (chapters 4, 15, 18)
  | homeSliceWrite (core : Nat) (line : Word)
  | counterAddition (field : Nat)
  | overflowSweep (field slice : Nat)
  | faultSweep (field : Nat)
  | tierPromotion (field : Nat)
  | promotionComplete (field : Nat)
  | generationAck (part : Nat)
  | generationSwitch (part : Nat)
  -- acts: strands and streams (chapters 10, 15)
  | pickUp (tile : Nat)
  | putDown (slot : Nat)
  | stalledSaveResume (part : Nat)
  | gatherEnd (tile : Nat) (stream : Fin 4)
  | privateFetchTurn (tile : Nat)
  | strandCreationContinue (slot : Nat)
  -- acts: copy engine, scrubber, engines, groups (chapters 11, 12, 15, 16)
  | copyChunk (tile : Nat)
  | copyCompletion (tile : Nat)
  | scrubberRun (field : Nat)
  | rowBlockStart (tile : Nat)
  | rowBlockEnd (tile : Nat)
  | engineIdleEnd (tile : Nat)
  | groupPrioRaise (uid : Nat)
  -- acts: brokers and the Crucible (chapter 17)
  | floorRequest (tile : Nat)
  | placementGrant (tile task : Nat)
  | leaveRequest (slot : Nat)
  | recallComplete (tile : Nat)
  | revocationNotice (tile : Nat)
  | revocationComplete (tile : Nat)
  | crucibleTopup (field : Nat)
  | crucibleReclaim (field : Nat)
  | taskEndReturn (tile : Nat)
  -- acts: the module scheduler (chapter 19)
  | taskHeaderRead (part vf : Nat) (queue : Fin 8)
  | taskLaunch (part : Nat)
  | aging (uid : Nat)
  | priorityPreemption (tile : Nat)
  | timeSlicePreemption (tile : Nat)
  | preemption (slot : Nat)
  | gridStop (task : Nat)
  | taskCompletion (task : Nat)
  | rollback (task : Nat)
  | assay (part : AssayPart)
  | bucketDecay (core : Nat) (whole : Bool)
  | wholeCoreAssay (core : Nat) (whole : Bool)
  | detourRoute
  | islandRetirement (field : Nat)
  | occupancySnapshot (field : Nat)
  | refreshManagement (stack : Fin 40) (pch : Fin 64) (bank : Fin 16)
  | refreshWindowEnd
  | haltRecord (part : Nat)
  | timeTick
  | assayEnd (part : AssayPart) (pass : Bool)
  | deactivate (part : Nat)
  -- acts: egress rings and sessions of the ports (chapter 21)
  | retransmitTimeout (port session : Nat)
  | egressDescriptor (port : Nat)
  | egressComplete (port : Nat) (res : Fin 4)
  -- what the outside does: bring-up, cooling and the management port (chapter 20)
  | setpool (field : Nat) (total : Option Nat) (allow : Option (Nat × Nat))
  | powerGood (links : List LinkReport) (failed : List Nat)
  | thermalWarning
  | thermalShutdown
  | readfuse
  | loadfw (image : FwImage)
  | attest (nonce : List Byte)
  | setrth (sector : Nat) (value : Nat)
  | loadkey (slot : Nat) (key : BitVec 256)
  | activate (pcb : Word)
  | links
  | mgmtHalt (part : Option Nat)
  | mgmtResume (part : Option Nat)
  | readbkt
  -- what the outside does: Giben packets and ports (chapter 21)
  | hello (port : Nat) (pk : Packet)
  | gibenAck (port : Nat) (pk : Packet)
  | gibenWrite (port : Nat) (pk : Packet)
  | gibenRead (port : Nat) (pk : Packet)
  | readrsp (port : Nat) (pk : Packet)
  | gibenAtomic (port : Nat) (pk : Packet)
  | gibenCadd (port : Nat) (pk : Packet)
  | append (port : Nat) (pk : Packet)
  | gibenBlock (port : Nat) (pk : Packet)
  | bind (port : Nat) (pk : Packet)
  | unbind (port : Nat) (pk : Packet)
  | gibenAttest (port : Nat) (pk : Packet)
  | track (port : Nat) (pk : Packet)
  | collect (port : Nat) (pk : Packet)
  | pause (port : Nat) (pk : Packet)
  | release (port : Nat) (pk : Packet)
  | gibenUnassignedKind (port : Nat) (pk : Packet)
  | portLinkDown (port : Nat)
  | portLinkUp (port : Nat)
  -- what the outside does: droop sensors and DRAM rows (chapters 9, 18)
  | senseEvent (core : Nat)
  | rowPrecharge (row : RowId) (activations : Nat) (parityFails : Bool)
  deriving DecidableEq, Repr

end Sys2Proof
end

