-- ==== Sys2Proof/WellFormed.lean ====
section
/-! DEFINITION. Sys2Proof/WellFormed.lean: which instruction words the encoding rules admit. Three checks in the order of
Table 2.7: EITHER (rank 2), fields and modifiers (rank 3), operand classes (rank 4). A check that depends on whether the
word is lane-wise takes the class of the latch, because operand code 80 counts as the class held in LCLS (R88). -/

namespace Sys2Proof

def Reg.isS : Reg → Bool
  | .s _ => true
  | _ => false

def Reg.isV : Reg → Bool
  | .v _ => true
  | _ => false

def Reg.isP : Reg → Bool
  | .p _ => true
  | _ => false

def Reg.isH : Reg → Bool
  | .h _ => true
  | _ => false

def Reg.isL : Reg → Bool
  | .latch => true
  | _ => false

/-- Class "s": s0 to s31, or L holding a scalar (R283, R327, R347, R367, R416, R449). -/
def Reg.sOrL (r : Reg) : Bool := r.isS || r.isL

/-- Class "v": v0 to v31, or L holding a vector. -/
def Reg.vOrL (r : Reg) : Bool := r.isV || r.isL

/-- Class "pred": a predicate, or L holding one (R96). -/
def Reg.pOrL (r : Reg) : Bool := r.isP || r.isL

/-- The register makes its instruction lane-wise (R63, R88). -/
def Reg.lane (lc : LCls) : Reg → Bool
  | .v _ => true
  | .latch => lc == .vector
  | _ => false

/-- Some register of the list makes the instruction lane-wise. -/
def laneOf (lc : LCls) (rs : List Reg) : Bool := rs.any (Reg.lane lc)

/-- Element width n of the integer instructions (R91). -/
def Width.bits (w : Width) (lane : Bool) : Nat :=
  match w with
  | .full => if lane then 32 else 64
  | .b8 => 8
  | .b16 => 16
  | .b32 => 32
  | .b64 => 64

/-- Destination of class int (R96): s or L in the scalar shape, v or L in the lane-wise shape. -/
def intDst (lane : Bool) : Reg → Bool
  | .s _ => !lane
  | .v _ => lane
  | .latch => true
  | _ => false

/-- Source of class int (R96): a scalar, a vector or L. -/
def intSrc : Reg → Bool
  | .s _ => true
  | .v _ => true
  | .latch => true
  | _ => false

/-- Destination and sources of class int. -/
def intOps (lc : LCls) (d : Reg) (as : List Reg) : Bool :=
  intDst (laneOf lc (d :: as)) d && as.all intSrc

/-- Destination of CMP and FCMP (R107): s, p or L in the scalar shape, p or L in the lane-wise shape. -/
def cmpOps (lc : LCls) (d : Reg) (as : List Reg) : Bool :=
  (match d with
   | .s _ => !laneOf lc as
   | .p _ => true
   | .latch => true
   | _ => false) && as.all intSrc

/-- Source of PANY, PALL and PCOUNT: s, p or L (R113). -/
def Reg.mask (r : Reg) : Bool := r.isS || r.isP || r.isL

/-- A pred1 operand of PLOG or VIOTA: a predicate or L, or the constant of all ones (R96). -/
def pred1 : Option Reg → Bool
  | none => true
  | some r => r.pOrL

/-- The class pairs of MOV form R (Table 3.5). -/
def movOps (lc : LCls) (d a : Reg) (w64 : Bool) : Bool :=
  match d, a with
  | .s _, .s _ => !w64
  | .s _, .p _ => !w64
  | .s _, .h _ => !w64
  | .s _, .latch => !w64 && lc != .vector
  | .v _, .s _ => true
  | .v _, .v _ => true
  | .v _, .latch => true
  | .p _, .s _ => !w64
  | .p _, .p _ => !w64
  | .p _, .latch => !w64
  | .latch, .s _ => !w64
  | .latch, .p _ => !w64
  | .latch, .h _ => !w64
  | .latch, .v _ => true
  | .latch, .latch => true
  | _, _ => false

/-- The classes of D and A stand in the lane-wise row of Table 3.5, the only one that accepts W = 4 (R109). The row is chosen by D, or
by the class of A where D is code 80. -/
def movW64 (lc : LCls) (d a : Reg) : Bool :=
  match d, a with
  | .v _, .v _ | .v _, .s _ => true
  | .v _, .latch => lc = .vector || lc = .scalar
  | .latch, _ => a.lane lc
  | _, _ => false

/-- The instruction writes a predicate to the destination named (R69): the only instructions that may carry EITHER. One that takes no
predicate there may not, whatever the code of D: ILLOP at rank 2 and not OPERAND at rank 4, DESIGN CHOICE (log 75). -/
def Instr.eitherOk (lc : LCls) : Instr → Bool
  | .cmpR _ d _ _ _ _ => d.pOrL
  | .cmpI _ d _ _ _ => d.pOrL
  | .fcmp _ d _ _ _ _ => d.pOrL
  | .plog _ d _ _ _ _ => d.pOrL
  | .pany _ d _ _ => d.pOrL
  | .pall _ d _ _ => d.pOrL
  | .ctest _ d _ _ _ _ => d.isP
  | .movR _ d a _ => d.isP || (d.isL && (a.isP || (a.isL && lc == .pred)))
  | _ => false

/-- The fields SEQ, G and LA of an instruction word; an act, and a word with an unassigned opcode, has none. -/
def Instr.ctl : Instr → Option Ctl
  | .addR k .. => some k
  | .addI k .. => some k
  | .sub k .. => some k
  | .mulR k .. => some k
  | .mulI k .. => some k
  | .mulh k .. => some k
  | .mulhu k .. => some k
  | .div k .. => some k
  | .divu k .. => some k
  | .rem k .. => some k
  | .remu k .. => some k
  | .andR k .. => some k
  | .andI k .. => some k
  | .orR k .. => some k
  | .orI k .. => some k
  | .xorR k .. => some k
  | .xorI k .. => some k
  | .andn k .. => some k
  | .orn k .. => some k
  | .xnor k .. => some k
  | .shlR k .. => some k
  | .shlI k .. => some k
  | .shrR k .. => some k
  | .shrI k .. => some k
  | .sarR k .. => some k
  | .sarI k .. => some k
  | .rotlR k .. => some k
  | .rotlI k .. => some k
  | .clz k .. => some k
  | .ctz k .. => some k
  | .popc k .. => some k
  | .brev k .. => some k
  | .minR k .. => some k
  | .minI k .. => some k
  | .maxR k .. => some k
  | .maxI k .. => some k
  | .minuR k .. => some k
  | .minuI k .. => some k
  | .maxuR k .. => some k
  | .maxuI k .. => some k
  | .abs k .. => some k
  | .addsat k .. => some k
  | .subsat k .. => some k
  | .sext k .. => some k
  | .zext k .. => some k
  | .bfx k .. => some k
  | .bfi k .. => some k
  | .movR k .. => some k
  | .movI k .. => some k
  | .sel k .. => some k
  | .cmpR k .. => some k
  | .cmpI k .. => some k
  | .scadd k .. => some k
  | .movw k .. => some k
  | .plog k .. => some k
  | .pany k .. => some k
  | .pall k .. => some k
  | .pcount k .. => some k
  | .fadd k .. => some k
  | .fsub k .. => some k
  | .fmul k .. => some k
  | .fma k .. => some k
  | .fms k .. => some k
  | .fnma k .. => some k
  | .fnms k .. => some k
  | .fdiv k .. => some k
  | .fsqrt k .. => some k
  | .frcp k .. => some k
  | .frsq k .. => some k
  | .fexp2 k .. => some k
  | .flog2 k .. => some k
  | .ftanh k .. => some k
  | .fmin k .. => some k
  | .fmax k .. => some k
  | .fabs k .. => some k
  | .fneg k .. => some k
  | .fcpys k .. => some k
  | .fcmp k .. => some k
  | .fclass k .. => some k
  | .fcvt k .. => some k
  | .ftoi k .. => some k
  | .itof k .. => some k
  | .fround k .. => some k
  | .vbcast k .. => some k
  | .vshuf k .. => some k
  | .vperm k .. => some k
  | .vslide k .. => some k
  | .vextr k .. => some k
  | .vins k .. => some k
  | .vred k .. => some k
  | .vscan k .. => some k
  | .vcompress k .. => some k
  | .viota k .. => some k
  | .bquant k .. => some k
  | .bdeq k .. => some k
  | .ld k .. => some k
  | .ldx k .. => some k
  | .st k .. => some k
  | .ldv k .. => some k
  | .stv k .. => some k
  | .ldg k .. => some k
  | .stsc k .. => some k
  | .pref k .. => some k
  | .aop k .. => some k
  | .acas k .. => some k
  | .afadd k .. => some k
  | .cadd k .. => some k
  | .cwait k .. => some k
  | .ctest k .. => some k
  | .fence k .. => some k
  | .split k => some k
  | .join k .. => some k
  | .spawn k .. => some k
  | .yieldOp k => some k
  | .endOp k => some k
  | .send k .. => some k
  | .gcreate k .. => some k
  | .gopen k .. => some k
  | .gleave k .. => some k
  | .gbar k .. => some k
  | .garrive k .. => some k
  | .gdrop k .. => some k
  | .gvote k .. => some k
  | .gred k .. => some k
  | .ginfo k .. => some k
  | .treq k .. => some k
  | .trel k .. => some k
  | .tlend k .. => some k
  | .tstat k .. => some k
  | .tdef k .. => some k
  | .tget k .. => some k
  | .tdrop k .. => some k
  | .copy k .. => some k
  | .copys k .. => some k
  | .mm k .. => some k
  | .mmdist k .. => some k
  | .mmtopk k .. => some k
  | .spcomp k .. => some k
  | .spmm k .. => some k
  | .attn k .. => some k
  | .attmerge k .. => some k
  | .kvapp k .. => some k
  | .kvlook k .. => some k
  | .ttset k .. => some k
  | .ttmask k .. => some k
  | .ttpos k .. => some k
  | .ttprune k .. => some k
  | .ttclr k => some k
  | .vemap k .. => some k
  | .vezip k .. => some k
  | .vered k .. => some k
  | .venorm k .. => some k
  | .vesoft k .. => some k
  | .vecvt k .. => some k
  | .baddq k .. => some k
  | .gwnext k .. => some k
  | .mfs k .. => some k
  | .mts k .. => some k
  | .writeClass k .. => some k
  | .writeFpst k .. => some k
  | .writeRsp k .. => some k
  | .writeStatus k .. => some k
  | .writeDroopth k .. => some k
  | .writeCpwt k .. => some k
  | .readDroopcntCecnt k .. => some k
  | .trap k .. => some k
  | .brk k .. => some k
  | .rft k .. => some k
  | .halt k => some k
  | .nop k => some k
  | .tgen k .. => some k
  | .cinvCode k => some k
  | .cinvLine k .. => some k
  | .cinvRdc k .. => some k
  | .scrub k .. => some k
  | .route k .. => some k
  | _ => none

/-- The instruction is long-latency: LL in Table 2.8. -/
def Instr.isLL : Instr → Bool
  | .div .. | .divu .. | .rem .. | .remu .. => true
  | .fdiv .. | .fsqrt .. | .frcp .. | .frsq .. | .fexp2 .. | .flog2 .. | .ftanh .. => true
  | .vred .. | .vscan .. | .bquant .. | .bdeq .. => true
  | .ld .. | .ldx .. | .ldv .. | .ldg .. => true
  | .aop .. | .acas .. | .afadd .. | .ctest .. => true
  | .mm .. | .mmdist .. | .mmtopk .. | .spcomp .. | .spmm .. => true
  | .attn .. | .attmerge .. | .kvapp .. | .kvlook .. | .ttprune .. => true
  | .vemap .. | .vezip .. | .vered .. | .venorm .. | .vesoft .. | .vecvt .. => true
  | .baddq .. => true
  | _ => false

/-- An operand format that every instruction but FCVT accepts (R224). -/
def fmtOk : Option FpFmt → Bool
  | some .e4m3 => false
  | some .e5m2 => false
  | _ => true

/-- A source format of BQUANT or a target format of BDEQ (R244). -/
def blkFmtOk : Option FpFmt → Bool
  | none => true
  | some .fp32 => true
  | some .fp16 => true
  | some .bf16 => true
  | _ => false

/-- SX is accepted on a vector load of elements of 1 and 2 bytes only (Table 4.7). -/
def vecSxOk (sz : VecSz) (sx : Bool) : Bool :=
  !sx || sz == .b || sz == .h

/-- An atomic, a counter operation or a copy names a scope from .tile to .system (R127, R309). -/
def wideScope : Scope → Bool
  | .strand => false
  | _ => true

/-- ROP and its modifiers on VRED and VSCAN (R240). -/
def Rop.isFp : Rop → Bool
  | .fadd | .fmin | .fmax => true
  | _ => false

def ropOk (rop : Rop) (rnd : Option RoundMode) (xs : Bool) (w : Width) : Bool :=
  if rop.isFp then !xs && (w == .full || w == .b64) else rnd == none

/-- SEXT and ZEXT: W 0 to 3 in the scalar shape, 0 to 2 in the lane-wise shape (R104). -/
def extOk (lane : Bool) (w : Width) : Bool :=
  match w with
  | .full | .b8 | .b16 => true
  | .b32 => !lane
  | .b64 => false

/-- Rank 3 of Table 2.7: a field or modifier that the description does not list, LA included. A condition that concerns
the place of the word in its block (LA beyond the block, JOIN at another word than the first) is not of this function. -/
def Instr.fieldsOk (lc : LCls) (i : Instr) : Bool :=
  (match i.ctl with
   | some k => i.isLL || k.la == 0
   | none => true) &&
  match i with
  | .sext _ d a w | .zext _ d a w => extOk (laneOf lc [d, a]) w
  | .bfx _ d a m pos lenm => pos.val + lenm.val + 1 ≤ m.w.bits (laneOf lc [d, a])
  | .bfi _ d a b m pos lenm => pos.val + lenm.val + 1 ≤ m.w.bits (laneOf lc [d, a, b])
  | .movR _ d a w64 => !w64 || movW64 lc d a
  | .movw _ d hw _ => !(d.lane lc) || hw.val ≤ 1
  | .plog _ _ a b c _ => a != some (.s 0) && b != some (.s 0) && c != some (.s 0)
  | .pany _ _ _ b | .pall _ _ _ b | .pcount _ _ _ b => b != some (.s 0)
  | .viota _ _ a _ => a != some (.s 0)
  | .fadd _ _ _ _ _ ft | .fsub _ _ _ _ _ ft | .fmul _ _ _ _ _ ft | .fdiv _ _ _ _ _ ft => fmtOk ft
  | .fma _ _ _ _ _ _ ft | .fms _ _ _ _ _ _ ft | .fnma _ _ _ _ _ _ ft | .fnms _ _ _ _ _ _ ft => fmtOk ft
  | .fsqrt _ _ _ _ ft | .frcp _ _ _ _ ft | .fround _ _ _ _ ft => fmtOk ft
  | .frsq _ _ _ ft | .fexp2 _ _ _ ft | .flog2 _ _ _ ft | .ftanh _ _ _ ft => fmtOk ft
  | .fmin _ _ _ _ ft | .fmax _ _ _ _ ft | .fcpys _ _ _ _ ft => fmtOk ft
  | .fabs _ _ _ ft | .fneg _ _ _ ft | .fclass _ _ _ ft => fmtOk ft
  | .fcmp _ _ _ _ ft _ => fmtOk ft
  | .ftoi _ _ _ _ ft _ _ | .itof _ _ _ _ ft _ _ => fmtOk ft
  | .vshuf _ _ _ sh w64 =>
    match sh with
    | .xor k => !w64 || k.val < 32
    | _ => true
  | .vred _ _ _ rop rnd m => ropOk rop rnd m.xs m.w
  | .vscan _ _ _ rop rnd _ w => ropOk rop rnd false w
  | .bquant _ _ _ ft _ => blkFmtOk ft
  | .bdeq _ _ _ _ ft _ => blkFmtOk ft
  | .ldv _ _ _ _ sz sx => vecSxOk sz sx
  | .ldg _ _ _ _ _ sz sx => vecSxOk sz sx
  | .aop _ _ _ _ _ _ sc _ _ => wideScope sc
  | .acas _ _ _ _ _ _ sc _ _ => wideScope sc
  | .afadd _ _ _ _ _ sc _ => wideScope sc
  | .cadd _ _ _ sc => wideScope sc
  | .cwait _ _ _ _ sc => wideScope sc
  | .ctest _ d _ b _ sc => wideScope sc && (d.isP || b == .s 0)
  | .copy _ _ sc => wideScope sc
  | .copys _ _ _ _ sc => wideScope sc
  | .join k _ => !k.neg && k.gp == 0
  | .endOp k => k.seq == .next
  | .trap k _ => k.seq == .next
  | .brk k _ => k.seq == .next
  | .rft k _ _ => k.seq == .next
  | .mfs _ _ n => n != 0x105#12 && n != 0x106#12
  | .mts _ n _ => n != 0x000#12 && n != 0x004#12 && n != 0x007#12 && n != 0x009#12 && n != 0x104#12 && n != 0x107#12
  | _ => true

/-- Rank 4 of Table 2.7: every operand position holds a register of a class that it accepts. -/
def Instr.operandsOk (lc : LCls) : Instr → Bool
  | .addR _ d a b _ | .sub _ d a b _ | .mulR _ d a b _ | .mulh _ d a b _ | .mulhu _ d a b _ => intOps lc d [a, b]
  | .div _ d a b _ | .divu _ d a b _ | .rem _ d a b _ | .remu _ d a b _ => intOps lc d [a, b]
  | .andR _ d a b _ | .orR _ d a b _ | .xorR _ d a b _ | .andn _ d a b _ | .orn _ d a b _ | .xnor _ d a b _ =>
    intOps lc d [a, b]
  | .shlR _ d a b _ | .shrR _ d a b _ | .sarR _ d a b _ | .rotlR _ d a b _ => intOps lc d [a, b]
  | .minR _ d a b _ | .maxR _ d a b _ | .minuR _ d a b _ | .maxuR _ d a b _ => intOps lc d [a, b]
  | .addsat _ d a b _ _ | .subsat _ d a b _ _ => intOps lc d [a, b]
  | .bfi _ d a b _ _ _ => intOps lc d [a, b]
  | .scadd _ d a b _ _ => intOps lc d [a, b]
  | .addI _ d a _ | .mulI _ d a _ | .andI _ d a _ | .orI _ d a _ | .xorI _ d a _ => intOps lc d [a]
  | .shlI _ d a _ | .shrI _ d a _ | .sarI _ d a _ | .rotlI _ d a _ => intOps lc d [a]
  | .minI _ d a _ | .maxI _ d a _ | .minuI _ d a _ | .maxuI _ d a _ => intOps lc d [a]
  | .clz _ d a _ | .ctz _ d a _ | .popc _ d a _ | .brev _ d a _ | .abs _ d a _ => intOps lc d [a]
  | .sext _ d a _ | .zext _ d a _ => intOps lc d [a]
  | .bfx _ d a _ _ _ => intOps lc d [a]
  | .movR _ d a w64 => movOps lc d a w64
  | .movI _ d _ => intDst (laneOf lc [d]) d
  | .movw _ d _ _ => intDst (laneOf lc [d]) d
  | .sel _ d a b c _ => intOps lc d [a, b] && c.pOrL
  | .cmpR _ d a b _ _ => cmpOps lc d [a, b]
  | .cmpI _ d a _ _ => cmpOps lc d [a]
  | .plog _ d a b c _ => d.pOrL && pred1 a && pred1 b && pred1 c
  | .pany _ d a b | .pall _ d a b => (d.isS || d.pOrL) && a.mask && (b.all Reg.mask)
  | .pcount _ d a b => d.sOrL && a.mask && (b.all Reg.mask)
  | .fadd _ d a b _ _ | .fsub _ d a b _ _ | .fmul _ d a b _ _ | .fdiv _ d a b _ _ => intOps lc d [a, b]
  | .fma _ d a b c _ _ | .fms _ d a b c _ _ | .fnma _ d a b c _ _ | .fnms _ d a b c _ _ =>
    intOps lc d [a, b, c] && !(c.isV && !laneOf lc [d, a, b])
  | .fsqrt _ d a _ _ | .frcp _ d a _ _ | .fround _ d a _ _ => intOps lc d [a]
  | .frsq _ d a _ | .fexp2 _ d a _ | .flog2 _ d a _ | .ftanh _ d a _ => intOps lc d [a]
  | .fmin _ d a b _ | .fmax _ d a b _ | .fcpys _ d a b _ => intOps lc d [a, b]
  | .fabs _ d a _ | .fneg _ d a _ | .fclass _ d a _ => intOps lc d [a]
  | .fcmp _ d a b _ _ => cmpOps lc d [a, b]
  | .fcvt _ d a _ _ _ => intOps lc d [a]
  | .ftoi _ d a _ _ _ _ | .itof _ d a _ _ _ _ => intOps lc d [a]
  | .vbcast _ d a b _ => d.vOrL && a.vOrL && b.sOrL
  | .vshuf _ d a sh _ => d.vOrL && a.vOrL &&
    match sh with
    | .xor _ => true
    | .ziplo b | .ziphi b | .unze b | .unzo b => b.vOrL
  | .vperm _ d a b c _ => d.vOrL && a.vOrL && b.vOrL && c.vOrL
  | .vslide _ d a b c _ _ => d.vOrL && a.vOrL && b.vOrL && c.sOrL
  | .vextr _ d a b _ _ => d.sOrL && a.vOrL && b.sOrL
  | .vins _ d a b _ => d.vOrL && a.sOrL && b.sOrL
  | .vred _ d a _ _ _ => d.sOrL && a.vOrL
  | .vscan _ d a _ _ _ _ => d.vOrL && a.vOrL
  | .vcompress _ d a _ => d.vOrL && a.vOrL
  | .viota _ d a _ => d.vOrL && pred1 a
  | .bquant _ d a _ _ => d.vOrL && a.vOrL
  | .bdeq _ d a _ _ _ => d.vOrL && a.vOrL
  | .ld _ d a _ _ _ _ => d.sOrL && a.sOrL
  | .ldx _ d a b _ _ _ _ => d.sOrL && a.sOrL && b.sOrL
  | .st _ d a _ _ _ => d.sOrL && a.sOrL
  | .ldv _ d a _ _ _ => d.vOrL && a.sOrL
  | .stv _ d a _ _ => d.vOrL && a.sOrL
  | .ldg _ d a b _ _ _ => d.vOrL && a.sOrL && b.vOrL
  | .stsc _ a b c _ _ => a.sOrL && b.vOrL && c.vOrL
  | .pref _ a _ _ => a.sOrL
  | .aop _ d a b _ _ _ _ _ => d.sOrL && a.sOrL && b.sOrL
  | .acas _ d a b c _ _ _ _ => d.sOrL && a.sOrL && b.sOrL && c.sOrL
  | .afadd _ d a b _ _ _ => d.sOrL && a.sOrL && b.sOrL
  | .cadd _ a b _ => a.sOrL && b.sOrL
  | .cwait _ d a b _ => d.sOrL && a.sOrL && b.sOrL
  | .ctest _ d a b _ _ => (d.sOrL || d.isP) && a.sOrL && b.sOrL
  | .fence .. => true
  | .split _ => true
  | .join _ d => d.sOrL
  | .spawn _ d a b c => d.sOrL && a.sOrL && b.sOrL && c.sOrL
  | .yieldOp _ => true
  | .endOp _ => true
  | .send _ d a b c _ => d.sOrL && a.sOrL && b.sOrL && c.sOrL
  | .gcreate _ d a b => d.sOrL && a.sOrL && b.sOrL
  | .gopen _ d a b => d.sOrL && a.sOrL && b.sOrL
  | .gleave _ d => d.isH
  | .gbar _ d a _ => d.sOrL && a.isH
  | .garrive _ a => a.isH
  | .gdrop _ d => d.isH
  | .gvote _ d a b => d.sOrL && a.isH && b.pOrL
  | .gred _ d a b _ => d.sOrL && a.isH && b.sOrL
  | .ginfo _ d a _ => d.sOrL && a.isH
  | .treq _ d a _ => d.sOrL && a.sOrL
  | .trel _ d a => d.sOrL && a.sOrL
  | .tlend _ d a b => d.sOrL && a.sOrL && b.sOrL
  | .tstat _ d _ => d.sOrL
  | .tdef _ t b | .tget _ t b => b.sOrL &&
    match t with
    | .lit _ => true
    | .reg r => r.sOrL
  | .tdrop _ t =>
    match t with
    | .lit _ => true
    | .reg r => r.sOrL
  | .copy _ a _ => a.sOrL
  | .copys _ a b c _ => a.sOrL && b.sOrL && c.sOrL
  | .mm _ a _ _ _ | .mmdist _ a _ _ _ => a.sOrL
  | .mmtopk _ a b _ _ _ => a.sOrL && b.sOrL
  | .spcomp _ d _ _ => d.vOrL
  | .spmm _ a b _ _ _ => a.sOrL && b.vOrL
  | .attn _ d a b _ _ _ => d.sOrL && a.sOrL && b.sOrL
  | .attmerge _ a b _ _ => a.sOrL && b.sOrL
  | .kvapp _ d _ _ => d.sOrL
  | .kvlook _ d a b _ _ => d.vOrL && a.sOrL && b.sOrL
  | .ttset _ a _ => a.sOrL
  | .ttmask _ d a => d.vOrL && a.sOrL
  | .ttpos _ d a _ => d.vOrL && a.sOrL
  | .ttprune _ d a _ _ => d.sOrL && a.sOrL
  | .ttclr _ => true
  | .vemap _ a b _ => a.sOrL && b.sOrL
  | .vezip _ a b _ _ => a.sOrL && b.sOrL
  | .vered _ a b _ _ => a.sOrL && b.sOrL
  | .venorm _ a b _ _ _ => a.sOrL && b.sOrL
  | .vesoft _ a b _ => a.sOrL && b.sOrL
  | .vecvt _ a _ _ => a.sOrL
  | .baddq _ d a _ _ _ => d.sOrL && a.sOrL
  | .gwnext _ d => d.sOrL
  | .mfs _ d _ => d.sOrL
  | .mts _ _ a => a.sOrL
  | .writeClass _ a | .writeFpst _ a | .writeRsp _ a | .writeStatus _ a | .writeDroopth _ a | .writeCpwt _ a => a.sOrL
  | .readDroopcntCecnt _ d _ => d.sOrL
  | .rft _ a b => a.sOrL && b.sOrL
  | .tgen _ d a b => d.sOrL && a.sOrL && b.sOrL
  | .cinvLine _ a | .cinvRdc _ a => a.sOrL
  | .scrub _ a => a.sOrL
  | .route _ d a _ => d.sOrL && a.sOrL
  | _ => true

/-- Rank 2 of Table 2.7: EITHER stands only on an instruction that writes a predicate, without a guard (R69). -/
def Instr.seqOk (lc : LCls) (i : Instr) : Bool :=
  match i.ctl with
  | some k => k.seq != .either || (!k.neg && k.gp == 0 && i.eitherOk lc)
  | none => true

/-- OP is a code of Table 2.8 that names an instruction: every code of the map but "—" and the header mark. -/
def opAssigned (op : Nat) : Bool :=
  (op ≤ 0x25) || (0x28 ≤ op && op ≤ 0x37) || (0x40 ≤ op && op ≤ 0x58) || (0x70 ≤ op && op ≤ 0x7D) ||
  (0x80 ≤ op && op ≤ 0x8E) || (0xA0 ≤ op && op ≤ 0xAE) || (0xB0 ≤ op && op ≤ 0xB6) || (0xB8 ≤ op && op ≤ 0xB9) ||
  (0xC0 ≤ op && op ≤ 0xC2) || (0xC8 ≤ op && op ≤ 0xC9) || (0xD0 ≤ op && op ≤ 0xD3) || (0xD8 ≤ op && op ≤ 0xDC) ||
  (0xE0 ≤ op && op ≤ 0xE5) || (0xE8 ≤ op && op ≤ 0xE9) || (0xEC ≤ op && op ≤ 0xED) || (0xF0 ≤ op && op ≤ 0xF6) ||
  (0xF8 ≤ op && op ≤ 0xFB)

/-- An instruction that the encoding rules admit when the latch has class `lc`. Acts are admitted as they stand. -/
def WellFormed (lc : LCls) (i : Instr) : Bool :=
  (match i with
   | .unassignedOpcode w => !opAssigned (w.toNat / 2 ^ 56)
   | _ => true) && i.seqOk lc && i.fieldsOk lc && i.operandsOk lc

end Sys2Proof
end

