-- ==== Sys2Proof/Decode.lean ====
section
/-! DEFINITION. Sys2Proof/Decode.lean: from an instruction word to an instruction (Tables 2.2 to 2.8 and the encoding
table of each chapter), and after it the encoder. Decoding reads the fields once. It refuses by name: `illop` for ranks 1
to 3 of Table 2.7, `operand` for rank 4. -/

namespace Sys2Proof

/-- Why a word is not an instruction: ILLOP (Table 2.7, ranks 2 and 3) or OPERAND (rank 4). A word with an unassigned
opcode (rank 1) decodes to `Instr.unassignedOpcode`, whose meaning raises ILLOP. -/
inductive DecErr where
  | illop
  | operand
  deriving DecidableEq, Repr

/-- The fields of an instruction word (Table 2.2). -/
structure Raw where
  op  : BitVec 8
  seq : BitVec 4
  g   : BitVec 4
  la  : BitVec 4
  d   : BitVec 7
  a   : BitVec 7
  b   : BitVec 7
  x   : BitVec 23
  deriving DecidableEq, Repr

def Raw.split (w : Word) : Raw :=
  { op := w.extractLsb' 56 8, seq := w.extractLsb' 52 4, g := w.extractLsb' 48 4, la := w.extractLsb' 44 4
    d := w.extractLsb' 37 7, a := w.extractLsb' 30 7, b := w.extractLsb' 23 7, x := w.extractLsb' 0 23 }

/-- The word with these fields. -/
def Raw.pack (r : Raw) : Word := r.op ++ r.seq ++ r.g ++ r.la ++ r.d ++ r.a ++ r.b ++ r.x

/-- Form R: the fourth operand code and MOD (Table 2.3). -/
def Raw.c (r : Raw) : BitVec 7 := r.x.extractLsb' 16 7
def Raw.md (r : Raw) : BitVec 16 := r.x.extractLsb' 0 16

/-- Form E: TX, TY and EMOD (Table 2.3). -/
def Raw.tx (r : Raw) : Fin 1024 := (r.x.extractLsb' 13 10).toFin
def Raw.ty (r : Raw) : Fin 1024 := (r.x.extractLsb' 3 10).toFin
def Raw.em (r : Raw) : BitVec 3 := r.x.extractLsb' 0 3

/-! Codes of the enumerations, each with its reader. -/

def Seq.code : Seq → BitVec 4
  | .next => 0 | .t0 => 1 | .t1 => 2 | .either => 3 | .callT0 => 4 | .callBt => 5 | .goBt => 6 | .ret => 7 | .loop => 8

def Seq.ofCode (c : BitVec 4) : Option Seq :=
  match c.toNat with
  | 0 => some .next | 1 => some .t0 | 2 => some .t1 | 3 => some .either | 4 => some .callT0
  | 5 => some .callBt | 6 => some .goBt | 7 => some .ret | 8 => some .loop | _ => none

/-- Table 2.4: the code of a register. -/
def Reg.code : Reg → BitVec 7
  | .s n => BitVec.ofNat 7 n.val
  | .v n => BitVec.ofNat 7 (32 + n.val)
  | .p n => BitVec.ofNat 7 (64 + n.val)
  | .h n => BitVec.ofNat 7 (72 + n.val)
  | .latch => 80

/-- Table 2.4: the register of a code. A code from 81 to 127 selects none; `codeOk` refuses it, and h0 stands for it here,
a register that makes no instruction lane-wise. -/
def Reg.ofCode (c : BitVec 7) : Reg :=
  let n := c.toNat
  if n < 32 then .s (Fin.ofNat 32 n)
  else if n < 64 then .v (Fin.ofNat 32 (n - 32))
  else if n < 72 then .p (Fin.ofNat 8 (n - 64))
  else if n < 80 then .h (Fin.ofNat 8 (n - 72))
  else if n = 80 then .latch
  else .h 0

def codeOk (c : BitVec 7) : Bool := c.toNat ≤ 80

def Width.code : Width → BitVec 3
  | .full => 0 | .b8 => 1 | .b16 => 2 | .b32 => 3 | .b64 => 4

def Width.ofCode (c : BitVec 3) : Option Width :=
  match c.toNat with
  | 0 => some .full | 1 => some .b8 | 2 => some .b16 | 3 => some .b32 | 4 => some .b64 | _ => none

/-- W of the lane instructions and of MOV: 0, or 4 for elements of 64 bits. -/
def w64Code (b : Bool) : BitVec 3 := if b then 4 else 0

def w64Of (c : BitVec 3) : Option Bool :=
  match c.toNat with
  | 0 => some false | 4 => some true | _ => none

def CmpCc.code : CmpCc → BitVec 4
  | .eq => 0 | .ne => 1 | .lt => 2 | .ge => 3 | .ltu => 4 | .geu => 5 | .le => 6 | .gt => 7 | .leu => 8 | .gtu => 9
  | .any => 10 | .none => 11

def CmpCc.ofCode (c : BitVec 4) : Option CmpCc :=
  match c.toNat with
  | 0 => some .eq | 1 => some .ne | 2 => some .lt | 3 => some .ge | 4 => some .ltu | 5 => some .geu
  | 6 => some .le | 7 => some .gt | 8 => some .leu | 9 => some .gtu | 10 => some .any | 11 => some .none
  | _ => Option.none

/-- The rounding field (Table 7.4): 0 selects FPST.RM. -/
def rndCode : Option RoundMode → BitVec 3
  | none => 0 | some .rne => 1 | some .rz => 2 | some .rup => 3 | some .rdn => 4 | some .rna => 5

def rndOf (c : BitVec 3) : Option (Option RoundMode) :=
  match c.toNat with
  | 0 => some none | 1 => some (some .rne) | 2 => some (some .rz) | 3 => some (some .rup) | 4 => some (some .rdn)
  | 5 => some (some .rna) | _ => none

/-- Table 8.2. -/
def fmtCode : Option FpFmt → BitVec 3
  | none => 0 | some .fp32 => 1 | some .fp64 => 2 | some .fp16 => 3 | some .bf16 => 4 | some .e4m3 => 5 | some .e5m2 => 6

def fmtOf (c : BitVec 3) : Option (Option FpFmt) :=
  match c.toNat with
  | 0 => some none | 1 => some (some .fp32) | 2 => some (some .fp64) | 3 => some (some .fp16) | 4 => some (some .bf16)
  | 5 => some (some .e4m3) | 6 => some (some .e5m2) | _ => none

def FcmpCc.code : FcmpCc → BitVec 4
  | .eq => 0 | .ne => 1 | .lt => 2 | .le => 3 | .gt => 4 | .ge => 5 | .uo => 6 | .o => 7

def FcmpCc.ofCode (c : BitVec 4) : Option FcmpCc :=
  match c.toNat with
  | 0 => some .eq | 1 => some .ne | 2 => some .lt | 3 => some .le | 4 => some .gt | 5 => some .ge | 6 => some .uo
  | 7 => some .o | _ => none

def Rop.code : Rop → BitVec 4
  | .add => 0 | .and => 1 | .or => 2 | .xor => 3 | .min => 4 | .max => 5 | .minu => 6 | .maxu => 7 | .fadd => 8
  | .fmin => 9 | .fmax => 10

def Rop.ofCode (c : BitVec 4) : Option Rop :=
  match c.toNat with
  | 0 => some .add | 1 => some .and | 2 => some .or | 3 => some .xor | 4 => some .min | 5 => some .max | 6 => some .minu
  | 7 => some .maxu | 8 => some .fadd | 9 => some .fmin | 10 => some .fmax | _ => none

def ScalarSz.code : ScalarSz → BitVec 2
  | .d => 0 | .b => 1 | .h => 2 | .w => 3

def ScalarSz.ofCode (c : BitVec 2) : ScalarSz :=
  match c.toNat with
  | 0 => .d | 1 => .b | 2 => .h | _ => .w

def VecSz.code : VecSz → BitVec 2
  | .w => 0 | .b => 1 | .h => 2 | .d => 3

def VecSz.ofCode (c : BitVec 2) : VecSz :=
  match c.toNat with
  | 0 => .w | 1 => .b | 2 => .h | _ => .d

def Scope.code : Scope → BitVec 3
  | .strand => 0 | .tile => 1 | .field => 2 | .sector => 3 | .module => 4 | .system => 5

def Scope.ofCode (c : BitVec 3) : Option Scope :=
  match c.toNat with
  | 0 => some .strand | 1 => some .tile | 2 => some .field | 3 => some .sector | 4 => some .module | 5 => some .system
  | _ => none

def Ord4.code : Ord4 → BitVec 2
  | .relaxed => 0 | .acquire => 1 | .release => 2 | .acqRel => 3

def Ord4.ofCode (c : BitVec 2) : Ord4 :=
  match c.toNat with
  | 0 => .relaxed | 1 => .acquire | 2 => .release | _ => .acqRel

def AopOp.code : AopOp → BitVec 4
  | .add => 0 | .and => 1 | .or => 2 | .xor => 3 | .min => 4 | .max => 5 | .minu => 6 | .maxu => 7 | .swap => 8

def AopOp.ofCode (c : BitVec 4) : Option AopOp :=
  match c.toNat with
  | 0 => some .add | 1 => some .and | 2 => some .or | 3 => some .xor | 4 => some .min | 5 => some .max | 6 => some .minu
  | 7 => some .maxu | 8 => some .swap | _ => none

def FenceKind.code : FenceKind → BitVec 4
  | .seq => 0 | .acq => 1 | .rel => 2 | .ar => 3

def FenceKind.ofCode (c : BitVec 4) : Option FenceKind :=
  match c.toNat with
  | 0 => some .seq | 1 => some .acq | 2 => some .rel | 3 => some .ar | _ => none

def TrafficClass.code : TrafficClass → BitVec 3
  | .req => 0 | .rsp => 1 | .sync => 2 | .bulk => 3 | .port => 4

def TrafficClass.ofCode (c : BitVec 3) : Option TrafficClass :=
  match c.toNat with
  | 0 => some .req | 1 => some .rsp | 2 => some .sync | 3 => some .bulk | 4 => some .port | _ => none

def b1 (b : Bool) : BitVec 1 := if b then 1 else 0

/-- SEQ, G and LA (R60); a SEQ code from 9 to 15 is refused (R66). -/
def Raw.ctl (r : Raw) : Option Ctl :=
  (Seq.ofCode r.seq).map fun q =>
    { seq := q, neg := r.g.getLsbD 3, gp := (r.g.extractLsb' 0 3).toFin, la := r.la.toFin }

/-- A word whose fields the decoder has read: the instruction, and whether every operand code names a register. -/
abbrev Parsed := Option (Instr × Bool)

/-! One reader for each shape of encoding. Each refuses an unused field that is not zero and a modifier that is not listed
(R61). -/

def rInt3 (r : Raw) (f : Ctl → Reg → Reg → Reg → IntMod → Instr) : Parsed := do
  let k ← r.ctl
  let w ← Width.ofCode (r.md.extractLsb' 0 3)
  if r.c = 0 ∧ r.md.extractLsb' 4 12 = 0 then
    some (f k (.ofCode r.d) (.ofCode r.a) (.ofCode r.b) ⟨w, r.md.getLsbD 3⟩, codeOk r.d && codeOk r.a && codeOk r.b)
  else none

def rInt2 (r : Raw) (f : Ctl → Reg → Reg → IntMod → Instr) : Parsed := do
  let k ← r.ctl
  let w ← Width.ofCode (r.md.extractLsb' 0 3)
  if r.b = 0 ∧ r.c = 0 ∧ r.md.extractLsb' 4 12 = 0 then
    some (f k (.ofCode r.d) (.ofCode r.a) ⟨w, r.md.getLsbD 3⟩, codeOk r.d && codeOk r.a)
  else none

def rExt (r : Raw) (f : Ctl → Reg → Reg → Width → Instr) : Parsed := do
  let k ← r.ctl
  let w ← Width.ofCode (r.md.extractLsb' 0 3)
  if r.b = 0 ∧ r.c = 0 ∧ r.md.extractLsb' 3 13 = 0 then
    some (f k (.ofCode r.d) (.ofCode r.a) w, codeOk r.d && codeOk r.a)
  else none

def rImm (r : Raw) (f : Ctl → Reg → Reg → BitVec 23 → Instr) : Parsed := do
  let k ← r.ctl
  if r.b = 0 then some (f k (.ofCode r.d) (.ofCode r.a) r.x, codeOk r.d && codeOk r.a) else none

def rSat (r : Raw) (f : Ctl → Reg → Reg → Reg → IntMod → Bool → Instr) : Parsed := do
  let k ← r.ctl
  let w ← Width.ofCode (r.md.extractLsb' 0 3)
  if r.c = 0 ∧ r.md.extractLsb' 5 11 = 0 then
    some (f k (.ofCode r.d) (.ofCode r.a) (.ofCode r.b) ⟨w, r.md.getLsbD 3⟩ (r.md.getLsbD 4),
      codeOk r.d && codeOk r.a && codeOk r.b)
  else none

def rBfx (r : Raw) : Parsed := do
  let k ← r.ctl
  let w ← Width.ofCode (r.md.extractLsb' 0 3)
  if r.b = 0 ∧ r.c = 0 then
    some (.bfx k (.ofCode r.d) (.ofCode r.a) ⟨w, r.md.getLsbD 3⟩ (r.md.extractLsb' 4 6).toFin (r.md.extractLsb' 10 6).toFin,
      codeOk r.d && codeOk r.a)
  else none

def rBfi (r : Raw) : Parsed := do
  let k ← r.ctl
  let w ← Width.ofCode (r.md.extractLsb' 0 3)
  if r.c = 0 then
    some (.bfi k (.ofCode r.d) (.ofCode r.a) (.ofCode r.b) ⟨w, r.md.getLsbD 3⟩ (r.md.extractLsb' 4 6).toFin
      (r.md.extractLsb' 10 6).toFin, codeOk r.d && codeOk r.a && codeOk r.b)
  else none

def rMov (r : Raw) : Parsed := do
  let k ← r.ctl
  let w ← w64Of (r.md.extractLsb' 0 3)
  if r.b = 0 ∧ r.c = 0 ∧ r.md.extractLsb' 3 13 = 0 then
    some (.movR k (.ofCode r.d) (.ofCode r.a) w, codeOk r.d && codeOk r.a)
  else none

def rMovI (r : Raw) : Parsed := do
  let k ← r.ctl
  if r.a = 0 ∧ r.b = 0 then some (.movI k (.ofCode r.d) r.x, codeOk r.d) else none

def rSel (r : Raw) : Parsed := do
  let k ← r.ctl
  let w ← Width.ofCode (r.md.extractLsb' 0 3)
  if r.md.extractLsb' 4 12 = 0 then
    some (.sel k (.ofCode r.d) (.ofCode r.a) (.ofCode r.b) (.ofCode r.c) ⟨w, r.md.getLsbD 3⟩,
      codeOk r.d && codeOk r.a && codeOk r.b && codeOk r.c)
  else none

def rCmp (r : Raw) : Parsed := do
  let k ← r.ctl
  let w ← Width.ofCode (r.md.extractLsb' 0 3)
  let cc ← CmpCc.ofCode (r.md.extractLsb' 4 4)
  if r.c = 0 ∧ r.md.extractLsb' 3 1 = 0 ∧ r.md.extractLsb' 8 8 = 0 then
    some (.cmpR k (.ofCode r.d) (.ofCode r.a) (.ofCode r.b) w cc, codeOk r.d && codeOk r.a && codeOk r.b)
  else none

def rCmpI (r : Raw) : Parsed := do
  let k ← r.ctl
  let cc ← CmpCc.ofCode (r.b.extractLsb' 0 4)
  if r.b.extractLsb' 4 3 = 0 then
    some (.cmpI k (.ofCode r.d) (.ofCode r.a) cc r.x, codeOk r.d && codeOk r.a)
  else none

def rScadd (r : Raw) : Parsed := do
  let k ← r.ctl
  let w ← Width.ofCode (r.md.extractLsb' 0 3)
  if r.c = 0 ∧ r.md.extractLsb' 10 6 = 0 then
    some (.scadd k (.ofCode r.d) (.ofCode r.a) (.ofCode r.b) ⟨w, r.md.getLsbD 3⟩ (r.md.extractLsb' 4 6).toFin,
      codeOk r.d && codeOk r.a && codeOk r.b)
  else none

def rMovw (r : Raw) : Parsed := do
  let k ← r.ctl
  if r.a = 0 ∧ r.b.extractLsb' 2 5 = 0 ∧ r.x.extractLsb' 16 7 = 0 then
    some (.movw k (.ofCode r.d) (r.b.extractLsb' 0 2).toFin (r.x.extractLsb' 0 16), codeOk r.d)
  else none

/-- A pred1 operand: code 0 stands for all ones (R96). -/
def pred1Of (c : BitVec 7) : Option Reg := if c = 0 then none else some (.ofCode c)

def rPlog (r : Raw) : Parsed := do
  let k ← r.ctl
  if r.md.extractLsb' 8 8 = 0 then
    some (.plog k (.ofCode r.d) (pred1Of r.a) (pred1Of r.b) (pred1Of r.c) (r.md.extractLsb' 0 8),
      codeOk r.d && codeOk r.a && codeOk r.b && codeOk r.c)
  else none

def rPred (r : Raw) (f : Ctl → Reg → Reg → Option Reg → Instr) : Parsed := do
  let k ← r.ctl
  if r.c = 0 ∧ r.md = 0 then
    some (f k (.ofCode r.d) (.ofCode r.a) (pred1Of r.b), codeOk r.d && codeOk r.a && codeOk r.b)
  else none

def rFp3 (r : Raw) (f : Ctl → Reg → Reg → Reg → Option RoundMode → Option FpFmt → Instr) : Parsed := do
  let k ← r.ctl
  let m ← rndOf (r.md.extractLsb' 13 3)
  let t ← fmtOf (r.md.extractLsb' 10 3)
  if r.c = 0 ∧ r.md.extractLsb' 0 10 = 0 then
    some (f k (.ofCode r.d) (.ofCode r.a) (.ofCode r.b) m t, codeOk r.d && codeOk r.a && codeOk r.b)
  else none

def rFp4 (r : Raw) (f : Ctl → Reg → Reg → Reg → Reg → Option RoundMode → Option FpFmt → Instr) : Parsed := do
  let k ← r.ctl
  let m ← rndOf (r.md.extractLsb' 13 3)
  let t ← fmtOf (r.md.extractLsb' 10 3)
  if r.md.extractLsb' 0 10 = 0 then
    some (f k (.ofCode r.d) (.ofCode r.a) (.ofCode r.b) (.ofCode r.c) m t,
      codeOk r.d && codeOk r.a && codeOk r.b && codeOk r.c)
  else none

def rFp2 (r : Raw) (f : Ctl → Reg → Reg → Option RoundMode → Option FpFmt → Instr) : Parsed := do
  let k ← r.ctl
  let m ← rndOf (r.md.extractLsb' 13 3)
  let t ← fmtOf (r.md.extractLsb' 10 3)
  if r.b = 0 ∧ r.c = 0 ∧ r.md.extractLsb' 0 10 = 0 then
    some (f k (.ofCode r.d) (.ofCode r.a) m t, codeOk r.d && codeOk r.a)
  else none

def rFt2 (r : Raw) (f : Ctl → Reg → Reg → Option FpFmt → Instr) : Parsed := do
  let k ← r.ctl
  let t ← fmtOf (r.md.extractLsb' 10 3)
  if r.b = 0 ∧ r.c = 0 ∧ r.md.extractLsb' 0 10 = 0 ∧ r.md.extractLsb' 13 3 = 0 then
    some (f k (.ofCode r.d) (.ofCode r.a) t, codeOk r.d && codeOk r.a)
  else none

def rFt3 (r : Raw) (f : Ctl → Reg → Reg → Reg → Option FpFmt → Instr) : Parsed := do
  let k ← r.ctl
  let t ← fmtOf (r.md.extractLsb' 10 3)
  if r.c = 0 ∧ r.md.extractLsb' 0 10 = 0 ∧ r.md.extractLsb' 13 3 = 0 then
    some (f k (.ofCode r.d) (.ofCode r.a) (.ofCode r.b) t, codeOk r.d && codeOk r.a && codeOk r.b)
  else none

def rFcmp (r : Raw) : Parsed := do
  let k ← r.ctl
  let t ← fmtOf (r.md.extractLsb' 10 3)
  let cc ← FcmpCc.ofCode (r.md.extractLsb' 0 4)
  if r.c = 0 ∧ r.md.extractLsb' 4 6 = 0 ∧ r.md.extractLsb' 13 3 = 0 then
    some (.fcmp k (.ofCode r.d) (.ofCode r.a) (.ofCode r.b) t cc, codeOk r.d && codeOk r.a && codeOk r.b)
  else none

def rFcvt (r : Raw) : Parsed := do
  let k ← r.ctl
  let m ← rndOf (r.md.extractLsb' 13 3)
  let t ← fmtOf (r.md.extractLsb' 10 3)
  let s ← fmtOf (r.md.extractLsb' 7 3)
  if r.b = 0 ∧ r.c = 0 ∧ r.md.extractLsb' 0 7 = 0 then
    some (.fcvt k (.ofCode r.d) (.ofCode r.a) m t s, codeOk r.d && codeOk r.a)
  else none

def rFint (r : Raw) (f : Ctl → Reg → Reg → Option RoundMode → Option FpFmt → Width → Bool → Instr) : Parsed := do
  let k ← r.ctl
  let m ← rndOf (r.md.extractLsb' 13 3)
  let t ← fmtOf (r.md.extractLsb' 10 3)
  let w ← Width.ofCode (r.md.extractLsb' 7 3)
  if r.b = 0 ∧ r.c = 0 ∧ r.md.extractLsb' 0 6 = 0 then
    some (f k (.ofCode r.d) (.ofCode r.a) m t w (r.md.getLsbD 6), codeOk r.d && codeOk r.a)
  else none

def rVbcast (r : Raw) : Parsed := do
  let k ← r.ctl
  let w ← w64Of (r.md.extractLsb' 0 3)
  if r.c = 0 ∧ r.md.extractLsb' 3 13 = 0 then
    some (.vbcast k (.ofCode r.d) (.ofCode r.a) (.ofCode r.b) w, codeOk r.d && codeOk r.a && codeOk r.b)
  else none

def rVshuf (r : Raw) : Parsed := do
  let k ← r.ctl
  let w ← w64Of (r.md.extractLsb' 0 3)
  let sh ← match (r.md.extractLsb' 13 3).toNat with
    | 0 => if r.b = 0 then some (Shuf.xor (r.md.extractLsb' 4 6).toFin) else none
    | 1 => if r.md.extractLsb' 4 6 = 0 then some (Shuf.ziplo (.ofCode r.b)) else none
    | 2 => if r.md.extractLsb' 4 6 = 0 then some (Shuf.ziphi (.ofCode r.b)) else none
    | 3 => if r.md.extractLsb' 4 6 = 0 then some (Shuf.unze (.ofCode r.b)) else none
    | 4 => if r.md.extractLsb' 4 6 = 0 then some (Shuf.unzo (.ofCode r.b)) else none
    | _ => none
  if r.c = 0 ∧ r.md.extractLsb' 3 1 = 0 ∧ r.md.extractLsb' 10 3 = 0 then
    some (.vshuf k (.ofCode r.d) (.ofCode r.a) sh w, codeOk r.d && codeOk r.a && codeOk r.b)
  else none

def rVperm (r : Raw) : Parsed := do
  let k ← r.ctl
  let w ← w64Of (r.md.extractLsb' 0 3)
  if r.md.extractLsb' 3 13 = 0 then
    some (.vperm k (.ofCode r.d) (.ofCode r.a) (.ofCode r.b) (.ofCode r.c) w,
      codeOk r.d && codeOk r.a && codeOk r.b && codeOk r.c)
  else none

def rVslide (r : Raw) : Parsed := do
  let k ← r.ctl
  let w ← w64Of (r.md.extractLsb' 0 3)
  if r.md.extractLsb' 3 10 = 0 ∧ r.md.extractLsb' 14 2 = 0 then
    some (.vslide k (.ofCode r.d) (.ofCode r.a) (.ofCode r.b) (.ofCode r.c) (r.md.getLsbD 13) w,
      codeOk r.d && codeOk r.a && codeOk r.b && codeOk r.c)
  else none

def rVextr (r : Raw) : Parsed := do
  let k ← r.ctl
  let w ← w64Of (r.md.extractLsb' 0 3)
  if r.c = 0 ∧ r.md.extractLsb' 4 12 = 0 then
    some (.vextr k (.ofCode r.d) (.ofCode r.a) (.ofCode r.b) (r.md.getLsbD 3) w,
      codeOk r.d && codeOk r.a && codeOk r.b)
  else none

def rVins (r : Raw) : Parsed := do
  let k ← r.ctl
  let w ← w64Of (r.md.extractLsb' 0 3)
  if r.c = 0 ∧ r.md.extractLsb' 3 13 = 0 then
    some (.vins k (.ofCode r.d) (.ofCode r.a) (.ofCode r.b) w, codeOk r.d && codeOk r.a && codeOk r.b)
  else none

def rVred (r : Raw) : Parsed := do
  let k ← r.ctl
  let op ← Rop.ofCode (r.md.extractLsb' 12 4)
  let m ← rndOf (r.md.extractLsb' 9 3)
  let w ← Width.ofCode (r.md.extractLsb' 0 3)
  if r.b = 0 ∧ r.c = 0 ∧ r.md.extractLsb' 4 5 = 0 then
    some (.vred k (.ofCode r.d) (.ofCode r.a) op m ⟨w, r.md.getLsbD 3⟩, codeOk r.d && codeOk r.a)
  else none

def rVscan (r : Raw) : Parsed := do
  let k ← r.ctl
  let op ← Rop.ofCode (r.md.extractLsb' 12 4)
  let m ← rndOf (r.md.extractLsb' 9 3)
  let w ← Width.ofCode (r.md.extractLsb' 0 3)
  if r.b = 0 ∧ r.c = 0 ∧ r.md.extractLsb' 3 1 = 0 ∧ r.md.extractLsb' 5 4 = 0 then
    some (.vscan k (.ofCode r.d) (.ofCode r.a) op m (r.md.getLsbD 4) w, codeOk r.d && codeOk r.a)
  else none

def rVcompress (r : Raw) : Parsed := do
  let k ← r.ctl
  let w ← w64Of (r.md.extractLsb' 0 3)
  if r.b = 0 ∧ r.c = 0 ∧ r.md.extractLsb' 3 13 = 0 then
    some (.vcompress k (.ofCode r.d) (.ofCode r.a) w, codeOk r.d && codeOk r.a)
  else none

def rViota (r : Raw) : Parsed := do
  let k ← r.ctl
  let w ← w64Of (r.md.extractLsb' 0 3)
  if r.b = 0 ∧ r.c = 0 ∧ r.md.extractLsb' 3 13 = 0 then
    some (.viota k (.ofCode r.d) (pred1Of r.a) w, codeOk r.d && codeOk r.a)
  else none

/-- WQ of BQUANT and BDEQ: 0 to 6, and 7 raises ILLOP (R244). -/
def wqOf (c : BitVec 3) : Option (Fin 7) := if h : c.toNat < 7 then some ⟨c.toNat, h⟩ else none

def rBquant (r : Raw) : Parsed := do
  let k ← r.ctl
  let t ← fmtOf (r.md.extractLsb' 10 3)
  let q ← wqOf (r.md.extractLsb' 4 3)
  if r.b = 0 ∧ r.c = 0 ∧ r.md.extractLsb' 0 4 = 0 ∧ r.md.extractLsb' 7 3 = 0 ∧ r.md.extractLsb' 13 3 = 0 then
    some (.bquant k (.ofCode r.d) (.ofCode r.a) t q, codeOk r.d && codeOk r.a)
  else none

def rBdeq (r : Raw) : Parsed := do
  let k ← r.ctl
  let m ← rndOf (r.md.extractLsb' 13 3)
  let t ← fmtOf (r.md.extractLsb' 10 3)
  let q ← wqOf (r.md.extractLsb' 4 3)
  if r.b = 0 ∧ r.c = 0 ∧ r.md.extractLsb' 0 4 = 0 ∧ r.md.extractLsb' 7 3 = 0 then
    some (.bdeq k (.ofCode r.d) (.ofCode r.a) m t q, codeOk r.d && codeOk r.a)
  else none

/-- O and SC of a scalar access: a relaxed access carries no scope (R127). -/
def accOf (o : Bool) (sc : BitVec 3) : Option (Option Scope) :=
  if o then (Scope.ofCode sc).map some else if sc = 0 then some none else none

def accCode : Option Scope → BitVec 3
  | none => 0
  | some s => s.code

def rLd (r : Raw) : Parsed := do
  let k ← r.ctl
  let q ← accOf (r.b.getLsbD 3) (r.b.extractLsb' 4 3)
  some (.ld k (.ofCode r.d) (.ofCode r.a) r.x (.ofCode (r.b.extractLsb' 0 2)) (r.b.getLsbD 2) q, codeOk r.d && codeOk r.a)

def rLdx (r : Raw) : Parsed := do
  let k ← r.ctl
  let q ← accOf (r.md.getLsbD 3) (r.md.extractLsb' 5 3)
  if r.c = 0 ∧ r.md.extractLsb' 4 1 = 0 ∧ r.md.extractLsb' 11 5 = 0 then
    some (.ldx k (.ofCode r.d) (.ofCode r.a) (.ofCode r.b) (r.md.extractLsb' 8 3).toFin (.ofCode (r.md.extractLsb' 0 2))
      (r.md.getLsbD 2) q, codeOk r.d && codeOk r.a && codeOk r.b)
  else none

def rSt (r : Raw) : Parsed := do
  let k ← r.ctl
  let q ← accOf (r.b.getLsbD 3) (r.b.extractLsb' 4 3)
  if r.b.extractLsb' 2 1 = 0 then
    some (.st k (.ofCode r.d) (.ofCode r.a) r.x (.ofCode (r.b.extractLsb' 0 2)) q, codeOk r.d && codeOk r.a)
  else none

def rLdv (r : Raw) : Parsed := do
  let k ← r.ctl
  if r.b.extractLsb' 3 4 = 0 then
    some (.ldv k (.ofCode r.d) (.ofCode r.a) r.x (.ofCode (r.b.extractLsb' 0 2)) (r.b.getLsbD 2), codeOk r.d && codeOk r.a)
  else none

def rStv (r : Raw) : Parsed := do
  let k ← r.ctl
  if r.b.extractLsb' 2 5 = 0 then
    some (.stv k (.ofCode r.d) (.ofCode r.a) r.x (.ofCode (r.b.extractLsb' 0 2)), codeOk r.d && codeOk r.a)
  else none

def rLdg (r : Raw) : Parsed := do
  let k ← r.ctl
  if r.c = 0 ∧ r.md.extractLsb' 3 5 = 0 ∧ r.md.extractLsb' 11 5 = 0 then
    some (.ldg k (.ofCode r.d) (.ofCode r.a) (.ofCode r.b) (r.md.extractLsb' 8 3).toFin (.ofCode (r.md.extractLsb' 0 2))
      (r.md.getLsbD 2), codeOk r.d && codeOk r.a && codeOk r.b)
  else none

def rStsc (r : Raw) : Parsed := do
  let k ← r.ctl
  if r.d = 0 ∧ r.md.extractLsb' 2 6 = 0 ∧ r.md.extractLsb' 11 5 = 0 then
    some (.stsc k (.ofCode r.a) (.ofCode r.b) (.ofCode r.c) (r.md.extractLsb' 8 3).toFin
      (.ofCode (r.md.extractLsb' 0 2)), codeOk r.a && codeOk r.b && codeOk r.c)
  else none

def rPref (r : Raw) : Parsed := do
  let k ← r.ctl
  if r.d = 0 ∧ r.b.extractLsb' 1 6 = 0 then some (.pref k (.ofCode r.a) r.x (r.b.getLsbD 0), codeOk r.a) else none

/-- SZ of an atomic: 0 for a dword, 3 for a word (Table 4.7). -/
def w32Of (c : BitVec 2) : Option Bool :=
  match c.toNat with
  | 0 => some false | 3 => some true | _ => none

def w32Code (b : Bool) : BitVec 2 := if b then 3 else 0

def rAop (r : Raw) : Parsed := do
  let k ← r.ctl
  let op ← AopOp.ofCode (r.md.extractLsb' 12 4)
  let sc ← Scope.ofCode (r.md.extractLsb' 5 3)
  let w ← w32Of (r.md.extractLsb' 0 2)
  if r.c = 0 ∧ r.md.extractLsb' 8 4 = 0 then
    some (.aop k (.ofCode r.d) (.ofCode r.a) (.ofCode r.b) op (.ofCode (r.md.extractLsb' 3 2)) sc w (r.md.getLsbD 2),
      codeOk r.d && codeOk r.a && codeOk r.b)
  else none

def rAcas (r : Raw) : Parsed := do
  let k ← r.ctl
  let sc ← Scope.ofCode (r.md.extractLsb' 5 3)
  let w ← w32Of (r.md.extractLsb' 0 2)
  if r.md.extractLsb' 8 8 = 0 then
    some (.acas k (.ofCode r.d) (.ofCode r.a) (.ofCode r.b) (.ofCode r.c) (.ofCode (r.md.extractLsb' 3 2)) sc w
      (r.md.getLsbD 2), codeOk r.d && codeOk r.a && codeOk r.b && codeOk r.c)
  else none

def rAfadd (r : Raw) : Parsed := do
  let k ← r.ctl
  let sc ← Scope.ofCode (r.md.extractLsb' 5 3)
  let w ← w32Of (r.md.extractLsb' 0 2)
  if r.c = 0 ∧ r.md.extractLsb' 2 1 = 0 ∧ r.md.extractLsb' 8 8 = 0 then
    some (.afadd k (.ofCode r.d) (.ofCode r.a) (.ofCode r.b) (.ofCode (r.md.extractLsb' 3 2)) sc w,
      codeOk r.d && codeOk r.a && codeOk r.b)
  else none

def rCadd (r : Raw) : Parsed := do
  let k ← r.ctl
  let sc ← Scope.ofCode (r.md.extractLsb' 5 3)
  if r.d = 0 ∧ r.c = 0 ∧ r.md.extractLsb' 0 5 = 0 ∧ r.md.extractLsb' 8 8 = 0 then
    some (.cadd k (.ofCode r.a) (.ofCode r.b) sc, codeOk r.a && codeOk r.b)
  else none

def rCwait (r : Raw) : Parsed := do
  let k ← r.ctl
  let sc ← Scope.ofCode (r.md.extractLsb' 5 3)
  if r.c = 0 ∧ r.md.extractLsb' 0 5 = 0 ∧ r.md.extractLsb' 8 8 = 0 then
    some (.cwait k (.ofCode r.d) (.ofCode r.a) (.ofCode r.b) sc, codeOk r.d && codeOk r.a && codeOk r.b)
  else none

def rCtest (r : Raw) : Parsed := do
  let k ← r.ctl
  let sc ← Scope.ofCode (r.md.extractLsb' 5 3)
  if r.c = 0 ∧ r.md.extractLsb' 0 3 = 0 ∧ r.md.extractLsb' 4 1 = 0 ∧ r.md.extractLsb' 8 8 = 0 then
    some (.ctest k (.ofCode r.d) (.ofCode r.a) (.ofCode r.b) (r.md.getLsbD 3) sc, codeOk r.d && codeOk r.a && codeOk r.b)
  else none

def rFence (r : Raw) : Parsed := do
  let k ← r.ctl
  let kind ← FenceKind.ofCode (r.md.extractLsb' 12 4)
  let sc ← Scope.ofCode (r.md.extractLsb' 5 3)
  if r.d = 0 ∧ r.a = 0 ∧ r.b = 0 ∧ r.c = 0 ∧ r.md.extractLsb' 0 5 = 0 ∧ r.md.extractLsb' 8 4 = 0 then
    some (.fence k kind sc, true)
  else none

/-! Form R words whose MOD is 0 or one small field. -/

def r0 (r : Raw) (f : Ctl → Instr) : Parsed := do
  let k ← r.ctl
  if r.d = 0 ∧ r.a = 0 ∧ r.b = 0 ∧ r.x = 0 then some (f k, true) else none

def rD (r : Raw) (f : Ctl → Reg → Instr) : Parsed := do
  let k ← r.ctl
  if r.a = 0 ∧ r.b = 0 ∧ r.x = 0 then some (f k (.ofCode r.d), codeOk r.d) else none

def rA (r : Raw) (f : Ctl → Reg → Instr) : Parsed := do
  let k ← r.ctl
  if r.d = 0 ∧ r.b = 0 ∧ r.x = 0 then some (f k (.ofCode r.a), codeOk r.a) else none

def rDA (r : Raw) (f : Ctl → Reg → Reg → Instr) : Parsed := do
  let k ← r.ctl
  if r.b = 0 ∧ r.x = 0 then some (f k (.ofCode r.d) (.ofCode r.a), codeOk r.d && codeOk r.a) else none

def rAB (r : Raw) (f : Ctl → Reg → Reg → Instr) : Parsed := do
  let k ← r.ctl
  if r.d = 0 ∧ r.x = 0 then some (f k (.ofCode r.a) (.ofCode r.b), codeOk r.a && codeOk r.b) else none

def rDAB (r : Raw) (f : Ctl → Reg → Reg → Reg → Instr) : Parsed := do
  let k ← r.ctl
  if r.x = 0 then
    some (f k (.ofCode r.d) (.ofCode r.a) (.ofCode r.b), codeOk r.d && codeOk r.a && codeOk r.b)
  else none

def rSpawn (r : Raw) : Parsed := do
  let k ← r.ctl
  if r.md = 0 then
    some (.spawn k (.ofCode r.d) (.ofCode r.a) (.ofCode r.b) (.ofCode r.c),
      codeOk r.d && codeOk r.a && codeOk r.b && codeOk r.c)
  else none

def rSend (r : Raw) : Parsed := do
  let k ← r.ctl
  if r.md.extractLsb' 6 10 = 0 then
    some (.send k (.ofCode r.d) (.ofCode r.a) (.ofCode r.b) (.ofCode r.c) (r.md.extractLsb' 0 6).toFin,
      codeOk r.d && codeOk r.a && codeOk r.b && codeOk r.c)
  else none

def rGbar (r : Raw) : Parsed := do
  let k ← r.ctl
  if r.b = 0 ∧ r.x.extractLsb' 1 22 = 0 then
    some (.gbar k (.ofCode r.d) (.ofCode r.a) (r.x.getLsbD 0), codeOk r.d && codeOk r.a)
  else none

def rGred (r : Raw) : Parsed := do
  let k ← r.ctl
  if h : (r.x.extractLsb' 0 4).toNat < 9 then
    if r.x.extractLsb' 4 19 = 0 then
      some (.gred k (.ofCode r.d) (.ofCode r.a) (.ofCode r.b) ⟨(r.x.extractLsb' 0 4).toNat, h⟩,
        codeOk r.d && codeOk r.a && codeOk r.b)
    else none
  else none

def rGinfo (r : Raw) : Parsed := do
  let k ← r.ctl
  if h : (r.x.extractLsb' 0 3).toNat < 7 then
    if r.b = 0 ∧ r.x.extractLsb' 3 20 = 0 then
      some (.ginfo k (.ofCode r.d) (.ofCode r.a) ⟨(r.x.extractLsb' 0 3).toNat, h⟩, codeOk r.d && codeOk r.a)
    else none
  else none

def rTreq (r : Raw) : Parsed := do
  let k ← r.ctl
  if r.b = 0 ∧ r.x.extractLsb' 1 22 = 0 then
    some (.treq k (.ofCode r.d) (.ofCode r.a) (r.x.getLsbD 0), codeOk r.d && codeOk r.a)
  else none

def rTstat (r : Raw) : Parsed := do
  let k ← r.ctl
  if h : (r.x.extractLsb' 0 4).toNat < 9 then
    if r.a = 0 ∧ r.b = 0 ∧ r.x.extractLsb' 4 19 = 0 then
      some (.tstat k (.ofCode r.d) ⟨(r.x.extractLsb' 0 4).toNat, h⟩, codeOk r.d)
    else none
  else none

/-- The identifier of the tensor-table instructions (R302): literal in MOD[9:0] with MOD[10] = 1 and A = 0, or in A. -/
def tidOf (r : Raw) : Option TensorId :=
  if r.md.getLsbD 10 then (if r.a = 0 then some (.lit (r.md.extractLsb' 0 10).toFin) else none)
  else if r.md.extractLsb' 0 10 = 0 then some (.reg (.ofCode r.a)) else none

def rTab (r : Raw) (f : Ctl → TensorId → Reg → Instr) : Parsed := do
  let k ← r.ctl
  let t ← tidOf r
  if r.d = 0 ∧ r.c = 0 ∧ r.md.extractLsb' 11 5 = 0 then
    some (f k t (.ofCode r.b), codeOk r.a && codeOk r.b)
  else none

def rTdrop (r : Raw) : Parsed := do
  let k ← r.ctl
  let t ← tidOf r
  if r.d = 0 ∧ r.b = 0 ∧ r.c = 0 ∧ r.md.extractLsb' 11 5 = 0 then some (.tdrop k t, codeOk r.a) else none

def rCopy (r : Raw) : Parsed := do
  let k ← r.ctl
  let sc ← Scope.ofCode (r.md.extractLsb' 5 3)
  if r.d = 0 ∧ r.b = 0 ∧ r.c = 0 ∧ r.md.extractLsb' 0 5 = 0 ∧ r.md.extractLsb' 8 8 = 0 then
    some (.copy k (.ofCode r.a) sc, codeOk r.a)
  else none

def rCopys (r : Raw) : Parsed := do
  let k ← r.ctl
  let sc ← Scope.ofCode (r.md.extractLsb' 5 3)
  if r.d = 0 ∧ r.md.extractLsb' 0 5 = 0 ∧ r.md.extractLsb' 8 8 = 0 then
    some (.copys k (.ofCode r.a) (.ofCode r.b) (.ofCode r.c) sc, codeOk r.a && codeOk r.b && codeOk r.c)
  else none

/-! Form E. `um` are the EMOD bits that must be 0. -/

def eA (r : Raw) (f : Ctl → Reg → Fin 1024 → Fin 1024 → Bool → Instr) : Parsed := do
  let k ← r.ctl
  if r.d = 0 ∧ r.b = 0 ∧ r.em.extractLsb' 1 2 = 0 then
    some (f k (.ofCode r.a) r.tx r.ty (r.em.getLsbD 0), codeOk r.a)
  else none

def eAB (r : Raw) (f : Ctl → Reg → Reg → Fin 1024 → Fin 1024 → Bool → Instr) : Parsed := do
  let k ← r.ctl
  if r.d = 0 ∧ r.em.extractLsb' 1 2 = 0 then
    some (f k (.ofCode r.a) (.ofCode r.b) r.tx r.ty (r.em.getLsbD 0), codeOk r.a && codeOk r.b)
  else none

def eAB0 (r : Raw) (f : Ctl → Reg → Reg → Fin 1024 → Fin 1024 → Instr) : Parsed := do
  let k ← r.ctl
  if r.d = 0 ∧ r.em = 0 then
    some (f k (.ofCode r.a) (.ofCode r.b) r.tx r.ty, codeOk r.a && codeOk r.b)
  else none

def eD0 (r : Raw) (f : Ctl → Reg → Fin 1024 → Fin 1024 → Instr) : Parsed := do
  let k ← r.ctl
  if r.a = 0 ∧ r.b = 0 ∧ r.em = 0 then some (f k (.ofCode r.d) r.tx r.ty, codeOk r.d) else none

def eAttn (r : Raw) : Parsed := do
  let k ← r.ctl
  if r.em.extractLsb' 1 2 = 0 then
    some (.attn k (.ofCode r.d) (.ofCode r.a) (.ofCode r.b) r.tx r.ty (r.em.getLsbD 0),
      codeOk r.d && codeOk r.a && codeOk r.b)
  else none

def eKvlook (r : Raw) : Parsed := do
  let k ← r.ctl
  if r.ty = 0 ∧ r.em.extractLsb' 1 2 = 0 then
    some (.kvlook k (.ofCode r.d) (.ofCode r.a) (.ofCode r.b) r.tx (r.em.getLsbD 0),
      codeOk r.d && codeOk r.a && codeOk r.b)
  else none

def eTtset (r : Raw) : Parsed := do
  let k ← r.ctl
  if r.d = 0 ∧ r.b = 0 ∧ r.ty = 0 ∧ r.em = 0 then some (.ttset k (.ofCode r.a) r.tx, codeOk r.a) else none

def eTtmask (r : Raw) : Parsed := do
  let k ← r.ctl
  if r.b = 0 ∧ r.x = 0 then some (.ttmask k (.ofCode r.d) (.ofCode r.a), codeOk r.d && codeOk r.a) else none

def eTtpos (r : Raw) : Parsed := do
  let k ← r.ctl
  if r.b = 0 ∧ r.x.extractLsb' 1 22 = 0 then
    some (.ttpos k (.ofCode r.d) (.ofCode r.a) (r.em.getLsbD 0), codeOk r.d && codeOk r.a)
  else none

def eTtprune (r : Raw) : Parsed := do
  let k ← r.ctl
  if r.b = 0 ∧ r.ty = 0 ∧ r.em.extractLsb' 1 2 = 0 then
    some (.ttprune k (.ofCode r.d) (.ofCode r.a) r.tx (r.em.getLsbD 0), codeOk r.d && codeOk r.a)
  else none

def eVe1 (r : Raw) (f : Ctl → Reg → Reg → Fin 1024 → Instr) : Parsed := do
  let k ← r.ctl
  if r.d = 0 ∧ r.ty = 0 ∧ r.em = 0 then
    some (f k (.ofCode r.a) (.ofCode r.b) r.tx, codeOk r.a && codeOk r.b)
  else none

def eVered (r : Raw) : Parsed := do
  let k ← r.ctl
  if r.d = 0 ∧ r.ty = 0 ∧ r.em.extractLsb' 1 2 = 0 then
    some (.vered k (.ofCode r.a) (.ofCode r.b) r.tx (r.em.getLsbD 0), codeOk r.a && codeOk r.b)
  else none

def eVenorm (r : Raw) : Parsed := do
  let k ← r.ctl
  let gain ← if r.em.getLsbD 0 then some (some r.ty) else if r.ty = 0 then some none else none
  if r.d = 0 ∧ r.em.getLsbD 2 = false then
    some (.venorm k (.ofCode r.a) (.ofCode r.b) r.tx gain (r.em.getLsbD 1), codeOk r.a && codeOk r.b)
  else none

def eVecvt (r : Raw) : Parsed := do
  let k ← r.ctl
  let m ← rndOf r.em
  if r.d = 0 ∧ r.b = 0 ∧ r.ty = 0 then some (.vecvt k (.ofCode r.a) r.tx m, codeOk r.a) else none

def eBaddq (r : Raw) : Parsed := do
  let k ← r.ctl
  if r.b = 0 ∧ r.em.extractLsb' 1 2 = 0 then
    some (.baddq k (.ofCode r.d) (.ofCode r.a) r.tx r.ty (r.em.getLsbD 0), codeOk r.d && codeOk r.a)
  else none

/-! Special registers, traps and system words. -/

/-- MFS: the rows of the opcode table name DROOPCNT and CECNT on their own (R48). -/
def rMfs (r : Raw) : Parsed := do
  let k ← r.ctl
  if r.a = 0 ∧ r.b = 0 ∧ r.x.extractLsb' 12 11 = 0 then
    let n := r.x.extractLsb' 0 12
    let d := Reg.ofCode r.d
    some (if n = 0x105#12 then .readDroopcntCecnt k d false else if n = 0x106#12 then .readDroopcntCecnt k d true
      else .mfs k d n, codeOk r.d)
  else none

/-- MTS: the rows of the opcode table name the registers with an effect of their own. -/
def rMts (r : Raw) : Parsed := do
  let k ← r.ctl
  if r.d = 0 ∧ r.b = 0 ∧ r.x.extractLsb' 12 11 = 0 then
    let n := r.x.extractLsb' 0 12
    let a := Reg.ofCode r.a
    some (if n = 0x000#12 then .writeStatus k a else if n = 0x004#12 then .writeFpst k a
      else if n = 0x007#12 then .writeRsp k a else if n = 0x009#12 then .writeClass k a
      else if n = 0x104#12 then .writeDroopth k a else if n = 0x107#12 then .writeCpwt k a
      else .mts k n a, codeOk r.a)
  else none

def rTrap (r : Raw) (f : Ctl → BitVec 16 → Instr) : Parsed := do
  let k ← r.ctl
  if r.d = 0 ∧ r.a = 0 ∧ r.b = 0 ∧ r.x.extractLsb' 16 7 = 0 then some (f k (r.x.extractLsb' 0 16), true) else none

def rCinv (r : Raw) : Parsed := do
  let k ← r.ctl
  if r.d = 0 ∧ r.b = 0 ∧ r.x.extractLsb' 2 21 = 0 then
    match (r.x.extractLsb' 0 2).toNat with
    | 0 => if r.a = 0 then some (.cinvCode k, true) else none
    | 1 => some (.cinvLine k (.ofCode r.a), codeOk r.a)
    | 2 => some (.cinvRdc k (.ofCode r.a), codeOk r.a)
    | _ => none
  else none

def rRoute (r : Raw) : Parsed := do
  let k ← r.ctl
  let q ← TrafficClass.ofCode (r.x.extractLsb' 0 3)
  if r.b = 0 ∧ r.x.extractLsb' 3 20 = 0 then
    some (.route k (.ofCode r.d) (.ofCode r.a) q, codeOk r.d && codeOk r.a)
  else none

/-- Rows 0x00 to 0x3F of Table 2.8, by the low six bits of OP. -/
def parse0 (r : Raw) (n : Nat) : Parsed :=
  match n with
  | 0x00 => rInt3 r .addR
  | 0x01 => rInt3 r .sub
  | 0x02 => rInt3 r .mulR
  | 0x03 => rInt3 r .mulh
  | 0x04 => rInt3 r .mulhu
  | 0x05 => rInt3 r .div
  | 0x06 => rInt3 r .divu
  | 0x07 => rInt3 r .rem
  | 0x08 => rInt3 r .remu
  | 0x09 => rInt3 r .andR
  | 0x0A => rInt3 r .orR
  | 0x0B => rInt3 r .xorR
  | 0x0C => rInt3 r .andn
  | 0x0D => rInt3 r .orn
  | 0x0E => rInt3 r .xnor
  | 0x0F => rInt3 r .shlR
  | 0x10 => rInt3 r .shrR
  | 0x11 => rInt3 r .sarR
  | 0x12 => rInt3 r .rotlR
  | 0x13 => rInt2 r .clz
  | 0x14 => rInt2 r .ctz
  | 0x15 => rInt2 r .popc
  | 0x16 => rInt2 r .brev
  | 0x17 => rInt3 r .minR
  | 0x18 => rInt3 r .maxR
  | 0x19 => rInt3 r .minuR
  | 0x1A => rInt3 r .maxuR
  | 0x1B => rInt2 r .abs
  | 0x1C => rSat r .addsat
  | 0x1D => rSat r .subsat
  | 0x1E => rExt r .sext
  | 0x1F => rExt r .zext
  | 0x20 => rBfx r
  | 0x21 => rBfi r
  | 0x22 => rMov r
  | 0x23 => rSel r
  | 0x24 => rCmp r
  | 0x25 => rScadd r
  | 0x28 => rImm r .addI
  | 0x29 => rImm r .mulI
  | 0x2A => rImm r .andI
  | 0x2B => rImm r .orI
  | 0x2C => rImm r .xorI
  | 0x2D => rImm r .shlI
  | 0x2E => rImm r .shrI
  | 0x2F => rImm r .sarI
  | 0x30 => rImm r .rotlI
  | 0x31 => rImm r .minI
  | 0x32 => rImm r .maxI
  | 0x33 => rImm r .minuI
  | 0x34 => rImm r .maxuI
  | 0x35 => rCmpI r
  | 0x36 => rMovw r
  | 0x37 => rMovI r
  | _ => none

/-- Rows 0x40 to 0x7F of Table 2.8. -/
def parse1 (r : Raw) (n : Nat) : Parsed :=
  match n with
  | 0x00 => rFp3 r .fadd
  | 0x01 => rFp3 r .fsub
  | 0x02 => rFp3 r .fmul
  | 0x03 => rFp4 r .fma
  | 0x04 => rFp4 r .fms
  | 0x05 => rFp4 r .fnma
  | 0x06 => rFp4 r .fnms
  | 0x07 => rFp3 r .fdiv
  | 0x08 => rFp2 r .fsqrt
  | 0x09 => rFp2 r .frcp
  | 0x0A => rFt2 r .frsq
  | 0x0B => rFt2 r .fexp2
  | 0x0C => rFt2 r .flog2
  | 0x0D => rFt2 r .ftanh
  | 0x0E => rFt3 r .fmin
  | 0x0F => rFt3 r .fmax
  | 0x10 => rFt2 r .fabs
  | 0x11 => rFt2 r .fneg
  | 0x12 => rFt3 r .fcpys
  | 0x13 => rFcmp r
  | 0x14 => rFt2 r .fclass
  | 0x15 => rFcvt r
  | 0x16 => rFint r .ftoi
  | 0x17 => rFint r .itof
  | 0x18 => rFp2 r .fround
  | 0x30 => rPlog r
  | 0x31 => rPred r .pany
  | 0x32 => rPred r .pall
  | 0x33 => rPred r .pcount
  | 0x34 => rVbcast r
  | 0x35 => rVshuf r
  | 0x36 => rVperm r
  | 0x37 => rVslide r
  | 0x38 => rVextr r
  | 0x39 => rVins r
  | 0x3A => rVred r
  | 0x3B => rVscan r
  | 0x3C => rVcompress r
  | 0x3D => rViota r
  | _ => none

/-- Rows 0x80 to 0xBF of Table 2.8. -/
def parse2 (r : Raw) (n : Nat) : Parsed :=
  match n with
  | 0x00 => rLd r
  | 0x01 => rLdx r
  | 0x02 => rSt r
  | 0x03 => rLdv r
  | 0x04 => rStv r
  | 0x05 => rLdg r
  | 0x06 => rStsc r
  | 0x07 => rPref r
  | 0x08 => rAop r
  | 0x09 => rAcas r
  | 0x0A => rAfadd r
  | 0x0B => rCadd r
  | 0x0C => rCwait r
  | 0x0D => rCtest r
  | 0x0E => rFence r
  | 0x20 => r0 r .split
  | 0x21 => rD r .join
  | 0x22 => rSpawn r
  | 0x23 => r0 r .yieldOp
  | 0x24 => r0 r .endOp
  | 0x25 => rSend r
  | 0x26 => rDAB r .gcreate
  | 0x27 => rDAB r .gopen
  | 0x28 => rD r .gleave
  | 0x29 => rGbar r
  | 0x2A => rA r .garrive
  | 0x2B => rD r .gdrop
  | 0x2C => rDAB r .gvote
  | 0x2D => rGred r
  | 0x2E => rGinfo r
  | 0x30 => rTreq r
  | 0x31 => rDA r .trel
  | 0x32 => rDAB r .tlend
  | 0x33 => rTstat r
  | 0x34 => rTab r .tdef
  | 0x35 => rTab r .tget
  | 0x36 => rTdrop r
  | 0x38 => rCopy r
  | 0x39 => rCopys r
  | _ => none

/-- Rows 0xC0 to 0xFF of Table 2.8. -/
def parse3 (r : Raw) (n : Nat) : Parsed :=
  match n with
  | 0x00 => eA r .mm
  | 0x01 => eA r .mmdist
  | 0x02 => eAB r .mmtopk
  | 0x08 => eD0 r .spcomp
  | 0x09 => eAB r .spmm
  | 0x10 => eAttn r
  | 0x11 => eAB0 r .attmerge
  | 0x12 => eD0 r .kvapp
  | 0x13 => eKvlook r
  | 0x18 => eTtset r
  | 0x19 => eTtmask r
  | 0x1A => eTtpos r
  | 0x1B => eTtprune r
  | 0x1C => r0 r .ttclr
  | 0x20 => eVe1 r .vemap
  | 0x21 => eAB0 r .vezip
  | 0x22 => eVered r
  | 0x23 => eVenorm r
  | 0x24 => eVe1 r .vesoft
  | 0x25 => eVecvt r
  | 0x28 => rBquant r
  | 0x29 => rBdeq r
  | 0x2C => eBaddq r
  | 0x2D => rD r .gwnext
  | 0x30 => rMfs r
  | 0x31 => rMts r
  | 0x32 => rTrap r .trap
  | 0x33 => rAB r .rft
  | 0x34 => rTrap r .brk
  | 0x35 => r0 r .halt
  | 0x36 => r0 r .nop
  | 0x38 => rDAB r .tgen
  | 0x39 => rCinv r
  | 0x3A => rA r .scrub
  | 0x3B => rRoute r
  | _ => none

/-- The fields of a word whose opcode is assigned, read as the instruction's encoding lays them out. -/
def parse (r : Raw) : Parsed :=
  let n := (r.op.extractLsb' 0 6).toNat
  match (r.op.extractLsb' 6 2).toNat with
  | 0 => parse0 r n
  | 1 => parse1 r n
  | 2 => parse2 r n
  | _ => parse3 r n

/-- An instruction word read under the latch class `lc` (R88), with the first fault of ranks 1 to 4 of Table 2.7 when it
has one. The place of the word in its block is not looked at here. -/
def decode (lc : LCls) (w : Word) : Except DecErr Instr :=
  let r := Raw.split w
  if opAssigned r.op.toNat then
    match parse r with
    | none => .error .illop
    | some (i, codes) =>
      if i.seqOk lc && i.fieldsOk lc then
        (if codes && i.operandsOk lc then .ok i else .error .operand)
      else .error .illop
  else .ok (.unassignedOpcode w)

/-! The encoder, from the same tables. -/

/-- A word from OP, the control fields, three operand codes and X. -/
def word (op : BitVec 8) (k : Ctl) (d a b : BitVec 7) (x : BitVec 23) : Word :=
  Raw.pack { op := op, seq := k.seq.code, g := b1 k.neg ++ BitVec.ofFin (w := 3) k.gp, la := BitVec.ofFin (w := 4) k.la
             d := d, a := a, b := b, x := x }

/-- X of form R and of form E. -/
def xR (c : BitVec 7) (md : BitVec 16) : BitVec 23 := c ++ md
def xE (tx ty : Fin 1024) (em : BitVec 3) : BitVec 23 := BitVec.ofFin (w := 10) tx ++ BitVec.ofFin (w := 10) ty ++ em

def mInt (m : IntMod) : BitVec 16 := 0#12 ++ b1 m.xs ++ m.w.code
def mFp (m : Option RoundMode) (t : Option FpFmt) : BitVec 16 := rndCode m ++ fmtCode t ++ 0#10
def mMem (opc : BitVec 4) (k : Fin 8) (sc : BitVec 3) (ord : BitVec 2) (sx : Bool) (sz : BitVec 2) : BitVec 16 :=
  opc ++ 0#1 ++ BitVec.ofFin (w := 3) k ++ sc ++ ord ++ b1 sx ++ sz
def bMem (sc : Option Scope) (sx : Bool) (sz : BitVec 2) : BitVec 7 :=
  accCode sc ++ b1 sc.isSome ++ b1 sx ++ sz

/-- The code of a pred1 operand. -/
def pred1Code : Option Reg → BitVec 7
  | none => 0
  | some r => r.code

def shufFields : Shuf → BitVec 3 × BitVec 7 × BitVec 6
  | .xor k => (0, 0, BitVec.ofFin (w := 6) k)
  | .ziplo b => (1, b.code, 0)
  | .ziphi b => (2, b.code, 0)
  | .unze b => (3, b.code, 0)
  | .unzo b => (4, b.code, 0)

def tidA : TensorId → BitVec 7
  | .lit _ => 0
  | .reg r => r.code

def tidM : TensorId → BitVec 16
  | .lit n => 0#5 ++ 1#1 ++ BitVec.ofFin (w := 10) n
  | .reg _ => 0

/-- The word of an instruction; an act of the machine has none. -/
def encode : Instr → Option Word
  | .addR k d a b m => some (word 0x00 k d.code a.code b.code (xR 0 (mInt m)))
  | .sub k d a b m => some (word 0x01 k d.code a.code b.code (xR 0 (mInt m)))
  | .mulR k d a b m => some (word 0x02 k d.code a.code b.code (xR 0 (mInt m)))
  | .mulh k d a b m => some (word 0x03 k d.code a.code b.code (xR 0 (mInt m)))
  | .mulhu k d a b m => some (word 0x04 k d.code a.code b.code (xR 0 (mInt m)))
  | .div k d a b m => some (word 0x05 k d.code a.code b.code (xR 0 (mInt m)))
  | .divu k d a b m => some (word 0x06 k d.code a.code b.code (xR 0 (mInt m)))
  | .rem k d a b m => some (word 0x07 k d.code a.code b.code (xR 0 (mInt m)))
  | .remu k d a b m => some (word 0x08 k d.code a.code b.code (xR 0 (mInt m)))
  | .andR k d a b m => some (word 0x09 k d.code a.code b.code (xR 0 (mInt m)))
  | .orR k d a b m => some (word 0x0A k d.code a.code b.code (xR 0 (mInt m)))
  | .xorR k d a b m => some (word 0x0B k d.code a.code b.code (xR 0 (mInt m)))
  | .andn k d a b m => some (word 0x0C k d.code a.code b.code (xR 0 (mInt m)))
  | .orn k d a b m => some (word 0x0D k d.code a.code b.code (xR 0 (mInt m)))
  | .xnor k d a b m => some (word 0x0E k d.code a.code b.code (xR 0 (mInt m)))
  | .shlR k d a b m => some (word 0x0F k d.code a.code b.code (xR 0 (mInt m)))
  | .shrR k d a b m => some (word 0x10 k d.code a.code b.code (xR 0 (mInt m)))
  | .sarR k d a b m => some (word 0x11 k d.code a.code b.code (xR 0 (mInt m)))
  | .rotlR k d a b m => some (word 0x12 k d.code a.code b.code (xR 0 (mInt m)))
  | .clz k d a m => some (word 0x13 k d.code a.code 0 (xR 0 (mInt m)))
  | .ctz k d a m => some (word 0x14 k d.code a.code 0 (xR 0 (mInt m)))
  | .popc k d a m => some (word 0x15 k d.code a.code 0 (xR 0 (mInt m)))
  | .brev k d a m => some (word 0x16 k d.code a.code 0 (xR 0 (mInt m)))
  | .minR k d a b m => some (word 0x17 k d.code a.code b.code (xR 0 (mInt m)))
  | .maxR k d a b m => some (word 0x18 k d.code a.code b.code (xR 0 (mInt m)))
  | .minuR k d a b m => some (word 0x19 k d.code a.code b.code (xR 0 (mInt m)))
  | .maxuR k d a b m => some (word 0x1A k d.code a.code b.code (xR 0 (mInt m)))
  | .abs k d a m => some (word 0x1B k d.code a.code 0 (xR 0 (mInt m)))
  | .addsat k d a b m u => some (word 0x1C k d.code a.code b.code (xR 0 (0#11 ++ b1 u ++ b1 m.xs ++ m.w.code)))
  | .subsat k d a b m u => some (word 0x1D k d.code a.code b.code (xR 0 (0#11 ++ b1 u ++ b1 m.xs ++ m.w.code)))
  | .sext k d a w => some (word 0x1E k d.code a.code 0 (xR 0 (0#13 ++ w.code)))
  | .zext k d a w => some (word 0x1F k d.code a.code 0 (xR 0 (0#13 ++ w.code)))
  | .bfx k d a m pos lenm => some (word 0x20 k d.code a.code 0
      (xR 0 (BitVec.ofFin (w := 6) lenm ++ BitVec.ofFin (w := 6) pos ++ b1 m.xs ++ m.w.code)))
  | .bfi k d a b m pos lenm => some (word 0x21 k d.code a.code b.code
      (xR 0 (BitVec.ofFin (w := 6) lenm ++ BitVec.ofFin (w := 6) pos ++ b1 m.xs ++ m.w.code)))
  | .movR k d a w64 => some (word 0x22 k d.code a.code 0 (xR 0 (0#13 ++ w64Code w64)))
  | .sel k d a b c m => some (word 0x23 k d.code a.code b.code (xR c.code (mInt m)))
  | .cmpR k d a b w cc => some (word 0x24 k d.code a.code b.code (xR 0 (0#8 ++ cc.code ++ 0#1 ++ w.code)))
  | .scadd k d a b m sh => some (word 0x25 k d.code a.code b.code
      (xR 0 (0#6 ++ BitVec.ofFin (w := 6) sh ++ b1 m.xs ++ m.w.code)))
  | .addI k d a imm => some (word 0x28 k d.code a.code 0 imm)
  | .mulI k d a imm => some (word 0x29 k d.code a.code 0 imm)
  | .andI k d a imm => some (word 0x2A k d.code a.code 0 imm)
  | .orI k d a imm => some (word 0x2B k d.code a.code 0 imm)
  | .xorI k d a imm => some (word 0x2C k d.code a.code 0 imm)
  | .shlI k d a imm => some (word 0x2D k d.code a.code 0 imm)
  | .shrI k d a imm => some (word 0x2E k d.code a.code 0 imm)
  | .sarI k d a imm => some (word 0x2F k d.code a.code 0 imm)
  | .rotlI k d a imm => some (word 0x30 k d.code a.code 0 imm)
  | .minI k d a imm => some (word 0x31 k d.code a.code 0 imm)
  | .maxI k d a imm => some (word 0x32 k d.code a.code 0 imm)
  | .minuI k d a imm => some (word 0x33 k d.code a.code 0 imm)
  | .maxuI k d a imm => some (word 0x34 k d.code a.code 0 imm)
  | .cmpI k d a cc imm => some (word 0x35 k d.code a.code (0#3 ++ cc.code) imm)
  | .movw k d hw chunk => some (word 0x36 k d.code 0 (0#5 ++ BitVec.ofFin (w := 2) hw) (0#7 ++ chunk))
  | .movI k d imm => some (word 0x37 k d.code 0 0 imm)
  | .plog k d a b c tt => some (word 0x70 k d.code (pred1Code a) (pred1Code b) (xR (pred1Code c) (0#8 ++ tt)))
  | .pany k d a b => some (word 0x71 k d.code a.code (pred1Code b) 0)
  | .pall k d a b => some (word 0x72 k d.code a.code (pred1Code b) 0)
  | .pcount k d a b => some (word 0x73 k d.code a.code (pred1Code b) 0)
  | .fadd k d a b m t => some (word 0x40 k d.code a.code b.code (xR 0 (mFp m t)))
  | .fsub k d a b m t => some (word 0x41 k d.code a.code b.code (xR 0 (mFp m t)))
  | .fmul k d a b m t => some (word 0x42 k d.code a.code b.code (xR 0 (mFp m t)))
  | .fma k d a b c m t => some (word 0x43 k d.code a.code b.code (xR c.code (mFp m t)))
  | .fms k d a b c m t => some (word 0x44 k d.code a.code b.code (xR c.code (mFp m t)))
  | .fnma k d a b c m t => some (word 0x45 k d.code a.code b.code (xR c.code (mFp m t)))
  | .fnms k d a b c m t => some (word 0x46 k d.code a.code b.code (xR c.code (mFp m t)))
  | .fdiv k d a b m t => some (word 0x47 k d.code a.code b.code (xR 0 (mFp m t)))
  | .fsqrt k d a m t => some (word 0x48 k d.code a.code 0 (xR 0 (mFp m t)))
  | .frcp k d a m t => some (word 0x49 k d.code a.code 0 (xR 0 (mFp m t)))
  | .frsq k d a t => some (word 0x4A k d.code a.code 0 (xR 0 (mFp none t)))
  | .fexp2 k d a t => some (word 0x4B k d.code a.code 0 (xR 0 (mFp none t)))
  | .flog2 k d a t => some (word 0x4C k d.code a.code 0 (xR 0 (mFp none t)))
  | .ftanh k d a t => some (word 0x4D k d.code a.code 0 (xR 0 (mFp none t)))
  | .fmin k d a b t => some (word 0x4E k d.code a.code b.code (xR 0 (mFp none t)))
  | .fmax k d a b t => some (word 0x4F k d.code a.code b.code (xR 0 (mFp none t)))
  | .fabs k d a t => some (word 0x50 k d.code a.code 0 (xR 0 (mFp none t)))
  | .fneg k d a t => some (word 0x51 k d.code a.code 0 (xR 0 (mFp none t)))
  | .fcpys k d a b t => some (word 0x52 k d.code a.code b.code (xR 0 (mFp none t)))
  | .fcmp k d a b t cc => some (word 0x53 k d.code a.code b.code (xR 0 (0#3 ++ fmtCode t ++ 0#6 ++ cc.code)))
  | .fclass k d a t => some (word 0x54 k d.code a.code 0 (xR 0 (mFp none t)))
  | .fcvt k d a m t s => some (word 0x55 k d.code a.code 0 (xR 0 (rndCode m ++ fmtCode t ++ fmtCode s ++ 0#7)))
  | .ftoi k d a m t w u => some (word 0x56 k d.code a.code 0 (xR 0 (rndCode m ++ fmtCode t ++ w.code ++ b1 u ++ 0#6)))
  | .itof k d a m t w u => some (word 0x57 k d.code a.code 0 (xR 0 (rndCode m ++ fmtCode t ++ w.code ++ b1 u ++ 0#6)))
  | .fround k d a m t => some (word 0x58 k d.code a.code 0 (xR 0 (mFp m t)))
  | .vbcast k d a b w => some (word 0x74 k d.code a.code b.code (xR 0 (0#13 ++ w64Code w)))
  | .vshuf k d a sh w => some (word 0x75 k d.code a.code (shufFields sh).2.1
      (xR 0 ((shufFields sh).1 ++ 0#3 ++ (shufFields sh).2.2 ++ 0#1 ++ w64Code w)))
  | .vperm k d a b c w => some (word 0x76 k d.code a.code b.code (xR c.code (0#13 ++ w64Code w)))
  | .vslide k d a b c up w => some (word 0x77 k d.code a.code b.code (xR c.code (0#2 ++ b1 up ++ 0#10 ++ w64Code w)))
  | .vextr k d a b xs w => some (word 0x78 k d.code a.code b.code (xR 0 (0#12 ++ b1 xs ++ w64Code w)))
  | .vins k d a b w => some (word 0x79 k d.code a.code b.code (xR 0 (0#13 ++ w64Code w)))
  | .vred k d a rop m mo => some (word 0x7A k d.code a.code 0
      (xR 0 (rop.code ++ rndCode m ++ 0#5 ++ b1 mo.xs ++ mo.w.code)))
  | .vscan k d a rop m ex w => some (word 0x7B k d.code a.code 0
      (xR 0 (rop.code ++ rndCode m ++ 0#4 ++ b1 ex ++ 0#1 ++ w.code)))
  | .vcompress k d a w => some (word 0x7C k d.code a.code 0 (xR 0 (0#13 ++ w64Code w)))
  | .viota k d a w => some (word 0x7D k d.code (pred1Code a) 0 (xR 0 (0#13 ++ w64Code w)))
  | .bquant k d a t q => some (word 0xE8 k d.code a.code 0
      (xR 0 (0#3 ++ fmtCode t ++ 0#3 ++ BitVec.ofNat 3 q.val ++ 0#4)))
  | .bdeq k d a m t q => some (word 0xE9 k d.code a.code 0
      (xR 0 (rndCode m ++ fmtCode t ++ 0#3 ++ BitVec.ofNat 3 q.val ++ 0#4)))
  | .ld k d a imm sz sx q => some (word 0x80 k d.code a.code (bMem q sx sz.code) imm)
  | .ldx k d a b sh sz sx q => some (word 0x81 k d.code a.code b.code
      (xR 0 (mMem 0 sh (accCode q) (0#1 ++ b1 q.isSome) sx sz.code)))
  | .st k d a imm sz q => some (word 0x82 k d.code a.code (bMem q false sz.code) imm)
  | .ldv k d a imm sz sx => some (word 0x83 k d.code a.code (bMem none sx sz.code) imm)
  | .stv k d a imm sz => some (word 0x84 k d.code a.code (bMem none false sz.code) imm)
  | .ldg k d a b sh sz sx => some (word 0x85 k d.code a.code b.code (xR 0 (mMem 0 sh 0 0 sx sz.code)))
  | .stsc k a b c sh sz => some (word 0x86 k 0 a.code b.code (xR c.code (mMem 0 sh 0 0 false sz.code)))
  | .pref k a imm l2 => some (word 0x87 k 0 a.code (0#6 ++ b1 l2) imm)
  | .aop k d a b op ord sc w sx => some (word 0x88 k d.code a.code b.code
      (xR 0 (mMem op.code 0 sc.code ord.code sx (w32Code w))))
  | .acas k d a b c ord sc w sx => some (word 0x89 k d.code a.code b.code
      (xR c.code (mMem 0 0 sc.code ord.code sx (w32Code w))))
  | .afadd k d a b ord sc w => some (word 0x8A k d.code a.code b.code
      (xR 0 (mMem 0 0 sc.code ord.code false (w32Code w))))
  | .cadd k a b sc => some (word 0x8B k 0 a.code b.code (xR 0 (mMem 0 0 sc.code 0 false 0)))
  | .cwait k d a b sc => some (word 0x8C k d.code a.code b.code (xR 0 (mMem 0 0 sc.code 0 false 0)))
  | .ctest k d a b acq sc => some (word 0x8D k d.code a.code b.code (xR 0 (mMem 0 0 sc.code (0#1 ++ b1 acq) false 0)))
  | .fence k kind sc => some (word 0x8E k 0 0 0 (xR 0 (mMem kind.code 0 sc.code 0 false 0)))
  | .split k => some (word 0xA0 k 0 0 0 0)
  | .join k d => some (word 0xA1 k d.code 0 0 0)
  | .spawn k d a b c => some (word 0xA2 k d.code a.code b.code (xR c.code 0))
  | .yieldOp k => some (word 0xA3 k 0 0 0 0)
  | .endOp k => some (word 0xA4 k 0 0 0 0)
  | .send k d a b c len8 => some (word 0xA5 k d.code a.code b.code (xR c.code (0#10 ++ BitVec.ofFin (w := 6) len8)))
  | .gcreate k d a b => some (word 0xA6 k d.code a.code b.code 0)
  | .gopen k d a b => some (word 0xA7 k d.code a.code b.code 0)
  | .gleave k d => some (word 0xA8 k d.code 0 0 0)
  | .gbar k d a wait => some (word 0xA9 k d.code a.code 0 (0#22 ++ b1 wait))
  | .garrive k a => some (word 0xAA k 0 a.code 0 0)
  | .gdrop k d => some (word 0xAB k d.code 0 0 0)
  | .gvote k d a b => some (word 0xAC k d.code a.code b.code 0)
  | .gred k d a b rop => some (word 0xAD k d.code a.code b.code (0#19 ++ BitVec.ofNat 4 rop.val))
  | .ginfo k d a item => some (word 0xAE k d.code a.code 0 (0#20 ++ BitVec.ofNat 3 item.val))
  | .treq k d a all => some (word 0xB0 k d.code a.code 0 (0#22 ++ b1 all))
  | .trel k d a => some (word 0xB1 k d.code a.code 0 0)
  | .tlend k d a b => some (word 0xB2 k d.code a.code b.code 0)
  | .tstat k d item => some (word 0xB3 k d.code 0 0 (0#19 ++ BitVec.ofNat 4 item.val))
  | .tdef k t b => some (word 0xB4 k 0 (tidA t) b.code (xR 0 (tidM t)))
  | .tget k t b => some (word 0xB5 k 0 (tidA t) b.code (xR 0 (tidM t)))
  | .tdrop k t => some (word 0xB6 k 0 (tidA t) 0 (xR 0 (tidM t)))
  | .copy k a sc => some (word 0xB8 k 0 a.code 0 (xR 0 (mMem 0 0 sc.code 0 false 0)))
  | .copys k a b c sc => some (word 0xB9 k 0 a.code b.code (xR c.code (mMem 0 0 sc.code 0 false 0)))
  | .mm k a tx ty acc => some (word 0xC0 k 0 a.code 0 (xE tx ty (0#2 ++ b1 acc)))
  | .mmdist k a tx ty acc => some (word 0xC1 k 0 a.code 0 (xE tx ty (0#2 ++ b1 acc)))
  | .mmtopk k a b tx ty dist => some (word 0xC2 k 0 a.code b.code (xE tx ty (0#2 ++ b1 dist)))
  | .spcomp k d tx ty => some (word 0xC8 k d.code 0 0 (xE tx ty 0))
  | .spmm k a b tx ty acc => some (word 0xC9 k 0 a.code b.code (xE tx ty (0#2 ++ b1 acc)))
  | .attn k d a b tx ty causal => some (word 0xD0 k d.code a.code b.code (xE tx ty (0#2 ++ b1 causal)))
  | .attmerge k a b tx ty => some (word 0xD1 k 0 a.code b.code (xE tx ty 0))
  | .kvapp k d tx ty => some (word 0xD2 k d.code 0 0 (xE tx ty 0))
  | .kvlook k d a b tx v => some (word 0xD3 k d.code a.code b.code (xE tx 0 (0#2 ++ b1 v)))
  | .ttset k a tx => some (word 0xD8 k 0 a.code 0 (xE tx 0 0))
  | .ttmask k d a => some (word 0xD9 k d.code a.code 0 0)
  | .ttpos k d a depth => some (word 0xDA k d.code a.code 0 (0#22 ++ b1 depth))
  | .ttprune k d a tx clr => some (word 0xDB k d.code a.code 0 (xE tx 0 (0#2 ++ b1 clr)))
  | .ttclr k => some (word 0xDC k 0 0 0 0)
  | .vemap k a b tx => some (word 0xE0 k 0 a.code b.code (xE tx 0 0))
  | .vezip k a b tx ty => some (word 0xE1 k 0 a.code b.code (xE tx ty 0))
  | .vered k a b tx acc => some (word 0xE2 k 0 a.code b.code (xE tx 0 (0#2 ++ b1 acc)))
  | .venorm k a b tx gain mean => some (word 0xE3 k 0 a.code b.code
      (xE tx (gain.getD 0) (0#1 ++ b1 mean ++ b1 gain.isSome)))
  | .vesoft k a b tx => some (word 0xE4 k 0 a.code b.code (xE tx 0 0))
  | .vecvt k a tx m => some (word 0xE5 k 0 a.code 0 (xE tx 0 (rndCode m)))
  | .baddq k d a tx ty f32 => some (word 0xEC k d.code a.code 0 (xE tx ty (0#2 ++ b1 f32)))
  | .gwnext k d => some (word 0xED k d.code 0 0 0)
  | .mfs k d n => some (word 0xF0 k d.code 0 0 (0#11 ++ n))
  | .mts k n a => some (word 0xF1 k 0 a.code 0 (0#11 ++ n))
  | .writeClass k a => some (word 0xF1 k 0 a.code 0 0x009)
  | .writeFpst k a => some (word 0xF1 k 0 a.code 0 0x004)
  | .writeRsp k a => some (word 0xF1 k 0 a.code 0 0x007)
  | .writeStatus k a => some (word 0xF1 k 0 a.code 0 0x000)
  | .writeDroopth k a => some (word 0xF1 k 0 a.code 0 0x104)
  | .writeCpwt k a => some (word 0xF1 k 0 a.code 0 0x107)
  | .readDroopcntCecnt k d cecnt => some (word 0xF0 k d.code 0 0 (if cecnt then 0x106 else 0x105))
  | .trap k n => some (word 0xF2 k 0 0 0 (0#7 ++ n))
  | .rft k a b => some (word 0xF3 k 0 a.code b.code 0)
  | .brk k n => some (word 0xF4 k 0 0 0 (0#7 ++ n))
  | .halt k => some (word 0xF5 k 0 0 0 0)
  | .nop k => some (word 0xF6 k 0 0 0 0)
  | .tgen k d a b => some (word 0xF8 k d.code a.code b.code 0)
  | .cinvCode k => some (word 0xF9 k 0 0 0 0)
  | .cinvLine k a => some (word 0xF9 k 0 a.code 0 1)
  | .cinvRdc k a => some (word 0xF9 k 0 a.code 0 2)
  | .scrub k a => some (word 0xFA k 0 a.code 0 0)
  | .route k d a cls => some (word 0xFB k d.code a.code 0 (0#20 ++ cls.code))
  | .unassignedOpcode w => some w
  | _ => none

/-- The word of an instruction as TVAL holds it; 0 for an act, which has none. -/
def encodeWord (i : Instr) : Word := (encode i).getD 0

/-- The instruction that the decoder reads from the bits of a table row: one word of 64 bits, least significant bit
first, with an empty latch. -/
def decodeTableWord (_nbits w : Nat) : Option Instr :=
  match decode .empty (BitVec.ofNat 64 w) with
  | .ok i => some i
  | .error _ => none

end Sys2Proof
end

