-- ==== Sys2Proof/Machine/Bits.lean ====
section
/-! DEFINITION. Sys2Proof/Machine/Bits.lean: bit fields, sign extension, byte order and vector lanes (R15, R18, R19,
Table 1.2). -/

namespace Sys2Proof.Machine

/-- x[hi:lo] as a natural number (R18). -/
def bits (w : Word) (hi lo : Nat) : Nat := (w.toNat / 2 ^ lo) % 2 ^ (hi + 1 - lo)

def bit (w : Word) (i : Nat) : Bool := w.getLsbD i

/-- The dword with `v` in bits [hi:lo]. -/
def putBits (w : Word) (hi lo : Nat) (v : Nat) : Word :=
  BitVec.ofNat 64 (w.toNat - bits w hi lo * 2 ^ lo + (v % 2 ^ (hi + 1 - lo)) * 2 ^ lo)

/-- sext(x, n) of Table 0.8. -/
def sextN (x n : Nat) : Int :=
  let y := x % 2 ^ n
  if n = 0 then 0 else if y < 2 ^ (n - 1) then (y : Int) else (y : Int) - 2 ^ n

/-- The low n bits of an integer (R18). -/
def wrapN (x : Int) (n : Nat) : Nat := (x % (2 ^ n : Int)).toNat

/-- sat(x, lo, hi) of Table 0.8. -/
def satInt (x lo hi : Int) : Int := if x < lo then lo else if x > hi then hi else x

/-- A 23-bit immediate as a 64-bit value. -/
def immW (imm : BitVec 23) : Word := imm.signExtend 64

/-- The `n` bytes of a value, the lowest first (R15). -/
def bytesOf : Nat → Nat → List Byte
  | 0, _ => []
  | n + 1, x => BitVec.ofNat 8 x :: bytesOf n (x / 256)

/-- The value of bytes, the lowest first (R15). -/
def natOf : List Byte → Nat
  | [] => 0
  | b :: t => b.toNat + 256 * natOf t

def wordOfBytes (l : List Byte) : Word := BitVec.ofNat 64 (natOf l)

/-- Lane i of a vector register (Table 1.2). -/
def lane (v : VReg) (i : Nat) : Lane := v.extractLsb' (32 * i) 32

/-- Elements of a vector register: 64 lanes of 32 bits, or 32 lane pairs of 64 bits. -/
def elems (v : VReg) (w64 : Bool) : List Nat :=
  if w64 then (List.range 32).map fun j => (v.extractLsb' (64 * j) 64).toNat
  else (List.range 64).map fun j => (v.extractLsb' (32 * j) 32).toNat

/-- A list of elements of n bits as one number, the first lowest. -/
def packN (n : Nat) : List Nat → Nat
  | [] => 0
  | x :: t => x % 2 ^ n + 2 ^ n * packN n t

/-- The vector register with these elements. -/
def ofElems (l : List Nat) (w64 : Bool) : VReg := BitVec.ofNat 2048 (packN (if w64 then 64 else 32) l)

/-- Number of one bits. -/
def popN : Nat → Nat → Nat
  | 0, _ => 0
  | n + 1, x => x % 2 + popN n (x / 2)

/-- Number of trailing zero bits of an n-bit pattern; n when it is 0 (R103). -/
def ctzN : Nat → Nat → Nat
  | 0, _ => 0
  | n + 1, x => if x % 2 = 1 then 0 else 1 + ctzN n (x / 2)

/-- The n-bit pattern with its bits in reverse order. -/
def revN : Nat → Nat → Nat
  | 0, _ => 0
  | n + 1, x => (x % 2) * 2 ^ n + revN n (x / 2)

/-- Bit i of a mask of 64 bits set where the list says so. -/
def maskOf (l : List Bool) : Word := BitVec.ofNat 64 (packN 1 (l.map fun b => if b then 1 else 0))

/-- Addition that saturates at 65,535. -/
def sat16 (x : Nat) : Nat := min x 65535

end Sys2Proof.Machine
end

