-- ==== Sys2Proof/Machine/Fuses.lean ====
section
/-! DEFINITION. Sys2Proof/Machine/Fuses.lean: the fuse map of a part with every tile and core good (R514), and its first firmware
image (R519). The spec gives no part's own map, key or image: the serial number, the firmware key and the image are the
model's (log 5). The digests and the signature are those that SHAKE256 and Ed448 give for them. -/

namespace Sys2Proof.Machine

/-- The public key of the firmware key pair, 57 bytes. -/
def firmwareKey : List Byte :=
  bytesOf 57 0xc9e872ea99067c712d5835e8e1cda7c05944b28155e1e751032158f59dae7ba588255fa17fd5b0fca83b84ecc7466f32a0dc7fe5a38b91da

/-- SHAKE256 of that key, 64 bytes (ROOTDIG). -/
def rootDigest : List Byte :=
  bytesOf 64
    0x59275d479fabc9f9c0500c4ad7221b7cf607b1e7a459a38ea559a5d83b7f40de49c8ed8c85271942150c6079fb1b5d66891e5614b9ddd6f2eafe16412076cbd6

/-- SHAKE256 of bytes +0x000 to +0x5D7 of the map (FMDIG). -/
def mapDigest : List Byte :=
  bytesOf 64
    0x75ab47fae91553fad0eb0bd413d9b2c027ddc302bfe3530a0c897c44a1143cb093734225aec59ea0f56d815d2a97946a015df66c97af23106d488652121d7fe4

/-- Bytes +0x000 to +0x01F: MAGIC, SERIAL, GRADE 4917-A, BUILT (Table 20.1). -/
def fuseHead : List Byte :=
  bytesOf 8 0x4445525646493137 ++ bytesOf 8 1 ++ bytesOf 8 1 ++
  bytesOf 8 (9408 * 2 ^ 48 + 98 * 2 ^ 40 + 98 * 2 ^ 32 + 147 * 2 ^ 24 + 245 * 2 ^ 16)

/-- The fuse map, 4 KiB (Table 20.1). -/
def wholeWafer : List Byte :=
  fuseHead ++ List.replicate 136 0 ++ bytesOf 80 (2 ^ 588 - 1) ++ List.replicate 1176 255 ++ bytesOf 8 1 ++ rootDigest ++
  mapDigest ++ List.replicate 2536 0

/-- The image in use when the part leaves manufacture. -/
def firstImage : FwImage :=
  { version := 1
    digest := bytesOf 64
      0xce156c8c3b4a5a015c344c69eb050b074b094629d8f55bd97da080109acfd06b971adcd5187d132f9c505f2d7836a77e786987e08f3bfd61a8a66ddad8d9432a
    sig :=
      bytesOf 57 0x806f4dea9fef377c93ac0ae605280f42c6a4b7bcb27427e7eb1cbc6e66c65e1c1626448f7e9e0a1e0d17ee90f4a432034a95e89a754722f121 ++
      bytesOf 57 0x3eb59c6f003d83d6145c591aa91755f28a1fcf10f9201c6b271f0de4a419a5a121f28c07601b76928d7393e4b3f253b3c3dae9dd7d87c349
    key := firmwareKey
    body := bytesOf 4 0x37313934 }

end Sys2Proof.Machine
end

