-- ==== Sys2Proof/Machine/State.lean ====
section
/-! DEFINITION. Sys2Proof/Machine/State.lean: the state of the 4917 as plain data, level by level (strand, slot, core, tile,
field, sector, partition, module), the reasons a step can stop, and the state after reset. Sparse tables are used where a
level has many parts: a part that is not listed has its reset value. -/

namespace Sys2Proof.Machine

/-! ### Strand (chapter 1) -/

/-- The latch L with its class (R41). -/
structure Latch where
  cls : LCls := .empty
  val : VReg := 0
  deriving DecidableEq, Repr

/-- STAT.FMODE (Table 1.3). -/
inductive FMode where
  | attached | detached | unbound
  deriving DecidableEq, Repr

/-- Wait kinds (Table 1.4). -/
inductive WaitKind where
  | none | pageFault | tierMiss | token | preempted | cwaitMon | cwaitOvf | group | yield | message
  deriving DecidableEq, Repr

/-- What holds a strand record (R28): a core slot, a ready queue, a wait list, a pending pool or an overflow queue. -/
inductive Place where
  | slot (k : Nat)
  | ready (tile : Nat)
  | waiting
  | pending (tile : Nat)
  | overflow (tile : Nat)
  deriving DecidableEq, Repr

/-- A strand: the fields of its record (Table 1.1) and its registers (Tables 1.2 and 1.5). While the record is at rest,
`stat` holds its STAT dword and the registers lie in the save frame. -/
structure Strand where
  task  : Nat
  part  : Nat
  index : BitVec 32
  home  : Nat
  place : Place
  hdr   : Word
  widx  : Nat := 0
  rsp   : Word := 0
  save  : Word := 0
  stat  : Word := 0
  waitK : WaitKind := .none
  waita : Word := 0
  waitv : Word := 0
  prio  : Nat := 0
  cls   : Nat := 0
  stream : Nat := 0
  fmode : FMode := .unbound
  ap    : Bool := false
  cwp   : Nat := 0
  fres  : Nat := 0
  lcore : Nat := 0
  /-- s0 to s7; element 0 is never read. -/
  g     : Vector Word 8 := Vector.replicate 8 0
  /-- 8 frames of 16 registers: IN then LOCAL (R34, R35). -/
  frames : Vector Word 128 := Vector.replicate 128 0
  v     : Vector VReg 32 := Vector.replicate 32 0
  /-- p0 to p7; element 0 is never read. -/
  p     : Vector Word 8 := Vector.replicate 8 0
  h     : Vector (BitVec 32) 8 := Vector.replicate 8 0
  latch : Latch := {}
  fpst  : Word := 0
  zsub  : Bool := false
  cause : Word := 0
  tval  : Word := 0
  tpc   : Word := 0
  rprog : Word := 0
  treesel : Nat := 0
  /-- Header of the block entered last; before the first one, every group counts as live (log 18). -/
  header : Word := 0x0003FFFC00000000
  /-- Registers whose content is lost because they were not live (R39): one bit for each frame register, one for each
  group of four vectors. -/
  gated  : BitVec 128 := 0
  gatedV : BitVec 8 := 0
  /-- The slot on which it stood last. -/
  stood   : Nat := 0
  /-- Since when the record has waited, for aging (R497). -/
  since : Nat := 0
  /-- PRIO without a raise by a group (R427) or by aging (R497), while one holds; the PRIO that a group raised it to, or 0;
  steps that it has aged in the wait that goes on. -/
  base  : Option Nat := none
  lift  : Nat := 0
  aged  : Nat := 0
  /-- Message buffer that it was created with (R287), or 0. -/
  msg   : Word := 0
  /-- Place of the record while it is on an overflow queue (R288). -/
  ovf   : Word := 0
  /-- The strand has been picked up mid-block: its header is to be fetched again (R27). -/
  refetch : Bool := false
  /-- Place of the counter that met the threshold of the CWAIT at which the strand stands, which now only reads the
  counter (R138, R186). -/
  met   : Option Nat := none
  /-- Words kept of the block already entered when CINV.code drops their lines (R402): address and word. -/
  kept  : List (Word × Word) := []
  /-- Place of the record in the strand area; none before the first put-down of a record that SPAWN or SEND made (R28, R288). -/
  area  : Option Word := none
  /-- Scope of the acquire that the next pick-up makes (R160, R164). -/
  acq   : Scope := .tile
  /-- The word at which the strand stands has triggered a debug halt, and completes as a NOP when it runs again (R180). -/
  asNop : Bool := false
  deriving DecidableEq, Repr

/-! ### Outcomes of accesses (chapters 4, 6 and 15) -/

/-- Fault codes (Table 6.3). -/
inductive FaultCode where
  | illop | operand | lookahead | align | access | priv | badaddr | engine | tensor | spmeta | tree | kvstale | handle
  | overarrive | savelost | uncorr | rollback | island | level | timeout
  deriving DecidableEq, Repr

/-- The kind of an access as a request carries it (R387): read, write, read-modify-write, fetch. -/
inductive Acc where
  | read | write | rmw | fetch
  deriving DecidableEq, Repr

/-! ### Slot (chapters 4 and 8) -/

/-- One element of a posted store: address, physical place and bytes. -/
structure StoreElem where
  va    : Word
  pa    : Nat
  bytes : List Byte
  deriving DecidableEq, Repr

/-- The word that posted a store, by TPC and HDR (R176, R501); a store that passes by the L1 data cache is performed at its home
slice (R249). -/
structure Origin where
  tpc  : Word
  hdr  : Word
  past : Bool := false
  deriving DecidableEq, Repr

/-- A store-buffer entry (R130, R132, R137). -/
inductive StoreEntry where
  | store (org : Origin) (elems : List StoreElem)
  | cadd (va : Word) (pa : Nat) (v : Word)
  deriving DecidableEq, Repr

/-- A lookahead window as R76 checks it: the register that its instruction writes, the words still to come, and whether
one of its words has written a register result. -/
structure Window where
  dst    : Option Reg
  left   : Nat
  wroteL : Bool
  deriving DecidableEq, Repr

/-- An outstanding long-latency instruction as a later word found it: its number, the words of its window still to issue,
and whether a later word had written L. -/
structure Ahead where
  n      : Nat
  left   : Nat
  wroteL : Bool
  deriving DecidableEq, Repr

/-- A forward-queue entry (R217): the number of its word in the slot, the decoded word (none for a predicate write of the
scalar side, R219), the guard result, the values of the word's scalar sources, the predicate that the entry writes into the
vector side's copy, the lanes that the start enables, the register whose result returns to the scalar side, whether a store of
it stands last in the store buffer; and, for a discard (R221), the strand, the stream position, the windows and the
outstanding instructions as they were before the word. `opens` marks a division with a lookahead window: it takes its window slot
and opens its window when it starts (R115). `done` marks the predicate of an instruction that has completed (R219): a discard leaves
it. -/
structure FwdEntry where
  n       : Nat
  instr   : Option Instr
  guard   : Word
  scalars : List Word
  pred    : Option (Fin 8 × Word)
  lanes   : Word
  returns : Option Reg
  store   : Bool
  before  : Strand
  pos     : Nat
  windows : List Window
  ahead   : List Ahead
  opens   : Bool := false
  done    : Bool := false
  deriving DecidableEq, Repr

/-- A long-latency instruction that has issued with a lookahead window and has not completed (R75, R77): the number of its
word in the slot, the instruction, the strand, the stream position and the windows as they were before it, the words of
its window still to issue, whether a later word has written L, and whether the L of `before` is still to come from the
long-latency instruction ahead of it. -/
structure Inflight where
  n      : Nat
  instr  : Instr
  before : Strand
  pos    : Nat
  windows : List Window
  left   : Nat
  wroteL : Bool
  needL  : Bool
  deriving DecidableEq, Repr

/-- Why a strand on its slot issues nothing (R37, R187, R289, R400): a put-down that waits for a save frame or for its spill,
a fault, a creation that waits, the wait of a put-down met before it completed, an access without a reply (R173). -/
inductive Hold where
  | save
  | spill
  | resume
  | fault
  | creation
  | reply
  deriving DecidableEq, Repr

/-- Why an engine instruction has stopped at a row-block boundary (R320, R176). -/
inductive JobStop where
  | fault (c : FaultCode) (tval : Word)
  | walkLost (tval : Word)
  | page (va : Word) (field : Nat) (acc : Acc) (malformed : Bool)
  | tier (va : Word) (field : Nat) (acc : Acc) (entry : Word) (big : Bool) (slot : Nat)
  | token
  | preempt
  deriving DecidableEq, Repr

/-- An access of which requests or replies are lost: how many end-to-end timeouts elapse before a reply comes, and when the
access was first sent (R173). -/
structure Lost where
  n     : Nat
  since : Option Nat := none
  deriving DecidableEq, Repr

/-- An end-to-end timeout, in nanoseconds, and how many of them end an access with TIMEOUT (R173). -/
def replyTimeout : Nat := 20000
def replyTries : Nat := 5

/-- TIME at which the wait for a reply that began at `t0` ends. -/
def Lost.ends (l : Lost) (t0 : Nat) : Nat := t0 + replyTimeout * min l.n replyTries

/-- How the next access of an agent stands: it has its reply; it is sent now and gets none; it waits; no reply has come to it or
to its retransmissions. -/
inductive ReplyNow where
  | came
  | sent (l : Lost)
  | waits
  | timeout
  deriving DecidableEq, Repr

/-- That, at TIME `now` (R173). -/
def replyNow (now : Nat) : Option Lost → ReplyNow
  | none => .came
  | some l =>
    match l.since with
    | none => .sent l
    | some t0 => if now < l.ends t0 then .waits else if replyTries ≤ l.n then .timeout else .came

/-- A strand slot that holds a strand. -/
structure Slot where
  uid    : Nat
  buf    : List StoreEntry := []
  fwd    : List FwdEntry := []
  /-- Words that have issued on the slot. -/
  issued : Nat := 0
  /-- Results of started vector-side instructions on their way to the return queue, and the return queue (R218): number of
  the word, register. -/
  started : List (Nat × Reg) := []
  ret    : List (Nat × Reg) := []
  flight : List Inflight := []
  windows : List Window := []
  hold   : Option Hold := none
  pos    : Nat := 0
  picked : Nat := 0
  /-- Header at whose JOIN the strand waits to be attached (R282). -/
  joinWait : Option Word := none
  /-- The wait of a SPAWN or SEND has been counted in DENIED (R289, Table 15.7). -/
  denied   : Bool := false
  /-- The private fetch path has decoded the strand's next word (R278). -/
  turned : Bool := false
  /-- The scheduler has asked for the strand to be pre-empted (R187). -/
  preempt : Bool := false
  /-- The word at which the strand stands has found the store buffer full and is stalled within itself (R130, R187). -/
  stalled : Bool := false
  /-- Number of the vector-side word whose predicate EITHER still has to read from the return queue (R218). -/
  await   : Option Nat := none
  /-- The vector side's copy of the predicate registers (R219); element 0 is never read. -/
  vp      : Vector Word 8 := Vector.replicate 8 0
  /-- A heavy instruction has asked its broker for leave and waits for the answer (R323, R439). -/
  leave   : Bool := false
  /-- A live register that the next word to read one finds uncorrectable (Table 9.2). -/
  badReg  : Bool := false
  /-- The window action of the word at which the strand stands has been made, ahead of an effect that others can observe (R67): the
  bytes of the frame that a fill has read. -/
  stack   : Option (List Byte) := none
  /-- The suspension that has struck the strand, while its outstanding long-latency instructions complete (R31, R221), and
  whether it was met on entering a block. -/
  stop    : Option (JobStop × Bool) := none
  /-- The next access of the strand loses requests or replies (R173). -/
  lost    : Option Lost := none
  deriving DecidableEq, Repr

/-! ### Core (chapter 9) -/

/-- A line of an L1 data cache (R248). Bit i of `valid`, `dirty` and `bad` is word i; `bad` marks a valid word that is
uncorrectable. -/
structure L1Line where
  va    : Word
  ctx   : Nat
  gen   : BitVec 16
  pa    : Nat
  valid : BitVec 32
  dirty : BitVec 32
  bad   : BitVec 32
  data  : BitVec 1024
  mask  : BitVec 4
  deriving DecidableEq, Repr

/-- The leaky bucket of a core or of a tile's shared parts (R503, Table 19.9): TRANS, BUSY, SUSPECT, LEVEL. -/
structure Bucket where
  trans   : Nat := 0
  busy    : Bool := false
  suspect : Bool := false
  level   : Nat := 0
  deriving DecidableEq, Repr

/-- A core. -/
structure Core where
  good    : Bool := true
  l1      : List L1Line := []
  /-- The cycle from which CYCLE is counted, with the nominal periods that had passed when it began (R260); the cycles from
  it to `stretchEnd` are the stretched ones. -/
  baseCycle  : Nat := 1
  basePeriod : Nat := 1
  stretchEnd : Nat := 0
  halfEnd    : Nat := 0
  stretch : BitVec 32 := 0
  sense   : Nat := 0
  wakes   : Nat := 0
  droopth : Word := 0x1828
  /-- Lanes enabled by the last 16 vector-side starts, newest first (R262). -/
  lanes   : List Word := []
  /-- CECNT: POISON, REFETCH, CORR (Table 9.3). -/
  poison  : Nat := 0
  refetch : Nat := 0
  corr    : BitVec 32 := 0
  /-- L1 sets under Assay, which accept no allocation (R258). -/
  testing : List Nat := []
  cpwt    : Nat := 4
  bucket  : Bucket := {}
  /-- Slot served last on the vector side and on the scalar side, and the cycle after the scalar side's last issue (R214). -/
  lastV   : Nat := 0
  lastS   : Nat := 0
  issueC  : Nat := 0
  /-- Cycles from which the integer divider and the divide-and-square-root unit of the scalar side, and those of the vector
  side, are free (R115, R247). -/
  unitFree : Vector Nat 4 := Vector.replicate 4 0
  /-- Vector lease, lease count with the cycle up to which it has counted, cycle of the last refused lease request and of the
  last start (R434, R435). -/
  lease   : Nat := 0
  leaseK  : Nat := 0
  leaseC  : Nat := 0
  refused : Option Nat := none
  started : Nat := 0
  /-- Tokens of a lease request on its way to the broker (R434). -/
  leaseAsk : Nat := 0
  deriving DecidableEq, Repr

/-! ### Tile (chapter 10) -/

/-- One word of a stream's path (R273): the instruction word, and its recorded outcome: whether it took a transfer, and the
header address and word index at which the strand then stands. -/
structure PathWord where
  word : Word
  taken : Bool
  hdr  : Word
  widx : Nat
  deriving DecidableEq, Repr

/-- Since when a stream gathers (R277): the header, the core that opened it, that core's CYCLE then. -/
structure Gather where
  hdr   : Word
  core  : Nat
  since : Nat
  deriving DecidableEq, Repr

/-- A Mandrel stream (R272 to R282). `base` is the position of the first word still listed in `path`. -/
structure Stream where
  members : List Nat := []
  gather  : Option Gather := none
  path    : List PathWord := []
  base    : Nat := 0
  /-- Detached set: strand and reconvergence header (R280). -/
  detached : List (Nat × Word) := []
  /-- The lead waits at the JOIN of this header (R281). -/
  joining : Option Word := none
  deriving DecidableEq, Repr

/-- A line of the Mandrel instruction cache: 16 dwords; a dword that was uncorrectable is none. -/
structure IcLine where
  va    : Word
  ctx   : Nat
  gen   : BitVec 16
  words : List (Option Word)
  deriving DecidableEq, Repr

/-- Where revoked tokens go (R445): a lender's GRANT, a field pool, the reserve out of a field's total. -/
inductive Holder where
  | tile (t : Nat)
  | pool (f : Nat)
  | reserve (f : Nat)
  deriving DecidableEq, Repr

/-- A revocation of a tile's GRANT, or of the lease of a core (R445). -/
structure Notice where
  amount : Nat
  core   : Option Nat := none
  dest   : Holder
  deriving DecidableEq, Repr

/-- A strand that waits for tokens recalled by its tile (R444), with what the recalls do not cover. -/
structure Recall where
  uid  : Nat
  rest : Nat
  deriving DecidableEq, Repr

/-- A tensor entry as its sixteen dwords (Table 11.1). -/
abbrev Entry := Vector Word 16

inductive JobStatus where
  | ready
  | running
  | done
  | stopped (w : JobStop)
  deriving DecidableEq, Repr

/-- An instruction that a tile's engine holds (R319): the strand that issued it, what it was at its issue, the tensor entries
and registers that it works from, its progress, and the writes of the row-block that runs. -/
structure Job where
  u     : Nat
  k     : Nat
  part  : Nat
  ctx   : Nat
  task  : Nat
  user  : Bool
  instr : Instr
  word  : Word
  taskid : Word
  tpc   : Word
  hdr   : Word
  /-- Energy class of the strand, and whether the leave check applies (R323). -/
  cls   : Nat
  heavy : Bool
  /-- Identifiers and entries: TX, TY, result, and value tensor or state; unused places hold 0. -/
  ids   : List Nat
  ents  : List Entry
  /-- The scalar that the instruction works from, and the mask register. -/
  parm  : Word := 0
  masks : VReg := 0
  /-- Progress as PROG gives it; the length of the sequence and the tree with its TSER (R349, R346). -/
  pos   : Nat × Nat := (0, 0)
  len0  : Nat := 0
  tree  : Option (Nat × BitVec 16) := none
  /-- A row-block has started, so that the TSER is the one that it saw (R346); the accumulators that the engine holds between two
  row-blocks, FP32 patterns by row (R317, R351). -/
  seen  : Bool := false
  acc   : List (List Nat) := []
  status : JobStatus := .ready
  writes : List StoreElem := []
  next  : Option (Nat × Nat) := none
  cycles : Nat := 0
  zsub  : Bool := false
  /-- An access of the row-block that starts next loses requests or replies (R173). -/
  lost  : Option Lost := none
  deriving DecidableEq, Repr

/-- A tree of a tile's tree file (Table 13.4); DEPTH and MASK follow from the parents. -/
structure Tree where
  valid : Bool := false
  owner : Nat := 0
  part  : Nat := 0
  tser  : BitVec 16 := 0
  basepos : Nat := 0
  par   : List Nat := []
  deriving DecidableEq, Repr

/-- A copy command that has been queued (R305 to R310): who issued it, what it copies, and how far it has come. A COPY is
one row of `len` bytes; a COPYS has the rows of its window. `row` and `off` name the next chunk; `inExp` says that the
exponent bytes of the row are next. `held` says that its addition waits for a page. -/
structure CopyCmd where
  part  : Nat
  ctx   : Nat
  task  : Nat
  k     : Nat
  user  : Bool
  taskid : Word
  tpc   : Word
  hdr   : Word
  scope : Scope
  ctr   : Word
  addv  : Word
  src   : Word := 0
  dst   : Word := 0
  len   : Nat := 0
  /-- COPYS: source and destination entries, origins, shape. -/
  tens  : Option (Entry × Entry) := none
  sorg  : List Nat := []
  dorg  : List Nat := []
  shp   : List Nat := []
  row   : Nat := 0
  off   : Nat := 0
  inExp : Bool := false
  held  : Bool := false
  deriving DecidableEq, Repr

/-- A core's copy queue as its tile's engine sees it (R305): commands, deficit, and whether the head's chunk is held. -/
structure CopyQueue where
  cmds    : List CopyCmd := []
  deficit : Nat := 0
  held    : Bool := false
  /-- An access of the next chunk loses requests or replies (R173), and whether it is the write. -/
  lost    : Option Lost := none
  lostWrite : Bool := false
  deriving DecidableEq, Repr

/-- A tile. -/
structure Tile where
  good    : Bool := true
  bucket  : Bucket := {}
  /-- The tile holds its floor (R433). -/
  lit     : Bool := false
  /-- GRANT, borrowed tokens included (R436, R442). -/
  grant   : Nat := 0
  /-- TIME of the last grant (R446); notices that have arrived; tokens taken that have not moved yet; recalls (R444, R445). -/
  granted : Nat := 0
  notices : List Notice := []
  taken   : List Notice := []
  recalls : List Recall := []
  /-- ZLOG's base, 0 outside an active partition, its HEAD, and entries written so far (R326). -/
  zbase   : Word := 0
  zhead   : Nat := 0
  zseq    : BitVec 16 := 0
  ready   : List (List Nat) := List.replicate 8 []
  pool    : List Nat := []
  overflow : List Nat := []
  streams : List Stream := List.replicate 4 {}
  icache  : List IcLine := []
  fetchLast : Nat := 1023
  /-- Copy queues by core of the tile, the queue that the engine's loop serves, whether its quantum has been added (R305), and
  the commands whose last chunk has been performed (R308). -/
  copies  : Tab CopyQueue := []
  copyAt  : Nat := 0
  copyIn  : Bool := false
  copied  : List CopyCmd := []
  /-- The next completion addition of the copy engine loses requests or replies (R173). -/
  addLost : Option Lost := none
  /-- The error log of the scratchpad: corrected errors (R296). -/
  corrected : Nat := 0
  /-- Instructions of the engine in the order of their turns (R319); the array is idle after a row-block at a reduced fraction
  (R324); the tree file (R343). -/
  jobs    : List Job := []
  idle    : Bool := false
  /-- The core on whose clock that idle time counts, and the cycle of it in which the engine may start again (R324). -/
  idleCore : Nat := 0
  idleEnd : Nat := 0
  trees   : Tab Tree := []
  deriving DecidableEq, Repr

/-! ### Field (chapters 4 and 15) -/

/-- A leaf of a field's translation cache (R391). -/
structure Leaf where
  ctx   : Nat
  gen   : BitVec 16
  va    : Word
  big   : Bool
  entry : Word
  slot  : Nat
  deriving DecidableEq, Repr

/-- A line of a remote-data cache (R383): 32 words; `valid` leaves out words that were uncorrectable. -/
structure RdcLine where
  va    : Word
  ctx   : Nat
  gen   : BitVec 16
  valid : BitVec 32
  data  : BitVec 1024
  deriving DecidableEq, Repr

/-- A monitor-table entry (R139): counter, threshold, strand. -/
structure Monitor where
  pa  : Nat
  thr : Word
  uid : Nat
  deriving DecidableEq, Repr

/-- What waits for a page (R37, R397, R403, R477): a strand, the spill of a put-down, a chunk of a copy command or its
addition, a scrubber command, an act of a port or of the scheduler that is held. -/
inductive Waiter where
  | strand (u : Nat)
  | spill (u : Nat)
  | copy (tile core : Nat)
  | copyEnd (tile : Nat) (ctr : Word)
  | scrub (field : Nat)
  | act (i : Instr)
  deriving DecidableEq, Repr

/-- An entry of a field's fault list (R397), or a chunk held for the field (R398). -/
structure FaultWait where
  who  : Waiter
  part : Nat
  ctx  : Nat
  va   : Word
  acc  : Nat
  deriving DecidableEq, Repr

/-- A waiter of a promotion, with the INFO and TASKID that a fault descriptor of it holds (R480, Table 15.6). -/
structure Held where
  wait   : FaultWait
  info   : Word
  taskid : Word
  deriving DecidableEq, Repr

/-- A promotion under way (R478 to R481): the page, its leaf as the tier miss read it with its place, the frame popped,
and who waits. -/
structure Promo where
  part  : Nat
  ctx   : Nat
  va    : Word
  big   : Bool
  entry : Word
  slot  : Nat
  frame : Option Nat := none
  waiters : List Held := []
  deriving DecidableEq, Repr

/-- A scrubber command (R403): who issued it, with the instruction that a later fault names, its control block, and how far
it has come: 0 nothing, 1 zero-filled, 2 pushed, 3 RESULT written. `quiet` marks a command whose grid has ended (R184). -/
structure Scrub where
  part  : Nat
  ctx   : Nat
  task  : Nat
  k     : Nat
  taskid : Word
  tpc   : Word
  hdr   : Word
  blk   : Word
  frame : Nat
  big   : Bool
  pool  : Word
  ctr   : Word
  addv  : Word
  stage : Nat := 0
  res   : Nat := 0
  quiet : Bool := false
  deriving DecidableEq, Repr

/-- A member record of a group (R407, Table 16.3), with its place in the arena, the strand, and the strand's home tile at
its last arrival. -/
structure Member where
  taskid : Word
  uid    : Nat
  addr   : Word
  home   : Nat
  first  : BitVec 32
  arrp   : BitVec 32 := 0
  excl   : Bool := false
  leave  : Bool := false
  held   : Bool := false
  /-- Held kind: 0 plain, 1 vote, 2 reduction; with its vote, ROP and value. -/
  kind   : Nat := 0
  vote   : Bool := false
  rop    : Nat := 0
  hval   : Word := 0
  deriving DecidableEq, Repr

/-- A group-table entry (R406, Table 16.2). `homes` are the home tiles of the arrivals counted in the current phase; members
stand in the order of their opens. -/
structure Group where
  valid   : Bool := false
  gen     : BitVec 16 := 0
  name    : Word := 0
  ctx     : Nat := 0
  quorum  : Nat := 0
  cosched : Bool := false
  faulted : Bool := false
  lastf   : Bool := false
  lsc     : Nat := 0
  phase   : BitVec 32 := 0
  memb    : Nat := 0
  joinp   : Nat := 0
  arr     : Nat := 0
  exc     : Nat := 0
  leavep  : Nat := 0
  rop     : Nat := 0
  rset    : Bool := false
  acc     : Word := 0
  vtrue   : Nat := 0
  vfalse  : Nat := 0
  last    : Word := 0
  ltrue   : Nat := 0
  lfalse  : Nat := 0
  homes   : List Nat := []
  members : List Member := []
  deriving DecidableEq, Repr

/-- An entry of a field's waiting list (R440). -/
structure TokWait where
  uid    : Nat
  tile   : Nat
  amount : Nat
  deriving DecidableEq, Repr

/-- A counter addition on its way to a home slice (R163): place, value, the context that it is made in, and the virtual function
of a task whose DONE addition it is (R544). -/
structure Adding where
  pa    : Nat
  val   : Word
  ctx   : Nat
  owner : Option (Nat × Nat) := none
  deriving DecidableEq, Repr

/-- A field. -/
structure Field where
  retired : Bool := false
  /-- Free tokens and the pool's total (R8, R547); the waiting list in order of arrival (R440). -/
  free    : Nat := 1600
  total   : Nat := 1600
  /-- Tokens of the total that top-ups have brought from the reserve under the allowance (R446, R547). -/
  raised  : Nat := 0
  waiters : List TokWait := []
  /-- Times of the sense events of the last 20 µs; since when a droop hold is in force; holds entered (R448). -/
  senses  : List Nat := []
  hold    : Option Nat := none
  holds   : BitVec 32 := 0
  tlb     : List Leaf := []
  rdc     : List RdcLine := []
  monitors : List (List Monitor) := List.replicate 16 []
  /-- Overflow wait sub-lists, oldest first (R140). -/
  overflow : List (List Monitor) := List.replicate 16 []
  /-- Lines in the home slices, most recent first: line number and context; occupancy slots of each slice: slot, context
  and count (R379, R381). -/
  l2      : List (Nat × Nat) := []
  /-- Ways that are retired: slice and set of each; lines fewer that the remote-data cache holds (R505). -/
  l2Gone  : List (Nat × Nat) := []
  rdcGone : Nat := 0
  occ     : Tab (Tab (Nat × Nat)) := []
  /-- Counter additions on their way to the field's slices (R163). -/
  adds    : List Adding := []
  /-- Fault list and held chunks, oldest first (R397, R398); descriptors that wait for room in the fault ring (R396). -/
  faults  : List FaultWait := []
  descs   : List (List Word) := []
  /-- Promotions, oldest first (R478). -/
  promos  : List Promo := []
  /-- The group table (R405). -/
  groups  : Tab Group := []
  /-- The scrubber queue (R403). -/
  scrubs  : List Scrub := []
  /-- Corrected errors of the home slices, as logged (R380); places of DRAM that cannot hold zero (R403). -/
  corrected : Nat := 0
  stuck   : List Nat := []
  deriving DecidableEq, Repr

/-! ### Partition and task (chapters 15 and 19) -/

/-- A task header that the scheduler has read ahead and not launched (R492, R493): its slot, its dwords, its address, its queue's
undo log with the capacity in entries, and the value of its dependence counter as last noticed. -/
structure ReadHeader where
  qslot   : Nat
  header  : Vector Word 8
  addr    : Word := 0
  log     : Word := 0
  logCap  : Nat := 0
  depSeen : Option Word := none
  deriving DecidableEq, Repr

/-- A task queue as the scheduler keeps it (R490 to R493): the value of its tail counter last noticed, that counter's address as
last read, the headers read and not launched, the ROLLBACK task that runs. -/
structure Queue where
  tailSeen : Word := 0
  tail     : Option Word := none
  headers  : List ReadHeader := []
  rollback : Option Nat := none
  deriving DecidableEq, Repr

/-- A virtual function of a partition (R489), as the scheduler and the ports keep it. -/
structure Vf where
  ctx    : Nat := 0
  /-- PAUSE (R544): 0 not paused, 1 waiting for tasks, commands and descriptors, 2 answering BUSY, 3 PAUSED. -/
  pause  : Nat := 0
  released : Bool := false
  /-- The migration subcode that has not completed (R541), with its migration block. -/
  moving : Option (Nat × Word) := none
  /-- Dirty tracking (R542): migration block, ring, slots, tail counter, overflow; pages recorded since the last TRACK or
  COLLECT. -/
  tracking : Bool := false
  mblk   : Word := 0
  dring  : Word := 0
  dnslot : Nat := 0
  dtail  : Word := 0
  dovf   : Bool := false
  dpages : List Word := []
  queues : Tab Queue := []
  /-- Queue from which a task was launched last (R494). -/
  served : Nat := 7
  deriving DecidableEq, Repr

/-- A raise of a context's generation (R394): context, new generation, physical place of the counter, or the virtual function
whose TRACK or COLLECT it completes (R542, R543), whether it has started, and the agents that have still to acknowledge it: a core by its number, the Mandrel of a tile by 20000 more, its engine
by 40000 more, the remote-data cache of a field by 50000 more. Other agents keep nothing of a context between two steps. -/
structure Raise where
  ctx  : Nat
  gen  : BitVec 32
  ctr  : Option Nat
  vf   : Option Nat := none
  started : Bool := false
  left : List Nat := []
  deriving DecidableEq, Repr

/-- The debug halt of a partition (R510 to R513). -/
structure DebugHalt where
  source  : Nat
  since   : Nat
  pcoord  : Word
  tpc     : Word
  deriving DecidableEq, Repr

/-- Work of the device in the name of a virtual function, which waits for pages that are not there (R477, R541, R542): an entry of
its dirty ring, or the completion of the migration subcode that a block describes. -/
inductive DevWork where
  | dirty (entry : Word)
  | done (blk : Word)
  deriving DecidableEq, Repr

/-- The same with its virtual function. -/
structure DevOp where
  vf   : Nat
  what : DevWork
  deriving DecidableEq, Repr

/-- An active partition: the PCB fields latched at activation (Table 19.1) and what the scheduler keeps for it. -/
structure Partition where
  pcb     : Word
  /-- Entry f: physical field, FCB address, GTAB base of logical field f. -/
  fields  : List (Nat × Word × Word)
  tvec    : Word
  stripe  : Word
  arena   : Word
  vftab   : Word
  nvf     : Nat
  tiercb  : Word
  haltrec : Word
  /-- Base of the strand area (R28); the spec gives it no register and no field (log 12). -/
  strandArea : Word := 0
  /-- Route words of the five classes (R508, R509). -/
  routes  : List (BitVec 8) := [0x40, 0x40, 0x40, 0x40, 0x40]
  nextSeq : BitVec 32 := 0
  promo   : BitVec 32 := 0
  pstall  : Nat := 0
  tagfail : Nat := 0
  halt    : Option DebugHalt := none
  /-- Free extents of the save arena above its header: address and size, in the order in which they are taken. -/
  free    : List (Word × Nat) := []
  /-- Strands whose save is stalled, oldest first (R400). -/
  stalled : List Nat := []
  /-- Generation last allocated to each context (R393), and the current one (R394). -/
  alloc   : Tab (BitVec 32) := []
  gens    : Tab (BitVec 32) := []
  raises  : List Raise := []
  /-- Tokens that stand under the partition's Crucible allowance (R446). -/
  topped  : Nat := 0
  /-- Tensor tables: by context, by identifier (R297). -/
  tensors : Tab (Tab Entry) := []
  /-- Places of the tensor tables in the save arena, by context (R297), and of the heads of a field's overflow sub-lists and fault
  list, by field (R140, R397, R399). -/
  tables  : Tab Word := []
  lists   : Tab Word := []
  vfs     : Tab Vf := []
  /-- Work of the device for its virtual functions, in order (R541, R542). -/
  devs    : List DevOp := []
  /-- Accesses of acts whose promotion has met a tag failure: act, address, address of the chunk (R476, R480). -/
  lostActs : List (Instr × Word × Word) := []
  /-- Promotion-ring entries that wait for room (R479). -/
  proms   : List (List Word) := []
  /-- Virtual function from which a task was launched last (R494). -/
  served  : Nat := 1023
  /-- A DEACTIVATE waits for the partition's grids to end (R486). -/
  closing : Bool := false
  deriving DecidableEq, Repr

/-- A task that was launched and has not ended (R494). The header's dwords stand in the order of Table 19.13. -/
structure Task where
  part   : Nat
  vf     : Nat
  ctx    : Nat
  queue  : Nat
  qslot  : Nat
  seq    : BitVec 32
  /-- Address of the task header, which the strand records hold in TASK (Table 1.1). -/
  addr   : Word := 0
  header : Vector Word 8
  /-- next_index of R286. -/
  next   : BitVec 32
  relaunched : Bool := false
  /-- First fault received: the dwords of Table 6.6 from +0x00 to +0x30, and further faults counted (R185). -/
  fault  : Option (Vector Word 7) := none
  fcount : Nat := 0
  /-- The grid is stopped, and its end waits for its copy and scrubber commands (R184). -/
  stopping : Bool := false
  /-- The first fault is an uncorrectable page-table entry: no rollback follows (R389). -/
  walkLost : Bool := false
  /-- Undo log (R500): base, capacity in entries, lines logged, oldest first. -/
  logBase : Word := 0
  logCap  : Nat := 0
  logged  : List Word := []
  deriving DecidableEq, Repr

/-! ### Ports (chapter 21) -/

/-- A Giben session of a port (R530, R531). -/
structure Session where
  part : Nat
  /-- The virtual function; none for a supervisor session. -/
  vf   : Option Nat
  /-- Agreed version, features in effect. -/
  ver  : Nat
  feat : BitVec 4
  /-- SEQ expected next; packets held, ahead of a gap, or because the one that is next waits for a page or for UNBIND. -/
  next : BitVec 32 := 0
  held : List Packet := []
  /-- SEQ of the next packet to send; packets sent and not acknowledged; packets that wait for room among those. -/
  seq  : BitVec 32 := 0
  unacked : List Packet := []
  waiting : List Packet := []
  /-- Time at which the end-to-end timeout falls due, timeouts so far, and whether BUSY has come since the last one. -/
  due  : Option Nat := none
  timeouts : Nat := 0
  busy : Bool := false
  deriving DecidableEq, Repr

/-- The egress descriptor under way (R536): its place, its dwords, the session, whether every packet is sent,
the SEQ of its first one and that after its last, and RES once it is decided. -/
structure Egress where
  place : Word
  desc  : Vector Word 8
  session : Nat
  sent  : Bool := false
  first : BitVec 32 := 0
  last  : BitVec 32 := 0
  res   : Option Nat := none
  deriving DecidableEq, Repr

/-- A port binding (R528): partition, virtual function and context, the binding block as it was read, its place, the gateway
task that runs. -/
structure Binding where
  part : Nat
  vf   : Nat
  ctx  : Nat
  pbb  : Word
  etail : Word
  ering : Word
  enslot : Nat
  garr : Word
  ehead : Word := 0
  task : Option Nat := none
  deriving DecidableEq, Repr

/-- A port with its gateway block: the link, the binding, the sessions, whether a session closed for want of answers and none
has opened since (R537), the block-index queue (R538), the descriptor under way, and the packets sent, oldest first. -/
structure Port where
  down : Bool := false
  bind : Option Binding := none
  /-- Partition and virtual function of a binding that RELEASE has ended, until the next BIND (R545). -/
  last : Option (Nat × Nat) := none
  sessions : Tab Session := []
  lost : Bool := false
  blocks : List Word := []
  egress : Option Egress := none
  out  : List Packet := []
  deriving DecidableEq, Repr

/-! ### Module -/

/-- What the management port returns for a command, or reports by itself (Table 20.3, R522, R524). -/
inductive Reply where
  | done
  | refused
  | fuses (map : List Byte)
  | report (bytes certificate : List Byte)
  | links (l : List (Bool × Bool × Nat))
  | buckets (l : List (Nat × Bucket))
  | ready
  | warning
  deriving DecidableEq, Repr

/-- A command of the management port (Table 20.3). -/
inductive Command where
  | readfuse
  | loadfw (image : FwImage)
  | attest (nonce : List Byte)
  | setrth (sector value : Nat)
  | loadkey (slot : Nat) (key : BitVec 256)
  | activate (pcb : Word)
  | deactivate (part : Nat)
  | setpool (pool allow : Option (Nat × Nat))
  | links
  | halt (part : Option Nat)
  | resume (part : Option Nat)
  | readbkt
  deriving DecidableEq, Repr

/-- Bring-up (R522): the module is off until power-good, in recovery when a test of bring-up failed, else ready. -/
inductive Boot where
  | off | recovery | ready
  deriving DecidableEq, Repr

/-- A row of an HBM4E bank (R465 to R468): its 11-bit activation counter with its parity bit, alerts in this refresh window, hot, TIME of its last
activation. -/
structure Row where
  count  : BitVec 11 := 0
  parity : Bool := false
  alerts : Nat := 0
  hot    : Bool := false
  last   : Nat := 0
  deriving DecidableEq, Repr

/-- A sector's row threshold and its counts (R465, Table 18.4). -/
structure Sector where
  rth    : Nat := 1024
  parity : Nat := 0
  hot    : Nat := 0
  rfm    : BitVec 32 := 0
  deriving DecidableEq, Repr

/-- The metadata record of a second-tier chunk (Table 18.5), as bring-up writes it (R475). -/
structure Chunk where
  empty   : Bool := true
  version : BitVec 44 := 0
  tag     : BitVec 128 := 0
  deriving DecidableEq, Repr

/-- An agent with something to do: a slot that runs a strand, or an act of another agent or of the outside. -/
inductive Turn where
  | slot (k : Nat)
  | event (i : Instr)
  deriving DecidableEq, Repr

/-- A loan of tokens between tiles (R441), and one between fields through the Crucible (R446). -/
structure Loan where
  lender   : Nat
  borrower : Nat
  amount   : Nat
  deriving DecidableEq, Repr

/-- An error of the hardware, as the access that meets it finds it (R173, R256, R296, R380, R383, R403, R462, R465): a corrected one in a
core, in a home slice or in a scratchpad; the 16-bit symbols of one 128-byte block of DRAM that are wrong, or its side band; a flipped
bit of a row's activation counter, its parity bit being number 11; an uncorrectable word of an L1 line, an L1 tag, a live register, an 8-byte word of memory, a line of
a remote-data cache, a place of DRAM that cannot hold zero; an access of a strand, of an engine instruction or of a copy queue, or
the completion addition of a copy engine, that loses `n` requests or replies one after another. -/
inductive Upset where
  | corrected (core : Nat)
  | sliceCorrected (field : Nat)
  | padCorrected (tile : Nat)
  | symbols (l : List Nat)
  | sideBand (pa : Nat)
  | rowBit (row : RowId) (i : Nat)
  | l1Word (core : Nat) (va : Word)
  | l1Tag (core : Nat) (va : Word)
  | register (slot : Nat)
  | word (pa : Nat)
  | rdcLine (field : Nat) (va : Word)
  | dram (pa : Nat)
  | lost (slot n : Nat)
  | lostEngine (tile uid n : Nat)
  | lostCopy (tile core n : Nat) (write : Bool)
  | lostAdd (tile n : Nat)
  deriving DecidableEq, Repr

/-- The whole state of the machine. -/
structure State where
  /-- Memory by physical address: HBM4E and second tier by the address of Table 18.2, scratchpads above. -/
  mem     : List Host.Cell := []
  /-- Numbers of the 8-byte words that are uncorrectable (R380) and of the 4-byte words that bear a poison mark (R257). -/
  uncorr  : List Nat := []
  poison  : List Nat := []
  time    : Nat := 0
  boot    : Boot := .off
  /-- The 8 links of the second tier: trained, at 32 GT/s, bytes of the data region (R546). -/
  links   : List (Bool × Bool × Nat) := []
  /-- The fuse map, the fused secret and the certificate (R514, R518), the firmware image stored and the one in use (R519),
  the identity key of this boot (R518). -/
  fuses   : List Byte := wholeWafer
  secret  : List Byte := List.replicate 57 0
  certificate : List Byte := []
  image   : FwImage := firstImage
  running : FwImage := firstImage
  identity : List Byte := []
  /-- What the management port has sent, oldest first; the command that has not completed, and those that have arrived since
  (R523). -/
  replies : List Reply := []
  command : Option Command := none
  pending : List Command := []
  ports   : Tab Port := []
  /-- Metadata of second-tier chunks, by physical address divided by 4,096 (R475). -/
  chunks  : Tab Chunk := []
  sectors : Tab Sector := []
  rows    : List (RowId × Row) := []
  /-- Rows that await refresh management, oldest first (R467). -/
  alerts  : List RowId := []
  /-- HBM4E frames of 64 KiB that are retired (R505). -/
  badFrames : List Nat := []
  /-- Spare rows that repairs have used, by stack (R505). -/
  spares  : Tab Nat := []
  /-- Key slots 1 to 255 that LOADKEY has written since reset (R473, R523). -/
  keys    : Tab (BitVec 256) := []
  /-- Loans between tiles and between fields, newest first. -/
  loans   : List Loan := []
  fieldLoans : List Loan := []
  parts   : Tab Partition := []
  tasks   : Tab Task := []
  strands : Tab Strand := []
  slots   : Tab Slot := []
  cores   : Tab Core := []
  tiles   : Tab Tile := []
  fields  : Tab Field := []
  /-- The model's own fields: who moves, and in what order. -/
  agenda  : List Turn := [.event .timeTick]
  script  : List Nat := []
  timers  : List (Nat × Instr) := []
  /-- Errors still to strike, one at a tick of TIME: an input (log 45). -/
  upsets  : List Upset := []
  /-- Moves of records that the module scheduler or a debugger makes, record and tile, one at a tick of TIME: an input (R47, R160,
  R513; log 62). -/
  moves   : List (Nat × Nat) := []
  /-- Strands of co-scheduled groups and tasks that one act pre-empts and whose records are not yet on their ready queues: they go
  there together (R428). -/
  cosets  : List (List Nat) := []
  cur     : Nat := 0
  /-- The model's own counters: of free values, of strands. -/
  fresh   : Nat := 0
  nextUid : Nat := 1
  deriving DecidableEq, Repr

/-- Why the machine stops with a fault. -/
inductive Fault where
  /-- Raised by an access that the device makes for itself to a pinned structure whose address names no field of the
  partition (a field control block, the context table, the arena). The spec gives such an address no meaning. Safe: the
  model stops where the hardware has no stated behaviour. -/
  | noPinned (va : Word)
  deriving DecidableEq, Repr

/-- Why the machine refuses a step. -/
inductive Refusal where
  /-- An instruction that has no meaning in the model yet, by its mnemonic. Raised by `exec`. Safe. -/
  | notModelled (mnemonic : String)
  /-- An instruction word given to `exec` while no strand stands on the current slot: no word is carried out without a
  strand, and `step` never asks for it. Raised by every meaning of a word. Safe. -/
  | noStrand
  deriving DecidableEq, Repr

/-- The machine right after reset: nothing runs, nothing is listed, TIME is 0, and power-good has not come. Parts that are
not listed in a table have the reset values of their structure's fields. -/
def State.reset : State := {}

end Sys2Proof.Machine
end

