-- ==== Sys2Proof/Machine/Table.lean ====
section
/-! DEFINITION. Sys2Proof/Machine/Table.lean: reading and writing sparse data by number. A table is a list of pairs with
strictly rising numbers, so that equal tables are equal lists. -/

namespace Sys2Proof.Machine

/-- The entry of number `k`. -/
def tget {α : Type} : Tab α → Nat → Option α
  | [], _ => none
  | (i, a) :: t, k => if i = k then some a else tget t k

/-- The table with `a` at number `k`, in place. -/
def tput {α : Type} : Tab α → Nat → α → Tab α
  | [], k, a => [(k, a)]
  | (i, b) :: t, k, a =>
    if k < i then (k, a) :: (i, b) :: t else if k = i then (k, a) :: t else (i, b) :: tput t k a

/-- The table without number `k`. -/
def tdel {α : Type} : Tab α → Nat → Tab α
  | [], _ => []
  | (i, b) :: t, k => if i = k then t else (i, b) :: tdel t k

/-- The entry of number `k`, or `d` where none is listed. -/
def tgetD {α : Type} (t : Tab α) (k : Nat) (d : α) : α := (tget t k).getD d

/-- The table with the entry of number `k` changed by `f`; a number that is not listed stays so. -/
def tmod {α : Type} (t : Tab α) (k : Nat) (f : α → α) : Tab α :=
  match tget t k with
  | some a => tput t k (f a)
  | none => t

/-- The numbers rise strictly. -/
def tsorted {α : Type} : Tab α → Bool
  | [] => true
  | [_] => true
  | (i, _) :: (j, b) :: t => i < j && tsorted ((j, b) :: t)

/-- The first entry that satisfies `p`. -/
def tfind {α : Type} (t : Tab α) (p : Nat → α → Bool) : Option (Nat × α) := t.find? fun e => p e.1 e.2

/-- The list with its first element equal to `a` removed. -/
def ldel {α : Type} [DecidableEq α] (l : List α) (a : α) : List α := l.filter (· ≠ a)

/-- An element put into a list before the first one that it precedes strictly. -/
def insertBy {α : Type} (before : α → α → Bool) (a : α) : List α → List α
  | [] => [a]
  | b :: t => if before a b then a :: b :: t else b :: insertBy before a t

/-- The list in order; equal elements keep their order. -/
def sortBy {α : Type} (before : α → α → Bool) (l : List α) : List α := l.foldl (fun r a => insertBy before a r) []

/-- Numbers from 0 to n - 1, rising. -/
def upto (n : Nat) : List Nat := List.range n

end Sys2Proof.Machine
end

