-- ==== Sys2Proof/Machine/Memory.lean ====
section
/-! DEFINITION. Sys2Proof/Machine/Memory.lean: bytes by physical address. The cells have strictly rising addresses and no
zero byte; an address that is not listed reads 0 (log 3). -/

namespace Sys2Proof.Machine

abbrev Mem := List Host.Cell

/-- The canonical form: addresses strictly rising, no cell equal to what an unlisted address reads as. -/
def Mem.wf : Mem → Bool
  | [] => true
  | [c] => c.2 != 0
  | c :: d :: t => c.2 != 0 && c.1 < d.1 && Mem.wf (d :: t)

/-- The byte at an address. -/
def Mem.read : Mem → Nat → Byte
  | [], _ => 0
  | (i, b) :: t, a => if i = a then b else Mem.read t a

/-- The cells below an address. -/
def Mem.below : Mem → Nat → Mem
  | [], _ => []
  | (i, b) :: t, a => if i < a then (i, b) :: Mem.below t a else []

/-- The cells from an address on. -/
def Mem.from : Mem → Nat → Mem
  | [], _ => []
  | (i, b) :: t, a => if i < a then Mem.from t a else (i, b) :: t

/-- `n` bytes from address `a` in cells whose first is not below `a`. -/
def Mem.run : Mem → Nat → Nat → List Byte
  | _, _, 0 => []
  | [], a, n + 1 => 0 :: Mem.run [] (a + 1) n
  | (i, b) :: t, a, n + 1 => if i = a then b :: Mem.run t (a + 1) n else 0 :: Mem.run ((i, b) :: t) (a + 1) n

/-- The `n` bytes at `a`. -/
def Mem.bytes (m : Mem) (a n : Nat) : List Byte := Mem.run (m.from a) a n

/-- The cells of a run of bytes. -/
def Mem.cells : Nat → List Byte → Mem
  | _, [] => []
  | a, b :: t => if b = 0 then Mem.cells (a + 1) t else (a, b) :: Mem.cells (a + 1) t

/-- The memory with a run of bytes written. -/
def Mem.write (m : Mem) (a : Nat) (bs : List Byte) : Mem :=
  m.below a ++ Mem.cells a bs ++ m.from (a + bs.length)

/-- Numbers in [lo, hi) taken out of a list. -/
def dropRange (l : List Nat) (lo hi : Nat) : List Nat := l.filter fun x => x < lo || hi ≤ x

/-- A number put into a rising list. -/
def insertNat : List Nat → Nat → List Nat
  | [], a => [a]
  | x :: t, a => if a < x then a :: x :: t else if a = x then x :: t else x :: insertNat t a

/-- The bytes at a physical address. -/
def State.bytesAt (s : State) (pa n : Nat) : List Byte := Mem.bytes s.mem pa n

/-- The value of the `n` bytes at a physical address. -/
def State.valAt (s : State) (pa n : Nat) : Nat := natOf (s.bytesAt pa n)

/-- The dword at a physical address. -/
def State.dwAt (s : State) (pa : Nat) : Word := wordOfBytes (s.bytesAt pa 8)

/-- Some word of the range is uncorrectable or bears a poison mark (R257, R296, R380). -/
def State.lostAt (s : State) (pa n : Nat) : Bool :=
  s.uncorr.any (fun u => u * 8 < pa + n && pa < u * 8 + 8) || s.poison.any (fun u => u * 4 < pa + n && pa < u * 4 + 4)

/-- A write at a physical address. A write of a whole word clears its marks (R257, R380). -/
def State.putAt (s : State) (pa : Nat) (bs : List Byte) : State :=
  { s with
    mem := Mem.write s.mem pa bs
    uncorr := dropRange s.uncorr ((pa + 7) / 8) ((pa + bs.length) / 8)
    poison := dropRange s.poison ((pa + 3) / 4) ((pa + bs.length) / 4) }

/-- A dword written at a physical address. -/
def State.putDw (s : State) (pa : Nat) (w : Word) : State := s.putAt pa (bytesOf 8 w.toNat)

/-- A mark set on the 4-byte word at a physical address (R257). -/
def State.setPoison (s : State) (pa : Nat) : State := { s with poison := insertNat s.poison (pa / 4) }

/-- The key of a scratchpad byte: above every physical address of Table 18.2. -/
def padKey (tile byte : Nat) : Nat := 2 ^ 63 + (tile / 16) * 2 ^ 27 + (tile % 16) * 2 ^ 23 + byte

/-- The key is a scratchpad's. -/
def isPad (pa : Nat) : Bool := 2 ^ 63 ≤ pa

/-- Memory cells and marks of a range of addresses gone: they read as zero, and no word of the range is lost. -/
def State.zeroRange (s : State) (lo n : Nat) : State :=
  { s with
    mem := s.mem.filter fun c => c.1 < lo || lo + n ≤ c.1
    uncorr := dropRange s.uncorr (lo / 8) ((lo + n) / 8)
    poison := dropRange s.poison (lo / 4) ((lo + n) / 4) }

end Sys2Proof.Machine
end

