-- ==== Sys2Proof/Machine/Position.lean ====
section
/-! DEFINITION. Sys2Proof/Machine/Position.lean: places on the wafer: numbers of tiles, cores and slots, sectors, shares of
DRAM, logical and physical fields, COORD and PCOORD. -/

namespace Sys2Proof.Machine

/-- Physical field, tile, core and slot numbers of a slot's number, as PCOORD lays them out (Table 1.6). -/
def tileOfSlot (k : Nat) : Nat := k / 64
def coreOfSlot (k : Nat) : Nat := k / 4
def fieldOfTile (t : Nat) : Nat := t / 16
def fieldOfSlot (k : Nat) : Nat := k / 1024
def tileOfCore (c : Nat) : Nat := c / 16

/-- Kind of tile by its number in the field (Table 1.6). Tiles 12 to 14 stand for gateway blocks (R526). -/
inductive TileKind where
  | dense | sparse | attention | vectorHeavy | gateway | none
  deriving DecidableEq, Repr

def tileKind (t : Nat) : TileKind :=
  let n := t % 16
  if n < 5 then .dense else if n < 8 then .sparse else if n < 10 then .attention else if n < 12 then .vectorHeavy
  else if n < 15 then .gateway else .none

/-- A tile number is a gateway block's (R526). -/
def isGateway (t : Nat) : Bool := tileKind t = .gateway

/-- Ports of the module; the first host port (R525). -/
def portCount : Nat := 34
def hostPort : Nat := 32

/-- Physical field of a port (R525, Table 21.1). -/
def fieldOfPort (p : Nat) : Nat :=
  let pos := 7 * (p % 8) / 8
  match p / 8 with
  | 0 => pos
  | 1 => 7 * pos + 6
  | 2 => 48 - pos
  | 3 => 42 - 7 * pos
  | _ => if p = 32 then 3 else 45

/-- The gateway block of a port (R526). -/
def tileOfPort (p : Nat) : Nat :=
  fieldOfPort p * 16 + 12 + ((upto p).filter fun q => fieldOfPort q = fieldOfPort p).length

/-- The port of a gateway block. -/
def portOfTile (t : Nat) : Option Nat := (upto portCount).find? fun p => tileOfPort p = t

/-- The tile number names a tile or a gateway block. -/
def tileExists (t : Nat) : Bool := t % 16 < 12 || (portOfTile t).isSome

/-- The core exists: 16 in a tile, 4 in a gateway block (R527). -/
def coreExists (c : Nat) : Bool := !isGateway (c / 16) || c % 16 < 4

/-- Strand slots of a core: 4, and 1 in a gateway core (R214, R527). -/
def slotsOfCore (c : Nat) : Nat := if isGateway (c / 16) then 1 else 4

/-- The sector of a physical field (Table 18.1). -/
def sectorOf (f : Nat) : Nat :=
  if [0, 1, 2, 7, 8, 9].contains f then 0
  else if [3, 4, 5, 10, 11, 12].contains f then 1
  else if [6, 13, 19, 20, 26, 27].contains f then 2
  else if [33, 34, 40, 41, 47, 48].contains f then 3
  else if [37, 38, 39, 44, 45, 46].contains f then 4
  else if [28, 29, 35, 36, 42, 43].contains f then 5
  else if [14, 15, 16, 21, 22, 23].contains f then 6
  else 7

/-- The physical fields of a sector, ascending (Table 18.1). -/
def fieldsOf (sec : Nat) : List Nat := (upto 49).filter fun f => sectorOf f = sec

/-- Bytes of DRAM in a field's share (R460). -/
def shareOf (f : Nat) : Nat := if sectorOf f = 7 then 45713719296 else 53332672512

/-- Index of a field within its sector (R460). -/
def indexInSector (f : Nat) : Nat := ((fieldsOf (sectorOf f)).takeWhile (· < f)).length

/-- Stack of a sector and address within the stack of an HBM4E offset (R461). -/
def stackOf (f o : Nat) : Nat × Nat :=
  let sa := indexInSector f * shareOf f + o
  ((sa / 512) % 5, (sa / 2560) * 512 + sa % 512)

/-- Manhattan distance of two physical fields on the 7 x 7 grid (R145). -/
def hops (a b : Nat) : Nat :=
  (if a / 7 < b / 7 then b / 7 - a / 7 else a / 7 - b / 7) + (if a % 7 < b % 7 then b % 7 - a % 7 else a % 7 - b % 7)

/-- Home slice of a physical address (R379). -/
def sliceOf (pa : Nat) : Nat := ((pa / 2 ^ 7) % 16) ^^^ ((pa / 2 ^ 11) % 16)

/-- Physical field that owns an HBM4E address (Table 18.2). -/
def fieldOfPa (pa : Nat) : Nat := (pa / 2 ^ 56) % 64

/-- The physical address is the second tier's (KIND 0b01). -/
def isTier (pa : Nat) : Bool := pa / 2 ^ 62 = 1

def State.core (s : State) (c : Nat) : Core := tgetD s.cores c {}
def State.tile (s : State) (t : Nat) : Tile := tgetD s.tiles t {}
def State.field (s : State) (f : Nat) : Field := tgetD s.fields f {}
def State.setCore (s : State) (c : Nat) (x : Core) : State := { s with cores := tput s.cores c x }
def State.setTile (s : State) (t : Nat) (x : Tile) : State := { s with tiles := tput s.tiles t x }
def State.setField (s : State) (f : Nat) (x : Field) : State := { s with fields := tput s.fields f x }
def State.setStrand (s : State) (u : Nat) (x : Strand) : State := { s with strands := tput s.strands u x }
def State.setSlot (s : State) (k : Nat) (x : Slot) : State := { s with slots := tput s.slots k x }
def State.setPart (s : State) (n : Nat) (x : Partition) : State := { s with parts := tput s.parts n x }
def State.setTask (s : State) (n : Nat) (x : Task) : State := { s with tasks := tput s.tasks n x }

def State.port (s : State) (n : Nat) : Port := tgetD s.ports n {}
def State.setPort (s : State) (n : Nat) (x : Port) : State := { s with ports := tput s.ports n x }
def State.modPort (s : State) (n : Nat) (f : Port → Port) : State := s.setPort n (f (s.port n))

def State.modCore (s : State) (c : Nat) (f : Core → Core) : State := s.setCore c (f (s.core c))
def State.modTile (s : State) (t : Nat) (f : Tile → Tile) : State := s.setTile t (f (s.tile t))
def State.modField (s : State) (n : Nat) (f : Field → Field) : State := s.setField n (f (s.field n))
def State.modStrand (s : State) (u : Nat) (f : Strand → Strand) : State := { s with strands := tmod s.strands u f }
def State.modSlot (s : State) (k : Nat) (f : Slot → Slot) : State := { s with slots := tmod s.slots k f }
def State.modPart (s : State) (n : Nat) (f : Partition → Partition) : State := { s with parts := tmod s.parts n f }
def State.modTask (s : State) (n : Nat) (f : Task → Task) : State := { s with tasks := tmod s.tasks n f }

/-- A turn at the tail of the agenda. -/
def State.post (s : State) (t : Turn) : State := { s with agenda := s.agenda ++ [t] }

/-- An event at the tail of the agenda, unless it is there already. -/
def State.postOnce (s : State) (i : Instr) : State :=
  if s.agenda.contains (.event i) then s else s.post (.event i)

/-- The turn of a slot at the tail of the agenda, unless it is there already. -/
def State.postSlot (s : State) (k : Nat) : State :=
  if s.agenda.contains (.slot k) then s else s.post (.slot k)

/-- An event that falls due at a time. -/
def State.postAt (s : State) (due : Nat) (i : Instr) : State := { s with timers := s.timers ++ [(due, i)] }

/-- Physical field of logical field `f` of a partition (R487). -/
def Partition.phys (p : Partition) (f : Nat) : Option Nat := (p.fields[f]?).map (·.1)

/-- Logical field of physical field `f` of a partition. -/
def Partition.logical (p : Partition) (f : Nat) : Option Nat := p.fields.findIdx? fun e => e.1 = f

/-- Tokens of a floor (R433). -/
def floorTokens : Nat := 8

/-- The tile may run strands: it holds its floor, or it is a gateway block, which no token governs (R433, R527). -/
def State.awake (s : State) (t : Nat) : Bool := isGateway t || (s.tile t).lit

/-- The partition that holds a physical field, with its number. -/
def State.partOfField (s : State) (f : Nat) : Option (Nat × Partition) :=
  tfind s.parts fun _ p => (p.logical f).isSome

/-- Rank of a physical core among the good cores of its tile: the logical core (R487). -/
def State.coreRank (s : State) (c : Nat) : Nat :=
  ((upto (c % 16)).filter fun i => (s.core (c / 16 * 16 + i)).good).length

/-- PCOORD of a slot (Table 1.6). -/
def pcoordOf (k : Nat) : Word := BitVec.ofNat 64 (sectorOf (fieldOfSlot k) * 2 ^ 16 + k)

/-- COORD of a slot for a strand of partition `p` (R47, R487): FIELD is logical, CORE the rank of the core. -/
def State.coordOf (s : State) (p : Partition) (k : Nat) : Word :=
  BitVec.ofNat 64 (sectorOf (fieldOfSlot k) * 2 ^ 16 + (p.logical (fieldOfSlot k)).getD 0 * 1024 + k / 64 % 16 * 64 +
    s.coreRank (k / 4) * 4 + k % 4)

/-- Physical address of a pinned structure by the direct rule (log 13): the home field that FCODE names, and OFFSET as the
offset in that field's share. -/
def pinPa (p : Partition) (va : Word) : Option Nat :=
  (p.phys (bits va 62 56)).map fun f => f * 2 ^ 56 + bits va 55 0

end Sys2Proof.Machine
end

