-- ==== Sys2Proof/Machine/Clock.lean ====
section
/-! DEFINITION. Sys2Proof/Machine/Clock.lean: the clock of a core (R6, R7, R260): cycles and the time at which they end. -/

namespace Sys2Proof.Machine

/-- Nominal core periods since module reset: 2.4 for each nanosecond. -/
def State.periods (s : State) : Nat := s.time * 12 / 5

/-- CYCLE of a core: the cycles from `baseCycle` to `stretchEnd` take two nominal periods. -/
def State.cycleOf (s : State) (c : Nat) : Nat :=
  let x := s.core c
  let st := x.stretchEnd + 1 - x.baseCycle
  let d := s.periods - x.basePeriod
  if s.periods < x.basePeriod then x.baseCycle - (x.basePeriod - s.periods)
  else if d < 2 * st then x.baseCycle + d / 2
  else x.baseCycle + st + (d - 2 * st)

/-- Nominal periods that pass before cycle `n` of a core begins, as far as its windows are known. -/
def Core.periodOf (x : Core) (n : Nat) : Nat :=
  x.basePeriod + (n - x.baseCycle) + min (n - x.baseCycle) (x.stretchEnd + 1 - x.baseCycle)

/-- TIME at which a core's cycle `n` has ended. -/
def State.cycleEnds (s : State) (core n : Nat) : Nat := ((s.core core).periodOf (n + 1) * 5 + 11) / 12

/-- The cycle that a core reaches within the present nanosecond and does not begin in it. -/
def State.cycleLimit (s : State) (core : Nat) : Nat := ({ s with time := s.time + 1 } : State).cycleOf core

/-- Slots of a core in the order of service after the slot served last (R214). -/
def rotation (last : Nat) : List Nat := (upto 4).map fun i => (last + 1 + i) % 4

end Sys2Proof.Machine
end

