-- ==== Sys2Proof/Machine/Stop.lean ====
section
/-! DEFINITION. Sys2Proof/Machine/Stop.lean: the ways in which an instruction does not complete: a fault of Table 6.3, a
suspension of Table 6.7, a wait on the slot. -/

namespace Sys2Proof.Machine

def FaultCode.num : FaultCode → Nat
  | .illop => 1 | .operand => 2 | .lookahead => 3 | .align => 4 | .access => 5 | .priv => 6 | .badaddr => 7 | .engine => 8
  | .tensor => 9 | .spmeta => 10 | .tree => 11 | .kvstale => 12 | .handle => 13 | .overarrive => 14 | .savelost => 15
  | .uncorr => 16 | .rollback => 17 | .island => 18 | .level => 19 | .timeout => 20

def Acc.num : Acc → Nat
  | .read => 0 | .write => 1 | .rmw => 2 | .fetch => 3

/-- Why an operation stops. `walkLost` is an uncorrectable page-table entry, which ends the grid without rollback (R389).
`fault` and the two suspensions of Table 4.3 leave the state as it was before the instruction;
`wait` leaves the strand on its slot, to issue the word again; `become` gives the state that the operation leaves when the
word does not complete but something has happened (a wait registered, a queue taken). -/
inductive Stop where
  | fault (c : FaultCode) (tval : Word)
  | walkLost (tval : Word)
  | page (va : Word) (field : Nat) (acc : Acc) (malformed : Bool)
  | tier (va : Word) (field : Nat) (acc : Acc) (entry : Word) (big : Bool) (slot : Nat)
  | wait
  | become (s : State)
  deriving DecidableEq, Repr

abbrev Res (α : Type) := Except Stop α

/-- A fault of the instruction. -/
def failWith {α : Type} (c : FaultCode) (t : Word) : Res α := .error (.fault c t)

/-- Fault `c` when the condition holds. -/
def faultIf (b : Bool) (c : FaultCode) (t : Word) : Res Unit := if b then .error (.fault c t) else .ok ()

end Sys2Proof.Machine
end

