-- ==== Sys2Proof/Machine/Wake.lean ====
section
/-! DEFINITION. Sys2Proof/Machine/Wake.lean: the strand record in memory (Tables 1.1 and 1.3), ready queues (R269), making a
strand ready, and what a write at a home slice wakes (R139). -/

namespace Sys2Proof.Machine

def LCls.num : LCls → Nat
  | .empty => 0 | .scalar => 1 | .vector => 2 | .pred => 3 | .handle => 4

def LCls.ofNum (n : Nat) : LCls :=
  match n with
  | 1 => .scalar | 2 => .vector | 3 => .pred | 4 => .handle | _ => .empty

def FMode.num : FMode → Nat
  | .attached => 0 | .detached => 1 | .unbound => 2

def FMode.ofNum (n : Nat) : FMode :=
  match n with
  | 0 => .attached | 1 => .detached | _ => .unbound

def WaitKind.num : WaitKind → Nat
  | .none => 0 | .pageFault => 1 | .tierMiss => 2 | .token => 3 | .preempted => 4 | .cwaitMon => 5 | .cwaitOvf => 6
  | .group => 7 | .yield => 8 | .message => 9

def WaitKind.ofNum (n : Nat) : WaitKind :=
  match n with
  | 1 => .pageFault | 2 => .tierMiss | 3 => .token | 4 => .preempted | 5 => .cwaitMon | 6 => .cwaitOvf | 7 => .group
  | 8 => .yield | 9 => .message | _ => .none

/-- STAT of a strand (Table 1.3). -/
def packStat (t : Strand) : Word :=
  BitVec.ofNat 64 (t.lcore % 16 * 2 ^ 36 + LCls.num t.latch.cls * 2 ^ 33 + t.fres % 8 * 2 ^ 30 + t.cwp % 8 * 2 ^ 27 +
    t.waitK.num * 2 ^ 17 + t.prio % 8 * 2 ^ 14 + t.cls % 8 * 2 ^ 11 + t.stream % 4 * 2 ^ 9 + t.fmode.num * 2 ^ 7 +
    (if t.ap then 64 else 0) + t.widx % 64)

/-- What a pick-up refuses in STAT (R29). -/
def statBad (w : Word) : Bool :=
  bits w 63 40 != 0 || bits w 26 21 != 0 || bits w 8 7 == 3 || 10 ≤ bits w 20 17 || 5 ≤ bits w 35 33 || bits w 32 30 == 7

/-- The fields of a strand as STAT gives them. A FMODE of 0b00 makes the strand attached without a stream: it issues by itself, and
its JOIN gives OK. R271 says that no record of the device holds that value, and not what a core does with one that software has
written: DESIGN CHOICE (log 67). -/
def unpackStat (t : Strand) (w : Word) : Strand :=
  { t with
    lcore := bits w 39 36
    latch := { t.latch with cls := LCls.ofNum (bits w 35 33) }
    fres := bits w 32 30
    cwp := bits w 29 27
    waitK := WaitKind.ofNum (bits w 20 17)
    prio := bits w 16 14
    cls := bits w 13 11
    stream := bits w 10 9
    fmode := FMode.ofNum (bits w 8 7)
    ap := bit w 6
    widx := bits w 5 0 }

/-! ### The record in memory (R26, R28) -/

/-- Bytes of a strand record (R26), of an overflow record (R288). -/
def recordBytes : Nat := 64

/-- Address of a record at rest: its place on an overflow queue (R288), else its place in the strand area; none while it lies
in a pending-pool buffer before its first put-down (R28). -/
def Strand.recordVa (t : Strand) : Option Word := if t.ovf = 0 then t.area else some t.ovf

/-- Physical place of a record at rest. -/
def State.recordPa (s : State) (t : Strand) : Option Nat :=
  match tget s.parts t.part, t.recordVa with
  | some p, some a => pinPa p a
  | _, _ => none

/-- The first place of a partition's strand area that no record has (log 12). -/
def State.newRecord (s : State) (part : Nat) : Option Word :=
  (tget s.parts part).bind fun p =>
    let used := (s.strands.filter fun e => e.2.part = part).filterMap (·.2.area)
    let at_ := fun (n : Nat) => p.strandArea + BitVec.ofNat 64 (recordBytes * n)
    ((upto (used.length + 1)).find? fun n => !used.contains (at_ n)).map at_

/-- The dwords of a record from HDR to WAITV (Table 1.1); TASK is the address of the task header. -/
def Strand.image (t : Strand) (taskAddr : Word) : List Word := [t.hdr, t.stat, t.rsp, t.save, taskAddr, t.waita, t.waitv]

/-- Dwords written one after another. -/
def State.putDws (s : State) (pa : Nat) : List Word → State
  | [] => s
  | w :: l => (s.putDw pa w).putDws (pa + 8) l

/-- A record written whole, LINK excepted (R28). -/
def State.writeRecord (s : State) (u : Nat) : State :=
  match tget s.strands u with
  | none => s
  | some t =>
    match s.recordPa t with
    | none => s
    | some pa => s.putDws pa (t.image (((tget s.tasks t.task).map (·.addr)).getD 0))

/-- STAT with WAIT as the device has it for the strand; its other bits, and a WAIT that means the same, stay (R28). -/
def Strand.restatOf (t : Strand) (w : Word) : Word :=
  if WaitKind.ofNum (bits w 20 17) = t.waitK then w else putBits w 20 17 t.waitK.num

/-- WAIT, WAITA and WAITV of a record at rest brought up to date (R28). -/
def State.restat (s : State) (u : Nat) : State :=
  match tget s.strands u with
  | none => s
  | some t =>
    match s.recordPa t with
    | none => s.setStrand u { t with stat := t.restatOf t.stat }
    | some pa =>
      let w := t.restatOf (s.dwAt (pa + 8))
      (((s.setStrand u { t with stat := w }).putDw (pa + 8) w).putDw (pa + 0x28) t.waita).putDw (pa + 0x30) t.waitv

/-- STAT of a record at rest, as memory holds it where the record has its place there (R28). -/
def State.statOf (s : State) (t : Strand) : Word :=
  match s.recordPa t with
  | some pa => s.dwAt (pa + 8)
  | none => t.stat

/-- The strand with the effective PRIO that its record names (R269): one that a supervisor has written there is its own from then
on (R28). -/
def Strand.withPrio (t : Strand) (w : Word) : Strand :=
  if bits w 16 14 = t.prio then t else { t with prio := bits w 16 14, base := none }

/-- PRIO of a record at rest raised from `n0` to that of its strand (R427, R497); one that a supervisor has written stays (R28). -/
def State.reprio (s : State) (u n0 : Nat) : State :=
  match tget s.strands u with
  | none => s
  | some t =>
    let w := s.statOf t
    if bits w 16 14 != n0 then s
    else
      let w1 := putBits w 16 14 t.prio
      match s.recordPa t with
      | none => s.setStrand u { t with stat := w1 }
      | some pa => (s.setStrand u { t with stat := w1 }).putDw (pa + 8) w1

/-- LINK of the records of a list: each names the next one that lies in memory, the last one 0 (Table 1.1). -/
def State.relink (s : State) : List Nat → State
  | [] => s
  | u :: l =>
    let next := (l.filterMap fun v => (tget s.strands v).bind Strand.recordVa).head?.getD 0
    let s1 := match (tget s.strands u).bind s.recordPa with
      | some pa => s.putDw (pa + 0x38) next
      | none => s
    s1.relink l

/-- The strands among waiters. -/
def strandsOf (l : List Waiter) : List Nat :=
  l.filterMap fun w => match w with
    | .strand v => some v
    | _ => none

/-- LINK of the records of the brokers' waiting lists on which a strand stands (R440). -/
def State.relinkWaits (s : State) (u : Nat) : State :=
  ((s.fields.map fun e => e.2.waiters.map (·.uid)).filter (·.contains u)).foldl State.relink s

/-- A record as a pick-up reads it (R28, R270): memory's dwords where it has a place there. A TASK that names another task of
the partition names the strand's task from then on. -/
def State.readRecord (s : State) (t : Strand) : Strand :=
  match s.recordPa t with
  | none => t
  | some pa =>
    let a := s.dwAt (pa + 0x20)
    { t with
      hdr := s.dwAt pa, stat := s.dwAt (pa + 8), rsp := s.dwAt (pa + 0x10), save := s.dwAt (pa + 0x18)
      task := ((tfind s.tasks fun _ x => x.part = t.part && x.addr = a && a != 0).map (·.1)).getD t.task
      waita := s.dwAt (pa + 0x28), waitv := s.dwAt (pa + 0x30) }

/-! ### Ready queues -/

/-- The list of ready queues with a change to queue `p`. -/
def modQueue (q : List (List Nat)) (p : Nat) (f : List Nat → List Nat) : List (List Nat) :=
  q.mapIdx fun i l => if i = p then f l else l

/-- Times of waiting after which a record ages, may pre-empt a lower strand, and may pre-empt an equal one (R497, R498). -/
def agingStep : Nat := 100000
def prioDelay : Nat := 10000
def sliceTime : Nat := 1000000

/-- A record at the tail of the ready queue for its STAT.PRIO (R269); a pick-up of the tile is due, and what its waiting brings (R497, R498). -/
def State.toReady (s : State) (u tile : Nat) : State :=
  match tget s.strands u with
  | none => s
  | some t =>
    let t := t.withPrio (s.statOf t)
    let s0 := ((s.postAt (s.time + agingStep) (.aging u)).postAt (s.time + prioDelay) (.priorityPreemption tile)).postAt
      (s.time + sliceTime) (.timeSlicePreemption tile)
    let s1 := (s0.setStrand u { t with place := .ready tile, since := s.time, aged := 0 }).restat u
    let s2 := s1.modTile tile fun x => { x with ready := modQueue x.ready t.prio fun l => l ++ [u] }
    (s2.relink (((s2.tile tile).ready[t.prio]?).getD [])).postOnce (if s.awake tile then .pickUp tile else .floorRequest tile)

/-- A record taken off the ready queues of its tile. -/
def State.offReady (s : State) (u tile : Nat) : State :=
  let s1 := s.modTile tile fun x => { x with ready := x.ready.map fun l => ldel l u }
  ((s.tile tile).ready.filter (·.contains u)).foldl (fun y l => y.relink (ldel l u)) s1

/-- A strand that one act pre-empts with others has yet to leave its slot (R428). One whose save or spill is held up is not
waited for (R37, R400). -/
def State.leavingSlot (s : State) (u : Nat) : Bool :=
  s.slots.any fun e => e.2.uid = u && (e.2.preempt || (e.2.hold = some .save && match tget s.strands u with
    | some t => t.waitK = .preempted && !(match tget s.parts t.part with
      | some p => p.stalled.contains u
      | none => false)
    | none => false))

/-- The records of strands put onto their ready queues, where they wait for nothing but a core. -/
def State.queueRecords (s : State) : List Nat → State
  | [] => s
  | u :: l =>
    (match tget s.strands u with
    | some t => if t.place = Place.waiting && t.waitK = WaitKind.preempted then s.toReady u t.home else s
    | none => s).queueRecords l

/-- The records of strands that one act pre-empts go onto their ready queues together, once each has left its slot (R428). -/
def State.queueTogether (s : State) : State :=
  if s.cosets.isEmpty then s
  else
    ({ s with cosets := s.cosets.filter fun l => l.any s.leavingSlot } : State).queueRecords
      (s.cosets.filter fun l => !l.any s.leavingSlot).flatten

/-- The put-down of the strand on a slot is under way, and neither its save nor its spill is held up. -/
def State.puttingDown (s : State) (k : Nat) (t : Strand) : Bool :=
  match tget s.slots k, tget s.parts t.part with
  | some sl, some p => sl.hold = some .save && !p.stalled.contains sl.uid
  | _, _ => false

/-- A waiting strand is made ready: its record goes onto its home tile's ready queue with wait kind 0 (R139, R398). A strand
still halted on its slot for want of a frame or of its spill resumes there (R37, R400); one whose put-down is under way goes onto
the queue when its record has been written. -/
def State.makeReady (s : State) (u : Nat) : State :=
  match tget s.strands u with
  | none => s
  | some t =>
    let t' := { t with waitK := .none, waita := 0, waitv := 0 }
    match t.place with
    | .slot k =>
      if s.puttingDown k t then s.setStrand u t'
      else
      ((((s.setStrand u t').modPart t.part fun p => { p with stalled := ldel p.stalled u }).modSlot k fun x =>
        { x with hold := if x.hold = some .fault then x.hold else if x.hold = some .save || x.hold = some .spill then some .resume else none
                 preempt := false }).postSlot k).queueTogether
    | .waiting => (s.setStrand u t').toReady u t.home
    | _ => s

/-- The spill of a put-down may be tried again (R37). -/
def State.retrySpill (s : State) (u : Nat) : State :=
  match tget s.strands u with
  | none => s
  | some t =>
    match t.place with
    | .slot k =>
      match tget s.slots k with
      | some sl =>
        if sl.hold = some .spill then (s.setSlot k { sl with hold := some .save }).postOnce (.putDown k) else s
      | none => s
    | _ => s

/-- A waiter that is no command: it is made ready (R37, R398). -/
def State.wakeStrand (s : State) : Waiter → State
  | .strand u => s.makeReady u
  | .spill u => s.retrySpill u
  | _ => s

/-- Monitor entries of a slice whose dword changed from its value in `s0` and now meets the threshold (R139). -/
def metMonitors (s0 s1 : State) (l : List Monitor) (pa n : Nat) : List Monitor :=
  l.filter fun m => pa < m.pa + 8 && m.pa < pa + n && s0.dwAt m.pa != s1.dwAt m.pa && m.thr.toNat ≤ (s1.dwAt m.pa).toNat

/-- Strands woken because their counters meet their thresholds. -/
def State.wakeAll (s : State) : List Monitor → State
  | [] => s
  | m :: t => ((s.modStrand m.uid fun x => { x with met := some m.pa }).makeReady m.uid).wakeAll t

/-- The dword of a pinned structure at `va` + `o`, by the direct rule (log 13); 0 where the address names no field. -/
def State.pinDw (s : State) (p : Partition) (va : Word) (o : Nat) : Word :=
  match pinPa p va with
  | some a => s.dwAt (a + o)
  | none => 0

/-- Address of the FCB of physical field `f` (R378, Table 19.1). -/
def Partition.fcb (p : Partition) (f : Nat) : Word := ((p.fields.find? fun (e : Nat × Word × Word) => e.1 = f).map fun (e : Nat × Word × Word) => e.2.1).getD 0

/-- GTAB of physical field `f`: bits [63:18] of the base, the reserved bits below them 0 (Table 16.1). -/
def Partition.gtab (p : Partition) (f : Nat) : Word :=
  BitVec.ofNat 64 ((((p.fields.find? fun (e : Nat × Word × Word) => e.1 = f).map fun (e : Nat × Word × Word) => e.2.2).getD 0).toNat / 2 ^ 18 * 2 ^ 18)

/-- A dword of the context-table entry of context `ctx` in field `f` (Table 15.4). -/
def State.ctxDw (s : State) (p : Partition) (f ctx o : Nat) : Word :=
  s.pinDw p (s.pinDw p (p.fcb f) 0) (64 * ctx + o)

/-- Context `ctx` is VALID in field `f` (R388), and no reserved bit of its entry or of the FCB is set (R17, R378). -/
def State.ctxValid (s : State) (p : Partition) (f ctx : Nat) : Bool :=
  s.pinDw p (p.fcb f) 0x38 = 0 &&
  s.ctxDw p f ctx 0x28 = 1 && bits (s.ctxDw p f ctx 0x20) 63 32 = 0 && bits (s.ctxDw p f ctx 0x30) 63 16 = 0 && s.ctxDw p f ctx 0x38 = 0

/-- The tree emptied, TSER one higher. -/
def Tree.emptied (t : Tree) : Tree := { valid := false, tser := t.tser + 1 }

/-- The owner of a VALID tree in field `f` has been destroyed: its VALID bit in the context table of that field, which was set in
`s0`, is clear (R345, log 58). -/
def State.ownerGone (s0 s1 : State) (f : Nat) (t : Tree) : Bool :=
  t.valid && match tget s1.parts t.part with
    | some p => bit (s0.ctxDw p f t.owner 0x28) 0 && !bit (s1.ctxDw p f t.owner 0x28) 0
    | none => false

/-- A write has destroyed context `ctx` of partition `p`: its VALID bit is clear in every field of the partition, and was not
(log 58). -/
def State.contextGone (s0 s1 : State) (p : Partition) (ctx : Nat) : Bool :=
  (p.fields.any fun e => bit (s0.ctxDw p e.1 ctx 0x28) 0) && p.fields.all fun e => !bit (s1.ctxDw p e.1 ctx 0x28) 0

/-- The tensor tables of contexts that a write has destroyed are empty again, with SERIAL = 0: their places in the arena are filled
anew when an entry is next changed (R297). -/
def State.dropTables (s0 s1 : State) : State :=
  { s1 with parts := s1.parts.map fun (n, p) =>
      (n, { p with tensors := p.tensors.filter fun e => !s0.contextGone s1 p e.1 }) }

/-- The trees whose owners a write has destroyed are emptied (R345), and the tensor tables with them (R297). -/
def State.orphanTrees (s0 s1 : State) : State :=
  let s2 : State := { s1 with tiles := s1.tiles.map fun (n, x) =>
      (n, { x with trees := x.trees.map fun (i, t) => (i, if s0.ownerGone s1 (fieldOfTile n) t then t.emptied else t) }) }
  if s2.parts.any fun e => !e.2.tensors.isEmpty then s0.dropTables s2 else s2

/-- A write performed at a home slice or at a scratchpad controller: bytes and marks, then the monitor entries of the slice
whose dword changes (R139). -/
def State.slicePut (s : State) (pa : Nat) (bs : List Byte) : State :=
  if isPad pa then s.putAt pa bs
  else
    let s1 := s.orphanTrees (s.putAt pa bs)
    let f := fieldOfPa pa
    let sl := sliceOf pa
    let ms := ((s.field f).monitors[sl]?).getD []
    let met := metMonitors s s1 ms pa bs.length
    if met.isEmpty then s1
    else
      (s1.modField f fun x =>
        { x with monitors := x.monitors.mapIdx fun i l => if i = sl then l.filter fun m => !met.contains m else l }).wakeAll
        met

/-- A dword written at a home slice. -/
def State.sliceDw (s : State) (pa : Nat) (w : Word) : State := s.slicePut pa (bytesOf 8 w.toNat)

end Sys2Proof.Machine
end

