-- ==== Sys2Proof/Machine/Translate.lean ====
section
/-! DEFINITION. Sys2Proof/Machine/Translate.lean: from a virtual address to a place: the checks before translation (R117 to
R119), the walk (R388, R389), its outcome (R390, R459), the translation cache (R391), the A and D bits and the dirty ring
(R390, R542). -/

namespace Sys2Proof.Machine

/-- A dword of a pinned structure written at its home slice. -/
def State.setPinDw (s : State) (p : Partition) (va : Word) (o : Nat) (w : Word) : State :=
  match pinPa p va with
  | some a => s.sliceDw (a + o) w
  | none => s

/-- An addition to a pinned counter. -/
def State.addPinDw (s : State) (p : Partition) (va : Word) (o : Nat) (d : Word) : State :=
  s.setPinDw p va o (s.pinDw p va o + d)

/-- Where an address lies after the checks before translation: a scratchpad byte, or a page of a home field. -/
inductive Target where
  | pad (key : Nat)
  | page (field : Nat)
  deriving DecidableEq, Repr

/-- The address lies in the scratchpad window (R119). -/
def inWindow (va : Word) : Bool := bits va 62 56 == 0x7E

/-- The address is striped (R118). -/
def isStriped (va : Word) : Bool := bits va 62 56 == 0x7F

/-- The home field of an address, physical (home(va) of Table 0.8 through the coordinate map), when it has one. -/
def State.homeOf (s : State) (p : Partition) (va : Word) : Option Nat :=
  let fc := bits va 62 56
  if fc = 0x7F then
    if bits va 55 41 != 0 then none
    else
      match pinPa p p.stripe with
      | none => none
      | some a =>
        let e := s.valAt (a + bits va 40 21) 1
        if e / 64 = 2 then p.phys (e % 64) else none
  else if fc = 0x7E then p.phys (bits va 32 27)
  else if fc ≤ 48 then p.phys fc else none

/-- The checks of R117, R118 and R119, in their order. -/
def State.resolve (s : State) (p : Partition) (user : Bool) (va : Word) : Res Target :=
  let fc := bits va 62 56
  if fc ≠ 0x7E ∧ fc ≠ 0x7F ∧ (48 < fc ∨ (p.phys fc).isNone) then failWith .badaddr va
  else if user && bit va 63 then failWith .access va
  else if fc = 0x7E then
    if bit va 63 || bits va 55 33 != 0 then failWith .badaddr va
    else
      match p.phys (bits va 32 27) with
      | none => failWith .badaddr va
      | some f =>
        let t := f * 16 + bits va 26 23
        if 12 ≤ bits va 26 23 || !(s.tile t).good then failWith .badaddr va
        else .ok (.pad (padKey t (bits va 22 0)))
  else
    match s.homeOf p va with
    | none => failWith .badaddr va
    | some f => .ok (.page f)

/-- The outcome of a walk (R389). -/
inductive Walk where
  | notPresent
  | malformed
  | lost (pa : Nat)
  | leaf (entry : Word) (big : Bool) (slot : Nat)
  deriving DecidableEq, Repr

/-- The indices of a walk by level (R389). -/
def walkIdx (va : Word) : List Nat := [bits va 55 47, bits va 46 38, bits va 37 29, bits va 28 21, bits va 20 16]

/-- The walk from table `t` at level `lv`. -/
def State.walkFrom (s : State) (t lv : Nat) : List Nat → Walk
  | [] => .malformed
  | i :: rest =>
    if t = 0 then .notPresent
    else
      let a := t + 8 * i
      if s.lostAt a 8 then .lost a
      else
        let e := s.dwAt a
        match bits e 1 0 with
        | 0 => .notPresent
        | 1 => if lv = 4 || bits e 7 2 != 0 then .malformed else s.walkFrom (bits e 63 8 * 2 ^ 8) (lv + 1) rest
        | 2 =>
          if lv < 3 || bits e 15 12 != 0 || bits e 8 6 != 0 || bit e 2 || (lv = 3 && bits e 20 16 != 0) then .malformed
          else .leaf e (lv = 3) a
        | _ => .malformed

/-- The frame of a leaf. -/
def frameOf (e : Word) : Nat := bits e 63 16 * 2 ^ 16

/-- A leaf that names a frame other than R459 allows. -/
def State.leafBad (s : State) (f : Nat) (e : Word) (big : Bool) : Bool :=
  let size := if big then 2 ^ 21 else 2 ^ 16
  let fr := frameOf e
  if bits e 63 62 = 0 then
    bit e 11 || bits e 61 56 != f || shareOf f < fr % 2 ^ 56 + size
  else if bits e 63 62 = 1 then
    match s.links[bits e 61 59]? with
    | some (trained, _, region) => !bit e 11 || !trained || region < fr % 2 ^ 59 + size
    | none => true
  else true

/-- The walk of an address homed in field `f`, with the frames of R459 checked. -/
def State.walk (s : State) (p : Partition) (f ctx : Nat) (va : Word) : Walk :=
  let root := s.ctxDw p f ctx ((if bit va 63 then 16 else 0) + (if isStriped va then 8 else 0))
  match s.walkFrom root.toNat 0 (walkIdx va) with
  | .leaf e big a => if s.leafBad f e big then .malformed else .leaf e big a
  | w => w

/-- The leaf grants an access (R390). -/
def permits (e : Word) : Acc → Bool
  | .read => bit e 3
  | .write => bit e 4
  | .rmw => bit e 3 && bit e 4
  | .fetch => bit e 5

/-- The page of a cached leaf holds the address. -/
def Leaf.covers (l : Leaf) (ctx : Nat) (gen : BitVec 16) (va : Word) : Bool :=
  l.ctx = ctx && l.gen = gen && (if l.big then bits va 63 21 = bits l.va 63 21 else bits va 63 16 = bits l.va 63 16)

/-- A request as it reaches a home field (R387). -/
structure Req where
  part : Nat
  ctx  : Nat
  gen  : BitVec 16
  va   : Word
  acc  : Acc
  deriving DecidableEq, Repr

/-- Physical address of `va` under a leaf (R390). -/
def leafPa (e : Word) (big : Bool) (va : Word) : Nat := frameOf e + (if big then bits va 20 0 else bits va 15 0)

/-- Entries of a translation cache (R391). -/
def tlbSize : Nat := 4096

/-- The leaf for a request: from the translation cache when it grants the access, else by a walk (R390, R391). -/
def State.findLeaf (s : State) (p : Partition) (f : Nat) (r : Req) : Res (State × Word × Bool × Nat) :=
  let fd := s.field f
  match fd.tlb.find? fun l => l.covers r.ctx r.gen r.va && permits l.entry r.acc with
  | some l => .ok (s, l.entry, l.big, l.slot)
  | none =>
    match s.walk p f r.ctx r.va with
    | .notPresent => .error (.page r.va f r.acc false)
    | .malformed => .error (.page r.va f r.acc true)
    | .lost _ => .error (.walkLost r.va)
    | .leaf e big a =>
      if permits e r.acc then
        let l : Leaf := { ctx := r.ctx, gen := r.gen, va := r.va, big := big, entry := e, slot := a }
        let keep := fd.tlb.filter fun x => !x.covers r.ctx r.gen r.va
        .ok (s.setField f { fd with tlb := (l :: keep).take tlbSize }, e, big, a)
      else failWith .access r.va

/-- A and D as the walker sets them, at the first use and the first write of the leaf `e` as it has it: an OR at the entry's home
slice (R390). The second result says whether D was set now. -/
def State.touchLeaf (s : State) (f slot : Nat) (e : Word) (acc : Acc) : State × Bool :=
  let wr := acc = .write || acc = .rmw
  let e' := if wr then e ||| 0x600 else e ||| 0x200
  if e' = e then (s, false)
  else
    let m := s.dwAt slot
    let m' := if wr then m ||| 0x600 else m ||| 0x200
    let s1 := if m' = m then s else s.sliceDw slot m'
    (s1.modField f fun x => { x with tlb := x.tlb.map fun l => if l.slot = slot && l.entry = e then { l with entry := e' } else l },
     wr && !bit m 10)

/-- Translation of a request at its home field, without the dirty ring. The request's context must be VALID there (R387);
then ranks 3 to 5 of Table 4.3. -/
def State.translateAt (s : State) (f : Nat) (r : Req) : Res (State × Nat × Option (Word × Bool)) :=
  match tget s.parts r.part with
  | none => failWith .badaddr r.va
  | some p =>
    if !s.ctxValid p f r.ctx then failWith .badaddr r.va
    else
      match s.findLeaf p f r with
      | .error e => .error e
      | .ok (s1, e, big, slot) =>
        if bit e 11 then .error (.tier r.va f r.acc e big slot)
        else
          let (s2, newD) := s1.touchLeaf f slot e r.acc
          .ok (s2, leafPa e big r.va, if newD then some (r.va, big) else none)

/-- The generation that an agent of the partition stamps on a request for a context (R392): the current one, or that of a
raise under way that the agent has acknowledged (R394). -/
def Partition.genOf (p : Partition) (ctx agent : Nat) : BitVec 16 :=
  match p.raises.find? fun r => r.ctx = ctx && r.started with
  | some r => if r.left.contains agent then (tgetD p.gens ctx 0).setWidth 16 else r.gen.setWidth 16
  | none => (tgetD p.gens ctx 0).setWidth 16

/-- The place of an address in a context where it can be read, looked up without any effect: the scheduler and the ports know in
this way which counters concern them. -/
def State.devAt (s : State) (part ctx : Nat) (va : Word) : Option Nat :=
  match tget s.parts part with
  | none => none
  | some p =>
    match s.resolve p false va with
    | .ok (.pad k) => some k
    | .ok (.page f) =>
      match s.walk p f ctx va with
      | .leaf e big _ => if s.ctxValid p f ctx && permits e .read && !bit e 11 then some (leafPa e big va) else none
      | _ => none
    | .error _ => none

/-- A dword looked up in that way. -/
def State.devDw (s : State) (part ctx : Nat) (va : Word) : Option Word := (s.devAt part ctx va).map s.dwAt

/-! ### Task queues (Tables 19.2 and 19.3) -/

/-- A dword of a virtual-function entry. -/
def State.vfDw (s : State) (p : Partition) (v o : Nat) : Word := s.pinDw p p.vftab (64 * v + o)
def State.vfValid (s : State) (p : Partition) (v : Nat) : Bool := v < p.nvf && bit (s.vfDw p v 0) 0
def State.vfCtx (s : State) (p : Partition) (v : Nat) : Nat := bits (s.vfDw p v 0x08) 11 0
def State.vfQueues (s : State) (p : Partition) (v : Nat) : Nat := min 8 (bits (s.vfDw p v 0x10) 3 0)
def State.qdesc (s : State) (p : Partition) (v q : Nat) : Word := s.vfDw p v 0x18 + BitVec.ofNat 64 (64 * q)


/-- The queues of every partition: partition, virtual function, queue. -/
def State.queueList (s : State) : List (Nat × Nat × Nat) :=
  s.parts.flatMap fun (n, p) => ((upto p.nvf).filter (s.vfValid p)).flatMap fun v =>
    (upto (s.vfQueues p v)).map fun q => (n, v, q)

/-- A queue as the scheduler keeps it. -/
def Partition.queue (p : Partition) (v q : Nat) : Queue := tgetD (tgetD p.vfs v {}).queues q {}
def Partition.setQueue (p : Partition) (v q : Nat) (x : Queue) : Partition :=
  let f := tgetD p.vfs v {}
  { p with vfs := tput p.vfs v { f with queues := tput f.queues q x } }

/-- The address of a queue's tail counter: from its descriptor, or as last read while the descriptor's page is away (R477). -/
def State.tailVa (s : State) (n : Nat) (p : Partition) (v q : Nat) : Option Word :=
  (s.devDw n (s.vfCtx p v) (s.qdesc p v q + 0x10)).orElse fun _ => (p.queue v q).tail

/-- The place of a queue's tail counter. -/
def State.tailPlace (s : State) (n : Nat) (p : Partition) (v q : Nat) : Option Nat :=
  (s.tailVa n p v q).bind (s.devAt n (s.vfCtx p v))

/-- The place of the dependence counter of a header that has been read. -/
def State.depPlace (s : State) (n : Nat) (p : Partition) (v : Nat) (h : ReadHeader) : Option Nat :=
  if h.header[6] = 0 then none else s.devAt n (s.vfCtx p v) h.header[6]

def State.modTaskQueue (s : State) (n v q : Nat) (f : Queue → Queue) : State :=
  s.modPart n fun p => p.setQueue v q (f (p.queue v q))

/-- The scheduler's notice of an addition that leaves `v` in the counter at `pa`: a TAIL counter has a header to read, a DEP
counter may let a task launch (R492, R493). A queue whose descriptor it has never read is read. -/
def State.noticeQueues (s : State) (pa : Nat) (v : Word) : State :=
  let test := fun (x : Nat × Nat × Nat) (f : Partition → Bool) =>
    match tget s.parts x.1 with
    | some p => f p
    | none => false
  let tails := s.queueList.filter fun x => test x fun p => s.tailPlace x.1 p x.2.1 x.2.2 = some pa
  let blind := s.queueList.filter fun x => test x fun p => (s.tailVa x.1 p x.2.1 x.2.2).isNone
  let s1 := tails.foldl (fun x (n, f, q) => x.modTaskQueue n f q fun y => { y with tailSeen := v }) s
  let s2 := (tails ++ blind).foldl (fun x (n, f, q) => x.postOnce (.taskHeaderRead n f (Fin.ofNat 8 q))) s1
  let mine := fun (n : Nat) (p : Partition) (i : Nat) (h : ReadHeader) => s.depPlace n p i h = some pa
  let deps := s2.parts.filter fun (n, p) => p.vfs.any fun (i, f) => f.queues.any fun (_, q) => q.headers.any (mine n p i)
  deps.foldl (fun x (n, p) => (x.modPart n fun y =>
    { y with vfs := y.vfs.map fun (i, f) => (i, { f with queues := f.queues.map fun (j, q) =>
        (j, { q with headers := q.headers.map fun h => if mine n p i h then { h with depSeen := some v } else h }) }) }).postOnce
    (.taskLaunch n)) s2

def State.postAll (s : State) : List Instr → State
  | [] => s
  | i :: t => (s.postOnce i).postAll t

/-- The notice that a port takes of an addition to its egress tail counter (R536). -/
def State.noticeEgress (s : State) (pa : Nat) : State :=
  s.postAll ((s.ports.filter fun (e : Nat × Port) => match e.2.bind with
    | some b => s.devAt b.part b.ctx b.etail = some pa
    | none => false).map fun e => .egressDescriptor e.1)

/-- An addition to the counter at a physical address, at its home slice (R136, R163). It sets off a sweep of the slice's
overflow sub-list (R140), a sweep of the fault list when the counter is a field's FRES (R398), and the scheduler's notice
of a TAIL or DEP counter (R493), and a port's of its egress tail counter (R536). A lost counter stays lost (log 21). -/
def State.counterAdd (s : State) (pa : Nat) (d : Word) : State :=
  if s.lostAt pa 8 then s else
  let v := s.dwAt pa + d
  let s1 := s.sliceDw pa v
  let f := fieldOfPa pa
  let sl := sliceOf pa
  let s2 := if (((s1.field f).overflow[sl]?).getD []).isEmpty then s1 else s1.postOnce (.overflowSweep f sl)
  let s3 :=
    match s2.partOfField f with
    | some (_, p) => if pinPa p (p.fcb f + 0x20) = some pa then s2.postOnce (.faultSweep f) else s2
    | none => s2
  (s3.noticeQueues pa v).noticeEgress pa

/-- Work of the device for a virtual function: it waits its turn, which the slices' counter additions of the partition's first
field share (R541, R542). -/
def State.postDev (s : State) (part : Nat) (d : DevOp) : State :=
  match tget s.parts part with
  | none => s
  | some p => (s.setPart part { p with devs := p.devs ++ [d] }).postOnce (.counterAddition ((p.phys 0).getD 0))

/-- The entry of a dirty ring for a page (R542). -/
def dirtyEntry (page : Word × Bool) : Word :=
  let size := if page.2 then 21 else 16
  BitVec.ofNat 64 (page.1.toNat / 2 ^ size * 2 ^ size + if page.2 then 1 else 0)

/-- A page of which the walker has set D is to enter the dirty ring of its virtual function while TRACKING holds (R542). -/
def State.recordDirty (s : State) (part ctx : Nat) (page : Word × Bool) : State :=
  match tget s.parts part with
  | none => s
  | some p =>
    match tfind p.vfs fun n v => v.tracking && !v.dovf && s.vfCtx p n = ctx with
    | none => s
    | some (n, _) => s.postDev part { vf := n, what := .dirty (dirtyEntry page) }

/-- Translation of a request at its home field (R387 to R391), the dirty ring included (R542). -/
def State.translate (s : State) (f : Nat) (r : Req) : Res (State × Nat) :=
  match s.translateAt f r with
  | .error e => .error e
  | .ok (s1, pa, none) => .ok (s1, pa)
  | .ok (s1, pa, some page) => .ok (s1.recordDirty r.part r.ctx page, pa)

/-- The place of an access: ranks 2 to 5 of Table 4.3. -/
def State.place (s : State) (user : Bool) (r : Req) : Res (State × Nat) :=
  match tget s.parts r.part with
  | none => failWith .badaddr r.va
  | some p =>
    match s.resolve p user r.va with
    | .error e => .error e
    | .ok (.pad k) => .ok (s, k)
    | .ok (.page f) => s.translate f r

/-- Number of an agent that keeps nothing of a context between two steps: it stamps a raise's generation from the start (R394). -/
def agentFree : Nat := 60000

/-- A place that the device itself reaches as supervisor (log 13). -/
def State.devPlace (s : State) (part ctx : Nat) (va : Word) (acc : Acc) : Option (State × Nat) :=
  match tget s.parts part with
  | none => none
  | some p =>
    match s.place false { part := part, ctx := ctx, gen := p.genOf ctx agentFree, va := va, acc := acc } with
    | .ok x => some x
    | .error _ => none

/-- Bytes that the device writes at such a place, page by page; nothing where it cannot be reached. -/
def State.devPut (s : State) (part ctx : Nat) (va : Word) (bs : List Byte) : State :=
  let n := 2 ^ 16 - va.toNat % 2 ^ 16
  let put := fun (x : State) (a : Word) (l : List Byte) =>
    match x.devPlace part ctx a .write with
    | some (s1, pa) => s1.slicePut pa l
    | none => x
  if bs.length ≤ n then put s va bs else put (put s va (bs.take n)) (va + BitVec.ofNat 64 n) (bs.drop n)

end Sys2Proof.Machine
end

