-- ==== Sys2Proof/Machine/Slice.lean ====
section
/-! DEFINITION. Sys2Proof/Machine/Slice.lean: which lines the home slices of a field hold, and the occupancy counters
(R379, R381). They change no result. -/

namespace Sys2Proof.Machine

/-- Sets of a slice, ways of a set (R379); the set of a line (log 14). -/
def l2Set (line : Nat) : Nat := (line / 16) % 4096
def l2Ways : Nat := 16

/-- Slots of a slice's occupancy counters (R381). -/
def occSlots : Nat := 128

/-- Number under which the lines of further contexts are kept that slot 127 counts beside those of its own context (R381). -/
def occShared : Nat := 128

/-- The slot that counts a context's lines: its own, else a free one, else the share of slot 127 (R381). -/
def occSlot (o : Tab (Nat × Nat)) (ctx : Nat) : Nat :=
  match o.find? fun e => e.2.1 = ctx && e.1 < occSlots with
  | some (i, _) => i
  | none => ((upto occSlots).find? fun i => (tget o i).isNone).getD occShared

/-- One line more of a context. -/
def occAdd (o : Tab (Nat × Nat)) (ctx : Nat) : Tab (Nat × Nat) :=
  let i := occSlot o ctx
  match tget o i with
  | some (c, n) => tput o i (c, n + 1)
  | none => tput o i (ctx, 1)

/-- One line less; a slot whose count reaches 0 is free (R381). -/
def occSub (o : Tab (Nat × Nat)) (ctx : Nat) : Tab (Nat × Nat) :=
  let i := ((o.find? fun e => e.2.1 = ctx && e.1 < occSlots).map (·.1)).getD occShared
  match tget o i with
  | some (c, n) => if n ≤ 1 then tdel o i else tput o i (c, n - 1)
  | none => o

/-- Lines that a slice counts for a context under its limit; slot 127 has none while it counts further contexts (R381). -/
def occCount (o : Tab (Nat × Nat)) (ctx : Nat) : Nat :=
  match o.find? fun e => e.2.1 = ctx && e.1 < occSlots with
  | some (i, _, n) => if i = 127 && (tget o occShared).isSome then 0 else n
  | none => 0

/-- A context is over its soft limit in a slice (R381). -/
def State.overLimit (s : State) (p : Partition) (f : Nat) (o : Tab (Nat × Nat)) (ctx : Nat) : Bool :=
  let lim := bits (s.ctxDw p f ctx 0x30) 15 0
  lim != 0 && lim < occCount o ctx

/-- The victim of a fill within a set: the filling context's own least recent line when it is over its limit, else the
least recent line of a context over its limit, else the least recent line (R381). `set` stands most recent first. -/
def l2Victim (exceeds : Nat → Bool) (ctx : Nat) (set : List (Nat × Nat)) : Option (Nat × Nat) :=
  let old := set.reverse
  let own := if exceeds ctx then old.find? fun l => l.2 = ctx else none
  (own.orElse fun _ => old.find? fun l => exceeds l.2).orElse fun _ => old.head?

/-- Ways of a set of a slice that are not retired (R505). -/
def Field.waysOf (f : Field) (sl set : Nat) : Nat := l2Ways - (f.l2Gone.filter (· = (sl, set))).length

/-- A use of a line at its home slice: a line that is absent is filled and counted for the filling context (R380, R381). A set of
which no way is left keeps no line. -/
def State.touchL2 (s : State) (pa ctx : Nat) : State :=
  if isPad pa || isTier pa then s
  else
    let f := fieldOfPa pa
    let line := pa / 128
    let sl := sliceOf pa
    let fd := s.field f
    match fd.l2.find? fun l => l.1 = line with
    | some l => s.setField f { fd with l2 := l :: ldel fd.l2 l }
    | none =>
      let ways := fd.waysOf sl (l2Set line)
      if ways = 0 then s
      else
      let o := tgetD fd.occ sl []
      let set := fd.l2.filter fun l => sliceOf (l.1 * 128) = sl && l2Set l.1 = l2Set line
      let exceeds := fun c =>
        match s.partOfField f with
        | some (_, p) => s.overLimit p f o c
        | none => false
      let victim := if set.length < ways then none else l2Victim exceeds ctx set
      let (l2, o1) :=
        match victim with
        | some v => (ldel fd.l2 v, occSub o v.2)
        | none => (fd.l2, o)
      s.setField f { fd with l2 := (line, ctx) :: l2, occ := tput fd.occ sl (occAdd o1 ctx) }

/-- A way of a set of a home slice is retired; the set's least recent line leaves a set that it makes too full (R505). -/
def State.retireWay (s : State) (f sl set : Nat) : State :=
  let fd := s.field f
  let fd1 := { fd with l2Gone := (sl, set) :: fd.l2Gone }
  let lines := fd.l2.filter fun l => sliceOf (l.1 * 128) = sl && l2Set l.1 = set
  match (if fd1.waysOf sl set < lines.length then lines.getLast? else none) with
  | some v => s.setField f { fd1 with l2 := ldel fd1.l2 v, occ := tput fd1.occ sl (occSub (tgetD fd1.occ sl []) v.2) }
  | none => s.setField f fd1

/-- An addition to a counter whose line its slice then holds for a context (R163, R381). -/
def State.addAt (s : State) (ctx pa : Nat) (d : Word) : State := (s.touchL2 pa ctx).counterAdd pa d

end Sys2Proof.Machine
end

