-- ==== Sys2Proof/Machine/Cache.lean ====
section
/-! DEFINITION. Sys2Proof/Machine/Cache.lean: writes at the home slice with the undo log (R380, R384, R500, R501), the
remote-data cache (R383 to R385), the L1 data cache (R248 to R257), the store buffer (R130), and the cache actions of
releases and acquires (Tables 9.1 and 15.3). -/

namespace Sys2Proof.Machine

/-- Who writes (R500, R501): the field it sends from, its task, and the strand instruction that a fault would name: TPC, HDR,
PCOORD and the strand's index, all 0 when none can be named. R185 gives TASKID no index for that case: DESIGN CHOICE (log 46). -/
structure Writer where
  fld  : Option Nat
  task : Option Nat
  ctx  : Nat
  part : Nat
  tpc  : Word := 0
  hdr  : Word := 0
  pcoord : Word := 0
  index : BitVec 32 := 0
  deriving DecidableEq, Repr

/-- The 128-byte line of an address. -/
def lineVa (va : Word) : Word := BitVec.ofNat 64 (va.toNat / 128 * 128)

/-- A fault of a grid reaches the scheduler (R184, R185): the first is kept, later ones are counted, and the grid's stop is
due. `Vector` holds the dwords of Table 6.6 from +0x00 to +0x30. -/
def State.noteFault (s : State) (task : Nat) (r : Vector Word 7) : State :=
  match tget s.tasks task with
  | none => s
  | some t =>
    match t.fault with
    | none => (s.setTask task { t with fault := some r }).postOnce (.gridStop task)
    | some _ => s.setTask task { t with fcount := sat16 (t.fcount + 1) }

/-- CAUSE of a fault (Table 6.2). -/
def causeOf (c : FaultCode) (entry : Bool) : Word := BitVec.ofNat 64 ((if entry then 256 else 0) + 64 + c.num)

/-- TASKID of a task and an index (Table 1.5). -/
def taskIdOf (t : Task) (index : BitVec 32) : Word := t.seq ++ index

/-- The undo log of a ROLLBACK task before a write to the line of `va`: none when the write need not be logged; some none when
the log is full. `pre` is the line as it stands, `marks` the words of it that are lost. -/
def State.undoLogWith (s : State) (w : Writer) (va : Word) (pre : List Byte) (marks : List Nat) : Option (Option State) :=
  match w.task with
  | none => none
  | some k =>
    match tget s.tasks k with
    | none => none
    | some t =>
      if !bit t.header[2] 16 || t.logged.contains (lineVa va) then none
      else if t.logCap ≤ t.logged.length then some none
      else
        let at_ := t.logBase + BitVec.ofNat 64 (144 * t.logged.length)
        let s1 := s.devPut t.part t.ctx at_ (bytesOf 8 (lineVa va).toNat ++ bytesOf 8 w.ctx ++ pre)
        let s2 := s1.setTask k { t with logged := t.logged ++ [lineVa va] }
        some (some (marks.foldl (fun x i =>
          match x.devPlace t.part t.ctx (at_ + BitVec.ofNat 64 (16 + 4 * i)) .write with
          | some (x1, lp) => x1.setPoison lp
          | none => x) s2))

/-- The undo log before a write at a physical address (R500). -/
def State.undoLog (s : State) (w : Writer) (va : Word) (pa : Nat) : Option (Option State) :=
  let base := pa / 128 * 128
  s.undoLogWith w va (s.bytesAt base 128) ((upto 32).filter fun i => s.lostAt (base + 4 * i) 4)

/-- A write that the full undo log does not allow ends the grid (R501). -/
def State.logFull (s : State) (w : Writer) : State :=
  match w.task with
  | some k =>
    let id := match tget s.tasks k with
      | some t => taskIdOf t w.index
      | none => 0
    s.noteFault k #v[causeOf .rollback false, 0, w.tpc, w.hdr, id, w.pcoord, BitVec.ofNat 64 s.time]
  | none => s

/-- A field's remote copy of a line dropped (R384, R402). -/
def State.dropRdc (s : State) (f : Nat) (va : Word) (ctx : Nat) : State :=
  s.modField f fun x => { x with rdc := x.rdc.filter fun l => !(l.va = lineVa va && l.ctx = ctx) }

/-- The same for every line that `n` bytes at `va` touch. -/
def State.dropRdcOver (s : State) (f : Nat) (va : Word) (n ctx : Nat) : State :=
  s.modField f fun x => { x with rdc := x.rdc.filter fun l =>
    !(l.ctx = ctx && l.va.toNat < va.toNat + n && va.toNat < l.va.toNat + 128) }

/-- A write that an agent makes at a home slice or a scratchpad controller: the pre-image of a ROLLBACK task's first write
to the line goes to the undo log, a full log ends the grid and the write is not performed (R500, R501); the sender's field
drops its remote copy (R384). -/
def State.homeWrite (s : State) (w : Writer) (va : Word) (pa : Nat) (bs : List Byte) : State :=
  let s0 :=
    match w.fld with
    | some f => s.dropRdc f va w.ctx
    | none => s
  match s0.undoLog w va pa with
  | none => (s0.touchL2 pa w.ctx).slicePut pa bs
  | some (some s1) => (s1.touchL2 pa w.ctx).slicePut pa bs
  | some none => s0.logFull w

/-! ### Lines -/

def lineWord (d : BitVec 1024) (i : Nat) : Lane := d.extractLsb' (32 * i) 32

/-- The line with `n` bytes at byte offset `o` replaced. -/
def linePut (d : BitVec 1024) (o n : Nat) (x : Nat) : BitVec 1024 :=
  let m := BitVec.ofNat 1024 ((2 ^ (8 * n) - 1) * 2 ^ (8 * o))
  (d &&& ~~~m) ||| BitVec.ofNat 1024 (x % 2 ^ (8 * n) * 2 ^ (8 * o))

/-- `n` bytes at byte offset `o` of a line. -/
def lineGet (d : BitVec 1024) (o n : Nat) : Nat := d.toNat / 2 ^ (8 * o) % 2 ^ (8 * n)

/-- Words of a line that an access of `n` bytes at offset `o` touches. -/
def lineMask (o n : Nat) : BitVec 32 := BitVec.ofNat 32 ((2 ^ ((o + n + 3) / 4 - o / 4) - 1) * 2 ^ (o / 4))

/-- A line as memory holds it: which words can be read, and the data (R251, R257). -/
def State.memLine (s : State) (pa : Nat) : BitVec 32 × BitVec 1024 :=
  let b := pa / 128 * 128
  (BitVec.ofNat 32 (packN 1 ((List.range 32).map fun i => if s.lostAt (b + 4 * i) 4 then 0 else 1)),
   BitVec.ofNat 1024 (s.valAt b 128))

/-- Lines of a remote-data cache (R383). -/
def rdcSize : Nat := 262144

/-- The line that a fill brings to an agent of field `f`: from the home slice, or for a line homed elsewhere from the
field's remote-data cache, which takes the line it did not hold; one with a word that is lost is fetched again (R251, R383). -/
def State.fillLine (s : State) (f : Nat) (va : Word) (ctx : Nat) (gen : BitVec 16) (pa : Nat) :
    State × BitVec 32 × BitVec 1024 :=
  if fieldOfPa pa = f then (s.touchL2 pa ctx, s.memLine pa)
  else
    let fd := s.field f
    match fd.rdc.find? fun l => l.va = lineVa va && l.ctx = ctx && l.gen = gen && l.valid = BitVec.allOnes 32 with
    | some l => (s, l.valid, l.data)
    | none =>
      let (v, d) := s.memLine pa
      let l : RdcLine := { va := lineVa va, ctx := ctx, gen := gen, valid := v, data := d }
      let rest := fd.rdc.filter fun x => !(x.va = l.va && x.ctx = ctx && x.gen = gen)
      ((s.setField f { fd with rdc := (l :: rest).take (rdcSize - fd.rdcGone) }).touchL2 pa ctx, v, d)

/-- Set of an L1 line (log 14) and ways of a set (R248). -/
def l1Set (va : Word) : Nat := bits va 16 7
def l1Ways : Nat := 12

/-- Lines of a gateway core's L1 data cache, 64 KiB in one set (R527, log 14). -/
def gatewayLines : Nat := 512

def L1Line.is (l : L1Line) (va : Word) (ctx : Nat) (gen : BitVec 16) : Bool :=
  l.va = lineVa va && l.ctx = ctx && l.gen = gen

def Core.findLine (c : Core) (va : Word) (ctx : Nat) (gen : BitVec 16) : Option L1Line :=
  c.l1.find? fun l => l.is va ctx gen

/-- Task and partition of the strand on a slot, for the writes of its core. -/
def State.writerOf (s : State) (k : Nat) (ctx : Nat) : Writer :=
  match tget s.slots k with
  | none => { fld := some (fieldOfSlot k), task := none, ctx := ctx, part := 0 }
  | some sl =>
    match tget s.strands sl.uid with
    | none => { fld := some (fieldOfSlot k), task := none, ctx := ctx, part := 0 }
    | some t =>
      { fld := some (fieldOfSlot k), task := some t.task, ctx := ctx, part := t.part,
        tpc := t.hdr + BitVec.ofNat 64 (8 * t.widx), hdr := t.hdr, pcoord := pcoordOf k, index := t.index }

/-- The writer of a posted store: the word that posted it. -/
def State.writerFrom (s : State) (k : Nat) (ctx : Nat) (org : Origin) : Writer :=
  { s.writerOf k ctx with tpc := org.tpc, hdr := org.hdr }

/-- Who writes a line back: the strands of the slots in its writer mask, each task once; a fault of it names no instruction
(R501). -/
def State.lineWriters (s : State) (c : Nat) (l : L1Line) : List Writer :=
  let ws := ((upto 4).filter l.mask.getLsbD).map fun i =>
    { s.writerOf (c * 4 + i) l.ctx with tpc := 0, hdr := 0, pcoord := 0, index := 0 }
  (if ws.isEmpty then [{ s.writerOf (c * 4) l.ctx with task := none, tpc := 0, hdr := 0, pcoord := 0, index := 0 }] else ws).dedup

/-- A write in the name of several strands: the pre-image goes to the undo log of each task that logs it, and a full log keeps the
write from being performed (R500, R501). -/
def State.homeWriteBy (s : State) (va : Word) (pa : Nat) (bs : List Byte) : List Writer → State
  | [] => s
  | [w] => s.homeWrite w va pa bs
  | w :: ws =>
    match s.undoLog w va pa with
    | none => s.homeWriteBy va pa bs ws
    | some (some s1) => s1.homeWriteBy va pa bs ws
    | some none => s.logFull w

/-- One write of a write-back: `n` bytes at offset `o` of the line, as one write at the home slice. -/
def State.writeBackPart (s : State) (ws : List Writer) (l : L1Line) (o n : Nat) : State :=
  s.homeWriteBy (l.va + BitVec.ofNat 64 o) (l.pa / 128 * 128 + o) (bytesOf n (lineGet l.data o n)) ws

/-- The part of a word of memory that Assay tests (R258, R296, R380): a scratchpad bank, BYTE[11:7] (R294), or the set of a home
slice. A word of the second tier has no such part. -/
def partOfPa (pa : Nat) : Option AssayPart :=
  if isPad pa then some (.tileBank (pa / 2 ^ 27 % 64 * 16 + pa / 2 ^ 23 % 16) (pa / 2 ^ 7 % 32))
  else if isTier pa then none
  else some (.sliceRow (fieldOfPa pa) (sliceOf pa) (l2Set (pa / 128)))

/-- Assay follows an uncorrectable word of memory (R296, R325, R380). -/
def State.assayAt (s : State) (pa : Nat) : State :=
  match partOfPa pa with
  | some p => s.postOnce (.assay p)
  | none => s

/-- A bad word of a write-back takes its poison mark, and is counted; Assay follows (R256 to R258). -/
def State.writeBackMark (s : State) (c : Nat) (l : L1Line) (i : Nat) : State :=
  if l.dirty.getLsbD i && l.bad.getLsbD i then
    ((s.setPoison (l.pa / 128 * 128 + 4 * i)).modCore c fun z => { z with poison := sat16 (z.poison + 1) }).postOnce
      (.assay (.coreBank c (l1Set l.va)))
  else s

/-- What a write-back writes of dword `i` of a line, as offset and length: its dirty words, by mask (R252). Two dirty words are one
write of the whole word of the slice (R380). -/
def L1Line.dirtyParts (l : L1Line) (i : Nat) : List (Nat × Nat) :=
  match l.dirty.getLsbD (2 * i), l.dirty.getLsbD (2 * i + 1) with
  | true, true => [(8 * i, 8)]
  | true, false => [(8 * i, 4)]
  | false, true => [(8 * i + 4, 4)]
  | false, false => []

/-- The dirty words of a line written at the home slice by mask, a bad one with its poison mark (R252, R257). -/
def State.writeBack (s : State) (c : Nat) (l : L1Line) : State :=
  let ws := s.lineWriters c l
  (List.range 16).foldl (fun x i =>
    let y := (l.dirtyParts i).foldl (fun z r => z.writeBackPart ws l r.1 r.2) x
    (y.writeBackMark c l (2 * i)).writeBackMark c l (2 * i + 1)) s

/-- A line after its write-back: its words are clean, those that were lost are not valid (R257). -/
def L1Line.cleaned (l : L1Line) : L1Line :=
  let lost := l.bad &&& l.dirty
  { l with valid := l.valid &&& ~~~lost, bad := l.bad &&& ~~~lost, dirty := 0, mask := 0 }

/-- A line put at the head of the recency list of its core. A set with too many lines drops its least recent one after its
write-back (R252); exact recency stands for the pseudo-LRU of R248: DESIGN CHOICE (log 8). A set under Assay takes no new line
(R258): dirty words go home. -/
def State.putLine (s : State) (c : Nat) (l : L1Line) : State :=
  let co := s.core c
  let rest := co.l1.filter fun x => !x.is l.va l.ctx l.gen
  let same := if isGateway (tileOfCore c) then rest else rest.filter fun x => l1Set x.va = l1Set l.va
  if co.testing.contains (l1Set l.va) && rest.length = co.l1.length then (if l.dirty = 0 then s else s.writeBack c l)
  else if same.length < (if isGateway (tileOfCore c) then gatewayLines else l1Ways) then s.setCore c { co with l1 := l :: rest }
  else
    match same.getLast? with
    | none => s.setCore c { co with l1 := l :: rest }
    | some v =>
      let s1 := s.setCore c { co with l1 := l :: ldel rest v }
      if v.dirty = 0 then s1 else s1.writeBack c v

/-- A line that no word of is valid, for an address. -/
def emptyLine (va : Word) (ctx : Nat) (gen : BitVec 16) (pa : Nat) : L1Line :=
  { va := lineVa va, ctx := ctx, gen := gen, pa := pa / 128 * 128, valid := 0, dirty := 0, bad := 0, data := 0, mask := 0 }

/-- Bits of `m` spread over the bits of a line's words. -/
def wordBits (m : BitVec 32) : BitVec 1024 :=
  BitVec.ofNat 1024 (packN 32 ((List.range 32).map fun i => if m.getLsbD i then 0xFFFFFFFF else 0))

/-- A word mask with the halves of each dword exchanged. -/
def otherHalf (m : BitVec 32) : BitVec 32 := ((m &&& 0x55555555) <<< 1) ||| ((m >>> 1) &&& 0x55555555)

/-- A merging fill: the words that are not valid take those that the fill can read; valid words keep their contents (R251). -/
def mergeFill (l : L1Line) (v : BitVec 32) (d : BitVec 1024) : L1Line :=
  let new := v &&& ~~~l.valid
  { l with
    valid := l.valid ||| new
    bad := l.bad &&& ~~~new
    data := (l.data &&& ~~~wordBits new) ||| (d &&& wordBits new) }

/-- A line of a core evicted: its dirty words go home, its clean words are dropped (R252). -/
def State.evict (s : State) (c : Nat) (l : L1Line) : State :=
  let s1 := s.modCore c fun x => { x with l1 := x.l1.filter fun y => !y.is l.va l.ctx l.gen }
  if l.dirty = 0 then s1 else s1.writeBack c l

/-- A clean valid word shares its dword with one that is not valid. -/
def L1Line.halfValid (l : L1Line) : Bool := l.valid &&& ~~~l.dirty &&& otherHalf (~~~l.valid) != 0

/-- The line into which a merging fill goes. One with a clean word beside a word that is not valid is evicted first, so that no
8-byte access joins two ages of a dword (R156): when a line is evicted the spec leaves open, DESIGN CHOICE (log 47). -/
def State.openLine (s : State) (c : Nat) (l : L1Line) : State × L1Line :=
  if l.halfValid then (s.evict c l, emptyLine l.va l.ctx l.gen l.pa) else (s, l)

/-- Clean words among those that an access touches, found uncorrectable: they are made invalid, to be fetched again, each is
counted in REFETCH, and Assay follows (Table 9.2, R258). -/
def State.refetch (s : State) (c : Nat) (l : L1Line) (m : BitVec 32) : State × L1Line :=
  let b := l.bad &&& l.valid &&& ~~~l.dirty &&& m
  if b = 0 then (s, l)
  else
    ((s.modCore c fun x => { x with refetch := sat16 (x.refetch + popN 32 b.toNat) }).postOnce (.assay (.coreBank c (l1Set l.va))),
     { l with valid := l.valid &&& ~~~b, bad := l.bad &&& ~~~b })

/-- Some word of the access is dirty by a store of another slot of the core. -/
def L1Line.foreign (l : L1Line) (k : Nat) (m : BitVec 32) : Bool :=
  l.dirty &&& m != 0 && l.mask &&& ~~~(BitVec.ofNat 4 (2 ^ (k % 4))) != 0

/-- A load from a line that holds its words: the line is the most recent one. After a load of a word that another slot has stored
the line is evicted, so that every agent which the load happens before finds that store or a later one (R149, R154): DESIGN
CHOICE (log 48). -/
def State.l1Hit (s : State) (k : Nat) (l : L1Line) (o n : Nat) : State × Nat :=
  let c := coreOfSlot k
  ((if l.foreign k (lineMask o n) then s.evict c l else s.putLine c l), lineGet l.data o n)

/-- An access ends in UNCORR. Where it has just made a bad clean word invalid, that stands, and the access is made again without
the word (Table 9.2). -/
def State.lostOr (s0 : State) (c : Nat) (l l0 : L1Line) (va : Word) : Res (State × Nat) :=
  if l = l0 then failWith .uncorr va else .error (.become (s0.putLine c l))

/-- `n` bytes at `va` in the name of context `ctx` through the L1 data cache of slot `k`'s core (R251): the value, or UNCORR when
a word that the access touches is lost. -/
def State.l1Load (s : State) (k : Nat) (va : Word) (ctx : Nat) (gen : BitVec 16) (pa n : Nat) : Res (State × Nat) :=
  let c := coreOfSlot k
  let o := va.toNat % 128
  let m := lineMask o n
  let l0 := ((s.core c).findLine va ctx gen).getD (emptyLine va ctx gen pa)
  let (s0, l) := s.refetch c l0 m
  if l.valid &&& m = m then
    if l.bad &&& m = 0 then .ok (s0.l1Hit k l o n) else failWith .uncorr va
  else
    let (s1, l1) := s0.openLine c l
    let (s2, v, d) := s1.fillLine (fieldOfSlot k) va ctx gen pa
    let l2 := mergeFill l1 v d
    if l2.valid &&& m = m && l2.bad &&& m = 0 then .ok (s2.l1Hit k l2 o n) else s0.lostOr c l l0 va

/-- The words of a line that its data gives for words that the home slice has lost. -/
def L1Line.orKept (l old : L1Line) : L1Line :=
  let m := old.valid &&& ~~~l.valid
  { l with valid := l.valid ||| m, data := (l.data &&& ~~~wordBits m) ||| (old.data &&& wordBits m) }

/-- The line into which a store of `n` bytes writes. One of whole words takes the line as it stands, and so does one to words
that are dirty. Another store of 1 or 2 bytes takes the line afresh from its home slice, what the core and the field's remote-data
cache keep of it evicted first, so that its write-back puts no older byte beside its own (R149, R250, R251; log 44); a valid
word that the home slice has lost keeps what the core has. The second result says that a word it touches is lost. -/
def State.storeFill (s : State) (k : Nat) (va : Word) (ctx : Nat) (gen : BitVec 16) (pa n : Nat) : State × L1Line × Bool :=
  let c := coreOfSlot k
  let m := lineMask (va.toNat % 128) n
  let l0 := ((s.core c).findLine va ctx gen).getD (emptyLine va ctx gen pa)
  if 4 ≤ n then (s, l0, false)
  else
    let (s0, l) := s.refetch c l0 m
    if l.dirty &&& m = m then (s0, l, false)
    else
      let (s1, v, d) := ((s0.evict c l).dropRdc (fieldOfSlot k) va ctx).fillLine (fieldOfSlot k) va ctx gen pa
      let l1 := (mergeFill (emptyLine va ctx gen pa) v d).orKept l
      (s1, l1, l1.valid &&& m != m)

/-- A line with a store of slot `k` written into it (R250). -/
def L1Line.stored (l : L1Line) (k o : Nat) (bs : List Byte) : L1Line :=
  let m := lineMask o bs.length
  { l with
    valid := l.valid ||| m
    dirty := l.dirty ||| m
    bad := if bs.length < 4 then l.bad else l.bad &&& ~~~m
    data := linePut l.data o bs.length (natOf bs)
    mask := l.mask ||| BitVec.ofNat 4 (2 ^ (k % 4)) }

/-- The grid of the strand on slot `k` ends with UNCORR at a word that is not the one it stands at, or at none (R251, Table 9.2):
CAUSE, TVAL and TPC are written, and the slot issues nothing more. -/
def State.endGrid (s : State) (k : Nat) (tval tpc hdr : Word) : State :=
  match tget s.slots k with
  | none => s
  | some sl =>
    match tget s.strands sl.uid with
    | none => s
    | some t =>
      match tget s.tasks t.task with
      | none => s
      | some ta =>
        let cw := causeOf .uncorr false
        ((s.setStrand sl.uid { t with cause := cw, tval := tval, tpc := tpc }).setSlot k
          { sl with hold := some (sl.hold.getD .fault) }).noteFault t.task
          #v[cw, tval, tpc, hdr, taskIdOf ta t.index, pcoordOf k, BitVec.ofNat 64 s.time]

/-- A posted store of 1 or 2 bytes whose word has been lost since it was checked: UNCORR, or rollback, at the word that posted
it, and nothing written (R251). -/
def State.storeLost (s : State) (k : Nat) (va : Word) (pa : Nat) (org : Origin) : State :=
  (s.endGrid k va org.tpc org.hdr).assayAt pa

/-- A store into the L1 data cache for slot `k` (R250). A line with a word of which only some bytes have been stored is evicted at
once (log 44). -/
def State.l1Store (s : State) (k : Nat) (va : Word) (ctx : Nat) (gen : BitVec 16) (pa : Nat) (org : Origin) (bs : List Byte) :
    State :=
  let c := coreOfSlot k
  let m := lineMask (va.toNat % 128) bs.length
  let (s1, l, lost) := s.storeFill k va ctx gen pa bs.length
  let l1 := l.stored k (va.toNat % 128) bs
  if lost then s1.storeLost k va pa org
  else if bs.length < 4 && l.dirty &&& m != m then s1.evict c l1
  else s1.putLine c l1

/-- The line of an address written back and invalidated in a core (R252), whatever slots wrote it. -/
def State.flushLine (s : State) (c : Nat) (va : Word) (ctx : Nat) : State :=
  let co := s.core c
  let hit := co.l1.filter fun l => l.va = lineVa va && l.ctx = ctx
  hit.foldl (fun x l => x.evict c l) s

/-- Dirty words of every line whose writer mask names slot `k` written back, and those masks cleared (Table 9.1). -/
def State.writeBackSlot (s : State) (k : Nat) : State :=
  let c := coreOfSlot k
  let co := s.core c
  let mine := co.l1.filter fun l => l.mask.getLsbD (k % 4)
  let s1 := mine.foldl (fun x l => x.writeBack c l) s
  s1.modCore c fun x => { x with l1 := x.l1.map fun l => if l.mask.getLsbD (k % 4) then l.cleaned else l }

/-- One entry of the store buffer performed: a store goes to the L1 data cache, past it to its home slice (R249), or to the
scratchpad controller; an addition to its home slice, after the write-back that its release asks for (R130, R137, R252, R253). -/
def State.performEntry (s : State) (k ctx : Nat) (gen : BitVec 16) (e : StoreEntry) : State :=
  match e with
  | .store org es =>
    es.foldl (fun x el =>
      if isPad el.pa then x.homeWrite (x.writerFrom k ctx org) el.va el.pa el.bytes
      else if org.past then
        (x.flushLine (coreOfSlot k) el.va ctx).homeWrite (x.writerFrom k ctx org) el.va el.pa el.bytes
      else x.l1Store k el.va ctx gen el.pa org el.bytes) s
  | .cadd va pa v =>
    (((s.writeBackSlot k).flushLine (coreOfSlot k) va ctx).dropRdc (fieldOfSlot k) va ctx).addAt ctx pa v

/-- Context of the task of the strand on a slot, with the generation its core stamps (R392). -/
def State.ctxOfSlot (s : State) (k : Nat) : Nat × BitVec 16 :=
  match tget s.slots k with
  | none => (0, 0)
  | some sl =>
    match tget s.strands sl.uid with
    | none => (0, 0)
    | some t =>
      match tget s.tasks t.task, tget s.parts t.part with
      | some ta, some p => (ta.ctx, p.genOf ta.ctx (coreOfSlot k))
      | _, _ => (0, 0)

/-- The store buffer of a slot drained in order. -/
def State.drain (s : State) (k : Nat) : State :=
  match tget s.slots k with
  | none => s
  | some sl =>
    let (ctx, gen) := s.ctxOfSlot k
    sl.buf.foldl (fun x e => x.performEntry k ctx gen e) (s.setSlot k { sl with buf := [] })

/-- A line of which an acquire keeps the dirty words. -/
def L1Line.kept (l : L1Line) : L1Line := { l with valid := l.dirty, bad := l.bad &&& l.dirty }

/-- Every clean word of a core invalidated; dirty words stay (Table 9.1). -/
def State.dropClean (s : State) (c : Nat) : State :=
  s.modCore c fun x => { x with l1 := (x.l1.map L1Line.kept).filter fun l => l.valid != 0 }

/-- The scopes that reach beyond the field: an acquire flashes the remote-data cache (R385). -/
def beyondField : Scope → Bool
  | .sector | .module | .system => true
  | _ => false

/-- Release side of slot `k` (Tables 9.1 and 15.3): the store buffer drains and the slot's dirty lines go home. -/
def State.release (s : State) (k : Nat) (sc : Scope) : State :=
  match sc with
  | .strand => s.drain k
  | _ => (s.drain k).writeBackSlot k

/-- The remote-data cache of a field flashed (R385). -/
def State.flashRdc (s : State) (f : Nat) : State := s.modField f fun x => { x with rdc := [] }

/-- Acquire side of slot `k` (Tables 9.1 and 15.3). -/
def State.acquire (s : State) (k : Nat) (sc : Scope) : State :=
  match sc with
  | .strand => s
  | _ => if beyondField sc then (s.dropClean (coreOfSlot k)).flashRdc (fieldOfSlot k) else s.dropClean (coreOfSlot k)

/-- The wider of two scopes. -/
def widerScope (a b : Scope) : Scope :=
  if b = .strand || a = .system then a else
  match a, b with
  | .strand, _ => b
  | .tile, _ => b
  | .field, .tile => a
  | .field, _ => b
  | .sector, .module | .sector, .system => b
  | .sector, _ => a
  | .module, .system => b
  | a, _ => a

/-- The narrowest scope that contains two tiles (scope_of of Table 0.8). -/
def scopeOfTiles (a b : Nat) : Scope :=
  if a = b then .tile else if a / 16 = b / 16 then .field else if sectorOf (a / 16) = sectorOf (b / 16) then .sector
  else .module

end Sys2Proof.Machine
end

