-- ==== Sys2Proof/Machine/Strand.lean ====
section
/-! DEFINITION. Sys2Proof/Machine/Strand.lean: the registers of a strand as its current block sees them: windows (R34), live
masks (R38, R39), hard-wired registers (Table 1.2), the latch (R41, R42), and which operands each instruction reads and
writes. -/

namespace Sys2Proof.Machine

/-- Index in the frames of windowed scalar s(n), n from 8 to 31, under window pointer `c` (R34). -/
def physIdx (c n : Nat) : Fin 128 :=
  if n < 24 then Fin.ofNat 128 (16 * c + (n - 8)) else Fin.ofNat 128 (16 * ((c + 1) % 8) + (n - 24))

/-- LIVES and LIVEV of a header (Table 2.1). -/
def livesOf (h : Word) : BitVec 8 := h.extractLsb' 42 8
def livevOf (h : Word) : BitVec 8 := h.extractLsb' 34 8
def lenOf (h : Word) : Nat := bits h 55 50
def reconOf (h : Word) : Nat := bits h 11 2

/-- s(n) is live in the current block (R38). -/
def Strand.liveS (t : Strand) (n : Nat) : Bool := n < 8 || (livesOf t.header).getLsbD ((n - 8) / 3)

/-- v(n) is live in the current block (R38). -/
def Strand.liveV (t : Strand) (n : Nat) : Bool := (livevOf t.header).getLsbD (n / 4)

/-- A read of a scalar: s0 reads 0 (Table 1.2), a register that is not live reads 0 (R39). -/
def Strand.readS (t : Strand) (n : Fin 32) : Word :=
  if n.val = 0 then 0
  else if n.val < 8 then t.g[n.val % 8]
  else if t.liveS n.val then t.frames[physIdx t.cwp n.val] else 0

/-- A write of a scalar: s0 discards it, a register that is not live discards it (R39). -/
def Strand.writeS (t : Strand) (n : Fin 32) (x : Word) : Strand :=
  if n.val = 0 then t
  else if n.val < 8 then { t with g := t.g.set (n.val % 8) x (Nat.mod_lt _ (by decide)) }
  else if t.liveS n.val then
    { t with frames := t.frames.set (physIdx t.cwp n.val).val x (physIdx t.cwp n.val).isLt } else t

def Strand.readV (t : Strand) (n : Fin 32) : VReg := if t.liveV n.val then t.v[n] else 0

def Strand.writeV (t : Strand) (n : Fin 32) (x : VReg) : Strand :=
  if t.liveV n.val then { t with v := t.v.set n.val x n.isLt } else t

/-- p0 reads all ones (Table 1.2). -/
def Strand.readP (t : Strand) (n : Fin 8) : Word := if n.val = 0 then BitVec.allOnes 64 else t.p[n]

/-- A write to p0 is discarded (Table 1.2). -/
def Strand.writeP (t : Strand) (n : Fin 8) (x : Word) : Strand :=
  if n.val = 0 then t else { t with p := t.p.set n.val x n.isLt }

def Strand.readH (t : Strand) (n : Fin 8) : BitVec 32 := t.h[n]

def Strand.writeH (t : Strand) (n : Fin 8) (x : BitVec 32) : Strand := { t with h := t.h.set n.val x n.isLt }

/-- The latch written with a class (R41). -/
def Strand.setL (t : Strand) (c : LCls) (x : VReg) : Strand := { t with latch := { cls := c, val := x } }

def Strand.latchW (t : Strand) : Word := t.latch.val.setWidth 64

/-- A scalar operand: an s register, or L (R42). -/
def Strand.scalar (t : Strand) : Reg → Word
  | .s n => t.readS n
  | .latch => t.latchW
  | .p n => t.readP n
  | .h n => (t.readH n).setWidth 64
  | .v _ => 0

/-- A vector operand: a v register, or L. -/
def Strand.vector (t : Strand) : Reg → VReg
  | .v n => t.readV n
  | .latch => t.latch.val
  | _ => 0

/-- A predicate operand: a p register, or L. -/
def Strand.pred (t : Strand) : Reg → Word
  | .p n => t.readP n
  | .latch => t.latchW
  | _ => 0

/-- A scalar result to its destination, and to L (R41). -/
def Strand.putS (t : Strand) (d : Reg) (x : Word) : Strand :=
  let t1 := match d with
    | .s n => t.writeS n x
    | _ => t
  t1.setL .scalar (x.setWidth 2048)

/-- A vector result to its destination, and to L (R41). -/
def Strand.putV (t : Strand) (d : Reg) (x : VReg) : Strand :=
  let t1 := match d with
    | .v n => t.writeV n x
    | _ => t
  t1.setL .vector x

/-- A predicate result to its destination, and to L (R41). -/
def Strand.putP (t : Strand) (d : Reg) (x : Word) : Strand :=
  let t1 := match d with
    | .p n => t.writeP n x
    | _ => t
  t1.setL .pred (x.setWidth 2048)

/-- A handle result to its destination, and to L (R41, R44). -/
def Strand.putH (t : Strand) (d : Reg) (x : BitVec 32) : Strand :=
  let t1 := match d with
    | .h n => t.writeH n x
    | _ => t
  t1.setL .handle (x.setWidth 2048)

/-- Prior content of a vector destination (R93): of L when LCLS already holds the class, else 0. -/
def Strand.priorV (t : Strand) (d : Reg) : VReg :=
  match d with
  | .v n => t.readV n
  | .latch => if t.latch.cls = .vector then t.latch.val else 0
  | _ => 0

/-- Prior content of a predicate destination (R89, R93, R109). -/
def Strand.priorP (t : Strand) (d : Reg) : Word :=
  match d with
  | .p n => t.readP n
  | .latch => if t.latch.cls = .pred then t.latchW else 0
  | _ => 0

/-- Prior content of a scalar destination. -/
def Strand.priorS (t : Strand) (d : Reg) : Word :=
  match d with
  | .s n => t.readS n
  | .latch => if t.latch.cls = .scalar then t.latchW else 0
  | _ => 0

/-- A write to FPST (R198). -/
def fpstWrite (old x : Word) : Word :=
  let rm := if bits x 2 0 ≤ 4 then bits x 2 0 else bits old 2 0
  BitVec.ofNat 64 (bits x 12 8 * 256 + bits x 3 3 * 8 + rm)

/-- Bits of RPROG that a layout assigns (Table 12.3). -/
def rprogMask : Word := 0xFFFFFFFFFFFFFFCF

/-- The program counter of a strand (R27). -/
def Strand.pc (t : Strand) : Word := t.hdr + BitVec.ofNat 64 (8 * t.widx)

/-- Supervisor mode (R168). -/
def Strand.sup (t : Strand) : Bool := bit t.hdr 63

/-- cond (R64): bit 0 of the named predicate, inverted when the guard says so. -/
def Strand.cond (t : Strand) (k : Ctl) : Bool := (t.readP k.gp).getLsbD 0 != k.neg

/-- lane_on for every lane (R65). -/
def Strand.lanesOn (t : Strand) (k : Ctl) : Word := if k.neg then ~~~(t.readP k.gp) else t.readP k.gp

/-- What class of register an operand position reads (R63, R96). -/
inductive Need where
  /-- s, or L holding a scalar -/
  | s
  /-- v, or L holding a vector -/
  | v
  /-- p, or L holding a predicate -/
  | p
  | h
  /-- int: a scalar in the scalar shape, a scalar or a vector in the lane-wise shape -/
  | int
  /-- s or pred of PANY, PALL and PCOUNT -/
  | mask
  /-- the source of MOV form R -/
  | mov
  deriving DecidableEq, Repr

def optP (n : Need) : Option Reg → List (Reg × Need)
  | none => []
  | some r => [(r, n)]

/-- The register that an instruction writes, by its description. -/
def dstOf : Instr → Option Reg
  | .addR _ d .. | .addI _ d .. | .sub _ d .. | .mulR _ d .. | .mulI _ d .. | .mulh _ d .. | .mulhu _ d .. => some d
  | .div _ d .. | .divu _ d .. | .rem _ d .. | .remu _ d .. => some d
  | .andR _ d .. | .andI _ d .. | .orR _ d .. | .orI _ d .. | .xorR _ d .. | .xorI _ d .. => some d
  | .andn _ d .. | .orn _ d .. | .xnor _ d .. => some d
  | .shlR _ d .. | .shlI _ d .. | .shrR _ d .. | .shrI _ d .. | .sarR _ d .. | .sarI _ d .. => some d
  | .rotlR _ d .. | .rotlI _ d .. | .clz _ d .. | .ctz _ d .. | .popc _ d .. | .brev _ d .. => some d
  | .minR _ d .. | .minI _ d .. | .maxR _ d .. | .maxI _ d .. => some d
  | .minuR _ d .. | .minuI _ d .. | .maxuR _ d .. | .maxuI _ d .. => some d
  | .abs _ d .. | .addsat _ d .. | .subsat _ d .. | .sext _ d .. | .zext _ d .. => some d
  | .bfx _ d .. | .bfi _ d .. | .movR _ d .. | .movI _ d .. | .sel _ d .. | .cmpR _ d .. | .cmpI _ d .. => some d
  | .scadd _ d .. | .movw _ d .. | .plog _ d .. | .pany _ d .. | .pall _ d .. | .pcount _ d .. => some d
  | .fadd _ d .. | .fsub _ d .. | .fmul _ d .. | .fma _ d .. | .fms _ d .. | .fnma _ d .. | .fnms _ d .. => some d
  | .fdiv _ d .. | .fsqrt _ d .. | .frcp _ d .. | .frsq _ d .. | .fexp2 _ d .. | .flog2 _ d .. | .ftanh _ d .. => some d
  | .fmin _ d .. | .fmax _ d .. | .fabs _ d .. | .fneg _ d .. | .fcpys _ d .. | .fcmp _ d .. | .fclass _ d .. => some d
  | .fcvt _ d .. | .ftoi _ d .. | .itof _ d .. | .fround _ d .. => some d
  | .vbcast _ d .. | .vshuf _ d .. | .vperm _ d .. | .vslide _ d .. | .vextr _ d .. | .vins _ d .. => some d
  | .vred _ d .. | .vscan _ d .. | .vcompress _ d .. | .viota _ d .. | .bquant _ d .. | .bdeq _ d .. => some d
  | .ld _ d .. | .ldx _ d .. | .ldv _ d .. | .ldg _ d .. => some d
  | .aop _ d .. | .acas _ d .. | .afadd _ d .. | .cwait _ d .. | .ctest _ d .. => some d
  | .join _ d | .spawn _ d .. | .send _ d .. => some d
  | .gcreate _ d .. | .gopen _ d .. | .gleave _ d | .gbar _ d .. | .gdrop _ d | .gvote _ d .. | .gred _ d ..
  | .ginfo _ d .. => some d
  | .treq _ d .. | .trel _ d .. | .tlend _ d .. | .tstat _ d .. => some d
  | .spcomp _ d .. | .kvapp _ d .. | .kvlook _ d .. | .ttmask _ d .. | .ttpos _ d .. | .ttprune _ d .. => some d
  | .baddq _ d .. | .gwnext _ d | .mfs _ d .. | .readDroopcntCecnt _ d .. | .tgen _ d .. | .route _ d .. => some d
  | _ => none

/-- The registers that an instruction reads, with the class that each position requires. -/
def srcsOf : Instr → List (Reg × Need)
  | .addR _ _ a b _ | .sub _ _ a b _ | .mulR _ _ a b _ | .mulh _ _ a b _ | .mulhu _ _ a b _ => [(a, .int), (b, .int)]
  | .div _ _ a b _ | .divu _ _ a b _ | .rem _ _ a b _ | .remu _ _ a b _ => [(a, .int), (b, .int)]
  | .andR _ _ a b _ | .orR _ _ a b _ | .xorR _ _ a b _ | .andn _ _ a b _ | .orn _ _ a b _ | .xnor _ _ a b _ =>
    [(a, .int), (b, .int)]
  | .shlR _ _ a b _ | .shrR _ _ a b _ | .sarR _ _ a b _ | .rotlR _ _ a b _ => [(a, .int), (b, .int)]
  | .minR _ _ a b _ | .maxR _ _ a b _ | .minuR _ _ a b _ | .maxuR _ _ a b _ => [(a, .int), (b, .int)]
  | .addsat _ _ a b _ _ | .subsat _ _ a b _ _ | .bfi _ _ a b _ _ _ | .scadd _ _ a b _ _ => [(a, .int), (b, .int)]
  | .addI _ _ a _ | .mulI _ _ a _ | .andI _ _ a _ | .orI _ _ a _ | .xorI _ _ a _ => [(a, .int)]
  | .shlI _ _ a _ | .shrI _ _ a _ | .sarI _ _ a _ | .rotlI _ _ a _ => [(a, .int)]
  | .minI _ _ a _ | .maxI _ _ a _ | .minuI _ _ a _ | .maxuI _ _ a _ => [(a, .int)]
  | .clz _ _ a _ | .ctz _ _ a _ | .popc _ _ a _ | .brev _ _ a _ | .abs _ _ a _ => [(a, .int)]
  | .sext _ _ a _ | .zext _ _ a _ | .bfx _ _ a _ _ _ => [(a, .int)]
  | .movR _ _ a _ => [(a, .mov)]
  | .movw _ d hw _ => if hw.val = 0 then [] else [(d, .int)]
  | .sel _ _ a b c _ => [(a, .int), (b, .int), (c, .p)]
  | .cmpR _ _ a b _ _ => [(a, .int), (b, .int)]
  | .cmpI _ _ a _ _ => [(a, .int)]
  | .plog _ _ a b c _ => optP .p a ++ optP .p b ++ optP .p c
  | .pany _ _ a b | .pall _ _ a b | .pcount _ _ a b => (a, .mask) :: optP .mask b
  | .fadd _ _ a b _ _ | .fsub _ _ a b _ _ | .fmul _ _ a b _ _ | .fdiv _ _ a b _ _ => [(a, .int), (b, .int)]
  | .fma _ _ a b c _ _ | .fms _ _ a b c _ _ | .fnma _ _ a b c _ _ | .fnms _ _ a b c _ _ =>
    [(a, .int), (b, .int), (c, .int)]
  | .fsqrt _ _ a _ _ | .frcp _ _ a _ _ | .fround _ _ a _ _ => [(a, .int)]
  | .frsq _ _ a _ | .fexp2 _ _ a _ | .flog2 _ _ a _ | .ftanh _ _ a _ => [(a, .int)]
  | .fmin _ _ a b _ | .fmax _ _ a b _ | .fcpys _ _ a b _ => [(a, .int), (b, .int)]
  | .fabs _ _ a _ | .fneg _ _ a _ | .fclass _ _ a _ => [(a, .int)]
  | .fcmp _ _ a b _ _ => [(a, .int), (b, .int)]
  | .fcvt _ _ a _ _ _ => [(a, .int)]
  | .ftoi _ _ a _ _ _ _ | .itof _ _ a _ _ _ _ => [(a, .int)]
  | .vbcast _ _ a b _ => [(a, .v), (b, .s)]
  | .vshuf _ _ a sh _ => (a, .v) ::
    match sh with
    | .xor _ => []
    | .ziplo b | .ziphi b | .unze b | .unzo b => [(b, .v)]
  | .vperm _ _ a b c _ => [(a, .v), (b, .v), (c, .v)]
  | .vslide _ _ a b c _ _ => [(a, .v), (b, .v), (c, .s)]
  | .vextr _ _ a b _ _ => [(a, .v), (b, .s)]
  | .vins _ _ a b _ => [(a, .s), (b, .s)]
  | .vred _ _ a _ _ _ | .vscan _ _ a _ _ _ _ | .vcompress _ _ a _ => [(a, .v)]
  | .viota _ _ a _ => optP .p a
  | .bquant _ _ a _ _ | .bdeq _ _ a _ _ _ => [(a, .v)]
  | .ld _ _ a _ _ _ _ => [(a, .s)]
  | .ldx _ _ a b _ _ _ _ => [(a, .s), (b, .s)]
  | .st _ d a _ _ _ => [(d, .s), (a, .s)]
  | .ldv _ _ a _ _ _ => [(a, .s)]
  | .stv _ d a _ _ => [(d, .v), (a, .s)]
  | .ldg _ _ a b _ _ _ => [(a, .s), (b, .v)]
  | .stsc _ a b c _ _ => [(a, .s), (b, .v), (c, .v)]
  | .pref _ a _ _ => [(a, .s)]
  | .aop _ _ a b _ _ _ _ _ => [(a, .s), (b, .s)]
  | .acas _ _ a b c _ _ _ _ => [(a, .s), (b, .s), (c, .s)]
  | .afadd _ _ a b _ _ _ => [(a, .s), (b, .s)]
  | .cadd _ a b _ => [(a, .s), (b, .s)]
  | .cwait _ _ a b _ => [(a, .s), (b, .s)]
  | .ctest _ _ a b _ _ => [(a, .s), (b, .s)]
  | .spawn _ _ a b c | .send _ _ a b c _ => [(a, .s), (b, .s), (c, .s)]
  | .gcreate _ _ a b | .gopen _ _ a b => [(a, .s), (b, .s)]
  | .gleave _ d | .gdrop _ d => [(d, .h)]
  | .gbar _ _ a _ => [(a, .h)]
  | .garrive _ a => [(a, .h)]
  | .gvote _ _ a b => [(a, .h), (b, .p)]
  | .gred _ _ a b _ => [(a, .h), (b, .s)]
  | .ginfo _ _ a _ => [(a, .h)]
  | .treq _ _ a _ | .trel _ _ a => [(a, .s)]
  | .tlend _ _ a b => [(a, .s), (b, .s)]
  | .tdef _ t b | .tget _ t b =>
    match t with
    | .lit _ => [(b, .s)]
    | .reg r => [(r, .s), (b, .s)]
  | .tdrop _ t =>
    match t with
    | .lit _ => []
    | .reg r => [(r, .s)]
  | .copy _ a _ => [(a, .s)]
  | .copys _ a b c _ => [(a, .s), (b, .s), (c, .s)]
  | .mm _ a _ _ _ | .mmdist _ a _ _ _ => [(a, .s)]
  | .mmtopk _ a b _ _ _ => [(a, .s), (b, .s)]
  | .spmm _ a b _ _ _ => [(a, .s), (b, .v)]
  | .attn _ d a b _ _ _ => [(d, .s), (a, .s), (b, .s)]
  | .attmerge _ a b _ _ => [(a, .s), (b, .s)]
  | .kvlook _ _ a b _ _ => [(a, .s), (b, .s)]
  | .ttset _ a _ => [(a, .s)]
  | .ttmask _ _ a | .ttpos _ _ a _ | .ttprune _ _ a _ _ => [(a, .s)]
  | .vemap _ a b _ | .vezip _ a b _ _ | .vered _ a b _ _ | .venorm _ a b _ _ _ | .vesoft _ a b _ => [(a, .s), (b, .s)]
  | .vecvt _ a _ _ => [(a, .s)]
  | .baddq _ _ a _ _ _ => [(a, .s)]
  | .mts _ _ a | .writeClass _ a | .writeFpst _ a | .writeRsp _ a | .writeStatus _ a | .writeDroopth _ a
  | .writeCpwt _ a => [(a, .s)]
  | .rft _ a b => [(a, .s), (b, .s)]
  | .tgen _ _ a b => [(a, .s), (b, .s)]
  | .cinvLine _ a | .cinvRdc _ a | .scrub _ a => [(a, .s)]
  | .route _ _ a _ => [(a, .s)]
  | _ => []

/-- Every register that an instruction's operand fields name. -/
def regsOf (i : Instr) : List Reg := (dstOf i).toList ++ (srcsOf i).map (·.1)

/-- The word is lane-wise (R63, R88), under the class of the latch. Meant for the instructions that have both shapes. The
row of a MOV to L is chosen by its source (R109). -/
def isLane (lc : LCls) (i : Instr) : Bool :=
  match i with
  | .movR _ d a _ => movW64 lc d a
  | _ => laneOf lc ((dstOf i).toList ++ (srcsOf i).map (·.1))

/-- A MOV of the predicate-lane shape (Table 3.5): to a predicate, or of a predicate to L. -/
def movPred (lc : LCls) (d a : Reg) : Bool :=
  match d with
  | .p _ => true
  | .latch => a.isP || (a.isL && lc == .pred)
  | _ => false

/-- A source of code 80 finds its class in the latch (R42, rank 8 of Table 2.7). -/
def latchOk (lc : LCls) (i : Instr) : Bool :=
  (srcsOf i).all fun (r, n) =>
    match r with
    | .latch =>
      match n with
      | .s => lc = .scalar
      | .v => lc = .vector
      | .p => lc = .pred
      | .h => false
      | .int => lc = .scalar || lc = .vector
      | .mask => lc = .scalar || lc = .pred
      | .mov =>
        match dstOf i with
        | some (.s _) => lc = .scalar || lc = .pred
        | some (.v _) => lc = .scalar || lc = .vector
        | some (.p _) => lc = .scalar || lc = .pred
        | _ => lc != .empty
    | _ => true

end Sys2Proof.Machine
end

