-- ==== Sys2Proof/Machine/Kind.lean ====
section
/-! DEFINITION. Sys2Proof/Machine/Kind.lean: the groups of instructions that the rules of issue name: the side that carries a
word out (R216), what may issue in a lookahead window (R75), what acts beyond the strand (R221), the guard (R64, R65), the
supervisor words and the engines (R80, Table 2.8). -/

namespace Sys2Proof.Machine

/-- Groups of instruction words. -/
inductive Kind where
  /-- opcodes 0x00 to 0x58: instructions with a scalar and a lane-wise shape -/
  | alu
  /-- PLOG, PANY, PALL and PCOUNT -/
  | pred
  /-- opcodes 0x74 to 0x7D -/
  | lane
  /-- BQUANT and BDEQ -/
  | block
  | loadS | storeS | loadV | storeV | pref
  /-- a word whose effect another agent can observe -/
  | far
  /-- engine instructions -/
  | engine
  | mfs | nop
  /-- an unassigned opcode -/
  | none
  /-- an act of the machine -/
  | act
  deriving DecidableEq, Repr

def kindOf : Instr → Kind
  | .addR .. | .addI .. | .sub .. | .mulR .. | .mulI .. | .mulh .. | .mulhu .. | .div .. | .divu .. | .rem .. | .remu .. => .alu
  | .andR .. | .andI .. | .orR .. | .orI .. | .xorR .. | .xorI .. | .andn .. | .orn .. | .xnor .. => .alu
  | .shlR .. | .shlI .. | .shrR .. | .shrI .. | .sarR .. | .sarI .. | .rotlR .. | .rotlI .. => .alu
  | .clz .. | .ctz .. | .popc .. | .brev .. | .minR .. | .minI .. | .maxR .. | .maxI .. => .alu
  | .minuR .. | .minuI .. | .maxuR .. | .maxuI .. | .abs .. | .addsat .. | .subsat .. | .sext .. | .zext .. => .alu
  | .bfx .. | .bfi .. | .movR .. | .movI .. | .sel .. | .cmpR .. | .cmpI .. | .scadd .. | .movw .. => .alu
  | .plog .. | .pany .. | .pall .. | .pcount .. => .pred
  | .fadd .. | .fsub .. | .fmul .. | .fma .. | .fms .. | .fnma .. | .fnms .. | .fdiv .. | .fsqrt .. | .frcp .. => .alu
  | .frsq .. | .fexp2 .. | .flog2 .. | .ftanh .. | .fmin .. | .fmax .. | .fabs .. | .fneg .. | .fcpys .. => .alu
  | .fcmp .. | .fclass .. | .fcvt .. | .ftoi .. | .itof .. | .fround .. => .alu
  | .vbcast .. | .vshuf .. | .vperm .. | .vslide .. | .vextr .. | .vins .. | .vred .. | .vscan .. | .vcompress ..
  | .viota .. => .lane
  | .bquant .. | .bdeq .. => .block
  | .ld .. | .ldx .. => .loadS
  | .st .. => .storeS
  | .ldv .. | .ldg .. => .loadV
  | .stv .. | .stsc .. => .storeV
  | .pref .. => .pref
  | .aop .. | .acas .. | .afadd .. | .cadd .. | .cwait .. | .ctest .. | .fence .. => .far
  | .split .. | .join .. | .spawn .. | .yieldOp .. | .endOp .. | .send .. => .far
  | .gcreate .. | .gopen .. | .gleave .. | .gbar .. | .garrive .. | .gdrop .. | .gvote .. | .gred .. | .ginfo .. => .far
  | .treq .. | .trel .. | .tlend .. | .tstat .. | .tdef .. | .tget .. | .tdrop .. | .copy .. | .copys .. => .far
  | .mm .. | .mmdist .. | .mmtopk .. | .spcomp .. | .spmm .. => .engine
  | .attn .. | .attmerge .. | .kvapp .. | .kvlook .. | .ttset .. | .ttmask .. | .ttpos .. | .ttprune .. | .ttclr .. => .engine
  | .vemap .. | .vezip .. | .vered .. | .venorm .. | .vesoft .. | .vecvt .. | .baddq .. | .gwnext .. => .engine
  | .mfs .. | .readDroopcntCecnt .. => .mfs
  | .mts .. | .writeClass .. | .writeFpst .. | .writeRsp .. | .writeStatus .. | .writeDroopth .. | .writeCpwt .. => .far
  | .trap .. | .brk .. | .rft .. | .halt .. => .far
  | .nop .. => .nop
  | .tgen .. | .cinvCode .. | .cinvLine .. | .cinvRdc .. | .scrub .. | .route .. => .far
  | .unassignedOpcode .. => .none
  | _ => .act

/-- The words that may issue in a lookahead window before its instruction has completed (R75). -/
def Kind.windowOk : Kind → Bool
  | .alu | .pred | .lane | .block | .loadS | .loadV | .pref => true
  | _ => false

/-- The words that access memory for the strand, as an outstanding instruction. -/
def Kind.accesses : Kind → Bool
  | .loadS | .loadV | .far | .engine => true
  | _ => false

/-- The words that wait until the slot's vector side has started every earlier instruction: those that act beyond the strand
(R221), and loads, which wait for the vector side's accesses (R220). -/
def Kind.afterVector : Kind → Bool
  | .loadS | .storeS | .loadV | .storeV | .far | .engine => true
  | _ => false

/-- The word is carried out by the vector side (R216). -/
def vectorSide (lc : LCls) (i : Instr) : Bool :=
  match kindOf i with
  | .alu => isLane lc i
  | .lane | .block | .loadV | .storeV => true
  | _ => false

/-- The operation is guarded lane by lane (R65, R89) and not by cond (R64, R237, R246). -/
def laneGuarded (lc : LCls) (i : Instr) : Bool :=
  match i with
  | .vextr .. => false
  | .plog .. => true
  | .movR _ d a _ => movPred lc d a || isLane lc i
  | _ =>
    match kindOf i with
    | .alu => isLane lc i
    | .lane | .loadV | .storeV => true
    | _ => false

/-- The register whose value returns from the vector side to the scalar side (R218). -/
def returnOf (lc : LCls) (i : Instr) : Option Reg :=
  if vectorSide lc i then
    match dstOf i with
    | some (.s n) => some (.s n)
    | some (.p n) => some (.p n)
    | some .latch =>
      match i with
      | .cmpR .. | .cmpI .. | .fcmp .. | .vextr .. | .vred .. => some .latch
      | _ => none
    | _ => none
  else none

/-- The supervisor opcodes: S in Table 2.8. -/
def supervisorOnly : Instr → Bool
  | .rft .. | .halt .. | .tgen .. | .scrub .. | .route .. => true
  | _ => false

/-- Numbers of the special registers (Tables 1.5, 6.1, 9.3, 11.6, 12.5, 15.2, 16.1, 18.4, 18.11, 19.9). -/
def specialAssigned (n : Nat) : Bool :=
  n ≤ 0x00C || n = 0x010 || (0x100 ≤ n && n ≤ 0x108) || n = 0x200 || n = 0x201 || (0x300 ≤ n && n ≤ 0x306) ||
  (0x308 ≤ n && n ≤ 0x30F)

/-- Registers that MTS may write. -/
def specialWritable (n : Nat) : Bool := n ≤ 0x004 || n = 0x007 || (0x009 ≤ n && n ≤ 0x00B) || n = 0x104 || n = 0x107

/-- Registers that only the supervisor may read. -/
def specialSup (n : Nat) : Bool :=
  n = 0x010 || n = 0x103 || n = 0x104 || n = 0x107 || n = 0x108 || n = 0x201 || n = 0x300 || (0x302 ≤ n && n ≤ 0x30F)

/-- Registers that only the supervisor may write. -/
def specialWriteSup (n : Nat) : Bool := (0x001 ≤ n && n ≤ 0x003) || n = 0x00A || n = 0x104 || n = 0x107

/-- The word names a special register that is not assigned, or writes one that is read-only: an encoding fault, which the
guard does not avoid (R48). -/
def badSpecial : Instr → Bool
  | .mfs _ _ n => !specialAssigned n.toNat
  | .mts _ n _ => !specialWritable n.toNat
  | _ => false

/-- The kind of tile that carries an engine or gateway instruction out (R80). -/
def engineOf : Instr → Option TileKind
  | .mm .. | .mmdist .. | .mmtopk .. => some .dense
  | .spcomp .. | .spmm .. => some .sparse
  | .attn .. | .attmerge .. | .kvapp .. | .kvlook .. | .ttset .. | .ttmask .. | .ttpos .. | .ttprune .. | .ttclr .. =>
    some .attention
  | .vemap .. | .vezip .. | .vered .. | .venorm .. | .vesoft .. | .vecvt .. => some .vectorHeavy
  | .baddq .. | .gwnext .. => some .gateway
  | _ => none

/-- A word of the vector side has elements of 64 bits, in lane pairs (R91, R223, R233, R235). -/
def wideElems : Instr → Bool
  | .addR _ _ _ _ m | .sub _ _ _ _ m | .mulR _ _ _ _ m | .mulh _ _ _ _ m | .mulhu _ _ _ _ m => m.w = .b64
  | .div _ _ _ _ m | .divu _ _ _ _ m | .rem _ _ _ _ m | .remu _ _ _ _ m => m.w = .b64
  | .andR _ _ _ _ m | .orR _ _ _ _ m | .xorR _ _ _ _ m | .andn _ _ _ _ m | .orn _ _ _ _ m | .xnor _ _ _ _ m => m.w = .b64
  | .shlR _ _ _ _ m | .shrR _ _ _ _ m | .sarR _ _ _ _ m | .rotlR _ _ _ _ m => m.w = .b64
  | .minR _ _ _ _ m | .maxR _ _ _ _ m | .minuR _ _ _ _ m | .maxuR _ _ _ _ m => m.w = .b64
  | .addsat _ _ _ _ m _ | .subsat _ _ _ _ m _ | .bfi _ _ _ _ m _ _ | .scadd _ _ _ _ m _ | .sel _ _ _ _ _ m => m.w = .b64
  | .clz _ _ _ m | .ctz _ _ _ m | .popc _ _ _ m | .brev _ _ _ m | .abs _ _ _ m | .bfx _ _ _ m _ _ => m.w = .b64
  | .sext _ _ _ w | .zext _ _ _ w | .cmpR _ _ _ _ w _ => w = .b64
  | .movR _ _ _ w64 | .vbcast _ _ _ _ w64 | .vshuf _ _ _ _ w64 | .vperm _ _ _ _ _ w64 | .vslide _ _ _ _ _ _ w64 => w64
  | .vextr _ _ _ _ _ w64 | .vins _ _ _ _ w64 | .vcompress _ _ _ w64 | .viota _ _ _ w64 => w64
  | .fadd _ _ _ _ _ f | .fsub _ _ _ _ _ f | .fmul _ _ _ _ _ f | .fdiv _ _ _ _ _ f => f = some .fp64
  | .fma _ _ _ _ _ _ f | .fms _ _ _ _ _ _ f | .fnma _ _ _ _ _ _ f | .fnms _ _ _ _ _ _ f => f = some .fp64
  | .fsqrt _ _ _ _ f | .frcp _ _ _ _ f | .fround _ _ _ _ f => f = some .fp64
  | .frsq _ _ _ f | .fexp2 _ _ _ f | .flog2 _ _ _ f | .ftanh _ _ _ f | .fabs _ _ _ f | .fneg _ _ _ f | .fclass _ _ _ f =>
    f = some .fp64
  | .fmin _ _ _ _ f | .fmax _ _ _ _ f | .fcpys _ _ _ _ f | .fcmp _ _ _ _ f _ => f = some .fp64
  | .fcvt _ _ _ _ f g => f = some .fp64 || g = some .fp64
  | .ftoi _ _ _ _ f iw _ | .itof _ _ _ _ f iw _ => f = some .fp64 || iw = .b64
  | .vred _ _ _ _ _ m => m.w = .b64
  | .vscan _ _ _ _ _ _ w => w = .b64
  | .ldv _ _ _ _ sz _ | .stv _ _ _ _ sz | .ldg _ _ _ _ _ sz _ | .stsc _ _ _ _ _ sz => sz = .d
  | _ => false

/-- The scalar side writes a predicate, which travels to the vector side through the forward queue (R219). -/
def scalarPred (lc : LCls) (i : Instr) : Option (Fin 8) :=
  match dstOf i with
  | some (.p n) => if vectorSide lc i || n.val = 0 then none else some n
  | _ => none

/-- Cycles for which a division keeps its divider (Table 3.7). -/
def divTime (lane : Bool) (w : Width) : Nat :=
  match w, lane with
  | .b8, false => 6
  | .b16, false | .b8, true => 10
  | .b32, false | .b16, true => 18
  | .b64, false | .full, false => 34
  | .b32, true | .full, true => 34
  | .b64, true => 66

/-- Cycles for which FDIV and FSQRT keep their unit (Table 8.8). -/
def sqrtTime (lane : Bool) (ft : Option FpFmt) : Nat :=
  let wide := ft = some .fp64 || (ft = none && !lane)
  if lane then (if wide then 32 else 8) else if wide then 8 else 4

/-- The divider or divide-and-square-root unit that a word needs, as its place in `Core.unitFree`, and the cycles for which it
keeps it (R115, R247). -/
def unitOf (lc : LCls) (i : Instr) : Option (Fin 4 × Nat) :=
  let lane := isLane lc i
  match i with
  | .div _ _ _ _ m | .divu _ _ _ _ m | .rem _ _ _ _ m | .remu _ _ _ _ m => some (if lane then 2 else 0, divTime lane m.w)
  | .fdiv _ _ _ _ _ ft | .fsqrt _ _ _ _ ft => some (if lane then 3 else 1, sqrtTime lane ft)
  | _ => none

/-- Registers that sequencing reads (R67). -/
def seqRegs : Seq → List Reg
  | .loop => [.s 6]
  | .callBt | .goBt => [.s 7]
  | .ret => [.s 15]
  | _ => []

/-- A SEQ code whose sequencing can fault or suspend, 4 to 7 (R67). -/
def lateSeq : Seq → Bool
  | .callT0 | .callBt | .goBt | .ret => true
  | _ => false

/-- HALT, which halts before it sequences (R180, R181). -/
def isHalt : Instr → Bool
  | .halt .. => true
  | _ => false

/-- A SEQ code that moves the register window. -/
def movesWindow : Seq → Bool
  | .callT0 | .callBt | .ret => true
  | _ => false

/-- The predicate that a guard names; p0 is not counted, because it is a constant. -/
def guardReg (k : Ctl) : List Reg := if k.gp.val = 0 then [] else [.p k.gp]

/-- The register has a content that a write changes: not s0, not p0 (Table 1.2). -/
def writable : Reg → Bool
  | .s n => n.val != 0
  | .p n => n.val != 0
  | _ => true

end Sys2Proof.Machine
end

