-- ==== Sys2Proof/Machine/Arena.lean ====
section
/-! DEFINITION. Sys2Proof/Machine/Arena.lean: the save arena (R399 to R401): extents, save frames, message buffers,
overflow records, and its counters. -/

namespace Sys2Proof.Machine

/-- Bytes of a save frame (R50) and of a message buffer (R287). -/
def frameBytes : Nat := 9216
def messageBytes : Nat := 512

/-- Bytes of the arena header (Table 15.7). -/
def arenaHeader : Nat := 64

/-- The first extent that holds `n` bytes at a multiple of `al`: the address, and the extents that remain (log 17). -/
def takeExtent (n al : Nat) : List (Word × Nat) → Option (Word × List (Word × Nat))
  | [] => none
  | (a, sz) :: t =>
    let st := (a.toNat + al - 1) / al * al
    let skip := st - a.toNat
    if skip + n ≤ sz then
      let before := if skip = 0 then [] else [(a, skip)]
      let after := if skip + n = sz then [] else [(BitVec.ofNat 64 (st + n), sz - skip - n)]
      some (BitVec.ofNat 64 st, before ++ after ++ t)
    else
      match takeExtent n al t with
      | some (r, t') => some (r, (a, sz) :: t')
      | none => none

/-- An extent given back, put in order of address and joined with its neighbours. -/
def giveExtent (a : Word) (n : Nat) : List (Word × Nat) → List (Word × Nat)
  | [] => [(a, n)]
  | (b, m) :: t =>
    if a.toNat + n = b.toNat then (a, n + m) :: t
    else if b.toNat + m = a.toNat then
      match t with
      | (c, k) :: u => if a.toNat + n = c.toNat then (b, m + n + k) :: u else (b, m + n) :: (c, k) :: u
      | [] => [(b, m + n)]
    else if a.toNat < b.toNat then (a, n) :: (b, m) :: t
    else (b, m) :: giveExtent a n t

/-- Bytes free in an arena. -/
def freeBytes (l : List (Word × Nat)) : Nat := (l.map (·.2)).sum

/-- FREE of the arena header written (Table 15.7). -/
def State.noteFree (s : State) (part : Nat) : State :=
  match tget s.parts part with
  | none => s
  | some p => s.setPinDw p p.arena 0x08 (BitVec.ofNat 64 (freeBytes p.free))

/-- An allocation of `n` bytes. Only save frames and resume records go below the low-water mark (R289, R400). -/
def State.allocArena (s : State) (part n al : Nat) (low : Bool) : Option (State × Word) :=
  match tget s.parts part with
  | none => none
  | some p =>
    let lwm := if low then 0 else (s.pinDw p p.arena 0x10).toNat
    if freeBytes p.free < lwm + n then none
    else
      match takeExtent n al p.free with
      | none => none
      | some (a, rest) => some ((s.setPart part { p with free := rest }).noteFree part, a)

/-- SPAWNs and SENDs that wait for a buffer or for space may go on (R289). -/
def State.creationTurns (s : State) : State :=
  s.postAll ((s.slots.filter fun e => e.2.hold = some .creation).map fun e => .strandCreationContinue e.1)

/-- Space given back. A stalled save takes a freed frame first (R400), and creations that wait for space continue (R289). -/
def State.freeArena (s : State) (part : Nat) (a : Word) (n : Nat) : State :=
  match tget s.parts part with
  | none => s
  | some p =>
    let s1 := (s.setPart part { p with free := giveExtent a n p.free }).noteFree part
    let s2 := if p.stalled.isEmpty then s1 else s1.postOnce (.stalledSaveResume part)
    s2.creationTurns

/-- An addition to a counter of the arena header. -/
def State.bumpArena (s : State) (part o : Nat) : State :=
  match tget s.parts part with
  | none => s
  | some p =>
    match pinPa p p.arena with
    | some a => s.counterAdd (a + o) 1
    | none => s

/-- Bytes written at a pinned place of the arena. -/
def State.arenaPut (s : State) (part : Nat) (va : Word) (bs : List Byte) : State :=
  match tget s.parts part with
  | none => s
  | some p =>
    match pinPa p va with
    | some a => s.slicePut a bs
    | none => s

/-- Physical place of a pinned address of the arena. -/
def State.arenaPa (s : State) (part : Nat) (va : Word) : Option Nat :=
  match tget s.parts part with
  | none => none
  | some p => pinPa p va

end Sys2Proof.Machine
end

