-- ==== Sys2Proof/Machine/Stream.lean ====
section
/-! DEFINITION. Sys2Proof/Machine/Stream.lean: the Mandrel's streams (R272 to R282): members, path, lead, drift, divergence
and the detached sets. -/

namespace Sys2Proof.Machine

/-- Words that the lead may run ahead of the slowest member (R275), members of a stream (R272), entries of a detached set
(R280). -/
def driftDepth : Nat := 32
def streamSize : Nat := 16
def detachedSize : Nat := 32

/-- The number of the stream of a tile of which slot `k` is a member. -/
def Tile.streamOf (t : Tile) (k : Nat) : Option Nat := t.streams.findIdx? fun x => x.members.contains k

/-- The frontier: the greatest position that any member has reached (R273). -/
def Stream.frontier (x : Stream) : Nat := x.base + x.path.length

/-- The lead: the member on the lowest core (R274). A core has at most one member, so it is the lowest slot number. -/
def Stream.lead (x : Stream) : Option Nat := x.members.min?

/-- Position of the slot's strand in its stream's path (R273). -/
def State.posOf (s : State) (k : Nat) : Nat :=
  match tget s.slots k with
  | some sl => sl.pos
  | none => 0

/-- Position of the slowest member. -/
def State.slowest (s : State) (x : Stream) : Nat := ((x.members.map s.posOf).min?).getD x.frontier

/-- The first path word that a slot may still need: a discard or a rewind takes its strand back to the oldest word that has
not started or not completed (R221, R77). -/
def Slot.keepPos (sl : Slot) : Nat := (sl.fwd.map (·.pos) ++ sl.flight.map (·.pos)).foldl min sl.pos

/-- The path without the words that no member can need any more. -/
def State.trim (s : State) (x : Stream) : Stream :=
  let m := ((x.members.filterMap fun k => (tget s.slots k).map Slot.keepPos).min?).getD x.frontier
  { x with path := x.path.drop (m - x.base), base := max x.base m }

def Tile.setStream (t : Tile) (i : Nat) (x : Stream) : Tile := { t with streams := t.streams.set i x }

/-- The strand of slot `k` leaves its stream (R274). A stream without members is free, and its detached set goes with it
(R272). A wait at a JOIN is the lead's (R281): it ends here only when the lead leaves. What an unbound strand that waits there gets
then the spec does not say: its JOIN runs again, DESIGN CHOICE (log 41). -/
def State.leaveStream (s : State) (k : Nat) : State :=
  s.modTile (tileOfSlot k) fun t =>
    match t.streamOf k with
    | none => t
    | some i =>
      match t.streams[i]? with
      | none => t
      | some x =>
        let ms := ldel x.members k
        let joining := if x.lead = some k then none else x.joining
        t.setStream i (if ms.isEmpty then {} else s.trim { x with members := ms, joining := joining })

/-- The entries of a strand taken out of the detached sets of a tile (R280). -/
def State.dropEntry (s : State) (tile u : Nat) : State :=
  s.modTile tile fun t =>
    { t with streams := t.streams.map fun x => { x with detached := x.detached.filter fun e => e.1 != u } }

/-- A slot may issue the next instruction word as far as its stream is concerned (R274, R275, R277). -/
def State.mayIssue (s : State) (k : Nat) : Bool :=
  let t := s.tile (tileOfSlot k)
  match t.streamOf k with
  | none => true
  | some i =>
    match t.streams[i]? with
    | none => true
    | some x =>
      let pos := s.posOf k
      if x.gather.isSome then false
      else if pos < x.frontier then true
      else x.lead = some k && x.frontier + 1 - s.slowest x ≤ driftDepth

/-- The path word that a member below the frontier executes next. -/
def State.pathWord (s : State) (k : Nat) : Option PathWord :=
  let t := s.tile (tileOfSlot k)
  match t.streamOf k with
  | none => none
  | some i =>
    match t.streams[i]? with
    | none => none
    | some x => x.path[s.posOf k - x.base]?

/-- The strand detaches (R279, R284): it leaves its stream, and an entry is added when its block has a reconvergence point
and the set has room (R280). `h` is the header word of the block at address `a`. -/
def State.detach (s : State) (k u : Nat) (a h : Word) : State :=
  let tile := tileOfSlot k
  let i := (s.tile tile).streamOf k
  let s1 := (s.leaveStream k).modStrand u fun t => { t with fmode := .detached }
  match i with
  | none => s1
  | some i =>
    if reconOf h = 0 then s1
    else
      s1.modTile tile fun t =>
        match t.streams[i]? with
        | none => t
        | some x =>
          if x.members.isEmpty || detachedSize ≤ x.detached.length then t
          else t.setStream i { x with detached := x.detached ++ [(u, a + BitVec.ofNat 64 (8 * reconOf h))] }

/-- The word at which slot `k` stood has passed, and the strand now stands at `hdr`, `widx`: the lead extends the path, a
member below the frontier compares its outcome and detaches when it differs (R274, R279). `a` and `h` are the address and
the word of the header of the block in which the word stood; `taken` says that the word took a transfer, which "next word" is
not, even where it leads to the same header (R273). -/
def State.passedWord (s : State) (k u : Nat) (w a h hdr : Word) (widx : Nat) (taken : Bool) : State :=
  let tile := tileOfSlot k
  match (s.tile tile).streamOf k with
  | none => s
  | some i =>
    match (s.tile tile).streams[i]? with
    | none => s
    | some x =>
      let pos := s.posOf k
      let s1 := s.modSlot k fun sl => { sl with pos := pos + 1 }
      match x.path[pos - x.base]? with
      | none =>
        let x' := { x with path := x.path ++ [{ word := w, taken := taken, hdr := hdr, widx := widx }] }
        s1.modTile tile fun t => t.setStream i (s1.trim x')
      | some q =>
        if q.taken = taken && q.hdr = hdr && q.widx = widx then s1.modTile tile fun t => t.setStream i (s1.trim x)
        else s1.detach k u a h

/-! ### What a slot takes back (R77, R221) -/

/-- The strand as it was, at the place where it is and with the scheduler's view of it. -/
def Strand.backTo (t before : Strand) : Strand :=
  { before with
    place := t.place, prio := t.prio, base := t.base, lift := t.lift, aged := t.aged, fmode := t.fmode, stream := t.stream
    since := t.since, area := t.area }

/-- What a slot has issued and its vector side has not started is discarded (R221): the strand stands where it stood before
the first such instruction, with the long-latency instructions that were outstanding then. -/
def State.discard (s : State) (k : Nat) : State :=
  match tget s.slots k with
  | none => s
  | some sl =>
    match sl.fwd.filter (!·.done) with
    | [] => s
    | f :: _ =>
      let s1 := s.modStrand sl.uid fun t => t.backTo f.before
      s1.setSlot k
        { sl with fwd := sl.fwd.filter (·.done), windows := f.windows, pos := f.pos, turned := false, stalled := false, stack := none,
                  await := if sl.fwd.any (fun x => sl.await = some x.n) then none else sl.await,
                  flight := sl.flight.filterMap fun x =>
                    (f.ahead.find? fun a => a.n = x.n).map fun a => { x with left := a.left, wroteL := a.wroteL }
                  buf := if sl.fwd.any (·.store) then sl.buf.dropLast else sl.buf }

end Sys2Proof.Machine
end

