-- ==== Sys2Proof/Machine/Suspend.lean ====
section
/-! DEFINITION. Sys2Proof/Machine/Suspend.lean: a fault of a strand (R171, R184), the suspension of a strand (R186), the
fault descriptor and the fault list (R396, R397), and the tier miss (R472, R473, R477). -/

namespace Sys2Proof.Machine

/-- An addition to a pinned counter at its home slice, a release at .system. -/
def State.bumpPin (s : State) (p : Partition) (va d : Word) : State :=
  match pinPa p va with
  | some a => s.counterAdd a d
  | none => s

/-- Dwords written at a pinned place. -/
def State.putPins (s : State) (p : Partition) (va : Word) : List Word → State
  | [] => s
  | w :: t => (s.setPinDw p va 0 w).putPins p (va + 8) t

/-- Entries of a fault ring and of a promotion ring (R396, R479). -/
def ringEntries : Nat := 256

/-- Fault descriptors that wait, written while the ring has room (R396). -/
def State.flushDescs (s : State) (p : Partition) (f : Nat) : List (List Word) → State
  | [] => s.modField f fun x => { x with descs := [] }
  | d :: t =>
    let fcb := p.fcb f
    let tail := s.pinDw p fcb 0x10
    if (tail - s.pinDw p fcb 0x18).toNat < ringEntries then
      let s1 := s.putPins p (s.pinDw p fcb 0x08 + BitVec.ofNat 64 (32 * (tail.toNat % ringEntries))) d
      (s1.bumpPin p (fcb + 0x10) 1).flushDescs p f t
    else s.modField f fun x => { x with descs := d :: t }

/-- A fault descriptor of Table 15.6, written in its turn. -/
def State.postDesc (s : State) (f : Nat) (d : List Word) : State :=
  match s.partOfField f with
  | none => s
  | some (_, p) => s.flushDescs p f ((s.field f).descs ++ [d])

/-- INFO of a fault descriptor (Table 15.6). -/
def descInfo (ctx agent : Nat) (malformed : Bool) (acc : Acc) (pcoord : Word) : Word :=
  BitVec.ofNat 64 (ctx * 2 ^ 48 + agent * 2 ^ 35 + (if malformed then 2 ^ 34 else 0) + acc.num * 2 ^ 32 + bits pcoord 18 0)

/-- The lists of a field that lie in the save arena: its 16 overflow sub-lists and its fault list (R140, R397, R399). -/
def Field.arenaLists (x : Field) : List (List Nat) := x.overflow.map (fun l => l.map (·.uid)) ++ [strandsOf (x.faults.map (·.who))]

/-- Bytes of the arena that the heads of a field's lists take: a dword for each (log 63). -/
def listBytes : Nat := 192

/-- The first record of a list that lies in memory; 0 for none. -/
def State.listHead (s : State) (l : List Nat) : Word := (l.filterMap fun v => (tget s.strands v).bind Strand.recordVa).head?.getD 0

/-- The lists of a field brought up to date in memory: the LINKs of their records, and their heads at their place in the arena, which
the first record takes (log 63). -/
def State.putLists (s : State) (f : Nat) : State :=
  let ls := (s.field f).arenaLists
  let s1 := ls.foldl State.relink s
  let bs := (ls.map s1.listHead).flatMap fun w => bytesOf 8 w.toNat
  match s1.partOfField f with
  | none => s1
  | some (n, p) =>
    match tget p.lists f with
    | some a => s1.arenaPut n a bs
    | none =>
      if bs.all (· = 0) then s1
      else
        match s1.allocArena n listBytes 64 false with
        | some (s2, a) => (s2.modPart n fun x => { x with lists := tput x.lists f a }).arenaPut n a bs
        | none => s1

/-- The lists of the fields in which a strand stood at state `s0` brought up to date. -/
def State.relist (s s0 : State) (u : Nat) : State :=
  (s0.fields.filter fun e => e.2.arenaLists.any (·.contains u)).foldl (fun x e => x.putLists e.1) s

/-- A waiter linked onto the fault list of a field, with its descriptor (R396, R397). -/
def State.linkFault (s : State) (f : Nat) (w : FaultWait) (d : List Word) : State :=
  (s.modField f fun x => { x with faults := x.faults ++ [w] }).postDesc f d

/-- Bank of a core's registers that Assay tests (R258): the sets of its L1 data cache come before, then one bank for each slot. -/
def registerBank (k : Nat) : Nat := 1024 + k % 4

/-- The part of memory that holds an address, or the page-table entry that is lost on the way to it. -/
def State.memPart (s : State) (p : Partition) (ctx : Nat) (va : Word) : Option AssayPart :=
  match s.resolve p false va with
  | .ok (.pad key) => partOfPa key
  | .ok (.page f) =>
    match s.walk p f ctx va with
    | .leaf e big _ => partOfPa (leafPa e big va)
    | .lost pa => partOfPa pa
    | _ => none
  | .error _ => none

/-- The part on which an uncorrectable error was met (R258, R296, R380): a register bank, the L1 set that holds a bad line of the
address, a scratchpad bank, the set of a home slice; none where no such part holds it. -/
def State.assayPart (s : State) (p : Partition) (k ctx : Nat) (c : FaultCode) (va : Word) : Option AssayPart :=
  let core := coreOfSlot k
  if c = .savelost then (pinPa p va).bind partOfPa
  else if ((tget s.slots k).map (·.badReg)).getD false && va = 0 then some (.coreBank core (registerBank k))
  else if (s.core core).l1.any fun l => l.va = lineVa va && l.bad != 0 then some (.coreBank core (l1Set va))
  else
    s.memPart p ctx va

/-- Dirty words of the line of an address that a load has found uncorrectable: the line is written back with their poison marks
(Table 9.2). -/
def State.poisonBack (s : State) (core : Nat) (va : Word) : State :=
  ((s.core core).l1.filter fun l => l.va = lineVa va && l.bad &&& l.dirty != 0).foldl (fun x l =>
    (x.writeBack core l).modCore core fun y => { y with l1 := y.l1.map fun z => if z = l then l.cleaned else z }) s

/-- What follows an uncorrectable error met on a part (R256 to R258, R296, R380). -/
def State.assayAfter (s : State) (part : Option AssayPart) (core : Nat) (c : FaultCode) (va : Word) : State :=
  if c = .uncorr || c = .savelost then
    let s1 := match part with
      | some a => s.postOnce (.assay a)
      | none => s
    if c = .uncorr then s1.poisonBack core va else s1
  else s

/-- A fault of the strand on slot `k` (R171, R184): CAUSE, TVAL and TPC are written, the slot issues nothing more, and the
scheduler receives the fault. `entry` marks a fault raised on entering a block, `lost` an uncorrectable page-table entry,
which no rollback follows (R389). -/
def State.raise (s : State) (k : Nat) (c : FaultCode) (tval : Word) (entry lost : Bool) : State :=
  match tget s.slots k with
  | none => s
  | some sl =>
    match tget s.strands sl.uid with
    | none => s
    | some t =>
      let cw := causeOf c entry
      let s1 := (s.setStrand sl.uid { t with cause := cw, tval := tval, tpc := t.pc }).setSlot k
        { sl with hold := some .fault, flight := [], windows := [], preempt := false, lost := none, badReg := false }
      match tget s.tasks t.task with
      | none => s1
      | some ta =>
        let s2 := if lost && ta.fault.isNone then s1.setTask t.task { ta with walkLost := true } else s1
        (s2.noteFault t.task
          #v[cw, tval, t.pc, t.hdr, taskIdOf ta t.index, pcoordOf k, BitVec.ofNat 64 s.time]).assayAfter
          ((tget s.parts t.part).bind fun p => s.assayPart p k ta.ctx c tval) (coreOfSlot k) c tval

/-- A suspension or a pre-emption takes a member out of its stream (R292). -/
def State.quitStream (s : State) (k u : Nat) : State :=
  match (s.tile (tileOfSlot k)).streamOf k with
  | none => s
  | some i => (s.leaveStream k).modStrand u fun t => { t with fmode := .unbound, stream := i }

/-- The strand on slot `k` is to be put down under a wait kind (R186). It issues nothing more; its wait at a JOIN ends, and its
entry goes (R280, R285). -/
def State.suspend (s : State) (k : Nat) (w : WaitKind) (a v : Word) : State :=
  match tget s.slots k with
  | none => s
  | some sl =>
    ((((s.modStrand sl.uid fun t => { t with waitK := w, waita := a, waitv := v }).setSlot k
      { sl with hold := some .save, flight := [], windows := [], preempt := false, stop := none, stack := none, joinWait := none }).quitStream k sl.uid).dropEntry (tileOfSlot k) sl.uid).postOnce (.putDown k)

/-! ### Instructions of an engine that stop (R320) -/

/-- A row-block runs on the tile's engine. -/
def Tile.running (t : Tile) : Bool := t.jobs.any fun j => j.status = .running

/-- The instructions of a tile's engine with the one of strand `u` replaced. -/
def State.putJob (s : State) (tile : Nat) (j : Job) : State :=
  s.modTile tile fun t => { t with jobs := t.jobs.map fun x => if x.u = j.u then j else x }

/-- An instruction stops; its slot takes it up, and the engine goes on with the next one. -/
def State.haltJob (s : State) (tile : Nat) (j : Job) (w : JobStop) : State :=
  ((s.putJob tile { j with status := .stopped w }).postSlot j.k).postOnce (.rowBlockStart tile)

/-- The slot of an instruction is to be pre-empted (R320). -/
def State.jobPreempted (s : State) (j : Job) : Bool :=
  match tget s.slots j.k with
  | some sl => sl.preempt
  | none => false

/-- The pre-empted instructions of a tile's engine stop, unless a row-block runs: then they stop at its end (R320). -/
def State.haltPreempted (s : State) (tile : Nat) : State :=
  if (s.tile tile).running then s
  else ((s.tile tile).jobs.filter fun j => j.status = .ready && s.jobPreempted j).foldl (fun x j => x.haltJob tile j .preempt) s

/-- A page fault of the strand on slot `k` (R396, R397). -/
def State.pageFault (s : State) (k : Nat) (va : Word) (f : Nat) (acc : Acc) (malformed : Bool) : State :=
  match tget s.slots k with
  | none => s
  | some sl =>
    match tget s.strands sl.uid with
    | none => s
    | some t =>
      match tget s.tasks t.task with
      | none => s
      | some ta =>
        (s.suspend k .pageFault va 0).linkFault f
          { who := .strand sl.uid, part := t.part, ctx := ta.ctx, va := va, acc := acc.num }
          [va, descInfo ta.ctx 0 malformed acc (pcoordOf k), taskIdOf ta t.index, BitVec.ofNat 64 s.time]

/-- Key slot of a context (Table 18.6): byte `ctx` of KEYMAP. -/
def State.keySlot (s : State) (p : Partition) (ctx : Nat) : Nat :=
  match pinPa p (s.pinDw p p.tiercb 0x28) with
  | some a => s.valAt (a + ctx) 1
  | none => 0

/-- A range of second-tier addresses lies within one of the ranges of the partition (R472). -/
def State.inRange (s : State) (p : Partition) (a n : Nat) : Bool :=
  (upto 8).any fun i =>
    (s.pinDw p p.tiercb (0x40 + 16 * i)).toNat ≤ a && a + n ≤ (s.pinDw p p.tiercb (0x48 + 16 * i)).toNat

/-- Bytes of a page. -/
def pageBytes (big : Bool) : Nat := if big then 2 ^ 21 else 2 ^ 16

/-- The second-tier frame of a leaf is one that the partition may use, whole (R472), under a key that holds (R473). A reserved bit
set in the tier control block makes none usable (R17, log 55). -/
def State.tierAllowed (s : State) (p : Partition) (ctx : Nat) (entry : Word) (big : Bool) : Bool :=
  s.inRange p (frameOf entry) (pageBytes big) && s.pinDw p p.tiercb 0x30 = 0 && s.pinDw p p.tiercb 0x38 = 0 &&
  s.keySlot p ctx != 0 && (tget s.keys (s.keySlot p ctx)).isSome

/-- A page by its address and size. -/
def pageVa (va : Word) (big : Bool) : Word :=
  let n := if big then 21 else 16
  BitVec.ofNat 64 (va.toNat / 2 ^ n * 2 ^ n)

/-- A waiter joins the promotion of its page, or starts it (R478, R481). -/
def State.joinPromo (s : State) (f : Nat) (entry : Word) (big : Bool) (slot : Nat) (w : Held) : State :=
  let fd := s.field f
  if fd.promos.any fun p => p.slot = slot then
    s.setField f { fd with promos := fd.promos.map fun p =>
      if p.slot = slot then { p with waiters := p.waiters ++ [w] } else p }
  else
    (s.setField f { fd with promos := fd.promos ++
      [{ part := w.wait.part, ctx := w.wait.ctx, va := pageVa w.wait.va big, big := big, entry := entry, slot := slot, waiters := [w] }] }).postOnce
      (.tierPromotion f)

/-- A tier miss of the strand on slot `k` (R477): ACCESS where the frame or the key may not be used (R472, R473). -/
def State.tierMiss (s : State) (k : Nat) (va : Word) (f : Nat) (acc : Acc) (entry : Word) (big : Bool) (slot : Nat) (atEntry : Bool) :
    State :=
  match tget s.slots k with
  | none => s
  | some sl =>
    match tget s.strands sl.uid with
    | none => s
    | some t =>
      match tget s.tasks t.task, tget s.parts t.part with
      | some ta, some p =>
        if s.tierAllowed p ta.ctx entry big then
          (s.suspend k .tierMiss va 0).joinPromo f entry big slot
            { wait := { who := .strand sl.uid, part := t.part, ctx := ta.ctx, va := va, acc := acc.num }
              info := descInfo ta.ctx 0 false acc (pcoordOf k), taskid := taskIdOf ta t.index }
        else s.raise k .access va atEntry false
      | _, _ => s

/-- The head command of a field's scrubber waits for a page or for a promotion (R403). -/
def State.scrubHeld (s : State) (n : Nat) : Bool :=
  s.fields.any fun e =>
    e.2.faults.any (fun w => w.who = .scrub n) || e.2.promos.any fun q => q.waiters.any fun w => w.wait.who = .scrub n

end Sys2Proof.Machine
end

