-- ==== Sys2Proof/Machine/Ops.lean ====
section
/-! DEFINITION. Sys2Proof/Machine/Ops.lean: how a word runs. The conditions under which it issues (R75, R187, R217 to R221,
R274), the faults of its decoding (Table 2.7), its operation, its sequencing with the window actions (R35, R67, R68), and
what follows when it has passed. Also taking a trap and returning from one (R177, R178). -/

namespace Sys2Proof.Machine

/-- Where a word runs: slot and strand with their contents, partition, task, the word, its guard. -/
structure Env where
  k     : Nat
  u     : Nat
  sl    : Slot
  st    : Strand
  pn    : Nat
  p     : Partition
  ta    : Task
  w     : Word
  ctl   : Ctl
  cond  : Bool
  lane  : Bool
  deriving DecidableEq, Repr

def Env.core (e : Env) : Nat := coreOfSlot e.k
def Env.tile (e : Env) : Nat := tileOfSlot e.k
def Env.fld (e : Env) : Nat := fieldOfSlot e.k
def Env.ctx (e : Env) : Nat := e.ta.ctx
def Env.user (e : Env) : Bool := !e.st.sup

/-- Generation that the core stamps on the strand's requests (R392). -/
def Env.gen (e : Env) : BitVec 16 := e.p.genOf e.ta.ctx (coreOfSlot e.k)

/-- The lanes that the guard enables (R65). -/
def Env.lanes (e : Env) : Word := e.st.lanesOn e.ctl

/-- The strand on slot `k` with what it belongs to. -/
def State.envAt (s : State) (k : Nat) (i : Instr) (c : Ctl) : Option Env :=
  match tget s.slots k with
  | none => none
  | some sl =>
    match tget s.strands sl.uid with
    | none => none
    | some t =>
      match tget s.parts t.part, tget s.tasks t.task with
      | some p, some ta =>
        some { k := k, u := sl.uid, sl := sl, st := t, pn := t.part, p := p, ta := ta, w := encodeWord i, ctl := c,
               cond := t.cond c, lane := laneGuarded t.latch.cls i }
      | _, _ => none

/-- The operation of a word: from where it runs and the state before it, the state after it. -/
abbrev Op := Env → State → Res State

/-- The strand of an operation changed. -/
def Env.put (e : Env) (s : State) (t : Strand) : State := s.setStrand e.u t

/-- An operation on the strand's registers alone. -/
def regOp (f : Env → Strand) : Op := fun e s => .ok (e.put s (f e))

/-! ### Issue -/

/-- Long-latency instructions that a slot may have outstanding (R145), entries of the forward queue and of the return queue
(R217), entries of the store buffer (R130). -/
def flightSize : Nat := 16
def fwdSize : Nat := 16
def retSize : Nat := 8
def bufferSize : Nat := 32

/-- Registers that a word reads. -/
def readsOf (i : Instr) (c : Ctl) : List Reg := (srcsOf i).map (·.1) ++ guardReg c ++ seqRegs c.seq

/-- Registers still to come from outstanding long-latency instructions. -/
def Slot.flightDsts (sl : Slot) : List Reg := (sl.flight.filterMap fun f => dstOf f.instr).filter writable

/-- A long-latency instruction with a lookahead window and no transfer is left outstanding (R75). -/
def Env.deferred (e : Env) (i : Instr) : Bool :=
  i.isLL && e.ctl.la.val != 0 && e.ctl.seq == .next && (e.cond || e.lane) && e.st.widx < lenOf e.st.header

/-- The frame that the word's window action moves between the registers and memory: of a CALL with six resident frames, of a RET
with none (R35). -/
def Env.stackFrame (e : Env) : Option Nat :=
  match e.ctl.seq with
  | .callT0 | .callBt => if e.cond && e.st.fres = 6 then some ((e.st.cwp + 2) % 8) else none
  | .ret => if e.cond && e.st.fres = 0 then some ((e.st.cwp + 7) % 8) else none
  | _ => none

/-- An outstanding instruction writes a register that the word's window action stores, loads or links (R35, R68). -/
def Env.moveHits (e : Env) : Bool :=
  e.sl.flight.any fun f =>
    match dstOf f.instr with
    | some (.s n) =>
      let j := (physIdx f.before.cwp n.val).val
      8 ≤ n.val && (e.stackFrame = some (j / 16) ||
        (e.ctl.seq = .callT0 || e.ctl.seq = .callBt) && j = (physIdx ((e.st.cwp + 1) % 8) 15).val)
    | _ => false

/-- The word must wait for outstanding long-latency instructions (R75). NOP waits for none (R182), except where its guard,
its transfer or its window action needs the result of one. A load that is performed at its issue waits for outstanding accesses, so that
the strand's accesses keep their order (R125). -/
def Env.waitsFlights (e : Env) (i : Instr) : Bool :=
  let kd := kindOf i
  !e.sl.flight.isEmpty &&
  (movesWindow e.ctl.seq && (kd != .nop || e.moveHits) || (guardReg e.ctl ++ seqRegs e.ctl.seq).any e.sl.flightDsts.contains ||
   (kd != .nop && (flightSize ≤ e.sl.flight.length || !kd.windowOk || e.sl.flight.any fun f => f.left = 0)) ||
   ((kd = .loadS || kd = .loadV) && !e.deferred i && e.sl.flight.any fun f => (kindOf f.instr).accesses))

/-- Registers whose vector-side results have not reached the return queue (R218). -/
def Slot.coming (sl : Slot) : List Reg := sl.fwd.filterMap (·.returns) ++ sl.started.map (·.2)

/-- The word reads a register that is still coming from the vector side (R218). A read of L waits for any. A vector-side word
waits for the scalar sources whose values its push reads (R217), and not for its guard: a predicate that the vector side writes is
in its own copy before the word starts (R219; DEDUCED, log 69). -/
def Env.waitsReturn (e : Env) (i : Instr) : Bool :=
  let rs := readsOf i e.ctl
  let rs' := if vectorSide e.st.latch.cls i then rs.filter fun r => r.isS || r = .latch && e.st.latch.cls = .scalar else rs
  rs'.any fun r => if r = .latch then !e.sl.coming.isEmpty else e.sl.coming.contains r

/-- The word must wait for its slot's vector side (R217, R220, R221). -/
def Env.waitsVector (e : Env) (i : Instr) : Bool :=
  ((kindOf i).afterVector || movesWindow e.ctl.seq && (kindOf i != .nop || e.stackFrame.isSome)) && !e.sl.fwd.isEmpty ||
  e.sl.fwd.any (·.opens) ||
  (vectorSide e.st.latch.cls i || (scalarPred e.st.latch.cls i).isSome) && fwdSize ≤ e.sl.fwd.length ||
  e.waitsReturn i

/-- A scalar-side division or square root waits for its unit (R115, R247). -/
def Env.waitsUnit (e : Env) (s : State) (i : Instr) : Bool :=
  !vectorSide e.st.latch.cls i &&
  match unitOf e.st.latch.cls i with
  | some (j, _) => s.cycleOf e.core < (s.core e.core).unitFree[j]
  | none => false

/-- The slot is to be pre-empted, its strand is not stalled within a store, and no instruction of its strand is with the
tile's engine: it issues no further word (R187). -/
def Env.halting (e : Env) (s : State) : Bool :=
  e.sl.preempt && !e.sl.stalled && (s.tile e.tile).jobs.all fun j => j.u != e.u

/-- The slot does not issue the word now. -/
def Env.waits (e : Env) (s : State) (i : Instr) : Bool :=
  e.halting s || e.sl.hold.isSome || e.sl.stop.isSome || e.p.halt.isSome || !s.mayIssue e.k || e.waitsFlights i || e.waitsVector i ||
  e.waitsUnit s i

/-- Something of the slot has issued and not completed: a fault waits for it (R77, R220). -/
def Env.busy (e : Env) : Bool := !e.sl.flight.isEmpty || !e.sl.fwd.isEmpty

/-- The scalar side waits only when it pops an empty return queue (R218): while it waits and its full return queue stalls the
vector side, it pops the oldest result, whichever register it reads: DEDUCED from the rule's last sentence (log 26). -/
def Env.popFull (e : Env) (s : State) : State :=
  if retSize ≤ e.sl.ret.length && !e.sl.fwd.isEmpty then s.modSlot e.k fun sl => { sl with ret := sl.ret.drop 1 } else s

/-! ### Decode faults (Table 2.7, ranks 5 to 8) -/

/-- The hazard of R76. -/
def Env.hazard (e : Env) (i : Instr) : Bool :=
  let named := regsOf i ++ guardReg e.ctl
  e.sl.windows.any fun w =>
    (match w.dst with
     | some r => r != .latch && named.contains r
     | none => false) || (!w.wroteL && named.contains .latch)

/-- The home tile or core lacks the engine (R80). -/
def Env.lacks (e : Env) (i : Instr) : Bool :=
  match engineOf i with
  | some kd => kd != tileKind e.tile
  | none => false

/-- The operation of the word takes place: under cond, or in some lane (R65). -/
def Env.takesPlace (e : Env) : Bool := if e.lane then e.lanes != 0 else e.cond

/-- The register holds a content that a read gives: it is live (R38), and neither s0 nor p0. -/
def Strand.holds (t : Strand) : Reg → Bool
  | .s n => n.val != 0 && t.liveS n.val
  | .v n => t.liveV n.val
  | .p n => n.val != 0
  | _ => true

/-- The word reads a live register whose content is found uncorrectable (Table 9.2). A word whose operation does not take place
raises no such fault (R65). -/
def Env.badRead (e : Env) (i : Instr) : Bool :=
  e.sl.badReg && e.takesPlace && (readsOf i e.ctl).any fun r => e.st.holds r && (e.cond || !(seqRegs e.ctl.seq).contains r)

/-- Ranks 1 and 5 to 8 of Table 2.7, then the register error of Table 9.2. A word whose operation does not take place raises no
PRIV and no ENGINE (R65). -/
def Env.decodeFault (e : Env) (i : Instr) : Option FaultCode :=
  if kindOf i = .none then some .illop
  else if supervisorOnly i && e.user && (e.cond || e.lane) then some .priv
  else if e.lacks i && (e.cond || e.lane) then some .engine
  else if e.hazard i then some .lookahead
  else if !latchOk e.st.latch.cls i then some .operand
  else if badSpecial i then some .illop
  else if e.badRead i then some .uncorr
  else none

/-- TVAL of those faults: the word, and 0 for a register error (Table 9.2). -/
def Env.decodeTval (e : Env) (c : FaultCode) : Word := if c = .uncorr then 0 else e.w

/-! ### Register stack (R35 to R37) -/

/-- Bytes of a spilled frame (R35). -/
def frameSize : Nat := 128

/-- Frame `f` as 128 bytes: IN, then LOCAL. A register of it that is not live has no defined content (R39): what the spill writes
there is a free value, the `n`-th (log 50). -/
def Strand.frameBytes (t : Strand) (n f : Nat) : List Byte :=
  (upto 16).flatMap fun i =>
    let j := 16 * (f % 8) + i
    bytesOf 8 (if t.gated.getLsbD j then Config.freeScalar n j else t.frames[Fin.ofNat 128 j]).toNat

/-- Frame `f` replaced by the registers that 128 bytes hold: what a fill reads is the content of each of them from then on. -/
def Strand.putFrame (t : Strand) (f : Nat) (bs : List Byte) : Strand :=
  { t with
    frames := Vector.ofFn fun j : Fin 128 =>
      if j.val / 16 = f % 8 then wordOfBytes ((bs.drop (8 * (j.val % 16))).take 8) else t.frames[j]
    gated := t.gated &&& ~~~(BitVec.ofNat 128 (0xFFFF * 2 ^ (16 * (f % 8)))) }

/-- A register of the frames written whatever the live masks (R68, R177). -/
def Strand.putPhys (t : Strand) (j : Fin 128) (x : Word) : Strand :=
  { t with frames := t.frames.set j.val x j.isLt, gated := t.gated &&& ~~~(BitVec.ofNat 128 (2 ^ j.val)) }

/-- A request of the strand's core. -/
def Env.req (e : Env) (va : Word) (acc : Acc) : Req :=
  { part := e.pn, ctx := e.ctx, gen := e.gen, va := va, acc := acc }

/-- The access of a slot has been sent and has no reply: the slot issues nothing until the reply comes, or until five timeouts have
elapsed (R173). A put-down under way stays held as it is. -/
def State.awaitReply (s : State) (k : Nat) (l : Lost) : State :=
  (s.modSlot k fun sl => { sl with lost := some { l with since := some s.time }, hold := some (sl.hold.getD .reply) }).postAt
    (l.ends s.time) (.memoryReply k)

/-- What an access of the strand meets for want of a reply: the wait for it, or TIMEOUT (R173). -/
def Env.lostReply (e : Env) (s : State) (va : Word) : Option Stop :=
  match replyNow s.time e.sl.lost with
  | .came => none
  | .sent l => some (.become (s.awaitReply e.k l))
  | .waits => some (.become s)
  | .timeout => some (.fault .timeout va)

/-- The place of an access of the strand: ranks 2 to 5 of Table 4.3; TIMEOUT where it has had no reply (R173). -/
def Env.placed (e : Env) (s : State) (va : Word) (acc : Acc) : Res (State × Nat) :=
  match s.place e.user (e.req va acc) with
  | .error x => .error x
  | .ok r =>
    match e.lostReply s va with
    | some x => .error x
    | none => .ok r

/-- 128 bytes of the register stack written at `va` at the home slice, past the L1 data cache (R249). -/
def Env.stackWrite (e : Env) (s : State) (va : Word) (bs : List Byte) : Res State :=
  match e.placed s va .write with
  | .error x => .error x
  | .ok (s1, pa) =>
    let s2 := s1.drain e.k
    let s3 := if isPad pa then s2 else s2.flushLine e.core va e.ctx
    .ok (s3.homeWrite (s3.writerOf e.k e.ctx) va pa bs)

/-- 128 bytes of the register stack read at the home slice (R249), one register at a time (R35). The field keeps no remote copy of
the line that could be older (R149, log 51). -/
def Env.stackRead (e : Env) (s : State) (va : Word) : Res (State × List Byte) :=
  match e.placed s va .read with
  | .error x => .error x
  | .ok (s1, pa) =>
    let s2 := s1.drain e.k
    let s3 := if isPad pa then s2 else s2.flushLine e.core va e.ctx
    match (upto 16).find? fun i => s3.lostAt (pa + 8 * i) 8 with
    | some i => failWith .uncorr (va + BitVec.ofNat 64 (8 * i))
    | none => .ok ((s3.dropRdc e.fld va e.ctx).touchL2 pa e.ctx, s3.bytesAt pa frameSize)

/-- RSP is aligned, or ALIGN (R35). -/
def checkRsp (t : Strand) : Res Unit := faultIf (bits t.rsp 6 0 != 0) .align t.rsp

/-- The writes of a spill (R35). -/
def Env.spill (e : Env) (s : State) (t : Strand) : Res State := do
  checkRsp t
  let s1 ← e.stackWrite s (t.rsp - 128) (t.frameBytes s.fresh (t.cwp + 2))
  return { s1 with fresh := s1.fresh + 1 }

/-- The reads of a fill (R35). -/
def Env.fill (e : Env) (s : State) (t : Strand) : Res (State × List Byte) := do
  checkRsp t
  e.stackRead s t.rsp

/-- The window action of a CALL (R35). A spill that has been made ahead of the word's effect is not made again (R67). -/
def Env.windowCall (e : Env) (s : State) (t : Strand) : Res (State × Strand) :=
  if t.fres = 6 then do
    let s1 ← if e.sl.stack.isSome then .ok s else e.spill s t
    return (s1, { t with rsp := t.rsp - 128, cwp := (t.cwp + 1) % 8 })
  else .ok (s, { t with fres := t.fres + 1, cwp := (t.cwp + 1) % 8 })

/-- The window action of a RET (R35), with the bytes of a fill that has been made ahead of the word's effect (R67). -/
def Env.windowRet (e : Env) (s : State) (t : Strand) : Res (State × Strand) :=
  if t.fres = 0 then do
    let (s1, bs) ← match e.sl.stack with
      | some bs => .ok (s, bs)
      | none => e.fill s t
    return (s1, { (t.putFrame (t.cwp + 7) bs) with rsp := t.rsp + 128, cwp := (t.cwp + 7) % 8 })
  else .ok (s, { t with fres := t.fres - 1, cwp := (t.cwp + 7) % 8 })

/-! ### Sequencing (R56, R67 to R71, R169) -/

/-- T0 and T1 of the header that the strand executes, as addresses (R53). -/
def Strand.target0 (t : Strand) : Word := t.hdr + BitVec.ofInt 64 (8 * sextN (bits t.header 33 23) 11)
def Strand.target1 (t : Strand) : Word := t.hdr + BitVec.ofInt 64 (8 * sextN (bits t.header 22 12) 11)

/-- Header address of the fall-through block (R53). -/
def Strand.fallThrough (t : Strand) : Word := t.hdr + BitVec.ofNat 64 (8 * (lenOf t.header + 1))

/-- A transfer to a header: no transfer enters the supervisor half from the user half (R169). -/
def Strand.goto (t : Strand) (a : Word) : Res Strand :=
  if !t.sup && bit a 63 then failWith .access a else .ok { t with hdr := a, widx := 0 }

/-- No transfer: the next word, or the block that follows. -/
def Strand.advance (t : Strand) : Res Strand :=
  if t.widx = lenOf t.header then t.goto t.fallThrough else .ok { t with widx := t.widx + 1 }

/-- A CALL to `a`: the check of R169, the window action, the link (R68). -/
def Env.call (e : Env) (s : State) (t : Strand) (a : Word) : Res (State × Strand) := do
  let t0 ← t.goto a
  let (s1, t1) ← e.windowCall s t0
  return (s1, t1.putPhys (physIdx t1.cwp 15) t.fallThrough)

/-- sequence(w) (R67): the strand after the word, at the place where it goes on. -/
def Env.sequence (e : Env) (s : State) (t : Strand) : Res (State × Strand) :=
  let stay := fun (r : Res Strand) => r.map fun x => (s, x)
  if !e.cond && e.ctl.seq != .either then stay t.advance
  else
    match e.ctl.seq with
    | .next => stay t.advance
    | .t0 => stay (t.goto t.target0)
    | .t1 => stay (t.goto t.target1)
    | .either => stay (t.goto (if t.latchW.getLsbD 0 then t.target0 else t.target1))
    | .callT0 => e.call s t t.target0
    | .callBt =>
      let a := t.readS 7
      if bits a 2 0 != 0 then failWith .align a else e.call s t a
    | .goBt =>
      let a := t.readS 7
      if bits a 2 0 != 0 then failWith .align a else stay (t.goto a)
    | .ret =>
      let a := t.readS 15
      if bits a 2 0 != 0 then failWith .align a
      else
        match t.goto a with
        | .error x => .error x
        | .ok t0 => e.windowRet s t0
    | .loop =>
      let n := t.readS 6 - 1
      let t1 := t.writeS 6 n
      if n = 0 then stay t1.advance else stay (t1.goto t1.target0)

/-! ### After the operation -/

/-- The word has written a register result (R41). -/
def Env.wrote (e : Env) (i : Instr) : Bool := (dstOf i).isSome && (e.cond || e.lane)

/-- The window that a long-latency instruction with LA opens (R75). -/
def windowOf (i : Instr) (c : Ctl) : List Window :=
  if i.isLL && c.la.val != 0 then [{ dst := dstOf i, left := c.la.val, wroteL := false }] else []

/-- Windows and outstanding instructions after one more word, which opens the windows `new`: a window ends with its last word and
with a transfer (R75). -/
def Slot.nextWindows (sl : Slot) (new : List Window) (wrote left : Bool) : Slot :=
  let ws := (sl.windows.map fun w => { w with left := w.left - 1, wroteL := w.wroteL || wrote }).filter fun w => w.left != 0
  { sl with
    turned := false
    stalled := false
    stack := none
    issued := sl.issued + 1
    windows := if left then [] else ws ++ new
    flight := sl.flight.map fun f => { f with left := if left then 0 else f.left - 1, wroteL := f.wroteL || wrote } }

/-- Entries of the return queue popped by a word that reads them (R218): up to the last one that it reads. -/
def Slot.popReturns (sl : Slot) (rs : List Reg) : Slot :=
  { sl with ret := (sl.ret.reverse.takeWhile fun r => !(rs.contains r.2 || rs.contains .latch)).reverse }

/-- Lanes of the elements of a list. -/
def lanesOf (w64 : Bool) (js : List Nat) : Word :=
  maskOf ((upto 64).map fun i => js.contains (if w64 then i / 2 else i))

/-- The lanes that the start of a word enables (R262). -/
def Env.startLanes (e : Env) (i : Instr) : Word :=
  let w64 := wideElems i
  let on := lanesOf w64 ((upto 64).filter fun j => e.lanes.getLsbD (if w64 then 2 * j else j))
  let one := fun (b : Reg) => lanesOf w64 [(e.st.scalar b).toNat % (if w64 then 32 else 64)]
  match i with
  | .vcompress .. => BitVec.allOnes 64
  | .bquant .. | .bdeq .. => if e.cond then BitVec.allOnes 64 else 0
  | .vextr _ _ _ b .. => if e.cond then one b else 0
  | .vins _ _ _ b _ => on &&& one b
  | _ => on

/-- Values of the scalar sources of a word (R217). -/
def Strand.scalarValues (t : Strand) (i : Instr) : List Word :=
  (srcsOf i).filterMap fun r =>
    match r.1 with
    | .s n => some (t.readS n)
    | .latch => if t.latch.cls = .scalar then some t.latchW else none
    | _ => none

/-- The predicate that a word writes, with its value in strand `t` after it; a write to p0 is discarded. -/
def Strand.predValue (t : Strand) (i : Instr) : Option (Fin 8 × Word) :=
  match dstOf i with
  | some (.p n) => if n.val = 0 then none else some (n, t.readP n)
  | _ => none

/-- The forward entry of a word (R217, R219): of a vector-side word, or of a predicate that the scalar side writes, with the
vector side's turn. `t` is the strand after the word. -/
def Env.pushFwd (e : Env) (s : State) (i : Instr) (t : Strand) (opens := false) : State :=
  let lc := e.st.latch.cls
  let vs := vectorSide lc i
  if vs || ((scalarPred lc i).isSome && e.wrote i) then
    (s.modSlot e.k fun sl =>
      { sl with
        await := if vs && e.ctl.seq = .either then some e.sl.issued else sl.await
        fwd := sl.fwd ++
          [{ n := e.sl.issued, instr := if vs then some i else none, guard := e.lanes
             scalars := if vs then e.st.scalarValues i else [], pred := t.predValue i
             lanes := if vs then e.startLanes i else 0, returns := if e.wrote i then returnOf lc i else none, opens := opens
             store := kindOf i = .storeV && e.sl.buf.length < sl.buf.length, before := e.st, pos := e.sl.pos,
             windows := e.sl.windows, ahead := e.sl.flight.map fun f => { n := f.n, left := f.left, wroteL := f.wroteL } }] }).postOnce
      (.vectorSideStart e.core)
  else s

/-- A unit of the core kept busy by a word that starts on it in cycle `c` (R115, R247). -/
def Core.useUnit (x : Core) (lc : LCls) (i : Instr) (c : Nat) : Core :=
  match unitOf lc i with
  | some (j, n) => { x with unitFree := x.unitFree.set j.val (c + n) j.isLt }
  | none => x

/-- The scalar side's unit kept by a division or a square root that issues. -/
def Env.keepUnit (e : Env) (s : State) (i : Instr) : State :=
  if vectorSide e.st.latch.cls i || (unitOf e.st.latch.cls i).isNone || !(e.cond || e.lane) then s
  else s.modCore e.core fun x => x.useUnit e.st.latch.cls i (s.cycleOf e.core)

/-- The word takes a transfer, by what its sequencing made of strand `t` (R67, R70, R273). -/
def Env.takes (e : Env) (i : Instr) (t : Strand) : Bool :=
  match i with
  | .trap .. | .rft .. => e.cond
  | .brk .. => e.cond && !e.st.asNop
  | _ =>
    match e.ctl.seq with
    | .next => false
    | .either => true
    | .loop => e.cond && t.readS 6 != 0
    | _ => e.cond

/-- The word has passed: queues, windows, stream (R75, R217, R218, R273, R279). `t` is the strand at the place where it goes
on. -/
def Env.finish (e : Env) (s : State) (i : Instr) (t : Strand) : State :=
  let s1 := (e.put s t).modSlot e.k fun sl =>
    (sl.popReturns (readsOf i e.ctl)).nextWindows (windowOf i e.ctl) (e.wrote i) (t.widx = 0 || t.hdr != e.st.hdr)
  ((e.pushFwd (e.keepUnit s1 i) i t)).passedWord e.k e.u e.w e.st.hdr e.st.header t.hdr t.widx (e.takes i t)

/-- Long-latency instructions of a slot are outstanding. -/
def State.inFlight (s : State) (k : Nat) : Bool :=
  match tget s.slots k with
  | some sl => !sl.flight.isEmpty
  | none => false

/-- A suspension that a word has met is carried out. -/
def State.carryStop (s : State) (k : Nat) : JobStop → Bool → State
  | .page va f acc m, _ => s.pageFault k va f acc m
  | .tier va f acc en big sl, atEntry => s.tierMiss k va f acc en big sl atEntry
  | _, _ => s

/-- A suspension strikes the strand (R31, R221): what the vector side has not started is discarded at once, and the suspension
follows when the outstanding long-latency instructions have completed. -/
def State.strikeStop (s : State) (k : Nat) (w : JobStop) (atEntry : Bool) : State :=
  let s1 := s.discard k
  if s1.inFlight k then s1.modSlot k fun sl => { sl with stop := some (w, atEntry) } else s1.carryStop k w atEntry

/-- What an operation or its sequencing that stops leaves (R175, R186). A fault waits for all that has issued before (`busy`,
R220). `atEntry` marks a stop on entering a block. -/
def State.stopped (s : State) (k : Nat) (busy atEntry : Bool) : Stop → State
  | .fault c v => if busy then s else s.raise k c v atEntry false
  | .walkLost v => if busy then s else s.raise k .uncorr v atEntry true
  | .page va f acc m => s.strikeStop k (.page va f acc m) atEntry
  | .tier va f acc en big sl => s.strikeStop k (.tier va f acc en big sl) atEntry
  | .wait => s
  | .become s' => s'

/-- The event by which an outstanding instruction completes. -/
def replyOf (i : Instr) (k : Nat) : Instr :=
  match kindOf i with
  | .loadS | .loadV | .far => .memoryReply k
  | _ => .longLatencyComplete k

/-- A long-latency instruction issued and left outstanding (R75, R77). An engine instruction makes its release when it issues (R161,
R540). A division that the vector side carries out takes its window slot and opens its window only when it starts (R115). -/
def Env.launch (e : Env) (s0 : State) (i : Instr) : State :=
  match e.st.advance with
  | .error _ => s0
  | .ok t =>
    let s := if kindOf i = .engine then s0.release e.k .module else s0
    let opens := vectorSide e.st.latch.cls i && (unitOf e.st.latch.cls i).isSome
    let pendingL := e.sl.flight.any fun f => (dstOf f.instr).isSome && !f.wroteL
    let s1 := (e.put s t).modSlot e.k fun sl =>
      let sl1 := (sl.popReturns (readsOf i e.ctl)).nextWindows (if opens then [] else windowOf i e.ctl) (dstOf i).isSome false
      if opens then sl1
      else { sl1 with flight := sl1.flight ++
          [{ n := e.sl.issued, instr := i, before := e.st, pos := e.sl.pos, windows := e.sl.windows, left := e.ctl.la.val,
             wroteL := false, needL := pendingL }] }
    let s2 := if vectorSide e.st.latch.cls i then e.pushFwd s1 i t opens else e.keepUnit s1 i
    let s3 := s2.passedWord e.k e.u e.w e.st.hdr e.st.header t.hdr t.widx false
    if opens then s3 else s3.post (.event (replyOf i e.k))

/-- The sequencing that a word makes before it begins an effect that others can observe (R67): all of SEQ 4 to 7, and of a word
that writes the register which its sequencing reads, the window action alone. A HALT halts first (R180). The state after it, with
the strand. -/
def Env.presequence (e : Env) (s : State) (i : Instr) : Res (State × Strand) :=
  if !lateSeq e.ctl.seq || !e.cond || e.sl.stack.isSome || isHalt i then .ok (s, e.st)
  else if (dstOf i).any (seqRegs e.ctl.seq).contains then
    match e.ctl.seq with
    | .callBt => e.windowCall s e.st
    | .ret => e.windowRet s e.st
    | _ => .ok (s, e.st)
  else e.sequence s e.st

/-- The word's window action has to move a frame before the operation begins what others can observe (R67). -/
def Env.mustMove (e : Env) (i : Instr) : Bool := !isHalt i && e.stackFrame.isSome && e.sl.stack.isNone

/-- The word's sequencing will succeed, with no frame left to move: the operation may begin what others can observe (R67). -/
def Env.settled (e : Env) (s : State) (i : Instr) : Bool :=
  match e.presequence s i with
  | .ok _ => !e.mustMove i
  | .error _ => false

/-- The slot keeps what its word's sequencing has done ahead of the operation: a spill, or the frame that a fill has read. -/
def Env.keepStack (e : Env) (r : State × Strand) : State :=
  r.1.modSlot e.k fun sl => { sl with stack := some (if e.ctl.seq = .ret then r.2.frameBytes 0 (e.st.cwp + 7) else []) }

/-- What follows an operation that has run from state `s`: it has only begun, has stopped, or has ended and the word sequences. -/
def Env.conclude (e : Env) (s : State) (i : Instr) : Res State → State
  | .error x => s.stopped e.k e.busy false x
  | .ok s1 =>
    match tget s1.strands e.u with
    | none => s1
    | some t =>
      match e.sequence s1 t with
      | .error x => s.stopped e.k e.busy false x
      | .ok (s2, t2) => e.finish s2 i t2

/-- The operation of a word, if its guard lets it take place in some lane or at all. -/
def Env.opRes (e : Env) (s : State) (op : Op) : Res State := if e.cond || e.lane then op e s else .ok s

/-- Operation and sequencing of a word that issues. An operation that would only begin what others can observe begins it when the
word's sequencing has succeeded, with its spill or its fill made (R67 before R138 and R175: DEDUCED, log 68). -/
def Env.perform (e : Env) (s : State) (i : Instr) (op : Op) : State :=
  match e.opRes s op with
  | .error (.become s1) =>
    match e.presequence s i with
    | .error x => s.stopped e.k e.busy false x
    | .ok r =>
      if e.mustMove i then
        let s2 := e.keepStack r
        match s2.envAt e.k i e.ctl with
        | some e2 => e2.conclude s2 i (e2.opRes s2 op)
        | none => s2
      else s1
  | r => e.conclude s i r

/-- A word on a slot: the waits, the decode faults, the operation. -/
def Env.run (e : Env) (s : State) (i : Instr) (op : Op) : State :=
  if e.waits s i then e.popFull s
  else
    match e.decodeFault i with
    | some c => if e.busy then s else s.raise e.k c (e.decodeTval c) false false
    | none => if e.deferred i then e.launch s i else e.perform s i op

/-- A word of the strand on the current slot. -/
def runWord (i : Instr) (c : Ctl) (op : Op) (s : State) : Host.Outcome State Fault Refusal :=
  match s.envAt s.cur i c with
  | none => .refused .noStrand
  | some e => .next (e.run s i op)

/-- As `run`, for a word that places the strand itself (TRAP, BRK, RFT) or takes it away (END). -/
def Env.runJump (e : Env) (s : State) (i : Instr) (op : Op) : State :=
  if e.waits s i then e.popFull s
  else
    match e.decodeFault i with
    | some c => if e.busy then s else s.raise e.k c (e.decodeTval c) false false
    | none =>
      if !e.cond then e.perform s i op
      else
        match op e s with
        | .error x => s.stopped e.k e.busy false x
        | .ok s1 =>
          match tget s1.strands e.u with
          | none => s1
          | some t => e.finish s1 i t

def runJump (i : Instr) (c : Ctl) (op : Op) (s : State) : Host.Outcome State Fault Refusal :=
  match s.envAt s.cur i c with
  | none => .refused .noStrand
  | some e => .next (e.runJump s i op)

/-! ### Traps (R177, R178) -/

/-- Kind of a trap in CAUSE (Table 6.2). -/
def trapCause (brk : Bool) (n : BitVec 16) : Word := BitVec.ofNat 64 ((if brk then 3 else 2) * 64 + n.toNat * 65536)

/-- Taking a trap (R177): CAUSE, TVAL and TPC; the window action; s13, s14 and s15 of the new window; the handler's header.
Mode follows the header's half (R168). -/
def Env.takeTrap (e : Env) (s : State) (brk : Bool) (n : BitVec 16) : Res State := do
  faultIf (!bit e.p.tvec 63) .priv e.w
  let c := trapCause brk n
  let t := e.st
  let (s1, t1) ← e.windowCall s { t with cause := c, tval := e.w, tpc := t.pc }
  let t2 := ((t1.putPhys (physIdx t1.cwp 13) c).putPhys (physIdx t1.cwp 14) t.hdr).putPhys (physIdx t1.cwp 15) t.pc
  return e.put s1 { t2 with hdr := BitVec.ofNat 64 (e.p.tvec.toNat / 8 * 8), widx := 0 }

end Sys2Proof.Machine
end

