-- ==== Sys2Proof/Machine/Operands.lean ====
section
/-! DEFINITION. Sys2Proof/Machine/Operands.lean: the operand forms: patterns of sources (R91), extension and writing of integer
results (R92, R93), of condition bits (R107), of elements of vectors (R93), and the shapes of the integer instructions. -/

namespace Sys2Proof.Machine

/-- The word has the lane-wise shape (R63, R88). -/
def Env.wide (e : Env) (i : Instr) : Bool := isLane e.st.latch.cls i

/-- The lane-wise shape of a word, under the class of the latch. -/
def laneFor (i : Instr) : LCls → Bool := fun lc => isLane lc i

/-- A source that is a vector: v, or L holding one. -/
def Strand.holdsV (t : Strand) : Reg → Bool
  | .v _ => true
  | .latch => t.latch.cls = .vector
  | _ => false

/-- The pattern of a source for element `j` of `n` bits (R91). -/
def Strand.pat (t : Strand) (n : Nat) (r : Reg) (j : Nat) : Nat :=
  if t.holdsV r then
    (t.vector r).toNat / 2 ^ ((if n = 64 then 64 else 32) * j) % 2 ^ n
  else (t.scalar r).toNat % 2 ^ n

/-- y[n-1:0] extended to a container (R92). -/
def extendTo (y : Int) (n : Nat) (xs : Bool) (c : Nat) : Nat := if xs then wrapN (sextN (wrapN y n) n) c else wrapN y n

/-- Element `j` is enabled (R93). -/
def laneEnabled (lanes : Word) (w64 : Bool) (j : Nat) : Bool := lanes.getLsbD (if w64 then 2 * j else j)

/-- A vector in which each enabled element is that of `f`, and every other one that of `prior` (R93). -/
def blend (lanes : Word) (w64 : Bool) (prior : VReg) (f : Nat → Nat) : VReg :=
  ofElems ((elems prior w64).mapIdx fun j p => if laneEnabled lanes w64 j then f j else p) w64

/-- An integer result written (R92, R93): `f j` is y for element `j`. -/
def Env.writeInt (e : Env) (lane : Bool) (d : Reg) (n : Nat) (xs : Bool) (f : Nat → Int) : Strand :=
  if lane then
    let w64 := n = 64
    e.st.putV d (blend e.lanes w64 (e.st.priorV d) fun j => extendTo (f j) n xs (if w64 then 64 else 32))
  else e.st.putS d (BitVec.ofNat 64 (extendTo (f 0) n xs 64))

/-- All ones where the condition holds. -/
def ones (c : Bool) : Word := if c then BitVec.allOnes 64 else 0

/-- A mask whose bit `i` is `f i` on the lanes that are on, and the bit of `prior` elsewhere (R89, R93). -/
def blendBits (lanes prior : Word) (f : Nat → Bool) : Word :=
  maskOf ((upto 64).map fun i => if lanes.getLsbD i then f i else prior.getLsbD i)

/-- A scalar-shape condition written (R33, R107). -/
def Strand.putCond (t : Strand) (d : Reg) (c : Bool) : Strand :=
  match d with
  | .s _ => t.putS d (if c then 1 else 0)
  | _ => t.putP d (ones c)

/-- Conditions written as CMP does (R107): `f j` for element `j`. -/
def Env.writeCond (e : Env) (lane : Bool) (d : Reg) (n : Nat) (f : Nat → Bool) : Strand :=
  if lane then
    let prior := e.st.priorP d
    e.st.putP d (maskOf ((upto 64).map fun i =>
      let j := if n = 64 then i / 2 else i
      if laneEnabled e.lanes (n = 64) j then f j else prior.getLsbD i))
  else e.st.putCond d (f 0)

/-! ### Shapes of the integer instructions -/

/-- Two sources (R92): `f n pa pb`. -/
def intBin (lane : LCls → Bool) (d a b : Reg) (m : IntMod) (f : Nat → Nat → Nat → Int) : Op :=
  regOp fun e =>
    let l := lane e.st.latch.cls
    let n := m.w.bits l
    e.writeInt l d n m.xs fun j => f n (e.st.pat n a j) (e.st.pat n b j)

/-- One source (R92): `f n pa`. -/
def intUn (lane : LCls → Bool) (d a : Reg) (m : IntMod) (f : Nat → Nat → Int) : Op :=
  regOp fun e =>
    let l := lane e.st.latch.cls
    let n := m.w.bits l
    e.writeInt l d n m.xs fun j => f n (e.st.pat n a j)

/-- Form I (R94): the second pattern is the immediate's. -/
def intImm (lane : LCls → Bool) (d a : Reg) (imm : BitVec 23) (f : Nat → Nat → Nat → Int) : Op :=
  regOp fun e =>
    let l := lane e.st.latch.cls
    let n := if l then 32 else 64
    e.writeInt l d n false fun j => f n (e.st.pat n a j) (wrapN imm.toInt n)

end Sys2Proof.Machine
end

