-- ==== Sys2Proof/Machine/Flags.lean ====
section
/-! DEFINITION. Sys2Proof/Machine/Flags.lean: the floating-point formats (R189 to R192), the one rounding function with its
flags (R194 to R197), the arithmetic on exact values (R200, R201), the conversions (R202 to R204), and block floating point
(R205 to R209). -/

namespace Sys2Proof.Machine

/-! ### Formats (Table 7.1) -/

def fmtBits : FpFmt → Nat
  | .fp64 => 64 | .fp32 => 32 | .fp16 => 16 | .bf16 => 16 | .e4m3 => 8 | .e5m2 => 8

/-- Width of F. -/
def fmtFrac : FpFmt → Nat
  | .fp64 => 52 | .fp32 => 23 | .fp16 => 10 | .bf16 => 7 | .e4m3 => 3 | .e5m2 => 2

/-- Width of E. -/
def fmtExp (f : FpFmt) : Nat := fmtBits f - 1 - fmtFrac f

def fmtBias (f : FpFmt) : Nat := 2 ^ (fmtExp f - 1) - 1

/-- Exponent of the smallest normal value. -/
def fmtMin (f : FpFmt) : Int := 1 - (fmtBias f : Int)

def fmtCodeNum : FpFmt → Nat
  | .fp32 => 1 | .fp64 => 2 | .fp16 => 3 | .bf16 => 4 | .e4m3 => 5 | .e5m2 => 6

/-- A datum: a NaN (signalling or not), an infinity, or a finite value, a sign with `m` times 2^`e`. -/
inductive Fp where
  | nan (sig : Bool)
  | inf (neg : Bool)
  | fin (neg : Bool) (m : Nat) (e : Int)
  deriving DecidableEq, Repr

/-- The value of an encoding (R189 to R191). -/
def readFp (f : FpFmt) (x : Nat) : Fp :=
  let fw := fmtFrac f
  let neg := x / 2 ^ (fmtBits f - 1) % 2 = 1
  let ex := x / 2 ^ fw % 2 ^ fmtExp f
  let fr := x % 2 ^ fw
  if ex = 2 ^ fmtExp f - 1 && (f != .e4m3 || fr = 7) then
    (if f = .e4m3 then .nan false else if fr = 0 then .inf neg else .nan (fr / 2 ^ (fw - 1) = 0))
  else if ex = 0 then .fin neg fr (fmtMin f - fw)
  else .fin neg (2 ^ fw + fr) ((ex : Int) - fmtBias f - fw)

/-- The sign bit of a format. -/
def signBit (f : FpFmt) (neg : Bool) : Nat := if neg then 2 ^ (fmtBits f - 1) else 0

/-- Table 7.2. -/
def canonNan : FpFmt → Nat
  | .fp64 => 0x7FF8000000000000 | .fp32 => 0x7FC00000 | .fp16 => 0x7E00 | .bf16 => 0x7FC0 | .e4m3 => 0x7F | .e5m2 => 0x7E

/-- The largest finite value (Table 7.1), and infinity, which E4M3 lacks. -/
def maxFin (f : FpFmt) (neg : Bool) : Nat :=
  signBit f neg + (if f = .e4m3 then 0x7E else (2 ^ fmtExp f - 1) * 2 ^ fmtFrac f - 1)
def infOf (f : FpFmt) (neg : Bool) : Nat :=
  if f = .e4m3 then maxFin f neg else signBit f neg + (2 ^ fmtExp f - 1) * 2 ^ fmtFrac f

/-! ### Flags: bits of FPST[12:8] (Table 7.6) -/

abbrev Flags := BitVec 5
def flNV : Flags := 1
def flDZ : Flags := 2
def flOF : Flags := 4
def flUF : Flags := 8
def flNX : Flags := 16

/-- A result with the flags that it sets. -/
abbrev FpRes := Nat × Flags

/-! ### Rounding (R195 to R197) -/

/-- Whether the neighbour of greater magnitude is taken (Table 7.4). `r` of `d` is what lies above the lesser neighbour `k`. -/
def roundsUp (md : RoundMode) (neg : Bool) (k r d : Nat) : Bool :=
  match md with
  | .rne => d < 2 * r || (2 * r = d && k % 2 = 1)
  | .rz => false
  | .rup => !neg && r != 0
  | .rdn => neg && r != 0
  | .rna => d ≤ 2 * r && r != 0

/-- Floor of the base-2 logarithm of n/d times 2^e, for n and d not 0. -/
def logFloor (n d : Nat) (e : Int) : Int :=
  let l : Int := (Nat.log2 n : Int) - Nat.log2 d
  let ge := if 0 ≤ l then d * 2 ^ l.toNat ≤ n else d ≤ n * 2 ^ (-l).toNat
  e + (if ge then l else l - 1)

/-- n/d times 2^s as a fraction of naturals. -/
def scaleFrac (n d : Nat) (s : Int) : Nat × Nat := if 0 ≤ s then (n * 2 ^ s.toNat, d) else (n, d * 2 ^ (-s).toNat)

/-- The formats that FZ flushes (R197). -/
def flushable : FpFmt → Bool
  | .fp32 | .fp16 | .bf16 => true
  | _ => false

/-- Table 7.5. -/
def overflowTo (f : FpFmt) (md : RoundMode) (neg : Bool) : Nat :=
  match md with
  | .rne | .rna => infOf f neg
  | .rz => maxFin f neg
  | .rup => if neg then maxFin f neg else infOf f neg
  | .rdn => if neg then infOf f neg else maxFin f neg

/-- rnd (R195) of the non-zero real n/d times 2^e with its sign. `fz` flushes a tiny result (R197). -/
def roundTo (f : FpFmt) (md : RoundMode) (fz neg : Bool) (n d : Nat) (e : Int) : FpRes :=
  let fw := fmtFrac f
  let l := logFloor n d e
  let tiny := l < fmtMin f
  let ex := max l (fmtMin f)
  let (a, b) := scaleFrac n d (e - (ex - fw))
  let k := a / b
  let r := a % b
  let k1 := if roundsUp md neg k r b then k + 1 else k
  let (k2, ex2) := if k1 = 2 ^ (fw + 1) then (2 ^ fw, ex + 1) else (k1, ex)
  let emax : Int := if f = .e4m3 then 8 else fmtBias f
  if tiny && fz && flushable f then (signBit f neg, flUF ||| flNX)
  else if emax < ex2 || (f = .e4m3 && ex2 = 8 && k2 = 15) then (overflowTo f md neg, flOF ||| flNX)
  else
    let enc := if k2 < 2 ^ fw then k2 else (ex2 + fmtBias f).toNat * 2 ^ fw + (k2 - 2 ^ fw)
    (signBit f neg + enc, if r = 0 then 0 else if tiny then flUF ||| flNX else flNX)

/-- How an instruction rounds: its mode and FZ. -/
structure Rnd where
  md : RoundMode
  fz : Bool
  deriving DecidableEq, Repr

/-- The rounding mode of FPST.RM (Table 7.4). -/
def fpstMode (w : Word) : RoundMode :=
  match bits w 2 0 with
  | 0 => .rne | 1 => .rz | 2 => .rup | 3 => .rdn | _ => .rna

/-- Mode and FZ of an instruction (R194). -/
def Strand.rnd (t : Strand) (r : Option RoundMode) : Rnd := { md := r.getD (fpstMode t.fpst), fz := bit t.fpst 3 }

/-- RNE without flushing: engines, AFADD, blocks. -/
def rneOnly : Rnd := { md := .rne, fz := false }

/-- An input as an instruction reads it: under FZ a subnormal reads as zero of the same sign (R197). -/
def readIn (f : FpFmt) (fz : Bool) (x : Nat) : Fp :=
  match readFp f x with
  | .fin neg m e => if fz && flushable f && m < 2 ^ fmtFrac f then .fin neg 0 e else .fin neg m e
  | y => y

def Fp.isSig : Fp → Bool
  | .nan s => s
  | _ => false

def Fp.isNan : Fp → Bool
  | .nan _ => true
  | _ => false

/-- A NaN result: canonical, NV when an input signals (R191, R200). -/
def nanOf (f : FpFmt) (sig : Bool) : FpRes := (canonNan f, if sig then flNV else 0)

/-- A signed dyadic number rounded; a zero takes the sign `zneg` (R201). -/
def roundInt (f : FpFmt) (r : Rnd) (zneg : Bool) (m : Int) (e : Int) : FpRes :=
  if m = 0 then (signBit f zneg, 0) else roundTo f r.md r.fz (m < 0) m.natAbs 1 e

def signed (neg : Bool) (m : Nat) : Int := if neg then -(m : Int) else m

/-- Two dyadic numbers over the lesser exponent. -/
def align2 (a : Int) (ea : Int) (b : Int) (eb : Int) : Int × Int × Int :=
  let e := min ea eb
  (a * 2 ^ (ea - e).toNat, b * 2 ^ (eb - e).toNat, e)

/-- Sum of two data (R200, R201). `sig` tells that some input signalled. -/
def addFp (f : FpFmt) (r : Rnd) (x y : Fp) (sig : Bool) : FpRes :=
  match x, y with
  | .nan _, _ => nanOf f sig
  | _, .nan _ => nanOf f sig
  | .inf a, .inf b => if a = b then (infOf f a, if sig then flNV else 0) else (canonNan f, flNV)
  | .inf a, .fin .. => (infOf f a, 0)
  | .fin .., .inf b => (infOf f b, 0)
  | .fin na ma ea, .fin nb mb eb =>
    let (a, b, e) := align2 (signed na ma) ea (signed nb mb) eb
    let zneg := if ma = 0 && mb = 0 && na = nb then na else r.md = .rdn
    roundInt f r zneg (a + b) e

def Fp.negate : Fp → Fp
  | .nan s => .nan s
  | .inf n => .inf !n
  | .fin n m e => .fin (!n) m e

/-- The exact product, or NaN with NV for 0 times infinity. -/
def mulExact (x y : Fp) : Fp × Bool :=
  match x, y with
  | .nan s, _ => (.nan s, false)
  | _, .nan s => (.nan s, false)
  | .inf a, .inf b => (.inf (a != b), false)
  | .inf a, .fin b m _ => if m = 0 then (.nan false, true) else (.inf (a != b), false)
  | .fin a m _, .inf b => if m = 0 then (.nan false, true) else (.inf (a != b), false)
  | .fin a ma ea, .fin b mb eb => (.fin (a != b) (ma * mb) (ea + eb), false)

/-- A product rounded (R226). -/
def mulFp (f : FpFmt) (r : Rnd) (x y : Fp) : FpRes :=
  let (p, inv) := mulExact x y
  match p with
  | .nan _ => if inv then (canonNan f, flNV) else nanOf f (x.isSig || y.isSig)
  | .inf n => (infOf f n, 0)
  | .fin n m e => if m = 0 then (signBit f n, 0) else roundTo f r.md r.fz n m 1 e

/-- x*y + z with the product exact, `np` negating it (R226). -/
def fmaFp (f : FpFmt) (r : Rnd) (np : Bool) (x y z : Fp) : FpRes :=
  let (p, inv) := mulExact x y
  let sig := x.isSig || y.isSig || z.isSig
  if inv then (canonNan f, flNV) else addFp f r (if np then p.negate else p) z sig

/-- Quotient (R227). -/
def divFp (f : FpFmt) (r : Rnd) (x y : Fp) : FpRes :=
  match x, y with
  | .nan a, _ => nanOf f (a || y.isSig)
  | _, .nan b => nanOf f b
  | .inf _, .inf _ => (canonNan f, flNV)
  | .inf a, .fin b _ _ => (infOf f (a != b), 0)
  | .fin a _ _, .inf b => (signBit f (a != b), 0)
  | .fin a ma ea, .fin b mb eb =>
    if mb = 0 then (if ma = 0 then (canonNan f, flNV) else (infOf f (a != b), flDZ))
    else if ma = 0 then (signBit f (a != b), 0)
    else roundTo f r.md r.fz (a != b) ma mb (ea - eb)

/-- Floor of the square root: bits from the highest down. -/
def isqrtFrom : Nat → Nat → Nat → Nat
  | 0, _, r => r
  | i + 1, n, r => if (r + 2 ^ i) * (r + 2 ^ i) ≤ n then isqrtFrom i n (r + 2 ^ i) else isqrtFrom i n r

def isqrt (n : Nat) : Nat := isqrtFrom (Nat.log2 n / 2 + 1) n 0

/-- A fraction with the square root of n/d times 2^e: numerator, denominator, exponent, and whether it is the root itself.
Where it is not, it lies strictly between the two values of 80 and more significant bits that bracket the root. -/
def sqrtFrac (n d : Nat) (e : Int) : Nat × Nat × Int × Bool :=
  let odd := e % 2 = 1
  let e1 := if odd then e - 1 else e
  let n1 := (if odd then 2 * n else n) * 2 ^ (2 * 160 + 2 * Nat.log2 d) 
  let q := n1 / d
  let s := isqrt q
  let ok := n1 % d = 0 && s * s = q
  (if ok then 2 * s else 2 * s + 1, 2, e1 / 2 - 160 - Nat.log2 d, ok)

/-- Square root (R227). -/
def sqrtFp (f : FpFmt) (r : Rnd) (x : Fp) : FpRes :=
  match x with
  | .nan s => nanOf f s
  | .inf n => if n then (canonNan f, flNV) else (infOf f false, 0)
  | .fin n m e =>
    if m = 0 then (signBit f n, 0)
    else if n then (canonNan f, flNV)
    else
      let (a, b, k, _) := sqrtFrac m 1 e
      roundTo f r.md r.fz false a b k

/-- An order of data that are no NaN: -0 equals +0. -/
def fpLt (x y : Fp) : Bool :=
  match x, y with
  | .inf a, .inf b => a && !b
  | .inf a, .fin .. => a
  | .fin .., .inf b => !b
  | .fin na ma ea, .fin nb mb eb =>
    let (a, b, _) := align2 (signed na ma) ea (signed nb mb) eb
    a < b
  | _, _ => false

def fpEq (x y : Fp) : Bool :=
  match x, y with
  | .inf a, .inf b => a = b
  | .fin na ma ea, .fin nb mb eb =>
    let (a, b, _) := align2 (signed na ma) ea (signed nb mb) eb
    a = b
  | _, _ => false

def Fp.isNeg : Fp → Bool
  | .nan _ => false
  | .inf n => n
  | .fin n _ _ => n

/-- A datum written in a format that holds it: used for results that are one of the inputs. -/
def writeFp (f : FpFmt) (x : Fp) : Nat :=
  match x with
  | .nan _ => canonNan f
  | .inf n => infOf f n
  | .fin n m e => if m = 0 then signBit f n else (roundTo f .rne false n m 1 e).1

/-- FMIN and FMAX (R229). -/
def minMaxFp (f : FpFmt) (mx : Bool) (x y : Fp) : FpRes :=
  let fl := if x.isSig || y.isSig then flNV else 0
  match x, y with
  | .nan _, .nan _ => (canonNan f, fl)
  | .nan _, _ => (writeFp f y, fl)
  | _, .nan _ => (writeFp f x, fl)
  | _, _ =>
    let lt := fpLt x y || (fpEq x y && x.isNeg && !y.isNeg)
    (writeFp f (if lt != mx then x else y), fl)

/-- FCMP (Table 8.4): the condition, and NV. -/
def fcmpFp (cc : FcmpCc) (x y : Fp) : Bool × Flags :=
  let un := x.isNan || y.isNan
  let sig := x.isSig || y.isSig
  let quiet := match cc with
    | .lt | .le | .gt | .ge => true
    | _ => false
  let c := match cc with
    | .eq => fpEq x y
    | .ne => un || !fpEq x y
    | .lt => !un && fpLt x y
    | .le => !un && (fpLt x y || fpEq x y)
    | .gt => !un && fpLt y x
    | .ge => !un && (fpLt y x || fpEq x y)
    | .uo => un
    | .o => !un
  (c, if sig || (un && quiet) then flNV else 0)

/-- FCLASS (R232). -/
def fclassFp (f : FpFmt) (x : Nat) : Nat :=
  match readFp f x with
  | .inf n => if n then 1 else 128
  | .nan s => if s then 256 else 512
  | .fin n m _ =>
    if m = 0 then (if n then 8 else 16)
    else if m < 2 ^ fmtFrac f then (if n then 4 else 32) else if n then 2 else 64

/-! ### Conversions -/

/-- Between formats (R202). -/
def cvtFp (ft : FpFmt) (r : Rnd) (x : Fp) : FpRes :=
  match x with
  | .nan s => nanOf ft s
  | .inf n => (infOf ft n, if ft = .e4m3 then flNV else 0)
  | .fin n m e => if m = 0 then (signBit ft n, 0) else roundTo ft r.md r.fz n m 1 e

/-- m times 2^e rounded to an integer: the integer and whether it is exact. -/
def roundNat (md : RoundMode) (neg : Bool) (m : Nat) (e : Int) : Nat × Bool :=
  let (a, b) := scaleFrac m 1 e
  let k := a / b
  let r := a % b
  (if roundsUp md neg k r b then k + 1 else k, r = 0)

/-- To an integer of `n` bits (R203). -/
def ftoiFp (md : RoundMode) (n : Nat) (u : Bool) (x : Fp) : Int × Flags :=
  let lo : Int := if u then 0 else -(2 ^ (n - 1))
  let hi : Int := if u then 2 ^ n - 1 else 2 ^ (n - 1) - 1
  match x with
  | .nan _ => (0, flNV)
  | .inf neg => (if neg then lo else hi, flNV)
  | .fin neg m e =>
    let (k, exact) := roundNat md neg m e
    let q := signed neg k
    if q < lo then (lo, flNV) else if hi < q then (hi, flNV) else (q, if exact then 0 else flNX)

/-- From an integer (R204). -/
def itofFp (ft : FpFmt) (r : Rnd) (v : Int) : FpRes := roundInt ft r false v 0

/-- To an integral value of its own format (R234). -/
def froundFp (f : FpFmt) (md : RoundMode) (x : Fp) : FpRes :=
  match x with
  | .nan s => nanOf f s
  | .inf n => (infOf f n, 0)
  | .fin n m e =>
    let (k, exact) := roundNat md n m e
    (if k = 0 then signBit f n else (roundTo f .rne false n k 1 0).1, if exact then 0 else flNX)

/-! ### Block floating point (R205 to R208) -/

/-- A block: its exponent and its 32 elements. E = 255 marks a NaN block. -/
structure Block where
  e : Nat
  m : List Int
  deriving DecidableEq, Repr

/-- Some value is a NaN or an infinity. -/
def Fp.special : Fp → Bool
  | .fin .. => false
  | _ => true

/-- Magnitude m times 2^e is below 2^k. -/
def belowPow (m : Nat) (e k : Int) : Bool := m = 0 || logFloor m 1 e < k

/-- Quantisation (R207) to width `w`. -/
def quantise (w : Nat) (xs : List Fp) : Block × Flags :=
  if xs.any Fp.special then
    ({ e := 255, m := xs.map fun _ => 0 },
     if xs.any fun x => match x with
       | .inf _ => true
       | .nan s => s
       | _ => false then flNV else 0)
  else
    let below := fun (k : Nat) => xs.all fun x => match x with
      | .fin _ m e => belowPow m e ((k : Int) - 127)
      | _ => false
    let (e, ov) := match (List.range 255).find? below with
      | some k => (k, false)
      | none => (254, true)
    let sc : Int := (e : Int) - 127 - (w - 1)
    let one := fun (x : Fp) => match x with
      | .fin n m ex =>
        let (k, exact) := roundNat .rne n m (ex - sc)
        let q := signed n k
        let y := satInt q (-(2 ^ (w - 1))) (2 ^ (w - 1) - 1)
        (y, (if exact && y = q then (0 : Flags) else flNX) ||| (if y = 0 && m != 0 then flUF else 0))
      | _ => (0, 0)
    let ys := xs.map one
    ({ e := e, m := ys.map (·.1) }, ys.foldl (fun a y => a ||| y.2) (if ov then flOF else 0))

/-- The exact value of an element of a block (R206). -/
def Block.value (b : Block) (w : Nat) (j : Nat) : Fp :=
  if b.e = 255 then .nan false
  else
    let m := (b.m[j]?).getD 0
    .fin (m < 0) m.natAbs ((b.e : Int) - 127 - (w - 1))

/-- Dequantisation of an element (R208). -/
def dequant (ft : FpFmt) (md : RoundMode) (w : Nat) (b : Block) (j : Nat) : FpRes :=
  match b.value w j with
  | .fin n m e => if m = 0 then (0, 0) else roundTo ft md false n m 1 e
  | _ => (canonNan ft, 0)

/-- The 32 elements of a block as 4w bytes, a natural number (R205). -/
def Block.image (b : Block) (w : Nat) : Nat := packN w (b.m.map fun x => wrapN x w)

/-- A block from its exponent and its element string. -/
def blockOf (w e img : Nat) : Block := { e := e, m := (List.range 32).map fun j => sextN (img / 2 ^ (w * j)) w }

/-- FPST with flags set (R199). -/
def Strand.setFlags (t : Strand) (fl : Flags) : Strand :=
  { t with fpst := t.fpst ||| BitVec.ofNat 64 (fl.toNat * 256) }

end Sys2Proof.Machine
end

