-- ==== Sys2Proof/Machine/Approx.lean ====
section
/-! DEFINITION. Sys2Proof/Machine/Approx.lean: the approximated functions (R228, R336, R369). Each is computed as a rational
number that lies strictly between the same two neighbours of the format as the exact result; which of the two is returned is
left open (Config.bracketUp). -/

namespace Sys2Proof.Machine

/-- Fraction bits of the fixed-point numbers below. -/
def fixP : Nat := 256

/-- The natural logarithm of 2 and the base-2 logarithm of e, times 2^320, rounded down. -/
def ln2Fix : Nat := 1480553391661173448385607439722553250922680800745876974795605978609098082859138712941075737848984
def log2eFix : Nat := 3081577904126213121686167198097690134163479766071396094403848907535455306605342191083616308484524

/-- m times 2^e as a fixed-point number of `p` fraction bits, rounded down. -/
def toFix (p : Nat) (v : Int) (e : Int) : Int := if 0 ≤ e + p then v * 2 ^ (e + p).toNat else v / 2 ^ (-(e + p)).toNat

/-- Taylor series of the exponential function by Horner's rule, for `k` terms. -/
def expSeries : Nat → Nat → Nat → Nat
  | 0, _, acc => acc
  | k + 1, r, acc => expSeries k r (2 ^ fixP + r * acc / ((k + 1) * 2 ^ fixP))

/-- 2^t for a fixed-point t: mantissa with `fixP` fraction bits, and exponent. -/
def pow2Fix (t : Int) : Nat × Int :=
  let f := (t % 2 ^ fixP).toNat
  (expSeries 64 (f * ln2Fix / 2 ^ 320) (2 ^ fixP), t / 2 ^ fixP)

/-- e^x as a fixed-point power of 2, for x of magnitude below 2^12. -/
def expFix (v : Int) (e : Int) : Nat × Int := pow2Fix (toFix 320 v e * log2eFix / 2 ^ (640 - fixP))

/-- Magnitude m times 2^e is at least 2^k. -/
def geqPow (m : Nat) (e k : Int) : Bool := m != 0 && k ≤ logFloor m 1 e

/-- The real n/d times 2^e returned as one of its two neighbours (R228). Above the largest binade the result overflows: R228 ignores
the rounding mode on which the value of Table 7.5 depends, and the model takes the row of RNE, infinity (log 52, DESIGN CHOICE). -/
def bracket (f : FpFmt) (fz neg up : Bool) (n d : Nat) (e : Int) : FpRes :=
  let md : RoundMode :=
    if (fmtBias f : Int) < logFloor n d e then .rne else if up then (if neg then .rdn else .rup) else .rz
  roundTo f md fz neg n d e

/-- Functions whose bracketing value is left open, by the number that Config.bracketUp is given. -/
inductive Approx where
  | rsq | exp2 | log2 | tanh | expf | vexp
  deriving DecidableEq, Repr

def Approx.num : Approx → Nat
  | .rsq => 0 | .exp2 => 1 | .log2 => 2 | .tanh => 3 | .expf => 4 | .vexp => 5

/-- Which neighbour a function returns for an input. -/
def Approx.up (a : Approx) (f : FpFmt) (x : Nat) : Bool := Config.bracketUp a.num (fmtCodeNum f) x

/-- FRSQ (R228). -/
def rsqFp (f : FpFmt) (fz up : Bool) (x : Fp) : FpRes :=
  match x with
  | .nan s => nanOf f s
  | .inf n => if n then (canonNan f, flNV) else (0, 0)
  | .fin n m e =>
    if m = 0 then (infOf f n, flDZ)
    else if n then (canonNan f, flNV)
    else
      let (a, b, k, _) := sqrtFrac 1 m (-e)
      bracket f fz false up a b k

/-- 2^x with its representative for arguments near 0. -/
def exp2Frac (n : Bool) (m : Nat) (e : Int) : Nat × Int :=
  let (k, exact) := roundNat .rz n m e
  if geqPow m e 13 then (1, if n then -5000 else 5000)
  else if exact then (1, signed n k)
  else if geqPow m e (-70) then
    let (a, i) := pow2Fix (toFix fixP (signed n m) e)
    (2 * a + 1, i - fixP - 1)
  else (if n then 2 ^ 100 - 1 else 2 ^ 100 + 1, -100)

/-- FEXP2 (R228). -/
def exp2Fp (f : FpFmt) (fz up : Bool) (x : Fp) : FpRes :=
  match x with
  | .nan s => nanOf f s
  | .inf n => (if n then 0 else infOf f false, 0)
  | .fin n m e =>
    let (a, k) := exp2Frac n m e
    bracket f fz false up a 1 k

/-- Bits of the base-2 logarithm of y/2^400, y from 2^400 to 2^401 - 1: `k` more bits below `acc`. -/
def log2Bits : Nat → Nat → Nat → Nat
  | 0, _, acc => acc
  | k + 1, y, acc =>
    let z := y * y / 2 ^ 400
    if 2 ^ 401 ≤ z then log2Bits k (z / 2) (2 * acc + 1) else log2Bits k z (2 * acc)

/-- FLOG2 (R228). -/
def log2Fp (f : FpFmt) (fz up : Bool) (x : Fp) : FpRes :=
  match x with
  | .nan s => nanOf f s
  | .inf n => if n then (canonNan f, flNV) else (infOf f false, 0)
  | .fin n m e =>
    if m = 0 then (infOf f true, flDZ)
    else if n then (canonNan f, flNV)
    else
      let l := Nat.log2 m
      let i := (l : Int) + e
      if m = 2 ^ l then roundInt f rneOnly false i 0
      else
        let v := i * 2 ^ 181 + (2 * log2Bits 180 (m * 2 ^ (400 - l)) 0 + 1 : Nat)
        bracket f fz (v < 0) up v.natAbs 1 (-181)

/-- FTANH (R228). -/
def tanhFp (f : FpFmt) (fz up : Bool) (x : Fp) : FpRes :=
  let one := (fmtBias f) * 2 ^ fmtFrac f
  match x with
  | .nan s => nanOf f s
  | .inf n => (signBit f n + one, 0)
  | .fin n m e =>
    if m = 0 then (signBit f n, 0)
    else if !(align2 m e (if f = .fp64 then 40 else 20) 0 |> fun (a, b, _) => a < b) then (signBit f n + one, flNX)
    else if geqPow m e (-30) then
      let (a, i) := expFix m (e + 1)
      let y := a * 2 ^ i.toNat
      bracket f fz n up (y - 2 ^ fixP) (y + 2 ^ fixP) 0
    else bracket f fz n up (m * 2 ^ 200 - 1) 1 (e - 200)

/-- A positive fraction with e^x, x not 0. -/
def expFrac (n : Bool) (m : Nat) (e : Int) : Nat × Int :=
  if geqPow m e 9 then (3, if n then -600 else 600)
  else if geqPow m e (-70) then
    let (a, i) := expFix (signed n m) e
    (2 * a + 1, i - fixP - 1)
  else (if n then 2 ^ 100 - 1 else 2 ^ 100 + 1, -100)

/-- e^x in FP32 (R336, R369). -/
def expFp (up : Bool) (x : Fp) : FpRes :=
  match x with
  | .nan s => nanOf .fp32 s
  | .inf n => (if n then 0 else infOf .fp32 false, 0)
  | .fin n m e =>
    if m = 0 then (127 * 2 ^ 23, 0)
    else
      let (a, k) := expFrac n m e
      bracket .fp32 false false up a 1 k

/-- EXPF of an FP32 pattern (R336). -/
def expf (x : Nat) : Nat := (expFp (Approx.up .expf .fp32 x) (readFp .fp32 x)).1

end Sys2Proof.Machine
end

