-- ==== Sys2Proof/Machine/Reach.lean ====
section
/-! DEFINITION. Sys2Proof/Machine/Reach.lean: the accesses of agents that run no instruction: the module scheduler and the ports
(R396, R477, R480, R533), and the dirty ring and the migration block of a virtual function (R541, R542). -/

namespace Sys2Proof.Machine

/-! ### An access -/

/-- The outcome of an access that an act makes: a place; a page that is not there or lies in the second tier, which holds the act
until it is (R477); or any other outcome of Table 4.3, with the address of its fault. -/
inductive Reach where
  | ok (s : State) (pa : Nat)
  | held (s : State)
  | bad (s : State) (c : FaultCode) (va : Word)
  deriving DecidableEq, Repr

/-- AGENT and PCOORD of a fault descriptor for an access that an act makes (R396): a port's block, or the scheduler, which
Table 15.6 names in no way (log 56). -/
def actSource : Instr → Nat × Word
  | .egressDescriptor n | .egressComplete n _ | .retransmitTimeout n _ => (2, pcoordOf (tileOfPort n * 64))
  | _ => (Config.schedulerAgent % 4, 0)

/-- The access is held at its home field already: it is linked once, with one descriptor. -/
def State.heldAct (s : State) (f : Nat) (w : FaultWait) : Bool :=
  (s.field f).faults.contains w || (s.field f).promos.any fun q => q.waiters.any fun h => h.wait = w

/-- An access for the act `i`. One whose promotion has met a tag failure has the outcome UNCORR at the chunk's address, once
(R476, R480). -/
def State.reach (s : State) (i : Instr) (user : Bool) (part ctx : Nat) (va : Word) (acc : Acc) : Reach :=
  match tget s.parts part with
  | none => .bad s .badaddr va
  | some p =>
    match p.lostActs.find? fun x => x.1 = i && x.2.1 = va with
    | some x => .bad (s.setPart part { p with lostActs := ldel p.lostActs x }) .uncorr x.2.2
    | none =>
      let w : FaultWait := { who := .act i, part := part, ctx := ctx, va := va, acc := acc.num }
      let info := fun (m : Bool) => descInfo ctx (actSource i).1 m acc (actSource i).2
      match s.place user { part := part, ctx := ctx, gen := p.genOf ctx agentFree, va := va, acc := acc } with
      | .ok (s1, pa) => .ok s1 pa
      | .error (.page _ f _ m) =>
        .held (if s.heldAct f w then s else s.linkFault f w [va, info m, 0, BitVec.ofNat 64 s.time])
      | .error (.tier _ f _ en big slot) =>
        if !s.tierAllowed p ctx en big then .bad s .access va
        else .held (if s.heldAct f w then s else s.joinPromo f en big slot { wait := w, info := info false, taskid := 0 })
      | .error (.fault c v) => .bad s c v
      | .error (.walkLost v) => .bad s .uncorr v
      | .error _ => .bad s .badaddr va

/-- Several accesses as supervisor: every place, none for one that has no place; or the state in which the act is held. -/
def State.reachAll (s : State) (i : Instr) (part ctx : Nat) : List (Word × Acc) → State × Option (List (Option Nat))
  | [] => (s, some [])
  | (va, acc) :: t =>
    match s.reach i false part ctx va acc with
    | .held s1 => (s1, none)
    | .bad s1 _ _ =>
      let (s2, l) := s1.reachAll i part ctx t
      (s2, l.map (none :: ·))
    | .ok s1 pa =>
      let (s2, l) := s1.reachAll i part ctx t
      (s2, l.map (some pa :: ·))

/-- Bytes written at a place for a context, where there is one. -/
def State.putReach (s : State) (ctx : Nat) (pa : Option (Option Nat)) (bs : List Byte) : State :=
  match pa.join with
  | some a => (s.touchL2 a ctx).slicePut a bs
  | none => s

/-- Several accesses of which each must have its place. -/
inductive Reached where
  | ok (s : State) (l : List Nat)
  | held (s : State)
  | bad (s : State)
  deriving DecidableEq, Repr

def State.reachEach (s : State) (i : Instr) (user : Bool) (part ctx : Nat) : List (Word × Acc) → Reached
  | [] => .ok s []
  | (va, acc) :: t =>
    match s.reach i user part ctx va acc with
    | .bad s1 _ _ => .bad s1
    | .held s1 => .held s1
    | .ok s1 pa =>
      match s1.reachEach i user part ctx t with
      | .ok s2 l => .ok s2 (pa :: l)
      | x => x

/-! ### Work of the device for a virtual function (R541, R542) -/

/-- Context of a supervisor session (log 31). -/
def sessionCtx : Nat := 0

/-- STATE of a migration block (Table 21.8). -/
def Vf.stateWord (f : Vf) : Word :=
  BitVec.ofNat 64 ((if f.tracking then 1 else 0) + (if f.dovf then 2 else 0) + (if f.pause = 3 then 4 else 0) + if f.released then 8 else 0)

/-- What a virtual function is as the scheduler keeps it, changed. -/
def State.modVf (s : State) (part v : Nat) (f : Vf → Vf) : State :=
  s.modPart part fun p => { p with vfs := tput p.vfs v (f (tgetD p.vfs v {})) }

/-- What trying a piece of work comes to: done, or held for a page. -/
inductive DevTried where
  | done (s : State)
  | held (s : State)
  deriving DecidableEq, Repr

/-- OVF set: nothing more enters the ring until the next TRACK (R542). -/
def State.setOvf (s : State) (part n : Nat) (f : Vf) (statePa : Option Nat) : State :=
  (s.modVf part n fun x => { x with dovf := true }).putReach sessionCtx (some statePa)
    (bytesOf 8 ({ f with dovf := true } : Vf).stateWord.toNat)

/-- An entry put on the dirty ring, and DTAIL one higher; when that makes the ring full, OVF is set (R542). A ring that has no
place, or is lost, takes the entry for one too many: DESIGN CHOICE (log 65). -/
def State.dirtyPage (s : State) (i : Instr) (part n : Nat) (f : Vf) (ent : Word) : DevTried :=
  if !f.tracking || f.dovf then .done s
  else
    match s.reachAll i part sessionCtx [(f.mblk + 8, .write), (f.dtail, .rmw), (f.mblk + 0x28, .read)] with
    | (s1, some [st, some tp, some hp]) =>
      let used := (s1.dwAt tp - s1.dwAt hp).toNat
      if f.dnslot ≤ used || s1.lostAt tp 8 || s1.lostAt hp 8 then .done (s1.setOvf part n f st)
      else
        match s1.reach i false part sessionCtx (f.dring + BitVec.ofNat 64 (8 * ((s1.dwAt tp).toNat % f.dnslot))) .write with
        | .held s2 => .held s2
        | .bad s2 _ _ => .done (s2.setOvf part n f st)
        | .ok s2 rp =>
          let s3 := ((s2.putReach sessionCtx (some (some rp)) (bytesOf 8 ent.toNat)).addAt sessionCtx tp 1).modVf part n fun x =>
            { x with dpages := x.dpages ++ [ent] }
          .done (if used + 1 = f.dnslot then s3.setOvf part n f st else s3)
    | (s1, some (st :: _)) => .done (s1.setOvf part n f st)
    | (s1, some []) => .done s1
    | (s1, none) => .held s1

/-- A migration subcode completed: STATE is written, and CDONE gets its addition (R541). -/
def State.moveDone (s : State) (i : Instr) (part n : Nat) (f : Vf) (blk : Word) : DevTried :=
  let close := fun (x : State) => x.modVf part n fun y => { y with moving := none }
  match s.reachAll i part sessionCtx [(blk + 8, .write), (blk + 0x30, .read)] with
  | (s1, some (st :: some cp :: _)) =>
    match s1.reach i false part sessionCtx (s1.dwAt cp) .rmw with
    | .held s2 => .held s2
    | .bad s2 _ _ => .done (close (s2.putReach sessionCtx (some st) (bytesOf 8 f.stateWord.toNat)))
    | .ok s2 pa => .done (close ((s2.putReach sessionCtx (some st) (bytesOf 8 f.stateWord.toNat)).addAt sessionCtx pa 1))
  | (s1, some l) => .done (close (s1.putReach sessionCtx l[0]? (bytesOf 8 f.stateWord.toNat)))
  | (s1, none) => .held s1

/-- One piece of work tried. -/
def State.devTry (s : State) (i : Instr) (part : Nat) (d : DevOp) : DevTried :=
  match tget s.parts part with
  | none => .done s
  | some p =>
    let f := tgetD p.vfs d.vf {}
    match d.what with
    | .dirty ent => s.dirtyPage i part d.vf f ent
    | .done blk => s.moveDone i part d.vf f blk

/-- The first piece of work of each virtual function. -/
def devHeads : List DevOp → List DevOp
  | [] => []
  | d :: t => d :: (devHeads t).filter fun x => x.vf != d.vf

/-- The first of several pieces of work that no page holds is done, and the next one is due. -/
def State.devFirst (s : State) (i : Instr) (part : Nat) : List DevOp → State
  | [] => s
  | d :: t =>
    match s.devTry i part d with
    | .held s1 => s1.devFirst i part t
    | .done s1 => (s1.modPart part fun p => { p with devs := ldel p.devs d }).postOnce i

/-- The turn of the work of a partition, at its first field. -/
def State.devTurn (s : State) (field : Nat) : State :=
  match s.partOfField field with
  | some (n, p) => if p.phys 0 = some field then s.devFirst (.counterAddition field) n (devHeads p.devs) else s
  | none => s

/-! ### The rings of a bound port (R528, R536) -/

/-- No egress descriptor of a bound port is under way or waits in its ring; one whose ETAIL is held for a page waits. -/
def State.ringIdle (s : State) (n : Nat) (x : Port) (b : Binding) : Bool :=
  x.egress.isNone &&
  match s.devDw b.part b.ctx b.etail with
  | some v => v = b.ehead
  | none => !(s.fields.any fun e =>
      e.2.faults.any (fun w => w.who = .act (.egressDescriptor n)) ||
      e.2.promos.any fun q => q.waiters.any fun h => h.wait.who = .act (.egressDescriptor n))

end Sys2Proof.Machine
end

