-- ==== Sys2Proof/Machine/Access.lean ====
section
/-! DEFINITION. Sys2Proof/Machine/Access.lean: the memory instructions (chapter 4): loads and stores, scalar and vector,
prefetch, atomics, counters and FENCE: first what they do, then one meaning for each. -/

namespace Sys2Proof.Machine

/-! ### Accesses -/

/-- Rank 1 of Table 4.3 (R122). -/
def checkAlign (va : Word) (n : Nat) : Res Unit := faultIf (va.toNat % n != 0) .align va

/-- The place of an access of `n` bytes: ranks 1 to 5 of Table 4.3. -/
def Env.placeOf (e : Env) (s : State) (va : Word) (n : Nat) (acc : Acc) : Res (State × Nat) := do
  checkAlign va n
  e.placed s va acc

/-- A buffered entry touches bytes of a range. -/
def StoreEntry.overlaps (pa n : Nat) : StoreEntry → Bool
  | .store _ es => es.any fun x => x.pa < pa + n && pa < x.pa + x.bytes.length
  | .cadd _ a _ => a < pa + n && pa < a + 8

/-- The strand's own posted stores to the bytes of an access are performed before it (R125). -/
def Env.settle (e : Env) (s : State) (pa n : Nat) : State :=
  match tget s.slots e.k with
  | some sl => if sl.buf.any (·.overlaps pa n) then s.drain e.k else s
  | none => s

/-- Bytes read at the home slice or at the scratchpad controller: UNCORR where some are lost (rank 6). -/
def Env.homeRead (e : Env) (s : State) (va : Word) (pa n : Nat) : Res (State × Nat) :=
  if s.lostAt pa n then failWith .uncorr va else .ok (s.touchL2 pa e.ctx, s.valAt pa n)

/-- A load of `n` bytes whose place is known (R251). -/
def Env.loadAt (e : Env) (s : State) (va : Word) (pa n : Nat) : Res (State × Nat) :=
  let s1 := e.settle s pa n
  if isPad pa then e.homeRead s1 va pa n else s1.l1Load e.k va e.ctx e.gen pa n

/-- A relaxed load of `n` bytes. -/
def Env.load (e : Env) (s : State) (va : Word) (n : Nat) : Res (State × Nat) :=
  match e.placeOf s va n .read with
  | .error x => .error x
  | .ok (s1, pa) => e.loadAt s1 va pa n

/-- The line of an access written back and invalidated in the core (R252). The field's remote copy goes too: what the access
finds at the home slice is never older than what a later load finds (R149, R384; log 51). -/
def Env.flush (e : Env) (s : State) (va : Word) (pa n : Nat) : State :=
  let s1 := e.settle s pa n
  if isPad pa then s1 else (s1.flushLine e.core va e.ctx).dropRdc e.fld va e.ctx

/-- A relaxed read of `n` bytes past the L1 data cache (R249). -/
def Env.loadPast (e : Env) (s : State) (va : Word) (n : Nat) : Res (State × Nat) :=
  match e.placeOf s va n .read with
  | .error x => .error x
  | .ok (s1, pa) => e.homeRead (e.flush s1 va pa n) va pa n

/-- An acquire load: its bytes come from the home slice, and the acquire follows (R252, R253). -/
def Env.loadAcq (e : Env) (s : State) (va : Word) (n : Nat) (sc : Scope) : Res (State × Nat) :=
  match e.loadPast s va n with
  | .error x => .error x
  | .ok (s1, v) => .ok (s1.acquire e.k sc, v)

/-- The word of a strand as its posted stores name it. -/
def Env.org (e : Env) : Origin := { tpc := e.st.pc, hdr := e.st.hdr }

/-- The merging fill of a store of 1 or 2 bytes to a global word, made when the store is checked and after the strand's own posted
stores to that word (R124, R250, R251): UNCORR where the word is lost. -/
def Env.storeCheck (e : Env) (s : State) (va : Word) (pa n : Nat) : Res State :=
  if isPad pa || 4 ≤ n then .ok s
  else
    let s1 := e.settle s (pa / 4 * 4) 4
    let (s2, l, lost) := s1.storeFill e.k va e.ctx e.gen pa n
    if lost then failWith .uncorr va else .ok (s2.putLine e.core l)

/-- The checks of one stored element, and the element (R123, R124). -/
def Env.storeElem (e : Env) (s : State) (va : Word) (n v : Nat) : Res (State × StoreElem) := do
  let (s1, pa) ← e.placeOf s va n .write
  let s2 ← e.storeCheck s1 va pa n
  return (s2, { va := va, pa := pa, bytes := bytesOf n v })

/-- Entries posted into the store buffer, when it has room for all of them; else the strand is stalled within the word (R130,
R187). -/
def Env.postEntries (e : Env) (s : State) (l : List StoreEntry) : Res State :=
  match tget s.slots e.k with
  | none => .ok s
  | some sl =>
    if bufferSize < sl.buf.length + l.length then .error (.become (s.setSlot e.k { sl with stalled := true }))
    else .ok ((s.setSlot e.k { sl with buf := sl.buf ++ l }).postOnce (.storeBufferDrain e.k))

/-- An entry posted into the store buffer. -/
def Env.postEntry (e : Env) (s : State) (x : StoreEntry) : Res State := e.postEntries s [x]

/-- A write performed at its home slice or controller. No copy of its bytes stays in the core (R252, R253). -/
def Env.writeHome (e : Env) (s : State) (va : Word) (pa : Nat) (bs : List Byte) : State :=
  let s1 := e.flush s va pa bs.length
  s1.homeWrite (s1.writerFrom e.k e.ctx e.org) va pa bs

/-! ### Scalar loads and stores (R129) -/

def ssize : ScalarSz → Nat
  | .d => 8 | .b => 1 | .h => 2 | .w => 4

/-- A loaded value extended to 64 bits. -/
def extend64 (v n : Nat) (sx : Bool) : Word := BitVec.ofNat 64 (extendTo v (8 * n) sx 64)

def opLoad (va : Env → Word) (d : Reg) (sz : ScalarSz) (sx : Bool) (acq : Option Scope) : Op := fun e s => do
  let n := ssize sz
  let (s1, v) ← match acq with
    | none => e.load s (va e) n
    | some sc => e.loadAcq s (va e) n sc
  return e.put s1 (e.st.putS d (extend64 v n sx))

/-- Address of a form I access (R126). -/
def Env.vaImm (e : Env) (a : Reg) (imm : BitVec 23) : Word := e.st.scalar a + immW imm

/-- Address of an indexed scalar access. -/
def Env.vaIdx (e : Env) (a b : Reg) (sh : Nat) : Word := e.st.scalar a + (e.st.scalar b <<< sh)

def opLd (d a : Reg) (imm : BitVec 23) (sz : ScalarSz) (sx : Bool) (acq : Option Scope) : Op :=
  opLoad (fun e => e.vaImm a imm) d sz sx acq

def opLdx (d a b : Reg) (sh : Fin 8) (sz : ScalarSz) (sx : Bool) (acq : Option Scope) : Op :=
  opLoad (fun e => e.vaIdx a b sh.val) d sz sx acq

/-- ST (R129, R130). A release is performed at the home slice, whatever its scope (R253). -/
def opSt (d a : Reg) (imm : BitVec 23) (sz : ScalarSz) (rel : Option Scope) : Op := fun e s => do
  let va := e.vaImm a imm
  let (s1, x) ← e.storeElem s va (ssize sz) (e.st.scalar d).toNat
  match rel with
  | none => e.postEntry s1 (.store e.org [x])
  | some sc => return e.writeHome (s1.release e.k sc) x.va x.pa x.bytes

/-! ### Vector loads and stores (R131, R132) -/

def vsize : VecSz → Nat
  | .w => 4 | .b => 1 | .h => 2 | .d => 8

/-- Elements of 8 bytes lie in lane pairs. -/
def vwide (sz : VecSz) : Bool := sz = .d

/-- Enabled elements of a vector access, ascending. -/
def Env.enabledElems (e : Env) (sz : VecSz) : List Nat :=
  (upto (if vwide sz then 32 else 64)).filter (laneEnabled e.lanes (vwide sz))

/-- Elements loaded in ascending order: the outcome of the lowest-numbered one that has one stops the access (R124). -/
def Env.loadElems (e : Env) (va : Nat → Word) (n : Nat) : List Nat → State → Res (State × List (Nat × Nat))
  | [], s => .ok (s, [])
  | j :: t, s =>
    match e.load s (va j) n with
    | .error x => .error x
    | .ok (s1, v) =>
      match e.loadElems va n t s1 with
      | .error x => .error x
      | .ok (s2, l) => .ok (s2, (j, v) :: l)

/-- Elements checked in ascending order for a store. -/
def Env.storeElems (e : Env) (va : Nat → Word) (n : Nat) (data : Nat → Nat) : List Nat → State → Res (State × List StoreElem)
  | [], s => .ok (s, [])
  | j :: t, s =>
    match e.storeElem s (va j) n (data j) with
    | .error x => .error x
    | .ok (s1, v) =>
      match e.storeElems va n data t s1 with
      | .error x => .error x
      | .ok (s2, l) => .ok (s2, v :: l)

def opLoadV (va : Env → Nat → Word) (d : Reg) (sz : VecSz) (sx : Bool) : Op := fun e s => do
  let n := vsize sz
  let w64 := vwide sz
  let (s1, l) ← e.loadElems (va e) n (e.enabledElems sz) s
  return e.put s1 (e.st.putV d (blend e.lanes w64 (e.st.priorV d) fun j =>
    extendTo ((tgetD l j 0 : Nat) : Int) (8 * n) sx (if w64 then 64 else 32)))

def opStoreV (va : Env → Nat → Word) (src : Reg) (sz : VecSz) : Op := fun e s => do
  let n := vsize sz
  let x := elems (e.st.vector src) (vwide sz)
  let (s1, l) ← e.storeElems (va e) n (fun j => (x[j]?).getD 0) (e.enabledElems sz) s
  if l.isEmpty then return s1 else e.postEntry s1 (.store e.org l)

/-- Address of element `j` of a contiguous access. -/
def Env.vaRun (e : Env) (a : Reg) (imm : BitVec 23) (sz : VecSz) (j : Nat) : Word :=
  e.vaImm a imm + BitVec.ofNat 64 (j * vsize sz)

/-- Address of element `j` of a gather or scatter. -/
def Env.vaGather (e : Env) (a b : Reg) (sh : Nat) (sz : VecSz) (j : Nat) : Word :=
  e.st.scalar a + ((Sys2Proof.Machine.lane (e.st.vector b) (if vwide sz then 2 * j else j)).signExtend 64 <<< sh)

def opLdv (d a : Reg) (imm : BitVec 23) (sz : VecSz) (sx : Bool) : Op := opLoadV (fun e => e.vaRun a imm sz) d sz sx
def opLdg (d a b : Reg) (sh : Fin 8) (sz : VecSz) (sx : Bool) : Op := opLoadV (fun e => e.vaGather a b sh.val sz) d sz sx
def opStv (d a : Reg) (imm : BitVec 23) (sz : VecSz) : Op := opStoreV (fun e => e.vaRun a imm sz) d sz
def opStsc (a b c : Reg) (sh : Fin 8) (sz : VecSz) : Op := opStoreV (fun e => e.vaGather a b sh.val sz) c sz

/-! ### Prefetch (R133) -/

def opPref (a : Reg) (imm : BitVec 23) (l2 : Bool) : Op := fun e s =>
  let va := e.vaImm a imm
  match e.placed s va .read with
  | .error _ => .ok s
  | .ok (s1, pa) =>
    if isPad pa then .ok s
    else
      if l2 then .ok (s1.fillLine e.fld va e.ctx e.gen pa).1
      else
        let old := ((s1.core e.core).findLine va e.ctx e.gen).getD (emptyLine va e.ctx e.gen pa)
        let (s2, l) := s1.openLine e.core old
        let (s3, v, x) := s2.fillLine e.fld va e.ctx e.gen pa
        .ok (s3.putLine e.core (mergeFill l v x))

/-! ### Atomics (R134, R135) -/

/-- The release and the acquire that ORD asks for. -/
def ordRel : Ord4 → Bool
  | .release | .acqRel => true
  | _ => false
def ordAcq : Ord4 → Bool
  | .acquire | .acqRel => true
  | _ => false

/-- Table 4.8. -/
def aopNew (op : AopOp) (n old b : Nat) : Nat :=
  match op with
  | .add => (old + b) % 2 ^ n
  | .and => old &&& b
  | .or => old ||| b
  | .xor => old ^^^ b
  | .min => if sextN old n ≤ sextN b n then old else b
  | .max => if sextN old n ≥ sextN b n then old else b
  | .minu => min old b
  | .maxu => max old b
  | .swap => b

/-- AFADD's sum (R135). -/
def afaddNew (n old b : Nat) : Nat :=
  let f : FpFmt := if n = 64 then .fp64 else .fp32
  (addFp f rneOnly (readFp f old) (readFp f b) false).1

/-- A read-modify-write of `n` bits at its ordering point: `f old` is the value written, if one is (R135, R252, R253). No undo
log is kept of it (R500). -/
def opAtomic (d a : Reg) (ord : Ord4) (sc : Scope) (w32 sx : Bool) (f : Env → Nat → Nat → Option Nat) : Op := fun e s => do
  let va := e.st.scalar a
  let nb := if w32 then 4 else 8
  let n := 8 * nb
  let (s1, pa) ← e.placeOf s va nb .rmw
  let s2 := if ordRel ord then s1.release e.k sc else s1
  let s3 := e.flush s2 va pa nb
  let (s4, old) ← e.homeRead s3 va pa nb
  let s5 := match f e n old with
    | some v => s4.homeWrite { s4.writerFrom e.k e.ctx e.org with task := none } va pa (bytesOf nb v)
    | none => s4
  let s6 := if ordAcq ord then s5.acquire e.k sc else s5
  return e.put s6 (e.st.putS d (BitVec.ofNat 64 (extendTo old n sx 64)))

def opAop (d a b : Reg) (op : AopOp) (ord : Ord4) (sc : Scope) (w32 sx : Bool) : Op :=
  opAtomic d a ord sc w32 sx fun e n old => some (aopNew op n old ((e.st.scalar b).toNat % 2 ^ n))

def opAcas (d a b c : Reg) (ord : Ord4) (sc : Scope) (w32 sx : Bool) : Op :=
  opAtomic d a ord sc w32 sx fun e n old =>
    if old = (e.st.scalar b).toNat % 2 ^ n then some ((e.st.scalar c).toNat % 2 ^ n) else none

def opAfadd (d a b : Reg) (ord : Ord4) (sc : Scope) (w32 : Bool) : Op :=
  opAtomic d a ord sc w32 false fun e n old => some (afaddNew n old ((e.st.scalar b).toNat % 2 ^ n))

/-! ### Counters (R136 to R142) -/

/-- The place of a counter: a scratchpad address raises BADADDR (R136). -/
def Env.counterPlace (e : Env) (s : State) (va : Word) (acc : Acc) : Res (State × Nat) :=
  match e.placeOf s va 8 acc with
  | .error x => .error x
  | .ok (s1, pa) => if isPad pa then failWith .badaddr va else .ok (s1, pa)

/-- CADD (R137). An uncorrectable counter is rank 6 of Table 4.3: the addition reads it. -/
def opCadd (a b : Reg) : Op := fun e s => do
  let va := e.st.scalar a
  let (s1, pa) ← e.counterPlace s va .rmw
  let s2 := e.flush s1 va pa 8
  faultIf (s2.lostAt pa 8) .uncorr va
  e.postEntry s2 (.cadd va pa (e.st.scalar b))

/-- Entries of a slice's monitor table (R139). -/
def monitorSize : Nat := 256

/-- The counter's value written to D, and the acquire (R138). -/
def Env.cwaitDone (e : Env) (s : State) (d : Reg) (v : Word) (sc : Scope) : State :=
  (e.put s { (e.st.putS d v) with met := none }).acquire e.k sc

/-- The wait of a CWAIT whose counter is below the threshold: a monitor entry, else the overflow sub-list (R138 to R140). -/
def Env.cwaitSuspend (e : Env) (s : State) (va : Word) (pa : Nat) (thr : Word) : State :=
  let f := fieldOfPa pa
  let sl := sliceOf pa
  let fd := s.field f
  if ((fd.monitors[sl]?).getD []).length < monitorSize then
    (s.setField f { fd with monitors := fd.monitors.mapIdx fun i l => if i = sl then l ++ [{ pa := pa, thr := thr, uid := e.u }] else l }).suspend
      e.k .cwaitMon va thr
  else
    (s.setField f { fd with overflow := fd.overflow.mapIdx fun i l => if i = sl then l ++ [{ pa := pa, thr := thr, uid := e.u }] else l }).suspend
      e.k .cwaitOvf va thr

def opCwait (d a b : Reg) (sc : Scope) : Op := fun e s =>
  let va := e.st.scalar a
  match e.st.met, e.counterPlace s va .read with
  | some pa0, .error _ => .ok (e.cwaitDone s d (s.dwAt pa0) sc)
  | none, .error x => .error x
  | m, .ok (s1, pa) => do
    let (s2, v) ← e.homeRead (e.flush s1 va pa 8) va pa 8
    let w := BitVec.ofNat 64 v
    if m.isSome || (e.st.scalar b).toNat ≤ v then return e.cwaitDone s2 d w sc
    else .error (.become (e.cwaitSuspend s2 va pa (e.st.scalar b)))

/-- CTEST (R142): to a predicate the comparison, else the value. -/
def opCtest (d a b : Reg) (acq : Bool) (sc : Scope) : Op := fun e s => do
  let va := e.st.scalar a
  let (s1, pa) ← e.counterPlace s va .read
  let (s2, v) ← e.homeRead (e.flush s1 va pa 8) va pa 8
  let t := match d with
    | .p _ => e.st.putCond d ((e.st.scalar b).toNat ≤ v)
    | _ => e.st.putS d (BitVec.ofNat 64 v)
  let s3 := e.put s2 t
  return if acq then s3.acquire e.k sc else s3

/-! ### FENCE (R143, R144) -/

def opFence (kind : FenceKind) (sc : Scope) : Op := fun e s =>
  let s1 := match kind with
    | .acq => s
    | _ => s.release e.k sc
  .ok (match kind with
    | .rel => s1
    | _ => s1.acquire e.k sc)

/-! ### Meanings -/

/-- LD (R129). -/
def execLd (k : Ctl) (d a : Reg) (imm : BitVec 23) (sz : ScalarSz) (sx : Bool) (acq : Option Scope) (s : State) :
    Host.Outcome State Fault Refusal :=
  runWord (.ld k d a imm sz sx acq) k (opLd d a imm sz sx acq) s

/-- LDX (R129). -/
def execLdx (k : Ctl) (d a b : Reg) (sh : Fin 8) (sz : ScalarSz) (sx : Bool) (acq : Option Scope) (s : State) :
    Host.Outcome State Fault Refusal :=
  runWord (.ldx k d a b sh sz sx acq) k (opLdx d a b sh sz sx acq) s

/-- ST (R129, R130). -/
def execSt (k : Ctl) (d a : Reg) (imm : BitVec 23) (sz : ScalarSz) (rel : Option Scope) (s : State) :
    Host.Outcome State Fault Refusal :=
  runWord (.st k d a imm sz rel) k (opSt d a imm sz rel) s

/-- LDV (R131). -/
def execLdv (k : Ctl) (d a : Reg) (imm : BitVec 23) (sz : VecSz) (sx : Bool) (s : State) : Host.Outcome State Fault Refusal :=
  runWord (.ldv k d a imm sz sx) k (opLdv d a imm sz sx) s

/-- STV (R131). -/
def execStv (k : Ctl) (d a : Reg) (imm : BitVec 23) (sz : VecSz) (s : State) : Host.Outcome State Fault Refusal :=
  runWord (.stv k d a imm sz) k (opStv d a imm sz) s

/-- LDG (R131). -/
def execLdg (k : Ctl) (d a b : Reg) (sh : Fin 8) (sz : VecSz) (sx : Bool) (s : State) : Host.Outcome State Fault Refusal :=
  runWord (.ldg k d a b sh sz sx) k (opLdg d a b sh sz sx) s

/-- STSC (R131, R132). -/
def execStsc (k : Ctl) (a b c : Reg) (sh : Fin 8) (sz : VecSz) (s : State) : Host.Outcome State Fault Refusal :=
  runWord (.stsc k a b c sh sz) k (opStsc a b c sh sz) s

/-- PREF (R133). -/
def execPref (k : Ctl) (a : Reg) (imm : BitVec 23) (l2 : Bool) (s : State) : Host.Outcome State Fault Refusal :=
  runWord (.pref k a imm l2) k (opPref a imm l2) s

/-- AOP (R135). -/
def execAop (k : Ctl) (d a b : Reg) (op : AopOp) (ord : Ord4) (sc : Scope) (w32 sx : Bool) (s : State) :
    Host.Outcome State Fault Refusal :=
  runWord (.aop k d a b op ord sc w32 sx) k (opAop d a b op ord sc w32 sx) s

/-- ACAS (R135). -/
def execAcas (k : Ctl) (d a b c : Reg) (ord : Ord4) (sc : Scope) (w32 sx : Bool) (s : State) :
    Host.Outcome State Fault Refusal :=
  runWord (.acas k d a b c ord sc w32 sx) k (opAcas d a b c ord sc w32 sx) s

/-- AFADD (R135). -/
def execAfadd (k : Ctl) (d a b : Reg) (ord : Ord4) (sc : Scope) (w32 : Bool) (s : State) : Host.Outcome State Fault Refusal :=
  runWord (.afadd k d a b ord sc w32) k (opAfadd d a b ord sc w32) s

/-- CADD (R137). -/
def execCadd (k : Ctl) (a b : Reg) (sc : Scope) (s : State) : Host.Outcome State Fault Refusal :=
  runWord (.cadd k a b sc) k (opCadd a b) s

/-- CWAIT (R138). -/
def execCwait (k : Ctl) (d a b : Reg) (sc : Scope) (s : State) : Host.Outcome State Fault Refusal :=
  runWord (.cwait k d a b sc) k (opCwait d a b sc) s

/-- CTEST (R142). -/
def execCtest (k : Ctl) (d a b : Reg) (acq : Bool) (sc : Scope) (s : State) : Host.Outcome State Fault Refusal :=
  runWord (.ctest k d a b acq sc) k (opCtest d a b acq sc) s

/-- FENCE (R143, R144). -/
def execFence (k : Ctl) (kind : FenceKind) (sc : Scope) (s : State) : Host.Outcome State Fault Refusal :=
  runWord (.fence k kind sc) k (opFence kind sc) s

/-! ### Acts of the store buffer and of the home slices -/

/-- STORE_BUFFER_DRAIN: the oldest entry of a slot's store buffer is performed (R130). An entry of a vector-side store that has
not started stays (R220, R221). When a line is evicted otherwise than by its set filling the spec leaves open: here a turn of its
eviction falls due with each store drained to it, DESIGN CHOICE (log 53). -/
def execStoreBufferDrain (slot : Nat) (s : State) : Host.Outcome State Fault Refusal :=
  match tget s.slots slot with
  | none => .next s
  | some sl =>
    match sl.buf with
    | [] => .next s
    | x :: t =>
      if t.isEmpty && sl.fwd.any (·.store) then .next s
      else
        let (ctx, gen) := s.ctxOfSlot slot
        let s1 := (s.setSlot slot { sl with buf := t }).performEntry slot ctx gen x
        let s2 := match x with
          | .store _ (el :: _) => if isPad el.pa then s1 else s1.postOnce (.homeSliceWrite (coreOfSlot slot) (lineVa el.va))
          | _ => s1
        .next (if t.isEmpty then s2 else s2.postOnce (.storeBufferDrain slot))

/-- HOME_SLICE_WRITE: a dirty line of a core is evicted, and its dirty words are written at the home slice (R149, R252). -/
def execHomeSliceWrite (core : Nat) (line : Word) (s : State) : Host.Outcome State Fault Refusal :=
  match (s.core core).l1.find? fun l => l.va = lineVa line with
  | none => .next s
  | some l =>
    .next (s.evict core l)

/-- COUNTER_ADDITION: the oldest addition on its way to a field's slices is performed there (R136, R163). With none on its way, the
partition whose first field it is goes on with the additions of its virtual functions (R541, R542). -/
def execCounterAddition (field : Nat) (s : State) : Host.Outcome State Fault Refusal :=
  match (s.field field).adds with
  | [] => .next (s.devTurn field)
  | x :: t =>
    .next (((s.modField field fun y => { y with adds := t }).addAt x.ctx x.pa x.val).postOnce (.counterAddition field))

/-- One record of a sweep (R140): made ready when its counter meets the threshold, moved into a free monitor entry, or left. -/
def State.sweepOne (s : State) (f sl : Nat) (m : Monitor) : State × Option Monitor :=
  if m.thr.toNat ≤ (s.dwAt m.pa).toNat then
    ((s.modStrand m.uid fun x => { x with met := some m.pa }).makeReady m.uid, none)
  else
    let fd := s.field f
    if ((fd.monitors[sl]?).getD []).length < monitorSize then
      (((s.setField f { fd with monitors := fd.monitors.mapIdx fun i l => if i = sl then l ++ [m] else l }).modStrand m.uid
        fun x => { x with waitK := .cwaitMon }).restat m.uid, none)
    else (s, some m)

def State.sweepAll (s : State) (f sl : Nat) : List Monitor → State × List Monitor
  | [] => (s, [])
  | m :: t =>
    let (s1, r) := s.sweepOne f sl m
    let (s2, l) := s1.sweepAll f sl t
    (s2, r.toList ++ l)

/-- The record of a strand is still being linked: its put-down is under way (R140). -/
def State.stillLinking (s : State) (u : Nat) : Bool :=
  match tget s.strands u with
  | some t =>
    match t.place with
    | .slot k => s.puttingDown k t
    | _ => false
  | none => false

/-- OVERFLOW_SWEEP: a slice's overflow sub-list is walked oldest first; a sweep that meets a record still being linked waits for
the link (R140). -/
def execOverflowSweep (field slice : Nat) (s : State) : Host.Outcome State Fault Refusal :=
  let l := ((s.field field).overflow[slice]?).getD []
  if l.any fun m => s.stillLinking m.uid then .next (s.postAt (s.time + 1) (.overflowSweep field slice))
  else
  let (s1, left) := (s.modField field fun x =>
    { x with overflow := x.overflow.mapIdx fun i q => if i = slice then [] else q }).sweepAll field slice l
  let s2 := s1.modField field fun x =>
    { x with overflow := x.overflow.mapIdx fun i q => if i = slice then left ++ q else q }
  .next (s2.putLists field)

end Sys2Proof.Machine
end

