-- ==== Sys2Proof/Machine/Float.lean ====
section
/-! DEFINITION. Sys2Proof/Machine/Float.lean: the floating-point instructions (R223 to R234), in their scalar and lane-wise
shapes: first the shapes, then one meaning for each. -/

namespace Sys2Proof.Machine

/-- The format that an FT or FS code selects (Table 8.2); none stands for code 0. -/
def fmtOr (ft : Option FpFmt) (lane : Bool) : FpFmt := ft.getD (if lane then .fp32 else .fp64)

/-- The pattern of a source for element `j` when elements lie 64 or 32 bits apart: its low `n` bits (R223, R233). -/
def Strand.patAt (t : Strand) (w64 : Bool) (n : Nat) (r : Reg) (j : Nat) : Nat :=
  if t.holdsV r then (t.vector r).toNat / 2 ^ ((if w64 then 64 else 32) * j) % 2 ^ n else (t.scalar r).toNat % 2 ^ n

/-- Flags of the results of enabled elements. -/
def flagsOf (rs : List FpRes) : Flags := rs.foldl (fun a r => a ||| r.2) 0

/-- A result with its flags written: containers hold zeros above a narrower value (R192, R223). -/
def Env.writeFp (e : Env) (l : Bool) (d : Reg) (w64 : Bool) (f : Nat → FpRes) : Strand :=
  if l then
    let rs : List FpRes := (elems (e.st.priorV d) w64).mapIdx fun j p => if laneEnabled e.lanes w64 j then f j else (p, 0)
    (e.st.putV d (ofElems (rs.map (·.1)) w64)).setFlags (flagsOf rs)
  else
    let r := f 0
    (e.st.putS d (BitVec.ofNat 64 r.1)).setFlags r.2

/-- An operation whose sources and result have one format: `g fmt rounding patterns`, the patterns being those of the named
sources in order. -/
def fpOp (lane : LCls → Bool) (d : Reg) (srcs : List Reg) (rnd : Option RoundMode) (ft : Option FpFmt)
    (g : FpFmt → Rnd → List Nat → FpRes) : Op :=
  regOp fun e =>
    let l := lane e.st.latch.cls
    let f := fmtOr ft l
    let w64 := f = .fp64
    e.writeFp l d w64 fun j => g f (e.st.rnd rnd) (srcs.map fun r => e.st.patAt w64 (fmtBits f) r j)

/-- One, two and three inputs read as data, subnormals as FZ says (R197). -/
def fp1 (g : FpFmt → Rnd → Fp → FpRes) (f : FpFmt) (r : Rnd) : List Nat → FpRes
  | [a] => g f r (readIn f r.fz a)
  | _ => (0, 0)
def fp2 (g : FpFmt → Rnd → Fp → Fp → FpRes) (f : FpFmt) (r : Rnd) : List Nat → FpRes
  | [a, b] => g f r (readIn f r.fz a) (readIn f r.fz b)
  | _ => (0, 0)
def fp3 (g : FpFmt → Rnd → Fp → Fp → Fp → FpRes) (f : FpFmt) (r : Rnd) : List Nat → FpRes
  | [a, b, c] => g f r (readIn f r.fz a) (readIn f r.fz b) (readIn f r.fz c)
  | _ => (0, 0)

/-- An approximated function: the value returned depends on the input's bits alone (R228). -/
def fpApprox (a : Approx) (g : FpFmt → Bool → Bool → Fp → FpRes) (f : FpFmt) (r : Rnd) : List Nat → FpRes
  | [x] => g f r.fz (a.up f x) (readIn f r.fz x)
  | _ => (0, 0)

/-- An operation on bits (R230, R232). -/
def fpBits (g : FpFmt → List Nat → Nat) (f : FpFmt) (_ : Rnd) (xs : List Nat) : FpRes := (g f xs, 0)

/-- R226. -/
def gAdd (f : FpFmt) (r : Rnd) (x y : Fp) : FpRes := addFp f r x y (x.isSig || y.isSig)
def gSub (f : FpFmt) (r : Rnd) (x y : Fp) : FpRes := addFp f r x y.negate (x.isSig || y.isSig)
def gFma (f : FpFmt) (r : Rnd) (x y z : Fp) : FpRes := fmaFp f r false x y z
def gFms (f : FpFmt) (r : Rnd) (x y z : Fp) : FpRes := fmaFp f r false x y z.negate
def gFnma (f : FpFmt) (r : Rnd) (x y z : Fp) : FpRes := fmaFp f r true x y z.negate
def gFnms (f : FpFmt) (r : Rnd) (x y z : Fp) : FpRes := fmaFp f r true x y z

/-- FRCP (R227): 1 divided by a. -/
def gRcp (f : FpFmt) (r : Rnd) (x : Fp) : FpRes := divFp f r (.fin false 1 0) x

/-- R230. -/
def bAbs (f : FpFmt) : List Nat → Nat
  | [x] => x % 2 ^ (fmtBits f - 1)
  | _ => 0
def bNeg (f : FpFmt) : List Nat → Nat
  | [x] => x ^^^ 2 ^ (fmtBits f - 1)
  | _ => 0
def bCpys (f : FpFmt) : List Nat → Nat
  | [x, y] => x % 2 ^ (fmtBits f - 1) + y / 2 ^ (fmtBits f - 1) % 2 * 2 ^ (fmtBits f - 1)
  | _ => 0
def bClass (f : FpFmt) : List Nat → Nat
  | [x] => fclassFp f x
  | _ => 0

/-- FCMP (R231). -/
def opFcmp (lane : LCls → Bool) (d a b : Reg) (ft : Option FpFmt) (cc : FcmpCc) : Op :=
  regOp fun e =>
    let t := e.st
    let l := lane t.latch.cls
    let f := fmtOr ft l
    let fz := (t.rnd none).fz
    let w64 := f = .fp64
    let at' := fun j => fcmpFp cc (readIn f fz (t.patAt w64 (fmtBits f) a j)) (readIn f fz (t.patAt w64 (fmtBits f) b j))
    if l then
      let n := if w64 then 32 else 64
      let rs := (upto n).map fun j => if laneEnabled e.lanes w64 j then at' j else (false, 0)
      let fl := rs.foldl (fun x r => x ||| r.2) 0
      let prior := t.priorP d
      (t.putP d (maskOf ((upto 64).map fun i =>
        let j := if w64 then i / 2 else i
        if laneEnabled e.lanes w64 j then ((rs[j]?).getD (false, 0)).1 else prior.getLsbD i))).setFlags fl
    else
      let r := at' 0
      (t.putCond d r.1).setFlags r.2

/-- A conversion (R233): sources of `sb` bits, results of `db` bits, 32 elements when either side has 64 bits. -/
def opConvert (d a : Reg) (l : Bool) (sb db : Nat) (g : Rnd → Nat → FpRes) (rnd : Option RoundMode) : Op :=
  regOp fun e =>
    let w64 := sb = 64 || db = 64
    e.writeFp l d w64 fun j => g (e.st.rnd rnd) (e.st.patAt w64 sb a j)

/-- FCVT (R202, R233). -/
def opFcvt (lane : LCls → Bool) (d a : Reg) (rnd : Option RoundMode) (ft fs : Option FpFmt) : Op := fun e s =>
  let l := lane e.st.latch.cls
  let f := fmtOr ft l
  let g := fmtOr fs l
  opConvert d a l (fmtBits g) (fmtBits f) (fun r x => cvtFp f r (readIn g r.fz x)) rnd e s

/-- FTOI (R203, R233). The integer is extended to its container: 64 bits, or 32 for a narrower element. -/
def opFtoi (lane : LCls → Bool) (d a : Reg) (rnd : Option RoundMode) (ft : Option FpFmt) (iw : Width) (u : Bool) : Op :=
  fun e s =>
  let l := lane e.st.latch.cls
  let f := fmtOr ft l
  let n := iw.bits l
  let c := if l && n != 64 then 32 else 64
  opConvert d a l (fmtBits f) n (fun r x =>
    let (y, fl) := ftoiFp r.md n u (readIn f r.fz x)
    (wrapN y c, fl)) rnd e s

/-- ITOF (R204, R233). -/
def opItof (lane : LCls → Bool) (d a : Reg) (rnd : Option RoundMode) (ft : Option FpFmt) (iw : Width) (u : Bool) : Op :=
  fun e s =>
  let l := lane e.st.latch.cls
  let f := fmtOr ft l
  let n := iw.bits l
  opConvert d a l n (fmtBits f) (fun r x => itofFp f r (if u then x else sextN x n)) rnd e s

/-! ### Operations -/

def opFadd (lane : LCls → Bool) (d a b : Reg) (rnd : Option RoundMode) (ft : Option FpFmt) : Op :=
  fpOp lane d [a, b] rnd ft (fp2 gAdd)
def opFdiv (lane : LCls → Bool) (d a b : Reg) (rnd : Option RoundMode) (ft : Option FpFmt) : Op :=
  fpOp lane d [a, b] rnd ft (fp2 divFp)
def opFsqrt (lane : LCls → Bool) (d a : Reg) (rnd : Option RoundMode) (ft : Option FpFmt) : Op :=
  fpOp lane d [a] rnd ft (fp1 sqrtFp)
def opFrcp (lane : LCls → Bool) (d a : Reg) (rnd : Option RoundMode) (ft : Option FpFmt) : Op :=
  fpOp lane d [a] rnd ft (fp1 gRcp)
def opFrsq (lane : LCls → Bool) (d a : Reg) (ft : Option FpFmt) : Op := fpOp lane d [a] none ft (fpApprox .rsq rsqFp)
def opFexp2 (lane : LCls → Bool) (d a : Reg) (ft : Option FpFmt) : Op := fpOp lane d [a] none ft (fpApprox .exp2 exp2Fp)
def opFlog2 (lane : LCls → Bool) (d a : Reg) (ft : Option FpFmt) : Op := fpOp lane d [a] none ft (fpApprox .log2 log2Fp)
def opFtanh (lane : LCls → Bool) (d a : Reg) (ft : Option FpFmt) : Op := fpOp lane d [a] none ft (fpApprox .tanh tanhFp)

/-! ### Meanings -/

/-- FADD (R226). -/
def execFadd (k : Ctl) (d a b : Reg) (rnd : Option RoundMode) (ft : Option FpFmt) (s : State) : Host.Outcome State Fault Refusal :=
  runWord (.fadd k d a b rnd ft) k (opFadd (laneFor (.fadd k d a b rnd ft)) d a b rnd ft) s

/-- FSUB (R226). -/
def execFsub (k : Ctl) (d a b : Reg) (rnd : Option RoundMode) (ft : Option FpFmt) (s : State) : Host.Outcome State Fault Refusal :=
  runWord (.fsub k d a b rnd ft) k (fpOp (laneFor (.fsub k d a b rnd ft)) d [a, b] rnd ft (fp2 gSub)) s

/-- FMUL (R226). -/
def execFmul (k : Ctl) (d a b : Reg) (rnd : Option RoundMode) (ft : Option FpFmt) (s : State) : Host.Outcome State Fault Refusal :=
  runWord (.fmul k d a b rnd ft) k (fpOp (laneFor (.fmul k d a b rnd ft)) d [a, b] rnd ft (fp2 mulFp)) s

/-- FMA (R226). -/
def execFma (k : Ctl) (d a b c : Reg) (rnd : Option RoundMode) (ft : Option FpFmt) (s : State) : Host.Outcome State Fault Refusal :=
  runWord (.fma k d a b c rnd ft) k (fpOp (laneFor (.fma k d a b c rnd ft)) d [a, b, c] rnd ft (fp3 gFma)) s

/-- FMS (R226). -/
def execFms (k : Ctl) (d a b c : Reg) (rnd : Option RoundMode) (ft : Option FpFmt) (s : State) : Host.Outcome State Fault Refusal :=
  runWord (.fms k d a b c rnd ft) k (fpOp (laneFor (.fms k d a b c rnd ft)) d [a, b, c] rnd ft (fp3 gFms)) s

/-- FNMA (R226). -/
def execFnma (k : Ctl) (d a b c : Reg) (rnd : Option RoundMode) (ft : Option FpFmt) (s : State) : Host.Outcome State Fault Refusal :=
  runWord (.fnma k d a b c rnd ft) k (fpOp (laneFor (.fnma k d a b c rnd ft)) d [a, b, c] rnd ft (fp3 gFnma)) s

/-- FNMS (R226). -/
def execFnms (k : Ctl) (d a b c : Reg) (rnd : Option RoundMode) (ft : Option FpFmt) (s : State) : Host.Outcome State Fault Refusal :=
  runWord (.fnms k d a b c rnd ft) k (fpOp (laneFor (.fnms k d a b c rnd ft)) d [a, b, c] rnd ft (fp3 gFnms)) s

/-- FDIV (R227). -/
def execFdiv (k : Ctl) (d a b : Reg) (rnd : Option RoundMode) (ft : Option FpFmt) (s : State) : Host.Outcome State Fault Refusal :=
  runWord (.fdiv k d a b rnd ft) k (opFdiv (laneFor (.fdiv k d a b rnd ft)) d a b rnd ft) s

/-- FSQRT (R227). -/
def execFsqrt (k : Ctl) (d a : Reg) (rnd : Option RoundMode) (ft : Option FpFmt) (s : State) : Host.Outcome State Fault Refusal :=
  runWord (.fsqrt k d a rnd ft) k (opFsqrt (laneFor (.fsqrt k d a rnd ft)) d a rnd ft) s

/-- FRCP (R227). -/
def execFrcp (k : Ctl) (d a : Reg) (rnd : Option RoundMode) (ft : Option FpFmt) (s : State) : Host.Outcome State Fault Refusal :=
  runWord (.frcp k d a rnd ft) k (opFrcp (laneFor (.frcp k d a rnd ft)) d a rnd ft) s

/-- FRSQ (R228). -/
def execFrsq (k : Ctl) (d a : Reg) (ft : Option FpFmt) (s : State) : Host.Outcome State Fault Refusal :=
  runWord (.frsq k d a ft) k (opFrsq (laneFor (.frsq k d a ft)) d a ft) s

/-- FEXP2 (R228). -/
def execFexp2 (k : Ctl) (d a : Reg) (ft : Option FpFmt) (s : State) : Host.Outcome State Fault Refusal :=
  runWord (.fexp2 k d a ft) k (opFexp2 (laneFor (.fexp2 k d a ft)) d a ft) s

/-- FLOG2 (R228). -/
def execFlog2 (k : Ctl) (d a : Reg) (ft : Option FpFmt) (s : State) : Host.Outcome State Fault Refusal :=
  runWord (.flog2 k d a ft) k (opFlog2 (laneFor (.flog2 k d a ft)) d a ft) s

/-- FTANH (R228). -/
def execFtanh (k : Ctl) (d a : Reg) (ft : Option FpFmt) (s : State) : Host.Outcome State Fault Refusal :=
  runWord (.ftanh k d a ft) k (opFtanh (laneFor (.ftanh k d a ft)) d a ft) s

/-- FMIN (R229). -/
def execFmin (k : Ctl) (d a b : Reg) (ft : Option FpFmt) (s : State) : Host.Outcome State Fault Refusal :=
  runWord (.fmin k d a b ft) k (fpOp (laneFor (.fmin k d a b ft)) d [a, b] none ft (fp2 fun f _ => minMaxFp f false)) s

/-- FMAX (R229). -/
def execFmax (k : Ctl) (d a b : Reg) (ft : Option FpFmt) (s : State) : Host.Outcome State Fault Refusal :=
  runWord (.fmax k d a b ft) k (fpOp (laneFor (.fmax k d a b ft)) d [a, b] none ft (fp2 fun f _ => minMaxFp f true)) s

/-- FABS (R230). -/
def execFabs (k : Ctl) (d a : Reg) (ft : Option FpFmt) (s : State) : Host.Outcome State Fault Refusal :=
  runWord (.fabs k d a ft) k (fpOp (laneFor (.fabs k d a ft)) d [a] none ft (fpBits bAbs)) s

/-- FNEG (R230). -/
def execFneg (k : Ctl) (d a : Reg) (ft : Option FpFmt) (s : State) : Host.Outcome State Fault Refusal :=
  runWord (.fneg k d a ft) k (fpOp (laneFor (.fneg k d a ft)) d [a] none ft (fpBits bNeg)) s

/-- FCPYS (R230). -/
def execFcpys (k : Ctl) (d a b : Reg) (ft : Option FpFmt) (s : State) : Host.Outcome State Fault Refusal :=
  runWord (.fcpys k d a b ft) k (fpOp (laneFor (.fcpys k d a b ft)) d [a, b] none ft (fpBits bCpys)) s

/-- FCMP (R231). -/
def execFcmp (k : Ctl) (d a b : Reg) (ft : Option FpFmt) (cc : FcmpCc) (s : State) : Host.Outcome State Fault Refusal :=
  runWord (.fcmp k d a b ft cc) k (opFcmp (laneFor (.fcmp k d a b ft cc)) d a b ft cc) s

/-- FCLASS (R232). -/
def execFclass (k : Ctl) (d a : Reg) (ft : Option FpFmt) (s : State) : Host.Outcome State Fault Refusal :=
  runWord (.fclass k d a ft) k (fpOp (laneFor (.fclass k d a ft)) d [a] none ft (fpBits bClass)) s

/-- FCVT (R233). -/
def execFcvt (k : Ctl) (d a : Reg) (rnd : Option RoundMode) (ft fs : Option FpFmt) (s : State) : Host.Outcome State Fault Refusal :=
  runWord (.fcvt k d a rnd ft fs) k (opFcvt (laneFor (.fcvt k d a rnd ft fs)) d a rnd ft fs) s

/-- FTOI (R233). -/
def execFtoi (k : Ctl) (d a : Reg) (rnd : Option RoundMode) (ft : Option FpFmt) (iw : Width) (u : Bool) (s : State) : Host.Outcome State Fault Refusal :=
  runWord (.ftoi k d a rnd ft iw u) k (opFtoi (laneFor (.ftoi k d a rnd ft iw u)) d a rnd ft iw u) s

/-- ITOF (R233). -/
def execItof (k : Ctl) (d a : Reg) (rnd : Option RoundMode) (ft : Option FpFmt) (iw : Width) (u : Bool) (s : State) : Host.Outcome State Fault Refusal :=
  runWord (.itof k d a rnd ft iw u) k (opItof (laneFor (.itof k d a rnd ft iw u)) d a rnd ft iw u) s

/-- FROUND (R234). -/
def execFround (k : Ctl) (d a : Reg) (rnd : Option RoundMode) (ft : Option FpFmt) (s : State) : Host.Outcome State Fault Refusal :=
  runWord (.fround k d a rnd ft) k (fpOp (laneFor (.fround k d a rnd ft)) d [a] rnd ft (fp1 fun f r => froundFp f r.md)) s

end Sys2Proof.Machine
end

