-- ==== Sys2Proof/Machine/Crypto.lean ====
section
/-! DEFINITION. Sys2Proof/Machine/Crypto.lean: AES-256 and Galois/Counter Mode, with which second-tier chunks are sealed (R473,
which names NIST SP 800-38D). Bytes stand in the order of the standard's strings. -/

namespace Sys2Proof.Machine

/-! ### AES-256 -/

/-- x·b in GF(2^8) with the polynomial x^8 + x^4 + x^3 + x + 1. -/
def aesDouble (b : Byte) : Byte := (b <<< 1) ^^^ (if b.getLsbD 7 then 0x1B else 0)

/-- a·b in GF(2^8): the low `n` bits of `b` count. -/
def aesMul (a : Byte) (b : Nat) : Nat → Byte
  | 0 => 0
  | n + 1 => (if b % 2 = 1 then a else 0) ^^^ aesMul (aesDouble a) (b / 2) n

/-- a^(2^n - 1). -/
def aesPow (a : Byte) : Nat → Byte
  | 0 => 1
  | n + 1 => let y := aesPow a n; aesMul (aesMul y y.toNat 8) a.toNat 8

/-- The S-box: the inverse a^254, then the affine map. -/
def aesSbox (a : Byte) : Byte :=
  let y := aesPow a 7
  let i := aesMul y y.toNat 8
  i ^^^ i.rotateLeft 1 ^^^ i.rotateLeft 2 ^^^ i.rotateLeft 3 ^^^ i.rotateLeft 4 ^^^ 0x63

def xorBytes (a b : List Byte) : List Byte := List.zipWith (· ^^^ ·) a b

/-- Words 8 to 8 + n - 1 of the key schedule, newest first, after `w`. -/
def aesExpand : Nat → Nat → Byte → List (List Byte) → List (List Byte)
  | 0, _, _, w => w
  | n + 1, i, rc, w =>
    let t := w.headD []
    let old := (w[7]?).getD []
    let (t', rc') :=
      if i % 8 = 0 then (xorBytes ((t.drop 1 ++ t.take 1).map aesSbox) [rc, 0, 0, 0], aesDouble rc)
      else if i % 8 = 4 then (t.map aesSbox, rc)
      else (t, rc)
    aesExpand n (i + 1) rc' (xorBytes old t' :: w)

/-- Lists of `n` bytes cut from a list. -/
def chunksOf (n : Nat) : Nat → List Byte → List (List Byte)
  | 0, _ => []
  | k + 1, l => l.take n :: chunksOf n k (l.drop n)

/-- The 15 round keys of a 32-byte key. -/
def aesKeys (key : List Byte) : List (List Byte) :=
  chunksOf 16 15 ((aesExpand 52 8 1 (chunksOf 4 8 key).reverse).reverse.flatten)

/-- ShiftRows: byte 4c + r of the result is byte 4((c + r) mod 4) + r. -/
def aesShift (s : List Byte) : List Byte :=
  (List.range 16).map fun i => (s[(i + 4 * (i % 4)) % 16]?).getD 0

def aesMixColumn : List Byte → List Byte
  | [a, b, c, d] =>
    let m := fun (x y z w : Byte) => aesDouble x ^^^ (aesDouble y ^^^ y) ^^^ z ^^^ w
    [m a b c d, m b c d a, m c d a b, m d a b c]
  | l => l

/-- Rounds under the keys that remain. -/
def aesRounds (s : List Byte) : List (List Byte) → List Byte
  | [] => s
  | [k] => xorBytes (aesShift (s.map aesSbox)) k
  | k :: t => aesRounds (xorBytes (((chunksOf 4 4 (aesShift (s.map aesSbox))).map aesMixColumn).flatten) k) t

/-- One block under round keys. -/
def aesBlock (keys : List (List Byte)) (b : List Byte) : List Byte :=
  match keys with
  | [] => b
  | k :: t => aesRounds (xorBytes b k) t

/-! ### GCM -/

/-- A block as a number, the first byte highest. -/
def beNum (l : List Byte) : Nat := l.foldl (fun a b => a * 256 + b.toNat) 0

/-- `n` bytes of a number, the highest first. -/
def beBytes (n x : Nat) : List Byte := (bytesOf n x).reverse

/-- x·y in GF(2^128), bit 0 of the standard being the highest bit; `n` bits of `x` from its highest. -/
def gfMul (x y z : BitVec 128) : Nat → BitVec 128
  | 0 => z
  | n + 1 =>
    gfMul (x <<< 1) ((y >>> 1) ^^^ (if y.getLsbD 0 then (0xE1 : BitVec 128) <<< 120 else 0)) (if x.getLsbD 127 then z ^^^ y else z) n

/-- GHASH of blocks. -/
def ghash (h : BitVec 128) (blocks : List (List Byte)) : BitVec 128 :=
  blocks.foldl (fun a b => gfMul (a ^^^ BitVec.ofNat 128 (beNum b)) h 0 128) 0

/-- Blocks in counter mode, from counter `c`. -/
def gcmCtr (keys : List (List Byte)) (iv : List Byte) : Nat → List (List Byte) → List (List Byte)
  | _, [] => []
  | c, b :: t => xorBytes b (aesBlock keys (iv ++ beBytes 4 c)) :: gcmCtr keys iv (c + 1) t

/-- Tag of whole ciphertext blocks under a 12-byte IV, without additional data. -/
def gcmTag (keys : List (List Byte)) (iv : List Byte) (ct : List (List Byte)) : BitVec 128 :=
  let h := BitVec.ofNat 128 (beNum (aesBlock keys (List.replicate 16 0)))
  let s := ghash h (ct ++ [beBytes 8 0 ++ beBytes 8 (128 * ct.length)])
  s ^^^ BitVec.ofNat 128 (beNum (aesBlock keys (iv ++ beBytes 4 1)))

/-- Sealing of a message of whole blocks: ciphertext and tag. -/
def gcmSeal (key iv pt : List Byte) : List Byte × BitVec 128 :=
  let keys := aesKeys key
  let ct := gcmCtr keys iv 2 (chunksOf 16 (pt.length / 16) pt)
  (ct.flatten, gcmTag keys iv ct)

/-- Opening: the plain bytes when the tag matches. -/
def gcmOpen (key iv ct : List Byte) (tag : BitVec 128) : Option (List Byte) :=
  let keys := aesKeys key
  let cs := chunksOf 16 (ct.length / 16) ct
  if gcmTag keys iv cs = tag then some (gcmCtr keys iv 2 cs).flatten else none

end Sys2Proof.Machine
end

