-- ==== Sys2Proof/Machine/Fetch.lean ====
section
/-! DEFINITION. Sys2Proof/Machine/Fetch.lean: instruction fetch through the Mandrel's instruction cache (R58, R268), entering
a block (R56, R38, R39), the word at which a strand stands (R27, R273, R278), and the return from a trap (R178). -/

namespace Sys2Proof.Machine

/-- Lines of the instruction cache: 64 KiB of 128-byte lines (Table 10.1). -/
def icacheSize : Nat := 512

/-- Lines of a gateway block's instruction cache, 16 KiB (R527). -/
def gatewayIcache : Nat := 128

/-- The 16 dwords of a line; none where a half of it cannot be read. -/
def lineDwords (v : BitVec 32) (d : BitVec 1024) : List (Option Word) :=
  (upto 16).map fun i => if v.getLsbD (2 * i) && v.getLsbD (2 * i + 1) then some (d.extractLsb' (64 * i) 64) else none

/-- The line of an instruction cache that holds an address. -/
def Tile.icFind (t : Tile) (va : Word) (ctx : Nat) (gen : BitVec 16) : Option IcLine :=
  t.icache.find? fun l => l.va = lineVa va && l.ctx = ctx && l.gen = gen

/-- fetch(a) of R56 for the strand of `e`: the checks of R117 and R119, ACCESS in the scratchpad window (R58), then the
line from the instruction cache, or from the home slice (R383). A full cache gives up the line filled longest ago: DESIGN CHOICE,
the spec gives its size alone (log 49). -/
def Env.fetch (e : Env) (s : State) (va : Word) : Res (State × Word) :=
  if bits va 2 0 != 0 then failWith .align va
  else
    match s.resolve e.p e.user va with
    | .error x => .error x
    | .ok (.pad _) => failWith .access va
    | .ok (.page f) =>
      let i := (va.toNat / 8) % 16
      match ((s.tile e.tile).icFind va e.ctx e.gen).bind fun l => (l.words[i]?).join with
      | some w => .ok (s, w)
      | none =>
        match s.translate f (e.req va .fetch) with
        | .error x => .error x
        | .ok (s1, pa) =>
          match e.lostReply s va with
          | some x => .error x
          | none =>
          let (v, d) := s1.memLine pa
          let s2 := s1.touchL2 pa e.ctx
          let l : IcLine := { va := lineVa va, ctx := e.ctx, gen := e.gen, words := lineDwords v d }
          let s3 := s2.modTile e.tile fun t =>
            { t with icache := (l :: t.icache.filter fun x => !(x.va = l.va && x.ctx = l.ctx)).take (if isGateway e.tile then gatewayIcache else icacheSize) }
          match (l.words[i]?).join with
          | some w => .ok (s3, w)
          | none => failWith .uncorr va

/-- The name, 8 to 31, under which the current window sees frame register `j` (R34). -/
def nameOf (cwp : Nat) (j : Nat) : Option Nat :=
  if j / 16 = cwp then some (8 + j % 16)
  else if j / 16 = (cwp + 1) % 8 && j % 16 < 8 then some (24 + j % 16) else none

/-- apply_masks (R38, R39): the header's masks hold; a register that becomes live again after it was not has a free value, and
a register that is not live loses its content. `n` numbers the free values. -/
def Strand.applyMasks (t : Strand) (h : Word) (n : Nat) : Strand :=
  let live := fun (x : Nat) => (livesOf h).getLsbD ((x - 8) / 3)
  { t with
    header := h
    frames := Vector.ofFn fun j : Fin 128 =>
      match nameOf t.cwp j.val with
      | some x => if live x && t.gated.getLsbD j.val then Config.freeScalar n j.val else t.frames[j]
      | none => t.frames[j]
    gated := BitVec.ofNat 128 (packN 1 ((upto 128).map fun j =>
      match nameOf t.cwp j with
      | some x => if live x then 0 else 1
      | none => if t.gated.getLsbD j then 1 else 0))
    v := Vector.ofFn fun i : Fin 32 =>
      if (livevOf h).getLsbD (i.val / 4) && t.gatedV.getLsbD (i.val / 4) then Config.freeVector n i.val else t.v[i]
    gatedV := ~~~(livevOf h) }

/-- The header checks of R56: true where the word is no header that may be entered. -/
def headerBad (h : Word) : Bool :=
  bits h 63 56 != 0xFF || lenOf h = 0 || (reconOf h != 0 && reconOf h < lenOf h + 1)

/-- EITHER has transferred on a predicate that has not reached the return queue (R218). -/
def Env.awaits (e : Env) : Bool :=
  match e.sl.await with
  | some n => e.sl.fwd.any (·.n = n) || e.sl.started.any (·.1 = n)
  | none => false

/-- Entering the block at HDR (R56). A strand picked up at a later word fetches the header again only to recover its masks
and targets (R27). -/
def Env.enter (e : Env) (s : State) : State :=
  if e.sl.hold.isSome || e.sl.stop.isSome || e.p.halt.isSome || (e.st.widx != 0 && !e.st.refetch) then s
  else if !e.sl.flight.isEmpty || e.awaits then e.popFull s
  else
    match e.fetch s e.st.hdr with
    | .error x => s.stopped e.k e.busy (e.st.widx = 0) x
    | .ok (s1, h) =>
      if e.st.widx != 0 then e.put s1 { e.st with header := h, refetch := false }
      else if headerBad h then s.stopped e.k e.busy true (.fault .illop h)
      else
        { (e.put s1 { (e.st.applyMasks h s1.fresh) with widx := 1, kept := [] }).modSlot e.k fun sl =>
            { sl with
              windows := [], await := none
              ret := match sl.await with
                | some n => sl.ret.filter (n < ·.1)
                | none => sl.ret } with fresh := s1.fresh + 1 }

/-- The control fields of an act, which has none. -/
def noCtl : Ctl := { seq := .next, neg := false, gp := 0, la := 0 }

/-- BLOCK_ENTRY (R56): the strand on the current slot enters its block. -/
def execBlockEntry (s : State) : Host.Outcome State Fault Refusal :=
  match s.envAt s.cur .blockEntry noCtl with
  | none => .refused .noStrand
  | some e => .next (e.enter s)

/-- A strand in private fetch mode (R278). -/
def Strand.isPrivate (t : Strand) : Bool := t.fmode != .attached

/-- The word at which the strand stands: a word kept from before a CINV.code (R402), the path's word (R273), or the word in
memory. -/
def Env.word (e : Env) (s : State) : Res (State × Word) :=
  match e.st.kept.find? fun x => x.1 = e.st.pc with
  | some x => .ok (s, x.2)
  | none =>
    match s.pathWord e.k with
    | some q => .ok (s, q.word)
    | none => e.fetch s e.st.pc

/-- PRIVATE_FETCH_TURN (R278): the path decodes one word for the next strand in rotation: in ascending order of core and
slot, from the position after the one served last. -/
def execPrivateFetchTurn (tile : Nat) (s : State) : Host.Outcome State Fault Refusal :=
  let pending := fun (k : Nat) =>
    match tget s.slots k with
    | none => false
    | some sl =>
      !sl.turned && sl.hold.isNone &&
      (match tget s.strands sl.uid with
       | some t => t.isPrivate && t.widx != 0
       | none => false)
  let order := (upto 64).map fun i => ((s.tile tile).fetchLast + 1 + i) % 64
  match order.find? fun i => pending (tile * 64 + i) with
  | none => .next s
  | some i =>
    let s1 := (s.modSlot (tile * 64 + i) fun sl => { sl with turned := true }).modTile tile fun t => { t with fetchLast := i }
    .next (if order.any fun j => j != i && pending (tile * 64 + j) then s1.postOnce (.privateFetchTurn tile) else s1)

/-! ### The place of a word in its block (R74, R285) -/

/-- The opcodes marked LL in Table 2.8. -/
def llCode (op : Nat) : Bool :=
  (0x05 ≤ op && op ≤ 0x08) || (0x47 ≤ op && op ≤ 0x4D) || op = 0x7A || op = 0x7B || op = 0x80 || op = 0x81 || op = 0x83 ||
  op = 0x85 || (0x88 ≤ op && op ≤ 0x8A) || op = 0x8D || (0xC0 ≤ op && op ≤ 0xC2) || op = 0xC8 || op = 0xC9 ||
  (0xD0 ≤ op && op ≤ 0xD3) || op = 0xDB || (0xE0 ≤ op && op ≤ 0xE5) || op = 0xE8 || op = 0xE9 || op = 0xEC

/-- A word whose place in its block is not allowed: LA past the end of the block, or a JOIN that is not word 1. -/
def misplaced (w : Word) (len widx : Nat) : Bool :=
  let op := bits w 63 56
  (llCode op && len < widx + bits w 47 44) || (op = 0xA1 && widx != 1)

/-- RFT (R178): back to the word after the trapping word. Its pseudocode makes two of the checks of R56 and not the one of RECON, and
so does the model: DEDUCED (log 76). -/
def Env.returnFromTrap (e : Env) (s : State) (x y : Word) : Res State := do
  faultIf (bits x 2 0 != 0) .align x
  faultIf (bits y 2 0 != 0) .align y
  let k := (y.toNat - x.toNat) / 8
  faultIf (y.toNat < x.toNat + 8 || 63 < k) .illop e.w
  let (s1, h) ← e.fetch s x
  faultIf (bits h 63 56 != 0xFF || lenOf h = 0) .illop h
  faultIf (lenOf h < k) .illop h
  let (s2, t) ← e.windowRet s1 e.st
  if k = lenOf h then return e.put s2 { t with hdr := x + BitVec.ofNat 64 (8 * (k + 1)), widx := 0 }
  else return { (e.put s2 { (t.applyMasks h s2.fresh) with hdr := x, widx := k + 1 }) with fresh := s2.fresh + 1 }

end Sys2Proof.Machine
end

