-- ==== Sys2Proof/Machine/Record.lean ====
section
/-! DEFINITION. Sys2Proof/Machine/Record.lean: putting a strand down (R31, R37, R50, R271, R400) and picking it up (R29,
R51, R269, R270), with the save frame in memory, the binding to a stream (R276, R277), and the pending pool (R288). -/

namespace Sys2Proof.Machine

/-! ### The save frame (Table 1.7) -/

/-- The pieces of a save frame: offset and bytes. The windowed scalars and the vectors are those of live groups only. -/
def Strand.saveImage (t : Strand) : List (Nat × List Byte) :=
  [(0x00, (upto 7).flatMap fun i => bytesOf 8 (t.g[Fin.ofNat 8 (i + 1)]).toNat),
   (0x40, (upto 7).flatMap fun i => bytesOf 8 (t.p[Fin.ofNat 8 (i + 1)]).toNat),
   (0x78, (upto 8).flatMap fun i => bytesOf 4 (t.h[Fin.ofNat 8 i]).toNat),
   (0x98, bytesOf 8 (putBits t.fpst 63 63 (if t.zsub then 1 else 0)).toNat),
   (0xA0, bytesOf 8 t.rprog.toNat),
   (0xA8, bytesOf 8 t.treesel),
   (0xB0, bytesOf 16 0)] ++
  (if t.latch.cls = .vector then [(0x180, bytesOf 256 t.latch.val.toNat)]
   else if t.latch.cls = .empty then [] else [(0x38, bytesOf 8 t.latchW.toNat)]) ++
  ((upto 24).filter fun i => t.liveS (i + 8)).map (fun i =>
    (0xC0 + 8 * i, bytesOf 8 (t.frames[physIdx t.cwp (i + 8)]).toNat)) ++
  ((upto 32).filter t.liveV).map fun i => (0x280 + 256 * i, bytesOf 256 (t.v[Fin.ofNat 32 i]).toNat)

/-- The image written at a frame. -/
def State.writeSave (s : State) (pa : Nat) : List (Nat × List Byte) → State
  | [] => s
  | (o, bs) :: t => (s.slicePut (pa + o) bs).writeSave pa t

/-- The registers as a save frame at `pa` holds them, those that the header `h` makes live and the latch's class (R51). A
register that was not saved has lost its content (R50). Reserved bits of FPST and RPROG in the frame do not come back (R45). -/
def Strand.restored (t : Strand) (h : Word) (s : State) (pa : Nat) : Strand :=
  let fp := s.dwAt (pa + 0x98)
  { t with
    g := Vector.ofFn fun i : Fin 8 => if i.val = 0 then 0 else s.dwAt (pa + 8 * (i.val - 1))
    p := Vector.ofFn fun i : Fin 8 => if i.val = 0 then 0 else s.dwAt (pa + 0x40 + 8 * (i.val - 1))
    h := Vector.ofFn fun i : Fin 8 => BitVec.ofNat 32 (s.valAt (pa + 0x78 + 4 * i.val) 4)
    fpst := fpstWrite 0 fp
    zsub := bit fp 63
    rprog := s.dwAt (pa + 0xA0) &&& rprogMask
    treesel := bits (s.dwAt (pa + 0xA8)) 2 0
    latch := { t.latch with
      val := if t.latch.cls = .vector then BitVec.ofNat 2048 (s.valAt (pa + 0x180) 256)
             else if t.latch.cls = .empty then 0 else (s.dwAt (pa + 0x38)).setWidth 2048 }
    frames := Vector.ofFn fun j : Fin 128 =>
      match nameOf t.cwp j.val with
      | some x => if (livesOf h).getLsbD ((x - 8) / 3) && !t.gated.getLsbD j.val then s.dwAt (pa + 0xC0 + 8 * (x - 8)) else t.frames[j]
      | none => t.frames[j]
    v := Vector.ofFn fun i : Fin 32 =>
      if (livevOf h).getLsbD (i.val / 4) && !t.gatedV.getLsbD (i.val / 4) then BitVec.ofNat 2048 (s.valAt (pa + 0x280 + 256 * i.val) 256) else t.v[i] }

/-- The slots of a save frame that a restore reads: offset and size. The masks are those of the header `h` (R51, Table 1.7). -/
def Strand.saveSlots (t : Strand) (h : Word) : List (Nat × Nat) :=
  [(0x00, 56), (0x40, 56), (0x78, 32), (0x98, 24)] ++
  (if t.latch.cls = .vector then [(0x180, 256)] else if t.latch.cls = .empty then [] else [(0x38, 8)]) ++
  ((upto 24).filter fun i => (livesOf h).getLsbD (i / 3)).map (fun i => (0xC0 + 8 * i, 8)) ++
  ((upto 32).filter fun i => (livevOf h).getLsbD (i / 4)).map fun i => (0x280 + 256 * i, 256)

/-- A byte that a restore reads is lost (R51). -/
def Strand.saveLost (t : Strand) (h : Word) (s : State) (pa : Nat) : Bool := (t.saveSlots h).any fun x => s.lostAt (pa + x.1) x.2

/-- The registers that a put-down does not save lose their content: every frame register but the live ones of the current
window, and the vectors that are not live (R37, R50). -/
def Strand.loseOthers (t : Strand) : Strand :=
  { t with
    gated := BitVec.ofNat 128 (packN 1 ((upto 128).map fun j =>
      match nameOf t.cwp j with
      | some x => if t.liveS x then 0 else 1
      | none => 1))
    gatedV := ~~~(livevOf t.header) }

/-! ### Put-down -/

/-- Resident caller frames spilled, oldest first (R37): the state with the frames written, and the strand with FRES 0 or what
stopped the spill. -/
def Env.spillAll (e : Env) (s : State) (t : Strand) : Nat → State × Res Strand
  | 0 => (s, .ok t)
  | n + 1 =>
    if t.fres = 0 then (s, .ok t)
    else
      match (checkRsp t).bind fun _ => e.stackWrite s (t.rsp - 128) (t.frameBytes s.fresh (t.cwp + 8 - t.fres)) with
      | .error x => (s, .error x)
      | .ok s1 => e.spillAll { s1 with fresh := s1.fresh + 1 } { t with rsp := t.rsp - 128, fres := t.fres - 1 } n

/-- The record written back at its place in the strand area, which its first put-down assigns (R28, R288), and sent where its
wait sends it: onto its ready queue when it waits for nothing but a core, together with the others of its act (R428), else it
waits. -/
def State.placeRecord (s : State) (u : Nat) (t : Strand) : State :=
  let t1 := { t with place := .waiting, area := t.area.orElse fun _ => s.newRecord t.part }
  let s1 := (s.setStrand u { t1 with stat := packStat t1 }).writeRecord u
  match t.waitK with
  | .none | .yield | .message => (s1.toReady u t.home).queueTogether
  | .preempted => if s1.cosets.any (·.contains u) then s1.queueTogether else s1.toReady u t.home
  | _ => ((s1.relinkWaits u).relist s1 u).queueTogether

/-- A head task that waits for slots may be launched now (R498). -/
def State.launchTurn (s : State) (f : Nat) : State :=
  match s.partOfField f with
  | some (n, p) =>
    if p.vfs.any fun e => e.2.queues.any fun q => !q.2.headers.isEmpty then s.postOnce (.taskLaunch n) else s
  | none => s

/-- A slot without its strand. A core that holds no strand has every lane idle (R262); a suspect one is tested (R504). -/
def State.vacate (s : State) (k : Nat) : State :=
  let s1 := { s with slots := tdel s.slots k }
  let c := coreOfSlot k
  let s2 :=
    if s1.slots.any fun e => coreOfSlot e.1 = c then s1
    else
      let y := s1.modCore c fun x => { x with lanes := [] }
      let z := if (y.core c).lease = 0 then y else y.postOnce (.leaseIdleReturn c)
      if (z.core c).bucket.suspect then z.postOnce (.wholeCoreAssay c false) else z
  (s2.postOnce (.pickUp (tileOfSlot k))).launchTurn (fieldOfSlot k)

/-- The record written back and the slot freed (R271, R174, R160). A raise of PRIO by a group ends (R427). -/
def Env.leaveSlot (e : Env) (s : State) (t : Strand) (save : Word) : State :=
  let stream := ((s.tile e.tile).streamOf e.k).getD t.stream
  let s1 := ((s.release e.k .tile).leaveStream e.k).dropEntry e.tile e.u
  let t1 := { t.loseOthers with
    save := save, fmode := .unbound, acq := .tile, stream := stream, cause := 0, tval := 0, tpc := 0,
    refetch := t.widx != 0, since := s.time, prio := t.base.getD t.prio, base := none, lift := 0, aged := 0 }
  let s2 := ((s1.vacate e.k).placeRecord e.u t1)
  if t.waitK = .preempted && t.h.toList.any (·.getLsbD 31) then s2.postOnce (.groupPrioRaise e.u) else s2

/-- A save that finds no frame: the strand stays on its slot, counted once; one whose wait has been met already resumes there
(R400). -/
def Env.stallSave (e : Env) (s : State) : State :=
  if e.p.stalled.contains e.u then s
  else if e.st.waitK = .none then (s.modSlot e.k fun sl => { sl with hold := some .resume, preempt := false }).postSlot e.k
  else ((s.modPart e.pn fun p => { p with stalled := p.stalled ++ [e.u] }).bumpArena e.pn 0x18).queueTogether

/-- A put-down's spill that met a page fault or a tier miss (R37), or a fault. -/
def Env.spillStopped (e : Env) (s : State) : Stop → State
  | .fault c v => s.raise e.k c v false false
  | .walkLost v => s.raise e.k .uncorr v false true
  | .page va f acc m =>
    (s.modSlot e.k fun sl => { sl with hold := some .spill }).queueTogether.linkFault f
      { who := .spill e.u, part := e.pn, ctx := e.ctx, va := va, acc := acc.num }
      [va, descInfo e.ctx 0 m acc (pcoordOf e.k), taskIdOf e.ta e.st.index, BitVec.ofNat 64 s.time]
  | .tier va f acc en big slot =>
    if s.tierAllowed e.p e.ctx en big then
      (s.modSlot e.k fun sl => { sl with hold := some .spill }).queueTogether.joinPromo f en big slot
        { wait := { who := .spill e.u, part := e.pn, ctx := e.ctx, va := va, acc := acc.num }
          info := descInfo e.ctx 0 false acc (pcoordOf e.k), taskid := taskIdOf e.ta e.st.index }
    else s.raise e.k .access va false false
  | .wait => s
  | .become s' => s'

/-- The save frame taken, the image written, the record written back. `stalledFirst` lets the head of the stalled saves
take the frame (R400). -/
def Env.save (e : Env) (s : State) (t : Strand) (stalledFirst : Bool) : State :=
  if !stalledFirst && !e.p.stalled.isEmpty then e.stallSave s
  else
    match s.allocArena e.pn frameBytes 256 true with
    | none => e.stallSave s
    | some (s1, a) =>
      match s1.arenaPa e.pn a with
      | none => e.stallSave s
      | some pa =>
        let s2 := (s1.writeSave pa t.saveImage).modPart e.pn fun p => { p with stalled := ldel p.stalled e.u }
        e.leaveSlot s2 t a

/-- The put-down of the strand on a slot whose put-down is due. -/
def Env.putDown (e : Env) (s : State) (stalledFirst : Bool) : State :=
  match e.sl.hold with
  | some .save =>
    match e.spillAll s e.st 8 with
    | (s1, .error x) => e.spillStopped s1 x
    | (s1, .ok t) => e.save s1 t stalledFirst
  | _ => s

/-- PUT_DOWN (R271). -/
def execPutDown (slot : Nat) (s : State) : Host.Outcome State Fault Refusal :=
  match s.envAt slot (.putDown slot) noCtl with
  | none => .next s
  | some e => .next (e.putDown s false)

/-- A stalled save has its frame: the next one of the partition has its turn (R400). -/
def State.moreSaves (s : State) (part before : Nat) : State :=
  match tget s.parts part with
  | some p => if !p.stalled.isEmpty && p.stalled.length < before then s.postOnce (.stalledSaveResume part) else s
  | none => s

/-- STALLED_SAVE_RESUME (R400): freed frames go to the stalled saves, oldest first. -/
def execStalledSaveResume (part : Nat) (s : State) : Host.Outcome State Fault Refusal :=
  match tget s.parts part with
  | none => .next s
  | some p =>
    match p.stalled with
    | [] => .next s
    | u :: rest =>
      let s0 := s.setPart part { p with stalled := rest }
      match tget s.strands u with
      | some { place := .slot k, .. } =>
        match s.envAt k (.stalledSaveResume part) noCtl with
        | none => .next s0
        | some e => if e.sl.hold = some .save then .next ((e.putDown s true).moreSaves part p.stalled.length) else .next (s0.postOnce (.stalledSaveResume part))
      | _ => .next (s0.postOnce (.stalledSaveResume part))

/-! ### Binding (R276, R277) -/

/-- Cycles for which a stream gathers (R277), counted on the core that opened it (R7). -/
def gatherCycles : Nat := 32

/-- Some record of a task waits on the ready queues of a tile. -/
def State.taskReady (s : State) (tile task : Nat) : Bool :=
  (s.tile tile).ready.any fun q => q.any fun u =>
    match tget s.strands u with
    | some t => t.task = task
    | none => false

/-- A stream has a member on a core. -/
def Stream.onCore (x : Stream) (c : Nat) : Bool := x.members.any fun k => coreOfSlot k = c

/-- Task of a stream's members. -/
def State.streamTask (s : State) (x : Stream) : Option Nat :=
  (x.members.head?.bind fun k => tget s.slots k).bind fun sl => (tget s.strands sl.uid).map (·.task)

/-- The gathering of a stream is over (R277). -/
def State.gatherOver (s : State) (tile : Nat) (x : Stream) : Bool :=
  match x.gather, s.streamTask x with
  | some g, some task =>
    g.since + gatherCycles ≤ s.cycleOf g.core || streamSize ≤ x.members.length || !s.taskReady tile task
  | _, _ => true

/-- The streams of a tile whose gathering is over let their lead go (R277). -/
def State.endGathers (s : State) (tile : Nat) : State :=
  s.modTile tile fun t =>
    { t with streams := t.streams.map fun x => if x.gather.isSome && s.gatherOver tile x then { x with gather := none } else x }

/-- Binding at pick-up of the strand on slot `k` at header `h` (R276). Of several free streams the lowest is opened: DESIGN
CHOICE, the spec names none (log 40). -/
def State.bind (s : State) (k u task : Nat) (h : Word) : State :=
  let tile := tileOfSlot k
  let t := s.tile tile
  let fits := fun (x : Stream) =>
    (x.gather.map (·.hdr)) = some h && s.streamTask x = some task && !x.onCore (coreOfSlot k) && x.members.length < streamSize
  match t.streams.findIdx? fits with
  | some i =>
    let s1 := s.setTile tile { t with streams := t.streams.mapIdx fun j x => if j = i then { x with members := x.members ++ [k] } else x }
    (s1.modStrand u fun y => { y with fmode := .attached, stream := i }).modSlot k fun sl => { sl with pos := 0 }
  | none =>
    match t.streams.findIdx? fun x => x.members.isEmpty with
    | some i =>
      let c := coreOfSlot k
      let s1 := s.setTile tile (t.setStream i { members := [k], gather := some { hdr := h, core := c, since := s.cycleOf c } })
      ((s1.modStrand u fun y => { y with fmode := .attached, stream := i }).modSlot k fun sl => { sl with pos := 0 }).postAt
        (s.cycleEnds c (s.cycleOf c + gatherCycles - 1)) (.gatherEnd tile (Fin.ofNat 4 i))
    | none => s

/-- GATHER_END (R277). A stretch of the clock makes the cycles last longer: the end then falls due again (R7). -/
def execGatherEnd (tile : Nat) (stream : Fin 4) (s : State) : Host.Outcome State Fault Refusal :=
  match (s.tile tile).streams[stream.val]? with
  | none => .next s
  | some x =>
    if x.gather.isSome && s.gatherOver tile x then
      .next (s.modTile tile fun t => t.setStream stream.val { x with gather := none })
    else
      match x.gather with
      | some g => .next (s.postAt (max (s.time + 1) (s.cycleEnds g.core (g.since + gatherCycles - 1))) (.gatherEnd tile stream))
      | none => .next s

/-! ### Pick-up -/

/-- A core's free slot: the core is there and works, is not suspect (R504), is not under Assay for a strand that has been launched
`again` (R502), and the slot holds no strand. Of several the lowest: DESIGN CHOICE, R270 names the core alone (log 25). -/
def State.freeSlot (s : State) (c : Nat) (again : Bool) : Option Nat :=
  if coreExists c && (s.core c).good && !(s.core c).bucket.suspect && !(again && (s.core c).bucket.busy) then ((upto (slotsOfCore c)).map fun i => c * 4 + i).find? fun k =>
      (tget s.slots k).isNone && !(s.core c).testing.contains (registerBank k)
  else none

/-- The core that takes a record: the one that LCORE names when it has a free slot, else the lowest (R270). -/
def State.chooseSlot (s : State) (tile lcore : Nat) (again : Bool) : Option Nat :=
  match s.freeSlot (tile * 16 + lcore) again with
  | some k => some k
  | none => ((upto 16).filterMap fun i => s.freeSlot (tile * 16 + i) again).head?

/-- The strand's task has been launched again after a rollback (R502). -/
def State.ranBefore (s : State) (t : Strand) : Bool := ((tget s.tasks t.task).map (·.relaunched)).getD false

/-- The head of the highest-priority queue that is not empty. -/
def Tile.nextReady (t : Tile) : Option Nat := (t.ready.reverse.filterMap List.head?).head?

/-- A pending-pool buffer (R288). -/
def poolSize : Nat := 128

/-- The oldest overflow record of a tile moves into a free pool buffer, as its 64 bytes in the arena then hold it, and on to its
ready queue; its 64 bytes return to the arena (R28, R288). -/
def State.moveOverflow (s : State) (tile : Nat) : State :=
  let t := s.tile tile
  match t.overflow with
  | [] => s
  | u :: rest =>
    if t.pool.length < poolSize then
      match tget s.strands u with
      | none => s.setTile tile { t with overflow := rest }
      | some x =>
        let y := s.readRecord x
        (((s.setTile tile { t with overflow := rest, pool := t.pool ++ [u] }).setStrand u
          { unpackStat y y.stat with ovf := 0 }).toReady u tile).freeArena x.part x.ovf recordBytes
    else s

/-- PENDING_RECORD_MOVE (R288): overflow records move oldest first while pool buffers are free; then creations that wait for a
buffer go on (R289). -/
def State.movePending (s : State) (tile : Nat) : State :=
  ((s.tile tile).overflow.foldl (fun y _ => y.moveOverflow tile) s).creationTurns

/-- The restore of a record's context on slot `k` (R51, R401). HDR's header is read again for the live masks; a header that
cannot be read leaves the masks of the put-down, and the block's entry then meets what kept it from being read. -/
def State.restore (s : State) (k u : Nat) (t : Strand) : State :=
  if t.save = 0 then s
  else
    match s.arenaPa t.part t.save with
    | none => s
    | some pa =>
      let again := (s.envAt k .blockEntry noCtl).bind fun e => (e.fetch s t.hdr).toOption
      let (s1, h) := again.getD (s, t.header)
      if t.saveLost h s1 pa then s1.raise k .savelost t.save false false
      else
        let y := { t.restored h s1 pa with save := 0 }
        let s2 :=
          if again.isSome && t.widx != 0 then
            { (s1.setStrand u { y.applyMasks h s1.fresh with refetch := false }) with fresh := s1.fresh + 1 }
          else s1.setStrand u y
        s2.freeArena t.part t.save frameBytes

/-- Aging ends at pick-up (R497); a raise by a group stays until the next put-down (R427). -/
def Strand.rested (t : Strand) : Strand :=
  let own := t.base.getD t.prio
  { t with prio := max own t.lift, base := if own < t.lift then some own else none, aged := 0 }

/-- The strand on slot `k` goes on as after a pick-up (R270): it waits for nothing, its core is noted, and it is bound where it
stands unbound at a header. -/
def State.settle (s : State) (k u : Nat) (bindIt : Bool) : State :=
  let s1 := (s.modStrand u fun x =>
    { x with waitK := .none, waita := 0, waitv := 0, lcore := coreOfSlot k % 16, stood := k, acq := .tile }).modSlot k fun sl =>
      { sl with vp := ((tget s.strands u).map (·.p)).getD sl.vp }
  match tget s1.strands u with
  | some x => if bindIt && x.fmode = .unbound && x.widx = 0 && !isGateway (tileOfSlot k) then s1.bind k u x.task x.hdr else s1
  | none => s1

/-- A strand takes a slot (R270). -/
def State.takeSlot (s : State) (k u : Nat) (t0 : Strand) : State :=
  let tile := tileOfSlot k
  let t := { s.readRecord t0 with place := .slot k }
  let s1 := ((s.offReady u tile).modTile tile fun x => { x with pool := ldel x.pool u }).setSlot k
    { uid := u, picked := s.time }
  if statBad t.stat then (s1.setStrand u t).raise k .illop t.stat false false
  else
    let t1 := unpackStat (t.withPrio t.stat) t.stat
    let s2 := ((s1.setStrand u t1).acquire k t1.acq).restore k u t1
    match tget s2.slots k with
    | some { hold := none, .. } =>
      let s3 := s2.modStrand u fun x =>
        (if x.waitK = .message then (x.putPhys (physIdx x.cwp 8) x.waita).putPhys (physIdx x.cwp 9) x.waitv else x).rested
      (s3.settle k u true).post (.slot k)
    | _ => s2

/-- A strand whose wait is met while it is still halted on its slot resumes there as after a pick-up (R37, R400): the acquire
of R160, and the binding of R276. -/
def State.resumeHeld (s : State) (k : Nat) : State :=
  match tget s.slots k with
  | some sl =>
    let s1 := (s.setSlot k { sl with hold := none, picked := s.time }).acquire k .tile
    ((s1.modStrand sl.uid fun x => { x with cause := 0, tval := 0, tpc := 0 }).settle k sl.uid true).postSlot k
  | none => s

/-- PICK_UP (R270): a core with a free slot takes the head record of the highest-priority queue that is not empty, the one that the
record's LCORE names where it has a free slot. No strand runs on a dark tile (R433). A record that has waited long may now find a
strand of lower PRIO there (R498). -/
def execPickUp (tile : Nat) (s : State) : Host.Outcome State Fault Refusal :=
  let t := s.tile tile
  match t.nextReady with
  | none => .next s
  | some u =>
    match tget s.strands u with
    | none => .next (s.offReady u tile)
    | some x =>
      match (if s.awake tile then s.chooseSlot tile (bits (s.statOf x) 39 36) (s.ranBefore x) else none) with
      | none => .next s
      | some k =>
        let halted := match tget s.parts x.part with
          | some p => p.halt.isSome
          | none => true
        if halted then .next s
        else
          let s1 := (((s.takeSlot k u x).movePending tile).endGathers tile).postOnce (.priorityPreemption tile)
          .next (if (s1.tile tile).nextReady.isSome then s1.postOnce (.pickUp tile) else s1)

end Sys2Proof.Machine
end

