-- ==== Sys2Proof/Machine/Tier.lean ====
section
/-! DEFINITION. Sys2Proof/Machine/Tier.lean: the second tier (R471 to R482): chunks sealed and opened, promotion on touch, and
the sweep of a field's fault list (R398). Also the row counters of HBM4E (R465 to R468). -/

namespace Sys2Proof.Machine

/-! ### Chunks (R473 to R476) -/

/-- Bytes of a chunk. -/
def chunkBytes : Nat := 4096

/-- The 96-bit IV of a chunk: its physical address bits [63:12], then the VERSION (R473). -/
def chunkIv (pa : Nat) (ver : BitVec 44) : List Byte := beBytes 12 (pa / chunkBytes * 2 ^ 44 + ver.toNat)

/-- The key that a context seals with, as bytes; none where its slot is 0 or empty (R473). -/
def State.tierKey (s : State) (p : Partition) (ctx : Nat) : Option (List Byte) :=
  let k := s.keySlot p ctx
  if k = 0 then none else (tget s.keys k).map fun x => bytesOf 32 x.toNat

/-- The 4,096 bytes of the chunk that holds `pa`, opened under a key; none is a tag failure (R473, R475, R476). -/
def State.openChunk (s : State) (key : List Byte) (pa : Nat) : Option (List Byte) :=
  let base := pa / chunkBytes * chunkBytes
  let c := tgetD s.chunks (pa / chunkBytes) {}
  if c.empty then some (List.replicate chunkBytes 0)
  else if s.lostAt base chunkBytes then none
  else gcmOpen key (chunkIv pa c.version) (s.bytesAt base chunkBytes) c.tag

/-- VERSION can rise no more (R474). -/
def State.chunkFull (s : State) (pa : Nat) : Bool := (tgetD s.chunks (pa / chunkBytes) {}).version = BitVec.allOnes 44

/-- A chunk sealed whole under the next VERSION (R473). -/
def State.sealChunk (s : State) (key : List Byte) (pa : Nat) (bs : List Byte) : State :=
  let n := pa / chunkBytes
  let v := (tgetD s.chunks n {}).version + 1
  let (ct, tag) := gcmSeal key (chunkIv pa v) bs
  { (s.putAt (n * chunkBytes) ct) with chunks := tput s.chunks n { empty := false, version := v, tag := tag } }

/-- Bytes of a list replaced from offset `o`. -/
def overlay (l : List Byte) (o : Nat) (bs : List Byte) : List Byte := l.take o ++ bs ++ l.drop (o + bs.length)

/-- One tag failure more (R476). -/
def State.countTag (s : State) (part : Nat) : State := s.modPart part fun p => { p with tagfail := sat16 (p.tagfail + 1) }

/-- The outcome of an access in place (R482). -/
inductive InPlace (α : Type) where
  | ok (a : α)
  /-- the frame or the key may not be used, or VERSION is at its limit: ACCESS (R472 to R474) -/
  | refused
  /-- a tag failure of the chunk that holds the place: UNCORR (R476) -/
  | lost (pa : Nat)
  deriving DecidableEq, Repr

/-- `n` bytes at a second-tier address, read in place chunk by chunk. -/
def State.tierRead (s : State) (key : List Byte) (pa n : Nat) : Nat → InPlace (List Byte)
  | 0 => .ok []
  | fuel + 1 =>
    if n = 0 then .ok []
    else
      match s.openChunk key pa with
      | none => .lost pa
      | some b =>
        let o := pa % chunkBytes
        let m := min n (chunkBytes - o)
        match s.tierRead key (pa + m) (n - m) fuel with
        | .ok t => .ok ((b.drop o).take m ++ t)
        | x => x

/-- Bytes written in place, each chunk that they touch sealed. -/
def State.tierWrite (s : State) (key : List Byte) (pa : Nat) (bs : List Byte) : Nat → InPlace State
  | 0 => .ok s
  | fuel + 1 =>
    if bs.isEmpty then .ok s
    else if s.chunkFull pa then .refused
    else
      let o := pa % chunkBytes
      let m := min bs.length (chunkBytes - o)
      let old := if m = chunkBytes then some [] else s.openChunk key pa
      match old with
      | none => .lost pa
      | some b => (s.sealChunk key pa (overlay b o (bs.take m))).tierWrite key (pa + m) (bs.drop m) fuel

/-! ### Faults that no running instruction raises (R176, R184) -/

/-- Who a fault of a grid names: task, TASKID, TPC, HDR, PCOORD (Table 6.6). -/
structure Blame where
  task   : Nat
  taskid : Word
  tpc    : Word
  hdr    : Word
  pcoord : Word
  deriving DecidableEq, Repr

/-- Assay follows an uncorrectable word that a command of a task has met (R296, R380). -/
def State.gridAssay (s : State) (task : Nat) (c : FaultCode) (va : Word) : State :=
  if c != .uncorr then s
  else
    let part := (tget s.tasks task).bind fun ta => (tget s.parts ta.part).bind fun p => s.memPart p ta.ctx va
    match part with
    | some a => s.postOnce (.assay a)
    | none => s

/-- A fault that ends a grid. -/
def State.gridFault (s : State) (b : Blame) (c : FaultCode) (tval : Word) : State :=
  (s.gridAssay b.task c tval).noteFault b.task #v[causeOf c false, tval, b.tpc, b.hdr, b.taskid, b.pcoord, BitVec.ofNat 64 s.time]

/-- A strand as its faults name it while it is off its slot. -/
def State.blameStrand (s : State) (u : Nat) : Option Blame :=
  match tget s.strands u with
  | none => none
  | some t =>
    match tget s.tasks t.task with
    | none => none
    | some ta =>
      some { task := t.task, taskid := taskIdOf ta t.index, tpc := t.pc, hdr := t.hdr, pcoord := pcoordOf t.stood }

/-- A scrubber command as its faults name it. -/
def Scrub.blame (c : Scrub) : Blame :=
  { task := c.task, taskid := c.taskid, tpc := c.tpc, hdr := c.hdr, pcoord := pcoordOf c.k }

/-- A copy command as its faults name it. -/
def CopyCmd.blame (c : CopyCmd) : Blame :=
  { task := c.task, taskid := c.taskid, tpc := c.tpc, hdr := c.hdr, pcoord := pcoordOf c.k }

/-! ### Waking -/

/-- A waiter may go on (R397, R398, R478). -/
def State.wakeWaiter (s : State) : Waiter → State
  | .copy tile core =>
    (s.modTile tile fun t => { t with copies := tmod t.copies core fun q => { q with held := false } }).postOnce (.copyChunk tile)
  | .copyEnd tile ctr =>
    (s.modTile tile fun t => { t with copied := t.copied.map fun c => if c.ctr = ctr then { c with held := false } else c }).postOnce
      (.copyCompletion tile)
  | .scrub f => s.postOnce (.scrubberRun f)
  | .act i => s.postOnce i
  | w => s.wakeStrand w

def State.wakeWaiters (s : State) : List Waiter → State
  | [] => s
  | w :: t => (s.wakeWaiter w).wakeWaiters t

/-- FAULT_SWEEP (R398): the waiters of a field whose addresses now walk to a leaf go on, oldest first. -/
def execFaultSweep (field : Nat) (s : State) : Host.Outcome State Fault Refusal :=
  let present := fun (w : FaultWait) =>
    match tget s.parts w.part with
    | none => true
    | some p =>
      match s.walk p field w.ctx w.va with
      | .notPresent | .malformed => false
      | _ => true
  let l := (s.field field).faults
  let rest := l.filter fun w => !present w
  .next (((s.modField field fun x => { x with faults := rest }).putLists field).wakeWaiters ((l.filter present).map (·.who)))

/-! ### Promotion (R478 to R481) -/

/-- Place of the free-frame stack for a field: PPOOL64 or PPOOL2M of the tier control block; none for 0. -/
def State.promoStack (s : State) (p : Partition) (f : Nat) (big : Bool) : Option Nat :=
  let tbl := s.pinDw p p.tiercb (if big then 8 else 0)
  let st := s.pinDw p tbl (8 * (p.logical f).getD 0)
  if st = 0 then none else pinPa p st

/-- A frame popped from the stack at a place (Table 15.9). -/
def State.popFrame (s : State) (st : Nat) : Option (State × Nat) :=
  let n := s.dwAt st
  if n = 0 then none
  else some (s.sliceDw st (n - 1), (s.dwAt (st + 0x40 + 8 * (n.toNat - 1))).toNat)

/-- A frame pushed onto the stack at a place, when it has room (R403). -/
def State.pushFrame (s : State) (st frame : Nat) : State × Bool :=
  let n := s.dwAt st
  if n.toNat < (s.dwAt (st + 8)).toNat then
    ((s.sliceDw (st + 0x40 + 8 * n.toNat) (BitVec.ofNat 64 frame)).sliceDw st (n + 1), true)
  else (s, false)

/-- Zero written to every word of a frame: marks go too (R403). A second-tier chunk becomes EMPTY and keeps its VERSION (R475). -/
def State.zeroFrame (s : State) (frame : Nat) (big : Bool) : State :=
  let n := pageBytes big
  { s with
    mem := Mem.below s.mem frame ++ Mem.from s.mem (frame + n)
    uncorr := dropRange s.uncorr (frame / 8) ((frame + n) / 8)
    poison := dropRange s.poison (frame / 4) ((frame + n) / 4)
    chunks := if isTier frame then s.chunks.map fun (i, c) =>
        if frame / chunkBytes ≤ i && i < (frame + n) / chunkBytes then (i, { c with empty := true, tag := 0 }) else (i, c)
      else s.chunks }

/-- The page read, opened and checked, its plain bytes written into the frame at the home slices; the offset of a chunk that
fails otherwise (R478, step 2). `i` chunks of `n` are left. -/
def State.fillFrame (s : State) (key : List Byte) (src dst n : Nat) : Nat → State × Option Nat
  | 0 => (s, none)
  | i + 1 =>
    let o := (n - (i + 1)) * chunkBytes
    match s.openChunk key (src + o) with
    | none => (s, some o)
    | some b => (s.slicePut (dst + o) b).fillFrame key src dst n i

/-- The next promotion of a field that has not started gets its turn. -/
def State.nextPromo (s : State) (f : Nat) : State :=
  if (s.field f).promos.isEmpty then s
  else if (s.field f).promos.any (·.frame.isSome) then s.postOnce (.promotionComplete f)
  else s.postOnce (.tierPromotion f)

def Held.who (h : Held) : Waiter := h.wait.who

/-- A waiter linked onto the fault list as for a page fault (R480). -/
def State.stallWaiter (s : State) (f : Nat) (h : Held) : State :=
  let s1 := match h.wait.who with
    | .strand u => (s.modStrand u fun t => { t with waitK := .pageFault }).restat u
    | _ => s
  let s2 := s1.linkFault f h.wait [h.wait.va, h.info, h.taskid, BitVec.ofNat 64 s.time]
  s2.relink (strandsOf ((s2.field f).faults.map (·.who)))

def State.stallWaiters (s : State) (f : Nat) : List Held → State
  | [] => s
  | h :: t => (s.stallWaiter f h).stallWaiters f t

/-- The touching access takes the outcome of a tag failure (R476): UNCORR at the chunk's address. An act that was held meets it when
it makes the access again. -/
def State.touchLost (s : State) (h : Held) (va : Word) : State :=
  match h.wait.who with
  | .strand u | .spill u =>
    match tget s.strands u with
    | some { place := .slot k, .. } => s.raise k .uncorr va false false
    | _ =>
      match s.blameStrand u with
      | some b => s.gridFault b .uncorr va
      | none => s
  | .copy tile core =>
    match tget (s.tile tile).copies core with
    | some q =>
      match q.cmds with
      | c :: _ => s.gridFault c.blame .uncorr va
      | [] => s
    | none => s
  | .copyEnd tile ctr =>
    match (s.tile tile).copied.find? fun c => c.held && c.ctr = ctr with
    | some c =>
      ((s.modTile tile fun t => { t with copied := t.copied.erase c }).postOnce (.taskCompletion c.task)).gridFault c.blame .uncorr va
    | none => s
  | .scrub f =>
    match (s.field f).scrubs with
    | c :: _ => s.gridFault c.blame .uncorr va
    | [] => s
  | .act i => (s.modPart h.wait.part fun p => { p with lostActs := p.lostActs ++ [(i, h.wait.va, va)] }).postOnce i

/-- TIER_PROMOTION (R478, steps 1 and 2; R480): the oldest promotion of a field takes a frame and the page's bytes. -/
def execTierPromotion (field : Nat) (s : State) : Host.Outcome State Fault Refusal :=
  match (s.field field).promos with
  | [] => .next s
  | q :: rest =>
    if q.frame.isSome then .next (s.postOnce (.promotionComplete field))
    else
      let drop := s.modField field fun x => { x with promos := rest }
      match tget s.parts q.part with
      | none => .next (drop.nextPromo field)
      | some p =>
        match s.promoStack p field q.big, s.tierKey p q.ctx with
        | some st, some key =>
          match s.popFrame st with
          | none =>
            .next ((((drop.modPart q.part fun x => { x with pstall := sat16 (x.pstall + 1) }).stallWaiters field q.waiters)).nextPromo field)
          | some (s1, fr) =>
            let n := pageBytes q.big / chunkBytes
            match s1.fillFrame key (frameOf q.entry) fr n n with
            | (s2, none) =>
              .next ((s2.modField field fun x => { x with promos := { q with frame := some fr } :: rest }).postOnce
                (.promotionComplete field))
            | (s2, some o) =>
              let s3 := ((s2.modField field fun x => { x with promos := rest }).countTag q.part).zeroFrame fr q.big
              let s4 := (s3.pushFrame st fr).1
              let s5 := match q.waiters with
                | [] => s4
                | h :: t => (s4.touchLost h (q.va + BitVec.ofNat 64 o)).wakeWaiters (t.map Held.who)
              .next (s5.nextPromo field)
        | none, _ =>
          .next ((((drop.modPart q.part fun x => { x with pstall := sat16 (x.pstall + 1) }).stallWaiters field q.waiters)).nextPromo field)
        | _, none => .next ((drop.wakeWaiters (q.waiters.map Held.who)).nextPromo field)

/-- Promotion-ring entries that wait, written in order while the partition's ring has room (R479). -/
def State.flushProms (s : State) (n : Nat) (p : Partition) : List (List Word) → State
  | [] => s.modPart n fun x => { x with proms := [] }
  | d :: t =>
    let tail := s.pinDw p p.tiercb 0x18
    if (tail - s.pinDw p p.tiercb 0x20).toNat < ringEntries then
      let s1 := s.putPins p (s.pinDw p p.tiercb 0x10 + BitVec.ofNat 64 (32 * (tail.toNat % ringEntries))) d
      (s1.bumpPin p (p.tiercb + 0x18) 1).flushProms n p t
    else s.modPart n fun x => { x with proms := d :: t }

/-- PROMOTION_COMPLETE (R478, steps 3 to 5; R480). -/
def execPromotionComplete (field : Nat) (s : State) : Host.Outcome State Fault Refusal :=
  match (s.field field).promos with
  | [] => .next s
  | q :: rest =>
    let s0 := s.modField field fun x => { x with promos := rest }
    let woken := fun (x : State) => (x.wakeWaiters (q.waiters.map Held.who)).nextPromo field
    match q.frame, tget s.parts q.part with
    | none, _ => .next (s.nextPromo field)
    | _, none => .next (woken s0)
    | some fr, some p =>
      if s.dwAt q.slot = q.entry then
        let new := BitVec.ofNat 64 (fr / 2 ^ 16 * 2 ^ 16 + (q.entry.toNat % 2 ^ 16)) &&& ~~~(BitVec.ofNat 64 0x800)
        let s1 := (s0.sliceDw q.slot new).modField field fun x => { x with tlb := x.tlb.filter fun l => l.slot != q.slot }
        let d := [q.va, BitVec.ofNat 64 (q.ctx * 2 ^ 48 + if q.big then 1 else 0), BitVec.ofNat 64 (frameOf q.entry),
          BitVec.ofNat 64 fr]
        let s2 := s1.flushProms q.part p (((tget s1.parts q.part).map (·.proms)).getD [] ++ [d])
        .next (woken (s2.modPart q.part fun x => { x with promo := x.promo + 1 }))
      else
        let s1 := s0.zeroFrame fr q.big
        .next (woken (match s.promoStack p field q.big with
          | some st => (s1.pushFrame st fr).1
          | none => s1))

/-! ### Row activation counters (R465 to R468) -/

def rowFind (l : List (RowId × Row)) (r : RowId) : Row := ((l.find? fun e => e.1 = r).map (·.2)).getD {}
def rowPut (l : List (RowId × Row)) (r : RowId) (x : Row) : List (RowId × Row) :=
  if l.any fun e => e.1 = r then l.map fun e => if e.1 = r then (r, x) else e else l ++ [(r, x)]

/-- The sector that a module stack serves (R457). -/
def sectorOfStack (stack : Fin 40) : Nat := stack.val / 5

/-- Most activations that a counter holds (R465). -/
def rowMax : Nat := 2047

/-- The row is blocked until its refresh management (R467). -/
def State.rowBlocked (s : State) (r : RowId) : Bool := s.alerts.contains r

/-- Spacing of the activations of a hot row, in nanoseconds (R468). -/
def hotSpacing : Nat := 1000

/-- The parity of a counter: even, DESIGN CHOICE (log 71). -/
def parityOf (c : BitVec 11) : Bool := ((upto 11).filter c.getLsbD).length % 2 = 1

/-- The parity of a row's counter fails (R466). -/
def Row.parityFails (x : Row) : Bool := x.parity != parityOf x.count

/-- ROW_PRECHARGE (R465, R466, R468): activations of a row since its last precharge. The bank reads the counter and its parity, and
writes both back. A blocked row is not activated; a hot row is activated once, and not within 1 µs of the last time. `parityFails` is
an error of this read alone, an input (log 45); one that stays in the row is a bit of it. -/
def execRowPrecharge (row : RowId) (activations : Nat) (parityFails : Bool) (s : State) : Host.Outcome State Fault Refusal :=
  let x := rowFind s.rows row
  let fails := parityFails || x.parityFails
  if s.rowBlocked row || (x.hot && (1 < activations || s.time < x.last + hotSpacing)) then .next s
  else
    let sec := sectorOfStack row.stack
    let st := tgetD s.sectors sec {}
    let c := min (x.count.toNat + activations) rowMax
    let alert := fails || st.rth ≤ c || c = rowMax
    let hot := x.hot || (alert && 1 ≤ x.alerts)
    let y : Row := { count := BitVec.ofNat 11 c, parity := parityOf (BitVec.ofNat 11 c), alerts := if alert then x.alerts + 1 else x.alerts, hot := hot, last := s.time }
    let st1 : Sector := { st with
      parity := if fails then sat16 (st.parity + 1) else st.parity
      hot := if hot && !x.hot then sat16 (st.hot + 1) else st.hot }
    let s1 := { s with rows := rowPut s.rows row y, sectors := tput s.sectors sec st1 }
    if alert then
      .next ({ s1 with alerts := s1.alerts ++ [row] }.postOnce (.refreshManagement row.stack row.pch row.bank))
    else .next s1

/-- REFRESH_MANAGEMENT (R467): the oldest alert of a bank is served: the counter is written as 0 with correct parity. -/
def execRefreshManagement (stack : Fin 40) (pch : Fin 64) (bank : Fin 16) (s : State) : Host.Outcome State Fault Refusal :=
  let mine := fun (r : RowId) => r.stack = stack && r.pch = pch && r.bank = bank
  match s.alerts.find? mine with
  | none => .next s
  | some r =>
    let sec := sectorOfStack stack
    let st := tgetD s.sectors sec {}
    let s1 := { s with
      alerts := ldel s.alerts r
      rows := rowPut s.rows r { rowFind s.rows r with count := 0, parity := parityOf 0 }
      sectors := tput s.sectors sec { st with rfm := st.rfm + 1 } }
    .next (if s1.alerts.any mine then s1.postOnce (.refreshManagement stack pch bank) else s1)

/-- A refresh window, in nanoseconds (R468). -/
def refreshWindow : Nat := 32000000

/-- REFRESH_WINDOW_END (R468): a 32 ms window ends, and with it every hot mark. -/
def execRefreshWindowEnd (s : State) : Host.Outcome State Fault Refusal :=
  let s1 : State := { s with rows := s.rows.map fun (r, x) => (r, { x with alerts := 0, hot := false }) }
  .next (s1.postAt (s.time + refreshWindow) .refreshWindowEnd)

end Sys2Proof.Machine
end

