-- ==== Sys2Proof/Machine/Integer.lean ====
section
/-! DEFINITION. Sys2Proof/Machine/Integer.lean: the integer, logic, compare and move instructions (chapter 3): first what each
computes on patterns, then one meaning for each. -/

namespace Sys2Proof.Machine

/-! ### What is computed (`n` is the element width, `x` and `y` are the patterns pa and pb) -/

/-- R98. -/
def fAdd (_ x y : Nat) : Int := x + y
def fSub (_ x y : Nat) : Int := (x : Int) - y
def fMul (_ x y : Nat) : Int := x * y
def fMulh (n x y : Nat) : Int := sextN x n * sextN y n / 2 ^ n
def fMulhu (n x y : Nat) : Int := ((x * y / 2 ^ n : Nat) : Int)
def fScadd (k : Nat) (n x y : Nat) : Int := x + (if n ≤ k then 0 else y * 2 ^ k)

/-- R99: the quotient, with all ones for a zero divisor, and the remainder, with the dividend for one. -/
def fDiv (n x y : Nat) : Int := if y = 0 then -1 else (sextN x n).tdiv (sextN y n)
def fDivu (_ x y : Nat) : Int := if y = 0 then -1 else ((x / y : Nat) : Int)
def fRem (n x y : Nat) : Int := if y = 0 then sextN x n else (sextN x n).tmod (sextN y n)
def fRemu (_ x y : Nat) : Int := if y = 0 then x else ((x % y : Nat) : Int)

/-- R100. -/
def fAbs (n x : Nat) : Int := if sextN x n < 0 then -sextN x n else sextN x n
def fMin (n x y : Nat) : Int := if sextN x n ≤ sextN y n then x else y
def fMax (n x y : Nat) : Int := if sextN x n ≥ sextN y n then x else y
def fMinu (_ x y : Nat) : Int := if x ≤ y then x else y
def fMaxu (_ x y : Nat) : Int := if x ≥ y then x else y
def fAddsat (u : Bool) (n x y : Nat) : Int :=
  if u then satInt (x + y) 0 (2 ^ n - 1) else satInt (sextN x n + sextN y n) (-(2 ^ (n - 1))) (2 ^ (n - 1) - 1)
def fSubsat (u : Bool) (n x y : Nat) : Int :=
  if u then satInt ((x : Int) - y) 0 (2 ^ n - 1) else satInt (sextN x n - sextN y n) (-(2 ^ (n - 1))) (2 ^ (n - 1) - 1)

/-- R101. The complement of a pattern of `n` bits is 2^n - 1 less it. -/
def fAnd (_ x y : Nat) : Int := ((x &&& y : Nat) : Int)
def fOr (_ x y : Nat) : Int := ((x ||| y : Nat) : Int)
def fXor (_ x y : Nat) : Int := ((x ^^^ y : Nat) : Int)
def fAndn (n x y : Nat) : Int := ((x &&& (2 ^ n - 1 - y) : Nat) : Int)
def fOrn (n x y : Nat) : Int := ((x ||| (2 ^ n - 1 - y) : Nat) : Int)
def fXnor (n x y : Nat) : Int := ((2 ^ n - 1 - (x ^^^ y) : Nat) : Int)

/-- R102. -/
def fShl (n x y : Nat) : Int := if n ≤ y then 0 else ((x * 2 ^ y : Nat) : Int)
def fShr (n x y : Nat) : Int := if n ≤ y then 0 else ((x / 2 ^ y : Nat) : Int)
def fSar (n x y : Nat) : Int := sextN x n / 2 ^ (if n ≤ y then n - 1 else y)
def fRotl (n x y : Nat) : Int := let k := y % n; ((x * 2 ^ k + x / 2 ^ (n - k) : Nat) : Int)

/-- R103. -/
def fClz (n x : Nat) : Int := ((n - (if x = 0 then 0 else Nat.log2 x + 1) : Nat) : Int)
def fCtz (n x : Nat) : Int := ((ctzN n x : Nat) : Int)
def fPopc (n x : Nat) : Int := ((popN n x : Nat) : Int)
def fBrev (n x : Nat) : Int := ((revN n x : Nat) : Int)

/-- R105. -/
def fBfx (xs : Bool) (pos len : Nat) (_ x : Nat) : Int :=
  let f := x / 2 ^ pos % 2 ^ len
  if xs then sextN f len else f
def fBfi (pos len : Nat) (_ x y : Nat) : Int :=
  (((x - x / 2 ^ pos % 2 ^ len * 2 ^ pos) + y % 2 ^ len * 2 ^ pos : Nat) : Int)

/-- Table 3.4. -/
def cmpHolds (cc : CmpCc) (n x y : Nat) : Bool :=
  match cc with
  | .eq => x = y
  | .ne => x ≠ y
  | .lt => sextN x n < sextN y n
  | .ge => sextN x n ≥ sextN y n
  | .ltu => x < y
  | .geu => x ≥ y
  | .le => sextN x n ≤ sextN y n
  | .gt => sextN x n > sextN y n
  | .leu => x ≤ y
  | .gtu => x > y
  | .any => x &&& y ≠ 0
  | .none => x &&& y = 0

/-! ### Operations with a form of their own -/

/-- CMP (R106, R107). -/
def opCmp (lane : LCls → Bool) (d a b : Reg) (w : Width) (cc : CmpCc) : Op :=
  regOp fun e =>
    let l := lane e.st.latch.cls
    let n := w.bits l
    e.writeCond l d n fun j => cmpHolds cc n (e.st.pat n a j) (e.st.pat n b j)

def opCmpI (lane : LCls → Bool) (d a : Reg) (cc : CmpCc) (imm : BitVec 23) : Op :=
  regOp fun e =>
    let l := lane e.st.latch.cls
    let n := if l then 32 else 64
    e.writeCond l d n fun j => cmpHolds cc n (e.st.pat n a j) (wrapN imm.toInt n)

/-- SEL (R108). -/
def opSel (lane : LCls → Bool) (d a b c : Reg) (m : IntMod) : Op :=
  regOp fun e =>
    let l := lane e.st.latch.cls
    let n := m.w.bits l
    let sel := e.st.pred c
    e.writeInt l d n m.xs fun j => if laneEnabled sel (l && n = 64) j then e.st.pat n a j else e.st.pat n b j

/-- MOV form R (R109). -/
def opMov (d a : Reg) (w64 : Bool) : Op :=
  regOp fun e =>
    let t := e.st
    if movPred t.latch.cls d a then
      let x := match a with
        | .s n => t.readS n
        | _ => t.pred a
      t.putP d (blendBits e.lanes (t.priorP d) x.getLsbD)
    else if movW64 t.latch.cls d a then
      let n := if w64 then 64 else 32
      e.writeInt true d n false fun j => t.pat n a j
    else t.putS d (t.scalar a)

/-- MOV form I (R110). -/
def opMovI (lane : LCls → Bool) (d : Reg) (imm : BitVec 23) : Op :=
  regOp fun e =>
    let l := lane e.st.latch.cls
    e.writeInt l d (if l then 32 else 64) false fun _ => imm.toInt

/-- The old value of element `j` of a destination (R111). -/
def Strand.oldElem (t : Strand) (l : Bool) (d : Reg) (j : Nat) : Nat :=
  if l then (lane (t.priorV d) j).toNat else (t.priorS d).toNat

/-- MOVW (R111). -/
def opMovw (lane : LCls → Bool) (d : Reg) (hw : Nat) (chunk : Nat) : Op :=
  regOp fun e =>
    let l := lane e.st.latch.cls
    e.writeInt l d (if l then 32 else 64) false fun j =>
      let base := if hw = 0 then 0 else e.st.oldElem l d j
      ((base - base / 2 ^ (16 * hw) % 65536 * 2 ^ (16 * hw) + chunk * 2 ^ (16 * hw) : Nat) : Int)

/-- A pred1 operand (R96). -/
def Strand.pred1 (t : Strand) : Option Reg → Word
  | none => BitVec.allOnes 64
  | some r => t.pred r

/-- PLOG (R112). -/
def opPlog (d : Reg) (a b c : Option Reg) (tt : BitVec 8) : Op :=
  regOp fun e =>
    let t := e.st
    let x := t.pred1 a
    let y := t.pred1 b
    let z := t.pred1 c
    t.putP d (blendBits e.lanes (t.priorP d) fun i =>
      tt.getLsbD ((if x.getLsbD i then 4 else 0) + (if y.getLsbD i then 2 else 0) + if z.getLsbD i then 1 else 0))

/-- A 64-bit mask operand of PANY, PALL and PCOUNT (R113). -/
def Strand.mask (t : Strand) : Option Reg → Word
  | none => BitVec.allOnes 64
  | some r => t.scalar r

def opPany (d a : Reg) (b : Option Reg) : Op :=
  regOp fun e => e.st.putCond d (e.st.mask (some a) &&& e.st.mask b != 0)
def opPall (d a : Reg) (b : Option Reg) : Op :=
  regOp fun e => e.st.putCond d (e.st.mask (some a) &&& e.st.mask b == e.st.mask b)
def opPcount (d a : Reg) (b : Option Reg) : Op :=
  regOp fun e => e.st.putS d (BitVec.ofNat 64 (popN 64 (e.st.mask (some a) &&& e.st.mask b).toNat))

/-! ### Long-latency operations -/

def opDiv (lane : LCls → Bool) (d a b : Reg) (m : IntMod) : Op := intBin lane d a b m fDiv
def opDivu (lane : LCls → Bool) (d a b : Reg) (m : IntMod) : Op := intBin lane d a b m fDivu
def opRem (lane : LCls → Bool) (d a b : Reg) (m : IntMod) : Op := intBin lane d a b m fRem
def opRemu (lane : LCls → Bool) (d a b : Reg) (m : IntMod) : Op := intBin lane d a b m fRemu

/-! ### Meanings -/

/-- ADD, form R. -/
def execAddR (k : Ctl) (d a b : Reg) (m : IntMod) (s : State) : Host.Outcome State Fault Refusal :=
  runWord (.addR k d a b m) k (intBin (laneFor (.addR k d a b m)) d a b m fAdd) s

/-- SUB, form R. -/
def execSub (k : Ctl) (d a b : Reg) (m : IntMod) (s : State) : Host.Outcome State Fault Refusal :=
  runWord (.sub k d a b m) k (intBin (laneFor (.sub k d a b m)) d a b m fSub) s

/-- MUL, form R. -/
def execMulR (k : Ctl) (d a b : Reg) (m : IntMod) (s : State) : Host.Outcome State Fault Refusal :=
  runWord (.mulR k d a b m) k (intBin (laneFor (.mulR k d a b m)) d a b m fMul) s

/-- MULH, form R. -/
def execMulh (k : Ctl) (d a b : Reg) (m : IntMod) (s : State) : Host.Outcome State Fault Refusal :=
  runWord (.mulh k d a b m) k (intBin (laneFor (.mulh k d a b m)) d a b m fMulh) s

/-- MULHU, form R. -/
def execMulhu (k : Ctl) (d a b : Reg) (m : IntMod) (s : State) : Host.Outcome State Fault Refusal :=
  runWord (.mulhu k d a b m) k (intBin (laneFor (.mulhu k d a b m)) d a b m fMulhu) s

/-- AND, form R. -/
def execAndR (k : Ctl) (d a b : Reg) (m : IntMod) (s : State) : Host.Outcome State Fault Refusal :=
  runWord (.andR k d a b m) k (intBin (laneFor (.andR k d a b m)) d a b m fAnd) s

/-- OR, form R. -/
def execOrR (k : Ctl) (d a b : Reg) (m : IntMod) (s : State) : Host.Outcome State Fault Refusal :=
  runWord (.orR k d a b m) k (intBin (laneFor (.orR k d a b m)) d a b m fOr) s

/-- XOR, form R. -/
def execXorR (k : Ctl) (d a b : Reg) (m : IntMod) (s : State) : Host.Outcome State Fault Refusal :=
  runWord (.xorR k d a b m) k (intBin (laneFor (.xorR k d a b m)) d a b m fXor) s

/-- ANDN, form R. -/
def execAndn (k : Ctl) (d a b : Reg) (m : IntMod) (s : State) : Host.Outcome State Fault Refusal :=
  runWord (.andn k d a b m) k (intBin (laneFor (.andn k d a b m)) d a b m fAndn) s

/-- ORN, form R. -/
def execOrn (k : Ctl) (d a b : Reg) (m : IntMod) (s : State) : Host.Outcome State Fault Refusal :=
  runWord (.orn k d a b m) k (intBin (laneFor (.orn k d a b m)) d a b m fOrn) s

/-- XNOR, form R. -/
def execXnor (k : Ctl) (d a b : Reg) (m : IntMod) (s : State) : Host.Outcome State Fault Refusal :=
  runWord (.xnor k d a b m) k (intBin (laneFor (.xnor k d a b m)) d a b m fXnor) s

/-- SHL, form R. -/
def execShlR (k : Ctl) (d a b : Reg) (m : IntMod) (s : State) : Host.Outcome State Fault Refusal :=
  runWord (.shlR k d a b m) k (intBin (laneFor (.shlR k d a b m)) d a b m fShl) s

/-- SHR, form R. -/
def execShrR (k : Ctl) (d a b : Reg) (m : IntMod) (s : State) : Host.Outcome State Fault Refusal :=
  runWord (.shrR k d a b m) k (intBin (laneFor (.shrR k d a b m)) d a b m fShr) s

/-- SAR, form R. -/
def execSarR (k : Ctl) (d a b : Reg) (m : IntMod) (s : State) : Host.Outcome State Fault Refusal :=
  runWord (.sarR k d a b m) k (intBin (laneFor (.sarR k d a b m)) d a b m fSar) s

/-- ROTL, form R. -/
def execRotlR (k : Ctl) (d a b : Reg) (m : IntMod) (s : State) : Host.Outcome State Fault Refusal :=
  runWord (.rotlR k d a b m) k (intBin (laneFor (.rotlR k d a b m)) d a b m fRotl) s

/-- MIN, form R. -/
def execMinR (k : Ctl) (d a b : Reg) (m : IntMod) (s : State) : Host.Outcome State Fault Refusal :=
  runWord (.minR k d a b m) k (intBin (laneFor (.minR k d a b m)) d a b m fMin) s

/-- MAX, form R. -/
def execMaxR (k : Ctl) (d a b : Reg) (m : IntMod) (s : State) : Host.Outcome State Fault Refusal :=
  runWord (.maxR k d a b m) k (intBin (laneFor (.maxR k d a b m)) d a b m fMax) s

/-- MINU, form R. -/
def execMinuR (k : Ctl) (d a b : Reg) (m : IntMod) (s : State) : Host.Outcome State Fault Refusal :=
  runWord (.minuR k d a b m) k (intBin (laneFor (.minuR k d a b m)) d a b m fMinu) s

/-- MAXU, form R. -/
def execMaxuR (k : Ctl) (d a b : Reg) (m : IntMod) (s : State) : Host.Outcome State Fault Refusal :=
  runWord (.maxuR k d a b m) k (intBin (laneFor (.maxuR k d a b m)) d a b m fMaxu) s

/-- DIV (R99). -/
def execDiv (k : Ctl) (d a b : Reg) (m : IntMod) (s : State) : Host.Outcome State Fault Refusal :=
  runWord (.div k d a b m) k (opDiv (laneFor (.div k d a b m)) d a b m) s

/-- DIVU (R99). -/
def execDivu (k : Ctl) (d a b : Reg) (m : IntMod) (s : State) : Host.Outcome State Fault Refusal :=
  runWord (.divu k d a b m) k (opDivu (laneFor (.divu k d a b m)) d a b m) s

/-- REM (R99). -/
def execRem (k : Ctl) (d a b : Reg) (m : IntMod) (s : State) : Host.Outcome State Fault Refusal :=
  runWord (.rem k d a b m) k (opRem (laneFor (.rem k d a b m)) d a b m) s

/-- REMU (R99). -/
def execRemu (k : Ctl) (d a b : Reg) (m : IntMod) (s : State) : Host.Outcome State Fault Refusal :=
  runWord (.remu k d a b m) k (opRemu (laneFor (.remu k d a b m)) d a b m) s

/-- ADD, form I (R94). -/
def execAddI (k : Ctl) (d a : Reg) (imm : BitVec 23) (s : State) : Host.Outcome State Fault Refusal :=
  runWord (.addI k d a imm) k (intImm (laneFor (.addI k d a imm)) d a imm fAdd) s

/-- MUL, form I (R94). -/
def execMulI (k : Ctl) (d a : Reg) (imm : BitVec 23) (s : State) : Host.Outcome State Fault Refusal :=
  runWord (.mulI k d a imm) k (intImm (laneFor (.mulI k d a imm)) d a imm fMul) s

/-- AND, form I (R94). -/
def execAndI (k : Ctl) (d a : Reg) (imm : BitVec 23) (s : State) : Host.Outcome State Fault Refusal :=
  runWord (.andI k d a imm) k (intImm (laneFor (.andI k d a imm)) d a imm fAnd) s

/-- OR, form I (R94). -/
def execOrI (k : Ctl) (d a : Reg) (imm : BitVec 23) (s : State) : Host.Outcome State Fault Refusal :=
  runWord (.orI k d a imm) k (intImm (laneFor (.orI k d a imm)) d a imm fOr) s

/-- XOR, form I (R94). -/
def execXorI (k : Ctl) (d a : Reg) (imm : BitVec 23) (s : State) : Host.Outcome State Fault Refusal :=
  runWord (.xorI k d a imm) k (intImm (laneFor (.xorI k d a imm)) d a imm fXor) s

/-- SHL, form I (R94). -/
def execShlI (k : Ctl) (d a : Reg) (imm : BitVec 23) (s : State) : Host.Outcome State Fault Refusal :=
  runWord (.shlI k d a imm) k (intImm (laneFor (.shlI k d a imm)) d a imm fShl) s

/-- SHR, form I (R94). -/
def execShrI (k : Ctl) (d a : Reg) (imm : BitVec 23) (s : State) : Host.Outcome State Fault Refusal :=
  runWord (.shrI k d a imm) k (intImm (laneFor (.shrI k d a imm)) d a imm fShr) s

/-- SAR, form I (R94). -/
def execSarI (k : Ctl) (d a : Reg) (imm : BitVec 23) (s : State) : Host.Outcome State Fault Refusal :=
  runWord (.sarI k d a imm) k (intImm (laneFor (.sarI k d a imm)) d a imm fSar) s

/-- ROTL, form I (R94). -/
def execRotlI (k : Ctl) (d a : Reg) (imm : BitVec 23) (s : State) : Host.Outcome State Fault Refusal :=
  runWord (.rotlI k d a imm) k (intImm (laneFor (.rotlI k d a imm)) d a imm fRotl) s

/-- MIN, form I (R94). -/
def execMinI (k : Ctl) (d a : Reg) (imm : BitVec 23) (s : State) : Host.Outcome State Fault Refusal :=
  runWord (.minI k d a imm) k (intImm (laneFor (.minI k d a imm)) d a imm fMin) s

/-- MAX, form I (R94). -/
def execMaxI (k : Ctl) (d a : Reg) (imm : BitVec 23) (s : State) : Host.Outcome State Fault Refusal :=
  runWord (.maxI k d a imm) k (intImm (laneFor (.maxI k d a imm)) d a imm fMax) s

/-- MINU, form I (R94). -/
def execMinuI (k : Ctl) (d a : Reg) (imm : BitVec 23) (s : State) : Host.Outcome State Fault Refusal :=
  runWord (.minuI k d a imm) k (intImm (laneFor (.minuI k d a imm)) d a imm fMinu) s

/-- MAXU, form I (R94). -/
def execMaxuI (k : Ctl) (d a : Reg) (imm : BitVec 23) (s : State) : Host.Outcome State Fault Refusal :=
  runWord (.maxuI k d a imm) k (intImm (laneFor (.maxuI k d a imm)) d a imm fMaxu) s

/-- CLZ. -/
def execClz (k : Ctl) (d a : Reg) (m : IntMod) (s : State) : Host.Outcome State Fault Refusal :=
  runWord (.clz k d a m) k (intUn (laneFor (.clz k d a m)) d a m fClz) s

/-- CTZ. -/
def execCtz (k : Ctl) (d a : Reg) (m : IntMod) (s : State) : Host.Outcome State Fault Refusal :=
  runWord (.ctz k d a m) k (intUn (laneFor (.ctz k d a m)) d a m fCtz) s

/-- POPC. -/
def execPopc (k : Ctl) (d a : Reg) (m : IntMod) (s : State) : Host.Outcome State Fault Refusal :=
  runWord (.popc k d a m) k (intUn (laneFor (.popc k d a m)) d a m fPopc) s

/-- BREV. -/
def execBrev (k : Ctl) (d a : Reg) (m : IntMod) (s : State) : Host.Outcome State Fault Refusal :=
  runWord (.brev k d a m) k (intUn (laneFor (.brev k d a m)) d a m fBrev) s

/-- ABS. -/
def execAbs (k : Ctl) (d a : Reg) (m : IntMod) (s : State) : Host.Outcome State Fault Refusal :=
  runWord (.abs k d a m) k (intUn (laneFor (.abs k d a m)) d a m fAbs) s

/-- ADDSAT (R100). -/
def execAddsat (k : Ctl) (d a b : Reg) (m : IntMod) (u : Bool) (s : State) : Host.Outcome State Fault Refusal :=
  runWord (.addsat k d a b m u) k (intBin (laneFor (.addsat k d a b m u)) d a b m (fAddsat u)) s

/-- SUBSAT (R100). -/
def execSubsat (k : Ctl) (d a b : Reg) (m : IntMod) (u : Bool) (s : State) : Host.Outcome State Fault Refusal :=
  runWord (.subsat k d a b m u) k (intBin (laneFor (.subsat k d a b m u)) d a b m (fSubsat u)) s

/-- SEXT (R104). -/
def execSext (k : Ctl) (d a : Reg) (w : Width) (s : State) : Host.Outcome State Fault Refusal :=
  runWord (.sext k d a w) k (intUn (laneFor (.sext k d a w)) d a (IntMod.mk w true) fun _ x => x) s

/-- ZEXT (R104). -/
def execZext (k : Ctl) (d a : Reg) (w : Width) (s : State) : Host.Outcome State Fault Refusal :=
  runWord (.zext k d a w) k (intUn (laneFor (.zext k d a w)) d a (IntMod.mk w false) fun _ x => x) s

/-- BFX (R105). -/
def execBfx (k : Ctl) (d a : Reg) (m : IntMod) (pos lenm : Fin 64) (s : State) : Host.Outcome State Fault Refusal :=
  runWord (.bfx k d a m pos lenm) k (intUn (laneFor (.bfx k d a m pos lenm)) d a m (fBfx m.xs pos.val (lenm.val + 1))) s

/-- BFI (R105). -/
def execBfi (k : Ctl) (d a b : Reg) (m : IntMod) (pos lenm : Fin 64) (s : State) : Host.Outcome State Fault Refusal :=
  runWord (.bfi k d a b m pos lenm) k (intBin (laneFor (.bfi k d a b m pos lenm)) d a b m (fBfi pos.val (lenm.val + 1))) s

/-- MOV, form R (R109). -/
def execMovR (k : Ctl) (d a : Reg) (w64 : Bool) (s : State) : Host.Outcome State Fault Refusal :=
  runWord (.movR k d a w64) k (opMov d a w64) s

/-- MOV, form I (R110). -/
def execMovI (k : Ctl) (d : Reg) (imm : BitVec 23) (s : State) : Host.Outcome State Fault Refusal :=
  runWord (.movI k d imm) k (opMovI (laneFor (.movI k d imm)) d imm) s

/-- SEL (R108). -/
def execSel (k : Ctl) (d a b c : Reg) (m : IntMod) (s : State) : Host.Outcome State Fault Refusal :=
  runWord (.sel k d a b c m) k (opSel (laneFor (.sel k d a b c m)) d a b c m) s

/-- CMP, form R (R106, R107). -/
def execCmpR (k : Ctl) (d a b : Reg) (w : Width) (cc : CmpCc) (s : State) : Host.Outcome State Fault Refusal :=
  runWord (.cmpR k d a b w cc) k (opCmp (laneFor (.cmpR k d a b w cc)) d a b w cc) s

/-- CMP, form I. -/
def execCmpI (k : Ctl) (d a : Reg) (cc : CmpCc) (imm : BitVec 23) (s : State) : Host.Outcome State Fault Refusal :=
  runWord (.cmpI k d a cc imm) k (opCmpI (laneFor (.cmpI k d a cc imm)) d a cc imm) s

/-- SCADD (R98). -/
def execScadd (k : Ctl) (d a b : Reg) (m : IntMod) (sh : Fin 64) (s : State) : Host.Outcome State Fault Refusal :=
  runWord (.scadd k d a b m sh) k (intBin (laneFor (.scadd k d a b m sh)) d a b m (fScadd sh.val)) s

/-- MOVW (R111). -/
def execMovw (k : Ctl) (d : Reg) (hw : Fin 4) (chunk : BitVec 16) (s : State) : Host.Outcome State Fault Refusal :=
  runWord (.movw k d hw chunk) k (opMovw (laneFor (.movw k d hw chunk)) d hw.val chunk.toNat) s

/-- PLOG (R112). -/
def execPlog (k : Ctl) (d : Reg) (a b c : Option Reg) (tt : BitVec 8) (s : State) : Host.Outcome State Fault Refusal :=
  runWord (.plog k d a b c tt) k (opPlog d a b c tt) s

/-- PANY (R113). -/
def execPany (k : Ctl) (d a : Reg) (b : Option Reg) (s : State) : Host.Outcome State Fault Refusal :=
  runWord (.pany k d a b) k (opPany d a b) s

/-- PALL (R113). -/
def execPall (k : Ctl) (d a : Reg) (b : Option Reg) (s : State) : Host.Outcome State Fault Refusal :=
  runWord (.pall k d a b) k (opPall d a b) s

/-- PCOUNT (R113). -/
def execPcount (k : Ctl) (d a : Reg) (b : Option Reg) (s : State) : Host.Outcome State Fault Refusal :=
  runWord (.pcount k d a b) k (opPcount d a b) s

end Sys2Proof.Machine
end

