-- ==== Sys2Proof/Machine/Lane.lean ====
section
/-! DEFINITION. Sys2Proof/Machine/Lane.lean: the lane instructions (R235 to R242) and the block instructions of the core
(R244 to R246). -/

namespace Sys2Proof.Machine

/-- Number of elements (R235). -/
def elemCount (w64 : Bool) : Nat := if w64 then 32 else 64

/-- Element `j` of a list of elements. -/
def at0 (l : List Nat) (j : Nat) : Nat := (l[j]?).getD 0

/-- A vector result element by element, where enabled (R93). -/
def Env.writeLanes (e : Env) (d : Reg) (w64 : Bool) (f : Nat → Nat) : Strand :=
  e.st.putV d (blend e.lanes w64 (e.st.priorV d) f)

/-- VBCAST (R236). -/
def opVbcast (d a b : Reg) (w64 : Bool) : Op :=
  regOp fun e =>
    let x := at0 (elems (e.st.vector a) w64) ((e.st.scalar b).toNat % elemCount w64)
    e.writeLanes d w64 fun _ => x

/-- VSHUF (R236). -/
def opVshuf (d a : Reg) (sh : Shuf) (w64 : Bool) : Op :=
  regOp fun e =>
    let ne := elemCount w64
    let x := elems (e.st.vector a) w64
    let other := fun (b : Reg) => elems (e.st.vector b) w64
    e.writeLanes d w64 fun i =>
      match sh with
      | .xor k => at0 x (i ^^^ k.val)
      | .ziplo b => at0 (if i % 2 = 0 then x else other b) (i / 2)
      | .ziphi b => at0 (if i % 2 = 0 then x else other b) (ne / 2 + i / 2)
      | .unze b => if i < ne / 2 then at0 x (2 * i) else at0 (other b) (2 * i - ne)
      | .unzo b => if i < ne / 2 then at0 x (2 * i + 1) else at0 (other b) (2 * i + 1 - ne)

/-- VPERM (R236). -/
def opVperm (d a b c : Reg) (w64 : Bool) : Op :=
  regOp fun e =>
    let ne := elemCount w64
    let x := elems (e.st.vector a) w64
    let y := elems (e.st.vector b) w64
    let z := elems (e.st.vector c) w64
    e.writeLanes d w64 fun i =>
      let j := at0 z i % (2 * ne)
      if j < ne then at0 x j else at0 y (j - ne)

/-- VSLIDE (R236). -/
def opVslide (d a b c : Reg) (up w64 : Bool) : Op :=
  regOp fun e =>
    let ne := elemCount w64
    let x := elems (e.st.vector a) w64
    let y := elems (e.st.vector b) w64
    let k := min (e.st.scalar c).toNat ne
    e.writeLanes d w64 fun i =>
      if up then (if k ≤ i then at0 x (i - k) else at0 y (ne + i - k))
      else if i + k < ne then at0 x (i + k) else at0 y (i + k - ne)

/-- VEXTR (R237). -/
def opVextr (d a b : Reg) (xs w64 : Bool) : Op :=
  regOp fun e =>
    let x := at0 (elems (e.st.vector a) w64) ((e.st.scalar b).toNat % elemCount w64)
    e.st.putS d (BitVec.ofNat 64 (extendTo x (if w64 then 64 else 32) xs 64))

/-- VINS (R237). -/
def opVins (d a b : Reg) (w64 : Bool) : Op :=
  regOp fun e =>
    let j := (e.st.scalar b).toNat % elemCount w64
    let x := (e.st.scalar a).toNat
    let old := elems (e.st.priorV d) w64
    e.writeLanes d w64 fun i => if i = j then x % 2 ^ (if w64 then 64 else 32) else at0 old i

/-- VCOMPRESS (R238). -/
def opVcompress (d a : Reg) (w64 : Bool) : Op :=
  regOp fun e =>
    let x := elems (e.st.vector a) w64
    let kept := (upto (elemCount w64)).filter (laneEnabled e.lanes w64)
    let ys := kept.map (at0 x)
    e.st.putV d (ofElems (ys ++ List.replicate (elemCount w64 - ys.length) 0) w64)

/-- VIOTA (R239). -/
def opViota (d : Reg) (a : Option Reg) (w64 : Bool) : Op :=
  regOp fun e =>
    let m := e.st.pred1 a
    e.writeLanes d w64 fun i => ((upto i).filter (laneEnabled m w64)).length

/-! ### Reductions -/

/-- The format of a floating-point ROP (R240). -/
def ropFmt (w : Width) : FpFmt := if w = .b64 then .fp64 else .fp32

/-- The ROP is one of the floating-point operations. -/
def isFloatRop : Rop → Bool
  | .fadd | .fmin | .fmax => true
  | _ => false

/-- Combine (Table 8.9), for elements of `n` bits. FZ does not apply (R243). -/
def ropCombine (op : Rop) (n : Nat) (f : FpFmt) (md : RoundMode) (x y : Nat) : FpRes :=
  let r : Rnd := { md := md, fz := false }
  match op with
  | .add => ((x + y) % 2 ^ n, 0)
  | .and => (x &&& y, 0)
  | .or => (x ||| y, 0)
  | .xor => (x ^^^ y, 0)
  | .min => ((fMin n x y).toNat, 0)
  | .max => ((fMax n x y).toNat, 0)
  | .minu => (min x y, 0)
  | .maxu => (max x y, 0)
  | .fadd => gAdd f r (readFp f x) (readFp f y)
  | .fmin => minMaxFp f false (readFp f x) (readFp f y)
  | .fmax => minMaxFp f true (readFp f x) (readFp f y)

/-- Identity for VSCAN .ex (Table 8.9). -/
def ropIdentity (op : Rop) (n : Nat) (f : FpFmt) : Nat :=
  match op with
  | .add | .or | .xor | .maxu | .fadd => 0
  | .and | .minu => 2 ^ n - 1
  | .min => 2 ^ (n - 1) - 1
  | .max => 2 ^ (n - 1)
  | .fmin => infOf f false
  | .fmax => infOf f true

/-- One level of the tree of R241; the flags of its nodes are gathered. -/
def treeLevel (c : Nat → Nat → FpRes) : List (Option Nat) → List (Option Nat) × Flags
  | some x :: some y :: t =>
    let (l, fl) := treeLevel c t
    let r := c x y
    (some r.1 :: l, r.2 ||| fl)
  | x :: y :: t =>
    let (l, fl) := treeLevel c t
    ((if x.isNone then y else x) :: l, fl)
  | t => (t, 0)

/-- The tree of R241 through `k` levels. -/
def treeOf (c : Nat → Nat → FpRes) : Nat → List (Option Nat) → Option Nat × Flags
  | 0, l => (l.head?.getD none, 0)
  | k + 1, l =>
    let (l1, f1) := treeLevel c l
    let (r, f2) := treeOf c k l1
    (r, f1 ||| f2)

/-- A result of VRED or VSCAN: a NaN of a floating-point operation is canonical, that of a lone element too (R191). -/
def ropOut (op : Rop) (f : FpFmt) (x : Nat) : Nat := if isFloatRop op && (readFp f x).isNan then canonNan f else x

/-- A signalling NaN among the enabled elements of a floating-point operation raises NV, a lone one too (R200). -/
def ropFlags (op : Rop) (f : FpFmt) (xs : List Nat) : Flags :=
  if isFloatRop op && xs.any fun x => (readFp f x).isSig then flNV else 0

/-- VRED (R240, R241). -/
def opVred (d a : Reg) (op : Rop) (rnd : Option RoundMode) (m : IntMod) : Op :=
  regOp fun e =>
    let n := if isFloatRop op then fmtBits (ropFmt m.w) else m.w.bits true
    let w64 := n = 64
    let c := ropCombine op n (ropFmt m.w) (e.st.rnd rnd).md
    let leaves := (upto (elemCount w64)).map fun j => if laneEnabled e.lanes w64 j then some (e.st.pat n a j) else none
    let (r, fl) := treeOf c (if w64 then 5 else 6) leaves
    match r with
    | none => e.st.putS d (e.st.priorS d)
    | some y => (e.st.putS d (BitVec.ofNat 64 (extendTo (ropOut op (ropFmt m.w) y) n m.xs 64))).setFlags (fl ||| ropFlags op (ropFmt m.w) (leaves.filterMap id))

/-- The running combination of R242 over elements: pattern and whether it is enabled, with the value that each element
takes. -/
def scanFrom (c : Nat → Nat → FpRes) (ex : Bool) (ident : Nat) : List (Nat × Bool) → Option Nat → List (Option Nat) × Flags
  | [], _ => ([], 0)
  | (x, on) :: t, run =>
    if !on then
      let (l, fl) := scanFrom c ex ident t run
      (none :: l, fl)
    else
      let r := match run with
        | none => (x, (0 : Flags))
        | some y => c y x
      let (l, fl) := scanFrom c ex ident t (some r.1)
      (some (if ex then run.getD ident else r.1) :: l, r.2 ||| fl)

/-- VSCAN (R240, R242). -/
def opVscan (d a : Reg) (op : Rop) (rnd : Option RoundMode) (ex : Bool) (w : Width) : Op :=
  regOp fun e =>
    let n := if isFloatRop op then fmtBits (ropFmt w) else w.bits true
    let w64 := n = 64
    let c := ropCombine op n (ropFmt w) (e.st.rnd rnd).md
    let xs := (upto (elemCount w64)).map fun j => (e.st.pat n a j, laneEnabled e.lanes w64 j)
    let (ys, fl) := scanFrom c ex (ropIdentity op n (ropFmt w)) xs none
    (e.writeLanes d w64 fun i => ropOut op (ropFmt w) (((ys[i]?).getD none).getD 0)).setFlags
      (fl ||| ropFlags op (ropFmt w) ((xs.filter (·.2)).map (·.1)))

/-! ### Blocks on the core (R244 to R246) -/

/-- The format of a block's source or target. -/
def blockFmt (ft : Option FpFmt) : FpFmt := ft.getD .fp32

/-- BQUANT (R246): two blocks quantised and laid out as R245 gives. -/
def opBquant (d a : Reg) (ft : Option FpFmt) (wq : Fin 7) : Op :=
  regOp fun e =>
    let w := 8 - wq.val
    let f := blockFmt ft
    let xs := (elems (e.st.vector a) false).map fun x => readFp f (x % 2 ^ fmtBits f)
    let (b0, f0) := quantise w (xs.take 32)
    let (b1, f1) := quantise w (xs.drop 32)
    let img := b0.image w + b1.image w * 2 ^ (32 * w) + (b0.e + 256 * b1.e) * 2 ^ 512
    (e.st.putV d (BitVec.ofNat 2048 img)).setFlags (f0 ||| f1)

/-- BDEQ (R246). -/
def opBdeq (d a : Reg) (rnd : Option RoundMode) (ft : Option FpFmt) (wq : Fin 7) : Op :=
  regOp fun e =>
    let w := 8 - wq.val
    let f := blockFmt ft
    let img := (e.st.vector a).toNat
    let md := (e.st.rnd rnd).md
    let b := fun (i : Nat) => blockOf w (img / 2 ^ (512 + 8 * i) % 256) (img / 2 ^ (32 * w * i))
    let rs := (upto 32).map (dequant f md w (b 0)) ++ (upto 32).map (dequant f md w (b 1))
    (e.st.putV d (ofElems (rs.map (·.1)) false)).setFlags (flagsOf rs)

/-! ### Meanings -/

/-- VBCAST (R236). -/
def execVbcast (k : Ctl) (d a b : Reg) (w64 : Bool) (s : State) : Host.Outcome State Fault Refusal :=
  runWord (.vbcast k d a b w64) k (opVbcast d a b w64) s

/-- VSHUF (R236). -/
def execVshuf (k : Ctl) (d a : Reg) (sh : Shuf) (w64 : Bool) (s : State) : Host.Outcome State Fault Refusal :=
  runWord (.vshuf k d a sh w64) k (opVshuf d a sh w64) s

/-- VPERM (R236). -/
def execVperm (k : Ctl) (d a b c : Reg) (w64 : Bool) (s : State) : Host.Outcome State Fault Refusal :=
  runWord (.vperm k d a b c w64) k (opVperm d a b c w64) s

/-- VSLIDE (R236). -/
def execVslide (k : Ctl) (d a b c : Reg) (up w64 : Bool) (s : State) : Host.Outcome State Fault Refusal :=
  runWord (.vslide k d a b c up w64) k (opVslide d a b c up w64) s

/-- VEXTR (R237). -/
def execVextr (k : Ctl) (d a b : Reg) (xs w64 : Bool) (s : State) : Host.Outcome State Fault Refusal :=
  runWord (.vextr k d a b xs w64) k (opVextr d a b xs w64) s

/-- VINS (R237). -/
def execVins (k : Ctl) (d a b : Reg) (w64 : Bool) (s : State) : Host.Outcome State Fault Refusal :=
  runWord (.vins k d a b w64) k (opVins d a b w64) s

/-- VRED (R241). -/
def execVred (k : Ctl) (d a : Reg) (rop : Rop) (rnd : Option RoundMode) (m : IntMod) (s : State) :
    Host.Outcome State Fault Refusal :=
  runWord (.vred k d a rop rnd m) k (opVred d a rop rnd m) s

/-- VSCAN (R242). -/
def execVscan (k : Ctl) (d a : Reg) (rop : Rop) (rnd : Option RoundMode) (ex : Bool) (w : Width) (s : State) :
    Host.Outcome State Fault Refusal :=
  runWord (.vscan k d a rop rnd ex w) k (opVscan d a rop rnd ex w) s

/-- VCOMPRESS (R238). -/
def execVcompress (k : Ctl) (d a : Reg) (w64 : Bool) (s : State) : Host.Outcome State Fault Refusal :=
  runWord (.vcompress k d a w64) k (opVcompress d a w64) s

/-- VIOTA (R239). -/
def execViota (k : Ctl) (d : Reg) (a : Option Reg) (w64 : Bool) (s : State) : Host.Outcome State Fault Refusal :=
  runWord (.viota k d a w64) k (opViota d a w64) s

/-- BQUANT (R246). -/
def execBquant (k : Ctl) (d a : Reg) (ft : Option FpFmt) (wq : Fin 7) (s : State) : Host.Outcome State Fault Refusal :=
  runWord (.bquant k d a ft wq) k (opBquant d a ft wq) s

/-- BDEQ (R246). -/
def execBdeq (k : Ctl) (d a : Reg) (rnd : Option RoundMode) (ft : Option FpFmt) (wq : Fin 7) (s : State) :
    Host.Outcome State Fault Refusal :=
  runWord (.bdeq k d a rnd ft wq) k (opBdeq d a rnd ft wq) s

end Sys2Proof.Machine
end

