-- ==== Sys2Proof/Machine/Groups.lean ====
section
/-! DEFINITION. Sys2Proof/Machine/Groups.lean: named synchronisation groups (chapter 16): phases and membership on an entry,
the group unit, then one meaning for each group instruction, and the departure of strands that end. -/

namespace Sys2Proof.Machine

/-! ### Phases of an entry (R409 to R414) -/

/-- What an arrival contributes (Table 16.7). -/
inductive Contrib where
  | plain
  | vote (v : Bool)
  | reduce (rop : Nat) (v : Word)
  deriving DecidableEq, Repr

/-- The next phase number (R409). -/
def nextPhase (n : BitVec 32) : BitVec 32 := if n = BitVec.allOnes 32 then 1 else n + 1

/-- The members that have opened in the current phase: JOINP counts them, and they stand last. -/
def Group.started (g : Group) : List Member := g.members.take (g.members.length - g.joinp)
def Group.joined (g : Group) : List Member := g.members.drop (g.members.length - g.joinp)

/-- The member's first phase has not started: it opened in the current one. -/
def Group.unstarted (g : Group) (m : Member) : Bool := g.joined.any fun x => x.addr = m.addr

/-- Target phase of a member (R409). -/
def Group.target (g : Group) (m : Member) : BitVec 32 := if g.unstarted m then m.first else g.phase

/-- The operation of a ROP code of GRED (Table 16.8). -/
def ropOfCode : Nat → Rop
  | 0 => .add | 1 => .and | 2 => .or | 3 => .xor | 4 => .min | 5 => .max | 6 => .minu | 7 => .maxu | _ => .fadd

/-- Combine of GRED: n = 64, RNE, no flag (R421). -/
def gredCombine (rop : Nat) (x y : Word) : Word :=
  BitVec.ofNat 64 (ropCombine (ropOfCode rop) 64 .fp64 .rne x.toNat y.toNat).1

/-- The first value of a reduction: a NaN of .fadd is canonical (Table 16.8). -/
def gredFirst (rop : Nat) (x : Word) : Word := BitVec.ofNat 64 (ropOut (ropOfCode rop) .fp64 x.toNat)

/-- An arrival counted (R410, R421, R422). -/
def Group.count (g : Group) (home : Nat) (c : Contrib) : Group :=
  let g1 := { g with arr := g.arr + 1, homes := g.homes ++ [home] }
  match c with
  | .plain => g1
  | .vote v => if v then { g1 with vtrue := g.vtrue + 1 } else { g1 with vfalse := g.vfalse + 1 }
  | .reduce r v => if g.rset then { g1 with acc := gredCombine g.rop g.acc v } else { g1 with rset := true, rop := r, acc := gredFirst r v }

/-- The contribution that a record holds. -/
def Member.contrib (m : Member) : Contrib :=
  match m.kind with
  | 1 => .vote m.vote
  | 2 => .reduce m.rop m.hval
  | _ => .plain

/-- A record with a held contribution. -/
def Member.hold (m : Member) (c : Contrib) : Member :=
  match c with
  | .plain => { m with held := true, kind := 0 }
  | .vote v => { m with held := true, kind := 1, vote := v }
  | .reduce r v => { m with held := true, kind := 2, rop := r, hval := v }

/-- A record changed; its place in the arena tells it from another of the same strand (R418). -/
def Group.setMember (g : Group) (m : Member) : Group :=
  { g with members := g.members.map fun x => if x.addr = m.addr then m else x }

/-- An arrival of a member (R410); none when it has arrived for its target phase. -/
def Group.arrive (g : Group) (m : Member) (home : Nat) (c : Contrib) : Option Group :=
  let t := g.target m
  if m.arrp = t then none
  else
    let m1 := { m with arrp := t, home := home }
    if g.unstarted m then some (g.setMember (m1.hold c)) else some ((g.setMember m1).count home c)

/-- A member leaves at the end of its target phase (R411, R413); when it has not arrived, it is excused. -/
def Group.depart (g : Group) (m : Member) : Group :=
  let arrived := m.arrp = g.target m
  if g.unstarted m then g.setMember { m with leave := true, excl := !arrived }
  else
    let g1 := g.setMember { m with leave := true }
    { g1 with leavep := g.leavep + 1, exc := if arrived then g.exc else g.exc + 1 }

/-- Scope codes (Table 4.6). -/
def scopeNum : Scope → Nat
  | .strand => 0 | .tile => 1 | .field => 2 | .sector => 3 | .module => 4 | .system => 5
def scopeOfNum : Nat → Scope
  | 1 => .tile | 2 => .field | 3 => .sector | 4 => .module | 5 => .system | _ => .strand

/-- The narrowest scope that holds the homes of all counted arrivals (R412). -/
def lscOf : List Nat → Nat
  | [] => 1
  | h :: t => t.foldl (fun a x => max a (scopeNum (scopeOfTiles h x))) 1

/-- The phase completes (R412). -/
def Group.ready (g : Group) : Bool :=
  g.valid && g.arr + g.exc == g.memb && (g.phase != 0 || max g.quorum 1 ≤ g.joinp)

/-- Members of the new phase brought in, in the order of their opens. -/
def Group.startMembers (g : Group) : List Member → Group
  | [] => g
  | m :: t =>
    let g1 := { g with exc := if m.excl then g.exc + 1 else g.exc, leavep := if m.leave then g.leavep + 1 else g.leavep }
    (if m.held then (g1.setMember { m with held := false }).count m.home m.contrib else g1).startMembers t

/-- The completion of a phase (R412): the entry after it, and the records that are freed. -/
def Group.complete (g : Group) : Group × List Member :=
  let g1 : Group :=
    { g with
      lsc := lscOf g.homes, last := g.acc, ltrue := g.vtrue, lfalse := g.vfalse, lastf := g.faulted, faulted := false
      memb := g.memb - g.leavep + g.joinp, joinp := 0, arr := 0, exc := 0, leavep := 0, acc := 0, vtrue := 0, vfalse := 0
      rset := false, phase := nextPhase g.phase, homes := [], members := (g.started.filter fun m => !m.leave) ++ g.joined }
  let g2 := g1.startMembers g.joined
  (if g2.memb = 0 && g2.joinp = 0 then { valid := false, gen := g.gen + 1 } else g2, g.started.filter (·.leave))

/-! ### The group unit -/

/-- The dwords of an entry (Table 16.2). -/
def Group.image (g : Group) : List Word :=
  if g.valid then
    [g.name,
     BitVec.ofNat 64 (g.ctx * 2 ^ 40 + g.gen.toNat * 2 ^ 24 + g.quorum * 2 ^ 8 + g.lsc * 16 + (if g.lastf then 8 else 0) +
       (if g.faulted then 4 else 0) + (if g.cosched then 2 else 0) + 1),
     BitVec.ofNat 64 (g.joinp * 2 ^ 48 + g.memb * 2 ^ 32 + g.phase.toNat),
     BitVec.ofNat 64 ((if g.rset then 2 ^ 52 else 0) + g.rop * 2 ^ 48 + g.leavep * 2 ^ 32 + g.exc * 2 ^ 16 + g.arr),
     g.acc, BitVec.ofNat 64 (g.vfalse * 2 ^ 32 + g.vtrue), g.last, BitVec.ofNat 64 (g.lfalse * 2 ^ 32 + g.ltrue)]
  else [0, BitVec.ofNat 64 (g.gen.toNat * 2 ^ 24), 0, 0, 0, 0, 0, 0]

/-- The dwords of a member record (Table 16.3). -/
def Member.image (m : Member) : List Word :=
  [m.taskid, BitVec.ofNat 64 (m.arrp.toNat * 2 ^ 32 + m.first.toNat), m.hval,
   BitVec.ofNat 64 ((if m.excl then 512 else 0) + (if m.leave then 256 else 0) + m.rop * 16 + (if m.vote then 8 else 0) +
     m.kind * 2 + (if m.held then 1 else 0))]

/-- Entries of a group table (R405), bytes of a member record (R407). -/
def groupEntries : Nat := 4096
def memberBytes : Nat := 32

/-- Address of an entry (R405). -/
def groupAddr (p : Partition) (f i : Nat) : Word := p.gtab f + BitVec.ofNat 64 (64 * i)

/-- An entry changed: it is written through to memory with its records (R405). -/
def State.putGroup (s : State) (p : Partition) (f i : Nat) (g : Group) : State :=
  let s1 := (s.modField f fun x => { x with groups := tput x.groups i g }).putPins p (groupAddr p f i) g.image
  g.members.foldl (fun x m => x.putPins p m.addr m.image) s1

/-- Strands that wait on phase `t` of an entry (R423). -/
def State.groupWaiters (s : State) (part : Nat) (addr : Word) (t : BitVec 32) : List Nat :=
  (s.strands.filter fun (_, x) => x.part = part && x.waitK = .group && x.waita = addr && x.waitv = t.setWidth 64).map (·.1)

/-- A started member that has not arrived for the current phase. -/
def Group.owes (g : Group) (m : Member) : Bool := !g.unstarted m && m.arrp != g.phase

/-- The members of a phase that wait for others raise members that were pre-empted (R427). -/
def State.raiseTurns (s : State) (g : Group) : State :=
  s.postAll ((g.members.filter fun m =>
    match tget s.strands m.uid with
    | some t => t.waitK = .preempted && g.owes m
    | none => false).map fun m => .groupPrioRaise m.uid)

/-- The entry put back, with every phase that it now completes (R412). `n` bounds the phases: a group whose members have
all arrived ahead completes at most three in one act. Members that had arrived ahead and wait may raise others (R427). -/
def State.settleGroup (s : State) (part : Nat) (p : Partition) (f i : Nat) : Nat → Group → State
  | 0, g => s.putGroup p f i g
  | n + 1, g =>
    if g.ready then
      let (g1, gone) := g.complete
      let s1 := gone.foldl (fun x m => x.freeArena part m.addr memberBytes) s
      let s2 := (s1.groupWaiters part (groupAddr p f i) g.phase).foldl State.makeReady s1
      (s2.settleGroup part p f i n g1).raiseTurns g1
    else s.putGroup p f i g

/-- Entry of a field's group table. -/
def State.group (s : State) (f i : Nat) : Group := tgetD (s.field f).groups i {}

/-! ### Handles (R44, R408) -/

def handleField (h : BitVec 32) : Nat := h.toNat / 2 ^ 25 % 64
def handleIndex (h : BitVec 32) : Nat := h.toNat / 2 ^ 13 % 4096

/-- The entry and the record that a handle names, by the checks of R408: physical field, index, entry, record. -/
def State.findMember (s : State) (p : Partition) (ctx : Nat) (tid : Word) (h : BitVec 32) : Option (Nat × Nat × Group × Member) :=
  if !h.getLsbD 31 then none
  else
    match p.phys (handleField h) with
    | none => none
    | some f =>
      let g := s.group f (handleIndex h)
      if g.valid && g.gen.toNat % 8192 == h.toNat % 8192 && g.ctx == ctx then
        (g.members.find? fun m => m.taskid = tid && !m.leave).map fun m => (f, handleIndex h, g, m)
      else none

def Env.tid (e : Env) : Word := taskIdOf e.ta e.st.index

/-- Value of a handle operand. -/
def Strand.handle (t : Strand) : Reg → BitVec 32
  | .h n => t.readH n
  | _ => 0

/-- The checked handle of a group instruction (R408). -/
def Env.member (e : Env) (s : State) (h : BitVec 32) : Res (Nat × Nat × Group × Member) :=
  match s.findMember e.p e.ctx e.tid h with
  | some x => .ok x
  | none => failWith .handle (h.setWidth 64)

/-! ### Operations -/

/-- The release side of an arrival (R415). -/
def Env.arriveRelease (e : Env) (s : State) : State := s.release e.k .tile

/-- GCREATE and GOPEN (R417, R418). -/
def opOpen (create : Bool) (d a b : Reg) : Op := fun e s =>
  let ctl := e.st.scalar b
  let name := e.st.scalar a
  let fld := if bit ctl 6 then some e.fld else e.p.phys (bits ctl 5 0)
  match (if bits ctl 63 24 != 0 then none else fld) with
  | none => failWith .badaddr ctl
  | some f =>
    let fin := fun (s : State) (t : Strand) (w : Nat) => (.ok (e.put s (t.putS d (BitVec.ofNat 64 w))) : Res State)
    match (upto 8).find? fun i => !(e.st.h[Fin.ofNat 8 i]).getLsbD 31 with
    | none => fin s e.st 1
    | some k =>
      let gs := (s.field f).groups
      let found := if name = 0 then none else tfind gs fun _ g => g.valid && g.name == name && g.ctx == e.ctx
      match (match found with
        | some (i, g) => some (i, g, true)
        | none =>
          if create then
            ((upto groupEntries).find? fun i => !(s.group f i).valid).map fun i =>
              (i, ({ valid := true, gen := (s.group f i).gen, name := name, ctx := e.ctx, quorum := bits ctl 23 8, cosched := bit ctl 7 } : Group), false)
          else none) with
      | none => fin s e.st (1 + (if create then 1 else 2) * 256)
      | some (i, g, existed) =>
        let handle : BitVec 32 :=
          BitVec.ofNat 32 (2 ^ 31 + (e.p.logical f).getD 0 * 2 ^ 25 + i * 2 ^ 13 + g.gen.toNat % 8192)
        let ok := fun (member : Bool) => k * 256 + (if existed then 2048 else 0) + (if member then 4096 else 0)
        let t1 := e.st.writeH (Fin.ofNat 8 k) handle
        if g.members.any fun m => m.taskid = e.tid && !m.leave then fin s t1 (ok true)
        else
          match (if g.memb + g.joinp = 65535 then none else s.allocArena e.pn memberBytes memberBytes false) with
          | none =>
            fin (if existed then s else s.putGroup e.p f i { valid := false, gen := g.gen + 1 }) e.st (1 + 256)
          | some (s1, addr) =>
            let m : Member := { taskid := e.tid, uid := e.u, addr := addr, home := e.tile, first := nextPhase g.phase }
            let g1 := { g with joinp := g.joinp + 1, members := g.members ++ [m] }
            fin (s1.settleGroup e.pn e.p f i 4 g1) t1 (ok false)

/-- GLEAVE (R413, R419). -/
def opGleave (d : Reg) : Op := fun e s => do
  let (f, i, g, m) ← e.member s (e.st.handle d)
  return e.put (s.settleGroup e.pn e.p f i 4 (g.depart m)) (e.st.putH d 0)

/-- A member's record as the entry holds it now. -/
def Group.record (g : Group) (m : Member) : Member := (g.members.find? fun x => x.addr = m.addr).getD m

/-- GDROP (R413, R415, R419). -/
def opGdrop (d : Reg) : Op := fun e s => do
  let h := e.st.handle d
  let (f, i, g, m) ← e.member s h
  match g.arrive m e.st.home .plain with
  | none => failWith .overarrive (h.setWidth 64)
  | some g1 =>
    return e.put ((e.arriveRelease s).settleGroup e.pn e.p f i 4 (g1.depart (g1.record m))) (e.st.putH d 0)

/-- Status of GBAR (Table 16.6). -/
def Group.barStatus (g : Group) : Word := BitVec.ofNat 64 ((if g.lastf then 256 else 0) + g.lsc * 4096)

/-- Status of GVOTE (Table 16.6). -/
def Group.voteStatus (g : Group) : Word :=
  g.barStatus + BitVec.ofNat 64 ((if g.ltrue = 0 then 0 else 512) + (if g.lfalse = 0 then 1024 else 0) + g.ltrue * 2 ^ 32)

/-- The wait for phase `t` (R420, R423). -/
def Env.groupWait (e : Env) (s : State) (f i : Nat) (t : BitVec 32) : State :=
  ((e.put s { e.st with ap := true }).suspend e.k .group (groupAddr e.p f i) (t.setWidth 64)).raiseTurns (s.group f i)

/-- The end of an arrival instruction: AP, the value of Table 16.7, the acquire of R415. -/
def Env.groupDone (e : Env) (s : State) (f i : Nat) (d : Reg) (v : Group → Word) : State :=
  let g := s.group f i
  (e.put s { (e.st.putS d (v g)) with ap := false }).acquire e.k (scopeOfNum g.lsc)

/-- GBAR, GVOTE and GRED (R420). `c` is none for GBAR.wait. -/
def opArriveWait (d a : Reg) (c : Env → Option Contrib) (v : Group → Word) : Op := fun e s => do
  let h := e.st.handle a
  let (f, i, g, m) ← e.member s h
  if e.st.ap then return e.groupDone s f i d v
  else
    match c e with
    | none =>
      if m.arrp = 0 || m.arrp != g.phase then return e.groupDone s f i d v
      else .error (.become (e.groupWait s f i m.arrp))
    | some x =>
      match g.arrive m e.st.home x with
      | none => failWith .overarrive (h.setWidth 64)
      | some g1 =>
        let s1 := (e.arriveRelease s).settleGroup e.pn e.p f i 4 g1
        let t := g.target m
        if (s1.group f i).phase = t || (s1.group f i).phase = g.phase then .error (.become (e.groupWait s1 f i t))
        else return e.groupDone s1 f i d v

/-- GARRIVE (R420). -/
def opGarrive (a : Reg) : Op := fun e s => do
  let h := e.st.handle a
  let (f, i, g, m) ← e.member s h
  match g.arrive m e.st.home .plain with
  | none => failWith .overarrive (h.setWidth 64)
  | some g1 => return (e.arriveRelease s).settleGroup e.pn e.p f i 4 g1

/-- GINFO (R424, Table 16.9). -/
def opGinfo (d a : Reg) (item : Fin 7) : Op := fun e s => do
  let (_, _, g, m) ← e.member s (e.st.handle a)
  let v : Word := match item.val with
    | 0 => g.phase.setWidth 64
    | 1 => BitVec.ofNat 64 g.memb
    | 2 => BitVec.ofNat 64 (g.arr + g.exc)
    | 3 => BitVec.ofNat 64 g.joinp
    | 4 => g.barStatus
    | 5 => g.name
    | _ => BitVec.ofNat 64 ((if m.arrp = g.target m then 2 ^ 32 else 0) + (g.target m).toNat)
  return e.put s (e.st.putS d v)

/-! ### Departure of strands that end (R425, R426) -/

/-- The handles of a strand that is not on a slot stand in its save frame (R426). -/
def State.handlesOf (s : State) (t : Strand) : List (BitVec 32) :=
  match t.place with
  | .slot _ => t.h.toList
  | _ =>
    if t.save = 0 then t.h.toList
    else
      match s.arenaPa t.part t.save with
      | some pa => (upto 8).map fun i => BitVec.ofNat 32 (s.valAt (pa + 0x78 + 4 * i) 4)
      | none => t.h.toList

/-- One membership given up: as GDROP, except that a member that has arrived does not arrive again. -/
def State.dropHandle (s : State) (part : Nat) (p : Partition) (ctx : Nat) (tid : Word) (home : Nat) (faulted : Bool)
    (h : BitVec 32) : State :=
  match s.findMember p ctx tid h with
  | none => s
  | some (f, i, g, m) =>
    let g0 := if faulted then { g with faulted := true } else g
    let g1 := (g0.arrive m home .plain).getD g0
    s.settleGroup part p f i 4 (g1.depart (g1.record m))

/-- The group memberships of a strand dropped, lowest handle first (R425, R426). -/
def State.dropGroups (s : State) (u : Nat) (faulted : Bool) : State :=
  match tget s.strands u with
  | none => s
  | some t =>
    match tget s.tasks t.task, tget s.parts t.part with
    | some ta, some p =>
      (s.handlesOf t).foldl (fun x h => x.dropHandle t.part p ta.ctx (taskIdOf ta t.index) t.home faulted h) s
    | _, _ => s

/-! ### Meanings -/

/-- GCREATE (R418). -/
def execGcreate (k : Ctl) (d a b : Reg) (s : State) : Host.Outcome State Fault Refusal :=
  runWord (.gcreate k d a b) k (opOpen true d a b) s

/-- GOPEN (R418). -/
def execGopen (k : Ctl) (d a b : Reg) (s : State) : Host.Outcome State Fault Refusal :=
  runWord (.gopen k d a b) k (opOpen false d a b) s

/-- GLEAVE (R419). -/
def execGleave (k : Ctl) (d : Reg) (s : State) : Host.Outcome State Fault Refusal :=
  runWord (.gleave k d) k (opGleave d) s

/-- GBAR (R420). -/
def execGbar (k : Ctl) (d a : Reg) (wait : Bool) (s : State) : Host.Outcome State Fault Refusal :=
  runWord (.gbar k d a wait) k (opArriveWait d a (fun _ => if wait then none else some .plain) Group.barStatus) s

/-- GARRIVE (R420). -/
def execGarrive (k : Ctl) (a : Reg) (s : State) : Host.Outcome State Fault Refusal :=
  runWord (.garrive k a) k (opGarrive a) s

/-- GDROP (R419). -/
def execGdrop (k : Ctl) (d : Reg) (s : State) : Host.Outcome State Fault Refusal :=
  runWord (.gdrop k d) k (opGdrop d) s

/-- GVOTE (R420, R422). -/
def execGvote (k : Ctl) (d a b : Reg) (s : State) : Host.Outcome State Fault Refusal :=
  runWord (.gvote k d a b) k (opArriveWait d a (fun e => some (.vote ((e.st.pred b).getLsbD 0))) Group.voteStatus) s

/-- GRED (R420, R421). -/
def execGred (k : Ctl) (d a b : Reg) (rop : Fin 9) (s : State) : Host.Outcome State Fault Refusal :=
  runWord (.gred k d a b rop) k (opArriveWait d a (fun e => some (.reduce rop.val (e.st.scalar b))) Group.last) s

/-- GINFO (R424). -/
def execGinfo (k : Ctl) (d a : Reg) (item : Fin 7) (s : State) : Host.Outcome State Fault Refusal :=
  runWord (.ginfo k d a item) k (opGinfo d a item) s

/-- The strand's effective PRIO raised to `n` (R269, R427, R497): a queued record moves to the tail of its new queue. -/
def State.raisePrio (s : State) (u : Nat) (n : Nat) : State :=
  match tget s.strands u with
  | none => s
  | some t =>
    if n ≤ t.prio then s
    else
      let t1 := { t with prio := n, base := some (t.base.getD t.prio) }
      match t.place with
      | .ready tile =>
        let s1 := (((s.offReady u tile).setStrand u t1).reprio u t.prio).modTile tile fun x =>
          { x with ready := modQueue x.ready n fun l => l ++ [u] }
        s1.relink (((s1.tile tile).ready[n]?).getD [])
      | .waiting => (s.setStrand u t1).reprio u t.prio
      | _ => s.setStrand u t1

/-- GROUP_PRIO_RAISE (R427): a member that has not arrived, pre-empted off its slot, takes the highest PRIO of the waiters of
its phase. -/
def execGroupPrioRaise (uid : Nat) (s : State) : Host.Outcome State Fault Refusal :=
  match tget s.strands uid with
  | none => .next s
  | some t =>
    match tget s.tasks t.task, tget s.parts t.part with
    | some ta, some p =>
      if t.waitK != .preempted then .next s
      else
        let prios := (s.handlesOf t).flatMap fun h =>
          match s.findMember p ta.ctx (taskIdOf ta t.index) h with
          | none => []
          | some (f, i, g, m) =>
            if !g.owes m then []
            else (s.groupWaiters t.part (groupAddr p f i) g.phase).filterMap fun w => (tget s.strands w).map (·.prio)
        let n := prios.foldl max 0
        .next (if n ≤ t.prio then s else (s.raisePrio uid n).modStrand uid fun x => { x with lift := n })
    | _, _ => .next s

end Sys2Proof.Machine
end

