-- ==== Sys2Proof/Machine/Mandrel.lean ====
section
/-! DEFINITION. Sys2Proof/Machine/Mandrel.lean: SPLIT, JOIN, SPAWN, SEND, YIELD and END (R283 to R291). -/

namespace Sys2Proof.Machine

/-! ### SPLIT and JOIN -/

/-- SPLIT (R284). -/
def opSplit : Op := fun e s =>
  if e.st.fmode = .attached then .ok (s.detach e.k e.u e.st.hdr e.st.header) else .ok s

/-- The slot on which a strand stands. -/
def State.slotOf (s : State) (u : Nat) : Option Nat :=
  match tget s.strands u with
  | some t =>
    match t.place with
    | .slot k => some k
    | _ => none
  | none => none

/-- A strand waits at the JOIN of header `b` (R282). One that is being pre-empted is put down before its JOIN completes (R285). -/
def State.waitsAt (s : State) (u : Nat) (b : Word) : Bool :=
  match s.slotOf u with
  | some k =>
    match tget s.slots k with
    | some sl => sl.joinWait = some b && sl.hold.isNone && !sl.preempt
    | none => false
  | none => false

/-- No entry of a stream's detached set names `b` (R281). -/
def Stream.joinMet (x : Stream) (b : Word) : Bool := x.detached.all fun e => e.2 != b

/-- Strands of a tile that wait at the JOIN of `b` unbound, of one task, by slot (Table 10.3). Where two streams of the task wait at
that JOIN, such a strand joins the one whose JOIN completes first: DESIGN CHOICE, the spec does not say which (log 42). -/
def State.unboundAt (s : State) (tile task : Nat) (b : Word) : List Nat :=
  (s.slots.filter fun (k, sl) =>
    tileOfSlot k = tile && sl.joinWait = some b && sl.hold.isNone && !sl.preempt &&
    match tget s.strands sl.uid with
    | some t => t.fmode = .unbound && t.task = task
    | none => false).map fun e => e.2.uid

/-- A strand that waits at the stream's JOIN is attached at the frontier, when there is room for it, and its entry goes (R282).
Its JOIN then completes as a path word. Without room its entry goes all the same: its JOIN runs again and a detached strand
receives MISSED. An unbound strand that finds no room as the wait ends has its JOIN run again too: DESIGN CHOICE, Table 10.3
states no case for it (log 41). -/
def State.attachAt (s : State) (tile i u : Nat) : State :=
  match s.slotOf u, (s.tile tile).streams[i]? with
  | some k, some x =>
    let y := { x with detached := x.detached.filter fun e => e.1 != u }
    let room := x.members.length < streamSize && !x.onCore (coreOfSlot k)
    let s1 := (s.modTile tile fun t => t.setStream i (if room then { y with members := y.members ++ [k] } else y)).modSlot k fun sl =>
      { sl with joinWait := none }
    if room then
      (s1.modStrand u fun z => { z with fmode := .attached, stream := i }).modSlot k fun sl => { sl with pos := x.frontier }
    else s1
  | _, _ => s

/-- The detached strands that wait at the JOIN at `b` as the lead stands there: each attaches or goes on (R282). They are taken
in the order in which they detached: DESIGN CHOICE, the spec gives none (log 42). -/
def State.resolveWaiters (s : State) (tile i : Nat) (x : Stream) (b : Word) : State :=
  (x.detached.filter fun e => e.2 = b && s.waitsAt e.1 b).foldl (fun y e => y.attachAt tile i e.1) s

/-- The lead completes the stream's JOIN at `b` (R281): every entry goes, and the unbound strands that wait there attach, by
slot: DESIGN CHOICE, the spec gives them no order (log 42). -/
def State.completeJoin (s : State) (tile i task : Nat) (b : Word) : State :=
  let s1 := s.modTile tile fun t =>
    match t.streams[i]? with
    | some x => t.setStream i { x with detached := [], joining := none }
    | none => t
  (s.unboundAt tile task b).foldl (fun y u => y.attachAt tile i u) s1

/-- The lead at the frontier stands at the JOIN at `b` (R281, R282): who waits there is resolved; then the wait ends, or the
stream waits. -/
def Env.leadJoin (e : Env) (s : State) (i : Nat) (x : Stream) (b : Word) : State × Bool :=
  let s1 := s.resolveWaiters e.tile i x b
  match (s1.tile e.tile).streams[i]? with
  | none => (s1, true)
  | some y =>
    if y.joinMet b then (s1.completeJoin e.tile i e.st.task b, true)
    else (s1.modTile e.tile fun t => t.setStream i { y with joining := some b }, false)

/-- Status words of JOIN (Table 6.5). -/
def joinOk : Word := 0
def joinMissed : Word := 4

/-- The JOIN completes with a status. -/
def Env.joinDone (e : Env) (s : State) (d : Reg) (w : Word) : Res State :=
  .ok ((e.put s ((tgetD s.strands e.u e.st).putS d w)).modSlot e.k fun sl => { sl with joinWait := none })

/-- The strand waits at its JOIN. -/
def Env.joinWait (e : Env) (s : State) : Res State :=
  if e.sl.joinWait = some e.st.hdr then .error .wait
  else .error (.become (s.modSlot e.k fun sl => { sl with joinWait := some e.st.hdr }))

/-- JOIN (R285, Table 10.3). -/
def opJoin (d : Reg) : Op := fun e s =>
  let t := s.tile e.tile
  let b := e.st.hdr
  match e.st.fmode with
  | .attached =>
    match t.streamOf e.k with
    | none => e.joinDone s d joinOk
    | some i =>
      match t.streams[i]? with
      | none => e.joinDone s d joinOk
      | some x =>
        if e.sl.pos < x.frontier then e.joinDone s d joinOk
        else
          match e.leadJoin s i x b with
          | (s1, true) => e.joinDone s1 d joinOk
          | (s1, false) => .error (.become s1)
  | .detached =>
    if t.streams.any fun x => x.detached.contains (e.u, b) then e.joinWait s else e.joinDone s d joinMissed
  | .unbound =>
    -- a gateway block has no stream to open (R527)
    if isGateway e.tile then e.joinDone s d joinMissed
    else if t.streams.any fun x => x.joining = some b && s.streamTask x = some e.st.task && !x.onCore e.core then e.joinWait s
    else
      match t.streams.findIdx? fun x => x.members.isEmpty with
      | some i =>
        let s1 := (s.setTile e.tile (t.setStream i { members := [e.k] })).modSlot e.k fun sl => { sl with pos := 0 }
        e.joinDone (e.put s1 { e.st with fmode := .attached, stream := i }) d joinOk
      | none => e.joinDone s d joinMissed

/-! ### SPAWN and SEND -/

/-- A record created by SPAWN or SEND (R286, R287). Its first pick-up acquires at the scope at which the creation releases
(R160, R164). Its LCORE and STREAM are 0: DESIGN CHOICE, the spec gives them no value (log 43). -/
def Env.child (e : Env) (tile : Nat) (hdr rsp s8 s9 : Word) (place : Place) (msg : Bool) (sc : Scope) : Strand :=
  let t : Strand :=
    { task := e.st.task, part := e.pn, index := e.ta.next, home := tile, place := place, hdr := hdr, rsp := rsp,
      prio := e.st.prio, cls := e.st.cls, since := 0, acq := sc }
  if msg then { t with waitK := .message, waita := s8, waitv := s9, msg := s8 }
  else { t with frames := (t.frames.set 0 s8).set 1 s9 }

/-- The child with its STAT dword. -/
def Strand.withStat (t : Strand) : Strand := { t with stat := packStat t }

/-- A record put into the target tile's pending pool and from there onto its ready queue, or onto its overflow queue (R288);
none when it cannot be placed (R289). -/
def Env.create (e : Env) (s : State) (tile : Nat) (mk : Place → Strand) : Option State :=
  let u := s.nextUid
  let s1 := { s with nextUid := u + 1 }
  let t := s.tile tile
  let task := s1.modTask e.st.task fun x => { x with next := x.next + 1 }
  if t.pool.length < poolSize && t.overflow.isEmpty then
    some (((task.setStrand u (mk (.pending tile)).withStat).setTile tile { t with pool := t.pool ++ [u] }).toReady u tile)
  else
    match task.allocArena e.pn recordBytes recordBytes false with
    | none => none
    | some (s2, a) =>
      let s3 := ((s2.setStrand u { (mk (.overflow tile)).withStat with ovf := a }).writeRecord u).modTile tile fun x =>
        { x with overflow := x.overflow ++ [u] }
      some (s3.relink (s3.tile tile).overflow)

/-- A creation that waits on its slot, counted once (R289, Table 15.7). -/
def Env.denied (e : Env) (s : State) : State :=
  let s1 := s.modSlot e.k fun sl => { sl with hold := some .creation, denied := true }
  if e.sl.denied then s1 else s1.bumpArena e.pn 0x20

/-- TASKID of the strand just created. -/
def Env.childId (e : Env) : Word := taskIdOf e.ta e.ta.next

/-- The checks of an entry header (R286, R287). -/
def Env.checkEntry (e : Env) (a : Word) : Res Unit := do
  faultIf (bits a 2 0 != 0) .align a
  faultIf (e.user && bit a 63) .access a

/-- The created strand's identifier written, the wait counted no more. -/
def Env.created (e : Env) (s : State) (d : Reg) : State :=
  (e.put s (e.st.putS d e.childId)).modSlot e.k fun sl => { sl with denied := false }

/-- SPAWN (R286). -/
def opSpawn (d a b c : Reg) : Op := fun e s => do
  let hdr := e.st.scalar a
  let rsp := e.st.scalar c
  e.checkEntry hdr
  faultIf (bits rsp 6 0 != 0) .align rsp
  match e.create (s.release e.k .tile) e.tile fun p => e.child e.tile hdr rsp (e.st.scalar b) (e.ta.next.setWidth 64) p false .tile with
  | none => .error (.become (e.denied s))
  | some s1 => return e.created s1 d

/-- The target tile of SEND: logical field and tile of a COORD (R287). -/
def Env.sendTarget (e : Env) (s : State) (a : Word) : Res Nat :=
  match e.p.phys (bits a 15 10) with
  | none => failWith .badaddr a
  | some f =>
    let t := f * 16 + bits a 9 6
    if 11 < bits a 9 6 || !(s.tile t).good then failWith .badaddr a else .ok t

/-- Dwords that a word other than a load reads, past the L1 data cache (R249, R287). -/
def Env.readDwords (e : Env) (s : State) (va : Word) : Nat → Res (State × List Byte)
  | 0 => .ok (s, [])
  | n + 1 => do
    let (s1, v) ← e.loadPast s va 8
    let (s2, l) ← e.readDwords s1 (va + 8) n
    return (s2, bytesOf 8 v ++ l)

/-- SEND (R287). The field keeps no remote copy of the buffer that the message goes into (R384). -/
def opSend (d a b c : Reg) (len8 : Fin 64) : Op := fun e s => do
  let tile ← e.sendTarget s (e.st.scalar a)
  let va := e.st.scalar b
  let (s1, msg) ← e.readDwords s va (len8.val + 1)
  let hdr := e.st.scalar c
  e.checkEntry hdr
  match s1.allocArena e.pn messageBytes messageBytes false with
  | none => .error (.become (e.denied s))
  | some (s2, buf) =>
    let sc := scopeOfTiles e.st.home tile
    let s3 := ((s2.release e.k sc).dropRdcOver e.fld buf msg.length e.ctx).arenaPut e.pn buf msg
    match e.create s3 tile fun p => e.child tile hdr 0 buf (BitVec.ofNat 64 (8 * (len8.val + 1))) p true sc with
    | none => .error (.become (e.denied s))
    | some s4 => return e.created s4 d

/-- STRAND_CREATION_CONTINUE (R289): a SPAWN or SEND that waits tries again. -/
def execStrandCreationContinue (slot : Nat) (s : State) : Host.Outcome State Fault Refusal :=
  match tget s.slots slot with
  | some { hold := some .creation, .. } => .next ((s.modSlot slot fun sl => { sl with hold := none }).postSlot slot)
  | _ => .next s

/-! ### YIELD and END -/

/-- YIELD (R290): its own sequencing, then the put-down. -/
def opYield : Op := fun e s => do
  let (s1, t) ← e.sequence s e.st
  return (e.put s1 t).suspend e.k .yield 0 0

/-- Monitor entries and overflow links of a strand freed (R139, R291). -/
def State.dropWaits (s : State) (u : Nat) : State :=
  { s with
    tiles := s.tiles.map fun (n, t) => (n, { t with recalls := t.recalls.filter fun r => r.uid != u })
    fields := s.fields.map fun (n, f) =>
      (n, { f with
        waiters := f.waiters.filter fun w => w.uid != u
        monitors := f.monitors.map fun l => l.filter fun m => m.uid != u
        overflow := f.overflow.map fun l => l.filter fun m => m.uid != u
        faults := f.faults.filter fun w => w.who != .strand u && w.who != .spill u
        promos := f.promos.map fun q => { q with waiters := q.waiters.filter fun w => w.wait.who != .strand u && w.wait.who != .spill u } }) }

/-- A task has no strand left. -/
def State.taskEmpty (s : State) (task : Nat) : Bool := s.strands.all fun e => e.2.task != task

/-- A strand of a task is gone: with the last one on its tile the tile returns tokens (R438), and with the last one of all the
task's end may be due (R164, R291). -/
def State.strandGone (s : State) (u : Nat) : State :=
  match tget s.strands u with
  | none => s
  | some t =>
    let s1 := { s with strands := tdel s.strands u }
    let s2 := if t.msg = 0 then s1 else s1.freeArena t.part t.msg messageBytes
    let s3 := if s2.strands.any fun e => e.2.task = t.task && e.2.home = t.home then s2 else s2.postOnce (.taskEndReturn t.home)
    (if s3.taskEmpty t.task then s3.postOnce (.taskCompletion t.task) else s3).queueTogether

/-- END (R291). -/
def opEnd : Op := fun e s =>
  let s1 := ((s.release e.k .tile).leaveStream e.k).dropEntry e.tile e.u
  let s2 := (s1.dropWaits e.u).dropGroups e.u false
  .ok ((s2.vacate e.k).strandGone e.u)

/-! ### Meanings -/

/-- SPLIT (R284). -/
def execSplit (k : Ctl) (s : State) : Host.Outcome State Fault Refusal := runWord (.split k) k opSplit s

/-- JOIN (R285). -/
def execJoin (k : Ctl) (d : Reg) (s : State) : Host.Outcome State Fault Refusal := runWord (.join k d) k (opJoin d) s

/-- SPAWN (R286). -/
def execSpawn (k : Ctl) (d a b c : Reg) (s : State) : Host.Outcome State Fault Refusal :=
  runWord (.spawn k d a b c) k (opSpawn d a b c) s

/-- SEND (R287). -/
def execSend (k : Ctl) (d a b c : Reg) (len8 : Fin 64) (s : State) : Host.Outcome State Fault Refusal :=
  runWord (.send k d a b c len8) k (opSend d a b c len8) s

/-- YIELD (R290). -/
def execYieldOp (k : Ctl) (s : State) : Host.Outcome State Fault Refusal := runJump (.yieldOp k) k opYield s

/-- END (R291). -/
def execEndOp (k : Ctl) (s : State) : Host.Outcome State Fault Refusal := runJump (.endOp k) k opEnd s

end Sys2Proof.Machine
end

