-- ==== Sys2Proof/Machine/Traps.lean ====
section
/-! DEFINITION. Sys2Proof/Machine/Traps.lean: the special registers with MFS and MTS (R45 to R48), TRAP, BRK, RFT, HALT and NOP
(R177 to R182), the debug halt that BRK and HALT trigger (R180, R510 to R512), and words of unassigned opcodes. -/

namespace Sys2Proof.Machine

/-! ### MFS -/

/-- Layouts of registers that pack counters. -/
def droopcntOf (c : Core) : Word := BitVec.ofNat 64 (c.sense * 2 ^ 48 + c.wakes * 2 ^ 32 + c.stretch.toNat)
def cecntOf (c : Core) : Word := BitVec.ofNat 64 (c.poison * 2 ^ 48 + c.refetch * 2 ^ 32 + c.corr.toNat)
def assaystOf (c : Core) : Word :=
  let b := c.bucket
  BitVec.ofNat 64 (b.trans * 2 ^ 32 + (if b.busy then 512 else 0) + (if b.suspect then 256 else 0) + b.level)
def secmemOf (x : Sector) : Word := BitVec.ofNat 64 (x.parity * 2 ^ 48 + x.hot * 2 ^ 32 + x.rfm.toNat)
def tierstOf (p : Partition) : Word := BitVec.ofNat 64 (p.tagfail * 2 ^ 48 + p.pstall * 2 ^ 32 + p.promo.toNat)

/-- XLINKS (Table 18.11). -/
def xlinksOf (l : List (Bool × Bool × Nat)) : Word :=
  BitVec.ofNat 64 (packN 1 (l.map fun x => if x.1 then 1 else 0) +
    256 * packN 1 (l.map fun x => if x.1 && x.2.1 then 1 else 0))

/-- Value of a special register (Tables 1.5, 6.1, 9.3, 11.6, 12.5, 15.2, 16.1, 18.4, 18.11, 19.9); none when its number is not
assigned. -/
def Env.special (e : Env) (s : State) (n : Nat) : Option Word :=
  let t := e.st
  let b := fun (x : Bool) (v : Nat) => if x then v else 0
  match n with
  | 0x000 => some (BitVec.ofNat 64 (b t.sup 1 + b t.zsub 2 + b (t.fmode = .detached) 4 + b t.ap 8))
  | 0x001 => some t.cause
  | 0x002 => some t.tval
  | 0x003 => some t.tpc
  | 0x004 => some t.fpst
  | 0x005 => some (BitVec.ofNat 64 (LCls.num t.latch.cls))
  | 0x006 => some t.hdr
  | 0x007 => some t.rsp
  | 0x008 => some e.tid
  | 0x009 => some (BitVec.ofNat 64 t.cls)
  | 0x00A => some t.rprog
  | 0x00B => some (BitVec.ofNat 64 t.treesel)
  | 0x00C => some 1
  | 0x010 => some (e.p.tvec &&& ~~~6)
  | 0x100 => some (BitVec.ofNat 64 s.time)
  | 0x101 => some (BitVec.ofNat 64 (s.cycleOf e.core))
  | 0x102 => some (s.coordOf e.p e.k)
  | 0x103 => some (pcoordOf e.k)
  | 0x104 => some (s.core e.core).droopth
  | 0x105 => some (droopcntOf (s.core e.core))
  | 0x106 => some (cecntOf (s.core e.core))
  | 0x107 => some (BitVec.ofNat 64 (s.core e.core).cpwt)
  | 0x108 => some (assaystOf (s.core e.core))
  | 0x200 => some (BitVec.ofNat 64 (s.tile e.tile).grant)
  | 0x201 => some ((s.tile e.tile).zbase + BitVec.ofNat 64 (s.tile e.tile).zhead)
  | 0x300 => some (e.p.fcb e.fld)
  | 0x301 => some (BitVec.ofNat 64 e.ctx)
  | 0x302 => some (e.p.gtab e.fld)
  | 0x303 => some e.p.tiercb
  | 0x304 => some (secmemOf (tgetD s.sectors (sectorOf e.fld) {}))
  | 0x305 => some (tierstOf e.p)
  | 0x306 => some (xlinksOf s.links)
  | _ =>
    if 0x308 ≤ n && n ≤ 0x30F then some (BitVec.ofNat 64 (((s.links[n - 0x308]?).map fun x => if x.1 then x.2.2 else 0).getD 0))
    else none

/-- MFS (R48): PRIV for a supervisor register in user mode. -/
def opMfs (d : Reg) (n : Nat) : Op := fun e s =>
  if specialSup n && e.user then failWith .priv e.w
  else
    match e.special s n with
    | none => failWith .illop e.w
    | some v => .ok (e.put s (e.st.putS d v))

/-- An MFS of DROOPCNT or CECNT waits until the vector side has started every earlier instruction (R266). -/
def opReadCounts (d : Reg) (cecnt : Bool) : Op := fun e s =>
  if !e.sl.fwd.isEmpty then .error .wait
  else .ok (e.put s (e.st.putS d (if cecnt then cecntOf (s.core e.core) else droopcntOf (s.core e.core))))

/-! ### MTS -/

/-- Bits of CAUSE that a layout assigns (Table 6.2). -/
def causeMask : Word := 0xFFFF01DF

/-- MTS of the registers that have no row of their own. -/
def opMts (n : Nat) (a : Reg) : Op := fun e s =>
  let x := e.st.scalar a
  if specialWriteSup n && e.user then failWith .priv e.w
  else
    match n with
    | 0x001 => .ok (e.put s { e.st with cause := x &&& causeMask })
    | 0x002 => .ok (e.put s { e.st with tval := x })
    | 0x003 => .ok (e.put s { e.st with tpc := x })
    | 0x00A => .ok (e.put s { e.st with rprog := if bits x 3 0 = 0 then 0 else x &&& rprogMask })
    | 0x00B => .ok (e.put s { e.st with treesel := bits x 2 0 })
    | _ => failWith .illop e.w

/-- A write to STATUS: bit 1, ZSUB, alone is kept (Table 1.5). -/
def opWriteStatus (a : Reg) : Op := fun e s =>
  .ok (e.put s { e.st with zsub := bit (e.st.scalar a) 1 })

def opWriteFpst (a : Reg) : Op := fun e s =>
  .ok (e.put s { e.st with fpst := fpstWrite e.st.fpst (e.st.scalar a) })

def opWriteRsp (a : Reg) : Op := fun e s =>
  let x := e.st.scalar a
  if bits x 6 0 != 0 then failWith .align x else .ok (e.put s { e.st with rsp := x })

/-- CLASS of a task header (Table 19.5). -/
def classOf (t : Task) : Nat := bits t.header[2] 6 4

def opWriteClass (a : Reg) : Op := fun e s =>
  let x := bits (e.st.scalar a) 2 0
  if classOf e.ta < x then failWith .priv e.w else .ok (e.put s { e.st with cls := x })

/-- A write to DROOPTH (R265). -/
def opWriteDroopth (a : Reg) : Op := fun e s =>
  if e.user then failWith .priv e.w
  else
    let x := e.st.scalar a
    let lvl := if bits x 7 0 < 8 then 8 else bits x 7 0
    .ok (s.modCore e.core fun c => { c with droopth := BitVec.ofNat 64 (bits x 15 8 * 256 + lvl) })

/-- A write to CPWT (Table 11.6). -/
def opWriteCpwt (a : Reg) : Op := fun e s =>
  if e.user then failWith .priv e.w
  else
    let x := bits (e.st.scalar a) 3 0
    .ok (s.modCore e.core fun c => { c with cpwt := if x = 0 then 1 else x })

/-! ### The debug halt (R180, R510 to R512) -/

/-- Sources of a debug halt (Table 19.12). -/
def haltBrk : Nat := 0
def haltHalt : Nat := 1
def haltPort : Nat := 2

/-- The strand goes back to the oldest outstanding instruction, and what has issued after it is discarded (R77). -/
def State.rewind (s : State) (k : Nat) : State :=
  match tget s.slots k with
  | none => s
  | some sl =>
    match sl.flight with
    | [] => s
    | f :: _ =>
      (s.modStrand sl.uid fun t => t.backTo f.before).setSlot k
        { sl with fwd := sl.fwd.filter (·.n < f.n), started := sl.started.filter (·.1 < f.n), ret := sl.ret.filter (·.1 < f.n),
                  flight := [], windows := f.windows, pos := f.pos, turned := false, stack := none, stop := none }

/-- Slots that hold a strand of a partition. -/
def State.slotsOf (s : State) (part : Nat) : List Nat :=
  (s.slots.filter fun (_, sl) =>
    match tget s.strands sl.uid with
    | some t => t.part = part
    | none => false).map (·.1)

/-- A partition's debug halt starts (R510, R511): no slot of it issues any more. -/
def State.startHalt (s : State) (part source : Nat) (pcoord tpc : Word) : State :=
  match tget s.parts part with
  | none => s
  | some p =>
    if p.halt.isSome then s
    else
      let s1 := s.setPart part { p with halt := some { source := source, since := s.time, pcoord := pcoord, tpc := tpc } }
      ((s1.slotsOf part).foldl State.discard s1).postOnce (.haltRecord part)

/-- The triggering strand stops before its word completes (R180). -/
def Env.trigger (e : Env) (s : State) (source : Nat) : State :=
  (s.modStrand e.u fun t => { t with asNop := true }).startHalt e.pn source (pcoordOf e.k) e.st.pc

/-- The word completes as a NOP after the resume (R180). -/
def Env.resumeWord (e : Env) (s : State) : Res State := do
  let (s1, t) ← e.sequence s e.st
  return e.put s1 { t with asNop := false }

/-! ### TRAP, BRK, RFT and HALT -/

def opTrap (n : BitVec 16) : Op := fun e s => e.takeTrap s false n

def opBrk (n : BitVec 16) : Op := fun e s =>
  if e.st.asNop then e.resumeWord s
  else if bit e.p.tvec 0 then .error (.become (e.trigger s haltBrk))
  else e.takeTrap s true n

def opRft (a b : Reg) : Op := fun e s => e.returnFromTrap s (e.st.scalar a) (e.st.scalar b)

def opHalt : Op := fun e s =>
  if e.st.asNop then .ok (e.put s { e.st with asNop := false })
  else if bit e.p.tvec 0 then .error (.become (e.trigger s haltHalt)) else .ok s

/-! ### Meanings -/

/-- MFS (R48). -/
def execMfs (k : Ctl) (d : Reg) (n : BitVec 12) (s : State) : Host.Outcome State Fault Refusal :=
  runWord (.mfs k d n) k (opMfs d n.toNat) s

/-- MFS of DROOPCNT or CECNT (R266). -/
def execReadDroopcntCecnt (k : Ctl) (d : Reg) (cecnt : Bool) (s : State) : Host.Outcome State Fault Refusal :=
  runWord (.readDroopcntCecnt k d cecnt) k (opReadCounts d cecnt) s

/-- MTS (R48). -/
def execMts (k : Ctl) (n : BitVec 12) (a : Reg) (s : State) : Host.Outcome State Fault Refusal :=
  runWord (.mts k n a) k (opMts n.toNat a) s

/-- MTS of CLASS (R48, Table 1.5). -/
def execWriteClass (k : Ctl) (a : Reg) (s : State) : Host.Outcome State Fault Refusal :=
  runWord (.writeClass k a) k (opWriteClass a) s

/-- MTS of FPST (R198). -/
def execWriteFpst (k : Ctl) (a : Reg) (s : State) : Host.Outcome State Fault Refusal :=
  runWord (.writeFpst k a) k (opWriteFpst a) s

/-- MTS of RSP (Table 1.5). -/
def execWriteRsp (k : Ctl) (a : Reg) (s : State) : Host.Outcome State Fault Refusal :=
  runWord (.writeRsp k a) k (opWriteRsp a) s

/-- MTS of STATUS (Table 1.5). -/
def execWriteStatus (k : Ctl) (a : Reg) (s : State) : Host.Outcome State Fault Refusal :=
  runWord (.writeStatus k a) k (opWriteStatus a) s

/-- MTS of DROOPTH (R265). -/
def execWriteDroopth (k : Ctl) (a : Reg) (s : State) : Host.Outcome State Fault Refusal :=
  runWord (.writeDroopth k a) k (opWriteDroopth a) s

/-- MTS of CPWT (Table 11.6). -/
def execWriteCpwt (k : Ctl) (a : Reg) (s : State) : Host.Outcome State Fault Refusal :=
  runWord (.writeCpwt k a) k (opWriteCpwt a) s

/-- TRAP (R177). -/
def execTrap (k : Ctl) (n : BitVec 16) (s : State) : Host.Outcome State Fault Refusal := runJump (.trap k n) k (opTrap n) s

/-- BRK (R177, R180). -/
def execBrk (k : Ctl) (n : BitVec 16) (s : State) : Host.Outcome State Fault Refusal := runJump (.brk k n) k (opBrk n) s

/-- RFT (R178). -/
def execRft (k : Ctl) (a b : Reg) (s : State) : Host.Outcome State Fault Refusal := runJump (.rft k a b) k (opRft a b) s

/-- HALT (R181). -/
def execHalt (k : Ctl) (s : State) : Host.Outcome State Fault Refusal := runWord (.halt k) k opHalt s

/-- NOP (R182). -/
def execNop (k : Ctl) (s : State) : Host.Outcome State Fault Refusal := runWord (.nop k) k (fun _ s => .ok s) s

/-- A word of an unassigned opcode: ILLOP with the word in TVAL (Table 2.8). -/
def execUnassignedOpcode (w : Word) (s : State) : Host.Outcome State Fault Refusal :=
  match s.envAt s.cur (.unassignedOpcode w) { seq := .next, neg := false, gp := 0, la := 0 } with
  | none => .refused .noStrand
  | some e => .next (if e.waits s (.unassignedOpcode w) || e.busy then s else s.raise e.k .illop w false false)

end Sys2Proof.Machine
end

