-- ==== Sys2Proof/Machine/System.lean ====
section
/-! DEFINITION. Sys2Proof/Machine/System.lean: TGEN with the raise of a generation (R392 to R395), CINV (R402), SCRUB with its
scrubber (R403, R475), ROUTE (R509), and the halt record (R512). -/

namespace Sys2Proof.Machine

/-! ### Generations (R392 to R395) -/

/-- Numbers of the agents that acknowledge a raise: a core by its own number, a Mandrel, a tile's engine with a row-block
that runs, a remote-data cache. -/
def agentMandrel (tile : Nat) : Nat := 20000 + tile
def agentEngine (tile : Nat) : Nat := 40000 + tile
def agentRdc (field : Nat) : Nat := 50000 + field

/-- Tiles of a partition's fields, and their cores. -/
def Partition.tiles (p : Partition) : List Nat := p.fields.flatMap fun e => (upto 16).map fun t => e.1 * 16 + t
def Partition.cores (p : Partition) : List Nat := p.tiles.flatMap fun t => (upto 16).map fun c => t * 16 + c

/-- Slots of a core that hold a strand of a context. -/
def State.slotsOfCtx (s : State) (part ctx c : Nat) : List Nat :=
  ((upto 4).map fun i => c * 4 + i).filter fun k =>
    match tget s.slots k with
    | none => false
    | some sl =>
      match tget s.strands sl.uid with
      | none => false
      | some t =>
        t.part = part &&
        match tget s.tasks t.task with
        | some ta => ta.ctx = ctx
        | none => false

/-- A row-block of a context runs on a tile's engine. -/
def State.engineRuns (s : State) (part ctx tile : Nat) : Bool :=
  (s.tile tile).jobs.any fun j => j.status = .running && j.part = part && j.ctx = ctx

/-- Ports bound to a virtual function of a partition. -/
def State.boundPorts (s : State) (part : Nat) : List Nat :=
  (s.ports.filter fun (e : Nat × Port) => e.2.bind.any fun b => b.part = part).map (·.1)

/-- The tiles whose agents may keep something of a partition: those of its fields, and the gateway blocks of the ports bound to it,
which may lie in other fields (R527, R528). -/
def State.agentTiles (s : State) (part : Nat) (p : Partition) : List Nat := (p.tiles ++ (s.boundPorts part).map tileOfPort).dedup

/-- The agents that keep something of a context: they have an acknowledgement to make. Any other agent acknowledges at once. -/
def State.agentsOf (s : State) (part : Nat) (p : Partition) (ctx : Nat) : List Nat :=
  let ts := s.agentTiles part p
  let cs := ts.flatMap fun t => (upto 16).map fun c => t * 16 + c
  (cs.filter fun c => (s.core c).l1.any (·.ctx = ctx) || !(s.slotsOfCtx part ctx c).isEmpty) ++
  ((ts.filter fun t => (s.tile t).icache.any (·.ctx = ctx)).map agentMandrel) ++
  ((ts.filter fun t => s.engineRuns part ctx t).map agentEngine) ++
  ((ts.map fieldOfTile).dedup.filter fun f => (s.field f).rdc.any (·.ctx = ctx)).map agentRdc

/-- Raises that may start do so: those of one context one at a time, in the order of their allocation (R394). `seen` holds the
contexts of earlier raises. -/
def State.startList (s : State) (part : Nat) (p : Partition) (seen : List Nat) : List Raise → List Raise
  | [] => []
  | r :: t =>
    let r' := if r.started || seen.contains r.ctx then r else { r with started := true, left := s.agentsOf part p r.ctx }
    r' :: s.startList part p (r.ctx :: seen) t

/-- What is due for the raises of a partition. -/
def State.genTurns (s : State) (part : Nat) : State :=
  match tget s.parts part with
  | none => s
  | some p =>
    let s1 := if p.raises.any fun r => r.started && !r.left.isEmpty then s.postOnce (.generationAck part) else s
    if p.raises.any fun r => r.started && r.left.isEmpty then s1.postOnce (.generationSwitch part) else s1

/-- Translation-cache entries of a partition's fields that bear the tag of a raise about to start go: a tag that has wrapped
matches nothing (R395). -/
def State.dropTags (s : State) (p : Partition) (l : List Raise) : State :=
  p.fields.foldl (fun x e => x.modField e.1 fun f =>
    { f with tlb := f.tlb.filter fun t => !(l.any fun r => !r.started && r.ctx = t.ctx && r.gen.setWidth 16 = t.gen) }) s

/-- The requests of a context that fields of a partition hold on a page fault or a tier miss are rejected, and sent again with the
new generation (R394, step 1): chunks, commands and acts; a strand's own request has ended with its suspension. -/
def State.rejectHeld (s : State) (part ctx : Nat) (p : Partition) : State :=
  let mine := fun (w : FaultWait) => w.part = part && w.ctx = ctx &&
    match w.who with
    | .strand _ => false
    | _ => true
  p.fields.foldl (fun x e =>
    let f := x.field e.1
    let ws := (f.faults.filter mine).map (·.who) ++ f.promos.flatMap fun q => (q.waiters.filter fun h => mine h.wait).map Held.who
    (x.modField e.1 fun y =>
      { y with
        faults := y.faults.filter fun w => !mine w
        promos := y.promos.map fun q => { q with waiters := q.waiters.filter fun h => !mine h.wait } }).wakeWaiters ws) s

def State.startRaises (s : State) (part : Nat) : State :=
  match tget s.parts part with
  | none => s
  | some p =>
    let l := s.startList part p [] p.raises
    let begun := (l.filter fun r => r.started && !p.raises.contains r).map (·.ctx)
    let s1 := ((s.dropTags p p.raises).setPart part { p with raises := l }).genTurns part
    begun.foldl (fun x c => x.rejectHeld part c p) s1

/-- What a core does before it acknowledges (R255): the posted stores of the context are performed; dirty words of lines of
the old generation go home; lines that bear the new tag are dropped. -/
def State.ackCore (s : State) (part ctx c : Nat) (g : BitVec 16) : State :=
  let s1 := (s.slotsOfCtx part ctx c).foldl State.drain s
  let old := (s1.core c).l1.filter fun l => l.ctx = ctx && l.gen != g
  let s2 := old.foldl (fun x l => if l.dirty = 0 then x else x.writeBack c l) s1
  s2.modCore c fun x =>
    { x with l1 := (x.l1.filter fun l => !(l.ctx = ctx && l.gen = g)).map fun l =>
        if l.ctx = ctx then l.cleaned else l }

/-- What an agent does before it acknowledges (R394, step 2). -/
def State.ackAgent (s : State) (part ctx a : Nat) (g : BitVec 16) : State :=
  if a < 20000 then s.ackCore part ctx a g
  else if a < 40000 then
    s.modTile (a - 20000) fun t => { t with icache := t.icache.filter fun l => !(l.ctx = ctx && l.gen = g) }
  else if a < 50000 then s
  else s.modField (a - 50000) fun x => { x with rdc := x.rdc.filter fun l => !(l.ctx = ctx && l.gen = g) }

/-- The first raise that satisfies a test, changed. -/
def modFirst (test : Raise → Bool) (f : Raise → Raise) : List Raise → List Raise
  | [] => []
  | r :: t => if test r then f r :: t else r :: modFirst test f t

/-- A core has a vector store of the context that its vector side has not started: its entry is not performed yet (R155). -/
def State.fwdStores (s : State) (part ctx a : Nat) : Bool :=
  a < 20000 && (s.slotsOfCtx part ctx a).any fun k =>
    match tget s.slots k with
    | some sl => sl.fwd.any (·.store)
    | none => false

/-- GENERATION_ACK (R394, step 2): one agent acts for the context and acknowledges; an engine whose
row-block of the context runs does so after it, and so does a core with a vector store that has not started. -/
def execGenerationAck (part : Nat) (s : State) : Host.Outcome State Fault Refusal :=
  match tget s.parts part with
  | none => .next s
  | some p =>
    let open_ := fun (r : Raise) => r.started && !r.left.isEmpty
    match p.raises.find? open_ with
    | none => .next (s.genTurns part)
    | some r =>
      match r.left with
      | [] => .next s
      | a :: rest =>
        let later := 40000 ≤ a && a < 50000 && s.engineRuns part r.ctx (a - 40000)
        if s.fwdStores part r.ctx a then
          .next (((s.modPart part fun q =>
            { q with raises := modFirst open_ (fun x => { x with left := rest ++ [a] }) q.raises }).postAt (s.time + 1) (.generationAck part)))
        else
        let s1 := s.ackAgent part r.ctx a (r.gen.setWidth 16)
        .next ((s1.modPart part fun q =>
          { q with raises := modFirst open_ (fun x => { x with left := if later then rest ++ [a] else rest }) q.raises }).genTurns part)

/-- A migration subcode has completed: STATE is written and CDONE gets its addition, in its turn (R541). -/
def State.migrationDone (s : State) (part v : Nat) (blk : Word) : State := s.postDev part { vf := v, what := .done blk }

/-- The raise of a TRACK or COLLECT has completed (R542, R543): TRACK sets TRACKING. -/
def State.migrated (s : State) (part v : Nat) : State :=
  match tget s.parts part with
  | none => s
  | some p =>
    let f := tgetD p.vfs v {}
    match f.moving with
    | some (4, blk) =>
      (s.setPart part { p with vfs := tput p.vfs v { f with tracking := true } }).migrationDone part v blk
    | some (_, blk) => s.migrationDone part v blk
    | none => s

/-- GENERATION_SWITCH (R394, step 3): every field sets GEN and rejects what it holds of an older generation, and the scheduler adds 1
to the counter. Additions already translated and on their way are performed before (R395). -/
def execGenerationSwitch (part : Nat) (s : State) : Host.Outcome State Fault Refusal :=
  match tget s.parts part with
  | none => .next s
  | some p =>
    match p.raises.find? fun r => r.started && r.left.isEmpty with
    | none => .next (s.genTurns part)
    | some r =>
      let busy := (p.fields.map (·.1)).filter fun f => !(s.field f).adds.isEmpty
      if !busy.isEmpty then .next ((s.postAll (busy.map fun f => .counterAddition f)).postOnce (.generationSwitch part))
      else
      let s1 := s.setPart part { p with gens := tput p.gens r.ctx r.gen, raises := ldel p.raises r }
      let s2 := p.fields.foldl (fun x e =>
        x.setPinDw p (x.pinDw p (p.fcb e.1) 0) (64 * r.ctx + 0x20) (r.gen.setWidth 64)) s1
      let s3 := match r.ctr, r.vf with
        | some pa, _ => s2.counterAdd pa 1
        | none, some v => s2.migrated part v
        | none, none => s2
      .next ((s3.rejectHeld part r.ctx p).startRaises part)

/-- TGEN (R393). -/
def opTgen (d a b : Reg) : Op := fun e s => do
  let x := e.st.scalar a
  let c := e.st.scalar b
  let ctx := bits x 11 0
  faultIf (bits x 63 12 != 0 || !s.ctxValid e.p e.fld ctx) .access e.w
  faultIf (bits c 2 0 != 0) .align c
  faultIf (inWindow c) .badaddr c
  let (s1, pa) ← e.placed s c .rmw
  let s2 := s1.release e.k .system
  let g := tgetD e.p.alloc ctx 0 + 1
  let s3 := s2.modPart e.pn fun p =>
    { p with alloc := tput p.alloc ctx g, raises := p.raises ++ [{ ctx := ctx, gen := g, ctr := some pa }] }
  return e.put (s3.startRaises e.pn) (e.st.putS d (g.setWidth 64))

/-! ### CINV (R402) -/

/-- The words of the block in which a strand stands, as its tile's cache holds them. -/
def State.keepWords (s : State) (tile ctx : Nat) (gen : BitVec 16) (t : Strand) : Strand :=
  if t.widx = 0 then t
  else
    { t with kept := t.kept ++ (upto (lenOf t.header)).filterMap fun i =>
        let a := t.hdr + BitVec.ofNat 64 (8 * (i + 1))
        if t.kept.any fun x => x.1 = a then none
        else (((s.tile tile).icFind a ctx gen).bind fun l => (l.words[(a.toNat / 8) % 16]?).join).map fun w => (a, w) }

def opCinvCode : Op := fun e s =>
  let us := (s.slots.filter fun (k, _) => tileOfSlot k = e.tile).map fun x => x.2.uid
  let s1 := us.foldl (fun x u =>
    match tget x.strands u with
    | none => x
    | some t =>
      match tget x.tasks t.task with
      | some ta => if ta.ctx = e.ctx && t.part = e.pn then x.setStrand u (s.keepWords e.tile e.ctx e.gen t) else x
      | none => x) s
  .ok (s1.modTile e.tile fun t => { t with icache := t.icache.filter fun l => l.ctx != e.ctx })

def opCinvLine (a : Reg) : Op := fun e s =>
  let va := e.st.scalar a
  .ok (match s.resolve e.p e.user va with
    | .ok (.page _) => s.flushLine e.core va e.ctx
    | _ => s)

def opCinvRdc (a : Reg) : Op := fun e s =>
  let va := e.st.scalar a
  .ok (match s.resolve e.p e.user va with
    | .ok (.page f) => if f = e.fld then s else s.dropRdc e.fld va e.ctx
    | _ => s)

/-! ### SCRUB (R403) -/

/-- A frame that belongs to the partition (R403, R475). -/
def State.ownsFrame (s : State) (p : Partition) (fr n : Nat) : Bool :=
  if isTier fr then
    s.inRange p fr n
  else fr < 2 ^ 62 && (p.logical (fieldOfPa fr)).isSome && fr % 2 ^ 56 + n ≤ shareOf (fieldOfPa fr)

/-- Entries of a scrubber queue (R403). -/
def scrubSize : Nat := 16

/-- The dwords of bytes. -/
def dwordsOf : Nat → List Byte → List Word
  | 0, _ => []
  | n + 1, l => wordOfBytes (l.take 8) :: dwordsOf n (l.drop 8)

/-- The checks of a completion counter (R310, R403). -/
def checkCtr (ctr : Word) : Res Unit := do
  faultIf (ctr != 0 && bits ctr 2 0 != 0) .align ctr
  faultIf (ctr != 0 && inWindow ctr) .badaddr ctr

def opScrub (a : Reg) : Op := fun e s => do
  let x := e.st.scalar a
  faultIf (bits x 5 0 != 0) .align x
  let (s1, bs) ← e.readDwords s x 8
  let b := dwordsOf 8 bs
  let dw := fun (i : Nat) => (b[i]?).getD 0
  faultIf (bits (dw 1) 63 1 != 0 || dw 6 != 0 || dw 7 != 0) .illop e.w
  let fr := (dw 0).toNat
  let big := bit (dw 1) 0
  let n := pageBytes big
  faultIf (fr % n != 0) .align (dw 0)
  faultIf (!s1.ownsFrame e.p fr n) .access (dw 0)
  faultIf (bits (dw 2) 5 0 != 0) .align (dw 2)
  checkCtr (dw 3)
  let f := if isTier fr then e.fld else fieldOfPa fr
  let q := (s1.field f).scrubs
  if scrubSize ≤ q.length then .error .wait
  else
    let c : Scrub :=
      { part := e.pn, ctx := e.ctx, task := e.st.task, k := e.k, taskid := taskIdOf e.ta e.st.index, tpc := e.st.pc,
        hdr := e.st.hdr, blk := x, frame := fr, big := big, pool := dw 2, ctr := dw 3, addv := dw 4 }
    return (s1.modField f fun y => { y with scrubs := y.scrubs ++ [c] }).postOnce (.scrubberRun f)

/-- The place of an access that a command makes in its issuing context, as supervisor (R403). -/
def State.scrubPlace (s : State) (c : Scrub) (va : Word) (acc : Acc) : Res (State × Nat) :=
  match tget s.parts c.part with
  | none => failWith .badaddr va
  | some p => s.place false { part := c.part, ctx := c.ctx, gen := p.genOf c.ctx (coreOfSlot c.k), va := va, acc := acc }

/-- The scrubber's writer: it keeps no undo log (R500). -/
def Scrub.writer (c : Scrub) (f : Nat) : Writer := { fld := some f, task := none, ctx := c.ctx, part := c.part }

/-- A 64 KiB frame within the range is retired: it cannot hold zero (R403, R505). -/
def State.badFrame (s : State) (fr n : Nat) : Bool := s.badFrames.any fun b => fr ≤ b * 2 ^ 16 && b * 2 ^ 16 < fr + n

/-- The push of the frame onto the pool of a command (R403). -/
def State.scrubPush (s : State) (f : Nat) (c : Scrub) : Res (State × Nat) := do
  let (s1, pa) ← s.scrubPlace c c.pool .rmw
  faultIf (s1.lostAt pa 16) .uncorr c.pool
  let n := s1.dwAt pa
  if n.toNat < (s1.dwAt (pa + 8)).toNat then
    let sv := c.pool + 0x40 + 8 * n
    let (s2, sp) ← s1.scrubPlace c sv .write
    let s3 := s2.homeWrite (c.writer f) sv sp (bytesOf 8 c.frame)
    return (s3.homeWrite (c.writer f) c.pool pa (bytesOf 8 (n + 1).toNat), 0)
  else return (s1, 1)

/-- Places of a frame that cannot hold zero: their 64 KiB frames are retired, and Assay follows (R403). -/
def State.retireStuck (s : State) (frame n : Nat) : State :=
  if isTier frame then s
  else
    ((s.field (fieldOfPa frame)).stuck.filter fun a => frame ≤ a && a < frame + n).foldl (fun x a =>
      ({ x with badFrames := insertNat x.badFrames (a / 2 ^ 16) } : State).postOnce (.assay (.dramRow a))) s

/-- One stage of a command: zero-fill, push, RESULT, addition. The command as it then stands; none when it is done. -/
def State.scrubStage (s : State) (f : Nat) (c : Scrub) : Res (State × Option Scrub) :=
  match c.stage with
  | 0 =>
    let s1 := (s.zeroFrame c.frame c.big).retireStuck c.frame (pageBytes c.big)
    .ok (s1, some { c with stage := 1, res := if s1.badFrame c.frame (pageBytes c.big) then 2 else 0 })
  | 1 =>
    if c.res = 2 || c.pool = 0 then .ok (s, some { c with stage := 2 })
    else do
      let (s1, r) ← s.scrubPush f c
      return (s1, some { c with stage := 2, res := r })
  | 2 => do
    let va := c.blk + 0x28
    let (s1, pa) ← s.scrubPlace c va .write
    return (s1.homeWrite (c.writer f) va pa (bytesOf 8 c.res), some { c with stage := 3 })
  | _ =>
    if c.ctr = 0 || c.quiet then .ok (s, none)
    else do
      let (s1, pa) ← s.scrubPlace c c.ctr .rmw
      return ((s1.dropRdc f c.ctr c.ctx).addAt c.ctx pa c.addv, none)

/-- The head command of a scrubber is gone; the end of its grid may be due (R164). -/
def State.scrubGone (s : State) (f : Nat) (c : Scrub) : State :=
  let s1 := s.modField f fun x => { x with scrubs := x.scrubs.drop 1 }
  let s2 := if (s1.field f).scrubs.isEmpty then s1 else s1.postOnce (.scrubberRun f)
  s2.postOnce (.taskCompletion c.task)

/-- What a command meets that stops it (R403, R184). -/
def State.scrubStopped (s : State) (f : Nat) (c : Scrub) : Stop → State
  | .page va fld acc m =>
    if c.quiet then s.scrubGone f c
    else
      s.linkFault fld { who := .scrub f, part := c.part, ctx := c.ctx, va := va, acc := acc.num }
        [va, descInfo c.ctx 1 m acc (pcoordOf c.k), c.taskid, BitVec.ofNat 64 s.time]
  | .tier va fld acc en big slot =>
    if c.quiet then s.scrubGone f c
    else
      match tget s.parts c.part with
      | none => s.scrubGone f c
      | some p =>
        if s.tierAllowed p c.ctx en big then
          s.joinPromo fld en big slot
            { wait := { who := .scrub f, part := c.part, ctx := c.ctx, va := va, acc := acc.num }
              info := descInfo c.ctx 1 false acc (pcoordOf c.k), taskid := c.taskid }
        else (s.gridFault c.blame .access va).scrubGone f c
  | .fault code v => if c.quiet then s.scrubGone f c else (s.gridFault c.blame code v).scrubGone f c
  | .walkLost v => if c.quiet then s.scrubGone f c else (s.gridFault c.blame .uncorr v).scrubGone f c
  | .wait | .become _ => s

/-- SCRUBBER_RUN (R403): the head command of a field's scrubber goes one stage further. -/
def execScrubberRun (field : Nat) (s : State) : Host.Outcome State Fault Refusal :=
  match (s.field field).scrubs with
  | [] => .next s
  | c :: rest =>
    if s.scrubHeld field then .next s else
    match s.scrubStage field c with
    | .error x => .next (s.scrubStopped field c x)
    | .ok (s1, none) => .next (s1.scrubGone field c)
    | .ok (s1, some c') => .next ((s1.modField field fun x => { x with scrubs := c' :: rest }).postOnce (.scrubberRun field))

/-! ### ROUTE (R509) and the halt record (R512) -/

/-- Place of a class's route word among the five (R508). -/
def classIdx : TrafficClass → Nat
  | .req => 0 | .rsp => 1 | .sync => 2 | .bulk => 3 | .port => 4

/-- A route word as ROUTE stores it: WT at least 1 (Table 19.11). -/
def routeStored (x : Word) : BitVec 8 :=
  BitVec.ofNat 8 (max (bits x 7 4) 1 * 16 + bits x 1 0)

def opRoute (d a : Reg) (c : TrafficClass) : Op := fun e s =>
  let x := e.st.scalar a
  if bits x 63 8 != 0 || bits x 3 2 != 0 || bits x 1 0 = 3 then failWith .illop e.w
  else
    let old := ((e.p.routes[classIdx c]?).getD 0x40).setWidth 64
    .ok (e.put (s.modPart e.pn fun p => { p with routes := p.routes.set (classIdx c) (routeStored x) }) (e.st.putS d old))

/-- HALT_RECORD (R512, Table 19.12): every core has stopped, and the record is written. A halt reaches
every core at its trigger's time, so that FIRST = LAST = TRIG: DESIGN CHOICE (log 28). -/
def execHaltRecord (part : Nat) (s : State) : Host.Outcome State Fault Refusal :=
  match tget s.parts part with
  | none => .next s
  | some p =>
    match p.halt with
    | none => .next s
    | some h =>
      let t := BitVec.ofNat 64 h.since
      let n := (p.cores.filter fun c => tileExists (c / 16) && coreExists c && (s.core c).good && (s.tile (c / 16)).good).length
      .next (s.putPins p p.haltrec
        [BitVec.ofNat 64 (h.source * 2 ^ 62) ||| h.pcoord, t, t, t, BitVec.ofNat 64 n, 0, 0, 0])

/-! ### Meanings -/

/-- TGEN (R393). -/
def execTgen (k : Ctl) (d a b : Reg) (s : State) : Host.Outcome State Fault Refusal :=
  runWord (.tgen k d a b) k (opTgen d a b) s

/-- CINV.code (R402). -/
def execCinvCode (k : Ctl) (s : State) : Host.Outcome State Fault Refusal := runWord (.cinvCode k) k opCinvCode s

/-- CINV.line (R402). -/
def execCinvLine (k : Ctl) (a : Reg) (s : State) : Host.Outcome State Fault Refusal :=
  runWord (.cinvLine k a) k (opCinvLine a) s

/-- CINV.rdc (R402). -/
def execCinvRdc (k : Ctl) (a : Reg) (s : State) : Host.Outcome State Fault Refusal :=
  runWord (.cinvRdc k a) k (opCinvRdc a) s

/-- SCRUB (R403). -/
def execScrub (k : Ctl) (a : Reg) (s : State) : Host.Outcome State Fault Refusal := runWord (.scrub k a) k (opScrub a) s

/-- ROUTE (R509). -/
def execRoute (k : Ctl) (d a : Reg) (cls : TrafficClass) (s : State) : Host.Outcome State Fault Refusal :=
  runWord (.route k d a cls) k (opRoute d a cls) s

end Sys2Proof.Machine
end

