-- ==== Sys2Proof/Machine/Tensor.lean ====
section
/-! DEFINITION. Sys2Proof/Machine/Tensor.lean: tensor entries (R297 to R300) with TDEF, TGET and TDROP (R302 to R304). -/

namespace Sys2Proof.Machine

/-! ### Fields of an entry (Tables 11.1 to 11.4) -/

def tKind (x : Entry) : Nat := bits x[0] 3 0
def tFmt (x : Entry) : Nat := bits x[0] 11 8
def tRank (x : Entry) : Nat := bits x[0] 17 16 + 1
/-- BFP width. -/
def tW (x : Entry) : Nat := bits x[0] 23 20
def tSerial (x : Entry) : BitVec 16 := x[0].extractLsb' 48 16
def tBase (x : Entry) : Word := x[1]
def tScale (x : Entry) : Word := x[2]

/-- EXT of dimension `k`. -/
def tExt (x : Entry) (k : Nat) : Nat :=
  match k with
  | 0 => bits x[3] 31 0
  | 1 => bits x[3] 63 32
  | 2 => bits x[4] 31 0
  | _ => bits x[4] 63 32

/-- STR of dimension `k`, 1 to 3. -/
def tStr (x : Entry) (k : Nat) : Word :=
  match k with
  | 1 => x[5]
  | 2 => x[6]
  | 3 => x[7]
  | _ => 0

/-- KSPEC of a KVSEQ: WIN, SINK, CHK, wrap generation, PTAB. -/
def tWin (x : Entry) : Nat := bits x[8] 63 32
def tSink (x : Entry) : Nat := bits x[8] 31 0
def tChk (x : Entry) : Bool := bit x[9] 63
def tWgen (x : Entry) : Nat := bits x[9] 31 0
def tPtab (x : Entry) : Word := x[10]
/-- KSPEC of a TREE: KVT, TREE. -/
def tKvt (x : Entry) : Nat := bits x[8] 25 16
def tTree (x : Entry) : Nat := bits x[8] 2 0

def kindPlain : Nat := 1
def kindKvseq : Nat := 2
def kindTree : Nat := 3

/-- FMT of BFP. -/
def fmtBfp : Nat := 11

/-- Bytes of an element (Table 11.3); for BFP, of the multiple that addresses keep (R299). -/
def fmtBytes (f : Nat) : Nat :=
  match f with
  | 0 | 9 | 11 => 4
  | 1 | 10 => 8
  | 2 | 3 | 8 => 2
  | _ => 1

/-! ### Addresses (R300) -/

/-- Address of the row of elements (0, i1, i2, i3). -/
def tRow (x : Entry) (i1 i2 i3 : Nat) : Word :=
  tBase x + BitVec.ofNat 64 i1 * tStr x 1 + BitVec.ofNat 64 i2 * tStr x 2 + BitVec.ofNat 64 i3 * tStr x 3

/-- Address of an element of a format other than BFP. -/
def tElem (x : Entry) (i0 i1 i2 i3 : Nat) : Word := tRow x i1 i2 i3 + BitVec.ofNat 64 (i0 * fmtBytes (tFmt x))

/-- Address of the element string of a BFP block. -/
def tBlock (x : Entry) (b i1 i2 i3 : Nat) : Word := tRow x i1 i2 i3 + BitVec.ofNat 64 (b * 4 * tW x)

/-- Address of the exponent byte of a BFP block. -/
def tExp (x : Entry) (b i1 i2 i3 : Nat) : Word :=
  tScale x + BitVec.ofNat 64 (((i3 * tExt x 2 + i2) * tExt x 1 + i1) * (tExt x 0 / 32) + b)

/-! ### Descriptors (R298, R299) -/

/-- A reserved bit of a descriptor is set. -/
def descReserved (x : Entry) : Bool :=
  bits x[0] 47 24 != 0 || bits x[0] 19 18 != 0 || bits x[0] 15 12 != 0 || bits x[0] 7 4 != 0 ||
  (upto 4).any (fun i => (x.toList[12 + i]?).getD 0 != 0) ||
  (match tKind x with
   | 2 => x[11] != 0 || bits x[9] 62 32 != 0
   | 3 => x[9] != 0 || x[10] != 0 || x[11] != 0 || bits x[8] 63 26 != 0 || bits x[8] 15 3 != 0
   | _ => x[8] != 0 || x[9] != 0 || x[10] != 0 || x[11] != 0)

/-- Every dimension is as R299 asks. -/
def descDims (x : Entry) : Bool :=
  (upto 4).all fun k =>
    if k < tRank x then 1 ≤ tExt x k && (tStr x k).toNat % fmtBytes (tFmt x) = 0
    else tExt x k = 1 && tStr x k = 0

/-- TDEF accepts the descriptor for identifier `id` (R298, R299). -/
def descOk (id : Nat) (x : Entry) : Bool :=
  !descReserved x && 1 ≤ tKind x && tKind x ≤ 3 && tFmt x ≤ 11 &&
  (if tFmt x = fmtBfp then 2 ≤ tW x && tW x ≤ 8 else tW x = 0) &&
  descDims x && (tBase x).toNat % fmtBytes (tFmt x) = 0 &&
  (if tFmt x = fmtBfp then tExt x 0 % 32 = 0 && tScale x != 0 else tScale x = 0) &&
  (match tKind x with
   | 2 => 1 ≤ tWin x && bits (tPtab x) 2 0 = 0
   | 3 => tKvt x != id
   | _ => true)

/-! ### The table (R297) -/

/-- An entry of a context's table. -/
def Partition.tensor (p : Partition) (ctx id : Nat) : Entry :=
  tgetD (tgetD p.tensors ctx []) id (Vector.replicate 16 0)

/-- Bytes of a tensor table: 1,024 entries of 128 (R297). -/
def tableBytes : Nat := 131072

/-- The table of a context has its place in the save arena from its first change on; one that the arena cannot hold above LWM
stays without a place (log 57). -/
def State.tablePlace (s : State) (part ctx : Nat) : State × Option Word :=
  match (tget s.parts part).bind fun p => tget p.tables ctx with
  | some a => (s, some a)
  | none =>
    match s.allocArena part tableBytes 128 false with
    | some (s1, a) => (s1.modPart part fun p => { p with tables := tput p.tables ctx a }, some a)
    | none => (s, none)

/-- The bytes of a region of the arena zero. -/
def State.arenaZero (s : State) (part : Nat) (va : Word) (n : Nat) : State :=
  match s.arenaPa part va with
  | some a => s.zeroRange a n
  | none => s

/-- The bytes of an entry at its place; the first change of a context's entry finds the others empty there. -/
def State.entryImage (s : State) (part ctx id : Nat) (new : Bool) (x : Entry) : State :=
  match s.tablePlace part ctx with
  | (s1, some a) =>
    (if new then s1.arenaZero part a tableBytes else s1).arenaPut part (a + BitVec.ofNat 64 (128 * id))
      (x.toList.flatMap fun w => bytesOf 8 w.toNat)
  | (s1, none) => s1

/-- An entry changed, in the device and in the arena (R297). -/
def State.setTensor (s : State) (part ctx id : Nat) (x : Entry) : State :=
  let new := ((tget s.parts part).bind fun p => tget p.tensors ctx).isNone
  (s.entryImage part ctx id new x).modPart part fun p =>
    { p with tensors := tput p.tensors ctx (tput (tgetD p.tensors ctx []) id x) }

/-- The entry with the SERIAL that follows that of `old`. -/
def nextSerial (old x : Entry) : Entry := x.set 0 (putBits x[0] 63 48 ((tSerial old).toNat + 1))

/-- An entry as the dwords of bytes give it. -/
def entryOf (bs : List Byte) : Entry := Vector.ofFn fun i : Fin 16 => wordOfBytes ((bs.drop (8 * i.val)).take 8)

/-- An identifier that a register supplies (R61, R302). -/
def Env.regId (e : Env) (r : Reg) : Res Nat := do
  let x := e.st.scalar r
  faultIf (bits x 63 10 != 0) .tensor e.w
  return bits x 9 0

/-- The identifier of TDEF, TGET and TDROP (R302). -/
def Env.tensorId (e : Env) : TensorId → Res Nat
  | .lit n => .ok n.val
  | .reg r => e.regId r

/-- TDEF (R303). -/
def opTdef (t : TensorId) (b : Reg) : Op := fun e s => do
  let id ← e.tensorId t
  let va := e.st.scalar b
  faultIf (bits va 5 0 != 0) .align va
  let (s1, bs) ← e.readDwords s va 16
  let x := entryOf bs
  faultIf (!descOk id x) .tensor e.w
  return s1.setTensor e.pn e.ctx id (nextSerial (e.p.tensor e.ctx id) x)

/-- The stores of TGET, one for each dword; they pass by the L1 data cache (R249). -/
def Env.entryStores (e : Env) (va : Word) : List Word → State → Res (State × List StoreEntry)
  | [], s => .ok (s, [])
  | w :: t, s => do
    let (s1, x) ← e.storeElem s va 8 w.toNat
    let (s2, l) ← e.entryStores (va + 8) t s1
    return (s2, .store { e.org with past := true } [x] :: l)

/-- TGET (R303). -/
def opTget (t : TensorId) (b : Reg) : Op := fun e s => do
  let id ← e.tensorId t
  let va := e.st.scalar b
  faultIf (bits va 5 0 != 0) .align va
  let (s1, l) ← e.entryStores va (e.p.tensor e.ctx id).toList s
  e.postEntries s1 l

/-- TDROP (R303). -/
def opTdrop (t : TensorId) : Op := fun e s => do
  let id ← e.tensorId t
  return s.setTensor e.pn e.ctx id (nextSerial (e.p.tensor e.ctx id) (Vector.replicate 16 0))

/-- TDEF (R303). -/
def execTdef (k : Ctl) (t : TensorId) (b : Reg) (s : State) : Host.Outcome State Fault Refusal :=
  runWord (.tdef k t b) k (opTdef t b) s

/-- TGET (R303). -/
def execTget (k : Ctl) (t : TensorId) (b : Reg) (s : State) : Host.Outcome State Fault Refusal :=
  runWord (.tget k t b) k (opTget t b) s

/-- TDROP (R303). -/
def execTdrop (k : Ctl) (t : TensorId) (s : State) : Host.Outcome State Fault Refusal := runWord (.tdrop k t) k (opTdrop t) s

end Sys2Proof.Machine
end

