-- ==== Sys2Proof/Machine/Tokens.lean ====
section
/-! DEFINITION. Sys2Proof/Machine/Tokens.lean: power tokens (chapter 17): costs, the field broker with its waiting list, loans,
recalls and revocations, the Crucible, droop holds, and TREQ, TREL, TLEND and TSTAT. -/

namespace Sys2Proof.Machine

/-! ### Costs (Table 17.1) -/

/-- Cost of a tile kind at class 7. -/
def fullCost : TileKind → Nat
  | .dense => 240 | .sparse => 176 | .attention => 256 | .vectorHeavy => 160 | _ => 0

/-- cost(kind, c). -/
def costOf (kd : TileKind) (c : Nat) : Nat := if c = 7 then fullCost kd else fullCost kd * c / 8

/-- Cost of a class on a tile. -/
def tileCost (t c : Nat) : Nat := costOf (tileKind t) c

/-- vcost(c). -/
def vcost (c : Nat) : Nat := if c = 7 then 24 else 3 * c

/-- The highest class from 1 to `c` whose cost the grant meets, or 0 (R324, R454). -/
def effClass (kd : TileKind) (grant : Nat) : Nat → Nat
  | 0 => 0
  | c + 1 => if costOf kd (c + 1) ≤ grant then c + 1 else effClass kd grant c

/-! ### Holdings -/

/-- The Crucible reserve: 80,000 tokens less the totals of the 49 pools (R547). -/
def State.reserve (s : State) : Nat := 80000 - ((upto 49).map fun f => (s.field f).total).sum

/-- Borrowed tokens within a tile's GRANT, and tokens that it has lent. -/
def State.borrowed (s : State) (t : Nat) : Nat := ((s.loans.filter fun l => l.borrower = t).map (·.amount)).sum
def State.lent (s : State) (t : Nat) : Nat := ((s.loans.filter fun l => l.lender = t).map (·.amount)).sum

/-- Own grant of a tile. -/
def State.ownGrant (s : State) (t : Nat) : Nat := (s.tile t).grant - s.borrowed t

/-- The committed amount (R442): the heavy instructions that the engine holds have passed their leave check. -/
def State.committed (s : State) (t : Nat) : Nat :=
  (((s.tile t).jobs.filter fun j => j.heavy && j.status != .done).map fun j => tileCost t j.cls).foldl max 0

/-- The lendable amount (R442). -/
def State.lendable (s : State) (t : Nat) : Nat := s.ownGrant t - s.committed t

/-- Strand records homed on a tile. -/
def State.homed (s : State) (t : Nat) : List Strand := (s.strands.filter fun e => e.2.home = t).map (·.2)

/-- Tokens that reach a field's pool; those of a field retired whole go on to the Crucible reserve (R517). -/
def State.addFree (s : State) (f n : Nat) : State :=
  s.modField f fun x => if x.retired then { x with total := x.total - n } else { x with free := x.free + n }

/-- A droop hold is in force (R448). -/
def State.holdIn (s : State) (f : Nat) : Bool := (s.field f).hold.isSome

/-- Tokens added to a tile's GRANT. -/
def State.addGrant (s : State) (t n : Nat) : State :=
  s.modTile t fun x => { x with grant := x.grant + n, granted := s.time }

/-! ### The waiting list (R440) -/

/-- Effective PRIO of a waiter. -/
def State.waiterPrio (s : State) (w : TokWait) : Nat :=
  match tget s.strands w.uid with
  | some t => t.prio
  | none => 0

/-- The head of a list: the first of the highest effective PRIO. -/
def State.headWaiter (s : State) (l : List TokWait) : Option TokWait :=
  l.find? fun w => l.all fun v => s.waiterPrio v ≤ s.waiterPrio w

/-- A waiter has its tokens: its record is ready, unless tokens that its tile has recalled are still to arrive (R444). -/
def State.served (s : State) (w : TokWait) : State :=
  if (s.tile w.tile).recalls.any fun r => r.uid = w.uid then
    s.modTile w.tile fun x => { x with recalls := x.recalls.map fun r => if r.uid = w.uid then { r with rest := 0 } else r }
  else s.makeReady w.uid

/-- The waiting list served while the free tokens cover its head, outside a hold. -/
def State.serveList (s : State) (f : Nat) : Nat → State
  | 0 => s
  | n + 1 =>
    if s.holdIn f then s
    else
      match s.headWaiter (s.field f).waiters with
      | none => s
      | some w =>
        let give := min w.amount (tileCost w.tile 7 - (s.tile w.tile).grant)
        if w.amount ≤ (s.field f).free then
          let s1 := (s.modField f fun x => { x with free := x.free - give, waiters := ldel x.waiters w }).addGrant w.tile give
          ((s1.relink ((s1.field f).waiters.map (·.uid))).served w).serveList f n
        else s

/-- Dark tiles of a field on which records wait (R437). -/
def State.darkWaiting (s : State) (f : Nat) : List Nat :=
  ((upto 16).map fun i => f * 16 + i).filter fun t => (s.tile t).good && !s.awake t && (s.tile t).ready.any fun q => !q.isEmpty

/-- A dark tile lit with its floor; the placement grants of the tasks that wait on it are asked for next (R437). -/
def State.lightTile (s : State) (tile : Nat) : State :=
  ((s.modField (fieldOfTile tile) fun x => { x with free := x.free - floorTokens }).modTile tile fun x => { x with lit := true }).postAll
    (.pickUp tile :: ((s.homed tile).map (·.task)).dedup.map fun k => .placementGrant tile k)

/-- The floors that the free tokens cover (R437). -/
def State.serveFloors (s : State) (f : Nat) : List Nat → State
  | [] => s
  | t :: r => if floorTokens ≤ (s.field f).free then (s.lightTile t).serveFloors f r else s.postAll ((t :: r).map fun x => .floorRequest x)

/-- What a field's waiting list and floors need beyond its free tokens. -/
def State.fieldNeed (s : State) (f : Nat) : Nat :=
  floorTokens * (s.darkWaiting f).length + (((s.field f).waiters.map (·.amount)).sum) - (s.field f).free

/-- An event that falls due at a time, unless it is to come already. -/
def State.postAtOnce (s : State) (due : Nat) (i : Instr) : State :=
  if s.timers.any fun e => e.2 = i then s else s.postAt due i

/-- Field loans by which a field is a lender or a borrower: their lenders that need tokens look again whether they can be taken
back (R446). -/
def State.reclaimTurns (s : State) (f : Nat) : State :=
  (((s.fieldLoans.filter fun l => l.lender = f || l.borrower = f).map (·.lender)).dedup.filter fun g => 0 < s.fieldNeed g).foldl
    (fun x g => x.postAtOnce (x.time + 1) (.crucibleReclaim g)) s

/-- Tokens have reached a field's pool: floors are served before every waiter (R437), then the waiting list (R440), and lenders
that need their tokens back follow (R446). -/
def State.serveField (s : State) (f : Nat) : State :=
  let s1 := s.serveFloors f (s.darkWaiting f)
  let s2 := s1.serveList f ((s1.field f).waiters.length)
  (if (s2.field f).waiters.isEmpty then s2 else s2.postOnce (.crucibleTopup f)).reclaimTurns f

/-! ### The Crucible (R446) -/

/-- Least multiple of 8 that is not below n. -/
def up8 (n : Nat) : Nat := (n + 7) / 8 * 8

/-- Greatest multiple of 8 that is not above n. -/
def down8 (n : Nat) : Nat := n / 8 * 8

/-- Crucible allowance of a partition: ALLOW stands in its PCB, which is read each time (R485; log 70). -/
def State.allowOf (s : State) (p : Partition) : Nat := bits (s.dwAt (p.pcb.toNat + 0x38)) 31 0

/-- Fields of the partition that may give free tokens to field `f`. -/
def State.giversOf (s : State) (f : Nat) : List Nat :=
  match s.partOfField f with
  | some (_, p) => (p.fields.map (·.1)).filter (· != f)
  | none => []

/-- Tokens that the Crucible could move to field `f` now, within the allowance. -/
def State.canTop (s : State) (f : Nat) : Nat :=
  match s.partOfField f with
  | some (_, p) =>
    min (down8 (s.allowOf p - p.topped)) (down8 s.reserve + ((s.giversOf f).map fun g => down8 (s.field g).free).sum)
  | none => 0

/-- Tokens taken from other fields, field by field, as field loans. -/
def State.takeFields (s : State) (f : Nat) : List Nat → Nat → State
  | [], _ => s
  | g :: t, n =>
    let m := min n (down8 (s.field g).free)
    if m = 0 then s.takeFields f t n
    else
      let s1 := (s.modField g fun x => { x with free := x.free - m }).addFree f m
      { s1 with fieldLoans := { lender := g, borrower := f, amount := m } :: s1.fieldLoans }.takeFields f t (n - m)

/-- A top-up of `n` tokens, a multiple of 8: from the reserve, then from other fields. -/
def State.topUp (s : State) (f n : Nat) : State :=
  let a := min n (down8 s.reserve)
  let s1 := s.modField f fun x => { x with free := x.free + a, total := x.total + a, raised := x.raised + a }
  let s2 := s1.takeFields f (s.giversOf f) (n - a)
  match s.partOfField f with
  | some (k, _) => s2.modPart k fun p => { p with topped := p.topped + n }
  | none => s2

/-- A top-up that makes the free tokens cover `need`, whole or not at all. -/
def State.topWhole (s : State) (f need : Nat) : Option State :=
  let short := up8 (need - (s.field f).free)
  if short ≤ s.canTop f then some (s.topUp f short) else none

/-- Highest resident PRIO of a tile. -/
def State.residentPrio (s : State) (t : Nat) : Nat := ((s.homed t).map (·.prio)).foldl max 0

/-- Tiles of a field in the order in which they give (R446): lowest resident PRIO first, then the most recent grant.
Tiles that agree in both give in ascending number: DESIGN CHOICE (log 27). -/
def State.givingOrder (s : State) (f : Nat) : List Nat :=
  sortBy (fun a b => s.residentPrio a < s.residentPrio b ||
      (s.residentPrio a = s.residentPrio b && (s.tile b).granted < (s.tile a).granted))
    (((upto 16).map fun i => f * 16 + i).filter fun t => 0 < (s.tile t).grant)

/-- Tokens of a tile's GRANT that notices have not claimed yet. -/
def State.unclaimed (s : State) (t : Nat) : Nat :=
  (s.tile t).grant - (((s.tile t).notices.filter fun n => n.core.isNone).map (·.amount)).sum

/-- A notice to a tile. -/
def State.notify (s : State) (t : Nat) (n : Notice) : State :=
  if n.amount = 0 then s
  else (s.modTile t fun x => { x with notices := x.notices ++ [n] }).postOnce (.revocationNotice t)

/-- Notices for `n` tokens to tiles in order, each giving what `avail` says; what is left. -/
def State.revokeFrom (s : State) (avail : State → Nat → Nat) (dest : Holder) : List Nat → Nat → State × Nat
  | [], n => (s, n)
  | t :: r, n =>
    let m := min n (avail s t)
    (s.notify t { amount := m, dest := dest }).revokeFrom avail dest r (n - m)

/-- Own tokens of a tile that notices have claimed; a recall claims borrowed ones. -/
def State.ownClaimed (s : State) (t : Nat) : Nat :=
  (((s.tile t).notices.filter fun n => n.core.isNone && match n.dest with
    | .tile _ => false
    | _ => true).map (·.amount)).sum

/-- Own tokens of a tile that may be revoked: those that no notice has claimed, above the committed amount or all of them. -/
def State.giveable (s : State) (t : Nat) : Nat := min (s.unclaimed t) (s.ownGrant t - s.ownClaimed t)
def State.spare (s : State) (t : Nat) : Nat := min (s.giveable t) (s.unclaimed t - s.committed t)

/-- Tokens of a lease that notices have not claimed yet. -/
def State.leaseLeft (s : State) (c : Nat) : Nat :=
  (s.core c).lease - (((s.tile (tileOfCore c)).notices.filter fun n => n.core = some c).map (·.amount)).sum

/-- Notices for leases of a field's cores, in the order of the list: ascending numbers, DESIGN CHOICE, R547 orders tiles alone
(log 27). -/
def State.revokeLeases (s : State) (dest : Holder) : List Nat → Nat → State × Nat
  | [], n => (s, n)
  | c :: r, n =>
    let m := min n (s.leaseLeft c)
    (s.notify (tileOfCore c) { amount := m, core := some c, dest := dest }).revokeLeases dest r (n - m)

/-- Revocation of `n` tokens from the tiles of a field (R446): engine grants above the committed amounts, then below them,
then, where `leases` says so, vector leases. -/
def State.revokeField (s : State) (f n : Nat) (dest : Holder) (leases : Bool) : State × Nat :=
  let order := s.givingOrder f
  let (s1, n1) := s.revokeFrom State.spare dest order n
  let (s2, n2) := s1.revokeFrom State.giveable dest order n1
  if leases then s2.revokeLeases dest ((upto 256).map fun i => f * 256 + i) n2 else (s2, n2)

/-- The first loan of a list that equals `l` has the amount `n`; none is left of one of 0. -/
def setLoan (l : Loan) (n : Nat) : List Loan → List Loan
  | [] => []
  | x :: t => if x = l then (if n = 0 then t else { x with amount := n } :: t) else x :: setLoan l n t

/-- Loans of a lender to a borrower reduced by `n`, newest first. -/
def cutLoans (b l : Nat) : List Loan → Nat → List Loan
  | [], _ => []
  | x :: t, n =>
    if x.borrower = b && x.lender = l then
      (if x.amount ≤ n then cutLoans b l t (n - x.amount) else { x with amount := x.amount - n } :: t)
    else x :: cutLoans b l t n

/-- What a lender's loans to a borrower come to. -/
def loansBetween (b l : Nat) (ls : List Loan) : Nat := ((ls.filter fun x => x.borrower = b && x.lender = l).map (·.amount)).sum

/-- The partition's tokens under its allowance fall. -/
def State.untop (s : State) (f n : Nat) : State :=
  match s.partOfField f with
  | some (k, _) => s.modPart k fun p => { p with topped := p.topped - n }
  | none => s

/-- `n` tokens of field `b`'s loans from field `l` have come back: the loans are lower, and less stands under the allowance. -/
def State.settleLoans (s : State) (l b n : Nat) : State :=
  let s1 := s.untop b (min n (loansBetween b l s.fieldLoans))
  { s1 with fieldLoans := cutLoans b l s1.fieldLoans n }

/-- `n` tokens of field `f`'s total have reached the reserve; those that top-ups brought from it go first (log 59). -/
def State.toReserve (s : State) (f n : Nat) : State :=
  let m := min n (s.field f).raised
  (s.modField f fun x => { x with total := x.total - n, raised := x.raised - m }).untop f m

/-- Tokens that notices take from the tiles of a field for the holders that `to` names. -/
def State.underWay (s : State) (f : Nat) (goes : Holder → Bool) : Nat :=
  ((((upto 16).flatMap fun i => (s.tile (f * 16 + i)).notices ++ (s.tile (f * 16 + i)).taken).filter fun n => goes n.dest).map
    (·.amount)).sum

/-- Tokens of field `b`'s loans from field `l` that notices take back already. -/
def State.reclaiming (s : State) (l b : Nat) : Nat := s.underWay b fun h => h = .pool l || h = .reserve l

/-- A field loan taken back for `n` tokens (R446): first from the borrowing field's free tokens, in multiples of 8, then by
revocation, which settles the loan when the tokens arrive. `claimed` of it is on its way already. What a multiple of 8 takes beyond
`n` for the reserve goes to the lender's pool (R547). What is not covered. -/
def State.reclaimLoan (s : State) (l : Loan) (claimed n : Nat) (dest : Holder) : State × Nat :=
  let m := min (up8 n) (l.amount - claimed)
  let a := min m (down8 (s.field l.borrower).free)
  let s1 := (s.modField l.borrower fun x => { x with free := x.free - a }).settleLoans l.lender l.borrower a
  match dest with
  | .reserve f =>
    let r := min n a
    let s2 := (s1.toReserve f r).addFree f (a - r)
    let q := s2.revokeField l.borrower (min (n - r) (m - a)) dest true
    let z := q.1.revokeField l.borrower (m - a - (n - r)) (.pool f) true
    (z.1, n - (m - q.2 - z.2))
  | .pool f =>
    let q := (s1.addFree f a).revokeField l.borrower (m - a) dest true
    (q.1, n - (m - q.2))
  | .tile _ => (s, n)

/-- Field loans of a list reclaimed, until `n` tokens are covered (R446); what is not. The list is newest first: DESIGN CHOICE
(log 27). `out` gives, for each lender and borrower, what notices take back of the loans that are left. -/
def State.reclaimAll (s : State) (dest : Loan → Holder) (out : Nat → Nat → Nat) : List Loan → Nat → State × Nat
  | [], n => (s, n)
  | l :: t, n =>
    if n = 0 then (s, 0)
    else
      let claimed := min (out l.lender l.borrower) l.amount
      let q := s.reclaimLoan l claimed n (dest l)
      q.1.reclaimAll dest (fun a b => if a = l.lender && b = l.borrower then out a b - claimed else out a b) t q.2

/-! ### Returns (R438, R443) -/

/-- `n` tokens of a loan back to its lender: to its GRANT up to its cap while it is lit, else to its field's pool. -/
def State.backToLender (s : State) (lender n : Nat) : State :=
  let t := s.tile lender
  let a := if t.lit then min n (tileCost lender 7 - t.grant) else 0
  (s.modTile lender fun x => { x with grant := x.grant + a }).addFree (fieldOfTile lender) (n - a)

/-- `n` borrowed tokens of a tile returned, newest loan first; what is left to return. -/
def State.returnLoans (s : State) (t : Nat) : List Loan → Nat → State × Nat
  | [], n => (s, n)
  | l :: r, n =>
    if n = 0 || l.borrower != t then s.returnLoans t r n
    else
      let m := min n l.amount
      let s1 := (s.backToLender l.lender m).modTile t fun x => { x with grant := x.grant - m }
      ({ s1 with loans := setLoan l (l.amount - m) s1.loans } : State).returnLoans t r (n - m)

/-- `k` tokens of a tile's GRANT returned: borrowed first, then own tokens to the pool (R452). -/
def State.returnGrant (s : State) (t k : Nat) : State :=
  let (s1, n) := s.returnLoans t s.loans k
  (s1.modTile t fun x => { x with grant := x.grant - n }).addFree (fieldOfTile t) n

/-- Pools that a return may have reached are served. -/
def State.serveFields (s : State) : List Nat → State
  | [] => s
  | f :: t => (s.serveField f).serveFields t

/-- Fields of a tile and of its lenders. -/
def State.touchedFields (s : State) (t : Nat) : List Nat :=
  (fieldOfTile t :: (s.loans.filter fun l => l.borrower = t).map fun l => fieldOfTile l.lender).dedup

/-- Loans of a tile that turns dark pass to their borrowers outright (R443). A loan to another field moves between totals. -/
def State.convertLoans (s : State) (t : Nat) : State :=
  let gone := s.loans.filter fun l => l.lender = t
  let s1 := { s with loans := s.loans.filter fun l => l.lender != t }
  gone.foldl (fun x l =>
    let a := fieldOfTile t
    let b := fieldOfTile l.borrower
    if a = b then x
    else (x.modField a fun y => { y with total := y.total - l.amount }).modField b fun y => { y with total := y.total + l.amount }) s1

/-- A core's whole lease back to its field's pool (R434). -/
def State.returnLease (s : State) (c : Nat) : State :=
  let n := (s.core c).lease
  (s.modCore c fun x => { x with lease := 0 }).addFree (c / 256) n

/-- A tile returns every lease and its floor and becomes dark, its loans converted (R438, R443). -/
def State.darken (s : State) (t : Nat) : State :=
  let s1 := ((upto 16).map fun i => t * 16 + i).foldl State.returnLease s
  let s2 := if (s1.tile t).lit then s1.addFree (fieldOfTile t) floorTokens else s1
  let s3 := (((upto 16).map fun i => t * 16 + i).foldl (fun x c => x.modCore c fun y => { y with leaseAsk := 0 })
    (s2.modTile t fun x => { x with lit := false })).convertLoans t
  if (s3.tile t).bucket.suspect then s3.postOnce (.wholeCoreAssay t true) else s3

/-- TASK_END_RETURN (R438): a tile keeps what its remaining records may need, and returns the rest. -/
def execTaskEndReturn (tile : Nat) (s : State) : Host.Outcome State Fault Refusal :=
  let us := s.homed tile
  let keep := if us.isEmpty then 0 else tileCost tile ((us.map (·.cls)).foldl max 0)
  let fs := s.touchedFields tile
  let s1 := s.returnGrant tile ((s.tile tile).grant - keep)
  let s2 := if us.isEmpty then s1.darken tile else s1
  .next (s2.serveFields fs)

/-- The tokens of a tile that is retired: what it has borrowed goes back to its lenders' pools (R443), the rest to its own field's,
and the tile is dark from here on (R433, R505). -/
def State.retireTokens (s : State) (t : Nat) : State :=
  let fs := s.touchedFields t
  let own := s.ownGrant t
  let s1 := (s.loans.filter fun l => l.borrower = t).foldl (fun x l => x.addFree (fieldOfTile l.lender) l.amount) s
  let s2 := { (s1.modTile t fun x => { x with grant := 0 }) with loans := s1.loans.filter fun l => l.borrower != t }
  ((s2.addFree (fieldOfTile t) own).darken t).serveFields fs

/-! ### Floors and placement grants (R437) -/

/-- FLOOR_REQUEST (R437): a dark tile gets its floor before every waiter. A floor that cannot be served has field loans
reclaimed (R446). -/
def execFloorRequest (tile : Nat) (s : State) : Host.Outcome State Fault Refusal :=
  let f := fieldOfTile tile
  if s.awake tile || !(s.tile tile).good then .next s
  else if floorTokens ≤ (s.field f).free then
    .next (s.lightTile tile)
  else .next (if s.fieldLoans.any fun l => l.lender = f then s.postOnce (.crucibleReclaim f) else s)

/-- PLACEMENT_GRANT (R437): whole or not at all, and not before a waiter of equal or higher PRIO. -/
def execPlacementGrant (tile task : Nat) (s : State) : Host.Outcome State Fault Refusal :=
  match tget s.tasks task with
  | none => .next s
  | some ta =>
    let f := fieldOfTile tile
    let want := tileCost tile (classOf ta) - (s.tile tile).grant
    let prio := bits ta.header[2] 10 8
    if !(s.tile tile).lit || want = 0 || (s.field f).waiters.any (fun w => prio ≤ s.waiterPrio w) || (s.field f).free < want then
      .next s
    else .next ((s.modField f fun x => { x with free := x.free - want }).addGrant tile want)

/-! ### Leave (R439) and recalls (R444) -/

/-- Tokens of the loans of lender `t` to a tile that notices already recall. -/
def State.recalled (s : State) (t b : Nat) : Nat :=
  (((s.tile b).notices.filter fun x => x.dest = .tile t).map (·.amount)).sum

/-- Recalls of a lender's loans, newest first, for up to `n` tokens; what they do not cover. `out` gives, for each borrower, what
earlier notices recall of the loans that are left. -/
def State.recallLoans (s : State) (t : Nat) (out : Nat → Nat) : List Loan → Nat → State × Nat
  | [], n => (s, n)
  | l :: r, n =>
    if n = 0 || l.lender != t then s.recallLoans t out r n
    else
      let claimed := min (out l.borrower) l.amount
      let m := min n (l.amount - claimed)
      (s.notify l.borrower { amount := m, dest := .tile t }).recallLoans t
        (fun b => if b = l.borrower then out b - claimed else out b) r (n - m)

/-- A strand joins the waiting list of its field (R440). -/
def State.joinList (s : State) (f : Nat) (w : TokWait) : State :=
  let s1 := ((s.modField f fun x => { x with waiters := x.waiters ++ [w] }).postAt (s.time + agingStep) (.aging w.uid)).relinkWaits w.uid
  if s1.fieldLoans.any fun l => l.lender = f then s1.postOnce (.crucibleReclaim f) else s1

/-- Leave refused: the strand suspends with WAIT = 3 and WAITV the shortfall, and waits on the list (R439). -/
def State.refuseLeave (s : State) (k u t short : Nat) : State :=
  (((s.rewind k).modSlot k fun sl => { sl with leave := false }).suspend k .token 0 (BitVec.ofNat 64 short)).joinList (fieldOfTile t)
    { uid := u, tile := t, amount := short }

/-- Leave granted: the instruction goes on. -/
def State.grantLeave (s : State) (k t n : Nat) : State :=
  (((s.modField (fieldOfTile t) fun x => { x with free := x.free - n }).addGrant t n).modSlot k fun sl =>
    { sl with leave := false }).postSlot k

/-- LEAVE_REQUEST (R439): the broker answers the heavy instruction of a slot. -/
def execLeaveRequest (slot : Nat) (s : State) : Host.Outcome State Fault Refusal :=
  match tget s.slots slot with
  | none => .next s
  | some sl =>
    match tget s.strands sl.uid with
    | none => .next s
    | some t =>
      if !sl.leave then .next s
      else
        let tl := tileOfSlot slot
        let f := fieldOfSlot slot
        let short := tileCost tl t.cls - (s.tile tl).grant
        if short = 0 then .next ((s.modSlot slot fun x => { x with leave := false }).postSlot slot)
        else if s.holdIn f then .next (s.refuseLeave slot sl.uid tl short)
        else if short ≤ (s.field f).free then .next (s.grantLeave slot tl short)
        else if 0 < s.lent tl then
          let (s1, rest) := s.recallLoans tl (s.recalled tl) s.loans short
          let (s2, rest2) :=
            if rest = 0 then (s1, 0)
            else
              match s1.topWhole f rest with
              | some y => (((y.modField f fun x => { x with free := x.free - rest }).addGrant tl rest).serveField f, 0)
              | none => (s1, rest)
          let s3 := ((s2.rewind slot).modSlot slot fun x => { x with leave := false }).suspend slot .token 0 (BitVec.ofNat 64 short)
          let s4 := (s3.modTile tl fun x => { x with recalls := x.recalls ++ [{ uid := sl.uid, rest := rest2 }] }).postOnce
            (.recallComplete tl)
          .next (if rest2 = 0 then s4 else s4.joinList f { uid := sl.uid, tile := tl, amount := rest2 })
        else
          match s.topWhole f short with
          | some y => .next ((y.grantLeave slot tl short).serveField f)
          | none => .next (s.refuseLeave slot sl.uid tl short)

/-- Tokens recalled for a tile are still on their way. -/
def State.recallsOut (s : State) (t : Nat) : Bool :=
  s.tiles.any fun e => (e.2.notices ++ e.2.taken).any fun n => n.dest = .tile t

/-- RECALL_COMPLETE (R444): the recalled tokens have arrived. A strand that waits for a remainder stays on the waiting list. -/
def execRecallComplete (tile : Nat) (s : State) : Host.Outcome State Fault Refusal :=
  if s.recallsOut tile then .next s
  else
    let rs := (s.tile tile).recalls
    let s1 := s.modTile tile fun x => { x with recalls := [] }
    .next (rs.foldl (fun x r => if r.rest = 0 then x.makeReady r.uid else x) s1)

/-! ### Revocation (R445) -/

/-- One notice taken: GRANT, or a lease, is lower from here on. -/
def State.takeNotice (s : State) (t : Nat) (n : Notice) : State :=
  match n.core with
  | some c =>
    let m := min n.amount (s.core c).lease
    (s.modCore c fun x => { x with lease := x.lease - m }).modTile t fun x => { x with taken := x.taken ++ [{ n with amount := m }] }
  | none =>
    let lim := match n.dest with
      | .tile l => ((s.loans.filter fun x => x.borrower = t && x.lender = l).map (·.amount)).sum
      | _ => (s.tile t).grant
    let m := min n.amount (min lim (s.tile t).grant)
    let s1 := s.modTile t fun x => { x with grant := x.grant - m, taken := x.taken ++ [{ n with amount := m }] }
    match n.dest with
    | .tile l => { s1 with loans := cutLoans t l s1.loans m }
    | _ => s1

/-- The notices of a tile that `due` names are taken. -/
def State.takeNotices (s : State) (tile : Nat) (due : Notice → Bool) : State :=
  let l := (s.tile tile).notices
  if l.any due then
    ((l.filter due).foldl (fun x n => x.takeNotice tile n)
      (s.modTile tile fun t => { t with notices := l.filter fun n => !due n })).postOnce (.revocationComplete tile)
  else s

/-- Tokens revoked from a tile of field `b` move to their new holder; a field loan that they are of is settled. -/
def State.arrive (b : Nat) (s : State) (n : Notice) : State :=
  match n.dest with
  | .tile l => (s.backToLender l n.amount).postOnce (.recallComplete l)
  | .pool f => (s.settleLoans f b n.amount).addFree f n.amount
  | .reserve f => (s.settleLoans f b n.amount).toReserve f n.amount

/-- Pools that notices reach. -/
def noticePools (l : List Notice) : List Nat :=
  (l.filterMap fun n => match n.dest with
    | .tile t => some (fieldOfTile t)
    | .pool f => some f
    | .reserve _ => none).dedup

/-- REVOCATION_COMPLETE (R445): the tokens move. -/
def execRevocationComplete (tile : Nat) (s : State) : Host.Outcome State Fault Refusal :=
  let l := (s.tile tile).taken
  .next ((l.foldl (State.arrive (fieldOfTile tile)) (s.modTile tile fun x => { x with taken := [] })).serveFields (noticePools l))

/-! ### Acts of the Crucible -/

/-- CRUCIBLE_TOPUP (R446): the shortfall of the head of a field's waiting list is supplied whole, or it waits. -/
def execCrucibleTopup (field : Nat) (s : State) : Host.Outcome State Fault Refusal :=
  if s.holdIn field then .next s
  else
    match s.headWaiter (s.field field).waiters with
    | none => .next s
    | some w =>
      match s.topWhole field w.amount with
      | some y => .next (y.serveField field)
      | none => .next s

/-- CRUCIBLE_RECLAIM (R446): a field that needs its tokens back has its loans to other fields reclaimed, newest first, for what
is not on its way yet. Where nothing can be taken now, it comes again as tokens reach the borrowing field's pool. -/
def execCrucibleReclaim (field : Nat) (s : State) : Host.Outcome State Fault Refusal :=
  let coming := ((s.fieldLoans.filter fun l => l.lender = field).map (·.borrower)).dedup.map (s.reclaiming field)
  let n := s.fieldNeed field - coming.sum
  let q := s.reclaimAll (fun _ => .pool field) s.reclaiming (s.fieldLoans.filter fun l => l.lender = field) n
  if n = 0 || q.2 = n then .next s else .next (q.1.serveField field)

/-! ### Vector leases (R434) -/

/-- LEASE_REQUEST (R434): whole, partial or refused. A core that no longer holds a strand, or whose tile is dark, gets nothing. -/
def execLeaseRequest (core : Nat) (s : State) : Host.Outcome State Fault Refusal :=
  let c := s.core core
  let f := core / 256
  if c.leaseAsk = 0 then .next s
  else
    let held := (s.slots.any fun e => coreOfSlot e.1 = core) && (s.tile (tileOfCore core)).lit
    let open_ := held && (s.field f).waiters.isEmpty && !s.holdIn f
    let got := if open_ then min c.leaseAsk (s.field f).free else 0
    let short := got < c.leaseAsk
    .next ((s.modField f fun x => { x with free := x.free - got }).setCore core
      { c with lease := c.lease + got, leaseAsk := 0, refused := if short then some (s.cycleOf core) else none })

/-- Cycles without a start after which a core returns its lease (R434). -/
def leaseIdle : Nat := 4096

/-- LEASE_IDLE_RETURN (R434). A core that has not been idle for so long is looked at again when it will have been: a stretched
clock makes its cycles longer. -/
def execLeaseIdleReturn (core : Nat) (s : State) : Host.Outcome State Fault Refusal :=
  let held := s.slots.any fun e => coreOfSlot e.1 = core
  if (s.core core).lease != 0 && (!held || (s.core core).started + leaseIdle ≤ s.cycleOf core) then
    .next ((s.returnLease core).serveField (core / 256))
  else if (s.core core).lease = 0 then .next s
  else .next (s.postAtOnce (max (s.time + 1) (s.cycleEnds core ((s.core core).started + leaseIdle))) (.leaseIdleReturn core))

/-! ### Droop holds (R448) -/

/-- Sense events that start a hold, the span that they are counted over, and the span that ends it, in nanoseconds. -/
def holdLimit : Nat := 64
def holdWindow : Nat := 10000
def holdQuiet : Nat := 20000

/-- A sense event reaches a field's broker. -/
def State.senseAtBroker (s : State) (f : Nat) : State :=
  let fd := s.field f
  let l := s.time :: fd.senses.filter fun t => s.time < t + holdQuiet
  let n := (l.filter fun t => s.time < t + holdWindow).length
  let start := holdLimit < n && fd.hold.isNone
  let s1 := s.setField f { fd with
    senses := l
    hold := if start then some s.time else fd.hold
    holds := if start then fd.holds + 1 else fd.holds }
  if (s1.field f).hold.isSome then s1.postAt (s.time + holdQuiet) (.droopHoldExit f) else s1

/-- DROOP_HOLD_EXIT (R448): 20 µs have passed with 64 or fewer sense events. -/
def execDroopHoldExit (field : Nat) (s : State) : Host.Outcome State Fault Refusal :=
  let fd := s.field field
  match fd.hold with
  | none => .next s
  | some t0 =>
    let l := fd.senses.filter fun t => s.time < t + holdQuiet
    if t0 + holdQuiet ≤ s.time && l.length ≤ holdLimit then
      .next ((s.setField field { fd with hold := none, senses := l }).serveField field)
    else .next s

/-! ### Instructions (R449 to R454) -/

/-- A token instruction on a gateway core raises ENGINE (R449). -/
def Env.tokenTile (e : Env) : Res Unit := faultIf (tileKind e.tile = .gateway) .engine e.w

/-- Status words (Table 17.3). -/
def tokOk (n : Nat) : Word := BitVec.ofNat 64 (n * 256)
def tokPartial (n : Nat) : Word := BitVec.ofNat 64 (n * 256 + 5)
def tokRefused (r : Nat) : Word := BitVec.ofNat 64 (r * 256 + 2)

/-- TREQ (R451). -/
def opTreq (d a : Reg) (all : Bool) : Op := fun e s => do
  e.tokenTile
  let t := e.tile
  let f := e.fld
  let done := fun (s1 : State) (w : Word) => (.ok (e.put s1 (e.st.putS d w)) : Res State)
  let want := min (e.st.scalar a).toNat (tileCost t e.st.cls - (s.tile t).grant)
  if want = 0 then done s (tokOk 0)
  else if s.holdIn f then done s (tokRefused 1)
  else if (s.field f).waiters.any fun w => e.st.prio ≤ s.waiterPrio w then done s (tokRefused 2)
  else
    let free := (s.field f).free
    let top := min (up8 (want - free)) (s.canTop f)
    let got := min want (free + top)
    if got < want && (all || got = 0) then done s (tokRefused 0)
    else
      let s1 := if top = 0 then s else s.topUp f top
      let s2 := (s1.modField f fun x => { x with free := x.free - got }).addGrant t got
      done (if top = 0 then s2 else s2.serveField f) (if got = want then tokOk got else tokPartial got)

/-- TREL (R452). -/
def opTrel (d a : Reg) : Op := fun e s => do
  e.tokenTile
  let k := min (e.st.scalar a).toNat (s.tile e.tile).grant
  let fs := s.touchedFields e.tile
  return ((e.put s (e.st.putS d (BitVec.ofNat 64 k))).returnGrant e.tile k).serveFields fs

/-- The tile that TLEND names (R453). -/
def Env.lendTarget (e : Env) (s : State) (a : Word) : Res Nat :=
  match e.p.phys (bits a 15 10) with
  | none => failWith .badaddr a
  | some f =>
    let t := f * 16 + bits a 9 6
    if 11 < bits a 9 6 || !(s.tile t).good then failWith .badaddr a else .ok t

/-- TLEND (R453). -/
def opTlend (d a b : Reg) : Op := fun e s => do
  e.tokenTile
  let t := e.tile
  let done := fun (s1 : State) (w : Word) => (.ok (e.put s1 (e.st.putS d w)) : Res State)
  let dst ← e.lendTarget s (e.st.scalar a)
  let n := (e.st.scalar b).toNat
  if n = 0 then done s (tokOk 0)
  else if dst = t then done s (tokRefused 5)
  else if s.holdIn e.fld || s.holdIn (fieldOfTile dst) then done s (tokRefused 1)
  else if !(s.tile dst).lit then done s (tokRefused 3)
  else if s.lendable t < n then done s (tokRefused 0)
  else if tileCost dst 7 < (s.tile dst).grant + n then done s (tokRefused 4)
  else
    let s1 := (s.modTile t fun x => { x with grant := x.grant - n }).addGrant dst n
    done { s1 with loans := { lender := t, borrower := dst, amount := n } :: s1.loans } (tokOk n)

/-- TSTAT (R454, Table 17.4). -/
def opTstat (d : Reg) (item : Nat) : Op := fun e s => do
  e.tokenTile
  let t := e.tile
  let v := match item with
    | 0 => (s.tile t).grant
    | 1 => (s.field e.fld).free
    | 2 => s.lent t
    | 3 => s.borrowed t
    | 4 => ((upto 16).map fun i => (s.core (t * 16 + i)).lease).sum
    | 5 => (s.field e.fld).waiters.length
    | 6 => effClass (tileKind t) (s.tile t).grant e.st.cls
    | 7 => tileCost t e.st.cls
    | _ => (s.field e.fld).holds.toNat
  return e.put s (e.st.putS d (BitVec.ofNat 64 v))

/-- TREQ (R451). -/
def execTreq (k : Ctl) (d a : Reg) (all : Bool) (s : State) : Host.Outcome State Fault Refusal :=
  runWord (.treq k d a all) k (opTreq d a all) s

/-- TREL (R452). -/
def execTrel (k : Ctl) (d a : Reg) (s : State) : Host.Outcome State Fault Refusal := runWord (.trel k d a) k (opTrel d a) s

/-- TLEND (R453). -/
def execTlend (k : Ctl) (d a b : Reg) (s : State) : Host.Outcome State Fault Refusal :=
  runWord (.tlend k d a b) k (opTlend d a b) s

/-- TSTAT (R454). -/
def execTstat (k : Ctl) (d : Reg) (item : Fin 9) (s : State) : Host.Outcome State Fault Refusal :=
  runWord (.tstat k d item) k (opTstat d item.val) s

end Sys2Proof.Machine
end

