-- ==== Sys2Proof/Machine/Engine.lean ====
section
/-! DEFINITION. Sys2Proof/Machine/Engine.lean: what the engines of all tiles share: operand reads with zero substitution (R325,
R326), result elements, the issue of an engine instruction, its leave check, its stop and its resume record (R301, R320 to
R324, R254). -/

namespace Sys2Proof.Machine

/-! ### Reading and writing -/

/-- Work of an engine: the state, and whether an operand element was replaced by zero. -/
abbrev Eng := StateT (State × Bool) (Except Stop)

/-- A request of an engine instruction. -/
def Job.req (j : Job) (p : Partition) (va : Word) (acc : Acc) : Req :=
  { part := j.part, ctx := j.ctx, gen := p.genOf j.ctx (coreOfSlot j.k), va := va, acc := acc }

/-- The place of an access: ranks 2 to 5 of Table 4.3; TIMEOUT where it has had no reply (R173, R176). -/
def engPlace (j : Job) (va : Word) (acc : Acc) : Eng Nat := fun (s, z) =>
  match tget s.parts j.part with
  | none => failWith .badaddr va
  | some p =>
    match s.place j.user (j.req p va acc) with
    | .ok (s1, pa) => if replyNow s.time j.lost = .timeout then failWith .timeout va else .ok (pa, (s1, z))
    | .error x => .error x

/-- `n` bytes of an operand, within one line, and which of them are lost (R383); Assay follows a lost word (R296, R380). -/
def engRead (j : Job) (va : Word) (n : Nat) : Eng (Nat × List Bool) := do
  let pa ← engPlace j va .read
  let (s, z) ← get
  if isPad pa then
    let lost := (upto n).map fun i => s.lostAt (pa + i) 1
    if lost.contains true then set (s.assayAt pa, z)
    return (s.valAt pa n, lost)
  else
    let (s1, v, d) := s.fillLine (fieldOfSlot j.k) va j.ctx (match tget s.parts j.part with
      | some p => p.genOf j.ctx (coreOfSlot j.k)
      | none => 0) pa
    let lost := (upto n).map fun i => !v.getLsbD ((va.toNat % 128 + i) / 4)
    set ((if lost.contains true then s1.assayAt pa else s1), z)
    return (lineGet d (va.toNat % 128) n, lost)

/-- A read that is no operand read: UNCORR where bytes are lost. -/
def engExact (j : Job) (va : Word) (n : Nat) : Eng Nat := do
  let (v, l) ← engRead j va n
  if l.contains true then failWith .uncorr va else return v

/-- A result element, its page translated and checked (R320). -/
def engWrite (j : Job) (va : Word) (n v : Nat) : Eng StoreElem := do
  let pa ← engPlace j va .write
  return { va := va, pa := pa, bytes := bytesOf n v }

/-- The writer that the writes of an instruction name (R500, R501). -/
def Job.writer (j : Job) : Writer :=
  { fld := some (fieldOfSlot j.k), task := some j.task, ctx := j.ctx, part := j.part, tpc := j.tpc, hdr := j.hdr,
    pcoord := pcoordOf j.k, index := j.taskid.setWidth 32 }

/-- Result elements written at their home slices (R318). -/
def State.putElems (s : State) (w : Writer) (l : List StoreElem) : State :=
  l.foldl (fun x e => x.homeWrite w e.va e.pa e.bytes) s

/-! ### Zero substitution (R325, R326) -/

/-- Entries of a tile's zero-substitution log. -/
def zlogSize : Nat := 256

/-- One entry of the log (Table 12.6). -/
def State.logZero (s : State) (j : Job) (role id : Nat) (exp : Bool) (mask c1 c0 : Nat) : State :=
  let tile := tileOfSlot j.k
  let t := s.tile tile
  let what := mask % 2 ^ 32 * 2 ^ 32 + t.zseq.toNat * 2 ^ 16 + (if exp then 2 ^ 14 else 0) + role * 2 ^ 12 + id
  let ent := [BitVec.ofNat 64 s.time, j.taskid, BitVec.ofNat 64 what, BitVec.ofNat 64 (c1 % 2 ^ 32 * 2 ^ 32 + c0 % 2 ^ 32)]
  (s.arenaPut j.part (t.zbase + BitVec.ofNat 64 (32 * t.zhead)) (ent.flatMap fun w => bytesOf 8 w.toNat)).setTile tile
    { t with zhead := (t.zhead + 1) % zlogSize, zseq := t.zseq + 1 }

/-- A block of elements as read: their values, the block itself of a BFP tensor, and what was replaced. -/
structure Piece where
  vals : List Fp
  blk  : Block
  deriving DecidableEq, Repr

/-- The replaced elements of a block noted. -/
def engLog (j : Job) (role id : Nat) (exp : Bool) (mask c1 c0 : Nat) : Eng Unit := do
  if exp || mask != 0 then
    let (s, _) ← get
    set (s.logZero j role id exp mask c1 c0, true)

/-- The format of a tensor that is a floating-point format. -/
def fpOfFmt : Nat → Option FpFmt
  | 0 => some .fp32 | 1 => some .fp64 | 2 => some .fp16 | 3 => some .bf16 | 4 => some .e4m3 | 5 => some .e5m2 | _ => none

/-- The exact value of an element's pattern, for every format but BFP. -/
def elemFp (f x : Nat) : Fp :=
  match fpOfFmt f with
  | some g => readFp g x
  | none =>
    let v : Int := if f = 7 then x else sextN x (8 * fmtBytes f)
    .fin (v < 0) v.natAbs 0

def bitsOf (l : List Bool) : Nat := packN 1 (l.map fun b => if b then 1 else 0)

/-- Elements of a format other than BFP, at most 32, at the addresses that `va` gives, the first being element `lo` of its
block of 32; `c1` and `c0` are the COORD of the block's first element. -/
def readElems (j : Job) (f : Nat) (va : Nat → Word) (n lo role id c1 c0 : Nat) : Eng Piece := do
  let l ← (upto n).mapM fun i => do
    let (x, lost) ← engRead j (va i) (fmtBytes f)
    return if lost.contains true then (Fp.fin false 0 0, true) else (elemFp f x, false)
  engLog j role id false (bitsOf (l.map (·.2)) * 2 ^ lo) c1 c0
  return { vals := l.map (·.1), blk := { e := 0, m := [] } }

/-- Block `b` of row (i1, i2, i3) of a tensor: `n` of its 32 elements. -/
def readPiece (j : Job) (x : Entry) (role id b i1 i2 i3 n : Nat) : Eng Piece :=
  if tFmt x = fmtBfp then do
    let w := tW x
    let (ex, le) ← engRead j (tExp x b i1 i2 i3) 1
    let ws ← (upto w).mapM fun i => engRead j (tBlock x b i1 i2 i3 + BitVec.ofNat 64 (4 * i)) 4
    let lost := fun (k : Nat) => ((ws[k]?).map fun y => y.2.contains true).getD false
    let mask := (upto 32).map fun i => lost (w * i / 32) || lost ((w * i + w - 1) / 32)
    let noExp := le.contains true
    let raw := blockOf w ex (packN 32 (ws.map (·.1)))
    let blk : Block :=
      if noExp then { e := 0, m := List.replicate 32 0 }
      else { raw with m := raw.m.mapIdx fun i y => if (mask[i]?).getD false then 0 else y }
    engLog j role id noExp (if noExp then 2 ^ 32 - 1 else bitsOf mask) i1 (32 * b)
    return { vals := (upto n).map fun i => blk.value w i, blk := blk }
  else readElems j (tFmt x) (fun i => tElem x (32 * b + i) i1 i2 i3) n 0 role id i1 (32 * b)

/-- A row of elements, block by block: `n` elements from element 32·b0 on. -/
def readRow (j : Job) (x : Entry) (role id b0 i1 i2 i3 n : Nat) : Eng (List Fp) := do
  let ps ← (upto ((n + 31) / 32)).mapM fun b => readPiece j x role id (b0 + b) i1 i2 i3 (min 32 (n - 32 * b))
  return ps.flatMap (·.vals)

/-- A block as the A pipe delivers it (R315). -/
def pipeA (x : Entry) (p : Piece) : Block := if tFmt x = fmtBfp then p.blk else (quantise 8 p.vals).1

/-- The width that sets the rate of the A pipe. -/
def pipeW (x : Entry) : Nat := if tFmt x = fmtBfp then tW x else 8

/-- A block as the B pipe delivers it: BFP8 (R315). -/
def pipeB (x : Entry) (p : Piece) : Block := if tFmt x = fmtBfp && tW x = 8 then p.blk else (quantise 8 p.vals).1

/-! ### Issue -/

/-- A row-block that has been computed: its writes, the progress after it, its array cycles, the accumulators that stay in the
engine for the next one. -/
structure RowBlock where
  writes : List StoreElem
  next   : Option (Nat × Nat)
  cycles : Nat
  acc    : List (List Nat) := []
  deriving DecidableEq, Repr

/-- Identifiers of the tensors that an instruction names, with their entries (R301): TX, TY, result, value tensor or state. -/
def Env.newJob (e : Env) (i : Instr) (heavy : Bool) (ids : List Nat) : Job :=
  { u := e.u, k := e.k, part := e.pn, ctx := e.ctx, task := e.st.task, user := e.user, instr := i, word := e.w,
    taskid := taskIdOf e.ta e.st.index, tpc := e.st.pc, hdr := e.st.hdr, cls := e.st.cls, heavy := heavy, ids := ids,
    ents := ids.map (e.p.tensor e.ctx) }

def Job.id (j : Job) (n : Nat) : Nat := (j.ids[n]?).getD 0
def Job.ent (j : Job) (n : Nat) : Entry := (j.ents[n]?).getD (Vector.replicate 16 0)

/-- Fields of 16 bits, the first lowest, as a dword. -/
def pack16 (l : List Nat) : Word := BitVec.ofNat 64 (packN 16 l)

/-- PROG of an instruction. -/
def progOf (p : Nat × Nat) : Word := BitVec.ofNat 64 (p.1 % 2 ^ 32 * 2 ^ 32 + p.2 % 2 ^ 32)

/-- Number of the engine in RPROG (Table 12.3). -/
def engCode : Instr → Nat
  | .mm .. | .mmdist .. | .mmtopk .. | .spcomp .. | .spmm .. => 1
  | .attn .. | .attmerge .. | .kvapp .. | .kvlook .. | .ttset .. | .ttmask .. | .ttpos .. | .ttprune .. | .ttclr .. => 2
  | .vemap .. | .vezip .. | .vered .. | .venorm .. | .vesoft .. | .vecvt .. => 3
  | _ => 0

/-- The resume record of an instruction (Tables 12.4, 13.6 and 14.4). -/
def Job.record (j : Job) : List Word :=
  let extra : List Word := match engCode j.instr with
    | 2 => [BitVec.ofNat 64 j.len0, match j.tree with
        | some (t, g) => BitVec.ofNat 64 (2 ^ 19 + t * 2 ^ 16 + g.toNat)
        | none => 0]
    | 3 => [j.parm, 0]
    | _ => [0, 0]
  [j.word, progOf j.pos, pack16 (j.ents.map fun x => (tSerial x).toNat), pack16 j.ids] ++ extra ++ [0, 0]

/-- Bytes of a resume record (R321). -/
def resumeBytes : Nat := 64

/-- The address that RPROG names. -/
def rrec (w : Word) : Word := BitVec.ofNat 64 (w.toNat / 64 * 64)

/-- The record that RPROG names, where it names one (R322). -/
def Env.resumeRecord (e : Env) (s : State) : Res (Option (List Word)) :=
  if bits e.st.rprog 3 0 = 0 then .ok none
  else
    match pinPa e.p (rrec e.st.rprog) with
    | none => failWith .tensor e.w
    | some a => .ok (some (dwordsOf 8 (s.bytesAt a resumeBytes)))

/-- Word `n` of a record. -/
def recWord (r : List Word) (n : Nat) : Word := (r[n]?).getD 0

/-- The comparisons of R322 and R375: OPW, SER, IDS and, for the Planisher, PARM. -/
def Env.checkRecord (e : Env) (j : Job) (r : List Word) : Res Unit :=
  let idx := if engCode j.instr = 3 then [0, 2, 3, 4] else [0, 2, 3]
  faultIf (bits e.st.rprog 3 0 != engCode j.instr || idx.any fun i => recWord r i != recWord j.record i) .tensor e.w

/-- The place where an instruction starts: PROG of its record, or its start (R322). -/
def Env.resumed (e : Env) (s : State) (j : Job) : Res Job := do
  match ← e.resumeRecord s with
  | none => return j
  | some r =>
    e.checkRecord j r
    return { j with pos := (bits (recWord r 1) 63 32, bits (recWord r 1) 31 0) }

/-- ENGINE for CLASS 0 (R323). -/
def Env.heavyClass (e : Env) : Res Unit := faultIf (e.st.cls = 0) .engine e.w

/-- The leave check (R323): the instruction goes on, or asks its broker and waits. -/
def Env.leave (e : Env) (s : State) : Res Unit :=
  if tileCost e.tile e.st.cls ≤ (s.tile e.tile).grant then .ok ()
  else if e.sl.leave then .error .wait
  else .error (.become ((s.modSlot e.k fun x => { x with leave := true }).postOnce (.leaveRequest e.k)))

/-- The record of an instruction that has ended goes back to the arena, and RPROG reads 0 (R321). -/
def Env.freeRecord (e : Env) (s : State) : State :=
  if bits e.st.rprog 3 0 = 0 then s else s.freeArena e.pn (rrec e.st.rprog) resumeBytes

/-- The strand after an engine instruction. -/
def Env.engineDone (e : Env) (z : Bool) : Strand := { e.st with rprog := 0, zsub := e.st.zsub || z }

/-- The instruction of a slot that its tile's engine holds. -/
def Env.job (e : Env) (s : State) : Option Job := (s.tile e.tile).jobs.find? (·.u = e.u)

def State.dropJob (s : State) (tile u : Nat) : State :=
  s.modTile tile fun t => { t with jobs := t.jobs.filter fun j => j.u != u }

/-- The stores of a slot's strand go to their home slices before an engine or a copy engine reads (R254). -/
def Env.bracket (e : Env) (s : State) : State := s.release e.k .tile

/-- An instruction joins the end of the engine's order (R319). -/
def Env.enqueueJob (e : Env) (s : State) (j : Job) : State :=
  (s.modTile e.tile fun t => { t with jobs := t.jobs ++ [j] }).postOnce (.rowBlockStart e.tile)

/-- The resume record of an instruction that stops: the one that it has, or a new one (R321). -/
def Env.takeRecord (e : Env) (s : State) : Option (State × Word) :=
  if bits e.st.rprog 3 0 != 0 then some (s, rrec e.st.rprog) else s.allocArena e.pn resumeBytes resumeBytes true

/-- A stop at a row-block boundary (R320, R321): the record, RPROG, the L1 action, then what stopped it. -/
def Env.stopJob (e : Env) (s : State) (j : Job) (why : State → State) : Res State :=
  match e.takeRecord (s.dropJob e.tile e.u) with
  | none => .error .wait
  | some (s1, a) =>
    let s2 := s1.arenaPut e.pn a (j.record.flatMap fun w => bytesOf 8 w.toNat)
    let t := { e.st with rprog := a ||| BitVec.ofNat 64 (engCode j.instr), zsub := e.st.zsub || j.zsub }
    .error (.become (why ((e.put s2 t).dropClean e.core)))

/-- A fault that an instruction has met at a row-block boundary: its registers and RPROG are as before it issued (R176), the clean
words of the core go (R254). It waits, as every fault does, for what has issued before (R220). -/
def Env.jobFault (e : Env) (s : State) (c : FaultCode) (v : Word) (lost : Bool) : Res State :=
  if e.busy then .error .wait
  else .error (.become (((s.dropJob e.tile e.u).dropClean e.core).raise e.k c v false lost))

/-- What the strand of an instruction that has stopped does. -/
def Env.jobStopped (e : Env) (s : State) (j : Job) : JobStop → Res State
  | .fault c v => e.jobFault s c v false
  | .walkLost v => e.jobFault s .uncorr v true
  | .page va f acc m => e.stopJob s j fun x => x.pageFault e.k va f acc m
  | .tier va f acc en big slot =>
    if s.tierAllowed e.p e.ctx en big then e.stopJob s j fun x => x.tierMiss e.k va f acc en big slot false
    else e.jobFault s .access va false
  | .token => e.stopJob s j fun x =>
      x.refuseLeave e.k e.u e.tile (tileCost e.tile j.cls - (x.tile e.tile).grant)
  | .preempt => e.stopJob s j fun x => x.suspend e.k .preempted 0 0

/-- An engine instruction that runs in row-blocks: `prep` makes its checks and gives the instruction as the engine takes it. The
strand's stores go home before the checks read anything (R161, R254). -/
def engineOp (prep : Env → State → Res (State × Job)) : Op := fun e s =>
  match e.job s with
  | some j =>
    match j.status with
    | .ready | .running => .error .wait
    | .done => .ok ((e.put (e.freeRecord (s.dropJob e.tile e.u)) (e.engineDone j.zsub)).dropClean e.core)
    | .stopped w => e.jobStopped s j w
  | none => do
    let (s1, j) ← prep e (e.bracket s)
    if j.heavy then e.leave s1
    .error (.become (e.enqueueJob s1 j))

/-- An instruction that an engine carries out at once: its work, its writes, and the strand after it. -/
def engineNow (i : Instr) (work : Job → Env → State → Res (State × Strand)) (ids : List Nat) : Op := fun e s => do
  let s0 := e.bracket s
  let (s1, t) ← work (e.newJob i false ids) e s0
  return (e.put s1 t).dropClean e.core

/-- Work of an engine run from a state. -/
def engRun {α : Type} (m : Eng α) (s : State) : Res (α × State × Bool) := m (s, false)

end Sys2Proof.Machine
end

