-- ==== Sys2Proof/Machine/Anvil.lean ====
section
/-! DEFINITION. Sys2Proof/Machine/Anvil.lean: the dense and the sparse matrix engine (chapter 12): MM, MMDIST, MMTOPK, SPCOMP and
SPMM. -/

namespace Sys2Proof.Machine

/-! ### Block products and accumulation (R210, R211, R328) -/

/-- The partial of two blocks of widths `wa` and `wb`, exact: mantissa and exponent; none is a NaN (R210). -/
def partialMul (wa wb : Nat) (a b : Block) : Option (Int × Int) :=
  if a.e = 255 || b.e = 255 then none
  else some ((List.zipWith (· * ·) a.m b.m).sum, (a.e : Int) + b.e - 254 - (wa - 1) - (wb - 1))

/-- The partial of a squared distance, with block `b` of width 8 (R328). -/
def partialDist (wa : Nat) (a b : Block) : Option (Int × Int) :=
  if a.e = 255 || b.e = 255 then none
  else
    let xa : Int := (a.e : Int) - 127 - (wa - 1)
    let xb : Int := (b.e : Int) - 134
    let x := min xa xb
    some ((List.zipWith (fun (p q : Int) => (p * 2 ^ (xa - x).toNat - q * 2 ^ (xb - x).toNat) ^ 2) a.m b.m).sum, 2 * x)

/-- One step of an FP32 accumulator (R211). -/
def accumulate (a : Fp) : Option (Int × Int) → Fp
  | none => .nan false
  | some (m, x) => readFp .fp32 (addFp .fp32 rneOnly a (.fin (m < 0) m.natAbs x) false).1

/-- An FP32 datum as its pattern; a NaN is canonical. -/
def fp32Of (x : Fp) : Nat := writeFp .fp32 x

/-- An accumulator through the K-blocks of a row-block. -/
def accumAll (dist : Bool) (w : Nat) (a0 : Fp) (as bs : List Block) : Fp :=
  (List.zipWith (fun a b => if dist then partialDist w a b else partialMul w 8 a b) as bs).foldl accumulate a0

/-! ### Tiles (R317, R318) -/

/-- Rows or columns of tile `i` of 64 among `n`. -/
def tileSpan (n i : Nat) : List Nat := (upto (min 64 (n - 64 * i))).map fun x => 64 * i + x

/-- Output tiles along a dimension of `n`. -/
def tilesOf (n : Nat) : Nat := (n + 63) / 64

/-- The next row-block of an instruction with `nk` K-blocks and `total` tiles. -/
def nextBlock (t k nk total : Nat) : Option (Nat × Nat) :=
  if k < nk then some (t, k) else if t + 1 < total then some (t + 1, 0) else none

/-- K-blocks in a slab (Table 12.2). -/
def slabOf (w : Nat) : Nat := 256 / w

/-- Row `i` of the accumulators that the engine holds, or those of row `m` read from C at columns from 64·`b` on: an initial
accumulator, or that of a resumed instruction (R322, R325). -/
def accRow (j : Job) (i m b n : Nat) : Eng (List Fp) :=
  match j.acc[i]? with
  | some l => return l.map (readFp .fp32)
  | none => readRow j (j.ent 2) 2 (j.id 2) (2 * b) m 0 0 n

/-- A row-block of MM, MMDIST or SPMM: `loadA ms ks` is the blocks `ks` of the rows `ms` of A. -/
def matBlock (j : Job) (dist acc : Bool) (w mm nn nk : Nat) (loadA : List Nat → List Nat → Eng (List (List Block))) : Eng RowBlock := do
  let (t, k0) := j.pos
  let tn := tilesOf nn
  let ms := tileSpan mm (t / tn)
  let ns := tileSpan nn (t % tn)
  let k1 := min (k0 + slabOf w) nk
  let ks := (upto (k1 - k0)).map fun i => k0 + i
  let ty := j.ent 1
  let c := j.ent 2
  let as ← loadA ms ks
  let bs ← ns.mapM fun n => ks.mapM fun k => do return pipeB ty (← readPiece j ty 1 (j.id 1) k n 0 0 32)
  let cs ← (ms.zip (upto ms.length)).mapM fun (m, i) =>
    if k0 = 0 && !acc then (pure (ns.map fun _ => Fp.fin false 0 0) : Eng (List Fp)) else accRow j i m (t % tn) ns.length
  let rows := (ms.zip (as.zip cs)).map fun (m, a, cr) =>
    (ns.zip (bs.zip cr)).map fun (n, b, c0) => (m, n, fp32Of (accumAll dist w c0 a b))
  let ws ← rows.flatten.mapM fun (m, n, v) => engWrite j (tElem c n m 0 0) 4 v
  return { writes := ws, next := nextBlock t k1 nk (tilesOf mm * tn), cycles := (k1 - k0) * w,
           acc := if k1 < nk then rows.map fun l => l.map fun x => x.2.2 else [] }

/-- Blocks of rows of a dense A. -/
def denseA (j : Job) (ms ks : List Nat) : Eng (List (List Block)) :=
  ms.mapM fun m => ks.mapM fun k => do return pipeA (j.ent 0) (← readPiece j (j.ent 0) 0 (j.id 0) k m 0 0 32)

/-- A row-block of MM or MMDIST (R328). -/
def mmBlock (j : Job) (dist acc : Bool) : Eng RowBlock :=
  matBlock j dist acc (pipeW (j.ent 0)) (tExt (j.ent 0) 1) (tExt (j.ent 1) 1) (tExt (j.ent 0) 0 / 32) (denseA j)

/-- The entry is a matrix of a PLAIN tensor (R314). -/
def isMatrix (x : Entry) : Bool := tKind x = kindPlain && tExt x 2 = 1 && tExt x 3 = 1

/-- The entries of MM and MMDIST (R314, R316). -/
def mmOk (x y c : Entry) : Bool :=
  isMatrix x && isMatrix y && isMatrix c && tFmt c = 0 && tExt x 0 = tExt y 0 && tExt x 0 % 32 = 0 &&
  tExt c 0 = tExt y 1 && tExt c 1 = tExt x 1

/-- The checks of MM and MMDIST (R332). -/
def prepMm (i : Instr) (a : Reg) (tx ty : Nat) (e : Env) (s : State) : Res (State × Job) := do
  let c ← e.regId a
  let j := e.newJob i true [tx, ty, c, 0]
  let j := { j with ents := j.ents.take 3 }
  faultIf (!mmOk (j.ent 0) (j.ent 1) (j.ent 2)) .tensor e.w
  e.heavyClass
  let j ← e.resumed s j
  return (s, j)

/-! ### MMTOPK (R329) -/

/-- A candidate: value and column; a column of none is an empty entry. -/
structure Cand where
  val : Fp
  n   : Nat
  deriving DecidableEq, Repr

/-- The rank of MMTOPK: the first candidate is the better one. -/
def better (dist : Bool) (x y : Cand) : Bool :=
  if x.val.isNan then y.val.isNan && x.n < y.n
  else if y.val.isNan then true
  else if fpEq x.val y.val then x.n < y.n
  else if dist then fpLt x.val y.val else fpLt y.val x.val

/-- An entry of a list: its column and its pattern; a column of all ones is an empty entry. -/
def candOf (n v : Nat) : Option Cand := if n = 0xFFFFFFFF then none else some { val := readFp .fp32 v, n := n }

/-- Row m of the lists read back, on resumption (R325). -/
def readList (j : Job) (m kk : Nat) : Eng (List Cand) := do
  let l ← (upto kk).mapM fun i => do
    let n ← engExact j (tElem (j.ent 2) i m 0 0) 4
    let v ← engExact j (tElem (j.ent 3) i m 0 0) 4
    return candOf n v
  return l.filterMap id

/-- Row `i` of the lists that the engine holds, columns before patterns; else row m read back. -/
def listRow (j : Job) (i m kk : Nat) : Eng (List Cand) :=
  match j.acc[i]? with
  | some l => return (List.zipWith candOf (l.take kk) (l.drop kk)).filterMap id
  | none => readList j m kk

/-- A row-block of MMTOPK: one tile with all of K. -/
def topkBlock (j : Job) (dist : Bool) : Eng RowBlock := do
  let x := j.ent 0
  let y := j.ent 1
  let w := pipeW x
  let nk := tExt x 0 / 32
  let kk := tExt (j.ent 2) 0
  let tn := tilesOf (tExt y 1)
  let t := j.pos.1
  let ms := tileSpan (tExt x 1) (t / tn)
  let ns := tileSpan (tExt y 1) (t % tn)
  let as ← denseA j ms (upto nk)
  let bs ← ns.mapM fun n => (upto nk).mapM fun k => do return pipeB y (← readPiece j y 1 (j.id 1) k n 0 0 32)
  let lists ← (ms.zip (as.zip (upto ms.length))).mapM fun (m, a, i) => do
    let old ← if t % tn = 0 then (pure [] : Eng (List Cand)) else listRow j i m kk
    let new := (ns.zip bs).map fun (n, b) => ({ val := accumAll dist w (.fin false 0 0) a b, n := n } : Cand)
    let best := (sortBy (better dist) (old ++ new)).take kk
    return (upto kk).map fun i => match best[i]? with
      | some c => (c.n, fp32Of c.val)
      | none => (0xFFFFFFFF, canonNan .fp32)
  let ws ← (ms.zip lists).mapM fun (m, l) => (l.zip (upto kk)).mapM fun ((n, v), i) => do
    let a1 ← engWrite j (tElem (j.ent 2) i m 0 0) 4 n
    let a2 ← engWrite j (tElem (j.ent 3) i m 0 0) 4 v
    return [a1, a2]
  return { writes := ws.flatten.flatten, next := nextBlock t nk nk (tilesOf (tExt x 1) * tn), cycles := nk * w,
           acc := if (t + 1) % tn = 0 then [] else lists.map fun l => l.map (·.1) ++ l.map (·.2) }

/-- The entries of MMTOPK (R314, R316, R329). -/
def topkOk (x y ix v : Entry) : Bool :=
  isMatrix x && isMatrix y && isMatrix ix && isMatrix v && tFmt ix = 9 && tFmt v = 0 && tExt x 0 = tExt y 0 &&
  tExt x 0 % 32 = 0 && tExt ix 0 ≤ 64 && tExt ix 1 = tExt x 1 && tExt v 0 = tExt ix 0 && tExt v 1 = tExt ix 1 &&
  tExt x 0 / 32 * pipeW x ≤ 256

/-- The checks of MMTOPK (R332). -/
def prepTopk (i : Instr) (a b : Reg) (tx ty : Nat) (e : Env) (s : State) : Res (State × Job) := do
  let ix ← e.regId a
  let v ← e.regId b
  let j := e.newJob i true [tx, ty, ix, v]
  faultIf (!topkOk (j.ent 0) (j.ent 1) (j.ent 2) (j.ent 3)) .tensor e.w
  e.heavyClass
  let j ← e.resumed s j
  return (s, j)

/-! ### SPCOMP (R330) -/

/-- Magnitude order of a group: a NaN above every number, an infinity above every finite value. -/
def magGt (x y : Fp) : Bool :=
  match x, y with
  | .nan _, .nan _ => false
  | .nan _, _ => true
  | _, .nan _ => false
  | .inf _, .inf _ => false
  | .inf _, .fin .. => true
  | .fin .., .inf _ => false
  | .fin _ m e, .fin _ n f => fpLt (.fin false n f) (.fin false m e)

/-- The four positions of a group of eight that are kept, ascending. -/
def keptOf (g : List Fp) : List Nat :=
  let best := (sortBy (fun (x y : Fp × Nat) => magGt x.1 y.1) (g.zip (upto 8))).take 4
  (upto 8).filter fun i => best.any fun b => b.2 = i

/-- Groups of eight of a row. -/
def groups8 (l : List Fp) : List (List Fp) := (upto (l.length / 8)).map fun g => (l.drop (8 * g)).take 8

/-- The writes of a quantised block: its words, then its exponent byte. -/
def writeBlock (j : Job) (x : Entry) (b i1 i2 i3 : Nat) (blk : Block) : Eng (List StoreElem) := do
  let w := tW x
  let img := blk.image w
  let ws ← (upto w).mapM fun i => engWrite j (tBlock x b i1 i2 i3 + BitVec.ofNat 64 (4 * i)) 4 (img / 2 ^ (32 * i) % 2 ^ 32)
  let ex ← engWrite j (tExp x b i1 i2 i3) 1 blk.e
  return ws ++ [ex]

/-- Blocks of 32 of a list. -/
def chunks32 (l : List Fp) : List (List Fp) := (upto ((l.length + 31) / 32)).map fun b => (l.drop (32 * b)).take 32

/-- The pruning: the writes of the compressed tensor, and the mask bytes. -/
def spcompWork (j : Job) : Eng (List StoreElem × List Nat) := do
  let x := j.ent 0
  let y := j.ent 1
  let rows ← (upto (tExt x 1)).mapM fun m => readRow j x 0 (j.id 0) 0 m 0 0 (tExt x 0)
  let gs := rows.flatMap groups8
  let kept := gs.flatMap fun g => (keptOf g).map fun i => (g[i]?).getD (.fin false 0 0)
  let ws ← ((chunks32 kept).zip (upto (kept.length / 32))).mapM fun (l, b) => writeBlock j y b 0 0 0 (quantise (tW y) l).1
  return (ws.flatten, gs.map fun g => ((keptOf g).map fun i => 2 ^ i).sum)

/-- The entries of SPCOMP (R314, R330). -/
def spcompOk (x y : Entry) : Bool :=
  isMatrix x && isMatrix y && tFmt y = fmtBfp && tExt y 1 = 1 && tExt x 0 % 8 = 0 &&
  (let n := tExt x 0 * tExt x 1
   n % 64 = 0 && 64 ≤ n && n ≤ 2048 && tExt y 0 = n / 2)

def opSpcomp (i : Instr) (d : Reg) (tx ty : Nat) : Op :=
  engineNow i (fun j e s => do
    let j := { j with ents := j.ents.take 2 }
    faultIf (!spcompOk (j.ent 0) (j.ent 1)) .tensor e.w
    let _ ← e.resumed s j
    let ((ws, ms), s1, z) ← engRun (spcompWork j) s
    return (s1.putElems j.writer ws, { (e.st.putV d (BitVec.ofNat 2048 (packN 8 ms))) with zsub := e.st.zsub || z }))
    [tx, ty, 0, 0]

/-! ### SPMM (R331) -/

/-- Mask byte `q` of a vector register. -/
def maskByte (v : VReg) (q : Nat) : Nat := (v.extractLsb' (8 * q) 8).toNat

/-- Block k of row m of the decompressed A, from the compressed block that holds its 16 values. -/
def decompress (masks : VReg) (kk m k : Nat) (p : Block) : Block :=
  let vals := (p.m.drop ((m * kk / 2 + 16 * k) % 32)).take 16
  let pos := (upto 4).flatMap fun g =>
    (upto 8).filterMap fun i => if (maskByte masks (m * kk / 8 + 4 * k + g)).testBit i then some (8 * g + i) else none
  { e := p.e, m := (upto 32).map fun i => ((pos.idxOf? i).bind fun n => vals[n]?).getD 0 }

/-- Blocks of rows of the decompressed A. Each compressed block is read once for a row-block (R325). -/
def sparseA (j : Job) (kk : Nat) (ms ks : List Nat) : Eng (List (List Block)) := do
  let blockOf := fun (m k : Nat) => (m * kk / 2 + 16 * k) / 32
  let ps ← (ms.flatMap fun m => ks.map (blockOf m)).dedup.mapM fun b => do
    return (b, (← readPiece j (j.ent 0) 0 (j.id 0) b 0 0 0 32).blk)
  return ms.map fun m => ks.map fun k => decompress j.masks kk m k (((ps.find? fun p => p.1 = blockOf m k).map (·.2)).getD { e := 0, m := [] })

/-- A row-block of SPMM. -/
def spmmBlock (j : Job) (acc : Bool) : Eng RowBlock :=
  let y := j.ent 1
  matBlock j false acc (tW (j.ent 0)) (tExt (j.ent 2) 1) (tExt y 1) (tExt y 0 / 32) (sparseA j (tExt y 0))

/-- The entries of SPMM (R314, R316, R331). -/
def spmmOk (x y c : Entry) : Bool :=
  isMatrix x && isMatrix y && isMatrix c && tFmt x = fmtBfp && tExt x 1 = 1 && tFmt c = 0 && tExt y 0 % 32 = 0 &&
  tExt c 0 = tExt y 1 &&
  (let n := tExt c 1 * tExt y 0
   n ≤ 2048 && n / 2 % 32 = 0 && tExt x 0 = n / 2)

/-- The checks of SPMM (R331, R332). -/
def prepSpmm (i : Instr) (a b : Reg) (tx ty : Nat) (e : Env) (s : State) : Res (State × Job) := do
  let c ← e.regId a
  let j := e.newJob i true [tx, ty, c, 0]
  let j := { j with ents := j.ents.take 3, masks := e.st.vector b }
  faultIf (!spmmOk (j.ent 0) (j.ent 1) (j.ent 2)) .tensor e.w
  let n := tExt (j.ent 2) 1 * tExt (j.ent 1) 0 / 8
  match (upto n).find? fun q => popN 8 (maskByte j.masks q) != 4 with
  | some q => failWith .spmeta (BitVec.ofNat 64 (q * 256 + maskByte j.masks q))
  | none => do
    e.heavyClass
    let j ← e.resumed s j
    return (s, j)

/-! ### Meanings -/

/-- MM (R328). -/
def execMm (k : Ctl) (a : Reg) (tx ty : Fin 1024) (acc : Bool) (s : State) : Host.Outcome State Fault Refusal :=
  runWord (.mm k a tx ty acc) k (engineOp (prepMm (.mm k a tx ty acc) a tx.val ty.val)) s

/-- MMDIST (R328). -/
def execMmdist (k : Ctl) (a : Reg) (tx ty : Fin 1024) (acc : Bool) (s : State) : Host.Outcome State Fault Refusal :=
  runWord (.mmdist k a tx ty acc) k (engineOp (prepMm (.mmdist k a tx ty acc) a tx.val ty.val)) s

/-- MMTOPK (R329). -/
def execMmtopk (k : Ctl) (a b : Reg) (tx ty : Fin 1024) (dist : Bool) (s : State) : Host.Outcome State Fault Refusal :=
  runWord (.mmtopk k a b tx ty dist) k (engineOp (prepTopk (.mmtopk k a b tx ty dist) a b tx.val ty.val)) s

/-- SPCOMP (R330). -/
def execSpcomp (k : Ctl) (d : Reg) (tx ty : Fin 1024) (s : State) : Host.Outcome State Fault Refusal :=
  runWord (.spcomp k d tx ty) k (opSpcomp (.spcomp k d tx ty) d tx.val ty.val) s

/-- SPMM (R331). -/
def execSpmm (k : Ctl) (a b : Reg) (tx ty : Fin 1024) (acc : Bool) (s : State) : Host.Outcome State Fault Refusal :=
  runWord (.spmm k a b tx ty acc) k (engineOp (prepSpmm (.spmm k a b tx ty acc) a b tx.val ty.val)) s

end Sys2Proof.Machine
end

