-- ==== Sys2Proof/Machine/Chaser.lean ====
section
/-! DEFINITION. Sys2Proof/Machine/Chaser.lean: attention, key-value sequences and the tree file (chapter 13). -/

namespace Sys2Proof.Machine

/-! ### FP32 steps -/

def f32 (x : Nat) : Fp := readFp .fp32 x
def add32 (x y : Fp) : Fp := f32 (addFp .fp32 rneOnly x y false).1
def sub32 (x y : Fp) : Fp := add32 x y.negate
def mul32 (x y : Fp) : Fp := f32 (mulFp .fp32 rneOnly x y).1
def div32 (x y : Fp) : Fp := f32 (divFp .fp32 rneOnly x y).1
def max32 (x y : Fp) : Fp := f32 (minMaxFp .fp32 true x y).1
def exp32 (x : Fp) : Fp := f32 (expf (fp32Of x))
def zero32 : Fp := .fin false 0 0
def negInf32 : Fp := .inf true
def Fp.isZero : Fp → Bool
  | .fin _ m _ => m = 0
  | _ => false

/-! ### Sequences (R337 to R341) -/

/-- Formats that sequences and staging tensors may have. -/
def kvFmt (f : Nat) : Bool := f = 0 || (2 ≤ f && f ≤ 5)

/-- The entry is a sequence that the Chaser accepts (R337). -/
def kvOk (x : Entry) : Bool :=
  tKind x = kindKvseq && tRank x = 3 && kvFmt (tFmt x) && tExt x 0 % 32 = 0 && 32 ≤ tExt x 0 && tExt x 0 ≤ 1024 &&
  1 ≤ tExt x 1 && tExt x 2 = 2 && tBase x = 0 && !bit (tStr x 1) 63 && !bit (tStr x 2) 63 &&
  (tExt x 1 - 1) * (tStr x 1).toNat + (tStr x 2).toNat + tExt x 0 * fmtBytes (tFmt x) ≤ 65536 &&
  tSink x + tWin x ≤ 2 ^ 32 && bits (tPtab x) 5 0 = 0 && (bits (tPtab x) 62 56 ≤ 48 || bits (tPtab x) 62 56 = 0x7F) &&
  bits x[9] 62 32 = 0

/-- The slot of a position (R338). -/
def kvSlot (x : Entry) (p : Nat) : Nat := if p < tSink x then p else tSink x + (p - tSink x) % tWin x

/-- Address of the page entry of a slot. -/
def kvEntryVa (x : Entry) (slot : Nat) : Word := tPtab x + BitVec.ofNat 64 (0x40 + 8 * (slot / tExt x 1))

/-- Address of element `el` of the key (c = 0) or the value (c = 1) at a slot of a page. -/
def kvElemVa (x : Entry) (pe : Word) (slot c el : Nat) : Word :=
  pe + BitVec.ofNat 64 (slot % tExt x 1) * tStr x 1 + BitVec.ofNat 64 c * tStr x 2 + BitVec.ofNat 64 (el * fmtBytes (tFmt x))

/-- A page entry that may be used (R338). -/
def pageOk (pe : Word) : Bool := pe != 0 && bits pe 15 0 = 0

/-- The page entry of a position, read as an operand. -/
def kvPage (j : Job) (x : Entry) (p : Nat) : Eng Word := do
  let pe := BitVec.ofNat 64 (← engExact j (kvEntryVa x (kvSlot x p)) 8)
  if pageOk pe then return pe else failWith .tensor j.word

/-- Position p is visible at length L (R340). -/
def visibleAt (x : Entry) (l p : Nat) : Bool := p < l && (p < tSink x || l ≤ p + tWin x)

/-- GEN(L) (R340). -/
def genOfLen (x : Entry) (l : Nat) : Nat := if l ≤ tSink x then 0 else (l - 1 - tSink x) / tWin x

/-- The header: LEN read as an acquire at .module, and POOL (R339). -/
def Env.kvHeader (e : Env) (s : State) (x : Entry) : Res (State × Nat × Word) := do
  let (s1, pa) ← s.place e.user (e.req (tPtab x) .read)
  faultIf (s1.lostAt pa 8) .uncorr (tPtab x)
  faultIf (s1.lostAt (pa + 8) 8) .uncorr (tPtab x + 8)
  return (s1.acquire e.k .module, (s1.dwAt pa).toNat, s1.dwAt (pa + 8))

/-- The generation check of R340. -/
def checkGen (x : Entry) (l : Nat) : Res Unit := faultIf (tChk x && genOfLen x l != tWgen x) .kvstale (BitVec.ofNat 64 l)

/-! ### Trees (R343 to R346) -/

def Tree.n (t : Tree) : Nat := t.par.length
def Tree.parent (t : Tree) (i : Nat) : Nat := (t.par[i]?).getD 0

/-- The path from a node up to the root, the node first. -/
def Tree.up (t : Tree) : Nat → Nat → List Nat
  | 0, i => [i]
  | n + 1, i => if i = 0 then [0] else i :: t.up n (t.parent i)

/-- DEPTH and MASK. -/
def Tree.depth (t : Tree) (i : Nat) : Nat := (t.up 64 i).length - 1
def Tree.sees (t : Tree) (i j : Nat) : Bool := (t.up 64 i).contains j

/-- Tree `n` of a tile. -/
def State.tree (s : State) (tile n : Nat) : Tree := tgetD (s.tile tile).trees n {}
def State.setTree (s : State) (tile n : Nat) (t : Tree) : State := s.modTile tile fun x => { x with trees := tput x.trees n t }

/-- A tree of another owner (R345). -/
def Env.foreign (e : Env) (t : Tree) : Bool := t.valid && !(t.owner = e.ctx && t.part = e.pn)

/-- A tree that may be used. -/
def Env.usable (e : Env) (t : Tree) : Bool := t.valid && t.owner = e.ctx && t.part = e.pn

/-! ### ATTN (R348 to R352) -/

/-- The staging tensor of a TREE entry, for a head dimension (R348). -/
def stagingOk (x : Entry) (d : Nat) : Bool :=
  tKind x = kindTree && tRank x = 3 && kvFmt (tFmt x) && tExt x 0 = d && tExt x 2 = 2

/-- The sequence of an instruction: TY itself, or the KVT of a TREE entry. -/
def Env.sequenceOf (e : Env) (x : Entry) : Entry := if tKind x = kindTree then e.p.tensor e.ctx (tKvt x) else x

/-- The entries of ATTN (R348). -/
def attnOk (q seq src res st : Entry) (causal : Bool) : Bool :=
  tKind q = kindPlain && tRank q = 2 && (tFmt q ≤ 5 || tFmt q = fmtBfp) &&
  tKind res = kindPlain && tRank res = 2 && tFmt res = 0 && tExt res 0 = tExt q 0 && tExt res 1 = tExt q 1 &&
  tKind st = kindPlain && tRank st = 2 && tFmt st = 0 && tExt st 0 = 2 && tExt st 1 = tExt q 1 &&
  kvOk seq && tExt seq 0 = tExt q 0 &&
  (tKind src = kindKvseq || (stagingOk src (tExt q 0) && !causal))

/-- What ATTN needs of its record: the place, and L of its first row-block (R351). -/
def attnResume (j : Job) (seq : Entry) (l : Nat) (r : List Word) : Res Job := do
  let l0 := (recWord r 4).toNat
  faultIf (max (tSink seq) (l0 - tWin seq) < l - tWin seq) .kvstale (BitVec.ofNat 64 l)
  return { j with pos := (bits (recWord r 1) 63 32, bits (recWord r 1) 31 0), len0 := l0 }

/-- TSER that the first row-block of an ATTN saw, as its record holds it; none before its first row-block has started (R346). -/
def Env.seenTree (e : Env) (s : State) : Option (BitVec 16) :=
  match e.resumeRecord s with
  | .ok (some r) => if recWord r 1 = 0 then none else some (BitVec.ofNat 16 (bits (recWord r 5) 15 0))
  | _ => none

/-- The checks of ATTN up to the leave check (R361). -/
def prepAttn (i : Instr) (d a b : Reg) (tx ty : Nat) (causal : Bool) (e : Env) (s : State) : Res (State × Job) := do
  let ir ← e.regId a
  let is ← e.regId b
  let sc := e.st.scalar d
  let jn := e.newJob i true [tx, ty, ir, is]
  let src := jn.ent 1
  let seq := e.sequenceOf src
  let j0 := { jn with parm := sc, ents := jn.ents ++ [seq] }
  let treeMode := tKind src = kindTree
  faultIf (bits sc 63 32 != 0 || !attnOk (j0.ent 0) seq src (j0.ent 2) (j0.ent 3) causal) .tensor e.w
  let t := s.tree e.tile (tTree src)
  faultIf (treeMode && !e.usable t) .tree e.w
  let seen := e.seenTree s
  faultIf (treeMode && seen.any (· != t.tser)) .tree e.w
  let nq := tExt (j0.ent 0) 1
  faultIf (treeMode && (nq != t.n || tExt src 1 < t.n)) .tensor e.w
  e.heavyClass
  let r ← e.resumeRecord s
  let j1 := { j0 with seen := seen.isSome, tree := if treeMode then some (tTree src, t.tser) else none }
  match r with
  | some y => e.checkRecord j1 y
  | none => pure ()
  let (s1, l, _) ← e.kvHeader s seq
  checkGen seq l
  match r with
  | some y =>
    let j2 ← attnResume j1 seq l y
    return (s1, j2)
  | none =>
    faultIf (causal && l < nq) .tensor e.w
    faultIf (treeMode && t.basepos != l) .tree e.w
    return (s1, { j1 with len0 := l })

/-- The key list at length `l`: positions kept for good, ring positions, nodes (R349). -/
structure Keys where
  sink  : Nat
  start : Nat
  ring  : Nat
  nodes : Nat
  deriving DecidableEq, Repr

def keysOf (seq : Entry) (l nodes : Nat) : Keys :=
  let st := max (tSink seq) (l - tWin seq)
  { sink := min (tSink seq) l, start := st, ring := l - st, nodes := nodes }

/-- A key: a position, or a node. -/
inductive Key where
  | pos (p : Nat)
  | node (i : Nat)
  deriving DecidableEq, Repr

def Keys.get (k : Keys) (i : Nat) : Option Key :=
  if i < k.sink then some (.pos i)
  else if i < k.sink + k.ring then some (.pos (k.start + (i - k.sink)))
  else if i < k.sink + k.ring + k.nodes then some (.node (i - k.sink - k.ring))
  else none

def Keys.count (k : Keys) : Nat := k.sink + k.ring + k.nodes

/-- A key sees a row (R349). -/
def keySeen (t : Tree) (causal : Bool) (l nq r : Nat) : Key → Bool
  | .pos p => !causal || p + nq ≤ l + r
  | .node i => t.sees r i

/-- The elements of a key (c = 0) or a value (c = 1): blocks of 32 along d. -/
def readKey (j : Job) (seq : Entry) (c : Nat) : Key → Eng (List Piece)
  | .pos p => do
    let pe ← kvPage j seq p
    let id := if tKind (j.ent 1) = kindTree then tKvt (j.ent 1) else j.id 1
    (upto (tExt seq 0 / 32)).mapM fun b =>
      readElems j (tFmt seq) (fun i => kvElemVa seq pe (kvSlot seq p) c (32 * b + i)) 32 0 1 id p (32 * b)
  | .node i => (upto (tExt seq 0 / 32)).mapM fun b => readPiece j (j.ent 1) 1 (j.id 1) b i c 0 32

/-- A row of the softmax stage: running maximum, running sum, accumulators; none is a NaN row. -/
abbrev AttnRow := Option (Fp × Fp × List Fp)

/-- One chunk for one row (R350): scores, then the column blocks of the values. -/
def attnChunk (ss : List Fp) (vs : List Block) : AttnRow → AttnRow
  | none => none
  | some (m, l, acc) =>
    if ss.any fun x => x.isNan || x = .inf false then none
    else
      let mn := ss.foldl max32 m
      if mn = negInf32 then some (m, l, acc)
      else
        let corr := exp32 (sub32 m mn)
        let pb := (quantise 8 (ss.map fun x => exp32 (sub32 x mn))).1
        let sum := add32 (mul32 l corr) (.fin false (pb.m.sum).natAbs ((pb.e : Int) - 134))
        if vs.any fun b => b.e = 255 then none
        else some (mn, sum, List.zipWith (fun a b => accumulate (mul32 a corr) (partialMul 8 8 pb b)) acc vs)

/-- The score of a query row against a key (R350). -/
def attnScore (w : Nat) (scale : Fp) (q k : List Block) : Fp := mul32 scale (accumAll false w zero32 q k)

/-- What a row writes: acc and (m, l) within a band, the normalised values at its end. -/
def attnOut (last : Bool) (d : Nat) : AttnRow → List Nat × Nat × Nat
  | none => (List.replicate d (canonNan .fp32), canonNan .fp32, canonNan .fp32)
  | some (m, l, acc) =>
    if !last then (acc.map fp32Of, fp32Of m, fp32Of l)
    else if l.isZero then (List.replicate d 0, fp32Of negInf32, 0)
    else (acc.map fun a => fp32Of (div32 a l), fp32Of m, fp32Of l)

/-- Columns of 32 values as blocks: column c of the pieces of each key. -/
def valueBlocks (d : Nat) (vs : List (List Fp)) : List Block :=
  (upto d).map fun c => (quantise 8 ((upto 32).map fun k => ((vs[k]?).bind fun v => v[c]?).getD zero32)).1

/-- A key of a chunk as loaded: the key, its blocks along d, its values. -/
structure KeyData where
  key  : Key
  ks   : List Block
  vals : List Fp
  deriving DecidableEq, Repr

def loadKey (j : Job) (seq : Entry) : Option Key → Eng (Option KeyData)
  | none => return none
  | some y => do
    let kp ← readKey j seq 0 y
    let vp ← readKey j seq 1 y
    return some { key := y, ks := kp.map fun p => (quantise 8 p.vals).1, vals := vp.flatMap (·.vals) }

def KeyData.valsOf : Option KeyData → List Fp
  | some y => y.vals
  | none => []

/-- A chunk of 32 keys: the keys, and the value blocks of its columns. -/
def loadChunk (j : Job) (seq : Entry) (d : Nat) (ks : Keys) (c : Nat) : Eng (List (Option KeyData) × List Block) := do
  let kb ← ((upto 32).map fun x => ks.get (32 * c + x)).mapM (loadKey j seq)
  return (kb, valueBlocks d (kb.map KeyData.valsOf))

/-- The score of row `r` against a key of a chunk. -/
def scoreOf (j : Job) (t : Tree) (causal : Bool) (r : Nat) (qb : List Block) : Option KeyData → Fp
  | none => negInf32
  | some y =>
    if keySeen t causal j.len0 (tExt (j.ent 0) 1) r y.key then
      attnScore (pipeW (j.ent 0)) (f32 (bits j.parm 31 0)) qb y.ks
    else negInf32

/-- A row through the chunks of a row-block. -/
def attnRow (j : Job) (t : Tree) (causal : Bool) (r : Nat) (qb : List Block) :
    List (List (Option KeyData) × List Block) → AttnRow → AttnRow
  | [], row => row
  | (kb, vb) :: rest, row => attnRow j t causal r qb rest (attnChunk (kb.map (scoreOf j t causal r qb)) vb row)

/-- A row as the engine holds it between two row-blocks, in FP32 patterns; a NaN row holds none. -/
def attnHeld : AttnRow → List Nat
  | none => []
  | some (m, l, acc) => fp32Of m :: fp32Of l :: acc.map fp32Of

/-- A row that the engine holds. -/
def attnRowOf : List Nat → AttnRow
  | m :: l :: acc => some (readFp .fp32 m, readFp .fp32 l, acc.map (readFp .fp32))
  | _ => none

/-- Row `i` of a band as it stands at the start of a row-block: at its first chunk, as the engine holds it, or read back from the
result and the state of a resumed instruction (R351, R352). -/
def attnStart (j : Job) (d c0 i r : Nat) : Eng AttnRow := do
  if c0 = 0 then return some (negInf32, zero32, List.replicate d zero32)
  else if !j.acc.isEmpty then return ((j.acc[i]?).map attnRowOf).join
  else
    let acc ← readRow j (j.ent 2) 2 (j.id 2) 0 r 0 0 d
    let st ← readRow j (j.ent 3) 2 (j.id 3) 0 r 0 0 2
    let m := (st[0]?).getD zero32
    let l := (st[1]?).getD zero32
    return if m.isNan || l.isNan then none else some (m, l, acc)

/-- The result elements of a row. -/
def attnWrites (j : Job) (r : Nat) (vals : List Nat) (m l : Nat) : Eng (List StoreElem) := do
  let a ← (vals.zip (upto vals.length)).mapM fun (v, c) => engWrite j (tElem (j.ent 2) c r 0 0) 4 v
  let m' ← engWrite j (tElem (j.ent 3) 0 r 0 0) 4 m
  let l' ← engWrite j (tElem (j.ent 3) 1 r 0 0) 4 l
  return a ++ [m', l']

/-- The sequence and the tree of an ATTN that the engine holds: the sequence stands after the entries that it names. -/
def Job.sequence (j : Job) : Entry := j.ent 4

def Job.treeOf (j : Job) (s : State) : Tree :=
  match j.tree with
  | some (n, _) => s.tree (tileOfSlot j.k) n
  | none => {}

/-- The tree of an ATTN at a row-block: its context's still, and the one that its first row-block saw (R345, R346); at the first one,
a tree that R348 and R349 allow, whatever it was at issue (log 61). -/
def attnTree (j : Job) (t : Tree) : Eng Unit :=
  if j.tree.isNone then return ()
  else if !(t.valid && t.owner = j.ctx && t.part = j.part) || j.seen && j.tree.any fun x => t.tser != x.2 then failWith .tree j.word
  else if j.seen then return ()
  else if tExt (j.ent 0) 1 != t.n || tExt (j.ent 1) 1 < t.n then failWith .tensor j.word
  else if t.basepos != j.len0 then failWith .tree j.word
  else return ()

/-- A row-block of ATTN (R351). -/
def attnBlock (j : Job) (causal : Bool) : Eng RowBlock := do
  let q := j.ent 0
  let d := tExt q 0
  let (s, _) ← get
  let t := j.treeOf s
  attnTree j t
  do
    let ks := keysOf j.sequence j.len0 (if j.tree.isSome then t.n else 0)
    let nc := (ks.count + 31) / 32
    let (b, c0) := j.pos
    let c1 := min (c0 + max 1 (1024 / d)) nc
    let last := nc ≤ c1
    let rows := tileSpan (tExt q 1) b
    let qs ← rows.mapM fun r => (upto (d / 32)).mapM fun x => do return pipeA q (← readPiece j q 0 (j.id 0) x r 0 0 32)
    let chunks ← (upto (c1 - c0)).mapM fun i => loadChunk j j.sequence d ks (c0 + i)
    let starts ← (rows.zip (upto rows.length)).mapM fun (r, i) => attnStart j d c0 i r
    let ends := (rows.zip (qs.zip starts)).map fun (r, qb, st) => (r, attnRow j t causal r qb chunks st)
    let ws ← ends.mapM fun (r, row) =>
      let (vals, m, l) := attnOut last d row
      attnWrites j r vals m l
    return { writes := ws.flatten,
             next := if !last then some (b, c1) else if b + 1 < tilesOf (tExt q 1) then some (b + 1, 0) else none,
             cycles := (c1 - c0) * d / 4, acc := if last then [] else ends.map fun x => attnHeld x.2 }

/-! ### ATTMERGE (R353) -/

/-- The entries of ATTMERGE. -/
def mergeOk (ra rb sa sb : Entry) : Bool :=
  let res := fun (x : Entry) => tKind x = kindPlain && tFmt x = 0 && tRank x = 2
  res ra && res rb && res sa && res sb && tExt ra 0 = tExt rb 0 && tExt ra 1 = tExt rb 1 &&
  tExt sa 0 = 2 && tExt sb 0 = 2 && tExt sa 1 = tExt ra 1 && tExt sb 1 = tExt ra 1 && tExt ra 0 * tExt ra 1 ≤ 65536

/-- A merged row: the new row of result a and of state a; none leaves them as they are. -/
def mergeRow (ra rb : List Nat) (ma la mb lb : Nat) : Option (List Nat × Nat × Nat) :=
  let (fma, fla, fmb, flb) := (f32 ma, f32 la, f32 mb, f32 lb)
  if fma.isNan || fla.isNan || fmb.isNan || flb.isNan then
    some (ra.map fun _ => canonNan .fp32, canonNan .fp32, canonNan .fp32)
  else if lb = 0 then none
  else if la = 0 then some (rb, mb, lb)
  else
    let m := max32 fma fmb
    let wa := mul32 fla (exp32 (sub32 fma m))
    let wb := mul32 flb (exp32 (sub32 fmb m))
    let l := add32 wa wb
    some (List.zipWith (fun x y => fp32Of (div32 (add32 (mul32 (f32 x) wa) (mul32 (f32 y) wb)) l)) ra rb, fp32Of m, fp32Of l)

/-- Every access of the merge is translated and checked before it starts, since it is not stopped. -/
def mergeCheck (j : Job) : Eng Unit := do
  let d := tExt (j.ent 0) 0
  let nq := tExt (j.ent 0) 1
  let _ ← (upto nq).mapM fun r => do
    let _ ← (upto 2).mapM fun c => do
      let _ ← engPlace j (tElem (j.ent 2) c r 0 0) .read
      let _ ← engPlace j (tElem (j.ent 2) c r 0 0) .write
      engPlace j (tElem (j.ent 3) c r 0 0) .read
    (upto d).mapM fun c => do
      let _ ← engPlace j (tElem (j.ent 0) c r 0 0) .read
      let _ ← engPlace j (tElem (j.ent 0) c r 0 0) .write
      engPlace j (tElem (j.ent 1) c r 0 0) .read

/-- The writes of row `r` of the merge. -/
def mergeOne (j : Job) (r : Nat) : Eng (List StoreElem) := do
  let d := tExt (j.ent 0) 0
  let at4 := fun (x : Entry) (c : Nat) => engExact j (tElem x c r 0 0) 4
  let ma ← at4 (j.ent 2) 0
  let la ← at4 (j.ent 2) 1
  let mb ← at4 (j.ent 3) 0
  let lb ← at4 (j.ent 3) 1
  let ra ← (upto d).mapM fun c => at4 (j.ent 0) c
  let rb ← (upto d).mapM fun c => at4 (j.ent 1) c
  match mergeRow ra rb ma la mb lb with
  | none => return []
  | some (row, m, l) =>
    let a ← (row.zip (upto d)).mapM fun (v, c) => engWrite j (tElem (j.ent 0) c r 0 0) 4 v
    let m' ← engWrite j (tElem (j.ent 2) 0 r 0 0) 4 m
    let l' ← engWrite j (tElem (j.ent 2) 1 r 0 0) 4 l
    return a ++ [m', l']

/-- The rows of the merge in order; one that stops leaves the rows before it merged. -/
def mergeRows (j : Job) (k : Nat) : List Nat → State → Res State
  | [], s => .ok s
  | r :: t, s =>
    match engRun (mergeOne j r) s with
    | .error x => .error (.become (s.stopped k false false x))
    | .ok (ws, s1, _) => mergeRows j k t (s1.putElems j.writer ws)

def opAttmerge (i : Instr) (a b : Reg) (tx ty : Nat) : Op := fun e s => do
  let sa ← e.regId a
  let sb ← e.regId b
  engineNow i (fun j e s => do
    faultIf (!mergeOk (j.ent 0) (j.ent 1) (j.ent 2) (j.ent 3)) .tensor e.w
    let (_, s1, _) ← engRun (mergeCheck j) s
    let s2 ← mergeRows j e.k (upto (tExt (j.ent 0) 1)) s1
    return (s2, e.st)) [tx, ty, sa, sb] e s

/-! ### Appending (R341, R342, R354, R355) -/

/-- Status codes (Table 6.5). -/
def kvOkStatus (n : Nat) : Word := BitVec.ofNat 64 (n * 256)
def kvQuota (empty : Bool) : Word := if empty then 0x103 else 3

/-- The outcome of an append: its status, and the state. -/
structure Append where
  status : Word
  state  : State
  zsub   : Bool
  deriving DecidableEq, Repr

/-- Pages of positions `l` to `l + n - 1`, ascending. -/
def pagesOf (x : Entry) (l n : Nat) : List Nat :=
  sortBy (· < ·) (((upto n).map fun t => kvSlot x (l + t) / tExt x 1).dedup)

/-- The pages among them that have no entry yet. -/
def pagesNeeded (j : Job) (x : Entry) : List Nat → Eng (List Nat)
  | [] => return []
  | pg :: t => do
    let pe ← engExact j (tPtab x + BitVec.ofNat 64 (0x40 + 8 * pg)) 8
    let r ← pagesNeeded j x t
    return if pe = 0 then pg :: r else r

/-- The allocation of R341: the page entries, or the status that refuses them. -/
def allocPages (j : Job) (x : Entry) (pool : Word) (need : List Nat) : Eng (Option Word) := do
  let k := need.length
  if pool = 0 then return some (kvQuota true)
  else do
    let base ← engPlace j pool .rmw
    let used ← engExact j pool 8
    let quota ← engExact j (pool + 8) 8
    let count ← engExact j (pool + 16) 8
    if quota < used + k then return some (kvQuota false)
    else if count < k then return some (kvQuota true)
    else do
      let pages ← (upto k).mapM fun i => engExact j (pool + BitVec.ofNat 64 (0x40 + 8 * (count - 1 - i))) 8
      let ws ← (need.zip pages).mapM fun (pg, a) => engWrite j (tPtab x + BitVec.ofNat 64 (0x40 + 8 * pg)) 8 a
      let (s, z) ← get
      let s1 := (s.homeWrite j.writer pool base (bytesOf 8 (used + k))).homeWrite j.writer (pool + 16) (base + 16)
        (bytesOf 8 (count - k))
      set (s1.putElems j.writer ws, z)
      return none

/-- The writes of one position from its source row. -/
def appendOne (j : Job) (x : Entry) (p : Nat) (src : Nat → Eng (List Fp)) : Eng (List StoreElem) := do
  let pe ← kvPage j x p
  let g := (fpOfFmt (tFmt x)).getD .fp32
  let rows ← (upto 2).mapM fun c => do
    let vs ← src c
    (vs.zip (upto (tExt x 0))).mapM fun (v, el) =>
      engWrite j (kvElemVa x pe (kvSlot x p) c el) (fmtBytes (tFmt x)) (cvtFp g rneOnly v).1
  return rows.flatten

/-- The positions in order; one that stops leaves those before it written. -/
def appendRows (j : Job) (k : Nat) (x : Entry) (l : Nat) (src : Nat → Nat → Eng (List Fp)) : List Nat → State → Bool → Res (State × Bool)
  | [], s, z => .ok (s, z)
  | t :: r, s, z =>
    match (appendOne j x (l + t) (src t)) (s, z) with
    | .error y => .error (.become (s.stopped k false false y))
    | .ok (ws, s1, z1) => appendRows j k x l src r (s1.putElems j.writer ws) z1

/-- An append of `n` positions at length `l` (R354). -/
def Env.append (e : Env) (j : Job) (x : Entry) (pool : Word) (l n : Nat) (src : Nat → Nat → Eng (List Fp)) (s : State) : Res Append := do
  faultIf (2 ^ 32 ≤ l + n) .tensor e.w
  let (need, s1, _) ← engRun (pagesNeeded j x (pagesOf x l n)) s
  let (refused, s2, _) ← if need.isEmpty then .ok (none, s1, false) else engRun (allocPages j x pool need) s1
  match refused with
  | some st => return { status := st, state := s, zsub := false }
  | none =>
    let (s3, z) ← appendRows j e.k x l src (upto n) s2 false
    match s3.place e.user (e.req (tPtab x) .rmw) with
    | .error y => .error (.become (s3.stopped e.k false false y))
    | .ok (s4, pa) => return { status := kvOkStatus n, state := (s4.dropRdc e.fld (tPtab x) e.ctx).addAt e.ctx pa (BitVec.ofNat 64 n), zsub := z }

/-- The source of KVAPP (R354). -/
def appSrcOk (x y : Entry) : Bool :=
  tKind y = kindPlain && tRank y = 3 && kvFmt (tFmt y) && tExt y 0 = tExt x 0 && tExt y 1 ≤ min 256 (tWin x) && tExt y 2 = 2

def opKvapp (i : Instr) (d : Reg) (tx ty : Nat) : Op :=
  engineNow i (fun j e s => do
    let x := j.ent 0
    let y := j.ent 1
    faultIf (!kvOk x || !appSrcOk x y) .tensor e.w
    let (s1, l, pool) ← e.kvHeader s x
    checkGen x l
    let r ← e.append j x pool l (tExt y 1) (fun t c => readRow j y 1 ty 0 t c 0 (tExt x 0)) s1
    return (r.state, { (e.st.putS d r.status) with zsub := e.st.zsub || r.zsub })) [tx, ty, 0, 0]

/-! ### KVLOOK (R356) -/

/-- Up to 64 elements of the key or the value at a position, from element `el` on, in FP32. -/
def kvRow (j : Job) (x : Entry) (p el : Nat) (v : Bool) : Eng (List Nat) := do
  let pe ← kvPage j x p
  (upto 64).mapM fun i =>
    if el + i < tExt x 0 then do
      let w ← engExact j (kvElemVa x pe (kvSlot x p) (if v then 1 else 0) (el + i)) (fmtBytes (tFmt x))
      return (cvtFp .fp32 rneOnly (elemFp (tFmt x) w)).1
    else return 0

def opKvlook (i : Instr) (d a b : Reg) (tx : Nat) (v : Bool) : Op :=
  engineNow i (fun j e s => do
    let x := j.ent 0
    let p := (e.st.scalar a).toNat
    let el := (e.st.scalar b).toNat
    faultIf (!kvOk x || el % 64 != 0 || tExt x 0 ≤ el) .tensor e.w
    let (s1, l, _) ← e.kvHeader s x
    checkGen x l
    faultIf (!visibleAt x l p) .kvstale (e.st.scalar a)
    let (row, s2, _) ← engRun (kvRow j x p el v) s1
    return (s2, e.st.putV d (ofElems row false))) [tx, 0, 0, 0]

/-! ### Tree instructions (R357 to R360) -/

/-- The parents as a tree has them, depths with them: the first node that is not well formed, or the depths. -/
def treeFault (ps : List Nat) : Option Nat :=
  let t : Tree := { par := ps }
  (upto ps.length).find? fun i =>
    let p := (ps[i]?).getD 0
    (i = 0 && p != 0) || (0 < i && i ≤ p) || 63 < t.depth i

def opTtset (i : Instr) (a : Reg) (tx : Nat) : Op :=
  engineNow i (fun j e s => do
    let x := j.ent 0
    faultIf (!(tKind x = kindPlain && tFmt x = 7 && tRank x = 1 && tExt x 0 ≤ 256)) .tensor e.w
    let old := s.tree e.tile e.st.treesel
    faultIf (e.foreign old) .tree e.w
    let (ps, s1, _) ← engRun ((upto (tExt x 0)).mapM fun n => engExact j (tElem x n 0 0 0) 1) s
    match treeFault ps with
    | some n => failWith .tree (BitVec.ofNat 64 (256 * n + (ps[n]?).getD 0))
    | none => do
      let base := (e.st.scalar a).toNat
      faultIf (2 ^ 32 - 64 < base) .tree e.w
      return (s1.setTree e.tile e.st.treesel
        { valid := true, owner := e.ctx, part := e.pn, tser := old.tser + 1, basepos := base, par := ps }, e.st)) [tx, 0, 0, 0]

/-- The selected tree, for a read of it (R358). -/
def Env.readTree (e : Env) (s : State) : Res Tree := do
  let t := s.tree e.tile e.st.treesel
  faultIf (!e.usable t) .tree e.w
  return t

def opTtmask (i : Instr) (d a : Reg) : Op :=
  engineNow i (fun _ e s => do
    let t ← e.readTree s
    let first := (e.st.scalar a).toNat
    let rows := (upto 8).map fun q =>
      if first + q < t.n then packN 1 ((upto 256).map fun n => if n < t.n && t.sees (first + q) n then 1 else 0) else 0
    return (s, e.st.putV d (BitVec.ofNat 2048 (packN 256 rows)))) [0, 0, 0, 0]

def opTtpos (i : Instr) (d a : Reg) (depth : Bool) : Op :=
  engineNow i (fun _ e s => do
    let t ← e.readTree s
    let first := (e.st.scalar a).toNat
    let l := (upto 64).map fun n =>
      if first + n < t.n then (if depth then 0 else t.basepos) + t.depth (first + n) else 0xFFFFFFFF
    return (s, e.st.putV d (ofElems l false))) [0, 0, 0, 0]

/-- TTPRUNE (R359). A path longer than WIN is appended all the same, so that its later positions take the ring slots of earlier ones:
DESIGN CHOICE, no rule states an outcome (log 74). -/
def opTtprune (i : Instr) (d a : Reg) (tx : Nat) (clr : Bool) : Op :=
  engineNow i (fun j e s => do
    let y := j.ent 0
    let x := e.p.tensor e.ctx (tKvt y)
    faultIf (!(tKind y = kindTree && kvOk x && stagingOk y (tExt x 0))) .tensor e.w
    let t := s.tree e.tile (tTree y)
    faultIf (!e.usable t) .tree e.w
    let leaf := e.st.scalar a
    faultIf (t.n ≤ leaf.toNat) .tree leaf
    faultIf (tExt y 1 < t.n) .tensor e.w
    let (s1, l, pool) ← e.kvHeader s x
    checkGen x l
    faultIf (t.basepos != l) .tree e.w
    let path := (t.up 64 leaf.toNat).reverse
    let r ← e.append j x pool l path.length
      (fun n c => readRow j y 0 tx 0 ((path[n]?).getD 0) c 0 (tExt x 0)) s1
    let s2 := if clr && bits r.status 7 0 = 0 then r.state.setTree e.tile (tTree y) t.emptied else r.state
    return (s2, { (e.st.putS d r.status) with zsub := e.st.zsub || r.zsub })) [tx, 0, 0, 0]

def opTtclr (i : Instr) : Op :=
  engineNow i (fun _ e s => do
    let t := s.tree e.tile e.st.treesel
    faultIf (e.foreign t) .tree e.w
    return (s.setTree e.tile e.st.treesel t.emptied, e.st)) [0, 0, 0, 0]

/-! ### Meanings -/

/-- ATTN (R348 to R352). -/
def execAttn (k : Ctl) (d a b : Reg) (tx ty : Fin 1024) (causal : Bool) (s : State) : Host.Outcome State Fault Refusal :=
  runWord (.attn k d a b tx ty causal) k
    (engineOp (prepAttn (.attn k d a b tx ty causal) d a b tx.val ty.val causal)) s

/-- ATTMERGE (R353). -/
def execAttmerge (k : Ctl) (a b : Reg) (tx ty : Fin 1024) (s : State) : Host.Outcome State Fault Refusal :=
  runWord (.attmerge k a b tx ty) k (opAttmerge (.attmerge k a b tx ty) a b tx.val ty.val) s

/-- KVAPP (R354). -/
def execKvapp (k : Ctl) (d : Reg) (tx ty : Fin 1024) (s : State) : Host.Outcome State Fault Refusal :=
  runWord (.kvapp k d tx ty) k (opKvapp (.kvapp k d tx ty) d tx.val ty.val) s

/-- KVLOOK (R356). -/
def execKvlook (k : Ctl) (d a b : Reg) (tx : Fin 1024) (v : Bool) (s : State) : Host.Outcome State Fault Refusal :=
  runWord (.kvlook k d a b tx v) k (opKvlook (.kvlook k d a b tx v) d a b tx.val v) s

/-- TTSET (R357). -/
def execTtset (k : Ctl) (a : Reg) (tx : Fin 1024) (s : State) : Host.Outcome State Fault Refusal :=
  runWord (.ttset k a tx) k (opTtset (.ttset k a tx) a tx.val) s

/-- TTMASK (R358). -/
def execTtmask (k : Ctl) (d a : Reg) (s : State) : Host.Outcome State Fault Refusal :=
  runWord (.ttmask k d a) k (opTtmask (.ttmask k d a) d a) s

/-- TTPOS (R358). -/
def execTtpos (k : Ctl) (d a : Reg) (depth : Bool) (s : State) : Host.Outcome State Fault Refusal :=
  runWord (.ttpos k d a depth) k (opTtpos (.ttpos k d a depth) d a depth) s

/-- TTPRUNE (R359). -/
def execTtprune (k : Ctl) (d a : Reg) (tx : Fin 1024) (clr : Bool) (s : State) : Host.Outcome State Fault Refusal :=
  runWord (.ttprune k d a tx clr) k (opTtprune (.ttprune k d a tx clr) d a tx.val clr) s

/-- TTCLR (R360). -/
def execTtclr (k : Ctl) (s : State) : Host.Outcome State Fault Refusal := runWord (.ttclr k) k (opTtclr (.ttclr k)) s

end Sys2Proof.Machine
end

