-- ==== Sys2Proof/Machine/Planisher.lean ====
section
/-! DEFINITION. Sys2Proof/Machine/Planisher.lean: the vector engine (chapter 14): VEMAP, VEZIP, VERED, VENORM, VESOFT and
VECVT. -/

namespace Sys2Proof.Machine

/-! ### Formats (R365) -/

/-- The compute format of an instruction: FP64 when some tensor that it names has FMT 1. -/
def Job.compute (j : Job) : FpFmt := if j.ents.any fun x => tFmt x = 1 then .fp64 else .fp32

/-- A value as it enters, or is rounded to, the compute format. -/
def inFmt (g : FpFmt) (x : Fp) : Fp := readFp g (cvtFp g rneOnly x).1

/-- A result of an operation as a datum. -/
def asFp (g : FpFmt) (r : FpRes) : Fp := readFp g r.1

/-- The pattern of a value in a tensor's format other than BFP, rounded by `md` (R202, R203). -/
def outElem (f : Nat) (md : RoundMode) (x : Fp) : Nat :=
  match fpOfFmt f with
  | some h => (cvtFp h { md := md, fz := false } x).1
  | none => wrapN (ftoiFp md (8 * fmtBytes f) (f = 7) x).1 (8 * fmtBytes f)

/-! ### Elements in linear order (R366) -/

/-- A run of elements of one row within one of its blocks of 32: row, block, first element of the run, and how many. -/
structure Seg where
  row : Nat
  b   : Nat
  lo  : Nat
  n   : Nat
  deriving DecidableEq, Repr

/-- The runs of the elements `p` to `q - 1` of a tensor. -/
def segsOf (x : Entry) (p q : Nat) : List Seg :=
  let n := tExt x 0
  let rows := if p < q then (upto ((q - 1) / n + 1 - p / n)).map fun i => p / n + i else []
  rows.flatMap fun r => (upto ((n + 31) / 32)).filterMap fun b =>
    let first := r * n + 32 * b
    let lo := max p first
    let hi := min q (r * n + min (32 * (b + 1)) n)
    if lo < hi then some { row := r, b := b, lo := lo - first, n := hi - lo } else none

/-- Coordinates of a row by its linear index. -/
def rowCoords (x : Entry) (r : Nat) : Nat × Nat × Nat := (r % tExt x 1, r / tExt x 1 % tExt x 2, r / (tExt x 1 * tExt x 2))

/-- Number of elements, and of rows. -/
def tRows (x : Entry) : Nat := tExt x 1 * tExt x 2 * tExt x 3
def tCount (x : Entry) : Nat := tExt x 0 * tRows x

/-- The elements of a run, with the coordinates of its row. -/
def readSeg (j : Job) (x : Entry) (role id : Nat) (g : Seg) (c : Nat × Nat × Nat) : Eng (List Fp) := do
  let (i1, i2, i3) := c
  let p ← if tFmt x = fmtBfp then readPiece j x role id g.b i1 i2 i3 32
    else readElems j (tFmt x) (fun i => tElem x (32 * g.b + g.lo + i) i1 i2 i3) g.n g.lo role id i1 (32 * g.b)
  return p.vals

/-- The same run of the second source of VEZIP, extents of 1 broadcast (R370). -/
def readOther (j : Job) (y : Entry) (id : Nat) (g : Seg) (c : Nat × Nat × Nat) : Eng (List Fp) := do
  let at1 := fun (k i : Nat) => if tExt y k = 1 then 0 else i
  let c' := (at1 1 c.1, at1 2 c.2.1, at1 3 c.2.2)
  if tExt y 0 = 1 then do
    let v ← readSeg j y 1 id { g with b := 0, lo := 0, n := 1 } c'
    return List.replicate g.n ((v[0]?).getD (.fin false 0 0))
  else readSeg j y 1 id g c'

/-- The writes of a run of results. -/
def writeSeg (j : Job) (y : Entry) (md : RoundMode) (g : Seg) (vals : List Fp) : Eng (List StoreElem) := do
  let (i1, i2, i3) := rowCoords y g.row
  if tFmt y = fmtBfp then writeBlock j y g.b i1 i2 i3 (quantise (tW y) vals).1
  else (vals.zip (upto g.n)).mapM fun (v, i) =>
    engWrite j (tElem y (32 * g.b + g.lo + i) i1 i2 i3) (fmtBytes (tFmt y)) (outElem (tFmt y) md v)

/-- A whole row of results. -/
def writeRow (j : Job) (y : Entry) (r : Nat) (vals : List Fp) : Eng (List StoreElem) := do
  let n := vals.length
  let ws ← (upto ((n + 31) / 32)).mapM fun b =>
    writeSeg j y .rne { row := r, b := b, lo := 0, n := min 32 (n - 32 * b) } ((vals.drop (32 * b)).take 32)
  return ws.flatten

/-- Position of an instruction as a linear index, and back (Table 14.4). -/
def Job.linear (j : Job) : Nat := j.pos.1 * 2 ^ 32 + j.pos.2
def posOf (i : Nat) : Nat × Nat := (i / 2 ^ 32, i % 2 ^ 32)

/-- Elements per cycle of a lane pass (R364). -/
def laneRate (g : FpFmt) : Nat := if g = .fp64 then 256 else 1024

/-- The row-block of an element-wise instruction at `r` elements in a cycle. -/
def mapBlock (j : Job) (r : Nat) (md : RoundMode) (val : Seg → Nat × Nat × Nat → Eng (List Fp)) : Eng RowBlock := do
  let y := j.ent 2
  let p := j.linear
  let q := min (p + 256 * r) (tCount y)
  let ws ← (segsOf y p q).mapM fun g => do writeSeg j y md g (← val g (rowCoords y g.row))
  return { writes := ws.flatten, next := if q < tCount y then some (posOf q) else none, cycles := (q - p + r - 1) / r }

/-! ### Functions (Table 14.3) -/

/-- The order index of an FP32 pattern: -0 stands just below +0. -/
def ordOf (p : Nat) : Int := if p < 2 ^ 31 then p else -1 - ((p : Int) - 2 ^ 31)
def ofOrd (i : Int) : Nat := if 0 ≤ i then i.toNat else (2 ^ 31 - 1 - i).toNat

/-- A dyadic multiple of 1/d rounded to FP32. -/
def roundRat (md : RoundMode) (v : Int) (d : Nat) (e : Int) : Nat :=
  if v = 0 then 0 else (roundTo .fp32 md false (v < 0) v.natAbs d e).1

/-- One of the FP32 values within 2 ulp, or 2^-126, of the real `v`/`d` times 2^`e` (R369): `pick` says which. -/
def nearby (pick : Nat) (v : Int) (d : Nat) (e : Int) : Nat :=
  let l := if v = 0 then -126 else logFloor v.natAbs d e
  let de := max (max l (-126) - 22) (-126)
  let (p, q, k) := align2 v e d de
  let a := ordOf (roundRat .rup (p - q) d k)
  let b := ordOf (roundRat .rdn (p + q) d k)
  ofOrd (a + (pick % (b - a + 1).toNat : Nat))

/-- Numerator and denominator of 1/(1 + e^-t) for t of 320 fraction bits. -/
def sigmoid (t : Int) : Nat × Nat :=
  let (a, i) := if 2 ^ 329 ≤ t then (2 ^ fixP, 700) else if t ≤ -(2 ^ 329) then (2 ^ fixP, -700)
    else pow2Fix (t * log2eFix / 2 ^ (640 - fixP))
  if 0 ≤ i then (a * 2 ^ i.toNat, a * 2 ^ i.toNat + 2 ^ fixP) else (a, a + 2 ^ (fixP + (-i).toNat))

/-- The argument of the logistic function in F = 15, twice that of the hyperbolic tangent, to 320 fraction bits. -/
def geluArg (m e : Int) : Int :=
  let (a, b, k) := align2 1000000 0 (44715 * m * m) (2 * e)
  toFix 320 (2 * 797885 * m * (a + b)) (e + k) / 10 ^ 12

/-- F = 13 to 15. -/
def sigmaFn (f : Nat) (x : Fp) : Fp :=
  let v := match x with
    | .nan _ => canonNan .fp32
    | .inf n => if n then 0 else if f = 13 then 127 * 2 ^ 23 else infOf .fp32 false
    | .fin n m e =>
      let sm := signed n m
      let (a, b) := sigmoid (if f = 15 then geluArg sm e else toFix 320 sm e)
      let pick := Config.ulpOffset f (writeFp .fp32 x)
      if f = 13 then nearby pick a b 0 else nearby pick (sm * a) b e
  readFp .fp32 v

/-- VEMAP (Table 14.3): function `f` with constant `c` in format `g`. -/
def mapFn (g : FpFmt) (f : Nat) (c x : Fp) : Fp :=
  let up := fun (a : Approx) => a.up .fp32 (writeFp .fp32 x)
  match f with
  | 0 => x
  | 1 => match x with
    | .nan s => .nan s
    | .inf _ => .inf false
    | .fin _ m e => .fin false m e
  | 2 => x.negate
  | 3 => asFp g (mulFp g rneOnly c x)
  | 4 => asFp g (addFp g rneOnly x c false)
  | 5 => if x.isNan then x else if fpLt (.fin false 0 0) x then x else .fin false 0 0
  | 6 => asFp g (sqrtFp g rneOnly x)
  | 7 => asFp g (gRcp g rneOnly x)
  | 8 => asFp g (rsqFp g false (up .rsq) x)
  | 9 => asFp g (exp2Fp g false (up .exp2) x)
  | 10 => asFp g (expFp (up .vexp) x)
  | 11 => asFp g (log2Fp g false (up .log2) x)
  | 12 => asFp g (tanhFp g false (up .tanh) x)
  | _ => sigmaFn f x

/-- VEZIP (R370). -/
def zipFn (g : FpFmt) (f : Nat) (c a b : Fp) : Fp :=
  match f with
  | 0 => asFp g (addFp g rneOnly a b false)
  | 1 => asFp g (addFp g rneOnly a b.negate false)
  | 2 => asFp g (mulFp g rneOnly a b)
  | 3 => asFp g (divFp g rneOnly a b)
  | 4 => asFp g (minMaxFp g false a b)
  | 5 => asFp g (minMaxFp g true a b)
  | _ => asFp g (fmaFp g rneOnly false c a b)

/-- One level of the tree of R241 over data: a node with one child passes it on, as R241 has it, and rounds nothing: DEDUCED beside
R371 (log 72). -/
def fpLevel (c : Fp → Fp → Fp) : List Fp → List Fp
  | a :: b :: t => c a b :: fpLevel c t
  | l => l

/-- The tree through `k` levels. -/
def fpTree (c : Fp → Fp → Fp) : Nat → List Fp → Fp
  | 0, l => (l[0]?).getD (.fin false 0 0)
  | k + 1, l => fpTree c k (fpLevel c l)

/-- Levels over every row that Table 14.2 admits. -/
def treeLevels : Nat := 17

def sumTree (g : FpFmt) (l : List Fp) : Fp := inFmt g (fpTree (fun a b => asFp g (addFp g rneOnly a b false)) treeLevels l)

/-- VERED: node and leaf of function `f` (R371). -/
def redNode (g : FpFmt) (f : Nat) (a b : Fp) : Fp :=
  match f with
  | 1 | 4 => asFp g (minMaxFp g true (inFmt g a) (inFmt g b))
  | 2 => asFp g (minMaxFp g false (inFmt g a) (inFmt g b))
  | _ => asFp g (addFp g rneOnly a b false)

def redLeaf (f : Nat) (x : Fp) : Fp :=
  match f with
  | 3 => (mulExact x x).1
  | 4 => match x with
    | .nan s => .nan s
    | .inf _ => .inf false
    | .fin _ m e => .fin false m e
  | _ => x

/-! ### Rows (R371 to R373) -/

/-- The largest number of rows, by its bits from the highest down, that `ok` admits. -/
def largestOk (ok : Nat → Bool) : Nat → Nat → Nat
  | 0, acc => acc
  | i + 1, acc => largestOk ok i (if ok (acc + 2 ^ i) then acc + 2 ^ i else acc)

/-- A row-block of a row-wise instruction, `cost k` being the cycles of `k` rows. -/
def rowsBlock (j : Job) (cost : Nat → Nat) (row : Nat → Eng (List StoreElem)) : Eng RowBlock := do
  let total := tRows (j.ent 0)
  let p := j.linear
  let k := min (max 1 (largestOk (fun k => cost k ≤ 256) 20 0)) (total - p)
  let ws ← (upto k).mapM fun i => row (p + i)
  return { writes := ws.flatten, next := if p + k < total then some (posOf (p + k)) else none, cycles := cost k }

/-- Cycles of a pass over `k` rows of `n` elements at `r` in a cycle. -/
def passCycles (k n r : Nat) : Nat := (k * n + r - 1) / r

/-- Row `r` of the source in the compute format. -/
def sourceRow (j : Job) (r : Nat) : Eng (List Fp) := do
  let x := j.ent 0
  let (i1, i2, i3) := rowCoords x r
  let l ← readRow j x 0 (j.id 0) 0 i1 i2 i3 (tExt x 0)
  return l.map (inFmt j.compute)

/-- VERED (R371). -/
def redBlock (j : Job) (f : Nat) (acc : Bool) : Eng RowBlock :=
  let g := j.compute
  let y := j.ent 2
  rowsBlock j (fun k => passCycles k (tExt (j.ent 0) 0) (laneRate g)) fun r => do
    let l ← sourceRow j r
    let v := inFmt g (fpTree (redNode g f) treeLevels (l.map (redLeaf f)))
    let (i1, i2, i3) := rowCoords y r
    let old ← if acc then readRow j y 2 (j.id 2) 0 i1 i2 i3 1 else (pure [] : Eng (List Fp))
    writeRow j y r [match old[0]? with
      | some o => redNode g f (inFmt g o) v
      | none => v]

/-- A number of elements as a datum. -/
def countFp (n : Nat) : Fp := .fin false n 0

/-- A row normalised, with no gain where the list is empty (R372). With compute format FP64 the faithful 1/√ is a neighbour in FP64:
DESIGN CHOICE, R369 gives it for FP32 alone (log 73). -/
def normRow (g : FpFmt) (mean : Bool) (eps : Fp) (gain : List Fp) (l : List Fp) : List Fp :=
  let sub := fun (x y : Fp) => asFp g (addFp g rneOnly x y.negate false)
  let mul := fun (x y : Fp) => asFp g (mulFp g rneOnly x y)
  let div := fun (x y : Fp) => asFp g (divFp g rneOnly x y)
  let mu := if mean then div (sumTree g l) (countFp l.length) else .fin false 0 0
  let ds := l.map fun x => sub x mu
  let v := div (sumTree g (ds.map fun d => mul d d)) (countFp l.length)
  let a := asFp g (addFp g rneOnly v eps false)
  let r := asFp g (rsqFp g false (Approx.up .rsq g (writeFp g a)) a)
  let ys := ds.map fun d => mul d r
  if gain.isEmpty then ys else List.zipWith mul ys gain

/-- VENORM. -/
def normBlock (j : Job) (gain mean : Bool) : Eng RowBlock :=
  let g := j.compute
  let n := tExt (j.ent 0) 0
  let passes := if mean then 3 else 2
  rowsBlock j (fun k => passes * passCycles k n (laneRate g) + (k + 255) / 256) fun r => do
    let l ← sourceRow j r
    let gs ← if gain then readRow j (j.ent 1) 1 (j.id 1) 0 0 0 0 n else (pure [] : Eng (List Fp))
    writeRow j (j.ent 2) r (normRow g mean (inFmt g (readFp .fp32 (j.parm.toNat % 2 ^ 32))) (gs.map (inFmt g)) l)

/-- A row of the softmax (R373). -/
def softRow (scale : Fp) (l : List Fp) : List Fp :=
  let g := FpFmt.fp32
  let zs := l.map fun x => asFp g (mulFp g rneOnly scale x)
  if zs.any fun z => z.isNan || z = .inf false then l.map fun _ => .nan false
  else
    let m := zs.foldl (fun a z => asFp g (minMaxFp g true a z)) (.inf true)
    if m = .inf true then l.map fun _ => .fin false 0 0
    else
      let es := zs.map fun z =>
        let d := asFp g (addFp g rneOnly z m.negate false)
        asFp g (expFp (Approx.up .vexp g (writeFp g d)) d)
      let s := sumTree g es
      es.map fun e => asFp g (divFp g rneOnly e s)

/-- VESOFT. -/
def softBlock (j : Job) : Eng RowBlock :=
  let n := tExt (j.ent 0) 0
  rowsBlock j (fun k => 2 * passCycles k n 1024 + passCycles k n 256) fun r => do
    let l ← sourceRow j r
    writeRow j (j.ent 2) r (softRow (readFp .fp32 (j.parm.toNat % 2 ^ 32)) l)

/-! ### Row-blocks of element-wise instructions -/

/-- F of a function word, and its constant. -/
def fnOf (w : Word) : Nat := bits w 3 0
def fnConst (w : Word) : Fp := readFp .fp32 (bits w 63 32)

/-- VEMAP (R369). -/
def emapBlock (j : Job) : Eng RowBlock :=
  let g := j.compute
  let f := fnOf j.parm
  mapBlock j (if 8 ≤ f then 256 else laneRate g) .rne fun s c => do
    let l ← readSeg j (j.ent 0) 0 (j.id 0) s c
    return l.map fun x => mapFn g f (inFmt g (fnConst j.parm)) (inFmt g x)

/-- VEZIP (R370). -/
def ezipBlock (j : Job) : Eng RowBlock :=
  let g := j.compute
  mapBlock j (laneRate g) .rne fun s c => do
    let a ← readSeg j (j.ent 0) 0 (j.id 0) s c
    let b ← readOther j (j.ent 1) (j.id 1) s c
    return List.zipWith (fun x y => zipFn g (fnOf j.parm) (inFmt g (fnConst j.parm)) (inFmt g x) (inFmt g y)) a b

/-- VECVT (R374): from the exact value. -/
def ecvtBlock (j : Job) (md : RoundMode) : Eng RowBlock :=
  mapBlock j (laneRate j.compute) md fun s c => readSeg j (j.ent 0) 0 (j.id 0) s c

/-! ### Checks -/

/-- A tensor that the Planisher accepts (R365). -/
def veOk (x : Entry) : Bool := tKind x = kindPlain && tFmt x ≤ fmtBfp

/-- The result has the source's rank and extents. -/
def sameShape (x y : Entry) : Bool := tRank x = tRank y && (upto 4).all fun k => tExt x k = tExt y k

/-- Checks, then class, then place of a Planisher instruction: `ok` looks at the entries with PARM set. -/
def prepVe (i : Instr) (a : Reg) (parm : Option Reg) (tx : Nat) (ty : Option Nat) (ok : Job → Bool) (e : Env) (s : State) :
    Res (State × Job) := do
  let r ← e.regId a
  let j := e.newJob i true [tx, ty.getD 0, r]
  let none' : Entry := Vector.replicate 16 0
  let j := { j with
    parm := match parm with
      | some b => e.st.scalar b
      | none => 0
    ents := [j.ent 0, if ty.isSome then j.ent 1 else none', j.ent 2] }
  let named := if ty.isSome then j.ents else [j.ent 0, j.ent 2]
  faultIf (!(named.all veOk && ok j)) .tensor e.w
  e.heavyClass
  let j ← e.resumed s j
  return (s, j)

/-- Conditions of each instruction beyond those of its tensors. -/
def emapOk (j : Job) : Bool :=
  bits j.parm 31 4 = 0 && sameShape (j.ent 0) (j.ent 2) && !(8 ≤ fnOf j.parm && j.compute = .fp64)
def ezipOk (j : Job) : Bool :=
  bits j.parm 31 4 = 0 && fnOf j.parm ≤ 6 && sameShape (j.ent 0) (j.ent 2) &&
  (upto 4).all fun k => tExt (j.ent 1) k = tExt (j.ent 0) k || tExt (j.ent 1) k = 1
def redOk (j : Job) : Bool :=
  bits j.parm 31 4 = 0 && fnOf j.parm ≤ 4 && tExt (j.ent 2) 0 = 1 &&
  ((upto 3).all fun k => tExt (j.ent 0) (k + 1) = tExt (j.ent 2) (k + 1)) &&
  tExt (j.ent 0) 0 ≤ (if j.compute = .fp64 then 16384 else 65536)
def epsOk (x : Fp) : Bool :=
  match x with
  | .fin n m _ => !n || m = 0
  | _ => false
def normOk (gain : Bool) (j : Job) : Bool :=
  bits j.parm 63 32 = 0 && epsOk (readFp .fp32 (j.parm.toNat % 2 ^ 32)) && sameShape (j.ent 0) (j.ent 2) &&
  (!gain || (tRank (j.ent 1) = 1 && tExt (j.ent 1) 0 = tExt (j.ent 0) 0)) &&
  tExt (j.ent 0) 0 ≤ (if j.compute = .fp64 then 16384 else 65536)
def softOk (j : Job) : Bool :=
  bits j.parm 63 32 = 0 && sameShape (j.ent 0) (j.ent 2) && j.compute = .fp32 && tExt (j.ent 0) 0 ≤ 32768
def ecvtOk (md : RoundMode) (j : Job) : Bool := sameShape (j.ent 0) (j.ent 2) && (md = .rne || tFmt (j.ent 2) != fmtBfp)

/-! ### Meanings -/

/-- VEMAP (R369). -/
def execVemap (k : Ctl) (a b : Reg) (tx : Fin 1024) (s : State) : Host.Outcome State Fault Refusal :=
  runWord (.vemap k a b tx) k (engineOp (prepVe (.vemap k a b tx) a (some b) tx.val none emapOk)) s

/-- VEZIP (R370). -/
def execVezip (k : Ctl) (a b : Reg) (tx ty : Fin 1024) (s : State) : Host.Outcome State Fault Refusal :=
  runWord (.vezip k a b tx ty) k (engineOp (prepVe (.vezip k a b tx ty) a (some b) tx.val (some ty.val) ezipOk)) s

/-- VERED (R371). -/
def execVered (k : Ctl) (a b : Reg) (tx : Fin 1024) (acc : Bool) (s : State) : Host.Outcome State Fault Refusal :=
  runWord (.vered k a b tx acc) k (engineOp (prepVe (.vered k a b tx acc) a (some b) tx.val none redOk)) s

/-- VENORM (R372). -/
def execVenorm (k : Ctl) (a b : Reg) (tx : Fin 1024) (gain : Option (Fin 1024)) (mean : Bool) (s : State) : Host.Outcome State Fault Refusal :=
  runWord (.venorm k a b tx gain mean) k
    (engineOp (prepVe (.venorm k a b tx gain mean) a (some b) tx.val (gain.map (·.val)) (normOk gain.isSome))) s

/-- VESOFT (R373). -/
def execVesoft (k : Ctl) (a b : Reg) (tx : Fin 1024) (s : State) : Host.Outcome State Fault Refusal :=
  runWord (.vesoft k a b tx) k (engineOp (prepVe (.vesoft k a b tx) a (some b) tx.val none softOk)) s

/-- VECVT (R374). -/
def execVecvt (k : Ctl) (a : Reg) (tx : Fin 1024) (rnd : Option RoundMode) (s : State) : Host.Outcome State Fault Refusal :=
  runWord (.vecvt k a tx rnd) k (engineOp (prepVe (.vecvt k a tx rnd) a none tx.val none (ecvtOk (rnd.getD .rne)))) s

end Sys2Proof.Machine
end

