-- ==== Sys2Proof/Machine/Blocks.lean ====
section
/-! DEFINITION. Sys2Proof/Machine/Blocks.lean: the row-blocks of a tile's engine (R319, R320, R324): start, end, and the idle
time after a row-block at a reduced fraction. -/

namespace Sys2Proof.Machine

/-- The next row-block of an instruction. -/
def Job.block (j : Job) : Eng RowBlock :=
  match j.instr with
  | .mm _ _ _ _ acc => mmBlock j false acc
  | .mmdist _ _ _ _ acc => mmBlock j true acc
  | .mmtopk _ _ _ _ _ dist => topkBlock j dist
  | .spmm _ _ _ _ _ acc => spmmBlock j acc
  | .attn _ _ _ _ _ _ causal => attnBlock j causal
  | .vemap .. => emapBlock j
  | .vezip .. => ezipBlock j
  | .vered _ _ _ _ acc => redBlock j (fnOf j.parm) acc
  | .venorm _ _ _ _ gain mean => normBlock j gain.isSome mean
  | .vesoft .. => softBlock j
  | .vecvt _ _ _ rnd => ecvtBlock j (rnd.getD .rne)
  | _ => return { writes := [], next := none, cycles := 0 }

/-- The tree of an ATTN with the TSER that its first row-block sees (R346; DEDUCED, log 61). -/
def Job.treeSeen (j : Job) (s : State) : Option (Nat × BitVec 16) :=
  if j.seen then j.tree else j.tree.map fun x => (x.1, (s.tree (tileOfSlot j.k) x.1).tser)

/-- How an instruction stops when the loads of its next row-block cannot be made (R320, R176). -/
def jobStopOf : Stop → JobStop
  | .fault c v => .fault c v
  | .walkLost v => .walkLost v
  | .page va f acc m => .page va f acc m
  | .tier va f acc en big slot => .tier va f acc en big slot
  | .wait | .become _ => .preempt

/-- Idle cycles after a row-block of `a` cycles at effective class `c` (R324). -/
def idleCycles (a c : Nat) : Nat := if c ≤ 6 then (a * (8 - c) + c - 1) / c else 0

/-- The tile's partition is halted (R320). -/
def State.tileHalted (s : State) (j : Job) : Bool :=
  match tget s.parts j.part with
  | some p => p.halt.isSome
  | none => false

/-- ROW_BLOCK_START (R319, R320, R324), at a row-block boundary, where the tile takes its notices (R445). An instruction whose loads have had no reply waits for it, and the others go on (R173). -/
def execRowBlockStart (tile : Nat) (s : State) : Host.Outcome State Fault Refusal :=
  let s := s.haltPreempted tile
  if (s.tile tile).idle || (s.tile tile).running || !s.awake tile then .next s
  else
    let s := s.takeNotices tile fun n => n.core.isNone
    let t := s.tile tile
    match t.jobs.find? fun j => j.status = .ready && !s.tileHalted j && !s.jobPreempted j && replyNow s.time j.lost != .waits with
    | none => .next s
    | some j =>
      let c := effClass (tileKind tile) t.grant j.cls
      if j.heavy && c = 0 then .next (s.haltJob tile j .token)
      else
        match engRun j.block s with
        | .error x => .next (s.haltJob tile j (jobStopOf x))
        | .ok (b, s1, z) =>
          match replyNow s.time j.lost with
          | .sent l =>
            .next (((s.putJob tile { j with lost := some { l with since := some s.time } }).postAt (l.ends s.time)
              (.rowBlockStart tile)).postOnce (.rowBlockStart tile))
          | _ =>
          .next ((s1.putJob tile
            { j with status := .running, lost := none, writes := b.writes, next := b.next, acc := b.acc, seen := true, tree := j.treeSeen s, zsub := j.zsub || z,
                     cycles := if j.heavy then idleCycles b.cycles c else 0 }).postOnce (.rowBlockEnd tile))

/-- The running instruction after its row-block: at the end of the order, or done. -/
def Tile.blockDone (t : Tile) (j : Job) : Tile :=
  let j' := { j with writes := [], next := none, cycles := 0, pos := j.next.getD j.pos,
                     status := if j.next.isSome then .ready else .done }
  { t with jobs := t.jobs.filter (fun x => x.u != j.u) ++ [j'], idle := j.cycles != 0 }

/-- The tile's array is idle for the cycles that follow a row-block of an instruction, counted on the clock of the core that issued
it (R7, R324, log 60). -/
def State.idleFor (s : State) (tile : Nat) (j : Job) : State :=
  let c := coreOfSlot j.k
  let n := s.cycleOf c + j.cycles
  (s.modTile tile fun t => { t with idleCore := c, idleEnd := n }).postAt (max (s.time + 1) (s.cycleEnds c (n - 1))) (.engineIdleEnd tile)

/-- ROW_BLOCK_END: the writes of the row-block are performed (R318), pre-empted instructions stop (R320), and the next boundary
follows, after the idle time. -/
def execRowBlockEnd (tile : Nat) (s : State) : Host.Outcome State Fault Refusal :=
  match (s.tile tile).jobs.find? fun j => j.status = .running with
  | none => .next s
  | some j =>
    let s1 := ((s.putElems j.writer j.writes).modTile tile fun t => t.blockDone j).postSlot j.k
    let s2 := (if (s1.tile tile).notices.isEmpty then s1 else s1.postOnce (.revocationNotice tile)).haltPreempted tile
    .next (if j.cycles = 0 then s2.postOnce (.rowBlockStart tile) else s2.idleFor tile j)

/-- ENGINE_IDLE_END (R324): the array may start a row-block again, once the cycles have passed: a stretched clock makes them
longer. -/
def execEngineIdleEnd (tile : Nat) (s : State) : Host.Outcome State Fault Refusal :=
  let t := s.tile tile
  if s.cycleOf t.idleCore < t.idleEnd then
    .next (s.postAt (max (s.time + 1) (s.cycleEnds t.idleCore (t.idleEnd - 1))) (.engineIdleEnd tile))
  else
  .next ((s.modTile tile fun t => { t with idle := false }).postOnce (.rowBlockStart tile))

end Sys2Proof.Machine
end

