-- ==== Sys2Proof/Machine/Gateway.lean ====
section
/-! DEFINITION. Sys2Proof/Machine/Gateway.lean: the instructions of gateway cores, GWNEXT (R539) and BADDQ (R540). -/

namespace Sys2Proof.Machine

/-! ### GWNEXT (R539) -/

/-- GWNEXT: the head of the block-index queue, whose pop is an acquire at .tile; 0 from an empty queue. -/
def opGwnext (d : Reg) : Op := fun e s =>
  match portOfTile e.tile with
  | none => failWith .engine e.w
  | some n =>
    match (s.port n).blocks with
    | [] => .ok (e.put s (e.st.putS d 0))
    | x :: r => .ok ((e.put (s.modPort n fun y => { y with blocks := r }) (e.st.putS d x)).acquire e.k .tile)

/-! ### BADDQ (R540) -/

/-- Elements of a tensor. -/
def seqCount (x : Entry) : Nat := tExt x 0 * tExt x 1 * tExt x 2 * tExt x 3

/-- Coordinates of element `n` in the element order of R300, i0 fastest. -/
def tCoord (x : Entry) (n : Nat) : Nat × Nat × Nat × Nat :=
  (n % tExt x 0, n / tExt x 0 % tExt x 1, n / (tExt x 0 * tExt x 1) % tExt x 2, n / (tExt x 0 * tExt x 1 * tExt x 2))

/-- Addresses of 32-element block `k` of a tensor taken as a sequence: its words of 4 bytes, and the exponent byte of a BFP
block. -/
def blockVas (x : Entry) (k : Nat) : List Word × Option Word :=
  if tFmt x = fmtBfp then
    let (i0, i1, i2, i3) := tCoord x (32 * k)
    ((upto (tW x)).map fun i => tBlock x (i0 / 32) i1 i2 i3 + BitVec.ofNat 64 (4 * i), some (tExp x (i0 / 32) i1 i2 i3))
  else
    ((upto 32).map fun j =>
      let (i0, i1, i2, i3) := tCoord x (32 * k + j)
      tElem x i0 i1 i2 i3, none)

/-- The accesses of a block: address, bytes. -/
def blockAccesses (x : Entry) (k : Nat) : List (Word × Nat) :=
  let (ws, ex) := blockVas x k
  ws.map (fun a => (a, 4)) ++ (ex.map fun a => (a, 1)).toList

/-- The places of accesses, in order: ranks 1 to 5 of Table 4.3. -/
def Env.placeAll (e : Env) (acc : Acc) : List (Word × Nat) → State → Res (State × List (Word × Nat × Nat))
  | [], s => .ok (s, [])
  | (va, n) :: t, s => do
    let (s1, pa) ← e.placeOf s va n acc
    let (s2, l) ← e.placeAll acc t s1
    return (s2, (va, pa, n) :: l)

/-- The sum of two exact values; a NaN or an infinity where one of them is no number. -/
def exactSum (x y : Fp) : Fp :=
  match x, y with
  | .fin a m e, .fin b n f =>
    let lo := min e f
    let v := signed a (m * 2 ^ (e - lo).toNat) + signed b (n * 2 ^ (f - lo).toNat)
    .fin (v < 0) v.natAbs lo
  | .fin .., z => z
  | z, _ => z

/-- Elements that saturate when values are quantised to exponent `ex` and width `w` (R207). -/
def satCount (w ex : Nat) (xs : List Fp) : Nat :=
  (xs.filter fun x => match x with
    | .fin n m f =>
      let q := signed n (roundNat .rne n m (f - ((ex : Int) - 127 - (w - 1)))).1
      satInt q (-(2 ^ (w - 1))) (2 ^ (w - 1) - 1) != q
    | _ => false).length

/-- The values of the places of a block, words first. -/
def State.placeVals (s : State) (l : List (Word × Nat × Nat)) : List Nat := l.map fun x => s.valAt x.2.1 x.2.2

/-- A BFP block as its places hold it. -/
def blockAt (w : Nat) (vs : List Nat) : Block := blockOf w ((vs[w]?).getD 0) (packN 32 (vs.take w))

/-- One block added: the writes, and how many elements saturate. -/
def baddqBlock (x y : Entry) (f32 : Bool) (src acc : List Nat) : List Nat × Nat :=
  let b := blockAt (tW x) src
  let xs := (upto 32).map (b.value (tW x))
  if f32 then ((upto 32).map fun j => (addFp .fp32 rneOnly (readFp .fp32 ((acc[j]?).getD 0)) ((xs[j]?).getD (.nan false)) false).1, 0)
  else
    let v := tW y
    let a := blockAt v acc
    let zs := (upto 32).map fun j => exactSum (a.value v j) ((xs[j]?).getD (.nan false))
    let z := (quantise v zs).1
    ((upto v).map (fun i => z.image v / 2 ^ (32 * i) % 2 ^ 32) ++ [z.e], if z.e = 255 then 0 else satCount v z.e zs)

/-- Places read at their home slices: the lines are used there, and no remote copy of the field stays that could be older (R149,
R381, log 51). -/
def Env.readHomes (e : Env) (s : State) (l : List (Word × Nat × Nat)) : State :=
  l.foldl (fun x p => if isPad p.2.1 then x else (x.dropRdcOver e.fld p.1 p.2.2 e.ctx).touchL2 p.2.1 e.ctx) s

/-- The blocks in ascending order; each is read at the home slices, added, and written there. -/
def Env.baddqLoop (e : Env) (x y : Entry) (f32 : Bool) :
    List (List (Word × Nat × Nat) × List (Word × Nat × Nat)) → State → Nat → State × Nat
  | [], s, n => (s, n)
  | (src, acc) :: t, s, n =>
    let (vs, k) := baddqBlock x y f32 (s.placeVals src) (s.placeVals acc)
    let s1 := (acc.zip vs).foldl (fun z (p, v) => z.homeWrite (z.writerOf e.k e.ctx) p.1 p.2.1 (bytesOf p.2.2 v))
      (e.readHomes s (src ++ acc))
    e.baddqLoop x y f32 t s1 (n + k)

/-- The places of every block of a range, the source block before the accumulator block. -/
def Env.baddqPlaces (e : Env) (x y : Entry) :
    List Nat → State → Res (State × List (List (Word × Nat × Nat) × List (Word × Nat × Nat)))
  | [], s => .ok (s, [])
  | k :: t, s => do
    let (s1, a) ← e.placeAll .read (blockAccesses x k) s
    let (s2, b) ← e.placeAll .rmw (blockAccesses y k) s1
    let (s3, l) ← e.baddqPlaces x y t s2
    return (s3, (a, b) :: l)

/-- The tensors and the range are as R540 asks. -/
def baddqOk (x y : Entry) (f32 : Bool) (first nb : Nat) : Bool :=
  tKind x = kindPlain && tKind y = kindPlain && tFmt x = fmtBfp && (if f32 then tFmt y = 0 else tFmt y = fmtBfp) &&
  1 ≤ nb && first + nb ≤ seqCount x / 32 && first + nb ≤ seqCount y / 32

/-- BADDQ: TENSOR, then the places of the whole range, then uncorrectable bytes, and nothing is written before these; the
issue is a release at .module. -/
def opBaddq (d a : Reg) (tx ty : Fin 1024) (f32 : Bool) : Op := fun e s => do
  let x := e.p.tensor e.ctx tx.val
  let y := e.p.tensor e.ctx ty.val
  let r := e.st.scalar a
  let first := bits r 31 0
  let nb := bits r 47 32
  faultIf (!baddqOk x y f32 first nb) .tensor e.w
  let s0 := s.release e.k .module
  let (s1, l) ← e.baddqPlaces x y ((upto nb).map (first + ·)) s0
  match (l.flatMap fun p => p.1 ++ p.2).find? fun p => s1.lostAt p.2.1 p.2.2 with
  | some p => failWith .uncorr p.1
  | none =>
    let (s2, n) := e.baddqLoop x y f32 l s1 0
    return (e.put s2 (e.st.putS d (BitVec.ofNat 64 n))).dropClean e.core

/-- GWNEXT (R539). -/
def execGwnext (k : Ctl) (d : Reg) (s : State) : Host.Outcome State Fault Refusal := runWord (.gwnext k d) k (opGwnext d) s

/-- BADDQ (R540). -/
def execBaddq (k : Ctl) (d a : Reg) (tx ty : Fin 1024) (f32 : Bool) (s : State) : Host.Outcome State Fault Refusal :=
  runWord (.baddq k d a tx ty f32) k (opBaddq d a tx ty f32) s

end Sys2Proof.Machine
end

