-- ==== Sys2Proof/Machine/Turn.lean ====
section
/-! DEFINITION. Sys2Proof/Machine/Turn.lean: who moves next (the model's own scheduling, log 1), what a slot does at its turn
before the operation of its word, and a state in which a given word is the next one. -/

namespace Sys2Proof.Machine

/-- The turn that the script names, else the oldest one; none when TIME passes instead (log 1). -/
def State.nextTurn (s : State) : Option Turn × State :=
  match s.script with
  | n :: r =>
    match s.agenda[n]? with
    | some t => (some t, { s with agenda := s.agenda.eraseIdx n, script := r })
    | none => (none, { s with script := r })
  | [] =>
    match s.agenda with
    | t :: r => (some t, { s with agenda := r })
    | [] => (none, s)

/-- What a slot has to do at its turn. -/
inductive Task1 where
  /-- nothing: the turn is used up -/
  | done (s : State)
  /-- the turn stays due -/
  | later (s : State)
  /-- the strand enters its block, or fetches its header again -/
  | enter
  /-- the word is decoded -/
  | word (i : Instr) (s : State)

/-- The word `i` of slot `k` waits, by one of the waits of issue. -/
def State.wordWaits (s : State) (k : Nat) (i : Instr) : Bool :=
  match s.envAt k i (i.ctl.getD noCtl) with
  | some e => e.waits s i
  | none => true

/-- The first cycle from `c` on in which the scalar side issues: during halved issue, one of even CYCLE (R264). -/
def Core.issueCycle (x : Core) (c : Nat) : Nat := if c < x.halfEnd && c % 2 = 1 then c + 1 else c

/-- The word `i` of slot `k` issues in the next cycle of the present nanosecond in which the core's scalar side has issued
nothing (R214); it stays due where there is no such cycle. A word that waits takes no cycle. -/
def State.issueWord (s : State) (k : Nat) (i : Instr) : Task1 :=
  let core := coreOfSlot k
  let c := (s.core core).issueCycle (max (s.core core).issueC (s.cycleOf core))
  if s.wordWaits k i then .word i s
  else if s.cycleLimit core ≤ c then .later s
  else .word i (s.modCore core fun x => { x with issueC := c + 1, lastS := k % 4 })

/-- The suspension that struck the strand of a slot is carried out (R31). -/
def State.resumeStop (s : State) (k : Nat) : State :=
  match tget s.slots k with
  | some sl =>
    match sl.stop with
    | some (w, atEntry) => (s.modSlot k fun x => { x with stop := none }).carryStop k w atEntry
    | none => s
  | none => s

/-- Fetching and decoding the next word of the strand on slot `k` (R27, R57, R58, R78). -/
def State.slotTask (s : State) (k : Nat) : Task1 :=
  match s.envAt k .blockEntry noCtl with
  | none => .done s
  | some e =>
    if e.sl.hold = some .resume then .later (s.resumeHeld k)
    else if e.sl.hold.isSome || !s.awake e.tile then .done s
    else if e.sl.stop.isSome then (if e.sl.flight.isEmpty then .later (s.resumeStop k) else .done s)
    else if e.p.halt.isSome || !s.mayIssue k && e.st.widx != 0 then .later s
    else if e.st.widx = 0 || e.st.refetch then .enter
    else if e.st.isPrivate && !e.sl.turned then .later (s.postOnce (.privateFetchTurn e.tile))
    else
      match e.word s with
      | .error x => .later (s.stopped k e.busy false x)
      | .ok (s1, w) =>
        if misplaced w (lenOf e.st.header) e.st.widx then .later (s1.stopped k e.busy false (.fault .illop w))
        else
          match decode e.st.latch.cls w with
          | .error .illop => .later (s1.stopped k e.busy false (.fault .illop w))
          | .error .operand => .later (s1.stopped k e.busy false (.fault .operand w))
          | .ok i => s1.issueWord k i

/-- The strand of the slot stands at a word that the scalar side would issue. -/
def State.atWord (s : State) (k : Nat) : Bool :=
  match ({ s with cur := k } : State).slotTask k with
  | .word _ _ => true
  | _ => false

/-- The slot can issue: it stands at a word and has no unmet wait (R214). -/
def State.canIssue (s : State) (k : Nat) : Bool :=
  match ({ s with cur := k } : State).slotTask k with
  | .word i s1 => !s1.wordWaits k i
  | _ => false

/-- The slot that moves at the turn of slot `k`. Where `k` stands at a word, its core's scalar side serves, of the slots that can
issue, the first one after the slot served last (R214), and `k` itself where none can. A slot that enters its block or waits for a
fetch does so at its own turn: it issues nothing. -/
def State.servedSlot (s : State) (k : Nat) : Nat :=
  if s.atWord k then
    (((rotation (s.core (coreOfSlot k)).lastS).map fun i => coreOfSlot k * 4 + i).find? s.canIssue).getD k
  else k

/-- The turn of a slot comes again while a strand stands on it that may issue. -/
def State.again (s : State) (k : Nat) : State :=
  match tget s.slots k with
  | some sl => if sl.hold.isSome then s else s.postSlot k
  | none => s

/-- The header of the block in which a given word is placed: 63 words, every group live, no transfer. -/
def probeHeader : Word := 0xFFFFFFFC00000000

/-- Address of that block, in the supervisor half, homed in field 0. -/
def probeHdr : Word := 0x8000000000100000

/-- Memory with a page table for context 1 in field 0, which maps the first 2 MiB of the supervisor half, and with the block
whose word 1 is `w`. -/
def probeMem (m : Mem) (w : Word) : Mem :=
  let put := fun (m : Mem) (a : Nat) (x : Word) => Mem.write m a (bytesOf 8 x.toNat)
  let m1 := put m 0x10000 0x20000
  let m2 := put m1 0x20050 0x30000
  let m3 := put m2 0x20068 1
  let m4 := put m3 0x30000 0x31001
  let m5 := put m4 0x31000 0x32001
  let m6 := put m5 0x32000 0x33001
  let m7 := put m6 0x33000 0x63A
  let m8 := put m7 0x100000 probeHeader
  put m8 0x100008 w

/-- The partition, the task and the strand that run the word. -/
def probePart : Partition :=
  { pcb := 0x40000, fields := [(0, 0x10000, 0x50000)], tvec := 0x8000000000100000, stripe := 0x60000, arena := 0x70000,
    vftab := 0x80000, nvf := 1, tiercb := 0x90000, haltrec := 0xA0000, strandArea := 0xB0000 }

def probeTask : Task :=
  { part := 0, vf := 0, ctx := 1, queue := 0, qslot := 0, seq := 0, header := Vector.replicate 8 0, next := 1 }

def probeStrand : Strand :=
  { task := 0, part := 0, index := 0, home := 0, place := .slot 0, hdr := probeHdr, widx := 1, header := probeHeader }

/-- Tile 0 with its floor, which the strands of a tile need (R433). -/
def State.probeTile (s : State) : State :=
  if s.awake 0 then s
  else (s.modField 0 fun x => { x with free := x.free - floorTokens }).modTile 0 fun x => { x with lit := true }

/-- A state in which the word `w` is the next one that runs: as if a task of one strand had been loaded and launched on slot
0 of a lit tile, its first block entered (log 19). -/
def State.placeWord (s : State) (w : Word) : State :=
  { s.probeTile with
    mem := probeMem s.mem w
    parts := tput s.parts 0 probePart
    tasks := tput s.tasks 0 probeTask
    strands := tput s.strands s.nextUid probeStrand
    slots := tput s.slots 0 { uid := s.nextUid, turned := true }
    nextUid := s.nextUid + 1
    agenda := .slot 0 :: s.agenda
    script := [] }

end Sys2Proof.Machine
end

