-- ==== Sys2Proof/Machine/Complete.lean ====
section
/-! DEFINITION. Sys2Proof/Machine/Complete.lean: the completion of long-latency instructions that were left outstanding with a
lookahead window (R75 to R77, R145). -/

namespace Sys2Proof.Machine

/-- The operation of a long-latency instruction, as its meaning has it; no other word is left outstanding. -/
def llOp (i : Instr) : Op :=
  match i with
  | .div _ d a b m => opDiv (laneFor i) d a b m
  | .divu _ d a b m => opDivu (laneFor i) d a b m
  | .rem _ d a b m => opRem (laneFor i) d a b m
  | .remu _ d a b m => opRemu (laneFor i) d a b m
  | .fdiv _ d a b rnd ft => opFdiv (laneFor i) d a b rnd ft
  | .fsqrt _ d a rnd ft => opFsqrt (laneFor i) d a rnd ft
  | .frcp _ d a rnd ft => opFrcp (laneFor i) d a rnd ft
  | .frsq _ d a ft => opFrsq (laneFor i) d a ft
  | .fexp2 _ d a ft => opFexp2 (laneFor i) d a ft
  | .flog2 _ d a ft => opFlog2 (laneFor i) d a ft
  | .ftanh _ d a ft => opFtanh (laneFor i) d a ft
  | .vred _ d a rop rnd m => opVred d a rop rnd m
  | .vscan _ d a rop rnd ex w => opVscan d a rop rnd ex w
  | .bquant _ d a ft wq => opBquant d a ft wq
  | .bdeq _ d a rnd ft wq => opBdeq d a rnd ft wq
  | .ld _ d a imm sz sx acq => opLd d a imm sz sx acq
  | .ldx _ d a b sh sz sx acq => opLdx d a b sh sz sx acq
  | .ldv _ d a imm sz sx => opLdv d a imm sz sx
  | .ldg _ d a b sh sz sx => opLdg d a b sh sz sx
  | .aop _ d a b op ord sc w32 sx => opAop d a b op ord sc w32 sx
  | .acas _ d a b c ord sc w32 sx => opAcas d a b c ord sc w32 sx
  | .afadd _ d a b ord sc w32 => opAfadd d a b ord sc w32
  | .ctest _ d a b acq sc => opCtest d a b acq sc
  | .mm _ a tx ty _ => engineOp (prepMm i a tx.val ty.val)
  | .mmdist _ a tx ty _ => engineOp (prepMm i a tx.val ty.val)
  | .mmtopk _ a b tx ty _ => engineOp (prepTopk i a b tx.val ty.val)
  | .spcomp _ d tx ty => opSpcomp i d tx.val ty.val
  | .spmm _ a b tx ty _ => engineOp (prepSpmm i a b tx.val ty.val)
  | .attn _ d a b tx ty causal => engineOp (prepAttn i d a b tx.val ty.val causal)
  | .attmerge _ a b tx ty => opAttmerge i a b tx.val ty.val
  | .kvapp _ d tx ty => opKvapp i d tx.val ty.val
  | .kvlook _ d a b tx v => opKvlook i d a b tx.val v
  | .ttprune _ d a tx clr => opTtprune i d a tx.val clr
  | .vemap _ a b tx => engineOp (prepVe i a (some b) tx.val none emapOk)
  | .vezip _ a b tx ty => engineOp (prepVe i a (some b) tx.val (some ty.val) ezipOk)
  | .vered _ a b tx _ => engineOp (prepVe i a (some b) tx.val none redOk)
  | .venorm _ a b tx gain _ => engineOp (prepVe i a (some b) tx.val (gain.map (·.val)) (normOk gain.isSome))
  | .vesoft _ a b tx => engineOp (prepVe i a (some b) tx.val none softOk)
  | .vecvt _ a tx rnd => engineOp (prepVe i a none tx.val none (ecvtOk (rnd.getD .rne)))
  | .baddq _ d a tx ty f32 => opBaddq d a tx ty f32
  | _ => fun _ s => .ok s

/-- The strand with the result of an outstanding instruction: its destination, its flags, and L where no later word has
written it (R41, R77). `res` is the strand that the operation gave: its window is the instruction's, from which a NOP with a CALL or a RET may
have moved (R182). -/
def Strand.take (t res : Strand) (i : Instr) (latch : Bool) : Strand :=
  let t1 := match dstOf i with
    | some (.s n) => { (({ t with cwp := res.cwp } : Strand).writeS n (res.readS n)) with cwp := t.cwp }
    | some (.v n) => t.writeV n (res.readV n)
    | some (.p n) => t.writeP n (res.readP n)
    | some (.h n) => t.writeH n (res.readH n)
    | _ => t
  { t1 with
    latch := if latch && (dstOf i).isSome then res.latch else t1.latch
    fpst := t1.fpst ||| res.fpst
    zsub := t1.zsub || res.zsub
    rprog := if kindOf i = .engine then res.rprog else t1.rprog }

/-- The later outstanding instructions, with the result in the strands as they were before them. `between` says that one with a
destination has been passed. -/
def takeFlights (f : Inflight) (res : Strand) : Bool → List Inflight → List Inflight
  | _, [] => []
  | between, g :: r =>
    if g.n ≤ f.n then g :: takeFlights f res between r
    else
      let latch := g.needL && !between
      { g with before := g.before.take res f.instr latch, needL := g.needL && !latch } ::
        takeFlights f res (between || (dstOf g.instr).isSome) r

/-- The same for vector-side words that have not started. -/
def FwdEntry.take (x : FwdEntry) (f : Inflight) (res : Strand) : FwdEntry :=
  if x.n < f.n then x
  else
    let latch := x.ahead.any fun a => a.n = f.n && !a.wroteL
    { x with before := x.before.take res f.instr latch, ahead := x.ahead.filter fun a => a.n != f.n }

/-- The state in which an outstanding instruction acts: its strand as it was when the instruction issued. -/
def State.atFlight (s : State) (k : Nat) (sl : Slot) (f : Inflight) : State :=
  (s.modStrand sl.uid fun t => t.backTo f.before).setSlot k { sl with fwd := [], flight := [], windows := [], pos := f.pos, turned := false }

/-- The slot as it goes on: what it has issued, with what the operation did to its store buffer. -/
def Slot.resume (sl act : Slot) (flight : List Inflight) (fwd : List FwdEntry) : Slot :=
  { act with fwd := fwd, flight := flight, windows := sl.windows, pos := sl.pos, turned := sl.turned }

/-- The entry by which a predicate that a completed scalar-side instruction has written travels to the vector side (R219): it goes
behind all that the slot has issued, none of which reads that predicate (R76). `t` and `flights` are the strand and the
outstanding instructions with the result. -/
def predEntry (sl : Slot) (f : Inflight) (t : Strand) (flights : List Inflight) : List FwdEntry :=
  match scalarPred f.before.latch.cls f.instr with
  | none => []
  | some n =>
    [{ n := f.n, instr := none, guard := 0, scalars := [], pred := some (n, t.readP n), lanes := 0, returns := none, store := false
       before := t, pos := sl.pos, windows := sl.windows, done := true
       ahead := flights.map fun g => { n := g.n, left := g.left, wroteL := g.wroteL } }]

/-- The instruction has completed: its result reaches the strand and all that has issued after it. -/
def State.retire (s s1 : State) (k : Nat) (sl : Slot) (f : Inflight) (res : Strand) : State :=
  match tget s.strands sl.uid, tget s1.slots k with
  | some t, some act =>
    let flights := takeFlights f res false (sl.flight.filter fun g => g.n != f.n)
    let t1 := t.take res f.instr !f.wroteL
    let new := predEntry sl f t1 flights
    let s2 := (s1.setStrand sl.uid t1).setSlot k (sl.resume act flights ((sl.fwd.map fun x => x.take f res) ++ new))
    if new.isEmpty then s2 else s2.postOnce (.vectorSideStart (coreOfSlot k))
  | _, _ => s1

/-- The operation has only begun: the slot goes on as it was, and the instruction stays outstanding. -/
def State.keepFlight (s s1 : State) (k : Nat) (sl : Slot) : State :=
  match tget s.strands sl.uid, tget s1.slots k with
  | some t, some act => (s1.setStrand sl.uid t).setSlot k (sl.resume act sl.flight sl.fwd)
  | _, _ => s1

/-- What has issued after an instruction that suspends is discarded (R77). -/
def State.dropLater (s : State) (k : Nat) (f : Inflight) : State :=
  s.modSlot k fun sl => { sl with started := sl.started.filter (·.1 < f.n), ret := sl.ret.filter (·.1 < f.n) }

/-- The slot is put down or stopped. -/
def State.slotHeld (s : State) (k : Nat) : Bool :=
  match tget s.slots k with
  | some sl => sl.hold.isSome
  | none => false

/-- An outstanding instruction cannot complete yet: its entry has not started; an older access of its strand is outstanding, so that
the strand's accesses keep their order (R125, R161); or the predicate that it writes finds the forward queue full (R219). -/
def Slot.mustWait (sl : Slot) (f : Inflight) : Bool :=
  (sl.fwd.any fun x => x.instr.isSome && x.n = f.n) ||
  ((kindOf f.instr).accesses && sl.flight.any fun g => g.n < f.n && (kindOf g.instr).accesses) ||
  ((scalarPred f.before.latch.cls f.instr).isSome && fwdSize ≤ sl.fwd.length)

/-- The access of an outstanding instruction waits for its reply; the strand goes on (R75, R173). -/
def State.flightLost (s : State) (k : Nat) (sl : Slot) (f : Inflight) : State :=
  match replyNow s.time sl.lost with
  | .sent l =>
    (s.setSlot k { sl with lost := some { l with since := some s.time } }).postAt (l.ends s.time) (replyOf f.instr k)
  | .waits =>
    match sl.lost.bind fun l => l.since.map l.ends with
    | some d => s.postAt d (replyOf f.instr k)
    | none => s
  | _ => s

/-- An outstanding instruction of a slot comes to its end, when it can: the vector side has started it, and a fault or a
suspension comes only once nothing older is outstanding (R77, R145). -/
def State.completeFlight (s : State) (k : Nat) (sl : Slot) (f : Inflight) (c : Ctl) : State :=
  let later := s.post (.event (replyOf f.instr k))
  let s0 := s.atFlight k sl f
  if sl.mustWait f then later
  else if (kindOf f.instr).accesses && replyNow s.time sl.lost != .came && replyNow s.time sl.lost != .timeout then s.flightLost k sl f
  else
    match s0.envAt k f.instr c with
    | none => s
    | some e =>
      let oldest := sl.flight.all (fun g => f.n ≤ g.n) && sl.fwd.all fun x => f.n < x.n
      match (if e.cond || e.lane then llOp f.instr e s0 else .ok s0) with
      | .ok s1 =>
        match tget s1.strands sl.uid with
        | some res => s.retire s1 k sl f res
        | none => s1
      | .error .wait => later
      | .error (.become s1) =>
        if !s1.slotHeld k then (s.keepFlight s1 k sl).post (.event (replyOf f.instr k))
        else if oldest then s1.dropLater k f
        else later
      | .error x => if oldest then (s.rewind k).stopped k false false x else later

/-- The first outstanding instruction of a slot that satisfies a test comes to its end. -/
def State.complete (s : State) (k : Nat) (mine : Inflight → Bool) : State :=
  match tget s.slots k with
  | none => s
  | some sl =>
    match sl.flight.find? mine with
    | none => s
    | some f =>
      match f.instr.ctl with
      | none => s
      | some c => (s.completeFlight k sl f c).again k

/-- Instructions that complete with a reply from memory. -/
def byMemory (f : Inflight) : Bool :=
  match kindOf f.instr with
  | .loadS | .loadV | .far => true
  | _ => false

/-- The wait of a slot for a reply has ended (R173): a reply has come, or the access that is made again ends with TIMEOUT. -/
def State.endReply (s : State) (slot : Nat) : State :=
  match tget s.slots slot with
  | none => s
  | some sl =>
    match sl.lost.bind (·.since) with
    | none => s
    | some _ =>
      if replyNow s.time sl.lost = .waits then s
      else
        let s1 := s.setSlot slot { sl with
          lost := if replyNow s.time sl.lost = .came then none else sl.lost
          hold := if sl.hold = some .reply then none else sl.hold }
        let s2 := if sl.hold = some .save then s1.postOnce (.putDown slot) else s1.again slot
        if sl.preempt then s2.postOnce (.preemption slot) else s2

/-- MEMORY_REPLY (R145): the oldest outstanding access of a slot has its reply. -/
def execMemoryReply (slot : Nat) (s : State) : Host.Outcome State Fault Refusal := .next ((s.endReply slot).complete slot byMemory)

/-- LONG_LATENCY_COMPLETE (R75): the oldest other outstanding instruction of a slot completes. -/
def execLongLatencyComplete (slot : Nat) (s : State) : Host.Outcome State Fault Refusal :=
  .next (s.complete slot fun f => !byMemory f)

end Sys2Proof.Machine
end

