-- ==== Sys2Proof/Machine/Copy.lean ====
section
/-! DEFINITION. Sys2Proof/Machine/Copy.lean: COPY and COPYS with a tile's copy engine (R305 to R311, R481, R482). -/

namespace Sys2Proof.Machine

/-! ### Issue (R309, R310) -/

/-- Entries of a copy queue (R305). -/
def copySize : Nat := 16

/-- The command of a COPY or COPYS, with what a fault of it names. -/
def Env.copyCmd (e : Env) (sc : Scope) (ctr addv : Word) : CopyCmd :=
  { part := e.pn, ctx := e.ctx, task := e.st.task, k := e.k, user := e.user, taskid := taskIdOf e.ta e.st.index,
    tpc := e.st.pc, hdr := e.st.hdr, scope := sc, ctr := ctr, addv := addv }

/-- The end of the issue: a free entry, the release, the command queued. -/
def Env.enqueueCopy (e : Env) (s : State) (c : CopyCmd) : Res State := do
  checkCtr c.ctr
  let q := tgetD (s.tile e.tile).copies (e.core % 16) {}
  if copySize ≤ q.cmds.length then .error .wait
  else
    let s1 := (s.release e.k c.scope).writeBackSlot e.k
    return (s1.modTile e.tile fun t =>
      { t with copies := tput t.copies (e.core % 16) { q with cmds := q.cmds ++ [c] } }).postOnce (.copyChunk e.tile)

/-- One end of a COPY: the first and the last byte, and that they share their top byte. -/
def Env.checkRun (e : Env) (s : State) (x : Word) (len : Nat) : Res Unit := do
  let y := x + BitVec.ofNat 64 (len - 1)
  let _ ← s.resolve e.p e.user x
  let _ ← s.resolve e.p e.user y
  faultIf (bits x 63 56 != bits y 63 56) .badaddr x

/-- The control block as dwords. -/
def Env.controlBlock (e : Env) (s : State) (cb : Word) : Res (State × (Nat → Word)) := do
  faultIf (bits cb 5 0 != 0) .align cb
  let (s1, bs) ← e.readDwords s cb 8
  let l := dwordsOf 8 bs
  return (s1, fun i => (l[i]?).getD 0)

/-- COPY (R310). -/
def opCopy (a : Reg) (sc : Scope) : Op := fun e s => do
  let (s1, b) ← e.controlBlock s (e.st.scalar a)
  faultIf (bits (b 2) 63 32 != 0 || b 5 != 0 || b 6 != 0 || b 7 != 0) .illop e.w
  faultIf (bits (b 0) 1 0 != 0) .align (b 0)
  faultIf (bits (b 1) 1 0 != 0) .align (b 1)
  faultIf (bits (b 2) 1 0 != 0) .align (b 2)
  let len := bits (b 2) 31 0
  if len != 0 then
    e.checkRun s1 (b 0) len
    e.checkRun s1 (b 1) len
  e.enqueueCopy s1 { e.copyCmd sc (b 3) (b 4) with src := b 0, dst := b 1, len := len }

/-- The halves of two dwords, lowest first. -/
def halves (x y : Word) : List Nat := [bits x 31 0, bits x 63 32, bits y 31 0, bits y 63 32]

/-- The window of a COPYS lies within both tensors, which have one format (R310). -/
def windowOk (x y : Entry) (so dor sh : List Nat) : Bool :=
  let at_ := fun (l : List Nat) (k : Nat) => (l[k]?).getD 0
  tKind x = kindPlain && tKind y = kindPlain && tFmt x = tFmt y && tW x = tW y &&
  (upto 4).all (fun k => 1 ≤ at_ sh k && at_ so k + at_ sh k ≤ tExt x k && at_ dor k + at_ sh k ≤ tExt y k) &&
  (tFmt x != fmtBfp || (at_ so 0 % 32 = 0 && at_ dor 0 % 32 = 0 && at_ sh 0 % 32 = 0))

/-- COPYS (R310). -/
def opCopys (a b c : Reg) (sc : Scope) : Op := fun e s => do
  let (s1, w) ← e.controlBlock s (e.st.scalar c)
  let ia ← e.regId a
  let ib ← e.regId b
  let x := e.p.tensor e.ctx ia
  let y := e.p.tensor e.ctx ib
  let so := halves (w 0) (w 1)
  let dor := halves (w 2) (w 3)
  let sh := halves (w 4) (w 5)
  faultIf (!windowOk x y so dor sh) .tensor e.w
  e.enqueueCopy s1 { e.copyCmd sc (w 6) (w 7) with tens := some (x, y), sorg := so, dorg := dor, shp := sh }

/-! ### Chunks (R305) -/

/-- A chunk: source, destination, bytes, and the command after it. -/
structure ChunkMove where
  src  : Word
  dst  : Word
  len  : Nat
  rest : CopyCmd
  deriving DecidableEq, Repr

/-- Bytes from `va` that a chunk takes of `left`: up to 512, within a 512-byte boundary. -/
def chunkLen (va : Word) (left : Nat) : Nat := min (512 - va.toNat % 512) left

/-- Row `r` of a window: its indices in dimensions 1 to 3. -/
def rowIdx (sh : List Nat) (r : Nat) : Nat × Nat × Nat :=
  let s1 := (sh[1]?).getD 1
  let s2 := (sh[2]?).getD 1
  (r % s1, r / s1 % s2, r / s1 / s2)

/-- Start of row `r` of a window at origin `o`: the element bytes, or the exponent bytes. -/
def rowStart (x : Entry) (o sh : List Nat) (r : Nat) (exps : Bool) : Word :=
  let at_ := fun (k : Nat) => (o[k]?).getD 0
  let (j1, j2, j3) := rowIdx sh r
  if exps then tExp x (at_ 0 / 32) (at_ 1 + j1) (at_ 2 + j2) (at_ 3 + j3)
  else if tFmt x = fmtBfp then tBlock x (at_ 0 / 32) (at_ 1 + j1) (at_ 2 + j2) (at_ 3 + j3)
  else tElem x (at_ 0) (at_ 1 + j1) (at_ 2 + j2) (at_ 3 + j3)

/-- Bytes of a row of a window: of its elements, or of its exponents. -/
def rowBytes (x : Entry) (sh : List Nat) (exps : Bool) : Nat :=
  let n := (sh[0]?).getD 0
  if exps then n / 32 else if tFmt x = fmtBfp then n / 32 * 4 * tW x else n * fmtBytes (tFmt x)

/-- The next chunk of a command; none when it has no chunk left. -/
def CopyCmd.next (c : CopyCmd) : Option ChunkMove :=
  match c.tens with
  | none =>
    if c.len ≤ c.off then none
    else
      let src := c.src + BitVec.ofNat 64 c.off
      let n := chunkLen src (c.len - c.off)
      some { src := src, dst := c.dst + BitVec.ofNat 64 c.off, len := n, rest := { c with off := c.off + n } }
  | some (x, y) =>
    let rows := (c.shp.drop 1).foldl (· * ·) 1
    if rows ≤ c.row then none
    else
      let total := rowBytes x c.shp c.inExp
      let src := rowStart x c.sorg c.shp c.row c.inExp + BitVec.ofNat 64 c.off
      let n := chunkLen src (total - c.off)
      let after :=
        if c.off + n < total then { c with off := c.off + n }
        else if tFmt x = fmtBfp && !c.inExp then { c with off := 0, inExp := true }
        else { c with off := 0, inExp := false, row := c.row + 1 }
      some { src := src, dst := rowStart y c.dorg c.shp c.row c.inExp + BitVec.ofNat 64 c.off, len := n, rest := after }

/-- Bytes of a command's next chunk. -/
def CopyCmd.size (c : CopyCmd) : Nat :=
  match c.next with
  | some m => m.len
  | none => 0

/-- The loop goes on to the next queue. -/
def Tile.nextQueue (t : Tile) : Tile := { t with copyAt := (t.copyAt + 1) % 16, copyIn := false }

/-- The loop of R305 up to the next chunk that it issues: the queue, its head command, and the tile then. -/
def nextCopy (wt : Nat → Nat) (t : Tile) : Nat → Option (Nat × CopyCmd × Tile)
  | 0 => none
  | n + 1 =>
    let q := tgetD t.copies t.copyAt {}
    match q.cmds with
    | [] => nextCopy wt { t with copies := tdel t.copies t.copyAt }.nextQueue n
    | c :: _ =>
      if q.held then nextCopy wt t.nextQueue n
      else
        let d := if t.copyIn then q.deficit else q.deficit + 512 * wt t.copyAt
        let t1 := { t with copies := tput t.copies t.copyAt { q with deficit := d }, copyIn := true }
        if c.size ≤ d then some (t.copyAt, c, t1) else nextCopy wt t1.nextQueue n

/-! ### Performing a chunk (R307, R481, R482) -/

/-- A request of a command. -/
def CopyCmd.req (c : CopyCmd) (p : Partition) (va : Word) (acc : Acc) : Req :=
  { part := c.part, ctx := c.ctx, gen := p.genOf c.ctx (coreOfSlot c.k), va := va, acc := acc }

/-- The place of an access of a command: the physical address, and the key where the page lies in the second tier. A page
whose promotion has taken its frame holds the access. -/
def State.copyPlace (s : State) (c : CopyCmd) (va : Word) (acc : Acc) : Res (State × Nat × Option (List Byte)) :=
  match tget s.parts c.part with
  | none => failWith .badaddr va
  | some p =>
    match s.place c.user (c.req p va acc) with
    | .ok (s1, pa) => .ok (s1, pa, none)
    | .error (.tier va' f acc' en big slot) =>
      match s.tierKey p c.ctx with
      | none => failWith .access va
      | some key =>
        if !s.tierAllowed p c.ctx en big then failWith .access va
        else if (s.field f).promos.any fun q => q.slot = slot && q.frame.isSome then .error (.tier va' f acc' en big slot)
        else
          let (s1, newD) := s.touchLeaf f slot en acc
          let s2 := if newD then s1.recordDirty c.part c.ctx (va, big) else s1
          .ok (s2, leafPa en big va, some key)
    | .error x => .error x

/-- The first lost word of a range, as an offset. -/
def State.lostOff (s : State) (pa n : Nat) : Nat := ((upto n).find? fun i => s.lostAt (pa + i) 1).getD 0

/-- Virtual address of the second-tier chunk at place `q`, for an access whose address `va` lies at place `pa` (R476). -/
def chunkVa (va : Word) (pa q : Nat) : Word := BitVec.ofNat 64 ((va.toNat + q - pa) / chunkBytes * chunkBytes)

/-- Bytes that a command reads within one page, at the home slice: no remote copy of the field stays that could be older (R149,
log 51). -/
def State.copyRead (s : State) (c : CopyCmd) (va : Word) (n : Nat) (acc : Acc) : Res (State × List Byte) := do
  let (s1, pa, key) ← s.copyPlace c va acc
  match key with
  | none =>
    if s1.lostAt pa n then failWith .uncorr (va + BitVec.ofNat 64 (s1.lostOff pa n))
    else return ((s1.dropRdcOver (fieldOfSlot c.k) va n c.ctx).touchL2 pa c.ctx, s1.bytesAt pa n)
  | some k =>
    match s1.tierRead k pa n (n + 1) with
    | .ok bs => return (s1, bs)
    | .refused => failWith .access va
    | .lost q => failWith .uncorr (chunkVa va pa q)

/-- The writer that a command's writes name (R500, R501). -/
def CopyCmd.writer (c : CopyCmd) : Writer :=
  { fld := some (fieldOfSlot c.k), task := some c.task, ctx := c.ctx, part := c.part, tpc := c.tpc, hdr := c.hdr,
    pcoord := pcoordOf c.k, index := bits c.taskid 31 0 }

/-- The undo log before writes in place to the lines that `n` bytes at `va` touch (R500, R502). False when it is full. -/
def State.logTier (s : State) (w : Writer) (key : List Byte) (va : Word) (pa : Nat) : Nat → State × Bool
  | 0 => (s, true)
  | n + 1 =>
    let a := va + BitVec.ofNat 64 (128 * n)
    let base := (pa + 128 * n) / 128 * 128
    match s.tierRead key base 128 129 with
    | .ok bs =>
      match s.undoLogWith w a bs [] with
      | none => s.logTier w key va pa n
      | some (some s1) => s1.logTier w key va pa n
      | some none => (s, false)
    | _ => s.logTier w key va pa n

/-- Bytes written at a place within one page. -/
def State.copyWrite (s : State) (c : CopyCmd) (va : Word) (pa : Nat) (key : Option (List Byte)) (bs : List Byte) : Res State :=
  match key with
  | none =>
    let o := 128 - va.toNat % 128
    -- one write for each line that the bytes touch
    .ok ((upto ((bs.length + 127) / 128 + 1)).foldl (fun x i =>
      let lo := if i = 0 then 0 else o + 128 * (i - 1)
      let part := if i = 0 then bs.take o else (bs.drop lo).take 128
      if part.isEmpty then x else x.homeWrite c.writer (va + BitVec.ofNat 64 lo) (pa + lo) part) s)
  | some k =>
    let lines := (va.toNat % 128 + bs.length + 127) / 128
    match s.logTier c.writer k (lineVa va) (pa / 128 * 128) lines with
    | (s1, false) => .ok (s1.logFull c.writer)
    | (s1, true) =>
      match (s1.dropRdcOver (fieldOfSlot c.k) va bs.length c.ctx).tierWrite k pa bs (bs.length + 1) with
      | .ok s2 => .ok s2
      | .refused => failWith .access va
      | .lost q => failWith .uncorr (chunkVa va pa q)

/-- A chunk moved, or nothing. The destination of a chunk lies in at most two pages. Where source and destination overlap, a
word receives its source word as it stood before the chunk: every chunk is read whole before it is written, the chunks in
ascending order; R311 promises neither order (log 54, DESIGN CHOICE). -/
def State.moveChunk (s : State) (c : CopyCmd) (m : ChunkMove) : Res State := do
  let (s1, bs) ← s.copyRead c m.src m.len .read
  let n1 := min m.len (2 ^ 16 - m.dst.toNat % 2 ^ 16)
  let (s2, pa, key) ← s1.copyPlace c m.dst .write
  if n1 = m.len then s2.copyWrite c m.dst pa key bs
  else
    let va2 := m.dst + BitVec.ofNat 64 n1
    let (s3, pa2, key2) ← s2.copyPlace c va2 .write
    let s4 ← s3.copyWrite c m.dst pa key (bs.take n1)
    s4.copyWrite c va2 pa2 key2 (bs.drop n1)

/-- A queue of a tile's engine changed. -/
def State.modCopies (s : State) (tile q : Nat) (f : CopyQueue → CopyQueue) : State :=
  s.modTile tile fun t => { t with copies := tmod t.copies q f }

/-- A queue whose head command has a chunk held: the loop goes on to the next queue, and serves this one, once its fault is
resolved, at its next turn (R305). -/
def State.holdCopy (s : State) (tile q : Nat) : State :=
  (s.modCopies tile q fun x => { x with held := true }).modTile tile Tile.nextQueue

/-- A chunk moved. One whose read or write loses requests or replies is held until a reply comes, or ends with TIMEOUT at the
address of that access after five timeouts (R173, R307). -/
def State.tryChunk (s : State) (tile q : Nat) (c : CopyCmd) (m : ChunkMove) : Res State :=
  let x := tgetD (s.tile tile).copies q {}
  match replyNow s.time x.lost with
  | .timeout => failWith .timeout (if x.lostWrite then m.dst else m.src)
  | .waits => .error (.become (s.holdCopy tile q))
  | .came => (s.moveChunk c m).map fun s1 => s1.modCopies tile q fun y => { y with lost := none }
  | .sent l =>
    match s.moveChunk c m with
    | .error y => .error y
    | .ok _ => .error (.become (((s.holdCopy tile q).modCopies tile q fun y => { y with lost := some { l with since := some s.time } }).postAt
        (l.ends s.time) (.copyChunk tile)))

/-- Queues whose wait for a reply has ended are served again. -/
def State.endReplies (s : State) (tile : Nat) : State :=
  s.modTile tile fun t => { t with copies := t.copies.map fun (n, q) =>
    (n, match q.lost.bind (·.since) with
      | some _ => if replyNow s.time q.lost = .waits then q else { q with held := false }
      | none => q) }

/-- The head command of a queue leaves it; an empty queue has no deficit (R305). -/
def State.popCopy (s : State) (tile q : Nat) : State :=
  let s1 := s.modCopies tile q fun x => { x with cmds := x.cmds.drop 1, lost := none }
  if (tgetD (s1.tile tile).copies q {}).cmds.isEmpty then s1.modTile tile fun t => { t with copies := tdel t.copies q } else s1

/-- Some queue of the tile can be served. -/
def Tile.copyDue (t : Tile) : Bool := t.copies.any fun e => !e.2.cmds.isEmpty && !e.2.held

/-- The copy engine has its next turn when it has something to do. -/
def State.copyTurn (s : State) (tile : Nat) : State := if (s.tile tile).copyDue then s.postOnce (.copyChunk tile) else s

/-- A fault of a command ends its grid (R176, R307); a tag failure is counted (R476). -/
def State.copyFault (s : State) (c : CopyCmd) (code : FaultCode) (va : Word) : State := s.gridFault c.blame code va

/-- A page that is not there, for a chunk or an addition. -/
def State.copyHold (s : State) (c : CopyCmd) (who : Waiter) (va : Word) (f : Nat) (acc : Acc) (malformed : Bool) : State :=
  s.linkFault f { who := who, part := c.part, ctx := c.ctx, va := va, acc := acc.num }
    [va, descInfo c.ctx 1 malformed acc (pcoordOf c.k), c.taskid, BitVec.ofNat 64 s.time]

/-- A page that is being promoted, for a chunk or an addition (R481). -/
def State.copyJoin (s : State) (c : CopyCmd) (who : Waiter) (va : Word) (f : Nat) (acc : Acc) (en : Word) (big : Bool)
    (slot : Nat) : State :=
  s.joinPromo f en big slot
    { wait := { who := who, part := c.part, ctx := c.ctx, va := va, acc := acc.num }
      info := descInfo c.ctx 1 false acc (pcoordOf c.k), taskid := c.taskid }

/-- Whether an address names a page that lies in the second tier, where lost bytes are a tag failure. -/
def State.inTier (s : State) (c : CopyCmd) (va : Word) : Bool :=
  [Acc.read, Acc.write].any fun acc =>
    match s.copyPlace c va acc with
    | .ok (_, _, some _) => true
    | _ => false

/-- What stops a chunk. -/
def State.chunkStopped (s : State) (tile q : Nat) (c : CopyCmd) : Stop → State
  | .page va f acc m => (s.holdCopy tile q).copyHold c (.copy tile q) va f acc m
  | .tier va f acc en big slot => (s.holdCopy tile q).copyJoin c (.copy tile q) va f acc en big slot
  | .fault code va =>
    let s1 := if code = .uncorr && s.inTier c va then s.countTag c.part else s
    (s1.popCopy tile q).copyFault c code va
  | .walkLost va => (s.popCopy tile q).copyFault c .uncorr va
  | .wait => s
  | .become s' => s'

/-- A debug halt holds the engines of a tile (R511). -/
def State.haltedTile (s : State) (tile : Nat) : Bool :=
  match s.partOfField (fieldOfTile tile) with
  | some (_, p) => p.halt.isSome
  | none => false

/-- COPY_CHUNK (R305, R307): the copy engine of a tile issues one chunk. -/
def execCopyChunk (tile : Nat) (s : State) : Host.Outcome State Fault Refusal :=
  let s := s.endReplies tile
  if s.haltedTile tile then .next s
  else
    match nextCopy (fun q => (s.core (tile * 16 + q)).cpwt) (s.tile tile) 34 with
    | none => .next s
    | some (q, c, t) =>
      let s1 := s.setTile tile t
      match c.next with
      | none =>
        .next ((((s1.popCopy tile q).modTile tile fun x => { x with copied := x.copied ++ [c] }).postOnce
          (.copyCompletion tile)).copyTurn tile)
      | some m =>
        match s1.tryChunk tile q c m with
        | .error x => .next ((s1.chunkStopped tile q c x).copyTurn tile)
        | .ok s2 =>
          let s3 := s2.modCopies tile q fun x => { x with deficit := x.deficit - m.len, cmds := m.rest :: x.cmds.drop 1 }
          let s4 := if m.rest.next.isNone then
              ((s3.popCopy tile q).modTile tile fun x => { x with copied := x.copied ++ [m.rest] }).postOnce (.copyCompletion tile)
            else s3
          .next (s4.copyTurn tile)

/-! ### Completion (R308) -/

/-- The addition of a command at its counter, at the counter's home slice (R163). A counter on a page that lies in the second
tier is a tier miss, and the page is promoted first (R136). -/
def State.copyAdd (s : State) (c : CopyCmd) : Res State := do
  let p ← (match tget s.parts c.part with
    | none => failWith .badaddr c.ctr
    | some p => .ok p : Res Partition)
  let (s1, pa) ← (match s.place c.user (c.req p c.ctr .rmw) with
    | .error (.tier va f acc en big slot) =>
      if s.tierAllowed p c.ctx en big then .error (.tier va f acc en big slot) else failWith .access va
    | r => r)
  if s1.lostAt pa 8 then failWith .uncorr c.ctr
  else return (s1.dropRdc (fieldOfSlot c.k) c.ctr c.ctx).addAt c.ctx pa c.addv

/-- The addition of a command, which ends with TIMEOUT at its counter where no reply comes within five timeouts; the additions
behind it wait (R173, R307). -/
def State.tryAdd (s : State) (tile : Nat) (c : CopyCmd) : Res State :=
  let done := fun (x : State) => x.modTile tile fun t => { t with addLost := none }
  match replyNow s.time (s.tile tile).addLost with
  | .came => (done s).copyAdd c
  | .waits => .error (.become s)
  | .timeout => failWith .timeout c.ctr
  | .sent l =>
    match s.copyAdd c with
    | .error y => .error y
    | .ok _ => .error (.become ((s.modTile tile fun t => { t with addLost := some { l with since := some s.time } }).postAt
        (l.ends s.time) (.copyCompletion tile)))

/-- A completed command is gone; the end of its grid may be due (R164). -/
def State.copyGone (s : State) (tile : Nat) (c : CopyCmd) : State :=
  (s.modTile tile fun t => { t with copied := t.copied.erase c }).postOnce (.taskCompletion c.task)

/-- COPY_COMPLETION (R308): the addition of the oldest command that is complete, made during a debug halt too (R512). -/
def execCopyCompletion (tile : Nat) (s : State) : Host.Outcome State Fault Refusal :=
    match (s.tile tile).copied.find? fun c => !c.held with
    | none => .next s
    | some c =>
      let hold := fun (x : State) => x.modTile tile fun t => { t with copied := t.copied.map fun y => if y = c then { y with held := true } else y }
      let s1 :=
        if c.ctr = 0 then s.copyGone tile c
        else
          match s.tryAdd tile c with
          | .ok y => y.copyGone tile c
          | .error (.page va f acc m) => (hold s).copyHold c (.copyEnd tile c.ctr) va f acc m
          | .error (.tier va f acc en big slot) => (hold s).copyJoin c (.copyEnd tile c.ctr) va f acc en big slot
          | .error (.fault code va) =>
            ((s.modTile tile fun t => { t with addLost := none }).copyGone tile c).copyFault c code va
          | .error (.walkLost va) => (s.copyGone tile c).copyFault c .uncorr va
          | .error (.become y) => y
          | .error .wait => s
      .next (if replyNow s1.time (s1.tile tile).addLost != .waits && (s1.tile tile).copied.any fun x => !x.held then
        s1.postOnce (.copyCompletion tile) else s1)

/-- COPY (R310). -/
def execCopy (k : Ctl) (a : Reg) (sc : Scope) (s : State) : Host.Outcome State Fault Refusal :=
  runWord (.copy k a sc) k (opCopy a sc) s

/-- COPYS (R310). -/
def execCopys (k : Ctl) (a b c : Reg) (sc : Scope) (s : State) : Host.Outcome State Fault Refusal :=
  runWord (.copys k a b c sc) k (opCopys a b c sc) s

end Sys2Proof.Machine
end

