-- ==== Sys2Proof/Machine/Scheduler.lean ====
section
/-! DEFINITION. Sys2Proof/Machine/Scheduler.lean: the module scheduler: task queues, launch, aging and pre-emption, the end of a
grid, and rollback (R184, R185, R187, R490 to R502). -/

namespace Sys2Proof.Machine

/-! ### Task headers (R491, R492) -/

abbrev Header := Vector Word 8
def hEntry (h : Header) : Word := h[0]
def hN (h : Header) : Nat := bits h[1] 31 0
def hSpt (h : Header) : Nat := if bits h[1] 47 32 = 0 then 16 else bits h[1] 47 32
def hAff (h : Header) : Nat := bits h[1] 55 48
def hKind (h : Header) : Nat := bits h[2] 3 0
def hClass (h : Header) : Nat := bits h[2] 6 4
def hPrio (h : Header) : Nat := bits h[2] 10 8
def hRollback (h : Header) : Bool := bit h[2] 16
def hCosched (h : Header) : Bool := bit h[2] 17
def hLevel (h : Header) : Nat := bits h[2] 31 24
def hArgs (h : Header) : Word := h[3]
def hDone (h : Header) : Word := h[4]
def hDonev (h : Header) : Word := h[5]
def hDep (h : Header) : Word := h[6]
def hDepv (h : Header) : Word := h[7]

/-- KIND names a tile's kind (Table 19.5). -/
def kindBit (h : Header) (t : Nat) : Bool :=
  match tileKind t with
  | .dense => (hKind h).testBit 0
  | .sparse => (hKind h).testBit 1
  | .attention => (hKind h).testBit 2
  | .vectorHeavy => (hKind h).testBit 3
  | _ => false

/-- Strand slots of a partition: those of the good cores of its tiles. -/
def State.strandSlots (s : State) (p : Partition) : Nat :=
  4 * ((p.tiles.filter fun t => t % 16 < 12 && (s.tile t).good).flatMap fun t =>
    (upto 16).filter fun c => (s.core (t * 16 + c)).good).length

/-- An address that a DONE or DEP counter may not have (R491, R492). -/
def ctrBad (a : Word) : Bool := a != 0 && (bits a 2 0 != 0 || inWindow a)

/-- The checks of a header (R492): the fault that ends its task, with TVAL. `log` says that the queue has an undo log, `most` how
many strands the task may have (R528). -/
def State.headerFault (s : State) (p : Partition) (h : Header) (log : Bool) (most : Nat := 2 ^ 32) : Option (FaultCode × Word) :=
  let attr := h[2]
  if bits h[1] 63 56 != 0 then some (.illop, h[1])
  else if bits attr 63 32 != 0 || bits attr 23 18 != 0 || bits attr 15 11 != 0 || bit attr 7 then some (.illop, attr)
  else if !(p.tiles.any fun t => (s.tile t).good && kindBit h t) then some (.illop, attr)
  else if hN h = 0 || most < hN h || 64 < bits h[1] 47 32 || (hAff h != 0xFF && p.fields.length ≤ hAff h) then some (.illop, h[1])
  else if bits (hEntry h) 2 0 != 0 then some (.illop, hEntry h)
  else if ctrBad (hDone h) then some (.illop, hDone h)
  else if ctrBad (hDep h) then some (.illop, hDep h)
  else if hRollback h && !log then some (.illop, attr)
  else if hCosched h && s.strandSlots p < hN h then some (.illop, attr)
  else if hLevel h = 0 || 1 < hLevel h then some (.level, BitVec.ofNat 64 (hLevel h))
  else none

/-- A task with its sequence number, the partition's next one (R494). -/
def State.newTask (s : State) (part : Nat) (mk : BitVec 32 → Task) : State × Nat :=
  let q := match tget s.parts part with
    | some p => p.nextSeq
    | none => 0
  let n := s.nextUid
  ({ (s.modPart part fun p => { p with nextSeq := p.nextSeq + 1 }).setTask n (mk q) with nextUid := n + 1 }, n)

/-- A task that a check ends before any strand of it exists (R492). Its fault record has index 0: DESIGN CHOICE (log 46). -/
def State.endUnlaunched (s : State) (part vf ctx queue qslot : Nat) (addr : Word) (h : Header) (c : FaultCode) (tval : Word) : State :=
  let time := BitVec.ofNat 64 s.time
  let (s1, n) := s.newTask part fun q =>
    { part := part, vf := vf, ctx := ctx, queue := queue, qslot := qslot, seq := q, addr := addr, header := h, next := BitVec.ofNat 32 (hN h),
      fault := some #v[causeOf c false, tval, 0, 0, q ++ (0 : BitVec 32), 0, time], stopping := true }
  s1.postOnce (.taskCompletion n)

/-- The dwords of a header. -/
def headerOf (bs : List Byte) : Header := Vector.ofFn fun i : Fin 8 => wordOfBytes ((bs.drop (8 * i.val)).take 8)

/-- A reserved bit that is set in the virtual function's entry or in the queue descriptor at `dp`: the dword that holds it,
lowest offset first. R17 makes it the launch's fault, which is ILLOP as for a reserved bit of the header (log 55, DEDUCED). -/
def State.queueReserved (s : State) (p : Partition) (v dp : Nat) : Option Word :=
  let e := s.vfDw p v
  ([(e 0, 1), (e 8, 12), (e 0x10, 4)] ++ ((upto 3).map fun i => (e (0x28 + 8 * i), 0)) ++ [(s.dwAt (dp + 8), 17)]).findSome?
    fun (w, n) => if bits w 63 n != 0 then some w else none

/-- The tail counter of a queue as the scheduler reads it, an acquire (R492): at the first read its value counts as noticed. -/
def State.readTail (s : State) (i : Instr) (part vf q ctx : Nat) (va : Word) : State × Bool :=
  let known := fun (x : State) (v : Option Word) => x.modTaskQueue part vf q fun y =>
    { y with tail := some va, tailSeen := if y.tail.isNone then v.getD y.tailSeen else y.tailSeen }
  match s.reach i false part ctx va .read with
  | .held s1 => (s1, false)
  | .bad s1 _ _ => (known s1 none, true)
  | .ok s1 pa => (known (s1.touchL2 pa ctx) (if s1.lostAt pa 8 then none else some (s1.dwAt pa)), true)

/-- A header that has been read (R492): its checks, then its place behind those read before; the dependence counter's value is read with
it. `s0` is the state to which a read of that counter that is held goes back. -/
def State.headerRead (s : State) (part vf q ctx slot : Nat) (addr : Word) (dp : Nat) (h : Header) (p : Partition) : State × Bool :=
  let act := Instr.taskHeaderRead part vf (Fin.ofNat 8 q)
  match ((s.queueReserved p vf dp).map fun w => (FaultCode.illop, w)).or (s.headerFault p h (s.dwAt (dp + 0x30) != 0)) with
  | some (c, v) => (s.endUnlaunched part vf ctx q slot addr h c v, true)
  | none =>
    let add := fun (x : State) (seen : Option Word) => (x.modTaskQueue part vf q fun y =>
      { y with headers := y.headers ++ [{ qslot := slot, header := h, addr := addr, log := s.dwAt (dp + 0x30)
                                          logCap := (s.dwAt (dp + 0x38)).toNat / 144, depSeen := seen }] }).postOnce (.taskLaunch part)
    if hDep h = 0 then (add s none, true)
    else
      match s.reach act false part ctx (hDep h) .read with
      | .held s1 => (s1, false)
      | .bad s1 _ _ => (add s1 none, true)
      | .ok s1 pa => (add (s1.touchL2 pa ctx) (if s1.lostAt pa 8 then none else some (s1.dwAt pa)), true)

/-- TASK_HEADER_READ (R492): the header in slot HEAD mod NSLOT, when TAIL covers it. A header that cannot be read ends its task with the
fault of that access: DESIGN CHOICE (log 66). -/
def execTaskHeaderRead (part vf : Nat) (queue : Fin 8) (s : State) : Host.Outcome State Fault Refusal :=
  let act := Instr.taskHeaderRead part vf queue
  match tget s.parts part with
  | none => .next s
  | some p =>
    let q := queue.val
    let ctx := s.vfCtx p vf
    let d := s.qdesc p vf q
    if !s.vfValid p vf || s.vfQueues p vf ≤ q then .next s
    else
      match s.reachAll act part ctx [(d, .read), (d + 0x18, .write)] with
      | (s1, some [some dp, some hp]) =>
        if s1.lostAt dp 64 then .next (s1.assayAt dp)
        else
          match s1.readTail act part vf q ctx (s1.dwAt (dp + 0x10)) with
          | (s2, false) => .next s2
          | (s2, true) =>
            let head := s2.dwAt hp
            if (((tget s2.parts part).map fun (x : Partition) => (x.queue vf q).tailSeen).getD 0).toNat ≤ head.toNat then .next s2
            else
              let slot := head.toNat % bits (s2.dwAt (dp + 8)) 16 0
              let addr := s2.dwAt dp + BitVec.ofNat 64 (64 * slot)
              let next := fun (x : State) => (x.putReach ctx (some (some hp)) (bytesOf 8 (head + 1).toNat)).postOnce act
              let gone := fun (x : State) c v => next (x.endUnlaunched part vf ctx q slot addr (Vector.replicate 8 0) c v)
              match s2.reach act false part ctx addr .read with
              | .held s3 => .next s3
              | .bad s3 c v => .next (gone s3 c v)
              | .ok s3 sp =>
                if s3.lostAt sp 64 then .next (gone (s3.assayAt sp) .uncorr addr)
                else
                  match (s3.touchL2 sp ctx).headerRead part vf q ctx slot addr dp (headerOf (s3.bytesAt sp 64)) p with
                  | (s4, true) => .next (next s4)
                  | (s4, false) => .next s4
      | (s1, _) => .next s1

/-! ### Launch (R493, R494, R496) -/

/-- The field of affinity, physical (R496). -/
def State.affinity (s : State) (p : Partition) (h : Header) : Nat :=
  let first := (p.phys 0).getD 0
  if hAff h = 0xFF then
    match s.homeOf p (hArgs h) with
    | some f => if (p.logical f).isSome then f else first
    | none => first
  else (p.phys (hAff h)).getD first

/-- Candidate tiles in the order of R496. A suspect tile takes no new task (R504); a relaunch, `again`, avoids a tile under Assay
(R502). -/
def State.candidates (s : State) (p : Partition) (h : Header) (again : Bool) : List Nat :=
  let a := s.affinity p h
  let fs := sortBy (fun x y => hops a x < hops a y) (p.fields.map (·.1))
  fs.flatMap fun f =>
    let ts := ((upto 12).map fun i => f * 16 + i).filter fun t =>
      (s.tile t).good && kindBit h t && !(s.tile t).bucket.suspect && !(again && (s.tile t).bucket.busy)
    (ts.filter fun t => (s.tile t).lit) ++ ts.filter fun t => !(s.tile t).lit

/-- The tile of strand `i`. -/
def tileFor (h : Header) (cands : List Nat) (i : Nat) : Nat := (cands[(i / hSpt h) % cands.length]?).getD 0

/-- A strand at launch (R49). -/
def launchStrand (task part : Nat) (h : Header) (i tile : Nat) : Strand :=
  let t : Strand :=
    { task := task, part := part, index := BitVec.ofNat 32 i, home := tile, place := .waiting, hdr := hEntry h,
      prio := hPrio h, cls := hClass h }
  { t with frames := (t.frames.set 0 (hArgs h)).set 1 (BitVec.ofNat 64 i) }

/-- A strand record that the scheduler makes at a launch: it has its place in the strand area and is written whole (R28), and
its first pick-up acquires at .system (R164). -/
def State.launchRecord (s : State) (t : Strand) : State :=
  let u := s.nextUid
  let t1 := { t with area := s.newRecord t.part, acq := .system }
  ((({ s with nextUid := u + 1 } : State).setStrand u { t1 with stat := packStat t1 }).writeRecord u).toReady u t.home

/-- No line of the context stays in the instruction caches of some tiles, so that a task fetches what is in memory when it is
launched (R59). -/
def State.dropCode (s : State) (ctx : Nat) (tiles : List Nat) : State :=
  tiles.foldl (fun x t => x.modTile t fun y => { y with icache := y.icache.filter fun l => l.ctx != ctx }) s

/-- Core hint of strand `i` at launch: the records of the launch on one tile are spread over its cores (DEDUCED from the
example of chapter 10, log 12; R270). -/
def launchCore (h : Header) (cands : List Nat) (i : Nat) : Nat :=
  (i / hSpt h / cands.length * hSpt h + i % hSpt h) % 16

/-- The strands of a task placed on the candidate tiles, with the grants that they ask for (R437, R496). -/
def State.placeStrands (s : State) (task : Nat) (ta : Task) (cands : List Nat) : State :=
  let h := ta.header
  let s0 := s.dropCode ta.ctx (((tget s.parts ta.part).map Partition.tiles).getD [])
  let s1 := (upto (hN h)).foldl (fun x i =>
    x.launchRecord { launchStrand task ta.part h i (tileFor h cands i) with lcore := launchCore h cands i }) s0
  s1.postAll ((((upto (hN h)).map (tileFor h cands)).dedup).map fun t => .placementGrant t task)

/-- Free slots of a tile that no record waits for; those of cores under Assay do not count for a relaunch (R502). -/
def State.openSlots (s : State) (t : Nat) (again : Bool) : Nat :=
  let free := ((upto 16).flatMap fun i => (upto 4).map fun j => (t * 16 + i) * 4 + j).filter fun k =>
    (s.core (coreOfSlot k)).good && !(s.core (coreOfSlot k)).bucket.suspect && !(again && (s.core (coreOfSlot k)).bucket.busy) &&
      (tget s.slots k).isNone
  free.length - ((s.tile t).ready.map List.length).sum

/-- A co-scheduled task has a slot for each of its strands (R498). -/
def State.roomFor (s : State) (h : Header) (cands : List Nat) (again : Bool) : Bool :=
  !hCosched h || cands.all fun t => ((upto (hN h)).filter fun i => tileFor h cands i = t).length ≤ s.openSlots t again

/-- The head task of a queue can be launched (R493, R498, R500). -/
def State.canLaunch (s : State) (p : Partition) (f : Vf) (q : Queue) : Option ReadHeader :=
  match q.headers with
  | [] => none
  | r :: _ =>
    let cands := s.candidates p r.header false
    if f.pause = 0 && (hDep r.header = 0 || r.depSeen.any fun v => (hDepv r.header).toNat ≤ v.toNat) &&
       !(hRollback r.header && q.rollback.isSome) && !cands.isEmpty && s.roomFor r.header cands false
    then some r else none

/-- The queues whose head can be launched: PRIO, virtual function, queue. -/
def State.launchable (s : State) (p : Partition) : List (Nat × Nat × Nat) :=
  p.vfs.flatMap fun (v, f) => f.queues.filterMap fun (j, q) => (s.canLaunch p f q).map fun r => (hPrio r.header, v, j)

/-- The queue served next: highest PRIO, then round-robin over virtual functions, then over the queues of one (R494). -/
def nextQueue (p : Partition) (l : List (Nat × Nat × Nat)) : Option (Nat × Nat) :=
  let far := fun (n last i : Nat) => (i + n - last - 1) % n
  let key := fun (x : Nat × Nat × Nat) =>
    ((7 - x.1) * 1024 + far 1024 p.served x.2.1) * 8 + far 8 (tgetD p.vfs x.2.1 {}).served x.2.2
  match sortBy (fun x y => key x < key y) l with
  | x :: _ => some x.2
  | [] => none

/-- The head task of a queue launched. -/
def State.launchHead (s : State) (part : Nat) (p : Partition) (v j : Nat) (r : ReadHeader) : State :=
  let ctx := s.vfCtx p v
  let (s1, n) := s.newTask part fun q =>
    { part := part, vf := v, ctx := ctx, queue := j, qslot := r.qslot, seq := q, addr := r.addr, header := r.header,
      next := BitVec.ofNat 32 (hN r.header), logBase := r.log, logCap := r.logCap }
  let s2 := s1.modPart part fun x =>
    let y := x.setQueue v j { (x.queue v j) with
      headers := (x.queue v j).headers.drop 1
      rollback := if hRollback r.header then some n else (x.queue v j).rollback }
    { y with served := v, vfs := tmod y.vfs v fun f => { f with served := j } }
  match tget s2.tasks n with
  | some ta => s2.placeStrands n ta (s2.candidates p r.header false)
  | none => s2

/-! ### PAUSE (R544) -/

/-- A virtual function has tasks whose DONE additions have not been performed, egress descriptors, or a BLOCK that waits. -/
def State.vfBusy (s : State) (part v : Nat) : Bool :=
  (s.tasks.any fun e => e.2.part = part && e.2.vf = v) ||
  (s.fields.any fun e => e.2.adds.any fun a => a.owner = some (part, v)) ||
  s.ports.any fun (e : Nat × Port) =>
    (match e.2.bind with
     | some b => b.part = part && b.vf = v && !s.ringIdle e.1 e.2 b
     | none => false) ||
    e.2.sessions.any fun x => x.2.part = part && x.2.vf = some v && x.2.held.any fun k => k.kind = 0x16 && k.seq = x.2.next

/-- The dwords of the tree-save area (R544): a count, then 34 for each VALID tree that the context owns. -/
def State.treeArea (s : State) (part : Nat) (p : Partition) (ctx : Nat) : List Word :=
  let trees := p.tiles.flatMap fun t => (upto 8).filterMap fun n =>
    let x := tgetD (s.tile t).trees n {}
    if x.valid && x.part = part && x.owner = ctx then some (t, n, x) else none
  BitVec.ofNat 64 trees.length :: trees.flatMap fun (t, n, x) =>
    BitVec.ofNat 64 ((p.logical (t / 16)).getD 0 * 2 ^ 10 + t % 16 * 2 ^ 6 + n) ::
    BitVec.ofNat 64 (x.par.length % 512 + x.basepos * 2 ^ 32) ::
    dwordsOf 32 ((x.par.map (BitVec.ofNat 8)) ++ List.replicate (256 - x.par.length) 0)

/-- Steps 4 and 5 of PAUSE; false where a page holds them. -/
def State.endPause (s : State) (part : Nat) (p : Partition) (v : Nat) (blk : Word) : State :=
  let done := fun (x : State) =>
    (x.modPart part fun q => { q with vfs := tmod q.vfs v fun f => { f with pause := 3 } }).migrationDone part v blk
  match s.reach (.taskLaunch part) false part sessionCtx (blk + 0x38) .read with
  | .held s0 => s0
  | .bad s0 _ _ => done s0
  | .ok s0 tp =>
    let trees := s0.dwAt tp
    if trees = 0 then done s0
    else
      let ws := s0.treeArea part p (s0.vfCtx p v)
      match s0.reachAll (.taskLaunch part) part sessionCtx (ws.mapIdx fun i _ => (trees + BitVec.ofNat 64 (8 * i), .write)) with
      | (s1, none) => s1
      | (s1, some l) => done ((ws.zip l).foldl (fun x e => x.putReach sessionCtx (some e.2) (bytesOf 8 e.1.toNat)) s1)

/-- How far PAUSE has come for the virtual functions of a partition. -/
def State.pauseTurns (s : State) (part : Nat) (p : Partition) : State :=
  p.vfs.foldl (fun x (v, f) =>
    match f.pause, f.moving with
    | 1, some (_, blk) =>
      if x.vfBusy part v then x.postAt (x.time + 1) (.taskLaunch part)
      else (x.modPart part fun q => { q with vfs := tmod q.vfs v fun g => { g with pause := 2 } }).endPause part p v blk
    | 2, some (_, blk) => x.endPause part p v blk
    | _, _ => x) s

/-- TASK_LAUNCH (R493, R494, R496). No task is launched during a debug halt (R512). The scheduler also sees how far a PAUSE has
come (R544). -/
def execTaskLaunch (part : Nat) (s : State) : Host.Outcome State Fault Refusal :=
  let s := match tget s.parts part with
    | some p => s.pauseTurns part p
    | none => s
  match tget s.parts part with
  | none => .next s
  | some p =>
    if p.halt.isSome || p.closing then .next s
    else
      match nextQueue p (s.launchable p) with
      | none => .next s
      | some (v, j) =>
        match (p.queue v j).headers with
        | [] => .next s
        | r :: _ => .next ((s.launchHead part p v j r).postOnce (.taskLaunch part))

/-! ### Aging (R497) -/

/-- The record waits where it ages: on a ready queue, or on a broker's waiting list. -/
def State.ages (s : State) (u : Nat) (t : Strand) : Bool :=
  match t.place with
  | .ready _ => true
  | .waiting => s.fields.any fun e => e.2.waiters.any fun w => w.uid = u
  | _ => false

/-- A partition of a strand is halted. -/
def State.strandHalted (s : State) (t : Strand) : Bool :=
  match tget s.parts t.part with
  | some p => p.halt.isSome
  | none => false

/-- AGING (R497): one PRIO more for each 100 µs of continuous waiting, up to 7. -/
def execAging (uid : Nat) (s : State) : Host.Outcome State Fault Refusal :=
  match tget s.strands uid with
  | none => .next s
  | some t =>
    let due := (s.time - t.since) / agingStep
    if !s.ages uid t || due ≤ t.aged then .next s
    else
      let again := s.postAt (t.since + agingStep * (due + 1)) (.aging uid)
      if s.strandHalted t then .next (again.modStrand uid fun x => { x with aged := due })
      else
        let s1 := (again.raisePrio uid (min 7 (t.prio + (due - t.aged)))).modStrand uid fun x => { x with aged := due }
        .next (match t.place with
          | .ready tile => (s1.postOnce (.priorityPreemption tile)).postOnce (.timeSlicePreemption tile)
          | _ => if s1.holdIn (fieldOfTile t.home) then s1 else s1.serveField (fieldOfTile t.home))

/-! ### Pre-emption (R187, R428, R498) -/

/-- A strand runs: it stands on a slot, not halted there, and no pre-emption of it is under way. -/
def State.runs (s : State) (u : Nat) : Bool :=
  s.slots.any fun e => e.2.uid = u && !e.2.preempt && match e.2.hold with
    | none | some .creation | some .reply => true
    | _ => false

/-- Strands that run on a tile and are not being stopped: slot, slot contents, strand. One that waits in a SPAWN or SEND runs:
pre-emption strikes it there (R289). -/
def State.runningOn (s : State) (tile : Nat) : List (Nat × Slot × Strand) :=
  s.slots.filterMap fun (k, sl) =>
    if tileOfSlot k = tile && s.runs sl.uid then (tget s.strands sl.uid).map fun t => (k, sl, t) else none

/-- Strands that are drawn in with one: those of its co-scheduled task, and the members of the co-scheduled groups of which it is a
member, one that leaves until its last phase completes (R413, R428, R498). -/
def State.drawn (s : State) (u : Nat) : List Nat :=
  match tget s.strands u with
  | none => []
  | some t =>
    match tget s.tasks t.task, tget s.parts t.part with
    | some ta, some p =>
      (if hCosched ta.header then (s.strands.filter fun e => e.2.task = t.task).map (·.1) else []) ++
      p.fields.flatMap fun f => (s.field f.1).groups.flatMap fun (_, g) =>
        if g.valid && g.cosched && g.members.any (·.uid = u) then g.members.map (·.uid) else []
    | _, _ => []

/-- The strands drawn in through all of them, `n` bounding the rounds. -/
def State.closure (s : State) : Nat → List Nat → List Nat
  | 0, l => l
  | n + 1, l =>
    let more := ((l.flatMap s.drawn).dedup).filter fun u => !l.contains u
    if more.isEmpty then l else s.closure n (l ++ more)

/-- One slot is to stop at its next boundary. Vector-side instructions that have not started are discarded at once (R221, R267), unless
the strand is stalled within a store, which completes first (Table 6.8); its engine instruction halts (R320). A slot that a fault has
stopped is left alone. -/
def State.stopIssue (s : State) (k : Nat) : State :=
  match tget s.slots k with
  | some sl =>
    if sl.hold = some .fault then s
    else
      let s1 := s.setSlot k { sl with preempt := true }
      (if sl.stalled then s1 else s1.discard k).haltPreempted (tileOfSlot k)
  | none => s

/-- One slot is to be pre-empted. -/
def State.preemptSlot (s : State) (k : Nat) : State :=
  match tget s.slots k with
  | some sl => if sl.hold = some .fault then s else (s.stopIssue k).postOnce (.preemption k)
  | none => s

/-- A strand and every running strand drawn in with it are to be pre-empted; their records go onto their ready queues together. -/
def State.preemptStrand (s : State) (u : Nat) : State :=
  let l := (s.closure (s.slots.length + 1) [u]).filter s.runs
  let s1 := l.foldl (fun x v =>
    match x.slotOf v with
    | some k => x.preemptSlot k
    | none => x) s
  let m := l.filter s1.leavingSlot
  if 2 ≤ m.length then { s1 with cosets := s1.cosets ++ [m] } else s1

/-- Records on a tile's ready queues that have waited for a time, highest PRIO first. -/
def State.waitedFor (s : State) (tile d : Nat) : List Strand :=
  (((s.tile tile).ready.reverse.flatten).filterMap (tget s.strands)).filter fun t => t.since + d ≤ s.time && !s.strandHalted t

/-- Slots of a tile that are being freed already. -/
def State.leaving (s : State) (tile : Nat) : Nat :=
  (s.slots.filter fun (k, sl) => tileOfSlot k = tile && (sl.preempt || sl.hold = some .save)).length

/-- The tile has a free slot. -/
def State.hasFree (s : State) (tile : Nat) : Bool := (s.chooseSlot tile 0 false).isSome

/-- The victim of a record: the running strand of lowest PRIO, the earliest pick-up among those (R498). -/
def victimOf (l : List (Nat × Slot × Strand)) : Option (Nat × Slot × Strand) :=
  (sortBy (fun (x y : Nat × Slot × Strand) => x.2.2.prio < y.2.2.prio ||
    (x.2.2.prio = y.2.2.prio && x.2.1.picked < y.2.1.picked)) l).head?

/-- PRIORITY_PREEMPTION (R498): a record that has waited 10 µs takes the slot of a strand of lower effective PRIO. -/
def execPriorityPreemption (tile : Nat) (s : State) : Host.Outcome State Fault Refusal :=
  if s.hasFree tile then .next s
  else
    match (s.waitedFor tile prioDelay).drop (s.leaving tile), victimOf ((s.runningOn tile).filter fun x => !s.strandHalted x.2.2) with
    | w :: _, some (_, sl, t) =>
      if t.prio < w.prio then .next ((s.preemptStrand sl.uid).postOnce (.priorityPreemption tile)) else .next s
    | _, _ => .next s

/-- TIME_SLICE_PREEMPTION (R498): a record that has waited 1 ms takes the slot of a strand of equal effective PRIO that has run
1 ms. -/
def execTimeSlicePreemption (tile : Nat) (s : State) : Host.Outcome State Fault Refusal :=
  if s.hasFree tile then .next s
  else
    let run := (s.runningOn tile).filter fun x => !s.strandHalted x.2.2
    match (s.waitedFor tile sliceTime).drop (s.leaving tile) with
    | [] => .next s
    | w :: _ =>
      let equal := run.filter fun x => x.2.2.prio = w.prio
      match victimOf (equal.filter fun x => x.2.1.picked + sliceTime ≤ s.time) with
      | some (_, sl, _) => .next ((s.preemptStrand sl.uid).postOnce (.timeSlicePreemption tile))
      | none =>
        match (equal.map fun x => x.2.1.picked + sliceTime).min? with
        | some d => .next (if s.timers.contains (d, .timeSlicePreemption tile) then s else s.postAt d (.timeSlicePreemption tile))
        | none => .next s

/-- PREEMPTION (R187): the strand on a slot halts at an instruction boundary and is put down with WAIT = 4. It waits for
outstanding instructions and for a store stalled within itself (Table 6.8); vector-side instructions that have not started are discarded (R221). -/
def execPreemption (slot : Nat) (s : State) : Host.Outcome State Fault Refusal :=
  match tget s.slots slot with
  | none => .next s
  | some sl =>
    let halted := match tget s.strands sl.uid with
      | some t => s.strandHalted t
      | none => false
    let atEngine := (s.tile (tileOfSlot slot)).jobs.any fun j => j.u = sl.uid
    if !sl.preempt || halted then .next s
    else
      match sl.hold with
      | none | some .creation =>
        if replyNow s.time sl.lost = .waits then .next (s.postAt (s.time + 1) (.preemption slot))
        else if atEngine || !sl.flight.isEmpty || sl.leave || (sl.stalled && sl.hold.isNone) then .next (s.postOnce (.preemption slot))
        else .next ((s.discard slot).suspend slot .preempted 0 0)
      | _ => .next s

/-! ### The end of a grid (R184) -/

/-- A slot of a grid that stops has reached an instruction boundary: an engine instruction halts between two row-blocks (R320), and
anything else that is outstanding completes first. -/
def State.atBoundary (s : State) (k : Nat) (sl : Slot) : Bool :=
  (sl.flight.all fun f => kindOf f.instr = .engine) && (!sl.stalled || sl.hold.isSome) && !((s.tile (tileOfSlot k)).jobs.any fun j => j.u = sl.uid && j.status = .running)

/-- The resume record of a strand goes back to the arena (R321). -/
def State.dropRecord (s : State) (t : Strand) : State :=
  let w := match t.place with
    | .slot _ => t.rprog
    | _ =>
      match (if t.save = 0 then none else s.arenaPa t.part t.save) with
      | some pa => s.dwAt (pa + 0xA0)
      | none => t.rprog
  if bits w 3 0 = 0 then s else s.freeArena t.part (rrec w) resumeBytes

/-- The slot of a strand that is stopped without being saved: its posted stores are performed (R184, step 3). -/
def State.stopSlot (s : State) (u : Nat) : Place → State
  | .slot k =>
    let s1 := (s.discard k).release k .tile
    ((s1.leaveStream k).dropEntry (tileOfSlot k) u).vacate k
  | _ => s

/-- A strand of a grid that ends is gone (R184, step 2). Overflow records take the pool buffer that it frees, and creations that
wait go on (R288, R289). -/
def State.stopStrand (s : State) (u : Nat) : State :=
  match tget s.strands u with
  | none => s
  | some t =>
    let s0 := match t.place with
      | .slot k => s.modSlot k fun sl => { sl with flight := [], windows := [] }
      | _ => s
    let s1 := (((if (s.tile t.home).jobs.any (·.u = u) then s0.dropClean (coreOfSlot t.stood) else s0).dropWaits u).relist s u).dropGroups
      u true
    let s2 := (s1.dropRecord t).stopSlot u t.place
    let s3 := (s2.offReady u t.home).modTile t.home fun x =>
      { x with pool := ldel x.pool u, overflow := ldel x.overflow u, jobs := x.jobs.filter fun j => j.u != u }
    let s4 := if t.save = 0 then s3 else s3.freeArena t.part t.save frameBytes
    let s5 := if t.ovf = 0 then s4 else s4.freeArena t.part t.ovf recordBytes
    let s6 := (s5.modPart t.part fun p => { p with stalled := ldel p.stalled u }).strandGone u
    (s6.movePending t.home).postOnce (.rowBlockStart t.home)

/-- Waiters of copy engines and scrubbers that are gone leave the lists of their fields. -/
def State.dropWaiters (s : State) (gone : Waiter → Bool) : State :=
  { s with fields := s.fields.map fun (e : Nat × Field) =>
      let f := e.2
      (e.1, { f with
        faults := f.faults.filter fun w => !gone w.who
        promos := f.promos.map fun q => { q with waiters := q.waiters.filter fun w => !gone w.wait.who } }) }

/-- The copy commands of a task discarded (R184, step 4). -/
def State.dropCopies (s : State) (task : Nat) : State :=
  let heads := s.tiles.flatMap fun (n, t) => t.copies.filterMap fun (q, x) =>
    match x.cmds with
    | c :: _ => if c.task = task then some (Waiter.copy n q) else none
    | [] => none
  let s1 := s.dropWaiters fun w => heads.contains w
  let s2 : State := { s1 with tiles := s1.tiles.map fun (n, t) =>
      (n, { t with
        copies := (t.copies.map fun (e : Nat × CopyQueue) =>
          (e.1, { e.2 with cmds := e.2.cmds.filter (fun c => c.task != task), held := e.2.held && !heads.contains (.copy n e.1) })).filter
            fun e => !e.2.cmds.isEmpty
        copied := t.copied.filter fun c => c.task != task }) }
  s2.tiles.foldl (fun x e => x.copyTurn e.1) s2

/-- The scrubber commands of a task: those not begun are discarded, one under way goes on quietly, and one that waits for a
page stops where it stands (R184, step 4). -/
def State.dropScrubs (s : State) (task : Nat) : State :=
  let stuck := (s.fields.filter fun (n, f) => s.scrubHeld n && (f.scrubs.head?.any fun c => c.task = task)).map (·.1)
  let s1 := s.dropWaiters fun w => stuck.any fun n => w = .scrub n
  let s2 : State := { s1 with fields := s1.fields.map fun (n, f) =>
      let l := if stuck.contains n then f.scrubs.drop 1 else f.scrubs
      (n, { f with scrubs := (l.filter fun c => !(c.task = task && c.stage = 0)).map fun c => if c.task = task then { c with quiet := true } else c }) }
  s2.postAll ((s2.fields.filter fun e => !e.2.scrubs.isEmpty && !s2.scrubHeld e.1).map
    fun e => .scrubberRun e.1)

/-- Slots that hold strands of a task. -/
def State.slotsOfTask (s : State) (task : Nat) : List (Nat × Slot) :=
  s.slots.filter fun (_, sl) =>
    match tget s.strands sl.uid with
    | some t => t.task = task
    | none => false

/-- GRID_STOP (R184, steps 2 to 4). A fault of a halted partition is held (R512). -/
def execGridStop (task : Nat) (s : State) : Host.Outcome State Fault Refusal :=
  match tget s.tasks task with
  | none => .next s
  | some ta =>
    let halted := match tget s.parts ta.part with
      | some p => p.halt.isSome
      | none => false
    if halted || ta.stopping || ta.fault.isNone then .next s
    else
      let ks := s.slotsOfTask task
      let s1 := ks.foldl (fun x e => x.stopIssue e.1) s
      if (s1.slotsOfTask task).any fun e => !s1.atBoundary e.1 e.2 then
        .next (if ks.any fun e => replyNow s.time e.2.lost = .waits then s1.postAt (s.time + 1) (.gridStop task) else s1.postOnce (.gridStop task))
      else
        let us := (s1.strands.filter fun e => e.2.task = task).map (·.1)
        let s2 := us.foldl State.stopStrand s1
        .next ((((s2.dropCopies task).dropScrubs task).modTask task fun x => { x with stopping := true }).postOnce (.taskCompletion task))

/-! ### Completion (R164, R184, R185, R495) -/

/-- Commands of a task remain in a copy engine or a scrubber. -/
def State.commandsLeft (s : State) (task : Nat) : Bool :=
  s.tiles.any (fun e => e.2.copied.any (fun c => c.task = task) || e.2.copies.any fun q => q.2.cmds.any fun c => c.task = task) ||
  s.fields.any fun e => e.2.scrubs.any fun c => c.task = task

/-- Some tile has tokens of an ended grid to return. -/
def State.returnsDue (s : State) : Bool :=
  s.agenda.any fun t => match t with
    | .event (.taskEndReturn _) => true
    | _ => false

/-- The fault code of a cause. -/
def codeOf (c : Word) : Nat := bits c 4 0

/-- CAUSE as the fault record gives it: a second uncorrectable error of a task that runs again is ROLLBACK (R501). -/
def Task.finalCause (ta : Task) (c : Word) : Word :=
  if ta.relaunched && !ta.walkLost && (codeOf c = 15 || codeOf c = 16) then putBits c 5 0 17 else c

/-- The first run of a ROLLBACK task met an uncorrectable error (R502). -/
def Task.rollsBack (ta : Task) : Bool :=
  hRollback ta.header && !ta.relaunched && !ta.walkLost &&
  match ta.fault with
  | some r => codeOf r[0] = 15 || codeOf r[0] = 16
  | none => false

/-- Status word of a task (Table 19.6). -/
def Task.status (ta : Task) : Word :=
  let code := match ta.fault with
    | some r => codeOf (ta.finalCause r[0])
    | none => 0
  BitVec.ofNat 64 (ta.seq.toNat * 2 ^ 32 + (if ta.relaunched then 32 else 0) + code)

/-- The fault record of a task (Table 6.6). -/
def Task.faultRecord (ta : Task) : Option (List Byte) :=
  ta.fault.map fun r => (((r.set 0 (ta.finalCause r[0])).toList ++ [BitVec.ofNat 64 ta.fcount]).flatMap fun w => bytesOf 8 w.toNat)

/-- Queue number of a gateway task, which runs outside every queue (R528). -/
def gatewayQueue : Nat := 8

/-- Where a task's status word and fault record go: its queue's STAT and FREC, or, for a gateway task, the 64 and 128 bytes
after its header (R495, R528). None inside where the descriptor has no place, none where its page holds the act. -/
def State.reportPlaces (s : State) (i : Instr) (p : Partition) (ta : Task) : State × Option (Option (Word × Word)) :=
  if ta.queue = gatewayQueue then (s, some (some (ta.addr + 0x40, ta.addr + 0x80)))
  else
    match s.reach i false ta.part ta.ctx (s.qdesc p ta.vf ta.queue + 0x20) .read with
    | .held s1 => (s1, none)
    | .bad s1 _ _ => (s1, some none)
    | .ok s1 pa =>
      (s1, some (some (s1.dwAt pa + BitVec.ofNat 64 (8 * ta.qslot), s1.dwAt (pa + 8) + BitVec.ofNat 64 (64 * ta.qslot))))

/-- The accesses of a task's completion: its status word, and its fault record when it has a fault. -/
def Task.reports (ta : Task) : Option (Word × Word) → List (Word × Acc)
  | some (stat, frec) => (stat, .write) :: if ta.fault.isSome then [(frec, .write)] else []
  | none => []

/-- A task that has ended is gone; the queue goes on (R494, R500), and a DEACTIVATE that waits may go on (R486). -/
def State.taskGone (s : State) (task : Nat) (ta : Task) : State :=
  let s1 := { s with tasks := tdel s.tasks task }
  let s2 := if ta.queue = gatewayQueue then s1 else s1.modTaskQueue ta.part ta.vf ta.queue fun q =>
    if q.rollback = some task then { q with rollback := none } else q
  let closing := match tget s2.parts ta.part with
    | some p => p.closing
    | none => false
  let s3 := s2.postOnce (.taskLaunch ta.part)
  if closing && !(s3.tasks.any fun e => e.2.part = ta.part) then s3.postOnce (.deactivate ta.part) else s3

/-- A counter addition sent to a home slice, where it is performed behind those sent before it (R163). -/
def State.sendAdd (s : State) (a : Adding) : State :=
  (s.modField (fieldOfPa a.pa) fun x => { x with adds := x.adds ++ [a] }).postOnce (.counterAddition (fieldOfPa a.pa))

/-- TASK_COMPLETION (R164, R495): status word, fault record, DONE addition; or the rollback of a task that is to be rolled back
(R502). -/
def execTaskCompletion (task : Nat) (s : State) : Host.Outcome State Fault Refusal :=
  match tget s.tasks task with
  | none => .next s
  | some ta =>
    match tget s.parts ta.part with
    | none => .next { s with tasks := tdel s.tasks task }
    | some p =>
      if !s.taskEmpty task || s.commandsLeft task || (ta.fault.isSome && !ta.stopping) then .next s
      else if s.returnsDue then .next (s.postOnce (.taskCompletion task))
      else if ta.rollsBack then .next (s.postOnce (.rollback task))
      else
        let act := Instr.taskCompletion task
        let done := hDone ta.header
        match s.reportPlaces act p ta with
        | (s1, none) => .next s1
        | (s1, some report) =>
          match s1.reachAll act ta.part ta.ctx (ta.reports report) with
          | (s2, none) => .next s2
          | (s2, some places) =>
            match s2.reachAll act ta.part ta.ctx (if done = 0 || ctrBad done then [] else [(done, .rmw)]) with
            | (s3, none) => .next s3
            | (s3, some ctr) =>
              let s4 := s3.putReach ta.ctx places[0]? (bytesOf 8 ta.status.toNat)
              let s5 := match ta.faultRecord with
                | some bs => s4.putReach ta.ctx places[1]? bs
                | none => s4
              let s6 := match ctr with
                | some pa :: _ => s5.sendAdd { pa := pa, val := hDonev ta.header, ctx := ta.ctx, owner := some (ta.part, ta.vf) }
                | _ => s5
              .next (s6.taskGone task ta)

/-! ### Rollback (R502) -/

/-- The outcome of restoring one line. -/
inductive Restored where
  | ok (s : State)
  | lost (s : State) (va : Word)
  | held (s : State)
  deriving DecidableEq, Repr

/-- Words of `n` bytes at a place that are uncorrectable. -/
def State.uncorrAt (s : State) (pa n : Nat) : Bool := s.uncorr.any fun w => pa ≤ 8 * w + 7 && 8 * w < pa + n

/-- A line's image written back in a second-tier page: in place and sealed (R502). -/
def State.restoreTier (s : State) (p : Partition) (part ctx pa : Nat) (va : Word) (bs : List Byte) : Restored :=
  match s.tierKey p ctx with
  | none => .lost s va
  | some key =>
    match s.tierWrite key pa bs 129 with
    | .ok s1 => .ok s1
    | .lost _ => .lost (s.countTag part) va
    | .refused => .lost s va

/-- The line of a pre-image written back, with its poison marks. -/
def State.restoreLine (s : State) (i : Instr) (part ctx : Nat) (va : Word) (bs : List Byte) (marks : List Nat) (p : Partition) : Restored :=
  let put := fun (x : State) (pa : Nat) => marks.foldl (fun y m => y.setPoison (pa + 4 * m)) ((x.touchL2 pa ctx).slicePut pa bs)
  match s.place false { part := part, ctx := ctx, gen := p.genOf ctx agentFree, va := va, acc := .write } with
  | .ok (s1, pa) => .ok (put s1 pa)
  | .error (.tier _ f _ en big slot) =>
    match s.restoreTier p part ctx (leafPa en big va) va bs with
    | .ok s1 =>
      let (s2, newD) := s1.touchLeaf f slot en .write
      .ok (if newD then s2.recordDirty part ctx (va, big) else s2)
    | x => x
  | .error (.page ..) =>
    match s.reach i false part ctx va .write with
    | .held s1 => .held s1
    | _ => .lost s va
  | .error _ => .lost s va

/-- The 144 bytes of a log entry lie in 16-byte parts, each within one page: their places, or what stops the reading. -/
def State.entryParts (s : State) (i : Instr) (ta : Task) (ev : Word) : State × Option (List (Option Nat)) :=
  s.reachAll i ta.part ta.ctx ((upto 9).map fun n => (ev + BitVec.ofNat 64 (16 * n), .read))

/-- The pre-image of a log entry at its places written back. An uncorrectable entry ends the grid. -/
def State.restoreAt (s : State) (task : Nat) (ta : Task) (p : Partition) (ev : Word) (l : List Nat) : Restored :=
  if l.any fun lp => s.uncorrAt lp 16 then .lost s ev
  else
    let bs := l.flatMap fun lp => s.bytesAt lp 16
    let at_ := fun (o : Nat) => (l[o / 16]?).getD 0 + o % 16
    s.restoreLine (.rollback task) ta.part (bits (wordOfBytes ((bs.drop 8).take 8)) 11 0) (wordOfBytes (bs.take 8)) (bs.drop 16)
      ((upto 32).filter fun i => s.poison.contains (at_ (16 + 4 * i) / 4)) p

/-- The lines of the log restored, the newest first. The entries that have been restored leave the list. -/
def State.restoreAll (s : State) (task : Nat) (ta : Task) (p : Partition) : Nat → Restored
  | 0 => .ok s
  | n + 1 =>
    let ev := ta.logBase + BitVec.ofNat 64 (144 * n)
    match s.entryParts (.rollback task) ta ev with
    | (s1, none) => .held s1
    | (s1, some l) =>
      if l.any Option.isNone then .lost s1 ev
      else
        match s1.restoreAt task ta p ev (l.filterMap id) with
        | .ok s2 => (s2.modTask task fun x => { x with logged := x.logged.take n }).restoreAll task ta p n
        | x => x

/-- ROLLBACK (R502): the pre-images are written back in reverse order, and the task is launched again, a co-scheduled one when it has
room (R498), and none during a debug halt (R512). -/
def execRollback (task : Nat) (s : State) : Host.Outcome State Fault Refusal :=
  match tget s.tasks task with
  | none => .next s
  | some ta =>
    match tget s.parts ta.part with
    | none => .next s
    | some p =>
      if !ta.rollsBack || !ta.stopping || p.halt.isSome then .next s
      else
        match s.restoreAll task ta p ta.logged.length with
        | .held s1 => .next s1
        | .lost s1 va =>
          let r : Vector Word 7 := #v[causeOf .rollback false, va, 0, 0, taskIdOf ta 0, 0, BitVec.ofNat 64 s.time]
          .next ((s1.setTask task { ta with fault := some r, logged := [] }).postOnce (.taskCompletion task))
        | .ok s1 =>
          let t' := { ta with relaunched := true, fault := none, fcount := 0, stopping := false, logged := [], next := BitVec.ofNat 32 (hN ta.header) }
          let cands := s1.candidates p ta.header true
          if cands.isEmpty || !s1.roomFor ta.header cands true then .next (s1.postAt (s1.time + 1) (.rollback task))
          else .next ((s1.setTask task t').placeStrands task t' cands)

end Sys2Proof.Machine
end

