-- ==== Sys2Proof/Machine/Failures.lean ====
section
/-! DEFINITION. Sys2Proof/Machine/Failures.lean: Assay, its buckets, retirement, islands (R503 to R507, R517), and the
occupancy snapshot (R382). -/

namespace Sys2Proof.Machine

/-! ### Retirement (R505, R507, R517) -/

/-- TVAL of ISLAND: the tile's PCOORD (R505). -/
def islandTval (tile : Nat) : Word := pcoordOf (tile * 64)

/-- Tasks with a strand homed on a tile, each with one such strand. -/
def State.tasksOn (s : State) (tile : Nat) : List (Nat × BitVec 32) :=
  let l := (s.strands.filter fun e => e.2.home = tile).map fun e => (e.2.task, e.2.index)
  l.foldl (fun r e => if r.any fun x => x.1 = e.1 then r else r ++ [e]) []

/-- ISLAND for a task (R505): PCOORD, HDR and TPC are 0 (Table 6.6). -/
def State.islandFault (s : State) (task : Nat) (index : BitVec 32) (tval : Word) : State :=
  match tget s.tasks task with
  | none => s
  | some ta => s.noteFault task #v[causeOf .island false, tval, 0, 0, taskIdOf ta index, 0, BitVec.ofNat 64 s.time]

/-- Time within which routes are found and islands retired (R506, R507). -/
def detourTime : Nat := 100000

/-- What follows every retirement (R506, R507). -/
def State.afterRetirement (s : State) (f : Nat) : State :=
  (s.postAt (s.time + detourTime) .detourRoute).postOnce (.islandRetirement f)

/-- A tile is retired: every grid with a strand homed there ends with ISLAND, and its tokens return, which leaves it dark (R433,
R505). The records name an index as `tasksOn` finds it: DESIGN CHOICE (log 46). -/
def State.retireTile (s : State) (tile : Nat) : State :=
  let s1 := s.modTile tile fun t => { t with good := false, bucket := { t.bucket with busy := false } }
  let s2 := (s1.tasksOn tile).foldl (fun x e => x.islandFault e.1 e.2 (islandTval tile)) s1
  (s2.retireTokens tile).afterRetirement (fieldOfTile tile)

/-- A core is retired; its strands are pre-empted, with those that are drawn in with them (R428). The last good core of a tile takes the tile with it (R505). -/
def State.retireCore (s : State) (c : Nat) : State :=
  let s1 := s.modCore c fun x => { x with good := false, bucket := { x.bucket with busy := false } }
  let s2 := ((upto 4).map fun i => c * 4 + i).foldl (fun x k =>
    match tget x.slots k with
    | some sl => x.preemptStrand sl.uid
    | none => x) s1
  let s3 := if (s2.core c).lease = 0 then s2 else s2.postOnce (.leaseIdleReturn c)
  let tile := tileOfCore c
  if (upto 16).any fun i => (s3.core (tile * 16 + i)).good then s3.afterRetirement (fieldOfTile tile) else s3.retireTile tile

/-- Tiles of a field that carry an engine and are not good. -/
def State.goneTiles (s : State) (f : Nat) : List Nat := (upto 12).filter fun i => !(s.tile (f * 16 + i)).good

/-- The field loans of a field that is retired whole end (R517): the tokens that it has borrowed are among those that it holds, and
go to the reserve out of its lenders' totals; those that it has lent pass to their borrowers, as the loans of a tile do that turns
dark (R443; DEDUCED, log 59). -/
def State.endFieldLoans (s : State) (f : Nat) : State :=
  let mine := s.fieldLoans.filter fun l => l.borrower = f || l.lender = f
  mine.foldl (fun x l =>
    if l.borrower = f then
      ((x.modField l.lender fun y => { y with total := y.total - l.amount }).modField f fun y =>
        { y with total := y.total + l.amount }).untop f l.amount
    else
      (x.modField f fun y => { y with total := y.total - l.amount }).modField l.borrower fun y =>
        { y with total := y.total + l.amount, raised := y.raised + l.amount })
    { s with fieldLoans := s.fieldLoans.filter fun l => l.borrower != f && l.lender != f }

/-- A field is retired whole (R517). The fault records have index 0: DESIGN CHOICE (log 46). -/
def State.retireField (s : State) (f : Nat) : State :=
  let s1 := (s.endFieldLoans f).modField f fun x => { x with retired := true, total := x.total - x.free, free := 0 }
  let s2 := ((upto 12).map fun i => f * 16 + i).foldl (fun x t => if (x.tile t).good then x.retireTile t else x) s1
  match s2.partOfField f with
  | none => s2
  | some (n, _) =>
    let us := (s2.tasks.filter fun e => e.2.part = n).map (·.1)
    let s3 := (us.foldl (fun x k => x.islandFault k 0 (islandTval (f * 16))) s2).modPart n fun p => { p with closing := true }
    if us.isEmpty then s3.postOnce (.deactivate n) else s3

/-- ISLAND_RETIREMENT (R507, R517): tiles with no route to an anchor; a field without anchors. -/
def execIslandRetirement (field : Nat) (s : State) : Host.Outcome State Fault Refusal :=
  let gone := s.goneTiles field
  if (s.field field).retired then .next s
  else if gone.contains 0 && gone.contains 11 then .next (s.retireField field)
  else
    let lost := (upto 12).filter fun i =>
      !gone.contains i && i != 0 && i != 11 && !gone.isEmpty && Config.cutOff field gone i
    .next (lost.foldl (fun x i => x.retireTile (field * 16 + i)) s)

/-- DETOUR_ROUTE (R506): routers route around what is retired. Routes change no result and no order (R509), so nothing of
the state changes. -/
def execDetourRoute (s : State) : Host.Outcome State Fault Refusal := .next s

/-! ### Buckets (R503, R504) -/

/-- What a passed Assay adds, the level at which a part is suspect, and the level after a passed whole Assay. -/
def passLevel : Nat := 32
def suspectLevel : Nat := 128
def clearedLevel : Nat := 64

/-- A transient counted. -/
def Bucket.count (b : Bucket) : Bucket :=
  let l := min 255 (b.level + passLevel)
  { trans := sat16 (b.trans + 1), busy := false, suspect := b.suspect || suspectLevel ≤ l, level := l }

/-- A whole Assay passed. -/
def Bucket.cleared (b : Bucket) : Bucket := { b with busy := false, suspect := false, level := clearedLevel }

/-- Period of the decay, in nanoseconds. -/
def decayPeriod : Nat := 1000000000

/-- The bucket of a core, or of a tile. -/
def State.bucketOf (s : State) (n : Nat) (whole : Bool) : Bucket := if whole then (s.tile n).bucket else (s.core n).bucket
def State.modBucket (s : State) (n : Nat) (whole : Bool) (f : Bucket → Bucket) : State :=
  if whole then s.modTile n fun t => { t with bucket := f t.bucket } else s.modCore n fun c => { c with bucket := f c.bucket }

/-- A level that has risen from 0 starts to decay. -/
def State.decayFrom (s : State) (old n : Nat) (whole : Bool) : State :=
  if old = 0 && (s.bucketOf n whole).level != 0 then s.postAt (s.time + decayPeriod) (.bucketDecay n whole) else s

/-- A suspect part is tested whole when it is free: a core that holds no strand, a dark tile (R504). -/
def State.testWhole (s : State) (n : Nat) (whole : Bool) : State :=
  let free := if whole then !(s.tile n).lit else s.slots.all fun e => coreOfSlot e.1 != n
  if (s.bucketOf n whole).suspect && free then s.postOnce (.wholeCoreAssay n whole) else s

/-- BUCKET_DECAY (R504): LEVEL falls by 1 for each second while it is above 0. -/
def execBucketDecay (core : Nat) (whole : Bool) (s : State) : Host.Outcome State Fault Refusal :=
  let l := (s.bucketOf core whole).level
  if l = 0 then .next s
  else
    let s1 := s.modBucket core whole fun b => { b with level := l - 1 }
    .next (if l = 1 then s1 else s1.postAt (s1.time + decayPeriod) (.bucketDecay core whole))

/-! ### Assay -/

/-- The bucket of a part: its number, and whether it is a tile's. -/
def bucketPart : AssayPart → Option (Nat × Bool)
  | .coreBank c _ | .wholeCore c => some (c, false)
  | .tileBank t _ | .wholeTile t => some (t, true)
  | _ => none

/-- An Assay starts: BUSY while it runs, and the set under test accepts no allocation (R258). It ends `due` nanoseconds later, which is
at once but for a whole one: DESIGN CHOICE (log 28). -/
def State.startAssay (s : State) (part : AssayPart) (due : Nat) : State :=
  let s1 := match bucketPart part with
    | some (n, w) => s.modBucket n w fun b => { b with busy := true }
    | none => s
  let s2 := match part with
    | .coreBank c n => s1.modCore c fun x => { x with testing := n :: x.testing }
    | _ => s1
  { s2 with fresh := s2.fresh + 1 }.postAt (s2.time + due) (.assayEnd part (Config.assayPass s2.fresh))

/-- ASSAY (R258, R296, R380). -/
def execAssay (part : AssayPart) (s : State) : Host.Outcome State Fault Refusal := .next (s.startAssay part 0)

/-- Longest time of a whole Assay (R504), which it takes: DESIGN CHOICE (log 28). -/
def wholeTime : Nat := 2000000

/-- WHOLE_CORE_ASSAY (R504): of a suspect core that holds no strand, or of a suspect dark tile. -/
def execWholeCoreAssay (core : Nat) (whole : Bool) (s : State) : Host.Outcome State Fault Refusal :=
  let free := if whole then !(s.tile core).lit && (s.tile core).good
    else (s.core core).good && s.slots.all fun e => coreOfSlot e.1 != core
  if (s.bucketOf core whole).suspect && !(s.bucketOf core whole).busy && free then
    .next (s.startAssay (if whole then .wholeTile core else .wholeCore core) wholeTime)
  else .next s

/-- An HBM4E row fails: a spare row takes its place, or its frame is retired (Table 19.10). -/
def State.retireRow (s : State) (pa : Nat) : State :=
  let f := fieldOfPa pa
  let stack := sectorOf f * 5 + (stackOf f (pa % 2 ^ 56)).1
  let used := tgetD s.spares stack 0
  if used < Config.spareRows stack then
    { (s.modField f fun x => { x with stuck := ldel x.stuck pa }) with spares := tput s.spares stack (used + 1) }
  else { s with badFrames := insertNat s.badFrames (pa / 2 ^ 16) }

/-- The part is no longer under test: it accepts allocations again (R258). -/
def State.testOver (s : State) : AssayPart → State
  | .coreBank c n => (s.modCore c fun x => { x with testing := ldel x.testing n }).postOnce (.pickUp (tileOfCore c))
  | _ => s

/-- ASSAY_END (R504, R505). -/
def execAssayEnd (part : AssayPart) (pass : Bool) (s : State) : Host.Outcome State Fault Refusal :=
  let s := s.testOver part
  if pass then
    match part with
    | .coreBank c _ => .next (((s.modBucket c false Bucket.count).decayFrom (s.bucketOf c false).level c false).testWhole c false)
    | .tileBank t _ => .next (((s.modBucket t true Bucket.count).decayFrom (s.bucketOf t true).level t true).testWhole t true)
    | .wholeCore c =>
      .next (((s.modBucket c false Bucket.cleared).decayFrom (s.bucketOf c false).level c false).postOnce (.pickUp (tileOfCore c)))
    | .wholeTile t =>
      .next ((((s.modBucket t true Bucket.cleared).decayFrom (s.bucketOf t true).level t true).postOnce (.floorRequest t)).launchTurn
        (fieldOfTile t))
    | .sliceRow .. | .rdcRow .. | .dramRow _ => .next s
  else
    match part with
    | .coreBank c _ | .wholeCore c => .next (if (s.core c).good then s.retireCore c else s)
    | .tileBank t _ | .wholeTile t => .next (if (s.tile t).good then s.retireTile t else s)
    | .dramRow pa => .next (s.retireRow pa)
    | .sliceRow f sl set => .next (s.retireWay f sl set)
    | .rdcRow f _ => .next (s.modField f fun x => { x with rdcGone := x.rdcGone + 1, rdc := x.rdc.take (rdcSize - x.rdcGone - 1) })

/-! ### Occupancy snapshots (R382) -/

/-- Period of the snapshots, in nanoseconds. -/
def snapPeriod : Nat := 10000

/-- Dword of an occupancy slot. -/
def occDword : Option (Nat × Nat) → Word
  | some (ctx, n) => BitVec.ofNat 64 (ctx % 4096 * 2 ^ 52 + 2 ^ 51 + n % 2 ^ 32)
  | none => 0

/-- Slot `i` of a slice as a snapshot gives it: slot 127 with the lines of further contexts (R381). -/
def occEntry (o : Tab (Nat × Nat)) (i : Nat) : Option (Nat × Nat) :=
  match tget o i, (if i = 127 then tget o occShared else none) with
  | some (c, n), some (_, m) => some (c, n + m)
  | some x, none => some x
  | none, y => y

/-- The counters of a field's slices, in slice order and then slot order. -/
def Field.occImage (f : Field) : List Word :=
  (upto 16).flatMap fun sl => (upto occSlots).map fun i => occDword (occEntry (tgetD f.occ sl []) i)

/-- OCCUPANCY_SNAPSHOT (R382): of a field of an active partition. -/
def execOccupancySnapshot (field : Nat) (s : State) : Host.Outcome State Fault Refusal :=
  match s.partOfField field with
  | none => .next s
  | some (_, p) =>
    let va := s.pinDw p (p.fcb field) 0x30
    match pinPa p va with
    | none => .fault (.noPinned va)
    | some _ => .next ((s.putPins p va (s.field field).occImage).postAt (s.time + snapPeriod) (.occupancySnapshot field))

end Sys2Proof.Machine
end

