-- ==== Sys2Proof/Machine/Sign.lean ====
section
/-! DEFINITION. Sys2Proof/Machine/Sign.lean: SHAKE256 and Ed448 (R518, R519), as FIPS 202 and RFC 8032 define them. -/

namespace Sys2Proof.Machine

/-! ### SHAKE256 -/

/-- Output bits of the shift register of FIPS 202, algorithm 5, from its state: bit 8 of the doubled state feeds bits 0, 4, 5
and 6. -/
def lfsrBits : Nat → Nat → List Bool
  | 0, _ => []
  | n + 1, r => r.testBit 0 :: lfsrBits n ((2 * r) ^^^ (if r.testBit 7 then 0x171 else 0))

/-- The constant of each round (FIPS 202, 3.2.5): bit 2^j - 1 of the constant of round i is output bit j + 7i. -/
def roundConsts : List Word :=
  let out := lfsrBits 168 1
  (List.range 24).map fun i => BitVec.ofNat 64 ((List.range 7).map fun j => if (out[j + 7 * i]?).getD false then 2 ^ (2 ^ j - 1) else 0).sum

/-- The lanes that rho visits after lane (1, 0), as numbers x + 5y (FIPS 202, 3.2.2). -/
def rhoWalk : Nat → Nat → Nat → List Nat
  | 0, _, _ => []
  | n + 1, x, y => (x + 5 * y) :: rhoWalk n y ((2 * x + 3 * y) % 5)

/-- The rotation of a lane: the triangular number of its place on that walk; lane (0, 0) does not rotate. -/
def rhoOffset (i : Nat) : Nat :=
  match (rhoWalk 24 1 0).idxOf? i with
  | some t => (t + 1) * (t + 2) / 2 % 64
  | none => 0

/-- A row of the state as five lanes, and the state as its five rows. -/
def rowsOf (a : List Word) : List (List Word) := (List.range 5).map fun y => (a.drop (5 * y)).take 5

/-- A list of five turned by `n` places: place x holds what place x + n held. -/
def turn (n : Nat) (r : List Word) : List Word := r.drop n ++ r.take n

/-- Lane by lane. -/
def xorRow (r q : List Word) : List Word := List.zipWith (· ^^^ ·) r q

/-- The state after theta: each row with the parities of the columns beside it. -/
def thetaStep (a : List Word) : List Word :=
  let parity := (rowsOf a).foldl xorRow (List.replicate 5 0)
  let mix := xorRow (turn 4 parity) ((turn 1 parity).map (BitVec.rotateLeft · 1))
  ((rowsOf a).map (xorRow mix)).flatten

/-- The state after rho and pi: the lane at (x, y) comes from (x + 3y, x), rotated there. -/
def rhoPiStep (a : List Word) : List Word :=
  let turned := a.mapIdx fun i w => w.rotateLeft (rhoOffset i)
  (List.range 25).map fun i => (turned[(i % 5 + 3 * (i / 5)) % 5 + 5 * (i % 5)]?).getD 0

/-- The state after chi. -/
def chiStep (a : List Word) : List Word :=
  ((rowsOf a).map fun r => xorRow r (List.zipWith (fun u v => ~~~u &&& v) (turn 1 r) (turn 2 r))).flatten

/-- The permutation of 24 rounds; the constant of a round goes into lane 0 (iota). -/
def keccakF (a : List Word) : List Word :=
  roundConsts.foldl (fun s c => (chiStep (rhoPiStep (thetaStep s))).modifyHead (· ^^^ c)) a

/-- Bytes in a block of SHAKE256. -/
def shakeRate : Nat := 136

/-- The bytes of the state. -/
def keccakBytes (a : List Word) : List Byte := a.flatMap fun w => bytesOf 8 w.toNat

/-- A block absorbed. -/
def keccakAbsorb (a : List Word) (blk : List Byte) : List Word :=
  keccakF (a.mapIdx fun i w => w ^^^ wordOfBytes ((blk.drop (8 * i)).take 8))

/-- The padded message, in blocks: `n` bounds their number. -/
def shakeBlocks : Nat → List Byte → List (List Byte)
  | 0, _ => []
  | n + 1, m =>
    if m.length < shakeRate then
      let pad := m ++ [0x1F] ++ List.replicate (shakeRate - 1 - m.length) 0
      [pad.take (shakeRate - 1) ++ [(pad[shakeRate - 1]?).getD 0 ||| 0x80]]
    else m.take shakeRate :: shakeBlocks n (m.drop shakeRate)

/-- Output of at most one block. -/
def shake256 (m : List Byte) (n : Nat) : List Byte :=
  (keccakBytes ((shakeBlocks (m.length / shakeRate + 1) m).foldl keccakAbsorb (List.replicate 25 0))).take n

/-! ### Ed448 -/

/-- The field's prime, the curve's constant, the order of the base point. -/
def edP : Nat := 2 ^ 448 - 2 ^ 224 - 1
def edD : Nat := edP - 39081
def edL : Nat := 2 ^ 446 - 0x8335dc163bb124b65129c96fde933d8d723a70aadc873d6d54a7bb0d

/-- A point in projective coordinates. -/
structure EdPoint where
  x : Nat
  y : Nat
  z : Nat
  deriving DecidableEq, Repr

def edBase : EdPoint :=
  { x := 224580040295924300187604334099896036246789641632564134246125461686950415467406032909029192869357953282578032075146446173674602635247710
    y := 298819210078481492676017930443930673437544040154080242095928241372331506189835876003536878655418784733982303233503462500531545062832660
    z := 1 }

/-- Sum of two points. -/
def edAdd (p q : EdPoint) : EdPoint :=
  let a := p.z * q.z % edP
  let b := a * a % edP
  let c := p.x * q.x % edP
  let d := p.y * q.y % edP
  let e := edD * (c * d % edP) % edP
  let f := (b + edP - e) % edP
  let g := (b + e) % edP
  let h := (p.x + p.y) * (q.x + q.y) % edP
  { x := a * f % edP * ((h + 2 * edP - c - d) % edP) % edP
    y := a * g % edP * ((d + edP - c) % edP) % edP
    z := f * g % edP }

/-- The low `n` bits of `k` times a point. -/
def edMul : Nat → Nat → EdPoint → EdPoint
  | 0, _, _ => { x := 0, y := 1, z := 1 }
  | n + 1, k, p =>
    let r := edMul n (k / 2) (edAdd p p)
    if k % 2 = 1 then edAdd p r else r

/-- b^k modulo p, by the low `n` bits of `k`. -/
def edPow : Nat → Nat → Nat → Nat
  | 0, _, _ => 1
  | n + 1, k, b =>
    let r := edPow n (k / 2) (b * b % edP)
    if k % 2 = 1 then b * r % edP else r

/-- The 57 bytes of a point. -/
def edEncode (p : EdPoint) : List Byte :=
  let zi := edPow 448 (edP - 2) p.z
  let x := p.x * zi % edP
  let y := p.y * zi % edP
  bytesOf 56 y ++ [BitVec.ofNat 8 (x % 2 * 128)]

/-- The point of 57 bytes, if they name one. -/
def edDecode (b : List Byte) : Option EdPoint :=
  let y := natOf (b.take 56)
  let sign := ((b[56]?).getD 0).toNat
  let u := (y * y + edP - 1) % edP
  let v := (edD * (y * y % edP) % edP + edP - 1) % edP
  let x := u * u % edP * u % edP * v % edP * edPow 448 ((edP - 3) / 4) (u * u % edP * u % edP * u % edP * u % edP * (v * v % edP * v % edP) % edP) % edP
  if b.length != 57 || edP ≤ y || sign % 128 != 0 || v * (x * x % edP) % edP != u then none
  else if x = 0 && sign = 128 then none
  else some { x := if x % 2 = sign / 128 then x else edP - x, y := y, z := 1 }

/-- dom4 with an empty context. -/
def edDom : List Byte := [0x53, 0x69, 0x67, 0x45, 0x64, 0x34, 0x34, 0x38, 0, 0]

/-- The secret scalar and the second half of the expanded private key. -/
def edExpand (key : List Byte) : Nat × List Byte :=
  let h := shake256 key 114
  let s := natOf (h.take 56)
  (s / 4 * 4 % 2 ^ 447 + 2 ^ 447, h.drop 57)

/-- The public key of a private key. -/
def edPublic (key : List Byte) : List Byte := edEncode (edMul 448 (edExpand key).1 edBase)

/-- The signature of a message, 114 bytes. -/
def edSign (key m : List Byte) : List Byte :=
  let (s, pre) := edExpand key
  let a := edPublic key
  let r := natOf (shake256 (edDom ++ pre ++ m) 114) % edL
  let rb := edEncode (edMul 446 r edBase)
  let k := natOf (shake256 (edDom ++ rb ++ a ++ m) 114) % edL
  rb ++ bytesOf 57 ((r + k * s) % edL)

/-- Two points are the same. -/
def edSame (p q : EdPoint) : Bool := p.x * q.z % edP = q.x * p.z % edP && p.y * q.z % edP = q.y * p.z % edP

/-- The signature of a message verifies under a public key. -/
def edVerify (key m sig : List Byte) : Bool :=
  match edDecode key, edDecode (sig.take 57) with
  | some a, some r =>
    let s := natOf (sig.drop 57)
    let k := natOf (shake256 (edDom ++ sig.take 57 ++ key ++ m) 114) % edL
    sig.length = 114 && s < edL && edSame (edMul 448 (4 * s) edBase) (edAdd (edMul 3 4 r) (edMul 448 (4 * k) a))
  | _, _ => false

end Sys2Proof.Machine
end

