-- ==== Sys2Proof/Machine/Manage.lean ====
section
/-! DEFINITION. Sys2Proof/Machine/Manage.lean: bring-up (R522), the management port and its commands (R485, R486, R510 to R513,
R519 to R523, R546, R547), and the thermal limits (R524). -/

namespace Sys2Proof.Machine

/-! ### The fuse map (R514) -/

/-- Bytes of the fuse map. -/
def State.fuse (s : State) (o n : Nat) : List Byte := (s.fuses.drop o).take n
def State.fuseDw (s : State) (o : Nat) : Word := wordOfBytes (s.fuse o 8)

/-- Bit `i` of a field of the map. -/
def State.fuseBit (s : State) (o i : Nat) : Bool := ((s.fuses[o + i / 8]?).getD 0).getLsbD (i % 8)

/-- Places of the fields of Table 20.1. -/
def fuseTiles : Nat := 0xA8
def fuseCores : Nat := 0xF8
def fuseFwmin : Nat := 0x590
def fuseRootdig : Nat := 0x598
def fuseFmdig : Nat := 0x5D8

/-- FMDIG is the digest of the bytes below it. -/
def State.fusesOk (s : State) : Bool := shake256 (s.fuse 0 fuseFmdig) 64 = s.fuse fuseFmdig 64

/-- The bit number of a tile in TILES. -/
def tileBit (t : Nat) : Nat := t / 16 * 12 + t % 16

/-- The tiles and the cores of the wafer. -/
def allTiles : List Nat := (upto 49).flatMap fun f => (upto 12).map fun i => f * 16 + i
def coresOfTile (t : Nat) : List Nat := (upto 16).map fun i => t * 16 + i

/-! ### Firmware (R519) -/

/-- A firmware image is accepted: its key is Brixvan's, its signature and digest hold, its version is high enough. The
signature covers the version, two bytes, and the digest (log 30). -/
def State.imageOk (s : State) (i : FwImage) : Bool :=
  shake256 i.key 64 = s.fuse fuseRootdig 64 && shake256 i.body 64 = i.digest &&
  edVerify i.key (bytesOf 2 i.version.toNat ++ i.digest) i.sig && bits (s.fuseDw fuseFwmin) 15 0 ≤ i.version.toNat

/-! ### Counts (R515, R516) -/

/-- Good tiles and good cores now. -/
def State.goodTiles (s : State) : List Nat := allTiles.filter fun t => (s.tile t).good && !(s.field (t / 16)).retired
def State.goodCores (s : State) : Nat := (s.goodTiles.flatMap fun t => (coresOfTile t).filter fun c => (s.core c).good).length
def State.goodOf (s : State) (k : TileKind) : Nat := (s.goodTiles.filter fun t => tileKind t = k).length

/-- The current counts in the layout of BUILT. -/
def State.countWord (s : State) : Nat :=
  s.goodCores * 2 ^ 48 + s.goodOf .vectorHeavy * 2 ^ 40 + s.goodOf .attention * 2 ^ 32 + s.goodOf .sparse * 2 ^ 24 +
    s.goodOf .dense * 2 ^ 16

/-- Minimum counts of a grade (Table 0.6): dense, sparse, attention, vector-heavy, cores. -/
def gradeMin (g : Nat) : Nat × Nat × Nat × Nat × Nat := if g = 1 then (236, 141, 94, 94, 9000) else (220, 132, 88, 88, 8400)

/-- The below-grade flag (R516). -/
def State.belowGrade (s : State) : Bool :=
  let (d, sp, a, v, c) := gradeMin (bits (s.fuseDw 0x10) 7 0)
  s.goodOf .dense < d || s.goodOf .sparse < sp || s.goodOf .attention < a || s.goodOf .vectorHeavy < v || s.goodCores < c

/-- Fenik ISA level (R13). -/
def isaLevel : Nat := 1

/-- The attestation report for a nonce of 32 bytes (Table 20.2). -/
def State.attestReport (s : State) (nonce : List Byte) : List Byte :=
  let cover := s.fuse 8 8 ++ edPublic s.identity ++ List.replicate 7 0 ++
    bytesOf 8 (s.running.version.toNat * 2 ^ 48 + isaLevel * 2 ^ 40) ++ s.fuse 0x10 8 ++ s.fuse 0x18 8 ++
    bytesOf 8 (s.countWord + if s.belowGrade then 1 else 0) ++ bytesOf 8 s.time ++ nonce ++ s.fuse fuseFmdig 64 ++ s.running.digest
  cover ++ edSign s.identity cover

/-! ### Power and bring-up (R522, R524) -/

/-- The module without power: what is left is the memory, the fuses, the non-volatile store and what has been retired (R505,
R515; log 32). -/
def State.powerless (s : State) : State :=
  { mem := s.mem, uncorr := s.uncorr, poison := s.poison, badFrames := s.badFrames, spares := s.spares,
    fuses := s.fuses, secret := s.secret, certificate := s.certificate, image := s.image, running := s.image,
    cores := (s.cores.filter fun e => !e.2.good).map fun e => (e.1, ({ good := false } : Core)),
    tiles := (s.tiles.filter fun e => !e.2.good).map fun e => (e.1, ({ good := false } : Tile)),
    fields := (s.fields.filter fun e => e.2.retired).map fun e => (e.1, ({ retired := true, total := 0, free := 0 } : Field)),
    script := s.script, upsets := s.upsets, moves := s.moves, fresh := s.fresh, nextUid := s.nextUid,
    agenda := [.event .timeTick] ++ s.agenda.filter fun t => match t with
      | .event (.powerGood ..) => true
      | _ => false }

/-- What a link reports, with the bytes of its data region: the largest multiple of 2 MiB, D, with D + D/128 not above the
capacity (R546). -/
def linkOf (r : LinkReport) : Bool × Bool × Nat :=
  let n := r.capacity / 2 ^ 21
  let fits := fun (k : Nat) => k * 2 ^ 21 + k * 2 ^ 14 ≤ r.capacity
  let d := if fits (n * 128 / 129 + 1) then n * 128 / 129 + 1 else if fits (n * 128 / 129) then n * 128 / 129 else n * 128 / 129 - 1
  (r.trained, r.half, if r.trained then d * 2 ^ 21 else 0)

/-- A tile found bad, with its field when that has lost both anchors (R517). -/
def State.dropTile (s : State) (t : Nat) : State :=
  let s1 := s.modTile t fun x => { x with good := false }
  let f := t / 16
  if (s1.tile (f * 16)).good || (s1.tile (f * 16 + 11)).good then s1
  else
    ((upto 12).foldl (fun x i => x.modTile (f * 16 + i) fun y => { y with good := false }) s1).modField f fun x =>
      { x with retired := true, total := 0, free := 0 }

/-- Good tiles and cores by the fuse map and the retirements since (R514, R515). -/
def State.applyFuses (s : State) : State :=
  let badCores := allTiles.flatMap fun t => (coresOfTile t).filter fun c => !s.fuseBit fuseCores (16 * tileBit t + c % 16)
  let badTiles := allTiles.filter fun t => !s.fuseBit fuseTiles (tileBit t)
  badTiles.foldl State.dropTile (badCores.foldl (fun x c => x.modCore c fun y => { y with good := false }) s)

/-- Retirements that boot finds or makes bring islands and detours as any other does (R506, R507, R522). -/
def State.afterBoot (s : State) (fs : List Nat) : State :=
  (fs.filter fun f => !(s.field f).retired && !(s.goneTiles f).isEmpty).foldl State.afterRetirement s

/-- POWER_GOOD (R522): the module boots. The links are what training finds, `failed` the tiles whose whole-tile Assay fails. -/
def execPowerGood (links : List LinkReport) (failed : List Nat) (s : State) : Host.Outcome State Fault Refusal :=
  let s0 := s.powerless
  if !s0.imageOk s0.image || !s0.fusesOk then .next { s0 with boot := .recovery }
  else
    let s1 := failed.foldl State.dropTile s0.applyFuses
    let s2 : State := { s1 with
      links := ((links ++ List.replicate 8 ({ trained := false, half := false, capacity := 0 } : LinkReport)).take 8).map linkOf
      identity := Config.identityKey s1.secret
      boot := .ready
      replies := [.ready] }
    .next ((s2.postAt (s2.time + refreshWindow) .refreshWindowEnd).afterBoot (upto 49))

/-- THERMAL_WARNING (R524): at 95 °C the port raises a warning. -/
def execThermalWarning (s : State) : Host.Outcome State Fault Refusal :=
  .next (if s.boot = .off then s else { s with replies := s.replies ++ [.warning] })

/-- THERMAL_SHUTDOWN (R524): at 110 °C the compute region loses its power, and every grid is lost. -/
def execThermalShutdown (s : State) : Host.Outcome State Fault Refusal := .next s.powerless

/-! ### The management port (R523) -/

/-- A reply of the port. -/
def State.reply (s : State) (r : Reply) : State := { s with replies := s.replies ++ [r] }

/-- A command has completed. -/
def answer (s : State) (r : Reply) : Host.Outcome State Fault Refusal := .next (s.reply r)

/-- What READFUSE does (R514). -/
def doReadfuse (s : State) : Host.Outcome State Fault Refusal := answer s (.fuses s.fuses)

/-- What LOADFW does (R519): an accepted image is stored; while no partition is active, it is also the one in use from here
on. -/
def doLoadfw (image : FwImage) (s : State) : Host.Outcome State Fault Refusal :=
  if s.imageOk image then
    answer { s with image := image, running := if s.parts.isEmpty then image else s.running } .done
  else answer s .refused

/-- What ATTEST does (R520, R521). -/
def doAttest (nonce : List Byte) (s : State) : Host.Outcome State Fault Refusal :=
  if nonce.length = 32 then answer s (.report (s.attestReport nonce) s.certificate) else answer s .refused

/-- What SETRTH does (R465, Table 20.3): a row takes the new threshold at its next precharge. -/
def doSetrth (sector value : Nat) (s : State) : Host.Outcome State Fault Refusal :=
  if sector < 8 && 256 ≤ value && value ≤ 2047 then
    answer { s with sectors := tput s.sectors sector { (tgetD s.sectors sector {}) with rth := value } } .done
  else answer s .refused

/-- What LOADKEY does (R473). -/
def doLoadkey (slot : Nat) (key : BitVec 256) (s : State) : Host.Outcome State Fault Refusal :=
  if 1 ≤ slot && slot ≤ 255 then answer { s with keys := tput s.keys slot key } .done else answer s .refused

/-- What LINKS does (R546). -/
def doLinks (s : State) : Host.Outcome State Fault Refusal := answer s (.links s.links)

/-- What READBKT does (R503): each tile's bucket, of good tiles and of retired ones. -/
def doReadbkt (s : State) : Host.Outcome State Fault Refusal :=
  answer s (.buckets (allTiles.map fun t => (t, (s.tile t).bucket)))

/-! ### Activation and deactivation (R485, R486) -/

/-- Steps 1 to 4 of R486 for a field: scratchpads, trees, group table, caches. -/
def State.cleanField (s : State) (p : Partition) (f : Nat) : State :=
  let s1 := s.zeroRange (padKey (f * 16) 0) (2 ^ 27)
  let tiles := (upto 16).map fun i => f * 16 + i
  let s2 := tiles.foldl (fun x t => x.modTile t fun y => { y with trees := [], icache := [] }) s1
  let s3 := (tiles.flatMap coresOfTile).foldl (fun x c => if (x.core c).l1.isEmpty then x else x.modCore c fun y => { y with l1 := [] }) s2
  let s4 := s3.modField f fun x => { x with groups := [], rdc := [], tlb := [] }
  match pinPa p (p.gtab f) with
  | some a => s4.zeroRange a (2 ^ 18)
  | none => s4

def State.cleanFields (s : State) (p : Partition) : State := p.fields.foldl (fun x e => x.cleanField p e.1) s

/-- Tiles of a partition that have a zero-substitution ring. -/
def State.ringTiles (s : State) (p : Partition) : List Nat := p.tiles.filter fun t => t % 16 < 12 && (s.tile t).good

/-- Bytes of a ring (R326). -/
def ringBytes : Nat := 8192

/-- Step 5 of R486: a ring for each tile; none where the arena has no room above LWM. -/
def State.takeRings (s : State) (part : Nat) : List Nat → Option State
  | [] => some s
  | t :: r =>
    match s.allocArena part ringBytes ringBytes false with
    | none => none
    | some (s1, a) => (s1.modTile t fun x => { x with zbase := a, zhead := 0, zseq := 0 }).takeRings part r

/-- The rings of every tile that was given one, retired since or not, go back to the arena, and ZLOG reads 0. -/
def State.returnRings (s : State) (part : Nat) (p : Partition) : State :=
  p.tiles.foldl (fun x t =>
    let a := (x.tile t).zbase
    if a = 0 then x else (x.freeArena part a ringBytes).modTile t fun y => { y with zbase := 0, zhead := 0 }) s

/-- Dword of the PCB at a physical address (log 13). -/
def State.pcbDw (s : State) (pcb : Word) (o : Nat) : Word := s.dwAt (pcb.toNat + o)

/-- The FIELDS entries of a PCB: physical field, FCB address, GTAB. -/
def State.pcbFields (s : State) (pcb : Word) : List (Nat × Word × Word) :=
  (upto (bits (s.pcbDw pcb 8) 13 8)).map fun i =>
    let e := s.pcbDw pcb (0x100 + 16 * i)
    (bits e 5 0, BitVec.ofNat 64 (e.toNat / 64 * 64), s.pcbDw pcb (0x108 + 16 * i))

/-- A place in the supervisor half at a multiple of a record's 64 bytes, for the strand area (R26, R28). -/
def supervisorArea (x : Word) : Word := BitVec.ofNat 64 (x.toNat / 64 * 64) ||| BitVec.ofNat 64 (2 ^ 63)

/-- The partition that a PCB describes (Table 19.1). -/
def State.pcbPart (s : State) (pcb : Word) : Partition :=
  { pcb := pcb, strandArea := supervisorArea (Config.strandArea pcb), fields := s.pcbFields pcb, tvec := s.pcbDw pcb 0x10, stripe := s.pcbDw pcb 0x28, arena := s.pcbDw pcb 0x30,
    vftab := s.pcbDw pcb 0x40, nvf := bits (s.pcbDw pcb 0x48) 10 0,
    tiercb := s.pcbDw pcb 0x50, haltrec := s.pcbDw pcb 0x58 }

/-- A reserved bit of a PCB is set (Table 19.1): R17 makes the reader's own refusal follow, which for ACTIVATE is REFUSED
(log 55, DEDUCED). -/
def State.pcbReserved (s : State) (pcb : Word) : Bool :=
  bits (s.pcbDw pcb 0) 63 1 != 0 || bits (s.pcbDw pcb 8) 7 6 != 0 || bits (s.pcbDw pcb 8) 63 14 != 0 ||
  bits (s.pcbDw pcb 0x38) 63 32 != 0 || bits (s.pcbDw pcb 0x48) 63 11 != 0 ||
  s.valAt (pcb.toNat + 0x18) 16 != 0 || s.valAt (pcb.toNat + 0x60) 0xA0 != 0 || s.valAt (pcb.toNat + 0x410) 0x3F0 != 0

/-- Virtual functions of the active partitions (Table 0.2). -/
def State.vfCount (s : State) : Nat := (s.parts.map fun e => e.2.nvf).sum

/-- A reserved field of an FCB of the partition, or of the header of its arena, is set (Tables 15.1 and 15.7): refused as reserved
bits of the PCB are (R17, log 55). -/
def State.blocksReserved (s : State) (p : Partition) : Bool :=
  (p.fields.any fun e => s.pinDw p (p.fcb e.1) 0x38 != 0) || [0x28, 0x30, 0x38].any fun o => s.pinDw p p.arena o != 0

/-- The PCB is refused (R485): VALID clear, a reserved bit set in it or in what it points to, a partition number or a number of fields or virtual functions
that does not exist, more virtual functions than 1,024 across all partitions (R5), a field that does not exist, is named twice,
is another partition's or is retired. -/
def State.pcbBad (s : State) (pcb : Word) : Bool :=
  let p := s.pcbPart pcb
  let n := bits (s.pcbDw pcb 8) 5 0
  let fs := p.fields.map (·.1)
  !bit (s.pcbDw pcb 0) 0 || 48 < n || (tget s.parts n).isSome || fs.isEmpty || 49 < fs.length || p.nvf = 0 || 1024 < s.vfCount + p.nvf || s.pcbReserved pcb || s.blocksReserved p ||
  fs.dedup.length != fs.length || fs.any fun f => 48 < f || (s.partOfField f).isSome || (s.field f).retired

/-- The tail counters of a partition's queues as they stand, and the turns that follow (R492). -/
def State.firstTails (s : State) (n : Nat) (p : Partition) : State :=
  ((upto p.nvf).filter (s.vfValid p)).foldl (fun x v =>
    let x1 := x.modPart n fun q => { q with vfs := tput q.vfs v { (tgetD q.vfs v {}) with ctx := x.vfCtx p v } }
    (upto (x1.vfQueues p v)).foldl (fun y q =>
      match y.tailPlace n p v q with
      | some pa => (y.modTaskQueue n v q fun z => { z with tailSeen := y.dwAt pa }).postOnce (.taskHeaderRead n v (Fin.ofNat 8 q))
      | none => y) x1) s

/-- What ACTIVATE does (R485, R486). -/
def doActivate (pcb : Word) (s : State) : Host.Outcome State Fault Refusal :=
  if s.pcbBad pcb then answer s .refused
  else
    let n := bits (s.pcbDw pcb 8) 5 0
    let p := s.pcbPart pcb
    match pinPa p p.arena with
    | none => .fault (.noPinned p.arena)
    | some a =>
      let size := (s.dwAt a).toNat
      let free := if size ≤ arenaHeader then [] else [(p.arena + BitVec.ofNat 64 arenaHeader, size - arenaHeader)]
      let s1 := s.setPart n { p with free := free }
      match s1.takeRings n (s1.ringTiles p) with
      | none => answer s .refused
      | some s2 =>
        let s3 := (s2.cleanFields p).firstTails n p
        let s4 := p.fields.foldl (fun x e => x.postAt (x.time + snapPeriod) (.occupancySnapshot e.1)) s3
        answer s4 .done

/-- A port whose binding or sessions were the partition's has none of them left. -/
def Port.leave (x : Port) (part : Nat) : Port :=
  let mine : Bool := match x.bind with
    | some b => b.part = part
    | none => false
  { x with
    sessions := x.sessions.filter fun e => e.2.part != part
    bind := if mine then none else x.bind
    egress := if mine then none else x.egress
    blocks := if mine then [] else x.blocks }

/-- Tasks of a partition have not ended. -/
def State.hasTasks (s : State) (part : Nat) : Bool := s.tasks.any fun e => e.2.part = part

/-- What DEACTIVATE does (R486): the partition launches no more, and its end waits for the grids that remain. -/
def doDeactivate (part : Nat) (s : State) : Host.Outcome State Fault Refusal :=
  if (tget s.parts part).isNone then answer s .refused
  else
    let s1 : State := { (s.modPart part fun p => { p with closing := true }) with command := some (.deactivate part) }
    .next (if s1.hasTasks part then s1 else s1.postOnce (.deactivate part))

/-- A partition ended (R486): steps 1 to 4 of activation, and the rings go back. -/
def State.endPartition (s : State) (part : Nat) (p : Partition) : State :=
  let s1 := (s.cleanFields p).returnRings part p
  { s1 with parts := tdel s1.parts part, ports := s1.ports.map fun (n, x) => (n, x.leave part) }

/-! ### SETPOOL (R547) -/

/-- Tokens are on their way out of field `f`'s total, or back to its tiles that lent them. -/
def State.poolMoving (s : State) (f : Nat) : Bool :=
  s.tiles.any fun e => (e.2.notices ++ e.2.taken).any fun n => match n.dest with
    | .reserve g => g = f
    | .pool _ => false
    | .tile t => fieldOfTile t = f

/-- A pool raised: the tokens come from the reserve. -/
def State.raisePool (s : State) (f n : Nat) : State :=
  (s.modField f fun x => { x with free := x.free + n, total := x.total + n }).serveField f

/-- The loans of the tiles of a field recalled for up to `n` tokens. -/
def State.recallField (s : State) : List Nat → Nat → State
  | [], _ => s
  | t :: r, n =>
    let q := s.recallLoans t (s.recalled t) s.loans n
    q.1.recallField r q.2

/-- Tokens of a field's total that are on their way to the reserve. -/
def State.reserveBound (s : State) (f : Nat) : Nat := ((upto 49).map fun g => s.underWay g fun h => h = .reserve f).sum

/-- A pool lowered by `n`: free tokens, then loans to other fields, then grants and leases of the field's tiles. What is left is with
tiles that borrow from the field's, and is recalled, so that the lenders can give it. -/
def State.lowerPool (s : State) (f n : Nat) : State :=
  let a := min n (s.field f).free
  let s1 := (s.modField f fun x => { x with free := x.free - a }).toReserve f a
  let q := s1.reclaimAll (fun _ => .reserve f) s1.reclaiming (s1.fieldLoans.filter fun l => l.lender = f) (n - a)
  let z := q.1.revokeField f q.2 (.reserve f) true
  (z.1.recallField ((upto 16).map fun i => f * 16 + i) z.2).serveField f

/-- Floors of the lit tiles of a field. -/
def State.floorsOf (s : State) (f : Nat) : Nat := floorTokens * ((upto 12).filter fun i => (s.tile (f * 16 + i)).lit).length

/-- Tokens that top-ups brought from the reserve go back to it, field by field, at most `n`. -/
def State.endRaised (s : State) : List Nat → Nat → State
  | [], _ => s
  | f :: t, n =>
    let m := min n ((s.field f).raised - s.reserveBound f)
    if m = 0 then s.endRaised t n else (s.lowerPool f m).endRaised t (n - m)

/-- What a partition holds under its allowance beyond `a`. -/
def State.overAllow (s : State) (part a : Nat) : Nat :=
  match tget s.parts part with
  | some p => p.topped - a
  | none => 0

/-- Tokens that the tiles of a partition give up already, apart from loans between tiles. -/
def State.givingUp (s : State) (p : Partition) : Nat :=
  (p.fields.map fun e => s.underWay e.1 fun h => match h with
    | .tile _ => false
    | _ => true).sum

/-- ALLOW written into the PCB, where it stands (R485, R547; log 70). -/
def State.putAllow (s : State) (part a : Nat) : State :=
  match tget s.parts part with
  | some p => s.slicePut (p.pcb.toNat + 0x38) (bytesOf 8 (a % 2 ^ 32))
  | none => s

/-- A partition's ALLOW set. Tokens that it holds beyond its allowance are revoked (R447): field loans first, then what came from
the reserve, in the order of its fields (log 59, DESIGN CHOICE). -/
def State.setAllow (s : State) : Option (Nat × Nat) → State
  | some (n, a) =>
    let s1 := s.putAllow n a
    match tget s1.parts n with
    | none => s1
    | some p =>
      let fs := p.fields.map (·.1)
      let q := s1.reclaimAll (fun l => .pool l.lender) s1.reclaiming (s1.fieldLoans.filter fun l => fs.contains l.borrower)
        (s1.overAllow n a - s1.givingUp p)
      (q.1.endRaised fs q.2).serveFields ((s1.fieldLoans.filter fun l => fs.contains l.borrower).map (·.lender)).dedup
  | none => s

/-- Whether SETPOOL revokes for an allowance. -/
def State.cutsAllow (s : State) : Option (Nat × Nat) → Bool
  | some (n, a) => s.overAllow n a != 0
  | none => false

/-- What a pool's total lies above the one that SETPOOL names, apart from tokens that leave it already. -/
def State.overPool (s : State) : Option (Nat × Nat) → Nat
  | some (f, n) => (s.field f).total - s.reserveBound f - n
  | none => 0

/-- A pool brought down to the total that SETPOOL names. -/
def State.lowerTo (s : State) (pool : Option (Nat × Nat)) : State :=
  match pool with
  | some (f, _) => if s.overPool pool = 0 then s else s.lowerPool f (s.overPool pool)
  | none => s

/-- A pool brought up to the total that SETPOOL names, as far as the reserve goes. -/
def State.raiseTo (s : State) : Option (Nat × Nat) → State
  | some (f, n) => if (s.field f).total < n then s.raisePool f (min s.reserve (n - (s.field f).total)) else s
  | none => s

/-- SETPOOL is refused for a pool (R517, R547): a field that does not exist or is retired, a raise that the reserve cannot cover, a
total below the floors of its lit tiles. -/
def poolBad (s : State) : Option (Nat × Nat) → Bool
  | some (f, n) => 48 < f || (s.field f).retired || s.reserve < n - (s.field f).total || n < s.floorsOf f
  | none => false

/-- A look of SETPOOL's own at what it has revoked, as an act. -/
def setpoolLook (pool allow : Option (Nat × Nat)) : Instr := .setpool ((pool.map (·.1)).getD 0) (pool.map (·.2)) allow

/-- What SETPOOL does (R547), for a pool, for a partition's allowance, or for both. A lower total or allowance takes effect as tokens
come back, and the command completes with the last. -/
def doSetpool (pool allow : Option (Nat × Nat)) (s : State) : Host.Outcome State Fault Refusal :=
  let missing := match allow with
    | some (n, _) => (tget s.parts n).isNone
    | none => false
  if poolBad s pool || missing then answer s .refused
  else if s.overPool pool = 0 && !s.cutsAllow allow then answer ((s.setAllow allow).raiseTo pool) .done
  else .next (({ (s.setAllow allow).lowerTo pool with command := some (.setpool pool allow) } : State).postOnce (setpoolLook pool allow))

/-! ### HALT and RESUME (R510 to R513) -/

/-- The partitions that a command names: one, or every one. -/
def State.haltDomain (s : State) : Option Nat → List Nat
  | some n => [n]
  | none => s.parts.map (·.1)

/-- What HALT does (R510). -/
def doHalt (part : Option Nat) (s : State) : Host.Outcome State Fault Refusal :=
  if (s.haltDomain part).any fun n => (tget s.parts n).isNone then answer s .refused
  else answer ((s.haltDomain part).foldl (fun x n => x.startHalt n haltPort 0 0) s) .done

/-- What a partition's agents do next once the halt is over (R513): slots, faults that were held, pre-emptions, engines, copy
engines, pick-ups, launches. -/
def State.resumeTurns (s : State) (n : Nat) (p : Partition) : State :=
  let ks := s.slotsOf n
  let s1 := ks.foldl (fun x k => (x.again k).postOnce (.vectorSideStart (coreOfSlot k))) s
  let s2 := s1.postAll ((s.slots.filter fun e => ks.contains e.1 && e.2.preempt).map fun e => .preemption e.1)
  let s3 := s2.postAll ((s.tasks.filter fun e => e.2.part = n && e.2.fault.isSome && !e.2.stopping).map fun e => .gridStop e.1)
  let s4 := s3.postAll (p.tiles.flatMap fun t => [.rowBlockStart t, .copyChunk t, .copyCompletion t, .pickUp t])
  (s4.postAll ((s.tasks.filter fun e => e.2.part = n).map fun e => .taskCompletion e.1)).postOnce (.taskLaunch n)

/-- One partition released. -/
def State.endHalt (s : State) (n : Nat) : State :=
  match tget s.parts n with
  | none => s
  | some p => if p.halt.isSome then (s.setPart n { p with halt := none }).resumeTurns n p else s

/-- What RESUME does (R513). -/
def doResume (part : Option Nat) (s : State) : Host.Outcome State Fault Refusal :=
  if (s.haltDomain part).any fun n => (tget s.parts n).isNone then answer s .refused
  else answer ((s.haltDomain part).foldl State.endHalt s) .done

/-! ### The commands (Table 20.3) -/

/-- A command performed. -/
def perform : Command → State → Host.Outcome State Fault Refusal
  | .readfuse => doReadfuse
  | .loadfw i => doLoadfw i
  | .attest n => doAttest n
  | .setrth x v => doSetrth x v
  | .loadkey n k => doLoadkey n k
  | .activate a => doActivate a
  | .deactivate n => doDeactivate n
  | .setpool p a => doSetpool p a
  | .links => doLinks
  | .halt n => doHalt n
  | .resume n => doResume n
  | .readbkt => doReadbkt

/-- The command is allowed before READY. -/
def Command.always : Command → Bool
  | .readfuse | .loadfw _ => true
  | _ => false

/-- A command arrives (R523): it waits for one that has not completed. One that needs READY is refused before it, and nobody
serves a command without power. -/
def arrive (c : Command) (s : State) : Host.Outcome State Fault Refusal :=
  if s.boot = .off then .next s
  else if s.command.isSome then .next { s with pending := s.pending ++ [c] }
  else if s.boot = .recovery && !c.always then answer s .refused
  else perform c s

/-- Commands that have waited are performed, up to one that does not complete at once. -/
def performAll : List Command → State → Host.Outcome State Fault Refusal
  | [], s => .next s
  | c :: r, s =>
    match perform c s with
    | .next s1 => if s1.command.isSome then .next { s1 with pending := r } else performAll r s1
    | .fault x => .fault x
    | .refused x => .refused x

/-- The command under way has completed. -/
def completed (s : State) : Host.Outcome State Fault Refusal :=
  performAll s.pending { s with command := none, pending := [], replies := s.replies ++ [.done] }

/-- READFUSE (R514). -/
def execReadfuse (s : State) : Host.Outcome State Fault Refusal := arrive .readfuse s

/-- LOADFW (R519). -/
def execLoadfw (image : FwImage) (s : State) : Host.Outcome State Fault Refusal := arrive (.loadfw image) s

/-- ATTEST (R520, R521). -/
def execAttest (nonce : List Byte) (s : State) : Host.Outcome State Fault Refusal := arrive (.attest nonce) s

/-- SETRTH (R465). -/
def execSetrth (sector value : Nat) (s : State) : Host.Outcome State Fault Refusal := arrive (.setrth sector value) s

/-- LOADKEY (R473). -/
def execLoadkey (slot : Nat) (key : BitVec 256) (s : State) : Host.Outcome State Fault Refusal := arrive (.loadkey slot key) s

/-- LINKS (R546). -/
def execLinks (s : State) : Host.Outcome State Fault Refusal := arrive .links s

/-- READBKT (R503). -/
def execReadbkt (s : State) : Host.Outcome State Fault Refusal := arrive .readbkt s

/-- ACTIVATE (R485, R486). -/
def execActivate (pcb : Word) (s : State) : Host.Outcome State Fault Refusal := arrive (.activate pcb) s

/-- DEACTIVATE (R486, R517): the command, or the end of a partition of which no grid remains. -/
def execDeactivate (part : Nat) (s : State) : Host.Outcome State Fault Refusal :=
  match tget s.parts part with
  | none => arrive (.deactivate part) s
  | some p =>
    if p.closing && !s.hasTasks part then
      let s1 := s.endPartition part p
      if s1.command = some (.deactivate part) then completed s1 else .next s1
    else arrive (.deactivate part) s

/-- Fields of tokens that SETPOOL waits for are still on their way. -/
def State.poolWaits (s : State) (pool allow : Option (Nat × Nat)) : Bool :=
  (match pool with
    | some (f, _) => s.poolMoving f
    | none => false) ||
  (match allow with
    | some (n, _) => ((tget s.parts n).map fun p => s.givingUp p != 0).getD false
    | none => false)

/-- A look of SETPOOL's own at what it has revoked: the one that it left is due now, and no other is to come. -/
def State.ownLook (s : State) (i : Instr) : Bool := !s.agenda.contains (.event i) && s.timers.all fun e => e.2 != i

/-- SETPOOL (R547): the command, or a look whether the tokens that it revokes have come back; what is still above the new total or
allowance is revoked then. A command without a total names no pool. -/
def execSetpool (field : Nat) (total : Option Nat) (allow : Option (Nat × Nat)) (s : State) : Host.Outcome State Fault Refusal :=
  let pool := total.map fun n => (field, n)
  let act := setpoolLook pool allow
  let again := fun (x : State) => x.postAt (x.time + 1) act
  if s.command = some (.setpool pool allow) && s.ownLook act then
    if s.poolWaits pool allow then .next (again s)
    else if s.cutsAllow allow then .next (again (s.setAllow allow))
    else if s.overPool pool != 0 then .next (again (s.lowerTo pool))
    else completed (s.raiseTo pool)
  else arrive (.setpool pool allow) s

/-- MGMT_HALT (R510). -/
def execMgmtHalt (part : Option Nat) (s : State) : Host.Outcome State Fault Refusal := arrive (.halt part) s

/-- MGMT_RESUME (R513). -/
def execMgmtResume (part : Option Nat) (s : State) : Host.Outcome State Fault Refusal := arrive (.resume part) s

end Sys2Proof.Machine
end

