-- ==== Sys2Proof/Machine/Pipes.lean ====
section
/-! DEFINITION. Sys2Proof/Machine/Pipes.lean: the acts of a core's vector side (R214, R217, R218, R222), its vector lease (R434,
R435), the lane-wake predictor and the droop response (R261 to R264). -/

namespace Sys2Proof.Machine

/-! ### Droop (R260 to R263) -/

/-- Cycles that an event stretches, and cycles of halved issue after them (R263). -/
def stretchSpan : Nat := 6
def halfSpan : Nat := 64

/-- Cycles in (a, b] in which the vector side may start: before `half`, those of odd CYCLE (R264). -/
def eligible (half a b : Nat) : Nat :=
  let m := min b (half - 1)
  if half = 0 || m ≤ a then b - a else ((m + 1) / 2 - (a + 1) / 2) + (b - m)

/-- The lease count brought up to cycle `c` (R435). -/
def Core.countTo (x : Core) (c : Nat) : Core :=
  if x.leaseC < c then { x with leaseK := x.leaseK + eligible x.halfEnd x.leaseC c, leaseC := c } else x

/-- The response to a droop event in cycle `c` (R263). -/
def Core.droop (x0 : Core) (c : Nat) : Core :=
  let x := x0.countTo c
  let e := if x.stretchEnd < c + stretchSpan then c + stretchSpan else x.stretchEnd
  { x with
    baseCycle := if x.stretchEnd < c then c + 1 else x.baseCycle
    basePeriod := if x.stretchEnd < c then x.periodOf (c + 1) else x.basePeriod
    stretch := if x.stretchEnd < c + stretchSpan then x.stretch + BitVec.ofNat 32 (c + stretchSpan - max x.stretchEnd c) else x.stretch
    stretchEnd := e
    halfEnd := max x.halfEnd (e + halfSpan) }

/-- The ends of the core's windows fall due. -/
def State.droopTimers (s : State) (core : Nat) : State :=
  let x := s.core core
  (s.postAt (s.cycleEnds core x.stretchEnd) (.droopWindowExpiry core)).postAt (s.cycleEnds core x.halfEnd) (.droopWindowExpiry core)

/-- SENSE_EVENT (R261, R263, R448): the core's detector reports a sense event. -/
def execSenseEvent (core : Nat) (s : State) : Host.Outcome State Fault Refusal :=
  if s.boot != .ready || !(s.core core).good then .next s
  else
    let c := s.cycleOf core
    let s1 := s.modCore core fun x => { (x.droop c) with sense := sat16 (x.sense + 1) }
    .next ((s1.droopTimers core).senseAtBroker (core / 256))

/-- DROOP_WINDOW_EXPIRY (R263): CYCLE is counted from the end of the stretched cycles, and the lease count from here. -/
def execDroopWindowExpiry (core : Nat) (s : State) : Host.Outcome State Fault Refusal :=
  let c := s.cycleOf core
  .next (s.modCore core fun x0 =>
    let x := x0.countTo c
    if x.stretchEnd < c && x.baseCycle ≤ x.stretchEnd then
      { x with baseCycle := x.stretchEnd + 1, basePeriod := x.periodOf (x.stretchEnd + 1) }
    else x)

/-! ### The vector side -/

/-- The class that the lease supports: the highest from 1 to CLASS with vcost ≤ VL, or 0 (R435). -/
def leaseClass (lease : Nat) : Nat → Nat
  | 0 => 0
  | c + 1 => if vcost (c + 1) ≤ lease then c + 1 else leaseClass lease c

/-- A value of the lease count is that of an open cycle (R435). -/
def leaseOpen (c k : Nat) : Bool := if c = 0 then k % 16 = 0 else c = 7 || k % 8 < c

/-- The first open cycle among cycles `c` to `c` + `n` - 1, with the core's lease count there (R264, R435). -/
def Core.openCycle (x : Core) (cls c : Nat) : Nat → Option (Nat × Core)
  | 0 => none
  | n + 1 =>
    let y := x.countTo c
    if eligible x.halfEnd (c - 1) c = 1 && leaseOpen cls y.leaseK then some (c, y) else y.openCycle cls (c + 1) n

/-- Cycles after a refusal before a core asks for tokens again (R434). -/
def leaseRetry : Nat := 1024

/-- The core asks its broker for what its lease lacks for class `cls` (R434). -/
def State.askLease (s : State) (core cls c : Nat) : State :=
  let x := s.core core
  let again := match x.refused with
    | some r => r + leaseRetry ≤ c
    | none => true
  if cls = 0 || vcost cls ≤ x.lease || x.leaseAsk != 0 || !again then s
  else (s.setCore core { x with leaseAsk := vcost cls - x.lease }).postOnce (.leaseRequest core)

/-- The wake of idle lanes by a start in cycle `c` (R262): none, an event, or a staggered start. -/
def Core.wake (x : Core) (lanes : Word) (c : Nat) : Core × Bool :=
  let idle := ~~~(x.lanes.foldl (fun a b => a ||| b) 0)
  let n := ((upto 64).filter (lanes &&& idle).getLsbD).length
  let w := bits x.droopth 14 8
  let y := { x with lanes := lanes :: x.lanes.take 15, started := c }
  if w = 0 || n < w then (y, false)
  else if bit x.droopth 15 then
    let q := max (w - 1) 1
    ({ y with wakes := sat16 (y.wakes + 1), started := c + ((n + q - 1) / q - 1) }, false)
  else ({ (y.droop c) with wakes := sat16 (y.wakes + 1) }, true)

/-- Predicate writes of the scalar side at the head of a forward queue reach the vector side's copy (R219). They start
nothing. -/
def Slot.takePreds (sl : Slot) : Slot :=
  let rec go (vp : Vector Word 8) : List FwdEntry → Vector Word 8 × List FwdEntry
    | [] => (vp, [])
    | f :: r =>
      match f.instr, f.pred with
      | none, some (n, w) => go (vp.set n.val w n.isLt) r
      | none, none => go vp r
      | some _, _ => (vp, f :: r)
  let q := go sl.vp sl.fwd
  { sl with vp := q.1, fwd := q.2 }

/-- The vector side may start the oldest entry of a slot in cycle `c`: no pre-emption is asked for (R221), the return queue has
room for what started before (R218), and the unit of a division is free (R115). -/
def Slot.canStart (sl : Slot) (x : Core) (c : Nat) : Bool :=
  !sl.preempt && sl.ret.length + sl.started.length < retSize &&
  match sl.fwd with
  | [] => false
  | f :: _ =>
    match f.instr.bind (unitOf f.before.latch.cls) with
    | some (j, _) => x.unitFree[j] ≤ c
    | none => true

/-- The slots of a core with the predicate writes at the heads of their forward queues taken. -/
def State.takePreds (s : State) (core : Nat) : State :=
  (upto 4).foldl (fun y i => y.modSlot (core * 4 + i) fun sl => if sl.preempt then sl else sl.takePreds) s

/-- Some slot of a core has an entry that has not started. -/
def State.vectorWaits (s : State) (core : Nat) : Bool :=
  (upto 4).any fun i =>
    match tget s.slots (core * 4 + i) with
    | some sl => !sl.fwd.isEmpty
    | none => false

/-- The vector side of a core can start nothing now. -/
def State.startsNothing (s : State) (core : Nat) : Bool :=
  (upto 4).all fun i =>
    match tget s.slots (core * 4 + i) with
    | some sl => !sl.canStart (s.core core) (s.cycleOf core)
    | none => true

/-- REVOCATION_NOTICE (R445): the tile takes the notices of its GRANT at a row-block boundary, those of a lease at once when the
core starts nothing; else the lease shrinks at the core's next vector-side start. -/
def execRevocationNotice (tile : Nat) (s : State) : Host.Outcome State Fault Refusal :=
  let s1 := s.takeNotices tile fun n => match n.core with
    | some c => s.startsNothing c
    | none => !(s.tile tile).running
  .next (if (s1.tile tile).notices.isEmpty then s1 else s1.postOnce (.revocationNotice tile))

/-- A division with a lookahead window that starts takes its window slot and opens its window (R75, R115). `sl` is the slot before
the start. -/
def State.openDivision (s : State) (k : Nat) (sl : Slot) (f : FwdEntry) : State :=
  match (if f.opens then f.instr else none) with
  | none => s
  | some i =>
    let c := i.ctl.getD noCtl
    let pendingL := sl.flight.any fun g => (dstOf g.instr).isSome && f.ahead.any fun a => a.n = g.n && !a.wroteL
    (s.modSlot k fun x =>
      { x with
        windows := x.windows ++ windowOf i c
        flight := x.flight ++
          [{ n := f.n, instr := i, before := f.before, pos := f.pos, windows := f.windows, left := c.la.val, wroteL := false,
             needL := pendingL }] }).post (.event (replyOf i k))

/-- The oldest entry `f` of slot `k` starts in cycle `c`; `x` is the core with its lease count there (R217, R262, R434). A gateway
core needs no lease (R527). A lease under notice shrinks (R445). -/
def State.startEntry (s : State) (k c : Nat) (x : Core) (sl : Slot) (f : FwdEntry) (rest : List FwdEntry) : State :=
  let core := coreOfSlot k
  let (x1, droops) := x.wake f.lanes c
  let x2 := match f.instr with
    | some i => x1.useUnit f.before.latch.cls i c
    | none => x1
  let s1 := s.setCore core { x2 with lastV := k % 4 }
  let s2 := if droops then s1.droopTimers core else s1
  let s3 := s2.setSlot k
    { sl with
      fwd := rest
      vp := match f.pred with
        | some (n, w) => sl.vp.set n.val w n.isLt
        | none => sl.vp
      started := sl.started ++ (f.returns.map fun r => (f.n, r)).toList }
  let s3b := s3.openDivision k sl f
  let s4 := if f.returns.isSome then s3b.postOnce (.vectorResultReturn k) else s3b
  let s5 := if isGateway (tileOfCore core) then s4 else s4.askLease core f.before.cls c
  let s6 := s5.takeNotices (tileOfCore core) fun n => n.core = some core
  (s6.postAt (s6.cycleEnds core (x2.started + leaseIdle)) (.leaseIdleReturn core)).postOnce (.vectorSideStart core)

/-- The oldest entry of slot `k`, where it can start at one of the `n` cycles from `c0` on: the first one that is open for it (R115,
R264, R435), the core with its lease count there, the slot, the entry and those behind it. -/
def State.nextStart (s : State) (x : Core) (c0 n k : Nat) : Option (Nat × Nat × Core × Slot × FwdEntry × List FwdEntry) := do
  let sl ← tget s.slots k
  match sl.fwd with
  | [] => none
  | f :: rest =>
    let cls := if isGateway (tileOfSlot k) then 7 else leaseClass x.lease f.before.cls
    if sl.canStart x c0 then (x.openCycle cls c0 n).map fun (c, y) => (c, k, y, sl, f, rest) else none

/-- VECTOR_SIDE_START (R214, R217, R262, R434, R435): in the first cycle of the present nanosecond that is open for some slot, the
vector side starts the oldest entry of the first slot in rotation that can start there. On a dark tile nothing starts (R433). -/
def execVectorSideStart (core : Nat) (s0 : State) : Host.Outcome State Fault Refusal :=
  if !s0.awake (tileOfCore core) then .next s0
  else
  let s := s0.takePreds core
  let x := s.core core
  let c0 := max (x.started + 1) (s.cycleOf core)
  let ready := (rotation x.lastV).filterMap fun i => s.nextStart x c0 (s.cycleLimit core - c0) (core * 4 + i)
  let first := ready.map (·.1)
  match ready.find? fun r => first.all (r.1 ≤ ·) with
  | none => .next (if s.vectorWaits core then s.postOnce (.vectorSideStart core) else s)
  | some (c, k, x1, sl, f, rest) => .next (s.startEntry k c x1 sl f rest)

/-- VECTOR_RESULT_RETURN (R218, R222): the oldest result of a slot enters its return queue. A full queue keeps it waiting. -/
def execVectorResultReturn (slot : Nat) (s : State) : Host.Outcome State Fault Refusal :=
  match tget s.slots slot with
  | none => .next s
  | some sl =>
    match sl.started with
    | [] => .next s
    | r :: rest =>
      if retSize ≤ sl.ret.length then .next (s.postOnce (.vectorResultReturn slot))
      else
        let s1 := s.setSlot slot { sl with started := rest, ret := sl.ret ++ [r] }
        .next (if rest.isEmpty then s1 else s1.postOnce (.vectorResultReturn slot))

end Sys2Proof.Machine
end

