-- ==== Sys2Proof/Machine/Giben.lean ====
section
/-! DEFINITION. Sys2Proof/Machine/Giben.lean: Giben sessions and their numbering (R529 to R531), the accesses of a port (R533,
R534, R538), and the packets that perform them. -/

namespace Sys2Proof.Machine

/-! ### Framing (R529) -/

/-- Kinds of Table 21.4. -/
def kindHello : Nat := 0x01
def kindAck : Nat := 0x02
def kindWrite : Nat := 0x10
def kindRead : Nat := 0x11
def kindReadrsp : Nat := 0x12
def kindAtomic : Nat := 0x13
def kindCadd : Nat := 0x14
def kindAppend : Nat := 0x15
def kindBlock : Nat := 0x16
def kindMgmt : Nat := 0x20

/-- ACK codes of Table 21.4. -/
def ackOk : Nat := 0
def ackBusy : Nat := 1
def ackMoved : Nat := 2
def ackRefused : Nat := 3

/-- Bytes of a payload at most, packets of a retransmission buffer, sessions of a port, the end-to-end timeout, timeouts that
close a session (R529 to R531). -/
def maxPayload : Nat := 8192
def maxUnacked : Nat := 1024
def maxSessions : Nat := 4096
def endToEnd : Nat := 20000
def maxTimeouts : Nat := 5

/-- VF of a supervisor session. -/
def supervisorVf : Nat := 0x7FF

/-- Feature bits (R530). -/
def featAtomic : Nat := 0
def featAppend : Nat := 1
def featBlock : Nat := 2
def featMigrate : Nat := 3

/-- EtherType of Giben frames, and bytes of the header (R529). -/
def etherType : Nat := 0x88B5
def headerBytes : Nat := 32

/-- The 32 bytes of a packet's header, little-endian (Table 21.3). -/
def headerImage (pk : Packet) : List Byte :=
  let hdr := pk.session ++ pk.vf ++ pk.reserved ++ BitVec.ofNat 16 pk.payload.length ++ pk.kind ++ pk.ver
  [hdr, pk.ack ++ pk.seq, pk.arg, pk.addr].flatMap fun w => bytesOf 8 w.toNat

/-- What an Ethernet II frame carries after its addresses: the EtherType, big-endian as Ethernet sends it, then the packet (R529). -/
def packetFrame (pk : Packet) : List Byte :=
  (bytesOf 2 etherType).reverse ++ headerImage pk ++ pk.payload

/-- The packet of a frame; none for another EtherType, or where LEN is not the number of bytes that follow the header (R529). -/
def packetOf (bs : List Byte) : Option Packet :=
  let h := (bs.drop 2).take headerBytes
  let dw := fun (i : Nat) => wordOfBytes ((h.drop (8 * i)).take 8)
  let payload := bs.drop (2 + headerBytes)
  if bs.take 2 != (bytesOf 2 etherType).reverse || h.length != headerBytes || bits (dw 0) 31 16 != payload.length then none
  else
    some { session := (dw 0).extractLsb' 48 16, vf := (dw 0).extractLsb' 37 11, reserved := (dw 0).extractLsb' 32 5,
           kind := (dw 0).extractLsb' 8 8, ver := (dw 0).extractLsb' 0 8, seq := (dw 1).extractLsb' 0 32, ack := (dw 1).extractLsb' 32 32,
           arg := dw 2, addr := dw 3, payload := payload }

/-- SEQ `a` lies below `b`, modulo 2^32. -/
def seqBelow (a b : BitVec 32) : Bool := a != b && (b - a).toNat < 2 ^ 31

/-- A frame sent by a port; a port that is down sends nothing. -/
def State.emit (s : State) (n : Nat) (pk : Packet) : State :=
  s.modPort n fun x => if x.down then x else { x with out := x.out ++ [pk] }

/-- VF as the header of a session's packets gives it. -/
def Session.vfCode (x : Session) : BitVec 11 := BitVec.ofNat 11 (x.vf.getD supervisorVf)

/-- An ACK of a session: it has no number of its own. -/
def Session.ackPacket (x : Session) (ses : Nat) (code : Nat) : Packet :=
  { session := BitVec.ofNat 16 ses, vf := x.vfCode, reserved := 0, kind := BitVec.ofNat 8 kindAck, ver := BitVec.ofNat 8 x.ver,
    seq := x.seq, ack := x.next, arg := BitVec.ofNat 64 code, addr := 0, payload := [] }

/-- The answer REFUSED to a packet of no session. -/
def refusal (pk : Packet) : Packet :=
  { session := pk.session, vf := pk.vf, reserved := 0, kind := BitVec.ofNat 8 kindAck, ver := pk.ver, seq := 0, ack := 0,
    arg := BitVec.ofNat 64 ackRefused, addr := 0, payload := [] }

def State.session (s : State) (n ses : Nat) : Option Session := tget (s.port n).sessions ses
def State.setSession (s : State) (n ses : Nat) (x : Session) : State :=
  s.modPort n fun p => { p with sessions := tput p.sessions ses x }

/-! ### Sending (R531) -/

/-- The time at which the timeout falls due, from now on. -/
def State.armTimeout (s : State) (n ses : Nat) (x : Session) : State :=
  (s.setSession n ses { x with due := some (s.time + endToEnd) }).postAt (s.time + endToEnd) (.retransmitTimeout n ses)

/-- Packets that wait are sent while the retransmission buffer has room. -/
def State.sendWaiting (s : State) (n ses : Nat) (x : Session) : List Packet → State
  | [] => s.setSession n ses { x with waiting := [] }
  | pk :: r =>
    if maxUnacked ≤ x.unacked.length then s.setSession n ses { x with waiting := pk :: r }
    else
      let x1 := { x with unacked := x.unacked ++ [pk] }
      let s1 := if x.unacked.isEmpty && x.due.isNone then s.armTimeout n ses x1 else s
      let x2 := if x.unacked.isEmpty && x.due.isNone then { x1 with due := some (s.time + endToEnd) } else x1
      (s1.emit n pk).sendWaiting n ses x2 r

/-- A numbered packet of the module. -/
def State.sendNumbered (s : State) (n ses : Nat) (kind : Nat) (arg addr : Word) (payload : List Byte) : State :=
  match s.session n ses with
  | none => s
  | some x =>
    let pk : Packet :=
      { session := BitVec.ofNat 16 ses, vf := x.vfCode, reserved := 0, kind := BitVec.ofNat 8 kind, ver := BitVec.ofNat 8 x.ver,
        seq := x.seq, ack := x.next, arg := arg, addr := addr, payload := payload }
    let x1 := { x with seq := x.seq + 1 }
    s.sendWaiting n ses x1 (x1.waiting ++ [pk])

/-- The descriptor under way has its outcome. -/
def State.egressDone (s : State) (n : Nat) (res : Nat) : State :=
  match (s.port n).egress with
  | none => s
  | some g =>
    let r := g.res.getD res
    (s.modPort n fun x => { x with egress := some { g with sent := true, res := some r } }).postOnce (.egressComplete n (Fin.ofNat 4 r))

/-- Every packet of the descriptor under way has been acknowledged (R536). -/
def State.checkEgress (s : State) (n ses : Nat) : State :=
  match (s.port n).egress, s.session n ses with
  | some g, some x =>
    if g.session = ses && g.sent && (x.unacked ++ x.waiting).all fun pk => !seqBelow pk.seq g.last then s.egressDone n 0 else s
  | _, _ => s

/-- ACK of a packet received: packets below it leave the retransmission buffer (R531). -/
def State.advance (s : State) (n ses : Nat) (a : BitVec 32) : State :=
  match s.session n ses with
  | none => s
  | some x =>
    let left := x.unacked.filter fun pk => !seqBelow pk.seq a
    if left.length = x.unacked.length then s
    else
      let x1 := { x with unacked := left, timeouts := 0, busy := false, due := none }
      let s1 := if left.isEmpty then s.setSession n ses x1 else s.armTimeout n ses x1
      match s1.session n ses with
      | none => s1
      | some x2 => (s1.sendWaiting n ses x2 x2.waiting).checkEgress n ses

/-- A session closed, with the outcome of its descriptor (R537). -/
def State.closeSession (s : State) (n ses res : Nat) : State :=
  let s1 := match (s.port n).egress with
    | some g => if g.session = ses then s.egressDone n res else s
    | none => s
  s1.modPort n fun x => { x with sessions := tdel x.sessions ses }

/-! ### On whose behalf (R528, R530, R533) -/

/-- Whom the accesses of a session are made for: partition, virtual function, context. -/
structure Behalf where
  part : Nat
  vf   : Option Nat
  ctx  : Nat
  deriving DecidableEq, Repr

/-- A session of a peer port acts for the bound virtual function, one of a host port for what its HELLO named. -/
def State.behalf (s : State) (n : Nat) (x : Session) : Option Behalf :=
  if n < hostPort then (s.port n).bind.map fun b => { part := b.part, vf := some b.vf, ctx := b.ctx }
  else
    match tget s.parts x.part with
    | none => none
    | some p =>
      match x.vf with
      | none => some { part := x.part, vf := none, ctx := sessionCtx }
      | some v => if s.vfValid p v then some { part := x.part, vf := some v, ctx := s.vfCtx p v } else none

/-- The virtual function of a partition as ports keep it. -/
def State.vf (s : State) (part v : Nat) : Vf :=
  match tget s.parts part with
  | some p => tgetD p.vfs v {}
  | none => {}

/-- The virtual function that the sessions of a peer port act for: the bound one, or the one whose binding RELEASE has ended
(R530, R545). -/
def Port.actsFor (x : Port) : Option (Nat × Nat) := (x.bind.map fun b => (b.part, b.vf)).orElse fun _ => x.last

/-- The virtual function that a session of port `n` acts for has been released (R545). -/
def State.moved (s : State) (n : Nat) (x : Session) : Bool :=
  match (if n < hostPort then (s.port n).actsFor else x.vf.map fun v => (x.part, v)) with
  | some (m, v) => (s.vf m v).released
  | none => false

/-! ### Accesses of a port (R533) -/

/-- The parts of a range that lie in one line each: address, offset in the range, bytes. -/
def pieces (va : Word) (n : Nat) : List (Word × Nat × Nat) :=
  let o := va.toNat % 128
  ((upto ((o + n + 127) / 128)).map fun i =>
    let lo := max (128 * i) o
    let hi := min (128 * (i + 1)) (o + n)
    (va + BitVec.ofNat 64 (lo - o), lo - o, hi - lo)).filter fun x => 0 < x.2.2

/-- The writes of a port, its field's remote copies dropped (R384). -/
def portWriter (n part ctx : Nat) : Writer := { fld := some (fieldOfPort n), task := none, ctx := ctx, part := part }

/-- Bytes written at the places of their pieces. -/
def State.putPieces (s : State) (w : Writer) (bs : List Byte) (l : List ((Word × Nat × Nat) × Nat)) : State :=
  l.foldl (fun x e => x.homeWrite w e.1.1 e.2 ((bs.drop e.1.2.1).take e.1.2.2)) s

/-- Some bytes of ranges, given by place and length, are lost. -/
def State.lostIn (s : State) (l : List (Nat × Nat)) : Bool := l.any fun x => s.lostAt x.1 x.2

/-- Assay follows on the ranges that a port finds lost (R380). -/
def State.assayIn (s : State) (l : List (Nat × Nat)) : State :=
  (l.filter fun x => s.lostAt x.1 x.2).foldl (fun y x => y.assayAt x.1) s

/-- What performing a packet comes to. -/
inductive Performed where
  /-- the answer: an ACK code, or a READRSP -/
  | ack (s : State) (code : Nat)
  | rsp (s : State) (bytes : List Byte)
  /-- the packet waits for a page, or asks again -/
  | held (s : State)
  | again (s : State)

/-- The turn of a session: what it holds goes on, or its timeout comes. -/
def turnOf (n ses : Nat) : Instr := .retransmitTimeout n ses

/-- A WRITE, or the writes of a BLOCK (R533). -/
def State.portWrite (s : State) (n ses : Nat) (b : Behalf) (va : Word) (bs : List Byte) (k : State → Performed) : Performed :=
  let ps := pieces va bs.length
  match s.reachEach (turnOf n ses) b.vf.isSome b.part b.ctx (ps.map fun x => (x.1, .write)) with
  | .bad s1 => .ack s1 ackRefused
  | .held s1 => .held s1
  | .ok s1 l => k (s1.putPieces (portWriter n b.part b.ctx) bs (ps.zip l))

/-- What a WRITE does. -/
def doWrite (n ses : Nat) (b : Behalf) (pk : Packet) (s : State) : Performed :=
  if pk.arg != 0 || pk.payload.length % 4 != 0 then .ack s ackRefused
  else s.portWrite n ses b pk.addr pk.payload fun s1 => .ack s1 ackOk

/-- What a READ does (R533). -/
def doRead (n ses : Nat) (b : Behalf) (pk : Packet) (s : State) : Performed :=
  let len := pk.arg.toNat
  if len % 4 != 0 || maxPayload < len || !pk.payload.isEmpty then .ack s ackRefused
  else
    let ps := pieces pk.addr len
    match s.reachEach (turnOf n ses) b.vf.isSome b.part b.ctx (ps.map fun x => (x.1, .read)) with
    | .bad s1 => .ack s1 ackRefused
    | .held s1 => .held s1
    | .ok s1 l =>
      if s1.lostIn (l.zip (ps.map fun x => x.2.2)) then .ack (s1.assayIn (l.zip (ps.map fun x => x.2.2))) ackRefused
      else
        let s2 := l.foldl (fun x pa => x.touchL2 pa b.ctx) s1
        .rsp s2 ((ps.zip l).flatMap fun x => s2.bytesAt x.2 x.1.2.2)

/-- OPC of an ATOMIC (Table 4.8). -/
def aopOf : Nat → Option AopOp
  | 0 => some .add | 1 => some .and | 2 => some .or | 3 => some .xor | 4 => some .min | 5 => some .max | 6 => some .minu
  | 7 => some .maxu | 8 => some .swap | _ => none

/-- Operand `i` of an ATOMIC. -/
def operandOf (pk : Packet) (i : Nat) : Nat := natOf ((pk.payload.drop (8 * i)).take 8)

/-- The new value that an ATOMIC writes: none where it is no operation of Table 21.4; some none where a comparison fails. -/
def atomicNew (pk : Packet) (bitN old : Nat) : Option (Option Nat) :=
  let opc := bits pk.arg 15 12
  let b := operandOf pk 0 % 2 ^ bitN
  if opc = 15 then
    if pk.payload.length = 16 then some (if old = b then some (operandOf pk 1 % 2 ^ bitN) else none) else none
  else if pk.payload.length = 8 then (aopOf opc).map fun op => some (aopNew op bitN old b)
  else none

/-- The port at which a partition's atomics of the host execute: port 32 for an even partition number and 33 for an odd one; while
that port is down, the other one (R134, R533). -/
def State.servingPort (s : State) (part : Nat) : Nat :=
  let m := hostPort + part % 2
  if (s.port m).down then hostPort + (part + 1) % 2 else m

/-- What an ATOMIC does (R533): AOP or ACAS with ORD 3 at .system at the partition's serving port, whose request drops its field's copy
(R384) and whose acquire flashes the cache of its field (R385). -/
def doAtomic (n ses : Nat) (b : Behalf) (pk : Packet) (s : State) : Performed :=
  let sz := bits pk.arg 1 0
  let nb := if sz = 3 then 4 else 8
  let m := s.servingPort b.part
  if pk.arg.toNat / 2 ^ 16 != 0 || bits pk.arg 11 2 != 0 || (sz != 0 && sz != 3) || pk.addr.toNat % nb != 0 ||
     (atomicNew pk (8 * nb) 0).isNone then .ack s ackRefused
  else
    match s.reach (turnOf n ses) b.vf.isSome b.part b.ctx pk.addr .rmw with
    | .bad s1 _ _ => .ack s1 ackRefused
    | .held s1 => .held s1
    | .ok s1 pa =>
      if s1.lostAt pa nb then .ack (s1.assayAt pa) ackRefused
      else
        let old := s1.valAt pa nb
        let s2 := s1.touchL2 pa b.ctx
        let s3 := match atomicNew pk (8 * nb) old with
          | some (some v) => s2.homeWrite (portWriter m b.part b.ctx) pk.addr pa (bytesOf nb v)
          | _ => s2.dropRdc (fieldOfPort m) pk.addr b.ctx
        .rsp (s3.flashRdc (fieldOfPort m)) (bytesOf 8 old)

/-- An addition that port `n` makes to a counter at its home slice. -/
def State.portAdd (s : State) (n ctx : Nat) (va : Word) (pa : Nat) (d : Word) : State :=
  (s.dropRdc (fieldOfPort n) va ctx).addAt ctx pa d

/-- What a CADD does (R165, R533). -/
def doCadd (n ses : Nat) (b : Behalf) (pk : Packet) (s : State) : Performed :=
  if !pk.payload.isEmpty || bits pk.addr 2 0 != 0 || inWindow pk.addr then .ack s ackRefused
  else
    match s.reach (turnOf n ses) b.vf.isSome b.part b.ctx pk.addr .rmw with
    | .bad s1 _ _ => .ack s1 ackRefused
    | .held s1 => .held s1
    | .ok s1 pa =>
      if s1.lostAt pa 8 then .ack (s1.assayAt pa) ackRefused
      else .ack (s1.portAdd n b.ctx pk.addr pa pk.arg) ackOk

/-- What an APPEND does (R534). Its accesses are a user's, as R533 gives for an ordinary virtual function. -/
def doAppend (n ses : Nat) (b : Behalf) (pk : Packet) (s : State) : Performed :=
  match b.vf, tget s.parts b.part with
  | some v, some p =>
    let q := bits pk.arg 2 0
    if pk.arg.toNat / 8 != 0 || pk.payload.length != 64 || s.vfQueues p v ≤ q then .ack s ackRefused
    else
      let d := s.qdesc p v q
      match s.reachEach (turnOf n ses) true b.part b.ctx [(d, .read), (d + 0x18, .read)] with
      | .bad s1 => .ack s1 ackRefused
      | .held s1 => .held s1
      | .ok s1 l =>
        let dp := (l[0]?).getD 0
        let hp := (l[1]?).getD 0
        if s1.lostIn [(dp, 24), (hp, 8)] then .ack (s1.assayIn [(dp, 24), (hp, 8)]) ackRefused
        else
        let nslot := bits (s1.dwAt (dp + 8)) 16 0
        let tailVa := s1.dwAt (dp + 0x10)
        let head := s1.dwAt hp
        match s1.reachEach (turnOf n ses) true b.part b.ctx [(tailVa, .rmw)] with
        | .bad s2 => .ack s2 ackRefused
        | .held s2 => .held s2
        | .ok s2 l2 =>
          let tp := (l2[0]?).getD 0
          let t := s2.dwAt tp
          if s2.lostAt tp 8 then .ack (s2.assayAt tp) ackRefused
          else if nslot ≤ (t - head).toNat then .ack s2 ackBusy
          else
            let va := s2.dwAt dp + BitVec.ofNat 64 (64 * (t.toNat % nslot))
            match s2.reachEach (turnOf n ses) true b.part b.ctx [(va, .write)] with
            | .bad s3 => .ack s3 ackRefused
            | .held s3 => .held s3
            | .ok s3 l3 =>
              let s4 := s3.homeWrite (portWriter n b.part b.ctx) va ((l3[0]?).getD 0) pk.payload
              .ack (s4.portAdd n b.ctx tailVa tp 1) ackOk
  | _, _ => .ack s ackRefused

/-- Entries of a block-index queue (R538). -/
def blockQueueSize : Nat := 256

/-- What a BLOCK does (R538). -/
def doBlock (n ses : Nat) (b : Behalf) (pk : Packet) (s : State) : Performed :=
  match (s.port n).bind with
  | none => .ack s ackRefused
  | some bd =>
    if pk.payload.length % 4 != 0 || (pk.arg != 0 && !bit pk.arg 63) then .ack s ackRefused
    else if blockQueueSize ≤ (s.port n).blocks.length then .ack s ackBusy
    else if pk.arg = 0 then s.portWrite n ses b pk.addr pk.payload fun s1 => .ack s1 ackOk
    else
      match s.reachEach (turnOf n ses) false bd.part bd.ctx [(bd.garr, .rmw)] with
      | .bad s1 => .ack s1 ackRefused
      | .held s1 => .held s1
      | .ok s1 l =>
        let gp := (l[0]?).getD 0
        if s1.lostAt gp 8 then .ack (s1.assayAt gp) ackRefused
        else
          s1.portWrite n ses b pk.addr pk.payload fun s2 =>
            .ack ((s2.modPort n fun x => { x with blocks := x.blocks ++ [pk.arg] }).portAdd n bd.ctx bd.garr gp 1) ackOk

/-- The kinds that PAUSE turns away (R544, step 3). -/
def pausable (k : Nat) : Bool := k = kindWrite || k = kindCadd || k = kindBlock || k = kindAppend

/-- The virtual function of an access is past step 2 of PAUSE. -/
def State.paused (s : State) (b : Behalf) : Bool :=
  match b.vf with
  | some v => 2 ≤ (s.vf b.part v).pause
  | none => false

end Sys2Proof.Machine
end

