-- ==== Sys2Proof/Machine/Migrate.lean ====
section
/-! DEFINITION. Sys2Proof/Machine/Migrate.lean: the MGMT subcodes: BIND and UNBIND with the gateway task (R528, R532), ATTEST
(R520), and the migration of a virtual function (R541 to R545). -/

namespace Sys2Proof.Machine

/-- The accesses of `n` dwords at an address. -/
def dwordAccesses (va : Word) (n : Nat) (acc : Acc) : List (Word × Acc) :=
  (upto n).map fun i => (va + BitVec.ofNat 64 (8 * i), acc)

/-- The dwords at places. -/
def State.dwsAt (s : State) (l : List Nat) : List Word := l.map s.dwAt

/-- Dword `i` of a block that has been read. -/
def dwIn (l : List Word) (i : Nat) : Word := (l[i]?).getD 0

/-- A power of two from 1 to 65,536. -/
def slotsOk (w : Word) : Bool := (List.range 17).any fun i => w.toNat = 2 ^ i

/-! ### BIND and UNBIND (R528) -/

/-- The port that the payload's first dword names. -/
def portNamed (pk : Packet) : Nat := natOf (pk.payload.take 8)

/-- The binding that a port binding block describes (Table 21.2), for a partition. -/
def State.bindingOf (s : State) (part : Nat) (p : Partition) (pbb : Word) (l : List Word) : Binding :=
  let v := bits (dwIn l 1) 9 0
  { part := part, vf := v, ctx := s.vfCtx p v, pbb := pbb, garr := dwIn l 3, etail := dwIn l 4, ering := dwIn l 5,
    enslot := bits (dwIn l 6) 16 0, ehead := dwIn l 7 }

/-- The block is refused: VALID clear, a reserved bit set, a virtual function that is not VALID, slots that are no power of
two. -/
def State.pbbBad (s : State) (p : Partition) (l : List Word) : Bool :=
  dwIn l 0 != 1 || bits (dwIn l 1) 63 10 != 0 || !s.vfValid p (bits (dwIn l 1) 9 0) || !slotsOk (dwIn l 6) || bits (dwIn l 5) 5 0 != 0

/-- The strands of a gateway task: strand `i` on gateway core `i` (R528). -/
def State.placeGateway (s : State) (task part tile : Nat) (h : Header) : State :=
  (upto (hN h)).foldl (fun x i => x.launchRecord { launchStrand task part h i tile with lcore := i }) s

/-- A gateway task launched. -/
def State.launchGateway (s : State) (n part : Nat) (b : Binding) (gtask : Word) (h : Header) : State × Nat :=
  let (s1, t) := s.newTask part fun q =>
    { part := part, vf := b.vf, ctx := b.ctx, queue := gatewayQueue, qslot := 0, seq := q, addr := gtask, header := h,
      next := BitVec.ofNat 32 (hN h) }
  ((s1.dropCode b.ctx [tileOfPort n]).placeGateway t part (tileOfPort n) h, t)

/-- Strands of a gateway task at most (R528). -/
def gatewayStrands : Nat := 4

/-- A binding made, and what it makes due. -/
def State.makeBinding (s : State) (n : Nat) (b : Binding) : State :=
  (s.modPort n fun x => { x with bind := some b, last := none }).postOnce (.egressDescriptor n)

/-- The gateway task of a binding: checked, then launched once its dependence counter allows (R164, R492). -/
def State.bindTask (s : State) (n ses m : Nat) (p : Partition) (b : Binding) (gtask : Word) : Performed :=
  match s.reachEach (turnOf n ses) false b.part b.ctx (dwordAccesses gtask 8 .read) with
  | .bad s1 => .ack s1 ackRefused
  | .held s1 => .held s1
  | .ok s1 l =>
    let h : Header := Vector.ofFn fun i : Fin 8 => dwIn (s1.dwsAt l) i.val
    match s1.headerFault p h false gatewayStrands with
    | some (c, v) =>
      .ack ((s1.endUnlaunched b.part b.vf b.ctx gatewayQueue 0 gtask h c v).makeBinding m { b with task := some s1.nextUid }) ackOk
    | none =>
      let launch := fun (x : State) =>
        let (s2, t) := x.launchGateway m b.part b gtask h
        Performed.ack (s2.makeBinding m { b with task := some t }) ackOk
      if hDep h = 0 then launch s1
      else
        match s1.reach (turnOf n ses) false b.part b.ctx (hDep h) .read with
        | .held s2 => .held s2
        | .bad s2 _ _ => .again s2
        | .ok s2 pa => if !s2.lostAt pa 8 && (hDepv h).toNat ≤ (s2.dwAt pa).toNat then launch s2 else .again s2

/-- What BIND does (R528, R532). -/
def doBind (n ses : Nat) (b : Behalf) (pk : Packet) (s : State) : Performed :=
  let m := portNamed pk
  match tget s.parts b.part with
  | none => .ack s ackRefused
  | some p =>
    if pk.payload.length < 8 || portCount ≤ m || (s.port m).bind.isSome || bits pk.addr 2 0 != 0 then .ack s ackRefused
    else
      match s.reachEach (turnOf n ses) false b.part b.ctx (dwordAccesses pk.addr 7 .read ++ [(pk.addr + 0x38, .rmw)]) with
      | .bad s1 => .ack s1 ackRefused
      | .held s1 => .held s1
      | .ok s1 l =>
        let ws := s1.dwsAt l
        if s1.pbbBad p ws then .ack s ackRefused
        else
          let bd := s1.bindingOf b.part p pk.addr ws
          if dwIn ws 2 = 0 then .ack (s1.makeBinding m bd) ackOk else s1.bindTask n ses m p bd (dwIn ws 2)

/-- The gateway task of a binding has ended, and its egress ring is empty. -/
def State.bindingIdle (s : State) (n : Nat) (b : Binding) : Bool :=
  (match b.task with
   | some t => (tget s.tasks t).isNone
   | none => true) && s.ringIdle n (s.port n) b

/-- A binding ended; `last` is the virtual function whose release has ended it (R545). -/
def State.endBinding (s : State) (n : Nat) (last : Option (Nat × Nat)) : State :=
  s.modPort n fun x => { x with bind := none, last := last, egress := none, blocks := [] }

/-- What UNBIND does (R528). -/
def doUnbind (b : Behalf) (pk : Packet) (s : State) : Performed :=
  let m := portNamed pk
  match (s.port m).bind with
  | none => .ack s ackRefused
  | some bd =>
    if pk.payload.length < 8 || bd.part != b.part then .ack s ackRefused
    else if s.bindingIdle m bd then .ack (s.endBinding m none) ackOk else .again s

/-- What a MGMT ATTEST does (R520, R532). -/
def doGibenAttest (pk : Packet) (s : State) : Performed :=
  if pk.payload.length = 32 then .rsp s (s.attestReport pk.payload ++ s.certificate) else .ack s ackRefused

/-! ### Migration (R541 to R545) -/

/-- Entries of a table by its level (R389). -/
def tableSize (lv : Nat) : Nat := if lv = 3 then 256 else if lv = 4 then 32 else 512

/-- Places of the leaves below a table. -/
def State.leavesFrom (s : State) : Nat → Nat → Nat → List Nat
  | 0, _, _ => []
  | n + 1, lv, t =>
    if t = 0 then []
    else (upto (tableSize lv)).flatMap fun i =>
      let e := s.dwAt (t + 8 * i)
      if bits e 1 0 = 1 && lv < 4 then s.leavesFrom n (lv + 1) (bits e 63 8 * 2 ^ 8)
      else if bits e 1 0 = 2 && 3 ≤ lv then [t + 8 * i] else []

/-- Places of every leaf of a context: four roots in each field of the partition (R388). -/
def State.leavesOf (s : State) (p : Partition) (ctx : Nat) : List Nat :=
  p.fields.flatMap fun e => [0, 8, 16, 24].flatMap fun o => s.leavesFrom 5 0 (s.ctxDw p e.1 ctx o).toNat

/-- D cleared in a leaf. -/
def State.clearD (s : State) (a : Nat) : State :=
  let e := s.dwAt a
  if bit e 10 then s.sliceDw a (e &&& ~~~0x400) else s

/-- The leaf of a page named in the ring. -/
def State.leafOfPage (s : State) (p : Partition) (ctx : Nat) (ent : Word) : Option Nat :=
  match s.homeOf p ent with
  | none => none
  | some f =>
    match s.walk p f ctx ent with
    | .leaf _ _ a => some a
    | _ => none

/-- The raise of a context's generation for a virtual function (R394, R542, R543). -/
def State.raiseFor (s : State) (part ctx v : Nat) : State :=
  match tget s.parts part with
  | none => s
  | some p =>
    let g := tgetD p.alloc ctx 0 + 1
    (s.modPart part fun q =>
      { q with alloc := tput q.alloc ctx g, raises := q.raises ++ [{ ctx := ctx, gen := g, ctr := none, vf := some v }] }).startRaises part

/-- The migration block of a subcode read and checked: the virtual function, and the block's dwords. One whose virtual function
has a subcode that has not completed is refused (R541). -/
def State.migrationBlock (s : State) (n ses : Nat) (b : Behalf) (pk : Packet)
    (k : State → Partition → Nat → List Word → Performed) : Performed :=
  match tget s.parts b.part with
  | none => .ack s ackRefused
  | some p =>
    if bits pk.addr 2 0 != 0 || !pk.payload.isEmpty then .ack s ackRefused
    else
      match s.reachEach (turnOf n ses) false b.part b.ctx
          ((dwordAccesses pk.addr 8 .read) ++ [(pk.addr + 8, .write)]) with
      | .bad s1 => .ack s1 ackRefused
      | .held s1 => .held s1
      | .ok s1 l =>
        let ws := s1.dwsAt l
        let v := bits (dwIn ws 0) 9 0
        if bits (dwIn ws 0) 63 10 != 0 || !s1.vfValid p v || (s1.vf b.part v).moving.isSome then .ack s ackRefused
        else k s1 p v ws

/-- Entries that wait for the dirty ring of a virtual function gone: a TRACK begins a new one (R542). -/
def State.dropDirty (s : State) (part v : Nat) : State :=
  s.modPart part fun p => { p with devs := p.devs.filter fun d => d.vf != v || match d.what with
    | .dirty _ => false
    | .done _ => true }

/-- What TRACK does (R542). -/
def doTrack (n ses : Nat) (b : Behalf) (pk : Packet) (s : State) : Performed :=
  s.migrationBlock n ses b pk fun s1 p v ws =>
    if !slotsOk (dwIn ws 3) then .ack s ackRefused
    else
      let ctx := s1.vfCtx p v
      let s2 := (s1.leavesOf p ctx).foldl State.clearD s1
      let s3 := s2.modVf b.part v fun f =>
        { f with moving := some (4, pk.addr), mblk := pk.addr, dring := dwIn ws 2, dnslot := (dwIn ws 3).toNat, dtail := dwIn ws 4,
                 dovf := false, dpages := [] }
      .ack ((s3.dropDirty b.part v).raiseFor b.part ctx v) ackOk

/-- What COLLECT does (R543). -/
def doCollect (n ses : Nat) (b : Behalf) (pk : Packet) (s : State) : Performed :=
  s.migrationBlock n ses b pk fun s1 p v _ =>
    let ctx := s1.vfCtx p v
    let s2 := ((s1.vf b.part v).dpages.filterMap (s1.leafOfPage p ctx)).foldl State.clearD s1
    .ack ((s2.modVf b.part v fun f => { f with moving := some (5, pk.addr), dpages := [] }).raiseFor b.part ctx v) ackOk

/-- What PAUSE does (R544): the scheduler takes its steps. -/
def doPause (n ses : Nat) (b : Behalf) (pk : Packet) (s : State) : Performed :=
  s.migrationBlock n ses b pk fun s1 _ v _ =>
    .ack ((s1.modVf b.part v fun f => { f with moving := some (6, pk.addr), pause := 1 }).postOnce (.taskLaunch b.part)) ackOk

/-- Ports that are bound to a virtual function. -/
def State.portsOf (s : State) (part v : Nat) : List Nat :=
  (s.ports.filter fun (e : Nat × Port) => match e.2.bind with
    | some bd => bd.part = part && bd.vf = v
    | none => false).map (·.1)

/-- What RELEASE does (R545). -/
def doRelease (n ses : Nat) (b : Behalf) (pk : Packet) (s : State) : Performed :=
  s.migrationBlock n ses b pk fun s1 _ v _ =>
    if (s1.vf b.part v).pause != 3 then .ack s ackRefused
    else
      let s2 := ((s1.portsOf b.part v).filter (· < hostPort)).foldl (fun x k => x.endBinding k (some (b.part, v))) s1
      let s3 := s2.modVf b.part v fun f => { f with released := true, tracking := false }
      .ack (s3.migrationDone b.part v pk.addr) ackOk

end Sys2Proof.Machine
end

