-- ==== Sys2Proof/Machine/Ports.lean ====
section
/-! DEFINITION. Sys2Proof/Machine/Ports.lean: what arrives at a port: HELLO, ACK and the numbered packets (R529 to R533), the
retransmission timeout (R531), egress descriptors (R536, R537), and the links of ports (R533). -/

namespace Sys2Proof.Machine

/-! ### Performing a packet -/

/-- The reserved bits of a packet are not zero, or its VF is one that is never valid (Table 21.3). -/
def badHeader (pk : Packet) (n : Nat) : Bool :=
  pk.reserved != 0 || maxPayload < pk.payload.length || (hostPort ≤ n && 1024 ≤ pk.vf.toNat && pk.vf.toNat != supervisorVf)

/-- The features that a packet needs (Table 21.4, R530, R532). -/
def featureOf (pk : Packet) : Option Nat :=
  let k := pk.kind.toNat
  if k = kindAtomic then some featAtomic else if k = kindAppend then some featAppend else if k = kindBlock then some featBlock
  else if k = kindMgmt && 4 ≤ bits pk.arg 7 0 && bits pk.arg 7 0 ≤ 7 then some featMigrate else none

/-- A MGMT packet may be served: on a supervisor session of a host port (R532). -/
def mgmtOk (n : Nat) (b : Behalf) (pk : Packet) : Bool := hostPort ≤ n && b.vf.isNone && pk.arg.toNat < 256

/-- A MGMT exchange by its subcode (Table 21.7). -/
def doMgmt (n ses : Nat) (b : Behalf) (pk : Packet) (s : State) : Performed :=
  if !mgmtOk n b pk then .ack s ackRefused
  else
    match bits pk.arg 7 0 with
    | 1 => doBind n ses b pk s
    | 2 => doUnbind b pk s
    | 3 => doGibenAttest pk s
    | 4 => doTrack n ses b pk s
    | 5 => doCollect n ses b pk s
    | 6 => doPause n ses b pk s
    | 7 => doRelease n ses b pk s
    | _ => .ack s ackRefused

/-- What a packet of a session in its turn does, by its kind. -/
def doKind (n ses : Nat) (b : Behalf) (pk : Packet) (s : State) : Performed :=
  match pk.kind.toNat with
  | 0x10 => doWrite n ses b pk s
  | 0x11 => doRead n ses b pk s
  | 0x12 => .ack s ackOk
  | 0x13 => doAtomic n ses b pk s
  | 0x14 => doCadd n ses b pk s
  | 0x15 => doAppend n ses b pk s
  | 0x16 => doBlock n ses b pk s
  | 0x20 => doMgmt n ses b pk s
  | _ => .ack s ackRefused

/-- A packet of an open session performed in its turn (R529, R530, R544, R545). -/
def State.performPacket (s : State) (n ses : Nat) (x : Session) (pk : Packet) : Performed :=
  if s.moved n x then .ack s ackMoved
  else
    match s.behalf n x with
    | none => .ack s ackRefused
    | some b =>
      let off := match featureOf pk with
        | some f => !x.feat.getLsbD f
        | none => false
      if badHeader pk n || pk.ver.toNat != x.ver || off then .ack s ackRefused
      else if s.paused b && pausable pk.kind.toNat then .ack s ackBusy
      else doKind n ses b pk s

/-- The packet that was next is behind; its answer goes out (R531). BUSY acknowledges nothing. -/
def answered (n ses : Nat) (pk : Packet) : Performed → State
  | .held s1 => s1
  | .again s1 => s1.postAt (s1.time + 1) (turnOf n ses)
  | .ack s1 code =>
    match s1.session n ses with
    | none => s1
    | some y =>
      let y1 := { y with held := ldel y.held pk, next := if code = ackBusy then y.next else y.next + 1 }
      (s1.setSession n ses y1).emit n (y1.ackPacket ses code)
  | .rsp s1 bs =>
    match s1.session n ses with
    | none => s1
    | some y => (s1.setSession n ses { y with held := ldel y.held pk, next := y.next + 1 }).sendNumbered n ses kindReadrsp 0 0 bs

/-- The packets that a session holds are performed in ascending SEQ order, up to one that is not there or does not finish. -/
def State.runHeld (n ses : Nat) : Nat → State → State
  | 0, s => s
  | m + 1, s =>
    match s.session n ses with
    | none => s
    | some x =>
      match x.held.find? fun pk => pk.seq = x.next with
      | none => s
      | some pk =>
        let s1 := answered n ses pk (s.performPacket n ses x pk)
        match s1.session n ses with
        | none => s1
        | some y => if y.next = x.next then s1 else State.runHeld n ses m s1

/-- The packets of a session that can be performed are. -/
def State.sessionTurn (s : State) (n ses : Nat) : State :=
  match s.session n ses with
  | none => s
  | some x => State.runHeld n ses (x.held.length + 1) s

/-! ### Arrival -/

/-- The frame reaches nobody: there is no such port, its link is down, or the module is not up. -/
def State.portOff (s : State) (n : Nat) : Bool := portCount ≤ n || (s.port n).down || s.boot != .ready

/-- A packet of a session that is good on its face: its reserved bits are zero and its VER is the agreed one (R529, R530). -/
def goodPacket (n : Nat) (x : Session) (pk : Packet) : Bool := !badHeader pk n && pk.ver.toNat = x.ver

/-- What a packet acknowledges leaves the retransmission buffer, when the packet is good. -/
def State.advanceBy (s : State) (n : Nat) (pk : Packet) : State :=
  match s.session n pk.session.toNat with
  | some x => if goodPacket n x pk then s.advance n pk.session.toNat pk.ack else s
  | none => s

/-- A numbered packet arrives (R531): it is held until its turn; one below its turn is acknowledged and not performed. A packet of
a session that is not open is refused. `mine` says that the packet is one of the act's kind. -/
def State.numbered (s : State) (n : Nat) (pk : Packet) (mine : Bool) : Host.Outcome State Fault Refusal :=
  let ses := pk.session.toNat
  if s.portOff n || !mine then .next s
  else
    let s1 := s.advanceBy n pk
    match s1.session n ses with
    | none => .next (s1.emit n (refusal pk))
    | some x =>
      if seqBelow pk.seq x.next then .next (s1.emit n (x.ackPacket ses ackOk))
      else if x.held.any fun k => k.seq = pk.seq then .next s1
      else .next ((s1.setSession n ses { x with held := x.held ++ [pk] }).sessionTurn n ses)

/-- The packet is of a kind, or of a MGMT subcode. -/
def isKind (pk : Packet) (k : Nat) : Bool := pk.kind.toNat = k
def isSub (pk : Packet) (k : Nat) : Bool := pk.kind.toNat = kindMgmt && bits pk.arg 7 0 = k

/-- The kind of a packet is none of Table 21.4, or its MGMT subcode none of Table 21.7. -/
def noKind (pk : Packet) : Bool :=
  !([kindHello, kindAck, kindWrite, kindRead, kindReadrsp, kindAtomic, kindCadd, kindAppend, kindBlock, kindMgmt].contains pk.kind.toNat) ||
  (isKind pk kindMgmt && (bits pk.arg 7 0 = 0 || 7 < bits pk.arg 7 0))

/-- GIBEN_WRITE (R533). -/
def execGibenWrite (port : Nat) (pk : Packet) (s : State) : Host.Outcome State Fault Refusal := s.numbered port pk (isKind pk kindWrite)

/-- GIBEN_READ (R533). -/
def execGibenRead (port : Nat) (pk : Packet) (s : State) : Host.Outcome State Fault Refusal := s.numbered port pk (isKind pk kindRead)

/-- READRSP (R529): the module reads nothing from a peer, so a response is acknowledged. -/
def execReadrsp (port : Nat) (pk : Packet) (s : State) : Host.Outcome State Fault Refusal := s.numbered port pk (isKind pk kindReadrsp)

/-- GIBEN_ATOMIC (R533). -/
def execGibenAtomic (port : Nat) (pk : Packet) (s : State) : Host.Outcome State Fault Refusal := s.numbered port pk (isKind pk kindAtomic)

/-- GIBEN_CADD (R165). -/
def execGibenCadd (port : Nat) (pk : Packet) (s : State) : Host.Outcome State Fault Refusal := s.numbered port pk (isKind pk kindCadd)

/-- APPEND (R534). -/
def execAppend (port : Nat) (pk : Packet) (s : State) : Host.Outcome State Fault Refusal := s.numbered port pk (isKind pk kindAppend)

/-- GIBEN_BLOCK (R538). -/
def execGibenBlock (port : Nat) (pk : Packet) (s : State) : Host.Outcome State Fault Refusal := s.numbered port pk (isKind pk kindBlock)

/-- BIND (R528). -/
def execBind (port : Nat) (pk : Packet) (s : State) : Host.Outcome State Fault Refusal := s.numbered port pk (isSub pk 1)

/-- UNBIND (R528). -/
def execUnbind (port : Nat) (pk : Packet) (s : State) : Host.Outcome State Fault Refusal := s.numbered port pk (isSub pk 2)

/-- GIBEN_ATTEST (R532). -/
def execGibenAttest (port : Nat) (pk : Packet) (s : State) : Host.Outcome State Fault Refusal := s.numbered port pk (isSub pk 3)

/-- TRACK (R542). -/
def execTrack (port : Nat) (pk : Packet) (s : State) : Host.Outcome State Fault Refusal := s.numbered port pk (isSub pk 4)

/-- COLLECT (R543). -/
def execCollect (port : Nat) (pk : Packet) (s : State) : Host.Outcome State Fault Refusal := s.numbered port pk (isSub pk 5)

/-- PAUSE (R544). -/
def execPause (port : Nat) (pk : Packet) (s : State) : Host.Outcome State Fault Refusal := s.numbered port pk (isSub pk 6)

/-- RELEASE (R545). -/
def execRelease (port : Nat) (pk : Packet) (s : State) : Host.Outcome State Fault Refusal := s.numbered port pk (isSub pk 7)

/-- GIBEN_UNASSIGNED_KIND (R529): answered by REFUSED. -/
def execGibenUnassignedKind (port : Nat) (pk : Packet) (s : State) : Host.Outcome State Fault Refusal := s.numbered port pk (noKind pk)

/-! ### HELLO and ACK (R530, R531) -/

/-- Dword `i` of a HELLO's payload. -/
def helloDw (pk : Packet) (i : Nat) : Nat := natOf ((pk.payload.drop (8 * i)).take 8)

/-- The version that both sides have (R530); none where there is none. -/
def agreedVersion (lo hi : Nat) : Option Nat := if max lo 1 ≤ min hi 2 then some (min hi 2) else none

/-- The features in effect (R530). -/
def agreedFeatures (ver word : Nat) : BitVec 4 := BitVec.ofNat 4 (if ver < 2 then word % 4 else word)

/-- Whom a HELLO opens a session for (R530): partition and virtual function. -/
def State.helloFor (s : State) (n : Nat) (pk : Packet) : Option (Nat × Option Nat) :=
  if n < hostPort then (s.port n).actsFor.map fun x => (x.1, some x.2)
  else
    match tget s.parts pk.arg.toNat with
    | none => none
    | some p =>
      let v := pk.vf.toNat
      if v = supervisorVf then some (pk.arg.toNat, none)
      else if s.vfValid p v then some (pk.arg.toNat, some v) else none

/-- The module's answer to a HELLO that opens a session: versions 1 and 2, every feature. -/
def helloAnswer (pk : Packet) (ver : Nat) : Packet :=
  { session := pk.session, vf := pk.vf, reserved := 0, kind := BitVec.ofNat 8 kindHello, ver := BitVec.ofNat 8 ver, seq := 0, ack := 0,
    arg := 0, addr := 0, payload := bytesOf 8 1 ++ bytesOf 8 2 ++ bytesOf 8 0xF }

/-- A HELLO that is refused before its versions are looked at. -/
def helloBad (n : Nat) (pk : Packet) : Bool :=
  maxSessions ≤ pk.session.toNat || pk.payload.length != 24 || badHeader pk n

/-- HELLO (R530): it opens a session, or opens it afresh; or it is refused. -/
def execHello (port : Nat) (pk : Packet) (s : State) : Host.Outcome State Fault Refusal :=
  let ses := pk.session.toNat
  if s.portOff port || !isKind pk kindHello then .next s
  else
    match s.helloFor port pk, agreedVersion (helloDw pk 0) (helloDw pk 1) with
    | some (part, vf), some ver =>
      let x : Session := { part := part, vf := vf, ver := ver, feat := agreedFeatures ver (helloDw pk 2) }
      if s.moved port x then .next (s.emit port { refusal pk with arg := BitVec.ofNat 64 ackMoved })
      else if helloBad port pk then .next (s.emit port (refusal pk))
      else
        let s1 := (s.closeSession port ses 1).setSession port ses x
        .next (((s1.modPort port fun y => { y with lost := false }).emit port (helloAnswer pk ver)).postOnce (.egressDescriptor port))
    | _, _ => .next (s.emit port (refusal pk))

/-- GIBEN_ACK (R531, R537): BUSY acknowledges nothing; MOVED closes the session; REFUSED is the outcome of its descriptor. One of a
session that is not open, or that is not good, is refused (R529, R530). -/
def execGibenAck (port : Nat) (pk : Packet) (s : State) : Host.Outcome State Fault Refusal :=
  let ses := pk.session.toNat
  if s.portOff port || !isKind pk kindAck then .next s
  else
    match s.session port ses with
    | none => .next (s.emit port (refusal pk))
    | some x =>
      if !goodPacket port x pk then .next (s.emit port (refusal pk))
      else
        match bits pk.arg 7 0 with
        | 1 => .next (s.setSession port ses { x with busy := true })
        | 2 => .next (s.closeSession port ses 3)
        | 3 =>
          let s1 := s.modPort port fun y => { y with egress := y.egress.map fun g =>
            if g.session = ses && g.res.isNone && seqBelow g.first pk.ack then { g with res := some 2 } else g }
          .next (s1.advance port ses pk.ack)
        | _ => .next (s.advance port ses pk.ack)

/-- RETRANSMIT_TIMEOUT (R531): what the session holds goes on; then, where the timeout has fallen due, every packet that is not
acknowledged is sent again, and the fifth timeout closes the session. -/
def execRetransmitTimeout (port session : Nat) (s : State) : Host.Outcome State Fault Refusal :=
  let s1 := s.sessionTurn port session
  match s1.session port session with
  | none => .next s1
  | some x =>
    match x.due with
    | none => .next s1
    | some d =>
      if s1.time < d || x.unacked.isEmpty then .next s1
      else
        let n := if x.busy then x.timeouts else x.timeouts + 1
        if maxTimeouts ≤ n then
          .next (((s1.modPort port fun y => { y with lost := true }).closeSession port session 1).postOnce (.egressDescriptor port))
        else
          let s2 := s1.armTimeout port session { x with timeouts := n, busy := false }
          .next (x.unacked.foldl (fun y pk => y.emit port pk) s2)

/-! ### Egress (R536, R537) -/

/-- OPK of a descriptor. -/
def opkWrite : Nat := 1
def opkCadd : Nat := 2
def opkBlock : Nat := 3

/-- The largest LEN of a WRITE or a BLOCK. -/
def maxEgress : Nat := 2 ^ 24

/-- A descriptor that is refused (R537). -/
def egressBad (d : Vector Word 8) : Bool :=
  let opk := d[0].toNat
  !(1 ≤ opk && opk ≤ 3) || (opk != opkCadd && (d[3].toNat % 4 != 0 || maxEgress < d[3].toNat)) || (opk = opkBlock && !bit d[4] 63)

/-- The open session that a port sends on: the lowest-numbered one. -/
def Port.sender (x : Port) : Option Nat := (x.sessions.map (·.1)).min?

/-- The packets of a descriptor: kind, ARG, ADDR, payload. `bs` is what it sends. -/
def egressPackets (d : Vector Word 8) (bs : List Byte) : List (Nat × Word × Word × List Byte) :=
  if d[0].toNat = opkCadd then [(kindCadd, d[3], d[2], [])]
  else
    let n := max 1 ((bs.length + maxPayload - 1) / maxPayload)
    (upto n).map fun i =>
      (if d[0].toNat = opkBlock then kindBlock else kindWrite, if d[0].toNat = opkBlock && i + 1 = n then d[4] else 0,
       d[2] + BitVec.ofNat 64 (maxPayload * i), (bs.drop (maxPayload * i)).take maxPayload)

/-- The packets of the descriptor under way sent. -/
def State.sendEgress (s : State) (n : Nat) (g : Egress) (bs : List Byte) : State :=
  let s1 := (egressPackets g.desc bs).foldl (fun x (k, a, va, b) => x.sendNumbered n g.session k a va b) s
  match s1.session n g.session with
  | none => s1
  | some x => (s1.modPort n fun y => { y with egress := some { g with sent := true, last := x.seq } }).checkEgress n g.session

/-- Places that a port has read at their home slices: the lines are used there, and no remote copy of its field stays that could be
older (R149, R381, log 51). -/
def State.portRead (s : State) (n ctx : Nat) (l : List (Word × Nat × Nat)) : State :=
  l.foldl (fun x p => if isPad p.2.1 then x else (x.dropRdcOver (fieldOfPort n) p.1 p.2.2 ctx).touchL2 p.2.1 ctx) s

/-- The descriptor under way goes on: its reads, then its packets. -/
def State.egressRun (s : State) (n : Nat) (b : Binding) (g : Egress) : State :=
  match s.session n g.session with
  | none => s.egressDone n 1
  | some x =>
    if egressBad g.desc || (g.desc[0].toNat = opkBlock && !x.feat.getLsbD featBlock) || g.res.isSome then s.egressDone n 2
    else if g.desc[0].toNat = opkCadd then s.sendEgress n { g with first := x.seq } []
    else
      let ps := pieces g.desc[1] g.desc[3].toNat
      match s.reachEach (.egressDescriptor n) true b.part b.ctx (ps.map fun y => (y.1, .read)) with
      | .bad s1 => s1.egressDone n 2
      | .held s1 => s1
      | .ok s1 l =>
        let at_ := l.zip (ps.map fun y => y.2.2)
        if s1.lostIn at_ then (s1.assayIn at_).egressDone n 2
        else
          (s1.portRead n b.ctx ((ps.zip at_).map fun y => (y.1.1, y.2.1, y.2.2))).sendEgress n { g with first := x.seq }
            (at_.flatMap fun y => s1.bytesAt y.1 y.2)

/-- A descriptor as its place holds it: a dword that is lost reads as 0, and RES is then REFUSED, as it is where the descriptor has no
place (R537). -/
def State.egressAt (s : State) (ses : Option Nat) (place : Word) (dp : Option Nat) : Egress :=
  let lost := fun (i : Nat) => dp.all fun a => s.lostAt (a + 8 * i) 8
  { place := place, session := ses.getD maxSessions
    desc := Vector.ofFn fun i : Fin 8 => if lost i.val then 0 else s.dwAt (dp.getD 0 + 8 * i.val)
    res := if (upto 7).any lost then some 2 else none }

/-- EGRESS_DESCRIPTOR (R536): the port takes the next descriptor of its ring, in ring order, and writes EHEAD; then its packets
are sent. ETAIL is read as an acquire at .system, which flashes the cache of the port's field (R385). Without a session the descriptor
waits, or ends with TIMEOUT after a session was lost, until a new one opens (R537). -/
def execEgressDescriptor (port : Nat) (s : State) : Host.Outcome State Fault Refusal :=
  let x := s.port port
  let act := Instr.egressDescriptor port
  match x.bind with
  | none => .next s
  | some b =>
    match x.egress with
    | some g => .next (if g.sent || x.down then s else s.egressRun port b g)
    | none =>
      let ses := if x.lost then none else x.sender
      if ses.isNone && !x.lost then .next s
      else
        match s.reachEach act false b.part b.ctx [(b.etail, .read)] with
        | .ok s0 [tp] =>
          let s1 := (s0.touchL2 tp b.ctx).flashRdc (fieldOfPort port)
          if s1.lostAt tp 8 then .next (s1.assayAt tp)
          else if s1.dwAt tp = b.ehead then .next s1
          else
            let place := b.ering + BitVec.ofNat 64 (64 * (b.ehead.toNat % b.enslot))
            match s1.reachAll act b.part b.ctx [(place, .read), (b.pbb + 0x38, .write)] with
            | (s2, some [dp, hp]) =>
              let g := s2.egressAt ses place dp
              let s3 := s2.portRead port b.ctx ((dp.map fun a => (place, a, 64)).toList)
              let s4 := (s3.modPort port fun y => { y with bind := some { b with ehead := b.ehead + 1 }, egress := some g }).assayIn
                ((dp.map fun a => (a, 64)).toList)
              .next (((s4.dropRdc (fieldOfPort port) (b.pbb + 0x38) b.ctx).putReach b.ctx (some hp)
                (bytesOf 8 (b.ehead + 1).toNat)).egressRun port b g)
            | (s2, _) => .next s2
        | .held s1 => .next s1
        | .bad s1 => .next s1
        | _ => .next s

/-- EGRESS_COMPLETE (R536): RES is written, then ADDV is added to CTR, as a release at .system. -/
def execEgressComplete (port : Nat) (res : Fin 4) (s : State) : Host.Outcome State Fault Refusal :=
  match (s.port port).bind, (s.port port).egress with
  | some b, some g =>
    if g.res != some res.val then .next s
    else
      let ctr := g.desc[5]
      let want := (g.place + 0x38, Acc.write) :: if ctrBad ctr || ctr = 0 then [] else [(ctr, Acc.rmw)]
      match s.reachAll (.egressComplete port res) b.part b.ctx want with
      | (s1, none) => .next s1
      | (s1, some places) =>
        let s2 := (s1.dropRdc (fieldOfPort port) (g.place + 0x38) b.ctx).putReach b.ctx places[0]? (bytesOf 8 res.val)
        let s3 := match places[1]?.join with
          | some pa => s2.portAdd port b.ctx ctr pa g.desc[6]
          | none => s2
        .next ((s3.modPort port fun x => { x with egress := none }).postOnce (.egressDescriptor port))
  | _, _ => .next s

/-! ### Links (R533) -/

/-- PORT_LINK_DOWN: frames to and from the port are lost until the link comes back; the other host port serves its partitions. -/
def execPortLinkDown (port : Nat) (s : State) : Host.Outcome State Fault Refusal :=
  .next (if portCount ≤ port then s else s.modPort port fun x => { x with down := true })

/-- PORT_LINK_UP: the port serves again. -/
def execPortLinkUp (port : Nat) (s : State) : Host.Outcome State Fault Refusal :=
  .next (if portCount ≤ port then s else (s.modPort port fun x => { x with down := false }).postOnce (.egressDescriptor port))

end Sys2Proof.Machine
end

