-- ==== Sys2Proof/Machine/Timer.lean ====
section
/-! DEFINITION. Sys2Proof/Machine/Timer.lean: TIME and what falls due. -/

namespace Sys2Proof.Machine

/-- Events that have fallen due by TIME move into the agenda, in the order in which they were set. -/
def State.fire (s : State) : State :=
  let due := s.timers.filter fun e => e.1 ≤ s.time
  let s1 := { s with timers := s.timers.filter fun e => !(e.1 ≤ s.time) }
  s1.postAll (due.map (·.2))

/-- Rings with descriptors or entries that wait for room are tried again (R396, R479). -/
def State.flushRings (s : State) : State :=
  let s1 := (s.fields.filter fun e => !e.2.descs.isEmpty).foldl (fun x e =>
    match x.partOfField e.1 with
    | some (_, p) => x.flushDescs p e.1 (x.field e.1).descs
    | none => x) s
  (s1.parts.filter fun e => !e.2.proms.isEmpty).foldl (fun x e => x.flushProms e.1 e.2 e.2.proms) s1

/-- A word of an L1 line that an error has made uncorrectable. -/
def L1Line.spoil (l : L1Line) (va : Word) : L1Line :=
  let w := BitVec.ofNat 32 (2 ^ bits va 6 2)
  if l.va = lineVa va then { l with bad := l.bad ||| (w &&& l.valid) } else l

/-- A tag of an L1 line that cannot be corrected: the line goes, and the grids of the strands on the slots of its writer mask end
(Table 9.2). -/
def State.loseTag (s : State) (c : Nat) (l : L1Line) : State :=
  let s1 := (s.modCore c fun x => { x with l1 := ldel x.l1 l, poison := sat16 (x.poison + 1) }).postOnce (.assay (.coreBank c (l1Set l.va)))
  ((upto 4).filter fun i => l.mask.getLsbD i).foldl (fun y i =>
    let k := c * 4 + i
    match (tget y.slots k).bind fun sl => tget y.strands sl.uid with
    | some t => y.endGrid k 0 t.pc t.hdr
    | none => y) s1

/-- Wrong 16-bit symbols of one block: an error within one symbol is corrected; the words of two or more are uncorrectable (R462). -/
def State.strikeSymbols (s : State) (l : List Nat) : State :=
  match (l.map (· / 2)).dedup with
  | [] => s
  | [x] => s.modField (fieldOfPa (2 * x)) fun f => { f with corrected := f.corrected + 1 }
  | xs => { s with uncorr := xs.foldl (fun u x => insertNat u (2 * x / 8)) s.uncorr }

/-- An uncorrectable side band makes the whole 128-byte block uncorrectable (R462). -/
def State.strikeBlock (s : State) (pa : Nat) : State :=
  { s with uncorr := (upto 16).foldl (fun u i => insertNat u (pa / 128 * 16 + i)) s.uncorr }

/-- A bit of a row's counter, or its parity bit, flips (R465). -/
def Row.flip (x : Row) (i : Nat) : Row :=
  if i = 11 then { x with parity := !x.parity } else { x with count := x.count ^^^ BitVec.ofNat 11 (2 ^ i) }

/-- An error strikes (R173, R256, R296, R380, R383, R403, R462, R465). -/
def State.strike (s : State) : Upset → State
  | .corrected c => s.modCore c fun x => { x with corr := x.corr + 1 }
  | .sliceCorrected f => s.modField f fun x => { x with corrected := x.corrected + 1 }
  | .l1Word c va => s.modCore c fun x => { x with l1 := x.l1.map fun l => l.spoil va }
  | .l1Tag c va =>
    match (s.core c).l1.find? fun l => l.va = lineVa va with
    | some l => s.loseTag c l
    | none => s
  | .register k => s.modSlot k fun sl => { sl with badReg := true }
  | .word pa => { s with uncorr := insertNat s.uncorr (pa / 8) }
  | .rdcLine f va =>
    (s.modField f fun x => { x with rdc := x.rdc.filter fun l => l.va != lineVa va }).postOnce (.assay (.rdcRow f (bits va 24 7)))
  | .dram pa => s.modField (fieldOfPa pa) fun x => { x with stuck := insertNat x.stuck pa }
  | .symbols l => s.strikeSymbols l
  | .sideBand pa => s.strikeBlock pa
  | .rowBit r i => { s with rows := rowPut s.rows r ((rowFind s.rows r).flip i) }
  | .padCorrected t => s.modTile t fun x => { x with corrected := x.corrected + 1 }
  | .lost k n => s.modSlot k fun sl => { sl with lost := sl.lost.orElse fun _ => some { n := n } }
  | .lostEngine t u n => s.modTile t fun x =>
      { x with jobs := x.jobs.map fun j => if j.u = u then { j with lost := j.lost.orElse fun _ => some { n := n } } else j }
  | .lostCopy t c n w => s.modTile t fun x =>
      { x with copies := tmod x.copies c fun q => if q.lost.isSome then q else { q with lost := some { n := n }, lostWrite := w } }
  | .lostAdd t n => s.modTile t fun x => { x with addLost := x.addLost.orElse fun _ => some { n := n } }

/-- The next error of the input, if one is listed (log 45). -/
def State.strikeNext (s : State) : State :=
  match s.upsets with
  | [] => s
  | u :: r => ({ s with upsets := r } : State).strike u

/-! ### Moves of records (R47, R160, R438) -/

/-- A record may move to a tile: it rests with its place in the strand area and waits for no token; the tile is another good one of
its partition; gateway strands stay (R528), and so does a strand whose context owns a VALID tree on its home tile (R345). -/
def State.mayMove (s : State) (t : Strand) (tile : Nat) : Bool :=
  let rests := match t.place with
    | .ready _ => true
    | .waiting => t.waitK != .token
    | _ => false
  let ctx := (tget s.tasks t.task).map (·.ctx)
  rests && t.area.isSome && t.ovf = 0 && tile != t.home && !isGateway t.home && !isGateway tile && (s.tile tile).good &&
  ((tget s.parts t.part).map fun p => p.fields.any fun e => e.1 = fieldOfTile tile).getD false &&
  !((s.tile t.home).trees.any fun e => e.2.valid && e.2.part = t.part && ctx = some e.2.owner)

/-- A record moved to another tile: it is homed there, its next pick-up acquires at a scope that contains both positions (R160),
a queued one goes onto the new tile's queue with the time that it has waited, and the old tile may return tokens (R438). -/
def State.moveRecord (s : State) (u tile : Nat) : State :=
  match tget s.strands u with
  | none => s
  | some t =>
    if !s.mayMove t tile then s
    else
      let old := t.home
      let s1 := (s.offReady u old).setStrand u
        { t with home := tile, acq := widerScope t.acq (scopeOfTiles (tileOfSlot t.stood) tile) }
      let s2 := match t.place with
        | .ready _ => (s1.toReady u tile).modStrand u fun x => { x with since := t.since, aged := t.aged }
        | _ => s1
      if s2.strands.any fun e => e.2.task = t.task && e.2.home = old then s2 else s2.postOnce (.taskEndReturn old)

/-- The next move of the input, if one is listed (log 62). -/
def State.moveNext (s : State) : State :=
  match s.moves with
  | [] => s
  | (u, tile) :: r => ({ s with moves := r } : State).moveRecord u tile

/-- TIME_TICK (R6): TIME rises by 1. -/
def execTimeTick (s : State) : Host.Outcome State Fault Refusal :=
  .next (({ s with time := s.time + 1 }.fire.flushRings.strikeNext.moveNext).postOnce .timeTick)

end Sys2Proof.Machine
end

