-- ==== Sys2Proof/Machine/Dispatch.lean ====
section
/-! DEFINITION. Sys2Proof/Machine/Dispatch.lean: exec, one arm for each constructor of Instr. -/

namespace Sys2Proof.Machine

/-- The meaning of each operation and act: one direct call of its definition. -/
def exec (i : Instr) (s : State) : Host.Outcome State Fault Refusal :=
  match i with
  | .addR k d a b m => Sys2Proof.Machine.execAddR k d a b m s
  | .addI k d a imm => Sys2Proof.Machine.execAddI k d a imm s
  | .sub k d a b m => Sys2Proof.Machine.execSub k d a b m s
  | .mulR k d a b m => Sys2Proof.Machine.execMulR k d a b m s
  | .mulI k d a imm => Sys2Proof.Machine.execMulI k d a imm s
  | .mulh k d a b m => Sys2Proof.Machine.execMulh k d a b m s
  | .mulhu k d a b m => Sys2Proof.Machine.execMulhu k d a b m s
  | .div k d a b m => Sys2Proof.Machine.execDiv k d a b m s
  | .divu k d a b m => Sys2Proof.Machine.execDivu k d a b m s
  | .rem k d a b m => Sys2Proof.Machine.execRem k d a b m s
  | .remu k d a b m => Sys2Proof.Machine.execRemu k d a b m s
  | .andR k d a b m => Sys2Proof.Machine.execAndR k d a b m s
  | .andI k d a imm => Sys2Proof.Machine.execAndI k d a imm s
  | .orR k d a b m => Sys2Proof.Machine.execOrR k d a b m s
  | .orI k d a imm => Sys2Proof.Machine.execOrI k d a imm s
  | .xorR k d a b m => Sys2Proof.Machine.execXorR k d a b m s
  | .xorI k d a imm => Sys2Proof.Machine.execXorI k d a imm s
  | .andn k d a b m => Sys2Proof.Machine.execAndn k d a b m s
  | .orn k d a b m => Sys2Proof.Machine.execOrn k d a b m s
  | .xnor k d a b m => Sys2Proof.Machine.execXnor k d a b m s
  | .shlR k d a b m => Sys2Proof.Machine.execShlR k d a b m s
  | .shlI k d a imm => Sys2Proof.Machine.execShlI k d a imm s
  | .shrR k d a b m => Sys2Proof.Machine.execShrR k d a b m s
  | .shrI k d a imm => Sys2Proof.Machine.execShrI k d a imm s
  | .sarR k d a b m => Sys2Proof.Machine.execSarR k d a b m s
  | .sarI k d a imm => Sys2Proof.Machine.execSarI k d a imm s
  | .rotlR k d a b m => Sys2Proof.Machine.execRotlR k d a b m s
  | .rotlI k d a imm => Sys2Proof.Machine.execRotlI k d a imm s
  | .clz k d a m => Sys2Proof.Machine.execClz k d a m s
  | .ctz k d a m => Sys2Proof.Machine.execCtz k d a m s
  | .popc k d a m => Sys2Proof.Machine.execPopc k d a m s
  | .brev k d a m => Sys2Proof.Machine.execBrev k d a m s
  | .minR k d a b m => Sys2Proof.Machine.execMinR k d a b m s
  | .minI k d a imm => Sys2Proof.Machine.execMinI k d a imm s
  | .maxR k d a b m => Sys2Proof.Machine.execMaxR k d a b m s
  | .maxI k d a imm => Sys2Proof.Machine.execMaxI k d a imm s
  | .minuR k d a b m => Sys2Proof.Machine.execMinuR k d a b m s
  | .minuI k d a imm => Sys2Proof.Machine.execMinuI k d a imm s
  | .maxuR k d a b m => Sys2Proof.Machine.execMaxuR k d a b m s
  | .maxuI k d a imm => Sys2Proof.Machine.execMaxuI k d a imm s
  | .abs k d a m => Sys2Proof.Machine.execAbs k d a m s
  | .addsat k d a b m u => Sys2Proof.Machine.execAddsat k d a b m u s
  | .subsat k d a b m u => Sys2Proof.Machine.execSubsat k d a b m u s
  | .sext k d a w => Sys2Proof.Machine.execSext k d a w s
  | .zext k d a w => Sys2Proof.Machine.execZext k d a w s
  | .bfx k d a m pos lenm => Sys2Proof.Machine.execBfx k d a m pos lenm s
  | .bfi k d a b m pos lenm => Sys2Proof.Machine.execBfi k d a b m pos lenm s
  | .movR k d a w64 => Sys2Proof.Machine.execMovR k d a w64 s
  | .movI k d imm => Sys2Proof.Machine.execMovI k d imm s
  | .sel k d a b c m => Sys2Proof.Machine.execSel k d a b c m s
  | .cmpR k d a b w cc => Sys2Proof.Machine.execCmpR k d a b w cc s
  | .cmpI k d a cc imm => Sys2Proof.Machine.execCmpI k d a cc imm s
  | .scadd k d a b m sh => Sys2Proof.Machine.execScadd k d a b m sh s
  | .movw k d hw chunk => Sys2Proof.Machine.execMovw k d hw chunk s
  | .plog k d a b c tt => Sys2Proof.Machine.execPlog k d a b c tt s
  | .pany k d a b => Sys2Proof.Machine.execPany k d a b s
  | .pall k d a b => Sys2Proof.Machine.execPall k d a b s
  | .pcount k d a b => Sys2Proof.Machine.execPcount k d a b s
  | .fadd k d a b rnd ft => Sys2Proof.Machine.execFadd k d a b rnd ft s
  | .fsub k d a b rnd ft => Sys2Proof.Machine.execFsub k d a b rnd ft s
  | .fmul k d a b rnd ft => Sys2Proof.Machine.execFmul k d a b rnd ft s
  | .fma k d a b c rnd ft => Sys2Proof.Machine.execFma k d a b c rnd ft s
  | .fms k d a b c rnd ft => Sys2Proof.Machine.execFms k d a b c rnd ft s
  | .fnma k d a b c rnd ft => Sys2Proof.Machine.execFnma k d a b c rnd ft s
  | .fnms k d a b c rnd ft => Sys2Proof.Machine.execFnms k d a b c rnd ft s
  | .fdiv k d a b rnd ft => Sys2Proof.Machine.execFdiv k d a b rnd ft s
  | .fsqrt k d a rnd ft => Sys2Proof.Machine.execFsqrt k d a rnd ft s
  | .frcp k d a rnd ft => Sys2Proof.Machine.execFrcp k d a rnd ft s
  | .frsq k d a ft => Sys2Proof.Machine.execFrsq k d a ft s
  | .fexp2 k d a ft => Sys2Proof.Machine.execFexp2 k d a ft s
  | .flog2 k d a ft => Sys2Proof.Machine.execFlog2 k d a ft s
  | .ftanh k d a ft => Sys2Proof.Machine.execFtanh k d a ft s
  | .fmin k d a b ft => Sys2Proof.Machine.execFmin k d a b ft s
  | .fmax k d a b ft => Sys2Proof.Machine.execFmax k d a b ft s
  | .fabs k d a ft => Sys2Proof.Machine.execFabs k d a ft s
  | .fneg k d a ft => Sys2Proof.Machine.execFneg k d a ft s
  | .fcpys k d a b ft => Sys2Proof.Machine.execFcpys k d a b ft s
  | .fcmp k d a b ft cc => Sys2Proof.Machine.execFcmp k d a b ft cc s
  | .fclass k d a ft => Sys2Proof.Machine.execFclass k d a ft s
  | .fcvt k d a rnd ft fs => Sys2Proof.Machine.execFcvt k d a rnd ft fs s
  | .ftoi k d a rnd ft iw u => Sys2Proof.Machine.execFtoi k d a rnd ft iw u s
  | .itof k d a rnd ft iw u => Sys2Proof.Machine.execItof k d a rnd ft iw u s
  | .fround k d a rnd ft => Sys2Proof.Machine.execFround k d a rnd ft s
  | .vbcast k d a b w64 => Sys2Proof.Machine.execVbcast k d a b w64 s
  | .vshuf k d a sh w64 => Sys2Proof.Machine.execVshuf k d a sh w64 s
  | .vperm k d a b c w64 => Sys2Proof.Machine.execVperm k d a b c w64 s
  | .vslide k d a b c up w64 => Sys2Proof.Machine.execVslide k d a b c up w64 s
  | .vextr k d a b xs w64 => Sys2Proof.Machine.execVextr k d a b xs w64 s
  | .vins k d a b w64 => Sys2Proof.Machine.execVins k d a b w64 s
  | .vred k d a rop rnd m => Sys2Proof.Machine.execVred k d a rop rnd m s
  | .vscan k d a rop rnd ex w => Sys2Proof.Machine.execVscan k d a rop rnd ex w s
  | .vcompress k d a w64 => Sys2Proof.Machine.execVcompress k d a w64 s
  | .viota k d a w64 => Sys2Proof.Machine.execViota k d a w64 s
  | .bquant k d a ft wq => Sys2Proof.Machine.execBquant k d a ft wq s
  | .bdeq k d a rnd ft wq => Sys2Proof.Machine.execBdeq k d a rnd ft wq s
  | .ld k d a imm sz sx acq => Sys2Proof.Machine.execLd k d a imm sz sx acq s
  | .ldx k d a b sh sz sx acq => Sys2Proof.Machine.execLdx k d a b sh sz sx acq s
  | .st k d a imm sz rel => Sys2Proof.Machine.execSt k d a imm sz rel s
  | .ldv k d a imm sz sx => Sys2Proof.Machine.execLdv k d a imm sz sx s
  | .stv k d a imm sz => Sys2Proof.Machine.execStv k d a imm sz s
  | .ldg k d a b sh sz sx => Sys2Proof.Machine.execLdg k d a b sh sz sx s
  | .stsc k a b c sh sz => Sys2Proof.Machine.execStsc k a b c sh sz s
  | .pref k a imm l2 => Sys2Proof.Machine.execPref k a imm l2 s
  | .aop k d a b op ord sc w32 sx => Sys2Proof.Machine.execAop k d a b op ord sc w32 sx s
  | .acas k d a b c ord sc w32 sx => Sys2Proof.Machine.execAcas k d a b c ord sc w32 sx s
  | .afadd k d a b ord sc w32 => Sys2Proof.Machine.execAfadd k d a b ord sc w32 s
  | .cadd k a b sc => Sys2Proof.Machine.execCadd k a b sc s
  | .cwait k d a b sc => Sys2Proof.Machine.execCwait k d a b sc s
  | .ctest k d a b acq sc => Sys2Proof.Machine.execCtest k d a b acq sc s
  | .fence k kind sc => Sys2Proof.Machine.execFence k kind sc s
  | .split k => Sys2Proof.Machine.execSplit k s
  | .join k d => Sys2Proof.Machine.execJoin k d s
  | .spawn k d a b c => Sys2Proof.Machine.execSpawn k d a b c s
  | .yieldOp k => Sys2Proof.Machine.execYieldOp k s
  | .endOp k => Sys2Proof.Machine.execEndOp k s
  | .send k d a b c len8 => Sys2Proof.Machine.execSend k d a b c len8 s
  | .gcreate k d a b => Sys2Proof.Machine.execGcreate k d a b s
  | .gopen k d a b => Sys2Proof.Machine.execGopen k d a b s
  | .gleave k d => Sys2Proof.Machine.execGleave k d s
  | .gbar k d a wait => Sys2Proof.Machine.execGbar k d a wait s
  | .garrive k a => Sys2Proof.Machine.execGarrive k a s
  | .gdrop k d => Sys2Proof.Machine.execGdrop k d s
  | .gvote k d a b => Sys2Proof.Machine.execGvote k d a b s
  | .gred k d a b rop => Sys2Proof.Machine.execGred k d a b rop s
  | .ginfo k d a item => Sys2Proof.Machine.execGinfo k d a item s
  | .treq k d a all => Sys2Proof.Machine.execTreq k d a all s
  | .trel k d a => Sys2Proof.Machine.execTrel k d a s
  | .tlend k d a b => Sys2Proof.Machine.execTlend k d a b s
  | .tstat k d item => Sys2Proof.Machine.execTstat k d item s
  | .tdef k t b => Sys2Proof.Machine.execTdef k t b s
  | .tget k t b => Sys2Proof.Machine.execTget k t b s
  | .tdrop k t => Sys2Proof.Machine.execTdrop k t s
  | .copy k a sc => Sys2Proof.Machine.execCopy k a sc s
  | .copys k a b c sc => Sys2Proof.Machine.execCopys k a b c sc s
  | .mm k a tx ty acc => Sys2Proof.Machine.execMm k a tx ty acc s
  | .mmdist k a tx ty acc => Sys2Proof.Machine.execMmdist k a tx ty acc s
  | .mmtopk k a b tx ty dist => Sys2Proof.Machine.execMmtopk k a b tx ty dist s
  | .spcomp k d tx ty => Sys2Proof.Machine.execSpcomp k d tx ty s
  | .spmm k a b tx ty acc => Sys2Proof.Machine.execSpmm k a b tx ty acc s
  | .attn k d a b tx ty causal => Sys2Proof.Machine.execAttn k d a b tx ty causal s
  | .attmerge k a b tx ty => Sys2Proof.Machine.execAttmerge k a b tx ty s
  | .kvapp k d tx ty => Sys2Proof.Machine.execKvapp k d tx ty s
  | .kvlook k d a b tx v => Sys2Proof.Machine.execKvlook k d a b tx v s
  | .ttset k a tx => Sys2Proof.Machine.execTtset k a tx s
  | .ttmask k d a => Sys2Proof.Machine.execTtmask k d a s
  | .ttpos k d a depth => Sys2Proof.Machine.execTtpos k d a depth s
  | .ttprune k d a tx clr => Sys2Proof.Machine.execTtprune k d a tx clr s
  | .ttclr k => Sys2Proof.Machine.execTtclr k s
  | .vemap k a b tx => Sys2Proof.Machine.execVemap k a b tx s
  | .vezip k a b tx ty => Sys2Proof.Machine.execVezip k a b tx ty s
  | .vered k a b tx acc => Sys2Proof.Machine.execVered k a b tx acc s
  | .venorm k a b tx gain mean => Sys2Proof.Machine.execVenorm k a b tx gain mean s
  | .vesoft k a b tx => Sys2Proof.Machine.execVesoft k a b tx s
  | .vecvt k a tx rnd => Sys2Proof.Machine.execVecvt k a tx rnd s
  | .baddq k d a tx ty f32 => Sys2Proof.Machine.execBaddq k d a tx ty f32 s
  | .gwnext k d => Sys2Proof.Machine.execGwnext k d s
  | .mfs k d n => Sys2Proof.Machine.execMfs k d n s
  | .mts k n a => Sys2Proof.Machine.execMts k n a s
  | .writeClass k a => Sys2Proof.Machine.execWriteClass k a s
  | .writeFpst k a => Sys2Proof.Machine.execWriteFpst k a s
  | .writeRsp k a => Sys2Proof.Machine.execWriteRsp k a s
  | .writeStatus k a => Sys2Proof.Machine.execWriteStatus k a s
  | .writeDroopth k a => Sys2Proof.Machine.execWriteDroopth k a s
  | .writeCpwt k a => Sys2Proof.Machine.execWriteCpwt k a s
  | .readDroopcntCecnt k d cecnt => Sys2Proof.Machine.execReadDroopcntCecnt k d cecnt s
  | .trap k n => Sys2Proof.Machine.execTrap k n s
  | .brk k n => Sys2Proof.Machine.execBrk k n s
  | .rft k a b => Sys2Proof.Machine.execRft k a b s
  | .halt k => Sys2Proof.Machine.execHalt k s
  | .nop k => Sys2Proof.Machine.execNop k s
  | .tgen k d a b => Sys2Proof.Machine.execTgen k d a b s
  | .cinvCode k => Sys2Proof.Machine.execCinvCode k s
  | .cinvLine k a => Sys2Proof.Machine.execCinvLine k a s
  | .cinvRdc k a => Sys2Proof.Machine.execCinvRdc k a s
  | .scrub k a => Sys2Proof.Machine.execScrub k a s
  | .route k d a cls => Sys2Proof.Machine.execRoute k d a cls s
  | .unassignedOpcode w => Sys2Proof.Machine.execUnassignedOpcode w s
  | .blockEntry => Sys2Proof.Machine.execBlockEntry s
  | .longLatencyComplete slot => Sys2Proof.Machine.execLongLatencyComplete slot s
  | .vectorSideStart core => Sys2Proof.Machine.execVectorSideStart core s
  | .vectorResultReturn slot => Sys2Proof.Machine.execVectorResultReturn slot s
  | .leaseRequest core => Sys2Proof.Machine.execLeaseRequest core s
  | .leaseIdleReturn core => Sys2Proof.Machine.execLeaseIdleReturn core s
  | .droopWindowExpiry core => Sys2Proof.Machine.execDroopWindowExpiry core s
  | .droopHoldExit field => Sys2Proof.Machine.execDroopHoldExit field s
  | .storeBufferDrain slot => Sys2Proof.Machine.execStoreBufferDrain slot s
  | .memoryReply slot => Sys2Proof.Machine.execMemoryReply slot s
  | .homeSliceWrite core line => Sys2Proof.Machine.execHomeSliceWrite core line s
  | .counterAddition field => Sys2Proof.Machine.execCounterAddition field s
  | .overflowSweep field slice => Sys2Proof.Machine.execOverflowSweep field slice s
  | .faultSweep field => Sys2Proof.Machine.execFaultSweep field s
  | .tierPromotion field => Sys2Proof.Machine.execTierPromotion field s
  | .promotionComplete field => Sys2Proof.Machine.execPromotionComplete field s
  | .generationAck part => Sys2Proof.Machine.execGenerationAck part s
  | .generationSwitch part => Sys2Proof.Machine.execGenerationSwitch part s
  | .pickUp tile => Sys2Proof.Machine.execPickUp tile s
  | .putDown slot => Sys2Proof.Machine.execPutDown slot s
  | .stalledSaveResume part => Sys2Proof.Machine.execStalledSaveResume part s
  | .gatherEnd tile stream => Sys2Proof.Machine.execGatherEnd tile stream s
  | .privateFetchTurn tile => Sys2Proof.Machine.execPrivateFetchTurn tile s
  | .strandCreationContinue slot => Sys2Proof.Machine.execStrandCreationContinue slot s
  | .copyChunk tile => Sys2Proof.Machine.execCopyChunk tile s
  | .copyCompletion tile => Sys2Proof.Machine.execCopyCompletion tile s
  | .scrubberRun field => Sys2Proof.Machine.execScrubberRun field s
  | .rowBlockStart tile => Sys2Proof.Machine.execRowBlockStart tile s
  | .rowBlockEnd tile => Sys2Proof.Machine.execRowBlockEnd tile s
  | .engineIdleEnd tile => Sys2Proof.Machine.execEngineIdleEnd tile s
  | .groupPrioRaise uid => Sys2Proof.Machine.execGroupPrioRaise uid s
  | .floorRequest tile => Sys2Proof.Machine.execFloorRequest tile s
  | .placementGrant tile task => Sys2Proof.Machine.execPlacementGrant tile task s
  | .leaveRequest slot => Sys2Proof.Machine.execLeaveRequest slot s
  | .recallComplete tile => Sys2Proof.Machine.execRecallComplete tile s
  | .revocationNotice tile => Sys2Proof.Machine.execRevocationNotice tile s
  | .revocationComplete tile => Sys2Proof.Machine.execRevocationComplete tile s
  | .crucibleTopup field => Sys2Proof.Machine.execCrucibleTopup field s
  | .crucibleReclaim field => Sys2Proof.Machine.execCrucibleReclaim field s
  | .taskEndReturn tile => Sys2Proof.Machine.execTaskEndReturn tile s
  | .taskHeaderRead part vf queue => Sys2Proof.Machine.execTaskHeaderRead part vf queue s
  | .taskLaunch part => Sys2Proof.Machine.execTaskLaunch part s
  | .aging uid => Sys2Proof.Machine.execAging uid s
  | .priorityPreemption tile => Sys2Proof.Machine.execPriorityPreemption tile s
  | .timeSlicePreemption tile => Sys2Proof.Machine.execTimeSlicePreemption tile s
  | .preemption slot => Sys2Proof.Machine.execPreemption slot s
  | .gridStop task => Sys2Proof.Machine.execGridStop task s
  | .taskCompletion task => Sys2Proof.Machine.execTaskCompletion task s
  | .rollback task => Sys2Proof.Machine.execRollback task s
  | .assay part => Sys2Proof.Machine.execAssay part s
  | .bucketDecay core whole => Sys2Proof.Machine.execBucketDecay core whole s
  | .wholeCoreAssay core whole => Sys2Proof.Machine.execWholeCoreAssay core whole s
  | .detourRoute => Sys2Proof.Machine.execDetourRoute s
  | .islandRetirement field => Sys2Proof.Machine.execIslandRetirement field s
  | .occupancySnapshot field => Sys2Proof.Machine.execOccupancySnapshot field s
  | .refreshManagement stack pch bank => Sys2Proof.Machine.execRefreshManagement stack pch bank s
  | .refreshWindowEnd => Sys2Proof.Machine.execRefreshWindowEnd s
  | .haltRecord part => Sys2Proof.Machine.execHaltRecord part s
  | .timeTick => Sys2Proof.Machine.execTimeTick s
  | .assayEnd part pass => Sys2Proof.Machine.execAssayEnd part pass s
  | .deactivate part => Sys2Proof.Machine.execDeactivate part s
  | .retransmitTimeout port session => Sys2Proof.Machine.execRetransmitTimeout port session s
  | .egressDescriptor port => Sys2Proof.Machine.execEgressDescriptor port s
  | .egressComplete port res => Sys2Proof.Machine.execEgressComplete port res s
  | .setpool field total allow => Sys2Proof.Machine.execSetpool field total allow s
  | .powerGood links failed => Sys2Proof.Machine.execPowerGood links failed s
  | .thermalWarning => Sys2Proof.Machine.execThermalWarning s
  | .thermalShutdown => Sys2Proof.Machine.execThermalShutdown s
  | .readfuse => Sys2Proof.Machine.execReadfuse s
  | .loadfw image => Sys2Proof.Machine.execLoadfw image s
  | .attest nonce => Sys2Proof.Machine.execAttest nonce s
  | .setrth sector value => Sys2Proof.Machine.execSetrth sector value s
  | .loadkey slot key => Sys2Proof.Machine.execLoadkey slot key s
  | .activate pcb => Sys2Proof.Machine.execActivate pcb s
  | .links => Sys2Proof.Machine.execLinks s
  | .mgmtHalt part => Sys2Proof.Machine.execMgmtHalt part s
  | .mgmtResume part => Sys2Proof.Machine.execMgmtResume part s
  | .readbkt => Sys2Proof.Machine.execReadbkt s
  | .hello port pk => Sys2Proof.Machine.execHello port pk s
  | .gibenAck port pk => Sys2Proof.Machine.execGibenAck port pk s
  | .gibenWrite port pk => Sys2Proof.Machine.execGibenWrite port pk s
  | .gibenRead port pk => Sys2Proof.Machine.execGibenRead port pk s
  | .readrsp port pk => Sys2Proof.Machine.execReadrsp port pk s
  | .gibenAtomic port pk => Sys2Proof.Machine.execGibenAtomic port pk s
  | .gibenCadd port pk => Sys2Proof.Machine.execGibenCadd port pk s
  | .append port pk => Sys2Proof.Machine.execAppend port pk s
  | .gibenBlock port pk => Sys2Proof.Machine.execGibenBlock port pk s
  | .bind port pk => Sys2Proof.Machine.execBind port pk s
  | .unbind port pk => Sys2Proof.Machine.execUnbind port pk s
  | .gibenAttest port pk => Sys2Proof.Machine.execGibenAttest port pk s
  | .track port pk => Sys2Proof.Machine.execTrack port pk s
  | .collect port pk => Sys2Proof.Machine.execCollect port pk s
  | .pause port pk => Sys2Proof.Machine.execPause port pk s
  | .release port pk => Sys2Proof.Machine.execRelease port pk s
  | .gibenUnassignedKind port pk => Sys2Proof.Machine.execGibenUnassignedKind port pk s
  | .portLinkDown port => Sys2Proof.Machine.execPortLinkDown port s
  | .portLinkUp port => Sys2Proof.Machine.execPortLinkUp port s
  | .senseEvent core => Sys2Proof.Machine.execSenseEvent core s
  | .rowPrecharge row activations parityFails => Sys2Proof.Machine.execRowPrecharge row activations parityFails s

end Sys2Proof.Machine
end

