-- ==== Sys2Proof/Machine/Step.lean ====
section
/-! DEFINITION. Sys2Proof/Machine/Step.lean: one step of the machine: the agent whose turn it is moves. -/

namespace Sys2Proof.Machine

/-- The turns of two slots come again after what a word did. -/
def andAgain (k j : Nat) : Host.Outcome State Fault Refusal → Host.Outcome State Fault Refusal
  | .next s => .next ((s.again j).again k)
  | .fault f => .fault f
  | .refused r => .refused r

/-- The turn of a slot: the slot that its core's scalar side serves enters its block, or runs its next word. -/
def slotStep (s : State) (k : Nat) : Host.Outcome State Fault Refusal :=
  let j := s.servedSlot k
  let s0 := { s with cur := j }
  match s0.slotTask j with
  | .done s1 => .next (if j = k then s1 else s1.again k)
  | .later s1 => .next ((s1.again j).again k)
  | .enter => andAgain k j (exec .blockEntry s0)
  | .word i s1 => andAgain k j (exec i s1)

/-- One step. -/
def step (s : State) : Host.Outcome State Fault Refusal :=
  match s.nextTurn with
  | (none, s1) => exec .timeTick s1
  | (some (.event i), s1) => exec i s1
  | (some (.slot k), s1) => slotStep s1 k

/-- A state in which the instruction whose table word is `w` is the one that the next step runs. -/
def State.withFetchWord (s : State) (_nbits w : Nat) : State := s.placeWord (BitVec.ofNat 64 w)

end Sys2Proof.Machine
end

