-- ==== Sys2Proof/Safety.lean ====
section
/-! DEFINITION. Sys2Proof/Safety.lean: the terms that statements use: a word that issues, the patterns of its operands, the
strand that an integer word leaves. -/

namespace Sys2Proof.Machine

/-- A step that ends neither in a fault of the machine nor in a refusal. -/
def Completes (o : Host.Outcome State Fault Refusal) : Prop := ∃ s, o = .next s

/-- The word `i`, with control fields `c`, issues on the current slot and its operation takes place at once. `e` is what it
finds there: strand, task, partition. The slot does not hold it back (R75, R187, R217 to R221, R274); decoding raises no fault
(Table 2.7); the guard lets the operation take place for the strand or for its lanes (R64, R65); and the word is not one that
is left outstanding in a lookahead window (R75). -/
def Issues (s : State) (i : Instr) (c : Ctl) (e : Env) : Prop :=
  s.envAt s.cur i c = some e ∧ e.waits s i = false ∧ e.decodeFault i = none ∧ (e.cond || e.lane) = true ∧ e.deferred i = false

/-- What an integer word computes from the patterns pa and pb of an element of `n` bits. -/
abbrev Computes := (n : Nat) → BitVec n → BitVec n → BitVec n

/-- The pattern of a source for element `j` (R91). -/
def Env.pattern (e : Env) (r : Reg) (n j : Nat) : BitVec n := BitVec.ofNat n (e.st.pat n r j)

/-- The pattern of an immediate, for every element (R94). -/
def immPattern (imm : BitVec 23) (n _ : Nat) : BitVec n := imm.signExtend n

/-- The strand after an integer word (R92, R93): `d` holds the result `y n j` of each enabled element `j`, extended to its
container as XS says. -/
def Env.intStrand (e : Env) (i : Instr) (w : Width) (xs : Bool) (d : Reg) (y : (n : Nat) → Nat → BitVec n) : Strand :=
  let l := isLane e.st.latch.cls i
  e.writeInt l d (w.bits l) xs fun j => ((y (w.bits l) j).toNat : Int)

end Sys2Proof.Machine
end

