-- ==== Sys2Proof/Certificates/Slice0/Obligations.lean ====
section
/-! DEFINITION. Sys2Proof/Certificates/Slice0/Obligations.lean: the statements for the provers. -/

open Sys2Proof Sys2Proof.Machine

/-- For every register, width and extension, in the scalar and in the lane-wise shape, form R and (where there is one)
form I: when the word issues and its sequencing raises nothing, exec answers the state in which the destination
holds the result of R98 or R100, written as R92 and R93 say, and the strand stands where sequencing puts it. The
results are stated on bit vectors of the element's width. Nothing else of the strand is written, so no FPST flag and
no sticky indication. -/
def Obligations.arithmetic_words_write_their_result : Prop :=
  ∀ (s : State) (e : Env) (k : Ctl) (d a b : Reg) (m : IntMod) (u : Fin 64) (imm : BitVec 23),
    (∀ r ∈ ([
      (.addR k d a b m, fun _ x y => x + y),
      (.sub k d a b m, fun _ x y => x - y),
      (.scadd k d a b m u, fun _ x y => x + y <<< u.val),
      (.mulR k d a b m, fun _ x y => x * y),
      (.mulh k d a b m, fun n x y => (x.signExtend (2 * n) * y.signExtend (2 * n)).extractLsb' n n),
      (.mulhu k d a b m, fun n x y => (x.setWidth (2 * n) * y.setWidth (2 * n)).extractLsb' n n),
      (.abs k d a m, fun _ x _ => if x.slt 0 then -x else x),
      (.minR k d a b m, fun _ x y => if x.sle y then x else y),
      (.maxR k d a b m, fun _ x y => if y.sle x then x else y),
      (.minuR k d a b m, fun _ x y => if x ≤ y then x else y),
      (.maxuR k d a b m, fun _ x y => if y ≤ x then x else y),
      (.addsat k d a b m true, fun n x y => if 2 ^ n ≤ x.toNat + y.toNat then BitVec.allOnes n else x + y),
      (.addsat k d a b m false, fun n x y => BitVec.ofInt n (max (-2 ^ (n - 1)) (min (2 ^ (n - 1) - 1) (x.toInt + y.toInt)))),
      (.subsat k d a b m true, fun _ x y => if x ≤ y then 0 else x - y),
      (.subsat k d a b m false, fun n x y => BitVec.ofInt n (max (-2 ^ (n - 1)) (min (2 ^ (n - 1) - 1) (x.toInt - y.toInt))))] : List (Instr × Computes)),
      Issues s r.1 k e →
      let t := e.intStrand r.1 m.w m.xs d fun n j => r.2 n (e.pattern a n j) (e.pattern b n j)
      ∀ out, e.sequence (e.put s t) t = .ok out → exec r.1 s = .next (e.finish out.1 r.1 out.2)) ∧
    (∀ r ∈ ([
      (.addI k d a imm, fun _ x y => x + y),
      (.mulI k d a imm, fun _ x y => x * y),
      (.minI k d a imm, fun _ x y => if x.sle y then x else y),
      (.maxI k d a imm, fun _ x y => if y.sle x then x else y),
      (.minuI k d a imm, fun _ x y => if x ≤ y then x else y),
      (.maxuI k d a imm, fun _ x y => if y ≤ x then x else y)] : List (Instr × Computes)),
      Issues s r.1 k e →
      let t := e.intStrand r.1 .full false d fun n j => r.2 n (e.pattern a n j) (immPattern imm n j)
      ∀ out, e.sequence (e.put s t) t = .ok out → exec r.1 s = .next (e.finish out.1 r.1 out.2))

/-- As for the arithmetic words, with the results of R101 and R102: bitwise functions of the patterns, and shifts by the
whole pattern pb read unsigned. A shift by the width or more gives 0, 0 and the sign fill; ROTL reduces its amount
modulo the width. Both forms, both shapes. -/
def Obligations.logic_and_shift_words_write_their_result : Prop :=
  ∀ (s : State) (e : Env) (k : Ctl) (d a b : Reg) (m : IntMod) (imm : BitVec 23),
    (∀ r ∈ ([
      (.andR k d a b m, fun _ x y => x &&& y),
      (.orR k d a b m, fun _ x y => x ||| y),
      (.xorR k d a b m, fun _ x y => x ^^^ y),
      (.andn k d a b m, fun _ x y => x &&& ~~~y),
      (.orn k d a b m, fun _ x y => x ||| ~~~y),
      (.xnor k d a b m, fun _ x y => ~~~(x ^^^ y)),
      (.shlR k d a b m, fun _ x y => x <<< y.toNat),
      (.shrR k d a b m, fun _ x y => x >>> y.toNat),
      (.sarR k d a b m, fun _ x y => x.sshiftRight y.toNat),
      (.rotlR k d a b m, fun _ x y => x.rotateLeft y.toNat)] : List (Instr × Computes)),
      Issues s r.1 k e →
      let t := e.intStrand r.1 m.w m.xs d fun n j => r.2 n (e.pattern a n j) (e.pattern b n j)
      ∀ out, e.sequence (e.put s t) t = .ok out → exec r.1 s = .next (e.finish out.1 r.1 out.2)) ∧
    (∀ r ∈ ([
      (.andI k d a imm, fun _ x y => x &&& y),
      (.orI k d a imm, fun _ x y => x ||| y),
      (.xorI k d a imm, fun _ x y => x ^^^ y),
      (.shlI k d a imm, fun _ x y => x <<< y.toNat),
      (.shrI k d a imm, fun _ x y => x >>> y.toNat),
      (.sarI k d a imm, fun _ x y => x.sshiftRight y.toNat),
      (.rotlI k d a imm, fun _ x y => x.rotateLeft y.toNat)] : List (Instr × Computes)),
      Issues s r.1 k e →
      let t := e.intStrand r.1 .full false d fun n j => r.2 n (e.pattern a n j) (immPattern imm n j)
      ∀ out, e.sequence (e.put s t) t = .ok out → exec r.1 s = .next (e.finish out.1 r.1 out.2))

/-- As for the arithmetic words, with the results of R103, R104 and R105: counts of leading zeros, trailing zeros and
ones, the pattern reversed, a field extracted (its sign extended when XS = 1), a field inserted, and the pattern
extended to the container. -/
def Obligations.bit_count_and_field_words_write_their_result : Prop :=
  ∀ (s : State) (e : Env) (k : Ctl) (d a b : Reg) (m : IntMod) (pos lenm : Fin 64),
    (∀ r ∈ ([
      (.clz k d a m, fun n x _ => BitVec.ofNat n ((List.range n).takeWhile fun i => !x.getMsbD i).length),
      (.ctz k d a m, fun n x _ => BitVec.ofNat n ((List.range n).takeWhile fun i => !x.getLsbD i).length),
      (.popc k d a m, fun n x _ => BitVec.ofNat n ((List.range n).countP fun i => x.getLsbD i)),
      (.brev k d a m, fun _ x _ => x.reverse),
      (.bfx k d a m pos lenm, fun n x _ =>
        if m.xs then (x.extractLsb' pos.val (lenm.val + 1)).signExtend n else (x.extractLsb' pos.val (lenm.val + 1)).setWidth n),
      (.bfi k d a b m pos lenm, fun n x y =>
        let ones := BitVec.ofNat n (2 ^ (lenm.val + 1) - 1) <<< pos.val
        (x &&& ~~~ones) ||| (y <<< pos.val &&& ones))] : List (Instr × Computes)),
      Issues s r.1 k e →
      let t := e.intStrand r.1 m.w m.xs d fun n j => r.2 n (e.pattern a n j) (e.pattern b n j)
      ∀ out, e.sequence (e.put s t) t = .ok out → exec r.1 s = .next (e.finish out.1 r.1 out.2)) ∧
    (∀ r ∈ ([(.sext k d a m.w, true), (.zext k d a m.w, false)] : List (Instr × Bool)),
      Issues s r.1 k e →
      let t := e.intStrand r.1 m.w r.2 d fun n j => e.pattern a n j
      ∀ out, e.sequence (e.put s t) t = .ok out → exec r.1 s = .next (e.finish out.1 r.1 out.2))

/-- As for the arithmetic words, when the word completes at its issue: the signed or unsigned quotient or remainder of
R99, truncated towards zero. A zero divisor gives a quotient of all ones and a remainder equal to the dividend; no
fault is raised. Dividing -2^(n-1) by -1 gives -2^(n-1), because the quotient is a bit vector of n bits. -/
def Obligations.division_words_write_their_result : Prop :=
  ∀ (s : State) (e : Env) (k : Ctl) (d a b : Reg) (m : IntMod),
    (∀ r ∈ ([
      (.div k d a b m, fun n x y => if y = 0 then BitVec.allOnes n else x.sdiv y),
      (.divu k d a b m, fun n x y => if y = 0 then BitVec.allOnes n else x / y),
      (.rem k d a b m, fun _ x y => if y = 0 then x else x.srem y),
      (.remu k d a b m, fun _ x y => if y = 0 then x else x % y)] : List (Instr × Computes)),
      Issues s r.1 k e →
      let t := e.intStrand r.1 m.w m.xs d fun n j => r.2 n (e.pattern a n j) (e.pattern b n j)
      ∀ out, e.sequence (e.put s t) t = .ok out → exec r.1 s = .next (e.finish out.1 r.1 out.2))

/-- The condition of Table 3.4 on the patterns. In the scalar shape an s register receives 1 or 0, and a predicate or L
receives the condition in all 64 bits. In the lane-wise shape bit i of the destination is the condition of the
element that holds lane i (element i, or i / 2 at n = 64) where that element is enabled, and keeps its prior value
elsewhere. exec answers that state whenever the word issues and its sequencing raises nothing. -/
def Obligations.compare_words_write_their_condition : Prop :=
  ∀ (s : State) (e : Env) (k : Ctl) (d a b : Reg) (w : Width) (imm : BitVec 23),
    ∀ c ∈ ([
      (.eq, fun _ x y => x = y), (.ne, fun _ x y => x ≠ y), (.lt, fun _ x y => x.slt y), (.ge, fun _ x y => y.sle x),
      (.ltu, fun _ x y => x < y), (.geu, fun _ x y => y ≤ x), (.le, fun _ x y => x.sle y), (.gt, fun _ x y => y.slt x),
      (.leu, fun _ x y => x ≤ y), (.gtu, fun _ x y => y < x), (.any, fun _ x y => x &&& y ≠ 0), (.none, fun _ x y => x &&& y = 0)] :
      List (CmpCc × ((n : Nat) → BitVec n → BitVec n → Bool))),
    ∀ r ∈ ([(.cmpR k d a b w c.1, w, fun n j => e.pattern b n j), (.cmpI k d a c.1 imm, .full, fun n j => immPattern imm n j)] :
      List (Instr × Width × ((n : Nat) → Nat → BitVec n))),
      Issues s r.1 k e →
      let l := isLane e.st.latch.cls r.1
      let n := r.2.1.bits l
      let holds := fun j => c.2 n (e.pattern a n j) (r.2.2 n j)
      let t :=
        if l then
          e.st.putP d (maskOf ((List.range 64).map fun i =>
            let j := if n = 64 then i / 2 else i
            if e.lanes.getLsbD (if n = 64 then 2 * j else j) then holds j else (e.st.priorP d).getLsbD i))
        else
          match d with
          | .s x => e.st.putS (.s x) (if holds 0 then 1 else 0)
          | _ => e.st.putP d (if holds 0 then BitVec.allOnes 64 else 0)
      ∀ out, e.sequence (e.put s t) t = .ok out → exec r.1 s = .next (e.finish out.1 r.1 out.2)

/-- SEL gives pa where its selector bit is 1 and pb elsewhere. MOV form R copies a scalar, predicate or handle into an s
register, copies bits into a predicate lane by lane, copies elements into a vector lane by lane, and with D = 80
takes the row of Table 3.5 that the class of A selects. MOV form I writes the immediate. MOVW inserts a halfword
into 0 (HW = 0) or into the old value. -/
def Obligations.moves_and_selections_write_their_result : Prop :=
  ∀ (s : State) (e : Env) (k : Ctl) (d a b c : Reg) (m : IntMod) (w64 : Bool) (imm : BitVec 23) (hw : Fin 4) (chunk : BitVec 16),
    (let i := Instr.sel k d a b c m;
      Issues s i k e →
      let t := e.intStrand i m.w m.xs d fun n j =>
        if (e.st.pred c).getLsbD (if isLane e.st.latch.cls i && n = 64 then 2 * j else j) then e.pattern a n j else e.pattern b n j
      ∀ out, e.sequence (e.put s t) t = .ok out → exec i s = .next (e.finish out.1 i out.2)) ∧
    (let i := Instr.movR k d a w64;
      Issues s i k e →
      let asScalar := e.st.putS d (e.st.scalar a)
      let asPred := e.st.putP d (maskOf ((List.range 64).map fun j =>
        if e.lanes.getLsbD j then (e.st.scalar a).getLsbD j else (e.st.priorP d).getLsbD j))
      let asVector := e.writeInt true d (if w64 then 64 else 32) false fun j =>
        ((e.pattern a (if w64 then 64 else 32) j).toNat : Int)
      ∀ t, t ∈ (match d, a, e.st.latch.cls with
        | .s _, _, _ => some asScalar
        | .p _, _, _ => some asPred
        | .v _, _, _ => some asVector
        | .latch, .s _, _ | .latch, .h _, _ | .latch, .latch, .scalar | .latch, .latch, .handle => some asScalar
        | .latch, .v _, _ | .latch, .latch, .vector => some asVector
        | .latch, .p _, _ | .latch, .latch, .pred => some asPred
        | _, _, _ => none) →
      ∀ out, e.sequence (e.put s t) t = .ok out → exec i s = .next (e.finish out.1 i out.2)) ∧
    (let i := Instr.movI k d imm;
      Issues s i k e →
      let t := e.intStrand i .full false d fun n _ => imm.signExtend n
      ∀ out, e.sequence (e.put s t) t = .ok out → exec i s = .next (e.finish out.1 i out.2)) ∧
    (let i := Instr.movw k d hw chunk;
      Issues s i k e →
      let t := e.intStrand i .full false d fun n j =>
        let old := if hw = 0 then 0 else BitVec.ofNat n (e.st.oldElem (isLane e.st.latch.cls i) d j)
        (old &&& ~~~(BitVec.ofNat n 0xFFFF <<< (16 * hw.val))) ||| (chunk.setWidth n <<< (16 * hw.val))
      ∀ out, e.sequence (e.put s t) t = .ok out → exec i s = .next (e.finish out.1 i out.2))

/-- PLOG looks each enabled lane up in its truth table, with k = 4a + 2b + c and all ones for an operand that is absent,
and keeps the prior bit of a lane that is off. PANY and PALL write whether some selected bit is set, or every one,
as CMP writes a scalar-shape condition. PCOUNT writes the number of bits set in both masks. -/
def Obligations.predicate_words_write_their_result : Prop :=
  ∀ (s : State) (e : Env) (k : Ctl) (d a : Reg) (b pa pb pc : Option Reg) (tt : BitVec 8),
    let mask := fun (r : Option Reg) => (r.map e.st.scalar).getD (BitVec.allOnes 64)
    let bitOf := fun (r : Option Reg) (j : Nat) => (r.map fun x => (e.st.pred x).getLsbD j).getD (decide (j < 64))
    let asCond := fun (c : Bool) =>
      match d with
      | .s x => e.st.putS (.s x) (if c then 1 else 0)
      | _ => e.st.putP d (if c then BitVec.allOnes 64 else 0)
    ∀ r ∈ ([
      (.plog k d pa pb pc tt, e.st.putP d (maskOf ((List.range 64).map fun j =>
        if e.lanes.getLsbD j then tt.getLsbD (4 * (bitOf pa j).toNat + 2 * (bitOf pb j).toNat + (bitOf pc j).toNat)
        else (e.st.priorP d).getLsbD j))),
      (.pany k d a b, asCond (e.st.scalar a &&& mask b != 0)),
      (.pall k d a b, asCond (e.st.scalar a &&& mask b == mask b)),
      (.pcount k d a b, e.st.putS d (BitVec.ofNat 64 ((List.range 64).countP fun j => (e.st.scalar a &&& mask b).getLsbD j)))] :
      List (Instr × Strand)),
      Issues s r.1 k e →
      let t := r.2
      ∀ out, e.sequence (e.put s t) t = .ok out → exec r.1 s = .next (e.finish out.1 r.1 out.2)

/-- In every format, shape and rounding mode: when the word issues and its sequencing raises nothing, exec answers the
state in which each enabled element of the destination holds the operation on the data that the sources' patterns
denote (a subnormal reading as zero where FZ flushes its format), rounded once in the mode of the word or of FPST,
and FPST gains the flags of the enabled elements. FSUB adds the negated second operand, FMS and FNMA the negated
third one, FNMA and FNMS negate the exact product; FRCP divides 1; FMIN and FMAX do not round. -/
def Obligations.float_arithmetic_words_write_their_result : Prop :=
  ∀ (s : State) (e : Env) (k : Ctl) (d a b c : Reg) (rnd : Option RoundMode) (ft : Option FpFmt),
    ∀ r ∈ ([
      (.fadd k d a b rnd ft, rnd, fun f m x y _ => addFp f m x y (x.isSig || y.isSig)),
      (.fsub k d a b rnd ft, rnd, fun f m x y _ => addFp f m x y.negate (x.isSig || y.isSig)),
      (.fmul k d a b rnd ft, rnd, fun f m x y _ => mulFp f m x y),
      (.fma k d a b c rnd ft, rnd, fun f m x y z => fmaFp f m false x y z),
      (.fms k d a b c rnd ft, rnd, fun f m x y z => fmaFp f m false x y z.negate),
      (.fnma k d a b c rnd ft, rnd, fun f m x y z => fmaFp f m true x y z.negate),
      (.fnms k d a b c rnd ft, rnd, fun f m x y z => fmaFp f m true x y z),
      (.fdiv k d a b rnd ft, rnd, fun f m x y _ => divFp f m x y),
      (.fsqrt k d a rnd ft, rnd, fun f m x _ _ => sqrtFp f m x),
      (.frcp k d a rnd ft, rnd, fun f m x _ _ => divFp f m (.fin false 1 0) x),
      (.fround k d a rnd ft, rnd, fun f m x _ _ => froundFp f m.md x),
      (.fmin k d a b ft, none, fun f _ x y _ => minMaxFp f false x y),
      (.fmax k d a b ft, none, fun f _ x y _ => minMaxFp f true x y)] :
      List (Instr × Option RoundMode × (FpFmt → Rnd → Fp → Fp → Fp → FpRes))),
      Issues s r.1 k e →
      let l := isLane e.st.latch.cls r.1
      let f := fmtOr ft l
      let m := e.st.rnd r.2.1
      let datum := fun (q : Reg) (j : Nat) => readIn f m.fz (e.st.patAt (f = .fp64) (fmtBits f) q j)
      let t := e.writeFp l d (f = .fp64) fun j => r.2.2 f m (datum a j) (datum b j) (datum c j)
      ∀ out, e.sequence (e.put s t) t = .ok out → exec r.1 s = .next (e.finish out.1 r.1 out.2)

/-- FRSQ, FEXP2, FLOG2 and FTANH in every format and shape: whenever the word issues and its sequencing raises nothing,
exec answers the state in which each enabled element of the destination holds its function of the datum, and FPST gains
the flags. Which of two values a function returns is a free value of the function, the format and the input bits alone
(log 20), so two elements with one pattern have one result. The two values are neighbours in the format, or the same:
their patterns differ by at most 1, and the free value alone chooses between them. For every choice the functions give
the values and flags of Table 8.5: of zeros, infinities, NaNs, negative inputs, 1/√(4^k), 2^k for an integer k, log2 of
2^k, and tanh of 0 and of large inputs. That the real number lies between the two values is no part of this statement. -/
def Obligations.approximated_words_write_a_bracketing_result : Prop :=
  (∀ (s : State) (e : Env) (k : Ctl) (d a : Reg) (ft : Option FpFmt),
    ∀ r ∈ ([(.frsq k d a ft, 0, rsqFp), (.fexp2 k d a ft, 1, exp2Fp), (.flog2 k d a ft, 2, log2Fp), (.ftanh k d a ft, 3, tanhFp)] :
      List (Instr × Nat × (FpFmt → Bool → Bool → Fp → FpRes))),
      Issues s r.1 k e →
      let l := isLane e.st.latch.cls r.1
      let f := fmtOr ft l
      let fz := (e.st.rnd none).fz
      let t := e.writeFp l d (f = .fp64) fun j =>
        let x := e.st.patAt (f = .fp64) (fmtBits f) a j
        r.2.2 f fz (Config.bracketUp r.2.1 (fmtCodeNum f) x) (readIn f fz x)
      ∀ out, e.sequence (e.put s t) t = .ok out → exec r.1 s = .next (e.finish out.1 r.1 out.2)) ∧
  (∀ (f : FpFmt) (fz up : Bool),
    (∀ g ∈ ([rsqFp, exp2Fp, log2Fp, tanhFp] : List (FpFmt → Bool → Bool → Fp → FpRes)),
      (∀ x, (g f false true x).1 = (g f false false x).1 ∨ (g f false true x).1 = (g f false false x).1 + 1) ∧
      g f fz up (.nan false) = (canonNan f, 0) ∧ g f fz up (.nan true) = (canonNan f, flNV)) ∧
    (∀ (neg : Bool) (e : Int), rsqFp f fz up (.fin neg 0 e) = (infOf f neg, flDZ) ∧ log2Fp f fz up (.fin neg 0 e) = (infOf f true, flDZ) ∧
      tanhFp f fz up (.fin neg 0 e) = (signBit f neg, 0)) ∧
    rsqFp f fz up (.inf false) = (0, 0) ∧ exp2Fp f fz up (.inf true) = (0, 0) ∧ exp2Fp f fz up (.inf false) = (infOf f false, 0) ∧
    log2Fp f fz up (.inf false) = (infOf f false, 0) ∧ (∀ neg, tanhFp f fz up (.inf neg) = (signBit f neg + fmtBias f * 2 ^ fmtFrac f, 0)) ∧
    (∀ x, x = .inf true ∨ (∃ m e, x = .fin true m e ∧ m ≠ 0) → rsqFp f fz up x = (canonNan f, flNV) ∧ log2Fp f fz up x = (canonNan f, flNV)) ∧
    (∀ (i : Nat) (n : Int), fmtMin f ≤ n → n ≤ fmtBias f →
      rsqFp f fz up (.fin false (2 ^ i) (-2 * n - i)) = ((n + fmtBias f).toNat * 2 ^ fmtFrac f, 0) ∧
      log2Fp f fz up (.fin false (2 ^ i) (n - i)) = roundInt f rneOnly false n 0 ∧
      exp2Fp f fz up (.fin (n < 0) n.natAbs 0) = ((n + fmtBias f).toNat * 2 ^ fmtFrac f, 0)) ∧
    (∀ (neg : Bool) (m : Nat), (if f = .fp64 then 40 else 20) ≤ m →
      tanhFp f fz up (.fin neg m 0) = (signBit f neg + fmtBias f * 2 ^ fmtFrac f, flNX)))

/-- The sign words change the sign bit of the pattern alone: cleared, inverted, or copied from the second source; they
raise no flag, whatever the pattern is. FCLASS writes the class of the pattern. exec answers that state whenever the
word issues and its sequencing raises nothing. -/
def Obligations.float_sign_and_class_words_write_their_result : Prop :=
  ∀ (s : State) (e : Env) (k : Ctl) (d a b : Reg) (ft : Option FpFmt),
    ∀ r ∈ ([
      (.fabs k d a ft, fun f x _ => x % 2 ^ (fmtBits f - 1)),
      (.fneg k d a ft, fun f x _ => x ^^^ 2 ^ (fmtBits f - 1)),
      (.fcpys k d a b ft, fun f x y => x % 2 ^ (fmtBits f - 1) + y / 2 ^ (fmtBits f - 1) % 2 * 2 ^ (fmtBits f - 1)),
      (.fclass k d a ft, fun f x _ => fclassFp f x)] : List (Instr × (FpFmt → Nat → Nat → Nat))),
      Issues s r.1 k e →
      let l := isLane e.st.latch.cls r.1
      let f := fmtOr ft l
      let pattern := fun (q : Reg) (j : Nat) => e.st.patAt (f = .fp64) (fmtBits f) q j
      let t := e.writeFp l d (f = .fp64) fun j => (r.2 f (pattern a j) (pattern b j), 0)
      ∀ out, e.sequence (e.put s t) t = .ok out → exec r.1 s = .next (e.finish out.1 r.1 out.2)

/-- FCMP writes the condition of Table 8.4 as CMP writes its own, and FPST gains NV where an enabled comparison says so.
FCVT reads data of the source format and rounds them to the target format. FTOI rounds to an integer of W bits,
saturated, extended to its container. ITOF rounds the signed or unsigned integer. Elements are 32 in number when
either side has 64 bits. exec answers that state whenever the word issues and its sequencing raises nothing. -/
def Obligations.float_compare_and_convert_words_write_their_result : Prop :=
  ∀ (s : State) (e : Env) (k : Ctl) (d a b : Reg) (rnd : Option RoundMode) (ft fs : Option FpFmt) (cc : FcmpCc) (iw : Width) (u : Bool),
    (let i := Instr.fcmp k d a b ft cc;
      Issues s i k e →
      let l := isLane e.st.latch.cls i
      let f := fmtOr ft l
      let datum := fun (q : Reg) (j : Nat) => readIn f (e.st.rnd none).fz (e.st.patAt (f = .fp64) (fmtBits f) q j)
      let on := fun (j : Nat) => e.lanes.getLsbD (if f = .fp64 then 2 * j else j)
      let holds := fun (j : Nat) => fcmpFp cc (datum a j) (datum b j)
      let t :=
        if l then
          (e.st.putP d (maskOf ((List.range 64).map fun i =>
            let j := if f = .fp64 then i / 2 else i
            if on j then (holds j).1 else (e.st.priorP d).getLsbD i))).setFlags
            (((List.range (if f = .fp64 then 32 else 64)).filter on).foldl (fun x j => x ||| (holds j).2) 0)
        else
          (match d with
           | .s x => e.st.putS (.s x) (if (holds 0).1 then 1 else 0)
           | _ => e.st.putP d (if (holds 0).1 then BitVec.allOnes 64 else 0)).setFlags (holds 0).2
      ∀ out, e.sequence (e.put s t) t = .ok out → exec i s = .next (e.finish out.1 i out.2)) ∧
    (∀ r ∈ ([
      (.fcvt k d a rnd ft fs, fun l => fmtBits (fmtOr fs l), fun l => fmtBits (fmtOr ft l),
        fun l m x => cvtFp (fmtOr ft l) m (readIn (fmtOr fs l) m.fz x)),
      (.ftoi k d a rnd ft iw u, fun l => fmtBits (fmtOr ft l), fun l => iw.bits l, fun l m x =>
        let q := ftoiFp m.md (iw.bits l) u (readIn (fmtOr ft l) m.fz x)
        (wrapN q.1 (if l && iw.bits l != 64 then 32 else 64), q.2)),
      (.itof k d a rnd ft iw u, fun l => iw.bits l, fun l => fmtBits (fmtOr ft l),
        fun l m x => itofFp (fmtOr ft l) m (if u then x else sextN x (iw.bits l)))] :
      List (Instr × (Bool → Nat) × (Bool → Nat) × (Bool → Rnd → Nat → FpRes))),
      Issues s r.1 k e →
      let l := isLane e.st.latch.cls r.1
      let wide := r.2.1 l = 64 || r.2.2.1 l = 64
      let t := e.writeFp l d wide fun j => r.2.2.2 l (e.st.rnd rnd) (e.st.patAt wide (r.2.1 l) a j)
      ∀ out, e.sequence (e.put s t) t = .ok out → exec r.1 s = .next (e.finish out.1 r.1 out.2))

/-- For each of the six formats, each rounding mode and each pattern that denotes a finite value other than zero:
rounding that value to its own format gives the pattern back, and sets no flag. -/
def Obligations.rounding_keeps_representable_values : Prop :=
  ∀ (f : FpFmt) (md : RoundMode) (x : Nat) (neg : Bool) (m : Nat) (e : Int), x < 2 ^ fmtBits f →
    readFp f x = .fin neg m e → m ≠ 0 → roundTo f md false neg m 1 e = (x, 0)

/-- With ne elements (64 of 32 bits, or 32 of 64 bits): VBCAST gives element B mod ne of A to every element; VSHUF
exchanges by an exclusive or, interleaves or separates; VPERM selects from A followed by B by an index modulo 2 ne;
VSLIDE takes elements C places below or above, drawing on B, with C limited to ne; VEXTR gives one element to a
scalar and VINS writes one; VIOTA counts the enabled elements of a mask below. These write enabled elements and keep
the others. VCOMPRESS packs the enabled elements of A and writes 0 above them. exec answers that state whenever the
word issues and its sequencing raises nothing. -/
def Obligations.lane_words_move_elements : Prop :=
  ∀ (s : State) (e : Env) (k : Ctl) (d a b c : Reg) (pm : Option Reg) (x : Fin 64) (flag w64 : Bool),
    let ne := if w64 then 32 else 64
    let n := if w64 then 64 else 32
    let el := fun (q : Reg) (j : Nat) => ((elems (e.st.vector q) w64)[j]?).getD 0
    let on := fun (w : Word) (j : Nat) => w.getLsbD (if w64 then 2 * j else j)
    let enabled := (List.range ne).filter (on e.lanes)
    let write := fun (f : Nat → Nat) =>
      e.st.putV d (ofElems ((elems (e.st.priorV d) w64).mapIdx fun j old => if on e.lanes j then f j else old) w64)
    ∀ r ∈ ([
      (.vbcast k d a b w64, write fun _ => el a ((e.st.scalar b).toNat % ne)),
      (.vshuf k d a (.xor x) w64, write fun j => el a (j ^^^ x.val)),
      (.vshuf k d a (.ziplo b) w64, write fun j => if j % 2 = 0 then el a (j / 2) else el b (j / 2)),
      (.vshuf k d a (.ziphi b) w64, write fun j => if j % 2 = 0 then el a (ne / 2 + j / 2) else el b (ne / 2 + j / 2)),
      (.vshuf k d a (.unze b) w64, write fun j => if j < ne / 2 then el a (2 * j) else el b (2 * j - ne)),
      (.vshuf k d a (.unzo b) w64, write fun j => if j < ne / 2 then el a (2 * j + 1) else el b (2 * j + 1 - ne)),
      (.vperm k d a b c w64, write fun j =>
        let q := el c j % (2 * ne)
        if q < ne then el a q else el b (q - ne)),
      (.vslide k d a b c true w64, write fun j =>
        let q := min (e.st.scalar c).toNat ne
        if q ≤ j then el a (j - q) else el b (ne + j - q)),
      (.vslide k d a b c false w64, write fun j =>
        let q := min (e.st.scalar c).toNat ne
        if j + q < ne then el a (j + q) else el b (j + q - ne)),
      (.vextr k d a b flag w64, e.st.putS d (BitVec.ofNat 64 (extendTo (el a ((e.st.scalar b).toNat % ne)) n flag 64))),
      (.vins k d a b w64, write fun j =>
        if j = (e.st.scalar b).toNat % ne then (e.st.scalar a).toNat % 2 ^ n
        else ((elems (e.st.priorV d) w64)[j]?).getD 0),
      (.viota k d pm w64, write fun j => ((List.range j).filter (on ((pm.map e.st.pred).getD (BitVec.allOnes 64)))).length),
      (.vcompress k d a w64, e.st.putV d
        (ofElems (enabled.map (el a) ++ List.replicate (ne - enabled.length) 0) w64))] : List (Instr × Strand)),
      Issues s r.1 k e →
      let t := r.2
      ∀ out, e.sequence (e.put s t) t = .ok out → exec r.1 s = .next (e.finish out.1 r.1 out.2)

/-- For the integer operations, in which every order of combination gives the same result: VRED writes the combination
of the enabled elements, or the prior value of its destination where none is enabled; VSCAN gives each enabled
element the combination of the enabled elements up to it, or with .ex of those below it, starting from the identity,
and keeps the other elements. For FADD, FMIN and FMAX, where the order counts: VRED combines by the tree of R241 and
VSCAN in ascending order, a NaN result is the canonical one, and FPST gains the flags of the combinations. exec answers that state whenever the word
issues and its sequencing raises nothing. -/
def Obligations.reductions_and_scans_combine_the_enabled_elements : Prop :=
  ∀ (s : State) (e : Env) (k : Ctl) (d a : Reg) (rnd : Option RoundMode) (w : Width) (xs ex : Bool),
    (let n := w.bits true
      let ne := if n = 64 then 32 else 64
      let on := fun (j : Nat) => e.lanes.getLsbD (if n = 64 then 2 * j else j)
      ∀ r ∈ ([
        (.add, 0, fun x y => (x + y) % 2 ^ n), (.and, 2 ^ n - 1, fun x y => x &&& y), (.or, 0, fun x y => x ||| y),
        (.xor, 0, fun x y => x ^^^ y), (.minu, 2 ^ n - 1, fun x y => min x y), (.maxu, 0, fun x y => max x y),
        (.min, 2 ^ (n - 1) - 1, fun x y => if (BitVec.ofNat n x).sle (BitVec.ofNat n y) then x else y),
        (.max, 2 ^ (n - 1), fun x y => if (BitVec.ofNat n y).sle (BitVec.ofNat n x) then x else y)] :
        List (Rop × Nat × (Nat → Nat → Nat))),
      let total := fun (js : List Nat) => ((js.filter on).map (e.st.pat n a)).foldl r.2.2 r.2.1
      (let i := Instr.vred k d a r.1 rnd (IntMod.mk w xs);
        Issues s i k e →
        let t := if (List.range ne).any on then e.st.putS d (BitVec.ofNat 64 (extendTo (total (List.range ne)) n xs 64))
          else e.st.putS d (e.st.priorS d)
        ∀ out, e.sequence (e.put s t) t = .ok out → exec i s = .next (e.finish out.1 i out.2)) ∧
      (let i := Instr.vscan k d a r.1 rnd ex w;
        Issues s i k e →
        let t := e.st.putV d (ofElems ((elems (e.st.priorV d) (n = 64)).mapIdx fun j old =>
          if on j then total (List.range (if ex then j else j + 1)) else old) (n = 64))
        ∀ out, e.sequence (e.put s t) t = .ok out → exec i s = .next (e.finish out.1 i out.2))) ∧
    (let f := ropFmt w
      let n := fmtBits f
      let ne := if n = 64 then 32 else 64
      let on := fun (j : Nat) => e.lanes.getLsbD (if n = 64 then 2 * j else j)
      ∀ r ∈ ([
        (.fadd, 0, fun md x y => addFp f (Rnd.mk md false) x y (x.isSig || y.isSig)),
        (.fmin, infOf f false, fun _ x y => minMaxFp f false x y),
        (.fmax, infOf f true, fun _ x y => minMaxFp f true x y)] : List (Rop × Nat × (RoundMode → Fp → Fp → FpRes))),
      let combine := fun (x y : Nat) => r.2.2 (e.st.rnd rnd).md (readFp f x) (readFp f y)
      let canon := fun (y : Nat) => if (readFp f y).isNan then canonNan f else y
      let nv : Flags := if (List.range ne).any fun j => on j && (readFp f (e.st.pat n a j)).isSig then flNV else 0
      (let i := Instr.vred k d a r.1 rnd (IntMod.mk w xs);
        Issues s i k e →
        let tree := treeOf combine (if n = 64 then 5 else 6) ((List.range ne).map fun j => if on j then some (e.st.pat n a j) else none)
        let t := match tree.1 with
          | none => e.st.putS d (e.st.priorS d)
          | some y => (e.st.putS d (BitVec.ofNat 64 (extendTo (canon y) n xs 64))).setFlags (tree.2 ||| nv)
        ∀ out, e.sequence (e.put s t) t = .ok out → exec i s = .next (e.finish out.1 i out.2)) ∧
      (let i := Instr.vscan k d a r.1 rnd ex w;
        Issues s i k e →
        let run := scanFrom combine ex r.2.1 ((List.range ne).map fun j => (e.st.pat n a j, on j)) none
        let t := (e.st.putV d (ofElems ((elems (e.st.priorV d) (n = 64)).mapIdx fun j old =>
          if on j then canon (((run.1[j]?).getD none).getD 0) else old) (n = 64))).setFlags (run.2 ||| nv)
        ∀ out, e.sequence (e.put s t) t = .ok out → exec i s = .next (e.finish out.1 i out.2)))

/-- BQUANT quantises elements 0 to 31 and 32 to 63 of A each to a block of width 8 - WQ and lays out both element
strings and the two exponents; FPST gains the flags. BDEQ gives each of the 64 lanes the element's value, rounded to
the target format. Both act as a whole under cond. exec answers that state whenever the word issues and its
sequencing raises nothing. -/
def Obligations.block_words_quantise_two_blocks : Prop :=
  ∀ (s : State) (e : Env) (k : Ctl) (d a : Reg) (rnd : Option RoundMode) (ft : Option FpFmt) (wq : Fin 7),
    let w := 8 - wq.val
    let f := ft.getD .fp32
    let half := fun (h : Nat) => quantise w ((List.range 32).map fun j => readFp f (e.st.pat 32 a (32 * h + j) % 2 ^ fmtBits f))
    let img := (e.st.vector a).toNat
    let back := fun (j : Nat) =>
      dequant f (e.st.rnd rnd).md w (blockOf w (img / 2 ^ (512 + 8 * (j / 32)) % 256) (img / 2 ^ (32 * w * (j / 32)))) (j % 32)
    (let i := Instr.bquant k d a ft wq;
      Issues s i k e → e.st.holdsV a = true →
      let t := (e.st.putV d (BitVec.ofNat 2048
        ((half 0).1.image w + (half 1).1.image w * 2 ^ (32 * w) + ((half 0).1.e + 256 * (half 1).1.e) * 2 ^ 512))).setFlags
        ((half 0).2 ||| (half 1).2)
      ∀ out, e.sequence (e.put s t) t = .ok out → exec i s = .next (e.finish out.1 i out.2)) ∧
    (let i := Instr.bdeq k d a rnd ft wq;
      Issues s i k e →
      let t := (e.st.putV d (ofElems ((List.range 64).map fun j => (back j).1) false)).setFlags
        (flagsOf ((List.range 64).map back))
      ∀ out, e.sequence (e.put s t) t = .ok out → exec i s = .next (e.finish out.1 i out.2))

/-- For each number of the special-register tables and, where the register is the supervisor's, in supervisor mode: MFS
writes to its destination the contents that the tables give, and exec answers that state whenever the word issues
and its sequencing raises nothing. An MFS of DROOPCNT or CECNT has a row of its own and needs a vector side with
nothing to start. In user mode, an MFS of a supervisor register raises PRIV with the word in TVAL. -/
def Obligations.special_registers_read_their_contents : Prop :=
  ∀ (s : State) (e : Env) (k : Ctl) (d : Reg),
    let t0 := e.st
    let core := s.core (coreOfSlot e.k)
    let tile := s.tile (tileOfSlot e.k)
    let link := fun (n : Nat) => ((s.links[n]?).map fun x => if x.1 then x.2.2 else 0).getD 0
    (∀ r ∈ ([
      (0x000#12, BitVec.ofNat 64 ((if bit t0.hdr 63 then 1 else 0) + (if t0.zsub then 2 else 0) +
        (if t0.fmode = .detached then 4 else 0) + (if t0.ap then 8 else 0))),
      (0x001#12, t0.cause), (0x002#12, t0.tval), (0x003#12, t0.tpc), (0x004#12, t0.fpst),
      (0x005#12, BitVec.ofNat 64 (match t0.latch.cls with
        | .empty => 0
        | .scalar => 1
        | .vector => 2
        | .pred => 3
        | .handle => 4)),
      (0x006#12, t0.hdr), (0x007#12, t0.rsp), (0x008#12, taskIdOf e.ta t0.index), (0x009#12, BitVec.ofNat 64 t0.cls), (0x00A#12, t0.rprog),
      (0x00B#12, BitVec.ofNat 64 t0.treesel), (0x00C#12, 1), (0x010#12, e.p.tvec &&& ~~~6), (0x100#12, BitVec.ofNat 64 s.time),
      (0x101#12, BitVec.ofNat 64 (s.cycleOf (coreOfSlot e.k))), (0x102#12, s.coordOf e.p e.k), (0x103#12, pcoordOf e.k),
      (0x104#12, core.droopth), (0x107#12, BitVec.ofNat 64 core.cpwt), (0x108#12, assaystOf core), (0x200#12, BitVec.ofNat 64 tile.grant),
      (0x201#12, tile.zbase + BitVec.ofNat 64 tile.zhead), (0x300#12, e.p.fcb (fieldOfSlot e.k)), (0x301#12, BitVec.ofNat 64 e.ta.ctx),
      (0x302#12, e.p.gtab (fieldOfSlot e.k)), (0x303#12, e.p.tiercb),
      (0x304#12, secmemOf (tgetD s.sectors (sectorOf (fieldOfSlot e.k)) (Sector.mk 1024 0 0 0))), (0x305#12, tierstOf e.p),
      (0x306#12, xlinksOf s.links), (0x308#12, BitVec.ofNat 64 (link 0)), (0x309#12, BitVec.ofNat 64 (link 1)),
      (0x30A#12, BitVec.ofNat 64 (link 2)), (0x30B#12, BitVec.ofNat 64 (link 3)), (0x30C#12, BitVec.ofNat 64 (link 4)),
      (0x30D#12, BitVec.ofNat 64 (link 5)), (0x30E#12, BitVec.ofNat 64 (link 6)), (0x30F#12, BitVec.ofNat 64 (link 7))] :
      List (BitVec 12 × Word)),
      let i := Instr.mfs k d r.1;
      Issues s i k e → (specialSup r.1.toNat = true → bit t0.hdr 63 = true) →
      let t := t0.putS d r.2
      ∀ out, e.sequence (e.put s t) t = .ok out → exec i s = .next (e.finish out.1 i out.2)) ∧
    (∀ r ∈ ([
      (false, BitVec.ofNat 64 (core.sense * 2 ^ 48 + core.wakes * 2 ^ 32 + core.stretch.toNat)),
      (true, BitVec.ofNat 64 (core.poison * 2 ^ 48 + core.refetch * 2 ^ 32 + core.corr.toNat))] : List (Bool × Word)),
      let i := Instr.readDroopcntCecnt k d r.1;
      Issues s i k e → e.sl.fwd = [] →
      let t := t0.putS d r.2
      ∀ out, e.sequence (e.put s t) t = .ok out → exec i s = .next (e.finish out.1 i out.2)) ∧
    (∀ n : BitVec 12, let i := Instr.mfs k d n;
      Issues s i k e → e.busy = false → specialSup n.toNat = true → bit t0.hdr 63 = false →
      exec i s = .next (s.raise e.k .priv (encodeWord i) false false))

/-- MTS writes CAUSE, TVAL, TPC and RPROG in supervisor mode, TREESEL, FPST, RSP, CLASS and STATUS in either mode,
DROOPTH and CPWT of the core in supervisor mode; bits that a layout does not assign are ignored. A rounding mode
above 4 leaves FPST.RM as it was; a CLASS above that of the task raises PRIV, an RSP not aligned to 128 bytes raises
ALIGN with the value, and a supervisor register written in user mode raises PRIV with the word in TVAL. That a write
to STATUS stores ZSUB from bit 1 of the value is the model's reading (log 36). -/
def Obligations.special_registers_take_what_is_written : Prop :=
  ∀ (s : State) (e : Env) (k : Ctl) (a : Reg),
    let x := e.st.scalar a
    let sup := bit e.st.hdr 63
    let fpst := BitVec.ofNat 64
      (bits x 12 8 * 256 + bits x 3 3 * 8 + if bits x 2 0 ≤ 4 then bits x 2 0 else bits e.st.fpst 2 0)
    (∀ r ∈ ([
      (.mts k 0x001 a, sup, { e.st with cause := x &&& 0xFFFF01DF }), (.mts k 0x002 a, sup, { e.st with tval := x }),
      (.mts k 0x003 a, sup, { e.st with tpc := x }),
      (.mts k 0x00A a, sup, { e.st with rprog := if bits x 3 0 = 0 then 0 else x &&& 0xFFFFFFFFFFFFFFCF }),
      (.mts k 0x00B a, true, { e.st with treesel := bits x 2 0 }),
      (.writeFpst k a, true, { e.st with fpst := fpst }),
      (.writeRsp k a, bits x 6 0 = 0, { e.st with rsp := x }),
      (.writeClass k a, bits x 2 0 ≤ bits e.ta.header[2] 6 4, { e.st with cls := bits x 2 0 }),
      (.writeStatus k a, true, { e.st with zsub := bit x 1 })] : List (Instr × Bool × Strand)),
      Issues s r.1 k e → r.2.1 = true →
      let t := r.2.2
      ∀ out, e.sequence (e.put s t) t = .ok out → exec r.1 s = .next (e.finish out.1 r.1 out.2)) ∧
    (∀ r ∈ ([
      (.writeDroopth k a, fun c => { c with droopth := BitVec.ofNat 64 (bits x 15 8 * 256 + max 8 (bits x 7 0)) }),
      (.writeCpwt k a, fun c => { c with cpwt := max 1 (bits x 3 0) })] : List (Instr × (Core → Core))),
      Issues s r.1 k e → sup = true →
      let s1 := s.modCore (coreOfSlot e.k) r.2
      ∀ x, e.sequence s1 e.st = .ok x → exec r.1 s = .next (e.finish x.1 r.1 x.2)) ∧
    (∀ i ∈ ([.mts k 0x001 a, .mts k 0x002 a, .mts k 0x003 a, .mts k 0x00A a, .writeDroopth k a, .writeCpwt k a] : List Instr),
      Issues s i k e → e.busy = false → sup = false → exec i s = .next (s.raise e.k .priv (encodeWord i) false false)) ∧
    (Issues s (.writeRsp k a) k e → e.busy = false → bits x 6 0 ≠ 0 →
      exec (.writeRsp k a) s = .next (s.raise e.k .align x false false)) ∧
    (Issues s (.writeClass k a) k e → e.busy = false → bits e.ta.header[2] 6 4 < bits x 2 0 →
      exec (.writeClass k a) s = .next (s.raise e.k .priv (encodeWord (.writeClass k a)) false false))

/-- When the word issues, cond holds and the handler stands in the supervisor half: CAUSE becomes KIND (2 for TRAP, 3
for BRK) in [7:6] with n in [31:16], TVAL the word, TPC its place; the window action of a CALL follows; s13, s14 and
s15 of the new window hold the cause, the header address and the place; HDR becomes TVEC[63:3] followed by zeros and
WIDX 0, so the strand is in supervisor mode. exec answers that state. Where the window action needs no spill it only
moves the window (the second clause). Where TVEC[63] is 0 the word raises PRIV with itself in TVAL. -/
def Obligations.traps_enter_the_handler : Prop :=
  ∀ (s : State) (e : Env) (k : Ctl) (n : BitVec 16),
    ∀ r ∈ ([(.trap k n, 2), (.brk k n, 3)] : List (Instr × Nat)),
      Issues s r.1 k e → e.cond = true → (r.2 = 3 → e.st.asNop = false ∧ bit e.p.tvec 0 = false) →
      let c := BitVec.ofNat 64 (r.2 * 64 + n.toNat * 65536)
      let t0 := { e.st with cause := c, tval := encodeWord r.1, tpc := e.st.pc }
      let entered := fun (t1 : Strand) =>
        let w := fun (j : Nat) (x : Word) (q : Strand) => q.putPhys (physIdx t1.cwp j) x
        { (w 15 e.st.pc (w 14 e.st.hdr (w 13 c t1))) with hdr := BitVec.ofNat 64 (e.p.tvec.toNat / 8 * 8), widx := 0 }
      (bit e.p.tvec 63 = true → ∀ x, e.windowCall s t0 = .ok x →
        exec r.1 s = .next (e.finish (x.1.setStrand e.u (entered x.2)) r.1 (entered x.2))) ∧
      (e.st.fres ≠ 6 → e.windowCall s t0 = .ok (s, { t0 with fres := t0.fres + 1, cwp := (t0.cwp + 1) % 8 })) ∧
      (bit e.p.tvec 63 = true → ∀ t1, (entered t1).sup = true ∧ (entered t1).pc = BitVec.ofNat 64 (e.p.tvec.toNat / 8 * 8)) ∧
      (bit e.p.tvec 63 = false → e.busy = false → exec r.1 s = .next (s.raise e.k .priv (encodeWord r.1) false false))

/-- With x in A and y in B aligned to 8 bytes, y from x + 8 to x + 504, and a header at x whose LEN is not below k = (y
- x) / 8: the window action of a RET takes place, and the strand resumes at word k + 1 of the block at x under that
header's masks, or at the header that follows when k is LEN. exec answers that state. An address that is not aligned
raises ALIGN with it in TVAL, and a distance out of range raises ILLOP with the word. -/
def Obligations.return_from_trap_resumes_after_the_trapping_word : Prop :=
  ∀ (s : State) (e : Env) (k : Ctl) (a b : Reg),
    let i := Instr.rft k a b
    let x := e.st.scalar a
    let y := e.st.scalar b
    let n := (y.toNat - x.toNat) / 8
    Issues s i k e → e.cond = true →
    (bits x 2 0 = 0 → bits y 2 0 = 0 → x.toNat + 8 ≤ y.toNat → n ≤ 63 →
      ∀ f, e.fetch s x = .ok f → bits f.2 63 56 = 0xFF → n ≤ lenOf f.2 →
      ∀ w, e.windowRet f.1 e.st = .ok w →
      (n = lenOf f.2 →
        let t := { w.2 with hdr := x + BitVec.ofNat 64 (8 * (n + 1)), widx := 0 }
        exec i s = .next (e.finish (w.1.setStrand e.u t) i t)) ∧
      (n < lenOf f.2 →
        let t := { (w.2.applyMasks f.2 w.1.fresh) with hdr := x, widx := n + 1 }
        exec i s = .next (e.finish { (w.1.setStrand e.u t) with fresh := w.1.fresh + 1 } i t))) ∧
    (e.busy = false → bits x 2 0 ≠ 0 → exec i s = .next (s.raise e.k .align x false false)) ∧
    (e.busy = false → bits x 2 0 = 0 → bits y 2 0 ≠ 0 → exec i s = .next (s.raise e.k .align y false false)) ∧
    (e.busy = false → bits x 2 0 = 0 → bits y 2 0 = 0 → (y.toNat < x.toNat + 8 ∨ 63 < n) →
      exec i s = .next (s.raise e.k .illop (encodeWord i) false false))

/-- A scalar load accesses A plus the immediate, or A plus B shifted, and writes the value read, extended from its size,
to its destination and L: exec answers that state whenever the word issues, the access is placed and read, and
sequencing raises nothing. An address that is not a multiple of the size raises ALIGN with the address in TVAL. An access
whose reply is lost makes the slot wait for it, one timeout of 20 µs for each loss and at most five; after five the access ends
with TIMEOUT and the address in TVAL (which replies are lost is an input, log 45). Where the strand's slot has no posted store to the bytes, no copy of the line is in the core, the home field is the
core's own and the bytes are not lost, the value is the little-endian one of the bytes of memory at the place; so it
is too of an acquire load of bytes that no copy of the core holds. -/
def Obligations.scalar_loads_write_what_they_read : Prop :=
  ∀ (s : State) (e : Env) (k : Ctl) (d a b : Reg) (imm : BitVec 23) (sh : Fin 8) (sz : ScalarSz) (sx : Bool) (acq : Option Scope),
    let n := match sz with
      | .b => 1
      | .h => 2
      | .w => 4
      | .d => 8
    (∀ r ∈ ([(.ld k d a imm sz sx acq, e.st.scalar a + imm.signExtend 64), (.ldx k d a b sh sz sx acq, e.st.scalar a + e.st.scalar b <<< sh.val)] :
      List (Instr × Word)),
      Issues s r.1 k e →
      (∀ q, (acq.elim (e.load s r.2 n) fun sc => e.loadAcq s r.2 n sc) = .ok q →
        let t := e.st.putS d (BitVec.ofNat 64 (extendTo q.2 (8 * n) sx 64))
        ∀ out, e.sequence (e.put q.1 t) t = .ok out → exec r.1 s = .next (e.finish out.1 r.1 out.2)) ∧
      (e.busy = false → r.2.toNat % n ≠ 0 → exec r.1 s = .next (s.raise e.k .align r.2 false false)) ∧
      (∀ l p, e.sl.lost = some l → s.place e.user (e.req r.2 .read) = .ok p → r.2.toNat % n = 0 →
        (l.since = none → e.settled s r.1 = true → exec r.1 s = .next ((s.modSlot e.k fun sl =>
          { sl with lost := some { l with since := some s.time }, hold := some (sl.hold.getD .reply) }).postAt
            (s.time + 20000 * min l.n 5) (.memoryReply e.k))) ∧
        (∀ t0, l.since = some t0 → t0 + 20000 * min l.n 5 ≤ s.time → 5 ≤ l.n → e.busy = false →
          exec r.1 s = .next (s.raise e.k .timeout r.2 false false)))) ∧
    (∀ (va : Word) (s1 : State) (pa : Nat), e.placeOf s va n .read = .ok (s1, pa) →
      (∀ sl, tget s1.slots e.k = some sl → sl.buf = []) → pa % 128 = va.toNat % 128 → pa < 2 ^ 62 → fieldOfPa pa = fieldOfSlot e.k →
      ((s1.core (coreOfSlot e.k)).l1.any fun l => l.va = lineVa va) = false → s1.lostAt pa n = false →
      (e.load s va n).map (·.2) = .ok (natOf (s1.bytesAt pa n)) ∧
      ∀ sc, (e.loadAcq s va n sc).map (·.2) = .ok (natOf (s1.bytesAt pa n)))

/-- Element j of a vector load lies at A plus the immediate plus j times the size, or at A plus lane j of B (lane 2j for
8-byte elements), sign-extended and shifted. The enabled elements are accessed in ascending order, and each receives
its value extended to its container; the others keep theirs. exec answers that state whenever the word issues, those
accesses succeed and sequencing raises nothing. With every lane off nothing is accessed: the state before sequencing
differs in the strand alone. -/
def Obligations.vector_loads_write_the_elements_read : Prop :=
  ∀ (s : State) (e : Env) (k : Ctl) (d a b : Reg) (imm : BitVec 23) (sh : Fin 8) (sz : VecSz) (sx : Bool),
    let n := vsize sz
    let wide := decide (n = 8)
    let on := (List.range (if wide then 32 else 64)).filter fun j => e.lanes.getLsbD (if wide then 2 * j else j)
    ∀ r ∈ ([
      (.ldv k d a imm sz sx, fun j => e.st.scalar a + imm.signExtend 64 + BitVec.ofNat 64 (j * n)),
      (.ldg k d a b sh sz sx, fun j => e.st.scalar a +
        (((e.st.vector b).extractLsb' (32 * (if wide then 2 * j else j)) 32).signExtend 64 <<< sh.val))] :
      List (Instr × (Nat → Word))),
      Issues s r.1 k e →
      (∀ q, e.loadElems r.2 n on s = .ok q →
        let t := e.st.putV d (ofElems ((elems (e.st.priorV d) wide).mapIdx fun j old =>
          if on.contains j then extendTo ((tgetD q.2 j 0 : Nat) : Int) (8 * n) sx (if wide then 64 else 32) else old) wide)
        ∀ out, e.sequence (e.put q.1 t) t = .ok out → exec r.1 s = .next (e.finish out.1 r.1 out.2)) ∧
      (on = [] → e.loadElems r.2 n on s = .ok (s, []))

/-- A store checks the place of each element that it writes, in ascending order, and its entry holds the bytes of each
element. A relaxed ST, and a vector store with some element on, then posts one entry with those elements at the tail of
the slot's store buffer when it has room, and its drain falls due; a vector store with none on does nothing. An ST that
releases, at any scope, performs the release and then writes its bytes at the home slice, past the L1 data cache. No
register is written, so L stays. PREF raises no fault: an address that cannot be read, or that lies in a scratchpad, is
left alone; .l2 only fills the line at its home slice, and the other form puts the line into the core's L1 data cache
with every word that the fill could read, and the words that were valid keep their contents (a line with a clean word
beside one that is not valid is evicted first: the model's choice, log entry 47). exec answers those states whenever the word issues, the elements are placed
and sequencing raises nothing. With a full store buffer the word stalls on its slot, and no entry is posted. -/
def Obligations.stores_are_posted_or_performed : Prop :=
  ∀ (s : State) (e : Env) (k : Ctl) (d a b c : Reg) (imm : BitVec 23) (sh : Fin 8) (sz : ScalarSz) (vz : VecSz) (sc : Scope) (l2 : Bool),
    let va := e.st.scalar a + imm.signExtend 64
    let wide := decide (vsize vz = 8)
    let on := (List.range (if wide then 32 else 64)).filter fun j => e.lanes.getLsbD (if wide then 2 * j else j)
    let org : Origin := { tpc := e.st.hdr + BitVec.ofNat 64 (8 * e.st.widx), hdr := e.st.hdr }
    let posted := fun (s1 : State) (sl : Slot) (x : List StoreElem) =>
      (s1.setSlot e.k { sl with buf := sl.buf ++ [.store org x] }).postOnce (.storeBufferDrain e.k)
    let completes := fun (i : Instr) (s1 : State) => ∀ t, tget s1.strands e.u = some t → ∀ out, e.sequence s1 t = .ok out →
      exec i s = .next (e.finish out.1 i out.2)
    let buffered := fun (i : Instr) (s1 : State) (sl : Slot) (x : List StoreElem) =>
      (sl.buf.length < 32 → completes i (posted s1 sl x)) ∧
      (32 ≤ sl.buf.length → e.settled s i = true → exec i s = .next (s1.setSlot e.k { sl with stalled := true }))
    (∀ q, e.storeElem s va (ssize sz) (e.st.scalar d).toNat = .ok q →
      q.2.va = va ∧ q.2.bytes = bytesOf (ssize sz) (e.st.scalar d).toNat ∧
      (∀ sl, Issues s (.st k d a imm sz none) k e → tget q.1.slots e.k = some sl → buffered (.st k d a imm sz none) q.1 sl [q.2]) ∧
      (Issues s (.st k d a imm sz (some sc)) k e →
        completes (.st k d a imm sz (some sc)) (e.writeHome (q.1.release e.k sc) va q.2.pa q.2.bytes))) ∧
    (∀ r ∈ ([
      (.stv k d a imm vz, d, fun j => va + BitVec.ofNat 64 (j * vsize vz)),
      (.stsc k a b c sh vz, c, fun j => e.st.scalar a +
        (((e.st.vector b).extractLsb' (32 * (if wide then 2 * j else j)) 32).signExtend 64 <<< sh.val))] :
      List (Instr × Reg × (Nat → Word))),
      Issues s r.1 k e →
      let data := fun j => ((elems (e.st.vector r.2.1) wide)[j]?).getD 0
      (∀ q, e.storeElems r.2.2 (vsize vz) data on s = .ok q →
        q.2.map (fun x => (x.va, x.bytes)) = on.map (fun j => (r.2.2 j, bytesOf (vsize vz) (data j))) ∧
        ∀ sl, on ≠ [] → tget q.1.slots e.k = some sl → buffered r.1 q.1 sl q.2) ∧
      (on = [] → completes r.1 s)) ∧
    (Issues s (.pref k a imm l2) k e →
      (∀ x, e.placed s va .read = .error x → completes (.pref k a imm l2) s) ∧
      (∀ q, e.placed s va .read = .ok q →
        (isPad q.2 = true → completes (.pref k a imm l2) s) ∧
        (isPad q.2 = false →
          let old := ((q.1.core e.core).findLine va e.ctx e.gen).getD (emptyLine va e.ctx e.gen q.2)
          let o := if old.halfValid then (q.1.evict e.core old, emptyLine old.va old.ctx old.gen old.pa) else (q.1, old)
          let f := o.1.fillLine e.fld va e.ctx e.gen q.2
          let new := mergeFill o.2 f.2.1 f.2.2
          (l2 = true → completes (.pref k a imm l2) (q.1.fillLine e.fld va e.ctx e.gen q.2).1) ∧
          (l2 = false → completes (.pref k a imm l2) (f.1.putLine e.core new) ∧ f.2.1 &&& ~~~new.valid = 0 ∧
            ∀ j < 32, o.2.valid.getLsbD j = true → lineWord new.data j = lineWord o.2.data j))))

/-- An atomic whose address is aligned, readable and writable: the release that ORD asks for, the write-back and drop of
the core's copies of the line, then the old value read at the home slice, the new value written there (for ACAS only
where the old value equals B), and the acquire that ORD asks for. The destination and L receive the old value,
extended. exec answers that state whenever the word issues, the bytes are not lost, and sequencing raises nothing.
Where no strand waits by a monitor entry of the counter's slice, the bytes at the place are the new value after the write,
and, in a memory of canonical form, every other byte is as it was before it. -/
def Obligations.atomics_read_modify_and_write_at_the_home_slice : Prop :=
  ∀ (s : State) (e : Env) (k : Ctl) (d a b c : Reg) (ord : Ord4) (sc : Scope) (w32 sx : Bool),
    let va := e.st.scalar a
    let nb := if w32 then 4 else 8
    let pb := (e.st.scalar b).toNat % 2 ^ (8 * nb)
    let fmt := if w32 then FpFmt.fp32 else FpFmt.fp64
    let signedLe := fun (x y : Nat) => (BitVec.ofNat (8 * nb) x).sle (BitVec.ofNat (8 * nb) y)
    ∀ r ∈ ([
      (.aop k d a b .add ord sc w32 sx, sx, fun old => some ((old + pb) % 2 ^ (8 * nb))),
      (.aop k d a b .and ord sc w32 sx, sx, fun old => some (old &&& pb)),
      (.aop k d a b .or ord sc w32 sx, sx, fun old => some (old ||| pb)),
      (.aop k d a b .xor ord sc w32 sx, sx, fun old => some (old ^^^ pb)),
      (.aop k d a b .min ord sc w32 sx, sx, fun old => some (if signedLe old pb then old else pb)),
      (.aop k d a b .max ord sc w32 sx, sx, fun old => some (if signedLe pb old then old else pb)),
      (.aop k d a b .minu ord sc w32 sx, sx, fun old => some (min old pb)),
      (.aop k d a b .maxu ord sc w32 sx, sx, fun old => some (max old pb)),
      (.aop k d a b .swap ord sc w32 sx, sx, fun _ => some pb),
      (.acas k d a b c ord sc w32 sx, sx, fun old => if old = pb then some ((e.st.scalar c).toNat % 2 ^ (8 * nb)) else none),
      (.afadd k d a b ord sc w32, false, fun old =>
        some (addFp fmt (Rnd.mk .rne false) (readFp fmt old) (readFp fmt pb) false).1)] :
      List (Instr × Bool × (Nat → Option Nat))),
      Issues s r.1 k e → ∀ q, e.placeOf s va nb .rmw = .ok q →
      let s1 := if ord = .release ∨ ord = .acqRel then q.1.release e.k sc else q.1
      let s2 := e.flush s1 va q.2 nb
      s2.lostAt q.2 nb = false →
      let old := natOf (s2.bytesAt q.2 nb)
      let s3 := s2.touchL2 q.2 e.ctx
      let s4 := match r.2.2 old with
        | some v => s3.homeWrite { s3.writerFrom e.k e.ctx e.org with task := none } va q.2 (bytesOf nb v)
        | none => s3
      let s5 := if ord = .acquire ∨ ord = .acqRel then s4.acquire e.k sc else s4
      let t := e.st.putS d (BitVec.ofNat 64 (extendTo old (8 * nb) r.2.1 64))
      (∀ out, e.sequence (e.put s5 t) t = .ok out → exec r.1 s = .next (e.finish out.1 r.1 out.2)) ∧
      (isPad q.2 = true ∨ ((s3.field (fieldOfPa q.2)).monitors[sliceOf q.2]?).getD [] = [] →
        (∀ v, r.2.2 old = some v → s4.bytesAt q.2 nb = bytesOf nb v) ∧
        (Mem.wf s2.mem = true → ∀ j, (j < q.2 ∨ q.2 + nb ≤ j) → Mem.read s4.mem j = Mem.read s2.mem j))

/-- CADD, at an aligned counter that is not lost, posts its addition at the tail of the store buffer and writes no
register. CWAIT whose counter has reached the threshold writes the counter's value to its destination and acquires;
below it the strand is suspended with a monitor entry of the counter, the threshold and the strand at the counter's
slice, or on the overflow list when the slice has 256 entries. CTEST writes the counter's value, or to a predicate
whether it has reached the threshold, and acquires if asked. exec answers those states whenever the word issues and
sequencing raises nothing (R67: of a word that is suspended, none that is known to). A counter in a scratchpad raises
BADADDR. -/
def Obligations.counter_words_add_wait_and_test : Prop :=
  ∀ (s : State) (e : Env) (k : Ctl) (d a b : Reg) (acq : Bool) (sc : Scope),
    let va := e.st.scalar a
    let rb := e.st.scalar b
    (∀ q sl, e.placeOf s va 8 .rmw = .ok q → isPad q.2 = false → Issues s (.cadd k a b sc) k e →
      let s1 := e.flush q.1 va q.2 8
      s1.lostAt q.2 8 = false → tget s1.slots e.k = some sl → sl.buf.length < 32 →
      let s2 := (s1.setSlot e.k { sl with buf := sl.buf ++ [.cadd va q.2 rb] }).postOnce (.storeBufferDrain e.k)
      ∀ t, tget s2.strands e.u = some t → ∀ out, e.sequence (s2) t = .ok out → exec (.cadd k a b sc) s = .next (e.finish out.1 (.cadd k a b sc) out.2)) ∧
    (∀ q, e.placeOf s va 8 .read = .ok q → isPad q.2 = false →
      let s1 := e.flush q.1 va q.2 8
      s1.lostAt q.2 8 = false →
      let v := BitVec.ofNat 64 (natOf (s1.bytesAt q.2 8))
      let s2 := s1.touchL2 q.2 e.ctx
      (Issues s (.cwait k d a b sc) k e → rb.toNat ≤ v.toNat →
        let t := { (e.st.putS d v) with met := none }
        ∀ out, e.sequence ((e.put s2 t).acquire e.k sc) t = .ok out → exec (.cwait k d a b sc) s = .next (e.finish out.1 (.cwait k d a b sc) out.2)) ∧
      (Issues s (.cwait k d a b sc) k e → e.settled s (.cwait k d a b sc) = true → e.st.met = none → v.toNat < rb.toNat →
        let sl := sliceOf q.2
        let fd := s2.field (fieldOfPa q.2)
        let put := fun (l : List (List Monitor)) => l.mapIdx fun i m => if i = sl then m ++ [Monitor.mk q.2 rb e.u] else m
        exec (.cwait k d a b sc) s = .next (
          if ((fd.monitors[sl]?).getD []).length < 256 then
            (s2.setField (fieldOfPa q.2) { fd with monitors := put fd.monitors }).suspend e.k .cwaitMon va rb
          else (s2.setField (fieldOfPa q.2) { fd with overflow := put fd.overflow }).suspend e.k .cwaitOvf va rb)) ∧
      (Issues s (.ctest k d a b acq sc) k e →
        let t := match d with
          | .p j => e.st.putP (.p j) (if rb.toNat ≤ v.toNat then BitVec.allOnes 64 else 0)
          | _ => e.st.putS d v
        let s3 := if acq then (e.put s2 t).acquire e.k sc else e.put s2 t
        ∀ out, e.sequence (s3) t = .ok out → exec (.ctest k d a b acq sc) s = .next (e.finish out.1 (.ctest k d a b acq sc) out.2))) ∧
    (∀ i ∈ ([.cadd k a b sc, .cwait k d a b sc, .ctest k d a b acq sc] : List Instr), ∀ q,
      e.placeOf s va 8 (match i with
        | .cadd .. => .rmw
        | _ => .read) = .ok q → isPad q.2 = true → Issues s i k e → e.busy = false → e.st.met = none →
      exec i s = .next (s.raise e.k .badaddr va false false))

/-- FENCE .rel, .ar and .seq drain the slot's store buffer and, beyond the strand's scope, write its dirty lines back;
.acq, .ar and .seq then drop the core's clean words, and beyond the field's scope the field's remote copies. After a
release at .tile or wider the slot's store buffer is empty and no line of the core is dirty in the slot's name;
after an acquire at .sector or wider the field has no remote copy and every valid word of the core is dirty. No
register is written. exec answers that state whenever the word issues and sequencing raises nothing. -/
def Obligations.fences_release_and_acquire : Prop :=
  ∀ (s : State) (e : Env) (k : Ctl) (sc : Scope),
    (∀ r ∈ ([(.seq, true, true), (.rel, true, false), (.acq, false, true), (.ar, true, true)] : List (FenceKind × Bool × Bool)),
      Issues s (.fence k r.1 sc) k e →
      let s1 := if r.2.1 then s.release e.k sc else s
      let s2 := if r.2.2 then s1.acquire e.k sc else s1
      ∀ t, tget s2.strands e.u = some t → ∀ out, e.sequence (s2) t = .ok out → exec (.fence k r.1 sc) s = .next (e.finish out.1 (.fence k r.1 sc) out.2)) ∧
    (sc ≠ .strand → ∀ j,
      (∀ sl, tget (s.release j sc).slots j = some sl → sl.buf = []) ∧
      (∀ l ∈ ((s.release j sc).core (coreOfSlot j)).l1, l.mask.getLsbD (j % 4) = false) ∧
      (∀ l ∈ ((s.acquire j sc).core (coreOfSlot j)).l1, l.valid = l.dirty)) ∧
    (sc = .sector ∨ sc = .module ∨ sc = .system → ∀ j, ((s.acquire j sc).field (fieldOfSlot j)).rdc = [])

/-- A NOP, and a word whose guard lets nothing take place, only sequence: exec answers the state in which the strand
stands where its SEQ sends it. With cond false every SEQ but EITHER goes to the next word, or from the last word of
the block to the fall-through block. With cond true NEXT does the same, T0, T1 and EITHER go to the header that the
offset of the header names, GO.bt to s7, LOOP decrements s6 and goes to T0 unless the result is 0, CALL moves the
window and leaves the fall-through address in s15 of the new window, RET goes to s15 and moves the window back. A
strand in user mode that would enter the supervisor half raises ACCESS with the target in TVAL, a CALL or a RET before
its window action; a target in s7 or s15 that is not a multiple of 8 raises ALIGN with it. A CALL with six resident
frames first writes the sixteen registers of the oldest caller's frame below RSP, at the home slice, and lowers RSP by
128; a RET with none first reads the frame at RSP and raises RSP by 128. A RSP that is not a multiple of 128 raises
ALIGN with it, an access that stops stops the word, and a lost register of the frame raises UNCORR with its address. -/
def Obligations.sequencing_follows_seq : Prop :=
  ∀ (s : State) (e : Env) (i : Instr) (k : Ctl) (t : Strand),
    (Issues s (.nop k) k e → ∀ out, e.sequence (s) e.st = .ok out → exec (.nop k) s = .next (e.finish out.1 (.nop k) out.2)) ∧
    (i.ctl = some k → s.envAt s.cur i k = some e → e.waits s i = false → e.decodeFault i = none → (e.cond || e.lane) = false →
      ∀ out, e.sequence (s) e.st = .ok out → exec i s = .next (e.finish out.1 i out.2)) ∧
    (let goes := fun (q : Strand) (a : Word) =>
      if t.sup = false ∧ bit a 63 = true then (.error (.fault .access a) : Res (State × Strand)) else .ok (s, { q with hdr := a, widx := 0 })
    let fall := t.hdr + BitVec.ofNat 64 (8 * (lenOf t.header + 1))
    let onward := fun (q : Strand) => if t.widx = lenOf t.header then goes q fall else .ok (s, { q with widx := q.widx + 1 })
    let t0 := t.hdr + ((t.header.extractLsb' 23 11).signExtend 64 <<< 3)
    let t1 := t.hdr + ((t.header.extractLsb' 12 11).signExtend 64 <<< 3)
    (e.cond = false → e.ctl.seq ≠ .either → e.sequence s t = onward t) ∧
    (e.ctl.seq = .next → e.sequence s t = onward t) ∧
    (e.ctl.seq = .either → e.sequence s t = goes t (if t.latchW.getLsbD 0 then t0 else t1)) ∧
    (e.cond = true →
      (e.ctl.seq = .t0 → e.sequence s t = goes t t0) ∧
      (e.ctl.seq = .t1 → e.sequence s t = goes t t1) ∧
      (e.ctl.seq = .goBt → e.sequence s t =
        if (t.readS 7).toNat % 8 = 0 then goes t (t.readS 7) else .error (.fault .align (t.readS 7))) ∧
      (e.ctl.seq = .loop → e.sequence s t =
        let q := t.writeS 6 (t.readS 6 - 1)
        if t.readS 6 = 1 then onward q else goes q t0) ∧
      (∀ a, (e.ctl.seq = .callT0 ∧ a = t0 ∨ e.ctl.seq = .callBt ∧ a = t.readS 7) →
        (e.ctl.seq = .callBt → a.toNat % 8 ≠ 0 → e.sequence s t = .error (.fault .align a)) ∧
        ((e.ctl.seq = .callBt → a.toNat % 8 = 0) → (t.sup = true ∨ bit a 63 = false) → t.fres ≠ 6 → e.sequence s t =
          .ok (s, ({ t with hdr := a, widx := 0, fres := t.fres + 1, cwp := (t.cwp + 1) % 8 }).putPhys (physIdx ((t.cwp + 1) % 8) 15) fall)) ∧
        ((e.ctl.seq = .callBt → a.toNat % 8 = 0) → t.sup = false → bit a 63 = true → e.sequence s t = .error (.fault .access a)) ∧
        ((e.ctl.seq = .callBt → a.toNat % 8 = 0) → (t.sup = true ∨ bit a 63 = false) → t.fres = 6 → e.sl.stack = none →
          (t.rsp.toNat % 128 ≠ 0 → e.sequence s t = .error (.fault .align t.rsp)) ∧
          (t.rsp.toNat % 128 = 0 →
            (∀ x, e.placed s (t.rsp - 128) .write = .error x → e.sequence s t = .error x) ∧
            ∀ q, e.placed s (t.rsp - 128) .write = .ok q →
              let s1 := q.1.drain e.k
              let s2 := if isPad q.2 then s1 else s1.flushLine e.core (t.rsp - 128) e.ctx
              let s3 := s2.homeWrite (s2.writerOf e.k e.ctx) (t.rsp - 128) q.2 (t.frameBytes s.fresh (t.cwp + 2))
              e.sequence s t = .ok ({ s3 with fresh := s3.fresh + 1 },
                ({ t with hdr := a, widx := 0, rsp := t.rsp - 128, cwp := (t.cwp + 1) % 8 }).putPhys (physIdx ((t.cwp + 1) % 8) 15) fall)))) ∧
      (e.ctl.seq = .ret →
        let a := t.readS 15
        (a.toNat % 8 ≠ 0 → e.sequence s t = .error (.fault .align a)) ∧
        (a.toNat % 8 = 0 → (t.sup = true ∨ bit a 63 = false) → t.fres ≠ 0 → e.sequence s t =
          .ok (s, { t with hdr := a, widx := 0, fres := t.fres - 1, cwp := (t.cwp + 7) % 8 })) ∧
        (a.toNat % 8 = 0 → t.sup = false → bit a 63 = true → e.sequence s t = .error (.fault .access a)) ∧
        (a.toNat % 8 = 0 → (t.sup = true ∨ bit a 63 = false) → t.fres = 0 → e.sl.stack = none →
          (t.rsp.toNat % 128 ≠ 0 → e.sequence s t = .error (.fault .align t.rsp)) ∧
          (t.rsp.toNat % 128 = 0 →
            (∀ x, e.placed s t.rsp .read = .error x → e.sequence s t = .error x) ∧
            ∀ q, e.placed s t.rsp .read = .ok q →
              let s1 := q.1.drain e.k
              let s2 := if isPad q.2 then s1 else s1.flushLine e.core t.rsp e.ctx
              (∀ n, (upto 16).find? (fun n => s2.lostAt (q.2 + 8 * n) 8) = some n →
                e.sequence s t = .error (.fault .uncorr (t.rsp + BitVec.ofNat 64 (8 * n)))) ∧
              ((∀ n < 16, s2.lostAt (q.2 + 8 * n) 8 = false) →
                e.sequence s t = .ok ((s2.dropRdc e.fld t.rsp e.ctx).touchL2 q.2 e.ctx,
                  { (({ t with hdr := a, widx := 0 } : Strand).putFrame (t.cwp + 7) (s2.bytesAt q.2 128)) with
                    rsp := t.rsp + 128, cwp := (t.cwp + 7) % 8 })))))))

/-- SPLIT of an attached strand detaches it; of another it only sequences. JOIN completes with status 0 for an attached
strand below its stream's frontier, and for the lead at the frontier when no detached entry names the JOIN's header:
the detached set is then emptied, and unbound strands that wait there attach. Where entries name it, those that wait there
are resolved at once, in the order in which they detached (the order is the model's choice, log 42): with room in the
stream and on its core one attaches at the frontier, and without room it goes on alone (for an unbound strand the
model's choice, log 41); while one has not come the stream waits, and with all of them resolved the JOIN completes with
status 0. A detached strand with no
entry for the header completes with status 4; with an entry it waits on its slot. An unbound strand that finds no
JOIN to wait at opens a free stream, the lowest-numbered (the model's choice, log 40), with itself as its only member
(status 0), or completes with status 4 when none is free or on a gateway tile. The status goes to the destination and to L. exec answers those states
whenever the word issues and sequencing raises nothing. -/
def Obligations.split_and_join_leave_and_enter_the_stream : Prop :=
  ∀ (s : State) (e : Env) (k : Ctl) (d : Reg),
    let b := e.st.hdr
    let ss := (s.tile e.tile).streams
    (Issues s (.split k) k e →
      (e.st.fmode = .attached → ∀ t, tget (s.detach e.k e.u b e.st.header).strands e.u = some t →
        t.fmode = .detached ∧ ∀ out, e.sequence (s.detach e.k e.u b e.st.header) t = .ok out → exec (.split k) s = .next (e.finish out.1 (.split k) out.2)) ∧
      (e.st.fmode ≠ .attached → ∀ out, e.sequence (s) e.st = .ok out → exec (.split k) s = .next (e.finish out.1 (.split k) out.2))) ∧
    (Issues s (.join k d) k e →
      let done := fun (s1 : State) (status : Word) =>
        let t := (tgetD s1.strands e.u e.st).putS d status
        ∀ out, e.sequence ((e.put s1 t).modSlot e.k fun sl => { sl with joinWait := none }) t = .ok out → exec (.join k d) s = .next (e.finish out.1 (.join k d) out.2)
      (e.st.fmode = .attached → ∀ i x, (s.tile e.tile).streamOf e.k = some i → ss[i]? = some x →
        (e.sl.pos < x.frontier → done s 0) ∧
        (x.frontier ≤ e.sl.pos → (∀ q ∈ x.detached, q.2 ≠ b) →
          done (s.completeJoin e.tile i e.st.task b) 0 ∧
          ∀ y, ((s.completeJoin e.tile i e.st.task b).tile e.tile).streams[i]? = some y → y.detached = [] ∧ y.joining = none) ∧
        (x.frontier ≤ e.sl.pos → (∀ q ∈ x.detached, q.2 = b → s.waitsAt q.1 b = true) →
          let s1 := s.resolveWaiters e.tile i x b
          done (s1.completeJoin e.tile i e.st.task b) 0 ∧
          ∀ y, ((s1.completeJoin e.tile i e.st.task b).tile e.tile).streams[i]? = some y → y.detached = [] ∧ y.joining = none) ∧
        (x.frontier ≤ e.sl.pos → (∃ q ∈ x.detached, q.2 = b ∧ s.waitsAt q.1 b = false) → e.settled s (.join k d) = true →
          let s1 := s.resolveWaiters e.tile i x b
          ∀ y, (s1.tile e.tile).streams[i]? = some y →
            exec (.join k d) s = .next (s1.modTile e.tile fun t => t.setStream i { y with joining := some b })) ∧
        (∀ u k' sl t, s.slotOf u = some k' → tget s.slots k' = some sl → tget s.strands u = some t →
          let s1 := s.attachAt e.tile i u
          let room := x.members.length < 16 ∧ ∀ j ∈ x.members, coreOfSlot j ≠ coreOfSlot k'
          (room → (tget s1.strands u = some { t with fmode := .attached, stream := i }) ∧
            tget s1.slots k' = some { sl with joinWait := none, pos := x.frontier } ∧
            ∀ y, (s1.tile e.tile).streams[i]? = some y → y.members = x.members ++ [k']) ∧
          (¬ room → tget s1.strands u = some t ∧ tget s1.slots k' = some { sl with joinWait := none } ∧
            ∀ y, (s1.tile e.tile).streams[i]? = some y → y.members = x.members ∧ ∀ q ∈ y.detached, q.1 ≠ u))) ∧
      (e.st.fmode = .detached →
        ((∀ x ∈ ss, (e.u, b) ∉ x.detached) → done s 4) ∧
        ((∃ x ∈ ss, (e.u, b) ∈ x.detached) → e.sl.joinWait ≠ some b → e.settled s (.join k d) = true →
          exec (.join k d) s = .next (s.modSlot e.k fun sl => { sl with joinWait := some b }))) ∧
      (e.st.fmode = .unbound →
        (isGateway e.tile = true → done s 4) ∧
        (isGateway e.tile = false → (∀ x ∈ ss, x.joining = some b → s.streamTask x = some e.st.task → x.onCore e.core = true) →
          (∀ i, ss.findIdx? (fun x => x.members.isEmpty) = some i →
            done (e.put ((s.setTile e.tile ((s.tile e.tile).setStream i { members := [e.k] })).modSlot e.k fun sl => { sl with pos := 0 })
              { e.st with fmode := .attached, stream := i }) 0) ∧
          ((∀ x ∈ ss, x.members ≠ []) → done s 4))))

/-- With an entry header that is a multiple of 8 and, in user mode, in the user half (and for SPAWN a stack pointer that
is a multiple of 128), the strand's earlier writes are released, a record is created, and the destination and L
receive its task identifier: exec answers that state whenever the word issues, the record finds a place, SEND's
message is read and its buffer allocated, and sequencing raises nothing. When the pending pool has room the record
of SPAWN is on its tile's ready queue with the header in A, s8 from B, s9 its index, the stack pointer from C, and
the creator's task, priority and class. Where no place is found the slot waits. -/
def Obligations.spawn_and_send_create_strands : Prop :=
  ∀ (s : State) (e : Env) (k : Ctl) (d a b c : Reg) (len8 : Fin 64),
    let t := e.st.putS d (taskIdOf e.ta e.ta.next)
    let made := fun (q : State) => (e.put q t).modSlot e.k fun sl => { sl with denied := false }
    let headerOk := fun (h : Word) => h.toNat % 8 = 0 ∧ (e.st.sup = true ∨ bit h 63 = false)
    (let h := e.st.scalar a
    let i := Instr.spawn k d a b c
    let s1 := s.release e.k .tile
    let new := fun p => e.child e.tile h (e.st.scalar c) (e.st.scalar b) (e.ta.next.setWidth 64) p false .tile
    Issues s i k e → headerOk h → (e.st.scalar c).toNat % 128 = 0 →
      (∀ q, e.create s1 e.tile new = some q → ∀ out, e.sequence (made q) t = .ok out → exec i s = .next (e.finish out.1 i out.2)) ∧
      (e.create s1 e.tile new = none → e.settled s i = true → exec i s = .next (e.denied s)) ∧
      (e.st.prio < 8 → (s1.tile e.tile).pool.length < 128 → (s1.tile e.tile).overflow = [] →
        ∃ q x, e.create s1 e.tile new = some q ∧ tget q.strands s1.nextUid = some x ∧ x.task = e.st.task ∧ x.index = e.ta.next ∧
          x.home = e.tile ∧ x.place = .ready e.tile ∧ x.hdr = h ∧ x.widx = 0 ∧ x.rsp = e.st.scalar c ∧ x.prio = e.st.prio ∧
          x.cls = e.st.cls ∧ x.readS 8 = e.st.scalar b ∧ x.readS 9 = e.ta.next.setWidth 64)) ∧
    (let h := e.st.scalar c
    let i := Instr.send k d a b c len8
    Issues s i k e → headerOk h →
      ∀ tile, e.sendTarget s (e.st.scalar a) = .ok tile →
      ∀ m, e.readDwords s (e.st.scalar b) (len8.val + 1) = .ok m →
        (∀ f, m.1.allocArena e.pn 512 512 false = some f →
          let s2 := ((f.1.release e.k (scopeOfTiles e.st.home tile)).dropRdcOver e.fld f.2 m.2.length e.ctx).arenaPut e.pn f.2 m.2
          let new := fun p => e.child tile h 0 f.2 (BitVec.ofNat 64 (8 * (len8.val + 1))) p true (scopeOfTiles e.st.home tile)
          (∀ q, e.create s2 tile new = some q → ∀ out, e.sequence (made q) t = .ok out → exec i s = .next (e.finish out.1 i out.2)) ∧
          (e.create s2 tile new = none → e.settled s i = true → exec i s = .next (e.denied s))) ∧
        (m.1.allocArena e.pn 512 512 false = none → e.settled s i = true → exec i s = .next (e.denied s)))

/-- With cond true, YIELD sequences first and then has its strand put down with wait kind YIELD, standing at the word
after it. END releases the strand's writes, takes it out of its stream, its groups and whatever lists it waits on,
and frees the slot and the record, without sequencing. exec answers those states whenever the word issues (for
YIELD: and sequencing raises nothing). -/
def Obligations.yield_and_end_give_up_the_slot : Prop :=
  ∀ (s : State) (e : Env) (k : Ctl),
    (Issues s (.yieldOp k) k e → e.cond = true → ∀ x, e.sequence s e.st = .ok x →
      let s1 := (e.put x.1 x.2).suspend e.k .yield 0 0
      (∀ t, tget s1.strands e.u = some t → exec (.yieldOp k) s = .next (e.finish s1 (.yieldOp k) t)) ∧
      (∀ sl, tget x.1.slots e.k = some sl → sl.uid = e.u →
        (∃ t, tget s1.strands e.u = some t ∧ t.waitK = .yield ∧ t.hdr = x.2.hdr ∧ t.widx = x.2.widx) ∧
        (∃ sl1, tget s1.slots e.k = some sl1 ∧ sl1.hold = some .save) ∧ .event (.putDown e.k) ∈ s1.agenda)) ∧
    (Issues s (.endOp k) k e → e.cond = true →
      let s1 := ((((s.release e.k .tile).leaveStream e.k).dropEntry e.tile e.u).dropWaits e.u).dropGroups e.u false
      let s2 := (s1.vacate e.k).strandGone e.u
      (tget s2.strands e.u = none → exec (.endOp k) s = .next s2) ∧
      (tsorted s1.strands = true → (∀ t, tget s1.strands e.u = some t → t.msg = 0) → tget s2.strands e.u = none) ∧
      (tsorted s1.slots = true → tget (s1.vacate e.k).slots e.k = none))

/-- GCREATE and GOPEN look for the name in the group table of the field that their control word names, GCREATE taking
the first free entry where there is none; the strand joins unless it is a member, its lowest free handle register
receives the handle, and the status (with the handle's number, EXISTED and MEMBER) goes to the destination. No free
handle register gives status 1, no such group 0x201. GLEAVE and GDROP give the membership up, GDROP arriving first,
and clear the handle. GINFO reads an item of the entry. exec answers those states whenever the word issues, the
handle names a membership, and sequencing raises nothing; a handle that names none raises HANDLE with it in TVAL,
reserved bits of the control word raise BADADDR with it. -/
def Obligations.group_words_open_and_leave_groups : Prop :=
  ∀ (s : State) (e : Env) (k : Ctl) (d a b : Reg) (item : Fin 7) (create : Bool),
    (let i := if create then Instr.gcreate k d a b else Instr.gopen k d a b
    let x := e.st.scalar b
    let name := e.st.scalar a
    Issues s i k e →
      (bits x 63 24 ≠ 0 → e.busy = false → exec i s = .next (s.raise e.k .badaddr x false false)) ∧
      (∀ f, bits x 63 24 = 0 → (if bit x 6 then some e.fld else e.p.phys (bits x 5 0)) = some f →
        let taken := fun (j : Fin 8) => e.st.h[j].getLsbD 31
        let status := fun (w : Word) =>
          let t := e.st.putS d w
          ∀ out, e.sequence (e.put s t) t = .ok out → exec i s = .next (e.finish out.1 i out.2)
        ((∀ j, taken j = true) → status 1) ∧
        (∀ j, (∀ j' < j, taken j' = true) → taken j = false →
          let found := fun (n : Nat) (g : Group) => name ≠ 0 ∧ tfind (s.field f).groups (fun _ g => g.valid && g.name == name && g.ctx == e.ctx) = some (n, g)
          let none' := name = 0 ∨ tfind (s.field f).groups (fun _ g => g.valid && g.name == name && g.ctx == e.ctx) = none
          let withHandle := fun (n : Nat) (g : Group) (w : Nat) =>
            (e.st.writeH j (BitVec.ofNat 32 (2 ^ 31 + (e.p.logical f).getD 0 * 2 ^ 25 + n * 2 ^ 13 + g.gen.toNat % 8192))).putS d (BitVec.ofNat 64 (j.val * 256 + w))
          let joined := fun (n : Nat) (g : Group) (w : Nat) =>
            (∀ m ∈ g.members, m.taskid = e.tid → m.leave = true) → g.memb + g.joinp ≠ 65535 →
            ∀ q, s.allocArena e.pn 32 32 false = some q →
              let m : Member := { taskid := e.tid, uid := e.u, addr := q.2, home := e.tile, first := nextPhase g.phase }
              let s1 := q.1.settleGroup e.pn e.p f n 4 { g with joinp := g.joinp + 1, members := g.members ++ [m] }
              let t := withHandle n g w
              ∀ out, e.sequence (e.put s1 t) t = .ok out → exec i s = .next (e.finish out.1 i out.2)
          (none' → create = false → status 0x201) ∧
          (none' → create = true → ∀ n, (upto 4096).find? (fun n => !(s.group f n).valid) = some n →
            joined n { valid := true, gen := (s.group f n).gen, name := name, ctx := e.ctx, quorum := bits x 23 8, cosched := bit x 7 } 0) ∧
          (∀ n g, found n g → joined n g 2048) ∧
          (∀ n g, found n g → (∃ m ∈ g.members, m.taskid = e.tid ∧ m.leave = false) →
            let t := withHandle n g 6144
            ∀ out, e.sequence (e.put s t) t = .ok out → exec i s = .next (e.finish out.1 i out.2))))) ∧
    (∀ f n g m,
      (s.findMember e.p e.ctx e.tid (e.st.handle d) = some (f, n, g, m) → Issues s (.gleave k d) k e →
        let t := e.st.putH d 0
        ∀ out, e.sequence (e.put (s.settleGroup e.pn e.p f n 4 (g.depart m)) t) t = .ok out → exec (.gleave k d) s = .next (e.finish out.1 (.gleave k d) out.2)) ∧
      (s.findMember e.p e.ctx e.tid (e.st.handle d) = some (f, n, g, m) → Issues s (.gdrop k d) k e →
        ∀ g1, g.arrive m e.st.home .plain = some g1 →
          let t := e.st.putH d 0
          ∀ out, e.sequence (e.put ((s.release e.k .tile).settleGroup e.pn e.p f n 4 (g1.depart (g1.record m))) t) t = .ok out → exec (.gdrop k d) s = .next (e.finish out.1 (.gdrop k d) out.2)) ∧
      (s.findMember e.p e.ctx e.tid (e.st.handle a) = some (f, n, g, m) → Issues s (.ginfo k d a item) k e →
        let t := e.st.putS d (([
          g.phase.setWidth 64, BitVec.ofNat 64 g.memb, BitVec.ofNat 64 (g.arr + g.exc), BitVec.ofNat 64 g.joinp,
          BitVec.ofNat 64 ((if g.lastf then 256 else 0) + g.lsc * 4096), g.name,
          BitVec.ofNat 64 ((if m.arrp = g.target m then 2 ^ 32 else 0) + (g.target m).toNat)] : List Word)[item.val]!)
        ∀ out, e.sequence (e.put s t) t = .ok out → exec (.ginfo k d a item) s = .next (e.finish out.1 (.ginfo k d a item) out.2))) ∧
    (∀ i ∈ ([.gleave k a, .gdrop k a, .ginfo k d a item] : List Instr), Issues s i k e → e.busy = false →
      s.findMember e.p e.ctx e.tid (e.st.handle a) = none →
      exec i s = .next (s.raise e.k .handle ((e.st.handle a).setWidth 64) false false))

/-- An arrival releases the strand's writes and counts in the target phase: plain, as a vote, or combined into the
reduction. GARRIVE then goes on. GBAR, GVOTE and GRED go on when the phase has completed, with the status, the votes
or the result of that phase in the destination and the acquire of its scope; otherwise the strand is suspended until
it completes and repeats the word. GBAR.wait does not arrive: it waits for the phase of the last arrival. exec
answers those states whenever the word issues, the handle names a membership, and sequencing raises nothing. A
second arrival in a phase raises OVERARRIVE with the handle. -/
def Obligations.arrivals_count_and_wait_for_the_phase : Prop :=
  ∀ (s : State) (e : Env) (k : Ctl) (d a b : Reg) (rop : Fin 9),
    (∀ (f n : Nat) (g : Group) (m : Member), s.findMember e.p e.ctx e.tid (e.st.handle a) = some (f, n, g, m) →
      let done := fun (i : Instr) (v : Group → Word) (s1 : State) =>
        let t := { (e.st.putS d (v (s1.group f n))) with ap := false }
        ∀ out, e.sequence ((e.put s1 t).acquire e.k (scopeOfNum (s1.group f n).lsc)) t = .ok out → exec i s = .next (e.finish out.1 i out.2)
      let bar := fun (g : Group) => BitVec.ofNat 64 ((if g.lastf then 256 else 0) + g.lsc * 4096)
      let vote := fun (g : Group) => bar g +
        BitVec.ofNat 64 ((if g.ltrue = 0 then 0 else 512) + (if g.lfalse = 0 then 1024 else 0) + g.ltrue * 2 ^ 32)
      (∀ r ∈ ([(.gbar k d a false, .plain, bar), (.gvote k d a b, .vote ((e.st.pred b).getLsbD 0), vote),
          (.gred k d a b rop, .reduce rop.val (e.st.scalar b), Group.last)] : List (Instr × Contrib × (Group → Word))),
        Issues s r.1 k e →
          (e.st.ap = true → done r.1 r.2.2 s) ∧
          (e.st.ap = false → ∀ g1, g.arrive m e.st.home r.2.1 = some g1 →
            let s1 := (s.release e.k .tile).settleGroup e.pn e.p f n 4 g1
            ((s1.group f n).phase ≠ g.target m → (s1.group f n).phase ≠ g.phase → done r.1 r.2.2 s1) ∧
            ((s1.group f n).phase = g.target m ∨ (s1.group f n).phase = g.phase → e.settled s r.1 = true →
              exec r.1 s = .next (e.groupWait s1 f n (g.target m)))) ∧
          (e.st.ap = false → g.arrive m e.st.home r.2.1 = none → e.busy = false →
            exec r.1 s = .next (s.raise e.k .overarrive ((e.st.handle a).setWidth 64) false false))) ∧
      (Issues s (.garrive k a) k e → ∀ g1, g.arrive m e.st.home .plain = some g1 →
        ∀ t, tget ((s.release e.k .tile).settleGroup e.pn e.p f n 4 g1).strands e.u = some t →
        ∀ out, e.sequence ((s.release e.k .tile).settleGroup e.pn e.p f n 4 g1) t = .ok out → exec (.garrive k a) s = .next (e.finish out.1 (.garrive k a) out.2)) ∧
      (Issues s (.gbar k d a true) k e →
        (e.st.ap = true ∨ m.arrp = 0 ∨ m.arrp ≠ g.phase → done (.gbar k d a true) bar s) ∧
        (e.st.ap = false → m.arrp ≠ 0 → m.arrp = g.phase → e.settled s (.gbar k d a true) = true →
          exec (.gbar k d a true) s = .next (e.groupWait s f n m.arrp)))) ∧
    (∀ (g : Group) (m : Member) (home : Nat) (c : Contrib), g.unstarted m = false →
      (m.arrp = g.phase → g.arrive m home c = none) ∧
      (m.arrp ≠ g.phase → ∃ g1, g.arrive m home c = some g1 ∧ g1.arr = g.arr + 1 ∧ g1.memb = g.memb ∧
        match c with
        | .plain => g1.acc = g.acc ∧ g1.vtrue = g.vtrue ∧ g1.vfalse = g.vfalse
        | .vote v => g1.vtrue = g.vtrue + (if v then 1 else 0) ∧ g1.vfalse = g.vfalse + (if v then 0 else 1)
        | .reduce r v => g1.rset = true ∧ g1.rop = (if g.rset then g.rop else r) ∧ g1.acc =
            if g.rset then gredCombine g.rop g.acc v
            else if 8 ≤ r ∧ (readFp .fp64 v.toNat).isNan = true then BitVec.ofNat 64 (canonNan .fp64) else v))

/-- A phase completes when every member of it has arrived or is excused (phase 0: once the quorum has joined). Settling
an entry whose phase is not complete only writes it. At completion the next phase has the next number, 1 after the
largest; the accumulated value, the votes and the fault mark become those of the phase just ended; members that
leave are taken off and those that joined counted; a group left empty is freed with its generation raised. Settling
an entry whose phase is complete frees the records of the members that have left, makes ready every strand that waits
for the phase just ended, and settles the entry of the next phase; a strand that waited with its record in the pool is
then on its tile's ready queue with no wait. -/
def Obligations.a_group_phase_completes_once_all_have_arrived : Prop :=
  ∀ (s : State) (part : Nat) (p : Partition) (f i n : Nat) (g : Group),
    (g.ready = true ↔ g.valid = true ∧ g.arr + g.exc = g.memb ∧ (g.phase ≠ 0 ∨ max g.quorum 1 ≤ g.joinp)) ∧
    (g.ready = false → s.settleGroup part p f i n g = s.putGroup p f i g) ∧
    (g.ready = true →
      let s1 := g.complete.2.foldl (fun x m => x.freeArena part m.addr 32) s
      let woken := s1.groupWaiters part (groupAddr p f i) g.phase
      let s2 := woken.foldl State.makeReady s1
      s.settleGroup part p f i (n + 1) g = (s2.settleGroup part p f i n g.complete.1).raiseTurns g.complete.1 ∧
      (∀ m, m ∈ g.complete.2 ↔ m ∈ g.started ∧ m.leave = true) ∧
      (∀ u, u ∈ woken ↔ ∃ t, (u, t) ∈ s1.strands ∧ t.part = part ∧ t.waitK = .group ∧ t.waita = groupAddr p f i ∧
        t.waitv = g.phase.setWidth 64) ∧
      (∀ u t, tget s1.strands u = some t → t.place = .waiting →
        ∃ x, tget (s1.makeReady u).strands u = some x ∧ x.waitK = .none ∧ x.place = .ready t.home)) ∧
    (let r := g.complete.1
    let left := g.memb - g.leavep + g.joinp
    (left = 0 → g.joinp = 0 → r = { valid := false, gen := g.gen + 1 }) ∧
    (left ≠ 0 → r.valid = g.valid ∧ r.gen = g.gen ∧ r.name = g.name ∧
      r.phase = (if g.phase = 0xFFFFFFFF#32 then 1 else g.phase + 1) ∧ r.memb = left ∧ r.joinp = 0 ∧ r.last = g.acc ∧
      r.ltrue = g.vtrue ∧ r.lfalse = g.vfalse ∧ r.lastf = g.faulted ∧ r.faulted = false))

/-- TREQ asks for up to the tokens that its class costs beyond the tile's GRANT: 0 wanted gives status 0; a droop hold
0x102; a waiter of equal or higher priority 0x202; else the free tokens and what the Crucible can add are given,
whole, or in part with code 5 unless .all is set, or refused with 2. TREL returns tokens of the GRANT and gives
their number. TLEND moves tokens to another lit tile within its cap and records a loan, or is refused with the code
of the first condition that fails. TSTAT reads an item. exec answers those states whenever the word issues on a tile
other than a gateway and sequencing raises nothing; on a gateway each raises ENGINE with its word. -/
def Obligations.token_words_move_tokens : Prop :=
  ∀ (s : State) (e : Env) (k : Ctl) (d a b : Reg) (all : Bool) (item : Fin 9),
    let t := e.tile
    let grant := (s.tile t).grant
    let free := (s.field e.fld).free
    let full := fun (t : Nat) => match tileKind t with
      | .dense => 240
      | .sparse => 176
      | .attention => 256
      | .vectorHeavy => 160
      | _ => 0
    let cost := fun (t c : Nat) => if c = 7 then full t else full t * c / 8
    let done := fun (i : Instr) (s1 : State) (w : Nat) =>
      let q := e.st.putS d (BitVec.ofNat 64 w)
      ∀ out, e.sequence (e.put s1 q) q = .ok out → exec i s = .next (e.finish out.1 i out.2)
    (tileKind t ≠ .gateway →
      (let i := Instr.treq k d a all
      let want := min (e.st.scalar a).toNat (cost t e.st.cls - grant)
      let higher := ∃ w ∈ (s.field e.fld).waiters, e.st.prio ≤ s.waiterPrio w
      let top := min ((want - free + 7) / 8 * 8) (s.canTop e.fld)
      let got := min want (free + top)
      Issues s i k e →
        (want = 0 → done i s 0) ∧
        (want ≠ 0 → s.holdIn e.fld = true → done i s 0x102) ∧
        (want ≠ 0 → s.holdIn e.fld = false → higher → done i s 0x202) ∧
        (want ≠ 0 → s.holdIn e.fld = false → ¬ higher →
          (got < want → all = true ∨ got = 0 → done i s 2) ∧
          (got = want ∨ all = false ∧ got ≠ 0 →
            let s1 := if top = 0 then s else s.topUp e.fld top
            let s2 := (s1.modField e.fld fun x => { x with free := x.free - got }).addGrant t got
            done i (if top = 0 then s2 else s2.serveField e.fld) (got * 256 + if got = want then 0 else 5)))) ∧
      (let i := Instr.trel k d a
      let n := min (e.st.scalar a).toNat grant
      Issues s i k e →
        let s1 := ((e.put s (e.st.putS d (BitVec.ofNat 64 n))).returnGrant t n).serveFields (s.touchedFields t)
        (∀ q, tget s1.strands e.u = some q → ∀ out, e.sequence (s1) q = .ok out → exec i s = .next (e.finish out.1 i out.2)) ∧
        (s.loans = [] → (s.field (fieldOfTile t)).retired = false →
          s.returnGrant t n = (s.modTile t fun x => { x with grant := x.grant - n }).modField (fieldOfTile t) fun x => { x with free := x.free + n })) ∧
      (let i := Instr.tlend k d a b
      let n := (e.st.scalar b).toNat
      Issues s i k e → ∀ dst, e.lendTarget s (e.st.scalar a) = .ok dst →
        let hold := s.holdIn e.fld = true ∨ s.holdIn (fieldOfTile dst) = true
        (n = 0 → done i s 0) ∧
        (n ≠ 0 → dst = t → done i s 0x502) ∧
        (n ≠ 0 → dst ≠ t →
          (hold → done i s 0x102) ∧
          (¬ hold → (s.tile dst).lit = false → done i s 0x302) ∧
          (¬ hold → (s.tile dst).lit = true → s.lendable t < n → done i s 2) ∧
          (¬ hold → (s.tile dst).lit = true → n ≤ s.lendable t → full dst < (s.tile dst).grant + n → done i s 0x402) ∧
          (¬ hold → (s.tile dst).lit = true → n ≤ s.lendable t → (s.tile dst).grant + n ≤ full dst →
            let s1 := (s.modTile t fun x => { x with grant := x.grant - n }).addGrant dst n
            done i { s1 with loans := { lender := t, borrower := dst, amount := n } :: s1.loans } (n * 256)))) ∧
      (Issues s (.tstat k d item) k e → done (.tstat k d item) s (([
        grant, free, s.lent t, s.borrowed t, ((upto 16).map fun j => (s.core (t * 16 + j)).lease).sum, (s.field e.fld).waiters.length,
        ((upto (e.st.cls + 1)).filter fun c => 0 < c ∧ cost t c ≤ grant).foldl max 0, cost t e.st.cls,
        (s.field e.fld).holds.toNat] : List Nat)[item.val]!))) ∧
    (tileKind t = .gateway → e.busy = false →
      ∀ i ∈ ([.treq k d a all, .trel k d a, .tlend k d a b, .tstat k d item] : List Instr), Issues s i k e →
        exec i s = .next (s.raise e.k .engine (encodeWord i) false false))

/-- TDEF reads 16 dwords at an address that is a multiple of 64 and, when they form a legal descriptor, makes them the
entry of the identifier in the context's table with its SERIAL one higher; TGET posts the 16 dwords of the entry;
TDROP makes the entry absent, its SERIAL one higher. No register is written. exec answers those states whenever the
word issues, the identifier is at most 1023, the accesses succeed and sequencing raises nothing. A bad address
raises ALIGN with it, an identifier above 1023 or a descriptor that is not legal raises TENSOR with the word. -/
def Obligations.tensor_words_define_read_and_drop_entries : Prop :=
  ∀ (s : State) (e : Env) (k : Ctl) (n : TensorId) (b : Reg),
    let va := e.st.scalar b
    let old := fun (id : Nat) => e.p.tensor e.ctx id
    let numbered := fun (id : Nat) (x : Entry) => x.set 0 (putBits x[0] 63 48 ((tSerial (old id)).toNat + 1))
    (∀ m, e.tensorId (.lit m) = .ok m.val) ∧
    (∀ r, bits (e.st.scalar r) 63 10 = 0 → e.tensorId (.reg r) = .ok (bits (e.st.scalar r) 9 0)) ∧
    (∀ r, bits (e.st.scalar r) 63 10 ≠ 0 → e.busy = false → ∀ i ∈ ([.tdef k (.reg r) b, .tget k (.reg r) b, .tdrop k (.reg r)] : List Instr),
      Issues s i k e → exec i s = .next (s.raise e.k .tensor (encodeWord i) false false)) ∧
    (∀ id, e.tensorId n = .ok id →
      (∀ i ∈ ([.tdef k n b, .tget k n b] : List Instr), Issues s i k e → va.toNat % 64 ≠ 0 → e.busy = false →
        exec i s = .next (s.raise e.k .align va false false)) ∧
      (Issues s (.tdef k n b) k e → va.toNat % 64 = 0 → ∀ m, e.readDwords s va 16 = .ok m →
        let x := entryOf m.2
        let s1 := m.1.setTensor e.pn e.ctx id (numbered id x)
        (descOk id x = true →
          (∀ t, tget s1.strands e.u = some t → ∀ out, e.sequence (s1) t = .ok out → exec (.tdef k n b) s = .next (e.finish out.1 (.tdef k n b) out.2)) ∧
          ∀ p, tget s1.parts e.pn = some p → p.tensor e.ctx id = numbered id x) ∧
        (descOk id x = false → e.busy = false → exec (.tdef k n b) s = .next (s.raise e.k .tensor (encodeWord (.tdef k n b)) false false))) ∧
      (Issues s (.tget k n b) k e → va.toNat % 64 = 0 → ∀ m, e.entryStores va (old id).toList s = .ok m →
        ∀ sl, tget m.1.slots e.k = some sl → sl.buf.length + m.2.length ≤ 32 →
          let s1 := (m.1.setSlot e.k { sl with buf := sl.buf ++ m.2 }).postOnce (.storeBufferDrain e.k)
          ∀ t, tget s1.strands e.u = some t → ∀ out, e.sequence (s1) t = .ok out → exec (.tget k n b) s = .next (e.finish out.1 (.tget k n b) out.2)) ∧
      (Issues s (.tdrop k n) k e →
        let s1 := s.setTensor e.pn e.ctx id (numbered id (Vector.replicate 16 0))
        ∀ out, e.sequence (s1) e.st = .ok out → exec (.tdrop k n) s = .next (e.finish out.1 (.tdrop k n) out.2)))

/-- COPY and COPYS read a control block of 8 dwords at a multiple of 64, check it, perform the strand's earlier writes,
and put one command at the tail of the core's copy queue, which holds 16; SCRUB does so with the scrubber queue of
the frame's field. No register is written. exec answers those states whenever the word issues, the block is as R310
or R403 asks, the queue has room and sequencing raises nothing. While the queue is full the word waits. -/
def Obligations.copy_words_queue_a_command : Prop :=
  ∀ (s : State) (e : Env) (k : Ctl) (a b c : Reg) (sc : Scope),
    let counterOk := fun (x : Word) => x = 0 ∨ (x.toNat % 8 = 0 ∧ inWindow x = false)
    let queued := fun (i : Instr) (s1 : State) (cmd : CopyCmd) =>
      let q := tgetD (s1.tile e.tile).copies (e.core % 16) {}
      let s2 := (((s1.release e.k sc).writeBackSlot e.k).modTile e.tile fun t =>
        { t with copies := tput t.copies (e.core % 16) { q with cmds := q.cmds ++ [cmd] } }).postOnce (.copyChunk e.tile)
      (q.cmds.length < 16 → ∀ t, tget s2.strands e.u = some t → ∀ out, e.sequence (s2) t = .ok out → exec i s = .next (e.finish out.1 i out.2)) ∧
      (16 ≤ q.cmds.length → exec i s = .next s)
    (∀ w, e.controlBlock s (e.st.scalar a) = .ok w → Issues s (.copy k a sc) k e →
      bits (w.2 2) 63 32 = 0 → w.2 5 = 0 → w.2 6 = 0 → w.2 7 = 0 →
      (w.2 0).toNat % 4 = 0 → (w.2 1).toNat % 4 = 0 → (w.2 2).toNat % 4 = 0 →
      ((w.2 2).toNat ≠ 0 → e.checkRun w.1 (w.2 0) (w.2 2).toNat = .ok () ∧ e.checkRun w.1 (w.2 1) (w.2 2).toNat = .ok ()) → counterOk (w.2 3) →
      queued (.copy k a sc) w.1 { e.copyCmd sc (w.2 3) (w.2 4) with src := w.2 0, dst := w.2 1, len := (w.2 2).toNat }) ∧
    (∀ w, e.controlBlock s (e.st.scalar c) = .ok w → Issues s (.copys k a b c sc) k e →
      bits (e.st.scalar a) 63 10 = 0 → bits (e.st.scalar b) 63 10 = 0 →
      let x := e.p.tensor e.ctx (bits (e.st.scalar a) 9 0)
      let y := e.p.tensor e.ctx (bits (e.st.scalar b) 9 0)
      let so := halves (w.2 0) (w.2 1)
      let dor := halves (w.2 2) (w.2 3)
      let sh := halves (w.2 4) (w.2 5)
      windowOk x y so dor sh = true → counterOk (w.2 6) →
      queued (.copys k a b c sc) w.1 { e.copyCmd sc (w.2 6) (w.2 7) with tens := some (x, y), sorg := so, dorg := dor, shp := sh }) ∧
    (let x := e.st.scalar a
    let i := Instr.scrub k a
    Issues s i k e → x.toNat % 64 = 0 → ∀ m, e.readDwords s x 8 = .ok m →
      let dw := fun (n : Nat) => wordOfBytes ((m.2.drop (8 * n)).take 8)
      let fr := (dw 0).toNat
      let big := bit (dw 1) 0
      let f := if isTier fr then e.fld else fieldOfPa fr
      (dw 1).toNat < 2 → dw 6 = 0 → dw 7 = 0 → fr % (if big then 2 ^ 21 else 2 ^ 16) = 0 → m.1.ownsFrame e.p fr (if big then 2 ^ 21 else 2 ^ 16) = true →
      (dw 2).toNat % 64 = 0 → counterOk (dw 3) →
      let cmd : Scrub := { part := e.pn, ctx := e.ctx, task := e.st.task, k := e.k, taskid := taskIdOf e.ta e.st.index, tpc := e.st.pc, hdr := e.st.hdr, blk := x, frame := fr, big := big, pool := dw 2, ctr := dw 3, addv := dw 4 }
      let s1 := (m.1.modField f fun y => { y with scrubs := y.scrubs ++ [cmd] }).postOnce (.scrubberRun f)
      ((m.1.field f).scrubs.length < 16 → ∀ t, tget s1.strands e.u = some t → ∀ out, e.sequence (s1) t = .ok out → exec i s = .next (e.finish out.1 i out.2)) ∧
      (16 ≤ (m.1.field f).scrubs.length → exec i s = .next s))

/-- When the tile's engine has finished the last row-block of the strand's instruction, the word completes: exec answers
the state without the job and its resume record, RPROG is 0, ZSUB is set if an operand element was replaced by zero,
the core's clean words are dropped, and the strand sequences. Before that the word waits on its slot, and it waits
too after the strand's writes have been released and, over the state they leave, the checks and the leave check have
put it at the end of the engine's order, provided its own sequencing will not fault.

What the row-block of each writes, over the elements that it loads, element by element. MM, MMDIST and SPMM: each
accumulator, +0 or the old element, takes one rounded addition of the exact partial of each block pair, the products' sum
or the squared distances'; a NaN block makes it a NaN. MMTOPK: the best columns and values of the old list and the tile. ATTN:
each row of a band through the chunks of keys, its values, maximum and sum. VEMAP, VEZIP, VECVT: the function of each element,
rounded to the result's format. VERED, VENORM and VESOFT: the reduction, the normalised row and the softmax of each row. Where
two neighbours bracket a result, which one is the model's choice (log 20); a tree node with one child passes it on (the model's
reading, log 72). -/
def Obligations.row_block_engine_words_run_to_completion : Prop :=
  ∀ (s : State) (e : Env) (k : Ctl) (d a b : Reg) (tx ty : Fin 1024) (x1 : Bool) (g1 : Option (Fin 1024)) (rm : Option RoundMode),
    (∀ r ∈ ([
      (.mm k a tx ty x1, prepMm (.mm k a tx ty x1) a tx.val ty.val),
      (.mmdist k a tx ty x1, prepMm (.mmdist k a tx ty x1) a tx.val ty.val),
      (.mmtopk k a b tx ty x1, prepTopk (.mmtopk k a b tx ty x1) a b tx.val ty.val),
      (.spmm k a b tx ty x1, prepSpmm (.spmm k a b tx ty x1) a b tx.val ty.val),
      (.attn k d a b tx ty x1, prepAttn (.attn k d a b tx ty x1) d a b tx.val ty.val x1),
      (.vemap k a b tx, prepVe (.vemap k a b tx) a (some b) tx.val none emapOk),
      (.vezip k a b tx ty, prepVe (.vezip k a b tx ty) a (some b) tx.val (some ty.val) ezipOk),
      (.vered k a b tx x1, prepVe (.vered k a b tx x1) a (some b) tx.val none redOk),
      (.venorm k a b tx g1 x1, prepVe (.venorm k a b tx g1 x1) a (some b) tx.val (g1.map (·.val)) (normOk g1.isSome)),
      (.vesoft k a b tx, prepVe (.vesoft k a b tx) a (some b) tx.val none softOk),
      (.vecvt k a tx rm, prepVe (.vecvt k a tx rm) a none tx.val none (ecvtOk (rm.getD .rne)))] :
      List (Instr × (Env → State → Res (State × Job)))),
      Issues s r.1 k e →
      (∀ j, (s.tile e.tile).jobs.find? (fun j => j.u = e.u) = some j →
        (j.status = .done →
          let s1 := s.modTile e.tile fun t => { t with jobs := t.jobs.filter fun q => q.u != e.u }
          let s2 := if bits e.st.rprog 3 0 = 0 then s1 else s1.freeArena e.pn (BitVec.ofNat 64 (e.st.rprog.toNat / 64 * 64)) 64
          let t := { e.st with rprog := 0, zsub := e.st.zsub || j.zsub }
          ∀ out, e.sequence ((e.put s2 t).dropClean e.core) t = .ok out → exec r.1 s = .next (e.finish out.1 r.1 out.2)) ∧
        (j.status = .ready ∨ j.status = .running → exec r.1 s = .next s)) ∧
      ((∀ j ∈ (s.tile e.tile).jobs, j.u ≠ e.u) → ∀ q, r.2 e (s.release e.k .tile) = .ok q →
        (q.2.heavy = true → tileCost e.tile e.st.cls ≤ (q.1.tile e.tile).grant) → e.settled s r.1 = true →
        exec r.1 s = .next ((q.1.modTile e.tile fun t => { t with jobs := t.jobs ++ [q.2] }).postOnce (.rowBlockStart e.tile)))) ∧
    (∀ (j : Job),
      let x := j.ent 0
      let y := j.ent 1
      let c := j.ent 2
      let goes := fun (l : List (Word × Nat × Nat)) (t : State × Bool) (ws : List StoreElem) (t1 : State × Bool) =>
        (l.mapM fun p => engWrite j p.1 p.2.1 p.2.2) t = .ok (ws, t1)
      let writes := fun (ws : List StoreElem) (t : State × Bool) => ∃ b, engRun j.block s = .ok (b, t) ∧ b.writes = ws
      let matrix := fun (dist acc : Bool) (w mm nn nk : Nat) (loadA : List Nat → List Nat → Eng (List (List Block))) =>
        let tn := (nn + 63) / 64
        let ms := tileSpan mm (j.pos.1 / tn)
        let ns := tileSpan nn (j.pos.1 % tn)
        let ks := (upto (min (j.pos.2 + 256 / w) nk - j.pos.2)).map fun i => j.pos.2 + i
        let zeros := ms.map fun _ => ns.map fun _ => Fp.fin false 0 0
        ∀ as bs cs ws t1 t2 t3 t4, loadA ms ks (s, false) = .ok (as, t1) →
          (ns.mapM fun n => ks.mapM fun q => do return pipeB y (← readPiece j y 1 (j.id 1) q n 0 0 32)) t1 = .ok (bs, t2) →
          (if j.pos.2 = 0 ∧ acc = false then cs = zeros ∧ t3 = t2
            else ((ms.zip (upto ms.length)).mapM fun m => accRow j m.2 m.1 (j.pos.1 % tn) ns.length) t2 = .ok (cs, t3)) →
          goes ((ms.zip (as.zip cs)).flatMap fun m => (ns.zip (bs.zip m.2.2)).map fun n =>
            (tElem c n.1 m.1 0 0, 4, fp32Of (accumAll dist w n.2.2 m.2.1 n.2.1))) t3 ws t4 → writes ws t4
      (∀ r ∈ ([(.mm k a tx ty x1, false), (.mmdist k a tx ty x1, true)] : List (Instr × Bool)), j.instr = r.1 →
        matrix r.2 x1 (pipeW x) (tExt x 1) (tExt y 1) (tExt x 0 / 32) fun ms ks =>
          ms.mapM fun m => ks.mapM fun q => do return pipeA x (← readPiece j x 0 (j.id 0) q m 0 0 32)) ∧
      (j.instr = .spmm k a b tx ty x1 → matrix false x1 (tW x) (tExt c 1) (tExt y 1) (tExt y 0 / 32) (sparseA j (tExt y 0))) ∧
      (j.instr = .mmtopk k a b tx ty x1 →
        let nk := tExt x 0 / 32
        let kk := tExt c 0
        let tn := (tExt y 1 + 63) / 64
        let ms := tileSpan (tExt x 1) (j.pos.1 / tn)
        let ns := tileSpan (tExt y 1) (j.pos.1 % tn)
        ∀ as bs os ws t1 t2 t3 t4, denseA j ms (upto nk) (s, false) = .ok (as, t1) →
          (ns.mapM fun n => (upto nk).mapM fun q => do return pipeB y (← readPiece j y 1 (j.id 1) q n 0 0 32)) t1 = .ok (bs, t2) →
          (if j.pos.1 % tn = 0 then os = ms.map (fun _ => []) ∧ t3 = t2
            else ((ms.zip (upto ms.length)).mapM fun m => listRow j m.2 m.1 kk) t2 = .ok (os, t3)) →
          goes ((ms.zip (as.zip os)).flatMap fun m =>
            let best := (sortBy (better x1) (m.2.2 ++ (ns.zip bs).map fun n =>
              ({ val := accumAll x1 (pipeW x) (.fin false 0 0) m.2.1 n.2, n := n.1 } : Cand))).take kk
            (upto kk).flatMap fun i =>
              let p := (best[i]?.map fun z => (z.n, fp32Of z.val)).getD (0xFFFFFFFF, 0x7FC00000)
              [(tElem c i m.1 0 0, 4, p.1), (tElem (j.ent 3) i m.1 0 0, 4, p.2)]) t3 ws t4 → writes ws t4) ∧
      (j.instr = .attn k d a b tx ty x1 →
        let dd := tExt x 0
        let t := j.treeOf s
        let ks := keysOf j.sequence j.len0 (if j.tree.isSome then t.n else 0)
        let nc := (ks.count + 31) / 32
        let c1 := min (j.pos.2 + max 1 (1024 / dd)) nc
        let rows := tileSpan (tExt x 1) j.pos.1
        ∀ qs chunks starts ws t0 t1 t2 t3 t4, attnTree j t (s, false) = .ok ((), t0) →
          (rows.mapM fun r => (upto (dd / 32)).mapM fun q => do return pipeA x (← readPiece j x 0 (j.id 0) q r 0 0 32)) t0 = .ok (qs, t1) →
          ((upto (c1 - j.pos.2)).mapM fun i => loadChunk j j.sequence dd ks (j.pos.2 + i)) t1 = .ok (chunks, t2) →
          ((rows.zip (upto rows.length)).mapM fun r => attnStart j dd j.pos.2 r.2 r.1) t2 = .ok (starts, t3) →
          goes ((rows.zip (qs.zip starts)).flatMap fun r =>
            let o := attnOut (decide (nc ≤ c1)) dd (attnRow j t x1 r.1 r.2.1 chunks r.2.2)
            (o.1.zip (upto o.1.length)).map (fun v => (tElem c v.2 r.1 0 0, 4, v.1)) ++
              [(tElem (j.ent 3) 0 r.1 0 0, 4, o.2.1), (tElem (j.ent 3) 1 r.1 0 0, 4, o.2.2)]) t3 ws t4 → writes ws t4) ∧
      (let g := j.compute
      let f := fnOf j.parm
      let const := inFmt g (fnConst j.parm)
      let runs := fun (rate : Nat) (md : RoundMode) (val : Seg → Nat × Nat × Nat → Eng (List Fp)) =>
        ∀ ws t, ((segsOf c j.linear (min (j.linear + 256 * rate) (tCount c))).mapM fun q => do
          writeSeg j c md q (← val q (rowCoords c q.row))) (s, false) = .ok (ws, t) → writes ws.flatten t
      let lines := fun (cost : Nat → Nat) (row : Nat → Eng (List StoreElem)) =>
        ∀ ws t, ((upto (min (max 1 (largestOk (fun n => cost n ≤ 256) 20 0)) (tRows x - j.linear))).mapM fun i => row (j.linear + i))
          (s, false) = .ok (ws, t) → writes ws.flatten t
      let n := tExt x 0
      let lane := if g = .fp64 then 256 else 1024
      (j.instr = .vemap k a b tx → runs (if 8 ≤ f then 256 else lane) .rne fun q at_ => do
        return (← readSeg j x 0 (j.id 0) q at_).map fun v => mapFn g f const (inFmt g v)) ∧
      (j.instr = .vezip k a b tx ty → runs lane .rne fun q at_ => do
        let l ← readSeg j x 0 (j.id 0) q at_
        return List.zipWith (fun u v => zipFn g f const (inFmt g u) (inFmt g v)) l (← readOther j y (j.id 1) q at_)) ∧
      (j.instr = .vecvt k a tx rm → runs lane (rm.getD .rne) fun q at_ => readSeg j x 0 (j.id 0) q at_) ∧
      (j.instr = .vered k a b tx x1 → lines (fun q => (q * n + lane - 1) / lane) fun r => do
        let l ← sourceRow j r
        let v := inFmt g (fpTree (redNode g f) 17 (l.map (redLeaf f)))
        let at_ := rowCoords c r
        let old ← if x1 then readRow j c 2 (j.id 2) 0 at_.1 at_.2.1 at_.2.2 1 else pure []
        writeRow j c r [(old[0]?.map fun o => redNode g f (inFmt g o) v).getD v]) ∧
      (j.instr = .venorm k a b tx g1 x1 → lines (fun q => (if x1 then 3 else 2) * ((q * n + lane - 1) / lane) + (q + 255) / 256) fun r => do
        let l ← sourceRow j r
        let gs ← if g1.isSome then readRow j y 1 (j.id 1) 0 0 0 0 n else pure []
        writeRow j c r (normRow g x1 (inFmt g (readFp .fp32 (j.parm.toNat % 2 ^ 32))) (gs.map (inFmt g)) l)) ∧
      (j.instr = .vesoft k a b tx → lines (fun q => 2 * ((q * n + 1023) / 1024) + (q * n + 255) / 256) fun r => do
        writeRow j c r (softRow (readFp .fp32 (j.parm.toNat % 2 ^ 32)) (← sourceRow j r))))) ∧
    (∀ (w : Nat) (p q : Block) (ps qs : List Block) (c0 : Fp) (dist : Bool),
      let real := fun (w : Nat) (p : Block) => p.m.map fun v => (v : ℚ) * (2 : ℚ) ^ ((p.e : Int) - 127 - (w - 1))
      let part := if dist then partialDist w p q else partialMul w 8 p q
      accumAll dist w c0 [] [] = c0 ∧
      accumAll dist w c0 (p :: ps) (q :: qs) = accumAll dist w (accumulate c0 part) ps qs ∧
      (p.e = 255 ∨ q.e = 255 → accumulate c0 part = .nan false) ∧
      (p.e ≠ 255 → q.e ≠ 255 → ∃ m e2, part = some (m, e2) ∧
        (m : ℚ) * (2 : ℚ) ^ e2 = (List.zipWith (fun u v => if dist then (u - v) ^ 2 else u * v) (real w p) (real 8 q)).sum ∧
        accumulate c0 part = readFp .fp32 (addFp .fp32 rneOnly c0 (.fin (m < 0) m.natAbs e2) false).1)) ∧
    (∀ (fm : FpFmt) (c u v : Fp),
      let add := fun (p q : Fp) => asFp fm (addFp fm rneOnly p q false)
      mapFn fm 0 c u = u ∧ mapFn fm 2 c u = u.negate ∧ mapFn fm 3 c u = asFp fm (mulFp fm rneOnly c u) ∧ mapFn fm 4 c u = add u c ∧
      mapFn fm 6 c u = asFp fm (sqrtFp fm rneOnly u) ∧ mapFn fm 7 c u = asFp fm (gRcp fm rneOnly u) ∧
      zipFn fm 0 c u v = add u v ∧ zipFn fm 1 c u v = add u v.negate ∧ zipFn fm 2 c u v = asFp fm (mulFp fm rneOnly u v) ∧
      zipFn fm 3 c u v = asFp fm (divFp fm rneOnly u v) ∧ zipFn fm 6 c u v = asFp fm (fmaFp fm rneOnly false c u v) ∧
      redNode fm 0 u v = add u v ∧ redNode fm 3 u v = add u v ∧ fpTree (redNode fm 0) 17 [u, v] = add u v ∧ fpTree (redNode fm 0) 17 [u] = u)

/-- Each releases the strand's writes, does its work, writes its results at the home slices and drops the core's clean
words. SPCOMP writes the kept elements and gives the mask bytes in a vector; ATTMERGE merges row after row and
writes no register; KVAPP and KVLOOK read the length as an acquire; KVAPP gives the status of the append, KVLOOK up
to 64 elements of a visible position in FP32; BADDQ gives the number of saturated elements; GWNEXT pops the port's
oldest block index, or gives 0. exec answers those states whenever the word issues, the entries are as the rules
ask, the accesses succeed and sequencing raises nothing. Entries that are not as the rules ask raise TENSOR with the word, in each but GWNEXT, which
names none; a position that is not visible raises KVSTALE with it, and a length of another generation KVSTALE with the
length. -/
def Obligations.engine_words_done_at_once : Prop :=
  ∀ (s : State) (e : Env) (k : Ctl) (d a b : Reg) (tx ty : Fin 1024) (x1 : Bool),
    let s0 := s.release e.k .tile
    (let i := Instr.spcomp k d tx ty
    let j0 := e.newJob i false [tx.val, ty.val, 0, 0]
    let j := { j0 with ents := j0.ents.take 2 }
    Issues s i k e →
      (spcompOk (j.ent 0) (j.ent 1) = true → ∀ j1, e.resumed s0 j = .ok j1 → ∀ q, engRun (spcompWork j) s0 = .ok q →
        let t := { (e.st.putV d (BitVec.ofNat 2048 (packN 8 q.1.2))) with zsub := e.st.zsub || q.2.2 }
        ∀ out, e.sequence ((e.put (q.2.1.putElems j.writer q.1.1) t).dropClean e.core) t = .ok out → exec i s = .next (e.finish out.1 i out.2)) ∧
      (spcompOk (j.ent 0) (j.ent 1) = false → e.busy = false → exec i s = .next (s.raise e.k .tensor (encodeWord i) false false))) ∧
    (let i := Instr.attmerge k a b tx ty
    let j := e.newJob i false [tx.val, ty.val, bits (e.st.scalar a) 9 0, bits (e.st.scalar b) 9 0]
    let good := bits (e.st.scalar a) 63 10 = 0 ∧ bits (e.st.scalar b) 63 10 = 0 ∧ mergeOk (j.ent 0) (j.ent 1) (j.ent 2) (j.ent 3) = true
    Issues s i k e →
      (good → ∀ q, engRun (mergeCheck j) s0 = .ok q → ∀ s1, mergeRows j e.k (upto (tExt (j.ent 0) 1)) q.2.1 = .ok s1 →
        ∀ out, e.sequence ((e.put s1 e.st).dropClean e.core) e.st = .ok out → exec i s = .next (e.finish out.1 i out.2)) ∧
      (¬ good → e.busy = false → exec i s = .next (s.raise e.k .tensor (encodeWord i) false false))) ∧
    (let i := Instr.kvapp k d tx ty
    let j := e.newJob i false [tx.val, ty.val, 0, 0]
    let x := j.ent 0
    let y := j.ent 1
    Issues s i k e →
      (kvOk x = true → appSrcOk x y = true → ∀ q, e.kvHeader s0 x = .ok q →
        ((tChk x = false ∨ genOfLen x q.2.1 = tWgen x) →
          ∀ r, e.append j x q.2.2 q.2.1 (tExt y 1) (fun n c => readRow j y 1 ty.val 0 n c 0 (tExt x 0)) q.1 = .ok r →
            let t := { (e.st.putS d r.status) with zsub := e.st.zsub || r.zsub }
            ∀ out, e.sequence ((e.put r.state t).dropClean e.core) t = .ok out → exec i s = .next (e.finish out.1 i out.2)) ∧
        (tChk x = true → genOfLen x q.2.1 ≠ tWgen x → e.busy = false →
          exec i s = .next (s.raise e.k .kvstale (BitVec.ofNat 64 q.2.1) false false))) ∧
      (kvOk x = false ∨ appSrcOk x y = false → e.busy = false → exec i s = .next (s.raise e.k .tensor (encodeWord i) false false))) ∧
    (let i := Instr.kvlook k d a b tx x1
    let j := e.newJob i false [tx.val, 0, 0, 0]
    let x := j.ent 0
    let p := (e.st.scalar a).toNat
    let el := (e.st.scalar b).toNat
    let good := kvOk x = true ∧ el % 64 = 0 ∧ el < tExt x 0
    Issues s i k e →
      (good → ∀ q, e.kvHeader s0 x = .ok q →
        let visible := p < q.2.1 ∧ (p < tSink x ∨ q.2.1 ≤ p + tWin x)
        let fresh := tChk x = false ∨ genOfLen x q.2.1 = tWgen x
        (fresh → visible → ∀ r, engRun (kvRow j x p el x1) q.1 = .ok r →
          let t := e.st.putV d (ofElems r.1 false)
          ∀ out, e.sequence ((e.put r.2.1 t).dropClean e.core) t = .ok out → exec i s = .next (e.finish out.1 i out.2)) ∧
        (fresh → ¬ visible → e.busy = false → exec i s = .next (s.raise e.k .kvstale (e.st.scalar a) false false)) ∧
        (¬ fresh → e.busy = false → exec i s = .next (s.raise e.k .kvstale (BitVec.ofNat 64 q.2.1) false false))) ∧
      (¬ good → e.busy = false → exec i s = .next (s.raise e.k .tensor (encodeWord i) false false))) ∧
    (∀ n, portOfTile e.tile = some n → Issues s (.gwnext k d) k e →
      (let t := e.st.putS d 0
      (s.port n).blocks = [] → ∀ out, e.sequence (e.put s t) t = .ok out → exec (.gwnext k d) s = .next (e.finish out.1 (.gwnext k d) out.2)) ∧
      (∀ x r, (s.port n).blocks = x :: r →
        let t := e.st.putS d x
        ∀ out, e.sequence ((e.put (s.modPort n fun y => { y with blocks := r }) t).acquire e.k .tile) t = .ok out → exec (.gwnext k d) s = .next (e.finish out.1 (.gwnext k d) out.2))) ∧
    (let i := Instr.baddq k d a tx ty x1
    let x := e.p.tensor e.ctx tx.val
    let y := e.p.tensor e.ctx ty.val
    let first := bits (e.st.scalar a) 31 0
    let nb := bits (e.st.scalar a) 47 32
    Issues s i k e →
      (baddqOk x y x1 first nb = true → ∀ q, e.baddqPlaces x y ((upto nb).map (first + ·)) (s.release e.k .module) = .ok q →
        (∀ p ∈ q.2.flatMap fun p => p.1 ++ p.2, q.1.lostAt p.2.1 p.2.2 = false) →
        let r := e.baddqLoop x y x1 q.2 q.1 0
        let t := e.st.putS d (BitVec.ofNat 64 r.2)
        ∀ out, e.sequence ((e.put r.1 t).dropClean e.core) t = .ok out → exec i s = .next (e.finish out.1 i out.2)) ∧
      (baddqOk x y x1 first nb = false → e.busy = false → exec i s = .next (s.raise e.k .tensor (encodeWord i) false false)))

/-- TTSET reads the parents of up to 256 nodes and, when every node's parent comes before it and no node is deeper than
63, makes them the tree that TREESEL selects, owned by the context, its TSER one higher. TTMASK gives eight mask
rows of it, TTPOS 64 positions or depths; rows and nodes past the last give 0 and all ones. TTPRUNE appends the path
to a leaf to the sequence, gives the status, and with .clr empties the tree when the append succeeded; TTCLR empties
the selected tree. exec answers those states whenever the word issues, the tree may be used, the accesses succeed
and sequencing raises nothing. A tree of another owner, or for TTMASK and TTPOS none, raises TREE with the word. -/
def Obligations.tree_words_keep_the_tree_file : Prop :=
  ∀ (s : State) (e : Env) (k : Ctl) (d a : Reg) (tx : Fin 1024) (x1 : Bool),
    let s0 := s.release e.k .tile
    let sel := s0.tree e.tile e.st.treesel
    let n := (e.st.scalar a).toNat
    let foreign := sel.valid = true ∧ ¬ (sel.owner = e.ctx ∧ sel.part = e.pn)
    let usable := sel.valid = true ∧ sel.owner = e.ctx ∧ sel.part = e.pn
    (let i := Instr.ttset k a tx
    let j := e.newJob i false [tx.val, 0, 0, 0]
    let x := j.ent 0
    Issues s i k e → tKind x = 1 → tFmt x = 7 → tRank x = 1 → tExt x 0 ≤ 256 →
      (¬ foreign → ∀ q, engRun ((upto (tExt x 0)).mapM fun m => engExact j (tElem x m 0 0 0) 1) s0 = .ok q →
        (∀ m p, q.1[m]? = some p → (m = 0 → p = 0) ∧ (m ≠ 0 → p < m) ∧ Tree.depth { par := q.1 } m ≤ 63) → n ≤ 2 ^ 32 - 64 →
        let s1 := q.2.1.setTree e.tile e.st.treesel { valid := true, owner := e.ctx, part := e.pn, tser := sel.tser + 1, basepos := n, par := q.1 }
        ∀ out, e.sequence ((e.put s1 e.st).dropClean e.core) e.st = .ok out → exec i s = .next (e.finish out.1 i out.2)) ∧
      (foreign → e.busy = false → exec i s = .next (s.raise e.k .tree (encodeWord i) false false))) ∧
    (∀ r ∈ ([
      (.ttmask k d a, BitVec.ofNat 2048 (packN 256 ((upto 8).map fun q =>
        if n + q < sel.n then packN 1 ((upto 256).map fun m => if m < sel.n ∧ sel.sees (n + q) m = true then 1 else 0) else 0))),
      (.ttpos k d a x1, ofElems ((upto 64).map fun m =>
        if n + m < sel.n then (if x1 then 0 else sel.basepos) + sel.depth (n + m) else 0xFFFFFFFF) false)] : List (Instr × VReg)),
      Issues s r.1 k e →
      (usable →
        let t := e.st.putV d r.2
        ∀ out, e.sequence ((e.put s0 t).dropClean e.core) t = .ok out → exec r.1 s = .next (e.finish out.1 r.1 out.2)) ∧
      (¬ usable → e.busy = false → exec r.1 s = .next (s.raise e.k .tree (encodeWord r.1) false false))) ∧
    (let i := Instr.ttprune k d a tx x1
    let j := e.newJob i false [tx.val, 0, 0, 0]
    let y := j.ent 0
    let x := e.p.tensor e.ctx (tKvt y)
    let tr := s0.tree e.tile (tTree y)
    Issues s i k e → tKind y = 3 → kvOk x = true → stagingOk y (tExt x 0) = true → tr.valid = true → tr.owner = e.ctx → tr.part = e.pn →
      n < tr.n → tr.n ≤ tExt y 1 → ∀ q, e.kvHeader s0 x = .ok q → (tChk x = false ∨ genOfLen x q.2.1 = tWgen x) → tr.basepos = q.2.1 →
      let path := (tr.up 64 n).reverse
      ∀ r, e.append j x q.2.2 q.2.1 path.length (fun m c => readRow j y 0 tx.val 0 ((path[m]?).getD 0) c 0 (tExt x 0)) q.1 = .ok r →
        let s1 := if x1 = true ∧ bits r.status 7 0 = 0 then r.state.setTree e.tile (tTree y) { valid := false, tser := tr.tser + 1 } else r.state
        let t := { (e.st.putS d r.status) with zsub := e.st.zsub || r.zsub }
        ∀ out, e.sequence ((e.put s1 t).dropClean e.core) t = .ok out → exec i s = .next (e.finish out.1 i out.2)) ∧
    (let i := Instr.ttclr k
    Issues s i k e →
      (¬ foreign →
        let s1 := s0.setTree e.tile e.st.treesel { valid := false, tser := sel.tser + 1 }
        ∀ out, e.sequence ((e.put s1 e.st).dropClean e.core) e.st = .ok out → exec i s = .next (e.finish out.1 i out.2)) ∧
      (foreign → e.busy = false → exec i s = .next (s.raise e.k .tree (encodeWord i) false false)))

/-- CINV.code drops the context's lines from its tile's instruction cache and changes no memory; CINV.line writes the
line back and drops it from the core; CINV.rdc drops the field's remote copy of a line homed elsewhere; CINV.line
and CINV.rdc of an address that names no page for the strand, in a window or refused, do nothing. ROUTE replaces the route word of its class and gives the old one;
reserved bits or a code 3 raise ILLOP with the word. TGEN takes the next generation of the context, queues its raise
with the counter, and gives the generation. exec answers those states whenever the word issues, TGEN's operands are
as R393 asks, and sequencing raises nothing. -/
def Obligations.system_words_act_on_caches_and_the_partition : Prop :=
  ∀ (s : State) (e : Env) (k : Ctl) (d a b : Reg) (c : TrafficClass),
    let x := e.st.scalar a
    (Issues s (.cinvCode k) k e → ∃ s1 t,
      (∀ out, e.sequence (s1) t = .ok out → exec (.cinvCode k) s = .next (e.finish out.1 (.cinvCode k) out.2)) ∧ { t with kept := [] } = { e.st with kept := [] } ∧ s1.mem = s.mem ∧
      (s1.tile e.tile).icache = (s.tile e.tile).icache.filter fun l => l.ctx != e.ctx) ∧
    (Issues s (.cinvLine k a) k e →
      ((∃ f, s.resolve e.p e.user x = .ok (.page f)) → ∀ t, tget (s.flushLine e.core x e.ctx).strands e.u = some t →
        ∀ out, e.sequence (s.flushLine e.core x e.ctx) t = .ok out → exec (.cinvLine k a) s = .next (e.finish out.1 (.cinvLine k a) out.2)) ∧
      ((∀ f, s.resolve e.p e.user x ≠ .ok (.page f)) →
        ∀ out, e.sequence s e.st = .ok out → exec (.cinvLine k a) s = .next (e.finish out.1 (.cinvLine k a) out.2))) ∧
    (Issues s (.cinvRdc k a) k e →
      (∀ f, s.resolve e.p e.user x = .ok (.page f) → f ≠ e.fld →
        ∀ out, e.sequence (s.dropRdc e.fld x e.ctx) e.st = .ok out → exec (.cinvRdc k a) s = .next (e.finish out.1 (.cinvRdc k a) out.2)) ∧
      ((∀ f, s.resolve e.p e.user x = .ok (.page f) → f = e.fld) → ∀ out, e.sequence (s) e.st = .ok out → exec (.cinvRdc k a) s = .next (e.finish out.1 (.cinvRdc k a) out.2))) ∧
    (Issues s (.route k d a c) k e →
      let n := match c with
        | .req => 0
        | .rsp => 1
        | .sync => 2
        | .bulk => 3
        | .port => 4
      (x.toNat < 256 → bits x 3 2 = 0 → bits x 1 0 ≠ 3 →
        let s1 := s.modPart e.pn fun p => { p with routes := p.routes.set n (BitVec.ofNat 8 (max (x.toNat / 16) 1 * 16 + x.toNat % 4)) }
        let t := e.st.putS d (((e.p.routes[n]?).getD 0x40).setWidth 64)
        ∀ out, e.sequence (e.put s1 t) t = .ok out → exec (.route k d a c) s = .next (e.finish out.1 (.route k d a c) out.2)) ∧
      (256 ≤ x.toNat ∨ bits x 3 2 ≠ 0 ∨ bits x 1 0 = 3 → e.busy = false →
        exec (.route k d a c) s = .next (s.raise e.k .illop (encodeWord (.route k d a c)) false false))) ∧
    (Issues s (.tgen k d a b) k e →
      let y := e.st.scalar b
      let n := bits x 11 0
      x.toNat < 4096 → s.ctxValid e.p e.fld n = true → y.toNat % 8 = 0 → inWindow y = false →
      ∀ q, e.placed s y .rmw = .ok q →
        let g := tgetD e.p.alloc n 0 + 1
        let s1 := ((q.1.release e.k .system).modPart e.pn fun p =>
          { p with alloc := tput p.alloc n g, raises := p.raises ++ [{ ctx := n, gen := g, ctr := some q.2 }] }).startRaises e.pn
        let t := e.st.putS d (g.setWidth 64)
        ∀ out, e.sequence (e.put s1 t) t = .ok out → exec (.tgen k d a b) s = .next (e.finish out.1 (.tgen k d a b) out.2))

/-- HALT with TVEC.DBG 0 only sequences. With TVEC.DBG 1, HALT and BRK start the partition's debug halt at their word,
with the strand's place, and the strand is marked; a HALT or BRK of a marked strand is a NOP and takes the mark away,
and only sequences. A word of an unassigned opcode raises ILLOP
with the word in TVAL. A long-latency word with a lookahead window and no transfer is left outstanding: the slot
holds one instruction more in flight, its completion is due, and the strand goes on; a division of the vector side is in its
forward queue instead, and in flight from its start. LONG_LATENCY_COMPLETE and
MEMORY_REPLY complete the oldest one of their kind when its vector-side entry has started, no older access of the strand is
outstanding and the forward queue has room for a predicate: the operation acts on the
strand as it was at the issue, and the strand of now takes its result. One whose reply is lost waits for it on TIME, at
most five timeouts of 20 µs; MEMORY_REPLY ends such a wait, and keeps for the access that is made again whether it ends with
TIMEOUT. exec answers those states when the operation and sequencing stop on nothing. -/
def Obligations.halting_unassigned_and_outstanding_words : Prop :=
  (∀ (s : State) (e : Env) (k : Ctl) (n : BitVec 16) (w : Word),
    (Issues s (.halt k) k e → e.st.asNop = false → bit e.p.tvec 0 = false → ∀ out, e.sequence (s) e.st = .ok out → exec (.halt k) s = .next (e.finish out.1 (.halt k) out.2)) ∧
    (Issues s (.halt k) k e → e.st.asNop = true →
      let t := { e.st with asNop := false }
      ∀ out, e.sequence (e.put s t) t = .ok out → exec (.halt k) s = .next (e.finish out.1 (.halt k) out.2)) ∧
    (Issues s (.brk k n) k e → e.cond = true → e.st.asNop = true →
      ∀ out, e.sequence s e.st = .ok out →
        exec (.brk k n) s = .next (e.finish (e.put out.1 { out.2 with asNop := false }) (.brk k n) { out.2 with asNop := false })) ∧
    (∀ r ∈ ([(.brk k n, 0), (.halt k, 1)] : List (Instr × Nat)),
      Issues s r.1 k e → e.cond = true → e.st.asNop = false → bit e.p.tvec 0 = true →
      let s1 := (s.modStrand e.u fun t => { t with asNop := true }).startHalt e.pn r.2 (pcoordOf e.k) e.st.pc
      exec r.1 s = .next s1 ∧
      ∃ p, tget s1.parts e.pn = some p ∧ p.halt = some { source := r.2, since := s.time, pcoord := pcoordOf e.k, tpc := e.st.pc }) ∧
    (s.envAt s.cur (.unassignedOpcode w) { seq := .next, neg := false, gp := 0, la := 0 } = some e →
      e.waits s (.unassignedOpcode w) = false → e.busy = false →
      exec (.unassignedOpcode w) s = .next (s.raise e.k .illop w false false))) ∧
  (∀ (s : State) (i : Instr) (k : Ctl) (e : Env),
    (i.ctl = some k → s.envAt s.cur i k = some e → e.waits s i = false → e.decodeFault i = none → e.deferred i = true →
      ∀ t, e.st.advance = .ok t → exec i s = .next (e.launch s i) ∧
        ∃ sl, tget (e.launch s i).slots e.k = some sl ∧
          (vectorSide e.st.latch.cls i = false ∨ unitOf e.st.latch.cls i = none →
            .event (replyOf i e.k) ∈ (e.launch s i).agenda ∧ sl.flight.length = e.sl.flight.length + 1 ∧
            sl.flight.getLast?.map (·.instr) = some i) ∧
          (vectorSide e.st.latch.cls i = true → unitOf e.st.latch.cls i ≠ none →
            sl.flight.length = e.sl.flight.length ∧ sl.fwd.length = e.sl.fwd.length + 1 ∧
            sl.fwd.getLast?.map (fun x => (x.instr, x.opens)) = some (some i, true))) ∧
    (∀ slot, ∀ r ∈ ([(.longLatencyComplete slot, false), (.memoryReply slot, true)] : List (Instr × Bool)),
      ∀ sl f c, tget s.slots slot = some sl → sl.flight.find? (fun f => byMemory f = r.2) = some f →
        f.instr.ctl = some c → (∀ y ∈ sl.fwd, y.instr = none ∨ y.n ≠ f.n) →
        ((kindOf f.instr).accesses = true → ∀ g ∈ sl.flight, (kindOf g.instr).accesses = true → f.n ≤ g.n) →
        (scalarPred f.before.latch.cls f.instr ≠ none → sl.fwd.length < 16) →
        (∀ l, sl.lost = some l → l.since = none → (kindOf f.instr).accesses = true → exec r.1 s =
          .next (((s.setSlot slot { sl with lost := some { l with since := some s.time } }).postAt (s.time + 20000 * min l.n 5)
            (replyOf f.instr slot)).again slot)) ∧
        ∀ x s1 res t act, sl.lost = none → (s.atFlight slot sl f).envAt slot f.instr c = some x → (x.cond || x.lane) = true →
        llOp f.instr x (s.atFlight slot sl f) = .ok s1 → tget s1.strands sl.uid = some res → tget s.strands sl.uid = some t →
        tget s1.slots slot = some act →
        exec r.1 s = .next ((s.retire s1 slot sl f res).again slot) ∧
        tget ((s.retire s1 slot sl f res).again slot).strands sl.uid = some (t.take res f.instr (!f.wroteL))) ∧
    (∀ slot sl l t0, tget s.slots slot = some sl → sl.lost = some l → l.since = some t0 → t0 + 20000 * min l.n 5 ≤ s.time →
      sl.hold = some .reply → sl.preempt = false → sl.flight = [] → exec (.memoryReply slot) s =
        .next ((s.setSlot slot { sl with lost := if 5 ≤ l.n then some l else none, hold := none }).again slot)))

/-- A word that meets a fault of ranks 1 and 5 to 8 of Table 2.7 on a slot with nothing outstanding raises it, with the
word in TVAL, or 0 where the word reads a register in error; a supervisor word in user mode whose guard lets it take
place meets PRIV. A fault of the strand on a slot writes CAUSE (KIND 1, the code, and bit 8 for a fault on entering a
block), TVAL and TPC, and holds the slot. No other register of the strand and no byte of memory changes, the strands
on other slots stay as they are, and the task has a fault recorded: the first one with its cause, value, place,
header, task identifier, coordinate and time, and the grid's stop falls due. To that, UNCORR and SAVELOST add what
Table 9.2 has follow an error: at most an Assay, and, for UNCORR with a dirty bad word, the line's write-back. -/
def Obligations.a_fault_stops_the_strand_and_records_it : Prop :=
  (∀ (s : State) (i : Instr) (c : Ctl) (e : Env) (code : FaultCode), i.ctl = some c → s.envAt s.cur i c = some e → e.waits s i = false →
    e.busy = false →
    (e.decodeFault i = some code → exec i s = .next (s.raise e.k code (if code = .uncorr then 0 else e.w) false false)) ∧
    (supervisorOnly i = true → e.user = true → (e.cond || e.lane) = true → e.decodeFault i = some .priv)) ∧
  ∀ (s : State) (k : Nat) (c : FaultCode) (v : Word) (entry : Bool) (sl : Slot) (t : Strand) (ta : Task),
    tget s.slots k = some sl → tget s.strands sl.uid = some t → tget s.tasks t.task = some ta →
    let cause := BitVec.ofNat 64 ((if entry then 256 else 0) + 64 + c.num)
    ∃ s1 part, s.raise k c v entry false = s1.assayAfter part (coreOfSlot k) c v ∧
    (c ≠ .uncorr → c ≠ .savelost → s.raise k c v entry false = s1) ∧
    (c = .savelost ∨ c = .uncorr ∧ (∀ l ∈ (s.core (coreOfSlot k)).l1, l.bad &&& l.dirty = 0) →
      s.raise k c v entry false = s1 ∨ ∃ a, s.raise k c v entry false = s1.postOnce (.assay a)) ∧
    tget s1.strands sl.uid = some { t with cause := cause, tval := v, tpc := t.hdr + BitVec.ofNat 64 (8 * t.widx) } ∧
    tget s1.slots k = some { sl with
      hold := some .fault, flight := [], windows := [], preempt := false, lost := none, badReg := false } ∧
    s1.mem = s.mem ∧ (∀ u, u ≠ sl.uid → tget s1.strands u = tget s.strands u) ∧ (∀ j, j ≠ k → tget s1.slots j = tget s.slots j) ∧
    s1.parts = s.parts ∧ s1.cores = s.cores ∧ s1.tiles = s.tiles ∧ s1.fields = s.fields ∧
    (ta.fault = none → .event (.gridStop t.task) ∈ s1.agenda ∧
      (tget s1.tasks t.task).bind (·.fault) =
        some #v[cause, v, t.hdr + BitVec.ofNat 64 (8 * t.widx), t.hdr, taskIdOf ta t.index, pcoordOf k, BitVec.ofNat 64 s.time]) ∧
    (∀ w, ta.fault = some w → (tget s1.tasks t.task).bind (·.fault) = some w)

/-- The drain performs the oldest entry of a slot's store buffer: its elements in order, in the core's L1 data cache, at
the scratchpad, or, where the entry passes the cache by, at the home slice, or its addition at the home slice after
the write-back and the drop of the core's copies. After a store into the cache an eviction of its line falls due (that it
does is the model's choice, log 53). With nothing in the buffer, or with the last entry one of a vector-side store that has
not started, nothing changes. A dirty line that is evicted is written at the home slice and gone from the core; a clean
one is only gone; of a line that the core does not hold nothing changes. The oldest addition on its way to a field is
performed there, and the counter, where it is not lost and no strand waits by a monitor entry of its slice, then holds the
sum; with none on its way the partition that has its first field there goes on with the additions of its virtual
functions. A sweep of an overflow list, oldest first, makes ready each record whose counter meets its threshold, moves
each other one into a free monitor entry of the slice, and keeps, in order, those for which there is none; while a record
of the list is still being linked the sweep waits. A sweep of a fault list lets go every waiter whose page is now
present, oldest first, and keeps the others in order. exec answers those states always, with no other condition. -/
def Obligations.memory_acts_perform_what_is_posted : Prop :=
  ∀ (s : State) (slot core field slice : Nat) (line : Word),
    (tget s.slots slot = none → exec (.storeBufferDrain slot) s = .next s) ∧
    (∀ sl, tget s.slots slot = some sl →
      (sl.buf = [] → exec (.storeBufferDrain slot) s = .next s) ∧
      (∀ x, sl.buf = [x] → (∃ f ∈ sl.fwd, f.store = true) → exec (.storeBufferDrain slot) s = .next s) ∧
      (∀ x t, sl.buf = x :: t → (t ≠ [] ∨ ∀ f ∈ sl.fwd, f.store = false) →
        let ctx := (s.ctxOfSlot slot).1
        let gen := (s.ctxOfSlot slot).2
        let s0 := s.setSlot slot { sl with buf := t }
        let again := fun (y : State) => if t = [] then y else y.postOnce (.storeBufferDrain slot)
        (∀ va pa v, x = .cadd va pa v → exec (.storeBufferDrain slot) s =
          .next (again ((((s0.writeBackSlot slot).flushLine (coreOfSlot slot) va ctx).dropRdc (fieldOfSlot slot) va ctx).addAt ctx pa v))) ∧
        (∀ org, x = .store org [] → exec (.storeBufferDrain slot) s = .next (again s0)) ∧
        (∀ org el es, x = .store org (el :: es) →
          let s1 := (el :: es).foldl (fun y el =>
            if isPad el.pa then y.homeWrite (y.writerFrom slot ctx org) el.va el.pa el.bytes
            else if org.past then
              (y.flushLine (coreOfSlot slot) el.va ctx).homeWrite (y.writerFrom slot ctx org) el.va el.pa el.bytes
            else y.l1Store slot el.va ctx gen el.pa org el.bytes) s0
          exec (.storeBufferDrain slot) s =
            .next (again (if isPad el.pa then s1 else s1.postOnce (.homeSliceWrite (coreOfSlot slot) (lineVa el.va))))))) ∧
    ((∀ l ∈ (s.core core).l1, l.va ≠ lineVa line) → exec (.homeSliceWrite core line) s = .next s) ∧
    (∀ l, (s.core core).l1.find? (fun l => l.va = lineVa line) = some l →
      let s1 := s.modCore core fun c => { c with l1 := c.l1.filter fun x => ¬ (x.va = l.va ∧ x.ctx = l.ctx ∧ x.gen = l.gen) }
      (l.dirty = 0 → exec (.homeSliceWrite core line) s = .next s1) ∧
      (l.dirty ≠ 0 → exec (.homeSliceWrite core line) s = .next (s1.writeBack core l))) ∧
    (∀ x t, (s.field field).adds = x :: t →
      let s1 := (s.modField field fun y => { y with adds := t }).addAt x.ctx x.pa x.val
      exec (.counterAddition field) s = .next (s1.postOnce (.counterAddition field)) ∧
      (s.lostAt x.pa 8 = false → isPad x.pa = true ∨ ((s.field (fieldOfPa x.pa)).monitors[sliceOf x.pa]?).getD [] = [] →
        s1.dwAt x.pa = s.dwAt x.pa + x.val)) ∧
    ((s.field field).adds = [] →
      exec (.counterAddition field) s = .next (s.devTurn field) ∧
      ((∀ n p, s.partOfField field = some (n, p) → p.phys 0 ≠ some field ∨ p.devs = []) → s.devTurn field = s)) ∧
    (let l := ((s.field field).overflow[slice]?).getD []
    let keep := fun (q : List Monitor) (y : State) =>
      y.modField field fun x => { x with overflow := x.overflow.mapIdx fun i r => if i = slice then q ++ r else r }
    let emptied := s.modField field fun x => { x with overflow := x.overflow.mapIdx fun i r => if i = slice then [] else r }
    let one := fun (y : State × List Monitor) (m : Monitor) =>
      if m.thr.toNat ≤ (y.1.dwAt m.pa).toNat then
        ((y.1.modStrand m.uid fun x => { x with met := some m.pa }).makeReady m.uid, y.2)
      else if (((y.1.field field).monitors[slice]?).getD []).length < 256 then
        (((y.1.modField field fun x => { x with monitors := x.monitors.mapIdx fun i r => if i = slice then r ++ [m] else r }).modStrand
          m.uid fun x => { x with waitK := .cwaitMon }).restat m.uid, y.2)
      else (y.1, y.2 ++ [m])
    let r := l.foldl one (emptied, [])
    ((∃ m ∈ l, s.stillLinking m.uid = true) →
      exec (.overflowSweep field slice) s = .next (s.postAt (s.time + 1) (.overflowSweep field slice))) ∧
    ((∀ m ∈ l, s.stillLinking m.uid = false) →
      exec (.overflowSweep field slice) s = .next ((keep r.2 r.1).putLists field) ∧ List.Sublist r.2 l) ∧
    (∀ m, l = [m] → (∀ x, tget s.strands m.uid = some x → x.place = .waiting) →
      (m.thr.toNat ≤ (s.dwAt m.pa).toNat → r.2 = [] ∧
        ∀ x, tget s.strands m.uid = some x → ∃ y, tget r.1.strands m.uid = some y ∧ y.waitK = .none ∧ y.met = some m.pa) ∧
      ((s.dwAt m.pa).toNat < m.thr.toNat → (((s.field field).monitors[slice]?).getD []).length < 256 → slice < (s.field field).monitors.length →
        r.2 = [] ∧ ((r.1.field field).monitors[slice]?).getD [] = ((s.field field).monitors[slice]?).getD [] ++ [m]) ∧
      ((s.dwAt m.pa).toNat < m.thr.toNat → 256 ≤ (((s.field field).monitors[slice]?).getD []).length → r.2 = [m]))) ∧
    (let absent := fun (w : FaultWait) =>
      match tget s.parts w.part with
      | none => false
      | some p =>
        match s.walk p field w.ctx w.va with
        | .notPresent | .malformed => true
        | _ => false
    let stay := (s.field field).faults.filter absent
    let go := (s.field field).faults.filter fun w => !absent w
    exec (.faultSweep field) s = .next (((s.modField field fun x => { x with faults := stay }).putLists field).wakeWaiters (go.map (·.who))))

/-- A strand at word 0 whose slot has nothing outstanding, and whose EITHER, where that brought it here, has its predicate,
fetches the word at HDR; a header enters it at word 1 with its masks, and that predicate's result has been taken; a word that is no header, has LEN 0, or a reconvergence point inside the block raises ILLOP with the word, as
a fault on entry. A strand picked up inside its block only fetches its header again. The private fetch path serves
one strand of its tile, the next in rotation. exec answers those states. -/
def Obligations.strands_enter_blocks_and_take_private_words : Prop :=
  ∀ (s : State) (e : Env) (tile : Nat),
    (s.envAt s.cur .blockEntry noCtl = some e → e.sl.hold = none → e.sl.stop = none → e.p.halt = none → e.sl.flight = [] →
      (∀ n, e.sl.await = some n → (∀ f ∈ e.sl.fwd, f.n ≠ n) ∧ ∀ r ∈ e.sl.started, r.1 ≠ n) →
      ∀ f, e.fetch s e.st.hdr = .ok f →
        let h := f.2
        let len := bits h 55 50
        let bad := bits h 63 56 ≠ 0xFF ∨ len = 0 ∨ (bits h 11 2 ≠ 0 ∧ bits h 11 2 < len + 1)
        (e.st.widx = 0 → ¬ bad →
          let t := { (e.st.applyMasks h f.1.fresh) with widx := 1, kept := [] }
          let s1 := (e.put f.1 t).modSlot e.k fun sl => { sl with
            windows := [], await := none
            ret := match sl.await with
              | some n => sl.ret.filter (n < ·.1)
              | none => sl.ret }
          exec .blockEntry s = .next { s1 with fresh := f.1.fresh + 1 } ∧ t.header = h ∧ t.hdr = e.st.hdr) ∧
        (e.st.widx = 0 → bad → e.busy = false → exec .blockEntry s = .next (s.raise e.k .illop h true false)) ∧
        (e.st.widx ≠ 0 → e.st.refetch = true → exec .blockEntry s = .next (e.put f.1 { e.st with header := h, refetch := false }))) ∧
    (let waiting := fun (k : Nat) => ∃ sl t, tget s.slots k = some sl ∧ sl.turned = false ∧ sl.hold = none ∧ tget s.strands sl.uid = some t ∧
      t.fmode ≠ .attached ∧ t.widx ≠ 0
    let order := (upto 64).map fun i => ((s.tile tile).fetchLast + 1 + i) % 64
    (∀ before i after, order = before ++ i :: after → (∀ j ∈ before, ¬ waiting (tile * 64 + j)) → waiting (tile * 64 + i) →
      let s1 := (s.modSlot (tile * 64 + i) fun sl => { sl with turned := true }).modTile tile fun t => { t with fetchLast := i }
      ((∃ j ∈ order, j ≠ i ∧ waiting (tile * 64 + j)) → exec (.privateFetchTurn tile) s = .next (s1.postOnce (.privateFetchTurn tile))) ∧
      ((∀ j ∈ order, j ≠ i → ¬ waiting (tile * 64 + j)) → exec (.privateFetchTurn tile) s = .next s1)))

/-- First the vector side takes the scalar side's predicate writes at the heads of its forward queues into its own copy,
unless the slot is to be pre-empted; a queue whose head is a word stays. Of the slots whose oldest entry can start
(no pre-emption asked for, fewer than 8 results started or returned, the unit of a division free) in a cycle of the
nanosecond that its class finds open, the one with the earliest such cycle, and among equals the first in rotation,
starts it: the entry leaves the forward queue, its result is due, the slot is the one served last, the cycle's lanes are
recorded, no memory and no strand changes, and the next start is due; a division with a lookahead window is outstanding
from here on. With no such slot the next turn is due while an entry waits; on a dark tile nothing starts. The oldest result of a
started entry enters the slot's return queue of 8; a full one keeps it waiting. A core's request for a lease is
answered with the free tokens, unless others wait, a droop hold is in force, the core holds no strand or its tile is
dark. A core without a strand, or idle for 4,096 cycles, returns its lease to the pool, or past a retired field's pool;
one that has not been idle for so long is looked at again when it will have been.
A sense event of a working core on a module that is ready has the cycles up to the sixth after it stretched (within a
stretch that already runs past its cycle it extends that stretch to there, or leaves it, and only the cycles that it adds
are counted) and the issue of the 64 after them halved, is counted in the core's SENSE up to 65,535, and reaches the
field's broker; any other sense event changes nothing. The end of a window brings
the core's cycle count up to date and changes no memory. A hold that has lasted 20 µs, with 64 or fewer events in that
time, ends and the waiting list is served. exec answers those states. -/
def Obligations.the_vector_side_starts_leases_and_droops : Prop :=
  (∀ (s : State) (core slot : Nat),
    let c := s.core core
    let taken := fun (v : Vector Word 8) (f : FwdEntry) => match f.pred with
      | some (n, w) => v.set n.val w n.isLt
      | none => v
    (let s0 := s.takePreds core
    let c0 := max (c.started + 1) (s.cycleOf core)
    let last := ({ s with time := s.time + 1 } : State).cycleOf core
    let due := Instr.vectorSideStart core
    let canStart := fun (i : Nat) (sl : Slot) (f : FwdEntry) (rest : List FwdEntry) =>
      tget s0.slots (core * 4 + i) = some sl ∧ sl.fwd = f :: rest ∧ sl.preempt = false ∧ sl.ret.length + sl.started.length < 8 ∧
      ∀ w j n, f.instr = some w → unitOf f.before.latch.cls w = some (j, n) → c.unitFree[j] ≤ c0
    let starts := fun (i cy : Nat) (y : Core) (sl : Slot) (f : FwdEntry) (rest : List FwdEntry) => canStart i sl f rest ∧
      c.openCycle (if isGateway (tileOfCore core) then 7 else leaseClass c.lease f.before.cls) c0 (last - c0) = some (cy, y)
    let startsAt := fun (i cy : Nat) => ∃ y sl f rest, starts i cy y sl f rest
    let waits := ∃ i < 4, ∃ sl, tget s0.slots (core * 4 + i) = some sl ∧ sl.fwd ≠ []
    let order := (upto 4).map fun i => (c.lastV + 1 + i) % 4
    (s0.mem = s.mem ∧ s0.strands = s.strands ∧ s0.agenda = s.agenda ∧ s0.cores = s.cores) ∧
    (∀ i < 4, ∀ sl, tget s.slots (core * 4 + i) = some sl →
      (sl.preempt = true → tget s0.slots (core * 4 + i) = some sl) ∧
      (∀ ps rest, sl.preempt = false → sl.fwd = ps ++ rest → (∀ f ∈ ps, f.instr = none) → (∀ f, rest.head? = some f → f.instr ≠ none) →
        tget s0.slots (core * 4 + i) = some { sl with fwd := rest, vp := ps.foldl taken sl.vp })) ∧
    (s.awake (tileOfCore core) = false → exec due s = .next s) ∧
    (∀ before i after cy y sl f rest, s.awake (tileOfCore core) = true → order = before ++ i :: after → starts i cy y sl f rest →
      (∀ j ∈ before, ∀ n, startsAt j n → cy < n) → (∀ j ∈ after, ∀ n, startsAt j n → cy ≤ n) →
      ∃ t, exec due s = .next t ∧
        (let began := { sl with
          fwd := rest
          vp := taken sl.vp f
          started := sl.started ++ (f.returns.map fun r => (f.n, r)).toList }
        (f.opens = false → tget t.slots (core * 4 + i) = some began) ∧
        (∀ w k, f.opens = true → f.instr = some w → w.ctl = some k → ∃ g, tget t.slots (core * 4 + i) = some
          { began with
            windows := sl.windows ++ (if w.isLL = true ∧ k.la.val ≠ 0 then [{ dst := dstOf w, left := k.la.val, wroteL := false }] else [])
            flight := sl.flight ++ [g] } ∧ g.n = f.n ∧ g.instr = w ∧ g.before = f.before ∧ g.left = k.la.val)) ∧
        (∀ j, j ≠ core * 4 + i → tget t.slots j = tget s0.slots j) ∧
        (t.core core).lastV = i ∧ (t.core core).lanes = f.lanes :: c.lanes.take 15 ∧ t.mem = s.mem ∧ t.strands = s.strands ∧
        .event due ∈ t.agenda) ∧
    (s.awake (tileOfCore core) = true → (∀ i < 4, ∀ n, ¬ startsAt i n) →
      (waits → exec due s = .next (s0.postOnce due)) ∧ (¬ waits → exec due s = .next s0))) ∧
    (∀ sl r rest, tget s.slots slot = some sl → sl.started = r :: rest →
      let s1 := s.setSlot slot { sl with started := rest, ret := sl.ret ++ [r] }
      (sl.ret.length < 8 →
        exec (.vectorResultReturn slot) s = .next (if rest = [] then s1 else s1.postOnce (.vectorResultReturn slot))) ∧
      (8 ≤ sl.ret.length → exec (.vectorResultReturn slot) s = .next (s.postOnce (.vectorResultReturn slot)))) ∧
    (let f := core / 256
    let holds := ∃ x ∈ s.slots, coreOfSlot x.1 = core
    let served := holds ∧ (s.tile (tileOfCore core)).lit = true ∧ (s.field f).waiters = [] ∧ (s.field f).hold = none
    let answer := fun (got : Nat) => ((s.modField f fun x => { x with free := x.free - got }).setCore core
      { c with lease := c.lease + got, leaseAsk := 0, refused := if got < c.leaseAsk then some (s.cycleOf core) else none })
    (c.leaseAsk ≠ 0 → served → exec (.leaseRequest core) s = .next (answer (min c.leaseAsk (s.field f).free))) ∧
    (c.leaseAsk ≠ 0 → ¬ served → exec (.leaseRequest core) s = .next (answer 0)) ∧
    (c.lease = 0 → exec (.leaseIdleReturn core) s = .next s) ∧
    (c.lease ≠ 0 → holds → s.cycleOf core < c.started + 4096 → exec (.leaseIdleReturn core) s =
      .next (s.postAtOnce (max (s.time + 1) (s.cycleEnds core (c.started + 4096))) (.leaseIdleReturn core))) ∧
    (c.lease ≠ 0 → ¬ holds ∨ c.started + 4096 ≤ s.cycleOf core →
      let s1 := s.modCore core fun x => { x with lease := 0 }
      ((s.field f).retired = false →
        exec (.leaseIdleReturn core) s = .next ((s1.modField f fun x => { x with free := x.free + c.lease }).serveField f)) ∧
      ((s.field f).retired = true →
        exec (.leaseIdleReturn core) s = .next ((s1.modField f fun x => { x with total := x.total - c.lease }).serveField f))))) ∧
  (∀ (s : State) (core field : Nat),
    (s.boot = .ready → (s.core core).good = true →
      let c := s.cycleOf core
      let x := s.core core
      ∃ t, exec (.senseEvent core) s = .next t ∧ (t.core core).sense = min (x.sense + 1) 65535 ∧
        (t.core core).stretchEnd = max x.stretchEnd (c + 6) ∧
        (t.core core).stretch = x.stretch + BitVec.ofNat 32 (c + 6 - max x.stretchEnd c) ∧
        (t.core core).halfEnd = max x.halfEnd (max x.stretchEnd (c + 6) + 64) ∧
        (x.stretchEnd < c → (t.core core).baseCycle = c + 1) ∧ (c ≤ x.stretchEnd → (t.core core).baseCycle = x.baseCycle) ∧
        (t.field (core / 256)).senses.head? = some s.time ∧ t.mem = s.mem ∧ t.strands = s.strands) ∧
    (s.boot ≠ .ready ∨ (s.core core).good = false → exec (.senseEvent core) s = .next s) ∧
    (∃ t, exec (.droopWindowExpiry core) s = .next t ∧ t.mem = s.mem ∧ t.strands = s.strands ∧
      (t.core core).stretchEnd = (s.core core).stretchEnd ∧ (t.core core).halfEnd = (s.core core).halfEnd ∧
      (∀ c, c ≠ core → t.core c = s.core c) ∧ (s.cycleOf core ≤ (t.core core).leaseC)) ∧
    (∀ t0, (s.field field).hold = some t0 →
      let recent := (s.field field).senses.filter fun t => s.time < t + 20000
      (t0 + 20000 ≤ s.time → recent.length ≤ 64 →
        exec (.droopHoldExit field) s = .next ((s.setField field { (s.field field) with hold := none, senses := recent }).serveField field)) ∧
      (s.time < t0 + 20000 ∨ 64 < recent.length → exec (.droopHoldExit field) s = .next s)))

/-- The oldest promotion of a field takes a frame from its stack and the page, opened and checked, is written into it.
With no free frame its waiters go on the fault list, the stall is counted, and the next promotion gets its turn. With a
chunk that fails its check the failure is counted, the frame goes back zeroed, the waiter whose access asked for the page
meets UNCORR with the address of the chunk, a strand on its slot at once and an act of another unit when it makes its
access again, and the other waiters go on.
When the copy is complete and the leaf is still the one that was met, the leaf names the frame with its low 16 bits
kept and bit 11 clear, the field's translations of that leaf go, a descriptor goes on the promotion ring, the count
rises, and the waiters go on; when the leaf has changed, the frame goes back zeroed. In a raise of a generation one
agent after another acts and acknowledges, a core whose forward queues hold a vector store of the context only when that
has started, an engine that runs a row-block of it once more after it; when none is left, and no addition is on its way to
the partition's fields, the fields take the generation, what they hold for the context is sent on its way again, and the
raise's counter gets its addition. exec answers those states. -/
def Obligations.promotions_and_generations_complete : Prop :=
  ∀ (s : State) (field part : Nat),
    (∀ q rest p st key, (s.field field).promos = q :: rest → tget s.parts q.part = some p →
      let rows := (s.modField field fun x => { x with promos := rest })
      (q.frame = none → s.promoStack p field q.big = some st → s.tierKey p q.ctx = some key →
        let n := (if q.big then 2 ^ 21 else 2 ^ 16) / 4096
        (∀ s1 fr s2, s.popFrame st = some (s1, fr) → s1.fillFrame key (frameOf q.entry) fr n n = (s2, none) →
          exec (.tierPromotion field) s = .next ((s2.modField field fun x => { x with promos := { q with frame := some fr } :: rest }).postOnce
            (.promotionComplete field))) ∧
        (∀ s1 fr s2 o, s.popFrame st = some (s1, fr) → s1.fillFrame key (frameOf q.entry) fr n n = (s2, some o) →
          let s3 := s2.modField field fun x => { x with promos := rest }
          let s4 := ((((s3.modPart q.part fun x => { x with tagfail := min (x.tagfail + 1) 65535 }).zeroFrame fr q.big).pushFrame st fr).1)
          let va := q.va + BitVec.ofNat 64 o
          (q.waiters = [] → exec (.tierPromotion field) s = .next (s4.nextPromo field)) ∧
          (∀ h l, q.waiters = h :: l →
            exec (.tierPromotion field) s = .next (((s4.touchLost h va).wakeWaiters (l.map Held.who)).nextPromo field) ∧
            (∀ u x k, h.wait.who = .strand u → tget s4.strands u = some x → x.place = .slot k →
              s4.touchLost h va = s4.raise k .uncorr va false false) ∧
            (∀ i, h.wait.who = .act i → s4.touchLost h va =
              (s4.modPart h.wait.part fun p => { p with lostActs := p.lostActs ++ [(i, h.wait.va, va)] }).postOnce i))) ∧
        (s.popFrame st = none → exec (.tierPromotion field) s = .next
          (((rows.modPart q.part fun x => { x with pstall := sat16 (x.pstall + 1) }).stallWaiters field q.waiters).nextPromo field))) ∧
      (∀ fr, q.frame = some fr →
        let again := fun (x : State) => (x.wakeWaiters (q.waiters.map Held.who)).nextPromo field
        (s.dwAt q.slot = q.entry →
          let leaf := BitVec.ofNat 64 (fr / 2 ^ 16 * 2 ^ 16 + q.entry.toNat % 2 ^ 16) &&& ~~~(0x800 : Word)
          let desc := [q.va, BitVec.ofNat 64 (q.ctx * 2 ^ 48 + if q.big then 1 else 0), BitVec.ofNat 64 (frameOf q.entry), BitVec.ofNat 64 fr]
          let s1 := (rows.sliceDw q.slot leaf).modField field fun x => { x with tlb := x.tlb.filter fun l => l.slot ≠ q.slot }
          ∀ p1, tget s1.parts q.part = some p1 →
            exec (.promotionComplete field) s = .next (again ((s1.flushProms q.part p (p1.proms ++ [desc])).modPart q.part
              fun x => { x with promo := x.promo + 1 }))) ∧
        (s.dwAt q.slot ≠ q.entry → s.promoStack p field q.big = some st →
          exec (.promotionComplete field) s = .next (again ((rows.zeroFrame fr q.big).pushFrame st fr).1)))) ∧
    (∀ p before r after, tget s.parts part = some p → p.raises = before ++ r :: after →
      r.started = true →
      (∀ a rest, r.left = a :: rest → (∀ x ∈ before, x.started = false ∨ x.left = []) →
        let busy := 40000 ≤ a ∧ a < 50000 ∧ s.engineRuns part r.ctx (a - 40000) = true
        let acted := s.ackAgent part r.ctx a (r.gen.setWidth 16)
        let left := fun (l : List Nat) => ((acted.modPart part fun q =>
          { q with raises := modFirst (fun y => y.started && !y.left.isEmpty) (fun y => { y with left := l }) q.raises }).genTurns part)
        (s.fwdStores part r.ctx a = false → ¬ busy → exec (.generationAck part) s = .next (left rest)) ∧
        (s.fwdStores part r.ctx a = false → busy → exec (.generationAck part) s = .next (left (rest ++ [a]))) ∧
        (s.fwdStores part r.ctx a = true → exec (.generationAck part) s = .next ((s.modPart part fun q =>
          { q with raises := modFirst (fun y => y.started && !y.left.isEmpty) (fun y => { y with left := rest ++ [a] }) q.raises }).postAt
            (s.time + 1) (.generationAck part)))) ∧
      (r.left = [] → (∀ x ∈ before, x.started = false ∨ x.left ≠ []) →
        let adding := (p.fields.map (·.1)).filter fun f => (s.field f).adds ≠ []
        let s1 := s.setPart part { p with gens := tput p.gens r.ctx r.gen, raises := ldel p.raises r }
        let s2 := p.fields.foldl (fun x e => x.setPinDw p (x.pinDw p (p.fcb e.1) 0) (64 * r.ctx + 0x20) (r.gen.setWidth 64)) s1
        (adding ≠ [] → exec (.generationSwitch part) s =
          .next ((s.postAll (adding.map Instr.counterAddition)).postOnce (.generationSwitch part))) ∧
        let ends := fun (x : State) => (x.rejectHeld part r.ctx p).startRaises part
        (∀ pa, adding = [] → r.ctr = some pa → exec (.generationSwitch part) s = .next (ends (s2.counterAdd pa 1))) ∧
        (adding = [] → r.ctr = none → r.vf = none → exec (.generationSwitch part) s = .next (ends s2)) ∧
        (∀ v, adding = [] → r.ctr = none → r.vf = some v → exec (.generationSwitch part) s = .next (ends (s2.migrated part v)))))

/-- A core with a free slot, the one that LCORE of the record's STAT names where it has one, takes the record at the head of
the highest-priority queue, as the dwords at its place in memory give it where it has one: the record names the slot, the slot holds the strand since this time, and a record
with nothing saved takes its header address, its register stack pointer and its place from those dwords, keeps its
registers and waits for nothing. A put-down spills the resident frames, takes a save frame, writes the image and
leaves the slot; a spill that is stopped leaves the frames before it written; with no frame it waits, counted; a freed
frame goes to the oldest such save, and the next one has its turn. The end of a gathering of 32 cycles lets the lead
of a stream go; before it the end falls due again. A creation that waits tries again. A pre-empted strand with nothing
outstanding, no store that is stalled and no access without its reply is put down; a record that has waited 10 µs takes the slot of a strand of lower PRIO, one that has waited 1 ms the slot of a strand
of equal PRIO that has run 1 ms. A record that waits gains one PRIO for each 100 µs, up to 7. exec answers those
states. -/
def Obligations.records_are_picked_up_and_put_down : Prop :=
  ∀ (s : State) (tile slot part uid : Nat) (stream : Fin 4),
    (∀ u x k p, (s.tile tile).nextReady = some u → tget s.strands u = some x → s.awake tile = true →
      s.chooseSlot tile (bits (s.statOf x) 39 36) (s.ranBefore x) = some k →
      tget s.parts x.part = some p → p.halt = none →
      let s1 := (((s.takeSlot k u x).movePending tile).endGathers tile).postOnce (.priorityPreemption tile)
      exec (.pickUp tile) s = .next (if (s1.tile tile).nextReady.isSome then s1.postOnce (.pickUp tile) else s1) ∧
      let r := s.readRecord x
      (∀ a, s.recordPa x = some a → r.hdr = s.dwAt a ∧ r.stat = s.dwAt (a + 8) ∧ r.rsp = s.dwAt (a + 0x10) ∧ r.save = s.dwAt (a + 0x18)) ∧
      (s.recordPa x = none → r = x) ∧
      (∀ a, s.recordPa x = some a → s.statOf x = s.dwAt (a + 8)) ∧
      (statBad r.stat = false → r.save = 0 → bits r.stat 20 17 ≠ WaitKind.message.num → ∃ y sl, tget (s.takeSlot k u x).strands u = some y ∧
        tget (s.takeSlot k u x).slots k = some sl ∧ sl.uid = u ∧ sl.picked = s.time ∧ .slot k ∈ (s.takeSlot k u x).agenda ∧
        y.place = .slot k ∧ y.waitK = .none ∧ y.hdr = r.hdr ∧ y.rsp = r.rsp ∧ y.widx = bits r.stat 5 0 ∧ y.cwp = bits r.stat 29 27 ∧
        y.fres = bits r.stat 32 30 ∧ y.g = x.g ∧ y.frames = x.frames ∧ y.p = x.p ∧ y.v = x.v ∧ y.h = x.h)) ∧
    (∀ e, s.envAt slot (.putDown slot) noCtl = some e → e.sl.hold = some .save → e.p.stalled = [] →
      (∀ s1 f, e.spillAll s e.st 8 = (s1, .error f) → exec (.putDown slot) s = .next (e.spillStopped s1 f)) ∧
      ∀ s1 t, e.spillAll s e.st 8 = (s1, .ok t) →
        (s1.allocArena e.pn 9216 256 true = none → exec (.putDown slot) s = .next (e.stallSave s1)) ∧
        (∀ s2 a pa, s1.allocArena e.pn 9216 256 true = some (s2, a) → s2.arenaPa e.pn a = some pa →
          exec (.putDown slot) s = .next (e.leaveSlot ((s2.writeSave pa t.saveImage).modPart e.pn fun p =>
            { p with stalled := ldel p.stalled e.u }) t a))) ∧
    (∀ p u rest x k e, tget s.parts part = some p → p.stalled = u :: rest → tget s.strands u = some x → x.place = .slot k →
      s.envAt k (.stalledSaveResume part) noCtl = some e → e.sl.hold = some .save →
      let y := e.putDown s true
      let left := ((tget y.parts part).map (·.stalled)).getD []
      exec (.stalledSaveResume part) s =
        .next (if left ≠ [] ∧ left.length < p.stalled.length then y.postOnce (.stalledSaveResume part) else y)) ∧
    (∀ x g, (s.tile tile).streams[stream.val]? = some x → x.gather = some g →
      (s.gatherOver tile x = true → exec (.gatherEnd tile stream) s =
        .next (s.modTile tile fun t => t.setStream stream.val { x with gather := none })) ∧
      (s.gatherOver tile x = false → exec (.gatherEnd tile stream) s =
        .next (s.postAt (max (s.time + 1) (s.cycleEnds g.core (g.since + 31))) (.gatherEnd tile stream)))) ∧
    (∀ sl, tget s.slots slot = some sl → sl.hold = some .creation →
      exec (.strandCreationContinue slot) s = .next ((s.setSlot slot { sl with hold := none }).postSlot slot)) ∧
    (∀ sl t, tget s.slots slot = some sl → tget s.strands sl.uid = some t → s.strandHalted t = false → sl.preempt = true →
      (sl.hold = none ∨ sl.hold = some .creation) →
      (replyNow s.time sl.lost = .waits → exec (.preemption slot) s = .next (s.postAt (s.time + 1) (.preemption slot))) ∧
      (replyNow s.time sl.lost ≠ .waits → (∀ j ∈ (s.tile (tileOfSlot slot)).jobs, j.u ≠ sl.uid) → sl.leave = false →
      (sl.flight = [] → (sl.stalled = true → sl.hold ≠ none) →
        exec (.preemption slot) s = .next ((s.discard slot).suspend slot .preempted 0 0)) ∧
      (sl.flight ≠ [] ∨ (sl.stalled = true ∧ sl.hold = none) → exec (.preemption slot) s = .next (s.postOnce (.preemption slot))))) ∧
    (s.hasFree tile = false →
      (∀ w l k sl t, (s.waitedFor tile 10000).drop (s.leaving tile) = w :: l →
        victimOf ((s.runningOn tile).filter fun x => s.strandHalted x.2.2 = false) = some (k, sl, t) → t.prio < w.prio →
        exec (.priorityPreemption tile) s = .next ((s.preemptStrand sl.uid).postOnce (.priorityPreemption tile))) ∧
      (∀ w l k sl t, (s.waitedFor tile 1000000).drop (s.leaving tile) = w :: l →
        victimOf ((s.runningOn tile).filter fun x => s.strandHalted x.2.2 = false ∧ x.2.2.prio = w.prio ∧ x.2.1.picked + 1000000 ≤ s.time) = some (k, sl, t) →
        exec (.timeSlicePreemption tile) s = .next ((s.preemptStrand sl.uid).postOnce (.timeSlicePreemption tile)))) ∧
    (∀ t tl, tget s.strands uid = some t → t.place = .ready tl → s.strandHalted t = false → t.aged < (s.time - t.since) / 100000 →
      let due := (s.time - t.since) / 100000
      let s1 := s.postAt (t.since + 100000 * (due + 1)) (.aging uid)
      let s2 := (s1.raisePrio uid (min 7 (t.prio + (due - t.aged)))).modStrand uid fun x => { x with aged := due }
      exec (.aging uid) s = .next ((s2.postOnce (.priorityPreemption tl)).postOnce (.timeSlicePreemption tl)))

/-- While no row-block runs, the instructions of slots that are to be pre-empted halt. An engine of a tile that is lit, is not
idle and runs no row-block takes the notices of its GRANT, and then the first instruction that is ready, whose slot is not
to be pre-empted and which waits for no reply. A heavy instruction with an effective class of 0, and one whose loads cannot
be made, halts at this boundary; one whose loads have had no reply waits for it, until five timeouts of 20 µs have elapsed;
any other starts its row-block. At the end of a row-block
its writes are performed, the instruction goes to the end of the order or is done, its slot gets a turn, and the
pre-empted instructions halt; after a row-block at a reduced class the engine is idle for the cycles that R324 gives,
counted on the clock of the core that issued the instruction (the model's choice, log 60). A copy engine moves the
next chunk, whose bytes leave the deficit of its queue; a chunk without a reply is held until the reply comes, and stops the
command with TIMEOUT, at the address of the access that is lost, after five timeouts; a command with no chunk left is
complete. The oldest complete command's addition is made, in a debug halt too, and the command is gone. A scrubber takes its command
one stage further or completes it. exec answers those states. -/
def Obligations.engines_run_row_blocks_and_commands : Prop :=
  ∀ (s : State) (tile field : Nat),
    (let s0 := s.haltPreempted tile
    let s1 := s0.takeNotices tile fun n => n.core = none
    let due := fun (j : Job) => j.status = .ready && !s1.tileHalted j && !s1.jobPreempted j && replyNow s1.time j.lost != .waits
    ((s0.tile tile).idle = true ∨ (s0.tile tile).running = true ∨ s0.awake tile = false → exec (.rowBlockStart tile) s = .next s0) ∧
    ((s0.tile tile).idle = false → (s0.tile tile).running = false → s0.awake tile = true →
      ((s1.tile tile).jobs.find? due = none → exec (.rowBlockStart tile) s = .next s1) ∧
      (∀ j, (s1.tile tile).jobs.find? due = some j →
        let c := effClass (tileKind tile) (s1.tile tile).grant j.cls
        let halted := fun w => ((s1.putJob tile { j with status := .stopped w }).postSlot j.k).postOnce (.rowBlockStart tile)
        (j.heavy = true → c = 0 → exec (.rowBlockStart tile) s = .next (halted .token)) ∧
        ((j.heavy = false ∨ c ≠ 0) →
          (∀ x, engRun j.block s1 = .error x → exec (.rowBlockStart tile) s = .next (halted (jobStopOf x))) ∧
          (∀ b s2 z, engRun j.block s1 = .ok (b, s2, z) →
            (∀ l, j.lost = some l → l.since = none → exec (.rowBlockStart tile) s =
              .next (((s1.putJob tile { j with lost := some { l with since := some s1.time } }).postAt
                (s1.time + 20000 * min l.n 5) (.rowBlockStart tile)).postOnce (.rowBlockStart tile))) ∧
            ((∀ l, j.lost = some l → l.since ≠ none) → exec (.rowBlockStart tile) s = .next ((s2.putJob tile
              { j with status := .running, lost := none, writes := b.writes, next := b.next, acc := b.acc, seen := true,
                       tree := j.treeSeen s1, zsub := j.zsub || z,
                       cycles := if j.heavy then idleCycles b.cycles c else 0 }).postOnce (.rowBlockEnd tile)))))))) ∧
    (∀ before j after, (s.tile tile).running = false → (s.tile tile).jobs = before ++ j :: after → (∀ x ∈ before ++ after, x.u ≠ j.u) →
      j.status = .ready → s.jobPreempted j = true →
      ((s.haltPreempted tile).tile tile).jobs.find? (fun x => x.u = j.u) = some { j with status := .stopped .preempt }) ∧
    (∀ j, (s.tile tile).jobs.find? (fun j => j.status = .running) = some j →
      let j1 := { j with writes := [], next := none, cycles := 0, pos := j.next.getD j.pos, status := if j.next.isSome then .ready else .done }
      let s1 := ((s.putElems j.writer j.writes).modTile tile fun t =>
        { t with jobs := t.jobs.filter (fun x => x.u ≠ j.u) ++ [j1], idle := j.cycles != 0 }).postSlot j.k
      let s2 := (if (s1.tile tile).notices = [] then s1 else s1.postOnce (.revocationNotice tile)).haltPreempted tile
      let c := coreOfSlot j.k
      let n := s2.cycleOf c + j.cycles
      (j.cycles = 0 → exec (.rowBlockEnd tile) s = .next (s2.postOnce (.rowBlockStart tile))) ∧
      (j.cycles ≠ 0 → exec (.rowBlockEnd tile) s = .next ((s2.modTile tile fun t => { t with idleCore := c, idleEnd := n }).postAt
        (max (s2.time + 1) (s2.cycleEnds c (n - 1))) (.engineIdleEnd tile)))) ∧
    (let c := (s.tile tile).idleCore
    let n := (s.tile tile).idleEnd
    (n ≤ s.cycleOf c → exec (.engineIdleEnd tile) s =
      .next ((s.modTile tile fun t => { t with idle := false }).postOnce (.rowBlockStart tile))) ∧
    (s.cycleOf c < n → exec (.engineIdleEnd tile) s =
      .next (s.postAt (max (s.time + 1) (s.cycleEnds c (n - 1))) (.engineIdleEnd tile)))) ∧
    (let s0 := s.endReplies tile
    (s0.haltedTile tile = true → exec (.copyChunk tile) s = .next s0) ∧
    (s0.haltedTile tile = false →
      (nextCopy (fun q => (s0.core (tile * 16 + q)).cpwt) (s0.tile tile) 34 = none → exec (.copyChunk tile) s = .next s0) ∧
      ∀ q c t, nextCopy (fun q => (s0.core (tile * 16 + q)).cpwt) (s0.tile tile) 34 = some (q, c, t) →
        let s1 := s0.setTile tile t
        let x := tgetD (s1.tile tile).copies q {}
        let ended := fun (x : State) (y : CopyCmd) => (((x.popCopy tile q).modTile tile fun z => { z with copied := z.copied ++ [y] }).postOnce
          (.copyCompletion tile)).copyTurn tile
        (c.next = none → exec (.copyChunk tile) s = .next (ended s1 c)) ∧
        (∀ m, c.next = some m →
          (∀ y, s1.tryChunk tile q c m = .error y → exec (.copyChunk tile) s = .next ((s1.chunkStopped tile q c y).copyTurn tile)) ∧
          (replyNow s1.time x.lost = .timeout →
            s1.tryChunk tile q c m = .error (.fault .timeout (if x.lostWrite then m.dst else m.src))) ∧
          (∀ l s2, x.lost = some l → l.since = none → s1.moveChunk c m = .ok s2 → s1.tryChunk tile q c m =
            .error (.become (((s1.holdCopy tile q).modCopies tile q fun y => { y with lost := some { l with since := some s1.time } }).postAt
              (s1.time + 20000 * min l.n 5) (.copyChunk tile)))) ∧
          (∀ y, x.lost = none → s1.moveChunk c m = .error y → s1.tryChunk tile q c m = .error y) ∧
          (∀ s2, replyNow s1.time x.lost = .came → s1.moveChunk c m = .ok s2 →
            let s3 := (s2.modCopies tile q fun x => { x with lost := none }).modCopies tile q fun x =>
              { x with deficit := x.deficit - m.len, cmds := m.rest :: x.cmds.drop 1 }
            (m.rest.next = none → exec (.copyChunk tile) s = .next (ended s3 m.rest)) ∧
            (m.rest.next ≠ none → exec (.copyChunk tile) s = .next (s3.copyTurn tile)))))) ∧
    (((∀ c ∈ (s.tile tile).copied, c.held = true) → exec (.copyCompletion tile) s = .next s) ∧
      (∀ before c after, (s.tile tile).copied = before ++ c :: after → (∀ x ∈ before, x.held = true) → c.held = false →
        let more := fun (y : State) =>
          if replyNow y.time (y.tile tile).addLost ≠ .waits ∧ ∃ x ∈ (y.tile tile).copied, x.held = false then
            y.postOnce (.copyCompletion tile)
          else y
        let heard := s.modTile tile fun t => { t with addLost := none }
        (c.ctr = 0 → exec (.copyCompletion tile) s = .next (more (s.copyGone tile c))) ∧
        (∀ y, c.ctr ≠ 0 → replyNow s.time (s.tile tile).addLost = .came → heard.copyAdd c = .ok y →
          exec (.copyCompletion tile) s = .next (more (y.copyGone tile c))) ∧
        (c.ctr ≠ 0 → replyNow s.time (s.tile tile).addLost = .timeout →
          exec (.copyCompletion tile) s = .next (more ((heard.copyGone tile c).copyFault c .timeout c.ctr))))) ∧
    (∀ c rest, (s.field field).scrubs = c :: rest → s.scrubHeld field = false →
      (∀ s1, s.scrubStage field c = .ok (s1, none) → exec (.scrubberRun field) s = .next (s1.scrubGone field c)) ∧
      (∀ s1 c1, s.scrubStage field c = .ok (s1, some c1) → exec (.scrubberRun field) s =
        .next ((s1.modField field fun x => { x with scrubs := c1 :: rest }).postOnce (.scrubberRun field))))

/-- A dark tile that is good gets its floor of 8 from the free tokens, before every waiter, and the placement grants of the
tasks whose records are homed there are asked for. A placement grant is made
whole or not at all, and not past a waiter of equal or higher PRIO. A leave whose cost the grant meets goes on; one
that the free tokens cover is granted; in a droop hold, or with no tokens to be had, the strand is refused and
waits; a tile that has lent recalls, and a top-up supplies what the loans do not cover, or the strand joins the waiting list
for it at once. When the recalled tokens have arrived the strands of the recall that wait for nothing else go on. A tile takes the notices of its GRANT while no row-block
runs, and those of a core's lease while the core can start nothing; what they took then moves to its holders. A
top-up supplies the head of the waiting list whole, and the list is served. A field that needs its tokens back has
its loans reclaimed, newest first (that order is the model's choice, log 27), for what notices do not take back already. A tile on whose grid's end no record is left returns its grant and turns dark; else it keeps
what its records may need. A strand of a group that waits for a pre-empted member lends it its PRIO. exec answers
those states. -/
def Obligations.the_broker_grants_recalls_and_revokes : Prop :=
  ∀ (s : State) (tile task slot field uid : Nat),
    let f := fieldOfTile tile
    (s.awake tile = false → (s.tile tile).good = true →
      (8 ≤ (s.field f).free → exec (.floorRequest tile) s =
        .next (((s.modField f fun x => { x with free := x.free - 8 }).modTile tile fun x => { x with lit := true }).postAll
          (.pickUp tile :: ((s.homed tile).map (·.task)).dedup.map fun k => .placementGrant tile k))) ∧
      ((s.field f).free < 8 → (∃ l ∈ s.fieldLoans, l.lender = f) → exec (.floorRequest tile) s = .next (s.postOnce (.crucibleReclaim f))) ∧
      ((s.field f).free < 8 → (∀ l ∈ s.fieldLoans, l.lender ≠ f) → exec (.floorRequest tile) s = .next s)) ∧
    (s.awake tile = true ∨ (s.tile tile).good = false → exec (.floorRequest tile) s = .next s) ∧
    (∀ ta, tget s.tasks task = some ta →
      let want := tileCost tile (classOf ta) - (s.tile tile).grant
      let full := (s.tile tile).lit = true ∧ want ≠ 0 ∧ want ≤ (s.field f).free ∧ ∀ w ∈ (s.field f).waiters, s.waiterPrio w < bits ta.header[2] 10 8
      (full → exec (.placementGrant tile task) s = .next ((s.modField f fun x => { x with free := x.free - want }).addGrant tile want)) ∧
      (¬ full → exec (.placementGrant tile task) s = .next s)) ∧
    (∀ sl t, tget s.slots slot = some sl → tget s.strands sl.uid = some t → sl.leave = true →
      let tl := tileOfSlot slot
      let fl := fieldOfSlot slot
      let short := tileCost tl t.cls - (s.tile tl).grant
      (short = 0 → exec (.leaveRequest slot) s = .next ((s.modSlot slot fun x => { x with leave := false }).postSlot slot)) ∧
      (short ≠ 0 → (s.field fl).hold ≠ none → exec (.leaveRequest slot) s = .next (s.refuseLeave slot sl.uid tl short)) ∧
      (short ≠ 0 → (s.field fl).hold = none → short ≤ (s.field fl).free → exec (.leaveRequest slot) s = .next (s.grantLeave slot tl short)) ∧
      (short ≠ 0 → (s.field fl).hold = none → (s.field fl).free < short → s.lent tl = 0 →
        (∀ y, s.topWhole fl short = some y → exec (.leaveRequest slot) s = .next ((y.grantLeave slot tl short).serveField fl)) ∧
        (s.topWhole fl short = none → exec (.leaveRequest slot) s = .next (s.refuseLeave slot sl.uid tl short))) ∧
      (short ≠ 0 → (s.field fl).hold = none → (s.field fl).free < short → s.lent tl ≠ 0 →
        let q := s.recallLoans tl (s.recalled tl) s.loans short
        let waits := fun (y : State) (rest : Nat) => ((((y.rewind slot).modSlot slot fun x =>
          { x with leave := false }).suspend slot .token 0 (BitVec.ofNat 64 short)).modTile tl fun x =>
            { x with recalls := x.recalls ++ [{ uid := sl.uid, rest := rest }] }).postOnce (.recallComplete tl)
        (q.2 = 0 → exec (.leaveRequest slot) s = .next (waits q.1 0)) ∧
        (q.2 ≠ 0 → q.1.topWhole fl q.2 = none → exec (.leaveRequest slot) s =
          .next ((waits q.1 q.2).joinList fl { uid := sl.uid, tile := tl, amount := q.2 })) ∧
        (∀ y, q.2 ≠ 0 → q.1.topWhole fl q.2 = some y → exec (.leaveRequest slot) s =
          .next (waits (((y.modField fl fun x => { x with free := x.free - q.2 }).addGrant tl q.2).serveField fl) 0)))) ∧
    (s.recallsOut tile = true → exec (.recallComplete tile) s = .next s) ∧
    (s.recallsOut tile = false → exec (.recallComplete tile) s = .next ((s.tile tile).recalls.foldl (fun x r =>
      if r.rest = 0 then x.makeReady r.uid else x) (s.modTile tile fun x => { x with recalls := [] }))) ∧
    (∀ due later : Notice → Bool, (∀ n, later n = !due n) →
      (∀ n, due n = match n.core with
        | some c => s.startsNothing c
        | none => !(s.tile tile).running) →
      let go := (s.tile tile).notices.filter due
      let stay := (s.tile tile).notices.filter later
      let s1 := if go = [] then s
        else (go.foldl (fun x n => x.takeNotice tile n) (s.modTile tile fun x => { x with notices := stay })).postOnce (.revocationComplete tile)
      exec (.revocationNotice tile) s = .next (if stay = [] then s1 else s1.postOnce (.revocationNotice tile))) ∧
    exec (.revocationComplete tile) s = .next (((s.tile tile).taken.foldl (State.arrive f)
      (s.modTile tile fun x => { x with taken := [] })).serveFields (noticePools (s.tile tile).taken)) ∧
    (∀ n : Notice,
      (∀ l, n.dest = .tile l → s.arrive f n = (s.backToLender l n.amount).postOnce (.recallComplete l)) ∧
      (∀ g, n.dest = .pool g → s.arrive f n = (s.settleLoans g f n.amount).addFree g n.amount) ∧
      (∀ g, n.dest = .reserve g → s.arrive f n = (s.settleLoans g f n.amount).toReserve g n.amount)) ∧
    (∀ w y, (s.field field).hold = none → s.headWaiter (s.field field).waiters = some w → s.topWhole field w.amount = some y →
      exec (.crucibleTopup field) s = .next (y.serveField field)) ∧
    (let lent := s.fieldLoans.filter fun l => l.lender = field
    let n := s.fieldNeed field - ((lent.map (·.borrower)).dedup.map (s.reclaiming field)).sum
    let q := s.reclaimAll (fun _ => .pool field) s.reclaiming lent n
    (n = 0 ∨ q.2 = n → exec (.crucibleReclaim field) s = .next s) ∧
    (n ≠ 0 → q.2 ≠ n → exec (.crucibleReclaim field) s = .next (q.1.serveField field))) ∧
    ((s.homed tile = [] → exec (.taskEndReturn tile) s = .next (((s.returnGrant tile (s.tile tile).grant).darken tile).serveFields
        (s.touchedFields tile))) ∧
      (s.homed tile ≠ [] → exec (.taskEndReturn tile) s = .next ((s.returnGrant tile ((s.tile tile).grant -
        tileCost tile (((s.homed tile).map (·.cls)).foldl max 0))).serveFields (s.touchedFields tile)))) ∧
    (∀ t ta p, tget s.strands uid = some t → tget s.tasks t.task = some ta → tget s.parts t.part = some p → t.waitK = .preempted →
      let prios := (s.handlesOf t).flatMap fun h =>
        match s.findMember p ta.ctx (taskIdOf ta t.index) h with
        | none => []
        | some (f, i, g, m) => if g.unstarted m = true ∨ m.arrp = g.phase then [] else
            (s.groupWaiters t.part (groupAddr p f i) g.phase).filterMap fun w => (tget s.strands w).map (·.prio)
      ((∀ n ∈ prios, n ≤ t.prio) → exec (.groupPrioRaise uid) s = .next s) ∧
      (∀ n ∈ prios, (∀ m ∈ prios, m ≤ n) → t.prio < n → exec (.groupPrioRaise uid) s =
        .next ((s.raisePrio uid n).modStrand uid fun x => { x with lift := n })))

/-- When TAIL covers HEAD the scheduler reads the header in slot HEAD mod NSLOT and adds 1 to HEAD, at the addresses that the
queue's descriptor names, translated in the context of the virtual function as supervisor (the model's choice, log 13). A
header that a check of R492 refuses ends its task with that fault and no strand, and so does, with ILLOP, a reserved bit
that is set in the queue descriptor or the virtual function's entry (the model's reading of R17, log 55), and, with the
fault of its access, a header that cannot be read (the model's choice, log 66); any other goes on the queue's list, with
the value of its DEP counter where it names one. A lost descriptor stops the queue (log 66). The launch takes the head of
the queue served next, drops the context's words from the partition's instruction caches, and places one strand for each
index, its LCORE spread over the tile's cores (the model's reading, log 12), its record on the ready queue of its tile and
its first acquire at .system. When a grid has a fault its slots issue nothing more; when all of them stand at an
instruction boundary its strands and commands go. A task with nothing left that is not rolled back has its status word
written, with a fault its record, each where it has a place, then DONE gets its addition where there is one, and the task
is gone; a page that is not there holds the act. A task that is rolled back has its pre-images restored and is placed
again when there are tiles, and for a co-scheduled task slots, to take it. exec answers those states. -/
def Obligations.tasks_are_read_launched_and_ended : Prop :=
  ∀ (s : State) (part vf task : Nat) (queue : Fin 8),
    (∀ p s1 dp hp, tget s.parts part = some p → s.vfValid p vf = true → queue.val < s.vfQueues p vf →
      let act := Instr.taskHeaderRead part vf queue
      let ctx := s.vfCtx p vf
      let d := s.qdesc p vf queue.val
      s.reachAll act part ctx [(d, .read), (d + 0x18, .write)] = (s1, some [some dp, some hp]) →
      (s1.lostAt dp 64 = true → exec act s = .next (s1.assayAt dp)) ∧
      (s1.lostAt dp 64 = false →
        (∀ s2, s1.readTail act part vf queue.val ctx (s1.dwAt (dp + 0x10)) = (s2, false) → exec act s = .next s2) ∧
        (∀ s2 p2, s1.readTail act part vf queue.val ctx (s1.dwAt (dp + 0x10)) = (s2, true) → tget s2.parts part = some p2 →
          let head := s2.dwAt hp
          let slot := head.toNat % bits (s2.dwAt (dp + 8)) 16 0
          let addr := s2.dwAt dp + BitVec.ofNat 64 (64 * slot)
          let next := fun (x : State) => (x.putReach ctx (some (some hp)) (bytesOf 8 (head + 1).toNat)).postOnce act
          let ended := fun (x : State) h c v => next (x.endUnlaunched part vf ctx queue.val slot addr h c v)
          ((p2.queue vf queue.val).tailSeen.toNat ≤ head.toNat → exec act s = .next s2) ∧
          (head.toNat < (p2.queue vf queue.val).tailSeen.toNat →
            (∀ s3, s2.reach act false part ctx addr .read = .held s3 → exec act s = .next s3) ∧
            (∀ s3 c v, s2.reach act false part ctx addr .read = .bad s3 c v →
              exec act s = .next (ended s3 (Vector.replicate 8 0) c v)) ∧
            (∀ s3 sp, s2.reach act false part ctx addr .read = .ok s3 sp → s3.lostAt sp 64 = true →
              exec act s = .next (ended (s3.assayAt sp) (Vector.replicate 8 0) .uncorr addr)) ∧
            (∀ s3 sp, s2.reach act false part ctx addr .read = .ok s3 sp → s3.lostAt sp 64 = false →
              let h := headerOf (s3.bytesAt sp 64)
              let s4 := s3.touchL2 sp ctx
              (∀ w, s4.queueReserved p vf dp = some w → exec act s = .next (ended s4 h .illop w)) ∧
              (∀ c v, s4.queueReserved p vf dp = none → s4.headerFault p h (s4.dwAt (dp + 0x30) != 0) = some (c, v) →
                exec act s = .next (ended s4 h c v)) ∧
              (s4.queueReserved p vf dp = none → s4.headerFault p h (s4.dwAt (dp + 0x30) != 0) = none →
                let listed := fun (x : State) (seen : Option Word) => next ((x.modTaskQueue part vf queue.val fun y =>
                  { y with headers := y.headers ++ [{ qslot := slot, header := h, addr := addr, log := s4.dwAt (dp + 0x30)
                                                      logCap := (s4.dwAt (dp + 0x38)).toNat / 144, depSeen := seen }] }).postOnce (.taskLaunch part))
                (hDep h = 0 → exec act s = .next (listed s4 none)) ∧
                (hDep h ≠ 0 →
                  (∀ s5 pa, s4.reach act false part ctx (hDep h) .read = .ok s5 pa → exec act s =
                    .next (listed (s5.touchL2 pa ctx) (if s5.lostAt pa 8 then none else some (s5.dwAt pa)))) ∧
                  (∀ s5, s4.reach act false part ctx (hDep h) .read = .held s5 → exec act s = .next s5) ∧
                  (∀ s5 c v, s4.reach act false part ctx (hDep h) .read = .bad s5 c v → exec act s = .next (listed s5 none)))))))) ∧
      (∀ ctx slot addr h c v, let t := s.endUnlaunched part vf ctx queue.val slot addr h c v
        t.strands = s.strands ∧ .event (.taskCompletion s.nextUid) ∈ t.agenda ∧
        ∃ x r, tget t.tasks s.nextUid = some x ∧ x.fault = some r ∧ r[0] = causeOf c false ∧ r[1] = v ∧ x.stopping = true ∧
          x.seq = p.nextSeq)) ∧
    (∀ p v j r l, tget s.parts part = some p → p.halt = none → p.closing = false → (∀ e ∈ p.vfs, e.2.pause = 0) →
      nextQueue p (s.launchable p) = some (v, j) → (p.queue v j).headers = r :: l →
      exec (.taskLaunch part) s = .next ((s.launchHead part p v j r).postOnce (.taskLaunch part)) ∧
      ∀ ta cands, s.placeStrands task ta cands = (((upto (hN ta.header)).foldl (fun x i =>
        x.launchRecord { launchStrand task ta.part ta.header i (tileFor ta.header cands i) with lcore := launchCore ta.header cands i })
          (s.dropCode ta.ctx (((tget s.parts ta.part).map Partition.tiles).getD []))).postAll
            ((((upto (hN ta.header)).map (tileFor ta.header cands)).dedup).map fun t => .placementGrant t task))) ∧
    (∀ t : Strand, t.prio < 8 →
      ∃ y, tget (s.launchRecord t).strands s.nextUid = some y ∧ y.place = .ready t.home ∧ y.acq = .system ∧ y.hdr = t.hdr ∧
        y.frames = t.frames ∧ y.index = t.index ∧ y.prio = t.prio ∧ y.cls = t.cls ∧ y.lcore = t.lcore ∧ (s.launchRecord t).nextUid = s.nextUid + 1) ∧
    (∀ ta p, tget s.tasks task = some ta → tget s.parts ta.part = some p → p.halt = none → ta.stopping = false → ta.fault.isSome = true →
      let ks := s.slotsOfTask task
      let s1 := ks.foldl (fun x e => x.stopIssue e.1) s
      ((∃ e ∈ s1.slotsOfTask task, s1.atBoundary e.1 e.2 = false) →
        ((∀ e ∈ ks, replyNow s.time e.2.lost ≠ .waits) → exec (.gridStop task) s = .next (s1.postOnce (.gridStop task))) ∧
        ((∃ e ∈ ks, replyNow s.time e.2.lost = .waits) → exec (.gridStop task) s = .next (s1.postAt (s.time + 1) (.gridStop task)))) ∧
      ((∀ e ∈ s1.slotsOfTask task, s1.atBoundary e.1 e.2 = true) →
        let s2 := ((s1.strands.filter fun e => e.2.task = task).map (·.1)).foldl State.stopStrand s1
        let s3 := ((s2.dropCopies task).dropScrubs task).modTask task fun x => { x with stopping := true }
        exec (.gridStop task) s = .next (s3.postOnce (.taskCompletion task)))) ∧
    (∀ ta p, tget s.tasks task = some ta → tget s.parts ta.part = some p → (∀ e ∈ s.strands, e.2.task ≠ task) → s.commandsLeft task = false →
      (ta.fault = none ∨ ta.stopping = true) → s.returnsDue = false →
      (ta.rollsBack = true → exec (.taskCompletion task) s = .next (s.postOnce (.rollback task))) ∧
      (ta.rollsBack = false →
        let act := Instr.taskCompletion task
        let done := hDone ta.header
        let counts := done ≠ 0 ∧ ctrBad done = false
        (∀ s1, s.reportPlaces act p ta = (s1, none) → exec act s = .next s1) ∧
        (∀ s1 report, s.reportPlaces act p ta = (s1, some report) →
          let writes := match report with
            | some (stat, frec) => (stat, Acc.write) :: if ta.fault.isSome then [(frec, Acc.write)] else []
            | none => []
          (∀ s2, s1.reachAll act ta.part ta.ctx writes = (s2, none) → exec act s = .next s2) ∧
          (∀ s2 places, s1.reachAll act ta.part ta.ctx writes = (s2, some places) →
            let reported := fun (x : State) =>
              let y := x.putReach ta.ctx places[0]? (bytesOf 8 ta.status.toNat)
              match ta.faultRecord with
              | some bs => y.putReach ta.ctx places[1]? bs
              | none => y
            (¬ counts → exec act s = .next ((reported s2).taskGone task ta)) ∧
            (counts →
              (∀ s3, s2.reachAll act ta.part ta.ctx [(done, .rmw)] = (s3, none) → exec act s = .next s3) ∧
              (∀ s3, s2.reachAll act ta.part ta.ctx [(done, .rmw)] = (s3, some [none]) →
                exec act s = .next ((reported s3).taskGone task ta)) ∧
              (∀ s3 pa, s2.reachAll act ta.part ta.ctx [(done, .rmw)] = (s3, some [some pa]) → exec act s =
                .next (((reported s3).sendAdd { pa := pa, val := hDonev ta.header, ctx := ta.ctx, owner := some (ta.part, ta.vf) }).taskGone
                  task ta))))))) ∧
    (∀ ta p, tget s.tasks task = some ta → tget s.parts ta.part = some p → p.halt = none → ta.rollsBack = true → ta.stopping = true →
      (∀ s1, s.restoreAll task ta p ta.logged.length = .ok s1 →
        let cands := s1.candidates p ta.header true
        let again := { ta with relaunched := true, fault := none, fcount := 0, stopping := false, logged := [], next := BitVec.ofNat 32 (hN ta.header) }
        (cands ≠ [] → s1.roomFor ta.header cands true = true →
          exec (.rollback task) s = .next ((s1.setTask task again).placeStrands task again cands)) ∧
        (cands = [] ∨ s1.roomFor ta.header cands true = false →
          exec (.rollback task) s = .next (s1.postAt (s1.time + 1) (.rollback task)))) ∧
      (∀ s1, s.restoreAll task ta p ta.logged.length = .held s1 → exec (.rollback task) s = .next s1) ∧
      (∀ s1 va, s.restoreAll task ta p ta.logged.length = .lost s1 va → ∃ t, exec (.rollback task) s = .next t ∧
        ∃ x r, tget t.tasks task = some x ∧ x.fault = some r ∧ r[0] = causeOf .rollback false ∧ r[1] = va ∧ .event (.taskCompletion task) ∈ t.agenda))

/-- An Assay marks the bucket busy, an L1 set as under test, and ends, as its outcome says (the verdict is the model's
choice, log 23), at once, a whole one after exactly 2 ms (the model's choices, log 28: the spec says at most 2 ms). One
that passes counts a transient: 32 on the level, at most 255, suspect from 128 on; a whole one that passes clears the
part to 64; one of a row changes nothing. One that fails retires the core, the tile, the way of the slice or of the
remote data cache, or the memory row. The level falls by 1 for each second. New routes change nothing of the state. A
field without anchors is retired whole; else every tile that is cut off is (which are is the model's choice, log 24).
The occupancy counters of a field of an active partition are written and the next snapshot is due 10 µs later.
Activations of a row are added to its counter, which is written back with its parity (even: the model's choice, log
71), and an alert goes on the list when the counter reaches the threshold or 2,047, or its parity fails, in the row or in this read (which is an input, log 45); refresh
management writes the counter of the oldest alert of a bank as 0 with correct parity; a blocked row and a hot row
before its time are not activated; at the end of a 32 ms window every hot mark goes. TIME rises by 1, what falls due
gets its turn, and the first error of the input, if there is one, strikes: a word that becomes uncorrectable is marked
(when errors strike is the model's choice, log 45). exec answers those states. -/
def Obligations.failures_and_time_take_their_course : Prop :=
  ∀ (s : State) (part : AssayPart) (n bank set field acts : Nat) (stack : Fin 40) (pch : Fin 64) (rbank : Fin 16) (whole perr : Bool) (row : RowId)
      (pass : Bool),
    exec (.assay part) s = .next (s.startAssay part 0) ∧
    ((s.bucketOf n whole).suspect = true → (s.bucketOf n whole).busy = false →
      (if whole then (s.tile n).lit = false ∧ (s.tile n).good = true else (s.core n).good = true ∧ ∀ e ∈ s.slots, coreOfSlot e.1 ≠ n) →
      exec (.wholeCoreAssay n whole) s = .next (s.startAssay (if whole then .wholeTile n else .wholeCore n) 2000000)) ∧
    (∃ t, exec (.assayEnd (.coreBank n bank) true) s = .next t ∧ (t.core n).bucket = (s.core n).bucket.count ∧ t.mem = s.mem) ∧
    (∃ t, exec (.assayEnd (.wholeCore n) true) s = .next t ∧ (t.core n).bucket.level = 64 ∧ (t.core n).bucket.suspect = false ∧
      (t.core n).bucket.busy = false) ∧
    (∃ t, exec (.assayEnd (.tileBank n bank) true) s = .next t ∧ (t.tile n).bucket = (s.tile n).bucket.count ∧ t.mem = s.mem) ∧
    (∃ t, exec (.assayEnd (.wholeTile n) true) s = .next t ∧ (t.tile n).bucket.level = 64 ∧ (t.tile n).bucket.suspect = false ∧
      (t.tile n).bucket.busy = false) ∧
    ((s.core n).good = true → exec (.assayEnd (.wholeCore n) false) s = .next (s.retireCore n) ∧
      exec (.assayEnd (.coreBank n bank) false) s = .next ((s.testOver (.coreBank n bank)).retireCore n)) ∧
    ((s.tile n).good = true → exec (.assayEnd (.wholeTile n) false) s = .next (s.retireTile n) ∧
      exec (.assayEnd (.tileBank n bank) false) s = .next (s.retireTile n)) ∧
    (exec (.assayEnd (.sliceRow field n set) pass) s = .next (if pass then s else s.retireWay field n set) ∧
      exec (.assayEnd (.rdcRow field n) pass) s = .next (if pass then s else s.modField field fun x =>
        { x with rdcGone := x.rdcGone + 1, rdc := x.rdc.take (rdcSize - x.rdcGone - 1) }) ∧
      exec (.assayEnd (.dramRow n) pass) s = .next (if pass then s else s.retireRow n)) ∧
    (let l := (s.bucketOf n whole).level
      let s1 := s.modBucket n whole fun b => { b with level := l - 1 }
      (l = 0 → exec (.bucketDecay n whole) s = .next s) ∧
      (l = 1 → exec (.bucketDecay n whole) s = .next s1) ∧
      (1 < l → exec (.bucketDecay n whole) s = .next (s1.postAt (s.time + 1000000000) (.bucketDecay n whole)))) ∧
    exec .detourRoute s = .next s ∧
    (
      let gone := fun (i : Nat) => (s.tile (field * 16 + i)).good = false
      ((s.field field).retired = true → exec (.islandRetirement field) s = .next s) ∧
      ((s.field field).retired = false → gone 0 → gone 11 → exec (.islandRetirement field) s = .next (s.retireField field)) ∧
      ((s.field field).retired = false → ¬ (gone 0 ∧ gone 11) → ∃ cut : List Nat,
        exec (.islandRetirement field) s = .next (cut.foldl (fun x i => x.retireTile (field * 16 + i)) s) ∧
        ∀ i, i ∈ cut ↔ i < 12 ∧ ¬ gone i ∧ i ≠ 0 ∧ i ≠ 11 ∧ (∃ j < 12, gone j) ∧ Config.cutOff field (s.goneTiles field) i = true)) ∧
    (s.partOfField field = none → exec (.occupancySnapshot field) s = .next s) ∧
    (∀ k p a, s.partOfField field = some (k, p) → pinPa p (s.pinDw p (p.fcb field) 0x30) = some a → exec (.occupancySnapshot field) s =
      .next ((s.putPins p (s.pinDw p (p.fcb field) 0x30) (s.field field).occImage).postAt (s.time + 10000) (.occupancySnapshot field))) ∧
    (let x := rowFind s.rows row
      let sec := sectorOfStack row.stack
      let c := min (x.count.toNat + acts) 2047
      (row ∈ s.alerts ∨ (x.hot = true ∧ (1 < acts ∨ s.time < x.last + 1000)) → exec (.rowPrecharge row acts perr) s = .next s) ∧
      (row ∉ s.alerts → (x.hot = false ∨ (acts ≤ 1 ∧ x.last + 1000 ≤ s.time)) →
        ∃ t, exec (.rowPrecharge row acts perr) s = .next t ∧ (rowFind t.rows row).count.toNat = c ∧
          (rowFind t.rows row).parityFails = false ∧ t.mem = s.mem ∧
          (perr = false → x.parityFails = false → c < (tgetD s.sectors sec {}).rth → c ≠ 2047 → t.alerts = s.alerts) ∧
          (perr = true ∨ x.parityFails = true ∨ (tgetD s.sectors sec {}).rth ≤ c ∨ c = 2047 →
            t.alerts = s.alerts ++ [row] ∧ (rowFind t.rows row).hot = (x.hot || decide (1 ≤ x.alerts)) ∧
            .event (.refreshManagement row.stack row.pch row.bank) ∈ t.agenda))) ∧
    ((∀ x ∈ s.alerts, ¬ (x.stack = stack ∧ x.pch = pch ∧ x.bank = rbank)) → exec (.refreshManagement stack pch rbank) s = .next s) ∧
    (∀ r before after, s.alerts = before ++ r :: after → (∀ x ∈ before, ¬ (x.stack = stack ∧ x.pch = pch ∧ x.bank = rbank)) →
      r.stack = stack → r.pch = pch → r.bank = rbank → ∃ t, exec (.refreshManagement stack pch rbank) s = .next t ∧
        (rowFind t.rows r).count = 0 ∧ (rowFind t.rows r).parityFails = false ∧ t.alerts = ldel s.alerts r ∧
        (tgetD t.sectors (sectorOfStack stack) {}).rfm = (tgetD s.sectors (sectorOfStack stack) {}).rfm + 1 ∧ t.mem = s.mem) ∧
    (∃ t, exec .refreshWindowEnd s = .next t ∧ (∀ e ∈ t.rows, e.2.hot = false ∧ e.2.alerts = 0) ∧
      t.rows.map (fun e => (e.1, e.2.count)) = s.rows.map (fun e => (e.1, e.2.count)) ∧ t.timers = s.timers ++ [(s.time + 32000000, .refreshWindowEnd)]) ∧
    (∃ t, exec .timeTick s = .next t ∧ t.time = s.time + 1 ∧ .event .timeTick ∈ t.agenda ∧
      (∀ e ∈ s.timers, e.1 ≤ s.time + 1 → .event e.2 ∈ t.agenda) ∧
      (s.moves = [] → s.upsets = [] → t.uncorr = ({ s with time := s.time + 1 } : State).fire.flushRings.uncorr) ∧
      (∀ pa r, s.moves = [] → s.upsets = .word pa :: r → pa / 8 ∈ t.uncorr ∧ t.upsets = r))

/-- A command that arrives while none is under way, on a module that is ready, is performed; while one is under way it
waits; before READY only READFUSE and LOADFW are served. READFUSE replies the fuse map, ATTEST with 32 bytes the
report and the certificate, LINKS the links, READBKT the bucket of each tile. LOADFW stores an image that is accepted.
SETRTH sets the threshold of a sector from 256 to 2,047, LOADKEY the key of a slot from 1 to 255. ACTIVATE of a PCB
that is good makes its partition, its arena at the address that the model reads in the PCB (the model's presumption, log
13); one that is not, a reserved bit set among the rest (the model's reading of R17, log 55), is answered REFUSED.
SETPOOL sets a pool's total, an allowance, or both: it raises a pool from the reserve; a total or an allowance that it
lowers is revoked (in which order is the model's choice, logs 27 and 59), and the command stays under way and looks again
until what is on its way has come back. HALT and RESUME start and end the halt of the partitions they name. DEACTIVATE
closes a partition and ends it when no grid remains. With a good image and fuse map POWER_GOOD boots the module, TIME 0 at
power-on, the links as its argument reports them (the model's choice, log 33); else it comes up in recovery. The warning is
reported; at 110 °C the power goes, and memory stays (the model's reading, log 32). When a halted partition has stopped its
record is written: COUNT is its good cores, and FIRST and LAST are TRIG, as every core stops in the step of the trigger (the
model's choice, log 28), at the address that the model reads in the PCB (log 13). exec answers those states. -/
def Obligations.management_commands_answer_in_order : Prop :=
  ∀ (s : State) (img : FwImage) (nonce : List Byte) (sec v n part : Nat) (key : BitVec 256) (pcb : Word) (field : Nat) (total : Option Nat)
      (al : Option (Nat × Nat)) (dom : Option Nat) (links : List LinkReport) (failed : List Nat),
    let pool := total.map fun x => (field, x)
    let said := fun (x : State) (r : Reply) => (.next { x with replies := x.replies ++ [r] } : Host.Outcome State Fault Refusal)
    let cmds : List (Instr × Command) := [(.readfuse, .readfuse), (.loadfw img, .loadfw img), (.attest nonce, .attest nonce), (.setrth sec v, .setrth sec v),
      (.loadkey n key, .loadkey n key), (.activate pcb, .activate pcb), (.setpool field total al, .setpool pool al), (.links, .links),
      (.mgmtHalt dom, .halt dom), (.mgmtResume dom, .resume dom), (.readbkt, .readbkt)]
    (s.boot ≠ .off → s.command ≠ none → ∀ e ∈ cmds, (e.2 = .setpool pool al → s.command = some e.2 → s.ownLook (setpoolLook pool al) = false) →
      exec e.1 s = .next { s with pending := s.pending ++ [e.2] }) ∧
    (s.boot = .recovery → s.command = none → ∀ e ∈ cmds, (e.2 = .readfuse → exec e.1 s = said s (.fuses s.fuses)) ∧
      (e.2 ≠ .readfuse → e.2 ≠ .loadfw img → exec e.1 s = said s .refused)) ∧
    (s.boot = .ready → s.command = none →
      exec .readfuse s = said s (.fuses s.fuses) ∧
      exec .links s = said s (.links s.links) ∧
      exec .readbkt s = said s (.buckets (allTiles.map fun t => (t, (s.tile t).bucket))) ∧
      (nonce.length = 32 → exec (.attest nonce) s = said s (.report (s.attestReport nonce) s.certificate)) ∧
      (nonce.length ≠ 32 → exec (.attest nonce) s = said s .refused) ∧
      (s.imageOk img = true → exec (.loadfw img) s = said { s with image := img, running := if s.parts = [] then img else s.running } .done) ∧
      (s.imageOk img = false → exec (.loadfw img) s = said s .refused) ∧
      (sec < 8 → 256 ≤ v → v ≤ 2047 → exec (.setrth sec v) s =
        said { s with sectors := tput s.sectors sec { (tgetD s.sectors sec {}) with rth := v } } .done) ∧
      (8 ≤ sec ∨ v < 256 ∨ 2047 < v → exec (.setrth sec v) s = said s .refused) ∧
      (1 ≤ n → n ≤ 255 → exec (.loadkey n key) s = said { s with keys := tput s.keys n key } .done) ∧
      (n = 0 ∨ 255 < n → exec (.loadkey n key) s = said s .refused) ∧
      (s.pcbBad pcb = true → exec (.activate pcb) s = said s .refused) ∧
      (∀ a s2, s.pcbBad pcb = false → pinPa (s.pcbPart pcb) (s.pcbPart pcb).arena = some a →
        let p := s.pcbPart pcb
        let k := bits (s.pcbDw pcb 8) 5 0
        let size := (s.dwAt a).toNat
        let s1 := s.setPart k { p with free := if size ≤ 64 then [] else [(p.arena + 64, size - 64)] }
        s1.takeRings k (s1.ringTiles p) = some s2 →
        exec (.activate pcb) s = said (p.fields.foldl (fun x e => x.postAt (x.time + 10000) (.occupancySnapshot e.1))
          ((s2.cleanFields p).firstTails k p)) .done) ∧
      (
        let fits := fun (f v : Nat) => f ≤ 48 ∧ (s.field f).retired = false ∧ s.floorsOf f ≤ v ∧ v - (s.field f).total ≤ s.reserve
        ((∃ f v, pool = some (f, v) ∧ ¬ fits f v) ∨ (∃ k a, al = some (k, a) ∧ tget s.parts k = none) →
          exec (.setpool field total al) s = said s .refused) ∧
        ((∀ f v, pool = some (f, v) → fits f v) → (∀ k a, al = some (k, a) → (tget s.parts k).isSome = true) →
          (∀ f v, pool = some (f, v) → al = none → (s.field f).total ≤ v → exec (.setpool field total al) s =
            said (if (s.field f).total < v then s.raisePool f (v - (s.field f).total) else s) .done) ∧
          (s.overPool pool = 0 → s.cutsAllow al = false → exec (.setpool field total al) s = said ((s.setAllow al).raiseTo pool) .done) ∧
          (s.overPool pool ≠ 0 ∨ s.cutsAllow al = true → exec (.setpool field total al) s =
            .next (({ (s.setAllow al).lowerTo pool with command := some (.setpool pool al) } : State).postOnce (setpoolLook pool al))))) ∧
      ((∀ k ∈ s.haltDomain dom, (tget s.parts k).isSome = true) →
        exec (.mgmtHalt dom) s = said ((s.haltDomain dom).foldl (fun x k => x.startHalt k haltPort 0 0) s) .done ∧
        exec (.mgmtResume dom) s = said ((s.haltDomain dom).foldl State.endHalt s) .done)) ∧
    (s.command = some (.setpool pool al) → s.ownLook (setpoolLook pool al) = true →
      let again := fun (x : State) => (.next (x.postAt (x.time + 1) (setpoolLook pool al)) : Host.Outcome State Fault Refusal)
      (s.poolWaits pool al = true → exec (.setpool field total al) s = again s) ∧
      (s.poolWaits pool al = false → s.cutsAllow al = true → exec (.setpool field total al) s = again (s.setAllow al)) ∧
      (s.poolWaits pool al = false → s.cutsAllow al = false → s.overPool pool ≠ 0 → exec (.setpool field total al) s = again (s.lowerTo pool)) ∧
      (s.poolWaits pool al = false → s.cutsAllow al = false → s.overPool pool = 0 → s.pending = [] → exec (.setpool field total al) s =
        said { s.raiseTo pool with command := none, pending := [] } .done)) ∧
    (∀ p, tget s.parts part = some p →
      (s.boot = .ready → s.command = none → p.closing = false →
        let s1 := { (s.modPart part fun p => { p with closing := true }) with command := some (.deactivate part) }
        ((∃ e ∈ s.tasks, e.2.part = part) → exec (.deactivate part) s = .next s1) ∧
        ((∀ e ∈ s.tasks, e.2.part ≠ part) → exec (.deactivate part) s = .next (s1.postOnce (.deactivate part)))) ∧
      (p.closing = true → (∀ e ∈ s.tasks, e.2.part ≠ part) → s.command = some (.deactivate part) → s.pending = [] → ∃ t,
        exec (.deactivate part) s = .next t ∧ t.command = none ∧ (s.endPartition part p).command = s.command ∧
        t = { s.endPartition part p with command := none, pending := [], replies := (s.endPartition part p).replies ++ [.done] }) ∧
      (∀ h, p.halt = some h →
        let count := (p.cores.filter fun c => tileExists (c / 16) && coreExists c && (s.core c).good && (s.tile (c / 16)).good).length
        exec (.haltRecord part) s = .next (s.putPins p p.haltrec [BitVec.ofNat 64 (h.source * 2 ^ 62) ||| h.pcoord, BitVec.ofNat 64 h.since,
          BitVec.ofNat 64 h.since, BitVec.ofNat 64 h.since, BitVec.ofNat 64 count, 0, 0, 0]))) ∧
    (s.boot ≠ .off → exec .thermalWarning s = said s .warning) ∧
    exec .thermalShutdown s = .next s.powerless ∧ s.powerless.boot = .off ∧ s.powerless.parts = [] ∧ s.powerless.mem = s.mem ∧
    (s.powerless.imageOk s.image = true → s.powerless.fusesOk = true → ∃ t, exec (.powerGood links failed) s = .next t ∧ t.boot = .ready ∧
      t.replies = [.ready] ∧ t.time = 0 ∧ t.parts = [] ∧ t.running = s.image ∧ t.links.length = 8) ∧
    (s.powerless.imageOk s.image = false ∨ s.powerless.fusesOk = false → exec (.powerGood links failed) s =
      .next { s.powerless with boot := .recovery })

/-- On a port that is up, a packet of a session that is not open is answered REFUSED; one below its turn is acknowledged
and not performed; one that is held already changes nothing more; a new one ahead of a gap is held and not performed. The
packet whose SEQ is next is performed, its answer goes out, and what the session holds after it follows. A packet that is
good on its face acknowledges what the module has sent. A session whose virtual function has been released answers MOVED;
one that acts for nobody, a bad header, a VER that is not the agreed one and a feature that is off are answered REFUSED;
what PAUSE turns away is answered BUSY. Else a WRITE writes its payload, a READ answers the bytes, an ATOMIC, at the
partition's serving port, the old value, as an acquire that flashes that field's remote data cache, a CADD adds, an APPEND
writes the slot that TAIL names and adds 1 to TAIL, a BLOCK writes and, with bit 63 of ARG set, puts its index on the port's
queue and adds 1 at GARR, an access as supervisor (the model's presumption, log 13); all others are a user's when the VF is an
ordinary one. Each is acknowledged OK. What lies nowhere, what is lost, a CADD in the scratchpad window and an unassigned kind
are answered REFUSED, a full ring or queue BUSY; a page that is not there holds the packet. exec answers those states. -/
def Obligations.numbered_packets_are_performed_in_their_turn : Prop :=
  ∀ (s : State) (port : Nat) (pk : Packet),
    let ses := pk.session.toNat
    let kinds : List (Instr × Bool) := [(.gibenWrite port pk, isKind pk 0x10), (.gibenRead port pk, isKind pk 0x11), (.readrsp port pk, isKind pk 0x12),
      (.gibenAtomic port pk, isKind pk 0x13), (.gibenCadd port pk, isKind pk 0x14), (.append port pk, isKind pk 0x15),
      (.gibenBlock port pk, isKind pk 0x16), (.bind port pk, isSub pk 1), (.unbind port pk, isSub pk 2), (.gibenAttest port pk, isSub pk 3),
      (.track port pk, isSub pk 4), (.collect port pk, isSub pk 5), (.pause port pk, isSub pk 6), (.release port pk, isSub pk 7),
      (.gibenUnassignedKind port pk, noKind pk)]
    (∀ e ∈ kinds, (s.portOff port = true ∨ e.2 = false → exec e.1 s = .next s) ∧ (s.portOff port = false → e.2 = true →
      let s1 := s.advanceBy port pk
      (s1.session port ses = none → exec e.1 s = .next (s1.emit port (refusal pk))) ∧
      (∀ x, s1.session port ses = some x →
        let x1 := { x with held := x.held ++ [pk] }
        let s2 := s1.setSession port ses x1
        (seqBelow pk.seq x.next = true → exec e.1 s = .next (s1.emit port (x.ackPacket ses 0))) ∧
        (seqBelow pk.seq x.next = false → (∃ k ∈ x.held, k.seq = pk.seq) → exec e.1 s = .next s1) ∧
        (seqBelow pk.seq x.next = false → pk.seq ≠ x.next → (∀ k ∈ x.held, k.seq ≠ pk.seq ∧ k.seq ≠ x.next) → exec e.1 s = .next s2) ∧
        (pk.seq = x.next → (∀ k ∈ x.held, k.seq ≠ pk.seq) →
          let s3 := answered port ses pk (s2.performPacket port ses x1 pk)
          ∃ m, exec e.1 s = .next (if (s3.session port ses).all (fun y => y.next = x.next) then s3 else State.runHeld port ses m s3))))) ∧
    (∀ x, s.session port ses = some x →
      (badHeader pk port = false → pk.ver.toNat = x.ver → s.advanceBy port pk = s.advance port ses pk.ack) ∧
      (badHeader pk port = true ∨ pk.ver.toNat ≠ x.ver → s.advanceBy port pk = s)) ∧
    (∀ (n ses : Nat) (x : Session),
      let does := s.performPacket n ses x pk
      let off := ∃ f, featureOf pk = some f ∧ x.feat.getLsbD f = false
      let bad := badHeader pk n = true ∨ pk.ver.toNat ≠ x.ver ∨ off
      (s.moved n x = true → does = .ack s 2) ∧
      (s.moved n x = false → s.behalf n x = none → does = .ack s 3) ∧
      (∀ b, s.moved n x = false → s.behalf n x = some b →
        (bad → does = .ack s 3) ∧
        (¬ bad → s.paused b = true → pk.kind.toNat = 0x10 ∨ pk.kind.toNat = 0x14 ∨ pk.kind.toNat = 0x15 ∨ pk.kind.toNat = 0x16 → does = .ack s 1) ∧
        (¬ bad → s.paused b = false →
          let i := turnOf n ses
          let user := b.vf.isSome
          let w := portWriter n b.part b.ctx
          let one := s.reach i user b.part b.ctx pk.addr .rmw
          (isKind pk 0x10 = true → pk.arg = 0 → pk.payload.length % 4 = 0 →
            let ps := pieces pk.addr pk.payload.length
            let got := s.reachEach i user b.part b.ctx (ps.map fun y => (y.1, .write))
            (∀ s1 l, got = .ok s1 l → does = .ack (s1.putPieces w pk.payload (ps.zip l)) 0) ∧
            (∀ s1, got = .bad s1 → does = .ack s1 3) ∧ (∀ s1, got = .held s1 → does = .held s1)) ∧
          (isKind pk 0x11 = true → pk.arg.toNat % 4 = 0 → pk.arg.toNat ≤ 8192 → pk.payload = [] →
            let ps := pieces pk.addr pk.arg.toNat
            let got := s.reachEach i user b.part b.ctx (ps.map fun y => (y.1, .read))
            (∀ s1 l, got = .ok s1 l →
              let at_ := l.zip (ps.map fun y => y.2.2)
              (s1.lostIn at_ = true → does = .ack (s1.assayIn at_) 3) ∧
              (s1.lostIn at_ = false →
                let s2 := l.foldl (fun y pa => y.touchL2 pa b.ctx) s1
                does = .rsp s2 ((ps.zip l).flatMap fun y => s2.bytesAt y.2 y.1.2.2))) ∧
            (∀ s1, got = .bad s1 → does = .ack s1 3) ∧ (∀ s1, got = .held s1 → does = .held s1)) ∧
          (isKind pk 0x12 = true → does = .ack s 0) ∧
          (isKind pk 0x13 = true → pk.arg.toNat < 2 ^ 16 → bits pk.arg 11 2 = 0 → (bits pk.arg 1 0 = 0 ∨ bits pk.arg 1 0 = 3) →
            let nb := if bits pk.arg 1 0 = 3 then 4 else 8
            let m := s.servingPort b.part
            pk.addr.toNat % nb = 0 → (atomicNew pk (8 * nb) 0).isSome = true →
              (∀ s1 pa, one = .ok s1 pa → s1.lostAt pa nb = true → does = .ack (s1.assayAt pa) 3) ∧
              (∀ s1 pa new, one = .ok s1 pa → s1.lostAt pa nb = false →
                let old := s1.valAt pa nb
                let s2 := s1.touchL2 pa b.ctx
                atomicNew pk (8 * nb) old = some new →
                does = .rsp (((new.map fun v => s2.homeWrite (portWriter m b.part b.ctx) pk.addr pa (bytesOf nb v)).getD
                  (s2.dropRdc (fieldOfPort m) pk.addr b.ctx)).flashRdc (fieldOfPort m)) (bytesOf 8 old)) ∧
              (∀ s1 c va, one = .bad s1 c va → does = .ack s1 3) ∧ (∀ s1, one = .held s1 → does = .held s1)) ∧
          (isKind pk 0x14 = true → inWindow pk.addr = true → does = .ack s 3) ∧
          (isKind pk 0x14 = true → pk.payload = [] → bits pk.addr 2 0 = 0 → inWindow pk.addr = false →
            (∀ s1 pa, one = .ok s1 pa → s1.lostAt pa 8 = true → does = .ack (s1.assayAt pa) 3) ∧
            (∀ s1 pa, one = .ok s1 pa → s1.lostAt pa 8 = false →
              does = .ack ((s1.dropRdc (fieldOfPort n) pk.addr b.ctx).addAt b.ctx pa pk.arg) 0) ∧
            (∀ s1 c va, one = .bad s1 c va → does = .ack s1 3) ∧ (∀ s1, one = .held s1 → does = .held s1)) ∧
          (∀ v p, isKind pk 0x15 = true → b.vf = some v → tget s.parts b.part = some p → pk.arg.toNat < 8 → pk.payload.length = 64 →
            bits pk.arg 2 0 < s.vfQueues p v →
            let d := s.qdesc p v (bits pk.arg 2 0)
            ∀ s1 dp hp s2 tp, s.reachEach i true b.part b.ctx [(d, .read), (d + 0x18, .read)] = .ok s1 [dp, hp] →
              s1.lostIn [(dp, 24), (hp, 8)] = false →
              s1.reachEach i true b.part b.ctx [(s1.dwAt (dp + 0x10), .rmw)] = .ok s2 [tp] →
              let nslot := bits (s1.dwAt (dp + 8)) 16 0
              let tail := s2.dwAt tp
              (s2.lostAt tp 8 = true → does = .ack (s2.assayAt tp) 3) ∧
              (s2.lostAt tp 8 = false → nslot ≤ (tail - s1.dwAt hp).toNat → does = .ack s2 1) ∧
              (s2.lostAt tp 8 = false → (tail - s1.dwAt hp).toNat < nslot →
                let va := s2.dwAt dp + BitVec.ofNat 64 (64 * (tail.toNat % nslot))
                ∀ s3 sp, s2.reachEach i true b.part b.ctx [(va, .write)] = .ok s3 [sp] →
                  does = .ack (((s3.homeWrite w va sp pk.payload).dropRdc (fieldOfPort n) (s1.dwAt (dp + 0x10)) b.ctx).addAt b.ctx tp 1) 0)) ∧
          (∀ bd, isKind pk 0x16 = true → (s.port n).bind = some bd → pk.payload.length % 4 = 0 →
            (256 ≤ (s.port n).blocks.length → (pk.arg = 0 ∨ bit pk.arg 63 = true) → does = .ack s 1) ∧
            ((s.port n).blocks.length < 256 → pk.arg = 0 → does = s.portWrite n ses b pk.addr pk.payload fun s1 => .ack s1 0) ∧
            ((s.port n).blocks.length < 256 → bit pk.arg 63 = true →
              ∀ s1 gp, s.reachEach i false bd.part bd.ctx [(bd.garr, .rmw)] = .ok s1 [gp] → s1.lostAt gp 8 = false →
                does = s1.portWrite n ses b pk.addr pk.payload fun s2 =>
                  .ack (((s2.modPort n fun y => { y with blocks := y.blocks ++ [pk.arg] }).dropRdc (fieldOfPort n) bd.garr bd.ctx).addAt bd.ctx gp 1) 0)) ∧
          (noKind pk = true → does = .ack s 3))))

/-- Performed in their turn on a supervisor session of a host port: BIND of a port that has no binding, by a block that is
good, binds it; a gateway task that the block names is launched on the port's gateway cores once it has no counter to wait
for, and one that a check of R492 refuses ends with that fault and no strand. UNBIND of a binding that is idle ends it; one
that is not tries again. ATTEST with 32 bytes answers the report and the certificate. TRACK clears D in every leaf of the
virtual function's context, keeps the ring, and raises the generation of the context; COLLECT clears D in the leaves of the
pages that the ring named, and raises it. PAUSE starts and is left to the scheduler. RELEASE of a virtual function that is
paused ends the bindings of its peer ports, those below the host ports, and its tracking, and completes. Each is
acknowledged OK; on any other session each is refused. The session's context is 0 (the model's reading, log 31). -/
def Obligations.management_packets_bind_and_migrate : Prop :=
  ∀ (s : State) (n ses : Nat) (x : Session) (b : Behalf) (pk : Packet),
    s.moved n x = false → s.behalf n x = some b → badHeader pk n = false → pk.ver.toNat = x.ver →
    (∀ f, featureOf pk = some f → x.feat.getLsbD f = true) → s.paused b = false → isKind pk 0x20 = true →
      let does := s.performPacket n ses x pk
      let m := portNamed pk
      let got := fun (y : State) (l : List (Word × Acc)) => y.reachEach (turnOf n ses) false b.part b.ctx l
      (mgmtOk n b pk = false → does = .ack s 3) ∧ (mgmtOk n b pk = true →
        (b.ctx = 0) ∧
        (∀ p s1 l, isSub pk 1 = true → tget s.parts b.part = some p → 8 ≤ pk.payload.length → m < portCount → (s.port m).bind = none →
          bits pk.addr 2 0 = 0 → got s (dwordAccesses pk.addr 7 .read ++ [(pk.addr + 0x38, .rmw)]) = .ok s1 l →
          s1.pbbBad p (l.map s1.dwAt) = false →
          let gtask := dwIn (l.map s1.dwAt) 2
          let bd := s1.bindingOf b.part p pk.addr (l.map s1.dwAt)
          let bound := fun (y : State) (z : Binding) => (y.modPort m fun q => { q with bind := some z, last := none }).postOnce (.egressDescriptor m)
          (gtask = 0 → does = .ack (bound s1 bd) 0) ∧
          (∀ s2 hl, gtask ≠ 0 → got s1 (dwordAccesses gtask 8 .read) = .ok s2 hl →
            let h : Header := Vector.ofFn fun i : Fin 8 => dwIn (hl.map s2.dwAt) i.val
            (∀ c v, s2.headerFault p h false 4 = some (c, v) → does =
              .ack (bound (s2.endUnlaunched b.part bd.vf bd.ctx gatewayQueue 0 gtask h c v) { bd with task := some s2.nextUid }) 0) ∧
            (s2.headerFault p h false 4 = none → hDep h = 0 →
              let r := s2.launchGateway m b.part bd gtask h
              does = .ack (bound r.1 { bd with task := some r.2 }) 0))) ∧
        (∀ bd, isSub pk 2 = true → (s.port m).bind = some bd → bd.part = b.part → 8 ≤ pk.payload.length →
          (s.bindingIdle m bd = true → does = .ack (s.modPort m fun y => { y with bind := none, last := none, egress := none, blocks := [] }) 0) ∧
          (s.bindingIdle m bd = false → does = .again s)) ∧
        (isSub pk 3 = true → pk.payload.length = 32 → does = .rsp s (s.attestReport pk.payload ++ s.certificate)) ∧
        (∀ p s1 l, tget s.parts b.part = some p → bits pk.addr 2 0 = 0 → pk.payload = [] →
          got s (dwordAccesses pk.addr 8 .read ++ [(pk.addr + 8, .write)]) = .ok s1 l →
          let ws := l.map s1.dwAt
          let v := bits (dwIn ws 0) 9 0
          let ctx := s1.vfCtx p v
          bits (dwIn ws 0) 63 10 = 0 → s1.vfValid p v = true → (s1.vf b.part v).moving = none →
          (isSub pk 4 = true → slotsOk (dwIn ws 3) = true → does = .ack (((((s1.leavesOf p ctx).foldl State.clearD s1).modVf b.part v fun f =>
            { f with moving := some (4, pk.addr), mblk := pk.addr, dring := dwIn ws 2, dnslot := (dwIn ws 3).toNat, dtail := dwIn ws 4,
                     dovf := false, dpages := [] }).dropDirty b.part v).raiseFor b.part ctx v) 0) ∧
          (isSub pk 5 = true → does = .ack ((((s1.vf b.part v).dpages.filterMap (s1.leafOfPage p ctx)).foldl State.clearD s1).modVf b.part v
            (fun f => { f with moving := some (5, pk.addr), dpages := [] }) |>.raiseFor b.part ctx v) 0) ∧
          (isSub pk 6 = true → does = .ack ((s1.modVf b.part v fun f => { f with moving := some (6, pk.addr), pause := 1 }).postOnce (.taskLaunch b.part)) 0) ∧
          (isSub pk 7 = true → (s1.vf b.part v).pause = 3 → does = .ack (((((s1.portsOf b.part v).filter fun k => k < hostPort).foldl
            (fun y k => y.endBinding k (some (b.part, v))) s1).modVf b.part v fun f => { f with released := true, tracking := false }).migrationDone
              b.part v pk.addr) 0) ∧
          (isSub pk 7 = true → (s1.vf b.part v).pause ≠ 3 → does = .ack s 3)))

/-- A HELLO that is good opens its session with the highest version that both sides have and the features that both
have, and is answered by a HELLO; one with no version in common, or for nobody, is refused. An ACK frees what it
acknowledges; BUSY is remembered, MOVED closes the session, REFUSED is the outcome of the descriptor under way; one of no
open session, or that is not good, is refused. When the timeout falls due every packet that is not acknowledged is sent
again; the fifth closes the session. A bound port reads ETAIL as supervisor, as an acquire that flashes the field's remote
data cache, takes the next descriptor of its ring, and writes EHEAD, in the context of the bound virtual function (that
these are a supervisor's accesses is the model's presumption, log 13); a dword that is lost makes RES REFUSED. Without a
session a descriptor waits; after one was lost it ends with TIMEOUT. A descriptor that is bad is REFUSED; the packets of any
other are sent, their bytes read as a user's. With its outcome RES is written, CTR gets its addition, and the next
descriptor gets its turn; a page that is not there holds the act. A link that goes down is marked so, one that comes up
serves again. exec answers those states. -/
def Obligations.sessions_and_egress_follow_their_links : Prop :=
  ∀ (s : State) (port session : Nat) (pk : Packet) (res : Fin 4),
    let ses := pk.session.toNat
    (s.portOff port = false → isKind pk 1 = true →
      (∀ part vf ver, s.helloFor port pk = some (part, vf) → agreedVersion (helloDw pk 0) (helloDw pk 1) = some ver →
        let x : Session := { part := part, vf := vf, ver := ver, feat := agreedFeatures ver (helloDw pk 2) }
        let s1 := ((s.closeSession port ses 1).setSession port ses x).modPort port fun y => { y with lost := false }
        (s.moved port x = true → exec (.hello port pk) s = .next (s.emit port { refusal pk with arg := 2 })) ∧
        (s.moved port x = false → helloBad port pk = true → exec (.hello port pk) s = .next (s.emit port (refusal pk))) ∧
        (s.moved port x = false → helloBad port pk = false →
          exec (.hello port pk) s = .next ((s1.emit port (helloAnswer pk ver)).postOnce (.egressDescriptor port)) ∧
          s1.session port ses = some x ∧ x.next = 0 ∧ x.seq = 0)) ∧
      (s.helloFor port pk = none ∨ agreedVersion (helloDw pk 0) (helloDw pk 1) = none →
        exec (.hello port pk) s = .next (s.emit port (refusal pk)))) ∧
    (s.portOff port = false → isKind pk 2 = true → s.session port ses = none → exec (.gibenAck port pk) s = .next (s.emit port (refusal pk))) ∧
    (∀ x, s.portOff port = false → isKind pk 2 = true → s.session port ses = some x → badHeader pk port = true ∨ pk.ver.toNat ≠ x.ver →
      exec (.gibenAck port pk) s = .next (s.emit port (refusal pk))) ∧
    (∀ x, s.portOff port = false → isKind pk 2 = true → s.session port ses = some x → badHeader pk port = false → pk.ver.toNat = x.ver →
      let code := bits pk.arg 7 0
      (code = 1 → exec (.gibenAck port pk) s = .next (s.setSession port ses { x with busy := true })) ∧
      (code = 2 → exec (.gibenAck port pk) s = .next (s.closeSession port ses 3)) ∧
      (code = 3 → exec (.gibenAck port pk) s = .next ((s.modPort port fun y => { y with egress := y.egress.map fun g =>
        if g.session = ses ∧ g.res = none ∧ (seqBelow g.first pk.ack) = true then { g with res := some 2 } else g }).advance port ses pk.ack)) ∧
      (code = 0 ∨ 3 < code → exec (.gibenAck port pk) s = .next (s.advance port ses pk.ack))) ∧
    (let s1 := s.sessionTurn port session;
      (s1.session port session = none → exec (.retransmitTimeout port session) s = .next s1) ∧
      (∀ x, s1.session port session = some x →
        (∀ d, x.due = some d → s1.time < d → exec (.retransmitTimeout port session) s = .next s1) ∧
        (∀ d, x.due = some d → d ≤ s1.time → x.unacked ≠ [] →
          let n := if x.busy then x.timeouts else x.timeouts + 1
          (5 ≤ n → exec (.retransmitTimeout port session) s =
            .next (((s1.modPort port fun y => { y with lost := true }).closeSession port session 1).postOnce (.egressDescriptor port))) ∧
          (n < 5 → exec (.retransmitTimeout port session) s = .next (x.unacked.foldl (fun y k => y.emit port k)
            (s1.armTimeout port session { x with timeouts := n, busy := false })))))) ∧
    (∀ b, (s.port port).bind = some b →
      (∀ g, (s.port port).egress = some g → g.sent = false → (s.port port).down = false →
        exec (.egressDescriptor port) s = .next (s.egressRun port b g)) ∧
      ((s.port port).egress = none → (s.port port).lost = false → (s.port port).sender = none → exec (.egressDescriptor port) s = .next s) ∧
      (∀ s0, (s.port port).egress = none → (s.port port).lost = true ∨ (s.port port).sender ≠ none →
        let act := Instr.egressDescriptor port
        let ses := if (s.port port).lost then none else (s.port port).sender
        let place := b.ering + BitVec.ofNat 64 (64 * (b.ehead.toNat % b.enslot))
        (s.reachEach act false b.part b.ctx [(b.etail, .read)] = .held s0 → exec act s = .next s0) ∧
        (∀ tp, s.reachEach act false b.part b.ctx [(b.etail, .read)] = .ok s0 [tp] →
          let s1 := (s0.touchL2 tp b.ctx).flashRdc (fieldOfPort port)
          (s1.lostAt tp 8 = true → exec act s = .next (s1.assayAt tp)) ∧
          (s1.lostAt tp 8 = false → s1.dwAt tp = b.ehead → exec act s = .next s1) ∧
          (∀ s2, s1.lostAt tp 8 = false → s1.dwAt tp ≠ b.ehead →
            s1.reachAll act b.part b.ctx [(place, .read), (b.pbb + 0x38, .write)] = (s2, none) → exec act s = .next s2) ∧
          (∀ s2 dp hp, s1.lostAt tp 8 = false → s1.dwAt tp ≠ b.ehead →
            s1.reachAll act b.part b.ctx [(place, .read), (b.pbb + 0x38, .write)] = (s2, some [dp, hp]) →
            let g := s2.egressAt ses place dp
            let s3 := s2.portRead port b.ctx ((dp.map fun a => (place, a, 64)).toList)
            let s4 := (s3.modPort port fun y => { y with bind := some { b with ehead := b.ehead + 1 }, egress := some g }).assayIn
              ((dp.map fun a => (a, 64)).toList)
            exec act s = .next (((s4.dropRdc (fieldOfPort port) (b.pbb + 0x38) b.ctx).putReach b.ctx (some hp)
              (bytesOf 8 (b.ehead + 1).toNat)).egressRun port b g) ∧
            (∀ a, dp = some a → (∀ i < 8, s2.lostAt (a + 8 * i) 8 = false) →
              g = { place := place, desc := Vector.ofFn fun i : Fin 8 => s2.dwAt (a + 8 * i.val), session := ses.getD maxSessions }) ∧
            (dp = none ∨ (∃ a, dp = some a ∧ ∃ i < 7, s2.lostAt (a + 8 * i) 8 = true) → g.res = some 2)))) ∧
      (∀ g : Egress,
        let sent := s.egressRun port b g
        let opk := g.desc[0].toNat
        (s.session port g.session = none → sent = s.egressDone port 1) ∧
        (∀ x, s.session port g.session = some x →
          let bad := egressBad g.desc = true ∨ g.res ≠ none ∨ (opk = 3 ∧ x.feat.getLsbD 2 = false)
          (bad → sent = s.egressDone port 2) ∧
          (¬ bad → opk = 2 → sent = s.sendEgress port { g with first := x.seq } []) ∧
          (¬ bad → opk ≠ 2 →
            let ps := pieces g.desc[1] g.desc[3].toNat
            let got := s.reachEach (.egressDescriptor port) true b.part b.ctx (ps.map fun y => (y.1, .read))
            (∀ s1, got = .bad s1 → sent = s1.egressDone port 2) ∧ (∀ s1, got = .held s1 → sent = s1) ∧
            (∀ s1 l, got = .ok s1 l →
              let at_ := l.zip (ps.map fun y => y.2.2)
              (s1.lostIn at_ = true → sent = (s1.assayIn at_).egressDone port 2) ∧
              (s1.lostIn at_ = false → sent = (s1.portRead port b.ctx ((ps.zip at_).map fun y => (y.1.1, y.2.1, y.2.2))).sendEgress port
                { g with first := x.seq } (at_.flatMap fun y => s1.bytesAt y.1 y.2)))))) ∧
      (∀ g, (s.port port).egress = some g → g.res = some res.val →
        let field := fieldOfPort port
        let act := Instr.egressComplete port res
        let ended := fun (y : State) => (y.modPort port fun z => { z with egress := none }).postOnce (.egressDescriptor port)
        let wrote := fun (y : State) rp => (y.dropRdc field (g.place + 0x38) b.ctx).putReach b.ctx (some rp) (bytesOf 8 res.val)
        let counts := g.desc[5] ≠ 0 ∧ ctrBad g.desc[5] = false
        (counts →
          (∀ s1, s.reachAll act b.part b.ctx [(g.place + 0x38, .write), (g.desc[5], .rmw)] = (s1, none) → exec act s = .next s1) ∧
          (∀ s1 rp cp, s.reachAll act b.part b.ctx [(g.place + 0x38, .write), (g.desc[5], .rmw)] = (s1, some [rp, some cp]) →
            exec act s = .next (ended (((wrote s1 rp).dropRdc field g.desc[5] b.ctx).addAt b.ctx cp g.desc[6]))) ∧
          (∀ s1 rp, s.reachAll act b.part b.ctx [(g.place + 0x38, .write), (g.desc[5], .rmw)] = (s1, some [rp, none]) →
            exec act s = .next (ended (wrote s1 rp)))) ∧
        (¬ counts →
          (∀ s1, s.reachAll act b.part b.ctx [(g.place + 0x38, .write)] = (s1, none) → exec act s = .next s1) ∧
          (∀ s1 rp, s.reachAll act b.part b.ctx [(g.place + 0x38, .write)] = (s1, some [rp]) → exec act s = .next (ended (wrote s1 rp)))))) ∧
    (port < portCount →
      exec (.portLinkDown port) s = .next (s.modPort port fun x => { x with down := true }) ∧
      exec (.portLinkUp port) s = .next ((s.modPort port fun x => { x with down := false }).postOnce (.egressDescriptor port))) ∧
    (portCount ≤ port → exec (.portLinkDown port) s = .next s ∧ exec (.portLinkUp port) s = .next s)

/-- Who moves is what the script names of the agenda, its oldest entry with no script; with nothing due TIME passes (the model's
choice, log 1). When it is the turn of a slot that stands at a word, its core's scalar side serves, of the core's slots that
can issue, the first after the one served last, and with none the slot itself; a slot that enters its block or waits for a
fetch does so at its own turn. On a dark tile no slot moves. When the strand there stands at a word of its block and may
issue, and the word is in its place and decodes to i, step is exec of i on the state after the fetch, in the next cycle in
which the core's scalar side has issued nothing, one of even CYCLE during halved issue; with no such cycle left in the
nanosecond it stays due. A word that one of the waits of issue holds back takes no cycle, and one that waits inside its
operation takes its cycle at each look (the model's reading, log 64). The slots' turns come again. A word kept from before a
CINV.code, or of the stream's path, is taken from there; any other is fetched at HDR + 8 times its index. When it is the turn
of an event, step is exec of the event. At word 0 the strand enters its block. A word that does not decode, or is out of
place, raises its fault. A strand that a suspension has struck waits for its outstanding instructions, and is then
suspended. -/
def Obligations.a_step_runs_the_decoded_word : Prop :=
  ∀ (s s1 : State) (k : Nat),
    (s.script = [] → s.agenda = [] → s.nextTurn = (none, s)) ∧
    (∀ t r, s.script = [] → s.agenda = t :: r → s.nextTurn = (some t, { s with agenda := r })) ∧
    (∀ n r, s.script = n :: r → s.nextTurn = (s.agenda[n]?, { s with agenda := s.agenda.eraseIdx n, script := r })) ∧
    (∀ i, s.nextTurn = (some (.event i), s1) → step s = exec i s1) ∧
    (s.nextTurn = (none, s1) → step s = exec .timeTick s1) ∧
    (let core := coreOfSlot k
    let order := (upto 4).map fun i => core * 4 + ((s1.core core).lastS + 1 + i) % 4
    let at_ := fun (j : Nat) (i : Instr) (t : State) => ({ s1 with cur := j } : State).slotTask j = .word i t
    let can := fun (j : Nat) => ∃ i t, at_ j i t ∧ t.wordWaits j i = false
    (∀ i t, at_ k i t →
      (∀ before j after, order = before ++ j :: after → (∀ x ∈ before, ¬ can x) → can j → s1.servedSlot k = j) ∧
      ((∀ x ∈ order, ¬ can x) → s1.servedSlot k = k)) ∧
    ((∀ i t, ¬ at_ k i t) → s1.servedSlot k = k)) ∧
    (let j := s1.servedSlot k
    let s0 := { s1 with cur := j }
    let then_ := fun (t : State) => (t.again j).again k
    ∀ e, s.nextTurn = (some (.slot k), s1) → s0.envAt j .blockEntry noCtl = some e → e.sl.hold = none → e.p.halt = none →
      (s0.awake e.tile = false → step s = .next (if j = k then s0 else s0.again k)) ∧ (s0.awake e.tile = true →
      (∀ w b, e.sl.stop = some (w, b) →
        (e.sl.flight = [] → step s = .next (then_ ((s0.modSlot j fun x => { x with stop := none }).carryStop j w b))) ∧
        (e.sl.flight ≠ [] → step s = .next (if j = k then s0 else s0.again k))) ∧
      (e.sl.stop = none → s0.mayIssue j = true →
      (e.st.widx = 0 ∨ e.st.refetch = true → (∀ t, exec .blockEntry s0 = .next t → step s = .next (then_ t))) ∧
      (e.st.widx ≠ 0 → e.st.refetch = false → (e.st.isPrivate = true → e.sl.turned = true) →
        ((∀ x ∈ e.st.kept, x.1 ≠ e.st.pc) → s0.pathWord j = none → e.word s0 = e.fetch s0 (e.st.hdr + BitVec.ofNat 64 (8 * e.st.widx))) ∧
        ∀ s2 w, e.word s0 = .ok (s2, w) →
          let faults := fun (c : FaultCode) => step s = .next (then_ (s2.stopped j e.busy false (.fault c w)))
          (misplaced w (lenOf e.st.header) e.st.widx = true → faults .illop) ∧
          (misplaced w (lenOf e.st.header) e.st.widx = false →
            (∀ i, decode e.st.latch.cls w = .ok i →
              let core := coreOfSlot j
              let c0 := max (s2.core core).issueC (s2.cycleOf core)
              let c := if c0 < (s2.core core).halfEnd ∧ c0 % 2 = 1 then c0 + 1 else c0
              let runs := fun (s3 : State) =>
                (∀ t, exec i s3 = .next t → step s = .next (then_ t)) ∧
                (∀ f, exec i s3 = .fault f → step s = .fault f) ∧ (∀ r, exec i s3 = .refused r → step s = .refused r)
              (s2.wordWaits j i = true → runs s2) ∧
              (s2.wordWaits j i = false → c < s2.cycleLimit core →
                runs (s2.modCore core fun x => { x with issueC := c + 1, lastS := j % 4 })) ∧
              (s2.wordWaits j i = false → s2.cycleLimit core ≤ c → step s = .next (then_ s2))) ∧
            (decode e.st.latch.cls w = .error .illop → faults .illop) ∧
            (decode e.st.latch.cls w = .error .operand → faults .operand))))))

/-- Twelve words that the spec writes out bit by bit, from eight families of the opcode table, decode to the
instructions that it says they are, and a word with a reserved register code or a modifier that no description lists
is refused. -/
def Obligations.words_of_the_spec_decode_to_their_instructions : Prop :=
  let k : Ctl := { seq := .next, neg := false, gp := 0, la := 0 }
  decode .empty 0x0000020404000000 = .ok (.addR k (.s 16) (.s 16) (.s 8) ⟨.full, false⟩) ∧
  decode .empty 0x2880010200000003 = .ok (.addI { k with seq := .loop } (.s 8) (.s 8) 3) ∧
  decode .empty 0x2430084245000040 = .ok (.cmpR { k with seq := .either } (.p 2) (.s 9) (.s 10) .full .ltu) ∧
  decode .empty 0x8000012294000040 = .ok (.ld k (.s 9) (.s 10) 0x40 .d false (some .field)) ∧
  decode .empty 0x8E00000000000080 = .ok (.fence k .seq .module) ∧
  decode .empty 0x4082042851000000 = .ok (.fadd { k with seq := .loop, gp := 2 } (.v 1) (.v 1) (.v 2) none none) ∧
  decode .empty 0xA904035200000001 = .ok (.gbar { k with gp := 4 } (.s 26) (.h 0) true) ∧
  decode .empty 0xB000026480000001 = .ok (.treq k (.s 19) (.s 18) true) ∧
  decode .empty 0xB9000002858C0080 = .ok (.copys k (.s 10) (.s 11) (.s 12) .module) ∧
  decode .empty 0xC900000510804018 = .ok (.spmm k (.s 20) (.v 1) 2 3 false) ∧
  decode .empty 0xE40000050A80E000 = .ok (.vesoft k (.s 20) (.s 21) 7) ∧
  decode .empty 0xF200000000000011 = .ok (.trap k 17) ∧
  decode .empty 0x00000FE404000000 = .error .operand ∧
  decode .empty 0x0000020404000010 = .error .illop

/-- For every instruction that the encoding rules admit under a latch class, and the word that encodes it, decoding that
word under the class gives the instruction, with every operand at every value. For every word that decodes, the
instruction is one that the rules admit, and its encoding is the word: no bit of a word is dropped. -/
def Obligations.decoding_and_encoding_agree : Prop :=
  ∀ (lc : LCls),
    (∀ (i : Instr) (w : Word), WellFormed lc i = true → encode i = some w → decode lc w = .ok i) ∧
    (∀ (i : Instr) (w : Word), decode lc w = .ok i → WellFormed lc i = true ∧ encode i = some w)

/-- After reset TIME is 0, the module is off, no partition, task, strand or key is there, each of the 49 pools has its
1,600 tokens and the Crucible 1,600, no token is lent, every core's CYCLE counts from 0 with no lane active, DROOPTH
0x1828, CPWT 4 and its counters 0, every sector's RTH is 1,024, and every second-tier chunk is empty with VERSION 0.
The memory has its canonical form, with nothing listed; what an unlisted byte reads as is the model's choice (log
3). -/
def Obligations.reset_leaves_the_state_the_spec_gives : Prop :=
  let r := State.reset
  Mem.wf r.mem = true ∧ r.mem = [] ∧ r.time = 0 ∧ r.boot = .off ∧ r.parts = [] ∧ r.tasks = [] ∧ r.strands = [] ∧ r.slots = [] ∧ r.keys = [] ∧
  r.loans = [] ∧ r.fieldLoans = [] ∧ r.reserve = 1600 ∧
  (∀ f, (r.field f).free = 1600 ∧ (r.field f).total = 1600 ∧ (r.field f).hold = none ∧ (r.field f).holds = 0) ∧
  (∀ c, r.cycleOf c = 0 ∧ (r.core c).lanes = [] ∧ (r.core c).droopth = 0x1828 ∧ (r.core c).cpwt = 4 ∧ (r.core c).stretch = 0 ∧
    (r.core c).sense = 0 ∧ (r.core c).wakes = 0) ∧
  (∀ n, (tgetD r.sectors n {}).rth = 1024) ∧
  (∀ n, (tgetD r.chunks n {}).empty = true ∧ (tgetD r.chunks n {}).version = 0)

/-- From every state whose memory has strictly rising addresses and lists no byte that reads as an unlisted one does, a
step that answers a next state leaves a memory of that form, so that equal memories are equal data. The form is the
model's own (log 3). -/
def Obligations.every_step_keeps_memory_canonical : Prop :=
  ∀ s t : State, Mem.wf s.mem = true → step s = .next t → Mem.wf t.mem = true

/-- A word of opcodes 0x00 to 0x58, of the predicate and lane groups, or BQUANT or BDEQ, that issues and does not end in
a fault, and whose SEQ does not move the register window, leaves every byte of memory, every task, partition and field
as it was, and every core, but for the time at which a unit of its own core that divides is free again. Every other strand and slot stays, and of a tile only its streams may change. Of its own strand
every register keeps its content but the destination, L, and s6 where SEQ is loop; FPST only gains exception flags;
the special registers, the window and the record's fields stay. -/
def Obligations.register_words_change_nothing_else : Prop :=
  ∀ (s t : State) (i : Instr) (c : Ctl) (e : Env),
    kindOf i ∈ [Kind.alu, Kind.pred, Kind.lane, Kind.block] → Issues s i c e → movesWindow c.seq = false → exec i s = .next t →
    (∀ sl, tget t.slots e.k = some sl → sl.hold = none) →
      { t with slots := s.slots, strands := s.strands, tiles := s.tiles, cores := s.cores, agenda := s.agenda } = s ∧
      (∀ n, ({ (t.core n) with unitFree := (s.core n).unitFree } : Core) = s.core n) ∧ (∀ n, n ≠ e.core → t.core n = s.core n) ∧
      (∀ n, ({ (t.tile n) with streams := [] } : Tile) = { (s.tile n) with streams := [] }) ∧
      (∀ k, k ≠ e.k → tget t.slots k = tget s.slots k) ∧ (∀ u, u ≠ e.u → tget t.strands u = tget s.strands u) ∧
      ∃ y fl, tget t.strands e.u = some y ∧
        (∀ r, dstOf i ≠ some r → r ≠ .latch → ¬ (r = .s 6 ∧ c.seq = .loop) → y.scalar r = e.st.scalar r ∧ y.vector r = e.st.vector r) ∧
        y.fpst = e.st.fpst ||| (BitVec.setWidth 64 (fl : BitVec 5) <<< 8) ∧
        y.zsub = e.st.zsub ∧ y.cause = e.st.cause ∧ y.tval = e.st.tval ∧ y.tpc = e.st.tpc ∧ y.rprog = e.st.rprog ∧ y.treesel = e.st.treesel ∧
        y.rsp = e.st.rsp ∧ y.cwp = e.st.cwp ∧ y.fres = e.st.fres ∧ y.header = e.st.header ∧ y.task = e.st.task ∧ y.part = e.st.part ∧
        y.index = e.st.index ∧ y.home = e.st.home ∧ y.place = e.st.place ∧ y.prio = e.st.prio ∧ y.cls = e.st.cls ∧ y.save = e.st.save ∧
        y.waitK = e.st.waitK ∧ y.ap = e.st.ap
end

