-- ==== Sys2Proof/Laws/Table.lean ====
section
/-! SUPPORT. Sys2Proof/Laws/Table.lean: reading a table after a write. -/

namespace Sys2Proof.Machine

@[simp] theorem tget_nil {α : Type} (k : Nat) : tget ([] : Tab α) k = none := rfl

/-- The number written reads as what was written. -/
@[simp] theorem tget_tput_same {α : Type} (t : Tab α) (k : Nat) (a : α) : tget (tput t k a) k = some a := by
  induction t with
  | nil => simp [tput, tget]
  | cons x r ih =>
    obtain ⟨i, b⟩ := x
    simp only [tput]
    split
    · simp [tget]
    · split
      · simp [tget]
      · rw [tget, if_neg (by omega), ih]

/-- Every other number reads as before. -/
theorem tget_tput_other {α : Type} (t : Tab α) (k j : Nat) (a : α) (h : j ≠ k) : tget (tput t k a) j = tget t j := by
  induction t with
  | nil => simp [tput, tget, Ne.symm h]
  | cons x r ih =>
    obtain ⟨i, b⟩ := x
    simp only [tput]
    split
    · simp [tget, Ne.symm h]
    · split
      · rename_i hk
        subst hk
        simp [tget, Ne.symm h]
      · simp [tget, ih]

theorem tget_tput {α : Type} (t : Tab α) (k j : Nat) (a : α) : tget (tput t k a) j = if j = k then some a else tget t j := by
  by_cases h : j = k
  · simp [h]
  · simp [h, tget_tput_other]

/-- A changed entry. -/
theorem tget_tmod {α : Type} (t : Tab α) (k j : Nat) (f : α → α) :
    tget (tmod t k f) j = if j = k then (tget t k).map f else tget t j := by
  cases h : tget t k with
  | none =>
    simp only [tmod, h]
    split <;> simp_all
  | some a => simp [tmod, h, tget_tput]

@[simp] theorem tget_tmod_same {α : Type} (t : Tab α) (k : Nat) (f : α → α) : tget (tmod t k f) k = (tget t k).map f := by
  simp [tget_tmod]

theorem tget_tmod_other {α : Type} (t : Tab α) (k j : Nat) (f : α → α) (h : j ≠ k) : tget (tmod t k f) j = tget t j := by
  simp [tget_tmod, h]

@[simp] theorem tgetD_tput_same {α : Type} (t : Tab α) (k : Nat) (a d : α) : tgetD (tput t k a) k d = a := by
  simp [tgetD]

theorem tgetD_tput_other {α : Type} (t : Tab α) (k j : Nat) (a d : α) (h : j ≠ k) : tgetD (tput t k a) j d = tgetD t j d := by
  simp [tgetD, tget_tput_other, h]

/-- Removal leaves every other number as it was. -/
theorem tget_tdel_other {α : Type} (t : Tab α) (k j : Nat) (h : j ≠ k) : tget (tdel t k) j = tget t j := by
  induction t with
  | nil => rfl
  | cons x r ih =>
    obtain ⟨i, b⟩ := x
    simp only [tdel]
    split
    · rename_i hk
      subst hk
      simp [tget, Ne.symm h]
    · simp [tget, ih]

theorem tsorted_cons {α : Type} (i : Nat) (a : α) (t : Tab α) :
    tsorted ((i, a) :: t) = true ↔ (∀ x ∈ t.head?, i < x.1) ∧ tsorted t = true := by
  cases t with
  | nil => simp [tsorted]
  | cons x r => simp [tsorted]

theorem head_tput {α : Type} (t : Tab α) (k i : Nat) (a : α) (h : ∀ x ∈ t.head?, i < x.1) (hk : i < k) :
    ∀ x ∈ (tput t k a).head?, i < x.1 := by
  cases t with
  | nil => simpa [tput] using hk
  | cons y r =>
    obtain ⟨j, b⟩ := y
    simp only [tput]
    split
    · simpa using hk
    · split
      · simpa using hk
      · simpa using h

/-- A write keeps the numbers rising. -/
theorem tsorted_tput {α : Type} (t : Tab α) (k : Nat) (a : α) (h : tsorted t = true) : tsorted (tput t k a) = true := by
  induction t with
  | nil => simp [tput, tsorted]
  | cons y r ih =>
    obtain ⟨j, b⟩ := y
    rw [tsorted_cons] at h
    simp only [tput]
    split
    · rename_i hk
      rw [tsorted_cons, tsorted_cons]
      exact ⟨by simpa using hk, h⟩
    · split
      · rename_i hk
        subst hk
        rw [tsorted_cons]
        exact h
      · rw [tsorted_cons]
        exact ⟨head_tput r k j a h.1 (by omega), ih h.2⟩

end Sys2Proof.Machine
end

