-- ==== Sys2Proof/Laws/State.lean ====
section
/-! SUPPORT. Sys2Proof/Laws/State.lean: one lemma for each field of State and each update: what the field holds after it. -/

namespace Sys2Proof.Machine

/-! setCore -/

@[simp] theorem State.setCore_mem (s : State) (n : Nat) (x : Core) : (s.setCore n x).mem = s.mem := rfl
@[simp] theorem State.setCore_uncorr (s : State) (n : Nat) (x : Core) : (s.setCore n x).uncorr = s.uncorr := rfl
@[simp] theorem State.setCore_poison (s : State) (n : Nat) (x : Core) : (s.setCore n x).poison = s.poison := rfl
@[simp] theorem State.setCore_time (s : State) (n : Nat) (x : Core) : (s.setCore n x).time = s.time := rfl
@[simp] theorem State.setCore_boot (s : State) (n : Nat) (x : Core) : (s.setCore n x).boot = s.boot := rfl
@[simp] theorem State.setCore_links (s : State) (n : Nat) (x : Core) : (s.setCore n x).links = s.links := rfl
@[simp] theorem State.setCore_fuses (s : State) (n : Nat) (x : Core) : (s.setCore n x).fuses = s.fuses := rfl
@[simp] theorem State.setCore_secret (s : State) (n : Nat) (x : Core) : (s.setCore n x).secret = s.secret := rfl
@[simp] theorem State.setCore_certificate (s : State) (n : Nat) (x : Core) : (s.setCore n x).certificate = s.certificate := rfl
@[simp] theorem State.setCore_image (s : State) (n : Nat) (x : Core) : (s.setCore n x).image = s.image := rfl
@[simp] theorem State.setCore_running (s : State) (n : Nat) (x : Core) : (s.setCore n x).running = s.running := rfl
@[simp] theorem State.setCore_identity (s : State) (n : Nat) (x : Core) : (s.setCore n x).identity = s.identity := rfl
@[simp] theorem State.setCore_replies (s : State) (n : Nat) (x : Core) : (s.setCore n x).replies = s.replies := rfl
@[simp] theorem State.setCore_command (s : State) (n : Nat) (x : Core) : (s.setCore n x).command = s.command := rfl
@[simp] theorem State.setCore_pending (s : State) (n : Nat) (x : Core) : (s.setCore n x).pending = s.pending := rfl
@[simp] theorem State.setCore_ports (s : State) (n : Nat) (x : Core) : (s.setCore n x).ports = s.ports := rfl
@[simp] theorem State.setCore_chunks (s : State) (n : Nat) (x : Core) : (s.setCore n x).chunks = s.chunks := rfl
@[simp] theorem State.setCore_sectors (s : State) (n : Nat) (x : Core) : (s.setCore n x).sectors = s.sectors := rfl
@[simp] theorem State.setCore_rows (s : State) (n : Nat) (x : Core) : (s.setCore n x).rows = s.rows := rfl
@[simp] theorem State.setCore_alerts (s : State) (n : Nat) (x : Core) : (s.setCore n x).alerts = s.alerts := rfl
@[simp] theorem State.setCore_badFrames (s : State) (n : Nat) (x : Core) : (s.setCore n x).badFrames = s.badFrames := rfl
@[simp] theorem State.setCore_spares (s : State) (n : Nat) (x : Core) : (s.setCore n x).spares = s.spares := rfl
@[simp] theorem State.setCore_keys (s : State) (n : Nat) (x : Core) : (s.setCore n x).keys = s.keys := rfl
@[simp] theorem State.setCore_loans (s : State) (n : Nat) (x : Core) : (s.setCore n x).loans = s.loans := rfl
@[simp] theorem State.setCore_fieldLoans (s : State) (n : Nat) (x : Core) : (s.setCore n x).fieldLoans = s.fieldLoans := rfl
@[simp] theorem State.setCore_parts (s : State) (n : Nat) (x : Core) : (s.setCore n x).parts = s.parts := rfl
@[simp] theorem State.setCore_tasks (s : State) (n : Nat) (x : Core) : (s.setCore n x).tasks = s.tasks := rfl
@[simp] theorem State.setCore_strands (s : State) (n : Nat) (x : Core) : (s.setCore n x).strands = s.strands := rfl
@[simp] theorem State.setCore_slots (s : State) (n : Nat) (x : Core) : (s.setCore n x).slots = s.slots := rfl
@[simp] theorem State.setCore_cores (s : State) (n : Nat) (x : Core) : (s.setCore n x).cores = tput s.cores n x := rfl
@[simp] theorem State.setCore_tiles (s : State) (n : Nat) (x : Core) : (s.setCore n x).tiles = s.tiles := rfl
@[simp] theorem State.setCore_fields (s : State) (n : Nat) (x : Core) : (s.setCore n x).fields = s.fields := rfl
@[simp] theorem State.setCore_agenda (s : State) (n : Nat) (x : Core) : (s.setCore n x).agenda = s.agenda := rfl
@[simp] theorem State.setCore_script (s : State) (n : Nat) (x : Core) : (s.setCore n x).script = s.script := rfl
@[simp] theorem State.setCore_upsets (s : State) (n : Nat) (x : Core) : (s.setCore n x).upsets = s.upsets := rfl
@[simp] theorem State.setCore_moves (s : State) (n : Nat) (x : Core) : (s.setCore n x).moves = s.moves := rfl
@[simp] theorem State.setCore_cosets (s : State) (n : Nat) (x : Core) : (s.setCore n x).cosets = s.cosets := rfl
@[simp] theorem State.setCore_timers (s : State) (n : Nat) (x : Core) : (s.setCore n x).timers = s.timers := rfl
@[simp] theorem State.setCore_cur (s : State) (n : Nat) (x : Core) : (s.setCore n x).cur = s.cur := rfl
@[simp] theorem State.setCore_fresh (s : State) (n : Nat) (x : Core) : (s.setCore n x).fresh = s.fresh := rfl
@[simp] theorem State.setCore_nextUid (s : State) (n : Nat) (x : Core) : (s.setCore n x).nextUid = s.nextUid := rfl
@[simp] theorem State.setCore_core (s : State) (n : Nat) (x : Core) : (s.setCore n x).core n = x := tgetD_tput_same _ _ _ _
theorem State.setCore_core_other (s : State) (n : Nat) (x : Core) (k : Nat) (h : k ≠ n) : (s.setCore n x).core k = s.core k :=
  tgetD_tput_other _ _ _ _ _ h
@[simp] theorem State.setCore_tile (s : State) (n : Nat) (x : Core) (k : Nat) : (s.setCore n x).tile k = s.tile k := rfl
@[simp] theorem State.setCore_field (s : State) (n : Nat) (x : Core) (k : Nat) : (s.setCore n x).field k = s.field k := rfl
@[simp] theorem State.setCore_port (s : State) (n : Nat) (x : Core) (k : Nat) : (s.setCore n x).port k = s.port k := rfl

/-! setTile -/

@[simp] theorem State.setTile_mem (s : State) (n : Nat) (x : Tile) : (s.setTile n x).mem = s.mem := rfl
@[simp] theorem State.setTile_uncorr (s : State) (n : Nat) (x : Tile) : (s.setTile n x).uncorr = s.uncorr := rfl
@[simp] theorem State.setTile_poison (s : State) (n : Nat) (x : Tile) : (s.setTile n x).poison = s.poison := rfl
@[simp] theorem State.setTile_time (s : State) (n : Nat) (x : Tile) : (s.setTile n x).time = s.time := rfl
@[simp] theorem State.setTile_boot (s : State) (n : Nat) (x : Tile) : (s.setTile n x).boot = s.boot := rfl
@[simp] theorem State.setTile_links (s : State) (n : Nat) (x : Tile) : (s.setTile n x).links = s.links := rfl
@[simp] theorem State.setTile_fuses (s : State) (n : Nat) (x : Tile) : (s.setTile n x).fuses = s.fuses := rfl
@[simp] theorem State.setTile_secret (s : State) (n : Nat) (x : Tile) : (s.setTile n x).secret = s.secret := rfl
@[simp] theorem State.setTile_certificate (s : State) (n : Nat) (x : Tile) : (s.setTile n x).certificate = s.certificate := rfl
@[simp] theorem State.setTile_image (s : State) (n : Nat) (x : Tile) : (s.setTile n x).image = s.image := rfl
@[simp] theorem State.setTile_running (s : State) (n : Nat) (x : Tile) : (s.setTile n x).running = s.running := rfl
@[simp] theorem State.setTile_identity (s : State) (n : Nat) (x : Tile) : (s.setTile n x).identity = s.identity := rfl
@[simp] theorem State.setTile_replies (s : State) (n : Nat) (x : Tile) : (s.setTile n x).replies = s.replies := rfl
@[simp] theorem State.setTile_command (s : State) (n : Nat) (x : Tile) : (s.setTile n x).command = s.command := rfl
@[simp] theorem State.setTile_pending (s : State) (n : Nat) (x : Tile) : (s.setTile n x).pending = s.pending := rfl
@[simp] theorem State.setTile_ports (s : State) (n : Nat) (x : Tile) : (s.setTile n x).ports = s.ports := rfl
@[simp] theorem State.setTile_chunks (s : State) (n : Nat) (x : Tile) : (s.setTile n x).chunks = s.chunks := rfl
@[simp] theorem State.setTile_sectors (s : State) (n : Nat) (x : Tile) : (s.setTile n x).sectors = s.sectors := rfl
@[simp] theorem State.setTile_rows (s : State) (n : Nat) (x : Tile) : (s.setTile n x).rows = s.rows := rfl
@[simp] theorem State.setTile_alerts (s : State) (n : Nat) (x : Tile) : (s.setTile n x).alerts = s.alerts := rfl
@[simp] theorem State.setTile_badFrames (s : State) (n : Nat) (x : Tile) : (s.setTile n x).badFrames = s.badFrames := rfl
@[simp] theorem State.setTile_spares (s : State) (n : Nat) (x : Tile) : (s.setTile n x).spares = s.spares := rfl
@[simp] theorem State.setTile_keys (s : State) (n : Nat) (x : Tile) : (s.setTile n x).keys = s.keys := rfl
@[simp] theorem State.setTile_loans (s : State) (n : Nat) (x : Tile) : (s.setTile n x).loans = s.loans := rfl
@[simp] theorem State.setTile_fieldLoans (s : State) (n : Nat) (x : Tile) : (s.setTile n x).fieldLoans = s.fieldLoans := rfl
@[simp] theorem State.setTile_parts (s : State) (n : Nat) (x : Tile) : (s.setTile n x).parts = s.parts := rfl
@[simp] theorem State.setTile_tasks (s : State) (n : Nat) (x : Tile) : (s.setTile n x).tasks = s.tasks := rfl
@[simp] theorem State.setTile_strands (s : State) (n : Nat) (x : Tile) : (s.setTile n x).strands = s.strands := rfl
@[simp] theorem State.setTile_slots (s : State) (n : Nat) (x : Tile) : (s.setTile n x).slots = s.slots := rfl
@[simp] theorem State.setTile_cores (s : State) (n : Nat) (x : Tile) : (s.setTile n x).cores = s.cores := rfl
@[simp] theorem State.setTile_tiles (s : State) (n : Nat) (x : Tile) : (s.setTile n x).tiles = tput s.tiles n x := rfl
@[simp] theorem State.setTile_fields (s : State) (n : Nat) (x : Tile) : (s.setTile n x).fields = s.fields := rfl
@[simp] theorem State.setTile_agenda (s : State) (n : Nat) (x : Tile) : (s.setTile n x).agenda = s.agenda := rfl
@[simp] theorem State.setTile_script (s : State) (n : Nat) (x : Tile) : (s.setTile n x).script = s.script := rfl
@[simp] theorem State.setTile_upsets (s : State) (n : Nat) (x : Tile) : (s.setTile n x).upsets = s.upsets := rfl
@[simp] theorem State.setTile_moves (s : State) (n : Nat) (x : Tile) : (s.setTile n x).moves = s.moves := rfl
@[simp] theorem State.setTile_cosets (s : State) (n : Nat) (x : Tile) : (s.setTile n x).cosets = s.cosets := rfl
@[simp] theorem State.setTile_timers (s : State) (n : Nat) (x : Tile) : (s.setTile n x).timers = s.timers := rfl
@[simp] theorem State.setTile_cur (s : State) (n : Nat) (x : Tile) : (s.setTile n x).cur = s.cur := rfl
@[simp] theorem State.setTile_fresh (s : State) (n : Nat) (x : Tile) : (s.setTile n x).fresh = s.fresh := rfl
@[simp] theorem State.setTile_nextUid (s : State) (n : Nat) (x : Tile) : (s.setTile n x).nextUid = s.nextUid := rfl
@[simp] theorem State.setTile_core (s : State) (n : Nat) (x : Tile) (k : Nat) : (s.setTile n x).core k = s.core k := rfl
@[simp] theorem State.setTile_tile (s : State) (n : Nat) (x : Tile) : (s.setTile n x).tile n = x := tgetD_tput_same _ _ _ _
theorem State.setTile_tile_other (s : State) (n : Nat) (x : Tile) (k : Nat) (h : k ≠ n) : (s.setTile n x).tile k = s.tile k :=
  tgetD_tput_other _ _ _ _ _ h
@[simp] theorem State.setTile_field (s : State) (n : Nat) (x : Tile) (k : Nat) : (s.setTile n x).field k = s.field k := rfl
@[simp] theorem State.setTile_port (s : State) (n : Nat) (x : Tile) (k : Nat) : (s.setTile n x).port k = s.port k := rfl

/-! setField -/

@[simp] theorem State.setField_mem (s : State) (n : Nat) (x : Field) : (s.setField n x).mem = s.mem := rfl
@[simp] theorem State.setField_uncorr (s : State) (n : Nat) (x : Field) : (s.setField n x).uncorr = s.uncorr := rfl
@[simp] theorem State.setField_poison (s : State) (n : Nat) (x : Field) : (s.setField n x).poison = s.poison := rfl
@[simp] theorem State.setField_time (s : State) (n : Nat) (x : Field) : (s.setField n x).time = s.time := rfl
@[simp] theorem State.setField_boot (s : State) (n : Nat) (x : Field) : (s.setField n x).boot = s.boot := rfl
@[simp] theorem State.setField_links (s : State) (n : Nat) (x : Field) : (s.setField n x).links = s.links := rfl
@[simp] theorem State.setField_fuses (s : State) (n : Nat) (x : Field) : (s.setField n x).fuses = s.fuses := rfl
@[simp] theorem State.setField_secret (s : State) (n : Nat) (x : Field) : (s.setField n x).secret = s.secret := rfl
@[simp] theorem State.setField_certificate (s : State) (n : Nat) (x : Field) : (s.setField n x).certificate = s.certificate := rfl
@[simp] theorem State.setField_image (s : State) (n : Nat) (x : Field) : (s.setField n x).image = s.image := rfl
@[simp] theorem State.setField_running (s : State) (n : Nat) (x : Field) : (s.setField n x).running = s.running := rfl
@[simp] theorem State.setField_identity (s : State) (n : Nat) (x : Field) : (s.setField n x).identity = s.identity := rfl
@[simp] theorem State.setField_replies (s : State) (n : Nat) (x : Field) : (s.setField n x).replies = s.replies := rfl
@[simp] theorem State.setField_command (s : State) (n : Nat) (x : Field) : (s.setField n x).command = s.command := rfl
@[simp] theorem State.setField_pending (s : State) (n : Nat) (x : Field) : (s.setField n x).pending = s.pending := rfl
@[simp] theorem State.setField_ports (s : State) (n : Nat) (x : Field) : (s.setField n x).ports = s.ports := rfl
@[simp] theorem State.setField_chunks (s : State) (n : Nat) (x : Field) : (s.setField n x).chunks = s.chunks := rfl
@[simp] theorem State.setField_sectors (s : State) (n : Nat) (x : Field) : (s.setField n x).sectors = s.sectors := rfl
@[simp] theorem State.setField_rows (s : State) (n : Nat) (x : Field) : (s.setField n x).rows = s.rows := rfl
@[simp] theorem State.setField_alerts (s : State) (n : Nat) (x : Field) : (s.setField n x).alerts = s.alerts := rfl
@[simp] theorem State.setField_badFrames (s : State) (n : Nat) (x : Field) : (s.setField n x).badFrames = s.badFrames := rfl
@[simp] theorem State.setField_spares (s : State) (n : Nat) (x : Field) : (s.setField n x).spares = s.spares := rfl
@[simp] theorem State.setField_keys (s : State) (n : Nat) (x : Field) : (s.setField n x).keys = s.keys := rfl
@[simp] theorem State.setField_loans (s : State) (n : Nat) (x : Field) : (s.setField n x).loans = s.loans := rfl
@[simp] theorem State.setField_fieldLoans (s : State) (n : Nat) (x : Field) : (s.setField n x).fieldLoans = s.fieldLoans := rfl
@[simp] theorem State.setField_parts (s : State) (n : Nat) (x : Field) : (s.setField n x).parts = s.parts := rfl
@[simp] theorem State.setField_tasks (s : State) (n : Nat) (x : Field) : (s.setField n x).tasks = s.tasks := rfl
@[simp] theorem State.setField_strands (s : State) (n : Nat) (x : Field) : (s.setField n x).strands = s.strands := rfl
@[simp] theorem State.setField_slots (s : State) (n : Nat) (x : Field) : (s.setField n x).slots = s.slots := rfl
@[simp] theorem State.setField_cores (s : State) (n : Nat) (x : Field) : (s.setField n x).cores = s.cores := rfl
@[simp] theorem State.setField_tiles (s : State) (n : Nat) (x : Field) : (s.setField n x).tiles = s.tiles := rfl
@[simp] theorem State.setField_fields (s : State) (n : Nat) (x : Field) : (s.setField n x).fields = tput s.fields n x := rfl
@[simp] theorem State.setField_agenda (s : State) (n : Nat) (x : Field) : (s.setField n x).agenda = s.agenda := rfl
@[simp] theorem State.setField_script (s : State) (n : Nat) (x : Field) : (s.setField n x).script = s.script := rfl
@[simp] theorem State.setField_upsets (s : State) (n : Nat) (x : Field) : (s.setField n x).upsets = s.upsets := rfl
@[simp] theorem State.setField_moves (s : State) (n : Nat) (x : Field) : (s.setField n x).moves = s.moves := rfl
@[simp] theorem State.setField_cosets (s : State) (n : Nat) (x : Field) : (s.setField n x).cosets = s.cosets := rfl
@[simp] theorem State.setField_timers (s : State) (n : Nat) (x : Field) : (s.setField n x).timers = s.timers := rfl
@[simp] theorem State.setField_cur (s : State) (n : Nat) (x : Field) : (s.setField n x).cur = s.cur := rfl
@[simp] theorem State.setField_fresh (s : State) (n : Nat) (x : Field) : (s.setField n x).fresh = s.fresh := rfl
@[simp] theorem State.setField_nextUid (s : State) (n : Nat) (x : Field) : (s.setField n x).nextUid = s.nextUid := rfl
@[simp] theorem State.setField_core (s : State) (n : Nat) (x : Field) (k : Nat) : (s.setField n x).core k = s.core k := rfl
@[simp] theorem State.setField_tile (s : State) (n : Nat) (x : Field) (k : Nat) : (s.setField n x).tile k = s.tile k := rfl
@[simp] theorem State.setField_field (s : State) (n : Nat) (x : Field) : (s.setField n x).field n = x := tgetD_tput_same _ _ _ _
theorem State.setField_field_other (s : State) (n : Nat) (x : Field) (k : Nat) (h : k ≠ n) : (s.setField n x).field k = s.field k :=
  tgetD_tput_other _ _ _ _ _ h
@[simp] theorem State.setField_port (s : State) (n : Nat) (x : Field) (k : Nat) : (s.setField n x).port k = s.port k := rfl

/-! setStrand -/

@[simp] theorem State.setStrand_mem (s : State) (n : Nat) (x : Strand) : (s.setStrand n x).mem = s.mem := rfl
@[simp] theorem State.setStrand_uncorr (s : State) (n : Nat) (x : Strand) : (s.setStrand n x).uncorr = s.uncorr := rfl
@[simp] theorem State.setStrand_poison (s : State) (n : Nat) (x : Strand) : (s.setStrand n x).poison = s.poison := rfl
@[simp] theorem State.setStrand_time (s : State) (n : Nat) (x : Strand) : (s.setStrand n x).time = s.time := rfl
@[simp] theorem State.setStrand_boot (s : State) (n : Nat) (x : Strand) : (s.setStrand n x).boot = s.boot := rfl
@[simp] theorem State.setStrand_links (s : State) (n : Nat) (x : Strand) : (s.setStrand n x).links = s.links := rfl
@[simp] theorem State.setStrand_fuses (s : State) (n : Nat) (x : Strand) : (s.setStrand n x).fuses = s.fuses := rfl
@[simp] theorem State.setStrand_secret (s : State) (n : Nat) (x : Strand) : (s.setStrand n x).secret = s.secret := rfl
@[simp] theorem State.setStrand_certificate (s : State) (n : Nat) (x : Strand) : (s.setStrand n x).certificate = s.certificate := rfl
@[simp] theorem State.setStrand_image (s : State) (n : Nat) (x : Strand) : (s.setStrand n x).image = s.image := rfl
@[simp] theorem State.setStrand_running (s : State) (n : Nat) (x : Strand) : (s.setStrand n x).running = s.running := rfl
@[simp] theorem State.setStrand_identity (s : State) (n : Nat) (x : Strand) : (s.setStrand n x).identity = s.identity := rfl
@[simp] theorem State.setStrand_replies (s : State) (n : Nat) (x : Strand) : (s.setStrand n x).replies = s.replies := rfl
@[simp] theorem State.setStrand_command (s : State) (n : Nat) (x : Strand) : (s.setStrand n x).command = s.command := rfl
@[simp] theorem State.setStrand_pending (s : State) (n : Nat) (x : Strand) : (s.setStrand n x).pending = s.pending := rfl
@[simp] theorem State.setStrand_ports (s : State) (n : Nat) (x : Strand) : (s.setStrand n x).ports = s.ports := rfl
@[simp] theorem State.setStrand_chunks (s : State) (n : Nat) (x : Strand) : (s.setStrand n x).chunks = s.chunks := rfl
@[simp] theorem State.setStrand_sectors (s : State) (n : Nat) (x : Strand) : (s.setStrand n x).sectors = s.sectors := rfl
@[simp] theorem State.setStrand_rows (s : State) (n : Nat) (x : Strand) : (s.setStrand n x).rows = s.rows := rfl
@[simp] theorem State.setStrand_alerts (s : State) (n : Nat) (x : Strand) : (s.setStrand n x).alerts = s.alerts := rfl
@[simp] theorem State.setStrand_badFrames (s : State) (n : Nat) (x : Strand) : (s.setStrand n x).badFrames = s.badFrames := rfl
@[simp] theorem State.setStrand_spares (s : State) (n : Nat) (x : Strand) : (s.setStrand n x).spares = s.spares := rfl
@[simp] theorem State.setStrand_keys (s : State) (n : Nat) (x : Strand) : (s.setStrand n x).keys = s.keys := rfl
@[simp] theorem State.setStrand_loans (s : State) (n : Nat) (x : Strand) : (s.setStrand n x).loans = s.loans := rfl
@[simp] theorem State.setStrand_fieldLoans (s : State) (n : Nat) (x : Strand) : (s.setStrand n x).fieldLoans = s.fieldLoans := rfl
@[simp] theorem State.setStrand_parts (s : State) (n : Nat) (x : Strand) : (s.setStrand n x).parts = s.parts := rfl
@[simp] theorem State.setStrand_tasks (s : State) (n : Nat) (x : Strand) : (s.setStrand n x).tasks = s.tasks := rfl
@[simp] theorem State.setStrand_strands (s : State) (n : Nat) (x : Strand) : (s.setStrand n x).strands = tput s.strands n x := rfl
@[simp] theorem State.setStrand_slots (s : State) (n : Nat) (x : Strand) : (s.setStrand n x).slots = s.slots := rfl
@[simp] theorem State.setStrand_cores (s : State) (n : Nat) (x : Strand) : (s.setStrand n x).cores = s.cores := rfl
@[simp] theorem State.setStrand_tiles (s : State) (n : Nat) (x : Strand) : (s.setStrand n x).tiles = s.tiles := rfl
@[simp] theorem State.setStrand_fields (s : State) (n : Nat) (x : Strand) : (s.setStrand n x).fields = s.fields := rfl
@[simp] theorem State.setStrand_agenda (s : State) (n : Nat) (x : Strand) : (s.setStrand n x).agenda = s.agenda := rfl
@[simp] theorem State.setStrand_script (s : State) (n : Nat) (x : Strand) : (s.setStrand n x).script = s.script := rfl
@[simp] theorem State.setStrand_upsets (s : State) (n : Nat) (x : Strand) : (s.setStrand n x).upsets = s.upsets := rfl
@[simp] theorem State.setStrand_moves (s : State) (n : Nat) (x : Strand) : (s.setStrand n x).moves = s.moves := rfl
@[simp] theorem State.setStrand_cosets (s : State) (n : Nat) (x : Strand) : (s.setStrand n x).cosets = s.cosets := rfl
@[simp] theorem State.setStrand_timers (s : State) (n : Nat) (x : Strand) : (s.setStrand n x).timers = s.timers := rfl
@[simp] theorem State.setStrand_cur (s : State) (n : Nat) (x : Strand) : (s.setStrand n x).cur = s.cur := rfl
@[simp] theorem State.setStrand_fresh (s : State) (n : Nat) (x : Strand) : (s.setStrand n x).fresh = s.fresh := rfl
@[simp] theorem State.setStrand_nextUid (s : State) (n : Nat) (x : Strand) : (s.setStrand n x).nextUid = s.nextUid := rfl
@[simp] theorem State.setStrand_core (s : State) (n : Nat) (x : Strand) (k : Nat) : (s.setStrand n x).core k = s.core k := rfl
@[simp] theorem State.setStrand_tile (s : State) (n : Nat) (x : Strand) (k : Nat) : (s.setStrand n x).tile k = s.tile k := rfl
@[simp] theorem State.setStrand_field (s : State) (n : Nat) (x : Strand) (k : Nat) : (s.setStrand n x).field k = s.field k := rfl
@[simp] theorem State.setStrand_port (s : State) (n : Nat) (x : Strand) (k : Nat) : (s.setStrand n x).port k = s.port k := rfl

/-! setSlot -/

@[simp] theorem State.setSlot_mem (s : State) (n : Nat) (x : Slot) : (s.setSlot n x).mem = s.mem := rfl
@[simp] theorem State.setSlot_uncorr (s : State) (n : Nat) (x : Slot) : (s.setSlot n x).uncorr = s.uncorr := rfl
@[simp] theorem State.setSlot_poison (s : State) (n : Nat) (x : Slot) : (s.setSlot n x).poison = s.poison := rfl
@[simp] theorem State.setSlot_time (s : State) (n : Nat) (x : Slot) : (s.setSlot n x).time = s.time := rfl
@[simp] theorem State.setSlot_boot (s : State) (n : Nat) (x : Slot) : (s.setSlot n x).boot = s.boot := rfl
@[simp] theorem State.setSlot_links (s : State) (n : Nat) (x : Slot) : (s.setSlot n x).links = s.links := rfl
@[simp] theorem State.setSlot_fuses (s : State) (n : Nat) (x : Slot) : (s.setSlot n x).fuses = s.fuses := rfl
@[simp] theorem State.setSlot_secret (s : State) (n : Nat) (x : Slot) : (s.setSlot n x).secret = s.secret := rfl
@[simp] theorem State.setSlot_certificate (s : State) (n : Nat) (x : Slot) : (s.setSlot n x).certificate = s.certificate := rfl
@[simp] theorem State.setSlot_image (s : State) (n : Nat) (x : Slot) : (s.setSlot n x).image = s.image := rfl
@[simp] theorem State.setSlot_running (s : State) (n : Nat) (x : Slot) : (s.setSlot n x).running = s.running := rfl
@[simp] theorem State.setSlot_identity (s : State) (n : Nat) (x : Slot) : (s.setSlot n x).identity = s.identity := rfl
@[simp] theorem State.setSlot_replies (s : State) (n : Nat) (x : Slot) : (s.setSlot n x).replies = s.replies := rfl
@[simp] theorem State.setSlot_command (s : State) (n : Nat) (x : Slot) : (s.setSlot n x).command = s.command := rfl
@[simp] theorem State.setSlot_pending (s : State) (n : Nat) (x : Slot) : (s.setSlot n x).pending = s.pending := rfl
@[simp] theorem State.setSlot_ports (s : State) (n : Nat) (x : Slot) : (s.setSlot n x).ports = s.ports := rfl
@[simp] theorem State.setSlot_chunks (s : State) (n : Nat) (x : Slot) : (s.setSlot n x).chunks = s.chunks := rfl
@[simp] theorem State.setSlot_sectors (s : State) (n : Nat) (x : Slot) : (s.setSlot n x).sectors = s.sectors := rfl
@[simp] theorem State.setSlot_rows (s : State) (n : Nat) (x : Slot) : (s.setSlot n x).rows = s.rows := rfl
@[simp] theorem State.setSlot_alerts (s : State) (n : Nat) (x : Slot) : (s.setSlot n x).alerts = s.alerts := rfl
@[simp] theorem State.setSlot_badFrames (s : State) (n : Nat) (x : Slot) : (s.setSlot n x).badFrames = s.badFrames := rfl
@[simp] theorem State.setSlot_spares (s : State) (n : Nat) (x : Slot) : (s.setSlot n x).spares = s.spares := rfl
@[simp] theorem State.setSlot_keys (s : State) (n : Nat) (x : Slot) : (s.setSlot n x).keys = s.keys := rfl
@[simp] theorem State.setSlot_loans (s : State) (n : Nat) (x : Slot) : (s.setSlot n x).loans = s.loans := rfl
@[simp] theorem State.setSlot_fieldLoans (s : State) (n : Nat) (x : Slot) : (s.setSlot n x).fieldLoans = s.fieldLoans := rfl
@[simp] theorem State.setSlot_parts (s : State) (n : Nat) (x : Slot) : (s.setSlot n x).parts = s.parts := rfl
@[simp] theorem State.setSlot_tasks (s : State) (n : Nat) (x : Slot) : (s.setSlot n x).tasks = s.tasks := rfl
@[simp] theorem State.setSlot_strands (s : State) (n : Nat) (x : Slot) : (s.setSlot n x).strands = s.strands := rfl
@[simp] theorem State.setSlot_slots (s : State) (n : Nat) (x : Slot) : (s.setSlot n x).slots = tput s.slots n x := rfl
@[simp] theorem State.setSlot_cores (s : State) (n : Nat) (x : Slot) : (s.setSlot n x).cores = s.cores := rfl
@[simp] theorem State.setSlot_tiles (s : State) (n : Nat) (x : Slot) : (s.setSlot n x).tiles = s.tiles := rfl
@[simp] theorem State.setSlot_fields (s : State) (n : Nat) (x : Slot) : (s.setSlot n x).fields = s.fields := rfl
@[simp] theorem State.setSlot_agenda (s : State) (n : Nat) (x : Slot) : (s.setSlot n x).agenda = s.agenda := rfl
@[simp] theorem State.setSlot_script (s : State) (n : Nat) (x : Slot) : (s.setSlot n x).script = s.script := rfl
@[simp] theorem State.setSlot_upsets (s : State) (n : Nat) (x : Slot) : (s.setSlot n x).upsets = s.upsets := rfl
@[simp] theorem State.setSlot_moves (s : State) (n : Nat) (x : Slot) : (s.setSlot n x).moves = s.moves := rfl
@[simp] theorem State.setSlot_cosets (s : State) (n : Nat) (x : Slot) : (s.setSlot n x).cosets = s.cosets := rfl
@[simp] theorem State.setSlot_timers (s : State) (n : Nat) (x : Slot) : (s.setSlot n x).timers = s.timers := rfl
@[simp] theorem State.setSlot_cur (s : State) (n : Nat) (x : Slot) : (s.setSlot n x).cur = s.cur := rfl
@[simp] theorem State.setSlot_fresh (s : State) (n : Nat) (x : Slot) : (s.setSlot n x).fresh = s.fresh := rfl
@[simp] theorem State.setSlot_nextUid (s : State) (n : Nat) (x : Slot) : (s.setSlot n x).nextUid = s.nextUid := rfl
@[simp] theorem State.setSlot_core (s : State) (n : Nat) (x : Slot) (k : Nat) : (s.setSlot n x).core k = s.core k := rfl
@[simp] theorem State.setSlot_tile (s : State) (n : Nat) (x : Slot) (k : Nat) : (s.setSlot n x).tile k = s.tile k := rfl
@[simp] theorem State.setSlot_field (s : State) (n : Nat) (x : Slot) (k : Nat) : (s.setSlot n x).field k = s.field k := rfl
@[simp] theorem State.setSlot_port (s : State) (n : Nat) (x : Slot) (k : Nat) : (s.setSlot n x).port k = s.port k := rfl

/-! setPart -/

@[simp] theorem State.setPart_mem (s : State) (n : Nat) (x : Partition) : (s.setPart n x).mem = s.mem := rfl
@[simp] theorem State.setPart_uncorr (s : State) (n : Nat) (x : Partition) : (s.setPart n x).uncorr = s.uncorr := rfl
@[simp] theorem State.setPart_poison (s : State) (n : Nat) (x : Partition) : (s.setPart n x).poison = s.poison := rfl
@[simp] theorem State.setPart_time (s : State) (n : Nat) (x : Partition) : (s.setPart n x).time = s.time := rfl
@[simp] theorem State.setPart_boot (s : State) (n : Nat) (x : Partition) : (s.setPart n x).boot = s.boot := rfl
@[simp] theorem State.setPart_links (s : State) (n : Nat) (x : Partition) : (s.setPart n x).links = s.links := rfl
@[simp] theorem State.setPart_fuses (s : State) (n : Nat) (x : Partition) : (s.setPart n x).fuses = s.fuses := rfl
@[simp] theorem State.setPart_secret (s : State) (n : Nat) (x : Partition) : (s.setPart n x).secret = s.secret := rfl
@[simp] theorem State.setPart_certificate (s : State) (n : Nat) (x : Partition) : (s.setPart n x).certificate = s.certificate := rfl
@[simp] theorem State.setPart_image (s : State) (n : Nat) (x : Partition) : (s.setPart n x).image = s.image := rfl
@[simp] theorem State.setPart_running (s : State) (n : Nat) (x : Partition) : (s.setPart n x).running = s.running := rfl
@[simp] theorem State.setPart_identity (s : State) (n : Nat) (x : Partition) : (s.setPart n x).identity = s.identity := rfl
@[simp] theorem State.setPart_replies (s : State) (n : Nat) (x : Partition) : (s.setPart n x).replies = s.replies := rfl
@[simp] theorem State.setPart_command (s : State) (n : Nat) (x : Partition) : (s.setPart n x).command = s.command := rfl
@[simp] theorem State.setPart_pending (s : State) (n : Nat) (x : Partition) : (s.setPart n x).pending = s.pending := rfl
@[simp] theorem State.setPart_ports (s : State) (n : Nat) (x : Partition) : (s.setPart n x).ports = s.ports := rfl
@[simp] theorem State.setPart_chunks (s : State) (n : Nat) (x : Partition) : (s.setPart n x).chunks = s.chunks := rfl
@[simp] theorem State.setPart_sectors (s : State) (n : Nat) (x : Partition) : (s.setPart n x).sectors = s.sectors := rfl
@[simp] theorem State.setPart_rows (s : State) (n : Nat) (x : Partition) : (s.setPart n x).rows = s.rows := rfl
@[simp] theorem State.setPart_alerts (s : State) (n : Nat) (x : Partition) : (s.setPart n x).alerts = s.alerts := rfl
@[simp] theorem State.setPart_badFrames (s : State) (n : Nat) (x : Partition) : (s.setPart n x).badFrames = s.badFrames := rfl
@[simp] theorem State.setPart_spares (s : State) (n : Nat) (x : Partition) : (s.setPart n x).spares = s.spares := rfl
@[simp] theorem State.setPart_keys (s : State) (n : Nat) (x : Partition) : (s.setPart n x).keys = s.keys := rfl
@[simp] theorem State.setPart_loans (s : State) (n : Nat) (x : Partition) : (s.setPart n x).loans = s.loans := rfl
@[simp] theorem State.setPart_fieldLoans (s : State) (n : Nat) (x : Partition) : (s.setPart n x).fieldLoans = s.fieldLoans := rfl
@[simp] theorem State.setPart_parts (s : State) (n : Nat) (x : Partition) : (s.setPart n x).parts = tput s.parts n x := rfl
@[simp] theorem State.setPart_tasks (s : State) (n : Nat) (x : Partition) : (s.setPart n x).tasks = s.tasks := rfl
@[simp] theorem State.setPart_strands (s : State) (n : Nat) (x : Partition) : (s.setPart n x).strands = s.strands := rfl
@[simp] theorem State.setPart_slots (s : State) (n : Nat) (x : Partition) : (s.setPart n x).slots = s.slots := rfl
@[simp] theorem State.setPart_cores (s : State) (n : Nat) (x : Partition) : (s.setPart n x).cores = s.cores := rfl
@[simp] theorem State.setPart_tiles (s : State) (n : Nat) (x : Partition) : (s.setPart n x).tiles = s.tiles := rfl
@[simp] theorem State.setPart_fields (s : State) (n : Nat) (x : Partition) : (s.setPart n x).fields = s.fields := rfl
@[simp] theorem State.setPart_agenda (s : State) (n : Nat) (x : Partition) : (s.setPart n x).agenda = s.agenda := rfl
@[simp] theorem State.setPart_script (s : State) (n : Nat) (x : Partition) : (s.setPart n x).script = s.script := rfl
@[simp] theorem State.setPart_upsets (s : State) (n : Nat) (x : Partition) : (s.setPart n x).upsets = s.upsets := rfl
@[simp] theorem State.setPart_moves (s : State) (n : Nat) (x : Partition) : (s.setPart n x).moves = s.moves := rfl
@[simp] theorem State.setPart_cosets (s : State) (n : Nat) (x : Partition) : (s.setPart n x).cosets = s.cosets := rfl
@[simp] theorem State.setPart_timers (s : State) (n : Nat) (x : Partition) : (s.setPart n x).timers = s.timers := rfl
@[simp] theorem State.setPart_cur (s : State) (n : Nat) (x : Partition) : (s.setPart n x).cur = s.cur := rfl
@[simp] theorem State.setPart_fresh (s : State) (n : Nat) (x : Partition) : (s.setPart n x).fresh = s.fresh := rfl
@[simp] theorem State.setPart_nextUid (s : State) (n : Nat) (x : Partition) : (s.setPart n x).nextUid = s.nextUid := rfl
@[simp] theorem State.setPart_core (s : State) (n : Nat) (x : Partition) (k : Nat) : (s.setPart n x).core k = s.core k := rfl
@[simp] theorem State.setPart_tile (s : State) (n : Nat) (x : Partition) (k : Nat) : (s.setPart n x).tile k = s.tile k := rfl
@[simp] theorem State.setPart_field (s : State) (n : Nat) (x : Partition) (k : Nat) : (s.setPart n x).field k = s.field k := rfl
@[simp] theorem State.setPart_port (s : State) (n : Nat) (x : Partition) (k : Nat) : (s.setPart n x).port k = s.port k := rfl

/-! setTask -/

@[simp] theorem State.setTask_mem (s : State) (n : Nat) (x : Task) : (s.setTask n x).mem = s.mem := rfl
@[simp] theorem State.setTask_uncorr (s : State) (n : Nat) (x : Task) : (s.setTask n x).uncorr = s.uncorr := rfl
@[simp] theorem State.setTask_poison (s : State) (n : Nat) (x : Task) : (s.setTask n x).poison = s.poison := rfl
@[simp] theorem State.setTask_time (s : State) (n : Nat) (x : Task) : (s.setTask n x).time = s.time := rfl
@[simp] theorem State.setTask_boot (s : State) (n : Nat) (x : Task) : (s.setTask n x).boot = s.boot := rfl
@[simp] theorem State.setTask_links (s : State) (n : Nat) (x : Task) : (s.setTask n x).links = s.links := rfl
@[simp] theorem State.setTask_fuses (s : State) (n : Nat) (x : Task) : (s.setTask n x).fuses = s.fuses := rfl
@[simp] theorem State.setTask_secret (s : State) (n : Nat) (x : Task) : (s.setTask n x).secret = s.secret := rfl
@[simp] theorem State.setTask_certificate (s : State) (n : Nat) (x : Task) : (s.setTask n x).certificate = s.certificate := rfl
@[simp] theorem State.setTask_image (s : State) (n : Nat) (x : Task) : (s.setTask n x).image = s.image := rfl
@[simp] theorem State.setTask_running (s : State) (n : Nat) (x : Task) : (s.setTask n x).running = s.running := rfl
@[simp] theorem State.setTask_identity (s : State) (n : Nat) (x : Task) : (s.setTask n x).identity = s.identity := rfl
@[simp] theorem State.setTask_replies (s : State) (n : Nat) (x : Task) : (s.setTask n x).replies = s.replies := rfl
@[simp] theorem State.setTask_command (s : State) (n : Nat) (x : Task) : (s.setTask n x).command = s.command := rfl
@[simp] theorem State.setTask_pending (s : State) (n : Nat) (x : Task) : (s.setTask n x).pending = s.pending := rfl
@[simp] theorem State.setTask_ports (s : State) (n : Nat) (x : Task) : (s.setTask n x).ports = s.ports := rfl
@[simp] theorem State.setTask_chunks (s : State) (n : Nat) (x : Task) : (s.setTask n x).chunks = s.chunks := rfl
@[simp] theorem State.setTask_sectors (s : State) (n : Nat) (x : Task) : (s.setTask n x).sectors = s.sectors := rfl
@[simp] theorem State.setTask_rows (s : State) (n : Nat) (x : Task) : (s.setTask n x).rows = s.rows := rfl
@[simp] theorem State.setTask_alerts (s : State) (n : Nat) (x : Task) : (s.setTask n x).alerts = s.alerts := rfl
@[simp] theorem State.setTask_badFrames (s : State) (n : Nat) (x : Task) : (s.setTask n x).badFrames = s.badFrames := rfl
@[simp] theorem State.setTask_spares (s : State) (n : Nat) (x : Task) : (s.setTask n x).spares = s.spares := rfl
@[simp] theorem State.setTask_keys (s : State) (n : Nat) (x : Task) : (s.setTask n x).keys = s.keys := rfl
@[simp] theorem State.setTask_loans (s : State) (n : Nat) (x : Task) : (s.setTask n x).loans = s.loans := rfl
@[simp] theorem State.setTask_fieldLoans (s : State) (n : Nat) (x : Task) : (s.setTask n x).fieldLoans = s.fieldLoans := rfl
@[simp] theorem State.setTask_parts (s : State) (n : Nat) (x : Task) : (s.setTask n x).parts = s.parts := rfl
@[simp] theorem State.setTask_tasks (s : State) (n : Nat) (x : Task) : (s.setTask n x).tasks = tput s.tasks n x := rfl
@[simp] theorem State.setTask_strands (s : State) (n : Nat) (x : Task) : (s.setTask n x).strands = s.strands := rfl
@[simp] theorem State.setTask_slots (s : State) (n : Nat) (x : Task) : (s.setTask n x).slots = s.slots := rfl
@[simp] theorem State.setTask_cores (s : State) (n : Nat) (x : Task) : (s.setTask n x).cores = s.cores := rfl
@[simp] theorem State.setTask_tiles (s : State) (n : Nat) (x : Task) : (s.setTask n x).tiles = s.tiles := rfl
@[simp] theorem State.setTask_fields (s : State) (n : Nat) (x : Task) : (s.setTask n x).fields = s.fields := rfl
@[simp] theorem State.setTask_agenda (s : State) (n : Nat) (x : Task) : (s.setTask n x).agenda = s.agenda := rfl
@[simp] theorem State.setTask_script (s : State) (n : Nat) (x : Task) : (s.setTask n x).script = s.script := rfl
@[simp] theorem State.setTask_upsets (s : State) (n : Nat) (x : Task) : (s.setTask n x).upsets = s.upsets := rfl
@[simp] theorem State.setTask_moves (s : State) (n : Nat) (x : Task) : (s.setTask n x).moves = s.moves := rfl
@[simp] theorem State.setTask_cosets (s : State) (n : Nat) (x : Task) : (s.setTask n x).cosets = s.cosets := rfl
@[simp] theorem State.setTask_timers (s : State) (n : Nat) (x : Task) : (s.setTask n x).timers = s.timers := rfl
@[simp] theorem State.setTask_cur (s : State) (n : Nat) (x : Task) : (s.setTask n x).cur = s.cur := rfl
@[simp] theorem State.setTask_fresh (s : State) (n : Nat) (x : Task) : (s.setTask n x).fresh = s.fresh := rfl
@[simp] theorem State.setTask_nextUid (s : State) (n : Nat) (x : Task) : (s.setTask n x).nextUid = s.nextUid := rfl
@[simp] theorem State.setTask_core (s : State) (n : Nat) (x : Task) (k : Nat) : (s.setTask n x).core k = s.core k := rfl
@[simp] theorem State.setTask_tile (s : State) (n : Nat) (x : Task) (k : Nat) : (s.setTask n x).tile k = s.tile k := rfl
@[simp] theorem State.setTask_field (s : State) (n : Nat) (x : Task) (k : Nat) : (s.setTask n x).field k = s.field k := rfl
@[simp] theorem State.setTask_port (s : State) (n : Nat) (x : Task) (k : Nat) : (s.setTask n x).port k = s.port k := rfl

/-! setPort -/

@[simp] theorem State.setPort_mem (s : State) (n : Nat) (x : Port) : (s.setPort n x).mem = s.mem := rfl
@[simp] theorem State.setPort_uncorr (s : State) (n : Nat) (x : Port) : (s.setPort n x).uncorr = s.uncorr := rfl
@[simp] theorem State.setPort_poison (s : State) (n : Nat) (x : Port) : (s.setPort n x).poison = s.poison := rfl
@[simp] theorem State.setPort_time (s : State) (n : Nat) (x : Port) : (s.setPort n x).time = s.time := rfl
@[simp] theorem State.setPort_boot (s : State) (n : Nat) (x : Port) : (s.setPort n x).boot = s.boot := rfl
@[simp] theorem State.setPort_links (s : State) (n : Nat) (x : Port) : (s.setPort n x).links = s.links := rfl
@[simp] theorem State.setPort_fuses (s : State) (n : Nat) (x : Port) : (s.setPort n x).fuses = s.fuses := rfl
@[simp] theorem State.setPort_secret (s : State) (n : Nat) (x : Port) : (s.setPort n x).secret = s.secret := rfl
@[simp] theorem State.setPort_certificate (s : State) (n : Nat) (x : Port) : (s.setPort n x).certificate = s.certificate := rfl
@[simp] theorem State.setPort_image (s : State) (n : Nat) (x : Port) : (s.setPort n x).image = s.image := rfl
@[simp] theorem State.setPort_running (s : State) (n : Nat) (x : Port) : (s.setPort n x).running = s.running := rfl
@[simp] theorem State.setPort_identity (s : State) (n : Nat) (x : Port) : (s.setPort n x).identity = s.identity := rfl
@[simp] theorem State.setPort_replies (s : State) (n : Nat) (x : Port) : (s.setPort n x).replies = s.replies := rfl
@[simp] theorem State.setPort_command (s : State) (n : Nat) (x : Port) : (s.setPort n x).command = s.command := rfl
@[simp] theorem State.setPort_pending (s : State) (n : Nat) (x : Port) : (s.setPort n x).pending = s.pending := rfl
@[simp] theorem State.setPort_ports (s : State) (n : Nat) (x : Port) : (s.setPort n x).ports = tput s.ports n x := rfl
@[simp] theorem State.setPort_chunks (s : State) (n : Nat) (x : Port) : (s.setPort n x).chunks = s.chunks := rfl
@[simp] theorem State.setPort_sectors (s : State) (n : Nat) (x : Port) : (s.setPort n x).sectors = s.sectors := rfl
@[simp] theorem State.setPort_rows (s : State) (n : Nat) (x : Port) : (s.setPort n x).rows = s.rows := rfl
@[simp] theorem State.setPort_alerts (s : State) (n : Nat) (x : Port) : (s.setPort n x).alerts = s.alerts := rfl
@[simp] theorem State.setPort_badFrames (s : State) (n : Nat) (x : Port) : (s.setPort n x).badFrames = s.badFrames := rfl
@[simp] theorem State.setPort_spares (s : State) (n : Nat) (x : Port) : (s.setPort n x).spares = s.spares := rfl
@[simp] theorem State.setPort_keys (s : State) (n : Nat) (x : Port) : (s.setPort n x).keys = s.keys := rfl
@[simp] theorem State.setPort_loans (s : State) (n : Nat) (x : Port) : (s.setPort n x).loans = s.loans := rfl
@[simp] theorem State.setPort_fieldLoans (s : State) (n : Nat) (x : Port) : (s.setPort n x).fieldLoans = s.fieldLoans := rfl
@[simp] theorem State.setPort_parts (s : State) (n : Nat) (x : Port) : (s.setPort n x).parts = s.parts := rfl
@[simp] theorem State.setPort_tasks (s : State) (n : Nat) (x : Port) : (s.setPort n x).tasks = s.tasks := rfl
@[simp] theorem State.setPort_strands (s : State) (n : Nat) (x : Port) : (s.setPort n x).strands = s.strands := rfl
@[simp] theorem State.setPort_slots (s : State) (n : Nat) (x : Port) : (s.setPort n x).slots = s.slots := rfl
@[simp] theorem State.setPort_cores (s : State) (n : Nat) (x : Port) : (s.setPort n x).cores = s.cores := rfl
@[simp] theorem State.setPort_tiles (s : State) (n : Nat) (x : Port) : (s.setPort n x).tiles = s.tiles := rfl
@[simp] theorem State.setPort_fields (s : State) (n : Nat) (x : Port) : (s.setPort n x).fields = s.fields := rfl
@[simp] theorem State.setPort_agenda (s : State) (n : Nat) (x : Port) : (s.setPort n x).agenda = s.agenda := rfl
@[simp] theorem State.setPort_script (s : State) (n : Nat) (x : Port) : (s.setPort n x).script = s.script := rfl
@[simp] theorem State.setPort_upsets (s : State) (n : Nat) (x : Port) : (s.setPort n x).upsets = s.upsets := rfl
@[simp] theorem State.setPort_moves (s : State) (n : Nat) (x : Port) : (s.setPort n x).moves = s.moves := rfl
@[simp] theorem State.setPort_cosets (s : State) (n : Nat) (x : Port) : (s.setPort n x).cosets = s.cosets := rfl
@[simp] theorem State.setPort_timers (s : State) (n : Nat) (x : Port) : (s.setPort n x).timers = s.timers := rfl
@[simp] theorem State.setPort_cur (s : State) (n : Nat) (x : Port) : (s.setPort n x).cur = s.cur := rfl
@[simp] theorem State.setPort_fresh (s : State) (n : Nat) (x : Port) : (s.setPort n x).fresh = s.fresh := rfl
@[simp] theorem State.setPort_nextUid (s : State) (n : Nat) (x : Port) : (s.setPort n x).nextUid = s.nextUid := rfl
@[simp] theorem State.setPort_core (s : State) (n : Nat) (x : Port) (k : Nat) : (s.setPort n x).core k = s.core k := rfl
@[simp] theorem State.setPort_tile (s : State) (n : Nat) (x : Port) (k : Nat) : (s.setPort n x).tile k = s.tile k := rfl
@[simp] theorem State.setPort_field (s : State) (n : Nat) (x : Port) (k : Nat) : (s.setPort n x).field k = s.field k := rfl
@[simp] theorem State.setPort_port (s : State) (n : Nat) (x : Port) : (s.setPort n x).port n = x := tgetD_tput_same _ _ _ _
theorem State.setPort_port_other (s : State) (n : Nat) (x : Port) (k : Nat) (h : k ≠ n) : (s.setPort n x).port k = s.port k :=
  tgetD_tput_other _ _ _ _ _ h

/-! modCore -/

@[simp] theorem State.modCore_mem (s : State) (n : Nat) (f : Core → Core) : (s.modCore n f).mem = s.mem := rfl
@[simp] theorem State.modCore_uncorr (s : State) (n : Nat) (f : Core → Core) : (s.modCore n f).uncorr = s.uncorr := rfl
@[simp] theorem State.modCore_poison (s : State) (n : Nat) (f : Core → Core) : (s.modCore n f).poison = s.poison := rfl
@[simp] theorem State.modCore_time (s : State) (n : Nat) (f : Core → Core) : (s.modCore n f).time = s.time := rfl
@[simp] theorem State.modCore_boot (s : State) (n : Nat) (f : Core → Core) : (s.modCore n f).boot = s.boot := rfl
@[simp] theorem State.modCore_links (s : State) (n : Nat) (f : Core → Core) : (s.modCore n f).links = s.links := rfl
@[simp] theorem State.modCore_fuses (s : State) (n : Nat) (f : Core → Core) : (s.modCore n f).fuses = s.fuses := rfl
@[simp] theorem State.modCore_secret (s : State) (n : Nat) (f : Core → Core) : (s.modCore n f).secret = s.secret := rfl
@[simp] theorem State.modCore_certificate (s : State) (n : Nat) (f : Core → Core) : (s.modCore n f).certificate = s.certificate := rfl
@[simp] theorem State.modCore_image (s : State) (n : Nat) (f : Core → Core) : (s.modCore n f).image = s.image := rfl
@[simp] theorem State.modCore_running (s : State) (n : Nat) (f : Core → Core) : (s.modCore n f).running = s.running := rfl
@[simp] theorem State.modCore_identity (s : State) (n : Nat) (f : Core → Core) : (s.modCore n f).identity = s.identity := rfl
@[simp] theorem State.modCore_replies (s : State) (n : Nat) (f : Core → Core) : (s.modCore n f).replies = s.replies := rfl
@[simp] theorem State.modCore_command (s : State) (n : Nat) (f : Core → Core) : (s.modCore n f).command = s.command := rfl
@[simp] theorem State.modCore_pending (s : State) (n : Nat) (f : Core → Core) : (s.modCore n f).pending = s.pending := rfl
@[simp] theorem State.modCore_ports (s : State) (n : Nat) (f : Core → Core) : (s.modCore n f).ports = s.ports := rfl
@[simp] theorem State.modCore_chunks (s : State) (n : Nat) (f : Core → Core) : (s.modCore n f).chunks = s.chunks := rfl
@[simp] theorem State.modCore_sectors (s : State) (n : Nat) (f : Core → Core) : (s.modCore n f).sectors = s.sectors := rfl
@[simp] theorem State.modCore_rows (s : State) (n : Nat) (f : Core → Core) : (s.modCore n f).rows = s.rows := rfl
@[simp] theorem State.modCore_alerts (s : State) (n : Nat) (f : Core → Core) : (s.modCore n f).alerts = s.alerts := rfl
@[simp] theorem State.modCore_badFrames (s : State) (n : Nat) (f : Core → Core) : (s.modCore n f).badFrames = s.badFrames := rfl
@[simp] theorem State.modCore_spares (s : State) (n : Nat) (f : Core → Core) : (s.modCore n f).spares = s.spares := rfl
@[simp] theorem State.modCore_keys (s : State) (n : Nat) (f : Core → Core) : (s.modCore n f).keys = s.keys := rfl
@[simp] theorem State.modCore_loans (s : State) (n : Nat) (f : Core → Core) : (s.modCore n f).loans = s.loans := rfl
@[simp] theorem State.modCore_fieldLoans (s : State) (n : Nat) (f : Core → Core) : (s.modCore n f).fieldLoans = s.fieldLoans := rfl
@[simp] theorem State.modCore_parts (s : State) (n : Nat) (f : Core → Core) : (s.modCore n f).parts = s.parts := rfl
@[simp] theorem State.modCore_tasks (s : State) (n : Nat) (f : Core → Core) : (s.modCore n f).tasks = s.tasks := rfl
@[simp] theorem State.modCore_strands (s : State) (n : Nat) (f : Core → Core) : (s.modCore n f).strands = s.strands := rfl
@[simp] theorem State.modCore_slots (s : State) (n : Nat) (f : Core → Core) : (s.modCore n f).slots = s.slots := rfl
@[simp] theorem State.modCore_cores (s : State) (n : Nat) (f : Core → Core) : (s.modCore n f).cores = tput s.cores n (f (s.core n)) := rfl
@[simp] theorem State.modCore_tiles (s : State) (n : Nat) (f : Core → Core) : (s.modCore n f).tiles = s.tiles := rfl
@[simp] theorem State.modCore_fields (s : State) (n : Nat) (f : Core → Core) : (s.modCore n f).fields = s.fields := rfl
@[simp] theorem State.modCore_agenda (s : State) (n : Nat) (f : Core → Core) : (s.modCore n f).agenda = s.agenda := rfl
@[simp] theorem State.modCore_script (s : State) (n : Nat) (f : Core → Core) : (s.modCore n f).script = s.script := rfl
@[simp] theorem State.modCore_upsets (s : State) (n : Nat) (f : Core → Core) : (s.modCore n f).upsets = s.upsets := rfl
@[simp] theorem State.modCore_moves (s : State) (n : Nat) (f : Core → Core) : (s.modCore n f).moves = s.moves := rfl
@[simp] theorem State.modCore_cosets (s : State) (n : Nat) (f : Core → Core) : (s.modCore n f).cosets = s.cosets := rfl
@[simp] theorem State.modCore_timers (s : State) (n : Nat) (f : Core → Core) : (s.modCore n f).timers = s.timers := rfl
@[simp] theorem State.modCore_cur (s : State) (n : Nat) (f : Core → Core) : (s.modCore n f).cur = s.cur := rfl
@[simp] theorem State.modCore_fresh (s : State) (n : Nat) (f : Core → Core) : (s.modCore n f).fresh = s.fresh := rfl
@[simp] theorem State.modCore_nextUid (s : State) (n : Nat) (f : Core → Core) : (s.modCore n f).nextUid = s.nextUid := rfl
@[simp] theorem State.modCore_core (s : State) (n : Nat) (f : Core → Core) : (s.modCore n f).core n = f (s.core n) := tgetD_tput_same _ _ _ _
theorem State.modCore_core_other (s : State) (n : Nat) (f : Core → Core) (k : Nat) (h : k ≠ n) : (s.modCore n f).core k = s.core k :=
  tgetD_tput_other _ _ _ _ _ h
@[simp] theorem State.modCore_tile (s : State) (n : Nat) (f : Core → Core) (k : Nat) : (s.modCore n f).tile k = s.tile k := rfl
@[simp] theorem State.modCore_field (s : State) (n : Nat) (f : Core → Core) (k : Nat) : (s.modCore n f).field k = s.field k := rfl
@[simp] theorem State.modCore_port (s : State) (n : Nat) (f : Core → Core) (k : Nat) : (s.modCore n f).port k = s.port k := rfl

/-! modTile -/

@[simp] theorem State.modTile_mem (s : State) (n : Nat) (f : Tile → Tile) : (s.modTile n f).mem = s.mem := rfl
@[simp] theorem State.modTile_uncorr (s : State) (n : Nat) (f : Tile → Tile) : (s.modTile n f).uncorr = s.uncorr := rfl
@[simp] theorem State.modTile_poison (s : State) (n : Nat) (f : Tile → Tile) : (s.modTile n f).poison = s.poison := rfl
@[simp] theorem State.modTile_time (s : State) (n : Nat) (f : Tile → Tile) : (s.modTile n f).time = s.time := rfl
@[simp] theorem State.modTile_boot (s : State) (n : Nat) (f : Tile → Tile) : (s.modTile n f).boot = s.boot := rfl
@[simp] theorem State.modTile_links (s : State) (n : Nat) (f : Tile → Tile) : (s.modTile n f).links = s.links := rfl
@[simp] theorem State.modTile_fuses (s : State) (n : Nat) (f : Tile → Tile) : (s.modTile n f).fuses = s.fuses := rfl
@[simp] theorem State.modTile_secret (s : State) (n : Nat) (f : Tile → Tile) : (s.modTile n f).secret = s.secret := rfl
@[simp] theorem State.modTile_certificate (s : State) (n : Nat) (f : Tile → Tile) : (s.modTile n f).certificate = s.certificate := rfl
@[simp] theorem State.modTile_image (s : State) (n : Nat) (f : Tile → Tile) : (s.modTile n f).image = s.image := rfl
@[simp] theorem State.modTile_running (s : State) (n : Nat) (f : Tile → Tile) : (s.modTile n f).running = s.running := rfl
@[simp] theorem State.modTile_identity (s : State) (n : Nat) (f : Tile → Tile) : (s.modTile n f).identity = s.identity := rfl
@[simp] theorem State.modTile_replies (s : State) (n : Nat) (f : Tile → Tile) : (s.modTile n f).replies = s.replies := rfl
@[simp] theorem State.modTile_command (s : State) (n : Nat) (f : Tile → Tile) : (s.modTile n f).command = s.command := rfl
@[simp] theorem State.modTile_pending (s : State) (n : Nat) (f : Tile → Tile) : (s.modTile n f).pending = s.pending := rfl
@[simp] theorem State.modTile_ports (s : State) (n : Nat) (f : Tile → Tile) : (s.modTile n f).ports = s.ports := rfl
@[simp] theorem State.modTile_chunks (s : State) (n : Nat) (f : Tile → Tile) : (s.modTile n f).chunks = s.chunks := rfl
@[simp] theorem State.modTile_sectors (s : State) (n : Nat) (f : Tile → Tile) : (s.modTile n f).sectors = s.sectors := rfl
@[simp] theorem State.modTile_rows (s : State) (n : Nat) (f : Tile → Tile) : (s.modTile n f).rows = s.rows := rfl
@[simp] theorem State.modTile_alerts (s : State) (n : Nat) (f : Tile → Tile) : (s.modTile n f).alerts = s.alerts := rfl
@[simp] theorem State.modTile_badFrames (s : State) (n : Nat) (f : Tile → Tile) : (s.modTile n f).badFrames = s.badFrames := rfl
@[simp] theorem State.modTile_spares (s : State) (n : Nat) (f : Tile → Tile) : (s.modTile n f).spares = s.spares := rfl
@[simp] theorem State.modTile_keys (s : State) (n : Nat) (f : Tile → Tile) : (s.modTile n f).keys = s.keys := rfl
@[simp] theorem State.modTile_loans (s : State) (n : Nat) (f : Tile → Tile) : (s.modTile n f).loans = s.loans := rfl
@[simp] theorem State.modTile_fieldLoans (s : State) (n : Nat) (f : Tile → Tile) : (s.modTile n f).fieldLoans = s.fieldLoans := rfl
@[simp] theorem State.modTile_parts (s : State) (n : Nat) (f : Tile → Tile) : (s.modTile n f).parts = s.parts := rfl
@[simp] theorem State.modTile_tasks (s : State) (n : Nat) (f : Tile → Tile) : (s.modTile n f).tasks = s.tasks := rfl
@[simp] theorem State.modTile_strands (s : State) (n : Nat) (f : Tile → Tile) : (s.modTile n f).strands = s.strands := rfl
@[simp] theorem State.modTile_slots (s : State) (n : Nat) (f : Tile → Tile) : (s.modTile n f).slots = s.slots := rfl
@[simp] theorem State.modTile_cores (s : State) (n : Nat) (f : Tile → Tile) : (s.modTile n f).cores = s.cores := rfl
@[simp] theorem State.modTile_tiles (s : State) (n : Nat) (f : Tile → Tile) : (s.modTile n f).tiles = tput s.tiles n (f (s.tile n)) := rfl
@[simp] theorem State.modTile_fields (s : State) (n : Nat) (f : Tile → Tile) : (s.modTile n f).fields = s.fields := rfl
@[simp] theorem State.modTile_agenda (s : State) (n : Nat) (f : Tile → Tile) : (s.modTile n f).agenda = s.agenda := rfl
@[simp] theorem State.modTile_script (s : State) (n : Nat) (f : Tile → Tile) : (s.modTile n f).script = s.script := rfl
@[simp] theorem State.modTile_upsets (s : State) (n : Nat) (f : Tile → Tile) : (s.modTile n f).upsets = s.upsets := rfl
@[simp] theorem State.modTile_moves (s : State) (n : Nat) (f : Tile → Tile) : (s.modTile n f).moves = s.moves := rfl
@[simp] theorem State.modTile_cosets (s : State) (n : Nat) (f : Tile → Tile) : (s.modTile n f).cosets = s.cosets := rfl
@[simp] theorem State.modTile_timers (s : State) (n : Nat) (f : Tile → Tile) : (s.modTile n f).timers = s.timers := rfl
@[simp] theorem State.modTile_cur (s : State) (n : Nat) (f : Tile → Tile) : (s.modTile n f).cur = s.cur := rfl
@[simp] theorem State.modTile_fresh (s : State) (n : Nat) (f : Tile → Tile) : (s.modTile n f).fresh = s.fresh := rfl
@[simp] theorem State.modTile_nextUid (s : State) (n : Nat) (f : Tile → Tile) : (s.modTile n f).nextUid = s.nextUid := rfl
@[simp] theorem State.modTile_core (s : State) (n : Nat) (f : Tile → Tile) (k : Nat) : (s.modTile n f).core k = s.core k := rfl
@[simp] theorem State.modTile_tile (s : State) (n : Nat) (f : Tile → Tile) : (s.modTile n f).tile n = f (s.tile n) := tgetD_tput_same _ _ _ _
theorem State.modTile_tile_other (s : State) (n : Nat) (f : Tile → Tile) (k : Nat) (h : k ≠ n) : (s.modTile n f).tile k = s.tile k :=
  tgetD_tput_other _ _ _ _ _ h
@[simp] theorem State.modTile_field (s : State) (n : Nat) (f : Tile → Tile) (k : Nat) : (s.modTile n f).field k = s.field k := rfl
@[simp] theorem State.modTile_port (s : State) (n : Nat) (f : Tile → Tile) (k : Nat) : (s.modTile n f).port k = s.port k := rfl

/-! modField -/

@[simp] theorem State.modField_mem (s : State) (n : Nat) (f : Field → Field) : (s.modField n f).mem = s.mem := rfl
@[simp] theorem State.modField_uncorr (s : State) (n : Nat) (f : Field → Field) : (s.modField n f).uncorr = s.uncorr := rfl
@[simp] theorem State.modField_poison (s : State) (n : Nat) (f : Field → Field) : (s.modField n f).poison = s.poison := rfl
@[simp] theorem State.modField_time (s : State) (n : Nat) (f : Field → Field) : (s.modField n f).time = s.time := rfl
@[simp] theorem State.modField_boot (s : State) (n : Nat) (f : Field → Field) : (s.modField n f).boot = s.boot := rfl
@[simp] theorem State.modField_links (s : State) (n : Nat) (f : Field → Field) : (s.modField n f).links = s.links := rfl
@[simp] theorem State.modField_fuses (s : State) (n : Nat) (f : Field → Field) : (s.modField n f).fuses = s.fuses := rfl
@[simp] theorem State.modField_secret (s : State) (n : Nat) (f : Field → Field) : (s.modField n f).secret = s.secret := rfl
@[simp] theorem State.modField_certificate (s : State) (n : Nat) (f : Field → Field) : (s.modField n f).certificate = s.certificate := rfl
@[simp] theorem State.modField_image (s : State) (n : Nat) (f : Field → Field) : (s.modField n f).image = s.image := rfl
@[simp] theorem State.modField_running (s : State) (n : Nat) (f : Field → Field) : (s.modField n f).running = s.running := rfl
@[simp] theorem State.modField_identity (s : State) (n : Nat) (f : Field → Field) : (s.modField n f).identity = s.identity := rfl
@[simp] theorem State.modField_replies (s : State) (n : Nat) (f : Field → Field) : (s.modField n f).replies = s.replies := rfl
@[simp] theorem State.modField_command (s : State) (n : Nat) (f : Field → Field) : (s.modField n f).command = s.command := rfl
@[simp] theorem State.modField_pending (s : State) (n : Nat) (f : Field → Field) : (s.modField n f).pending = s.pending := rfl
@[simp] theorem State.modField_ports (s : State) (n : Nat) (f : Field → Field) : (s.modField n f).ports = s.ports := rfl
@[simp] theorem State.modField_chunks (s : State) (n : Nat) (f : Field → Field) : (s.modField n f).chunks = s.chunks := rfl
@[simp] theorem State.modField_sectors (s : State) (n : Nat) (f : Field → Field) : (s.modField n f).sectors = s.sectors := rfl
@[simp] theorem State.modField_rows (s : State) (n : Nat) (f : Field → Field) : (s.modField n f).rows = s.rows := rfl
@[simp] theorem State.modField_alerts (s : State) (n : Nat) (f : Field → Field) : (s.modField n f).alerts = s.alerts := rfl
@[simp] theorem State.modField_badFrames (s : State) (n : Nat) (f : Field → Field) : (s.modField n f).badFrames = s.badFrames := rfl
@[simp] theorem State.modField_spares (s : State) (n : Nat) (f : Field → Field) : (s.modField n f).spares = s.spares := rfl
@[simp] theorem State.modField_keys (s : State) (n : Nat) (f : Field → Field) : (s.modField n f).keys = s.keys := rfl
@[simp] theorem State.modField_loans (s : State) (n : Nat) (f : Field → Field) : (s.modField n f).loans = s.loans := rfl
@[simp] theorem State.modField_fieldLoans (s : State) (n : Nat) (f : Field → Field) : (s.modField n f).fieldLoans = s.fieldLoans := rfl
@[simp] theorem State.modField_parts (s : State) (n : Nat) (f : Field → Field) : (s.modField n f).parts = s.parts := rfl
@[simp] theorem State.modField_tasks (s : State) (n : Nat) (f : Field → Field) : (s.modField n f).tasks = s.tasks := rfl
@[simp] theorem State.modField_strands (s : State) (n : Nat) (f : Field → Field) : (s.modField n f).strands = s.strands := rfl
@[simp] theorem State.modField_slots (s : State) (n : Nat) (f : Field → Field) : (s.modField n f).slots = s.slots := rfl
@[simp] theorem State.modField_cores (s : State) (n : Nat) (f : Field → Field) : (s.modField n f).cores = s.cores := rfl
@[simp] theorem State.modField_tiles (s : State) (n : Nat) (f : Field → Field) : (s.modField n f).tiles = s.tiles := rfl
@[simp] theorem State.modField_fields (s : State) (n : Nat) (f : Field → Field) : (s.modField n f).fields = tput s.fields n (f (s.field n)) := rfl
@[simp] theorem State.modField_agenda (s : State) (n : Nat) (f : Field → Field) : (s.modField n f).agenda = s.agenda := rfl
@[simp] theorem State.modField_script (s : State) (n : Nat) (f : Field → Field) : (s.modField n f).script = s.script := rfl
@[simp] theorem State.modField_upsets (s : State) (n : Nat) (f : Field → Field) : (s.modField n f).upsets = s.upsets := rfl
@[simp] theorem State.modField_moves (s : State) (n : Nat) (f : Field → Field) : (s.modField n f).moves = s.moves := rfl
@[simp] theorem State.modField_cosets (s : State) (n : Nat) (f : Field → Field) : (s.modField n f).cosets = s.cosets := rfl
@[simp] theorem State.modField_timers (s : State) (n : Nat) (f : Field → Field) : (s.modField n f).timers = s.timers := rfl
@[simp] theorem State.modField_cur (s : State) (n : Nat) (f : Field → Field) : (s.modField n f).cur = s.cur := rfl
@[simp] theorem State.modField_fresh (s : State) (n : Nat) (f : Field → Field) : (s.modField n f).fresh = s.fresh := rfl
@[simp] theorem State.modField_nextUid (s : State) (n : Nat) (f : Field → Field) : (s.modField n f).nextUid = s.nextUid := rfl
@[simp] theorem State.modField_core (s : State) (n : Nat) (f : Field → Field) (k : Nat) : (s.modField n f).core k = s.core k := rfl
@[simp] theorem State.modField_tile (s : State) (n : Nat) (f : Field → Field) (k : Nat) : (s.modField n f).tile k = s.tile k := rfl
@[simp] theorem State.modField_field (s : State) (n : Nat) (f : Field → Field) : (s.modField n f).field n = f (s.field n) := tgetD_tput_same _ _ _ _
theorem State.modField_field_other (s : State) (n : Nat) (f : Field → Field) (k : Nat) (h : k ≠ n) : (s.modField n f).field k = s.field k :=
  tgetD_tput_other _ _ _ _ _ h
@[simp] theorem State.modField_port (s : State) (n : Nat) (f : Field → Field) (k : Nat) : (s.modField n f).port k = s.port k := rfl

/-! modPort -/

@[simp] theorem State.modPort_mem (s : State) (n : Nat) (f : Port → Port) : (s.modPort n f).mem = s.mem := rfl
@[simp] theorem State.modPort_uncorr (s : State) (n : Nat) (f : Port → Port) : (s.modPort n f).uncorr = s.uncorr := rfl
@[simp] theorem State.modPort_poison (s : State) (n : Nat) (f : Port → Port) : (s.modPort n f).poison = s.poison := rfl
@[simp] theorem State.modPort_time (s : State) (n : Nat) (f : Port → Port) : (s.modPort n f).time = s.time := rfl
@[simp] theorem State.modPort_boot (s : State) (n : Nat) (f : Port → Port) : (s.modPort n f).boot = s.boot := rfl
@[simp] theorem State.modPort_links (s : State) (n : Nat) (f : Port → Port) : (s.modPort n f).links = s.links := rfl
@[simp] theorem State.modPort_fuses (s : State) (n : Nat) (f : Port → Port) : (s.modPort n f).fuses = s.fuses := rfl
@[simp] theorem State.modPort_secret (s : State) (n : Nat) (f : Port → Port) : (s.modPort n f).secret = s.secret := rfl
@[simp] theorem State.modPort_certificate (s : State) (n : Nat) (f : Port → Port) : (s.modPort n f).certificate = s.certificate := rfl
@[simp] theorem State.modPort_image (s : State) (n : Nat) (f : Port → Port) : (s.modPort n f).image = s.image := rfl
@[simp] theorem State.modPort_running (s : State) (n : Nat) (f : Port → Port) : (s.modPort n f).running = s.running := rfl
@[simp] theorem State.modPort_identity (s : State) (n : Nat) (f : Port → Port) : (s.modPort n f).identity = s.identity := rfl
@[simp] theorem State.modPort_replies (s : State) (n : Nat) (f : Port → Port) : (s.modPort n f).replies = s.replies := rfl
@[simp] theorem State.modPort_command (s : State) (n : Nat) (f : Port → Port) : (s.modPort n f).command = s.command := rfl
@[simp] theorem State.modPort_pending (s : State) (n : Nat) (f : Port → Port) : (s.modPort n f).pending = s.pending := rfl
@[simp] theorem State.modPort_ports (s : State) (n : Nat) (f : Port → Port) : (s.modPort n f).ports = tput s.ports n (f (s.port n)) := rfl
@[simp] theorem State.modPort_chunks (s : State) (n : Nat) (f : Port → Port) : (s.modPort n f).chunks = s.chunks := rfl
@[simp] theorem State.modPort_sectors (s : State) (n : Nat) (f : Port → Port) : (s.modPort n f).sectors = s.sectors := rfl
@[simp] theorem State.modPort_rows (s : State) (n : Nat) (f : Port → Port) : (s.modPort n f).rows = s.rows := rfl
@[simp] theorem State.modPort_alerts (s : State) (n : Nat) (f : Port → Port) : (s.modPort n f).alerts = s.alerts := rfl
@[simp] theorem State.modPort_badFrames (s : State) (n : Nat) (f : Port → Port) : (s.modPort n f).badFrames = s.badFrames := rfl
@[simp] theorem State.modPort_spares (s : State) (n : Nat) (f : Port → Port) : (s.modPort n f).spares = s.spares := rfl
@[simp] theorem State.modPort_keys (s : State) (n : Nat) (f : Port → Port) : (s.modPort n f).keys = s.keys := rfl
@[simp] theorem State.modPort_loans (s : State) (n : Nat) (f : Port → Port) : (s.modPort n f).loans = s.loans := rfl
@[simp] theorem State.modPort_fieldLoans (s : State) (n : Nat) (f : Port → Port) : (s.modPort n f).fieldLoans = s.fieldLoans := rfl
@[simp] theorem State.modPort_parts (s : State) (n : Nat) (f : Port → Port) : (s.modPort n f).parts = s.parts := rfl
@[simp] theorem State.modPort_tasks (s : State) (n : Nat) (f : Port → Port) : (s.modPort n f).tasks = s.tasks := rfl
@[simp] theorem State.modPort_strands (s : State) (n : Nat) (f : Port → Port) : (s.modPort n f).strands = s.strands := rfl
@[simp] theorem State.modPort_slots (s : State) (n : Nat) (f : Port → Port) : (s.modPort n f).slots = s.slots := rfl
@[simp] theorem State.modPort_cores (s : State) (n : Nat) (f : Port → Port) : (s.modPort n f).cores = s.cores := rfl
@[simp] theorem State.modPort_tiles (s : State) (n : Nat) (f : Port → Port) : (s.modPort n f).tiles = s.tiles := rfl
@[simp] theorem State.modPort_fields (s : State) (n : Nat) (f : Port → Port) : (s.modPort n f).fields = s.fields := rfl
@[simp] theorem State.modPort_agenda (s : State) (n : Nat) (f : Port → Port) : (s.modPort n f).agenda = s.agenda := rfl
@[simp] theorem State.modPort_script (s : State) (n : Nat) (f : Port → Port) : (s.modPort n f).script = s.script := rfl
@[simp] theorem State.modPort_upsets (s : State) (n : Nat) (f : Port → Port) : (s.modPort n f).upsets = s.upsets := rfl
@[simp] theorem State.modPort_moves (s : State) (n : Nat) (f : Port → Port) : (s.modPort n f).moves = s.moves := rfl
@[simp] theorem State.modPort_cosets (s : State) (n : Nat) (f : Port → Port) : (s.modPort n f).cosets = s.cosets := rfl
@[simp] theorem State.modPort_timers (s : State) (n : Nat) (f : Port → Port) : (s.modPort n f).timers = s.timers := rfl
@[simp] theorem State.modPort_cur (s : State) (n : Nat) (f : Port → Port) : (s.modPort n f).cur = s.cur := rfl
@[simp] theorem State.modPort_fresh (s : State) (n : Nat) (f : Port → Port) : (s.modPort n f).fresh = s.fresh := rfl
@[simp] theorem State.modPort_nextUid (s : State) (n : Nat) (f : Port → Port) : (s.modPort n f).nextUid = s.nextUid := rfl
@[simp] theorem State.modPort_core (s : State) (n : Nat) (f : Port → Port) (k : Nat) : (s.modPort n f).core k = s.core k := rfl
@[simp] theorem State.modPort_tile (s : State) (n : Nat) (f : Port → Port) (k : Nat) : (s.modPort n f).tile k = s.tile k := rfl
@[simp] theorem State.modPort_field (s : State) (n : Nat) (f : Port → Port) (k : Nat) : (s.modPort n f).field k = s.field k := rfl
@[simp] theorem State.modPort_port (s : State) (n : Nat) (f : Port → Port) : (s.modPort n f).port n = f (s.port n) := tgetD_tput_same _ _ _ _
theorem State.modPort_port_other (s : State) (n : Nat) (f : Port → Port) (k : Nat) (h : k ≠ n) : (s.modPort n f).port k = s.port k :=
  tgetD_tput_other _ _ _ _ _ h

/-! modStrand -/

@[simp] theorem State.modStrand_mem (s : State) (n : Nat) (f : Strand → Strand) : (s.modStrand n f).mem = s.mem := rfl
@[simp] theorem State.modStrand_uncorr (s : State) (n : Nat) (f : Strand → Strand) : (s.modStrand n f).uncorr = s.uncorr := rfl
@[simp] theorem State.modStrand_poison (s : State) (n : Nat) (f : Strand → Strand) : (s.modStrand n f).poison = s.poison := rfl
@[simp] theorem State.modStrand_time (s : State) (n : Nat) (f : Strand → Strand) : (s.modStrand n f).time = s.time := rfl
@[simp] theorem State.modStrand_boot (s : State) (n : Nat) (f : Strand → Strand) : (s.modStrand n f).boot = s.boot := rfl
@[simp] theorem State.modStrand_links (s : State) (n : Nat) (f : Strand → Strand) : (s.modStrand n f).links = s.links := rfl
@[simp] theorem State.modStrand_fuses (s : State) (n : Nat) (f : Strand → Strand) : (s.modStrand n f).fuses = s.fuses := rfl
@[simp] theorem State.modStrand_secret (s : State) (n : Nat) (f : Strand → Strand) : (s.modStrand n f).secret = s.secret := rfl
@[simp] theorem State.modStrand_certificate (s : State) (n : Nat) (f : Strand → Strand) : (s.modStrand n f).certificate = s.certificate := rfl
@[simp] theorem State.modStrand_image (s : State) (n : Nat) (f : Strand → Strand) : (s.modStrand n f).image = s.image := rfl
@[simp] theorem State.modStrand_running (s : State) (n : Nat) (f : Strand → Strand) : (s.modStrand n f).running = s.running := rfl
@[simp] theorem State.modStrand_identity (s : State) (n : Nat) (f : Strand → Strand) : (s.modStrand n f).identity = s.identity := rfl
@[simp] theorem State.modStrand_replies (s : State) (n : Nat) (f : Strand → Strand) : (s.modStrand n f).replies = s.replies := rfl
@[simp] theorem State.modStrand_command (s : State) (n : Nat) (f : Strand → Strand) : (s.modStrand n f).command = s.command := rfl
@[simp] theorem State.modStrand_pending (s : State) (n : Nat) (f : Strand → Strand) : (s.modStrand n f).pending = s.pending := rfl
@[simp] theorem State.modStrand_ports (s : State) (n : Nat) (f : Strand → Strand) : (s.modStrand n f).ports = s.ports := rfl
@[simp] theorem State.modStrand_chunks (s : State) (n : Nat) (f : Strand → Strand) : (s.modStrand n f).chunks = s.chunks := rfl
@[simp] theorem State.modStrand_sectors (s : State) (n : Nat) (f : Strand → Strand) : (s.modStrand n f).sectors = s.sectors := rfl
@[simp] theorem State.modStrand_rows (s : State) (n : Nat) (f : Strand → Strand) : (s.modStrand n f).rows = s.rows := rfl
@[simp] theorem State.modStrand_alerts (s : State) (n : Nat) (f : Strand → Strand) : (s.modStrand n f).alerts = s.alerts := rfl
@[simp] theorem State.modStrand_badFrames (s : State) (n : Nat) (f : Strand → Strand) : (s.modStrand n f).badFrames = s.badFrames := rfl
@[simp] theorem State.modStrand_spares (s : State) (n : Nat) (f : Strand → Strand) : (s.modStrand n f).spares = s.spares := rfl
@[simp] theorem State.modStrand_keys (s : State) (n : Nat) (f : Strand → Strand) : (s.modStrand n f).keys = s.keys := rfl
@[simp] theorem State.modStrand_loans (s : State) (n : Nat) (f : Strand → Strand) : (s.modStrand n f).loans = s.loans := rfl
@[simp] theorem State.modStrand_fieldLoans (s : State) (n : Nat) (f : Strand → Strand) : (s.modStrand n f).fieldLoans = s.fieldLoans := rfl
@[simp] theorem State.modStrand_parts (s : State) (n : Nat) (f : Strand → Strand) : (s.modStrand n f).parts = s.parts := rfl
@[simp] theorem State.modStrand_tasks (s : State) (n : Nat) (f : Strand → Strand) : (s.modStrand n f).tasks = s.tasks := rfl
@[simp] theorem State.modStrand_strands (s : State) (n : Nat) (f : Strand → Strand) : (s.modStrand n f).strands = tmod s.strands n f := rfl
@[simp] theorem State.modStrand_slots (s : State) (n : Nat) (f : Strand → Strand) : (s.modStrand n f).slots = s.slots := rfl
@[simp] theorem State.modStrand_cores (s : State) (n : Nat) (f : Strand → Strand) : (s.modStrand n f).cores = s.cores := rfl
@[simp] theorem State.modStrand_tiles (s : State) (n : Nat) (f : Strand → Strand) : (s.modStrand n f).tiles = s.tiles := rfl
@[simp] theorem State.modStrand_fields (s : State) (n : Nat) (f : Strand → Strand) : (s.modStrand n f).fields = s.fields := rfl
@[simp] theorem State.modStrand_agenda (s : State) (n : Nat) (f : Strand → Strand) : (s.modStrand n f).agenda = s.agenda := rfl
@[simp] theorem State.modStrand_script (s : State) (n : Nat) (f : Strand → Strand) : (s.modStrand n f).script = s.script := rfl
@[simp] theorem State.modStrand_upsets (s : State) (n : Nat) (f : Strand → Strand) : (s.modStrand n f).upsets = s.upsets := rfl
@[simp] theorem State.modStrand_moves (s : State) (n : Nat) (f : Strand → Strand) : (s.modStrand n f).moves = s.moves := rfl
@[simp] theorem State.modStrand_cosets (s : State) (n : Nat) (f : Strand → Strand) : (s.modStrand n f).cosets = s.cosets := rfl
@[simp] theorem State.modStrand_timers (s : State) (n : Nat) (f : Strand → Strand) : (s.modStrand n f).timers = s.timers := rfl
@[simp] theorem State.modStrand_cur (s : State) (n : Nat) (f : Strand → Strand) : (s.modStrand n f).cur = s.cur := rfl
@[simp] theorem State.modStrand_fresh (s : State) (n : Nat) (f : Strand → Strand) : (s.modStrand n f).fresh = s.fresh := rfl
@[simp] theorem State.modStrand_nextUid (s : State) (n : Nat) (f : Strand → Strand) : (s.modStrand n f).nextUid = s.nextUid := rfl
@[simp] theorem State.modStrand_core (s : State) (n : Nat) (f : Strand → Strand) (k : Nat) : (s.modStrand n f).core k = s.core k := rfl
@[simp] theorem State.modStrand_tile (s : State) (n : Nat) (f : Strand → Strand) (k : Nat) : (s.modStrand n f).tile k = s.tile k := rfl
@[simp] theorem State.modStrand_field (s : State) (n : Nat) (f : Strand → Strand) (k : Nat) : (s.modStrand n f).field k = s.field k := rfl
@[simp] theorem State.modStrand_port (s : State) (n : Nat) (f : Strand → Strand) (k : Nat) : (s.modStrand n f).port k = s.port k := rfl

/-! modSlot -/

@[simp] theorem State.modSlot_mem (s : State) (n : Nat) (f : Slot → Slot) : (s.modSlot n f).mem = s.mem := rfl
@[simp] theorem State.modSlot_uncorr (s : State) (n : Nat) (f : Slot → Slot) : (s.modSlot n f).uncorr = s.uncorr := rfl
@[simp] theorem State.modSlot_poison (s : State) (n : Nat) (f : Slot → Slot) : (s.modSlot n f).poison = s.poison := rfl
@[simp] theorem State.modSlot_time (s : State) (n : Nat) (f : Slot → Slot) : (s.modSlot n f).time = s.time := rfl
@[simp] theorem State.modSlot_boot (s : State) (n : Nat) (f : Slot → Slot) : (s.modSlot n f).boot = s.boot := rfl
@[simp] theorem State.modSlot_links (s : State) (n : Nat) (f : Slot → Slot) : (s.modSlot n f).links = s.links := rfl
@[simp] theorem State.modSlot_fuses (s : State) (n : Nat) (f : Slot → Slot) : (s.modSlot n f).fuses = s.fuses := rfl
@[simp] theorem State.modSlot_secret (s : State) (n : Nat) (f : Slot → Slot) : (s.modSlot n f).secret = s.secret := rfl
@[simp] theorem State.modSlot_certificate (s : State) (n : Nat) (f : Slot → Slot) : (s.modSlot n f).certificate = s.certificate := rfl
@[simp] theorem State.modSlot_image (s : State) (n : Nat) (f : Slot → Slot) : (s.modSlot n f).image = s.image := rfl
@[simp] theorem State.modSlot_running (s : State) (n : Nat) (f : Slot → Slot) : (s.modSlot n f).running = s.running := rfl
@[simp] theorem State.modSlot_identity (s : State) (n : Nat) (f : Slot → Slot) : (s.modSlot n f).identity = s.identity := rfl
@[simp] theorem State.modSlot_replies (s : State) (n : Nat) (f : Slot → Slot) : (s.modSlot n f).replies = s.replies := rfl
@[simp] theorem State.modSlot_command (s : State) (n : Nat) (f : Slot → Slot) : (s.modSlot n f).command = s.command := rfl
@[simp] theorem State.modSlot_pending (s : State) (n : Nat) (f : Slot → Slot) : (s.modSlot n f).pending = s.pending := rfl
@[simp] theorem State.modSlot_ports (s : State) (n : Nat) (f : Slot → Slot) : (s.modSlot n f).ports = s.ports := rfl
@[simp] theorem State.modSlot_chunks (s : State) (n : Nat) (f : Slot → Slot) : (s.modSlot n f).chunks = s.chunks := rfl
@[simp] theorem State.modSlot_sectors (s : State) (n : Nat) (f : Slot → Slot) : (s.modSlot n f).sectors = s.sectors := rfl
@[simp] theorem State.modSlot_rows (s : State) (n : Nat) (f : Slot → Slot) : (s.modSlot n f).rows = s.rows := rfl
@[simp] theorem State.modSlot_alerts (s : State) (n : Nat) (f : Slot → Slot) : (s.modSlot n f).alerts = s.alerts := rfl
@[simp] theorem State.modSlot_badFrames (s : State) (n : Nat) (f : Slot → Slot) : (s.modSlot n f).badFrames = s.badFrames := rfl
@[simp] theorem State.modSlot_spares (s : State) (n : Nat) (f : Slot → Slot) : (s.modSlot n f).spares = s.spares := rfl
@[simp] theorem State.modSlot_keys (s : State) (n : Nat) (f : Slot → Slot) : (s.modSlot n f).keys = s.keys := rfl
@[simp] theorem State.modSlot_loans (s : State) (n : Nat) (f : Slot → Slot) : (s.modSlot n f).loans = s.loans := rfl
@[simp] theorem State.modSlot_fieldLoans (s : State) (n : Nat) (f : Slot → Slot) : (s.modSlot n f).fieldLoans = s.fieldLoans := rfl
@[simp] theorem State.modSlot_parts (s : State) (n : Nat) (f : Slot → Slot) : (s.modSlot n f).parts = s.parts := rfl
@[simp] theorem State.modSlot_tasks (s : State) (n : Nat) (f : Slot → Slot) : (s.modSlot n f).tasks = s.tasks := rfl
@[simp] theorem State.modSlot_strands (s : State) (n : Nat) (f : Slot → Slot) : (s.modSlot n f).strands = s.strands := rfl
@[simp] theorem State.modSlot_slots (s : State) (n : Nat) (f : Slot → Slot) : (s.modSlot n f).slots = tmod s.slots n f := rfl
@[simp] theorem State.modSlot_cores (s : State) (n : Nat) (f : Slot → Slot) : (s.modSlot n f).cores = s.cores := rfl
@[simp] theorem State.modSlot_tiles (s : State) (n : Nat) (f : Slot → Slot) : (s.modSlot n f).tiles = s.tiles := rfl
@[simp] theorem State.modSlot_fields (s : State) (n : Nat) (f : Slot → Slot) : (s.modSlot n f).fields = s.fields := rfl
@[simp] theorem State.modSlot_agenda (s : State) (n : Nat) (f : Slot → Slot) : (s.modSlot n f).agenda = s.agenda := rfl
@[simp] theorem State.modSlot_script (s : State) (n : Nat) (f : Slot → Slot) : (s.modSlot n f).script = s.script := rfl
@[simp] theorem State.modSlot_upsets (s : State) (n : Nat) (f : Slot → Slot) : (s.modSlot n f).upsets = s.upsets := rfl
@[simp] theorem State.modSlot_moves (s : State) (n : Nat) (f : Slot → Slot) : (s.modSlot n f).moves = s.moves := rfl
@[simp] theorem State.modSlot_cosets (s : State) (n : Nat) (f : Slot → Slot) : (s.modSlot n f).cosets = s.cosets := rfl
@[simp] theorem State.modSlot_timers (s : State) (n : Nat) (f : Slot → Slot) : (s.modSlot n f).timers = s.timers := rfl
@[simp] theorem State.modSlot_cur (s : State) (n : Nat) (f : Slot → Slot) : (s.modSlot n f).cur = s.cur := rfl
@[simp] theorem State.modSlot_fresh (s : State) (n : Nat) (f : Slot → Slot) : (s.modSlot n f).fresh = s.fresh := rfl
@[simp] theorem State.modSlot_nextUid (s : State) (n : Nat) (f : Slot → Slot) : (s.modSlot n f).nextUid = s.nextUid := rfl
@[simp] theorem State.modSlot_core (s : State) (n : Nat) (f : Slot → Slot) (k : Nat) : (s.modSlot n f).core k = s.core k := rfl
@[simp] theorem State.modSlot_tile (s : State) (n : Nat) (f : Slot → Slot) (k : Nat) : (s.modSlot n f).tile k = s.tile k := rfl
@[simp] theorem State.modSlot_field (s : State) (n : Nat) (f : Slot → Slot) (k : Nat) : (s.modSlot n f).field k = s.field k := rfl
@[simp] theorem State.modSlot_port (s : State) (n : Nat) (f : Slot → Slot) (k : Nat) : (s.modSlot n f).port k = s.port k := rfl

/-! modPart -/

@[simp] theorem State.modPart_mem (s : State) (n : Nat) (f : Partition → Partition) : (s.modPart n f).mem = s.mem := rfl
@[simp] theorem State.modPart_uncorr (s : State) (n : Nat) (f : Partition → Partition) : (s.modPart n f).uncorr = s.uncorr := rfl
@[simp] theorem State.modPart_poison (s : State) (n : Nat) (f : Partition → Partition) : (s.modPart n f).poison = s.poison := rfl
@[simp] theorem State.modPart_time (s : State) (n : Nat) (f : Partition → Partition) : (s.modPart n f).time = s.time := rfl
@[simp] theorem State.modPart_boot (s : State) (n : Nat) (f : Partition → Partition) : (s.modPart n f).boot = s.boot := rfl
@[simp] theorem State.modPart_links (s : State) (n : Nat) (f : Partition → Partition) : (s.modPart n f).links = s.links := rfl
@[simp] theorem State.modPart_fuses (s : State) (n : Nat) (f : Partition → Partition) : (s.modPart n f).fuses = s.fuses := rfl
@[simp] theorem State.modPart_secret (s : State) (n : Nat) (f : Partition → Partition) : (s.modPart n f).secret = s.secret := rfl
@[simp] theorem State.modPart_certificate (s : State) (n : Nat) (f : Partition → Partition) : (s.modPart n f).certificate = s.certificate := rfl
@[simp] theorem State.modPart_image (s : State) (n : Nat) (f : Partition → Partition) : (s.modPart n f).image = s.image := rfl
@[simp] theorem State.modPart_running (s : State) (n : Nat) (f : Partition → Partition) : (s.modPart n f).running = s.running := rfl
@[simp] theorem State.modPart_identity (s : State) (n : Nat) (f : Partition → Partition) : (s.modPart n f).identity = s.identity := rfl
@[simp] theorem State.modPart_replies (s : State) (n : Nat) (f : Partition → Partition) : (s.modPart n f).replies = s.replies := rfl
@[simp] theorem State.modPart_command (s : State) (n : Nat) (f : Partition → Partition) : (s.modPart n f).command = s.command := rfl
@[simp] theorem State.modPart_pending (s : State) (n : Nat) (f : Partition → Partition) : (s.modPart n f).pending = s.pending := rfl
@[simp] theorem State.modPart_ports (s : State) (n : Nat) (f : Partition → Partition) : (s.modPart n f).ports = s.ports := rfl
@[simp] theorem State.modPart_chunks (s : State) (n : Nat) (f : Partition → Partition) : (s.modPart n f).chunks = s.chunks := rfl
@[simp] theorem State.modPart_sectors (s : State) (n : Nat) (f : Partition → Partition) : (s.modPart n f).sectors = s.sectors := rfl
@[simp] theorem State.modPart_rows (s : State) (n : Nat) (f : Partition → Partition) : (s.modPart n f).rows = s.rows := rfl
@[simp] theorem State.modPart_alerts (s : State) (n : Nat) (f : Partition → Partition) : (s.modPart n f).alerts = s.alerts := rfl
@[simp] theorem State.modPart_badFrames (s : State) (n : Nat) (f : Partition → Partition) : (s.modPart n f).badFrames = s.badFrames := rfl
@[simp] theorem State.modPart_spares (s : State) (n : Nat) (f : Partition → Partition) : (s.modPart n f).spares = s.spares := rfl
@[simp] theorem State.modPart_keys (s : State) (n : Nat) (f : Partition → Partition) : (s.modPart n f).keys = s.keys := rfl
@[simp] theorem State.modPart_loans (s : State) (n : Nat) (f : Partition → Partition) : (s.modPart n f).loans = s.loans := rfl
@[simp] theorem State.modPart_fieldLoans (s : State) (n : Nat) (f : Partition → Partition) : (s.modPart n f).fieldLoans = s.fieldLoans := rfl
@[simp] theorem State.modPart_parts (s : State) (n : Nat) (f : Partition → Partition) : (s.modPart n f).parts = tmod s.parts n f := rfl
@[simp] theorem State.modPart_tasks (s : State) (n : Nat) (f : Partition → Partition) : (s.modPart n f).tasks = s.tasks := rfl
@[simp] theorem State.modPart_strands (s : State) (n : Nat) (f : Partition → Partition) : (s.modPart n f).strands = s.strands := rfl
@[simp] theorem State.modPart_slots (s : State) (n : Nat) (f : Partition → Partition) : (s.modPart n f).slots = s.slots := rfl
@[simp] theorem State.modPart_cores (s : State) (n : Nat) (f : Partition → Partition) : (s.modPart n f).cores = s.cores := rfl
@[simp] theorem State.modPart_tiles (s : State) (n : Nat) (f : Partition → Partition) : (s.modPart n f).tiles = s.tiles := rfl
@[simp] theorem State.modPart_fields (s : State) (n : Nat) (f : Partition → Partition) : (s.modPart n f).fields = s.fields := rfl
@[simp] theorem State.modPart_agenda (s : State) (n : Nat) (f : Partition → Partition) : (s.modPart n f).agenda = s.agenda := rfl
@[simp] theorem State.modPart_script (s : State) (n : Nat) (f : Partition → Partition) : (s.modPart n f).script = s.script := rfl
@[simp] theorem State.modPart_upsets (s : State) (n : Nat) (f : Partition → Partition) : (s.modPart n f).upsets = s.upsets := rfl
@[simp] theorem State.modPart_moves (s : State) (n : Nat) (f : Partition → Partition) : (s.modPart n f).moves = s.moves := rfl
@[simp] theorem State.modPart_cosets (s : State) (n : Nat) (f : Partition → Partition) : (s.modPart n f).cosets = s.cosets := rfl
@[simp] theorem State.modPart_timers (s : State) (n : Nat) (f : Partition → Partition) : (s.modPart n f).timers = s.timers := rfl
@[simp] theorem State.modPart_cur (s : State) (n : Nat) (f : Partition → Partition) : (s.modPart n f).cur = s.cur := rfl
@[simp] theorem State.modPart_fresh (s : State) (n : Nat) (f : Partition → Partition) : (s.modPart n f).fresh = s.fresh := rfl
@[simp] theorem State.modPart_nextUid (s : State) (n : Nat) (f : Partition → Partition) : (s.modPart n f).nextUid = s.nextUid := rfl
@[simp] theorem State.modPart_core (s : State) (n : Nat) (f : Partition → Partition) (k : Nat) : (s.modPart n f).core k = s.core k := rfl
@[simp] theorem State.modPart_tile (s : State) (n : Nat) (f : Partition → Partition) (k : Nat) : (s.modPart n f).tile k = s.tile k := rfl
@[simp] theorem State.modPart_field (s : State) (n : Nat) (f : Partition → Partition) (k : Nat) : (s.modPart n f).field k = s.field k := rfl
@[simp] theorem State.modPart_port (s : State) (n : Nat) (f : Partition → Partition) (k : Nat) : (s.modPart n f).port k = s.port k := rfl

/-! modTask -/

@[simp] theorem State.modTask_mem (s : State) (n : Nat) (f : Task → Task) : (s.modTask n f).mem = s.mem := rfl
@[simp] theorem State.modTask_uncorr (s : State) (n : Nat) (f : Task → Task) : (s.modTask n f).uncorr = s.uncorr := rfl
@[simp] theorem State.modTask_poison (s : State) (n : Nat) (f : Task → Task) : (s.modTask n f).poison = s.poison := rfl
@[simp] theorem State.modTask_time (s : State) (n : Nat) (f : Task → Task) : (s.modTask n f).time = s.time := rfl
@[simp] theorem State.modTask_boot (s : State) (n : Nat) (f : Task → Task) : (s.modTask n f).boot = s.boot := rfl
@[simp] theorem State.modTask_links (s : State) (n : Nat) (f : Task → Task) : (s.modTask n f).links = s.links := rfl
@[simp] theorem State.modTask_fuses (s : State) (n : Nat) (f : Task → Task) : (s.modTask n f).fuses = s.fuses := rfl
@[simp] theorem State.modTask_secret (s : State) (n : Nat) (f : Task → Task) : (s.modTask n f).secret = s.secret := rfl
@[simp] theorem State.modTask_certificate (s : State) (n : Nat) (f : Task → Task) : (s.modTask n f).certificate = s.certificate := rfl
@[simp] theorem State.modTask_image (s : State) (n : Nat) (f : Task → Task) : (s.modTask n f).image = s.image := rfl
@[simp] theorem State.modTask_running (s : State) (n : Nat) (f : Task → Task) : (s.modTask n f).running = s.running := rfl
@[simp] theorem State.modTask_identity (s : State) (n : Nat) (f : Task → Task) : (s.modTask n f).identity = s.identity := rfl
@[simp] theorem State.modTask_replies (s : State) (n : Nat) (f : Task → Task) : (s.modTask n f).replies = s.replies := rfl
@[simp] theorem State.modTask_command (s : State) (n : Nat) (f : Task → Task) : (s.modTask n f).command = s.command := rfl
@[simp] theorem State.modTask_pending (s : State) (n : Nat) (f : Task → Task) : (s.modTask n f).pending = s.pending := rfl
@[simp] theorem State.modTask_ports (s : State) (n : Nat) (f : Task → Task) : (s.modTask n f).ports = s.ports := rfl
@[simp] theorem State.modTask_chunks (s : State) (n : Nat) (f : Task → Task) : (s.modTask n f).chunks = s.chunks := rfl
@[simp] theorem State.modTask_sectors (s : State) (n : Nat) (f : Task → Task) : (s.modTask n f).sectors = s.sectors := rfl
@[simp] theorem State.modTask_rows (s : State) (n : Nat) (f : Task → Task) : (s.modTask n f).rows = s.rows := rfl
@[simp] theorem State.modTask_alerts (s : State) (n : Nat) (f : Task → Task) : (s.modTask n f).alerts = s.alerts := rfl
@[simp] theorem State.modTask_badFrames (s : State) (n : Nat) (f : Task → Task) : (s.modTask n f).badFrames = s.badFrames := rfl
@[simp] theorem State.modTask_spares (s : State) (n : Nat) (f : Task → Task) : (s.modTask n f).spares = s.spares := rfl
@[simp] theorem State.modTask_keys (s : State) (n : Nat) (f : Task → Task) : (s.modTask n f).keys = s.keys := rfl
@[simp] theorem State.modTask_loans (s : State) (n : Nat) (f : Task → Task) : (s.modTask n f).loans = s.loans := rfl
@[simp] theorem State.modTask_fieldLoans (s : State) (n : Nat) (f : Task → Task) : (s.modTask n f).fieldLoans = s.fieldLoans := rfl
@[simp] theorem State.modTask_parts (s : State) (n : Nat) (f : Task → Task) : (s.modTask n f).parts = s.parts := rfl
@[simp] theorem State.modTask_tasks (s : State) (n : Nat) (f : Task → Task) : (s.modTask n f).tasks = tmod s.tasks n f := rfl
@[simp] theorem State.modTask_strands (s : State) (n : Nat) (f : Task → Task) : (s.modTask n f).strands = s.strands := rfl
@[simp] theorem State.modTask_slots (s : State) (n : Nat) (f : Task → Task) : (s.modTask n f).slots = s.slots := rfl
@[simp] theorem State.modTask_cores (s : State) (n : Nat) (f : Task → Task) : (s.modTask n f).cores = s.cores := rfl
@[simp] theorem State.modTask_tiles (s : State) (n : Nat) (f : Task → Task) : (s.modTask n f).tiles = s.tiles := rfl
@[simp] theorem State.modTask_fields (s : State) (n : Nat) (f : Task → Task) : (s.modTask n f).fields = s.fields := rfl
@[simp] theorem State.modTask_agenda (s : State) (n : Nat) (f : Task → Task) : (s.modTask n f).agenda = s.agenda := rfl
@[simp] theorem State.modTask_script (s : State) (n : Nat) (f : Task → Task) : (s.modTask n f).script = s.script := rfl
@[simp] theorem State.modTask_upsets (s : State) (n : Nat) (f : Task → Task) : (s.modTask n f).upsets = s.upsets := rfl
@[simp] theorem State.modTask_moves (s : State) (n : Nat) (f : Task → Task) : (s.modTask n f).moves = s.moves := rfl
@[simp] theorem State.modTask_cosets (s : State) (n : Nat) (f : Task → Task) : (s.modTask n f).cosets = s.cosets := rfl
@[simp] theorem State.modTask_timers (s : State) (n : Nat) (f : Task → Task) : (s.modTask n f).timers = s.timers := rfl
@[simp] theorem State.modTask_cur (s : State) (n : Nat) (f : Task → Task) : (s.modTask n f).cur = s.cur := rfl
@[simp] theorem State.modTask_fresh (s : State) (n : Nat) (f : Task → Task) : (s.modTask n f).fresh = s.fresh := rfl
@[simp] theorem State.modTask_nextUid (s : State) (n : Nat) (f : Task → Task) : (s.modTask n f).nextUid = s.nextUid := rfl
@[simp] theorem State.modTask_core (s : State) (n : Nat) (f : Task → Task) (k : Nat) : (s.modTask n f).core k = s.core k := rfl
@[simp] theorem State.modTask_tile (s : State) (n : Nat) (f : Task → Task) (k : Nat) : (s.modTask n f).tile k = s.tile k := rfl
@[simp] theorem State.modTask_field (s : State) (n : Nat) (f : Task → Task) (k : Nat) : (s.modTask n f).field k = s.field k := rfl
@[simp] theorem State.modTask_port (s : State) (n : Nat) (f : Task → Task) (k : Nat) : (s.modTask n f).port k = s.port k := rfl

/-! post -/

@[simp] theorem State.post_mem (s : State) (t : Turn) : (s.post t).mem = s.mem := rfl
@[simp] theorem State.post_uncorr (s : State) (t : Turn) : (s.post t).uncorr = s.uncorr := rfl
@[simp] theorem State.post_poison (s : State) (t : Turn) : (s.post t).poison = s.poison := rfl
@[simp] theorem State.post_time (s : State) (t : Turn) : (s.post t).time = s.time := rfl
@[simp] theorem State.post_boot (s : State) (t : Turn) : (s.post t).boot = s.boot := rfl
@[simp] theorem State.post_links (s : State) (t : Turn) : (s.post t).links = s.links := rfl
@[simp] theorem State.post_fuses (s : State) (t : Turn) : (s.post t).fuses = s.fuses := rfl
@[simp] theorem State.post_secret (s : State) (t : Turn) : (s.post t).secret = s.secret := rfl
@[simp] theorem State.post_certificate (s : State) (t : Turn) : (s.post t).certificate = s.certificate := rfl
@[simp] theorem State.post_image (s : State) (t : Turn) : (s.post t).image = s.image := rfl
@[simp] theorem State.post_running (s : State) (t : Turn) : (s.post t).running = s.running := rfl
@[simp] theorem State.post_identity (s : State) (t : Turn) : (s.post t).identity = s.identity := rfl
@[simp] theorem State.post_replies (s : State) (t : Turn) : (s.post t).replies = s.replies := rfl
@[simp] theorem State.post_command (s : State) (t : Turn) : (s.post t).command = s.command := rfl
@[simp] theorem State.post_pending (s : State) (t : Turn) : (s.post t).pending = s.pending := rfl
@[simp] theorem State.post_ports (s : State) (t : Turn) : (s.post t).ports = s.ports := rfl
@[simp] theorem State.post_chunks (s : State) (t : Turn) : (s.post t).chunks = s.chunks := rfl
@[simp] theorem State.post_sectors (s : State) (t : Turn) : (s.post t).sectors = s.sectors := rfl
@[simp] theorem State.post_rows (s : State) (t : Turn) : (s.post t).rows = s.rows := rfl
@[simp] theorem State.post_alerts (s : State) (t : Turn) : (s.post t).alerts = s.alerts := rfl
@[simp] theorem State.post_badFrames (s : State) (t : Turn) : (s.post t).badFrames = s.badFrames := rfl
@[simp] theorem State.post_spares (s : State) (t : Turn) : (s.post t).spares = s.spares := rfl
@[simp] theorem State.post_keys (s : State) (t : Turn) : (s.post t).keys = s.keys := rfl
@[simp] theorem State.post_loans (s : State) (t : Turn) : (s.post t).loans = s.loans := rfl
@[simp] theorem State.post_fieldLoans (s : State) (t : Turn) : (s.post t).fieldLoans = s.fieldLoans := rfl
@[simp] theorem State.post_parts (s : State) (t : Turn) : (s.post t).parts = s.parts := rfl
@[simp] theorem State.post_tasks (s : State) (t : Turn) : (s.post t).tasks = s.tasks := rfl
@[simp] theorem State.post_strands (s : State) (t : Turn) : (s.post t).strands = s.strands := rfl
@[simp] theorem State.post_slots (s : State) (t : Turn) : (s.post t).slots = s.slots := rfl
@[simp] theorem State.post_cores (s : State) (t : Turn) : (s.post t).cores = s.cores := rfl
@[simp] theorem State.post_tiles (s : State) (t : Turn) : (s.post t).tiles = s.tiles := rfl
@[simp] theorem State.post_fields (s : State) (t : Turn) : (s.post t).fields = s.fields := rfl
@[simp] theorem State.post_agenda (s : State) (t : Turn) : (s.post t).agenda = s.agenda ++ [t] := rfl
@[simp] theorem State.post_script (s : State) (t : Turn) : (s.post t).script = s.script := rfl
@[simp] theorem State.post_upsets (s : State) (t : Turn) : (s.post t).upsets = s.upsets := rfl
@[simp] theorem State.post_moves (s : State) (t : Turn) : (s.post t).moves = s.moves := rfl
@[simp] theorem State.post_cosets (s : State) (t : Turn) : (s.post t).cosets = s.cosets := rfl
@[simp] theorem State.post_timers (s : State) (t : Turn) : (s.post t).timers = s.timers := rfl
@[simp] theorem State.post_cur (s : State) (t : Turn) : (s.post t).cur = s.cur := rfl
@[simp] theorem State.post_fresh (s : State) (t : Turn) : (s.post t).fresh = s.fresh := rfl
@[simp] theorem State.post_nextUid (s : State) (t : Turn) : (s.post t).nextUid = s.nextUid := rfl
@[simp] theorem State.post_core (s : State) (t : Turn) (k : Nat) : (s.post t).core k = s.core k := rfl
@[simp] theorem State.post_tile (s : State) (t : Turn) (k : Nat) : (s.post t).tile k = s.tile k := rfl
@[simp] theorem State.post_field (s : State) (t : Turn) (k : Nat) : (s.post t).field k = s.field k := rfl
@[simp] theorem State.post_port (s : State) (t : Turn) (k : Nat) : (s.post t).port k = s.port k := rfl

/-! postAt -/

@[simp] theorem State.postAt_mem (s : State) (d : Nat) (i : Instr) : (s.postAt d i).mem = s.mem := rfl
@[simp] theorem State.postAt_uncorr (s : State) (d : Nat) (i : Instr) : (s.postAt d i).uncorr = s.uncorr := rfl
@[simp] theorem State.postAt_poison (s : State) (d : Nat) (i : Instr) : (s.postAt d i).poison = s.poison := rfl
@[simp] theorem State.postAt_time (s : State) (d : Nat) (i : Instr) : (s.postAt d i).time = s.time := rfl
@[simp] theorem State.postAt_boot (s : State) (d : Nat) (i : Instr) : (s.postAt d i).boot = s.boot := rfl
@[simp] theorem State.postAt_links (s : State) (d : Nat) (i : Instr) : (s.postAt d i).links = s.links := rfl
@[simp] theorem State.postAt_fuses (s : State) (d : Nat) (i : Instr) : (s.postAt d i).fuses = s.fuses := rfl
@[simp] theorem State.postAt_secret (s : State) (d : Nat) (i : Instr) : (s.postAt d i).secret = s.secret := rfl
@[simp] theorem State.postAt_certificate (s : State) (d : Nat) (i : Instr) : (s.postAt d i).certificate = s.certificate := rfl
@[simp] theorem State.postAt_image (s : State) (d : Nat) (i : Instr) : (s.postAt d i).image = s.image := rfl
@[simp] theorem State.postAt_running (s : State) (d : Nat) (i : Instr) : (s.postAt d i).running = s.running := rfl
@[simp] theorem State.postAt_identity (s : State) (d : Nat) (i : Instr) : (s.postAt d i).identity = s.identity := rfl
@[simp] theorem State.postAt_replies (s : State) (d : Nat) (i : Instr) : (s.postAt d i).replies = s.replies := rfl
@[simp] theorem State.postAt_command (s : State) (d : Nat) (i : Instr) : (s.postAt d i).command = s.command := rfl
@[simp] theorem State.postAt_pending (s : State) (d : Nat) (i : Instr) : (s.postAt d i).pending = s.pending := rfl
@[simp] theorem State.postAt_ports (s : State) (d : Nat) (i : Instr) : (s.postAt d i).ports = s.ports := rfl
@[simp] theorem State.postAt_chunks (s : State) (d : Nat) (i : Instr) : (s.postAt d i).chunks = s.chunks := rfl
@[simp] theorem State.postAt_sectors (s : State) (d : Nat) (i : Instr) : (s.postAt d i).sectors = s.sectors := rfl
@[simp] theorem State.postAt_rows (s : State) (d : Nat) (i : Instr) : (s.postAt d i).rows = s.rows := rfl
@[simp] theorem State.postAt_alerts (s : State) (d : Nat) (i : Instr) : (s.postAt d i).alerts = s.alerts := rfl
@[simp] theorem State.postAt_badFrames (s : State) (d : Nat) (i : Instr) : (s.postAt d i).badFrames = s.badFrames := rfl
@[simp] theorem State.postAt_spares (s : State) (d : Nat) (i : Instr) : (s.postAt d i).spares = s.spares := rfl
@[simp] theorem State.postAt_keys (s : State) (d : Nat) (i : Instr) : (s.postAt d i).keys = s.keys := rfl
@[simp] theorem State.postAt_loans (s : State) (d : Nat) (i : Instr) : (s.postAt d i).loans = s.loans := rfl
@[simp] theorem State.postAt_fieldLoans (s : State) (d : Nat) (i : Instr) : (s.postAt d i).fieldLoans = s.fieldLoans := rfl
@[simp] theorem State.postAt_parts (s : State) (d : Nat) (i : Instr) : (s.postAt d i).parts = s.parts := rfl
@[simp] theorem State.postAt_tasks (s : State) (d : Nat) (i : Instr) : (s.postAt d i).tasks = s.tasks := rfl
@[simp] theorem State.postAt_strands (s : State) (d : Nat) (i : Instr) : (s.postAt d i).strands = s.strands := rfl
@[simp] theorem State.postAt_slots (s : State) (d : Nat) (i : Instr) : (s.postAt d i).slots = s.slots := rfl
@[simp] theorem State.postAt_cores (s : State) (d : Nat) (i : Instr) : (s.postAt d i).cores = s.cores := rfl
@[simp] theorem State.postAt_tiles (s : State) (d : Nat) (i : Instr) : (s.postAt d i).tiles = s.tiles := rfl
@[simp] theorem State.postAt_fields (s : State) (d : Nat) (i : Instr) : (s.postAt d i).fields = s.fields := rfl
@[simp] theorem State.postAt_agenda (s : State) (d : Nat) (i : Instr) : (s.postAt d i).agenda = s.agenda := rfl
@[simp] theorem State.postAt_script (s : State) (d : Nat) (i : Instr) : (s.postAt d i).script = s.script := rfl
@[simp] theorem State.postAt_upsets (s : State) (d : Nat) (i : Instr) : (s.postAt d i).upsets = s.upsets := rfl
@[simp] theorem State.postAt_moves (s : State) (d : Nat) (i : Instr) : (s.postAt d i).moves = s.moves := rfl
@[simp] theorem State.postAt_cosets (s : State) (d : Nat) (i : Instr) : (s.postAt d i).cosets = s.cosets := rfl
@[simp] theorem State.postAt_timers (s : State) (d : Nat) (i : Instr) : (s.postAt d i).timers = s.timers ++ [(d, i)] := rfl
@[simp] theorem State.postAt_cur (s : State) (d : Nat) (i : Instr) : (s.postAt d i).cur = s.cur := rfl
@[simp] theorem State.postAt_fresh (s : State) (d : Nat) (i : Instr) : (s.postAt d i).fresh = s.fresh := rfl
@[simp] theorem State.postAt_nextUid (s : State) (d : Nat) (i : Instr) : (s.postAt d i).nextUid = s.nextUid := rfl
@[simp] theorem State.postAt_core (s : State) (d : Nat) (i : Instr) (k : Nat) : (s.postAt d i).core k = s.core k := rfl
@[simp] theorem State.postAt_tile (s : State) (d : Nat) (i : Instr) (k : Nat) : (s.postAt d i).tile k = s.tile k := rfl
@[simp] theorem State.postAt_field (s : State) (d : Nat) (i : Instr) (k : Nat) : (s.postAt d i).field k = s.field k := rfl
@[simp] theorem State.postAt_port (s : State) (d : Nat) (i : Instr) (k : Nat) : (s.postAt d i).port k = s.port k := rfl

/-! postOnce -/

@[simp] theorem State.postOnce_mem (s : State) (i : Instr) : (s.postOnce i).mem = s.mem := by unfold State.postOnce; split <;> rfl
@[simp] theorem State.postOnce_uncorr (s : State) (i : Instr) : (s.postOnce i).uncorr = s.uncorr := by unfold State.postOnce; split <;> rfl
@[simp] theorem State.postOnce_poison (s : State) (i : Instr) : (s.postOnce i).poison = s.poison := by unfold State.postOnce; split <;> rfl
@[simp] theorem State.postOnce_time (s : State) (i : Instr) : (s.postOnce i).time = s.time := by unfold State.postOnce; split <;> rfl
@[simp] theorem State.postOnce_boot (s : State) (i : Instr) : (s.postOnce i).boot = s.boot := by unfold State.postOnce; split <;> rfl
@[simp] theorem State.postOnce_links (s : State) (i : Instr) : (s.postOnce i).links = s.links := by unfold State.postOnce; split <;> rfl
@[simp] theorem State.postOnce_fuses (s : State) (i : Instr) : (s.postOnce i).fuses = s.fuses := by unfold State.postOnce; split <;> rfl
@[simp] theorem State.postOnce_secret (s : State) (i : Instr) : (s.postOnce i).secret = s.secret := by unfold State.postOnce; split <;> rfl
@[simp] theorem State.postOnce_certificate (s : State) (i : Instr) : (s.postOnce i).certificate = s.certificate := by unfold State.postOnce; split <;> rfl
@[simp] theorem State.postOnce_image (s : State) (i : Instr) : (s.postOnce i).image = s.image := by unfold State.postOnce; split <;> rfl
@[simp] theorem State.postOnce_running (s : State) (i : Instr) : (s.postOnce i).running = s.running := by unfold State.postOnce; split <;> rfl
@[simp] theorem State.postOnce_identity (s : State) (i : Instr) : (s.postOnce i).identity = s.identity := by unfold State.postOnce; split <;> rfl
@[simp] theorem State.postOnce_replies (s : State) (i : Instr) : (s.postOnce i).replies = s.replies := by unfold State.postOnce; split <;> rfl
@[simp] theorem State.postOnce_command (s : State) (i : Instr) : (s.postOnce i).command = s.command := by unfold State.postOnce; split <;> rfl
@[simp] theorem State.postOnce_pending (s : State) (i : Instr) : (s.postOnce i).pending = s.pending := by unfold State.postOnce; split <;> rfl
@[simp] theorem State.postOnce_ports (s : State) (i : Instr) : (s.postOnce i).ports = s.ports := by unfold State.postOnce; split <;> rfl
@[simp] theorem State.postOnce_chunks (s : State) (i : Instr) : (s.postOnce i).chunks = s.chunks := by unfold State.postOnce; split <;> rfl
@[simp] theorem State.postOnce_sectors (s : State) (i : Instr) : (s.postOnce i).sectors = s.sectors := by unfold State.postOnce; split <;> rfl
@[simp] theorem State.postOnce_rows (s : State) (i : Instr) : (s.postOnce i).rows = s.rows := by unfold State.postOnce; split <;> rfl
@[simp] theorem State.postOnce_alerts (s : State) (i : Instr) : (s.postOnce i).alerts = s.alerts := by unfold State.postOnce; split <;> rfl
@[simp] theorem State.postOnce_badFrames (s : State) (i : Instr) : (s.postOnce i).badFrames = s.badFrames := by unfold State.postOnce; split <;> rfl
@[simp] theorem State.postOnce_spares (s : State) (i : Instr) : (s.postOnce i).spares = s.spares := by unfold State.postOnce; split <;> rfl
@[simp] theorem State.postOnce_keys (s : State) (i : Instr) : (s.postOnce i).keys = s.keys := by unfold State.postOnce; split <;> rfl
@[simp] theorem State.postOnce_loans (s : State) (i : Instr) : (s.postOnce i).loans = s.loans := by unfold State.postOnce; split <;> rfl
@[simp] theorem State.postOnce_fieldLoans (s : State) (i : Instr) : (s.postOnce i).fieldLoans = s.fieldLoans := by unfold State.postOnce; split <;> rfl
@[simp] theorem State.postOnce_parts (s : State) (i : Instr) : (s.postOnce i).parts = s.parts := by unfold State.postOnce; split <;> rfl
@[simp] theorem State.postOnce_tasks (s : State) (i : Instr) : (s.postOnce i).tasks = s.tasks := by unfold State.postOnce; split <;> rfl
@[simp] theorem State.postOnce_strands (s : State) (i : Instr) : (s.postOnce i).strands = s.strands := by unfold State.postOnce; split <;> rfl
@[simp] theorem State.postOnce_slots (s : State) (i : Instr) : (s.postOnce i).slots = s.slots := by unfold State.postOnce; split <;> rfl
@[simp] theorem State.postOnce_cores (s : State) (i : Instr) : (s.postOnce i).cores = s.cores := by unfold State.postOnce; split <;> rfl
@[simp] theorem State.postOnce_tiles (s : State) (i : Instr) : (s.postOnce i).tiles = s.tiles := by unfold State.postOnce; split <;> rfl
@[simp] theorem State.postOnce_fields (s : State) (i : Instr) : (s.postOnce i).fields = s.fields := by unfold State.postOnce; split <;> rfl
@[simp] theorem State.postOnce_script (s : State) (i : Instr) : (s.postOnce i).script = s.script := by unfold State.postOnce; split <;> rfl
@[simp] theorem State.postOnce_upsets (s : State) (i : Instr) : (s.postOnce i).upsets = s.upsets := by unfold State.postOnce; split <;> rfl
@[simp] theorem State.postOnce_moves (s : State) (i : Instr) : (s.postOnce i).moves = s.moves := by unfold State.postOnce; split <;> rfl
@[simp] theorem State.postOnce_cosets (s : State) (i : Instr) : (s.postOnce i).cosets = s.cosets := by unfold State.postOnce; split <;> rfl
@[simp] theorem State.postOnce_timers (s : State) (i : Instr) : (s.postOnce i).timers = s.timers := by unfold State.postOnce; split <;> rfl
@[simp] theorem State.postOnce_cur (s : State) (i : Instr) : (s.postOnce i).cur = s.cur := by unfold State.postOnce; split <;> rfl
@[simp] theorem State.postOnce_fresh (s : State) (i : Instr) : (s.postOnce i).fresh = s.fresh := by unfold State.postOnce; split <;> rfl
@[simp] theorem State.postOnce_nextUid (s : State) (i : Instr) : (s.postOnce i).nextUid = s.nextUid := by unfold State.postOnce; split <;> rfl
@[simp] theorem State.postOnce_core (s : State) (i : Instr) (j : Nat) : (s.postOnce i).core j = s.core j := by unfold State.postOnce; split <;> rfl
@[simp] theorem State.postOnce_tile (s : State) (i : Instr) (j : Nat) : (s.postOnce i).tile j = s.tile j := by unfold State.postOnce; split <;> rfl
@[simp] theorem State.postOnce_field (s : State) (i : Instr) (j : Nat) : (s.postOnce i).field j = s.field j := by unfold State.postOnce; split <;> rfl
@[simp] theorem State.postOnce_port (s : State) (i : Instr) (j : Nat) : (s.postOnce i).port j = s.port j := by unfold State.postOnce; split <;> rfl

/-- The turn is in the agenda afterwards. -/
theorem State.mem_postOnce (s : State) (i : Instr) : (.event i : Turn) ∈ (s.postOnce i).agenda := by
  unfold State.postOnce
  split
  · simpa using (by assumption : s.agenda.contains (.event i) = true)
  · simp

/-- No turn leaves the agenda. -/
theorem State.postOnce_keeps (s : State) (i : Instr) (t : Turn) (h : t ∈ s.agenda) : t ∈ (s.postOnce i).agenda := by
  unfold State.postOnce
  split
  · exact h
  · simp [h]

/-- Only the agenda may change. -/
theorem State.postOnce_frame (s : State) (i : Instr) : { (s.postOnce i) with agenda := s.agenda } = s := by
  unfold State.postOnce
  split <;> rfl

/-! postSlot -/

@[simp] theorem State.postSlot_mem (s : State) (k : Nat) : (s.postSlot k).mem = s.mem := by unfold State.postSlot; split <;> rfl
@[simp] theorem State.postSlot_uncorr (s : State) (k : Nat) : (s.postSlot k).uncorr = s.uncorr := by unfold State.postSlot; split <;> rfl
@[simp] theorem State.postSlot_poison (s : State) (k : Nat) : (s.postSlot k).poison = s.poison := by unfold State.postSlot; split <;> rfl
@[simp] theorem State.postSlot_time (s : State) (k : Nat) : (s.postSlot k).time = s.time := by unfold State.postSlot; split <;> rfl
@[simp] theorem State.postSlot_boot (s : State) (k : Nat) : (s.postSlot k).boot = s.boot := by unfold State.postSlot; split <;> rfl
@[simp] theorem State.postSlot_links (s : State) (k : Nat) : (s.postSlot k).links = s.links := by unfold State.postSlot; split <;> rfl
@[simp] theorem State.postSlot_fuses (s : State) (k : Nat) : (s.postSlot k).fuses = s.fuses := by unfold State.postSlot; split <;> rfl
@[simp] theorem State.postSlot_secret (s : State) (k : Nat) : (s.postSlot k).secret = s.secret := by unfold State.postSlot; split <;> rfl
@[simp] theorem State.postSlot_certificate (s : State) (k : Nat) : (s.postSlot k).certificate = s.certificate := by unfold State.postSlot; split <;> rfl
@[simp] theorem State.postSlot_image (s : State) (k : Nat) : (s.postSlot k).image = s.image := by unfold State.postSlot; split <;> rfl
@[simp] theorem State.postSlot_running (s : State) (k : Nat) : (s.postSlot k).running = s.running := by unfold State.postSlot; split <;> rfl
@[simp] theorem State.postSlot_identity (s : State) (k : Nat) : (s.postSlot k).identity = s.identity := by unfold State.postSlot; split <;> rfl
@[simp] theorem State.postSlot_replies (s : State) (k : Nat) : (s.postSlot k).replies = s.replies := by unfold State.postSlot; split <;> rfl
@[simp] theorem State.postSlot_command (s : State) (k : Nat) : (s.postSlot k).command = s.command := by unfold State.postSlot; split <;> rfl
@[simp] theorem State.postSlot_pending (s : State) (k : Nat) : (s.postSlot k).pending = s.pending := by unfold State.postSlot; split <;> rfl
@[simp] theorem State.postSlot_ports (s : State) (k : Nat) : (s.postSlot k).ports = s.ports := by unfold State.postSlot; split <;> rfl
@[simp] theorem State.postSlot_chunks (s : State) (k : Nat) : (s.postSlot k).chunks = s.chunks := by unfold State.postSlot; split <;> rfl
@[simp] theorem State.postSlot_sectors (s : State) (k : Nat) : (s.postSlot k).sectors = s.sectors := by unfold State.postSlot; split <;> rfl
@[simp] theorem State.postSlot_rows (s : State) (k : Nat) : (s.postSlot k).rows = s.rows := by unfold State.postSlot; split <;> rfl
@[simp] theorem State.postSlot_alerts (s : State) (k : Nat) : (s.postSlot k).alerts = s.alerts := by unfold State.postSlot; split <;> rfl
@[simp] theorem State.postSlot_badFrames (s : State) (k : Nat) : (s.postSlot k).badFrames = s.badFrames := by unfold State.postSlot; split <;> rfl
@[simp] theorem State.postSlot_spares (s : State) (k : Nat) : (s.postSlot k).spares = s.spares := by unfold State.postSlot; split <;> rfl
@[simp] theorem State.postSlot_keys (s : State) (k : Nat) : (s.postSlot k).keys = s.keys := by unfold State.postSlot; split <;> rfl
@[simp] theorem State.postSlot_loans (s : State) (k : Nat) : (s.postSlot k).loans = s.loans := by unfold State.postSlot; split <;> rfl
@[simp] theorem State.postSlot_fieldLoans (s : State) (k : Nat) : (s.postSlot k).fieldLoans = s.fieldLoans := by unfold State.postSlot; split <;> rfl
@[simp] theorem State.postSlot_parts (s : State) (k : Nat) : (s.postSlot k).parts = s.parts := by unfold State.postSlot; split <;> rfl
@[simp] theorem State.postSlot_tasks (s : State) (k : Nat) : (s.postSlot k).tasks = s.tasks := by unfold State.postSlot; split <;> rfl
@[simp] theorem State.postSlot_strands (s : State) (k : Nat) : (s.postSlot k).strands = s.strands := by unfold State.postSlot; split <;> rfl
@[simp] theorem State.postSlot_slots (s : State) (k : Nat) : (s.postSlot k).slots = s.slots := by unfold State.postSlot; split <;> rfl
@[simp] theorem State.postSlot_cores (s : State) (k : Nat) : (s.postSlot k).cores = s.cores := by unfold State.postSlot; split <;> rfl
@[simp] theorem State.postSlot_tiles (s : State) (k : Nat) : (s.postSlot k).tiles = s.tiles := by unfold State.postSlot; split <;> rfl
@[simp] theorem State.postSlot_fields (s : State) (k : Nat) : (s.postSlot k).fields = s.fields := by unfold State.postSlot; split <;> rfl
@[simp] theorem State.postSlot_script (s : State) (k : Nat) : (s.postSlot k).script = s.script := by unfold State.postSlot; split <;> rfl
@[simp] theorem State.postSlot_upsets (s : State) (k : Nat) : (s.postSlot k).upsets = s.upsets := by unfold State.postSlot; split <;> rfl
@[simp] theorem State.postSlot_moves (s : State) (k : Nat) : (s.postSlot k).moves = s.moves := by unfold State.postSlot; split <;> rfl
@[simp] theorem State.postSlot_cosets (s : State) (k : Nat) : (s.postSlot k).cosets = s.cosets := by unfold State.postSlot; split <;> rfl
@[simp] theorem State.postSlot_timers (s : State) (k : Nat) : (s.postSlot k).timers = s.timers := by unfold State.postSlot; split <;> rfl
@[simp] theorem State.postSlot_cur (s : State) (k : Nat) : (s.postSlot k).cur = s.cur := by unfold State.postSlot; split <;> rfl
@[simp] theorem State.postSlot_fresh (s : State) (k : Nat) : (s.postSlot k).fresh = s.fresh := by unfold State.postSlot; split <;> rfl
@[simp] theorem State.postSlot_nextUid (s : State) (k : Nat) : (s.postSlot k).nextUid = s.nextUid := by unfold State.postSlot; split <;> rfl
@[simp] theorem State.postSlot_core (s : State) (k : Nat) (j : Nat) : (s.postSlot k).core j = s.core j := by unfold State.postSlot; split <;> rfl
@[simp] theorem State.postSlot_tile (s : State) (k : Nat) (j : Nat) : (s.postSlot k).tile j = s.tile j := by unfold State.postSlot; split <;> rfl
@[simp] theorem State.postSlot_field (s : State) (k : Nat) (j : Nat) : (s.postSlot k).field j = s.field j := by unfold State.postSlot; split <;> rfl
@[simp] theorem State.postSlot_port (s : State) (k : Nat) (j : Nat) : (s.postSlot k).port j = s.port j := by unfold State.postSlot; split <;> rfl

/-- The turn is in the agenda afterwards. -/
theorem State.mem_postSlot (s : State) (k : Nat) : (.slot k : Turn) ∈ (s.postSlot k).agenda := by
  unfold State.postSlot
  split
  · simpa using (by assumption : s.agenda.contains (.slot k) = true)
  · simp

/-- No turn leaves the agenda. -/
theorem State.postSlot_keeps (s : State) (k : Nat) (t : Turn) (h : t ∈ s.agenda) : t ∈ (s.postSlot k).agenda := by
  unfold State.postSlot
  split
  · exact h
  · simp [h]

/-- Only the agenda may change. -/
theorem State.postSlot_frame (s : State) (k : Nat) : { (s.postSlot k) with agenda := s.agenda } = s := by
  unfold State.postSlot
  split <;> rfl

end Sys2Proof.Machine
end

