-- ==== Sys2Proof/Laws/Run.lean ====
section
/-! SUPPORT. Sys2Proof/Laws/Run.lean: what running a word comes to, said once for each way that it can go, and the steps
around it. -/

namespace Sys2Proof.Machine

/-! ### Where a word runs -/

/-- The environment names the slot's strand, with its partition and task, and holds the word's encoding and guard. -/
theorem envAt_spec {s : State} {k : Nat} {i : Instr} {c : Ctl} {e : Env} (h : s.envAt k i c = some e) :
    e.k = k ∧ e.u = e.sl.uid ∧ e.pn = e.st.part ∧ e.w = encodeWord i ∧ e.ctl = c ∧ e.cond = e.st.cond c ∧
    e.lane = laneGuarded e.st.latch.cls i ∧ tget s.slots k = some e.sl ∧ tget s.strands e.u = some e.st ∧
    tget s.parts e.pn = some e.p ∧ tget s.tasks e.st.task = some e.ta := by
  unfold State.envAt at h
  split at h
  · exact absurd h (by simp)
  · rename_i sl hsl
    split at h
    · exact absurd h (by simp)
    · rename_i t ht
      split at h
      · rename_i p ta hp hta
        obtain rfl := Option.some.inj h
        exact ⟨rfl, rfl, rfl, rfl, rfl, rfl, rfl, hsl, ht, hp, hta⟩
      · exact absurd h (by simp)

/-! ### The strand of an operation -/

@[simp] theorem put_strand (e : Env) (s : State) (t : Strand) : tget (e.put s t).strands e.u = some t := by simp [Env.put]

theorem put_strand_other (e : Env) (s : State) (t : Strand) (u : Nat) (h : u ≠ e.u) :
    tget (e.put s t).strands u = tget s.strands u := by simp [Env.put, tget_tput_other, h]

@[simp] theorem regOp_ok (f : Env → Strand) (e : Env) (s : State) : regOp f e s = .ok (e.put s (f e)) := rfl

/-! ### A word that issues -/

/-- What `settled` says. -/
theorem settled_spec {e : Env} {s : State} {i : Instr} (h : e.settled s i = true) : ∃ r, e.presequence s i = .ok r ∧ e.mustMove i = false := by
  unfold Env.settled at h
  split at h
  · rename_i r hr
    exact ⟨r, hr, by simpa using h⟩
  · exact absurd h (by simp)

/-- The operation and the sequencing complete. -/
theorem runWord_completes {s : State} {i : Instr} {c : Ctl} {e : Env} {op : Op} {s1 : State} {t : Strand} {x : State × Strand}
    (h : Issues s i c e) (hop : op e s = .ok s1) (ht : tget s1.strands e.u = some t) (hs : e.sequence s1 t = .ok x) :
    runWord i c op s = .next (e.finish x.1 i x.2) := by
  obtain ⟨h1, h2, h3, h4, h5⟩ := h
  simp [runWord, h1, Env.run, h2, h3, h5, Env.perform, Env.opRes, Env.conclude, h4, hop, ht, hs]

/-- A word whose operation only changes its strand. -/
theorem runWord_register {s : State} {i : Instr} {c : Ctl} {e : Env} {f : Env → Strand} {t : Strand} (h : Issues s i c e) (hf : f e = t) :
    ∀ x, e.sequence (e.put s t) t = .ok x → runWord i c (regOp f) s = .next (e.finish x.1 i x.2) := by
  subst hf
  intro x hs
  exact runWord_completes h rfl (put_strand e s (f e)) hs

/-- The operation stops: a fault, a lost page-table entry, a page, a tier miss, a wait. -/
theorem runWord_stops {s : State} {i : Instr} {c : Ctl} {e : Env} {op : Op} {x : Stop} (h : Issues s i c e) (hop : op e s = .error x)
    (hx : ∀ t, x ≠ .become t) : runWord i c op s = .next (s.stopped e.k e.busy false x) := by
  obtain ⟨h1, h2, h3, h4, h5⟩ := h
  cases x
  case become t => exact absurd rfl (hx t)
  all_goals simp [runWord, h1, Env.run, h2, h3, h5, Env.perform, Env.opRes, Env.conclude, h4, hop]

/-- The operation has only begun, and the word's sequencing will succeed and moves no frame first (R67): what has begun stays. -/
theorem runWord_becomes {s : State} {i : Instr} {c : Ctl} {e : Env} {op : Op} {t : State} (h : Issues s i c e)
    (hop : op e s = .error (.become t)) (hq : e.settled s i = true) : runWord i c op s = .next t := by
  obtain ⟨h1, h2, h3, h4, h5⟩ := h
  obtain ⟨r, hr, hm⟩ := settled_spec hq
  simp [runWord, h1, Env.run, h2, h3, h5, Env.perform, Env.opRes, h4, hop, hr, hm]

/-- The operation would have begun, but the word's sequencing stops (R67): nothing of it stays. -/
theorem runWord_becomes_not {s : State} {i : Instr} {c : Ctl} {e : Env} {op : Op} {t : State} {x : Stop} (h : Issues s i c e)
    (hop : op e s = .error (.become t)) (hq : e.presequence s i = .error x) :
    runWord i c op s = .next (s.stopped e.k e.busy false x) := by
  obtain ⟨h1, h2, h3, h4, h5⟩ := h
  simp [runWord, h1, Env.run, h2, h3, h5, Env.perform, Env.opRes, h4, hop, hq]

/-- The operation would have begun, and a frame must move first (R67): it runs with the frame moved. -/
theorem runWord_becomes_moved {s : State} {i : Instr} {c : Ctl} {e e2 : Env} {op : Op} {t : State} {r : State × Strand} (h : Issues s i c e)
    (hop : op e s = .error (.become t)) (hq : e.presequence s i = .ok r) (hm : e.mustMove i = true)
    (h2 : (e.keepStack r).envAt e.k i e.ctl = some e2) :
    runWord i c op s = .next (e2.conclude (e.keepStack r) i (e2.opRes (e.keepStack r) op)) := by
  obtain ⟨g1, g2, g3, g4, g5⟩ := h
  simp [runWord, g1, Env.run, g2, g3, g5, Env.perform, hop, hq, hm, h2, show e.opRes s op = op e s by simp [Env.opRes, g4]]

/-- A word whose SEQ is none of 4 to 7 keeps what has begun (R67). -/
theorem settled_next {e : Env} {s : State} {i : Instr} (h : lateSeq e.ctl.seq = false) : e.settled s i = true := by
  have hn : e.stackFrame = none := by
    unfold Env.stackFrame
    split <;> simp_all [lateSeq]
  simp [Env.settled, Env.presequence, Env.mustMove, h, hn]

/-- The sequencing stops. -/
theorem runWord_sequence_stops {s : State} {i : Instr} {c : Ctl} {e : Env} {op : Op} {s1 : State} {t : Strand} {x : Stop}
    (h : Issues s i c e) (hop : op e s = .ok s1) (ht : tget s1.strands e.u = some t) (hs : e.sequence s1 t = .error x) :
    runWord i c op s = .next (s.stopped e.k e.busy false x) := by
  obtain ⟨h1, h2, h3, h4, h5⟩ := h
  simp [runWord, h1, Env.run, h2, h3, h5, Env.perform, Env.opRes, Env.conclude, h4, hop, ht, hs]

/-- The slot holds the word back. -/
theorem runWord_waits {s : State} {i : Instr} {c : Ctl} {e : Env} {op : Op} (h : s.envAt s.cur i c = some e) (hw : e.waits s i = true) :
    runWord i c op s = .next (e.popFull s) := by simp [runWord, h, Env.run, hw]

/-- Decoding raises a fault. -/
theorem runWord_decodeFault {s : State} {i : Instr} {c : Ctl} {e : Env} {op : Op} {f : FaultCode} (h : s.envAt s.cur i c = some e)
    (hw : e.waits s i = false) (hf : e.decodeFault i = some f) (hb : e.busy = false) :
    runWord i c op s = .next (s.raise e.k f (e.decodeTval f) false false) := by simp [runWord, h, Env.run, hw, hf, hb]

/-- The word is left outstanding. -/
theorem runWord_launches {s : State} {i : Instr} {c : Ctl} {e : Env} {op : Op} (h : s.envAt s.cur i c = some e) (hw : e.waits s i = false)
    (hf : e.decodeFault i = none) (hd : e.deferred i = true) : runWord i c op s = .next (e.launch s i) := by
  simp [runWord, h, Env.run, hw, hf, hd]

/-- The guard keeps the operation from taking place: the word only sequences. -/
theorem runWord_guarded {s : State} {i : Instr} {c : Ctl} {e : Env} {op : Op} {x : State × Strand} (h : s.envAt s.cur i c = some e)
    (hw : e.waits s i = false) (hf : e.decodeFault i = none) (hd : e.deferred i = false) (hc : (e.cond || e.lane) = false)
    (hs : e.sequence s e.st = .ok x) : runWord i c op s = .next (e.finish x.1 i x.2) := by
  have ht := (envAt_spec h).2.2.2.2.2.2.2.2.1
  simp [runWord, h, Env.run, hw, hf, hd, Env.perform, Env.opRes, Env.conclude, hc, ht, hs]

/-- A word that places its strand itself. -/
theorem runJump_completes {s : State} {i : Instr} {c : Ctl} {e : Env} {op : Op} {s1 : State} {t : Strand} (h : Issues s i c e)
    (hc : e.cond = true) (hop : op e s = .ok s1) (ht : tget s1.strands e.u = some t) : runJump i c op s = .next (e.finish s1 i t) := by
  obtain ⟨h1, h2, h3, h4, h5⟩ := h
  simp [runJump, h1, Env.runJump, h2, h3, hc, hop, ht]

theorem runJump_stops {s : State} {i : Instr} {c : Ctl} {e : Env} {op : Op} {x : Stop} (h : Issues s i c e) (hc : e.cond = true)
    (hop : op e s = .error x) : runJump i c op s = .next (s.stopped e.k e.busy false x) := by
  obtain ⟨h1, h2, h3, h4, h5⟩ := h
  simp [runJump, h1, Env.runJump, h2, h3, hc, hop]

theorem runJump_takes_strand {s : State} {i : Instr} {c : Ctl} {e : Env} {op : Op} {s1 : State} (h : Issues s i c e) (hc : e.cond = true)
    (hop : op e s = .ok s1) (ht : tget s1.strands e.u = none) : runJump i c op s = .next s1 := by
  obtain ⟨h1, h2, h3, h4, h5⟩ := h
  simp [runJump, h1, Env.runJump, h2, h3, hc, hop, ht]

/-! ### Sequencing -/

/-- A transfer changes HDR and the word index and nothing else; it goes to the supervisor half only from there. -/
theorem goto_spec {t t1 : Strand} {a : Word} (h : t.goto a = .ok t1) : (t.sup = true ∨ bit a 63 = false) ∧ t1 = { t with hdr := a, widx := 0 } := by
  unfold Strand.goto at h
  split at h
  · exact absurd h (by simp [failWith])
  · rename_i hc
    refine ⟨?_, (Except.ok.inj h).symm⟩
    cases hs : t.sup <;> simp_all

/-- Without a transfer only the place changes. -/
theorem advance_spec {t t1 : Strand} (h : t.advance = .ok t1) : t1 = { t with hdr := t1.hdr, widx := t1.widx } := by
  unfold Strand.advance at h
  split at h
  · exact (goto_spec h).2 ▸ rfl
  · obtain rfl := Except.ok.inj h
    rfl

/-- A word whose SEQ does not move the register window leaves the state alone, and of its strand changes only the place and,
for loop, s6. -/
theorem sequence_spec {e : Env} {s : State} {t : Strand} {x : State × Strand} (hw : movesWindow e.ctl.seq = false)
    (h : e.sequence s t = .ok x) :
    x.1 = s ∧ (x.2 = { t with hdr := x.2.hdr, widx := x.2.widx } ∨
      e.ctl.seq = .loop ∧ x.2 = { (t.writeS 6 (t.readS 6 - 1)) with hdr := x.2.hdr, widx := x.2.widx }) := by
  have stay : ∀ {r : Res Strand} {x : State × Strand}, (r.map fun y => (s, y)) = .ok x → x.1 = s ∧ r = .ok x.2 := by
    intro r x hr
    cases r with
    | error y => exact absurd hr (by simp [Except.map])
    | ok y => obtain rfl := Except.ok.inj hr; exact ⟨rfl, rfl⟩
  unfold Env.sequence at h
  split at h
  · obtain ⟨h1, h2⟩ := stay h
    exact ⟨h1, .inl (advance_spec h2)⟩
  · split at h <;> rename_i hq
    · obtain ⟨h1, h2⟩ := stay h
      exact ⟨h1, .inl (advance_spec h2)⟩
    · obtain ⟨h1, h2⟩ := stay h
      exact ⟨h1, .inl ((goto_spec h2).2 ▸ rfl)⟩
    · obtain ⟨h1, h2⟩ := stay h
      exact ⟨h1, .inl ((goto_spec h2).2 ▸ rfl)⟩
    · obtain ⟨h1, h2⟩ := stay h
      exact ⟨h1, .inl ((goto_spec h2).2 ▸ rfl)⟩
    · simp [hq, movesWindow] at hw
    · simp [hq, movesWindow] at hw
    · simp only at h
      split at h
      · exact absurd h (by simp [failWith])
      · obtain ⟨h1, h2⟩ := stay h
        exact ⟨h1, .inl ((goto_spec h2).2 ▸ rfl)⟩
    · simp [hq, movesWindow] at hw
    · simp only at h
      split at h
      · obtain ⟨h1, h2⟩ := stay h
        exact ⟨h1, .inr ⟨hq, advance_spec h2⟩⟩
      · obtain ⟨h1, h2⟩ := stay h
        exact ⟨h1, .inr ⟨hq, (goto_spec h2).2 ▸ rfl⟩⟩

/-! ### A step -/

theorem step_event {s s1 : State} {i : Instr} (h : s.nextTurn = (some (.event i), s1)) : step s = exec i s1 := by simp [step, h]

theorem step_time {s s1 : State} (h : s.nextTurn = (none, s1)) : step s = exec .timeTick s1 := by simp [step, h]

theorem step_word {s s1 s2 : State} {k j : Nat} {i : Instr} (h : s.nextTurn = (some (.slot k), s1)) (hj : s1.servedSlot k = j)
    (hw : ({ s1 with cur := j } : State).slotTask j = .word i s2) : step s = andAgain k j (exec i s2) := by
  simp [step, h, slotStep, hj, hw]

end Sys2Proof.Machine
end

