-- ==== Sys2Proof/Laws/Frame.lean ====
section
/-! SUPPORT. Sys2Proof/Laws/Frame.lean: what the parts of a word's run leave alone: the stream's record of it, the forward
queue, the end of the word, a fault, a suspension. -/

namespace Sys2Proof.Machine

/-- One state differs from another in slot `k`, in strand `u`, in streams, in the times at which units of cores are free and in the
agenda at most; of strand `u` only FMODE may differ. -/
structure Near (k u : Nat) (s t : State) : Prop where
  rest : { t with slots := s.slots, strands := s.strands, cores := s.cores, tiles := s.tiles, agenda := s.agenda }
    = s
  core : ∀ n, ({ (t.core n) with unitFree := (s.core n).unitFree } : Core) = s.core n
  tile : ∀ n, ({ (t.tile n) with streams := [] } : Tile) = { (s.tile n) with streams := [] }
  slot : ∀ j, j ≠ k → tget t.slots j = tget s.slots j
  strand : ∀ v, v ≠ u → tget t.strands v = tget s.strands v
  own : ∀ x, tget s.strands u = some x → ∃ f, tget t.strands u = some { x with fmode := f }
  due : ∀ a, a ∈ s.agenda → a ∈ t.agenda

theorem Near.refl (k u : Nat) (s : State) : Near k u s s :=
  ⟨rfl, fun _ => rfl, fun _ => rfl, fun _ _ => rfl, fun _ _ => rfl, fun x h => ⟨x.fmode, h⟩, fun _ h => h⟩

theorem Near.trans {k u : Nat} {a b c : State} (h : Near k u a b) (g : Near k u b c) : Near k u a c where
  rest :=
    (congrArg
      (fun x : State => { x with slots := a.slots, strands := a.strands, cores := a.cores, tiles := a.tiles, agenda := a.agenda })
      g.rest).trans h.rest
  core n := (congrArg (fun x : Core => { x with unitFree := (a.core n).unitFree }) (g.core n)).trans (h.core n)
  tile n := (g.tile n).trans (h.tile n)
  slot j hj := (g.slot j hj).trans (h.slot j hj)
  strand v hv := (g.strand v hv).trans (h.strand v hv)
  own x hx := by
    obtain ⟨f, hf⟩ := h.own x hx
    obtain ⟨f', hf'⟩ := g.own _ hf
    exact ⟨f', hf'⟩
  due a ha := g.due a (h.due a ha)

theorem near_modSlot (k u : Nat) (s : State) (f : Slot → Slot) : Near k u s (s.modSlot k f) where
  rest := rfl
  core _ := rfl
  tile _ := rfl
  slot _ hj := tget_tmod_other _ _ _ _ hj
  strand _ _ := rfl
  own x hx := ⟨x.fmode, hx⟩
  due _ h := h

theorem near_modTile (k u n : Nat) (s : State) (f : Tile → Tile) (hf : ({ (f (s.tile n)) with streams := [] } : Tile) = { (s.tile n) with streams := [] }) :
    Near k u s (s.modTile n f) where
  rest := rfl
  core _ := rfl
  tile m := by
    by_cases h : m = n
    · subst h; simpa using hf
    · rw [State.modTile_tile_other _ _ _ _ h]
  slot _ _ := rfl
  strand _ _ := rfl
  own x hx := ⟨x.fmode, hx⟩
  due _ h := h

theorem near_fmode (k u : Nat) (s : State) (m : FMode) : Near k u s (s.modStrand u fun t => { t with fmode := m }) where
  rest := rfl
  core _ := rfl
  tile _ := rfl
  slot _ _ := rfl
  strand _ hv := tget_tmod_other _ _ _ _ hv
  own x hx := ⟨m, by simp [hx]⟩
  due _ h := h

theorem near_postOnce (k u : Nat) (s : State) (i : Instr) : Near k u s (s.postOnce i) where
  rest := by unfold State.postOnce; split <;> rfl
  core n := by simp
  tile n := by simp
  slot _ _ := by simp
  strand _ _ := by simp
  own x hx := ⟨x.fmode, by simpa using hx⟩
  due a h := State.postOnce_keeps _ _ _ h

theorem near_postSlot (k u : Nat) (s : State) (j : Nat) : Near k u s (s.postSlot j) where
  rest := by unfold State.postSlot; split <;> rfl
  core n := by simp
  tile n := by simp
  slot _ _ := by simp
  strand _ _ := by simp
  own x hx := ⟨x.fmode, by simpa using hx⟩
  due a h := State.postSlot_keeps _ _ _ h

/-- A unit of a core kept busy. -/
theorem near_keepUnit (e : Env) (k u : Nat) (s : State) (i : Instr) : Near k u s (e.keepUnit s i) := by
  have hu : ∀ (x : Core) (lc : LCls) (j : Instr) (c : Nat), ({ (x.useUnit lc j c) with unitFree := x.unitFree } : Core) = x := by
    intro x lc j c
    unfold Core.useUnit
    split <;> rfl
  unfold Env.keepUnit
  split
  · exact .refl k u s
  · refine ⟨rfl, fun n => ?_, fun _ => rfl, fun _ _ => rfl, fun _ _ => rfl, fun x h => ⟨x.fmode, h⟩, fun _ h => h⟩
    by_cases h : n = e.core
    · subst h; simpa using hu _ _ _ _
    · rw [State.modCore_core_other _ _ _ _ h]

/-- Leaving a stream changes streams. -/
theorem near_leaveStream (k u : Nat) (s : State) (j : Nat) : Near k u s (s.leaveStream j) := by
  unfold State.leaveStream
  refine near_modTile _ _ _ _ _ ?_
  split
  · rfl
  · split
    · rfl
    · simp only [Tile.setStream]

theorem near_detach (k u : Nat) (s : State) (j : Nat) (a h : Word) : Near k u s (s.detach j u a h) := by
  unfold State.detach
  have h1 := (near_leaveStream k u s j).trans (near_fmode k u (s.leaveStream j) .detached)
  simp only
  split
  · exact h1
  · split
    · exact h1
    · refine h1.trans (near_modTile _ _ _ _ _ ?_)
      split
      · rfl
      · split
        · rfl
        · simp only [Tile.setStream]

/-- What a stream does with a word that has passed. -/
theorem near_passedWord (k u : Nat) (s : State) (w a h hdr : Word) (widx : Nat) (taken : Bool) :
    Near k u s (s.passedWord k u w a h hdr widx taken) := by
  unfold State.passedWord
  simp only
  split
  · exact .refl k u s
  · split
    · exact .refl k u s
    · have h1 := near_modSlot k u s fun sl => { sl with pos := s.posOf k + 1 }
      split
      · refine h1.trans (near_modTile _ _ _ _ _ ?_)
        simp only [Tile.setStream]
      · split
        · refine h1.trans (near_modTile _ _ _ _ _ ?_)
          simp only [Tile.setStream]
        · exact h1.trans (near_detach k u _ k a h)

theorem near_pushFwd (e : Env) (s : State) (i : Instr) (t : Strand) (o : Bool) (u : Nat) : Near e.k u s (e.pushFwd s i t o) := by
  unfold Env.pushFwd
  simp only
  split
  · exact (near_modSlot e.k u s _).trans (near_postOnce _ _ _ _)
  · exact .refl e.k u s

/-- The end of a word: of the state that its operation and sequencing left, only its slot, FMODE of its strand, streams, the times at
which units of its core are free and the agenda change. -/
theorem near_finish (e : Env) (s : State) (i : Instr) (t : Strand) : Near e.k e.u (e.put s t) (e.finish s i t) := by
  unfold Env.finish
  exact (((near_modSlot e.k e.u (e.put s t) _).trans (near_keepUnit e e.k e.u _ i)).trans (near_pushFwd e _ i t _ e.u)).trans
    (near_passedWord e.k e.u _ _ _ _ _ _ _)

/-- The strand after the end of a word. -/
theorem finish_strand (e : Env) (s : State) (i : Instr) (t : Strand) :
    ∃ f, tget (e.finish s i t).strands e.u = some { t with fmode := f } := (near_finish e s i t).own t (put_strand e s t)

/-- The end of a word leaves memory as the operation left it. -/
theorem finish_mem (e : Env) (s : State) (i : Instr) (t : Strand) : (e.finish s i t).mem = s.mem := by
  have h := (near_finish e s i t).rest
  have := congrArg State.mem h
  simpa [Env.put] using this

/-! ### Faults and suspensions -/

/-- A fault changes its slot, three registers of its strand, its task's record, and the agenda. -/
theorem noteFault_mem (s : State) (task : Nat) (r : Vector Word 7) : (s.noteFault task r).mem = s.mem := by
  unfold State.noteFault
  split
  · rfl
  · split <;> simp

/-- What follows an uncorrectable error writes back the lost words of its line alone (Table 9.2). -/
theorem assayAfter_mem (s : State) (part : Option AssayPart) (core : Nat) (c : FaultCode) (va : Word) (h : c ≠ .uncorr) :
    (s.assayAfter part core c va).mem = s.mem := by
  unfold State.assayAfter
  split
  · simp only [h, if_false]
    split <;> simp
  · rfl

/-- A fault leaves memory alone, but for the write-back of a line with lost dirty words. -/
theorem raise_mem (s : State) (k : Nat) (c : FaultCode) (v : Word) (entry lost : Bool) (h : c ≠ .uncorr) :
    (s.raise k c v entry lost).mem = s.mem := by
  unfold State.raise
  split
  · rfl
  · split
    · rfl
    · simp only
      split
      · rfl
      · rw [assayAfter_mem _ _ _ _ _ h, noteFault_mem]
        split <;> rfl

theorem suspend_mem (s : State) (k : Nat) (w : WaitKind) (a v : Word) : (s.suspend k w a v).mem = s.mem := by
  unfold State.suspend
  split
  · rfl
  · simp only [State.postOnce_mem, State.dropEntry, State.modTile_mem]
    unfold State.quitStream
    split
    · rfl
    · simp [State.leaveStream]

end Sys2Proof.Machine
end

