-- ==== Sys2Proof/Laws/Memory.lean ====
section
/-! SUPPORT. Sys2Proof/Laws/Memory.lean: the canonical form of memory is kept by every operation, a read after a write gives
the value written, and a write leaves every other byte alone. -/

namespace Sys2Proof.Machine

/-- The first cell, when there is one, lies above an address. -/
def Mem.above (m : Mem) (a : Nat) : Prop := ∀ c ∈ m.head?, a < c.1

theorem Mem.wf_cons (c : Host.Cell) (m : Mem) : Mem.wf (c :: m) = true ↔ c.2 ≠ 0 ∧ Mem.above m c.1 ∧ Mem.wf m = true := by
  cases m with
  | nil => simp [Mem.wf, Mem.above]
  | cons d t => simp [Mem.wf, Mem.above, and_assoc]

theorem Mem.wf_tail {c : Host.Cell} {m : Mem} (h : Mem.wf (c :: m) = true) : Mem.wf m = true := ((Mem.wf_cons c m).1 h).2.2

theorem Mem.above_mem {m : Mem} {a : Nat} (h : Mem.wf m = true) (ha : Mem.above m a) : ∀ c ∈ m, a < c.1 := by
  induction m generalizing a with
  | nil => simp
  | cons d t ih =>
    have hd : a < d.1 := ha d (by simp)
    obtain ⟨-, h2, h3⟩ := (Mem.wf_cons d t).1 h
    intro c hc
    rcases List.mem_cons.1 hc with rfl | hc
    · exact hd
    · exact lt_trans hd (ih h3 h2 c hc)

/-- A sublist of a canonical memory is canonical. -/
theorem Mem.wf_sublist {l m : Mem} (h : l.Sublist m) (hm : Mem.wf m = true) : Mem.wf l = true := by
  induction h with
  | slnil => rfl
  | cons a _ ih => exact ih (Mem.wf_tail hm)
  | cons_cons a hs ih =>
    obtain ⟨h1, h2, h3⟩ := (Mem.wf_cons a _).1 hm
    refine (Mem.wf_cons a _).2 ⟨h1, ?_, ih h3⟩
    intro c hc
    exact Mem.above_mem h3 h2 c (hs.subset (List.mem_of_mem_head? hc))

/-- Two canonical memories, the first wholly below the second. -/
theorem Mem.wf_append {l m : Mem} (hl : Mem.wf l = true) (hm : Mem.wf m = true) (h : ∀ c ∈ l, Mem.above m c.1) :
    Mem.wf (l ++ m) = true := by
  induction l with
  | nil => exact hm
  | cons a t ih =>
    obtain ⟨h1, h2, h3⟩ := (Mem.wf_cons a t).1 hl
    refine (Mem.wf_cons a _).2 ⟨h1, ?_, ih h3 fun c hc => h c (List.mem_cons_of_mem a hc)⟩
    cases t with
    | nil => exact h a (by simp)
    | cons b r => simpa [Mem.above] using h2

theorem Mem.below_sublist (m : Mem) (a : Nat) : (Mem.below m a).Sublist m := by
  induction m with
  | nil => exact List.Sublist.slnil
  | cons c t ih =>
    obtain ⟨i, b⟩ := c
    simp only [Mem.below]
    split
    · exact ih.cons_cons _
    · exact List.nil_sublist _

theorem Mem.from_sublist (m : Mem) (a : Nat) : (Mem.from m a).Sublist m := by
  induction m with
  | nil => exact List.Sublist.slnil
  | cons c t ih =>
    obtain ⟨i, b⟩ := c
    simp only [Mem.from]
    split
    · exact ih.cons _
    · exact List.Sublist.refl _

theorem Mem.below_lt (m : Mem) (a : Nat) : ∀ c ∈ Mem.below m a, c.1 < a := by
  induction m with
  | nil => simp [Mem.below]
  | cons d t ih =>
    obtain ⟨i, b⟩ := d
    simp only [Mem.below]
    split
    · intro c hc
      rcases List.mem_cons.1 hc with rfl | hc
      · assumption
      · exact ih c hc
    · simp

theorem Mem.from_head (m : Mem) (a : Nat) : ∀ c ∈ (Mem.from m a).head?, a ≤ c.1 := by
  induction m with
  | nil => simp [Mem.from]
  | cons d t ih =>
    obtain ⟨i, b⟩ := d
    simp only [Mem.from]
    split
    · exact ih
    · intro c hc
      simp only [List.head?_cons, Option.mem_some_iff] at hc
      subst hc
      simpa using (by assumption : ¬ i < a)

theorem Mem.cells_bound (a : Nat) (bs : List Byte) : ∀ c ∈ Mem.cells a bs, a ≤ c.1 ∧ c.1 < a + bs.length := by
  induction bs generalizing a with
  | nil => simp [Mem.cells]
  | cons b t ih =>
    intro c hc
    simp only [Mem.cells] at hc
    simp only [List.length_cons]
    split at hc
    · have := ih (a + 1) c hc
      omega
    · rcases List.mem_cons.1 hc with rfl | hc
      · simp
      · have := ih (a + 1) c hc
        omega

theorem Mem.wf_cells (a : Nat) (bs : List Byte) : Mem.wf (Mem.cells a bs) = true := by
  induction bs generalizing a with
  | nil => rfl
  | cons b t ih =>
    simp only [Mem.cells]
    split
    · exact ih (a + 1)
    · rename_i hb
      refine (Mem.wf_cons _ _).2 ⟨hb, ?_, ih (a + 1)⟩
      intro c hc
      have := Mem.cells_bound (a + 1) t c (List.mem_of_mem_head? hc)
      show a < c.1
      omega

/-- A write keeps the canonical form. -/
theorem Mem.wf_write {m : Mem} (h : Mem.wf m = true) (a : Nat) (bs : List Byte) : Mem.wf (Mem.write m a bs) = true := by
  unfold Mem.write
  have h1 : Mem.wf (m.below a ++ Mem.cells a bs) = true := by
    refine Mem.wf_append (Mem.wf_sublist (Mem.below_sublist m a) h) (Mem.wf_cells a bs) ?_
    intro c hc d hd
    have := Mem.below_lt m a c hc
    have := Mem.cells_bound a bs d (List.mem_of_mem_head? hd)
    omega
  refine Mem.wf_append h1 (Mem.wf_sublist (Mem.from_sublist m _) h) ?_
  intro c hc d hd
  have h2 := Mem.from_head m (a + bs.length) d hd
  rcases List.mem_append.1 hc with hc | hc
  · have := Mem.below_lt m a c hc
    omega
  · have := Mem.cells_bound a bs c hc
    omega

/-- Cells taken out by a test leave the canonical form. -/
theorem Mem.wf_filter {m : Mem} (h : Mem.wf m = true) (p : Host.Cell → Bool) : Mem.wf (m.filter p) = true :=
  Mem.wf_sublist List.filter_sublist h

/-- A range taken out keeps the canonical form. -/
theorem Mem.wf_cut {m : Mem} (h : Mem.wf m = true) (a n : Nat) : Mem.wf (Mem.below m a ++ Mem.from m (a + n)) = true := by
  refine Mem.wf_append (Mem.wf_sublist (Mem.below_sublist m a) h) (Mem.wf_sublist (Mem.from_sublist m _) h) ?_
  intro c hc d hd
  have := Mem.below_lt m a c hc
  have := Mem.from_head m (a + n) d hd
  omega

/-! ### Reading -/

theorem Mem.read_append (l m : Mem) (a : Nat) (h : ∀ c ∈ l, c.1 ≠ a) : Mem.read (l ++ m) a = Mem.read m a := by
  induction l with
  | nil => rfl
  | cons c t ih =>
    obtain ⟨i, b⟩ := c
    have hi : i ≠ a := h (i, b) (by simp)
    simp only [List.cons_append, Mem.read, if_neg hi]
    exact ih fun c hc => h c (List.mem_cons_of_mem _ hc)

theorem Mem.read_above {m : Mem} (a : Nat) (h : ∀ c ∈ m, a < c.1) : Mem.read m a = 0 := by
  induction m with
  | nil => rfl
  | cons c t ih =>
    obtain ⟨i, b⟩ := c
    have hi : a < i := h (i, b) (by simp)
    simp only [Mem.read, if_neg (show i ≠ a by omega)]
    exact ih fun c hc => h c (List.mem_cons_of_mem _ hc)

theorem Mem.read_append_left (l m : Mem) (a : Nat) (h : ∀ c ∈ m, c.1 ≠ a) : Mem.read (l ++ m) a = Mem.read l a := by
  induction l with
  | nil =>
    have h0 := Mem.read_append m [] a h
    simpa [Mem.read] using h0
  | cons c t ih =>
    obtain ⟨i, b⟩ := c
    simp only [List.cons_append, Mem.read, ih]

theorem Mem.read_below {m : Mem} (h : Mem.wf m = true) (a x : Nat) (hx : x < a) : Mem.read (Mem.below m a) x = Mem.read m x := by
  induction m with
  | nil => rfl
  | cons c t ih =>
    obtain ⟨i, b⟩ := c
    obtain ⟨-, h2, h3⟩ := (Mem.wf_cons (i, b) t).1 h
    simp only [Mem.below]
    split
    · simp only [Mem.read, ih h3]
    · have ha := Mem.above_mem h3 h2
      simp only [Mem.read, if_neg (show i ≠ x by omega)]
      exact (Mem.read_above x fun c hc => by have := ha c hc; simp only at this; omega).symm

theorem Mem.read_from (m : Mem) (a x : Nat) (hx : a ≤ x) : Mem.read (Mem.from m a) x = Mem.read m x := by
  induction m with
  | nil => rfl
  | cons c t ih =>
    obtain ⟨i, b⟩ := c
    simp only [Mem.from]
    split
    · simp only [Mem.read, if_neg (show i ≠ x by omega), ih]
    · rfl

theorem Mem.from_ge {m : Mem} (h : Mem.wf m = true) (a : Nat) : ∀ c ∈ Mem.from m a, a ≤ c.1 := by
  intro c hc
  have hw := Mem.wf_sublist (Mem.from_sublist m a) h
  cases hm : Mem.from m a with
  | nil => simp [hm] at hc
  | cons d t =>
    have hd : a ≤ d.1 := Mem.from_head m a d (by simp [hm])
    rw [hm] at hc hw
    rcases List.mem_cons.1 hc with rfl | hc
    · exact hd
    · obtain ⟨-, h2, h3⟩ := (Mem.wf_cons d t).1 hw
      exact le_of_lt (lt_of_le_of_lt hd (Mem.above_mem h3 h2 c hc))

theorem Mem.read_cells (a : Nat) (bs : List Byte) (x : Nat) (h1 : a ≤ x) (h2 : x < a + bs.length) :
    Mem.read (Mem.cells a bs) x = (bs[x - a]?).getD 0 := by
  induction bs generalizing a with
  | nil => simp at h2; omega
  | cons b t ih =>
    simp only [List.length_cons] at h2
    by_cases hx : x = a
    · subst hx
      simp only [Mem.cells]
      split
      · rename_i hb
        rw [Mem.read_above x fun c hc => by have := Mem.cells_bound (x + 1) t c hc; omega]
        simp [hb]
      · simp [Mem.read]
    · have hr := ih (a + 1) (by omega) (by omega)
      have hi : x - a = (x - (a + 1)) + 1 := by omega
      simp only [Mem.cells]
      split
      · rw [hr, hi]; simp
      · simp only [Mem.read, if_neg (Ne.symm hx)]
        rw [hr, hi]; simp

/-- A byte written reads as what was written. -/
theorem Mem.read_write_same {m : Mem} (h : Mem.wf m = true) (a : Nat) (bs : List Byte) (x : Nat) (h1 : a ≤ x) (h2 : x < a + bs.length) :
    Mem.read (Mem.write m a bs) x = (bs[x - a]?).getD 0 := by
  unfold Mem.write
  rw [Mem.read_append_left _ _ _ fun c hc => by have := Mem.from_ge h (a + bs.length) c hc; omega]
  rw [Mem.read_append _ _ _ fun c hc => by have := Mem.below_lt m a c hc; omega]
  exact Mem.read_cells a bs x h1 h2

/-- Every byte outside a write reads as before. -/
theorem Mem.read_write_other {m : Mem} (h : Mem.wf m = true) (a : Nat) (bs : List Byte) (x : Nat) (hx : x < a ∨ a + bs.length ≤ x) :
    Mem.read (Mem.write m a bs) x = Mem.read m x := by
  unfold Mem.write
  rcases hx with hx | hx
  · rw [Mem.read_append_left _ _ _ fun c hc => by have := Mem.from_ge h (a + bs.length) c hc; omega]
    rw [Mem.read_append_left _ _ _ fun c hc => by have := Mem.cells_bound a bs c hc; omega]
    exact Mem.read_below h a x hx
  · rw [Mem.read_append _ _ _ fun c hc => by
      rcases List.mem_append.1 hc with hc | hc
      · have := Mem.below_lt m a c hc; omega
      · have := Mem.cells_bound a bs c hc; omega]
    exact Mem.read_from m _ x hx

theorem Mem.run_length (m : Mem) (a n : Nat) : (Mem.run m a n).length = n := by
  induction n generalizing m a with
  | zero => cases m <;> rfl
  | succ n ih =>
    cases m with
    | nil => simp [Mem.run, ih]
    | cons c t =>
      obtain ⟨i, b⟩ := c
      simp only [Mem.run]
      split <;> simp [ih]

@[simp] theorem Mem.bytes_length (m : Mem) (a n : Nat) : (Mem.bytes m a n).length = n := Mem.run_length _ _ _

/-! ### The operations of a state on its memory -/

theorem State.putAt_wf {s : State} (h : Mem.wf s.mem = true) (pa : Nat) (bs : List Byte) : Mem.wf (s.putAt pa bs).mem = true :=
  Mem.wf_write h pa bs

theorem State.putDw_wf {s : State} (h : Mem.wf s.mem = true) (pa : Nat) (w : Word) : Mem.wf (s.putDw pa w).mem = true :=
  s.putAt_wf h pa _

theorem State.setPoison_wf {s : State} (h : Mem.wf s.mem = true) (pa : Nat) : Mem.wf (s.setPoison pa).mem = true := h

theorem State.zeroFrame_wf {s : State} (h : Mem.wf s.mem = true) (f : Nat) (big : Bool) : Mem.wf (s.zeroFrame f big).mem = true :=
  Mem.wf_cut h f _

theorem State.zeroRange_wf {s : State} (h : Mem.wf s.mem = true) (lo n : Nat) : Mem.wf (s.zeroRange lo n).mem = true :=
  Mem.wf_filter h _

theorem State.powerless_wf {s : State} (h : Mem.wf s.mem = true) : Mem.wf s.powerless.mem = true := h

theorem State.sealChunk_wf {s : State} (h : Mem.wf s.mem = true) (key : List Byte) (pa : Nat) (bs : List Byte) :
    Mem.wf (s.sealChunk key pa bs).mem = true := by
  unfold State.sealChunk
  exact Mem.wf_write h _ _

theorem probeMem_wf {m : Mem} (h : Mem.wf m = true) (w : Word) : Mem.wf (probeMem m w) = true := by
  have hp : ∀ (m : Mem) (a : Nat) (x : Word), Mem.wf m = true → Mem.wf (Mem.write m a (bytesOf 8 x.toNat)) = true :=
    fun m a x hm => Mem.wf_write hm a _
  exact hp _ _ _ (hp _ _ _ (hp _ _ _ (hp _ _ _ (hp _ _ _ (hp _ _ _ (hp _ _ _ (hp _ _ _ (hp _ _ _ h))))))))

theorem State.placeWord_wf {s : State} (h : Mem.wf s.mem = true) (w : Word) : Mem.wf (s.placeWord w).mem = true :=
  probeMem_wf h w

theorem State.reset_wf : Mem.wf State.reset.mem = true := rfl

end Sys2Proof.Machine
end

