-- ==== Sys2Proof/Tests/Slice0.lean ====
section
/-! SUPPORT. Sys2Proof/Tests/Slice0.lean: the tests. Ill-formed terms that the encoding rules refuse; for every instruction
word, a word written out from the spec's encoding tables that decodes to it; what words of the spec's worked examples
leave; and for every statement a concrete state that meets its hypotheses. Expected values are the spec's. -/

open Sys2Proof Sys2Proof.Machine

namespace Sys2Proof.Tests

set_option Elab.async false

/-! ### Encodings -/

def full : IntMod := { w := .full, xs := false }
def sx8 : IntMod := { w := .b8, xs := true }
def w64 : IntMod := { w := .b64, xs := false }
def loopCtl : Ctl := { noCtl with seq := .loop }
def eitherCtl : Ctl := { noCtl with seq := .either }
def rampCtl : Ctl := { noCtl with seq := .loop, gp := 2 }
def windowCtl : Ctl := { noCtl with gp := 1, la := 1 }
def guard4 : Ctl := { noCtl with gp := 4 }
def guard5 : Ctl := { noCtl with gp := 5 }
def retUnless2 : Ctl := { noCtl with seq := .ret, neg := true, gp := 2 }

/-- Each word decodes to its instruction, which is well formed and encodes to the word. -/
def allDecode (l : List (Nat × Instr)) : Bool :=
  l.all fun p => decodeTableWord 64 p.1 == some p.2 && WellFormed .empty p.2 && encode p.2 == some (BitVec.ofNat 64 p.1)

/-- Words of the arithmetic family, from Table 3.3, Table 3.1. -/
def arithmeticWords : List (Nat × Instr) := [
  (0x0000020404000000, .addR noCtl (.s 16) (.s 16) (.s 8) full),
  (0x2880010200000003, .addI loopCtl (.s 8) (.s 8) 3),
  (0x0100012285800009, .sub noCtl (.s 9) (.s 10) (.s 11) sx8),
  (0x0200012285800009, .mulR noCtl (.s 9) (.s 10) (.s 11) sx8),
  (0x29000127C07FFFFE, .mulI noCtl (.s 9) (.s 31) (-2)),
  (0x0300012285800009, .mulh noCtl (.s 9) (.s 10) (.s 11) sx8),
  (0x0400012285800009, .mulhu noCtl (.s 9) (.s 10) (.s 11) sx8),
  (0x0500012285800009, .div noCtl (.s 9) (.s 10) (.s 11) sx8),
  (0x0600012285800009, .divu noCtl (.s 9) (.s 10) (.s 11) sx8),
  (0x0700012285800009, .rem noCtl (.s 9) (.s 10) (.s 11) sx8),
  (0x0800012285800009, .remu noCtl (.s 9) (.s 10) (.s 11) sx8),
  (0x1700012285800009, .minR noCtl (.s 9) (.s 10) (.s 11) sx8),
  (0x31000127C07FFFFE, .minI noCtl (.s 9) (.s 31) (-2)),
  (0x1800012285800009, .maxR noCtl (.s 9) (.s 10) (.s 11) sx8),
  (0x32000127C07FFFFE, .maxI noCtl (.s 9) (.s 31) (-2)),
  (0x1900012285800009, .minuR noCtl (.s 9) (.s 10) (.s 11) sx8),
  (0x33000127C07FFFFE, .minuI noCtl (.s 9) (.s 31) (-2)),
  (0x1A00012285800009, .maxuR noCtl (.s 9) (.s 10) (.s 11) sx8),
  (0x34000127C07FFFFE, .maxuI noCtl (.s 9) (.s 31) (-2)),
  (0x1B00042880000004, .abs noCtl (.v 1) (.v 2) w64),
  (0x1C00042881800013, .addsat noCtl (.v 1) (.v 2) (.s 3) (IntMod.mk .b32 false) true),
  (0x1D000A0881800009, .subsat noCtl .latch (.v 2) (.s 3) sx8 false),
  (0x25000122858003F0, .scadd noCtl (.s 9) (.s 10) (.s 11) full 63)]

theorem test_arithmetic_words_decode : allDecode arithmeticWords = true := by decide +kernel

/-- Words of the logic family, from Table 3.3, Table 3.1. -/
def logicWords : List (Nat × Instr) := [
  (0x0900012285800009, .andR noCtl (.s 9) (.s 10) (.s 11) sx8),
  (0x2A000127C07FFFFE, .andI noCtl (.s 9) (.s 31) (-2)),
  (0x0A00012285800009, .orR noCtl (.s 9) (.s 10) (.s 11) sx8),
  (0x2B000127C07FFFFE, .orI noCtl (.s 9) (.s 31) (-2)),
  (0x0B00012285800009, .xorR noCtl (.s 9) (.s 10) (.s 11) sx8),
  (0x2C000127C07FFFFE, .xorI noCtl (.s 9) (.s 31) (-2)),
  (0x0C00012285800009, .andn noCtl (.s 9) (.s 10) (.s 11) sx8),
  (0x0D00012285800009, .orn noCtl (.s 9) (.s 10) (.s 11) sx8),
  (0x0E00012285800009, .xnor noCtl (.s 9) (.s 10) (.s 11) sx8),
  (0x0F00012285800009, .shlR noCtl (.s 9) (.s 10) (.s 11) sx8),
  (0x2D000127C07FFFFE, .shlI noCtl (.s 9) (.s 31) (-2)),
  (0x1000012285800009, .shrR noCtl (.s 9) (.s 10) (.s 11) sx8),
  (0x2E000127C07FFFFE, .shrI noCtl (.s 9) (.s 31) (-2)),
  (0x1100012285800009, .sarR noCtl (.s 9) (.s 10) (.s 11) sx8),
  (0x2F000127C07FFFFE, .sarI noCtl (.s 9) (.s 31) (-2)),
  (0x1200012285800009, .rotlR noCtl (.s 9) (.s 10) (.s 11) sx8),
  (0x30000127C07FFFFE, .rotlI noCtl (.s 9) (.s 31) (-2)),
  (0x1300042880000004, .clz noCtl (.v 1) (.v 2) w64),
  (0x1400042880000004, .ctz noCtl (.v 1) (.v 2) w64),
  (0x1500042880000004, .popc noCtl (.v 1) (.v 2) w64),
  (0x1600042880000004, .brev noCtl (.v 1) (.v 2) w64),
  (0x1E00012280000003, .sext noCtl (.s 9) (.s 10) .b32),
  (0x1F00052280000002, .zext noCtl (.v 9) (.s 10) .b16),
  (0x2000012280001C4A, .bfx noCtl (.s 9) (.s 10) (IntMod.mk .b16 true) 4 7),
  (0x210001228580F810, .bfi noCtl (.s 9) (.s 10) (.s 11) full 1 62)]

theorem test_logic_words_decode : allDecode logicWords = true := by decide +kernel

/-- Words of the moves family, from Tables 3.3 to 3.5, R106, R110, R112. -/
def movesWords : List (Nat × Instr) := [
  (0x2200084280000000, .movR noCtl (.p 2) (.s 10) false),
  (0x370007E0007FFFFF, .movI noCtl (.v 31) (-1)),
  (0x2300012285C30001, .sel noCtl (.s 9) (.s 10) (.s 11) (.p 3) (IntMod.mk .b8 false)),
  (0x2430084245000040, .cmpR eitherCtl (.p 2) (.s 9) (.s 10) .full .ltu),
  (0x2430084245000020, .cmpR eitherCtl (.p 2) (.s 9) (.s 10) .full .lt),
  (0x2430084245000043, .cmpR eitherCtl (.p 2) (.s 9) (.s 10) .b32 .ltu),
  (0x3500012285800005, .cmpI noCtl (.s 9) (.s 10) .none 5),
  (0x360001200000CDEF, .movw noCtl (.s 9) 0 0xCDEF),
  (0x36000120008089AB, .movw noCtl (.s 9) 1 0x89AB),
  (0x7000083080430080, .plog noCtl (.p 1) (some (.p 2)) none (some (.p 3)) 0x80),
  (0x7100013080000000, .pany noCtl (.s 9) (.p 2) none),
  (0x7200082261000000, .pall noCtl (.p 1) (.s 9) (some (.p 2))),
  (0x7300013080000000, .pcount noCtl (.s 9) (.p 2) none)]

theorem test_moves_words_decode : allDecode movesWords = true := by decide +kernel

/-- Words of the float family, from Tables 8.1 to 8.4, 7.4. -/
def floatWords : List (Nat × Instr) := [
  (0x4082042851000000, .fadd rampCtl (.v 1) (.v 1) (.v 2) none none),
  (0x410001228580A800, .fsub noCtl (.s 9) (.s 10) (.s 11) (some .rna) (some .fp64)),
  (0x420001228580A800, .fmul noCtl (.s 9) (.s 10) (.s 11) (some .rna) (some .fp64)),
  (0x4300042891A42000, .fma noCtl (.v 1) (.v 2) (.v 3) (.v 4) (some .rne) none),
  (0x4400042891A42000, .fms noCtl (.v 1) (.v 2) (.v 3) (.v 4) (some .rne) none),
  (0x4500042891A42000, .fnma noCtl (.v 1) (.v 2) (.v 3) (.v 4) (some .rne) none),
  (0x4600042891A42000, .fnms noCtl (.v 1) (.v 2) (.v 3) (.v 4) (some .rne) none),
  (0x470001228580A800, .fdiv noCtl (.s 9) (.s 10) (.s 11) (some .rna) (some .fp64)),
  (0x4800042880005000, .fsqrt noCtl (.v 1) (.v 2) (some .rz) (some .bf16)),
  (0x4900042880005000, .frcp noCtl (.v 1) (.v 2) (some .rz) (some .bf16)),
  (0x4A00042880000C00, .frsq noCtl (.v 1) (.v 2) (some .fp16)),
  (0x4B00042880000C00, .fexp2 noCtl (.v 1) (.v 2) (some .fp16)),
  (0x4C00042880000C00, .flog2 noCtl (.v 1) (.v 2) (some .fp16)),
  (0x4D00042880000C00, .ftanh noCtl (.v 1) (.v 2) (some .fp16)),
  (0x4E00012285800400, .fmin noCtl (.s 9) (.s 10) (.s 11) (some .fp32)),
  (0x4F00012285800400, .fmax noCtl (.s 9) (.s 10) (.s 11) (some .fp32)),
  (0x5000042880000C00, .fabs noCtl (.v 1) (.v 2) (some .fp16)),
  (0x5100042880000C00, .fneg noCtl (.v 1) (.v 2) (some .fp16)),
  (0x5200012285800000, .fcpys noCtl (.s 9) (.s 10) (.s 11) none),
  (0x5300082891800007, .fcmp noCtl (.p 1) (.v 2) (.v 3) none .o),
  (0x5400042880000C00, .fclass noCtl (.v 1) (.v 2) (some .fp16)),
  (0x55000448C0009700, .fcvt noCtl (.v 2) (.v 3) (some .rdn) (some .e4m3) (some .e5m2)),
  (0x5600012280006A40, .ftoi noCtl (.s 9) (.s 10) (some .rup) (some .fp64) .b64 true),
  (0x5700012280000480, .itof noCtl (.s 9) (.s 10) none (some .fp32) .b8 false),
  (0x5800042880005000, .fround noCtl (.v 1) (.v 2) (some .rz) (some .bf16))]

theorem test_float_words_decode : allDecode floatWords = true := by decide +kernel

/-- Words of the lane family, from Tables 8.6 to 8.9, R244. -/
def laneWords : List (Nat × Instr) := [
  (0x7400042881800004, .vbcast noCtl (.v 1) (.v 2) (.s 3) true),
  (0x75000448C00003F0, .vshuf noCtl (.v 2) (.v 3) (.xor 63) false),
  (0x75000448D2008004, .vshuf noCtl (.v 2) (.v 3) (.unzo (.v 4)) true),
  (0x76000448D2250000, .vperm noCtl (.v 2) (.v 3) (.v 4) (.v 5) false),
  (0x77000448D2052000, .vslide noCtl (.v 2) (.v 3) (.v 4) (.s 5) true false),
  (0x78000128C2000008, .vextr noCtl (.s 9) (.v 3) (.s 4) true false),
  (0x79000520C2000004, .vins noCtl (.v 9) (.s 3) (.s 4) true),
  (0x7A01128900008000, .vred windowCtl (.s 20) (.v 4) .fadd none full),
  (0x7B00042880005013, .vscan noCtl (.v 1) (.v 2) .max none true .b32),
  (0x7C00042880000000, .vcompress noCtl (.v 1) (.v 2) false),
  (0x7D00042000000000, .viota noCtl (.v 1) none false),
  (0xE800042880001060, .bquant noCtl (.v 1) (.v 2) (some .bf16) 6),
  (0xE900042880004C10, .bdeq noCtl (.v 1) (.v 2) (some .rz) (some .fp16) 1)]

theorem test_lane_words_decode : allDecode laneWords = true := by decide +kernel

/-- Words of the memory family, from Tables 4.4 to 4.8. -/
def memoryWords : List (Nat × Instr) := [
  (0x8000012294000040, .ld noCtl (.s 9) (.s 10) 64 .d false (some .field)),
  (0x8100012285800305, .ldx noCtl (.s 9) (.s 10) (.s 11) 3 .b true none),
  (0x82000122ADFFFFFC, .st noCtl (.s 9) (.s 10) (-4) .w (some .system)),
  (0x8300052283000080, .ldv noCtl (.v 9) (.s 10) 128 .h true),
  (0x8400052281800000, .stv noCtl (.v 9) (.s 10) 0 .d),
  (0x8500052295800700, .ldg noCtl (.v 9) (.s 10) (.v 11) 7 .w false),
  (0x8600000295AC0101, .stsc noCtl (.s 10) (.v 11) (.v 12) 1 .b),
  (0x8700000280800000, .pref noCtl (.s 10) 0 true),
  (0x880001228580809F, .aop noCtl (.s 9) (.s 10) (.s 11) .swap .acqRel .module true true),
  (0x89000122858C0028, .acas noCtl (.s 9) (.s 10) (.s 11) (.s 12) .acquire .tile false false),
  (0x8A00012285800070, .afadd noCtl (.s 9) (.s 10) (.s 11) .release .sector false),
  (0x8B00000285800040, .cadd noCtl (.s 10) (.s 11) .field),
  (0x8C00012306800080, .cwait noCtl (.s 9) (.s 12) (.s 13) .module),
  (0x8D00082306800028, .ctest noCtl (.p 1) (.s 12) (.s 13) true .tile),
  (0x8E00000000000080, .fence noCtl .seq .module)]

theorem test_memory_words_decode : allDecode memoryWords = true := by decide +kernel

/-- Words of the strand and group family, from Tables 10.2, 16.3 to 16.9. -/
def strandAndGroupWords : List (Nat × Instr) := [
  (0xA000000000000000, .split noCtl),
  (0xA100024000000000, .join noCtl (.s 18)),
  (0xA2000122858C0000, .spawn noCtl (.s 9) (.s 10) (.s 11) (.s 12)),
  (0xA300000000000000, .yieldOp noCtl),
  (0xA400000000000000, .endOp noCtl),
  (0xA5000122858C003F, .send noCtl (.s 9) (.s 10) (.s 11) (.s 12) 63),
  (0xA600012285800000, .gcreate noCtl (.s 9) (.s 10) (.s 11)),
  (0xA700012285800000, .gopen noCtl (.s 9) (.s 10) (.s 11)),
  (0xA80009E000000000, .gleave noCtl (.h 7)),
  (0xA904035200000001, .gbar guard4 (.s 26) (.h 0) true),
  (0xAA05001200000000, .garrive guard5 (.h 0)),
  (0xAB00092000000000, .gdrop noCtl (.h 1)),
  (0xAC00013261000000, .gvote noCtl (.s 9) (.h 1) (.p 2)),
  (0xAD00029209800000, .gred noCtl (.s 20) (.h 0) (.s 19) 0),
  (0xAE00013240000006, .ginfo noCtl (.s 9) (.h 1) 6)]

theorem test_strand_and_group_words_decode : allDecode strandAndGroupWords = true := by decide +kernel

/-- Words of the token, tensor and copy family, from Tables 17.2, 11.5, 11.7. -/
def tokenTensorAndCopyWords : List (Nat × Instr) := [
  (0xB000026480000001, .treq noCtl (.s 19) (.s 18) true),
  (0xB100012280000000, .trel noCtl (.s 9) (.s 10)),
  (0xB20002C50A800000, .tlend noCtl (.s 22) (.s 20) (.s 21)),
  (0xB300012000000008, .tstat noCtl (.s 9) 8),
  (0xB400000004800403, .tdef noCtl (.lit 3) (.s 9)),
  (0xB500000284800000, .tget noCtl (.reg (.s 10)) (.s 9)),
  (0xB6000000000007FF, .tdrop noCtl (.lit 1023)),
  (0xB800000580000020, .copy noCtl (.s 22) .tile),
  (0xB9000002858C0080, .copys noCtl (.s 10) (.s 11) (.s 12) .module)]

theorem test_token_tensor_and_copy_words_decode : allDecode tokenTensorAndCopyWords = true := by decide +kernel

/-- Words of the engine family, from Tables 12.7, 13.5, 14.2, R540. -/
def engineWords : List (Nat × Instr) := [
  (0xC00000050000A030, .mm noCtl (.s 20) 5 6 false),
  (0xC10000050000A031, .mmdist noCtl (.s 20) 5 6 true),
  (0xC20000050A80A031, .mmtopk noCtl (.s 20) (.s 21) 5 6 true),
  (0xC800042000002010, .spcomp noCtl (.v 1) 1 2),
  (0xC900000510804018, .spmm noCtl (.s 20) (.v 1) 2 3 false),
  (0xD00002854B006010, .attn noCtl (.s 20) (.s 21) (.s 22) 3 2 false),
  (0xD10000070E80A038, .attmerge noCtl (.s 28) (.s 29) 5 7),
  (0xD200012000002010, .kvapp noCtl (.s 9) 1 2),
  (0xD300052285802001, .kvlook noCtl (.v 9) (.s 10) (.s 11) 1 true),
  (0xD80000048000C000, .ttset noCtl (.s 18) 6),
  (0xD900052280000000, .ttmask noCtl (.v 9) (.s 10)),
  (0xDA00052280000001, .ttpos noCtl (.v 9) (.s 10) true),
  (0xDB000305C0004000, .ttprune noCtl (.s 24) (.s 23) 2 false),
  (0xDC00000000000000, .ttclr noCtl),
  (0xE000000285802000, .vemap noCtl (.s 10) (.s 11) 1),
  (0xE100000285802010, .vezip noCtl (.s 10) (.s 11) 1 2),
  (0xE200000285802001, .vered noCtl (.s 10) (.s 11) 1 true),
  (0xE300000285802013, .venorm noCtl (.s 10) (.s 11) 1 (some 2) true),
  (0xE40000050A80E000, .vesoft noCtl (.s 20) (.s 21) 7),
  (0xE500000280002005, .vecvt noCtl (.s 10) 1 (some .rna)),
  (0xEC00028540012050, .baddq noCtl (.s 20) (.s 21) 9 10 false),
  (0xED00012000000000, .gwnext noCtl (.s 9))]

theorem test_engine_words_decode : allDecode engineWords = true := by decide +kernel

/-- Words of the system family, from Tables 1.5, 6.4, R178, R181, R182, R392, R402, R403, R509. -/
def systemWords : List (Nat × Instr) := [
  (0xF000012000000100, .mfs noCtl (.s 9) 0x100),
  (0xF000020000000105, .readDroopcntCecnt noCtl (.s 16) false),
  (0xF000012000000106, .readDroopcntCecnt noCtl (.s 9) true),
  (0xF100000240000001, .mts noCtl 0x001 (.s 9)),
  (0xF100000240000009, .writeClass noCtl (.s 9)),
  (0xF100000240000004, .writeFpst noCtl (.s 9)),
  (0xF100000240000007, .writeRsp noCtl (.s 9)),
  (0xF100000240000000, .writeStatus noCtl (.s 9)),
  (0xF100000240000104, .writeDroopth noCtl (.s 9)),
  (0xF100000240000107, .writeCpwt noCtl (.s 9)),
  (0xF200000000000011, .trap noCtl 17),
  (0xF40000000000FFFF, .brk noCtl 0xFFFF),
  (0xF300000387800000, .rft noCtl (.s 14) (.s 15)),
  (0xF500000000000000, .halt noCtl),
  (0xF67A000000000000, .nop retUnless2),
  (0xF800020449000000, .tgen noCtl (.s 16) (.s 17) (.s 18)),
  (0xF900000000000000, .cinvCode noCtl),
  (0xF900000240000001, .cinvLine noCtl (.s 9)),
  (0xF900000240000002, .cinvRdc noCtl (.s 9)),
  (0xFA00000240000000, .scrub noCtl (.s 9)),
  (0xFB00020440000003, .route noCtl (.s 16) (.s 17) .bulk),
  (0x2600000000000000, .unassignedOpcode 0x2600000000000000)]

theorem test_system_words_decode : allDecode systemWords = true := by decide +kernel
/-! ### Ill-formed terms -/

/-- A word of an assigned opcode in the place of an unassigned one; EITHER on a word that writes no predicate, with a
guard, and with the negate bit (R69). -/
def badSeq : List Instr := [
  .unassignedOpcode 0, .addR eitherCtl (.s 9) (.s 10) (.s 11) full,
  .cmpR { eitherCtl with gp := 1 } (.p 2) (.s 9) (.s 10) .full .lt, .cmpR { eitherCtl with neg := true } (.p 2) (.s 9) (.s 10) .full .lt,
  .cmpR eitherCtl (.s 2) (.s 9) (.s 10) .full .lt, .pany eitherCtl (.s 2) (.p 1) none, .ctest eitherCtl (.s 9) (.s 10) (.s 0) false .tile,
  .movR eitherCtl (.s 9) (.s 10) false]

/-- A field or modifier that the description of each does not list (rank 3), just past its range where it has one. -/
def badFields : List Instr := [
  .addR { noCtl with la := 1 } (.s 9) (.s 10) (.s 11) full, .sext noCtl (.s 9) (.s 10) .b64, .zext noCtl (.v 9) (.s 10) .b32,
  .bfx noCtl (.s 9) (.s 10) full 1 63, .bfi noCtl (.s 9) (.s 10) (.s 11) sx8 4 4, .movR noCtl (.s 9) (.s 10) true, .movw noCtl (.v 1) 2 0,
  .plog noCtl (.p 1) (some (.s 0)) none none 0, .pany noCtl (.s 9) (.p 1) (some (.s 0)), .pall noCtl (.s 9) (.p 1) (some (.s 0)),
  .pcount noCtl (.s 9) (.p 1) (some (.s 0)), .viota noCtl (.v 1) (some (.s 0)) false,
  .fadd noCtl (.s 9) (.s 10) (.s 11) none (some .e4m3), .fma noCtl (.s 9) (.s 10) (.s 11) (.s 12) none (some .e5m2),
  .fsqrt noCtl (.s 9) (.s 10) none (some .e4m3), .ftanh noCtl (.s 9) (.s 10) (some .e5m2), .fmin noCtl (.s 9) (.s 10) (.s 11) (some .e4m3),
  .fabs noCtl (.s 9) (.s 10) (some .e4m3), .fcmp noCtl (.s 9) (.s 10) (.s 11) (some .e4m3) .eq,
  .ftoi noCtl (.s 9) (.s 10) none (some .e5m2) .full false, .vshuf noCtl (.v 1) (.v 2) (.xor 32) true,
  .vred noCtl (.s 9) (.v 1) .fadd none sx8, .vred noCtl (.s 9) (.v 1) .add (some .rne) full, .vscan noCtl (.v 9) (.v 1) .fmin none false .b16,
  .bquant noCtl (.v 1) (.v 2) (some .fp64) 0, .bdeq noCtl (.v 1) (.v 2) none (some .fp64) 0, .ldv noCtl (.v 1) (.s 9) 0 .w true,
  .ldg noCtl (.v 1) (.s 9) (.v 2) 0 .d true, .aop noCtl (.s 9) (.s 10) (.s 11) .add .relaxed .strand false false,
  .acas noCtl (.s 9) (.s 10) (.s 11) (.s 12) .relaxed .strand false false, .afadd noCtl (.s 9) (.s 10) (.s 11) .relaxed .strand false,
  .cadd noCtl (.s 9) (.s 10) .strand, .cwait noCtl (.s 9) (.s 10) (.s 11) .strand, .ctest noCtl (.s 9) (.s 10) (.s 11) false .tile,
  .copy noCtl (.s 9) .strand, .copys noCtl (.s 9) (.s 10) (.s 11) .strand, .join { noCtl with gp := 1 } (.s 9), .endOp loopCtl, .trap loopCtl 0,
  .brk loopCtl 0, .rft loopCtl (.s 14) (.s 15), .mfs noCtl (.s 9) 0x105, .mts noCtl 0x000 (.s 9), .mts noCtl 0x107 (.s 9)]

/-- An operand of a class that its position does not accept (rank 4), at least one for each check. -/
def badOperands : List Instr := [
  .addR noCtl (.s 9) (.v 1) (.s 10) full, .addR noCtl (.v 9) (.s 1) (.h 1) full, .addI noCtl (.p 1) (.s 10) 0, .clz noCtl (.s 9) (.p 1) full,
  .movR noCtl (.s 9) (.v 1) false, .movR noCtl (.h 1) (.s 1) false, .movI noCtl (.p 1) 0, .movw noCtl (.h 1) 0 0,
  .sel noCtl (.s 9) (.s 10) (.s 11) (.s 12) full, .cmpR noCtl (.s 9) (.v 1) (.v 2) .full .eq, .cmpI noCtl (.v 9) (.s 1) .eq 0,
  .plog noCtl (.s 9) none none none 0, .pany noCtl (.s 9) (.v 1) none, .pcount noCtl (.p 1) (.s 9) none,
  .fma noCtl (.s 9) (.s 10) (.s 11) (.v 1) none none, .fsqrt noCtl (.p 1) (.s 9) none none, .fcmp noCtl (.v 9) (.s 1) (.s 2) none .eq,
  .vbcast noCtl (.v 1) (.v 2) (.v 3) false, .vshuf noCtl (.v 1) (.v 2) (.unze (.s 1)) false, .vperm noCtl (.v 1) (.v 2) (.v 3) (.s 4) false,
  .vslide noCtl (.v 1) (.v 2) (.v 3) (.v 4) true false, .vextr noCtl (.v 1) (.v 2) (.s 3) false false, .vins noCtl (.v 1) (.v 2) (.s 3) false,
  .vred noCtl (.v 1) (.v 2) .add none full, .vscan noCtl (.s 9) (.v 2) .add none false .full, .vcompress noCtl (.s 9) (.v 1) false,
  .viota noCtl (.s 9) none false, .bquant noCtl (.s 9) (.v 1) none 0, .bdeq noCtl (.v 1) (.s 9) none none 0, .ld noCtl (.v 1) (.s 9) 0 .d false none,
  .ldx noCtl (.s 9) (.s 10) (.v 1) 0 .d false none, .st noCtl (.p 1) (.s 9) 0 .d none, .ldv noCtl (.s 9) (.s 10) 0 .w false,
  .stv noCtl (.s 9) (.s 10) 0 .w, .ldg noCtl (.v 1) (.s 9) (.s 10) 0 .w false, .stsc noCtl (.s 9) (.v 1) (.s 10) 0 .w, .pref noCtl (.v 1) 0 false,
  .aop noCtl (.s 9) (.v 1) (.s 10) .add .relaxed .tile false false, .acas noCtl (.s 9) (.s 10) (.s 11) (.p 1) .relaxed .tile false false,
  .cadd noCtl (.p 1) (.s 9) .tile, .ctest noCtl (.v 1) (.s 9) (.s 0) false .tile, .join noCtl (.p 1), .spawn noCtl (.s 9) (.s 10) (.h 1) (.s 11),
  .send noCtl (.v 1) (.s 9) (.s 10) (.s 11) 0, .gcreate noCtl (.s 9) (.h 1) (.s 10), .gleave noCtl (.s 9), .gbar noCtl (.s 9) (.s 10) false,
  .garrive noCtl (.s 9), .gvote noCtl (.s 9) (.h 1) (.s 10), .gred noCtl (.s 9) (.h 1) (.p 1) 0, .ginfo noCtl (.p 1) (.h 1) 0,
  .treq noCtl (.p 1) (.s 9) false, .tlend noCtl (.s 9) (.v 1) (.s 10), .tstat noCtl (.v 1) 0, .tdef noCtl (.reg (.v 1)) (.s 9),
  .tget noCtl (.lit 1) (.p 1), .tdrop noCtl (.reg (.p 1)), .copy noCtl (.v 1) .tile, .copys noCtl (.s 9) (.s 10) (.v 1) .tile,
  .mm noCtl (.v 1) 1 2 false, .mmtopk noCtl (.s 9) (.v 1) 1 2 false, .spcomp noCtl (.s 9) 1 2, .spmm noCtl (.s 9) (.s 10) 1 2 false,
  .attn noCtl (.s 9) (.s 10) (.v 1) 1 2 false, .attmerge noCtl (.v 1) (.s 9) 1 2, .kvapp noCtl (.v 1) 1 2, .kvlook noCtl (.s 9) (.s 10) (.s 11) 1 false,
  .ttset noCtl (.v 1) 1, .ttmask noCtl (.s 9) (.s 10), .ttpos noCtl (.v 1) (.v 2) false, .ttprune noCtl (.v 1) (.s 9) 1 false,
  .vemap noCtl (.s 9) (.v 1) 1, .vezip noCtl (.v 1) (.s 9) 1 2, .venorm noCtl (.s 9) (.p 1) 1 none false, .vecvt noCtl (.v 1) 1 none,
  .baddq noCtl (.v 1) (.s 9) 1 2 false, .gwnext noCtl (.p 1), .mfs noCtl (.v 1) 0x100, .mts noCtl 0x001 (.p 1), .writeClass noCtl (.v 1),
  .readDroopcntCecnt noCtl (.p 1) false, .rft noCtl (.v 1) (.s 15), .tgen noCtl (.s 9) (.s 10) (.v 1), .cinvLine noCtl (.h 1), .scrub noCtl (.v 1),
  .route noCtl (.s 9) (.p 1) .req]

theorem test_ill_formed_selectors_are_refused : badSeq.all (fun i => !WellFormed .empty i) = true := by decide +kernel

theorem test_ill_formed_fields_are_refused :
    badFields.all (fun i => i.seqOk .empty && !i.fieldsOk .empty && !WellFormed .empty i) = true := by decide +kernel

theorem test_ill_formed_operands_are_refused :
    badOperands.all (fun i => i.seqOk .empty && i.fieldsOk .empty && !i.operandsOk .empty && !WellFormed .empty i) = true := by decide +kernel

/-- Codes 81 to 127, a scope of .strand, a width of 5, a condition of 12, SEQ 9 and a reserved bit are refused. -/
theorem test_reserved_encodings_are_refused :
    [0x00000A2404000000, 0x00000FE404000000, 0x8C00012306800000, 0x0000020404000005, 0x24000842450000C0, 0x0090020404000000,
      0x0000020404010000, 0xF900000000000003, 0xFB00020440000005].all (fun w => decodeTableWord 64 w == none) = true := by
  decide +kernel

/-- With L holding a vector, code 80 is lane-wise (R88, Table 3.5): MOV from it to s9 is refused, and with L a scalar it is not. -/
theorem test_the_latch_class_decides_what_code_80_is :
    WellFormed .vector (.movR noCtl (.s 9) .latch false) = false ∧ WellFormed .scalar (.movR noCtl (.s 9) .latch false) = true ∧
      WellFormed .vector (.movR noCtl (.v 9) .latch true) = true := by decide +kernel

/-! ### Running a word -/

def uid : Nat := State.reset.nextUid

/-- The state in which the word `w` is the next one (log 19), with its strand and the state set up as asked. -/
def probe (w : Nat) (f : Strand → Strand := id) (g : State → State := id) : State :=
  g ((State.reset.withFetchWord 64 w).modStrand uid f)

/-- The state in which the word that encodes `i` is the next one. -/
def probeOf (i : Instr) (f : Strand → Strand := id) (g : State → State := id) : State := probe (encodeWord i).toNat f g

def setS (n : Fin 32) (x : Word) (t : Strand) : Strand := t.writeS n x

def envOf (s : State) (i : Instr) : Option Env := s.envAt s.cur i (i.ctl.getD noCtl)

/-- `Issues`, as a computation. -/
def issues (s : State) (i : Instr) : Bool :=
  (envOf s i).any fun e => !e.waits s i && (e.decodeFault i).isNone && (e.cond || e.lane) && !e.deferred i

/-- A word that `issues` says issues meets the premise of the statements. -/
theorem issues_spec {s : State} {i : Instr} (h : issues s i = true) :
    ∃ e, envOf s i = some e ∧ Issues s i (i.ctl.getD noCtl) e := by
  unfold issues at h
  cases he : envOf s i with
  | none => simp [he] at h
  | some e =>
    simp only [he, Option.any_some, Bool.and_eq_true, Bool.not_eq_true', Option.isNone_iff_eq_none] at h
    exact ⟨e, rfl, he, h.1.1.1, h.1.1.2, h.1.2, h.2⟩

/-- What holds after `i` has been carried out. -/
def after (i : Instr) (s : State) (p : State → Bool) : Bool :=
  match exec i s with
  | .next t => p t
  | _ => false

/-- The strand of the probe, and its slot. -/
def strandOf (s : State) (p : Strand → Bool) : Bool := (tget s.strands uid).any p
def slotOf (s : State) (p : Slot → Bool) : Bool := (tget s.slots s.cur).any p

/-- The word `i` issues and completes: its strand stands at another word and is not held; `p` holds of it. -/
def completes (s : State) (i : Instr) (p : Strand → Bool := fun _ => true) : Bool :=
  issues s i && after i s fun t => slotOf t (·.hold.isNone) && strandOf t fun x => x.widx != 1 && p x

/-- The word `i` issues and its strand takes the fault `c` with `v` in TVAL. -/
def faults (s : State) (i : Instr) (c : FaultCode) (v : Word) : Bool :=
  issues s i && after i s fun t => slotOf t (·.hold == some .fault) && strandOf t fun x => bits x.cause 4 0 == c.num && x.tval == v

/-- The word `i` issues and leaves its strand suspended for `k`. -/
def suspends (s : State) (i : Instr) (k : WaitKind) : Bool :=
  issues s i && after i s fun t => slotOf t (·.hold == some .save) && strandOf t fun x => x.waitK == k

/-- The state after `i`, with its strand at word 1 again; the old state where `i` does not complete. -/
def done (i : Instr) (s : State) : State :=
  match exec i s with
  | .next t => t.modStrand uid fun x => { x with widx := 1 }
  | _ => s

/-! ### Register words -/

def operands (t : Strand) : Strand := setS 10 0x80 (setS 11 0xFF (setS 16 5 (setS 8 8 (setS 6 4 t))))


/-! ### Memory, strands and groups -/

/-- A page of the probe that holds data, and registers that name places in it. -/
def data : Word := 0x8000000000102000
def bases (t : Strand) : Strand := setS 10 data (setS 12 data (setS 11 8 t))

/-- The dword `x` stands at the address `a` of the probe. -/
def dword (a x : Word) (s : State) : State := { s with mem := Mem.write s.mem (a.toNat % 2 ^ 21) (bytesOf 8 x.toNat) }

/-- The partition's save arena has room. -/
def withArena (s : State) : State := s.modPart 0 fun p => { p with free := [(0x70040, 0x8000)] }

/-- The strand stands on the first slot of tile `n` of field 0, which is lit and has a grant. -/
def onTile (n : Nat) (s : State) : State :=
  let s1 := s.modStrand uid fun t => { t with home := n, place := .slot (64 * n), cls := 7 }
  ({ s1 with slots := s1.slots.map fun (e : Nat × Slot) => (64 * n, e.2), cur := 64 * n }).modTile n fun t =>
    { t with lit := true, grant := 256 }

/-! ### Tensors -/

/-- A descriptor: CTL, BASE, SCALE, EXT01, EXT23, STR1, STR2, and the three dwords of KSPEC at +0x40, +0x48 and +0x50. -/
def entry (ctl base scale ext01 ext23 str1 str2 k0 k1 k2 : Word) : Entry :=
  #v[ctl, base, scale, ext01, ext23, str1, str2, 0, k0, k1, k2, 0, 0, 0, 0, 0]

/-- A PLAIN tensor of rank 2. -/
def matrix (fmt : Nat) (ext0 ext1 : Nat) (base str1 : Word) : Entry :=
  entry (BitVec.ofNat 64 (0x10001 + 256 * fmt)) base 0 (BitVec.ofNat 64 (ext1 * 2 ^ 32 + ext0)) 0x100000001 str1 0 0 0 0

def place (n : Nat) : Word := 0x8000000000140000 + BitVec.ofNat 64 n

/-- The tensors of the tests, among them those of the worked example of chapter 13 (t1 to t6 there), with BFP8 blocks at t9, a
and the operands and results of the matrix and vector engines from t10 on. -/
def tensors : List (Nat × Entry) := [
  (1, entry 0x20002 0 0 0x10000000020 0x100000002 256 128 0x10000000000 0 (place 0x800)),
  (2, entry 0x20003 (place 0x1000) 0 0x800000020 0x100000002 128 1024 0x10000 0 0),
  (3, matrix 0 32 8 (place 0x1800) 128), (4, matrix 0 32 8 (place 0x1C00) 128), (5, matrix 0 2 8 (place 0x2000) 8),
  (6, entry 0x701 (place 0x2100) 0 0x100000008 0x100000001 0 0 0 0 0),
  (7, entry 0x20001 (place 0x2200) 0 0x100000020 0x100000002 128 128 0 0 0),
  (8, matrix 0 8 8 (place 0x2400) 32), (9, entry 0x800B01 (place 0x2600) (place 0x2700) 0x100000020 0x100000001 0 0 0 0 0),
  (10, matrix 9 2 8 (place 0x2800) 8), (11, matrix 0 2 8 (place 0x2900) 8), (12, matrix 6 32 2 (place 0x2A00) 32),
  (13, matrix 0 2 2 (place 0x2B00) 8), (14, matrix 0 32 1 (place 0x2C00) 128), (15, matrix 0 1 8 (place 0x2E00) 4),
  (16, matrix 0 1 2 (place 0x2F00) 4),
  (17, matrix 0 2 1 (place 0x2D00) 8)]

/-- A tree of eight candidates whose parents the example of chapter 13 gives, owned by the context. -/
def tree8 : Tree := { valid := true, owner := 1, part := 0, tser := 0, basepos := 2, par := [0, 0, 0, 1, 1, 2, 3, 5] }

/-- The context has the tensors; the sequence has two positions, its first page at K0. -/
def withTensors (s : State) : State :=
  (dword (place 0x2100) 0x0503020101000000 (dword (place 0x840) 0x8000000000150000 (dword (place 0x800) 2 s))).modPart 0 fun p =>
    { p with tensors := [(1, tensors)] }

def onEngine (n : Nat) (s : State) : State := (withTensors (onTile n s)).setTree n 0 tree8

/-! ### Witnesses of the statements about words

Each list holds, for the clauses of one statement, a state and a word that meet the clause's premises. -/

/-- The lane-wise word of the example of chapter 8, with no lookahead window. -/
def vredNow : Instr := .vred { noCtl with gp := 1 } (.s 20) (.v 4) .fadd none full

/-- v4 and p1 of that example: 2^24, 1, 1, 1 and 2 in every other lane, lanes 0 to 3 on. -/
def vredRegs (t : Strand) : Strand :=
  { (t.putV (.v 4) (ofElems (0x4B800000 :: 0x3F800000 :: 0x3F800000 :: 0x3F800000 :: List.replicate 60 0x40000000) false)) with
    p := t.p.set 1 0xF }

/-- arithmetic_, logic_and_shift_, bit_count_and_field_, division_, compare_, moves_, predicate_, float_arithmetic_,
approximated_, float_sign_and_class_, float_compare_and_convert_, lane_, reductions_ and block_words: every form in some shape. -/
theorem test_register_words_issue_and_complete :
    (arithmeticWords ++ logicWords ++ movesWords).all (fun p => completes (probe p.1 operands) p.2) = true ∧
      (floatWords ++ laneWords).all (fun p => p.1 == 0x7A01128900008000 || completes (probe p.1 operands) p.2) = true := by
  decide +kernel

/-- rounding_keeps_representable_values: 1.5 in FP16. -/
theorem test_a_representable_value : readFp .fp16 0x3E00 = .fin false 0x600 (-10) ∧ roundTo .fp16 .rup false false 0x600 1 (-10) = (0x3E00, 0) := by
  decide +kernel

def reads : List (BitVec 12) := [0x000, 0x001, 0x002, 0x003, 0x004, 0x005, 0x006, 0x007, 0x008, 0x009, 0x00A, 0x00B, 0x00C, 0x010, 0x100, 0x101,
  0x102, 0x103, 0x104, 0x107, 0x108, 0x200, 0x201, 0x300, 0x301, 0x302, 0x303, 0x304, 0x305, 0x306, 0x308, 0x30F]

/-- The strand in user mode: its block stands in the user half. -/
def asUser (t : Strand) : Strand := { t with hdr := 0x0000000000100000 }

/-- special_registers_read_their_contents: every number, in supervisor mode; the row of its own; PRIV in user mode. -/
theorem test_special_registers_are_read :
    reads.all (fun n => completes (probeOf (.mfs noCtl (.s 9) n)) (.mfs noCtl (.s 9) n)) = true ∧
      completes (probeOf (.readDroopcntCecnt noCtl (.s 9) true)) (.readDroopcntCecnt noCtl (.s 9) true) = true ∧
      completes (probeOf (.readDroopcntCecnt noCtl (.s 9) false)) (.readDroopcntCecnt noCtl (.s 9) false) = true ∧
      (let i := Instr.mfs noCtl (.s 9) 0x300
       faults (probeOf i asUser) i .priv (encodeWord i)) = true := by decide +kernel

def writes : List Instr := [.mts noCtl 0x001 (.s 9), .mts noCtl 0x002 (.s 9), .mts noCtl 0x003 (.s 9), .mts noCtl 0x00A (.s 9),
  .mts noCtl 0x00B (.s 9), .writeFpst noCtl (.s 9), .writeRsp noCtl (.s 9), .writeClass noCtl (.s 9), .writeStatus noCtl (.s 9),
  .writeDroopth noCtl (.s 9), .writeCpwt noCtl (.s 9)]

/-- special_registers_take_what_is_written: every row; PRIV in user mode, of a class too high, ALIGN of an RSP. -/
theorem test_special_registers_are_written :
    writes.all (fun i => completes (probeOf i) i) = true ∧
      faults (probeOf (.mts noCtl 0x001 (.s 9)) asUser) (.mts noCtl 0x001 (.s 9)) .priv (encodeWord (.mts noCtl 0x001 (.s 9))) = true ∧
      faults (probeOf (.writeClass noCtl (.s 9)) (setS 9 1)) (.writeClass noCtl (.s 9)) .priv (encodeWord (.writeClass noCtl (.s 9))) = true ∧
      faults (probeOf (.writeRsp noCtl (.s 9)) (setS 9 64)) (.writeRsp noCtl (.s 9)) .align 64 = true := by decide +kernel

/-- The partition of the probe, changed. -/
def part0 (f : Partition → Partition) (s : State) : State := s.modPart 0 f

/-- traps_enter_the_handler: TRAP 17 of chapter 6 writes CAUSE 0x110080 and its word, and enters TVEC; BRK its KIND; PRIV with a
handler in the user half. -/
theorem test_traps_enter_the_handler :
    completes (probeOf (.trap noCtl 17)) (.trap noCtl 17) (fun t => t.cause == 0x110080 && t.tval == 0xF200000000000011 &&
      t.tpc == probeHdr + 8 && t.hdr == 0x8000000000100000 && t.widx == 0 && t.readS 13 == 0x110080 && t.readS 14 == probeHdr && t.fres == 1) = true ∧
      completes (probeOf (.brk noCtl 1)) (.brk noCtl 1) (fun t => t.cause == 0x100C0) = true ∧
      faults (probeOf (.trap noCtl 17) id (part0 fun p => { p with tvec := 0x4000 })) (.trap noCtl 17) .priv 0xF200000000000011 = true := by
  decide +kernel

def rft : Instr := .rft noCtl (.s 14) (.s 15)
def rftRegs (x y : Word) (t : Strand) : Strand := setS 14 x (setS 15 y { t with fres := 1 })

/-- return_from_trap_resumes_after_the_trapping_word: after word 2, after the last word of 63, and the three faults at the ends
of their ranges. -/
theorem test_a_return_from_trap_resumes :
    completes (probeOf rft (rftRegs probeHdr (probeHdr + 16))) rft (fun t => t.hdr == probeHdr && t.widx == 3) = true ∧
      completes (probeOf rft (rftRegs probeHdr (probeHdr + 504))) rft (fun t => t.hdr == probeHdr + 512 && t.widx == 0) = true ∧
      faults (probeOf rft (rftRegs (probeHdr + 1) (probeHdr + 16))) rft .align (probeHdr + 1) = true ∧
      faults (probeOf rft (rftRegs probeHdr (probeHdr + 17))) rft .align (probeHdr + 17) = true ∧
      faults (probeOf rft (rftRegs probeHdr probeHdr)) rft .illop (encodeWord rft) = true ∧
      faults (probeOf rft (rftRegs probeHdr (probeHdr + 512))) rft .illop (encodeWord rft) = true := by decide +kernel

/-- scalar_loads_, vector_loads_, stores_, atomics_, counter_words_ and fences_: each form completes. -/
theorem test_memory_words_issue_and_complete : memoryWords.all (fun p => completes (probe p.1 bases) p.2) = true := by decide +kernel

/-- A load gives the bytes in little-endian order, and one that is not aligned raises ALIGN; a vector load with every lane off does
nothing. -/
theorem test_loads_read_the_bytes :
    completes (probeOf (.ld noCtl (.s 9) (.s 10) 4 .w true none) bases (dword data 0x8899AABBCCDDEEFF)) (.ld noCtl (.s 9) (.s 10) 4 .w true none)
      (fun t => t.readS 9 == 0xFFFFFFFF8899AABB) = true ∧
      faults (probeOf (.ld noCtl (.s 9) (.s 10) 1 .w true none) bases) (.ld noCtl (.s 9) (.s 10) 1 .w true none) .align (data + 1) = true ∧
      completes (probeOf (.ldv { noCtl with neg := true } (.v 9) (.s 10) 0 .w false) bases) (.ldv { noCtl with neg := true } (.v 9) (.s 10) 0 .w false) = true := by
  decide +kernel

def stD : Instr := .st noCtl (.s 9) (.s 10) 0 .d none
def fullBuffer (s : State) : State := s.modSlot 0 fun sl => { sl with buf := List.replicate 32 (.cadd data 0x102000 1) }

/-- stores_are_posted_or_performed: a store to a full buffer stalls. -/
theorem test_a_store_to_a_full_buffer_stalls :
    (issues (probeOf stD bases fullBuffer) stD && after stD (probeOf stD bases fullBuffer) fun t => slotOf t (·.stalled)) = true := by decide +kernel

def cwait : Instr := .cwait noCtl (.s 9) (.s 12) (.s 13) .module
def pad : Word := 0x7E00000000000000

/-- counter_words_add_wait_and_test: a threshold not yet met suspends with a monitor entry; a scratchpad raises BADADDR. -/
theorem test_a_wait_below_its_threshold_suspends :
    suspends (probeOf cwait fun t => setS 13 3 (bases t)) cwait .cwaitMon = true ∧
      faults (probeOf cwait (setS 12 pad)) cwait .badaddr pad = true ∧
      faults (probeOf (.cadd noCtl (.s 10) (.s 11) .field) (setS 10 pad)) (.cadd noCtl (.s 10) (.s 11) .field) .badaddr pad = true := by decide +kernel

def nopOf (q : Seq) : Instr := .nop { noCtl with seq := q }

/-- A header with LEN = 2, every scalar live, T0 = 0 and T1 = 1. -/
def withHeader (t : Strand) : Strand := { t with header := 0xFF0BFC0000001000 }

/-- sequencing_follows_seq: every selector, the last word of a block, a guard that is off, and the faults of a target. -/
theorem test_sequencing_goes_where_seq_says :
    completes (probeOf (nopOf .next) withHeader) (nopOf .next) (fun t => t.widx == 2) = true ∧
      completes (probeOf (nopOf .next) fun t => { withHeader t with widx := 2 }) (nopOf .next) (fun t => t.hdr == probeHdr + 24 && t.widx == 0) = true ∧
      completes (probeOf (nopOf .t0) withHeader) (nopOf .t0) (fun t => t.hdr == probeHdr && t.widx == 0) = true ∧
      completes (probeOf (nopOf .t1) withHeader) (nopOf .t1) (fun t => t.hdr == probeHdr + 8 && t.widx == 0) = true ∧
      completes (probeOf (nopOf .goBt) (setS 7 data)) (nopOf .goBt) (fun t => t.hdr == data) = true ∧
      completes (probeOf (nopOf .loop) fun t => setS 6 1 (withHeader t)) (nopOf .loop) (fun t => t.widx == 2 && t.readS 6 == 0) = true ∧
      completes (probeOf (nopOf .callT0) withHeader) (nopOf .callT0) (fun t => t.readS 15 == probeHdr + 24 && t.fres == 1 && t.cwp == 1) = true ∧
      completes (probeOf (nopOf .callBt) fun t => setS 7 data (withHeader t)) (nopOf .callBt) (fun t => t.hdr == data) = true ∧
      completes (probeOf (nopOf .ret) fun t => setS 15 data { t with fres := 1 }) (nopOf .ret) (fun t => t.hdr == data && t.fres == 0 && t.cwp == 7) = true ∧
      faults (probeOf (nopOf .goBt) (setS 7 4)) (nopOf .goBt) .align 4 = true ∧
      faults (probeOf (nopOf .ret) fun t => setS 15 4 { t with fres := 1 }) (nopOf .ret) .align 4 = true ∧
      faults (probeOf (nopOf .goBt) fun t => asUser (setS 7 data t)) (nopOf .goBt) .access data = true := by decide +kernel

/-- The same, of a word whose guard is off: it only sequences. -/
theorem test_a_word_whose_guard_is_off_only_sequences :
    (let i := Instr.addR { noCtl with gp := 1 } (.s 9) (.s 10) (.s 11) full
     let s := probeOf i operands
     (envOf s i).any fun e => !e.waits s i && (e.decodeFault i).isNone && !(e.cond || e.lane) &&
       after i s fun t => strandOf t fun x => x.widx == 2 && x.readS 9 == 0) = true := by decide +kernel

def join : Instr := .join noCtl (.s 18)
def mode (m : FMode) (t : Strand) : Strand := { t with fmode := m }
def alone : State := (done join (probeOf join)).modStrand uid fun t => { t with hdr := probeHdr + 8, widx := 1 }

/-- split_and_join_leave_and_enter_the_stream: an unbound JOIN opens a stream, one on a gateway tile and a detached one are
MISSED, an attached lead goes on, SPLIT leaves the stream. -/
theorem test_strands_join_and_split :
    completes (probeOf join) join (fun t => t.fmode == .attached && t.readS 18 == 0) = true ∧
      completes (probeOf join id (onTile 12)) join (fun t => t.readS 18 == 4) = true ∧
      completes (probeOf join (mode .detached)) join (fun t => t.readS 18 == 4) = true ∧
      completes alone join (fun t => t.readS 18 == 0) = true ∧
      completes alone (.split noCtl) (fun t => t.fmode == .detached) = true ∧
      completes (probeOf (.split noCtl)) (.split noCtl) = true := by decide +kernel

def spawn : Instr := .spawn noCtl (.s 9) (.s 10) (.s 11) (.s 12)
def spawnRegs (t : Strand) : Strand := setS 10 probeHdr (setS 11 7 (setS 12 0x8000000000101080 t))
def send : Instr := .send noCtl (.s 9) (.s 10) (.s 11) (.s 12) 0
def sendRegs (t : Strand) : Strand := setS 10 0x40 (setS 11 data (setS 12 probeHdr t))
def poolFull (s : State) : State := s.modTile 0 fun t => { t with pool := List.replicate 128 99 }

/-- spawn_and_send_create_strands: with room, and a SPAWN and a SEND that find none and wait. -/
theorem test_strands_are_created :
    completes (probeOf spawn spawnRegs) spawn (fun t => t.readS 9 == 1) = true ∧
      (after spawn (probeOf spawn spawnRegs) fun t => (tget t.strands 2).any fun x => x.hdr == probeHdr && x.readS 8 == 7 && x.readS 9 == 1 &&
        x.place == .ready 0) = true ∧
      completes (probeOf send sendRegs withArena) send (fun t => t.readS 9 == 1) = true ∧
      (issues (probeOf spawn spawnRegs poolFull) spawn && after spawn (probeOf spawn spawnRegs poolFull) fun t => slotOf t (·.hold == some .creation)) = true ∧
      (issues (probeOf send sendRegs) send && after send (probeOf send sendRegs) fun t => slotOf t (·.hold == some .creation)) = true := by decide +kernel

/-- yield_and_end_give_up_the_slot. -/
theorem test_yield_and_end_give_up_the_slot :
    suspends (probeOf (.yieldOp noCtl)) (.yieldOp noCtl) .yield = true ∧
      (issues (probeOf (.endOp noCtl)) (.endOp noCtl) && after (.endOp noCtl) (probeOf (.endOp noCtl)) fun t => t.slots == [] && t.strands == []) = true := by
  decide +kernel

def groupRegs (t : Strand) : Strand := setS 10 0x5107 (setS 11 0x140 (setS 16 3 t))
def gcreate : Instr := .gcreate noCtl (.s 9) (.s 10) (.s 11)
def gopen : Instr := .gopen noCtl (.s 9) (.s 10) (.s 11)

/-- The strand is the only member of a group whose phase 1 has begun. -/
def member : State := done gcreate (probeOf gcreate groupRegs withArena)

/-- A second member is still to arrive. -/
def waiting : State := member.modField 0 fun x => { x with groups := x.groups.map fun (e : Nat × Group) => (e.1, { e.2 with memb := 2 }) }

/-- group_words_open_and_leave_groups: a new group, no such group, no free handle register, one that exists, leaving, reading,
and the two faults. -/
theorem test_groups_are_opened_and_left :
    completes (probeOf gcreate groupRegs withArena) gcreate (fun t => t.readS 9 == 0 && t.h[0].getLsbD 31) = true ∧
      completes (probeOf gopen groupRegs withArena) gopen (fun t => t.readS 9 == 0x201) = true ∧
      completes (probeOf gcreate (fun t => { groupRegs t with h := Vector.replicate 8 0x80000000 }) withArena) gcreate (fun t => t.readS 9 == 1) = true ∧
      completes member gopen (fun t => t.readS 9 == 0x1900) = true ∧
      [Instr.gleave noCtl (.h 0), .gdrop noCtl (.h 0), .ginfo noCtl (.s 9) (.h 0) 6].all (completes member ·) = true ∧
      faults (probeOf gcreate (setS 11 0x1000000)) gcreate .badaddr 0x1000000 = true ∧
      faults (probeOf (.garrive noCtl (.h 1))) (.garrive noCtl (.h 1)) .handle 0 = true ∧
      faults (probeOf (.gleave noCtl (.h 1))) (.gleave noCtl (.h 1)) .handle 0 = true := by decide +kernel

def arrivals : List Instr := [.gbar noCtl (.s 9) (.h 0) false, .gvote noCtl (.s 9) (.h 0) (.p 1), .gred noCtl (.s 9) (.h 0) (.s 16) 8,
  .garrive noCtl (.h 0), .gbar noCtl (.s 9) (.h 0) true]

/-- arrivals_count_and_wait_for_the_phase and a_group_phase_completes_once_all_have_arrived: the only member completes the phase;
with another still to arrive it waits, and a second arrival raises OVERARRIVE. -/
theorem test_arrivals_complete_or_wait :
    arrivals.all (completes member ·) = true ∧ (arrivals.take 3).all (suspends waiting · .group) = true ∧
      completes waiting (.garrive noCtl (.h 0)) = true ∧
      faults (done (.garrive noCtl (.h 0)) waiting) (.garrive noCtl (.h 0)) .overarrive 0x80000000 = true ∧
      suspends (done (.garrive noCtl (.h 0)) waiting) (.gbar noCtl (.s 9) (.h 0) true) .group = true := by decide +kernel

def tokenWords : List Instr := [.treq noCtl (.s 9) (.s 10) true, .trel noCtl (.s 9) (.s 10), .tlend noCtl (.s 9) (.s 11) (.s 10), .tstat noCtl (.s 9) 8]
def tokenRegs (n : Word) (t : Strand) : Strand := setS 10 n (setS 11 0x40 t)
def twoTiles (s : State) : State := (onTile 0 s).modTile 1 fun t => { t with lit := true, grant := 8 }

/-- token_words_move_tokens: with 0 and with 1 asked for, a dark borrower, and ENGINE on a gateway tile. -/
theorem test_token_words_complete :
    tokenWords.all (fun i => completes (probeOf i (tokenRegs 1) twoTiles) i) = true ∧
      tokenWords.all (fun i => completes (probeOf i (tokenRegs 0) twoTiles) i) = true ∧
      completes (probeOf tokenWords[2] (tokenRegs 1) (onTile 0)) tokenWords[2] (fun t => t.readS 9 == 0x302) = true ∧
      completes (probeOf tokenWords[2] (tokenRegs 300) twoTiles) tokenWords[2] (fun t => t.readS 9 == 2) = true ∧
      tokenWords.all (fun i => faults (probeOf i (tokenRegs 1) (onTile 12)) i .engine (encodeWord i)) = true := by decide +kernel

/-- A control block, or a descriptor, at the data page. -/
def block (l : List Word) (s : State) : State := l.zipIdx.foldl (fun s e => dword (data + BitVec.ofNat 64 (8 * e.2)) e.1 s) s

/-- The descriptor of t3 in the example of chapter 11. -/
def t3 : Entry := matrix 0 8 4 0x0200000000080000 32
def tdef : Instr := .tdef noCtl (.lit 3) (.s 12)
def tget3 : Instr := .tget noCtl (.lit 3) (.s 12)
def byReg : List Instr := [.tdef noCtl (.reg (.s 10)) (.s 12), .tget noCtl (.reg (.s 10)) (.s 12), .tdrop noCtl (.reg (.s 10))]

/-- tensor_words_define_read_and_drop_entries: a literal and a register, and the four faults, identifier 1024 the first too high. -/
theorem test_tensor_words_complete :
    completes (probeOf tdef bases fun s => block t3.toList (withArena s)) tdef = true ∧
      completes (probeOf tget3 bases withTensors) tget3 = true ∧
      completes (probeOf (.tdrop noCtl (.reg (.s 11))) bases withTensors) (.tdrop noCtl (.reg (.s 11))) = true ∧
      faults (probeOf tdef (setS 12 (data + 8))) tdef .align (data + 8) = true ∧ faults (probeOf tget3 (setS 12 (data + 8))) tget3 .align (data + 8) = true ∧
      faults (probeOf tdef bases (block (List.replicate 16 0))) tdef .tensor (encodeWord tdef) = true ∧
      byReg.all (fun i => faults (probeOf i fun t => setS 10 1024 (setS 12 data t)) i .tensor (encodeWord i)) = true := by decide +kernel

def copyRegs (t : Strand) : Strand := setS 10 3 (setS 11 4 (setS 12 data t))
def copy : Instr := .copy noCtl (.s 12) .tile
def copys : Instr := .copys noCtl (.s 10) (.s 11) (.s 12) .module
def scrub : Instr := .scrub noCtl (.s 12)
def copyBlock : List Word := [data + 0x100, data + 0x200, 8, data + 0x300, 1, 0, 0, 0]
def queueFull (c : CopyCmd) (s : State) : State := s.modTile 0 fun t => { t with copies := [(0, { cmds := List.replicate 16 c })] }

/-- The command that `copy` queues. -/
def queued : State := done copy (probeOf copy copyRegs (block copyBlock))
def firstCmd : Option CopyCmd := (tget (queued.tile 0).copies 0).bind (·.cmds.head?)

/-- copy_words_queue_a_command: each queues its command; a full queue makes it wait; SHP0 = 7 of chapter 11 raises TENSOR. -/
theorem test_copy_words_queue_a_command :
    completes (probeOf copy copyRegs (block copyBlock)) copy = true ∧ firstCmd.isSome = true ∧
      firstCmd.all (fun c => after copy (probeOf copy copyRegs fun s => queueFull c (block copyBlock s)) fun t => strandOf t (·.widx == 1)) = true ∧
      completes (probeOf copys copyRegs fun s => block [0x100000002, 0, 0, 0, 0x200000004, 0x100000001, 0, 0] (withTensors s)) copys = true ∧
      faults (probeOf copys copyRegs fun s => block [30, 0, 0, 0, 0x100000003, 0x100000001, 0, 0] (withTensors s)) copys .tensor (encodeWord copys) = true ∧
      completes (probeOf scrub copyRegs (block [0x110000, 0, 0, 0, 0, 0, 0, 0])) scrub = true := by decide +kernel

def engRegs (t : Strand) : Strand :=
  (setS 16 4 (setS 17 5 (setS 18 1 (setS 20 13 (setS 21 10 (setS 22 11 (setS 23 15 (setS 25 16 (setS 26 0x100000000 (setS 27 17 t)))))))))).putV (.v 1)
    0x0F0F0F0F0F0F0F0F

/-- The row-block instructions, with the tile of field 0 that each runs on. -/
def rowBlockWords : List (Nat × Instr) := [(0, .mm noCtl (.s 20) 12 12 false), (0, .mmdist noCtl (.s 20) 12 12 true),
  (0, .mmtopk noCtl (.s 21) (.s 22) 3 3 true), (5, .spmm noCtl (.s 25) (.v 1) 9 14 false), (8, .attn noCtl (.s 24) (.s 16) (.s 17) 3 2 false),
  (10, .vemap noCtl (.s 16) (.s 24) 3), (10, .vezip noCtl (.s 16) (.s 24) 3 3), (10, .vered noCtl (.s 23) (.s 24) 3 false),
  (10, .venorm noCtl (.s 16) (.s 24) 3 none true), (10, .vesoft noCtl (.s 16) (.s 24) 3), (10, .vecvt noCtl (.s 16) 3 none)]

/-- The words that an engine does at once. -/
def onceWords : List (Nat × Instr) := [(5, .spcomp noCtl (.v 1) 8 9), (8, .attmerge noCtl (.s 27) (.s 27) 14 14), (8, .kvapp noCtl (.s 9) 1 7),
  (8, .kvlook noCtl (.v 9) (.s 18) (.s 24) 1 true), (8, .ttset noCtl (.s 18) 6), (8, .ttmask noCtl (.v 9) (.s 24)), (8, .ttpos noCtl (.v 9) (.s 24) true),
  (8, .ttprune noCtl (.s 9) (.s 18) 2 true), (8, .ttclr noCtl), (12, .baddq noCtl (.s 9) (.s 26) 9 9 false), (12, .gwnext noCtl (.s 9))]

def engineState (p : Nat × Instr) : State := probeOf p.2 engRegs (onEngine p.1)

/-- The job that a row-block word has queued is done. -/
def jobDone (p : Nat × Instr) : State :=
  (done p.2 (engineState p)).modTile p.1 fun t => { t with jobs := t.jobs.map fun j => { j with status := .done } }

/-- row_block_engine_words_run_to_completion: each word queues its job, waits while it runs, and completes when it is done. -/
theorem test_row_block_words_queue_and_complete :
    rowBlockWords.all (fun p => issues (engineState p) p.2 && after p.2 (engineState p) fun t => (t.tile p.1).jobs.length == 1 && strandOf t (·.widx == 1)) = true ∧
      rowBlockWords.all (fun p => after p.2 (done p.2 (engineState p)) fun t => strandOf t (·.widx == 1)) = true ∧
      rowBlockWords.all (fun p => completes (jobDone p) p.2) = true := by decide +kernel

/-- engine_words_done_at_once. -/
theorem test_engine_words_complete_at_once :
    (onceWords.take 2).all (fun p => completes (engineState p) p.2) = true ∧ (onceWords.drop 9).all (fun p => completes (engineState p) p.2) = true := by
  decide +kernel

theorem test_key_value_words_complete : ((onceWords.drop 2).take 2).all (fun p => completes (engineState p) p.2) = true := by decide +kernel

/-- tree_words_keep_the_tree_file. -/
theorem test_tree_words_complete : ((onceWords.drop 4).take 4).all (fun p => completes (engineState p) p.2) = true := by decide +kernel

theorem test_ttclr_completes : ((onceWords.drop 8).take 1).all (fun p => completes (engineState p) p.2) = true := by decide +kernel

def ttprune : Instr := .ttprune noCtl (.s 24) (.s 23) 2 false

/-- TTPRUNE of leaf 6 in the example of chapter 13: four positions, so LEN is 6. -/
theorem test_ttprune_appends_the_path_of_chapter_13 :
    (after ttprune (probeOf ttprune (setS 23 6) (onEngine 8)) fun t => strandOf t (fun x => x.readS 24 == 0x400) && t.dwAt 0x140800 == 6) = true := by
  decide +kernel

def foreignTree (s : State) : State := s.setTree 8 0 { tree8 with owner := 2 }

/-- The same statements: TENSOR of entries that are not as asked, KVSTALE of position 2 of two, TREE of another's tree. -/
theorem test_engine_words_fault :
    (let i := Instr.spcomp noCtl (.v 1) 8 3
     faults (probeOf i engRegs (onEngine 5)) i .tensor (encodeWord i)) = true ∧
      (let i := Instr.kvlook noCtl (.v 9) (.s 19) (.s 24) 1 true
       faults (probeOf i (fun t => setS 19 2 (engRegs t)) (onEngine 8)) i .kvstale 2) = true ∧
      (let i := Instr.baddq noCtl (.s 9) (.s 24) 9 9 false
       faults (probeOf i engRegs (onEngine 12)) i .tensor (encodeWord i)) = true ∧
      [Instr.ttset noCtl (.s 18) 6, .ttmask noCtl (.v 9) (.s 24), .ttclr noCtl].all
        (fun i => faults (probeOf i engRegs fun s => foreignTree (onEngine 8 s)) i .tree (encodeWord i)) = true := by decide +kernel

/-- The positions that TTPOS gives in the example of chapter 13, whose root stands at position 2. -/
theorem test_ttpos_gives_the_positions_of_chapter_13 :
    (let i := Instr.ttpos noCtl (.v 2) (.s 24) false
     completes (probeOf i engRegs (onEngine 8)) i fun t =>
       (elems (t.vector (.v 2)) false).take 9 == [2, 3, 3, 4, 4, 4, 5, 5, 0xFFFFFFFF]) = true := by decide +kernel

def tgen : Instr := .tgen noCtl (.s 16) (.s 17) (.s 18)
def route : Instr := .route noCtl (.s 16) (.s 17) .bulk
def homeElsewhere (t : Strand) : Strand := setS 9 0x8100000000100000 t

/-- system_words_act_on_caches_and_the_partition: ROUTE of 0x81 as in chapter 19, a code of 3; TGEN of context 1; CINV. -/
theorem test_system_words_complete :
    completes (probeOf route (setS 17 0x81)) route (fun t => t.readS 16 == 0x40) = true ∧
      faults (probeOf route (setS 17 0x83)) route .illop (encodeWord route) = true ∧
      faults (probeOf route (setS 17 0x100)) route .illop (encodeWord route) = true ∧
      completes (probeOf tgen fun t => setS 17 1 (setS 18 data t)) tgen (fun t => t.readS 16 == 1) = true ∧
      completes (probeOf (.cinvCode noCtl)) (.cinvCode noCtl) = true ∧
      completes (probeOf (.cinvLine noCtl (.s 10)) bases) (.cinvLine noCtl (.s 10)) = true ∧
      completes (probeOf (.cinvLine noCtl (.s 10)) (setS 10 pad)) (.cinvLine noCtl (.s 10)) = true ∧
      completes (probeOf (.cinvRdc noCtl (.s 9)) homeElsewhere (part0 fun p => { p with fields := p.fields ++ [(1, 0x18000, 0x58000)] })) (.cinvRdc noCtl (.s 9)) = true ∧
      completes (probeOf (.cinvRdc noCtl (.s 10)) bases) (.cinvRdc noCtl (.s 10)) = true := by decide +kernel

def armed (s : State) : State := part0 (fun p => { p with tvec := p.tvec ||| 1 }) s

/-- halting_unassigned_and_outstanding_words: with DBG 0 and 1, of a marked strand, and a word of an unassigned opcode. -/
theorem test_halts_and_unassigned_words :
    completes (probeOf (.halt noCtl)) (.halt noCtl) = true ∧
      completes (probeOf (.halt noCtl) (fun t => { t with asNop := true }) armed) (.halt noCtl) (fun t => !t.asNop) = true ∧
      completes (probeOf (.brk noCtl 1) (fun t => { t with asNop := true }) armed) (.brk noCtl 1) (fun t => !t.asNop && t.cause == 0) = true ∧
      [Instr.halt noCtl, .brk noCtl 1].all (fun i => issues (probeOf i id armed) i && after i (probeOf i id armed) fun t =>
        (tget t.parts 0).any (·.halt.isSome) && strandOf t (·.asNop)) = true ∧
      faults (probe 0x2600000000000000) (.unassignedOpcode 0x2600000000000000) .illop 0x2600000000000000 = false ∧
      (after (.unassignedOpcode 0x2600000000000000) (probe 0x2600000000000000) fun t => slotOf t (·.hold == some .fault)) = true := by decide +kernel

def ldLater : Instr := .ld { noCtl with la := 3 } (.s 9) (.s 10) 0 .d false none
def divLater : Instr := .div { noCtl with la := 3 } (.s 9) (.s 10) (.s 11) full
def outstanding (i : Instr) (f : Strand → Strand) : Bool :=
  (envOf (probeOf i f) i).any (·.deferred i) && after i (probeOf i f) fun t => slotOf t (·.flight.length == 1) && strandOf t (·.widx == 2)

/-- The same statement: words left outstanding, and their completion. -/
theorem test_outstanding_words_complete :
    outstanding ldLater bases = true ∧ outstanding divLater operands = true ∧
      (after (.memoryReply 0) (done ldLater (probeOf ldLater bases (dword data 5))) fun t => slotOf t (·.flight == []) && strandOf t (·.readS 9 == 5)) = true ∧
      (after (.longLatencyComplete 0) (done divLater (probeOf divLater operands)) fun t => slotOf t (·.flight == [])) = true := by decide +kernel

/-- a_fault_stops_the_strand_and_records_it: a supervisor word in user mode, and a register in error. -/
theorem test_faults_of_decoding :
    (let i := Instr.halt noCtl
     let s := probeOf i asUser
     ((envOf s i).any fun e => !e.waits s i && !e.busy && e.decodeFault i == some .priv) && after i s fun t => slotOf t (·.hold == some .fault) &&
       (tget t.tasks 0).any (·.fault.isSome)) = true ∧
      (let i := Instr.addR noCtl (.s 9) (.s 10) (.s 11) full
       let s := probeOf i id fun s => s.modSlot 0 fun sl => { sl with badReg := true }
       (envOf s i).any (fun e => e.decodeFault i == some .uncorr) && after i s fun t => strandOf t fun x => x.tval == 0 && bits x.cause 4 0 == FaultCode.uncorr.num) = true := by
  decide +kernel

/-! ### Witnesses of the statements about acts -/

/-- The state after an act, for building states; the old state where it answers none. -/
def act (i : Instr) (s : State) : State :=
  match exec i s with
  | .next t => t
  | _ => s

/-- The probe, with nothing said of its word. -/
def base : State := probeOf (nopOf .next)

def storeOf : State := act stD (probeOf stD fun t => setS 9 0x1122 (bases t))
def drained : State := act (.storeBufferDrain 0) storeOf

/-- A strand that waits on slice 2 for a counter at 0x102000 to reach 5. -/
def monitor : Monitor := { pa := 0x102000, thr := 5, uid := uid }
def onOverflow (n : Nat) (v : Word) : State :=
  let sl := sliceOf 0x102000
  dword data v ((base.modStrand uid fun t => { t with place := .waiting, waitK := .cwaitOvf }).modField 0 fun f =>
    { f with overflow := f.overflow.set sl [monitor], monitors := f.monitors.set sl (List.replicate n monitor) })
def absent : FaultWait := { who := .strand uid, part := 0, ctx := 1, va := 0x8000000070000000, acc := 0 }
def swept : State := base.modField 0 fun f => { f with faults := [absent, { absent with va := data }] }

/-- memory_acts_perform_what_is_posted. -/
theorem test_posted_memory_acts_are_performed : ([
  (tget storeOf.slots 0).any (·.buf.length == 1), (tget drained.slots 0).any (·.buf == []), (drained.core 0).l1.length == 1,
  after (.homeSliceWrite 0 data) drained fun t => t.dwAt 0x102000 == 0x1122 && (t.core 0).l1 == [],
  after (.counterAddition 0) (base.modField 0 fun f => { f with adds := [{ pa := 0x102000, val := 5, ctx := 1 }] }) fun t => t.dwAt 0x102000 == 5 && (t.field 0).adds == [],
  after (.overflowSweep 0 (sliceOf 0x102000)) (onOverflow 0 5) fun t => strandOf t (·.met == some 0x102000),
  after (.overflowSweep 0 (sliceOf 0x102000)) (onOverflow 255 4) fun t => ((t.field 0).monitors[sliceOf 0x102000]?).any (·.length == 256),
  after (.overflowSweep 0 (sliceOf 0x102000)) (onOverflow 256 4) fun t => ((t.field 0).overflow[sliceOf 0x102000]?).any (·.length == 1),
  after (.faultSweep 0) swept fun t => (t.field 0).faults == [absent]] : List Bool).all id = true := by
  decide +kernel

def entering (f : Strand → Strand) : State := probeOf (nopOf .next) fun t => f { t with widx := 0 }

/-- strands_enter_blocks_and_take_private_words: a header, a word that is none, a header fetched again, the private path. -/
theorem test_blocks_are_entered : ([
  after .blockEntry (entering id) fun t => strandOf t fun x => x.widx == 1 && x.header == probeHeader,
  after .blockEntry (entering fun t => { t with hdr := data }) fun t => strandOf t fun x => bits x.cause 4 0 == FaultCode.illop.num,
  after .blockEntry (base.modStrand uid fun t => { t with widx := 3, refetch := true, header := 0 }) fun t => strandOf t fun x =>
    x.header == probeHeader && !x.refetch,
  after (.privateFetchTurn 0) (base.modSlot 0 fun sl => { sl with turned := false }) fun t => slotOf t (·.turned)] : List Bool).all id = true := by
  decide +kernel

def vadd : Instr := .fadd noCtl (.v 1) (.v 2) (.v 3) none none
def later (s : State) : State := { s with time := 100 }
def pushed : State := later (act vadd (probeOf vadd))
def startedRed : State := act (.vectorSideStart 0) (later (act vredNow (probeOf vredNow vredRegs)))
def leaseOf (lit : Bool) : State := (base.modCore 0 fun c => { c with leaseAsk := 5 }).modTile 0 fun t => { t with lit := lit }

/-- the_vector_side_starts_leases_and_droops. -/
theorem test_the_vector_side_starts_and_returns : ([
  (tget pushed.slots 0).any (·.fwd.length == 1), after (.vectorSideStart 0) pushed fun t => slotOf t (·.fwd == []) && (t.core 0).lastV == 0,
  after (.vectorSideStart 0) (pushed.modSlot 0 fun sl => { sl with preempt := true }) fun t => slotOf t (·.fwd.length == 1),
  after (.vectorSideStart 0) base fun t => slotOf t (·.fwd == []),
  (tget startedRed.slots 0).any (·.started.length == 1), after (.vectorResultReturn 0) startedRed fun t => slotOf t fun sl => sl.ret.length == 1 && sl.started == [],
  after (.vectorResultReturn 0) (startedRed.modSlot 0 fun sl => { sl with ret := List.replicate 8 (0, .s 9) }) fun t => slotOf t (·.started.length == 1),
  after (.leaseRequest 0) (leaseOf true) fun t => (t.core 0).lease == 5 && (t.field 0).free == 1587,
  after (.leaseRequest 0) (leaseOf false) fun t => (t.core 0).lease == 0 && (t.core 0).refused.isSome,
  after (.leaseIdleReturn 1) (base.modCore 1 fun c => { c with lease := 5 }) fun t => (t.core 1).lease == 0 && (t.field 0).free == 1597,
  after (.leaseIdleReturn 1) ((base.modCore 1 fun c => { c with lease := 5 }).modField 0 fun f => { f with retired := true }) fun t => (t.field 0).total == 1595,
  after (.senseEvent 0) { base with boot := .ready } fun t => (t.core 0).sense == 1 && (t.core 0).stretchEnd == 6,
  after (.droopWindowExpiry 0) { base with time := 100 } fun t => t.mem == base.mem,
  after (.droopHoldExit 0) ({ base with time := 20000 }.modField 0 fun f => { f with hold := some 0 }) fun t => (t.field 0).hold == none,
  after (.droopHoldExit 0) ({ base with time := 19999 }.modField 0 fun f => { f with hold := some 0 }) fun t => (t.field 0).hold == some 0] : List Bool).all id = true := by
  decide +kernel

def raising (l : List Nat) (ctr vf : Option Nat) : State :=
  base.modPart 0 fun p => { p with raises := [{ ctx := 1, gen := 1, ctr := ctr, vf := vf, started := true, left := l }] }
def promoted (entry : Word) (fr : Option Nat) : State :=
  base.modField 0 fun f => { f with promos := [{ part := 0, ctx := 1, va := data, big := false, entry := entry, slot := 0x33000, frame := fr }] }

/-- promotions_and_generations_complete: a promotion whose leaf is unchanged, one whose leaf has changed, one with no free frame;
an acknowledgement, a switch with a counter, with none, and with an addition on its way. -/
theorem test_promotions_and_generations : ([
  after (.promotionComplete 0) (promoted 0x63A (some 0x110000)) fun t => t.dwAt 0x33000 == 0x11063A && (t.field 0).promos == [],
  after (.tierPromotion 0) (promoted 0x63A none) fun t => (tget t.parts 0).any (·.pstall == 1),
  after (.generationAck 0) (raising [0, 1] none none) fun t => (tget t.parts 0).any fun p => p.raises.map (·.left) == [[1]],
  after (.generationSwitch 0) (raising [] (some 0x102000) none) fun t => t.dwAt 0x102000 == 1 && (tget t.parts 0).any fun p => p.gens == [(1, 1)],
  after (.generationSwitch 0) (raising [] none none) fun t => (tget t.parts 0).any fun p => p.gens == [(1, 1)] && p.raises == [],
  after (.generationSwitch 0) ((raising [] none none).modField 0 fun f => { f with adds := [{ pa := 0x102000, val := 1, ctx := 1 }] }) fun t => (tget t.parts 0).any (·.gens == [])] : List Bool).all id = true := by
  decide +kernel

def spawned : State := (act spawn (probeOf spawn spawnRegs)).modTile 0 fun t => { t with lit := true }
def yielded (s : State) : State := act (.yieldOp noCtl) s
def gathers (time : Nat) : State :=
  { base with time := time, strands := tput base.strands 100 { probeStrand with place := .ready 0 } }.modTile 0 fun t =>
    { t with ready := t.ready.set 0 [100] }.setStream 0 { members := [0], gather := some { hdr := probeHdr, core := 0, since := 0 } }
def preempted : State := base.modSlot 0 fun sl => { sl with preempt := true }

/-- Every slot of tile 0 holds a strand of PRIO 0 since time 0, and a ready record of PRIO `n` has waited. -/
def busyTile (n time : Nat) : State :=
  let st := fun u (p : Place) q => (u, ({ probeStrand with place := p, prio := q } : Strand))
  { base.modTile 0 (fun t => { t with lit := true, ready := t.ready.set n [100] }) with
    time := time
    strands := (upto 64).map (fun k => st (k + 1) (.slot k) 0) ++ [st 100 (.ready 0) n]
    slots := (upto 64).map fun k => (k, { uid := k + 1 }) }

/-- records_are_picked_up_and_put_down. -/
theorem test_records_are_picked_up_and_put_down : ([
  after (.pickUp 0) spawned fun t => (tget t.strands 2).any fun x => x.place == .slot 4 || x.place == .slot 1,
  after (.putDown 0) (yielded (withArena base)) fun t => t.slots == [] && strandOf t (·.place != .slot 0),
  after (.putDown 0) (yielded base) fun t => (tget t.parts 0).any (·.stalled == [uid]),
  after (.stalledSaveResume 0) (withArena (act (.putDown 0) (yielded base))) fun t => t.slots == [],
  after (.gatherEnd 0 0) (gathers 1) fun t => ((t.tile 0).streams[0]?).any (·.gather.isSome),
  after (.gatherEnd 0 0) (gathers 100) fun t => ((t.tile 0).streams[0]?).any (·.gather.isNone),
  after (.strandCreationContinue 0) (act spawn (probeOf spawn spawnRegs poolFull)) fun t => slotOf t (·.hold.isNone),
  after (.preemption 0) preempted fun t => slotOf t (·.hold == some .save) && strandOf t (·.waitK == .preempted),
  after (.preemption 0) ((act ldLater (probeOf ldLater bases)).modSlot 0 fun sl => { sl with preempt := true }) fun t => slotOf t (·.hold.isNone),
  !((busyTile 1 10000).hasFree 0), after (.priorityPreemption 0) (busyTile 1 10000) fun t => t.slots.any (·.2.preempt),
  after (.priorityPreemption 0) (busyTile 1 9999) fun t => !t.slots.any (·.2.preempt),
  after (.timeSlicePreemption 0) (busyTile 0 1000000) fun t => t.slots.any (·.2.preempt),
  after (.aging 100) (busyTile 0 100000) fun t => (tget t.strands 100).any fun x => x.prio == 1 && x.aged == 1] : List Bool).all id = true := by
  decide +kernel

def mmState : State := act (.mm noCtl (.s 20) 12 12 false) (engineState (0, .mm noCtl (.s 20) 12 12 false))
def running : State := act (.rowBlockStart 0) mmState
def copied : State := act (.copyChunk 0) queued
def idleUntil (n : Nat) : State := base.modTile 0 fun t => { t with idle := true, idleEnd := n }
def scrubbed : State := act scrub (probeOf scrub copyRegs (block [0x110000, 0, 0, 0, 0, 0, 0, 0]))

/-- engines_run_row_blocks_and_commands. -/
theorem test_engines_run_row_blocks_and_commands : ([
  (running.tile 0).jobs.any (·.status == .running),
  after (.rowBlockEnd 0) running fun t => (t.tile 0).jobs.any (·.status == .done),
  after (.rowBlockStart 0) (mmState.modTile 0 fun t => { t with grant := 0 }) fun t => (t.tile 0).jobs.any (·.status == .stopped .token),
  ((mmState.modSlot 0 fun sl => { sl with preempt := true }).haltPreempted 0 |>.tile 0).jobs.any (·.status == .stopped .preempt),
  after (.engineIdleEnd 0) (idleUntil 0) fun t => !(t.tile 0).idle, after (.engineIdleEnd 0) (idleUntil 1) fun t => (t.tile 0).idle,
  (queued.tile 0).copies.length == 1, (copied.tile 0).copied.length == 1,
  after (.copyCompletion 0) copied fun t => t.dwAt 0x102300 == 1 && (t.tile 0).copied == [],
  after (.copyChunk 0) { queued.modCopies 0 0 fun q => { q with lost := some { n := 5, since := some 0 } } with time := 100000 } fun t => (tget t.tasks 0).any fun x =>
    x.fault.any fun r => bits r[0] 4 0 == FaultCode.timeout.num] : List Bool).all id = true := by
  decide +kernel

/-! ### The broker -/

/-- The strand asks for the tokens of class 3 on a tile that is lit and has a grant of `g`, in a field of `f` tokens. -/
def leaving (g f : Nat) (h : State → State := id) : State :=
  h (((base.modStrand uid fun t => { t with cls := 3 }).modSlot 0 fun sl => { sl with leave := true }).modTile 0 (fun t =>
    { t with lit := true, grant := g }) |>.modField 0 fun x => { x with free := f })

def held (s : State) : Bool := slotOf s (·.hold == some .save) && strandOf s (·.waitK == .token)
def waiter : TokWait := { uid := uid, tile := 0, amount := 5 }
def lacking (g : Field → Field) : State := base.modField 0 fun f => g { f with free := 0, waiters := [waiter] }
def lentTo (n : Nat) (s : State) : State := { s.modTile 1 fun t => { t with lit := true, grant := n } with loans := [{ lender := 0, borrower := 1, amount := n }] }
/-- The partition's ALLOW, at +0x38 of its PCB, is 1600. -/
def allowed (s : State) : State := dword (s.parts.head?.elim 0 fun e => e.2.pcb + 0x38) 1600 s
def notice : Notice := { amount := 5, dest := .pool 0 }

/-- the_broker_grants_recalls_and_revokes: floors (8 tokens, R433) and grants; leaves with a grant, in a hold, from the pool, by a
top-up, refused, and by recalls; the rest of its acts. -/
theorem test_the_broker : ([
  after (.floorRequest 1) base fun t => (t.tile 1).lit && (t.field 0).free == 1584,
  after (.floorRequest 1) { base.modField 0 fun f => { f with free := 7 } with fieldLoans := [{ lender := 0, borrower := 1, amount := 9 }] } fun t =>
    t.agenda.contains (.event (.crucibleReclaim 0)) && !(t.tile 1).lit,
  after (.placementGrant 0 0) ((base.modTask 0 fun x => { x with header := x.header.set 2 0x30 }).modTile 0 fun t => { t with lit := true }) fun t =>
    (t.tile 0).grant == tileCost 0 3 && (t.tile 0).grant != 0 && (t.field 0).free + (t.tile 0).grant == 1592,
  after (.placementGrant 0 0) base fun t => (t.tile 0).grant == 0,
  after (.leaveRequest 0) (leaving 1000 0) fun t => slotOf t fun sl => !sl.leave && sl.hold.isNone,
  after (.leaveRequest 0) (leaving 0 1600 fun s => s.modField 0 fun f => { f with hold := some 0 }) held,
  after (.leaveRequest 0) (leaving 0 1600) fun t => (t.tile 0).grant == tileCost 0 3 && slotOf t (·.hold.isNone),
  after (.leaveRequest 0) (leaving 0 0 allowed) fun t => (t.tile 0).grant == tileCost 0 3 && t.reserve < 1600,
  after (.leaveRequest 0) (leaving 0 0) held,
  after (.leaveRequest 0) (leaving 0 0 (lentTo (tileCost 0 3))) fun t => held t && (t.tile 0).recalls.map (·.rest) == [0],
  after (.leaveRequest 0) (leaving 0 0 (lentTo 1)) fun t => held t && (t.tile 0).recalls.map (·.rest) == [tileCost 0 3 - 1],
  after (.leaveRequest 0) (leaving 0 0 fun s => allowed (lentTo 1 s)) fun t => held t && (t.tile 0).recalls.map (·.rest) == [0],
  after (.recallComplete 0) (act (.leaveRequest 0) (leaving 0 0 (lentTo 1)) |>.modTile 1 fun t => { t with notices := [] }) fun t =>
    (t.field 0).waiters.map (·.amount) == [tileCost 0 3 - 1],
  after (.revocationNotice 0) (base.modTile 0 fun t => { t with grant := 9, notices := [notice] }) fun t =>
    (t.tile 0).grant == 4 && (t.tile 0).taken == [notice] && (t.tile 0).notices == [],
  after (.revocationNotice 0) (running.modTile 0 fun t => { t with notices := [notice] }) fun t => (t.tile 0).notices == [notice],
  after (.revocationComplete 0) (base.modTile 0 fun t => { t with taken := [notice] }) fun t => (t.field 0).free == 1597 && (t.tile 0).taken == [],
  after (.crucibleTopup 0) (allowed (lacking id)) fun t => (t.tile 0).grant == 5 && (t.field 0).waiters == [],
  after (.crucibleReclaim 0) { lacking id with fieldLoans := [{ lender := 0, borrower := 1, amount := 9 }] } fun t => (t.field 0).waiters == [],
  after (.taskEndReturn 1) (base.modTile 1 fun t => { t with lit := true, grant := 20 }) fun t => !(t.tile 1).lit && (t.tile 1).grant == 0,
  after (.taskEndReturn 0) (leaving 1000 0) fun t => (t.tile 0).lit && (t.tile 0).grant == tileCost 0 3,
  after (.groupPrioRaise uid) (member.modStrand uid fun t => { t with waitK := .preempted }) fun t => strandOf t (·.prio == 0)
  ] : List Bool).all id = true := by
  decide +kernel

/-! ### Tasks -/

/-- A virtual function with one queue of four slots, whose slot 0 holds a header of `n` strands, on tiles of every kind, of CLASS 3
and PRIO 2, with DONE; its tail counter is 1. -/
def tasked (n : Nat) (x : Word := 0) (h2 : Word := 0x100023F) : State :=
  let put := fun (l : List (Word × Word)) (s : State) => l.foldl (fun s e => dword e.1 e.2 s) s
  part0 (fun p => { p with vfs := [(0, { ctx := 1, queues := [(0, { tailSeen := 1 })] })], strandArea := 0xB0000 })
    (put [(0x80000, 1), (0x80008, 1), (0x80010, 1), (0x80018, data + 0x2000), (0x80028, x), (data + 0x2000, data + 0x3000), (data + 0x2008, 4),
      (data + 0x2010, data + 0x800), (data + 0x2020, data + 0x4000), (data + 0x2028, data + 0x5000), (data + 0x800, 1),
      (data + 0x3000, probeHdr), (data + 0x3008, BitVec.ofNat 64 (0xFF000000000000 + n)), (data + 0x3010, h2), (data + 0x3018, 5),
      (data + 0x3020, data + 0x900), (data + 0x3028, 3)] base)

def readIn : State := act (.taskHeaderRead 0 0 0) (tasked 2)
def launched : State := act (.taskLaunch 0) readIn
def ended (s : State) : State := { s with strands := [], slots := [] }

/-- The task of the probe has a fault of code `c`. -/
def faulty (c : FaultCode) (f : Task → Task := id) (s : State) : State :=
  s.modTask 0 fun x => f { x with fault := some #v[causeOf c true, 7, probeHdr, 0, 0, probeHdr, 0] }

/-- tasks_are_read_launched_and_ended: headers that are good and that are not; a launch; the end of a grid, of a task with no fault
and with one, and a rollback. -/
theorem test_tasks : ([
  (tget readIn.parts 0).any fun p => (p.queue 0 0).headers.length == 1, readIn.dwAt 0x104018 == 1,
  after (.taskHeaderRead 0 0 0) (tasked 0) fun t => t.tasks.any fun e => e.2.fault.any fun r => bits r[0] 4 0 == FaultCode.illop.num,
  after (.taskHeaderRead 0 0 0) (tasked 2 5) fun t => t.tasks.any fun e => e.2.fault.any fun r => bits r[0] 4 0 == FaultCode.illop.num && r[1] == 5,
  after (.taskHeaderRead 0 0 0) (part0 (fun p => { p with vfs := [] }) (tasked 2)) fun t => t.tasks.length == 1,
  launched.strands.length == 3, launched.strands.all fun e => e.1 == uid || (e.2.cls == 3 && e.2.prio == 2 && e.2.hdr == probeHdr && e.2.acq == .system),
  after (.gridStop 0) (faulty .illop id base) fun t => t.strands == [] && t.slots == [] && t.tasks.all (·.2.stopping),
  after (.gridStop 0) (faulty .illop id (act ldLater (probeOf ldLater bases))) fun t => slotOf t (·.preempt) && t.tasks.all (!·.2.stopping),
  after (.taskCompletion 0) (ended (tasked 2)) fun t => t.tasks == [],
  after (.taskCompletion 0) (ended (faulty .illop (fun x => { x with stopping := true, fcount := 2 }) (tasked 2))) fun t =>
    t.tasks == [] && t.dwAt 0x107008 == 7 && t.dwAt 0x107010 == probeHdr,
  after (.taskCompletion 0) (ended (faulty .uncorr (fun x => { x with stopping := true, header := x.header.set 2 0x10000 }) (tasked 2))) fun t =>
    t.agenda.contains (.event (.rollback 0)),
  after (.rollback 0) (ended (faulty .uncorr (fun x => { x with stopping := true, header := #v[probeHdr, 0xFF000000000002, 0x101023F, 0, 0, 0, 0, 0] }) (tasked 2))) fun t =>
    t.strands.length == 2 && t.tasks.all fun e => e.2.relaunched && e.2.fault.isNone,
  after (.rollback 0) { ended (faulty .uncorr (fun x => { x with stopping := true, header := x.header.set 2 0x10000, logBase := data + 0x6000, logged := [data] }) (tasked 2)) with
    uncorr := [0x108000 / 8] } fun t => t.tasks.any fun e => e.2.fault.any fun r => bits r[0] 4 0 == FaultCode.rollback.num && r[1] == data + 0x6000
  ] : List Bool).all id = true := by
  decide +kernel

/-! ### Failures and time -/

def ready (s : State) : State := { s with boot := .ready }
def rowA : RowId := { stack := 0, pch := 0, bank := 0, row := 5 }
def withCount (n : Nat) : State :=
  match execRowPrecharge rowA n false base with
  | .next t => t
  | _ => base

/-- failures_and_time_take_their_course: the thresholds of chapter 18 (1,024 activations) and chapter 19 (32 on the level, 128). -/
theorem test_failures_and_time : ([
  after (.assay (.coreBank 0 3)) base fun t => (t.core 0).bucket.busy,
  after (.wholeCoreAssay 1 false) (base.modCore 1 fun c => { c with bucket := { level := 128, suspect := true } }) fun t =>
    (t.core 1).bucket.busy && t.timers.any fun e => e.1 == 2000000,
  after (.assayEnd (.coreBank 0 3) true) (base.modCore 0 fun c => { c with bucket := { level := 100 } }) fun t =>
    (t.core 0).bucket.level == 132 && (t.core 0).bucket.suspect,
  after (.assayEnd (.wholeCore 0) true) (base.modCore 0 fun c => { c with bucket := { level := 200, suspect := true } }) fun t => (t.core 0).bucket.level == 64,
  after (.assayEnd (.coreBank 0 3) false) base fun t => !(t.core 0).good, after (.assayEnd (.tileBank 1 0) false) base fun t => !(t.tile 1).good,
  after (.bucketDecay 0 false) (base.modCore 0 fun c => { c with bucket := { level := 2 } }) fun t => (t.core 0).bucket.level == 1 && t.timers.length == 1,
  after .detourRoute base fun t => t.mem == base.mem && t.agenda == base.agenda,
  after (.islandRetirement 0) ((base.modTile 0 fun t => { t with good := false }).modTile 11 fun t => { t with good := false }) fun t => (t.field 0).retired,
  (base.partOfField 0).any fun e => (pinPa e.2 (base.pinDw e.2 (e.2.fcb 0) 0x30)).isSome,
  (rowFind (withCount 1023).rows rowA).count == 1023, (withCount 1023).alerts == [], (withCount 1024).alerts == [rowA],
  after (.rowPrecharge rowA 1 false) (act .timeTick { base with upsets := [.rowBit rowA 11] }) fun t => t.alerts == [rowA] && (tgetD t.sectors 0 {}).parity == 1,
  after (.rowPrecharge rowA 1 false) base fun t => t.alerts == [],
  after (.rowPrecharge rowA 1 true) base fun t => t.alerts == [rowA] && (tgetD t.sectors 0 {}).parity == 1 && (rowFind t.rows rowA).count == 1,
  after (.refreshManagement 0 0 0) (withCount 1024) fun t => t.alerts == [] && (rowFind t.rows rowA).count == 0,
  after .refreshWindowEnd (withCount 1024) fun t => t.rows.all fun e => !e.2.hot,
  after .timeTick { base with upsets := [.word 0x102008] } fun t => t.time == 1 && t.uncorr == [0x102008 / 8] && t.upsets == []
  ] : List Bool).all id = true := by
  decide +kernel

/-! ### Management and ports -/

/-- The image of the factory verifies under the root key whose digest the fuses hold. -/
theorem test_the_first_image_verifies : State.reset.imageOk firstImage = true := by decide +kernel

/-- The blocks of which FMDIG of the first fuse map is the digest, and the sponge after the first four and the first eight. -/
def fuseBlocks : List (List Byte) := shakeBlocks 12 (State.reset.fuse 0 fuseFmdig)
def sponge4 : List Word :=
  [0x30dfba19f38c7b9f, 0xdc0862fbd9c32ae2, 0xedd47732721215e, 0x3186e53e30fe2a98, 0xf305f4e5c906488c, 0x39f62cfb3f5cd25b,
   0xa71eea7873a746e7, 0xc92dbbab132fafb6, 0x995f5787b2997057, 0xfada7ddebdbeaa22, 0xa3de18650427c139, 0xffca17cf9f1f9e04,
   0xc316da335fc2de95, 0xa5828aff7924c724, 0x18eee7aa65685d6b, 0x7a51ec9582bb68f8, 0x1bea611aceb86050, 0xec480371b008f189,
   0x9da98915856017cf, 0xd37a966a50b6800d, 0xdf2e58881b75d481, 0x29f612c3e2847871, 0xd6f028b88f098e5b, 0x4dc6e39b674165fe,
   0x4c67ec87f7d81e99]
def sponge8 : List Word :=
  [0xb5f7b26b76b3f52f, 0x26c2a2a0ad548162, 0x24803866aa55efd1, 0x6b253e400e334bcd, 0x5f14adc13e275a1f, 0xd909c2d067547043,
   0xb6554eafe7d038d8, 0x3ae4f907a8125acb, 0x591b5ee430739dd9, 0x66704b07a26816b, 0x32cc8a228dc83440, 0xb1ca5be91b3edb10,
   0xb7572e5dba02399e, 0x83596521532362a, 0xb186bc30474a21e, 0xfcafffa781afa9f5, 0x7d6bee303df41879, 0x574ace28b91b3e01,
   0x7814518b13818774, 0x7b7bb9a5e8433930, 0x1b5d64e4cca4ba93, 0x55f2fbf35cba3bc0, 0xb04e9961a7352261, 0x7a14ac784277f47,
   0x8acabea0582743a3]

theorem test_fuse_digest_to_sponge4 : (fuseBlocks.take 4).foldl keccakAbsorb (List.replicate 25 0) = sponge4 := by decide +kernel
theorem test_fuse_digest_to_sponge8 : ((fuseBlocks.drop 4).take 4).foldl keccakAbsorb sponge4 = sponge8 := by decide +kernel
theorem test_fuse_digest_from_sponge8 :
    (keccakBytes ((fuseBlocks.drop 8).foldl keccakAbsorb sponge8)).take 64 = State.reset.fuse fuseFmdig 64 := by decide +kernel

theorem fuse_blocks_in_parts : fuseBlocks = fuseBlocks.take 4 ++ ((fuseBlocks.drop 4).take 4 ++ fuseBlocks.drop 8) := by
  have h : fuseBlocks.drop 8 = (fuseBlocks.drop 4).drop 4 := by simp
  rw [h, List.take_append_drop, List.take_append_drop]

theorem fuse_map_length : (State.reset.fuse 0 fuseFmdig).length = 1496 := by decide +kernel

/-- management_commands_answer_in_order: POWER_GOOD, whose fuse map of the first part holds its digest. -/
theorem test_the_first_fuse_map_is_good : State.reset.powerless.fusesOk = true := by
  have e : State.reset.powerless.fusesOk = decide (shake256 (State.reset.fuse 0 fuseFmdig) 64 = State.reset.fuse fuseFmdig 64) := rfl
  have b : shakeBlocks ((State.reset.fuse 0 fuseFmdig).length / shakeRate + 1) (State.reset.fuse 0 fuseFmdig) = fuseBlocks := by
    rw [fuse_map_length]; rfl
  rw [e, decide_eq_true_iff, shake256, b, fuse_blocks_in_parts, List.foldl_append, List.foldl_append, test_fuse_digest_to_sponge4,
    test_fuse_digest_to_sponge8]
  exact test_fuse_digest_from_sponge8

def pcbAt (s : State) : State := [((0 : Word), (1 : Word)), (8, 0x101), (0x10, probeHdr), (0x28, 0x60000), (0x30, 0x70000), (0x40, 0x80000), (0x48, 1),
  (0x50, 0x90000), (0x58, 0xA0000), (0x108, 0x18000)].foldl (fun s e => dword (0x180000 + e.1) e.2 s) (dword 0x70000 0x200000 s)

/-- management_commands_answer_in_order. -/
theorem test_management_commands : ([
  after .readfuse { ready base with command := some .links } fun t => t.pending == [.readfuse] && t.replies == [],
  after .readfuse { base with boot := .recovery } fun t => t.replies.length == 1 && t.replies != [.refused],
  after .links { base with boot := .recovery } fun t => t.replies == [.refused],
  after .links (ready base) fun t => t.replies == [.links t.links],
  after (.attest []) (ready base) fun t => t.replies == [.refused],
  after (.loadfw { firstImage with key := [] }) (ready base) fun t => t.replies == [.refused] && t.image == firstImage,
  after (.setrth 7 2047) (ready base) fun t => t.replies == [.done] && (tgetD t.sectors 7 {}).rth == 2047,
  after (.setrth 7 255) (ready base) fun t => t.replies == [.refused], after (.setrth 8 256) (ready base) fun t => t.replies == [.refused],
  after (.loadkey 255 7) (ready base) fun t => t.replies == [.done] && tget t.keys 255 == some 7, after (.loadkey 0 7) (ready base) fun t => t.replies == [.refused],
  after (.activate 0x180000) (ready base) fun t => t.replies == [.refused],
  after (.setpool 0 (some 1601) none) (ready base) fun t => t.replies == [.done] && (t.field 0).total == 1601 && t.reserve == 1599,
  after (.setpool 0 (some 1599) none) (ready base) fun t => t.command == some (.setpool (some (0, 1599)) none) && (t.field 0).total == 1599,
  after (.mgmtHalt none) (ready base) fun t => t.replies == [.done] && (tget t.parts 0).any (·.halt.isSome),
  after (.mgmtResume none) (act (.mgmtHalt none) (ready base)) fun t => (tget t.parts 0).any (·.halt.isNone),
  after (.deactivate 0) (ready base) fun t => t.command == some (.deactivate 0) && (tget t.parts 0).any (·.closing),
  after (.deactivate 0) ({ ready (ended base) with tasks := [], command := some (.deactivate 0) } |> part0 fun p => { p with closing := true }) fun t =>
    t.replies == [.done] && t.parts == [] && t.command == none,
  after (.haltRecord 0) (part0 (fun p => { p with halt := some { source := 0, pcoord := 9, since := 4, tpc := 0 } }) base) fun t => t.dwAt 0xA0000 == 9 && t.dwAt 0xA0008 == 4,
  after .thermalWarning (ready base) fun t => t.replies == [.warning],
  after .thermalShutdown (ready base) fun t => t.boot == .off && t.parts == [],
  after (.powerGood [] []) { base with image := { firstImage with key := [] } } fun t => t.boot == .recovery
  ] : List Bool).all id = true := by
  decide +kernel

/-- ACTIVATE of a good PCB of one field makes its partition. -/
theorem test_activate_makes_a_partition :
    after (.activate 0x180000) { pcbAt State.reset with boot := .ready } (fun t => t.replies == [.done] && (tget t.parts 1).any (·.nvf == 1)) = true := by
  decide +kernel

def packet (kind : Nat) (arg addr : Word) (payload : List Byte) : Packet :=
  { session := 3, vf := 0x7FF, reserved := 0, kind := BitVec.ofNat 8 kind, ver := 2, seq := 0, ack := 0, arg := arg, addr := addr, payload := payload }
def open_ : Session := { part := 0, vf := none, ver := 2, feat := 15 }

/-- Port 32 in the partition of the probe, with a session of its supervisor. -/
def onPort (s : State := base) : State := ready ((part0 (fun p => { p with vfs := [(0, { ctx := 1 })] })
  (dword 0x20028 1 (dword 0x20010 0x30000 (tasked 2)) |> fun t => { s with mem := t.mem })).setSession 32 3 open_)

/-- What port 32 sends first, of the kind `k` with the argument `a`. -/
def sent (s : State) (k : Nat) (a : Word) : Bool := (s.port 32).out.head?.any fun p => p.kind.toNat == k && p.arg == a

/-- The queue's structures stand in the user half of the context (R533). -/
def userQueue (s : State) : State :=
  [((0x20040 : Word), (0x30000 : Word)), (0x80018, 0x104000), (0x104000, 0x105000), (0x104010, 0x102800)].foldl (fun s e => dword e.1 e.2 s) s

def bound (n : Nat) (s : State := onPort) : State :=
  s.modPort n fun x => { x with bind := some { part := 0, vf := 0, ctx := 1, pbb := data + 0x7000, etail := data + 0x7100, ering := data + 0x7200, enslot := 4, garr := data + 0x7300 } }

/-- numbered_packets_are_performed_in_their_turn: a session that is not open, one behind, one held, and each kind. -/
theorem test_packets_are_performed : ([
  after (.gibenWrite 32 (packet 0x10 0 data [1, 2, 3, 4])) (ready base) fun t => sent t 2 3,
  after (.gibenWrite 32 { packet 0x10 0 data [1, 2, 3, 4] with seq := 0xFFFFFFFF }) onPort fun t => sent t 2 0 && t.valAt 0x102000 4 == 0,
  after (.gibenWrite 32 { packet 0x10 0 data [1, 2, 3, 4] with seq := 1 }) (onPort.setSession 32 3 { open_ with held := [{ packet 0x10 0 data [] with seq := 1 }] }) fun t =>
    (t.port 32).out == [],
  after (.gibenWrite 32 (packet 0x10 0 data [1, 2, 3, 4])) onPort fun t => sent t 2 0 && t.valAt 0x102000 4 == 0x04030201,
  after (.gibenRead 32 (packet 0x11 4 data [])) (onPort.slicePut 0x102000 [9, 8, 7, 6]) fun t => (t.port 32).out.any fun p => p.kind == 0x12 && p.payload == [9, 8, 7, 6],
  after (.readrsp 32 (packet 0x12 0 data [])) onPort fun t => sent t 2 0,
  after (.gibenAtomic 32 (packet 0x13 0 data (bytesOf 8 5))) (onPort.slicePut 0x102000 (bytesOf 8 7)) fun t => t.dwAt 0x102000 == 12 &&
    (t.port 32).out.any fun p => p.payload == bytesOf 8 7,
  after (.gibenCadd 32 (packet 0x14 5 data [])) onPort fun t => t.dwAt 0x102000 == 5,
  after (.append 32 { packet 0x15 0 0 (List.replicate 64 1) with vf := 0 }) (userQueue (onPort.setSession 32 3 { open_ with vf := some 0 })) fun t =>
    sent t 2 0 && t.valAt 0x105040 4 == 0x01010101 && t.dwAt 0x102800 == 2,
  after (.append 32 { packet 0x15 0 0 (List.replicate 64 1) with vf := 0 }) (onPort.setSession 32 3 { open_ with vf := some 0 }) fun t => sent t 2 3,
  after (.gibenBlock 32 (packet 0x16 (2 ^ 63 + 5) data [1, 2, 3, 4])) (bound 32) fun t => (t.port 32).blocks == [2 ^ 63 + 5] && t.dwAt 0x109300 == 1,
  after (.gibenUnassignedKind 32 (packet 0x40 0 0 [])) onPort fun t => sent t 2 3
  ] : List Bool).all id = true := by
  decide +kernel

def bindBlock (s : State) : State := [((0 : Word), (1 : Word)), (0x18, data + 0x7300), (0x20, data + 0x7100), (0x28, data + 0x7200), (0x30, 4)].foldl
  (fun s e => dword (data + 0x7000 + e.1) e.2 s) s

/-- management_packets_bind_and_migrate. -/
theorem test_management_packets : ([
  after (.bind 32 (packet 0x20 1 (data + 0x7000) (bytesOf 8 1))) (bindBlock onPort) fun t => sent t 2 0 && (t.port 1).bind.isSome,
  after (.unbind 32 (packet 0x20 2 0 (bytesOf 8 1))) (bound 1) fun t => sent t 2 0 && (t.port 1).bind.isNone,
  after (.unbind 32 (packet 0x20 2 0 (bytesOf 8 1))) (dword (data + 0x7100) 1 (bound 1)) fun t => (t.port 1).bind.isSome,
  after (.track 32 (packet 0x20 4 (data + 0x7400) [])) (dword (data + 0x7418) 4 onPort) fun t => (t.vf 0 0).moving.isSome,
  after (.pause 32 (packet 0x20 6 (data + 0x7400) [])) onPort fun t => sent t 2 0 && (t.vf 0 0).pause == 1,
  after (.release 32 (packet 0x20 7 (data + 0x7400) [])) (onPort.modVf 0 0 fun v => { v with pause := 3 }) fun t => sent t 2 0 && (t.vf 0 0).released,
  after (.pause 32 (packet 0x20 6 (data + 0x7400) [])) (onPort.setSession 32 3 { open_ with vf := some 0 }) fun t => sent t 2 3
  ] : List Bool).all id = true := by
  decide +kernel

def helloOf (lo hi : Nat) : Packet := { packet 1 0 0 (bytesOf 8 lo ++ bytesOf 8 hi ++ bytesOf 8 15) with ver := 1 }

/-- sessions_and_egress_follow_their_links. -/
theorem test_sessions_and_egress : ([
  after (.hello 32 (helloOf 1 2)) (ready base) fun t => sent t 1 0 && (t.session 32 3).any fun x => x.ver == 2 && x.feat == 15,
  after (.hello 32 (helloOf 3 9)) (ready base) fun t => sent t 2 3 && (t.session 32 3).isNone,
  after (.gibenAck 32 (packet 2 1 0 [])) onPort fun t => (t.session 32 3).any (·.busy),
  after (.gibenAck 32 (packet 2 2 0 [])) onPort fun t => (t.session 32 3).isNone,
  after (.gibenAck 32 { packet 2 0 0 [] with ack := 1 }) (onPort.setSession 32 3 { open_ with seq := 1, unacked := [packet 0x10 0 data []] }) fun t =>
    (t.session 32 3).any (·.unacked == []),
  after (.retransmitTimeout 32 3) (onPort.setSession 32 3 { open_ with unacked := [packet 0x10 0 data []], due := some 0 }) fun t =>
    (t.port 32).out.length == 1 && (t.session 32 3).any (·.timeouts == 1),
  after (.retransmitTimeout 32 3) (onPort.setSession 32 3 { open_ with unacked := [packet 0x10 0 data []], due := some 0, timeouts := 4 }) fun t =>
    (t.port 32).lost && (t.session 32 3).isNone,
  after (.egressDescriptor 32) (dword (data + 0x7100) 1 (bound 32)) fun t => (t.port 32).egress.isSome && (t.port 32).bind.any (·.ehead == 1),
  after (.egressDescriptor 32) (bound 32) fun t => (t.port 32).egress.isNone,
  after (.egressComplete 32 1) (bound 32 |>.modPort 32 fun x =>
    { x with egress := some { place := data + 0x7200, desc := #v[0, 0, 0, 0, 0, data + 0x7400, 6, 0], session := 3, sent := true, res := some 1 } }) fun t =>
      (t.port 32).egress.isNone && t.dwAt 0x109238 == 1 && t.dwAt 0x109400 == 6,
  after (.portLinkDown 33) base fun t => (t.port 33).down, after (.portLinkUp 33) base fun t => !(t.port 33).down, after (.portLinkDown 34) base fun t => t.ports == []
  ] : List Bool).all id = true := by
  decide +kernel

/-! ### Further witnesses -/

/-- A slot of which the next access loses five replies, sent first at TIME 0. -/
def losing (since : Option Nat) (time : Nat) (s : State) : State :=
  { s.modSlot 0 fun sl => { sl with lost := some { n := 5, since := since } } with time := time }

/-- Lost replies (R173): a load waits for its reply, and ends with TIMEOUT after five timeouts of 20 µs; an outstanding one waits
too, and its wait ends. -/
theorem test_lost_replies_time_out :
    (let i := Instr.ld noCtl (.s 9) (.s 10) 0 .d false none
     after i (probeOf i bases (losing none 7)) fun t => slotOf t (fun sl => sl.hold == some .reply && sl.lost == some { n := 5, since := some 7 }) &&
       t.timers.any (·.1 == 100007)) = true ∧
      (let i := Instr.ld noCtl (.s 9) (.s 10) 0 .d false none
       after i (probeOf i bases (losing (some 0) 100000)) fun t => strandOf t fun x => bits x.cause 4 0 == FaultCode.timeout.num && x.tval == data) = true ∧
      (after (.memoryReply 0) (losing none 7 (done ldLater (probeOf ldLater bases))) fun t => slotOf t (·.lost == some { n := 5, since := some 7 })) = true ∧
      (after (.memoryReply 0) (losing (some 0) 100000 (base.modSlot 0 fun sl => { sl with hold := some .reply })) fun t =>
        slotOf t fun sl => sl.hold.isNone && sl.lost.isSome) = true := by decide +kernel

def outer (n : Nat) (t : Strand) : Strand := withHeader { t with fres := n, rsp := data + 0x100 }

/-- sequencing_follows_seq at the ends of the register file: a CALL with six resident frames spills, a RET with none fills; the
stack pointer out of place; a CALL and a RET from user mode into the supervisor half. -/
theorem test_calls_and_returns_spill_and_fill :
    completes (probeOf (nopOf .callT0) (outer 6)) (nopOf .callT0) (fun t => t.rsp == data + 0x80 && t.fres == 6 && t.cwp == 1) = true ∧
      completes (probeOf (nopOf .ret) (fun t => setS 15 data (outer 0 t)) (dword (data + 0x100) 0x77)) (nopOf .ret)
        (fun t => t.rsp == data + 0x180 && t.fres == 0 && t.cwp == 7 && t.readS 8 == 0x77) = true ∧
      faults (probeOf (nopOf .callT0) fun t => { outer 6 t with rsp := 64 }) (nopOf .callT0) .align 64 = true ∧
      faults (probeOf (nopOf .ret) fun t => { setS 15 data (outer 0 t) with rsp := 64 }) (nopOf .ret) .align 64 = true ∧
      faults (probeOf (nopOf .callBt) fun t => asUser (setS 7 data t)) (nopOf .callBt) .access data = true ∧
      faults (probeOf (nopOf .ret) fun t => asUser (setS 15 data { t with fres := 1 })) (nopOf .ret) .access data = true := by decide +kernel

/-- The lead of stream 0 stands at the JOIN of its block, at the frontier; strand 50 has detached there and, with `w`, waits, on
slot `k`. -/
def joined (w : Bool) (k : Nat) : State :=
  { alone.modTile 0 fun t => t.setStream 0 { (t.streams[0]?).getD { members := [] } with detached := [(50, probeHdr + 8)] } with
    strands := tput alone.strands 50 { probeStrand with place := .slot k, fmode := .detached, hdr := probeHdr + 8 }
    slots := tput alone.slots k { uid := 50, joinWait := if w then some (probeHdr + 8) else none } }

/-- split_and_join_leave_and_enter_the_stream with a detached set: an entry that waits on another core attaches, one that waits on
the lead's core goes on alone, one that has not come is waited for; a detached strand with an entry waits; with every stream
taken an unbound strand is MISSED. -/
theorem test_joins_with_a_detached_set :
    completes (joined true 4) join (fun t => t.readS 18 == 0) = true ∧
      (after join (joined true 4) fun t => (tget t.strands 50).any (·.fmode == .attached)) = true ∧
      (after join (joined true 1) fun t => (tget t.strands 50).any (·.fmode == .detached) && ((t.tile 0).streams[0]?).any (·.detached == [])) = true ∧
      (after join (joined false 4) fun t => ((t.tile 0).streams[0]?).any (·.joining == some (probeHdr + 8)) && strandOf t (·.widx == 1)) = true ∧
      (after join (probeOf join (mode .detached) fun s => s.modTile 0 fun t => t.setStream 0 { members := [4], detached := [(uid, probeHdr)] }) fun t =>
        slotOf t (·.joinWait == some probeHdr)) = true ∧
      completes (probeOf join id fun s => s.modTile 0 fun t => { t with streams := List.replicate 4 { members := [8] } }) join
        (fun t => t.readS 18 == 4 && t.fmode == .unbound) = true := by decide +kernel

/-- engine_words_done_at_once: TENSOR of entries that are not as asked (identifier 0 has none), and KVSTALE of a length of another
generation. -/
theorem test_engine_words_refuse_their_entries :
    [Instr.attmerge noCtl (.s 27) (.s 27) 0 14, .kvapp noCtl (.s 9) 0 7, .kvlook noCtl (.v 9) (.s 18) (.s 24) 0 true].all
      (fun i => faults (probeOf i engRegs (onEngine 8)) i .tensor (encodeWord i)) = true := by decide +kernel

/-- Small operands and results: one element, one row, one column, and a list of two. -/
def small : List (Nat × Entry) := [
  (2, entry 0x20003 (place 0x1000) 0 0x800000020 0x100000002 128 1024 0x10000 0 0),
  (1, entry 0x20002 0 0 0x10000000020 0x100000002 256 128 0x10000000000 0 (place 0x800)),
  (12, matrix 6 32 2 (place 0x2A00) 32), (13, matrix 0 2 2 (place 0x2B00) 8), (14, matrix 0 32 1 (place 0x2C00) 128),
  (16, matrix 0 1 2 (place 0x2F00) 4), (9, entry 0x800B01 (place 0x2600) (place 0x2700) 0x100000020 0x100000001 0 0 0 0 0),
  (18, matrix 0 1 1 (place 0x3000) 4), (19, matrix 0 1 1 (place 0x3100) 4), (20, matrix 0 32 1 (place 0x3200) 128),
  (21, matrix 0 32 1 (place 0x3300) 128), (22, matrix 0 2 1 (place 0x3400) 8), (23, matrix 9 2 1 (place 0x3500) 8)]

def smallRegs (t : Strand) : Strand := setS 16 19 (setS 17 21 (setS 18 22 (setS 21 23 (setS 22 22 (engRegs t)))))

/-- The row-block words over the small tensors. -/
def smallWords : List (Nat × Instr) := [(0, .mm noCtl (.s 20) 12 12 false), (0, .mmdist noCtl (.s 20) 12 12 true),
  (0, .mmtopk noCtl (.s 21) (.s 22) 20 20 true), (5, .spmm noCtl (.s 25) (.v 1) 9 14 false), (8, .attn noCtl (.s 24) (.s 17) (.s 18) 20 1 false),
  (10, .vemap noCtl (.s 16) (.s 24) 18), (10, .vezip noCtl (.s 16) (.s 24) 18 18), (10, .vered noCtl (.s 16) (.s 24) 18 false),
  (10, .venorm noCtl (.s 16) (.s 24) 18 none true), (10, .vesoft noCtl (.s 16) (.s 24) 18), (10, .vecvt noCtl (.s 16) 18 none)]

/-- row_block_engine_words_run_to_completion: the first row-block of the word writes. -/
def blockWrites (p : Nat × Instr) : Bool :=
  let s := act p.2 (probeOf p.2 smallRegs fun s => part0 (fun q => { q with tensors := [(1, small)] }) (onEngine p.1 s))
  (s.tile p.1).jobs.any fun j =>
    match engRun j.block s with
    | .ok (b, _, _) => !b.writes.isEmpty
    | .error _ => false

theorem test_first_row_blocks_of_the_matrix_engines_write : (smallWords.take 4).all blockWrites = true := by decide +kernel

theorem test_first_row_block_of_attn_writes : ((smallWords.drop 4).take 1).all blockWrites = true := by decide +kernel

theorem test_first_row_blocks_of_the_vector_engine_write : (smallWords.drop 5).all blockWrites = true := by decide +kernel

/-- A strand 70 + `j` that waits for the counter at 0x102000. -/
def onCounter (l : List (Nat × Word)) : State :=
  let sl := sliceOf 0x102000
  { (onOverflow 256 4).modField 0 fun f => { f with overflow := f.overflow.set sl (l.map fun e => { pa := 0x102000, thr := e.2, uid := e.1 }) } with
    strands := l.foldl (fun t e => tput t e.1 { probeStrand with place := .waiting, waitK := .cwaitOvf }) base.strands }

def vstore : FwdEntry := { n := 1, instr := some (.stv noCtl (.v 1) (.s 10) 0 .w), guard := 0, scalars := [], pred := none, lanes := 0, returns := none, store := true, before := probeStrand, pos := 0, windows := [], ahead := [] }
def buffered (l : List StoreEntry) (f : List FwdEntry := []) : State := base.modSlot 0 fun sl => { sl with buf := l, fwd := f }
def org : Origin := { tpc := 0, hdr := 0 }
def elem8 : StoreElem := { va := data, pa := 0x102000, bytes := bytesOf 8 9 }

/-- memory_acts_perform_what_is_posted: the drain of an addition, of an entry with no element, of one that passes the cache by, of
one at the scratchpad, of the only one before its vector store has started; a clean line and one that the core does not hold
evicted; sweeps of lists of several entries and past a record still being linked; devices' work with no addition. -/
theorem test_acts_on_lists : ([
  after (.storeBufferDrain 0) (buffered [.cadd data 0x102000 5]) fun t => t.dwAt 0x102000 == 5,
  after (.storeBufferDrain 0) (buffered [.store org [], .store org [elem8]]) fun t => slotOf t (·.buf.length == 1),
  after (.storeBufferDrain 0) (buffered [.store { org with past := true } [elem8]]) fun t => t.dwAt 0x102000 == 9 && (t.core 0).l1 == [],
  after (.storeBufferDrain 0) (buffered [.store org [{ elem8 with va := pad, pa := 3 * 2 ^ 62 }]]) fun t => t.dwAt (3 * 2 ^ 62) == 9,
  after (.storeBufferDrain 0) (buffered [.store org [elem8]] [vstore]) fun t => slotOf t (·.buf.length == 1),
  after (.storeBufferDrain 0) base fun t => t.mem == base.mem, after (.storeBufferDrain 9) base fun t => t.mem == base.mem,
  after (.homeSliceWrite 0 (data + 0x80)) drained fun t => (t.core 0).l1.length == 1,
  after (.homeSliceWrite 0 data) (drained.modCore 0 fun c => { c with l1 := c.l1.map fun l => { l with dirty := 0 } }) fun t => t.dwAt 0x102000 == 0 && (t.core 0).l1 == [],
  after (.overflowSweep 0 (sliceOf 0x102000)) (onCounter [(70, 5), (71, 4), (72, 6)]) fun t =>
    ((t.field 0).overflow[sliceOf 0x102000]?).any (fun l => l.map (·.uid) == [70, 72]) && (tget t.strands 71).any (·.place == .ready 0),
  after (.overflowSweep 0 (sliceOf 0x102000)) (((onCounter [(70, 5), (71, 4)]).modSlot 0 fun sl => { sl with uid := 71, hold := some .save }).modStrand 71 fun x => { x with place := .slot 0 })
    fun t => ((t.field 0).overflow[sliceOf 0x102000]?).any (·.length == 2) && t.timers.length == 1,
  after (.faultSweep 0) (base.modField 0 fun f => { f with faults := [{ absent with va := data }, absent, { absent with va := data }, absent] }) fun t =>
    (t.field 0).faults == [absent, absent],
  after (.counterAddition 0) base fun t => t.mem == base.mem] : List Bool).all id = true := by decide +kernel

def dividing : Instr := .div { noCtl with la := 3 } (.v 1) (.v 2) (.v 3) full
def predOf (n : Nat) : FwdEntry := { vstore with instr := none, pred := some (1, BitVec.ofNat 64 n), store := false }
def starting (f : List FwdEntry) (g : State → State := id) : State := g (later (base.modSlot 0 fun sl => { sl with fwd := f }))
def heldAt (n : Nat) : State := { base.modField 0 fun f => { f with hold := some 0 } with time := n }

/-- the_vector_side_starts_leases_and_droops: predicates of the scalar side taken up to the head; a division with a window, which
is outstanding from its start; a dark tile; a lease refused in a hold, kept while its core starts words, returned past a retired
pool; a sense event inside a stretch, and one of a core that is not good. -/
theorem test_the_vector_side_takes_predicates_and_divides : ([
  after (.vectorSideStart 0) (starting [predOf 3, predOf 7]) fun t => slotOf t fun sl => sl.fwd == [] && sl.vp[1] == 7,
  after (.vectorSideStart 0) (starting [predOf 3, vstore]) fun t => slotOf t fun sl => sl.fwd == [] && sl.vp[1] == 3,
  after (.vectorSideStart 0) (starting [vstore] fun s => s.modTile 0 fun t => { t with lit := false }) fun t => slotOf t (·.fwd.length == 1),
  (after dividing (probeOf dividing) fun s => slotOf s (fun sl => sl.flight == [] && sl.fwd.any (·.opens)) &&
    after (.vectorSideStart 0) (later s) fun t => slotOf t fun sl => sl.flight.length == 1 && sl.windows.length == 1 && sl.fwd == []),
  after (.leaseRequest 0) ((leaseOf true).modField 0 fun f => { f with hold := some 0 }) fun t => (t.core 0).lease == 0,
  after (.leaseIdleReturn 0) (base.modCore 0 fun c => { c with lease := 5 }) fun t => (t.core 0).lease == 5 && t.timers.length == 1,
  after (.leaseIdleReturn 0) { base.modCore 0 fun c => { c with lease := 5 } with time := 5000 } fun t => (t.core 0).lease == 0,
  after (.senseEvent 0) ({ base with boot := .ready }.modCore 0 fun c => { c with stretchEnd := 9 }) fun t => (t.core 0).stretchEnd == 9 && (t.core 0).stretch == 0,
  after (.senseEvent 0) ({ base with boot := .ready }.modCore 0 fun c => { c with stretchEnd := 3 }) fun t => (t.core 0).stretchEnd == 6 && (t.core 0).stretch == 3,
  after (.senseEvent 0) ({ base with boot := .ready }.modCore 0 fun c => { c with good := false }) fun t => (t.core 0).sense == 0,
  after (.senseEvent 0) base fun t => (t.core 0).sense == 0,
  after (.droopHoldExit 0) ((heldAt 30000).modField 0 fun f => { f with senses := List.replicate 65 30000 }) fun t => (t.field 0).hold == some 0] :
    List Bool).all id = true := by
  decide +kernel

/-- A page of 64 KiB of the second tier, its frame's stack with one frame, and the key of its context in slot 1. -/
def tierWaits (w : List Held) (lost : Bool) : State :=
  let s := [((0x90000 : Word), (0x91000 : Word)), (0x91000, 0x92000), (0x92000, 1), (0x92008, 8), (0x92040, 0x110000), (0x90028, 0x93000),
    (0x93000, 0x100)].foldl (fun s e => dword e.1 e.2 s) base
  { s.modField 0 fun f => { f with promos := [{ part := 0, ctx := 1, va := data, big := false, entry := 0x400000000000083A, slot := 0x33000, waiters := w }] } with
    keys := [(1, 7)]
    chunks := if lost then [(2 ^ 50, { empty := false })] else []
    uncorr := if lost then [2 ^ 59] else [] }

/-- Strand 1, on its slot, whose access asked for the page, an act, and a record that waits for it. -/
def toucher (who : Waiter) : Held := { wait := { who := who, part := 0, ctx := 1, va := data, acc := 0 }, info := 0, taskid := 0 }
def raisingA (l : List Nat) : State := raising l none none

/-- promotions_and_generations_complete: the premises of a fill that is whole, and of one whose first chunk fails its check; the
latter for a strand, an act and nobody; an acknowledgement that waits for a vector store, and one of an engine that runs a
row-block; a raise of a virtual function; a leaf that has changed. -/
theorem test_promotions_meet_tag_failures : ([
  ((tierWaits [] false).popFrame 0x92000).any fun p => ((p.1.fillFrame [] (2 ^ 62) p.2 16 16).2).isNone,
  ((tierWaits [] true).popFrame 0x92000).any fun p => (p.1.fillFrame [] (2 ^ 62) p.2 16 16).2 == some 0,
  after (.tierPromotion 0) (tierWaits [] true) fun t => (tget t.parts 0).any (·.tagfail == 1) && (t.field 0).promos == [],
  after (.tierPromotion 0) (tierWaits [toucher (.strand uid), toucher (.strand uid)] true) fun t => strandOf t fun x => bits x.cause 4 0 == FaultCode.uncorr.num,
  after (.tierPromotion 0) (tierWaits [toucher (.act (.egressDescriptor 1))] true) fun t => (tget t.parts 0).any (·.lostActs.length == 1),
  after (.promotionComplete 0) (promoted 0x63B (some 0x110000)) fun t => t.dwAt 0x33000 == 0x63A && (t.field 0).promos == [],
  after (.generationAck 0) ((raisingA [0, 1]).modSlot 0 fun sl => { sl with fwd := [vstore] }) fun t =>
    (tget t.parts 0).any fun p => p.raises.map (·.left) == [[1, 0]],
  after (.generationAck 0) { running with parts := (raisingA [40000]).parts } fun t => (tget t.parts 0).any fun p => p.raises.map (·.left) == [[40000]],
  after (.generationSwitch 0) (part0 (fun p => { p with vfs := [(0, { moving := some (4, data) })] }) (raising [] none (some 0))) fun t =>
    (tget t.parts 0).any fun p => p.gens == [(1, 1)] && p.raises == []] : List Bool).all id = true := by
  decide +kernel

def slotLost (n : Option Nat) (s : State) : State := s.modSlot 0 fun sl => { sl with lost := some { n := 5, since := n } }

/-- records_are_picked_up_and_put_down: a pre-emption of an access without its reply and of a creation that waits; two saves
stalled. -/
theorem test_waits_of_pre_empted_strands : ([
  after (.preemption 0) (slotLost (some 0) preempted) fun t => t.timers.length == 1 && slotOf t (·.hold.isNone),
  after (.preemption 0) (preempted.modSlot 0 fun sl => { sl with hold := some .creation }) fun t => strandOf t (·.waitK == .preempted),
  after (.preemption 0) (preempted.modSlot 0 fun sl => { sl with stalled := true }) fun t => slotOf t (·.hold.isNone),
  after (.stalledSaveResume 0) (part0 (fun p => { p with stalled := [uid, 70] }) (withArena (act (.putDown 0) (yielded base)))) fun t =>
    (tget t.parts 0).any (·.stalled == [70])] : List Bool).all id = true := by
  decide +kernel

def jobLost (l : Lost) (time : Nat) : State :=
  { mmState.modTile 0 fun t => { t with jobs := t.jobs.map fun j => { j with lost := some l } } with time := time }
def adding (l : Option Lost) (time : Nat) : State := { copied.modTile 0 fun t => { t with addLost := l } with time := time }

/-- engines_run_row_blocks_and_commands: a row-block without replies, on a dark tile, and of a slot that is to be pre-empted; a
chunk's write and an addition without a reply; a command that is held; a scrubber's command. -/
theorem test_engines_wait_for_replies : ([
  after (.rowBlockStart 0) (jobLost { n := 5 } 7) fun t => (t.tile 0).jobs.any (·.lost == some { n := 5, since := some 7 }) && t.timers.any (·.1 == 100007),
  after (.rowBlockStart 0) (jobLost { n := 5, since := some 7 } 8) fun t => (t.tile 0).jobs.any (·.status == .ready),
  after (.rowBlockStart 0) (jobLost { n := 5, since := some 0 } 100000) fun t => (t.tile 0).jobs.any fun j => match j.status with
    | .stopped (.fault c _) => c == .timeout
    | _ => false,
  after (.rowBlockStart 0) (mmState.modTile 0 fun t => { t with lit := false }) fun t => (t.tile 0).jobs.any (·.status == .ready),
  after (.rowBlockStart 0) (mmState.modSlot 0 fun sl => { sl with preempt := true }) fun t => (t.tile 0).jobs.any (·.status == .stopped .preempt),
  after (.copyChunk 0) (queued.modCopies 0 0 fun q => { q with lost := some { n := 1 }, lostWrite := true }) fun t => t.timers.any (·.1 == 20000),
  after (.copyChunk 0) base fun t => t.mem == base.mem,
  after (.copyCompletion 0) (adding (some { n := 5, since := some 0 }) 100000) fun t => (t.tile 0).copied == [] && t.tasks.any (·.2.fault.isSome),
  after (.copyCompletion 0) (copied.modTile 0 fun t => { t with copied := t.copied.map fun c => { c with ctr := 0 } }) fun t => (t.tile 0).copied == [],
  after (.copyCompletion 0) (copied.modTile 0 fun t => { t with copied := t.copied.map fun c => { c with held := true } }) fun t => (t.tile 0).copied.length == 1,
  after (.scrubberRun 0) scrubbed fun t => (t.field 0).scrubs.all (1 ≤ ·.stage)] : List Bool).all id = true := by
  decide +kernel

/-- the_broker_grants_recalls_and_revokes: a floor with no loan to reclaim; notices to a core that starts words, to a lender and to
the reserve; nothing to reclaim; recalls still out. -/
theorem test_the_broker_waits_and_moves : ([
  after (.floorRequest 1) (base.modField 0 fun f => { f with free := 7 }) fun t => !(t.tile 1).lit,
  after (.revocationNotice 0) ((pushed.modTile 0 fun t => { t with notices := [{ amount := 5, core := some 0, dest := .pool 0 }] })) fun t =>
    (t.tile 0).notices.length == 1,
  after (.revocationComplete 0) (base.modTile 0 fun t => { t with taken := [{ amount := 5, dest := .tile 1 }] }) fun t => (t.tile 0).taken == [],
  after (.revocationComplete 0) (base.modTile 0 fun t => { t with taken := [{ amount := 5, dest := .reserve 0 }] }) fun t => (t.field 0).total == 1595,
  after (.crucibleReclaim 0) base fun t => (t.field 0).free == 1592,
  after (.recallComplete 0) (act (.leaveRequest 0) (leaving 0 0 (lentTo 1))) fun t => (t.tile 0).recalls.length == 1] : List Bool).all id = true := by
  decide +kernel

def isHeld : Reach → Bool
  | .held _ => true
  | _ => false

def depTask (d : Word) : State := dword (data + 0x3030) d (tasked 2)

/-- tasks_are_read_launched_and_ended: a descriptor that is lost, a tail that is reached, a header or a
counter on an absent page, a header at no page, and lost; a DEP counter read, and at no page; a grid whose strand waits for a
reply; an end without DONE, and one whose DONE stands nowhere; a rollback with no tile to take it. -/
theorem test_tasks_meet_what_is_not_there : ([
  after (.taskHeaderRead 0 0 0) { tasked 2 with uncorr := [0x104000 / 8] } fun t => t.tasks.length == 1 && t.dwAt 0x104018 == 0,
  after (.taskHeaderRead 0 0 0) (act (.taskHeaderRead 0 0 0) (tasked 2)) fun t => t.dwAt 0x104018 == 1,
  isHeld ((tasked 2).reach (.taskHeaderRead 0 0 0) false 0 1 0x8000000070000000 .read),
  ((tasked 2).reachAll (.taskCompletion 0) 0 1 [(0x8000000070000000, .rmw)]).2.isNone,
  after (.taskHeaderRead 0 0 0) (dword (data + 0x2000) 0xFF00000000000000 (tasked 2)) fun t => t.tasks.any fun e => e.2.fault.isSome && e.2.stopping,
  after (.taskHeaderRead 0 0 0) { tasked 2 with uncorr := [0x105000 / 8] } fun t => t.tasks.any fun e => e.2.fault.any fun r => bits r[0] 4 0 == FaultCode.uncorr.num,
  after (.taskHeaderRead 0 0 0) (depTask (data + 0x900)) fun t => (tget t.parts 0).any fun p => (p.queue 0 0).headers.any (·.depSeen == some 0),
  after (.taskHeaderRead 0 0 0) (depTask 0x8F00000000000000) fun t => (tget t.parts 0).any fun p => (p.queue 0 0).headers.any (·.depSeen == none),
  after (.gridStop 0) (slotLost (some 0) (faulty .illop id (act ldLater (probeOf ldLater bases)))) fun t => t.strands != [] && t.timers.length == 1,
  after (.taskCompletion 0) (ended ((tasked 2).modTask 0 fun x => { x with header := x.header.set 4 0 })) fun t => t.tasks == [],
  after (.taskCompletion 0) (ended ((tasked 2).modTask 0 fun x => { x with header := x.header.set 4 0x8F00000000000000 })) fun t => t.tasks == [],
  after (.rollback 0) ((upto 16).foldl (fun s i => s.modTile i fun t => { t with good := false }) (ended (faulty .uncorr (fun x =>
    { x with stopping := true, header := #v[probeHdr, 0xFF000000000002, 0x101023F, 0, 0, 0, 0, 0] }) (tasked 2)))) fun t =>
    t.strands == [] && t.timers.length == 1] : List Bool).all id = true := by
  decide +kernel

def rowOf (x : Row) (alerts : List RowId := []) : State := { base with rows := [(rowA, x)], alerts := alerts }
def tileGone (l : List Nat) (s : State) : State := l.foldl (fun s i => s.modTile i fun t => { t with good := false }) s

/-- failures_and_time_take_their_course: an Assay of each part with each outcome; levels 0 and 1; a field that keeps an anchor, and
one retired before; a snapshot with no partition; a blocked row, a hot one before and at its time, the limit of 2,047; no alert of
a bank, and one behind another's; an error of the input. -/
theorem test_assays_rows_and_errors : ([
  after (.assayEnd (.tileBank 1 0) true) base fun t => (t.tile 1).bucket.level == 32,
  after (.assayEnd (.wholeTile 1) true) base fun t => (t.tile 1).bucket.level == 64 && !(t.tile 1).bucket.suspect,
  after (.assayEnd (.wholeTile 1) false) base fun t => !(t.tile 1).good, after (.assayEnd (.wholeCore 1) false) base fun t => !(t.core 1).good,
  after (.assayEnd (.sliceRow 0 3 7) false) base fun t => (t.field 0).l2Gone == [(3, 7)], after (.assayEnd (.sliceRow 0 3 7) true) base fun t => (t.field 0).l2Gone == [],
  after (.assayEnd (.rdcRow 0 3) false) base fun t => (t.field 0).rdcGone == 1, after (.assayEnd (.dramRow 0x110000) true) base fun t => t.spares == [],
  after (.bucketDecay 1 false) (base.modCore 1 fun c => { c with bucket := { level := 1 } }) fun t => (t.core 1).bucket.level == 0 && t.timers == [],
  after (.bucketDecay 1 true) base fun t => t.timers == [],
  after (.wholeCoreAssay 1 true) (base.modTile 1 fun t => { t with bucket := { level := 200, suspect := true } }) fun t => (t.tile 1).bucket.busy,
  after (.islandRetirement 0) base fun t => !(t.field 0).retired,
  after (.islandRetirement 0) (base.modField 0 fun f => { f with retired := true }) fun t => (t.field 0).retired,
  after (.occupancySnapshot 1) base fun t => t.timers == [],
  after (.rowPrecharge rowA 1 false) (rowOf { count := 5 } [rowA]) fun t => (rowFind t.rows rowA).count == 5,
  after (.rowPrecharge rowA 1 false) (rowOf { count := 5, hot := true, last := 0 }) fun t => (rowFind t.rows rowA).count == 5,
  after (.rowPrecharge rowA 1 false) { rowOf { count := 5, hot := true, last := 0 } with time := 1000 } fun t => (rowFind t.rows rowA).count == 6,
  after (.rowPrecharge rowA 2 false) { rowOf { count := 5, hot := true, last := 0 } with time := 1000 } fun t => (rowFind t.rows rowA).count == 5,
  after (.rowPrecharge rowA 3000 false) base fun t => (rowFind t.rows rowA).count == 2047 && t.alerts == [rowA],
  after (.refreshManagement 1 0 0) (withCount 1024) fun t => t.alerts == [rowA],
  after (.refreshManagement 0 0 0) (rowOf {} [{ rowA with bank := 1 }, rowA]) fun t => t.alerts == [{ rowA with bank := 1 }],
  after .timeTick { base with upsets := [.sliceCorrected 0, .word 8] } fun t => t.upsets == [.word 8] && (t.field 0).corrected == 1
  ] : List Bool).all id = true := by
  decide +kernel

def asked (c : Command) : State := { ready base with command := some c }

/-- management_commands_answer_in_order: a total at its bounds and below the floors, a pool that is no pool, an allowance raised
and cut, for a partition that is not there; SETPOOL's own look, waiting and ending; HALT and RESUME of a partition that is not
there; a command while its like is under way. -/
theorem test_pools_and_allowances : ([
  after (.setpool 0 (some 3200) none) (ready base) fun t => t.replies == [.done] && t.reserve == 0,
  after (.setpool 0 (some 3201) none) (ready base) fun t => t.replies == [.refused],
  after (.setpool 0 (some 7) none) (ready base) fun t => t.replies == [.refused],
  after (.setpool 49 (some 1600) none) (ready base) fun t => t.replies == [.refused],
  after (.setpool 0 (some 1600) (some (0, 40))) (ready base) fun t => t.replies == [.done] && t.dwAt 0x40038 == 40,
  after (.setpool 0 none (some (0, 40))) (part0 (fun p => { p with topped := 41 }) (ready base)) fun t => t.command == some (.setpool none (some (0, 40))),
  after (.setpool 0 none (some (1, 40))) (ready base) fun t => t.replies == [.refused],
  after (.setpool 0 (some 1599) none) (act (.setpool 0 (some 1599) none) (ready base) |> fun s => { s with agenda := [] }) fun t =>
    t.command == none && t.replies == [.done],
  after (.setpool 0 (some 1599) none) (asked (.setpool (some (0, 1599)) none) |>.postOnce (.setpool 0 (some 1599) none)) fun t => t.pending.length == 1,
  after .readfuse (ready base) fun t => t.replies.length == 1,
  after .thermalWarning base fun t => t.replies == []
  ] : List Bool).all id = true := by
  decide +kernel

def withSession (f : Session → Session) (s : State := onPort) : State := s.setSession 32 3 (f open_)
def write4 : Packet := packet 0x10 0 data [1, 2, 3, 4]

/-- numbered_packets_are_performed_in_their_turn: a port that is down; a packet ahead of a gap, new and held before; one that
closes a gap; sessions of a released virtual function, of nobody, with a feature off, paused; a reserved bit; what is lost; a full
queue; CADD at the scratchpad; a READ of no page. -/
theorem test_packets_out_of_turn_or_turned_away : ([
  after (.gibenWrite 32 write4) (onPort.modPort 32 fun x => { x with down := true }) fun t => (t.port 32).out == [],
  after (.gibenWrite 32 { write4 with seq := 1 }) onPort fun t => (t.port 32).out == [] && (t.session 32 3).any (·.held.length == 1),
  after (.gibenWrite 32 { write4 with seq := 1 }) (withSession fun x => { x with held := [{ write4 with seq := 1 }] }) fun t => (t.session 32 3).any (·.held.length == 1),
  after (.gibenWrite 32 { write4 with addr := data + 8 }) (withSession fun x => { x with held := [{ write4 with seq := 1 }] }) fun t =>
    (t.session 32 3).any (fun x => x.held == [] && x.next == 2) && t.dwAt 0x102000 == 0x04030201,
  after (.gibenWrite 32 write4) ((withSession fun x => { x with vf := some 0 }).modVf 0 0 fun v => { v with released := true }) fun t => sent t 2 2,
  after (.gibenWrite 32 write4) (withSession fun x => { x with part := 7 }) fun t => sent t 2 3,
  after (.gibenAtomic 32 (packet 0x13 0 data (bytesOf 8 5))) (withSession fun x => { x with feat := 0 }) fun t => sent t 2 3,
  after (.gibenWrite 32 write4) ((withSession fun x => { x with vf := some 0 }).modVf 0 0 fun v => { v with pause := 2 }) fun t => sent t 2 1,
  after (.gibenWrite 32 { write4 with reserved := 1 }) onPort fun t => sent t 2 3, after (.gibenWrite 32 { write4 with ver := 1 }) onPort fun t => sent t 2 3,
  after (.gibenRead 32 (packet 0x11 4 data [])) { onPort with uncorr := [0x102000 / 8] } fun t => sent t 2 3,
  after (.gibenAtomic 32 (packet 0x13 0 data (bytesOf 8 5))) { onPort with uncorr := [0x102000 / 8] } fun t => sent t 2 3,
  after (.gibenCadd 32 (packet 0x14 5 data [])) { onPort with uncorr := [0x102000 / 8] } fun t => sent t 2 3,
  after (.append 32 { packet 0x15 0 0 (List.replicate 64 1) with vf := 0 }) { userQueue (withSession fun x => { x with vf := some 0 }) with uncorr := [0x102800 / 8] } fun t => sent t 2 3,
  after (.append 32 { packet 0x15 0 0 (List.replicate 64 1) with vf := 0 }) (dword (data + 0x800) 4 (userQueue (withSession fun x => { x with vf := some 0 }))) fun t => sent t 2 1,
  after (.gibenBlock 32 (packet 0x16 (2 ^ 63) data [])) ((bound 32).modPort 32 fun x => { x with blocks := List.replicate 256 0 }) fun t => sent t 2 1,
  after (.gibenBlock 32 (packet 0x16 0 data [1, 2, 3, 4])) (bound 32) fun t => (t.port 32).blocks == [] && t.valAt 0x102000 4 == 0x04030201,
  after (.gibenCadd 32 (packet 0x14 5 pad [])) onPort fun t => sent t 2 3, after (.gibenRead 32 (packet 0x11 4 0x8F00000000000000 [])) onPort fun t => sent t 2 3
  ] : List Bool).all id = true := by
  decide +kernel

/-- A binding block whose gateway task has `n` strands, of CLASS 0. -/
def gatewayBlock (n : Nat) (s : State) : State :=
  [((0 : Word), probeHdr), (8, BitVec.ofNat 64 (0xFF000000000000 + n)), (0x10, 0x100020F)].foldl (fun s e => dword (data + 0x7800 + e.1) e.2 s)
    (dword (data + 0x7010) (data + 0x7800) (bindBlock s))
def bindPk : Packet := packet 0x20 1 (data + 0x7000) (bytesOf 8 1)
def migPk (n : Nat) : Packet := packet 0x20 (BitVec.ofNat 64 n) (data + 0x7400) []

/-- management_packets_bind_and_migrate: gateway tasks of 0 strands (refused) and of 4; ATTEST; COLLECT; RELEASE of a virtual
function that is not paused; a session of a virtual function. -/
theorem test_bindings_with_tasks_and_migration : ([
  after (.bind 32 bindPk) (gatewayBlock 0 onPort) fun t => sent t 2 0 && (t.port 1).bind.any (fun b => b.task.any fun n => (tget t.tasks n).any (·.fault.isSome)),
  after (.bind 32 bindPk) (gatewayBlock 4 onPort) fun t => sent t 2 0 && (t.port 1).bind.any (fun b => b.task.any fun n => (tget t.tasks n).any (·.fault.isNone)),
  after (.collect 32 (migPk 5)) onPort fun t => sent t 2 0 && (t.vf 0 0).moving.isSome,
  after (.release 32 (migPk 7)) onPort fun t => sent t 2 3 && !(t.vf 0 0).released,
  after (.gibenAttest 32 (packet 0x20 3 0 [])) onPort fun t => sent t 2 3,
  after (.bind 32 bindPk) (withSession fun x => { x with vf := some 0 }) fun t => sent t 2 3,
  after (.release 32 (migPk 7)) ((bound 1).modVf 0 0 fun v => { v with pause := 3 }) fun t => (t.port 1).bind.isNone && (t.vf 0 0).released
  ] : List Bool).all id = true := by
  decide +kernel

def egressing (d : Vector Word 8) : Egress := { place := data + 0x7200, desc := d, session := 3 }
def sending (s : State) : State := dword (data + 0x7100) 1 s

/-- sessions_and_egress_follow_their_links: a HELLO of a released virtual function and one with a bad header; an ACK of no session
and one of another version, REFUSED, MOVED and BUSY; a timeout before its time; a port with no session, with a lost one, with a
lost ETAIL and a lost descriptor; descriptors that are bad, a counter's, one whose bytes are lost or stand nowhere; RES without a
counter; a port past the last. -/
theorem test_sessions_that_close_and_descriptors_that_end : ([
  after (.hello 32 { helloOf 1 2 with vf := 0 }) ((onPort.modVf 0 0 fun v => { v with released := true })) fun t => sent t 2 2,
  after (.hello 32 { helloOf 1 2 with reserved := 1 }) (ready base) fun t => sent t 2 3,
  after (.gibenAck 32 (packet 2 0 0 [])) (ready base) fun t => sent t 2 3, after (.gibenAck 32 { packet 2 0 0 [] with ver := 1 }) onPort fun t => sent t 2 3,
  after (.gibenAck 32 { packet 2 3 0 [] with ack := 1 }) ((withSession id (bound 32)).modPort 32 fun x => { x with egress := some { egressing (Vector.replicate 8 0) with sent := true } }) fun t =>
    (t.port 32).egress.any (·.res == some 2),
  after (.retransmitTimeout 32 3) (withSession fun x => { x with unacked := [write4], due := some 5 }) fun t => (t.port 32).out == [],
  after (.retransmitTimeout 32 4) onPort fun t => (t.port 32).out == [],
  after (.egressDescriptor 32) (sending ((bound 32).modPort 32 fun x => { x with sessions := [] })) fun t => (t.port 32).egress.isNone,
  after (.egressDescriptor 32) (sending ((bound 32).modPort 32 fun x => { x with lost := true })) fun t => (t.port 32).egress.any (·.res == some 1),
  after (.egressDescriptor 32) { sending (bound 32) with uncorr := [0x109100 / 8] } fun t => (t.port 32).egress.isNone,
  after (.egressDescriptor 32) { sending (bound 32) with uncorr := [0x109200 / 8] } fun t => (t.port 32).egress.any (·.res == some 2),
  after (.egressDescriptor 32) ((bound 32).modPort 32 fun x => { x with egress := some (egressing #v[2, 0, data, 0, 5, 0, 0, 0]) }) fun t => (t.port 32).out.length == 1,
  after (.egressDescriptor 32) ((bound 32).modPort 32 fun x => { x with egress := some (egressing #v[1, 0x0F00000000000000, data, 4, 0, 0, 0, 0]) }) fun t => (t.port 32).egress.any (·.res == some 2),
  after (.egressDescriptor 32) (dword 0x20040 0x30000 { bound 32 with uncorr := [0x102000 / 8] } |>.modPort 32 fun x => { x with egress := some (egressing #v[1, 0x102000, data, 4, 0, 0, 0, 0]) }) fun t =>
    (t.port 32).egress.any (·.res == some 2),
  after (.egressComplete 32 2) ((bound 32).modPort 32 fun x => { x with egress := some { egressing (Vector.replicate 8 0) with sent := true, res := some 2 } }) fun t =>
    (t.port 32).egress.isNone && t.dwAt 0x109238 == 2,
  after (.portLinkUp 34) base fun t => t.ports == []] : List Bool).all id = true := by
  decide +kernel

/-! ### Steps -/

def stepTo (s : State) (p : State → Bool) : Bool :=
  match step s with
  | .next t => p t
  | _ => false

def nopWord : Nat := (encodeWord (nopOf .next)).toNat

/-- a_step_runs_the_decoded_word, every_step_keeps_memory_canonical: a word in its place, word 0, one that does not decode, one out of
place, an event, and nothing due; each from a canonical memory. -/
theorem test_steps : ([
  Mem.wf (probe nopWord).mem, stepTo (probe nopWord) fun t => strandOf t (·.widx == 2) && Mem.wf t.mem,
  stepTo (probe nopWord fun t => { t with widx := 0 }) fun t => strandOf t (·.widx == 1),
  stepTo (probe 0x00000FE404000000) fun t => strandOf t fun x => bits x.cause 4 0 == FaultCode.operand.num,
  stepTo (probe 0x0000020404000010) fun t => strandOf t fun x => bits x.cause 4 0 == FaultCode.illop.num,
  stepTo (probe probeHeader.toNat) fun t => strandOf t fun x => bits x.cause 4 0 == FaultCode.illop.num,
  stepTo State.reset fun t => t.time == 1, stepTo { State.reset with agenda := [] } fun t => t.time == 1 && Mem.wf t.mem
  ] : List Bool).all id = true := by
  decide +kernel

/-- Two slots of core 0 stand at the same word, slot 1 being the next in rotation; the turn is slot 0's. -/
def sharing : State :=
  let s := probe nopWord
  { s with strands := tput s.strands 60 { probeStrand with place := .slot 1 }, slots := tput s.slots 1 { uid := 60, turned := true } }

/-- a_step_runs_the_decoded_word: a turn that the script names, and one that it names of nobody; the slot whose turn it is on the
core; a dark tile; a suspension that has struck, with and without an outstanding instruction; a word kept from before a CINV.code;
no cycle left in the nanosecond, and an odd one during halved issue; a word that waits. -/
theorem test_turns : ([
  stepTo { State.reset with agenda := [.event .detourRoute, .event .timeTick], script := [1] } fun t => t.time == 1 && t.script == [],
  stepTo { State.reset with agenda := [], script := [3] } fun t => t.time == 1,
  stepTo sharing fun t => (tget t.strands 60).any (·.widx == 2) && strandOf t (·.widx == 1),
  stepTo (probe nopWord id fun s => s.modTile 0 fun t => { t with lit := false }) fun t => strandOf t (·.widx == 1),
  stepTo (probe nopWord id fun s => s.modSlot 0 fun sl => { sl with stop := some (.page data 0 .read false, false) }) fun t => slotOf t fun sl => sl.stop == none && sl.hold.isSome,
  stepTo ((act ldLater (probeOf ldLater bases)).modSlot 0 fun sl => { sl with stop := some (.token, false) }) fun t => slotOf t fun sl => sl.stop.isSome && sl.hold.isNone,
  stepTo (probe 0 fun t => { t with kept := [(probeHdr + 8, BitVec.ofNat 64 nopWord)] }) fun t => strandOf t (·.widx == 2),
  stepTo (probe nopWord id fun s => s.modCore 0 fun c => { c with issueC := 9 }) fun t => strandOf t (·.widx == 1),
  stepTo (probe nopWord id fun s => { s.modCore 0 fun c => { c with issueC := 5, halfEnd := 9 } with time := 2 }) fun t => strandOf t (·.widx == 2) && (t.core 0).issueC == 7,
  stepTo (probe nopWord id fun s => s.modCore 0 fun c => { c with issueC := 1, halfEnd := 9 }) fun t => strandOf t (·.widx == 1),
  stepTo (probeOf ldLater bases fun s => s.modSlot 0 fun sl => { sl with flight := List.replicate 16 { n := 0, instr := ldLater, before := probeStrand, pos := 0, windows := [], left := 0, wroteL := false, needL := false } })
    fun t => strandOf t (·.widx == 1) && (t.core 0).issueC == 0
  ] : List Bool).all id = true := by
  decide +kernel

/-- register_words_change_nothing_else: ADD of two registers, as `completes` shows it, ends in no fault. -/
theorem test_a_register_word_changes_nothing_else :
    (let i := Instr.addR noCtl (.s 9) (.s 10) (.s 11) full
     completes (probeOf i operands) i fun t => t.readS 9 == 0x17F && t.readS 11 == 0xFF) = true := by decide +kernel

end Sys2Proof.Tests
end

section
/-! PROOFS. The state after reset (R6, R8). -/

namespace Sys2Proof.Machine

/-- No nominal period has passed at reset, so that every core stands before its first cycle (R6, R260). -/
theorem reset_cycleOf (c : Nat) : State.reset.cycleOf c = 0 := rfl

/-- Settles O58: State.reset lists no part, and an unlisted part reads as its structure's default fields. -/
theorem resetLeavesTheStateTheSpecGives : Obligations.reset_leaves_the_state_the_spec_gives := by
  have hfield : ∀ f, State.reset.field f = {} := fun _ => rfl
  have hcore : ∀ c, State.reset.core c = {} := fun _ => rfl
  refine ⟨State.reset_wf, rfl, rfl, rfl, rfl, rfl, rfl, rfl, rfl, rfl, rfl, rfl, fun f => ?_, fun c => ⟨reset_cycleOf c, ?_⟩,
    fun _ => rfl, fun _ => ⟨rfl, rfl⟩⟩
  · rw [hfield]; exact ⟨rfl, rfl, rfl, rfl⟩
  · rw [hcore]; exact ⟨rfl, rfl, rfl, rfl, rfl, rfl⟩

end Sys2Proof.Machine
end

section
/-! PROOFS. Time, the inputs and the agenda: what an act that is no tick leaves of them. -/

namespace Sys2Proof.Machine

/-- From `s` to `t` TIME and the inputs stay, and no turn leaves the agenda. -/
structure Undelayed (s t : State) : Prop where
  time : t.time = s.time
  moves : t.moves = s.moves
  upsets : t.upsets = s.upsets
  due : ∀ a ∈ s.agenda, a ∈ t.agenda

namespace Undelayed

/-- A change of other fields. -/
theorem of_fields {s t : State} (ht : t.time = s.time := by rfl) (hm : t.moves = s.moves := by rfl)
    (hu : t.upsets = s.upsets := by rfl) (ha : t.agenda = s.agenda := by rfl) : Undelayed s t :=
  ⟨ht, hm, hu, fun _ h => ha ▸ h⟩

theorem refl (s : State) : Undelayed s s := of_fields

theorem trans {a b c : State} (h : Undelayed a b) (g : Undelayed b c) : Undelayed a c :=
  ⟨g.time.trans h.time, g.moves.trans h.moves, g.upsets.trans h.upsets, fun x hx => g.due x (h.due x hx)⟩

/-- A change of other fields goes before. -/
theorem after {a b c : State} (g : Undelayed b c) (ht : b.time = a.time := by rfl) (hm : b.moves = a.moves := by rfl)
    (hu : b.upsets = a.upsets := by rfl) (ha : b.agenda = a.agenda := by rfl) : Undelayed a c :=
  (of_fields ht hm hu ha).trans g

theorem modTile (s : State) (n : Nat) (f : Tile → Tile) : Undelayed s (s.modTile n f) := of_fields
theorem postAt (s : State) (d : Nat) (i : Instr) : Undelayed s (s.postAt d i) := of_fields
theorem modField (s : State) (n : Nat) (f : Field → Field) : Undelayed s (s.modField n f) := of_fields
theorem modStrand (s : State) (u : Nat) (f : Strand → Strand) : Undelayed s (s.modStrand u f) := of_fields
theorem setStrand (s : State) (u : Nat) (x : Strand) : Undelayed s (s.setStrand u x) := of_fields

theorem foldl {α : Type} {f : State → α → State} (h : ∀ x a, Undelayed x (f x a)) (l : List α) (s : State) :
    Undelayed s (l.foldl f s) := by
  induction l generalizing s with
  | nil => exact .refl s
  | cons a l ih => exact (h s a).trans (ih _)

theorem postOnce (s : State) (i : Instr) : Undelayed s (s.postOnce i) :=
  ⟨by simp, by simp, by simp, s.postOnce_keeps i⟩

theorem postSlot (s : State) (k : Nat) : Undelayed s (s.postSlot k) :=
  ⟨by simp, by simp, by simp, s.postSlot_keeps k⟩

theorem postAll (s : State) (l : List Instr) : Undelayed s (s.postAll l) := by
  induction l generalizing s with
  | nil => exact .refl s
  | cons i l ih => exact (Undelayed.postOnce s i).trans (ih _)

/-! #### Records and ready queues -/

theorem restat (s : State) (u : Nat) : Undelayed s (s.restat u) := by
  unfold State.restat
  split
  · exact .refl s
  · split <;> exact of_fields

theorem relink (s : State) (l : List Nat) : Undelayed s (s.relink l) := by
  induction l generalizing s with
  | nil => exact .refl s
  | cons u l ih =>
    refine Undelayed.trans ?_ (ih _)
    split
    · exact of_fields
    · exact .refl s

theorem toReady (s : State) (u tile : Nat) : Undelayed s (s.toReady u tile) := by
  unfold State.toReady
  split
  · exact .refl s
  · exact (((((((postAt s _ _).trans (postAt _ _ _)).trans (postAt _ _ _)).trans (setStrand _ u _)).trans
      (restat _ u)).trans (modTile _ tile _)).trans (relink _ _)).trans (postOnce _ _)

theorem offReady (s : State) (u tile : Nat) : Undelayed s (s.offReady u tile) :=
  (modTile s tile _).trans (foldl (fun y _ => relink y _) _ _)

theorem queueRecords (s : State) (l : List Nat) : Undelayed s (s.queueRecords l) := by
  induction l generalizing s with
  | nil => exact .refl s
  | cons u l ih =>
    refine Undelayed.trans ?_ (ih _)
    split
    · split
      · exact toReady s u _
      · exact .refl s
    · exact .refl s

theorem queueTogether (s : State) : Undelayed s s.queueTogether := by
  unfold State.queueTogether
  split
  · exact .refl s
  · exact (queueRecords _ _).after

theorem makeReady (s : State) (u : Nat) : Undelayed s (s.makeReady u) := by
  unfold State.makeReady
  split
  · exact .refl s
  · simp only
    split
    · split
      · exact of_fields
      · exact (postSlot _ _).after.trans (queueTogether _)
    · exact (toReady _ _ _).after
    · exact .refl s

theorem wakeAll (s : State) (l : List Monitor) : Undelayed s (s.wakeAll l) := by
  induction l generalizing s with
  | nil => exact .refl s
  | cons m l ih => exact (makeReady _ m.uid).after.trans (ih _)

/-! #### Writes at home slices and of pinned structures -/

theorem orphanTrees (s s1 : State) : Undelayed s1 (s.orphanTrees s1) := by
  unfold State.orphanTrees
  simp only
  split <;> exact of_fields

theorem slicePut (s : State) (pa : Nat) (bs : List Byte) : Undelayed s (s.slicePut pa bs) := by
  unfold State.slicePut
  have hput : Undelayed s (s.orphanTrees (s.putAt pa bs)) := (orphanTrees s _).after
  split
  · exact of_fields
  · simp only
    split
    · exact hput
    · exact (hput.trans (modField _ _ _)).trans (wakeAll _ _)

theorem setPinDw (s : State) (p : Partition) (va : Word) (o : Nat) (w : Word) : Undelayed s (s.setPinDw p va o w) := by
  unfold State.setPinDw
  split
  · exact slicePut s _ _
  · exact .refl s

theorem putPins (s : State) (p : Partition) (va : Word) (l : List Word) : Undelayed s (s.putPins p va l) := by
  induction l generalizing s va with
  | nil => exact .refl s
  | cons w l ih => exact (setPinDw s p va 0 w).trans (ih _ _)

theorem noticeQueues (s : State) (pa : Nat) (v : Word) : Undelayed s (s.noticeQueues pa v) :=
  ((foldl (fun _ _ => of_fields) _ s).trans (foldl (fun _ _ => postOnce _ _) _ _)).trans
    (foldl (fun _ _ => (postOnce _ _).after) _ _)

theorem postUnless (s : State) (c : Prop) {_ : Decidable c} (i : Instr) : Undelayed s (if c then s else s.postOnce i) := by
  split
  · exact .refl s
  · exact postOnce s i

theorem counterAdd (s : State) (pa : Nat) (d : Word) : Undelayed s (s.counterAdd pa d) := by
  unfold State.counterAdd
  split
  · exact .refl s
  · refine Undelayed.trans ?_ ((noticeQueues _ pa _).trans (postAll _ _))
    split
    · split
      · exact ((slicePut s pa _).trans (postUnless _ _ _)).trans (postOnce _ _)
      · exact (slicePut s pa _).trans (postUnless _ _ _)
    · exact (slicePut s pa _).trans (postUnless _ _ _)

theorem bumpPin (s : State) (p : Partition) (va d : Word) : Undelayed s (s.bumpPin p va d) := by
  unfold State.bumpPin
  split
  · exact counterAdd s _ d
  · exact .refl s

theorem flushDescs (s : State) (p : Partition) (f : Nat) (l : List (List Word)) : Undelayed s (s.flushDescs p f l) := by
  induction l generalizing s with
  | nil => exact of_fields
  | cons d l ih =>
    unfold State.flushDescs
    simp only
    split
    · exact ((putPins s p _ d).trans (bumpPin _ p _ 1)).trans (ih _)
    · exact of_fields

theorem flushProms (s : State) (n : Nat) (p : Partition) (l : List (List Word)) : Undelayed s (s.flushProms n p l) := by
  induction l generalizing s with
  | nil => exact of_fields
  | cons d l ih =>
    unfold State.flushProms
    simp only
    split
    · exact ((putPins s p _ d).trans (bumpPin _ p _ 1)).trans (ih _)
    · exact of_fields

theorem flushRings (s : State) : Undelayed s s.flushRings := by
  refine Undelayed.trans (foldl (fun x e => ?_) _ s) (foldl (fun x e => flushProms x _ _ _) _ _)
  split
  · exact flushDescs x _ _ _
  · exact .refl x

/-! #### Errors and moves -/

theorem noteFault (s : State) (task : Nat) (r : Vector Word 7) : Undelayed s (s.noteFault task r) := by
  unfold State.noteFault
  split
  · exact .refl s
  · split
    · exact (postOnce _ _).after
    · exact of_fields

theorem endGrid (s : State) (k : Nat) (tval tpc hdr : Word) : Undelayed s (s.endGrid k tval tpc hdr) := by
  unfold State.endGrid
  split
  · exact .refl s
  · split
    · exact .refl s
    · split
      · exact .refl s
      · exact (noteFault _ _ _).after

theorem loseTag (s : State) (c : Nat) (l : L1Line) : Undelayed s (s.loseTag c l) := by
  refine Undelayed.trans (postOnce _ _).after (foldl (fun y i => ?_) _ _)
  simp only
  split
  · exact endGrid y _ _ _ _
  · exact .refl y

theorem strikeSymbols (s : State) (l : List Nat) : Undelayed s (s.strikeSymbols l) := by
  unfold State.strikeSymbols
  split <;> exact of_fields

theorem strike (s : State) (u : Upset) : Undelayed s (s.strike u) := by
  cases u with
  | l1Tag c va =>
    simp only [State.strike]
    split
    · exact loseTag s c _
    · exact .refl s
  | symbols l => exact strikeSymbols s l
  | rdcLine f va => exact (postOnce _ _).after
  | _ => exact of_fields

theorem moveRecord (s : State) (u tile : Nat) : Undelayed s (s.moveRecord u tile) := by
  unfold State.moveRecord
  split
  · exact .refl s
  · next t _ =>
    split
    · exact .refl s
    · have hoff : ∀ x : Strand, Undelayed s ((s.offReady u t.home).setStrand u x) :=
        fun x => (offReady s u t.home).trans (setStrand _ _ _)
      simp only
      split
      · exact (((hoff _).trans (toReady _ u tile)).trans (modStrand _ _ _)).trans (postUnless _ _ _)
      · exact (hoff _).trans (postUnless _ _ _)

end Undelayed

end Sys2Proof.Machine
end

section
/-! PROOFS. Assay, retirement, snapshots, rows and the tick (R382, R465 to R468, R503 to R507, R517). -/

namespace Sys2Proof.Machine

/-! ### A tick of TIME (R6) -/

/-- An act that is listed is due afterwards. -/
theorem State.mem_postAll (s : State) (l : List Instr) (i : Instr) (h : i ∈ l) : .event i ∈ (s.postAll l).agenda := by
  induction l generalizing s with
  | nil => cases h
  | cons j l ih =>
    rcases List.mem_cons.1 h with rfl | h
    · exact (Undelayed.postAll (s.postOnce i) l).due _ (s.mem_postOnce i)
    · exact ih (s.postOnce j) h

theorem fire_undelayed (s : State) : Undelayed s s.fire := (Undelayed.postAll _ _).after

/-- What has fallen due gets its turn. -/
theorem mem_fire {s : State} {e : Nat × Instr} (he : e ∈ s.timers) (hd : e.1 ≤ s.time) : .event e.2 ∈ s.fire.agenda :=
  State.mem_postAll _ _ _ (List.mem_map_of_mem (List.mem_filter.2 ⟨he, by simpa using hd⟩))

theorem strikeNext_nil {s : State} (h : s.upsets = []) : s.strikeNext = s := by simp [State.strikeNext, h]

theorem strikeNext_cons {s : State} {u : Upset} {r : List Upset} (h : s.upsets = u :: r) :
    s.strikeNext = ({ s with upsets := r } : State).strike u := by simp [State.strikeNext, h]

theorem strikeNext_keeps (s : State) :
    s.strikeNext.time = s.time ∧ s.strikeNext.moves = s.moves ∧ ∀ a ∈ s.agenda, a ∈ s.strikeNext.agenda := by
  cases h : s.upsets with
  | nil => rw [strikeNext_nil h]; exact ⟨rfl, rfl, fun _ ha => ha⟩
  | cons u r =>
    rw [strikeNext_cons h]
    obtain ⟨ht, hm, -, hd⟩ := Undelayed.strike { s with upsets := r } u
    exact ⟨ht, hm, hd⟩

theorem moveNext_nil {s : State} (h : s.moves = []) : s.moveNext = s := by simp [State.moveNext, h]

theorem moveNext_keeps (s : State) : s.moveNext.time = s.time ∧ ∀ a ∈ s.agenda, a ∈ s.moveNext.agenda := by
  unfold State.moveNext
  split
  · exact ⟨rfl, fun _ ha => ha⟩
  · next u tile r _ =>
    obtain ⟨ht, -, -, hd⟩ := Undelayed.moveRecord { s with moves := r } u tile
    exact ⟨ht, hd⟩

/-- A number put into a list is in it. -/
theorem mem_insertNat (l : List Nat) (a : Nat) : a ∈ insertNat l a := by
  induction l with
  | nil => simp [insertNat]
  | cons x l ih =>
    simp only [insertNat]
    split
    · simp
    · split
      · simp [*]
      · simp [ih]

/-- The state in which TIME is one higher, what falls due has its turn and the rings have been tried: the inputs have not been
looked at yet. -/
def State.ticked (s : State) : State := ({ s with time := s.time + 1 } : State).fire.flushRings

theorem exec_timeTick (s : State) : exec .timeTick s = .next ((s.ticked.strikeNext.moveNext).postOnce .timeTick) := rfl

theorem ticked_undelayed (s : State) : Undelayed { s with time := s.time + 1 } s.ticked :=
  (fire_undelayed _).trans (Undelayed.flushRings _)

theorem mem_ticked {s : State} {e : Nat × Instr} (he : e ∈ s.timers) (hd : e.1 ≤ s.time + 1) : .event e.2 ∈ s.ticked.agenda :=
  (Undelayed.flushRings _).due _ (mem_fire he hd)

/-- The clauses of R6 and of the inputs about a tick. -/
theorem timeTick_spec (s : State) :
    ∃ t, exec .timeTick s = .next t ∧ t.time = s.time + 1 ∧ .event .timeTick ∈ t.agenda ∧
      (∀ e ∈ s.timers, e.1 ≤ s.time + 1 → .event e.2 ∈ t.agenda) ∧
      (s.moves = [] → s.upsets = [] → t.uncorr = s.ticked.uncorr) ∧
      (∀ pa r, s.moves = [] → s.upsets = .word pa :: r → pa / 8 ∈ t.uncorr ∧ t.upsets = r) := by
  obtain ⟨ht0, hm0, hu0, -⟩ := ticked_undelayed s
  obtain ⟨ht1, hm1, hd1⟩ := strikeNext_keeps s.ticked
  obtain ⟨ht2, hd2⟩ := moveNext_keeps s.ticked.strikeNext
  refine ⟨_, exec_timeTick s, ?_, State.mem_postOnce _ _, ?_, ?_, ?_⟩
  · rw [State.postOnce_time, ht2, ht1, ht0]
  · exact fun e he hd => State.postOnce_keeps _ _ _ (hd2 _ (hd1 _ (mem_ticked he hd)))
  · intro hm hu
    rw [strikeNext_nil (hu0.trans hu), moveNext_nil (hm0.trans hm), State.postOnce_uncorr]
  · intro pa r hm hu
    rw [moveNext_nil (hm1.trans (hm0.trans hm)), strikeNext_cons (hu0.trans hu), State.postOnce_uncorr, State.postOnce_upsets]
    exact ⟨mem_insertNat _ _, rfl⟩

/-! ### Assay (R503 to R505) -/

theorem testOver_mem (s : State) (part : AssayPart) : (s.testOver part).mem = s.mem := by
  unfold State.testOver
  split <;> simp

/-- Only a set under test changes in a core. -/
theorem testOver_core (s : State) (part : AssayPart) (n : Nat) :
    ((s.testOver part).core n).bucket = (s.core n).bucket ∧ ((s.testOver part).core n).good = (s.core n).good := by
  unfold State.testOver
  split
  · next c b =>
    by_cases h : n = c
    · subst h; simp
    · simp [State.modCore_core_other _ _ _ _ h]
  · exact ⟨rfl, rfl⟩

/-- What follows a count or a whole Assay in the buckets' agenda changes neither part nor memory. -/
theorem decayFrom_fields (s : State) (old n k : Nat) (whole : Bool) :
    (s.decayFrom old n whole).core k = s.core k ∧ (s.decayFrom old n whole).tile k = s.tile k ∧
      (s.decayFrom old n whole).mem = s.mem := by
  unfold State.decayFrom
  split <;> simp

theorem testWhole_fields (s : State) (n k : Nat) (whole : Bool) :
    (s.testWhole n whole).core k = s.core k ∧ (s.testWhole n whole).tile k = s.tile k ∧ (s.testWhole n whole).mem = s.mem := by
  have hposted : ∀ (c : Prop) {_ : Decidable c} (i : Instr), (if c then s.postOnce i else s).core k = s.core k ∧
      (if c then s.postOnce i else s).tile k = s.tile k ∧ (if c then s.postOnce i else s).mem = s.mem := by
    intro c _ i
    split <;> simp
  exact hposted _ _

theorem launchTurn_tile (s : State) (f k : Nat) : (s.launchTurn f).tile k = s.tile k := by
  unfold State.launchTurn
  split
  · split <;> simp
  · rfl

@[simp] theorem modBucket_core (s : State) (n : Nat) (f : Bucket → Bucket) : ((s.modBucket n false f).core n).bucket = f (s.core n).bucket := by
  simp [State.modBucket]

@[simp] theorem modBucket_tile (s : State) (n : Nat) (f : Bucket → Bucket) : ((s.modBucket n true f).tile n).bucket = f (s.tile n).bucket := by
  simp [State.modBucket]

@[simp] theorem modBucket_mem (s : State) (n : Nat) (whole : Bool) (f : Bucket → Bucket) : (s.modBucket n whole f).mem = s.mem := by
  unfold State.modBucket
  split <;> rfl

theorem exec_wholeCoreAssay {s : State} {n : Nat} {whole : Bool} (hs : (s.bucketOf n whole).suspect = true)
    (hb : (s.bucketOf n whole).busy = false)
    (hf : if whole then (s.tile n).lit = false ∧ (s.tile n).good = true else (s.core n).good = true ∧ ∀ e ∈ s.slots, coreOfSlot e.1 ≠ n) :
    exec (.wholeCoreAssay n whole) s = .next (s.startAssay (if whole then .wholeTile n else .wholeCore n) 2000000) := by
  have hfree : (if whole then !(s.tile n).lit && (s.tile n).good
      else (s.core n).good && s.slots.all fun e => coreOfSlot e.1 != n) = true := by
    cases whole <;> simpa using hf
  show execWholeCoreAssay n whole s = _
  simp [execWholeCoreAssay, hs, hb, hfree, wholeTime]

theorem assayEnd_coreBank_passes (s : State) (n bank : Nat) :
    ∃ t, exec (.assayEnd (.coreBank n bank) true) s = .next t ∧ (t.core n).bucket = (s.core n).bucket.count ∧ t.mem = s.mem := by
  refine ⟨_, rfl, ?_, ?_⟩
  · rw [(testWhole_fields _ _ _ _).1, (decayFrom_fields _ _ _ _ _).1, modBucket_core, (testOver_core _ _ _).1]
  · rw [(testWhole_fields _ n n _).2.2, (decayFrom_fields _ _ n n _).2.2, modBucket_mem, testOver_mem]

theorem assayEnd_tileBank_passes (s : State) (n bank : Nat) :
    ∃ t, exec (.assayEnd (.tileBank n bank) true) s = .next t ∧ (t.tile n).bucket = (s.tile n).bucket.count ∧ t.mem = s.mem := by
  refine ⟨_, rfl, ?_, ?_⟩
  · rw [(testWhole_fields _ _ _ _).2.1, (decayFrom_fields _ _ _ _ _).2.1, modBucket_tile]
    rfl
  · rw [(testWhole_fields _ n n _).2.2, (decayFrom_fields _ _ n n _).2.2, modBucket_mem, testOver_mem]

theorem assayEnd_wholeCore_passes (s : State) (n : Nat) :
    ∃ t, exec (.assayEnd (.wholeCore n) true) s = .next t ∧ (t.core n).bucket = (s.core n).bucket.cleared := by
  refine ⟨_, rfl, ?_⟩
  rw [State.postOnce_core, (decayFrom_fields _ _ _ _ _).1, modBucket_core]
  rfl

theorem assayEnd_wholeTile_passes (s : State) (n : Nat) :
    ∃ t, exec (.assayEnd (.wholeTile n) true) s = .next t ∧ (t.tile n).bucket = (s.tile n).bucket.cleared := by
  refine ⟨_, rfl, ?_⟩
  rw [launchTurn_tile, State.postOnce_tile, (decayFrom_fields _ _ _ _ _).2.1, modBucket_tile]
  rfl

theorem assayEnd_core_fails {s : State} {n : Nat} (h : (s.core n).good = true) (bank : Nat) :
    exec (.assayEnd (.wholeCore n) false) s = .next (s.retireCore n) ∧
      exec (.assayEnd (.coreBank n bank) false) s = .next ((s.testOver (.coreBank n bank)).retireCore n) := by
  have hg : ((s.testOver (.coreBank n bank)).core n).good = true := (testOver_core _ _ _).2.trans h
  exact ⟨congrArg Host.Outcome.next (if_pos h), congrArg Host.Outcome.next (if_pos hg)⟩

theorem assayEnd_tile_fails {s : State} {n : Nat} (h : (s.tile n).good = true) (bank : Nat) :
    exec (.assayEnd (.wholeTile n) false) s = .next (s.retireTile n) ∧
      exec (.assayEnd (.tileBank n bank) false) s = .next (s.retireTile n) :=
  ⟨congrArg Host.Outcome.next (if_pos h), congrArg Host.Outcome.next (if_pos h)⟩

theorem assayEnd_row (s : State) (field n set : Nat) (pass : Bool) :
    exec (.assayEnd (.sliceRow field n set) pass) s = .next (if pass then s else s.retireWay field n set) ∧
      exec (.assayEnd (.rdcRow field n) pass) s = .next (if pass then s else s.modField field fun x =>
        { x with rdcGone := x.rdcGone + 1, rdc := x.rdc.take (rdcSize - x.rdcGone - 1) }) ∧
      exec (.assayEnd (.dramRow n) pass) s = .next (if pass then s else s.retireRow n) := by
  cases pass <;> exact ⟨rfl, rfl, rfl⟩

/-- LEVEL falls by 1 for each second while it is above 0 (R504). -/
theorem bucketDecay_spec (s : State) (n : Nat) (whole : Bool) :
    let l := (s.bucketOf n whole).level
    let s1 := s.modBucket n whole fun b => { b with level := l - 1 }
    (l = 0 → exec (.bucketDecay n whole) s = .next s) ∧
      (l = 1 → exec (.bucketDecay n whole) s = .next s1) ∧
      (1 < l → exec (.bucketDecay n whole) s = .next (s1.postAt (s.time + 1000000000) (.bucketDecay n whole))) := by
  intro l s1
  have htime : s1.time = s.time := by
    simp only [s1, State.modBucket]
    split <;> rfl
  have hexec : exec (.bucketDecay n whole) s =
      if l = 0 then .next s else .next (if l = 1 then s1 else s1.postAt (s1.time + decayPeriod) (.bucketDecay n whole)) := rfl
  refine ⟨fun h => ?_, fun h => ?_, fun h => ?_⟩
  · rw [hexec, if_pos h]
  · rw [hexec, if_neg (by omega), if_pos h]
  · rw [hexec, if_neg (by omega), if_neg (by omega), htime, decayPeriod]

/-! ### Islands and snapshots (R382, R507, R517) -/

theorem mem_goneTiles (s : State) (f i : Nat) : i ∈ s.goneTiles f ↔ i < 12 ∧ (s.tile (f * 16 + i)).good = false := by
  simp [State.goneTiles, upto]

/-- Tiles of a field that have no route to an anchor (R507). -/
def State.cutTiles (s : State) (f : Nat) : List Nat :=
  (upto 12).filter fun i =>
    !(s.goneTiles f).contains i && i != 0 && i != 11 && !(s.goneTiles f).isEmpty && Config.cutOff f (s.goneTiles f) i

theorem mem_cutTiles (s : State) (f i : Nat) :
    i ∈ s.cutTiles f ↔ i < 12 ∧ ¬ (s.tile (f * 16 + i)).good = false ∧ i ≠ 0 ∧ i ≠ 11 ∧
      (∃ j < 12, (s.tile (f * 16 + j)).good = false) ∧ Config.cutOff f (s.goneTiles f) i = true := by
  have hne : (s.goneTiles f).isEmpty = false ↔ ∃ j < 12, (s.tile (f * 16 + j)).good = false := by
    simp only [List.isEmpty_eq_false_iff_exists_mem, mem_goneTiles]
  have hin : (s.goneTiles f).contains i = false ↔ ¬ (i < 12 ∧ (s.tile (f * 16 + i)).good = false) := by
    rw [← mem_goneTiles]; simp
  simp only [State.cutTiles, upto, List.mem_filter, List.mem_range, Bool.and_eq_true, Bool.not_eq_true', bne_iff_ne, ne_eq, hne, hin]
  tauto

theorem islandRetirement_spec (s : State) (f : Nat) :
    let gone := fun (i : Nat) => (s.tile (f * 16 + i)).good = false
    ((s.field f).retired = true → exec (.islandRetirement f) s = .next s) ∧
      ((s.field f).retired = false → gone 0 → gone 11 → exec (.islandRetirement f) s = .next (s.retireField f)) ∧
      ((s.field f).retired = false → ¬ (gone 0 ∧ gone 11) →
        exec (.islandRetirement f) s = .next ((s.cutTiles f).foldl (fun x i => x.retireTile (f * 16 + i)) s)) := by
  intro gone
  have hgone : ((s.goneTiles f).contains 0 && (s.goneTiles f).contains 11) = true ↔ gone 0 ∧ gone 11 := by
    simp [mem_goneTiles, gone]
  have hexec : exec (.islandRetirement f) s =
      if (s.field f).retired then .next s
      else if (s.goneTiles f).contains 0 && (s.goneTiles f).contains 11 then .next (s.retireField f)
      else .next ((s.cutTiles f).foldl (fun x i => x.retireTile (f * 16 + i)) s) := rfl
  refine ⟨fun h => ?_, fun h h0 h11 => ?_, fun h hn => ?_⟩
  · rw [hexec, if_pos h]
  · rw [hexec, if_neg (by simp [h]), if_pos (hgone.2 ⟨h0, h11⟩)]
  · rw [hexec, if_neg (by simp [h]), if_neg (mt hgone.1 hn)]

theorem occupancySnapshot_idle {s : State} {f : Nat} (h : s.partOfField f = none) : exec (.occupancySnapshot f) s = .next s := by
  show execOccupancySnapshot f s = _
  simp [execOccupancySnapshot, h]

theorem occupancySnapshot_writes {s : State} {f k a : Nat} {p : Partition} (h : s.partOfField f = some (k, p))
    (ha : pinPa p (s.pinDw p (p.fcb f) 0x30) = some a) :
    exec (.occupancySnapshot f) s =
      .next ((s.putPins p (s.pinDw p (p.fcb f) 0x30) (s.field f).occImage).postAt (s.time + 10000) (.occupancySnapshot f)) := by
  show execOccupancySnapshot f s = _
  simp [execOccupancySnapshot, h, ha, snapPeriod]

/-! ### Rows (R465 to R468) -/

/-- A row written reads as what was written. -/
@[simp] theorem rowFind_rowPut (l : List (RowId × Row)) (r : RowId) (x : Row) : rowFind (rowPut l r x) r = x := by
  unfold rowPut rowFind
  split
  · next h =>
    induction l with
    | nil => simp at h
    | cons e l ih =>
      by_cases he : e.1 = r
      · simp [he]
      · simp only [List.any_cons, he, decide_false, Bool.false_or] at h
        simpa [he] using ih h
  · next h =>
    have hnone : l.find? (fun e => decide (e.1 = r)) = none :=
      List.find?_eq_none.2 fun e he hd => h (List.any_eq_true.2 ⟨e, he, hd⟩)
    simp [List.find?_append, hnone]

/-- The row as a precharge leaves it: `c` activations counted, with their parity (R465, R468). -/
def Row.precharged (x : Row) (c now : Nat) (alert : Bool) : Row :=
  { count := BitVec.ofNat 11 c, parity := parityOf (BitVec.ofNat 11 c), alerts := if alert then x.alerts + 1 else x.alerts
    hot := x.hot || (alert && 1 ≤ x.alerts), last := now }

theorem precharged_count (x : Row) {c : Nat} (now : Nat) (alert : Bool) (h : c ≤ 2047) : (x.precharged c now alert).count.toNat = c := by
  simp only [Row.precharged, BitVec.toNat_ofNat]
  exact Nat.mod_eq_of_lt (by omega)

theorem precharged_parity (x : Row) (c now : Nat) (alert : Bool) : (x.precharged c now alert).parityFails = false := by
  simp [Row.parityFails, Row.precharged]

/-- A row whose counter reaches `c` puts an alert on the list (R465, R466). -/
def State.rowAlerts (s : State) (row : RowId) (c : Nat) (perr : Bool) : Bool :=
  perr || (rowFind s.rows row).parityFails || (tgetD s.sectors (sectorOfStack row.stack) {}).rth ≤ c || c = 2047

theorem rowAlerts_iff (s : State) (row : RowId) (c : Nat) (perr : Bool) :
    s.rowAlerts row c perr = true ↔ perr = true ∨ (rowFind s.rows row).parityFails = true ∨
      (tgetD s.sectors (sectorOfStack row.stack) {}).rth ≤ c ∨ c = 2047 := by
  simp [State.rowAlerts, or_assoc]

/-- A row that waits for refresh management, and a hot row before its time, is not activated (R467, R468). -/
theorem rowPrecharge_held {s : State} {row : RowId} {acts : Nat} (perr : Bool)
    (h : row ∈ s.alerts ∨ (rowFind s.rows row).hot = true ∧ (1 < acts ∨ s.time < (rowFind s.rows row).last + 1000)) :
    exec (.rowPrecharge row acts perr) s = .next s := by
  have hheld : (s.rowBlocked row || ((rowFind s.rows row).hot &&
      (1 < acts || s.time < (rowFind s.rows row).last + 1000))) = true := by
    simpa [State.rowBlocked] using h
  exact if_pos hheld

/-- Another row is activated: the counter is written back, and an alert is posted with its refresh management. -/
theorem exec_rowPrecharge {s : State} {row : RowId} {acts : Nat} (perr : Bool) (hb : row ∉ s.alerts)
    (hh : (rowFind s.rows row).hot = false ∨ acts ≤ 1 ∧ (rowFind s.rows row).last + 1000 ≤ s.time) :
    let x := rowFind s.rows row
    let c := min (x.count.toNat + acts) 2047
    let alert := s.rowAlerts row c perr
    ∃ sectors, let s1 : State := { s with rows := rowPut s.rows row (x.precharged c s.time alert), sectors := sectors }
      exec (.rowPrecharge row acts perr) s = .next (if alert then
        ({ s1 with alerts := s.alerts ++ [row] } : State).postOnce (.refreshManagement row.stack row.pch row.bank) else s1) := by
  have hfree : ¬ (s.rowBlocked row || ((rowFind s.rows row).hot &&
      (1 < acts || s.time < (rowFind s.rows row).last + 1000))) = true := by
    rcases hh with hcold | hdue
    · simp [State.rowBlocked, hb, hcold]
    · simp [State.rowBlocked, hb, hdue]
  exact ⟨_, (if_neg hfree).trans (apply_ite Host.Outcome.next _ _ _).symm⟩

/-- Activations are counted, and an alert goes on the list when the counter says so or cannot be trusted (R465, R466, R468). -/
theorem rowPrecharge_counts {s : State} {row : RowId} {acts : Nat} (perr : Bool) (hb : row ∉ s.alerts)
    (hh : (rowFind s.rows row).hot = false ∨ acts ≤ 1 ∧ (rowFind s.rows row).last + 1000 ≤ s.time) :
    let x := rowFind s.rows row
    let sec := sectorOfStack row.stack
    let c := min (x.count.toNat + acts) 2047
    ∃ t, exec (.rowPrecharge row acts perr) s = .next t ∧ (rowFind t.rows row).count.toNat = c ∧
      (rowFind t.rows row).parityFails = false ∧ t.mem = s.mem ∧
      (perr = false → x.parityFails = false → c < (tgetD s.sectors sec {}).rth → c ≠ 2047 → t.alerts = s.alerts) ∧
      (perr = true ∨ x.parityFails = true ∨ (tgetD s.sectors sec {}).rth ≤ c ∨ c = 2047 →
        t.alerts = s.alerts ++ [row] ∧ (rowFind t.rows row).hot = (x.hot || decide (1 ≤ x.alerts)) ∧
        .event (.refreshManagement row.stack row.pch row.bank) ∈ t.agenda) := by
  intro x sec c
  have hc : c ≤ 2047 := min_le_right _ _
  obtain ⟨sectors, hexec⟩ := exec_rowPrecharge perr hb hh
  by_cases ha : s.rowAlerts row c perr = true
  · rw [ha] at hexec
    refine ⟨_, hexec, ?_, ?_, State.postOnce_mem _ _, ?_, fun _ => ⟨State.postOnce_alerts _ _, ?_, State.mem_postOnce _ _⟩⟩
    · simpa using precharged_count x s.time true hc
    · simpa using precharged_parity x c s.time true
    · intro hp hx hr hm
      rcases (rowAlerts_iff _ _ _ _).1 ha with h | h | h | h
      · exact absurd h (by simp [hp])
      · exact absurd h (by simp [show (rowFind s.rows row).parityFails = false from hx])
      · exact absurd h (not_le.2 hr)
      · exact absurd h hm
    · simp [Row.precharged, x]
  · rw [Bool.not_eq_true] at ha
    rw [ha] at hexec
    refine ⟨_, hexec, ?_, ?_, rfl, fun _ _ _ _ => rfl, fun h => ?_⟩
    · simpa using precharged_count x s.time false hc
    · simpa using precharged_parity x c s.time false
    · rw [(rowAlerts_iff _ _ _ _).2 h] at ha
      cases ha

/-! #### Refresh management (R467, R468) -/

theorem refreshManagement_idle {s : State} {stack : Fin 40} {pch : Fin 64} {bank : Fin 16}
    (h : ∀ x ∈ s.alerts, ¬ (x.stack = stack ∧ x.pch = pch ∧ x.bank = bank)) : exec (.refreshManagement stack pch bank) s = .next s := by
  have hnone : (s.alerts.find? fun r => r.stack = stack && r.pch = pch && r.bank = bank) = none :=
    List.find?_eq_none.2 fun x hx => by simpa [and_assoc] using h x hx
  show execRefreshManagement stack pch bank s = _
  simp [execRefreshManagement, hnone]

/-- The oldest alert of a bank is served. -/
theorem refreshManagement_serves {s : State} {r : RowId} {before after : List RowId} (hl : s.alerts = before ++ r :: after)
    (hb : ∀ x ∈ before, ¬ (x.stack = r.stack ∧ x.pch = r.pch ∧ x.bank = r.bank)) :
    ∃ t, exec (.refreshManagement r.stack r.pch r.bank) s = .next t ∧
      (rowFind t.rows r).count = 0 ∧ (rowFind t.rows r).parityFails = false ∧ t.alerts = ldel s.alerts r ∧
      (tgetD t.sectors (sectorOfStack r.stack) {}).rfm = (tgetD s.sectors (sectorOfStack r.stack) {}).rfm + 1 ∧ t.mem = s.mem := by
  have hfind : (s.alerts.find? fun x => x.stack = r.stack && x.pch = r.pch && x.bank = r.bank) = some r := by
    have hnone : (before.find? fun x => x.stack = r.stack && x.pch = r.pch && x.bank = r.bank) = none :=
      List.find?_eq_none.2 fun x hx => by simpa [and_assoc] using hb x hx
    rw [hl, List.find?_append, hnone]
    simp
  show ∃ t, execRefreshManagement r.stack r.pch r.bank s = .next t ∧ _
  simp only [execRefreshManagement, hfind]
  refine ⟨_, rfl, ?_⟩
  split <;> simp [Row.parityFails]

theorem refreshWindowEnd_spec (s : State) :
    ∃ t, exec .refreshWindowEnd s = .next t ∧ (∀ e ∈ t.rows, e.2.hot = false ∧ e.2.alerts = 0) ∧
      t.rows.map (fun e => (e.1, e.2.count)) = s.rows.map (fun e => (e.1, e.2.count)) ∧
      t.timers = s.timers ++ [(s.time + 32000000, .refreshWindowEnd)] := by
  refine ⟨_, rfl, ?_, ?_, rfl⟩
  · simp only [State.postAt_rows, List.mem_map]
    rintro e ⟨x, -, rfl⟩
    exact ⟨rfl, rfl⟩
  · simp only [State.postAt_rows, List.map_map]
    rfl

/-- Settles O50: each act's clause is a lemma above. The tick's clause rests on `Undelayed`: nothing that a tick sets off moves TIME
or the inputs, or takes a turn out of the agenda. -/
theorem failuresAndTimeTakeTheirCourse : Obligations.failures_and_time_take_their_course := by
  intro s part n bank set field acts stack pch rbank whole perr row pass
  obtain ⟨hretired, hwhole, hcut⟩ := islandRetirement_spec s field
  obtain ⟨tc, hc, hbc⟩ := assayEnd_wholeCore_passes s n
  obtain ⟨tt, ht, hbt⟩ := assayEnd_wholeTile_passes s n
  refine ⟨rfl, exec_wholeCoreAssay, assayEnd_coreBank_passes s n bank, ⟨tc, hc, ?_⟩, assayEnd_tileBank_passes s n bank, ⟨tt, ht, ?_⟩,
    fun h => assayEnd_core_fails h bank, fun h => assayEnd_tile_fails h bank, assayEnd_row s field n set pass, bucketDecay_spec s n whole, rfl,
    ⟨hretired, hwhole, fun h hn => ⟨s.cutTiles field, hcut h hn, mem_cutTiles s field⟩⟩,
    occupancySnapshot_idle, fun _ _ _ => occupancySnapshot_writes, ⟨rowPrecharge_held perr, rowPrecharge_counts perr⟩,
    refreshManagement_idle, ?_, refreshWindowEnd_spec s, timeTick_spec s⟩
  · rw [hbc]; exact ⟨rfl, rfl, rfl⟩
  · rw [hbt]; exact ⟨rfl, rfl, rfl⟩
  · rintro r before after hl hb rfl rfl rfl
    exact refreshManagement_serves hl hb

end Sys2Proof.Machine
end

section
/-! PROOFS. Bytes, packed elements, canonical memory in runs, and the line that a fill brings (R15, R251). -/

namespace Sys2Proof.Machine

/-! ### Numbers made of bytes and of words -/

theorem natOf_take (l : List Byte) (n : Nat) : natOf (l.take n) = natOf l % 256 ^ n := by
  induction l generalizing n with
  | nil => simp [natOf]
  | cons b l ih =>
    cases n with
    | zero => simp [natOf, Nat.mod_one]
    | succ n =>
      have hb := b.isLt
      rw [List.take_succ_cons, natOf, ih, natOf, pow_succ', Nat.mod_mul, Nat.add_mul_mod_self_left, Nat.mod_eq_of_lt hb,
        Nat.add_mul_div_left _ _ (by norm_num), Nat.div_eq_of_lt hb, Nat.zero_add]

theorem natOf_drop (l : List Byte) (n : Nat) : natOf (l.drop n) = natOf l / 256 ^ n := by
  induction l generalizing n with
  | nil => simp [natOf]
  | cons b l ih =>
    cases n with
    | zero => simp
    | succ n =>
      have hb := b.isLt
      rw [List.drop_succ_cons, ih, natOf, pow_succ', ← Nat.div_div_eq_div_mul, Nat.add_mul_div_left _ _ (by norm_num),
        Nat.div_eq_of_lt hb, Nat.zero_add]

/-- Bit `j` of packed elements of `n` bits is bit `j % n` of element `j / n`. -/
theorem testBit_packN {n : Nat} (hn : 0 < n) (l : List Nat) (j : Nat) :
    (packN n l).testBit j = (l.getD (j / n) 0).testBit (j % n) := by
  induction l generalizing j with
  | nil => simp [packN]
  | cons x l ih =>
    rw [packN, Nat.add_comm, Nat.testBit_two_pow_mul_add _ (Nat.mod_lt _ (by positivity))]
    split
    · next h => simp [Nat.testBit_mod_two_pow, Nat.div_eq_of_lt h, Nat.mod_eq_of_lt h, h]
    · next h =>
      have hq : j / n = (j - n) / n + 1 := by rw [← Nat.add_div_right _ hn]; congr; omega
      have hr : (j - n) % n = j % n := by rw [← Nat.mod_eq_sub_mod (by omega)]
      rw [ih, hq, List.getD_cons_succ, hr]

/-! ### Canonical memory read in runs -/

/-- In canonical memory a run of bytes is the bytes one by one. -/
theorem Mem.run_eq {m : Mem} (h : Mem.wf m = true) (a n : Nat) (ha : ∀ c ∈ m, a ≤ c.1) :
    Mem.run m a n = (List.range n).map fun i => Mem.read m (a + i) := by
  induction n generalizing m a with
  | zero => cases m <;> rfl
  | succ n ih =>
    rw [List.range_succ_eq_map, List.map_cons, List.map_map]
    cases m with
    | nil =>
      rw [Mem.run, ih rfl _ (by simp)]
      rfl
    | cons c t =>
      obtain ⟨i, b⟩ := c
      obtain ⟨-, habove, ht⟩ := (Mem.wf_cons (i, b) t).1 h
      have hgt : ∀ c ∈ t, i < c.1 := Mem.above_mem ht habove
      simp only [Mem.run]
      split
      · next hi =>
        subst hi
        rw [ih ht _ fun c hc => hgt c hc]
        congr 1
        · simp [Mem.read]
        · refine List.map_congr_left fun j _ => ?_
          simp only [Function.comp, Mem.read]
          rw [if_neg (by omega)]
          congr 1
          omega
      · next hi =>
        have hai : a < i := lt_of_le_of_ne (ha (i, b) (by simp)) (Ne.symm hi)
        have hfar : ∀ c ∈ (i, b) :: t, a < c.1 := by
          intro c hc
          rcases List.mem_cons.1 hc with rfl | hc
          · exact hai
          · exact hai.trans (hgt c hc)
        rw [ih h _ fun c hc => hfar c hc]
        congr 1
        · exact (Mem.read_above _ fun c hc => by simpa using hfar c hc).symm
        · refine List.map_congr_left fun j _ => ?_
          simp only [Function.comp]
          congr 1
          omega

theorem Mem.bytes_eq {m : Mem} (h : Mem.wf m = true) (a n : Nat) :
    Mem.bytes m a n = (List.range n).map fun i => Mem.read m (a + i) := by
  rw [Mem.bytes, Mem.run_eq (Mem.wf_sublist (Mem.from_sublist m a) h) a n (Mem.from_ge h a)]
  exact List.map_congr_left fun i _ => Mem.read_from m a (a + i) (by omega)

/-- In canonical memory bytes within a range are part of the bytes of the range. -/
theorem Mem.bytes_within {m : Mem} (h : Mem.wf m = true) (b o n w : Nat) (hw : o + n ≤ w) :
    Mem.bytes m (b + o) n = ((Mem.bytes m b w).drop o).take n := by
  rw [Mem.bytes_eq h, Mem.bytes_eq h]
  refine List.ext_getElem (by simp; omega) fun i _ _ => ?_
  simp [Nat.add_assoc]

/-! ### A line as a fill brings it (R251) -/

theorem getLsbD_lineMask (o n i : Nat) : (lineMask o n).getLsbD i = (decide (i < 32) && decide (o / 4 ≤ i ∧ i < (o + n + 3) / 4)) := by
  rw [lineMask, BitVec.getLsbD_ofNat, Nat.testBit_mul_two_pow, Nat.testBit_two_pow_sub_one]
  congr 1
  by_cases h : o / 4 ≤ i
  · simp only [h, decide_true, Bool.true_and, true_and, decide_eq_decide]
    omega
  · simp [h]

/-- Word `i` of a line in memory can be read unless it is lost. -/
theorem getLsbD_memLine (s : State) (pa i : Nat) (hi : i < 32) :
    (s.memLine pa).1.getLsbD i = !s.lostAt (pa / 128 * 128 + 4 * i) 4 := by
  simp only [State.memLine, BitVec.getLsbD_ofNat, testBit_packN Nat.one_pos, hi, decide_true, Bool.true_and, Nat.div_one, Nat.mod_one]
  rw [List.getD_eq_getElem _ _ (by simpa using hi)]
  cases h : s.lostAt (pa / 128 * 128 + 4 * i) 4 <;> simp [h]

theorem getLsbD_wordBits (m : BitVec 32) (j : Nat) (hj : j < 1024) : (wordBits m).getLsbD j = m.getLsbD (j / 32) := by
  have hw : j / 32 < 32 := by omega
  have hb : j % 32 < 32 := Nat.mod_lt _ (by norm_num)
  simp only [wordBits, BitVec.getLsbD_ofNat, testBit_packN (show 0 < 32 by norm_num), hj, decide_true, Bool.true_and]
  rw [List.getD_eq_getElem _ _ (by simpa using hw)]
  cases h : m.getLsbD (j / 32)
  · simp [h]
  · have hones : Nat.testBit 0xFFFFFFFF (j % 32) = true := by
      rw [show 0xFFFFFFFF = 2 ^ 32 - 1 by norm_num, Nat.testBit_two_pow_sub_one]
      exact decide_eq_true hb
    simp [h, hones]

theorem lostAt_eq_false_iff (s : State) (pa n : Nat) :
    s.lostAt pa n = false ↔ (∀ u ∈ s.uncorr, u * 8 < pa + n → u * 8 + 8 ≤ pa) ∧ ∀ u ∈ s.poison, u * 4 < pa + n → u * 4 + 4 ≤ pa := by
  simp [State.lostAt]

/-- A word of a line is not lost where an aligned access that touches it is not. -/
theorem word_not_lost {s : State} {pa n i : Nat} (hn : n ∈ [1, 2, 4, 8]) (ha : pa % n = 0) (hl : s.lostAt pa n = false)
    (h1 : pa % 128 / 4 ≤ i) (h2 : i < (pa % 128 + n + 3) / 4) : s.lostAt (pa / 128 * 128 + 4 * i) 4 = false := by
  obtain ⟨hu, hp⟩ := (lostAt_eq_false_iff s pa n).1 hl
  have hcases : n = 1 ∨ n = 2 ∨ n = 4 ∨ n = 8 := by simpa using hn
  refine (lostAt_eq_false_iff _ _ _).2 ⟨fun u hmem hlt => ?_, fun u hmem hlt => ?_⟩
  · have := hu u hmem
    rcases hcases with rfl | rfl | rfl | rfl <;> omega
  · have := hp u hmem
    rcases hcases with rfl | rfl | rfl | rfl <;> omega

/-- Bit `j` of what an access reads from a line. -/
theorem testBit_lineGet (d : BitVec 1024) (o n j : Nat) :
    (lineGet d o n).testBit j = (decide (j < 8 * n) && d.getLsbD (8 * o + j)) := by
  rw [lineGet, Nat.testBit_mod_two_pow, Nat.testBit_div_two_pow, BitVec.testBit_toNat, Nat.add_comm]

/-! An empty line takes what a fill brings, and nothing else. -/

theorem mergeFill_empty_valid (va : Word) (ctx : Nat) (gen : BitVec 16) (pa : Nat) (v : BitVec 32) (d : BitVec 1024) :
    (mergeFill (emptyLine va ctx gen pa) v d).valid = v := by
  show 0#32 ||| (v &&& ~~~0#32) = v
  rw [BitVec.not_zero, BitVec.and_allOnes, BitVec.zero_or]

theorem mergeFill_empty_bad (va : Word) (ctx : Nat) (gen : BitVec 16) (pa : Nat) (v : BitVec 32) (d : BitVec 1024) :
    (mergeFill (emptyLine va ctx gen pa) v d).bad = 0#32 := by
  show 0#32 &&& ~~~(v &&& ~~~0#32) = 0#32
  rw [BitVec.zero_and]

theorem mergeFill_empty_data (va : Word) (ctx : Nat) (gen : BitVec 16) (pa : Nat) (v : BitVec 32) (d : BitVec 1024) :
    (mergeFill (emptyLine va ctx gen pa) v d).data = d &&& wordBits v := by
  show (0#1024 &&& ~~~wordBits (v &&& ~~~0#32)) ||| (d &&& wordBits (v &&& ~~~0#32)) = d &&& wordBits v
  rw [BitVec.not_zero, BitVec.and_allOnes, BitVec.zero_and, BitVec.zero_or]

/-- A fill of an empty line gives an access that touches only words which it brings what it brings. -/
theorem lineGet_mergeFill_empty (va : Word) (ctx : Nat) (gen : BitVec 16) (pa : Nat) {v : BitVec 32} (d : BitVec 1024) {o n : Nat}
    (hv : ∀ i, o / 4 ≤ i → i < (o + n + 3) / 4 → v.getLsbD i = true) (hon : o + n ≤ 128) :
    lineGet (mergeFill (emptyLine va ctx gen pa) v d).data o n = lineGet d o n := by
  refine Nat.eq_of_testBit_eq fun j => ?_
  rw [testBit_lineGet, testBit_lineGet]
  by_cases hj : j < 8 * n
  · have hw := hv ((8 * o + j) / 32) (by omega) (by omega)
    rw [mergeFill_empty_data, BitVec.getLsbD_and, getLsbD_wordBits _ _ (by omega), hw, Bool.and_true]
  · simp [hj]

theorem lineGet_ofNat (x : Nat) {o n : Nat} (hon : o + n ≤ 128) : lineGet (BitVec.ofNat 1024 x) o n = x / 2 ^ (8 * o) % 2 ^ (8 * n) := by
  refine Nat.eq_of_testBit_eq fun j => ?_
  rw [testBit_lineGet, BitVec.getLsbD_ofNat, Nat.testBit_mod_two_pow, Nat.testBit_div_two_pow, Nat.add_comm j]
  by_cases hj : j < 8 * n
  · rw [decide_eq_true (show 8 * o + j < 1024 by omega), Bool.true_and]
  · simp [hj]

/-- Canonical memory gives an access the same bytes by their line as by themselves. -/
theorem lineGet_memLine {s : State} (h : Mem.wf s.mem = true) {pa n : Nat} (hon : pa % 128 + n ≤ 128) :
    lineGet (s.memLine pa).2 (pa % 128) n = natOf (s.bytesAt pa n) := by
  have hpow : ∀ k, 2 ^ (8 * k) = 256 ^ k := fun k => pow_mul 2 8 k
  have hat : pa / 128 * 128 + pa % 128 = pa := Nat.div_add_mod' pa 128
  rw [State.memLine, lineGet_ofNat _ hon, hpow, hpow, State.valAt, State.bytesAt, State.bytesAt, ← natOf_drop, ← natOf_take,
    ← Mem.bytes_within h _ _ _ _ hon, hat]

/-! ### A load that the core does not hold (R251) -/

theorem refetch_empty (s : State) (c : Nat) (va : Word) (ctx : Nat) (gen : BitVec 16) (pa : Nat) (m : BitVec 32) :
    s.refetch c (emptyLine va ctx gen pa) m = (s, emptyLine va ctx gen pa) := by
  simp [State.refetch, emptyLine]

theorem openLine_empty (s : State) (c : Nat) (va : Word) (ctx : Nat) (gen : BitVec 16) (pa : Nat) :
    s.openLine c (emptyLine va ctx gen pa) = (s, emptyLine va ctx gen pa) := by
  simp [State.openLine, L1Line.halfValid, emptyLine]

theorem findLine_none {c : Core} {va : Word} (h : (c.l1.any fun l => l.va = lineVa va) = false) (ctx : Nat) (gen : BitVec 16) :
    c.findLine va ctx gen = none :=
  List.find?_eq_none.2 fun l hl hi => by
    have hne : l.va ≠ lineVa va := by simpa using List.any_eq_false.1 h l hl
    simp [L1Line.is, hne] at hi

/-- Every word that the access touches is among those of `v`. -/
theorem lineMask_covered {v : BitVec 32} {o n : Nat} (hv : ∀ i, o / 4 ≤ i → i < (o + n + 3) / 4 → v.getLsbD i = true) :
    v &&& lineMask o n = lineMask o n := by
  refine BitVec.eq_of_getLsbD_eq fun i _ => ?_
  rw [BitVec.getLsbD_and, getLsbD_lineMask]
  by_cases h : o / 4 ≤ i ∧ i < (o + n + 3) / 4
  · simp [hv i h.1 h.2]
  · simp [h]

theorem lineMask_ne_zero {o n : Nat} (hn : 0 < n) (hon : o + n ≤ 128) : lineMask o n ≠ 0 := by
  intro h
  have hbit := getLsbD_lineMask o n (o / 4)
  rw [h] at hbit
  have h32 : o / 4 < 32 := by omega
  have hlt : o / 4 < (o + n + 3) / 4 := by omega
  simp [h32, hlt] at hbit

/-- What a load reads that finds no line of its address in the core, homed in its own field: the bytes of memory. -/
theorem l1Load_of_memory {s : State} {k n pa : Nat} {va : Word} (ctx : Nat) (gen : BitVec 16) (hwf : Mem.wf s.mem = true)
    (hn : n ∈ [1, 2, 4, 8]) (hva : va.toNat % n = 0) (hpa : pa % 128 = va.toNat % 128) (hf : fieldOfPa pa = fieldOfSlot k)
    (hline : ((s.core (coreOfSlot k)).l1.any fun l => l.va = lineVa va) = false) (hl : s.lostAt pa n = false) :
    (s.l1Load k va ctx gen pa n).map (·.2) = .ok (natOf (s.bytesAt pa n)) := by
  have hcases : n = 1 ∨ n = 2 ∨ n = 4 ∨ n = 8 := by simpa using hn
  have hpos : 0 < n := by omega
  have ha : pa % n = 0 := by rcases hcases with rfl | rfl | rfl | rfl <;> omega
  have hon : pa % 128 + n ≤ 128 := by rcases hcases with rfl | rfl | rfl | rfl <;> omega
  have hv : ∀ i, pa % 128 / 4 ≤ i → i < (pa % 128 + n + 3) / 4 → (s.memLine pa).1.getLsbD i = true := fun i h1 h2 => by
    rw [getLsbD_memLine _ _ _ (by omega), word_not_lost hn ha hl h1 h2, Bool.not_false]
  have hmask := lineMask_covered hv
  have hempty : ¬ (emptyLine va ctx gen pa).valid &&& lineMask (pa % 128) n = lineMask (pa % 128) n := fun h =>
    lineMask_ne_zero hpos hon (by simpa [emptyLine] using h.symm)
  simp only [State.l1Load, findLine_none hline, Option.getD_none, refetch_empty, openLine_empty, State.fillLine, hf, ← hpa, if_neg hempty,
    if_true]
  rw [if_pos]
  · simp only [Except.map, State.l1Hit, lineGet_mergeFill_empty _ _ _ _ _ hv hon, lineGet_memLine hwf hon]
  · simp [mergeFill_empty_valid, mergeFill_empty_bad, hmask]

end Sys2Proof.Machine
end

section
/-! PROOFS. Scalar loads: what LD and LDX come to, the value that they read, and where O20 fails. -/

namespace Sys2Proof.Machine

/-! ### Scalar loads (R126, R129, R173, R251) -/

section
variable {s : State} {e : Env} {i : Instr} {k : Ctl} {va : Env → Word} {d : Reg} {sz : ScalarSz} {sx : Bool} {acq : Option Scope}

/-- The access of a scalar load: relaxed, or an acquire load of a scope. -/
def Env.loadBy (e : Env) (s : State) (va : Word) (n : Nat) (acq : Option Scope) : Res (State × Nat) :=
  acq.elim (e.load s va n) fun sc => e.loadAcq s va n sc

theorem opLoad_ok {q : State × Nat} (h : e.loadBy s (va e) (ssize sz) acq = .ok q) :
    opLoad va d sz sx acq e s = .ok (e.put q.1 (e.st.putS d (extend64 q.2 (ssize sz) sx))) := by
  cases acq <;> simp_all [opLoad, Env.loadBy, bind, Except.bind, pure, Except.pure]

/-- A load that has no place stops as its place does. -/
theorem opLoad_stops {x : Stop} (h : e.placeOf s (va e) (ssize sz) .read = .error x) : opLoad va d sz sx acq e s = .error x := by
  cases acq <;> simp [opLoad, Env.load, Env.loadAcq, Env.loadPast, h, bind, Except.bind]

theorem placeOf_misaligned {a : Word} {n : Nat} (acc : Acc) (h : a.toNat % n ≠ 0) : e.placeOf s a n acc = .error (.fault .align a) := by
  simp [Env.placeOf, checkAlign, faultIf, h, bind, Except.bind]

theorem placeOf_aligned {a : Word} {n : Nat} (acc : Acc) (h : a.toNat % n = 0) : e.placeOf s a n acc = e.placed s a acc := by
  simp [Env.placeOf, checkAlign, faultIf, h, bind, Except.bind]

/-- What has a place is aligned. -/
theorem aligned_of_placeOf {a : Word} {n : Nat} {acc : Acc} {q : State × Nat} (h : e.placeOf s a n acc = .ok q) : a.toNat % n = 0 := by
  by_contra hne
  rw [placeOf_misaligned acc hne] at h
  cases h

theorem placed_of_lostReply {a : Word} {acc : Acc} {p : State × Nat} {x : Stop} (hp : s.place e.user (e.req a acc) = .ok p)
    (hl : e.lostReply s a = some x) : e.placed s a acc = .error x := by
  simp [Env.placed, hp, hl]

/-- An access whose reply is lost is sent: the slot waits (R173). -/
theorem lostReply_sent {l : Lost} (a : Word) (hl : e.sl.lost = some l) (h : l.since = none) :
    e.lostReply s a = some (.become (s.awaitReply e.k l)) := by
  simp [Env.lostReply, replyNow, hl, h]

/-- After five timeouts the access ends with TIMEOUT (R173). -/
theorem lostReply_timeout {l : Lost} {t0 : Nat} (a : Word) (hl : e.sl.lost = some l) (h : l.since = some t0)
    (ht : t0 + 20000 * min l.n 5 ≤ s.time) (h5 : 5 ≤ l.n) : e.lostReply s a = some (.fault .timeout a) := by
  have hover : ¬ s.time < l.ends t0 := not_lt.2 ht
  simp [Env.lostReply, replyNow, hl, h, hover, replyTries, h5]

/-- A load that is placed and read writes the value, extended, and sequences. -/
theorem scalarLoad_completes (h : Issues s i k e) {q : State × Nat} (hq : e.loadBy s (va e) (ssize sz) acq = .ok q) {out : State × Strand}
    (hs : e.sequence (e.put q.1 (e.st.putS d (extend64 q.2 (ssize sz) sx))) (e.st.putS d (extend64 q.2 (ssize sz) sx)) = .ok out) :
    runWord i k (opLoad va d sz sx acq) s = .next (e.finish out.1 i out.2) :=
  runWord_completes h (opLoad_ok hq) (put_strand _ _ _) hs

theorem scalarLoad_faults (h : Issues s i k e) (hb : e.busy = false) {c : FaultCode} {v : Word}
    (hp : e.placeOf s (va e) (ssize sz) .read = .error (.fault c v)) :
    runWord i k (opLoad va d sz sx acq) s = .next (s.raise e.k c v false false) := by
  rw [runWord_stops h (opLoad_stops hp) fun _ hx => Stop.noConfusion hx, hb]
  rfl

theorem scalarLoad_misaligned (h : Issues s i k e) (hb : e.busy = false) (ha : (va e).toNat % ssize sz ≠ 0) :
    runWord i k (opLoad va d sz sx acq) s = .next (s.raise e.k .align (va e) false false) :=
  scalarLoad_faults h hb (placeOf_misaligned _ ha)

section
variable {l : Lost} {p : State × Nat} (h : Issues s i k e) (hl : e.sl.lost = some l) (hp : s.place e.user (e.req (va e) .read) = .ok p)
  (ha : (va e).toNat % ssize sz = 0)
include h hl hp ha

theorem scalarLoad_awaits_reply (hn : l.since = none) (hset : e.settled s i = true) :
    runWord i k (opLoad va d sz sx acq) s = .next (s.awaitReply e.k l) :=
  runWord_becomes h (opLoad_stops ((placeOf_aligned _ ha).trans (placed_of_lostReply hp (lostReply_sent _ hl hn)))) hset

theorem scalarLoad_times_out {t0 : Nat} (ht : l.since = some t0) (hd : t0 + 20000 * min l.n 5 ≤ s.time) (h5 : 5 ≤ l.n)
    (hb : e.busy = false) : runWord i k (opLoad va d sz sx acq) s = .next (s.raise e.k .timeout (va e) false false) :=
  scalarLoad_faults h hb ((placeOf_aligned _ ha).trans (placed_of_lostReply hp (lostReply_timeout _ hl ht hd h5)))

end

/-- LD and LDX, relaxed and acquire, in every state (R126, R129, R173). -/
theorem exec_scalarLoad (s : State) (e : Env) (k : Ctl) (d a b : Reg) (imm : BitVec 23) (sh : Fin 8) (sz : ScalarSz) (sx : Bool)
    (acq : Option Scope) : ∀ r ∈ ([(.ld k d a imm sz sx acq, e.vaImm a imm), (.ldx k d a b sh sz sx acq, e.vaIdx a b sh.val)] :
      List (Instr × Word)),
    Issues s r.1 k e →
    (∀ q, e.loadBy s r.2 (ssize sz) acq = .ok q →
      let t := e.st.putS d (extend64 q.2 (ssize sz) sx)
      ∀ out, e.sequence (e.put q.1 t) t = .ok out → exec r.1 s = .next (e.finish out.1 r.1 out.2)) ∧
    (e.busy = false → r.2.toNat % ssize sz ≠ 0 → exec r.1 s = .next (s.raise e.k .align r.2 false false)) ∧
    (∀ l p, e.sl.lost = some l → s.place e.user (e.req r.2 .read) = .ok p → r.2.toNat % ssize sz = 0 →
      (l.since = none → e.settled s r.1 = true → exec r.1 s = .next (s.awaitReply e.k l)) ∧
      (∀ t0, l.since = some t0 → t0 + 20000 * min l.n 5 ≤ s.time → 5 ≤ l.n → e.busy = false →
        exec r.1 s = .next (s.raise e.k .timeout r.2 false false))) := by
  intro r hr h
  have hrun : ∃ va : Env → Word, va e = r.2 ∧ exec r.1 s = runWord r.1 k (opLoad va d sz sx acq) s := by
    rcases List.mem_pair.1 hr with rfl | rfl
    · exact ⟨fun e => e.vaImm a imm, rfl, rfl⟩
    · exact ⟨fun e => e.vaIdx a b sh.val, rfl, rfl⟩
  obtain ⟨va, hva, hexec⟩ := hrun
  rw [← hva, hexec]
  exact ⟨fun q hq out hs => scalarLoad_completes h hq hs, fun hb ha => scalarLoad_misaligned h hb ha,
    fun l p hl hp ha => ⟨fun hn hset => scalarLoad_awaits_reply h hl hp ha hn hset,
      fun t0 ht hd h5 hb => scalarLoad_times_out h hl hp ha ht hd h5 hb⟩⟩

/-! #### The value -/

variable {s1 : State} {a : Word} {n pa : Nat}

theorem settle_of_drained (h : ∀ sl, tget s.slots e.k = some sl → sl.buf = []) (pa n : Nat) : e.settle s pa n = s := by
  unfold Env.settle
  split
  · next sl hsl => simp [h sl hsl]
  · rfl

/-- A line that the core does not hold need not be written back. -/
theorem flushLine_of_absent {c : Nat} (h : ((s.core c).l1.any fun l => l.va = lineVa a) = false) (ctx : Nat) : s.flushLine c a ctx = s := by
  have hnone : ((s.core c).l1.filter fun l => l.va = lineVa a && l.ctx = ctx) = [] :=
    List.filter_eq_nil_iff.2 fun l hl => by
      have hne : l.va ≠ lineVa a := by simpa using List.any_eq_false.1 h l hl
      simp [hne]
  simp [State.flushLine, hnone]

theorem isPad_eq_false (h : pa < 2 ^ 62) : isPad pa = false := by
  simp only [isPad, decide_eq_false_iff_not, not_le]
  omega

section
variable (hp : e.placeOf s a n .read = .ok (s1, pa)) (hbuf : ∀ sl, tget s1.slots e.k = some sl → sl.buf = []) (hpa : pa < 2 ^ 62)
  (hline : ((s1.core (coreOfSlot e.k)).l1.any fun l => l.va = lineVa a) = false) (hl : s1.lostAt pa n = false)
include hp hbuf hpa hline hl

/-- A relaxed load that finds nothing of its line in the core reads the bytes of canonical memory. -/
theorem load_of_memory (hwf : Mem.wf s1.mem = true) (hn : n ∈ [1, 2, 4, 8]) (hoff : pa % 128 = a.toNat % 128)
    (hf : fieldOfPa pa = fieldOfSlot e.k) : (e.load s a n).map (·.2) = .ok (natOf (s1.bytesAt pa n)) := by
  simp only [Env.load, hp, Env.loadAt, settle_of_drained hbuf, isPad_eq_false hpa, Bool.false_eq_true, if_false]
  exact l1Load_of_memory _ _ hwf hn (aligned_of_placeOf hp) hoff hf hline hl

/-- An acquire load of bytes of which the core has no copy reads the bytes of memory. -/
theorem loadAcq_of_memory (sc : Scope) : (e.loadAcq s a n sc).map (·.2) = .ok (natOf (s1.bytesAt pa n)) := by
  have hflush : e.flush s1 a pa n = s1.dropRdc e.fld a e.ctx := by
    simp only [Env.flush, settle_of_drained hbuf, isPad_eq_false hpa, Bool.false_eq_true, if_false]
    rw [show e.core = coreOfSlot e.k from rfl, flushLine_of_absent hline]
  have hl2 : (s1.dropRdc e.fld a e.ctx).lostAt pa n = false := hl
  simp only [Env.loadAcq, Env.loadPast, hp, Env.homeRead, hflush, hl2, Bool.false_eq_true, if_false, Except.map]
  rfl

end
end

/-! #### Memory that is not canonical -/

/-- The slot, the strand and the partition of a probe (log 19), as an access of its supervisor finds them. -/
def probeEnv : Env :=
  { k := 0, u := 1, sl := { uid := 1 }, st := probeStrand, pn := 0, p := probePart, ta := probeTask, w := 0, ctl := noCtl
    cond := true, lane := false }

/-- A probe whose memory is not canonical: above its page table and its block it lists one address twice, and another after it. -/
def unsortedProbe : State :=
  let s := State.reset.placeWord 0
  { s with mem := s.mem ++ [(0x102000, 1), (0x102000, 1), (0x102008, 3)] }

/-- What a place leaves that the statement asks about: the place, the value of the byte there, whether it is lost, the lines of the
core, the store buffer of the slot. -/
def placedView (q : State × Nat) : Nat × Nat × Bool × Bool × Bool :=
  (q.2, natOf (q.1.bytesAt q.2 1), q.1.lostAt q.2 1, (q.1.core 0).l1.isEmpty,
    (tget q.1.slots 0).all (·.buf.isEmpty))

/-- Read by itself, the byte is the one that the last cell lists. -/
theorem unsortedProbe_byte : (probeEnv.placeOf unsortedProbe 0x8000000000102008 1 .read).map placedView =
    .ok (0x102008, 3, false, true, true) := by decide +kernel

/-- Read with its line, it is 0: the reading of the line gets no further than the address that is listed twice. -/
theorem unsortedProbe_load : (probeEnv.load unsortedProbe 0x8000000000102008 1).map (·.2) = .ok 0 := by decide +kernel

/-- Refutes O20, by its last clause alone: nothing there says that memory is canonical. A line whose cells are out of order reads
otherwise as a whole than byte by byte, and a relaxed load reads its byte out of the line. In `unsortedProbe` it gives 0 where the bytes
at the place say 3. Every other clause holds as it stands (`exec_scalarLoad`, `loadAcq_of_memory`), and this one does with the
hypothesis `Mem.wf s1.mem` (`load_of_memory`). -/
theorem not_scalarLoadsWriteWhatTheyRead : ¬ Obligations.scalar_loads_write_what_they_read := by
  intro h
  cases hp : probeEnv.placeOf unsortedProbe 0x8000000000102008 1 .read with
  | error x =>
    have hview := unsortedProbe_byte
    rw [hp] at hview
    cases hview
  | ok q =>
    obtain ⟨s1, pa⟩ := q
    have hview := unsortedProbe_byte
    rw [hp] at hview
    obtain ⟨rfl, hbyte, hlost, hl1, hbuf⟩ : pa = 0x102008 ∧ natOf (s1.bytesAt pa 1) = 3 ∧ s1.lostAt pa 1 = false ∧
        (s1.core 0).l1 = [] ∧ (tget s1.slots 0).all (·.buf.isEmpty) = true := by
      simpa [Except.map, placedView] using hview
    have hslot : ∀ sl, tget s1.slots probeEnv.k = some sl → sl.buf = [] := fun sl hsl => by
      rw [show tget s1.slots 0 = some sl from hsl] at hbuf
      simpa using hbuf
    have hline : ((s1.core (coreOfSlot probeEnv.k)).l1.any fun l => l.va = lineVa 0x8000000000102008) = false := by
      rw [show (s1.core (coreOfSlot probeEnv.k)).l1 = [] from hl1]
      rfl
    have hload := ((h unsortedProbe probeEnv noCtl (.s 9) (.s 10) (.s 11) 0 0 .b false none).2 _ s1 _ hp hslot (by decide) (by decide)
      (by decide) hline hlost).1
    rw [unsortedProbe_load, hbyte] at hload
    cases hload
end Sys2Proof.Machine
end

section
/-! PROOFS. The special registers that MFS reads and MTS writes (R45, R48, R198, R265, R266). -/

namespace Sys2Proof.Machine

/-- A word whose operation answers with its strand changed. -/
theorem runWord_put {s : State} {i : Instr} {c : Ctl} {e : Env} {op : Op} {t : Strand} (h : Issues s i c e)
    (hop : op e s = .ok (e.put s t)) :
    ∀ out, e.sequence (e.put s t) t = .ok out → runWord i c op s = .next (e.finish out.1 i out.2) :=
  fun _ hs => runWord_completes h hop (put_strand e s t) hs

/-- A word whose operation raises a fault while nothing of its slot is outstanding. -/
theorem runWord_faults {s : State} {i : Instr} {c : Ctl} {e : Env} {op : Op} {f : FaultCode} {v : Word} (h : Issues s i c e)
    (hb : e.busy = false) (hop : op e s = failWith f v) : runWord i c op s = .next (s.raise e.k f v false false) := by
  rw [runWord_stops h hop fun t ht => by cases ht]
  simp [State.stopped, hb]

theorem Issues.env_word {s : State} {i : Instr} {c : Ctl} {e : Env} (h : Issues s i c e) : e.w = encodeWord i :=
  (envAt_spec h.1).2.2.2.1

theorem Issues.env_strand {s : State} {i : Instr} {c : Ctl} {e : Env} (h : Issues s i c e) : tget s.strands e.u = some e.st :=
  (envAt_spec h.1).2.2.2.2.2.2.2.2.1

/-- The two ways in which the model and the statements say that a strand is in user mode (R168). -/
theorem Env.user_eq (e : Env) : e.user = !bit e.st.hdr 63 := rfl

/-! ### MFS (R48, R266) -/

theorem opMfs_reads {d : Reg} {n : Nat} {v : Word} {e : Env} {s : State} (hv : e.special s n = some v)
    (hp : specialSup n = true → bit e.st.hdr 63 = true) : opMfs d n e s = .ok (e.put s (e.st.putS d v)) := by
  have hu : (specialSup n && e.user) = false := by
    rw [Env.user_eq]
    cases hn : specialSup n
    · rfl
    · simp [hp hn]
  simp [opMfs, hu, hv]

theorem opMfs_user {d : Reg} {n : Nat} {e : Env} {s : State} (hn : specialSup n = true) (hu : bit e.st.hdr 63 = false) :
    opMfs d n e s = failWith .priv e.w := by simp [opMfs, hn, Env.user_eq, hu]

theorem opReadCounts_reads {d : Reg} {cecnt : Bool} {e : Env} {s : State} (hf : e.sl.fwd = []) :
    opReadCounts d cecnt e s =
      .ok (e.put s (e.st.putS d (if cecnt then cecntOf (s.core e.core) else droopcntOf (s.core e.core)))) := by simp [opReadCounts, hf]

theorem exec_mfs_reads {s : State} {e : Env} {k : Ctl} {d : Reg} {n : BitVec 12} {v : Word} (hv : e.special s n.toNat = some v) :
    Issues s (.mfs k d n) k e → (specialSup n.toNat = true → bit e.st.hdr 63 = true) →
      ∀ out, e.sequence (e.put s (e.st.putS d v)) (e.st.putS d v) = .ok out →
        exec (.mfs k d n) s = .next (e.finish out.1 (.mfs k d n) out.2) :=
  fun h hp => runWord_put h (opMfs_reads hv hp)

/-- LCLS reads as the number of the latch's class (Table 1.5). -/
theorem lclsNum_eq (c : LCls) : LCls.num c = match c with
    | .empty => 0
    | .scalar => 1
    | .vector => 2
    | .pred => 3
    | .handle => 4 := by cases c <;> rfl

/-- STATUS as MFS gives it (Table 1.5). -/
theorem special_status (e : Env) (s : State) : e.special s 0x000 =
    some (BitVec.ofNat 64 ((if bit e.st.hdr 63 then 1 else 0) + (if e.st.zsub then 2 else 0) +
      (if e.st.fmode = .detached then 4 else 0) + (if e.st.ap then 8 else 0))) := by
  simp only [Env.special, Strand.sup]
  cases h : e.st.fmode <;> rfl

/-- The capacities of the eight links (Table 18.11). -/
theorem special_link (e : Env) (s : State) (j : Nat) (h : j < 8) : e.special s (0x308 + j) =
    some (BitVec.ofNat 64 (((s.links[j]?).map fun x => if x.1 then x.2.2 else 0).getD 0)) := by
  interval_cases j <;> rfl

/-- Settles O16: the value of each number by `Env.special`, written by `opMfs`; PRIV where `opMfs` refuses the number. -/
theorem specialRegistersReadTheirContents : Obligations.special_registers_read_their_contents := by
  unfold Obligations.special_registers_read_their_contents
  intro s e k d
  have latch : BitVec.ofNat 64 (LCls.num e.st.latch.cls) = BitVec.ofNat 64 _ := congrArg _ (lclsNum_eq e.st.latch.cls)
  refine ⟨?_, ?_, ?_⟩
  · intro r hr
    refine exec_mfs_reads ?_
    fin_cases hr
    · exact special_status e s
    iterate 4 rfl
    · exact congrArg some latch
    iterate 24 rfl
    · exact special_link e s 0 (by decide)
    · exact special_link e s 1 (by decide)
    · exact special_link e s 2 (by decide)
    · exact special_link e s 3 (by decide)
    · exact special_link e s 4 (by decide)
    · exact special_link e s 5 (by decide)
    · exact special_link e s 6 (by decide)
    · exact special_link e s 7 (by decide)
  · intro r hr
    have hv : r.2 = if r.1 then cecntOf (s.core e.core) else droopcntOf (s.core e.core) := by fin_cases hr <;> rfl
    intro i h hf
    rw [hv]
    exact runWord_put h (opReadCounts_reads hf)
  · intro n i h hb hn hu
    rw [← h.env_word]
    exact runWord_faults h hb (opMfs_user hn hu)

/-! ### MTS (R45, R48, R198, R265) -/

theorem opMts_user {n : Nat} {a : Reg} {e : Env} {s : State} (hn : specialWriteSup n = true) (hu : bit e.st.hdr 63 = false) :
    opMts n a e s = failWith .priv e.w := by simp [opMts, hn, Env.user_eq, hu]

/-- MTS of a supervisor register that has no row of its own, in supervisor mode. -/
theorem opMts_writes (a : Reg) {e : Env} (s : State) (hu : bit e.st.hdr 63 = true) :
    opMts 0x001 a e s = .ok (e.put s { e.st with cause := e.st.scalar a &&& causeMask }) ∧
    opMts 0x002 a e s = .ok (e.put s { e.st with tval := e.st.scalar a }) ∧
    opMts 0x003 a e s = .ok (e.put s { e.st with tpc := e.st.scalar a }) ∧
    opMts 0x00A a e s =
      .ok (e.put s { e.st with rprog := if bits (e.st.scalar a) 3 0 = 0 then 0 else e.st.scalar a &&& rprogMask }) := by
  simp [opMts, Env.user_eq, hu]

theorem opWriteRsp_aligned {a : Reg} {e : Env} {s : State} (h : bits (e.st.scalar a) 6 0 = 0) :
    opWriteRsp a e s = .ok (e.put s { e.st with rsp := e.st.scalar a }) := by simp [opWriteRsp, h]

theorem opWriteRsp_misaligned {a : Reg} {e : Env} {s : State} (h : bits (e.st.scalar a) 6 0 ≠ 0) :
    opWriteRsp a e s = failWith .align (e.st.scalar a) := by simp [opWriteRsp, h]

theorem opWriteClass_allowed {a : Reg} {e : Env} {s : State} (h : bits (e.st.scalar a) 2 0 ≤ classOf e.ta) :
    opWriteClass a e s = .ok (e.put s { e.st with cls := bits (e.st.scalar a) 2 0 }) := by simp [opWriteClass, Nat.not_lt.2 h]

theorem opWriteClass_above {a : Reg} {e : Env} {s : State} (h : classOf e.ta < bits (e.st.scalar a) 2 0) :
    opWriteClass a e s = failWith .priv e.w := by simp [opWriteClass, h]

/-- Table 9.3: LEVEL is at least 8. -/
theorem opWriteDroopth_writes {a : Reg} {e : Env} {s : State} (hu : bit e.st.hdr 63 = true) :
    opWriteDroopth a e s = .ok (s.modCore e.core fun c =>
      { c with droopth := BitVec.ofNat 64 (bits (e.st.scalar a) 15 8 * 256 + max 8 (bits (e.st.scalar a) 7 0)) }) := by
  have hl : (if bits (e.st.scalar a) 7 0 < 8 then 8 else bits (e.st.scalar a) 7 0) = max 8 (bits (e.st.scalar a) 7 0) := by
    split <;> omega
  simp [opWriteDroopth, Env.user_eq, hu, hl]

/-- Table 11.6: CPWT is at least 1. -/
theorem opWriteCpwt_writes {a : Reg} {e : Env} {s : State} (hu : bit e.st.hdr 63 = true) :
    opWriteCpwt a e s = .ok (s.modCore e.core fun c => { c with cpwt := max 1 (bits (e.st.scalar a) 3 0) }) := by
  have hl : (if bits (e.st.scalar a) 3 0 = 0 then 1 else bits (e.st.scalar a) 3 0) = max 1 (bits (e.st.scalar a) 3 0) := by
    split <;> omega
  simp [opWriteCpwt, Env.user_eq, hu, hl]

/-- A word that changes its core and no strand. -/
theorem runWord_core {s : State} {i : Instr} {c : Ctl} {e : Env} {op : Op} {f : Core → Core} (h : Issues s i c e)
    (hop : op e s = .ok (s.modCore e.core f)) :
    ∀ x, e.sequence (s.modCore e.core f) e.st = .ok x → runWord i c op s = .next (e.finish x.1 i x.2) :=
  fun _ hs => runWord_completes h hop h.env_strand hs

theorem opWriteDroopth_user {a : Reg} {e : Env} {s : State} (hu : bit e.st.hdr 63 = false) :
    opWriteDroopth a e s = failWith .priv e.w := by simp [opWriteDroopth, Env.user_eq, hu]

theorem opWriteCpwt_user {a : Reg} {e : Env} {s : State} (hu : bit e.st.hdr 63 = false) :
    opWriteCpwt a e s = failWith .priv e.w := by simp [opWriteCpwt, Env.user_eq, hu]

/-- Settles O17: what each MTS operation writes, and when it refuses. -/
theorem specialRegistersTakeWhatIsWritten : Obligations.special_registers_take_what_is_written := by
  unfold Obligations.special_registers_take_what_is_written
  intro s e k a
  refine ⟨?_, ?_, ?_, ?_, ?_⟩
  · simp only [List.forall_mem_cons]
    refine ⟨fun h hc => runWord_put h (opMts_writes a s hc).1, fun h hc => runWord_put h (opMts_writes a s hc).2.1,
      fun h hc => runWord_put h (opMts_writes a s hc).2.2.1, fun h hc => runWord_put h (opMts_writes a s hc).2.2.2,
      fun h _ => runWord_put h rfl, fun h _ => runWord_put h rfl,
      fun h hc => runWord_put h (opWriteRsp_aligned (of_decide_eq_true hc)),
      fun h hc => runWord_put h (opWriteClass_allowed (of_decide_eq_true hc)), fun h _ => runWord_put h rfl, List.forall_mem_nil _⟩
  · simp only [List.forall_mem_cons]
    exact ⟨fun h hc => runWord_core h (opWriteDroopth_writes hc), fun h hc => runWord_core h (opWriteCpwt_writes hc),
      List.forall_mem_nil _⟩
  · intro i hi h hb hu
    rw [← h.env_word]
    simp only [List.mem_cons, List.not_mem_nil, or_false] at hi
    rcases hi with rfl | rfl | rfl | rfl | rfl | rfl
    · exact runWord_faults h hb (opMts_user rfl hu)
    · exact runWord_faults h hb (opMts_user rfl hu)
    · exact runWord_faults h hb (opMts_user rfl hu)
    · exact runWord_faults h hb (opMts_user rfl hu)
    · exact runWord_faults h hb (opWriteDroopth_user hu)
    · exact runWord_faults h hb (opWriteCpwt_user hu)
  · intro h hb hx
    exact runWord_faults h hb (opWriteRsp_misaligned hx)
  · intro h hb hx
    rw [← h.env_word]
    exact runWord_faults h hb (opWriteClass_above hx)

end Sys2Proof.Machine
end

section
/-! PROOFS. Entering a block, and the path that strands in their own fetch mode share (R27, R38, R56, R278). -/

namespace Sys2Proof.Machine

/-! ### Entering a block (R27, R56) -/

theorem headerBad_iff (h : Word) : headerBad h = true ↔
    bits h 63 56 ≠ 0xFF ∨ bits h 55 50 = 0 ∨ (bits h 11 2 ≠ 0 ∧ bits h 11 2 < bits h 55 50 + 1) := by
  unfold headerBad lenOf reconOf
  simp [or_assoc]

/-- No predicate of an EITHER is still to come. -/
theorem awaits_eq_false {e : Env} (h : ∀ n, e.sl.await = some n → (∀ f ∈ e.sl.fwd, f.n ≠ n) ∧ ∀ r ∈ e.sl.started, r.1 ≠ n) :
    e.awaits = false := by
  unfold Env.awaits
  split
  · rename_i n hn
    obtain ⟨hf, hr⟩ := h n hn
    simp only [Bool.or_eq_false_iff, List.any_eq_false, decide_eq_true_eq]
    exact ⟨hf, hr⟩
  · rfl

/-- The strand after a header that it may enter (R38, R56). -/
def Strand.entered (t : Strand) (h : Word) (n : Nat) : Strand := { (t.applyMasks h n) with widx := 1, kept := [] }

theorem entered_header (t : Strand) (h : Word) (n : Nat) : (t.entered h n).header = h := by simp only [Strand.entered, Strand.applyMasks]
theorem entered_hdr (t : Strand) (h : Word) (n : Nat) : (t.entered h n).hdr = t.hdr := by simp only [Strand.entered, Strand.applyMasks]

/-- The slot after the entry of a block: no lookahead window, and the predicate that an EITHER brought it here with is taken. -/
def Slot.entered (sl : Slot) : Slot :=
  { sl with
    windows := [], await := none
    ret := match sl.await with
      | some n => sl.ret.filter (n < ·.1)
      | none => sl.ret }

section
variable {s : State} {e : Env} {f : State × Word}

/-- What a slot needs to fetch at its block's entry. -/
structure Env.MayEnter (e : Env) : Prop where
  hold : e.sl.hold = none
  stop : e.sl.stop = none
  halt : e.p.halt = none
  flight : e.sl.flight = []
  await : e.awaits = false

theorem enter_header (hm : e.MayEnter) (hf : e.fetch s e.st.hdr = .ok f) (hw : e.st.widx = 0) (hb : headerBad f.2 = false) :
    e.enter s = { ((e.put f.1 (e.st.entered f.2 f.1.fresh)).modSlot e.k Slot.entered) with fresh := f.1.fresh + 1 } := by
  unfold Env.enter
  rw [if_neg (by simp [hm.hold, hm.stop, hm.halt, hw]), if_neg (by simp [hm.flight, hm.await]), hf]
  simp only [hw, hb]
  rfl

theorem enter_bad (hm : e.MayEnter) (hf : e.fetch s e.st.hdr = .ok f) (hw : e.st.widx = 0) (hb : headerBad f.2 = true)
    (hq : e.busy = false) : e.enter s = s.raise e.k .illop f.2 true false := by
  simp [Env.enter, hm.hold, hm.stop, hm.halt, hm.flight, hm.await, hf, hw, hb, hq, State.stopped]

theorem enter_again (hm : e.MayEnter) (hf : e.fetch s e.st.hdr = .ok f) (hw : e.st.widx ≠ 0) (hr : e.st.refetch = true) :
    e.enter s = e.put f.1 { e.st with header := f.2, refetch := false } := by
  simp [Env.enter, hm.hold, hm.stop, hm.halt, hm.flight, hm.await, hf, hw, hr]

end

theorem exec_blockEntry {s : State} {e : Env} (h : s.envAt s.cur .blockEntry noCtl = some e) :
    exec .blockEntry s = .next (e.enter s) := by
  show execBlockEntry s = _
  simp [execBlockEntry, h]

/-! ### The path of strands in their own fetch mode (R278) -/

/-- The strand of a slot waits for the fetch path of its tile (R278). -/
def State.fetchPending (s : State) (k : Nat) : Bool :=
  match tget s.slots k with
  | none => false
  | some sl =>
    !sl.turned && sl.hold.isNone &&
    (match tget s.strands sl.uid with
     | some t => t.isPrivate && t.widx != 0
     | none => false)

theorem fetchPending_iff (s : State) (k : Nat) : s.fetchPending k = true ↔
    ∃ sl t, tget s.slots k = some sl ∧ sl.turned = false ∧ sl.hold = none ∧ tget s.strands sl.uid = some t ∧
      t.fmode ≠ .attached ∧ t.widx ≠ 0 := by
  unfold State.fetchPending
  cases tget s.slots k with
  | none => simp
  | some sl =>
    cases ht : tget s.strands sl.uid with
    | none => simp [ht]
    | some t => simp [ht, Strand.isPrivate, and_assoc]

/-- The slots of a tile in the path's rotation. -/
def State.fetchOrder (s : State) (tile : Nat) : List Nat := (upto 64).map fun i => ((s.tile tile).fetchLast + 1 + i) % 64

/-- The path has served place `i` of its tile. -/
def State.fetchServed (s : State) (tile i : Nat) : State :=
  (s.modSlot (tile * 64 + i) fun sl => { sl with turned := true }).modTile tile fun t => { t with fetchLast := i }

theorem exec_privateFetchTurn {s : State} {tile i : Nat}
    (h : (s.fetchOrder tile).find? (fun j => s.fetchPending (tile * 64 + j)) = some i) :
    exec (.privateFetchTurn tile) s = .next (if (s.fetchOrder tile).any fun j => j != i && s.fetchPending (tile * 64 + j)
      then (s.fetchServed tile i).postOnce (.privateFetchTurn tile) else s.fetchServed tile i) := by
  show execPrivateFetchTurn tile s = _
  unfold execPrivateFetchTurn
  dsimp only
  split
  · rename_i hn
    cases hn.symm.trans h
  · rename_i j hj
    obtain rfl : j = i := Option.some.inj (hj.symm.trans h)
    rfl

/-- Settles O43: `Env.enter` by the three ways it takes, and the fetch path by the slots that wait for it. -/
theorem strandsEnterBlocksAndTakePrivateWords : Obligations.strands_enter_blocks_and_take_private_words := by
  unfold Obligations.strands_enter_blocks_and_take_private_words
  intro s e tile
  constructor
  · intro he hhold hstop hhalt hflight hawait f hf
    have hm : e.MayEnter := ⟨hhold, hstop, hhalt, hflight, awaits_eq_false hawait⟩
    rw [exec_blockEntry he]
    refine ⟨fun hw hb => ⟨?_, entered_header _ _ _, entered_hdr _ _ _⟩, fun hw hb hq => ?_, fun hw hr => ?_⟩
    · rw [enter_header hm hf hw (Bool.eq_false_iff.2 fun h => hb ((headerBad_iff f.2).1 h))]
      rfl
    · rw [enter_bad hm hf hw ((headerBad_iff f.2).2 hb) hq]
    · rw [enter_again hm hf hw hr]
  · intro waiting order before i after hord hbefore hi
    have hp : ∀ k, s.fetchPending k = true ↔ waiting k := fetchPending_iff s
    have hfind : (s.fetchOrder tile).find? (fun j => s.fetchPending (tile * 64 + j)) = some i := by
      refine List.find?_eq_some_iff_append.2 ⟨(hp _).2 hi, before, after, hord, fun j hj => ?_⟩
      simpa using fun h => hbefore j hj ((hp _).1 h)
    rw [exec_privateFetchTurn hfind]
    refine ⟨fun ⟨j, hj, hne, hw⟩ => ?_, fun hnone => ?_⟩
    · have hany : ((s.fetchOrder tile).any fun j => j != i && s.fetchPending (tile * 64 + j)) = true :=
        List.any_eq_true.2 ⟨j, hj, by simp [hne, (hp _).2 hw]⟩
      rw [hany]
      rfl
    · have hany : ((s.fetchOrder tile).any fun j => j != i && s.fetchPending (tile * 64 + j)) = false := by
        refine List.any_eq_false.2 fun j hj h => ?_
        simp only [Bool.and_eq_true, bne_iff_ne] at h
        exact hnone j hj h.1 ((hp _).1 h.2)
      rw [hany]
      rfl

end Sys2Proof.Machine
end

section
/-! PROOFS. Who moves, and what a step of a slot runs (R27, R57, R58, R74, R214, R273, R402). -/

namespace Sys2Proof.Machine

/-! ### Whose turn it is -/

theorem nextTurn_idle {s : State} (hs : s.script = []) (ha : s.agenda = []) : s.nextTurn = (none, s) := by
  simp [State.nextTurn, hs, ha]

theorem nextTurn_oldest {s : State} {t : Turn} {r : List Turn} (hs : s.script = []) (ha : s.agenda = t :: r) :
    s.nextTurn = (some t, { s with agenda := r }) := by simp [State.nextTurn, hs, ha]

theorem nextTurn_scripted {s : State} {n : Nat} {r : List Nat} (hs : s.script = n :: r) :
    s.nextTurn = (s.agenda[n]?, { s with agenda := s.agenda.eraseIdx n, script := r }) := by
  unfold State.nextTurn
  rw [hs]
  cases hn : s.agenda[n]? with
  | some t => simp [hn]
  | none => simp [hn, List.eraseIdx_of_length_le (List.getElem?_eq_none_iff.1 hn)]

/-! ### The slot that the scalar side serves (R214) -/

theorem atWord_iff (s : State) (k : Nat) :
    s.atWord k = true ↔ ∃ i t, ({ s with cur := k } : State).slotTask k = .word i t := by
  unfold State.atWord
  cases ({ s with cur := k } : State).slotTask k <;> simp

theorem canIssue_iff (s : State) (k : Nat) :
    s.canIssue k = true ↔ ∃ i t, ({ s with cur := k } : State).slotTask k = .word i t ∧ t.wordWaits k i = false := by
  unfold State.canIssue
  cases ({ s with cur := k } : State).slotTask k <;> simp

/-- The slots of a core after the one served last. -/
def State.serveOrder (s : State) (core : Nat) : List Nat := (upto 4).map fun i => core * 4 + ((s.core core).lastS + 1 + i) % 4

theorem servedSlot_of_atWord {s : State} {k : Nat} (h : s.atWord k = true) :
    s.servedSlot k = ((s.serveOrder (coreOfSlot k)).find? s.canIssue).getD k := by
  simp [State.servedSlot, h, State.serveOrder, rotation, List.map_map, Function.comp_def]

theorem servedSlot_first {s : State} {k j : Nat} {before after : List Nat} (h : s.atWord k = true)
    (ho : s.serveOrder (coreOfSlot k) = before ++ j :: after) (hb : ∀ x ∈ before, s.canIssue x = false) (hj : s.canIssue j = true) :
    s.servedSlot k = j := by
  rw [servedSlot_of_atWord h, List.find?_eq_some_iff_append.2 ⟨hj, before, after, ho, fun x hx => by simp [hb x hx]⟩]
  rfl

theorem servedSlot_none {s : State} {k : Nat} (h : s.atWord k = true) (hn : ∀ x ∈ s.serveOrder (coreOfSlot k), s.canIssue x = false) :
    s.servedSlot k = k := by
  rw [servedSlot_of_atWord h, List.find?_eq_none.2 fun x hx => by simp [hn x hx]]
  rfl

theorem servedSlot_own {s : State} {k : Nat} (h : s.atWord k = false) : s.servedSlot k = k := by simp [State.servedSlot, h]

/-! ### What a slot does at its turn -/

/-- The slot holds a strand, is not held, and no debug halt holds its partition. -/
structure Stands (s : State) (k : Nat) (e : Env) : Prop where
  env : s.envAt k .blockEntry noCtl = some e
  hold : e.sl.hold = none
  halt : e.p.halt = none

/-- The slot may move: its tile is lit, no suspension has struck its strand, and its stream lets it go. -/
structure MayMove (s : State) (k : Nat) (e : Env) : Prop extends Stands s k e where
  awake : s.awake e.tile = true
  stop : e.sl.stop = none
  may : s.mayIssue k = true

/-- The strand stands at a word of its block, and the fetch path of its tile, where it needs that, has served it (R278). -/
structure AtWord (e : Env) : Prop where
  widx : e.st.widx ≠ 0
  refetch : e.st.refetch = false
  turned : e.st.isPrivate = true → e.sl.turned = true

theorem AtWord.path {e : Env} (h : AtWord e) : ¬ (e.st.isPrivate = true ∧ e.sl.turned = false) :=
  fun ⟨hp, ht⟩ => by simp [h.turned hp] at ht

section
variable {s : State} {k : Nat} {e : Env}

theorem slotTask_dark (h : Stands s k e) (ha : s.awake e.tile = false) : s.slotTask k = .done s := by
  simp [State.slotTask, h.env, h.hold, ha]

theorem slotTask_struck {w : JobStop} {b : Bool} (h : Stands s k e) (ha : s.awake e.tile = true) (hs : e.sl.stop = some (w, b))
    (hf : e.sl.flight = []) : s.slotTask k = .later ((s.modSlot k fun x => { x with stop := none }).carryStop k w b) := by
  obtain ⟨-, -, -, -, -, -, -, hsl, -⟩ := envAt_spec h.env
  simp [State.slotTask, h.env, h.hold, ha, hs, hf, State.resumeStop, hsl]

theorem slotTask_struck_waits {x : JobStop × Bool} (h : Stands s k e) (ha : s.awake e.tile = true) (hs : e.sl.stop = some x)
    (hf : e.sl.flight ≠ []) : s.slotTask k = .done s := by
  simp [State.slotTask, h.env, h.hold, ha, hs, hf]

theorem slotTask_enters (h : MayMove s k e) (hw : e.st.widx = 0 ∨ e.st.refetch = true) : s.slotTask k = .enter := by
  simp [State.slotTask, h.env, h.hold, h.halt, h.awake, h.stop, h.may, hw]

/-- A word that no CINV.code has kept and that is not of the stream's path is fetched at its place (R27, R58). -/
theorem word_fetched (hk : ∀ x ∈ e.st.kept, x.1 ≠ e.st.pc) (hp : s.pathWord e.k = none) : e.word s = e.fetch s e.st.pc := by
  have hf : e.st.kept.find? (fun x => x.1 = e.st.pc) = none := List.find?_eq_none.2 fun x hx => by simpa using hk x hx
  unfold Env.word
  rw [hf, hp]

section
variable (h : MayMove s k e) (hw : AtWord e) {s2 : State} {w : Word} (hf : e.word s = .ok (s2, w))
include h hw hf

theorem slotTask_misplaced (hm : misplaced w (lenOf e.st.header) e.st.widx = true) :
    s.slotTask k = .later (s2.stopped k e.busy false (.fault .illop w)) := by
  simp [State.slotTask, h.env, h.hold, h.halt, h.awake, h.stop, h.may, hw.widx, hw.refetch, hw.path, hf, hm]

variable (hm : misplaced w (lenOf e.st.header) e.st.widx = false)
include hm

theorem slotTask_illop (hd : decode e.st.latch.cls w = .error .illop) :
    s.slotTask k = .later (s2.stopped k e.busy false (.fault .illop w)) := by
  simp [State.slotTask, h.env, h.hold, h.halt, h.awake, h.stop, h.may, hw.widx, hw.refetch, hw.path, hf, hm, hd]

theorem slotTask_operand (hd : decode e.st.latch.cls w = .error .operand) :
    s.slotTask k = .later (s2.stopped k e.busy false (.fault .operand w)) := by
  simp [State.slotTask, h.env, h.hold, h.halt, h.awake, h.stop, h.may, hw.widx, hw.refetch, hw.path, hf, hm, hd]

theorem slotTask_decoded {i : Instr} (hd : decode e.st.latch.cls w = .ok i) : s.slotTask k = s2.issueWord k i := by
  simp [State.slotTask, h.env, h.hold, h.halt, h.awake, h.stop, h.may, hw.widx, hw.refetch, hw.path, hf, hm, hd]

end
end

/-! ### The cycle of a word (R214, R264) -/

theorem issueCycle_eq (x : Core) (c : Nat) : x.issueCycle c = if c < x.halfEnd ∧ c % 2 = 1 then c + 1 else c := by
  simp [Core.issueCycle]

theorem issueWord_waits {s : State} {k : Nat} {i : Instr} (h : s.wordWaits k i = true) : s.issueWord k i = .word i s := by
  simp [State.issueWord, h]

section
variable {s : State} {k : Nat} {i : Instr} (h : s.wordWaits k i = false) {c : Nat}
  (hc : (s.core (coreOfSlot k)).issueCycle (max (s.core (coreOfSlot k)).issueC (s.cycleOf (coreOfSlot k))) = c)
include h hc

theorem issueWord_issues (hl : c < s.cycleLimit (coreOfSlot k)) : s.issueWord k i =
    .word i (s.modCore (coreOfSlot k) fun x => { x with issueC := c + 1, lastS := k % 4 }) := by
  subst hc
  simp [State.issueWord, h, Nat.not_le.2 hl]

theorem issueWord_late (hl : s.cycleLimit (coreOfSlot k) ≤ c) : s.issueWord k i = .later s := by
  subst hc
  simp [State.issueWord, h, hl]

end

/-! ### The step of a slot -/

section
variable {s s1 : State} {k j : Nat} (h : s.nextTurn = (some (.slot k), s1)) (hj : s1.servedSlot k = j)
include h hj

theorem step_done {s2 : State} (ht : ({ s1 with cur := j } : State).slotTask j = .done s2) :
    step s = .next (if j = k then s2 else s2.again k) := by simp [step, h, slotStep, hj, ht]

theorem step_later {s2 : State} (ht : ({ s1 with cur := j } : State).slotTask j = .later s2) :
    step s = .next ((s2.again j).again k) := by simp [step, h, slotStep, hj, ht]

theorem step_enters (ht : ({ s1 with cur := j } : State).slotTask j = .enter) {t : State}
    (hx : exec .blockEntry { s1 with cur := j } = .next t) : step s = .next ((t.again j).again k) := by
  simp [step, h, slotStep, hj, ht, hx, andAgain]

/-- The outcome of a word is that of its exec, and its slots' turns come again. -/
theorem step_runs {i : Instr} {s3 : State} (ht : ({ s1 with cur := j } : State).slotTask j = .word i s3) :
    (∀ t, exec i s3 = .next t → step s = .next ((t.again j).again k)) ∧
    (∀ f, exec i s3 = .fault f → step s = .fault f) ∧ (∀ r, exec i s3 = .refused r → step s = .refused r) := by
  rw [step_word h hj ht]
  exact ⟨fun t hx => by rw [hx]; rfl, fun f hx => by rw [hx]; rfl, fun r hx => by rw [hx]; rfl⟩

end

/-- Settles O55: the turn by `State.nextTurn`, the slot by `State.servedSlot`, and what the slot does by each outcome of
`State.slotTask`. -/
theorem aStepRunsTheDecodedWord : Obligations.a_step_runs_the_decoded_word := by
  unfold Obligations.a_step_runs_the_decoded_word
  intro s s1 k
  refine ⟨nextTurn_idle, fun _ _ => nextTurn_oldest, fun _ _ => nextTurn_scripted, fun _ => step_event, step_time, ?_, ?_⟩
  · intro core order at_ can
    have hcan : ∀ x, ¬ can x → s1.canIssue x = false := fun x hx => Bool.eq_false_iff.2 fun h => hx ((canIssue_iff s1 x).1 h)
    refine ⟨fun i t hk => ?_, fun hk => ?_⟩
    · have hw : s1.atWord k = true := (atWord_iff s1 k).2 ⟨i, t, hk⟩
      exact ⟨fun before j after ho hb hj => servedSlot_first hw ho (fun x hx => hcan x (hb x hx)) ((canIssue_iff s1 j).2 hj),
        fun hn => servedSlot_none hw fun x hx => hcan x (hn x hx)⟩
    · refine servedSlot_own (Bool.eq_false_iff.2 fun h => ?_)
      obtain ⟨i, t, ht⟩ := (atWord_iff s1 k).1 h
      exact hk i t ht
  · intro j s0 then_ e hn he hhold hhalt
    have hst : Stands s0 j e := ⟨he, hhold, hhalt⟩
    refine ⟨fun ha => step_done hn rfl (slotTask_dark hst ha), fun ha => ⟨fun w b hs => ⟨fun hf => ?_, fun hf => ?_⟩, fun hs hm => ?_⟩⟩
    · exact step_later hn rfl (slotTask_struck hst ha hs hf)
    · exact step_done hn rfl (slotTask_struck_waits hst ha hs hf)
    · have hmv : MayMove s0 j e := ⟨hst, ha, hs, hm⟩
      refine ⟨fun hw t hx => step_enters hn rfl (slotTask_enters hmv hw) hx, fun hw hr hp => ⟨fun hk hq => ?_, fun s2 w hf => ?_⟩⟩
      · exact word_fetched hk ((envAt_spec he).1 ▸ hq)
      · have hat : AtWord e := ⟨hw, hr, hp⟩
        refine ⟨fun hmis => step_later hn rfl (slotTask_misplaced hmv hat hf hmis), fun hmis => ⟨fun i hd => ?_, fun hd => ?_, fun hd => ?_⟩⟩
        · have ht := slotTask_decoded hmv hat hf hmis hd
          exact ⟨fun hwait => step_runs hn rfl (ht.trans (issueWord_waits hwait)),
            fun hwait hc => step_runs hn rfl (ht.trans (issueWord_issues hwait (issueCycle_eq _ _) hc)),
            fun hwait hc => step_later hn rfl (ht.trans (issueWord_late hwait (issueCycle_eq _ _) hc))⟩
        · exact step_later hn rfl (slotTask_illop hmv hat hf hmis hd)
        · exact step_later hn rfl (slotTask_operand hmv hat hf hmis hd)

end Sys2Proof.Machine
end

section
/-! PROOFS. A word whose own SEQ moves the register window, asked about under control fields that are not its own (R35, R67). -/

namespace Sys2Proof.Machine

/-- An ADD whose own SEQ calls. -/
def callingAdd : Instr := .addR { noCtl with seq := .callT0 } (.s 9) (.s 10) (.s 11) ⟨.full, false⟩

/-- A probe (log 19), and where its next word runs, with control fields that move no window. -/
def callingState : State := State.reset.placeWord (encodeWord callingAdd)

def callingEnv : Env :=
  { k := 0, u := 1, sl := { uid := 1, turned := true }, st := probeStrand, pn := 0, p := probePart, ta := probeTask
    w := encodeWord callingAdd, ctl := noCtl, cond := true, lane := false }

theorem callingAdd_issues : Issues callingState callingAdd noCtl callingEnv :=
  ⟨rfl, by decide +kernel, by decide +kernel, rfl, rfl⟩

/-- What an outcome leaves that the statement asks about: whether slot 0 is free to go on, and the window of strand 1. -/
def windowView : Host.Outcome State Fault Refusal → Option (Bool × Nat)
  | .next t => (tget t.strands 1).map fun y => ((tget t.slots 0).all (·.hold.isNone), y.cwp)
  | _ => none

theorem callingAdd_moves_window : windowView (exec callingAdd callingState) = some (true, 1) := by decide +kernel

/-- Refutes O60: nothing there says that `c`, whose SEQ moves no window, is the control field of the word `i` itself, and exec takes
the word's own. `callingAdd` issues under `noCtl`, and its own SEQ, callT0, moves the register window from 0 to 1. -/
theorem not_registerWordsChangeNothingElse : ¬ Obligations.register_words_change_nothing_else := by
  intro h
  have hview := callingAdd_moves_window
  cases hx : exec callingAdd callingState with
  | fault f => rw [hx] at hview; cases hview
  | refused r => rw [hx] at hview; cases hview
  | next t =>
    rw [hx] at hview
    obtain ⟨x, hstrand, hslot⟩ := Option.map_eq_some_iff.1 hview
    obtain ⟨hfree, hcwp⟩ := Prod.mk.inj hslot
    have hhold : ∀ sl, tget t.slots callingEnv.k = some sl → sl.hold = none := fun sl hsl => by
      rw [show tget t.slots 0 = some sl from hsl] at hfree
      simpa using hfree
    obtain ⟨-, -, -, -, -, -, y, fl, hy, -, -, -, -, -, -, -, -, -, hwindow, -⟩ :=
      h callingState t callingAdd noCtl callingEnv (by decide) callingAdd_issues rfl hx hhold
    obtain rfl : x = y := Option.some.inj (hstrand.symm.trans hy)
    exact absurd (hcwp.symm.trans hwindow) (by decide)

end Sys2Proof.Machine
end

section
/-! PROOFS. Picking a record up, putting a strand down, stalled saves, gathering, pre-emption, aging (R37, R50, R187, R270, R271,
R277, R289, R400, R497, R498). -/

namespace Sys2Proof.Machine

/-! ### The record that a pick-up reads (R28, R270) -/

theorem readRecord_at {s : State} {t : Strand} {a : Nat} (h : s.recordPa t = some a) :
    (s.readRecord t).hdr = s.dwAt a ∧ (s.readRecord t).stat = s.dwAt (a + 8) ∧ (s.readRecord t).rsp = s.dwAt (a + 0x10) ∧
      (s.readRecord t).save = s.dwAt (a + 0x18) := by simp [State.readRecord, h]

theorem readRecord_none {s : State} {t : Strand} (h : s.recordPa t = none) : s.readRecord t = t := by simp [State.readRecord, h]

theorem statOf_at {s : State} {t : Strand} {a : Nat} (h : s.recordPa t = some a) : s.statOf t = s.dwAt (a + 8) := by
  simp [State.statOf, h]

/-- The registers of two strands are the same (R50). -/
def Strand.SameRegs (t y : Strand) : Prop := y.g = t.g ∧ y.frames = t.frames ∧ y.p = t.p ∧ y.v = t.v ∧ y.h = t.h

/-- A record brings no registers. -/
theorem readRecord_regs (s : State) (t : Strand) : t.SameRegs (s.readRecord t) := by
  unfold State.readRecord
  split <;> exact ⟨rfl, rfl, rfl, rfl, rfl⟩

/-- WAIT = 9 alone is a message (Table 1.4). -/
theorem waitKind_ofNum_ne_message {n : Nat} (h : n ≠ WaitKind.message.num) : WaitKind.ofNum n ≠ .message := by
  intro hm
  unfold WaitKind.ofNum at hm
  split at hm <;> simp_all [WaitKind.num]

/-! ### The slot that it takes (R270, R276) -/

theorem acquire_slots (s : State) (k : Nat) (sc : Scope) : (s.acquire k sc).slots = s.slots := by
  unfold State.acquire
  split
  · rfl
  · split <;> rfl

theorem acquire_strands (s : State) (k : Nat) (sc : Scope) : (s.acquire k sc).strands = s.strands := by
  unfold State.acquire
  split
  · rfl
  · split <;> rfl

/-- A binding gives a strand its stream and mode, and its slot its position there (R276). -/
theorem bind_strand {s : State} {u : Nat} {y : Strand} (hy : tget s.strands u = some y) (k task : Nat) (h : Word) :
    ∃ m n, tget (s.bind k u task h).strands u = some { y with fmode := m, stream := n } := by
  unfold State.bind
  simp only
  split
  · exact ⟨.attached, _, by simp [hy]; rfl⟩
  · split
    · exact ⟨.attached, _, by simp [hy]; rfl⟩
    · exact ⟨y.fmode, y.stream, hy⟩

theorem bind_slot {s : State} {k : Nat} {sl : Slot} (hs : tget s.slots k = some sl) (u task : Nat) (h : Word) :
    ∃ q, tget (s.bind k u task h).slots k = some { sl with pos := q } := by
  unfold State.bind
  simp only
  split
  · exact ⟨0, by simp [hs]⟩
  · split
    · exact ⟨0, by simp [hs]⟩
    · exact ⟨sl.pos, hs⟩

/-- The strand after `settle`, but for its stream and mode. -/
def Strand.settled (y : Strand) (k : Nat) : Strand :=
  { y with waitK := .none, waita := 0, waitv := 0, lcore := coreOfSlot k % 16, stood := k, acq := .tile }

theorem settle_strand {s : State} {u : Nat} {y : Strand} (hy : tget s.strands u = some y) (k : Nat) (b : Bool) :
    ∃ m n, tget (s.settle k u b).strands u = some { (y.settled k) with fmode := m, stream := n } := by
  have h1 : ∀ f : Slot → Slot, tget ((s.modStrand u fun x => x.settled k).modSlot k f).strands u = some (y.settled k) := by
    intro f
    simp [hy]
  unfold State.settle
  simp only
  split
  · split
    · exact bind_strand (h1 _) _ _ _
    · exact ⟨_, _, h1 _⟩
  · exact ⟨_, _, h1 _⟩

theorem settle_slot {s : State} {k : Nat} {sl : Slot} (hs : tget s.slots k = some sl) (u : Nat) (b : Bool) :
    ∃ v q, tget (s.settle k u b).slots k = some { sl with vp := v, pos := q } := by
  have h1 : ∀ (f : Strand → Strand) (g : Slot → Slot), tget ((s.modStrand u f).modSlot k g).slots k = some (g sl) := by
    intro f g
    simp [hs]
  refine ⟨((tget s.strands u).map (·.p)).getD sl.vp, ?_⟩
  unfold State.settle
  simp only
  split
  · split
    · exact bind_slot (h1 _ _) u _ _
    · exact ⟨sl.pos, h1 _ _⟩
  · exact ⟨sl.pos, h1 _ _⟩

/-- The strand that the record `r` describes, on slot `k` (R270, Table 1.3). -/
def Strand.arriving (r : Strand) (k : Nat) : Strand := unpackStat (({ r with place := .slot k } : Strand).withPrio r.stat) r.stat

theorem arriving_spec (r : Strand) (k : Nat) : (r.arriving k).place = .slot k ∧ (r.arriving k).hdr = r.hdr ∧
    (r.arriving k).rsp = r.rsp ∧ (r.arriving k).save = r.save ∧ (r.arriving k).widx = bits r.stat 5 0 ∧
    (r.arriving k).cwp = bits r.stat 29 27 ∧ (r.arriving k).fres = bits r.stat 32 30 ∧
    (r.arriving k).waitK = WaitKind.ofNum (bits r.stat 20 17) ∧ r.SameRegs (r.arriving k) := by
  unfold Strand.arriving Strand.withPrio
  split <;> exact ⟨rfl, rfl, rfl, rfl, rfl, rfl, rfl, rfl, rfl, rfl, rfl, rfl, rfl⟩

/-- The slot with that strand, before what was saved of it comes back. -/
def State.seated (s : State) (k u : Nat) (t : Strand) : State :=
  ((((s.offReady u (tileOfSlot k)).modTile (tileOfSlot k) fun x => { x with pool := ldel x.pool u }).setSlot k
    { uid := u, picked := s.time }).setStrand u t).acquire k t.acq

theorem seated_strand (s : State) (k u : Nat) (t : Strand) : tget (s.seated k u t).strands u = some t := by
  simp [State.seated, acquire_strands]

theorem seated_slot (s : State) (k u : Nat) (t : Strand) : tget (s.seated k u t).slots k = some { uid := u, picked := s.time } := by
  simp [State.seated, acquire_slots]

theorem restore_nothing {t : Strand} (h : t.save = 0) (s : State) (k u : Nat) : s.restore k u t = s := by simp [State.restore, h]

/-- A message reaches s8 and s9 of the strand that it creates (R287); then aging ends (R497). -/
def Strand.received (x : Strand) : Strand :=
  (if x.waitK = .message then (x.putPhys (physIdx x.cwp 8) x.waita).putPhys (physIdx x.cwp 9) x.waitv else x).rested

/-- A pick-up of a record that may be entered and has nothing saved. -/
theorem takeSlot_fresh {s : State} {k u : Nat} {x : Strand} (hbad : statBad (s.readRecord x).stat = false)
    (hsave : (s.readRecord x).save = 0) : s.takeSlot k u x =
      (((s.seated k u ((s.readRecord x).arriving k)).modStrand u Strand.received).settle k u true).post (.slot k) := by
  have hs : ((s.readRecord x).arriving k).save = 0 := (arriving_spec _ k).2.2.2.1.trans hsave
  have hrest := restore_nothing hs (s.seated k u ((s.readRecord x).arriving k)) k u
  unfold State.takeSlot
  dsimp only
  rw [if_neg (by simp [hbad])]
  generalize hz : State.restore _ _ _ _ = z
  obtain rfl : z = s.seated k u ((s.readRecord x).arriving k) := hz.symm.trans hrest
  rw [seated_slot]
  rfl

/-- What a pick-up makes of a record that it may enter and that has nothing saved: the strand, and the record as it read it. -/
theorem takeSlot_takes {s : State} {k u : Nat} {x : Strand} (hbad : statBad (s.readRecord x).stat = false)
    (hsave : (s.readRecord x).save = 0) (hmsg : bits (s.readRecord x).stat 20 17 ≠ WaitKind.message.num) :
    ∃ y sl, tget (s.takeSlot k u x).strands u = some y ∧ tget (s.takeSlot k u x).slots k = some sl ∧ sl.uid = u ∧ sl.picked = s.time ∧
      .slot k ∈ (s.takeSlot k u x).agenda ∧ y.place = .slot k ∧ y.waitK = .none ∧ y.hdr = (s.readRecord x).hdr ∧
      y.rsp = (s.readRecord x).rsp ∧ y.widx = bits (s.readRecord x).stat 5 0 ∧ y.cwp = bits (s.readRecord x).stat 29 27 ∧
      y.fres = bits (s.readRecord x).stat 32 30 ∧ x.SameRegs y := by
  rw [takeSlot_fresh hbad hsave]
  obtain ⟨hg, hframes, hp, hv, hh⟩ := readRecord_regs s x
  obtain ⟨hplace, hhdr, hrsp, -, hwidx, hcwp, hfres, hwait, ag, aframes, ap, av, ah⟩ := arriving_spec (s.readRecord x) k
  have hrec : ((s.readRecord x).arriving k).received = ((s.readRecord x).arriving k).rested := by
    rw [Strand.received, if_neg (hwait ▸ waitKind_ofNum_ne_message hmsg)]
  have h1 : tget ((s.seated k u ((s.readRecord x).arriving k)).modStrand u Strand.received).strands u =
      some ((s.readRecord x).arriving k).rested := by simp [seated_strand, hrec]
  have h2 : tget ((s.seated k u ((s.readRecord x).arriving k)).modStrand u Strand.received).slots k =
      some { uid := u, picked := s.time } := by simp [seated_slot]
  obtain ⟨m, n, hy⟩ := settle_strand h1 k true
  obtain ⟨v, q, hsl⟩ := settle_slot h2 u true
  exact ⟨_, _, hy, hsl, rfl, rfl, by simp, hplace, rfl, hhdr, hrsp, hwidx, hcwp, hfres,
    ag.trans hg, aframes.trans hframes, ap.trans hp, av.trans hv, ah.trans hh⟩

/-- A record that a tile can take is taken (R270). -/
theorem exec_pickUp {s : State} {tile u k : Nat} {x : Strand} {p : Partition} (hn : (s.tile tile).nextReady = some u)
    (hu : tget s.strands u = some x) (ha : s.awake tile = true)
    (hk : s.chooseSlot tile (bits (s.statOf x) 39 36) (s.ranBefore x) = some k) (hp : tget s.parts x.part = some p) (hh : p.halt = none) :
    exec (.pickUp tile) s =
      let s1 := (((s.takeSlot k u x).movePending tile).endGathers tile).postOnce (.priorityPreemption tile)
      .next (if (s1.tile tile).nextReady.isSome then s1.postOnce (.pickUp tile) else s1) := by
  show execPickUp tile s = _
  simp [execPickUp, hn, hu, ha, hk, hp, hh]

/-! ### Put-down and stalled saves (R37, R271, R400) -/

theorem exec_putDown {s : State} {slot : Nat} {e : Env} (h : s.envAt slot (.putDown slot) noCtl = some e) :
    exec (.putDown slot) s = .next (e.putDown s false) := by
  show execPutDown slot s = _
  simp [execPutDown, h]

theorem putDown_stopped {s s1 : State} {e : Env} {b : Bool} {f : Stop} (hh : e.sl.hold = some .save)
    (hs : e.spillAll s e.st 8 = (s1, .error f)) : e.putDown s b = e.spillStopped s1 f := by simp [Env.putDown, hh, hs]

theorem putDown_saves {s s1 : State} {e : Env} {b : Bool} {t : Strand} (hh : e.sl.hold = some .save)
    (hs : e.spillAll s e.st 8 = (s1, .ok t)) : e.putDown s b = e.save s1 t b := by simp [Env.putDown, hh, hs]

section
variable {s : State} {e : Env} {t : Strand} (hp : e.p.stalled = [])
include hp

theorem save_no_frame (ha : s.allocArena e.pn frameBytes 256 true = none) : e.save s t false = e.stallSave s := by
  simp [Env.save, hp, ha]

theorem save_frame {s2 : State} {a : Word} {pa : Nat} (ha : s.allocArena e.pn frameBytes 256 true = some (s2, a))
    (hpa : s2.arenaPa e.pn a = some pa) : e.save s t false =
      e.leaveSlot ((s2.writeSave pa t.saveImage).modPart e.pn fun p => { p with stalled := ldel p.stalled e.u }) t a := by
  simp [Env.save, hp, ha, hpa]

end

theorem moreSaves_eq (s : State) (part n : Nat) : s.moreSaves part n =
    let left := ((tget s.parts part).map (·.stalled)).getD []
    if left ≠ [] ∧ left.length < n then s.postOnce (.stalledSaveResume part) else s := by
  unfold State.moreSaves
  split
  · rename_i p hp
    simp [hp]
  · rename_i hp
    simp [hp]

/-- The oldest stalled save of a partition goes on (R400). -/
theorem exec_stalledSaveResume {s : State} {part u k : Nat} {rest : List Nat} {p : Partition} {x : Strand} {e : Env}
    (hp : tget s.parts part = some p) (hs : p.stalled = u :: rest) (hu : tget s.strands u = some x) (hk : x.place = .slot k)
    (he : s.envAt k (.stalledSaveResume part) noCtl = some e) (hh : e.sl.hold = some .save) :
    exec (.stalledSaveResume part) s = .next ((e.putDown s true).moreSaves part p.stalled.length) := by
  show execStalledSaveResume part s = _
  obtain ⟨⟩ := x
  obtain rfl := hk
  simp [execStalledSaveResume, hp, hs, hu, he, hh]

/-! ### Gathering and creations (R277, R289) -/

section
variable {s : State} {tile : Nat} {stream : Fin 4} {x : Stream} {g : Gather} (hx : (s.tile tile).streams[stream.val]? = some x)
  (hg : x.gather = some g)
include hx hg

theorem exec_gatherEnd_over (ho : s.gatherOver tile x = true) : exec (.gatherEnd tile stream) s =
    .next (s.modTile tile fun t => t.setStream stream.val { x with gather := none }) := by
  show execGatherEnd tile stream s = _
  simp [execGatherEnd, hx, hg, ho]

theorem exec_gatherEnd_early (ho : s.gatherOver tile x = false) : exec (.gatherEnd tile stream) s =
    .next (s.postAt (max (s.time + 1) (s.cycleEnds g.core (g.since + 31))) (.gatherEnd tile stream)) := by
  show execGatherEnd tile stream s = _
  simp [execGatherEnd, hx, hg, ho, gatherCycles]

end

theorem modSlot_eq_setSlot {s : State} {k : Nat} {sl : Slot} (h : tget s.slots k = some sl) (f : Slot → Slot) :
    s.modSlot k f = s.setSlot k (f sl) := by simp [State.modSlot, State.setSlot, tmod, h]

theorem exec_strandCreationContinue {s : State} {slot : Nat} {sl : Slot} (h : tget s.slots slot = some sl) (hh : sl.hold = some .creation) :
    exec (.strandCreationContinue slot) s = .next ((s.setSlot slot { sl with hold := none }).postSlot slot) := by
  rw [← modSlot_eq_setSlot h fun sl => { sl with hold := none }]
  show execStrandCreationContinue slot s = _
  obtain ⟨⟩ := sl
  obtain rfl := hh
  simp [execStrandCreationContinue, h]

/-! ### Pre-emption (R187, R498) -/

section
variable {s : State} {slot : Nat} {sl : Slot} {t : Strand} (h : tget s.slots slot = some sl) (ht : tget s.strands sl.uid = some t)
  (hh : s.strandHalted t = false) (hp : sl.preempt = true) (hold : sl.hold = none ∨ sl.hold = some .creation)
include h ht hh hp hold

theorem exec_preemption_awaits_reply (hr : replyNow s.time sl.lost = .waits) :
    exec (.preemption slot) s = .next (s.postAt (s.time + 1) (.preemption slot)) := by
  show execPreemption slot s = _
  rcases hold with hold | hold <;> simp [execPreemption, h, ht, hh, hp, hold, hr]

variable (hr : replyNow s.time sl.lost ≠ .waits)
include hr

theorem exec_preemption_strikes (hj : ∀ j ∈ (s.tile (tileOfSlot slot)).jobs, j.u ≠ sl.uid) (hl : sl.leave = false)
    (hf : sl.flight = []) (hst : sl.stalled = true → sl.hold ≠ none) :
    exec (.preemption slot) s = .next ((s.discard slot).suspend slot .preempted 0 0) := by
  show execPreemption slot s = _
  have hjobs : ((s.tile (tileOfSlot slot)).jobs.any fun j => j.u = sl.uid) = false := by simpa using hj
  rcases hold with hold | hold
  · have hstalled : sl.stalled = false := by simpa [hold] using hst
    simp [execPreemption, h, ht, hh, hp, hold, hr, hjobs, hl, hf, hstalled]
  · simp [execPreemption, h, ht, hh, hp, hold, hr, hjobs, hl, hf]

theorem exec_preemption_waits (hb : sl.flight ≠ [] ∨ (sl.stalled = true ∧ sl.hold = none)) :
    exec (.preemption slot) s = .next (s.postOnce (.preemption slot)) := by
  show execPreemption slot s = _
  rcases hold with hold | hold
  · rcases hb with hb | ⟨hb, -⟩ <;> simp [execPreemption, h, ht, hh, hp, hold, hr, hb]
  · have hf : sl.flight ≠ [] := by simpa [hold] using hb
    simp [execPreemption, h, ht, hh, hp, hold, hr, hf]

end

section
variable {s : State} {tile : Nat} (hfree : s.hasFree tile = false) {w : Strand} {l : List Strand} {k : Nat} {sl : Slot} {t : Strand}
include hfree

theorem exec_priorityPreemption_strikes (hw : (s.waitedFor tile 10000).drop (s.leaving tile) = w :: l)
    (hv : victimOf ((s.runningOn tile).filter fun x => s.strandHalted x.2.2 = false) = some (k, sl, t)) (hlt : t.prio < w.prio) :
    exec (.priorityPreemption tile) s = .next ((s.preemptStrand sl.uid).postOnce (.priorityPreemption tile)) := by
  show execPriorityPreemption tile s = _
  simp only [Bool.decide_eq_false] at hv
  simp [execPriorityPreemption, hfree, prioDelay, hw, hv, hlt]

omit hfree in
/-- The strands of a tile that the time slice of a record of PRIO `n` can strike (R498). -/
theorem filter_sliceVictims (s : State) (n : Nat) (run : List (Nat × Slot × Strand)) :
    ((run.filter fun x => !s.strandHalted x.2.2).filter fun x => x.2.2.prio = n).filter (fun x => x.2.1.picked + sliceTime ≤ s.time) =
      run.filter fun x => s.strandHalted x.2.2 = false ∧ x.2.2.prio = n ∧ x.2.1.picked + sliceTime ≤ s.time := by
  rw [List.filter_filter, List.filter_filter]
  refine List.filter_congr fun x _ => Bool.eq_iff_iff.2 ?_
  simp only [Bool.and_eq_true, decide_eq_true_eq, Bool.not_eq_true']
  tauto

theorem exec_timeSlicePreemption_strikes (hw : (s.waitedFor tile sliceTime).drop (s.leaving tile) = w :: l)
    (hv : victimOf ((s.runningOn tile).filter fun x =>
      s.strandHalted x.2.2 = false ∧ x.2.2.prio = w.prio ∧ x.2.1.picked + sliceTime ≤ s.time) = some (k, sl, t)) :
    exec (.timeSlicePreemption tile) s = .next ((s.preemptStrand sl.uid).postOnce (.timeSlicePreemption tile)) := by
  show execTimeSlicePreemption tile s = _
  unfold execTimeSlicePreemption
  rw [if_neg (by simp [hfree])]
  simp only [hw, filter_sliceVictims, hv]

end

/-! ### Aging (R497) -/

theorem exec_aging_ready {s : State} {uid tl : Nat} {t : Strand} (h : tget s.strands uid = some t) (hp : t.place = .ready tl)
    (hh : s.strandHalted t = false) (hd : t.aged < (s.time - t.since) / 100000) :
    exec (.aging uid) s =
      let due := (s.time - t.since) / 100000
      let s1 := s.postAt (t.since + 100000 * (due + 1)) (.aging uid)
      let s2 := (s1.raisePrio uid (min 7 (t.prio + (due - t.aged)))).modStrand uid fun x => { x with aged := due }
      .next ((s2.postOnce (.priorityPreemption tl)).postOnce (.timeSlicePreemption tl)) := by
  show execAging uid s = _
  have ha : s.ages uid t = true := by simp [State.ages, hp]
  simp [execAging, h, hp, hh, ha, agingStep, Nat.not_le.2 hd]

/-- Settles O46: each act by the outcome of its exec, and the strand of a pick-up by `takeSlot_takes`. -/
theorem recordsArePickedUpAndPutDown : Obligations.records_are_picked_up_and_put_down := by
  unfold Obligations.records_are_picked_up_and_put_down
  intro s tile slot part uid stream
  refine ⟨fun u x k p hn hu ha hk hp hh => ⟨exec_pickUp hn hu ha hk hp hh, fun a => readRecord_at, readRecord_none, fun a => statOf_at,
      takeSlot_takes⟩, fun e he hhold hst => ⟨fun s1 f hs => ?_, fun s1 t hs => ⟨fun ha => ?_, fun s2 a pa ha hpa => ?_⟩⟩,
    fun p u rest x k e hp hs hu hk he hh => ?_, fun x g hx hg => ⟨exec_gatherEnd_over hx hg, exec_gatherEnd_early hx hg⟩,
    fun sl => exec_strandCreationContinue, fun sl t h ht hh hp hold => ⟨exec_preemption_awaits_reply h ht hh hp hold,
      fun hr hj hl => ⟨exec_preemption_strikes h ht hh hp hold hr hj hl, exec_preemption_waits h ht hh hp hold hr⟩⟩,
    fun hfree => ⟨fun w l k sl t => exec_priorityPreemption_strikes hfree, fun w l k sl t => exec_timeSlicePreemption_strikes hfree⟩,
    fun t tl => exec_aging_ready⟩
  · rw [exec_putDown he, putDown_stopped hhold hs]
  · rw [exec_putDown he, putDown_saves hhold hs, save_no_frame hst ha]
  · rw [exec_putDown he, putDown_saves hhold hs, save_frame hst ha hpa]
  · rw [exec_stalledSaveResume hp hs hu hk he hh, moreSaves_eq]

end Sys2Proof.Machine
end

section
/-! PROOFS. What each row of the encoding tables reads and writes, and that decoding and encoding agree (O57). -/

namespace Sys2Proof

/-! ### A code and the bits it lies in

Each reader of the decoder takes a field apart bit by bit, and the encoder puts it together by appending codes. `Lies` is the
equation of the two sides; its rules, one per kind of code, turn an equation of appended codes into the reader's own tests. -/

theorem extract_extract {w m : Nat} (x : BitVec w) (i j n : Nat) (h : j + n ≤ m) :
    (x.extractLsb' i m).extractLsb' j n = x.extractLsb' (i + j) n := by
  ext k hk
  simp only [BitVec.getElem_extractLsb', BitVec.getLsbD_extractLsb']
  simp [show j + k < m by omega, Nat.add_assoc]

theorem extract_zero_succ {w : Nat} (x : BitVec w) (i n : Nat) :
    x.extractLsb' i (n + 1) = 0#(n + 1) ↔ x.getLsbD i = false ∧ x.extractLsb' (i + 1) n = 0#n := by
  constructor
  · intro h
    have hb : ∀ j < n + 1, x.getLsbD (i + j) = false := fun j hj => by
      simpa [hj] using congrArg (·.getLsbD j) h
    refine ⟨hb 0 (by omega), BitVec.eq_of_getLsbD_eq fun j hj => ?_⟩
    simpa [hj, Nat.add_assoc, Nat.add_comm 1] using hb (j + 1) (by omega)
  · rintro ⟨h0, h⟩
    refine BitVec.eq_of_getLsbD_eq fun j hj => ?_
    rcases j with _ | j
    · simpa using h0
    · have := congrArg (·.getLsbD j) h
      simpa [hj, show j < n by omega, Nat.add_assoc, Nat.add_comm 1] using this

/-- The code `a` is what lies in the bits `x`. -/
def Lies {n : Nat} (a x : BitVec n) : Prop := a = x

theorem lies_iff {n : Nat} (a x : BitVec n) : Lies a x ↔ x = a := eq_comm

theorem lies_append {m n : Nat} (a : BitVec m) (b : BitVec n) (x : BitVec (m + n)) :
    Lies (a ++ b) x ↔ Lies a (x.extractLsb' n m) ∧ Lies b (x.extractLsb' 0 n) := by
  constructor
  · rintro rfl
    exact ⟨BitVec.extractLsb'_append_eq_left.symm, BitVec.extractLsb'_append_eq_right.symm⟩
  · rintro ⟨rfl, rfl⟩
    exact BitVec.extractLsb'_append_extractLsb'

theorem lies_ofFin {n : Nat} (k : Fin (2^n)) (x : BitVec n) : Lies (BitVec.ofFin k) x ↔ x.toFin = k := by
  unfold Lies; constructor
  · rintro rfl; rfl
  · rintro rfl; rfl

@[simp] theorem lies_zero {n : Nat} (x : BitVec n) : Lies 0#n x ↔ x = 0 := eq_comm

@[simp] theorem lies_b1 (u : Bool) (x : BitVec 1) : Lies (b1 u) x ↔ x.getLsbD 0 = u := by
  unfold Lies; revert u x; decide

@[simp] theorem lies_one (x : BitVec 1) : Lies 1#1 x ↔ x.getLsbD 0 = true := lies_b1 true x

@[simp] theorem lies_fin2 (k : Fin 4) (x : BitVec 2) : Lies (BitVec.ofFin (w := 2) k) x ↔ x.toFin = k := lies_ofFin k x

@[simp] theorem lies_fin3 (k : Fin 8) (x : BitVec 3) : Lies (BitVec.ofFin (w := 3) k) x ↔ x.toFin = k := lies_ofFin k x

@[simp] theorem lies_fin6 (k : Fin 64) (x : BitVec 6) : Lies (BitVec.ofFin (w := 6) k) x ↔ x.toFin = k := lies_ofFin k x

@[simp] theorem lies_fin10 (k : Fin 1024) (x : BitVec 10) : Lies (BitVec.ofFin (w := 10) k) x ↔ x.toFin = k := lies_ofFin k x

@[simp] theorem lies_ofNat9 : ∀ (k : Fin 9) (c : BitVec 4), Lies (BitVec.ofNat 4 k.val) c ↔
  ∃ h : c.toNat < 9, ⟨c.toNat, h⟩ = k := by
  unfold Lies; decide

@[simp] theorem lies_ofNat7 : ∀ (k : Fin 7) (c : BitVec 3), Lies (BitVec.ofNat 3 k.val) c ↔
  ∃ h : c.toNat < 7, ⟨c.toNat, h⟩ = k := by
  unfold Lies; decide

/-! ### The codes of operands and modifiers -/

@[simp] theorem lies_reg (r : Reg) (c : BitVec 7) : Lies r.code c ↔ codeOk c = true ∧ Reg.ofCode c = r := by
  constructor
  · rintro rfl
    cases r with
    | s n => revert n; decide
    | v n => revert n; decide
    | p n => revert n; decide
    | h n => revert n; decide
    | latch => decide
  · rintro ⟨h, rfl⟩
    revert c; unfold Lies; decide

@[simp] theorem lies_width : ∀ (w : Width) (c : BitVec 3), Lies w.code c ↔ Width.ofCode c = some w := by
  intro w c; unfold Lies; cases w <;> revert c <;> decide

@[simp] theorem lies_w64 : ∀ (w : Bool) (c : BitVec 3), Lies (w64Code w) c ↔ w64Of c = some w := by unfold Lies; decide

@[simp] theorem lies_w32 : ∀ (w : Bool) (c : BitVec 2), Lies (w32Code w) c ↔ w32Of c = some w := by unfold Lies; decide

@[simp] theorem lies_cmpCc (cc : CmpCc) (c : BitVec 4) : Lies cc.code c ↔ CmpCc.ofCode c = some cc := by
  unfold Lies; cases cc <;> revert c <;> decide

@[simp] theorem lies_fcmpCc (cc : FcmpCc) (c : BitVec 4) : Lies cc.code c ↔ FcmpCc.ofCode c = some cc := by
  unfold Lies; cases cc <;> revert c <;> decide

@[simp] theorem lies_rnd (m : Option RoundMode) (c : BitVec 3) : Lies (rndCode m) c ↔ rndOf c = some m := by
  unfold Lies; rcases m with _ | m
  · revert c; decide
  · cases m <;> revert c <;> decide

@[simp] theorem lies_fmt (t : Option FpFmt) (c : BitVec 3) : Lies (fmtCode t) c ↔ fmtOf c = some t := by
  unfold Lies; rcases t with _ | t
  · revert c; decide
  · cases t <;> revert c <;> decide

@[simp] theorem lies_rop (o : Rop) (c : BitVec 4) : Lies o.code c ↔ Rop.ofCode c = some o := by
  unfold Lies; cases o <;> revert c <;> decide

@[simp] theorem lies_scalarSz (z : ScalarSz) (c : BitVec 2) : Lies z.code c ↔ ScalarSz.ofCode c = z := by
  unfold Lies; cases z <;> revert c <;> decide

@[simp] theorem lies_vecSz (z : VecSz) (c : BitVec 2) : Lies z.code c ↔ VecSz.ofCode c = z := by
  unfold Lies; cases z <;> revert c <;> decide

@[simp] theorem lies_scope (z : Scope) (c : BitVec 3) : Lies z.code c ↔ Scope.ofCode c = some z := by
  unfold Lies; cases z <;> revert c <;> decide

@[simp] theorem lies_ord4 (z : Ord4) (c : BitVec 2) : Lies z.code c ↔ Ord4.ofCode c = z := by
  unfold Lies; cases z <;> revert c <;> decide

@[simp] theorem lies_aop (o : AopOp) (c : BitVec 4) : Lies o.code c ↔ AopOp.ofCode c = some o := by
  unfold Lies; cases o <;> revert c <;> decide

@[simp] theorem lies_fenceKind (z : FenceKind) (c : BitVec 4) : Lies z.code c ↔ FenceKind.ofCode c = some z := by
  unfold Lies; cases z <;> revert c <;> decide

@[simp] theorem lies_trafficClass (z : TrafficClass) (c : BitVec 3) : Lies z.code c ↔ TrafficClass.ofCode c = some z := by
  unfold Lies; cases z <;> revert c <;> decide

theorem accOf_iff (o : Bool) (c : BitVec 3) (q : Option Scope) : accOf o c = some q ↔ o = q.isSome ∧ c = accCode q := by
  rcases q with _ | z
  · revert o c; decide
  · cases z <;> revert o c <;> decide

theorem wqOf_iff (c : BitVec 3) (q : Fin 7) : wqOf c = some q ↔ ∃ h : c.toNat < 7, ⟨c.toNat, h⟩ = q := by
  unfold wqOf; split <;> simp_all

theorem rndOf_eq_none (c : BitVec 3) : rndOf c = some none ↔ c = 0 := by revert c; decide

theorem pred1Of_iff (o : Option Reg) (c : BitVec 7) : codeOk c = true ∧ pred1Of c = o ↔ pred1Code o = c ∧ o ≠ some (.s 0) := by
  by_cases h : c = 0
  · subst h
    rcases o with _ | r
    · simp [pred1Of, pred1Code, codeOk]
    · rw [pred1Code]
      have := lies_reg r 0
      simp_all [pred1Of, codeOk, Lies, Reg.ofCode, eq_comm]
  · rcases o with _ | r
    · simp [pred1Of, pred1Code, show ¬ c = 0#7 from h, show ¬ 0#7 = c from Ne.symm h]
    · have hr := lies_reg r c
      simp only [Lies] at hr
      have : r.code = c → r ≠ .s 0 := by rintro rfl rfl; exact h rfl
      simp [pred1Of, pred1Code, hr]
      tauto

/-! ### The fields of a word of the encoder's tables -/

/-- The fields of the word that `word` makes of OP, the control fields, three operand codes and X. -/
def rowFields (op : BitVec 8) (k : Ctl) (d a b : BitVec 7) (x : BitVec 23) : Raw :=
  { op := op, seq := k.seq.code, g := b1 k.neg ++ BitVec.ofFin (w := 3) k.gp, la := BitVec.ofFin (w := 4) k.la
    d := d, a := a, b := b, x := x }

theorem seq_ofCode_iff : ∀ (c : BitVec 4) (q : Seq), Seq.ofCode c = some q ↔ q.code = c := by
  intro c q; cases q <;> revert c <;> decide

theorem rowFields_eq_iff (r : Raw) (k : Ctl) (d a b : BitVec 7) (x : BitVec 23) :
    rowFields r.op k d a b x = r ↔ r.ctl = some k ∧ Lies d r.d ∧ Lies a r.a ∧ Lies b r.b ∧ Lies x r.x := by
  obtain ⟨op, seq, g, la, d', a', b', x'⟩ := r
  obtain ⟨q, neg, gp, la'⟩ := k
  have hg : b1 neg ++ BitVec.ofFin (w := 3) gp = g ↔ g.getLsbD 3 = neg ∧ (g.extractLsb' 0 3).toFin = gp := by
    refine (lies_append (b1 neg) (BitVec.ofFin (w := 3) gp) g).trans ?_
    rw [lies_b1, lies_ofFin]
    simp
  have hl : BitVec.ofFin (w := 4) la' = la ↔ la.toFin = la' := lies_ofFin (n := 4) la' la
  simp only [rowFields, Raw.ctl, Lies, Raw.mk.injEq, hg, hl, Option.map_eq_some_iff, seq_ofCode_iff, Ctl.mk.injEq]
  constructor
  · rintro ⟨-, rfl, ⟨rfl, rfl⟩, rfl, h⟩
    exact ⟨⟨q, rfl, rfl, rfl, rfl, rfl⟩, h⟩
  · rintro ⟨⟨_, rfl, rfl, rfl, rfl, rfl⟩, h⟩
    exact ⟨trivial, rfl, ⟨rfl, rfl⟩, rfl, h⟩

@[simp] theorem lies_xR (c : BitVec 7) (md : BitVec 16) (r : Raw) : Lies (xR c md) r.x ↔
  Lies c r.c ∧ Lies md r.md := lies_append c md r.x

@[simp] theorem lies_xE (tx ty : Fin 1024) (em : BitVec 3) (r : Raw) : Lies (xE tx ty em) r.x ↔
  r.tx = tx ∧ r.ty = ty ∧ Lies em r.em := by
  simp only [xE, lies_append, -Nat.reduceAdd]
  simp [extract_extract, and_assoc, Raw.tx, Raw.ty, Raw.em]

@[simp] theorem lies_mInt (w : Width) (xs : Bool) (x : BitVec 16) : Lies (mInt ⟨w, xs⟩) x ↔
   x.extractLsb' 4 12 = 0 ∧ x.getLsbD 3 = xs ∧ Width.ofCode (x.extractLsb' 0 3) = some w := by
  simp only [mInt, lies_append, -Nat.reduceAdd]
  simp [extract_extract, and_assoc]

@[simp] theorem lies_mFp (m : Option RoundMode) (t : Option FpFmt) (x : BitVec 16) : Lies (mFp m t) x ↔
    rndOf (x.extractLsb' 13 3) = some m ∧ fmtOf (x.extractLsb' 10 3) = some t ∧ x.extractLsb' 0 10 = 0 := by
  simp only [mFp, lies_append, -Nat.reduceAdd]
  simp [extract_extract, and_assoc]

theorem lies_mMem (opc : BitVec 4) (k : Fin 8) (sc : BitVec 3) (ord : BitVec 2) (sx : Bool) (sz : BitVec 2) (x : BitVec 16) :
    Lies (mMem opc k sc ord sx sz) x ↔ Lies opc (x.extractLsb' 12 4) ∧ x.extractLsb' 11 1 = 0 ∧
      Lies (BitVec.ofFin (w := 3) k) (x.extractLsb' 8 3) ∧ Lies sc (x.extractLsb' 5 3) ∧ Lies ord (x.extractLsb' 3 2) ∧
      x.getLsbD 2 = sx ∧ Lies sz (x.extractLsb' 0 2) := by
  simp only [mMem, lies_append, lies_b1, -Nat.reduceAdd]
  simp [extract_extract, and_assoc]

theorem lies_bMem (q : Option Scope) (sx : Bool) (sz : BitVec 2) (x : BitVec 7) : Lies (bMem q sx sz) x ↔
    x.getLsbD 3 = q.isSome ∧ Lies (accCode q) (x.extractLsb' 4 3) ∧ x.getLsbD 2 = sx ∧ Lies sz (x.extractLsb' 0 2) := by
  simp only [bMem, lies_append, lies_b1, -Nat.reduceAdd]
  simp [extract_extract, and_assoc, and_left_comm]

/-! ### What each reader reads

A reader answers an instruction with every operand code that of a register exactly from the fields that the encoder makes of
that instruction. In each proof the first step splits the equation of fields into one for each code, the second turns the two
sides into the same tests, and `grind` matches them. The widths of appended parts must stay sums until they are split, hence
`-Nat.reduceAdd`. -/

theorem rInt3_iff {r : Raw} {f : Ctl → Reg → Reg → Reg → IntMod → Instr} {i : Instr} : rInt3 r f = some (i, true) ↔
    ∃ k d a b w xs, f k d a b ⟨w, xs⟩ = i ∧ rowFields r.op k d.code a.code b.code (xR 0 (mInt ⟨w, xs⟩)) = r := by
  simp only [rInt3, rowFields_eq_iff, lies_xR, -Nat.reduceAdd]
  simp [Option.bind_eq_some_iff, -Bool.exists_bool]
  grind [Lies]

theorem rInt2_iff {r : Raw} {f : Ctl → Reg → Reg → IntMod → Instr} {i : Instr} : rInt2 r f = some (i, true) ↔
    ∃ k d a w xs, f k d a ⟨w, xs⟩ = i ∧ rowFields r.op k d.code a.code 0 (xR 0 (mInt ⟨w, xs⟩)) = r := by
  simp only [rInt2, rowFields_eq_iff, lies_xR, -Nat.reduceAdd]
  simp [Option.bind_eq_some_iff, -Bool.exists_bool]
  grind [Lies]

theorem rExt_iff {r : Raw} {f : Ctl → Reg → Reg → Width → Instr} {i : Instr} : rExt r f = some (i, true) ↔
    ∃ k d a w, f k d a w = i ∧ rowFields r.op k d.code a.code 0 (xR 0 (0#13 ++ w.code)) = r := by
  simp only [rExt, rowFields_eq_iff, lies_xR, lies_append, -Nat.reduceAdd]
  simp [Option.bind_eq_some_iff, -Bool.exists_bool]
  grind [Lies]

theorem rImm_iff {r : Raw} {f : Ctl → Reg → Reg → BitVec 23 → Instr} {i : Instr} : rImm r f = some (i, true) ↔
    ∃ k d a imm, f k d a imm = i ∧ rowFields r.op k d.code a.code 0 imm = r := by
  simp only [rImm, rowFields_eq_iff, -Nat.reduceAdd]
  simp [Option.bind_eq_some_iff, -Bool.exists_bool]
  grind [Lies]

theorem rSat_iff {r : Raw} {f : Ctl → Reg → Reg → Reg → IntMod → Bool → Instr} {i : Instr} : rSat r f = some (i, true) ↔
    ∃ k d a b w xs u, f k d a b ⟨w, xs⟩ u = i ∧
      rowFields r.op k d.code a.code b.code (xR 0 (0#11 ++ b1 u ++ b1 xs ++ w.code)) = r := by
  simp only [rSat, rowFields_eq_iff, lies_xR, lies_append, -Nat.reduceAdd]
  simp [Option.bind_eq_some_iff, extract_extract, -Bool.exists_bool]
  grind [Lies]

theorem rBfx_iff {r : Raw} {i : Instr} : rBfx r = some (i, true) ↔
    ∃ k d a w xs pos lenm, (.bfx k d a ⟨w, xs⟩ pos lenm : Instr) = i ∧
      rowFields r.op k d.code a.code 0
        (xR 0 (BitVec.ofFin (w := 6) lenm ++ BitVec.ofFin (w := 6) pos ++ b1 xs ++ w.code)) = r := by
  simp only [rBfx, rowFields_eq_iff, lies_xR, lies_append, -Nat.reduceAdd]
  simp [Option.bind_eq_some_iff, extract_extract, -Bool.exists_bool]
  grind [Lies]

theorem rBfi_iff {r : Raw} {i : Instr} : rBfi r = some (i, true) ↔
    ∃ k d a b w xs pos lenm, (.bfi k d a b ⟨w, xs⟩ pos lenm : Instr) = i ∧
      rowFields r.op k d.code a.code b.code
        (xR 0 (BitVec.ofFin (w := 6) lenm ++ BitVec.ofFin (w := 6) pos ++ b1 xs ++ w.code)) = r := by
  simp only [rBfi, rowFields_eq_iff, lies_xR, lies_append, -Nat.reduceAdd]
  simp [Option.bind_eq_some_iff, extract_extract, -Bool.exists_bool]
  grind [Lies]

theorem rMov_iff {r : Raw} {i : Instr} : rMov r = some (i, true) ↔
    ∃ k d a w, (.movR k d a w : Instr) = i ∧ rowFields r.op k d.code a.code 0 (xR 0 (0#13 ++ w64Code w)) = r := by
  simp only [rMov, rowFields_eq_iff, lies_xR, lies_append, -Nat.reduceAdd]
  simp [Option.bind_eq_some_iff, -Bool.exists_bool]
  grind [Lies]

theorem rMovI_iff {r : Raw} {i : Instr} : rMovI r = some (i, true) ↔
    ∃ k d imm, (.movI k d imm : Instr) = i ∧ rowFields r.op k d.code 0 0 imm = r := by
  simp only [rMovI, rowFields_eq_iff, -Nat.reduceAdd]
  simp [Option.bind_eq_some_iff, -Bool.exists_bool]
  grind [Lies]

theorem rSel_iff {r : Raw} {i : Instr} : rSel r = some (i, true) ↔
    ∃ k d a b c w xs, (.sel k d a b c ⟨w, xs⟩ : Instr) = i ∧
      rowFields r.op k d.code a.code b.code (xR c.code (mInt ⟨w, xs⟩)) = r := by
  simp only [rSel, rowFields_eq_iff, lies_xR, -Nat.reduceAdd]
  simp [Option.bind_eq_some_iff, -Bool.exists_bool]
  grind [Lies]

theorem rCmp_iff {r : Raw} {i : Instr} : rCmp r = some (i, true) ↔
    ∃ k d a b w cc, (.cmpR k d a b w cc : Instr) = i ∧
      rowFields r.op k d.code a.code b.code (xR 0 (0#8 ++ cc.code ++ 0#1 ++ w.code)) = r := by
  simp only [rCmp, rowFields_eq_iff, lies_xR, lies_append, -Nat.reduceAdd]
  simp [Option.bind_eq_some_iff, extract_extract, -Bool.exists_bool]
  grind [Lies]

theorem rCmpI_iff {r : Raw} {i : Instr} : rCmpI r = some (i, true) ↔
    ∃ k d a cc imm, (.cmpI k d a cc imm : Instr) = i ∧ rowFields r.op k d.code a.code (0#3 ++ cc.code) imm = r := by
  simp only [rCmpI, rowFields_eq_iff, lies_append, -Nat.reduceAdd]
  simp [Option.bind_eq_some_iff, -Bool.exists_bool]
  grind [Lies]

theorem rScadd_iff {r : Raw} {i : Instr} : rScadd r = some (i, true) ↔
    ∃ k d a b w xs sh, (.scadd k d a b ⟨w, xs⟩ sh : Instr) = i ∧
      rowFields r.op k d.code a.code b.code (xR 0 (0#6 ++ BitVec.ofFin (w := 6) sh ++ b1 xs ++ w.code)) = r := by
  simp only [rScadd, rowFields_eq_iff, lies_xR, lies_append, -Nat.reduceAdd]
  simp [Option.bind_eq_some_iff, extract_extract, -Bool.exists_bool]
  grind [Lies]

theorem rMovw_iff {r : Raw} {i : Instr} : rMovw r = some (i, true) ↔
    ∃ k d hw chunk, (.movw k d hw chunk : Instr) = i ∧
      rowFields r.op k d.code 0 (0#5 ++ BitVec.ofFin (w := 2) hw) (0#7 ++ chunk) = r := by
  simp only [rMovw, rowFields_eq_iff, lies_append, -Nat.reduceAdd]
  simp [Option.bind_eq_some_iff, -Bool.exists_bool]
  grind [Lies]

theorem rPlog_iff {r : Raw} {i : Instr} : rPlog r = some (i, true) ↔
    ∃ k d a b c tt, a ≠ some (.s 0) ∧ b ≠ some (.s 0) ∧ c ≠ some (.s 0) ∧ (.plog k d a b c tt : Instr) = i ∧
      rowFields r.op k d.code (pred1Code a) (pred1Code b) (xR (pred1Code c) (0#8 ++ tt)) = r := by
  simp only [rPlog, rowFields_eq_iff, lies_xR, lies_append, -Nat.reduceAdd]
  simp [Option.bind_eq_some_iff, -Bool.exists_bool]
  grind [Lies, pred1Of_iff]

theorem rPred_iff {r : Raw} {f : Ctl → Reg → Reg → Option Reg → Instr} {i : Instr} : rPred r f = some (i, true) ↔
    ∃ k d a b, b ≠ some (.s 0) ∧ f k d a b = i ∧ rowFields r.op k d.code a.code (pred1Code b) (xR 0 0) = r := by
  simp only [rPred, rowFields_eq_iff, lies_xR, -Nat.reduceAdd]
  simp [Option.bind_eq_some_iff, -Bool.exists_bool]
  grind [Lies, pred1Of_iff]

theorem rFp3_iff {r : Raw} {f : Ctl → Reg → Reg → Reg → Option RoundMode → Option FpFmt → Instr} {i : Instr} :
    rFp3 r f = some (i, true) ↔
    ∃ k d a b m t, f k d a b m t = i ∧ rowFields r.op k d.code a.code b.code (xR 0 (mFp m t)) = r := by
  simp only [rFp3, rowFields_eq_iff, lies_xR, -Nat.reduceAdd]
  simp [Option.bind_eq_some_iff, -Bool.exists_bool]
  grind [Lies]

theorem rFp4_iff {r : Raw} {f : Ctl → Reg → Reg → Reg → Reg → Option RoundMode → Option FpFmt → Instr} {i : Instr} :
    rFp4 r f = some (i, true) ↔
    ∃ k d a b c m t, f k d a b c m t = i ∧ rowFields r.op k d.code a.code b.code (xR c.code (mFp m t)) = r := by
  simp only [rFp4, rowFields_eq_iff, lies_xR, -Nat.reduceAdd]
  simp [Option.bind_eq_some_iff, -Bool.exists_bool]
  grind [Lies]

theorem rFp2_iff {r : Raw} {f : Ctl → Reg → Reg → Option RoundMode → Option FpFmt → Instr} {i : Instr} :
    rFp2 r f = some (i, true) ↔
    ∃ k d a m t, f k d a m t = i ∧ rowFields r.op k d.code a.code 0 (xR 0 (mFp m t)) = r := by
  simp only [rFp2, rowFields_eq_iff, lies_xR, -Nat.reduceAdd]
  simp [Option.bind_eq_some_iff, -Bool.exists_bool]
  grind [Lies]

theorem rFt2_iff {r : Raw} {f : Ctl → Reg → Reg → Option FpFmt → Instr} {i : Instr} : rFt2 r f = some (i, true) ↔
    ∃ k d a t, f k d a t = i ∧ rowFields r.op k d.code a.code 0 (xR 0 (mFp none t)) = r := by
  simp only [rFt2, rowFields_eq_iff, lies_xR, -Nat.reduceAdd]
  simp [Option.bind_eq_some_iff, -Bool.exists_bool, rndOf_eq_none]
  grind [Lies]

theorem rFt3_iff {r : Raw} {f : Ctl → Reg → Reg → Reg → Option FpFmt → Instr} {i : Instr} : rFt3 r f = some (i, true) ↔
    ∃ k d a b t, f k d a b t = i ∧ rowFields r.op k d.code a.code b.code (xR 0 (mFp none t)) = r := by
  simp only [rFt3, rowFields_eq_iff, lies_xR, -Nat.reduceAdd]
  simp [Option.bind_eq_some_iff, -Bool.exists_bool, rndOf_eq_none]
  grind [Lies]

theorem rFcmp_iff {r : Raw} {i : Instr} : rFcmp r = some (i, true) ↔
    ∃ k d a b t cc, (.fcmp k d a b t cc : Instr) = i ∧
      rowFields r.op k d.code a.code b.code (xR 0 (0#3 ++ fmtCode t ++ 0#6 ++ cc.code)) = r := by
  simp only [rFcmp, rowFields_eq_iff, lies_xR, lies_append, -Nat.reduceAdd]
  simp [Option.bind_eq_some_iff, extract_extract, -Bool.exists_bool]
  grind [Lies]

theorem rFcvt_iff {r : Raw} {i : Instr} : rFcvt r = some (i, true) ↔
    ∃ k d a m t g, (.fcvt k d a m t g : Instr) = i ∧
      rowFields r.op k d.code a.code 0 (xR 0 (rndCode m ++ fmtCode t ++ fmtCode g ++ 0#7)) = r := by
  simp only [rFcvt, rowFields_eq_iff, lies_xR, lies_append, -Nat.reduceAdd]
  simp [Option.bind_eq_some_iff, extract_extract, -Bool.exists_bool]
  grind [Lies]

theorem rFint_iff {r : Raw} {f : Ctl → Reg → Reg → Option RoundMode → Option FpFmt → Width → Bool → Instr} {i : Instr} :
    rFint r f = some (i, true) ↔
    ∃ k d a m t w u, f k d a m t w u = i ∧
      rowFields r.op k d.code a.code 0 (xR 0 (rndCode m ++ fmtCode t ++ w.code ++ b1 u ++ 0#6)) = r := by
  simp only [rFint, rowFields_eq_iff, lies_xR, lies_append, -Nat.reduceAdd]
  simp [Option.bind_eq_some_iff, extract_extract, -Bool.exists_bool]
  grind [Lies]

theorem rVbcast_iff {r : Raw} {i : Instr} : rVbcast r = some (i, true) ↔
    ∃ k d a b w, (.vbcast k d a b w : Instr) = i ∧ rowFields r.op k d.code a.code b.code (xR 0 (0#13 ++ w64Code w)) = r := by
  simp only [rVbcast, rowFields_eq_iff, lies_xR, lies_append, -Nat.reduceAdd]
  simp [Option.bind_eq_some_iff, -Bool.exists_bool]
  grind [Lies]

theorem rVperm_iff {r : Raw} {i : Instr} : rVperm r = some (i, true) ↔
    ∃ k d a b c w, (.vperm k d a b c w : Instr) = i ∧
      rowFields r.op k d.code a.code b.code (xR c.code (0#13 ++ w64Code w)) = r := by
  simp only [rVperm, rowFields_eq_iff, lies_xR, lies_append, -Nat.reduceAdd]
  simp [Option.bind_eq_some_iff, -Bool.exists_bool]
  grind [Lies]

theorem rVslide_iff {r : Raw} {i : Instr} : rVslide r = some (i, true) ↔
    ∃ k d a b c up w, (.vslide k d a b c up w : Instr) = i ∧
      rowFields r.op k d.code a.code b.code (xR c.code (0#2 ++ b1 up ++ 0#10 ++ w64Code w)) = r := by
  simp only [rVslide, rowFields_eq_iff, lies_xR, lies_append, -Nat.reduceAdd]
  simp [Option.bind_eq_some_iff, extract_extract, -Bool.exists_bool]
  grind [Lies]

theorem rVextr_iff {r : Raw} {i : Instr} : rVextr r = some (i, true) ↔
    ∃ k d a b xs w, (.vextr k d a b xs w : Instr) = i ∧
      rowFields r.op k d.code a.code b.code (xR 0 (0#12 ++ b1 xs ++ w64Code w)) = r := by
  simp only [rVextr, rowFields_eq_iff, lies_xR, lies_append, -Nat.reduceAdd]
  simp [Option.bind_eq_some_iff, extract_extract, -Bool.exists_bool]
  grind [Lies]

theorem rVins_iff {r : Raw} {i : Instr} : rVins r = some (i, true) ↔
    ∃ k d a b w, (.vins k d a b w : Instr) = i ∧ rowFields r.op k d.code a.code b.code (xR 0 (0#13 ++ w64Code w)) = r := by
  simp only [rVins, rowFields_eq_iff, lies_xR, lies_append, -Nat.reduceAdd]
  simp [Option.bind_eq_some_iff, -Bool.exists_bool]
  grind [Lies]

theorem rVred_iff {r : Raw} {i : Instr} : rVred r = some (i, true) ↔
    ∃ k d a op m w xs, (.vred k d a op m ⟨w, xs⟩ : Instr) = i ∧ rowFields r.op k d.code a.code 0
      (xR 0 (op.code ++ rndCode m ++ 0#5 ++ b1 xs ++ w.code)) = r := by
  simp only [rVred, rowFields_eq_iff, lies_xR, lies_append, -Nat.reduceAdd]
  simp [Option.bind_eq_some_iff, extract_extract, -Bool.exists_bool]
  grind [Lies]

theorem rVscan_iff {r : Raw} {i : Instr} : rVscan r = some (i, true) ↔
    ∃ k d a op m ex w, (.vscan k d a op m ex w : Instr) = i ∧ rowFields r.op k d.code a.code 0
      (xR 0 (op.code ++ rndCode m ++ 0#4 ++ b1 ex ++ 0#1 ++ w.code)) = r := by
  simp only [rVscan, rowFields_eq_iff, lies_xR, lies_append, -Nat.reduceAdd]
  simp [Option.bind_eq_some_iff, extract_extract, -Bool.exists_bool]
  grind [Lies]

theorem rVcompress_iff {r : Raw} {i : Instr} : rVcompress r = some (i, true) ↔
    ∃ k d a w, (.vcompress k d a w : Instr) = i ∧ rowFields r.op k d.code a.code 0 (xR 0 (0#13 ++ w64Code w)) = r := by
  simp only [rVcompress, rowFields_eq_iff, lies_xR, lies_append, -Nat.reduceAdd]
  simp [Option.bind_eq_some_iff, -Bool.exists_bool]
  grind [Lies]

theorem rViota_iff {r : Raw} {i : Instr} : rViota r = some (i, true) ↔
    ∃ k d a w, a ≠ some (.s 0) ∧ (.viota k d a w : Instr) = i ∧
      rowFields r.op k d.code (pred1Code a) 0 (xR 0 (0#13 ++ w64Code w)) = r := by
  simp only [rViota, rowFields_eq_iff, lies_xR, lies_append, -Nat.reduceAdd]
  simp [Option.bind_eq_some_iff, -Bool.exists_bool]
  grind [Lies, pred1Of_iff]

theorem rBquant_iff {r : Raw} {i : Instr} : rBquant r = some (i, true) ↔
    ∃ k d a t q, (.bquant k d a t q : Instr) = i ∧ rowFields r.op k d.code a.code 0
      (xR 0 (0#3 ++ fmtCode t ++ 0#3 ++ BitVec.ofNat 3 q.val ++ 0#4)) = r := by
  simp only [rBquant, rowFields_eq_iff, lies_xR, lies_append, -Nat.reduceAdd]
  simp [Option.bind_eq_some_iff, extract_extract, -Bool.exists_bool, wqOf_iff]
  grind [Lies]

theorem rBdeq_iff {r : Raw} {i : Instr} : rBdeq r = some (i, true) ↔
    ∃ k d a m t q, (.bdeq k d a m t q : Instr) = i ∧ rowFields r.op k d.code a.code 0
      (xR 0 (rndCode m ++ fmtCode t ++ 0#3 ++ BitVec.ofNat 3 q.val ++ 0#4)) = r := by
  simp only [rBdeq, rowFields_eq_iff, lies_xR, lies_append, -Nat.reduceAdd]
  simp [Option.bind_eq_some_iff, extract_extract, -Bool.exists_bool, wqOf_iff]
  grind [Lies]

theorem rLd_iff {r : Raw} {i : Instr} : rLd r = some (i, true) ↔
    ∃ k d a imm sz sx q, (.ld k d a imm sz sx q : Instr) = i ∧ rowFields r.op k d.code a.code (bMem q sx sz.code) imm = r := by
  simp only [rLd, rowFields_eq_iff, lies_bMem, -Nat.reduceAdd]
  simp [Option.bind_eq_some_iff, -Bool.exists_bool, accOf_iff, accCode]
  grind [Lies]

theorem rLdx_iff {r : Raw} {i : Instr} : rLdx r = some (i, true) ↔
    ∃ k d a b sh sz sx q, (.ldx k d a b sh sz sx q : Instr) = i ∧ rowFields r.op k d.code a.code b.code
      (xR 0 (mMem 0 sh (accCode q) (0#1 ++ b1 q.isSome) sx sz.code)) = r := by
  simp only [rLdx, rowFields_eq_iff, lies_xR, lies_mMem, lies_append, -Nat.reduceAdd]
  simp [Option.bind_eq_some_iff, extract_extract, -Bool.exists_bool, accOf_iff, accCode, extract_zero_succ]
  grind [Lies]

theorem rSt_iff {r : Raw} {i : Instr} : rSt r = some (i, true) ↔
    ∃ k d a imm sz q, (.st k d a imm sz q : Instr) = i ∧ rowFields r.op k d.code a.code (bMem q false sz.code) imm = r := by
  simp only [rSt, rowFields_eq_iff, lies_bMem, -Nat.reduceAdd]
  simp [Option.bind_eq_some_iff, -Bool.exists_bool, accOf_iff, accCode, extract_zero_succ]
  grind [Lies]

theorem rLdv_iff {r : Raw} {i : Instr} : rLdv r = some (i, true) ↔
    ∃ k d a imm sz sx, (.ldv k d a imm sz sx : Instr) = i ∧ rowFields r.op k d.code a.code (bMem none sx sz.code) imm = r := by
  simp only [rLdv, rowFields_eq_iff, lies_bMem, -Nat.reduceAdd]
  simp [Option.bind_eq_some_iff, -Bool.exists_bool, accCode, extract_zero_succ]
  grind [Lies]

theorem rStv_iff {r : Raw} {i : Instr} : rStv r = some (i, true) ↔
    ∃ k d a imm sz, (.stv k d a imm sz : Instr) = i ∧ rowFields r.op k d.code a.code (bMem none false sz.code) imm = r := by
  simp only [rStv, rowFields_eq_iff, lies_bMem, -Nat.reduceAdd]
  simp [Option.bind_eq_some_iff, -Bool.exists_bool, accCode, extract_zero_succ]
  grind [Lies]

theorem rLdg_iff {r : Raw} {i : Instr} : rLdg r = some (i, true) ↔
    ∃ k d a b sh sz sx, (.ldg k d a b sh sz sx : Instr) = i ∧
      rowFields r.op k d.code a.code b.code (xR 0 (mMem 0 sh 0 0 sx sz.code)) = r := by
  simp only [rLdg, rowFields_eq_iff, lies_xR, lies_mMem, -Nat.reduceAdd]
  simp [Option.bind_eq_some_iff, -Bool.exists_bool, extract_zero_succ]
  grind [Lies]

theorem rStsc_iff {r : Raw} {i : Instr} : rStsc r = some (i, true) ↔
    ∃ k a b c sh sz, (.stsc k a b c sh sz : Instr) = i ∧
      rowFields r.op k 0 a.code b.code (xR c.code (mMem 0 sh 0 0 false sz.code)) = r := by
  simp only [rStsc, rowFields_eq_iff, lies_xR, lies_mMem, -Nat.reduceAdd]
  simp [Option.bind_eq_some_iff, -Bool.exists_bool, extract_zero_succ]
  grind [Lies]

theorem rPref_iff {r : Raw} {i : Instr} : rPref r = some (i, true) ↔
    ∃ k a imm l2, (.pref k a imm l2 : Instr) = i ∧ rowFields r.op k 0 a.code (0#6 ++ b1 l2) imm = r := by
  simp only [rPref, rowFields_eq_iff, lies_append, -Nat.reduceAdd]
  simp [Option.bind_eq_some_iff, -Bool.exists_bool]
  grind [Lies]

theorem rAop_iff {r : Raw} {i : Instr} : rAop r = some (i, true) ↔
    ∃ k d a b op ord sc w sx, (.aop k d a b op ord sc w sx : Instr) = i ∧ rowFields r.op k d.code a.code b.code
      (xR 0 (mMem op.code 0 sc.code ord.code sx (w32Code w))) = r := by
  simp only [rAop, rowFields_eq_iff, lies_xR, lies_mMem, -Nat.reduceAdd]
  simp [Option.bind_eq_some_iff, -Bool.exists_bool, extract_zero_succ]
  grind [Lies]

theorem rAcas_iff {r : Raw} {i : Instr} : rAcas r = some (i, true) ↔
    ∃ k d a b c ord sc w sx, (.acas k d a b c ord sc w sx : Instr) = i ∧ rowFields r.op k d.code a.code b.code
      (xR c.code (mMem 0 0 sc.code ord.code sx (w32Code w))) = r := by
  simp only [rAcas, rowFields_eq_iff, lies_xR, lies_mMem, -Nat.reduceAdd]
  simp [Option.bind_eq_some_iff, -Bool.exists_bool, extract_zero_succ]
  grind [Lies]

theorem rAfadd_iff {r : Raw} {i : Instr} : rAfadd r = some (i, true) ↔
    ∃ k d a b ord sc w, (.afadd k d a b ord sc w : Instr) = i ∧ rowFields r.op k d.code a.code b.code
      (xR 0 (mMem 0 0 sc.code ord.code false (w32Code w))) = r := by
  simp only [rAfadd, rowFields_eq_iff, lies_xR, lies_mMem, -Nat.reduceAdd]
  simp [Option.bind_eq_some_iff, -Bool.exists_bool, extract_zero_succ]
  grind [Lies]

theorem rCadd_iff {r : Raw} {i : Instr} : rCadd r = some (i, true) ↔
    ∃ k a b sc, (.cadd k a b sc : Instr) = i ∧ rowFields r.op k 0 a.code b.code (xR 0 (mMem 0 0 sc.code 0 false 0)) = r := by
  simp only [rCadd, rowFields_eq_iff, lies_xR, lies_mMem, -Nat.reduceAdd]
  simp [Option.bind_eq_some_iff, -Bool.exists_bool, extract_zero_succ]
  grind [Lies]

theorem rCwait_iff {r : Raw} {i : Instr} : rCwait r = some (i, true) ↔
    ∃ k d a b sc, (.cwait k d a b sc : Instr) = i ∧
      rowFields r.op k d.code a.code b.code (xR 0 (mMem 0 0 sc.code 0 false 0)) = r := by
  simp only [rCwait, rowFields_eq_iff, lies_xR, lies_mMem, -Nat.reduceAdd]
  simp [Option.bind_eq_some_iff, -Bool.exists_bool, extract_zero_succ]
  grind [Lies]

theorem rCtest_iff {r : Raw} {i : Instr} : rCtest r = some (i, true) ↔
    ∃ k d a b acq sc, (.ctest k d a b acq sc : Instr) = i ∧ rowFields r.op k d.code a.code b.code
      (xR 0 (mMem 0 0 sc.code (0#1 ++ b1 acq) false 0)) = r := by
  simp only [rCtest, rowFields_eq_iff, lies_xR, lies_mMem, lies_append, -Nat.reduceAdd]
  simp [Option.bind_eq_some_iff, extract_extract, -Bool.exists_bool, extract_zero_succ]
  grind [Lies]

theorem rFence_iff {r : Raw} {i : Instr} : rFence r = some (i, true) ↔
    ∃ k kind sc, (.fence k kind sc : Instr) = i ∧ rowFields r.op k 0 0 0 (xR 0 (mMem kind.code 0 sc.code 0 false 0)) = r := by
  simp only [rFence, rowFields_eq_iff, lies_xR, lies_mMem, -Nat.reduceAdd]
  simp [Option.bind_eq_some_iff, -Bool.exists_bool, extract_zero_succ]
  grind [Lies]

theorem r0_iff {r : Raw} {f : Ctl → Instr} {i : Instr} : r0 r f = some (i, true) ↔
    ∃ k, f k = i ∧ rowFields r.op k 0 0 0 0 = r := by
  simp only [r0, rowFields_eq_iff, -Nat.reduceAdd]
  simp [Option.bind_eq_some_iff, -Bool.exists_bool]
  grind [Lies]

theorem rD_iff {r : Raw} {f : Ctl → Reg → Instr} {i : Instr} : rD r f = some (i, true) ↔
    ∃ k d, f k d = i ∧ rowFields r.op k d.code 0 0 0 = r := by
  simp only [rD, rowFields_eq_iff, -Nat.reduceAdd]
  simp [Option.bind_eq_some_iff, -Bool.exists_bool]
  grind [Lies]

theorem rA_iff {r : Raw} {f : Ctl → Reg → Instr} {i : Instr} : rA r f = some (i, true) ↔
    ∃ k a, f k a = i ∧ rowFields r.op k 0 a.code 0 0 = r := by
  simp only [rA, rowFields_eq_iff, -Nat.reduceAdd]
  simp [Option.bind_eq_some_iff, -Bool.exists_bool]
  grind [Lies]

theorem rDA_iff {r : Raw} {f : Ctl → Reg → Reg → Instr} {i : Instr} : rDA r f = some (i, true) ↔
    ∃ k d a, f k d a = i ∧ rowFields r.op k d.code a.code 0 0 = r := by
  simp only [rDA, rowFields_eq_iff, -Nat.reduceAdd]
  simp [Option.bind_eq_some_iff, -Bool.exists_bool]
  grind [Lies]

theorem rAB_iff {r : Raw} {f : Ctl → Reg → Reg → Instr} {i : Instr} : rAB r f = some (i, true) ↔
    ∃ k a b, f k a b = i ∧ rowFields r.op k 0 a.code b.code 0 = r := by
  simp only [rAB, rowFields_eq_iff, -Nat.reduceAdd]
  simp [Option.bind_eq_some_iff, -Bool.exists_bool]
  grind [Lies]

theorem rDAB_iff {r : Raw} {f : Ctl → Reg → Reg → Reg → Instr} {i : Instr} : rDAB r f = some (i, true) ↔
    ∃ k d a b, f k d a b = i ∧ rowFields r.op k d.code a.code b.code 0 = r := by
  simp only [rDAB, rowFields_eq_iff, -Nat.reduceAdd]
  simp [Option.bind_eq_some_iff, -Bool.exists_bool]
  grind [Lies]

theorem rSpawn_iff {r : Raw} {i : Instr} : rSpawn r = some (i, true) ↔
    ∃ k d a b c, (.spawn k d a b c : Instr) = i ∧ rowFields r.op k d.code a.code b.code (xR c.code 0) = r := by
  simp only [rSpawn, rowFields_eq_iff, lies_xR, -Nat.reduceAdd]
  simp [Option.bind_eq_some_iff, -Bool.exists_bool]
  grind [Lies]

theorem rSend_iff {r : Raw} {i : Instr} : rSend r = some (i, true) ↔
    ∃ k d a b c len8, (.send k d a b c len8 : Instr) = i ∧
      rowFields r.op k d.code a.code b.code (xR c.code (0#10 ++ BitVec.ofFin (w := 6) len8)) = r := by
  simp only [rSend, rowFields_eq_iff, lies_xR, lies_append, -Nat.reduceAdd]
  simp [Option.bind_eq_some_iff, -Bool.exists_bool]
  grind [Lies]

theorem rGbar_iff {r : Raw} {i : Instr} : rGbar r = some (i, true) ↔
    ∃ k d a wait, (.gbar k d a wait : Instr) = i ∧ rowFields r.op k d.code a.code 0 (0#22 ++ b1 wait) = r := by
  simp only [rGbar, rowFields_eq_iff, lies_append, -Nat.reduceAdd]
  simp [Option.bind_eq_some_iff, -Bool.exists_bool]
  grind [Lies]

theorem rGred_iff {r : Raw} {i : Instr} : rGred r = some (i, true) ↔
    ∃ k d a b rop, (.gred k d a b rop : Instr) = i ∧
      rowFields r.op k d.code a.code b.code (0#19 ++ BitVec.ofNat 4 rop.val) = r := by
  simp only [rGred, rowFields_eq_iff, lies_append, -Nat.reduceAdd]
  simp [Option.bind_eq_some_iff, -Bool.exists_bool]
  grind [Lies]

theorem rGinfo_iff {r : Raw} {i : Instr} : rGinfo r = some (i, true) ↔
    ∃ k d a item, (.ginfo k d a item : Instr) = i ∧ rowFields r.op k d.code a.code 0 (0#20 ++ BitVec.ofNat 3 item.val) = r := by
  simp only [rGinfo, rowFields_eq_iff, lies_append, -Nat.reduceAdd]
  simp [Option.bind_eq_some_iff, -Bool.exists_bool]
  grind [Lies]

theorem rTreq_iff {r : Raw} {i : Instr} : rTreq r = some (i, true) ↔
    ∃ k d a all, (.treq k d a all : Instr) = i ∧ rowFields r.op k d.code a.code 0 (0#22 ++ b1 all) = r := by
  simp only [rTreq, rowFields_eq_iff, lies_append, -Nat.reduceAdd]
  simp [Option.bind_eq_some_iff, -Bool.exists_bool]
  grind [Lies]

theorem rTstat_iff {r : Raw} {i : Instr} : rTstat r = some (i, true) ↔
    ∃ k d item, (.tstat k d item : Instr) = i ∧ rowFields r.op k d.code 0 0 (0#19 ++ BitVec.ofNat 4 item.val) = r := by
  simp only [rTstat, rowFields_eq_iff, lies_append, -Nat.reduceAdd]
  simp [Option.bind_eq_some_iff, -Bool.exists_bool]
  grind [Lies]

theorem rCopy_iff {r : Raw} {i : Instr} : rCopy r = some (i, true) ↔
    ∃ k a sc, (.copy k a sc : Instr) = i ∧ rowFields r.op k 0 a.code 0 (xR 0 (mMem 0 0 sc.code 0 false 0)) = r := by
  simp only [rCopy, rowFields_eq_iff, lies_xR, lies_mMem, -Nat.reduceAdd]
  simp [Option.bind_eq_some_iff, -Bool.exists_bool, extract_zero_succ]
  grind [Lies]

theorem rCopys_iff {r : Raw} {i : Instr} : rCopys r = some (i, true) ↔
    ∃ k a b c sc, (.copys k a b c sc : Instr) = i ∧
      rowFields r.op k 0 a.code b.code (xR c.code (mMem 0 0 sc.code 0 false 0)) = r := by
  simp only [rCopys, rowFields_eq_iff, lies_xR, lies_mMem, -Nat.reduceAdd]
  simp [Option.bind_eq_some_iff, -Bool.exists_bool, extract_zero_succ]
  grind [Lies]

theorem eA_iff {r : Raw} {f : Ctl → Reg → Fin 1024 → Fin 1024 → Bool → Instr} {i : Instr} : eA r f = some (i, true) ↔
    ∃ k a tx ty u, f k a tx ty u = i ∧ rowFields r.op k 0 a.code 0 (xE tx ty (0#2 ++ b1 u)) = r := by
  simp only [eA, rowFields_eq_iff, lies_xE, lies_append, -Nat.reduceAdd]
  simp [Option.bind_eq_some_iff, -Bool.exists_bool]
  grind [Lies]

theorem eAB_iff {r : Raw} {f : Ctl → Reg → Reg → Fin 1024 → Fin 1024 → Bool → Instr} {i : Instr} : eAB r f = some (i, true) ↔
    ∃ k a b tx ty u, f k a b tx ty u = i ∧ rowFields r.op k 0 a.code b.code (xE tx ty (0#2 ++ b1 u)) = r := by
  simp only [eAB, rowFields_eq_iff, lies_xE, lies_append, -Nat.reduceAdd]
  simp [Option.bind_eq_some_iff, -Bool.exists_bool]
  grind [Lies]

theorem eAB0_iff {r : Raw} {f : Ctl → Reg → Reg → Fin 1024 → Fin 1024 → Instr} {i : Instr} : eAB0 r f = some (i, true) ↔
    ∃ k a b tx ty, f k a b tx ty = i ∧ rowFields r.op k 0 a.code b.code (xE tx ty 0) = r := by
  simp only [eAB0, rowFields_eq_iff, lies_xE, -Nat.reduceAdd]
  simp [Option.bind_eq_some_iff, -Bool.exists_bool]
  grind [Lies]

theorem eD0_iff {r : Raw} {f : Ctl → Reg → Fin 1024 → Fin 1024 → Instr} {i : Instr} : eD0 r f = some (i, true) ↔
    ∃ k d tx ty, f k d tx ty = i ∧ rowFields r.op k d.code 0 0 (xE tx ty 0) = r := by
  simp only [eD0, rowFields_eq_iff, lies_xE, -Nat.reduceAdd]
  simp [Option.bind_eq_some_iff, -Bool.exists_bool]
  grind [Lies]

theorem eAttn_iff {r : Raw} {i : Instr} : eAttn r = some (i, true) ↔
    ∃ k d a b tx ty causal, (.attn k d a b tx ty causal : Instr) = i ∧
      rowFields r.op k d.code a.code b.code (xE tx ty (0#2 ++ b1 causal)) = r := by
  simp only [eAttn, rowFields_eq_iff, lies_xE, lies_append, -Nat.reduceAdd]
  simp [Option.bind_eq_some_iff, -Bool.exists_bool]
  grind [Lies]

theorem eKvlook_iff {r : Raw} {i : Instr} : eKvlook r = some (i, true) ↔
    ∃ k d a b tx v, (.kvlook k d a b tx v : Instr) = i ∧ rowFields r.op k d.code a.code b.code (xE tx 0 (0#2 ++ b1 v)) = r := by
  simp only [eKvlook, rowFields_eq_iff, lies_xE, lies_append, -Nat.reduceAdd]
  simp [Option.bind_eq_some_iff, -Bool.exists_bool]
  grind [Lies]

theorem eTtset_iff {r : Raw} {i : Instr} : eTtset r = some (i, true) ↔
    ∃ k a tx, (.ttset k a tx : Instr) = i ∧ rowFields r.op k 0 a.code 0 (xE tx 0 0) = r := by
  simp only [eTtset, rowFields_eq_iff, lies_xE, -Nat.reduceAdd]
  simp [Option.bind_eq_some_iff, -Bool.exists_bool]
  grind [Lies]

theorem eTtmask_iff {r : Raw} {i : Instr} : eTtmask r = some (i, true) ↔
    ∃ k d a, (.ttmask k d a : Instr) = i ∧ rowFields r.op k d.code a.code 0 0 = r := by
  simp only [eTtmask, rowFields_eq_iff, -Nat.reduceAdd]
  simp [Option.bind_eq_some_iff, -Bool.exists_bool]
  grind [Lies]

theorem eTtpos_iff {r : Raw} {i : Instr} : eTtpos r = some (i, true) ↔
    ∃ k d a depth, (.ttpos k d a depth : Instr) = i ∧ rowFields r.op k d.code a.code 0 (0#22 ++ b1 depth) = r := by
  simp only [eTtpos, rowFields_eq_iff, lies_append, -Nat.reduceAdd]
  simp [Option.bind_eq_some_iff, -Bool.exists_bool, Raw.em]
  grind [Lies]

theorem eTtprune_iff {r : Raw} {i : Instr} : eTtprune r = some (i, true) ↔
    ∃ k d a tx clr, (.ttprune k d a tx clr : Instr) = i ∧ rowFields r.op k d.code a.code 0 (xE tx 0 (0#2 ++ b1 clr)) = r := by
  simp only [eTtprune, rowFields_eq_iff, lies_xE, lies_append, -Nat.reduceAdd]
  simp [Option.bind_eq_some_iff, -Bool.exists_bool]
  grind [Lies]

theorem eVe1_iff {r : Raw} {f : Ctl → Reg → Reg → Fin 1024 → Instr} {i : Instr} : eVe1 r f = some (i, true) ↔
    ∃ k a b tx, f k a b tx = i ∧ rowFields r.op k 0 a.code b.code (xE tx 0 0) = r := by
  simp only [eVe1, rowFields_eq_iff, lies_xE, -Nat.reduceAdd]
  simp [Option.bind_eq_some_iff, -Bool.exists_bool]
  grind [Lies]

theorem eVered_iff {r : Raw} {i : Instr} : eVered r = some (i, true) ↔
    ∃ k a b tx acc, (.vered k a b tx acc : Instr) = i ∧ rowFields r.op k 0 a.code b.code (xE tx 0 (0#2 ++ b1 acc)) = r := by
  simp only [eVered, rowFields_eq_iff, lies_xE, lies_append, -Nat.reduceAdd]
  simp [Option.bind_eq_some_iff, -Bool.exists_bool]
  grind [Lies]

theorem eVecvt_iff {r : Raw} {i : Instr} : eVecvt r = some (i, true) ↔
    ∃ k a tx m, (.vecvt k a tx m : Instr) = i ∧ rowFields r.op k 0 a.code 0 (xE tx 0 (rndCode m)) = r := by
  simp only [eVecvt, rowFields_eq_iff, lies_xE, -Nat.reduceAdd]
  simp [Option.bind_eq_some_iff, -Bool.exists_bool]
  grind [Lies]

theorem eBaddq_iff {r : Raw} {i : Instr} : eBaddq r = some (i, true) ↔
    ∃ k d a tx ty f32, (.baddq k d a tx ty f32 : Instr) = i ∧
      rowFields r.op k d.code a.code 0 (xE tx ty (0#2 ++ b1 f32)) = r := by
  simp only [eBaddq, rowFields_eq_iff, lies_xE, lies_append, -Nat.reduceAdd]
  simp [Option.bind_eq_some_iff, -Bool.exists_bool]
  grind [Lies]

theorem rTrap_iff {r : Raw} {f : Ctl → BitVec 16 → Instr} {i : Instr} : rTrap r f = some (i, true) ↔
    ∃ k n, f k n = i ∧ rowFields r.op k 0 0 0 (0#7 ++ n) = r := by
  simp only [rTrap, rowFields_eq_iff, lies_append, -Nat.reduceAdd]
  simp [Option.bind_eq_some_iff, -Bool.exists_bool]
  grind [Lies]

theorem rRoute_iff {r : Raw} {i : Instr} : rRoute r = some (i, true) ↔
    ∃ k d a cls, (.route k d a cls : Instr) = i ∧ rowFields r.op k d.code a.code 0 (0#20 ++ cls.code) = r := by
  simp only [rRoute, rowFields_eq_iff, lies_append, -Nat.reduceAdd]
  simp [Option.bind_eq_some_iff, -Bool.exists_bool]
  grind [Lies]

theorem Shuf.exists_iff {P : Shuf → Prop} : (∃ x, P x) ↔
    (∃ k, P (.xor k)) ∨ (∃ b, P (.ziplo b)) ∨ (∃ b, P (.ziphi b)) ∨ (∃ b, P (.unze b)) ∨ ∃ b, P (.unzo b) := by
  constructor
  · rintro ⟨k | b | b | b | b, h⟩
    · exact .inl ⟨k, h⟩
    · exact .inr (.inl ⟨b, h⟩)
    · exact .inr (.inr (.inl ⟨b, h⟩))
    · exact .inr (.inr (.inr (.inl ⟨b, h⟩)))
    · exact .inr (.inr (.inr (.inr ⟨b, h⟩)))
  · rintro (⟨_, h⟩ | ⟨_, h⟩ | ⟨_, h⟩ | ⟨_, h⟩ | ⟨_, h⟩) <;> exact ⟨_, h⟩

theorem codeOk_zero : codeOk 0 = true := rfl

theorem rVshuf_iff {r : Raw} {i : Instr} : rVshuf r = some (i, true) ↔
    ∃ k d a sh w, (.vshuf k d a sh w : Instr) = i ∧ rowFields r.op k d.code a.code (shufFields sh).2.1
      (xR 0 ((shufFields sh).1 ++ 0#3 ++ (shufFields sh).2.2 ++ 0#1 ++ w64Code w)) = r := by
  have hk : ∀ c : BitVec 3, c = 0 ∨ c = 1 ∨ c = 2 ∨ c = 3 ∨ c = 4 ∨ c = 5 ∨ c = 6 ∨ c = 7 := by decide
  simp only [rVshuf, rowFields_eq_iff, lies_xR, lies_append, Shuf.exists_iff, shufFields, -Nat.reduceAdd]
  rcases hk (r.md.extractLsb' 13 3) with h | h | h | h | h | h | h | h <;>
    simp [Option.bind_eq_some_iff, extract_extract, h, -BitVec.extractLsb'_toNat, -Bool.exists_bool]
  all_goals simp only [lies_iff]
  all_goals grind [codeOk_zero]

theorem eVenorm_iff {r : Raw} {i : Instr} : eVenorm r = some (i, true) ↔
    ∃ k a b tx gain mean, (.venorm k a b tx gain mean : Instr) = i ∧ rowFields r.op k 0 a.code b.code
      (xE tx (gain.getD 0) (0#1 ++ b1 mean ++ b1 gain.isSome)) = r := by
  simp only [eVenorm, rowFields_eq_iff, lies_xE, lies_append, Option.exists, -Nat.reduceAdd]
  cases h : r.em.getLsbD 0 <;> simp [Option.bind_eq_some_iff, extract_extract, extract_zero_succ, h, -Bool.exists_bool]
  all_goals grind [Lies]

/-- The identifier of a tensor word lies in two fields, A and the low bits of MD. -/
theorem tidOf_iff (r : Raw) (t : TensorId) :
    Lies (tidA t) r.a ∧ Lies (tidM t) r.md ↔ tidOf r = some t ∧ codeOk r.a = true ∧ r.md.extractLsb' 11 5 = 0 := by
  rcases t with n | q
  · simp only [tidOf, tidA, tidM, lies_append, -Nat.reduceAdd]
    simp [extract_extract]
    grind [Lies, codeOk_zero]
  · rw [tidA, tidM, show (0 : BitVec 16) = 0#5 ++ 0#1 ++ 0#10 from rfl]
    simp only [tidOf, lies_append, -Nat.reduceAdd]
    simp [extract_extract, extract_zero_succ]
    grind [Lies]

theorem rTab_iff {r : Raw} {f : Ctl → TensorId → Reg → Instr} {i : Instr} : rTab r f = some (i, true) ↔
    ∃ k t b, f k t b = i ∧ rowFields r.op k 0 (tidA t) b.code (xR 0 (tidM t)) = r := by
  have ht := tidOf_iff r
  simp only [rTab, rowFields_eq_iff, lies_xR]
  simp [Option.bind_eq_some_iff]
  grind [Lies]

theorem rTdrop_iff {r : Raw} {i : Instr} : rTdrop r = some (i, true) ↔
    ∃ k t, (.tdrop k t : Instr) = i ∧ rowFields r.op k 0 (tidA t) 0 (xR 0 (tidM t)) = r := by
  have ht := tidOf_iff r
  simp only [rTdrop, rowFields_eq_iff, lies_xR]
  simp [Option.bind_eq_some_iff]
  grind [Lies]

theorem rMfs_iff {r : Raw} {i : Instr} : rMfs r = some (i, true) ↔
    ∃ k d n, (if n = 0x105#12 then Instr.readDroopcntCecnt k d false else if n = 0x106#12 then .readDroopcntCecnt k d true
      else .mfs k d n) = i ∧ rowFields r.op k d.code 0 0 (0#11 ++ n) = r := by
  simp only [rMfs, rowFields_eq_iff, lies_append, -Nat.reduceAdd]
  simp [Option.bind_eq_some_iff]
  simp [lies_iff]
  grind

theorem rMts_iff {r : Raw} {i : Instr} : rMts r = some (i, true) ↔
    ∃ k a n, (if n = 0x000#12 then Instr.writeStatus k a else if n = 0x004#12 then .writeFpst k a
      else if n = 0x007#12 then .writeRsp k a else if n = 0x009#12 then .writeClass k a
      else if n = 0x104#12 then .writeDroopth k a else if n = 0x107#12 then .writeCpwt k a
      else .mts k n a) = i ∧ rowFields r.op k 0 a.code 0 (0#11 ++ n) = r := by
  simp only [rMts, rowFields_eq_iff, lies_append, -Nat.reduceAdd]
  simp [Option.bind_eq_some_iff]
  simp [lies_iff]
  grind

theorem rCinv_iff {r : Raw} {i : Instr} : rCinv r = some (i, true) ↔
    (∃ k, Instr.cinvCode k = i ∧ rowFields r.op k 0 0 0 (0#21 ++ 0#2) = r) ∨
    (∃ k a, Instr.cinvLine k a = i ∧ rowFields r.op k 0 a.code 0 (0#21 ++ 1#2) = r) ∨
    ∃ k a, Instr.cinvRdc k a = i ∧ rowFields r.op k 0 a.code 0 (0#21 ++ 2#2) = r := by
  have hk : ∀ c : BitVec 2, c = 0 ∨ c = 1 ∨ c = 2 ∨ c = 3 := by decide
  simp only [rCinv, rowFields_eq_iff, lies_append, -Nat.reduceAdd]
  rcases hk (r.x.extractLsb' 0 2) with h | h | h | h <;>
    simp [Option.bind_eq_some_iff, h, -BitVec.extractLsb'_toNat]
  all_goals simp only [lies_iff]
  all_goals grind

/-! ### From the instruction to the word and back -/

theorem split_pack (r : Raw) : Raw.split r.pack = r := by
  simp [Raw.split, Raw.pack, BitVec.extractLsb'_append_eq_of_le, BitVec.extractLsb'_append_eq_of_add_le, -Nat.reduceAdd]

theorem pack_split (w : Word) : (Raw.split w).pack = w := by
  simp [Raw.split, Raw.pack, BitVec.extractLsb'_append_extractLsb'_eq_extractLsb', -Nat.reduceAdd]

/-- The word carries the instruction: its fields are read as `i`, with every operand code that of a register. -/
def Reads (w : Word) (i : Instr) : Prop := opAssigned (Raw.split w).op.toNat = true ∧ parse (Raw.split w) = some (i, true)

theorem op_parts {op : BitVec 8} {n t : Nat} (ho : op = BitVec.ofNat 8 (n + 64 * t)) (hn : n < 64) (ht : t < 4) :
    (op.extractLsb' 0 6).toNat = n ∧ (op.extractLsb' 6 2).toNat = t := by
  subst ho
  constructor
  · simp
    omega
  · simp [Nat.shiftRight_eq_div_pow]
    omega

theorem parse_op0 {n : Nat} {r : Raw} (ho : r.op = BitVec.ofNat 8 n) (hn : n < 64) : parse r = parse0 r n := by
  obtain ⟨hlow, htop⟩ := op_parts (t := 0) ho hn (by decide)
  simp only [parse, hlow, htop]

theorem parse_op1 {n : Nat} {r : Raw} (ho : r.op = BitVec.ofNat 8 (n + 64)) (hn : n < 64) : parse r = parse1 r n := by
  obtain ⟨hlow, htop⟩ := op_parts (t := 1) ho hn (by decide)
  simp only [parse, hlow, htop]

theorem parse_op2 {n : Nat} {r : Raw} (ho : r.op = BitVec.ofNat 8 (n + 128)) (hn : n < 64) : parse r = parse2 r n := by
  obtain ⟨hlow, htop⟩ := op_parts (t := 2) ho hn (by decide)
  simp only [parse, hlow, htop]

theorem parse_op3 {n : Nat} {r : Raw} (ho : r.op = BitVec.ofNat 8 (n + 192)) (hn : n < 64) : parse r = parse3 r n := by
  obtain ⟨hlow, htop⟩ := op_parts (t := 3) ho hn (by decide)
  simp only [parse, hlow, htop]

theorem reads_row {T : Raw → Nat → Parsed} {op n : Nat} (hT : ∀ {r : Raw}, r.op = BitVec.ofNat 8 op → parse r = T r n)
    {k : Ctl} {d a b : BitVec 7} {x : BitVec 23} {i : Instr} {w : Word}
    (he : some (word (BitVec.ofNat 8 op) k d a b x) = some w)
    (hp : T (rowFields (BitVec.ofNat 8 op) k d a b x) n = some (i, true))
    (ha : opAssigned (BitVec.ofNat 8 op).toNat = true) : Reads w i := by
  obtain rfl := Option.some.inj he
  have h : Raw.split (word (BitVec.ofNat 8 op) k d a b x) = rowFields (BitVec.ofNat 8 op) k d a b x := split_pack _
  exact ⟨h ▸ ha, h ▸ (hT rfl).trans hp⟩

section
variable {n : Nat} {k : Ctl} {d a b : BitVec 7} {x : BitVec 23} {i : Instr} {w : Word}

theorem reads_row0 (he : some (word (BitVec.ofNat 8 n) k d a b x) = some w)
    (hp : parse0 (rowFields (BitVec.ofNat 8 n) k d a b x) n = some (i, true)) (hn : n < 64 := by decide)
    (ha : opAssigned (BitVec.ofNat 8 n).toNat = true := by rfl) : Reads w i :=
  reads_row (parse_op0 · hn) he hp ha

theorem reads_row1 (he : some (word (BitVec.ofNat 8 (n + 64)) k d a b x) = some w)
    (hp : parse1 (rowFields (BitVec.ofNat 8 (n + 64)) k d a b x) n = some (i, true)) (hn : n < 64 := by decide)
    (ha : opAssigned (BitVec.ofNat 8 (n + 64)).toNat = true := by rfl) : Reads w i :=
  reads_row (parse_op1 · hn) he hp ha

theorem reads_row2 (he : some (word (BitVec.ofNat 8 (n + 128)) k d a b x) = some w)
    (hp : parse2 (rowFields (BitVec.ofNat 8 (n + 128)) k d a b x) n = some (i, true)) (hn : n < 64 := by decide)
    (ha : opAssigned (BitVec.ofNat 8 (n + 128)).toNat = true := by rfl) : Reads w i :=
  reads_row (parse_op2 · hn) he hp ha

theorem reads_row3 (he : some (word (BitVec.ofNat 8 (n + 192)) k d a b x) = some w)
    (hp : parse3 (rowFields (BitVec.ofNat 8 (n + 192)) k d a b x) n = some (i, true)) (hn : n < 64 := by decide)
    (ha : opAssigned (BitVec.ofNat 8 (n + 192)).toNat = true := by rfl) : Reads w i :=
  reads_row (parse_op3 · hn) he hp ha

end

theorem encode_reads {lc : LCls} {i : Instr} {w : Word} (hf : i.fieldsOk lc = true) (he : encode i = some w) :
    i = .unassignedOpcode w ∨ Reads w i := by
  cases i with
  | unassignedOpcode v => exact .inl (congrArg _ (Option.some.inj he))
  | addR k d a b m | sub k d a b m | mulR k d a b m | mulh k d a b m | mulhu k d a b m | div k d a b m
  | divu k d a b m | rem k d a b m | remu k d a b m | andR k d a b m | orR k d a b m | xorR k d a b m
  | andn k d a b m | orn k d a b m | xnor k d a b m | shlR k d a b m | shrR k d a b m | sarR k d a b m
  | rotlR k d a b m | minR k d a b m | maxR k d a b m | minuR k d a b m | maxuR k d a b m =>
    exact .inr (reads_row0 he (rInt3_iff.2 ⟨k, d, a, b, m.w, m.xs, rfl, rfl⟩))
  | clz k d a m | ctz k d a m | popc k d a m | brev k d a m | abs k d a m =>
    exact .inr (reads_row0 he (rInt2_iff.2 ⟨k, d, a, m.w, m.xs, rfl, rfl⟩))
  | addI k d a imm | mulI k d a imm | andI k d a imm | orI k d a imm | xorI k d a imm | shlI k d a imm
  | shrI k d a imm | sarI k d a imm | rotlI k d a imm | minI k d a imm | maxI k d a imm | minuI k d a imm
  | maxuI k d a imm =>
    exact .inr (reads_row0 he (rImm_iff.2 ⟨k, d, a, imm, rfl, rfl⟩))
  | addsat k d a b m u | subsat k d a b m u => exact .inr (reads_row0 he (rSat_iff.2 ⟨k, d, a, b, m.w, m.xs, u, rfl, rfl⟩))
  | sext k d a w | zext k d a w => exact .inr (reads_row0 he (rExt_iff.2 ⟨k, d, a, w, rfl, rfl⟩))
  | bfx k d a m pos lenm => exact .inr (reads_row0 he (rBfx_iff.2 ⟨k, d, a, m.w, m.xs, pos, lenm, rfl, rfl⟩))
  | bfi k d a b m pos lenm => exact .inr (reads_row0 he (rBfi_iff.2 ⟨k, d, a, b, m.w, m.xs, pos, lenm, rfl, rfl⟩))
  | movR k d a w => exact .inr (reads_row0 he (rMov_iff.2 ⟨k, d, a, w, rfl, rfl⟩))
  | movI k d imm => exact .inr (reads_row0 he (rMovI_iff.2 ⟨k, d, imm, rfl, rfl⟩))
  | sel k d a b c m => exact .inr (reads_row0 he (rSel_iff.2 ⟨k, d, a, b, c, m.w, m.xs, rfl, rfl⟩))
  | cmpR k d a b w cc => exact .inr (reads_row0 he (rCmp_iff.2 ⟨k, d, a, b, w, cc, rfl, rfl⟩))
  | cmpI k d a cc imm => exact .inr (reads_row0 he (rCmpI_iff.2 ⟨k, d, a, cc, imm, rfl, rfl⟩))
  | scadd k d a b m sh => exact .inr (reads_row0 he (rScadd_iff.2 ⟨k, d, a, b, m.w, m.xs, sh, rfl, rfl⟩))
  | movw k d hw chunk => exact .inr (reads_row0 he (rMovw_iff.2 ⟨k, d, hw, chunk, rfl, rfl⟩))
  | fadd k d a b m t | fsub k d a b m t | fmul k d a b m t | fdiv k d a b m t =>
    exact .inr (reads_row1 he (rFp3_iff.2 ⟨k, d, a, b, m, t, rfl, rfl⟩))
  | fma k d a b c m t | fms k d a b c m t | fnma k d a b c m t | fnms k d a b c m t =>
    exact .inr (reads_row1 he (rFp4_iff.2 ⟨k, d, a, b, c, m, t, rfl, rfl⟩))
  | fsqrt k d a m t | frcp k d a m t | fround k d a m t => exact .inr (reads_row1 he (rFp2_iff.2 ⟨k, d, a, m, t, rfl, rfl⟩))
  | frsq k d a t | fexp2 k d a t | flog2 k d a t | ftanh k d a t | fabs k d a t | fneg k d a t | fclass k d a t =>
    exact .inr (reads_row1 he (rFt2_iff.2 ⟨k, d, a, t, rfl, rfl⟩))
  | fmin k d a b t | fmax k d a b t | fcpys k d a b t => exact .inr (reads_row1 he (rFt3_iff.2 ⟨k, d, a, b, t, rfl, rfl⟩))
  | fcmp k d a b t cc => exact .inr (reads_row1 he (rFcmp_iff.2 ⟨k, d, a, b, t, cc, rfl, rfl⟩))
  | fcvt k d a m t g => exact .inr (reads_row1 he (rFcvt_iff.2 ⟨k, d, a, m, t, g, rfl, rfl⟩))
  | ftoi k d a m t w u | itof k d a m t w u => exact .inr (reads_row1 he (rFint_iff.2 ⟨k, d, a, m, t, w, u, rfl, rfl⟩))
  | vbcast k d a b w => exact .inr (reads_row1 he (rVbcast_iff.2 ⟨k, d, a, b, w, rfl, rfl⟩))
  | vshuf k d a sh w => exact .inr (reads_row1 he (rVshuf_iff.2 ⟨k, d, a, sh, w, rfl, rfl⟩))
  | vperm k d a b c w => exact .inr (reads_row1 he (rVperm_iff.2 ⟨k, d, a, b, c, w, rfl, rfl⟩))
  | vslide k d a b c up w => exact .inr (reads_row1 he (rVslide_iff.2 ⟨k, d, a, b, c, up, w, rfl, rfl⟩))
  | vextr k d a b xs w => exact .inr (reads_row1 he (rVextr_iff.2 ⟨k, d, a, b, xs, w, rfl, rfl⟩))
  | vins k d a b w => exact .inr (reads_row1 he (rVins_iff.2 ⟨k, d, a, b, w, rfl, rfl⟩))
  | vred k d a op rnd m => exact .inr (reads_row1 he (rVred_iff.2 ⟨k, d, a, op, rnd, m.w, m.xs, rfl, rfl⟩))
  | vscan k d a op m ex w => exact .inr (reads_row1 he (rVscan_iff.2 ⟨k, d, a, op, m, ex, w, rfl, rfl⟩))
  | vcompress k d a w => exact .inr (reads_row1 he (rVcompress_iff.2 ⟨k, d, a, w, rfl, rfl⟩))
  | ld k d a imm sz sx q => exact .inr (reads_row2 he (rLd_iff.2 ⟨k, d, a, imm, sz, sx, q, rfl, rfl⟩))
  | ldx k d a b sh sz sx q => exact .inr (reads_row2 he (rLdx_iff.2 ⟨k, d, a, b, sh, sz, sx, q, rfl, rfl⟩))
  | st k d a imm sz q => exact .inr (reads_row2 he (rSt_iff.2 ⟨k, d, a, imm, sz, q, rfl, rfl⟩))
  | ldv k d a imm sz sx => exact .inr (reads_row2 he (rLdv_iff.2 ⟨k, d, a, imm, sz, sx, rfl, rfl⟩))
  | stv k d a imm sz => exact .inr (reads_row2 he (rStv_iff.2 ⟨k, d, a, imm, sz, rfl, rfl⟩))
  | ldg k d a b sh sz sx => exact .inr (reads_row2 he (rLdg_iff.2 ⟨k, d, a, b, sh, sz, sx, rfl, rfl⟩))
  | stsc k a b c sh sz => exact .inr (reads_row2 he (rStsc_iff.2 ⟨k, a, b, c, sh, sz, rfl, rfl⟩))
  | pref k a imm l2 => exact .inr (reads_row2 he (rPref_iff.2 ⟨k, a, imm, l2, rfl, rfl⟩))
  | aop k d a b op ord sc w sx => exact .inr (reads_row2 he (rAop_iff.2 ⟨k, d, a, b, op, ord, sc, w, sx, rfl, rfl⟩))
  | acas k d a b c ord sc w sx => exact .inr (reads_row2 he (rAcas_iff.2 ⟨k, d, a, b, c, ord, sc, w, sx, rfl, rfl⟩))
  | afadd k d a b ord sc w => exact .inr (reads_row2 he (rAfadd_iff.2 ⟨k, d, a, b, ord, sc, w, rfl, rfl⟩))
  | cadd k a b sc => exact .inr (reads_row2 he (rCadd_iff.2 ⟨k, a, b, sc, rfl, rfl⟩))
  | cwait k d a b sc => exact .inr (reads_row2 he (rCwait_iff.2 ⟨k, d, a, b, sc, rfl, rfl⟩))
  | ctest k d a b acq sc => exact .inr (reads_row2 he (rCtest_iff.2 ⟨k, d, a, b, acq, sc, rfl, rfl⟩))
  | fence k kind sc => exact .inr (reads_row2 he (rFence_iff.2 ⟨k, kind, sc, rfl, rfl⟩))
  | split k | yieldOp k | endOp k => exact .inr (reads_row2 he (r0_iff.2 ⟨k, rfl, rfl⟩))
  | join k d | gleave k d | gdrop k d => exact .inr (reads_row2 he (rD_iff.2 ⟨k, d, rfl, rfl⟩))
  | garrive k a => exact .inr (reads_row2 he (rA_iff.2 ⟨k, a, rfl, rfl⟩))
  | trel k d a => exact .inr (reads_row2 he (rDA_iff.2 ⟨k, d, a, rfl, rfl⟩))
  | gcreate k d a b | gopen k d a b | gvote k d a b | tlend k d a b =>
    exact .inr (reads_row2 he (rDAB_iff.2 ⟨k, d, a, b, rfl, rfl⟩))
  | spawn k d a b c => exact .inr (reads_row2 he (rSpawn_iff.2 ⟨k, d, a, b, c, rfl, rfl⟩))
  | send k d a b c len8 => exact .inr (reads_row2 he (rSend_iff.2 ⟨k, d, a, b, c, len8, rfl, rfl⟩))
  | gbar k d a wait => exact .inr (reads_row2 he (rGbar_iff.2 ⟨k, d, a, wait, rfl, rfl⟩))
  | gred k d a b rop => exact .inr (reads_row2 he (rGred_iff.2 ⟨k, d, a, b, rop, rfl, rfl⟩))
  | ginfo k d a item => exact .inr (reads_row2 he (rGinfo_iff.2 ⟨k, d, a, item, rfl, rfl⟩))
  | treq k d a all => exact .inr (reads_row2 he (rTreq_iff.2 ⟨k, d, a, all, rfl, rfl⟩))
  | tstat k d item => exact .inr (reads_row2 he (rTstat_iff.2 ⟨k, d, item, rfl, rfl⟩))
  | tdef k t b | tget k t b => exact .inr (reads_row2 he (rTab_iff.2 ⟨k, t, b, rfl, rfl⟩))
  | tdrop k t => exact .inr (reads_row2 he (rTdrop_iff.2 ⟨k, t, rfl, rfl⟩))
  | copy k a sc => exact .inr (reads_row2 he (rCopy_iff.2 ⟨k, a, sc, rfl, rfl⟩))
  | copys k a b c sc => exact .inr (reads_row2 he (rCopys_iff.2 ⟨k, a, b, c, sc, rfl, rfl⟩))
  | mm k a tx ty u | mmdist k a tx ty u => exact .inr (reads_row3 he (eA_iff.2 ⟨k, a, tx, ty, u, rfl, rfl⟩))
  | mmtopk k a b tx ty u | spmm k a b tx ty u => exact .inr (reads_row3 he (eAB_iff.2 ⟨k, a, b, tx, ty, u, rfl, rfl⟩))
  | attmerge k a b tx ty | vezip k a b tx ty => exact .inr (reads_row3 he (eAB0_iff.2 ⟨k, a, b, tx, ty, rfl, rfl⟩))
  | spcomp k d tx ty | kvapp k d tx ty => exact .inr (reads_row3 he (eD0_iff.2 ⟨k, d, tx, ty, rfl, rfl⟩))
  | attn k d a b tx ty u => exact .inr (reads_row3 he (eAttn_iff.2 ⟨k, d, a, b, tx, ty, u, rfl, rfl⟩))
  | kvlook k d a b tx u => exact .inr (reads_row3 he (eKvlook_iff.2 ⟨k, d, a, b, tx, u, rfl, rfl⟩))
  | ttset k a tx => exact .inr (reads_row3 he (eTtset_iff.2 ⟨k, a, tx, rfl, rfl⟩))
  | ttmask k d a => exact .inr (reads_row3 he (eTtmask_iff.2 ⟨k, d, a, rfl, rfl⟩))
  | ttpos k d a u => exact .inr (reads_row3 he (eTtpos_iff.2 ⟨k, d, a, u, rfl, rfl⟩))
  | ttprune k d a tx u => exact .inr (reads_row3 he (eTtprune_iff.2 ⟨k, d, a, tx, u, rfl, rfl⟩))
  | vemap k a b tx | vesoft k a b tx => exact .inr (reads_row3 he (eVe1_iff.2 ⟨k, a, b, tx, rfl, rfl⟩))
  | vered k a b tx u => exact .inr (reads_row3 he (eVered_iff.2 ⟨k, a, b, tx, u, rfl, rfl⟩))
  | venorm k a b tx gain mean => exact .inr (reads_row3 he (eVenorm_iff.2 ⟨k, a, b, tx, gain, mean, rfl, rfl⟩))
  | vecvt k a tx m => exact .inr (reads_row3 he (eVecvt_iff.2 ⟨k, a, tx, m, rfl, rfl⟩))
  | bquant k d a t q => exact .inr (reads_row3 he (rBquant_iff.2 ⟨k, d, a, t, q, rfl, rfl⟩))
  | bdeq k d a m t q => exact .inr (reads_row3 he (rBdeq_iff.2 ⟨k, d, a, m, t, q, rfl, rfl⟩))
  | baddq k d a tx ty u => exact .inr (reads_row3 he (eBaddq_iff.2 ⟨k, d, a, tx, ty, u, rfl, rfl⟩))
  | ttclr k | halt k | nop k => exact .inr (reads_row3 he (r0_iff.2 ⟨k, rfl, rfl⟩))
  | gwnext k d => exact .inr (reads_row3 he (rD_iff.2 ⟨k, d, rfl, rfl⟩))
  | scrub k a => exact .inr (reads_row3 he (rA_iff.2 ⟨k, a, rfl, rfl⟩))
  | rft k a b => exact .inr (reads_row3 he (rAB_iff.2 ⟨k, a, b, rfl, rfl⟩))
  | tgen k d a b => exact .inr (reads_row3 he (rDAB_iff.2 ⟨k, d, a, b, rfl, rfl⟩))
  | trap k n | brk k n => exact .inr (reads_row3 he (rTrap_iff.2 ⟨k, n, rfl, rfl⟩))
  | route k d a cls => exact .inr (reads_row3 he (rRoute_iff.2 ⟨k, d, a, cls, rfl, rfl⟩))
  | plog k d a b c tt =>
    simp only [Instr.fieldsOk, Bool.and_eq_true, bne_iff_ne] at hf
    obtain ⟨-, ⟨ha, hb⟩, hc⟩ := hf
    exact .inr (reads_row1 he (rPlog_iff.2 ⟨k, d, a, b, c, tt, ha, hb, hc, rfl, rfl⟩))
  | pany k d a b | pall k d a b | pcount k d a b =>
    simp only [Instr.fieldsOk, Bool.and_eq_true, bne_iff_ne] at hf
    exact .inr (reads_row1 he (rPred_iff.2 ⟨k, d, a, b, hf.2, rfl, rfl⟩))
  | viota k d a w =>
    simp only [Instr.fieldsOk, Bool.and_eq_true, bne_iff_ne] at hf
    exact .inr (reads_row1 he (rViota_iff.2 ⟨k, d, a, w, hf.2, rfl, rfl⟩))
  | mfs k d n =>
    simp only [Instr.fieldsOk, Bool.and_eq_true, bne_iff_ne] at hf
    exact .inr (reads_row3 he (rMfs_iff.2 ⟨k, d, n, by simp [hf.2], rfl⟩))
  | readDroopcntCecnt k d u =>
    cases u with
    | false => exact .inr (reads_row3 he (rMfs_iff.2 ⟨k, d, 0x105, rfl, rfl⟩))
    | true => exact .inr (reads_row3 he (rMfs_iff.2 ⟨k, d, 0x106, rfl, rfl⟩))
  | mts k n a =>
    simp only [Instr.fieldsOk, Bool.and_eq_true, bne_iff_ne] at hf
    exact .inr (reads_row3 he (rMts_iff.2 ⟨k, a, n, by simp [hf.2], rfl⟩))
  | writeStatus k a => exact .inr (reads_row3 he (rMts_iff.2 ⟨k, a, 0x000, rfl, rfl⟩))
  | writeFpst k a => exact .inr (reads_row3 he (rMts_iff.2 ⟨k, a, 0x004, rfl, rfl⟩))
  | writeRsp k a => exact .inr (reads_row3 he (rMts_iff.2 ⟨k, a, 0x007, rfl, rfl⟩))
  | writeClass k a => exact .inr (reads_row3 he (rMts_iff.2 ⟨k, a, 0x009, rfl, rfl⟩))
  | writeDroopth k a => exact .inr (reads_row3 he (rMts_iff.2 ⟨k, a, 0x104, rfl, rfl⟩))
  | writeCpwt k a => exact .inr (reads_row3 he (rMts_iff.2 ⟨k, a, 0x107, rfl, rfl⟩))
  | cinvCode k => exact .inr (reads_row3 he (rCinv_iff.2 (.inl ⟨k, rfl, rfl⟩)))
  | cinvLine k a => exact .inr (reads_row3 he (rCinv_iff.2 (.inr (.inl ⟨k, a, rfl, rfl⟩))))
  | cinvRdc k a => exact .inr (reads_row3 he (rCinv_iff.2 (.inr (.inr ⟨k, a, rfl, rfl⟩))))
  | _ => cases he

/-- The instruction is carried by the word that the fields make up. -/
def Encodes (r : Raw) (i : Instr) : Prop := encode i = some r.pack ∧ ∃ k, i.ctl = some k

theorem encodes_row {r : Raw} {op : BitVec 8} {k : Ctl} {d a b : BitVec 7} {x : BitVec 23} {i : Instr} (ho : r.op = op)
    (hr : rowFields r.op k d a b x = r) (he : encode i = some (word op k d a b x)) (hc : i.ctl = some k) : Encodes r i := by
  subst ho
  exact ⟨he.trans (congrArg (some ∘ Raw.pack) hr), k, hc⟩

theorem parse0_encodes {r : Raw} {n : Nat} {i : Instr} (ho : r.op = BitVec.ofNat 8 n) (h : parse0 r n = some (i, true)) :
    Encodes r i := by
  unfold parse0 at h
  split at h <;> simp only [rInt3_iff, rInt2_iff, rImm_iff, rSat_iff, rExt_iff, rBfx_iff, rBfi_iff, rMov_iff, rMovI_iff,
    rSel_iff, rCmp_iff, rCmpI_iff, rScadd_iff, rMovw_iff, reduceCtorEq] at h
  all_goals
    revert h
    simp only [forall_exists_index, and_imp]
    intros
    subst_vars
    exact encodes_row ho ‹_› rfl rfl

theorem parse1_encodes {r : Raw} {n : Nat} {i : Instr} (ho : r.op = BitVec.ofNat 8 (n + 64))
    (h : parse1 r n = some (i, true)) : Encodes r i := by
  unfold parse1 at h
  split at h <;> simp only [rPlog_iff, rPred_iff, rFp3_iff, rFp4_iff, rFp2_iff, rFt2_iff, rFt3_iff, rFcmp_iff, rFcvt_iff,
    rFint_iff, rVbcast_iff, rVshuf_iff, rVperm_iff, rVslide_iff, rVextr_iff, rVins_iff, rVred_iff, rVscan_iff, rVcompress_iff,
    rViota_iff, reduceCtorEq] at h
  all_goals
    revert h
    simp only [forall_exists_index, and_imp]
    intros
    subst_vars
    exact encodes_row ho ‹_› rfl rfl

theorem parse2_encodes {r : Raw} {n : Nat} {i : Instr} (ho : r.op = BitVec.ofNat 8 (n + 128))
    (h : parse2 r n = some (i, true)) : Encodes r i := by
  unfold parse2 at h
  split at h <;> simp only [r0_iff, rA_iff, rAcas_iff, rAfadd_iff, rAop_iff, rCadd_iff, rCopy_iff, rCopys_iff, rCtest_iff,
    rCwait_iff, rD_iff, rDA_iff, rDAB_iff, rFence_iff, rGbar_iff, rGinfo_iff, rGred_iff, rLd_iff, rLdg_iff, rLdv_iff, rLdx_iff,
    rPref_iff, rSend_iff, rSpawn_iff, rSt_iff, rStsc_iff, rStv_iff, rTab_iff, rTdrop_iff, rTreq_iff, rTstat_iff,
    reduceCtorEq] at h
  all_goals
    revert h
    simp only [forall_exists_index, and_imp]
    intros
    subst_vars
    exact encodes_row ho ‹_› rfl rfl

theorem rMfs_encodes {r : Raw} {i : Instr} (ho : r.op = 0xF0) (h : rMfs r = some (i, true)) : Encodes r i := by
  obtain ⟨k, d, n, rfl, hr⟩ := rMfs_iff.1 h
  split
  · next hn => subst hn; exact encodes_row ho hr rfl rfl
  split
  · next hn => subst hn; exact encodes_row ho hr rfl rfl
  · exact encodes_row ho hr rfl rfl

theorem rMts_encodes {r : Raw} {i : Instr} (ho : r.op = 0xF1) (h : rMts r = some (i, true)) : Encodes r i := by
  obtain ⟨k, a, n, rfl, hr⟩ := rMts_iff.1 h
  split_ifs with h0 h4 h7 h9 h104 h107
  · subst h0; exact encodes_row ho hr rfl rfl
  · subst h4; exact encodes_row ho hr rfl rfl
  · subst h7; exact encodes_row ho hr rfl rfl
  · subst h9; exact encodes_row ho hr rfl rfl
  · subst h104; exact encodes_row ho hr rfl rfl
  · subst h107; exact encodes_row ho hr rfl rfl
  · exact encodes_row ho hr rfl rfl

theorem rCinv_encodes {r : Raw} {i : Instr} (ho : r.op = 0xF9) (h : rCinv r = some (i, true)) : Encodes r i := by
  rcases rCinv_iff.1 h with ⟨k, rfl, hr⟩ | ⟨k, a, rfl, hr⟩ | ⟨k, a, rfl, hr⟩
  · exact encodes_row ho hr rfl rfl
  · exact encodes_row ho hr rfl rfl
  · exact encodes_row ho hr rfl rfl

theorem parse3_encodes {r : Raw} {n : Nat} {i : Instr} (ho : r.op = BitVec.ofNat 8 (n + 192))
    (h : parse3 r n = some (i, true)) : Encodes r i := by
  by_cases hmfs : n = 0x30
  · subst hmfs; exact rMfs_encodes ho h
  by_cases hmts : n = 0x31
  · subst hmts; exact rMts_encodes ho h
  by_cases hcinv : n = 0x39
  · subst hcinv; exact rCinv_encodes ho h
  unfold parse3 at h
  split at h <;> simp only [eA_iff, eAB_iff, eAB0_iff, eAttn_iff, eBaddq_iff, eD0_iff, eKvlook_iff, eTtmask_iff, eTtpos_iff,
    eTtprune_iff, eTtset_iff, eVe1_iff, eVecvt_iff, eVenorm_iff, eVered_iff, r0_iff, rA_iff, rAB_iff, rBdeq_iff, rBquant_iff,
    rD_iff, rDAB_iff, rRoute_iff, rTrap_iff, not_true, reduceCtorEq] at h hmfs hmts hcinv
  all_goals
    revert h
    simp only [forall_exists_index, and_imp]
    intros
    subst_vars
    exact encodes_row ho ‹_› rfl rfl

theorem op_eq_ofNat_low {r : Raw} {t : Nat} (h : (r.op.extractLsb' 6 2).toNat = t) :
    r.op = BitVec.ofNat 8 ((r.op.extractLsb' 0 6).toNat + 64 * t) := by
  apply BitVec.eq_of_toNat_eq
  have := r.op.isLt
  simp [Nat.shiftRight_eq_div_pow] at h ⊢
  omega

theorem parse_encodes {r : Raw} {i : Instr} (h : parse r = some (i, true)) : Encodes r i := by
  unfold parse at h
  split at h
  · next ht => exact parse0_encodes (op_eq_ofNat_low ht) h
  · next ht => exact parse1_encodes (op_eq_ofNat_low ht) h
  · next ht => exact parse2_encodes (op_eq_ofNat_low ht) h
  · next h0 h1 h2 =>
    have ht : (r.op.extractLsb' 6 2).toNat = 3 := by
      have hlt : (r.op.extractLsb' 6 2).toNat < 4 := (r.op.extractLsb' 6 2).isLt
      simp only [imp_false] at h0 h1 h2
      omega
    exact parse3_encodes (op_eq_ofNat_low ht) h

/-! ### Decoding -/

theorem op_split (w : Word) : (Raw.split w).op.toNat = w.toNat / 2 ^ 56 := by
  have := w.isLt
  simp [Raw.split, Nat.shiftRight_eq_div_pow]
  omega

theorem wellFormed_iff {lc : LCls} {i : Instr} : WellFormed lc i = true ↔
    (∀ w, i = .unassignedOpcode w → opAssigned (w.toNat / 2 ^ 56) = false) ∧ i.seqOk lc = true ∧ i.fieldsOk lc = true ∧
      i.operandsOk lc = true := by
  cases i <;> simp [WellFormed, and_assoc]

theorem wellFormed_unassigned {lc : LCls} {w : Word} (h : opAssigned (w.toNat / 2 ^ 56) = false) :
    WellFormed lc (.unassignedOpcode w) = true :=
  wellFormed_iff.2 ⟨fun v hv => by rwa [← Instr.unassignedOpcode.inj hv], rfl, rfl, rfl⟩

theorem decode_unassigned {lc : LCls} {w : Word} (h : opAssigned (w.toNat / 2 ^ 56) = false) :
    decode lc w = .ok (.unassignedOpcode w) := by
  simp only [decode, op_split, h, Bool.false_eq_true, if_false]

theorem decode_ok_iff {lc : LCls} {w : Word} {i : Instr} (ha : opAssigned (w.toNat / 2 ^ 56) = true) :
    decode lc w = .ok i ↔
      parse (Raw.split w) = some (i, true) ∧ i.seqOk lc = true ∧ i.fieldsOk lc = true ∧ i.operandsOk lc = true := by
  simp only [decode, op_split, ha]
  rcases parse (Raw.split w) with _ | ⟨j, codes⟩
  · simp
  · grind

theorem decode_of_encode {lc : LCls} {i : Instr} {w : Word} (hw : WellFormed lc i = true) (he : encode i = some w) :
    decode lc w = .ok i := by
  obtain ⟨hu, hs, hf, ho⟩ := wellFormed_iff.1 hw
  rcases encode_reads hf he with rfl | ⟨ha, hp⟩
  · exact decode_unassigned (hu w rfl)
  · exact (decode_ok_iff (op_split w ▸ ha)).2 ⟨hp, hs, hf, ho⟩

theorem encode_of_decode {lc : LCls} {i : Instr} {w : Word} (h : decode lc w = .ok i) :
    WellFormed lc i = true ∧ encode i = some w := by
  cases ha : opAssigned (w.toNat / 2 ^ 56) with
  | false =>
    obtain rfl := Except.ok.inj ((decode_unassigned ha).symm.trans h)
    exact ⟨wellFormed_unassigned ha, rfl⟩
  | true =>
    obtain ⟨hp, hs, hf, ho⟩ := (decode_ok_iff ha).1 h
    obtain ⟨he, k, hk⟩ := parse_encodes hp
    exact ⟨wellFormed_iff.2 ⟨fun v hv => absurd (hv ▸ hk) nofun, hs, hf, ho⟩, he.trans (congrArg some (pack_split w))⟩

end Sys2Proof

namespace Sys2Proof.Machine

/-- Settles O57: `encode_reads` and `parse_encodes` go through the tables row by row, by what each reader reads. -/
theorem decodingAndEncodingAgree : Obligations.decoding_and_encoding_agree :=
  fun _ => ⟨fun _ _ => decode_of_encode, fun _ _ => encode_of_decode⟩

end Sys2Proof.Machine
end

section
/-! PROOFS. How a word runs, whichever it is; the faults of decoding, and what a fault records (R78, R171, R172, R184, R185). -/

namespace Sys2Proof.Machine

/-! ### How a word runs, whichever it is -/

/-- The words that place their strand themselves, or take it away. -/
def jumps : Instr → Bool
  | .trap .. | .brk .. | .rft .. | .yieldOp .. | .endOp .. => true
  | _ => false

theorem exec_runWord {i : Instr} {k : Ctl} (h : i.ctl = some k) (hj : jumps i = false) : ∃ op, exec i = runWord i k op := by
  cases i with
  | trap | brk | rft | yieldOp | endOp => cases hj
  | _ =>
    cases h
    all_goals exact ⟨_, rfl⟩

theorem exec_runJump {i : Instr} {k : Ctl} (h : i.ctl = some k) (hj : jumps i = true) : ∃ op, exec i = runJump i k op := by
  cases i with
  | trap | brk | rft | yieldOp | endOp => cases h; exact ⟨_, rfl⟩
  | _ => cases hj

section
variable {s : State} {i : Instr} {c : Ctl} {e : Env} {op : Op} (h : s.envAt s.cur i c = some e) (hw : e.waits s i = false)
include h hw

theorem runJump_decodeFault {f : FaultCode} (hf : e.decodeFault i = some f) (hb : e.busy = false) :
    runJump i c op s = .next (s.raise e.k f (e.decodeTval f) false false) := by
  simp [runJump, h, Env.runJump, hw, hf, hb]

theorem exec_decodeFault {f : FaultCode} (hi : i.ctl = some c) (hf : e.decodeFault i = some f) (hb : e.busy = false) :
    exec i s = .next (s.raise e.k f (e.decodeTval f) false false) := by
  cases hj : jumps i with
  | false =>
    obtain ⟨op, ho⟩ := exec_runWord hi hj
    rw [ho, runWord_decodeFault h hw hf hb]
  | true =>
    obtain ⟨op, ho⟩ := exec_runJump hi hj
    rw [ho, runJump_decodeFault h hw hf hb]

end

theorem decodeFault_supervisor {e : Env} {i : Instr} (hs : supervisorOnly i = true) (hu : e.user = true)
    (hc : (e.cond || e.lane) = true) : e.decodeFault i = some .priv := by
  have hk : kindOf i ≠ .none := by
    cases i with
    | rft | halt | tgen | scrub | route => nofun
    | _ => cases hs
  simp [Env.decodeFault, hk, hs, hu, hc]

/-! ### What a fault records -/

/-- A fault that reaches the scheduler changes its task's record and the agenda alone. -/
theorem noteFault_rest (s : State) (n : Nat) (r : Vector Word 7) :
    { s.noteFault n r with tasks := s.tasks, agenda := s.agenda } = s := by
  unfold State.noteFault
  split
  · rfl
  · split
    · unfold State.postOnce
      split <;> rfl
    · rfl

@[simp] theorem noteFault_strands (s : State) (n : Nat) (r : Vector Word 7) : (s.noteFault n r).strands = s.strands := by
  have h := congrArg State.strands (noteFault_rest s n r)
  exact h

@[simp] theorem noteFault_slots (s : State) (n : Nat) (r : Vector Word 7) : (s.noteFault n r).slots = s.slots := by
  have h := congrArg State.slots (noteFault_rest s n r)
  exact h

@[simp] theorem noteFault_parts (s : State) (n : Nat) (r : Vector Word 7) : (s.noteFault n r).parts = s.parts := by
  have h := congrArg State.parts (noteFault_rest s n r)
  exact h

@[simp] theorem noteFault_cores (s : State) (n : Nat) (r : Vector Word 7) : (s.noteFault n r).cores = s.cores := by
  have h := congrArg State.cores (noteFault_rest s n r)
  exact h

@[simp] theorem noteFault_tiles (s : State) (n : Nat) (r : Vector Word 7) : (s.noteFault n r).tiles = s.tiles := by
  have h := congrArg State.tiles (noteFault_rest s n r)
  exact h

@[simp] theorem noteFault_fields (s : State) (n : Nat) (r : Vector Word 7) : (s.noteFault n r).fields = s.fields := by
  have h := congrArg State.fields (noteFault_rest s n r)
  exact h

section
variable {s : State} {n : Nat} {r : Vector Word 7} {ta : Task} (h : tget s.tasks n = some ta)
include h

theorem noteFault_first (hf : ta.fault = none) :
    .event (.gridStop n) ∈ (s.noteFault n r).agenda ∧ (tget (s.noteFault n r).tasks n).bind (·.fault) = some r := by
  have he : s.noteFault n r = (s.setTask n { ta with fault := some r }).postOnce (.gridStop n) := by simp [State.noteFault, h, hf]
  rw [he]
  exact ⟨State.mem_postOnce _ _, by simp [State.setTask]⟩

theorem noteFault_later {w : Vector Word 7} (hf : ta.fault = some w) :
    (tget (s.noteFault n r).tasks n).bind (·.fault) = some w := by
  simp [State.noteFault, h, hf, State.setTask]

end

/-- The strand and the slot of a fault as `raise` leaves them. -/
def State.faulted (s : State) (k : Nat) (sl : Slot) (t : Strand) (cause v : Word) : State :=
  (s.setStrand sl.uid { t with cause := cause, tval := v, tpc := t.pc }).setSlot k
    { sl with hold := some .fault, flight := [], windows := [], preempt := false, lost := none, badReg := false }

theorem raise_eq {s : State} {k : Nat} {c : FaultCode} {v : Word} {entry : Bool} {sl : Slot} {t : Strand} {ta : Task}
    (hsl : tget s.slots k = some sl) (ht : tget s.strands sl.uid = some t) (hta : tget s.tasks t.task = some ta) :
    ∃ part, s.raise k c v entry false =
      ((s.faulted k sl t (causeOf c entry) v).noteFault t.task
        #v[causeOf c entry, v, t.pc, t.hdr, taskIdOf ta t.index, pcoordOf k, BitVec.ofNat 64 s.time]).assayAfter
          part (coreOfSlot k) c v := by
  refine ⟨(tget s.parts t.part).bind fun p => s.assayPart p k ta.ctx c v, ?_⟩
  simp only [State.raise, hsl, ht, hta, Bool.false_and, Bool.false_eq_true, if_false]
  rfl

theorem assayAfter_other {s : State} {part : Option AssayPart} {core : Nat} {c : FaultCode} {va : Word} (hu : c ≠ .uncorr)
    (hs : c ≠ .savelost) : s.assayAfter part core c va = s := by
  simp [State.assayAfter, hu, hs]

/-- With no lost dirty word on the core no line is written back. -/
theorem poisonBack_clean {s : State} {core : Nat} {va : Word} (h : ∀ l ∈ (s.core core).l1, l.bad &&& l.dirty = 0) :
    s.poisonBack core va = s := by
  have hn : ((s.core core).l1.filter fun l => l.va = lineVa va && l.bad &&& l.dirty != 0) = [] :=
    List.filter_eq_nil_iff.2 fun l hl => by simp [h l hl]
  rw [State.poisonBack, hn, List.foldl_nil]

theorem assayAfter_error {s : State} {part : Option AssayPart} {core : Nat} {c : FaultCode} {va : Word}
    (h : c = .savelost ∨ c = .uncorr ∧ ∀ l ∈ (s.core core).l1, l.bad &&& l.dirty = 0) :
    s.assayAfter part core c va = s ∨ ∃ a, s.assayAfter part core c va = s.postOnce (.assay a) := by
  rcases h with rfl | ⟨rfl, h⟩
  · cases part with
    | none => exact .inl (by simp [State.assayAfter])
    | some a => exact .inr ⟨a, by simp [State.assayAfter]⟩
  · cases part with
    | none => exact .inl (by simp [State.assayAfter, poisonBack_clean h])
    | some a =>
      refine .inr ⟨a, ?_⟩
      simp only [State.assayAfter, decide_true, Bool.true_or, if_true]
      exact poisonBack_clean (by simpa [State.core] using h)

/-- Settles O41: a decode fault by `exec_decodeFault`; what raising a fault leaves by `raise_eq`, field by field. -/
theorem aFaultStopsTheStrandAndRecordsIt : Obligations.a_fault_stops_the_strand_and_records_it := by
  unfold Obligations.a_fault_stops_the_strand_and_records_it
  refine ⟨fun s i c e code hi he hw hb => ⟨fun hf => ?_, decodeFault_supervisor⟩, fun s k c v entry sl t ta hsl ht hta => ?_⟩
  · obtain ⟨-, -, -, hew, -⟩ := envAt_spec he
    exact exec_decodeFault he hw hi hf hb
  · obtain ⟨part, hr⟩ := raise_eq (c := c) (v := v) (entry := entry) hsl ht hta
    generalize hq : #v[causeOf c entry, v, t.pc, t.hdr, taskIdOf ta t.index, pcoordOf k, BitVec.ofNat 64 s.time] = q at hr
    have htask : tget (s.faulted k sl t (causeOf c entry) v).tasks t.task = some ta := hta
    refine ⟨_, part, hr, fun hu hs => hr.trans (assayAfter_other hu hs), fun hc => hr ▸ assayAfter_error ?_,
      ?_, ?_, noteFault_mem _ _ _, fun u hu => ?_, fun j hj => ?_, noteFault_parts _ _ _, noteFault_cores _ _ _,
      noteFault_tiles _ _ _, noteFault_fields _ _ _, fun hf => hq ▸ noteFault_first htask hf, fun w => noteFault_later htask⟩
    · rwa [State.core, noteFault_cores]
    · rw [noteFault_strands, State.faulted, State.setSlot_strands, State.setStrand, tget_tput_same]
      rfl
    · rw [noteFault_slots, State.faulted, State.setSlot, tget_tput_same]
    · rw [noteFault_strands, State.faulted, State.setSlot_strands, State.setStrand, tget_tput_other _ _ _ _ hu]
    · rw [noteFault_slots, State.faulted, State.setSlot, tget_tput_other _ _ _ _ hj, State.setStrand_slots]

end Sys2Proof.Machine
end

section
/-! PROOFS. Sequencing: the guard, each SEQ, the spill and the fill (R35, R36, R53, R67 to R69, R169). -/

namespace Sys2Proof.Machine

/-! ### A word whose guard lets nothing take place -/

theorem runJump_guarded {s : State} {i : Instr} {c : Ctl} {e : Env} {op : Op} {x : State × Strand} (h : s.envAt s.cur i c = some e)
    (hw : e.waits s i = false) (hf : e.decodeFault i = none) (hc : (e.cond || e.lane) = false)
    (hs : e.sequence s e.st = .ok x) : runJump i c op s = .next (e.finish x.1 i x.2) := by
  obtain ⟨-, -, -, -, -, -, -, -, ht, -, -⟩ := envAt_spec h
  have hcond : e.cond = false := (Bool.or_eq_false_iff.1 hc).1
  have hop : e.opRes s op = .ok s := by rw [Env.opRes, hc]; rfl
  simp [runJump, h, Env.runJump, hw, hf, hcond, Env.perform, hop, Env.conclude, ht, hs]

theorem exec_guarded {s : State} {i : Instr} {c : Ctl} {e : Env} {x : State × Strand} (hi : i.ctl = some c)
    (h : s.envAt s.cur i c = some e) (hw : e.waits s i = false) (hf : e.decodeFault i = none) (hc : (e.cond || e.lane) = false)
    (hs : e.sequence s e.st = .ok x) : exec i s = .next (e.finish x.1 i x.2) := by
  have hd : e.deferred i = false := by simp [Env.deferred, hc]
  cases hj : jumps i with
  | false =>
    obtain ⟨op, ho⟩ := exec_runWord hi hj
    rw [ho, runWord_guarded h hw hf hd hc hs]
  | true =>
    obtain ⟨op, ho⟩ := exec_runJump hi hj
    rw [ho, runJump_guarded h hw hf hc hs]

/-! ### Targets and alignment -/

theorem bits_low8 (x : Word) : bits x 2 0 = x.toNat % 8 := by simp [bits]

theorem bits_low128 (x : Word) : bits x 6 0 = x.toNat % 128 := by simp [bits]

theorem bits_eq_extract (x : Word) (lo n : Nat) : bits x (lo + n) lo = (x.extractLsb' lo (n + 1)).toNat := by
  simp [bits, Nat.shiftRight_eq_div_pow, show lo + n + 1 - lo = n + 1 by omega]

theorem sextN_toNat (x : BitVec 11) : sextN x.toNat 11 = x.toInt := by
  have hx := x.isLt
  simp only [sextN, BitVec.toInt]
  split <;> split <;> omega

/-- Eight times a signed displacement of words. -/
theorem ofInt_mul_eight {n : Nat} (x : BitVec n) : BitVec.ofInt 64 (8 * x.toInt) = x.signExtend 64 <<< 3 := by
  rw [BitVec.shiftLeft_eq_mul_twoPow, BitVec.ofInt_mul, mul_comm]
  rfl

theorem target0_eq (t : Strand) : t.target0 = t.hdr + ((t.header.extractLsb' 23 11).signExtend 64 <<< 3) := by
  rw [Strand.target0, bits_eq_extract t.header 23 10, sextN_toNat, ofInt_mul_eight]

theorem target1_eq (t : Strand) : t.target1 = t.hdr + ((t.header.extractLsb' 12 11).signExtend 64 <<< 3) := by
  rw [Strand.target1, bits_eq_extract t.header 12 10, sextN_toNat, ofInt_mul_eight]

/-! ### Transfers (R67, R169) -/

/-- The strand at the header at `a`. -/
def Strand.entering (t : Strand) (a : Word) : Strand := { t with hdr := a, widx := 0 }

/-- Strand `q` sent to the header at `a` by a word of strand `t`. -/
def goesTo (s : State) (t q : Strand) (a : Word) : Res (State × Strand) :=
  if t.sup = false ∧ bit a 63 = true then .error (.fault .access a) else .ok (s, q.entering a)

/-- Strand `q` sent on, past a word of strand `t` that makes no transfer. -/
def goesOn (s : State) (t q : Strand) : Res (State × Strand) :=
  if t.widx = lenOf t.header then goesTo s t q t.fallThrough else .ok (s, { q with widx := q.widx + 1 })

theorem goto_access {t : Strand} {a : Word} (hs : t.sup = false) (ha : bit a 63 = true) : t.goto a = .error (.fault .access a) := by
  simp [Strand.goto, hs, ha, failWith]

theorem goto_ok {t : Strand} {a : Word} (h : t.sup = true ∨ bit a 63 = false) : t.goto a = .ok (t.entering a) := by
  rcases h with h | h <;> simp [Strand.goto, Strand.entering, h]

theorem map_goto {s : State} {t q : Strand} {a : Word} (h : q.sup = t.sup) : (q.goto a).map (fun x => (s, x)) = goesTo s t q a := by
  by_cases hc : t.sup = false ∧ bit a 63 = true
  · rw [goto_access (h.trans hc.1) hc.2, goesTo, if_pos hc]
    rfl
  · rw [goto_ok (by rw [h]; simpa [or_iff_not_imp_left] using hc), goesTo, if_neg hc]
    rfl

theorem map_advance {s : State} {t q : Strand} (hh : q.hdr = t.hdr) (he : q.header = t.header) (hw : q.widx = t.widx) :
    q.advance.map (fun x => (s, x)) = goesOn s t q := by
  have hf : q.fallThrough = t.fallThrough := by simp [Strand.fallThrough, hh, he]
  by_cases hl : t.widx = lenOf t.header
  · simp only [Strand.advance, goesOn, hw, he, if_pos hl, hf]
    exact map_goto (by simp [Strand.sup, hh])
  · simp only [Strand.advance, goesOn, hw, he, if_neg hl]
    rfl

section
variable {s : State} {e : Env} {t : Strand}

theorem sequence_guarded (hc : e.cond = false) (hq : e.ctl.seq ≠ .either) : e.sequence s t = goesOn s t t := by
  rw [← map_advance (q := t) rfl rfl rfl]
  simp [Env.sequence, hc, hq]

theorem sequence_next (hq : e.ctl.seq = .next) : e.sequence s t = goesOn s t t := by
  rw [← map_advance (q := t) rfl rfl rfl]
  simp [Env.sequence, hq]

theorem sequence_either (hq : e.ctl.seq = .either) :
    e.sequence s t = goesTo s t t (if t.latchW.getLsbD 0 then t.target0 else t.target1) := by
  rw [← map_goto (q := t) rfl]
  simp [Env.sequence, hq]

variable (hc : e.cond = true)
include hc

theorem sequence_t0 (hq : e.ctl.seq = .t0) : e.sequence s t = goesTo s t t t.target0 := by
  rw [← map_goto (q := t) rfl]
  simp [Env.sequence, hc, hq]

theorem sequence_t1 (hq : e.ctl.seq = .t1) : e.sequence s t = goesTo s t t t.target1 := by
  rw [← map_goto (q := t) rfl]
  simp [Env.sequence, hc, hq]

theorem sequence_goBt (hq : e.ctl.seq = .goBt) : e.sequence s t =
    if (t.readS 7).toNat % 8 = 0 then goesTo s t t (t.readS 7) else .error (.fault .align (t.readS 7)) := by
  rw [← map_goto (q := t) rfl]
  by_cases ha : (t.readS 7).toNat % 8 = 0 <;> simp [Env.sequence, hc, hq, bits_low8, ha, failWith]

theorem sequence_loop (hq : e.ctl.seq = .loop) : e.sequence s t =
    if t.readS 6 = 1 then goesOn s t (t.writeS 6 (t.readS 6 - 1)) else goesTo s t (t.writeS 6 (t.readS 6 - 1)) t.target0 := by
  have hn : t.readS 6 - 1 = 0 ↔ t.readS 6 = 1 := sub_eq_zero
  by_cases h1 : t.readS 6 = 1
  · rw [if_pos h1, ← map_advance (t := t) (q := t.writeS 6 (t.readS 6 - 1)) rfl rfl rfl]
    simp [Env.sequence, hc, hq, h1]
  · rw [if_neg h1, ← map_goto (t := t) (q := t.writeS 6 (t.readS 6 - 1)) rfl]
    simp only [Env.sequence, hc, hq, if_neg (hn.not.2 h1)]
    rfl

theorem sequence_call {a : Word} (hq : e.ctl.seq = .callT0 ∧ a = t.target0 ∨ e.ctl.seq = .callBt ∧ a = t.readS 7)
    (ha : e.ctl.seq = .callBt → a.toNat % 8 = 0) : e.sequence s t = e.call s t a := by
  rcases hq with ⟨hq, rfl⟩ | ⟨hq, rfl⟩
  · simp [Env.sequence, hc, hq]
  · simp [Env.sequence, hc, hq, bits_low8, ha hq]

theorem sequence_call_misaligned (hq : e.ctl.seq = .callBt) (ha : (t.readS 7).toNat % 8 ≠ 0) :
    e.sequence s t = .error (.fault .align (t.readS 7)) := by
  simp [Env.sequence, hc, hq, bits_low8, ha, failWith]

theorem sequence_ret_misaligned (hq : e.ctl.seq = .ret) (ha : (t.readS 15).toNat % 8 ≠ 0) :
    e.sequence s t = .error (.fault .align (t.readS 15)) := by
  simp [Env.sequence, hc, hq, bits_low8, ha, failWith]

theorem sequence_ret_access (hq : e.ctl.seq = .ret) (ha : (t.readS 15).toNat % 8 = 0) (hs : t.sup = false)
    (hb : bit (t.readS 15) 63 = true) : e.sequence s t = .error (.fault .access (t.readS 15)) := by
  simp [Env.sequence, hc, hq, bits_low8, ha, goto_access hs hb]

theorem sequence_ret (hq : e.ctl.seq = .ret) (ha : (t.readS 15).toNat % 8 = 0) (hb : t.sup = true ∨ bit (t.readS 15) 63 = false) :
    e.sequence s t = e.windowRet s (t.entering (t.readS 15)) := by
  simp [Env.sequence, hc, hq, bits_low8, ha, goto_ok hb]

end

/-! ### The window actions (R35, R68) -/

section
variable {s : State} {e : Env} {t : Strand}

theorem stackWrite_stops {va : Word} {bs : List Byte} {x : Stop} (hp : e.placed s va .write = .error x) :
    e.stackWrite s va bs = .error x := by simp only [Env.stackWrite, hp]

theorem stackWrite_ok {va : Word} {bs : List Byte} {q : State × Nat} (hp : e.placed s va .write = .ok q) : e.stackWrite s va bs =
    let s2 := if isPad q.2 then q.1.drain e.k else (q.1.drain e.k).flushLine e.core va e.ctx
    .ok (s2.homeWrite (s2.writerOf e.k e.ctx) va q.2 bs) := by simp only [Env.stackWrite, hp]

theorem spill_misaligned (hr : t.rsp.toNat % 128 ≠ 0) : e.spill s t = .error (.fault .align t.rsp) := by
  simp [Env.spill, bind, Except.bind, checkRsp, faultIf, bits_low128, hr]

theorem spill_aligned (hr : t.rsp.toNat % 128 = 0) : e.spill s t =
    (e.stackWrite s (t.rsp - 128) (t.frameBytes s.fresh (t.cwp + 2))).map fun s1 => { s1 with fresh := s1.fresh + 1 } := by
  have hc : checkRsp t = .ok () := by simp [checkRsp, faultIf, bits_low128, hr]
  rw [Env.spill, hc]
  rfl

theorem windowCall_resident (hf : t.fres ≠ 6) :
    e.windowCall s t = .ok (s, { t with fres := t.fres + 1, cwp := (t.cwp + 1) % 8 }) := by rw [Env.windowCall, if_neg hf]

theorem windowCall_spills (hf : t.fres = 6) (hst : e.sl.stack = none) :
    e.windowCall s t = (e.spill s t).map fun s1 => (s1, { t with rsp := t.rsp - 128, cwp := (t.cwp + 1) % 8 }) := by
  rw [Env.windowCall, if_pos hf, hst]
  rfl

theorem call_access {a : Word} (hs : t.sup = false) (hb : bit a 63 = true) : e.call s t a = .error (.fault .access a) := by
  rw [Env.call, goto_access hs hb]
  rfl

theorem call_enters {a : Word} (hb : t.sup = true ∨ bit a 63 = false) :
    e.call s t a = (e.windowCall s (t.entering a)).map fun r =>
      (r.1, r.2.putPhys (physIdx r.2.cwp 15) t.fallThrough) := by
  rw [Env.call, goto_ok hb]
  rfl

theorem fill_misaligned (hr : t.rsp.toNat % 128 ≠ 0) : e.fill s t = .error (.fault .align t.rsp) := by
  simp [Env.fill, bind, Except.bind, checkRsp, faultIf, bits_low128, hr]

theorem fill_aligned (hr : t.rsp.toNat % 128 = 0) : e.fill s t = e.stackRead s t.rsp := by
  have hc : checkRsp t = .ok () := by simp [checkRsp, faultIf, bits_low128, hr]
  rw [Env.fill, hc]
  rfl

theorem windowRet_resident (hf : t.fres ≠ 0) :
    e.windowRet s t = .ok (s, { t with fres := t.fres - 1, cwp := (t.cwp + 7) % 8 }) := by rw [Env.windowRet, if_neg hf]

theorem windowRet_fills (hf : t.fres = 0) (hst : e.sl.stack = none) : e.windowRet s t = (e.fill s t).map fun r =>
    (r.1, { (t.putFrame (t.cwp + 7) r.2) with rsp := t.rsp + 128, cwp := (t.cwp + 7) % 8 }) := by
  rw [Env.windowRet, if_pos hf, hst]
  rfl

theorem stackRead_stops {va : Word} {x : Stop} (hp : e.placed s va .read = .error x) : e.stackRead s va = .error x := by
  simp only [Env.stackRead, hp]

/-- The state in which a read of the register stack at `va` looks at the home slice. -/
def Env.stackSource (e : Env) (va : Word) (q : State × Nat) : State :=
  if isPad q.2 then q.1.drain e.k else (q.1.drain e.k).flushLine e.core va e.ctx

theorem stackRead_lost {va : Word} {q : State × Nat} (hp : e.placed s va .read = .ok q) {n : Nat}
    (hn : (upto 16).find? (fun n => (e.stackSource va q).lostAt (q.2 + 8 * n) 8) = some n) :
    e.stackRead s va = .error (.fault .uncorr (va + BitVec.ofNat 64 (8 * n))) := by
  simp only [Env.stackSource] at hn
  simp only [Env.stackRead, hp, hn, failWith]

theorem stackRead_ok {va : Word} {q : State × Nat} (hp : e.placed s va .read = .ok q)
    (hn : ∀ n < 16, (e.stackSource va q).lostAt (q.2 + 8 * n) 8 = false) : e.stackRead s va =
      .ok (((e.stackSource va q).dropRdc e.fld va e.ctx).touchL2 q.2 e.ctx, (e.stackSource va q).bytesAt q.2 128) := by
  have hnone : (upto 16).find? (fun n => (e.stackSource va q).lostAt (q.2 + 8 * n) 8) = none := by simpa [upto] using hn
  simp only [Env.stackSource] at hnone
  simp only [Env.stackRead, hp, hnone, frameSize, Env.stackSource]

end

/-- Settles O26: the guard by `exec_guarded`, each SEQ by its equation, the spill and the fill by those of the window actions. -/
theorem sequencingFollowsSeq : Obligations.sequencing_follows_seq := by
  unfold Obligations.sequencing_follows_seq
  intro s e i k t
  refine ⟨fun h out hs => ?_, fun hi h hw hf hc out hs => exec_guarded hi h hw hf hc hs, ?_⟩
  · obtain ⟨-, -, -, -, -, -, -, -, ht, -, -⟩ := envAt_spec h.1
    exact runWord_completes (op := fun _ s => .ok s) h rfl ht hs
  intro goes fall onward t0 t1
  have ht0 : t0 = t.target0 := (target0_eq t).symm
  have ht1 : t1 = t.target1 := (target1_eq t).symm
  clear_value t0 t1
  subst ht0 ht1
  refine ⟨sequence_guarded, sequence_next, sequence_either, fun hc => ⟨sequence_t0 hc, sequence_t1 hc, sequence_goBt hc,
    sequence_loop hc, fun a ha => ⟨fun hq h8 => ?_, fun h8 hb hf => ?_, fun h8 hs hb => ?_, fun h8 hb hf hst => ?_⟩, fun hq => ?_⟩⟩
  · rcases ha with ⟨hq', -⟩ | ⟨-, rfl⟩
    · cases hq.symm.trans hq'
    · exact sequence_call_misaligned hc hq h8
  · rw [sequence_call hc ha h8, call_enters hb, windowCall_resident (t := t.entering a) hf]
    rfl
  · rw [sequence_call hc ha h8, call_access hs hb]
  · rw [sequence_call hc ha h8, call_enters hb, windowCall_spills (t := t.entering a) hf hst]
    refine ⟨fun hr => ?_, fun hr => ⟨fun x hp => ?_, fun q hp => ?_⟩⟩
    · rw [spill_misaligned (t := t.entering a) hr]
      rfl
    · rw [spill_aligned (t := t.entering a) hr, stackWrite_stops (va := (t.entering a).rsp - 128) hp]
      rfl
    · rw [spill_aligned (t := t.entering a) hr, stackWrite_ok (va := (t.entering a).rsp - 128) hp]
      rfl
  · refine ⟨sequence_ret_misaligned hc hq, fun h8 hb hf => ?_, fun h8 hs hb => sequence_ret_access hc hq h8 hs hb,
      fun h8 hb hf hst => ?_⟩
    · rw [sequence_ret hc hq h8 hb, windowRet_resident (t := t.entering (t.readS 15)) hf]
      rfl
    rw [sequence_ret hc hq h8 hb, windowRet_fills (t := t.entering (t.readS 15)) hf hst]
    refine ⟨fun hr => ?_, fun hr => ⟨fun x hp => ?_, fun q hp => ⟨fun n hn => ?_, fun hn => ?_⟩⟩⟩
    · rw [fill_misaligned (t := t.entering (t.readS 15)) hr]
      rfl
    · rw [fill_aligned (t := t.entering (t.readS 15)) hr, stackRead_stops (va := (t.entering (t.readS 15)).rsp) hp]
      rfl
    · rw [fill_aligned (t := t.entering (t.readS 15)) hr, stackRead_lost (va := (t.entering (t.readS 15)).rsp) hp hn]
      rfl
    · rw [fill_aligned (t := t.entering (t.readS 15)) hr, stackRead_ok (va := (t.entering (t.readS 15)).rsp) hp hn]
      rfl

end Sys2Proof.Machine
end

section
/-! PROOFS. Words left outstanding, their completions, and debug halts (R75, R77, R115, R145, R173, R180, R181, R510). -/

namespace Sys2Proof.Machine

/-! ### What a slot has outstanding and queued stays -/

/-- What each slot that holds a strand has outstanding, and its forward queue. -/
def State.pendingOf (s : State) (k : Nat) : Option (List Inflight × List FwdEntry) :=
  (tget s.slots k).map fun sl => (sl.flight, sl.fwd)

theorem pendingOf_of_slots {s t : State} (h : t.slots = s.slots) : t.pendingOf = s.pendingOf := by
  funext k
  rw [State.pendingOf, h, State.pendingOf]

theorem modSlot_pendingOf {s : State} {k : Nat} {f : Slot → Slot} (h : ∀ x, (f x).flight = x.flight ∧ (f x).fwd = x.fwd) :
    (s.modSlot k f).pendingOf = s.pendingOf := by
  funext j
  unfold State.pendingOf
  by_cases hj : j = k
  · subst hj
    cases hs : tget s.slots j <;> simp [State.modSlot, hs, h]
  · simp [State.modSlot, tget_tmod_other _ _ _ _ hj]

theorem setSlot_pendingOf {s : State} {k : Nat} {sl x : Slot} (hs : tget s.slots k = some sl)
    (h : x.flight = sl.flight ∧ x.fwd = sl.fwd) : (s.setSlot k x).pendingOf = s.pendingOf := by
  funext j
  unfold State.pendingOf
  by_cases hj : j = k
  · subst hj
    simp [State.setSlot, hs, h]
  · simp [State.setSlot, tget_tput_other _ _ _ _ hj]

theorem foldl_pendingOf {α : Type} {f : State → α → State} (h : ∀ x a, (f x a).pendingOf = x.pendingOf) (l : List α) (s : State) :
    (l.foldl f s).pendingOf = s.pendingOf := by
  induction l generalizing s with
  | nil => rfl
  | cons a l ih => rw [List.foldl_cons, ih, h]

section
variable (s : State)

@[simp] theorem modStrand_pendingOf (u : Nat) (f : Strand → Strand) : (s.modStrand u f).pendingOf = s.pendingOf := rfl
@[simp] theorem setStrand_pendingOf (u : Nat) (x : Strand) : (s.setStrand u x).pendingOf = s.pendingOf := rfl
@[simp] theorem modTile_pendingOf (n : Nat) (f : Tile → Tile) : (s.modTile n f).pendingOf = s.pendingOf := rfl
@[simp] theorem modCore_pendingOf (n : Nat) (f : Core → Core) : (s.modCore n f).pendingOf = s.pendingOf := rfl
@[simp] theorem setCore_pendingOf (n : Nat) (x : Core) : (s.setCore n x).pendingOf = s.pendingOf := rfl
@[simp] theorem modField_pendingOf (n : Nat) (f : Field → Field) : (s.modField n f).pendingOf = s.pendingOf := rfl
@[simp] theorem setField_pendingOf (n : Nat) (x : Field) : (s.setField n x).pendingOf = s.pendingOf := rfl
@[simp] theorem modPart_pendingOf (n : Nat) (f : Partition → Partition) : (s.modPart n f).pendingOf = s.pendingOf := rfl
@[simp] theorem setPart_pendingOf (n : Nat) (x : Partition) : (s.setPart n x).pendingOf = s.pendingOf := rfl
@[simp] theorem setTask_pendingOf (n : Nat) (x : Task) : (s.setTask n x).pendingOf = s.pendingOf := rfl
@[simp] theorem post_pendingOf (a : Turn) : (s.post a).pendingOf = s.pendingOf := rfl
@[simp] theorem postAt_pendingOf (d : Nat) (i : Instr) : (s.postAt d i).pendingOf = s.pendingOf := rfl
@[simp] theorem putAt_pendingOf (a : Nat) (bs : List Byte) : (s.putAt a bs).pendingOf = s.pendingOf := rfl
@[simp] theorem putDw_pendingOf (a : Nat) (w : Word) : (s.putDw a w).pendingOf = s.pendingOf := rfl
@[simp] theorem setPoison_pendingOf (a : Nat) : (s.setPoison a).pendingOf = s.pendingOf := rfl

@[simp] theorem postOnce_pendingOf (i : Instr) : (s.postOnce i).pendingOf = s.pendingOf := pendingOf_of_slots (by simp)
@[simp] theorem postSlot_pendingOf (k : Nat) : (s.postSlot k).pendingOf = s.pendingOf := pendingOf_of_slots (by simp)

@[simp] theorem postAll_pendingOf (l : List Instr) : (s.postAll l).pendingOf = s.pendingOf := by
  induction l generalizing s with
  | nil => rfl
  | cons i l ih => rw [State.postAll, ih, postOnce_pendingOf]

/-! #### Ready queues -/

@[simp] theorem restat_pendingOf (u : Nat) : (s.restat u).pendingOf = s.pendingOf := by
  unfold State.restat
  split
  · rfl
  · split <;> simp

@[simp] theorem relink_pendingOf (l : List Nat) : (s.relink l).pendingOf = s.pendingOf := by
  induction l generalizing s with
  | nil => rfl
  | cons u l ih =>
    rw [State.relink, ih]
    split <;> simp

@[simp] theorem toReady_pendingOf (u tile : Nat) : (s.toReady u tile).pendingOf = s.pendingOf := by
  unfold State.toReady
  split <;> simp

theorem queueRecords_pendingOf (l : List Nat) : (s.queueRecords l).pendingOf = s.pendingOf := by
  induction l generalizing s with
  | nil => rfl
  | cons u l ih =>
    rw [State.queueRecords, ih]
    split
    · split <;> simp
    · rfl

theorem queueTogether_pendingOf : s.queueTogether.pendingOf = s.pendingOf := by
  unfold State.queueTogether
  split
  · rfl
  · exact (queueRecords_pendingOf _ _).trans (pendingOf_of_slots rfl)

@[simp] theorem makeReady_pendingOf (u : Nat) : (s.makeReady u).pendingOf = s.pendingOf := by
  unfold State.makeReady
  split
  · rfl
  · simp only
    split
    · split
      · rfl
      · rw [queueTogether_pendingOf, postSlot_pendingOf, modSlot_pendingOf, modPart_pendingOf, setStrand_pendingOf]
        exact fun x => ⟨rfl, rfl⟩
    · simp
    · rfl

@[simp] theorem wakeAll_pendingOf (l : List Monitor) : (s.wakeAll l).pendingOf = s.pendingOf := by
  induction l generalizing s with
  | nil => rfl
  | cons m l ih => rw [State.wakeAll, ih, makeReady_pendingOf, modStrand_pendingOf]

/-! #### Writes at home slices -/

@[simp] theorem orphanTrees_pendingOf (t : State) : (s.orphanTrees t).pendingOf = t.pendingOf := by
  unfold State.orphanTrees
  simp only
  split <;> rfl

@[simp] theorem slicePut_pendingOf (pa : Nat) (bs : List Byte) : (s.slicePut pa bs).pendingOf = s.pendingOf := by
  unfold State.slicePut
  split
  · rfl
  · simp only
    split <;> simp

@[simp] theorem sliceDw_pendingOf (pa : Nat) (w : Word) : (s.sliceDw pa w).pendingOf = s.pendingOf := slicePut_pendingOf s pa _

@[simp] theorem noticeQueues_pendingOf (pa : Nat) (v : Word) : (s.noticeQueues pa v).pendingOf = s.pendingOf := by
  unfold State.noticeQueues
  refine (foldl_pendingOf (fun x a => ?_) _ _).trans ((foldl_pendingOf (fun x a => ?_) _ _).trans
    (foldl_pendingOf (fun x a => ?_) _ s))
  · exact postOnce_pendingOf _ _
  · exact postOnce_pendingOf _ _
  · rfl

@[simp] theorem counterAdd_pendingOf (pa : Nat) (d : Word) : (s.counterAdd pa d).pendingOf = s.pendingOf := by
  have hpost : ∀ (x : State) (c : Prop) [Decidable c] (i : Instr), (if c then x else x.postOnce i).pendingOf = x.pendingOf := by
    intro x c _ i
    split <;> simp
  unfold State.counterAdd
  split
  · rfl
  · simp only [State.noticeEgress, postAll_pendingOf, noticeQueues_pendingOf]
    split
    · split <;> simp [hpost]
    · simp [hpost]

@[simp] theorem touchL2_pendingOf (pa ctx : Nat) : (s.touchL2 pa ctx).pendingOf = s.pendingOf := by
  unfold State.touchL2
  split
  · rfl
  · simp only
    split
    · rfl
    · split <;> rfl

@[simp] theorem addAt_pendingOf (ctx pa : Nat) (d : Word) : (s.addAt ctx pa d).pendingOf = s.pendingOf := by simp [State.addAt]

@[simp] theorem dropRdc_pendingOf (f : Nat) (va : Word) (ctx : Nat) : (s.dropRdc f va ctx).pendingOf = s.pendingOf := rfl

@[simp] theorem noteFault_pendingOf (n : Nat) (r : Vector Word 7) : (s.noteFault n r).pendingOf = s.pendingOf :=
  pendingOf_of_slots (noteFault_slots s n r)

end

/-! #### Places -/

theorem findLeaf_pendingOf {s : State} {p : Partition} {f : Nat} {r : Req} {x : State × Word × Bool × Nat}
    (h : s.findLeaf p f r = .ok x) : x.1.pendingOf = s.pendingOf := by
  unfold State.findLeaf at h
  simp only at h
  split at h
  · obtain rfl := Except.ok.inj h
    rfl
  · split at h
    · cases h
    · cases h
    · cases h
    · split at h
      · obtain rfl := Except.ok.inj h
        rfl
      · cases h

theorem touchLeaf_pendingOf (s : State) (f slot : Nat) (e : Word) (acc : Acc) :
    (s.touchLeaf f slot e acc).1.pendingOf = s.pendingOf := by
  have hput : ∀ (c : Prop) [Decidable c] (w : Word), (if c then s else s.sliceDw slot w).pendingOf = s.pendingOf := by
    intro c _ w
    split <;> simp
  unfold State.touchLeaf
  simp only
  split
  all_goals
    split
    · rfl
    · exact hput _ _

theorem recordDirty_pendingOf (s : State) (part ctx : Nat) (page : Word × Bool) :
    (s.recordDirty part ctx page).pendingOf = s.pendingOf := by
  unfold State.recordDirty State.postDev
  split
  · rfl
  · split
    · rfl
    · split <;> simp

theorem translateAt_pendingOf {s : State} {f : Nat} {r : Req} {x : State × Nat × Option (Word × Bool)}
    (h : s.translateAt f r = .ok x) : x.1.pendingOf = s.pendingOf := by
  unfold State.translateAt at h
  split at h
  · cases h
  · split at h
    · cases h
    · split at h
      · cases h
      · next s1 e big slot hl =>
        split at h
        · cases h
        · obtain rfl := Except.ok.inj h
          exact (touchLeaf_pendingOf s1 f slot e r.acc).trans (findLeaf_pendingOf hl)

theorem translate_pendingOf {s : State} {f : Nat} {r : Req} {x : State × Nat} (h : s.translate f r = .ok x) :
    x.1.pendingOf = s.pendingOf := by
  unfold State.translate at h
  split at h
  · cases h
  · next ht =>
    obtain rfl := Except.ok.inj h
    exact translateAt_pendingOf ht
  · next ht =>
    obtain rfl := Except.ok.inj h
    exact (recordDirty_pendingOf _ _ _ _).trans (translateAt_pendingOf ht)

theorem place_pendingOf {s : State} {user : Bool} {r : Req} {x : State × Nat} (h : s.place user r = .ok x) :
    x.1.pendingOf = s.pendingOf := by
  unfold State.place at h
  split at h
  · cases h
  · split at h
    · cases h
    · obtain rfl := Except.ok.inj h
      rfl
    · exact translate_pendingOf h

theorem devPlace_pendingOf {s : State} {part ctx : Nat} {va : Word} {acc : Acc} {x : State × Nat}
    (h : s.devPlace part ctx va acc = some x) : x.1.pendingOf = s.pendingOf := by
  unfold State.devPlace at h
  split at h
  · cases h
  · split at h
    · next hp =>
      obtain rfl := Option.some.inj h
      exact place_pendingOf hp
    · cases h

@[simp] theorem devPut_pendingOf (s : State) (part ctx : Nat) (va : Word) (bs : List Byte) :
    (s.devPut part ctx va bs).pendingOf = s.pendingOf := by
  have hput : ∀ (x : State) (a : Word) (l : List Byte), (match x.devPlace part ctx a .write with
      | some (s1, pa) => s1.slicePut pa l
      | none => x).pendingOf = x.pendingOf := by
    intro x a l
    split
    · next hp => rw [slicePut_pendingOf, devPlace_pendingOf hp]
    · rfl
  unfold State.devPut
  simp only
  split
  · exact hput _ _ _
  · exact (hput _ _ _).trans (hput _ _ _)

/-! #### The undo log, lines and the store buffer -/

theorem undoLog_pendingOf {s t : State} {w : Writer} {va : Word} {pa : Nat} (h : s.undoLog w va pa = some (some t)) :
    t.pendingOf = s.pendingOf := by
  unfold State.undoLog State.undoLogWith at h
  simp only at h
  split at h
  · cases h
  · split at h
    · cases h
    · split at h
      · cases h
      · split at h
        · cases h
        · obtain rfl := Option.some.inj (Option.some.inj h)
          rw [foldl_pendingOf, setTask_pendingOf, devPut_pendingOf]
          intro x i
          split
          · next hp => rw [setPoison_pendingOf, devPlace_pendingOf hp]
          · rfl

section
variable (s : State)

@[simp] theorem logFull_pendingOf (w : Writer) : (s.logFull w).pendingOf = s.pendingOf := by
  unfold State.logFull
  split <;> simp

@[simp] theorem homeWrite_pendingOf (w : Writer) (va : Word) (pa : Nat) (bs : List Byte) :
    (s.homeWrite w va pa bs).pendingOf = s.pendingOf := by
  unfold State.homeWrite
  cases w.fld
  all_goals
    simp only
    split
    · simp
    · next hu => simp [undoLog_pendingOf hu]
    · simp

@[simp] theorem homeWriteBy_pendingOf (va : Word) (pa : Nat) (bs : List Byte) (ws : List Writer) :
    (s.homeWriteBy va pa bs ws).pendingOf = s.pendingOf := by
  induction ws generalizing s with
  | nil => rfl
  | cons w ws ih =>
    cases ws with
    | nil => exact homeWrite_pendingOf s w va pa bs
    | cons w' ws =>
      simp only [State.homeWriteBy]
      split
      · exact ih s
      · next hu => exact (ih _).trans (undoLog_pendingOf hu)
      · exact logFull_pendingOf s w

@[simp] theorem writeBackMark_pendingOf (c : Nat) (l : L1Line) (i : Nat) : (s.writeBackMark c l i).pendingOf = s.pendingOf := by
  unfold State.writeBackMark
  split <;> simp

@[simp] theorem writeBack_pendingOf (c : Nat) (l : L1Line) : (s.writeBack c l).pendingOf = s.pendingOf := by
  unfold State.writeBack
  refine foldl_pendingOf (fun x i => ?_) _ s
  simp only [writeBackMark_pendingOf]
  exact foldl_pendingOf (fun z r => homeWriteBy_pendingOf z _ _ _ _) _ x

@[simp] theorem evict_pendingOf (c : Nat) (l : L1Line) : (s.evict c l).pendingOf = s.pendingOf := by
  unfold State.evict
  simp only
  split <;> simp

@[simp] theorem putLine_pendingOf (c : Nat) (l : L1Line) : (s.putLine c l).pendingOf = s.pendingOf := by
  have hback : ∀ (x : State) (v : L1Line), (if v.dirty = 0 then x else x.writeBack c v).pendingOf = x.pendingOf := by
    intro x v
    split <;> simp
  unfold State.putLine
  cases isGateway (tileOfCore c)
  all_goals
    simp only [Bool.false_eq_true, if_true, if_false]
    split
    · exact hback s l
    · split
      · rfl
      · split
        · rfl
        · exact hback _ _

theorem refetch_pendingOf (c : Nat) (l : L1Line) (m : BitVec 32) : (s.refetch c l m).1.pendingOf = s.pendingOf := by
  unfold State.refetch
  simp only
  split <;> simp

theorem fillLine_pendingOf (f : Nat) (va : Word) (ctx : Nat) (gen : BitVec 16) (pa : Nat) :
    (s.fillLine f va ctx gen pa).1.pendingOf = s.pendingOf := by
  unfold State.fillLine
  split
  · simp
  · simp only
    split
    · rfl
    · simp

theorem storeFill_pendingOf (k : Nat) (va : Word) (ctx : Nat) (gen : BitVec 16) (pa n : Nat) :
    (s.storeFill k va ctx gen pa n).1.pendingOf = s.pendingOf := by
  unfold State.storeFill
  simp only
  split
  · rfl
  · split
    · exact refetch_pendingOf s _ _ _
    · rw [fillLine_pendingOf, dropRdc_pendingOf, evict_pendingOf, refetch_pendingOf]

@[simp] theorem endGrid_pendingOf (k : Nat) (tval tpc hdr : Word) : (s.endGrid k tval tpc hdr).pendingOf = s.pendingOf := by
  unfold State.endGrid
  split
  · rfl
  · next hs =>
    split
    · rfl
    · split
      · rfl
      · rw [noteFault_pendingOf]
        exact setSlot_pendingOf (s := s.setStrand _ _) hs ⟨rfl, rfl⟩

@[simp] theorem l1Store_pendingOf (k : Nat) (va : Word) (ctx : Nat) (gen : BitVec 16) (pa : Nat) (org : Origin) (bs : List Byte) :
    (s.l1Store k va ctx gen pa org bs).pendingOf = s.pendingOf := by
  have hfill := storeFill_pendingOf s k va ctx gen pa bs.length
  unfold State.l1Store
  simp only
  split
  · rw [State.storeLost, State.assayAt]
    split <;> simpa using hfill
  · split <;> simpa using hfill

@[simp] theorem flushLine_pendingOf (c : Nat) (va : Word) (ctx : Nat) : (s.flushLine c va ctx).pendingOf = s.pendingOf :=
  foldl_pendingOf (fun x l => evict_pendingOf x c l) _ s

@[simp] theorem writeBackSlot_pendingOf (k : Nat) : (s.writeBackSlot k).pendingOf = s.pendingOf :=
  foldl_pendingOf (fun x l => writeBack_pendingOf x _ l) _ s

@[simp] theorem performEntry_pendingOf (k ctx : Nat) (gen : BitVec 16) (e : StoreEntry) :
    (s.performEntry k ctx gen e).pendingOf = s.pendingOf := by
  cases e with
  | store org es =>
    refine foldl_pendingOf (fun x el => ?_) _ s
    split
    · simp
    · split <;> simp
  | cadd va pa v => simp [State.performEntry]

@[simp] theorem drain_pendingOf (k : Nat) : (s.drain k).pendingOf = s.pendingOf := by
  unfold State.drain
  split
  · rfl
  · next hs =>
    exact (foldl_pendingOf (fun x e => performEntry_pendingOf x _ _ _ e) _ _).trans (setSlot_pendingOf hs ⟨rfl, rfl⟩)

/-- A release performs stores and writes lines back: what the slots have outstanding stays. -/
@[simp] theorem release_pendingOf (k : Nat) (sc : Scope) : (s.release k sc).pendingOf = s.pendingOf := by
  cases sc <;> simp [State.release]

/-! #### Streams -/

@[simp] theorem detach_pendingOf (k u : Nat) (a h : Word) : (s.detach k u a h).pendingOf = s.pendingOf := by
  unfold State.detach
  simp only
  split
  · rfl
  · split <;> rfl

@[simp] theorem passedWord_pendingOf (k u : Nat) (w a h hdr : Word) (widx : Nat) (taken : Bool) :
    (s.passedWord k u w a h hdr widx taken).pendingOf = s.pendingOf := by
  have hpos : ∀ n, (s.modSlot k fun sl => { sl with pos := n }).pendingOf = s.pendingOf :=
    fun n => modSlot_pendingOf fun x => ⟨rfl, rfl⟩
  unfold State.passedWord
  simp only
  split
  · rfl
  · split
    · rfl
    · split
      · exact hpos _
      · split
        · exact hpos _
        · rw [detach_pendingOf]
          exact hpos _

end

/-! ### A word left outstanding (R75, R77) -/

theorem not_jumps_of_isLL {i : Instr} (h : i.isLL = true) : jumps i = false := by
  cases i with
  | trap | brk | rft | yieldOp | endOp => cases h
  | _ => rfl

theorem exec_launches {s : State} {i : Instr} {c : Ctl} {e : Env} (hi : i.ctl = some c) (h : s.envAt s.cur i c = some e)
    (hw : e.waits s i = false) (hf : e.decodeFault i = none) (hd : e.deferred i = true) : exec i s = .next (e.launch s i) := by
  have hll : i.isLL = true := by
    simp only [Env.deferred, Bool.and_eq_true] at hd
    obtain ⟨⟨⟨⟨hll, -⟩, -⟩, -⟩, -⟩ := hd
    exact hll
  obtain ⟨op, ho⟩ := exec_runWord hi (not_jumps_of_isLL hll)
  rw [ho, runWord_launches h hw hf hd]

theorem keepUnit_pendingOf (e : Env) (s : State) (i : Instr) : (e.keepUnit s i).pendingOf = s.pendingOf := by
  unfold Env.keepUnit
  split
  · rfl
  · exact modCore_pendingOf _ _ _

theorem modSlot_pendingOf_same {s : State} {k : Nat} {sl : Slot} (h : tget s.slots k = some sl) (f : Slot → Slot) :
    (s.modSlot k f).pendingOf k = some ((f sl).flight, (f sl).fwd) := by
  simp [State.pendingOf, State.modSlot, h]

/-- A vector-side word goes to the end of its slot's forward queue. -/
theorem pushFwd_pendingOf {e : Env} {s : State} {sl : Slot} {i : Instr} {t : Strand} {o : Bool} (h : tget s.slots e.k = some sl)
    (hv : vectorSide e.st.latch.cls i = true) :
    ∃ x : FwdEntry, x.instr = some i ∧ x.opens = o ∧ (e.pushFwd s i t o).pendingOf e.k = some (sl.flight, sl.fwd ++ [x]) := by
  unfold Env.pushFwd
  simp only [hv, Bool.true_or, if_true]
  exact ⟨_, rfl, rfl, (congrFun (postOnce_pendingOf _ _) _).trans (modSlot_pendingOf_same h _)⟩

theorem slot_of_pendingOf {s : State} {k : Nat} {a : List Inflight} {b : List FwdEntry} (h : s.pendingOf k = some (a, b)) :
    ∃ sl, tget s.slots k = some sl ∧ sl.flight = a ∧ sl.fwd = b := by
  obtain ⟨sl, hs, hab⟩ := Option.map_eq_some_iff.1 h
  obtain ⟨rfl, rfl⟩ := Prod.mk.inj hab
  exact ⟨sl, hs, rfl, rfl⟩

/-- The state in which a word that is left outstanding has made the release that it makes at its issue (R161, R540). -/
def Env.released (e : Env) (s : State) (i : Instr) : State := if kindOf i = .engine then s.release e.k .module else s

theorem released_slot {e : Env} {s : State} (h : tget s.slots e.k = some e.sl) (i : Instr) :
    ∃ sl, tget (e.released s i).slots e.k = some sl ∧ sl.flight = e.sl.flight ∧ sl.fwd = e.sl.fwd := by
  refine slot_of_pendingOf ?_
  have hp : s.pendingOf e.k = some (e.sl.flight, e.sl.fwd) := by rw [State.pendingOf, h]; rfl
  unfold Env.released
  split
  · rw [release_pendingOf, hp]
  · exact hp

/-- The slot past a word that is left outstanding: its windows and its return queue. -/
def Env.slotPast (e : Env) (i : Instr) (new : List Window) (sl : Slot) : Slot :=
  (sl.popReturns (readsOf i e.ctl)).nextWindows new (dstOf i).isSome false

/-- The word as its slot has it in flight. -/
def Env.flightOf (e : Env) (i : Instr) : Inflight :=
  { n := e.sl.issued, instr := i, before := e.st, pos := e.sl.pos, windows := e.sl.windows, left := e.ctl.la.val, wroteL := false
    needL := e.sl.flight.any fun f => (dstOf f.instr).isSome && !f.wroteL }

/-- The state in which the word has taken its window slot, and the one in which it leaves that to its start (R115). -/
def Env.inFlight (e : Env) (s : State) (i : Instr) (t : Strand) : State :=
  (e.put (e.released s i) t).modSlot e.k fun sl =>
    { e.slotPast i (windowOf i e.ctl) sl with flight := (e.slotPast i (windowOf i e.ctl) sl).flight ++ [e.flightOf i] }

def Env.notYetInFlight (e : Env) (s : State) (i : Instr) (t : Strand) : State :=
  (e.put (e.released s i) t).modSlot e.k (e.slotPast i [])

section
variable {s : State} {e : Env} {i : Instr} {t : Strand} (h : tget s.slots e.k = some e.sl) (ht : e.st.advance = .ok t)
include h

theorem inFlight_slot : ∃ sl, tget (e.inFlight s i t).slots e.k = some sl ∧ sl.flight.length = e.sl.flight.length + 1 ∧
    sl.flight.getLast?.map (·.instr) = some i := by
  obtain ⟨sl0, hs0, hf0, -⟩ := released_slot h i
  refine ⟨_, by rw [Env.inFlight, State.modSlot, tget_tmod_same]; exact congrArg _ hs0, ?_, ?_⟩
  · simp [Env.slotPast, Slot.popReturns, Slot.nextWindows, hf0]
  · simp [Env.flightOf]

theorem notYetInFlight_slot : ∃ sl, tget (e.notYetInFlight s i t).slots e.k = some sl ∧
    sl.flight.length = e.sl.flight.length ∧ sl.fwd = e.sl.fwd := by
  obtain ⟨sl0, hs0, hf0, hw0⟩ := released_slot h i
  refine ⟨_, by rw [Env.notYetInFlight, State.modSlot, tget_tmod_same]; exact congrArg _ hs0, ?_, ?_⟩
  · simp [Env.slotPast, Slot.popReturns, Slot.nextWindows, hf0]
  · simp [Env.slotPast, Slot.popReturns, Slot.nextWindows, hw0]

omit h in
include ht in
theorem launch_eq_post (ho : (vectorSide e.st.latch.cls i && (unitOf e.st.latch.cls i).isSome) = false) : e.launch s i =
    (State.passedWord
      (if vectorSide e.st.latch.cls i then e.pushFwd (e.inFlight s i t) i t false else e.keepUnit (e.inFlight s i t) i)
      e.k e.u e.w e.st.hdr e.st.header t.hdr t.widx false).post (.event (replyOf i e.k)) := by
  simp only [Env.launch, ht, ho, Bool.false_eq_true, if_false]
  rfl

omit h in
include ht in
theorem launch_eq_queue (hv : vectorSide e.st.latch.cls i = true) (hu : (unitOf e.st.latch.cls i).isSome = true) : e.launch s i =
    (e.pushFwd (e.notYetInFlight s i t) i t true).passedWord e.k e.u e.w e.st.hdr e.st.header t.hdr t.widx false := by
  simp only [Env.launch, ht, hv, hu, Bool.and_self, if_true]
  rfl

include ht

/-- A word that takes its window slot at its issue is the last one that its slot has in flight, and its completion is due. -/
theorem launch_in_flight (ho : (vectorSide e.st.latch.cls i && (unitOf e.st.latch.cls i).isSome) = false) :
    .event (replyOf i e.k) ∈ (e.launch s i).agenda ∧ ∃ sl, tget (e.launch s i).slots e.k = some sl ∧
      sl.flight.length = e.sl.flight.length + 1 ∧ sl.flight.getLast?.map (·.instr) = some i := by
  obtain ⟨sl1, hs1, hlen, hlast⟩ := inFlight_slot (i := i) (t := t) h
  rw [launch_eq_post ht ho]
  refine ⟨by simp [State.post], ?_⟩
  have hpend : ∃ w, (if vectorSide e.st.latch.cls i then e.pushFwd (e.inFlight s i t) i t false
      else e.keepUnit (e.inFlight s i t) i).pendingOf e.k = some (sl1.flight, w) := by
    split
    · next hv =>
      obtain ⟨x, -, -, hx⟩ := pushFwd_pendingOf (t := t) (o := false) hs1 hv
      exact ⟨_, hx⟩
    · exact ⟨sl1.fwd, by rw [keepUnit_pendingOf, State.pendingOf, hs1]; rfl⟩
  obtain ⟨w, hw⟩ := hpend
  obtain ⟨sl, hs, hf, -⟩ := slot_of_pendingOf
    ((congrFun (passedWord_pendingOf _ e.k e.u e.w e.st.hdr e.st.header t.hdr t.widx false) e.k).trans hw)
  exact ⟨sl, hs, hf ▸ hlen, hf ▸ hlast⟩

/-- A division of the vector side is the last one of its forward queue, and not in flight (R115). -/
theorem launch_queued (hv : vectorSide e.st.latch.cls i = true) (hu : (unitOf e.st.latch.cls i).isSome = true) :
    ∃ sl, tget (e.launch s i).slots e.k = some sl ∧ sl.flight.length = e.sl.flight.length ∧
      sl.fwd.length = e.sl.fwd.length + 1 ∧ sl.fwd.getLast?.map (fun x => (x.instr, x.opens)) = some (some i, true) := by
  obtain ⟨sl1, hs1, hlen, hfwd⟩ := notYetInFlight_slot (i := i) (t := t) h
  obtain ⟨x, hi, ho, hx⟩ := pushFwd_pendingOf (t := t) (o := true) hs1 hv
  rw [launch_eq_queue ht hv hu]
  obtain ⟨sl, hs, hf, hw⟩ := slot_of_pendingOf
    ((congrFun (passedWord_pendingOf _ e.k e.u e.w e.st.hdr e.st.header t.hdr t.widx false) e.k).trans hx)
  exact ⟨sl, hs, by rw [hf, hlen], by simp [hw, hfwd], by simp [hw, hi, ho]⟩

end

/-! ### Debug halts (R180, R510) -/

@[simp] theorem discard_parts (s : State) (k : Nat) : (s.discard k).parts = s.parts := by
  unfold State.discard
  split
  · rfl
  · split <;> rfl

theorem foldl_discard_parts (l : List Nat) (s : State) : (l.foldl State.discard s).parts = s.parts := by
  induction l generalizing s with
  | nil => rfl
  | cons k l ih => rw [List.foldl_cons, ih, discard_parts]

theorem startHalt_part {s : State} {n source : Nat} {pcoord tpc : Word} {p : Partition} (h : tget s.parts n = some p)
    (hh : p.halt = none) : tget (s.startHalt n source pcoord tpc).parts n =
      some { p with halt := some { source := source, since := s.time, pcoord := pcoord, tpc := tpc } } := by
  simp [State.startHalt, h, hh, foldl_discard_parts, State.setPart]

theorem not_halted_of_not_waits {e : Env} {s : State} {i : Instr} (h : e.waits s i = false) : e.p.halt = none := by
  simp only [Env.waits, Bool.or_eq_false_iff] at h
  obtain ⟨⟨⟨⟨⟨-, hh⟩, -⟩, -⟩, -⟩, -⟩ := h
  simpa using hh

section
variable {s : State} {e : Env} {k : Ctl}

theorem exec_halt_sequences (h : Issues s (.halt k) k e) (hn : e.st.asNop = false) (hd : bit e.p.tvec 0 = false)
    {out : State × Strand} (hs : e.sequence s e.st = .ok out) : exec (.halt k) s = .next (e.finish out.1 (.halt k) out.2) := by
  obtain ⟨-, -, -, -, -, -, -, -, ht, -, -⟩ := envAt_spec h.1
  have hop : opHalt e s = .ok s := by simp [opHalt, hn, hd]
  exact runWord_completes h hop ht hs

theorem exec_halt_resumes (h : Issues s (.halt k) k e) (hn : e.st.asNop = true) {out : State × Strand}
    (hs : e.sequence (e.put s { e.st with asNop := false }) { e.st with asNop := false } = .ok out) :
    exec (.halt k) s = .next (e.finish out.1 (.halt k) out.2) := by
  have hop : opHalt e s = .ok (e.put s { e.st with asNop := false }) := by simp [opHalt, hn]
  exact runWord_completes h hop (put_strand _ _ _) hs

theorem exec_brk_resumes {n : BitVec 16} (h : Issues s (.brk k n) k e) (hc : e.cond = true) (hn : e.st.asNop = true)
    {out : State × Strand} (hs : e.sequence s e.st = .ok out) : exec (.brk k n) s =
      .next (e.finish (e.put out.1 { out.2 with asNop := false }) (.brk k n) { out.2 with asNop := false }) := by
  have hop : opBrk n e s = .ok (e.put out.1 { out.2 with asNop := false }) := by
    simp [opBrk, hn, Env.resumeWord, hs, bind, Except.bind, pure, Except.pure]
  exact runJump_completes h hc hop (put_strand _ _ _)

theorem exec_brk_halts {n : BitVec 16} (h : Issues s (.brk k n) k e) (hc : e.cond = true) (hn : e.st.asNop = false)
    (hd : bit e.p.tvec 0 = true) : exec (.brk k n) s = .next (e.trigger s haltBrk) := by
  have hop : opBrk n e s = .error (.become (e.trigger s haltBrk)) := by simp [opBrk, hn, hd]
  exact runJump_stops h hc hop

/-- A HALT halts before it sequences: what it has begun stays whatever its SEQ would meet (R180). -/
theorem exec_halt_halts (h : Issues s (.halt k) k e) (hn : e.st.asNop = false) (hd : bit e.p.tvec 0 = true) :
    exec (.halt k) s = .next (e.trigger s haltHalt) := by
  have hop : opHalt e s = .error (.become (e.trigger s haltHalt)) := by simp [opHalt, hn, hd]
  exact runWord_becomes h hop (by simp [Env.settled, Env.presequence, Env.mustMove, isHalt])

theorem trigger_halts {i : Instr} (h : Issues s i k e) (source : Nat) : ∃ p, tget (e.trigger s source).parts e.pn = some p ∧
    p.halt = some { source := source, since := s.time, pcoord := pcoordOf e.k, tpc := e.st.pc } := by
  obtain ⟨-, -, -, -, -, -, -, -, -, hp, -⟩ := envAt_spec h.1
  exact ⟨_, startHalt_part hp (not_halted_of_not_waits h.2.1), rfl⟩

theorem exec_unassignedOpcode {w : Word}
    (h : s.envAt s.cur (.unassignedOpcode w) { seq := .next, neg := false, gp := 0, la := 0 } = some e)
    (hw : e.waits s (.unassignedOpcode w) = false) (hb : e.busy = false) :
    exec (.unassignedOpcode w) s = .next (s.raise e.k .illop w false false) := by
  show execUnassignedOpcode w s = _
  simp [execUnassignedOpcode, h, hw, hb]

end

/-! ### Completions (R75, R77, R145, R173) -/

section
variable {s : State} {slot : Nat} {sl : Slot} (hsl : tget s.slots slot = some sl)

theorem mustWait_false {f : Inflight} (hstart : ∀ y ∈ sl.fwd, y.instr = none ∨ y.n ≠ f.n)
    (hold : (kindOf f.instr).accesses = true → ∀ g ∈ sl.flight, (kindOf g.instr).accesses = true → f.n ≤ g.n)
    (hroom : scalarPred f.before.latch.cls f.instr ≠ none → sl.fwd.length < 16) : sl.mustWait f = false := by
  have h1 : (sl.fwd.any fun x => x.instr.isSome && x.n = f.n) = false := by
    rw [List.any_eq_false]
    intro y hy
    rcases hstart y hy with h | h <;> simp [h]
  have h2 : ((kindOf f.instr).accesses && sl.flight.any fun g => g.n < f.n && (kindOf g.instr).accesses) = false := by
    by_cases ha : (kindOf f.instr).accesses = true
    · rw [Bool.and_eq_false_iff, List.any_eq_false]
      refine .inr fun g hg => ?_
      by_cases hga : (kindOf g.instr).accesses = true
      · simp [Nat.not_lt.2 (hold ha g hg hga)]
      · simp [hga]
    · simp [ha]
  have h3 : ((scalarPred f.before.latch.cls f.instr).isSome && fwdSize ≤ sl.fwd.length) = false := by
    cases hp : scalarPred f.before.latch.cls f.instr with
    | none => rfl
    | some n => exact decide_eq_false (Nat.not_le.2 (hroom (by simp [hp])))
  rw [Slot.mustWait, h1, h2, h3]
  rfl

include hsl

theorem complete_eq {mine : Inflight → Bool} {f : Inflight} {c : Ctl} (hf : sl.flight.find? mine = some f)
    (hc : f.instr.ctl = some c) :
    s.complete slot mine = (s.completeFlight slot sl f c).again slot := by
  simp only [State.complete, hsl, hf, hc]

/-- A reply for which no wait has begun ends none. -/
theorem endReply_none (h : sl.lost.bind (·.since) = none) : s.endReply slot = s := by
  simp only [State.endReply, hsl, h]

/-- Both acts complete the oldest one of their kind. -/
theorem exec_completes {r : Instr × Bool}
    (hr : r ∈ ([(.longLatencyComplete slot, false), (.memoryReply slot, true)] : List (Instr × Bool)))
    (hl : sl.lost.bind (·.since) = none) {f : Inflight} {c : Ctl} (hf : sl.flight.find? (fun f => byMemory f = r.2) = some f)
    (hc : f.instr.ctl = some c) : exec r.1 s = .next ((s.completeFlight slot sl f c).again slot) := by
  simp only [List.mem_cons, List.not_mem_nil, or_false] at hr
  rcases hr with rfl | rfl
  · have hf' : sl.flight.find? (fun f => !byMemory f) = some f := by simpa using hf
    rw [← complete_eq hsl hf' hc]
    rfl
  · have hf' : sl.flight.find? byMemory = some f := by simpa using hf
    rw [← complete_eq hsl hf' hc]
    show Host.Outcome.next ((s.endReply slot).complete slot byMemory) = _
    rw [endReply_none hsl hl]

omit hsl in
theorem completeFlight_waits_for_reply {f : Inflight} {c : Ctl} {l : Lost} (hw : sl.mustWait f = false) (hl : sl.lost = some l)
    (hs : l.since = none) (ha : (kindOf f.instr).accesses = true) : s.completeFlight slot sl f c =
      (s.setSlot slot { sl with lost := some { l with since := some s.time } }).postAt (s.time + 20000 * min l.n 5)
        (replyOf f.instr slot) := by
  have hr : replyNow s.time sl.lost = .sent l := by simp [replyNow, hl, hs]
  simp [State.completeFlight, hw, ha, hr, State.flightLost, Lost.ends, replyTimeout, replyTries]

omit hsl in
theorem completeFlight_retires {f : Inflight} {c : Ctl} {x : Env} {s1 : State} {res : Strand} (hw : sl.mustWait f = false)
    (hl : sl.lost = none) (hx : (s.atFlight slot sl f).envAt slot f.instr c = some x) (hg : (x.cond || x.lane) = true)
    (ho : llOp f.instr x (s.atFlight slot sl f) = .ok s1) (hres : tget s1.strands sl.uid = some res) :
    s.completeFlight slot sl f c = s.retire s1 slot sl f res := by
  have hr : replyNow s.time sl.lost = .came := by simp [replyNow, hl]
  simp [State.completeFlight, hw, hr, hx, hg, ho, hres]

omit hsl in
theorem retire_strand {s1 : State} {f : Inflight} {res t : Strand} {act : Slot} (ht : tget s.strands sl.uid = some t)
    (ha : tget s1.slots slot = some act) :
    tget (s.retire s1 slot sl f res).strands sl.uid = some (t.take res f.instr (!f.wroteL)) := by
  simp only [State.retire, ht, ha]
  split <;> simp [State.setStrand]

omit hsl in
theorem again_strands (s : State) (slot : Nat) : (s.again slot).strands = s.strands := by
  unfold State.again
  split
  · split <;> simp
  · rfl

omit hsl in
theorem again_slots (s : State) (slot : Nat) : (s.again slot).slots = s.slots := by
  unfold State.again
  split
  · split <;> simp
  · rfl

omit hsl in
theorem complete_none_in_flight {mine : Inflight → Bool} (h : ∀ x, tget s.slots slot = some x → x.flight = []) :
    s.complete slot mine = s := by
  unfold State.complete
  split
  · rfl
  · next x hx => simp only [h x hx, List.find?_nil]

/-- The reply to a slot that stands held for it ends the wait; an access after five timeouts ends with TIMEOUT when it is made
again (R173). -/
theorem exec_memoryReply_ends {l : Lost} {t0 : Nat} (hl : sl.lost = some l) (hs : l.since = some t0)
    (hend : t0 + 20000 * min l.n 5 ≤ s.time) (hh : sl.hold = some .reply) (hp : sl.preempt = false) (hf : sl.flight = []) :
    exec (.memoryReply slot) s =
      .next ((s.setSlot slot { sl with lost := if 5 ≤ l.n then some l else none, hold := none }).again slot) := by
  have hbegun : ¬ s.time < l.ends t0 := by simpa [Lost.ends, replyTimeout, replyTries] using hend
  have hreply : s.endReply slot =
      (s.setSlot slot { sl with lost := if 5 ≤ l.n then some l else none, hold := none }).again slot := by
    by_cases h5 : 5 ≤ l.n
    · have hnow : replyNow s.time (some l) = .timeout := by simp [replyNow, hs, hbegun, replyTries, h5]
      simp [State.endReply, hsl, hnow, hl, hs, hh, hp, h5]
    · have hnow : replyNow s.time (some l) = .came := by simp [replyNow, hs, hbegun, replyTries, h5]
      simp [State.endReply, hsl, hnow, hl, hs, hh, hp, h5]
  show Host.Outcome.next ((s.endReply slot).complete slot byMemory) = _
  rw [hreply, complete_none_in_flight]
  intro x hx
  rw [again_slots, State.setSlot, tget_tput_same] at hx
  rw [← Option.some.inj hx]
  exact hf

end

/-- Settles O40: the debug halts and the completions act by act; what a word left outstanding leaves of its slot by
`launch_in_flight` and `launch_queued`. -/
theorem haltingUnassignedAndOutstandingWords : Obligations.halting_unassigned_and_outstanding_words := by
  unfold Obligations.halting_unassigned_and_outstanding_words
  refine ⟨fun s e k n w => ⟨fun h hn hd out => exec_halt_sequences h hn hd, fun h hn out => exec_halt_resumes h hn,
    fun h hc hn out => exec_brk_resumes h hc hn, fun r hr h hc hn hd => ?_, exec_unassignedOpcode⟩, fun s i k e =>
    ⟨fun hi h hw hf hd t ht => ⟨exec_launches hi h hw hf hd, ?_⟩, fun slot r hr sl f c hsl hff hc hstart hold hroom => ?_,
      fun slot sl l t0 hsl hl hs hend hh hp hf => exec_memoryReply_ends hsl hl hs hend hh hp hf⟩⟩
  · simp only [List.mem_cons, List.not_mem_nil, or_false] at hr
    rcases hr with rfl | rfl
    · exact ⟨exec_brk_halts h hc hn hd, trigger_halts h haltBrk⟩
    · exact ⟨exec_halt_halts h hn hd, trigger_halts h haltHalt⟩
  · obtain ⟨hk, -, -, -, -, -, -, hsl, -, -, -⟩ := envAt_spec h
    rw [← hk] at hsl
    cases ho : (vectorSide e.st.latch.cls i && (unitOf e.st.latch.cls i).isSome) with
    | false =>
      obtain ⟨hdue, sl, hs, hlen, hlast⟩ := launch_in_flight hsl ht ho
      refine ⟨sl, hs, fun _ => ⟨hdue, hlen, hlast⟩, fun hv hu => ?_⟩
      rw [hv, Bool.true_and, Option.isSome_eq_false_iff, Option.isNone_iff_eq_none] at ho
      exact absurd ho hu
    | true =>
      obtain ⟨hv, hu⟩ := Bool.and_eq_true_iff.1 ho
      obtain ⟨sl, hs, hq⟩ := launch_queued hsl ht hv hu
      refine ⟨sl, hs, fun hno => ?_, fun _ _ => hq⟩
      rcases hno with hno | hno
      · cases hv.symm.trans hno
      · rw [hno] at hu
        cases hu
  · have hw := mustWait_false hstart hold hroom
    refine ⟨fun l hl hs ha => ?_, fun x s1 res t act hl hx hg ho hres ht hact => ⟨?_, ?_⟩⟩
    · rw [exec_completes hsl hr (by simp [hl, hs]) hff hc, completeFlight_waits_for_reply hw hl hs ha]
    · rw [exec_completes hsl hr (by simp [hl]) hff hc, completeFlight_retires hw hl hx hg ho hres]
    · rw [again_strands, retire_strand ht hact]

end Sys2Proof.Machine
end

section
/-! PROOFS. TDROP of an entry on whose place the strand itself has a monitor (R139, R297, R303). -/

namespace Sys2Proof.Machine

/-- TDROP by a strand that has a monitor on the arena's place of the entry that it drops. The change of the entry there meets the
monitor's threshold. -/
def watchedDrop : Instr := .tdrop noCtl (.lit 0)

def watchedPart : Partition := { probePart with tables := [(1, 0x200000)] }

def watchedState : State :=
  ((State.reset.placeWord (encodeWord watchedDrop)).setPart 0 watchedPart).modField 0 fun x =>
    { x with monitors := [[{ pa := 0x200000, thr := 0, uid := 1 }]] }

def watchedEnv : Env :=
  { k := 0, u := 1, sl := { uid := 1, turned := true }, st := probeStrand, pn := 0, p := watchedPart, ta := probeTask
    w := encodeWord watchedDrop, ctl := noCtl, cond := true, lane := false }

theorem watchedDrop_issues : Issues watchedState watchedDrop noCtl watchedEnv :=
  ⟨rfl, by decide +kernel, by decide +kernel, rfl, rfl⟩

/-- What an outcome leaves of strand 1 that the statement asks about: the counter that it has met (R139). -/
def metView : Host.Outcome State Fault Refusal → Option (Option Nat)
  | .next t => (tget t.strands 1).map (·.met)
  | _ => none

theorem watchedDrop_meets : metView (exec watchedDrop watchedState) = some (some 0x200000) := by decide +kernel

/-- The state with the entry dropped, as the statement gives it. -/
def watchedDropped : State :=
  watchedState.setTensor 0 1 0
    ((Vector.replicate 16 0).set 0 (putBits 0 63 48 ((tSerial (watchedPart.tensor 1 0)).toNat + 1)))

theorem watchedFinish_meets_nothing :
    metView (.next (watchedEnv.finish watchedDropped watchedDrop { probeStrand with widx := 2 })) = some none := by decide +kernel

/-- Refutes O34: exec sequences the strand as TDROP's change of the entry leaves it, and the statement takes the strand as it was
before. They differ where the change meets a monitor of that strand on the entry's place in the arena (R139); no premise keeps
such a monitor from the strand that runs. -/
theorem not_tensorWordsDefineReadAndDropEntries : ¬ Obligations.tensor_words_define_read_and_drop_entries := by
  intro h
  obtain ⟨-, -, -, hid⟩ := h watchedState watchedEnv noCtl (.lit 0) (.s 1)
  obtain ⟨-, -, -, hdrop⟩ := hid 0 rfl
  have hseq : watchedEnv.sequence watchedDropped watchedEnv.st = .ok (watchedDropped, { probeStrand with widx := 2 }) :=
    (sequence_next rfl).trans (if_neg (by decide))
  have hx := congrArg metView (hdrop watchedDrop_issues (watchedDropped, { probeStrand with widx := 2 }) hseq)
  exact absurd (watchedDrop_meets.symm.trans (hx.trans watchedFinish_meets_nothing)) (by decide)

end Sys2Proof.Machine
end

section
/-! PROOFS. Patterns of n bits and the numbers that the integer words compute with (R18, R91, R92, R94). -/

namespace Sys2Proof.Machine

/-! ### Integers as patterns -/

theorem ofInt_toNat {n : Nat} (x : BitVec n) : BitVec.ofInt n x.toNat = x := by simp

theorem toNat_eq_zero_iff {n : Nat} {x : BitVec n} : x.toNat = 0 ↔ x = 0 := by simp [← BitVec.toNat_inj]

theorem ofInt_natCast_eq {n m : Nat} {z : BitVec n} (h : m % 2 ^ n = z.toNat) : BitVec.ofInt n (m : Int) = z :=
  (BitVec.ofInt_natCast n m).trans (BitVec.eq_of_toNat_eq h)

theorem ofInt_sub {n : Nat} (x y : Int) : BitVec.ofInt n (x - y) = BitVec.ofInt n x - BitVec.ofInt n y := by
  rw [Int.sub_eq_add_neg, BitVec.ofInt_add, BitVec.ofInt_neg, BitVec.sub_eq_add_neg]

theorem ofInt_two_pow_self (n : Nat) : BitVec.ofInt n (2 ^ n) = 0 := by
  apply BitVec.eq_of_toNat_eq
  simp [BitVec.toNat_ofInt]

theorem ofInt_neg_one (n : Nat) : BitVec.ofInt n (-1) = BitVec.allOnes n := by
  rw [BitVec.ofInt_neg, ← BitVec.neg_one_eq_allOnes]
  rfl

theorem ofInt_two_pow_sub_one (n : Nat) : BitVec.ofInt n (2 ^ n - 1) = BitVec.allOnes n := by
  rw [ofInt_sub, ofInt_two_pow_self, ← BitVec.neg_one_eq_allOnes]
  exact BitVec.zero_sub _

/-- A multiplication by a power of two, which leaves nothing of the pattern from the width on. -/
theorem ofInt_shiftLeft {n : Nat} (x : BitVec n) (k : Nat) :
    BitVec.ofInt n ((if n ≤ k then 0 else x.toNat * 2 ^ k : Nat) : Int) = x <<< k := by
  split
  · next h => rw [BitVec.shiftLeft_eq_zero h]; rfl
  · exact ofInt_natCast_eq (by rw [BitVec.toNat_shiftLeft, Nat.shiftLeft_eq])

/-- The upper half of a pattern of 2n bits. -/
theorem extract_high_ofInt (n : Nat) (p : Int) : (BitVec.ofInt (2 * n) p).extractLsb' n n = BitVec.ofInt n (p / 2 ^ n) := by
  have hsplit : ((BitVec.ofInt (2 * n) p).toNat : Int) = p - 2 ^ n * (2 ^ n * (p / 2 ^ (2 * n))) := by
    rw [BitVec.toNat_ofInt, Int.toNat_of_nonneg (Int.emod_nonneg _ (by positivity)), Int.emod_def]
    push_cast
    ring
  calc (BitVec.ofInt (2 * n) p).extractLsb' n n
      = BitVec.ofInt n (((BitVec.ofInt (2 * n) p).toNat : Int) / 2 ^ n) := by
        rw [BitVec.extractLsb', Nat.shiftRight_eq_div_pow, ← BitVec.ofInt_natCast]; push_cast; rfl
    _ = BitVec.ofInt n (p / 2 ^ n - 2 ^ n * (p / 2 ^ (2 * n))) := by
        rw [hsplit, Int.sub_mul_ediv_left _ _ (by positivity)]
    _ = BitVec.ofInt n (p / 2 ^ n) := by
        rw [ofInt_sub, BitVec.ofInt_mul, ofInt_two_pow_self]; simp

/-- From the width less one on, a shift to the right leaves the sign alone. -/
theorem toInt_ediv_eq_sign {n k : Nat} (x : BitVec n) (h : n - 1 ≤ k) : x.toInt / 2 ^ k = if x.toInt < 0 then -1 else 0 := by
  have hpow : (2 : Int) ^ (n - 1) ≤ 2 ^ k := pow_le_pow_right₀ (by norm_num) h
  have hlo := x.le_toInt
  have hhi := x.toInt_lt
  split
  · exact (Int.ediv_eq_iff_of_pos (by positivity)).2 (by omega)
  · exact Int.ediv_eq_zero_of_lt (by omega) (by omega)

theorem wrapN_eq_toNat (y : Int) (n : Nat) : wrapN y n = (BitVec.ofInt n y).toNat := by
  simp [wrapN, BitVec.toNat_ofInt]

theorem sextN_eq_toInt {n : Nat} (x : BitVec n) : sextN x.toNat n = x.toInt := by
  cases n with
  | zero => simp [sextN, BitVec.eq_nil x]
  | succ m =>
    simp only [sextN, BitVec.toInt_eq_toNat_cond, Nat.mod_eq_of_lt x.isLt]
    simp only [Nat.pow_succ, Nat.add_sub_cancel, Int.pow_succ]
    push_cast
    split <;> split <;> omega

theorem satInt_eq (v : Int) {lo hi : Int} (h : lo ≤ hi) : satInt v lo hi = max lo (min hi v) := by
  unfold satInt
  split
  · omega
  · split <;> omega

/-! ### Bits, one by one -/

theorem getLsbD_eq_testBit {n : Nat} (x : BitVec n) (i : Nat) : x.getLsbD i = x.toNat.testBit i := rfl

theorem length_takeWhile_zeros (n x : Nat) : ((List.range n).takeWhile fun i => !x.testBit i).length = ctzN n x := by
  induction n generalizing x with
  | zero => rfl
  | succ n ih =>
    simp only [List.range_succ_eq_map, List.takeWhile_cons, List.takeWhile_map, ctzN, Nat.testBit_zero, ← ih (x / 2), Function.comp_def,
      Nat.testBit_succ, Nat.succ_eq_add_one]
    by_cases h : x % 2 = 1
    · simp [h]
    · simp [h, Nat.add_comm]

theorem countP_testBit (n x : Nat) : ((List.range n).countP fun i => x.testBit i) = popN n x := by
  induction n generalizing x with
  | zero => rfl
  | succ n ih =>
    simp only [List.range_succ_eq_map, List.countP_cons, List.countP_map, popN, ← ih (x / 2), Function.comp_def, Nat.testBit_zero,
      Nat.testBit_succ, Nat.succ_eq_add_one, decide_eq_true_eq]
    split <;> omega

theorem revN_lt (n x : Nat) : revN n x < 2 ^ n := by
  induction n generalizing x with
  | zero => simp [revN]
  | succ n ih =>
    have hrest := ih (x / 2)
    have hbit : x % 2 * 2 ^ n ≤ 1 * 2 ^ n := Nat.mul_le_mul_right _ (by omega)
    rw [revN, Nat.pow_succ]
    omega

theorem testBit_revN (n x i : Nat) : (revN n x).testBit i = (decide (i < n) && x.testBit (n - 1 - i)) := by
  induction n generalizing x with
  | zero => simp [revN]
  | succ n ih =>
    rw [revN, Nat.mul_comm, Nat.testBit_two_pow_mul_add _ (revN_lt n _), ih, Nat.testBit_div_two]
    rcases lt_trichotomy i n with h | rfl | h
    · simp only [h, if_true, decide_true, Bool.true_and, show i < n + 1 by omega]
      congr 1
      omega
    · simp
    · have hbit : x % 2 < 2 ^ (i - n) := lt_of_lt_of_le (Nat.mod_lt _ (by norm_num)) (Nat.le_self_pow (by omega) 2)
      simp [Nat.not_lt.2 h.le, show ¬ i < n + 1 by omega, Nat.testBit_lt_two_pow hbit]

/-- Where the first `m` numbers below `n` pass and the next one does not, `m` are taken. -/
theorem length_takeWhile_range {p : Nat → Bool} {n m : Nat} (hm : m ≤ n) (hp : ∀ i < m, p i = true) (hend : m < n → p m = false) :
    ((List.range n).takeWhile p).length = m := by
  obtain ⟨k, rfl⟩ := Nat.exists_eq_add_of_le hm
  rw [List.range_add, List.takeWhile_append_of_pos (by simpa using hp)]
  cases k with
  | zero => simp
  | succ k => simp [List.range_succ_eq_map, hend]

theorem length_takeWhile_leading_zeros {n : Nat} (x : BitVec n) :
    ((List.range n).takeWhile fun i => !x.getMsbD i).length = n - (if x.toNat = 0 then 0 else x.toNat.log2 + 1) := by
  apply length_takeWhile_range (Nat.sub_le _ _)
  · intro i hi
    have hlt : x.toNat < 2 ^ (n - 1 - i) := by
      split at hi
      · next h => rw [h]; positivity
      · next h => exact (Nat.log2_lt h).1 (by omega)
    simp [BitVec.getMsbD, getLsbD_eq_testBit, Nat.testBit_lt_two_pow hlt]
  · split
    · simp
    · next h =>
      have hlog := (Nat.log2_lt h).2 x.isLt
      have hplace : n - 1 - (n - (x.toNat.log2 + 1)) = x.toNat.log2 := by omega
      simp [BitVec.getMsbD, getLsbD_eq_testBit, hplace, Nat.testBit_log2 h, show 0 < n by omega]

/-- Bits [pos+len-1:pos] of `x` replaced by the low bits of `y` (R105, R111). -/
theorem testBit_insert (x y pos len i : Nat) : (x - x / 2 ^ pos % 2 ^ len * 2 ^ pos + y % 2 ^ len * 2 ^ pos).testBit i =
    if pos ≤ i ∧ i < pos + len then y.testBit (i - pos) else x.testBit i := by
  have hx : x = 2 ^ pos * (2 ^ len * (x / 2 ^ pos / 2 ^ len) + x / 2 ^ pos % 2 ^ len) + x % 2 ^ pos := by
    rw [Nat.div_add_mod, Nat.div_add_mod]
  have hnew : x - x / 2 ^ pos % 2 ^ len * 2 ^ pos + y % 2 ^ len * 2 ^ pos =
      2 ^ pos * (2 ^ len * (x / 2 ^ pos / 2 ^ len) + y % 2 ^ len) + x % 2 ^ pos := by
    rw [Nat.mul_comm (y % _), Nat.mul_comm (x / 2 ^ pos % _)]
    rw [Nat.mul_add] at hx ⊢
    omega
  rw [hnew, Nat.testBit_two_pow_mul_add _ (Nat.mod_lt _ (by positivity)), Nat.testBit_two_pow_mul_add _ (Nat.mod_lt _ (by positivity))]
  simp only [Nat.testBit_mod_two_pow, Nat.testBit_div_two_pow]
  by_cases hlow : i < pos
  · simp [hlow, Nat.not_le.2 hlow]
  · by_cases hfield : i < pos + len
    · simp [hlow, hfield, Nat.not_lt.1 hlow, show i - pos < len by omega]
    · simp only [hlow, hfield, show ¬ i - pos < len by omega, if_false, and_false]
      congr 1
      omega

theorem ofInt_insert (n x y pos len : Nat) :
    BitVec.ofInt n ((x - x / 2 ^ pos % 2 ^ len * 2 ^ pos + y % 2 ^ len * 2 ^ pos : Nat) : Int) =
      (BitVec.ofNat n x &&& ~~~(BitVec.ofNat n (2 ^ len - 1) <<< pos)) |||
        (BitVec.ofNat n y <<< pos &&& BitVec.ofNat n (2 ^ len - 1) <<< pos) := by
  rw [BitVec.ofInt_natCast]
  apply BitVec.eq_of_getLsbD_eq
  intro i hi
  simp only [BitVec.getLsbD_ofNat, testBit_insert, BitVec.getLsbD_or, BitVec.getLsbD_and, BitVec.getLsbD_not, BitVec.getLsbD_shiftLeft,
    Nat.testBit_two_pow_sub_one, hi, decide_true, Bool.true_and]
  by_cases hlow : i < pos
  · simp [hlow, Nat.not_le.2 hlow]
  · by_cases hfield : i - pos < len
    · simp [hlow, Nat.not_lt.1 hlow, hfield, show i < pos + len by omega, show i - pos < n by omega]
    · simp [hlow, hfield, show ¬ i < pos + len by omega]

/-- A value that fits a field fills no bit outside it. -/
theorem shiftLeft_and_field {n y pos len : Nat} (h : y < 2 ^ len) :
    BitVec.ofNat n y <<< pos &&& BitVec.ofNat n (2 ^ len - 1) <<< pos = BitVec.ofNat n y <<< pos := by
  rw [← BitVec.shiftLeft_and_distrib, ← BitVec.ofNat_and, Nat.and_two_pow_sub_one_eq_mod, Nat.mod_eq_of_lt h]

/-! ### Patterns of operands -/

theorem Strand.pat_lt (t : Strand) (n : Nat) (r : Reg) (j : Nat) : t.pat n r j < 2 ^ n := by
  unfold Strand.pat
  split <;> exact Nat.mod_lt _ (by positivity)

theorem Env.pattern_toNat (e : Env) (r : Reg) (n j : Nat) : (e.pattern r n j).toNat = e.st.pat n r j :=
  Nat.mod_eq_of_lt (e.st.pat_lt n r j)

theorem immPattern_toNat (imm : BitVec 23) (n j : Nat) : (immPattern imm n j).toNat = wrapN imm.toInt n :=
  (wrapN_eq_toNat _ _).symm

end Sys2Proof.Machine
end

section
/-! PROOFS. What the integer words compute, on numbers and on patterns (R98 to R105). -/

namespace Sys2Proof.Machine

/-- `f`, which computes on the numbers of two patterns, gives the pattern that `g` gives. -/
def Agrees (f : Nat → Nat → Nat → Int) (g : Computes) : Prop :=
  ∀ (n : Nat) (x y : BitVec n), BitVec.ofInt n (f n x.toNat y.toNat) = g n x y

/-! ### Sums and products (R98) -/

theorem agrees_add : Agrees fAdd fun _ x y => x + y := fun n x y => by
  rw [fAdd, BitVec.ofInt_add, ofInt_toNat, ofInt_toNat]

theorem agrees_sub : Agrees fSub fun _ x y => x - y := fun n x y => by
  rw [fSub, ofInt_sub, ofInt_toNat, ofInt_toNat]

theorem agrees_scadd (u : Nat) : Agrees (fScadd u) fun _ x y => x + y <<< u := fun n x y => by
  rw [fScadd, BitVec.ofInt_add, ofInt_toNat, ofInt_shiftLeft]

theorem agrees_mul : Agrees fMul fun _ x y => x * y := fun n x y => by
  rw [fMul, BitVec.ofInt_mul, ofInt_toNat, ofInt_toNat]

theorem agrees_mulh : Agrees fMulh fun n x y => (x.signExtend (2 * n) * y.signExtend (2 * n)).extractLsb' n n := fun n x y => by
  rw [fMulh, sextN_eq_toInt, sextN_eq_toInt, ← extract_high_ofInt, BitVec.ofInt_mul]
  rfl

theorem agrees_mulhu : Agrees fMulhu fun n x y => (x.setWidth (2 * n) * y.setWidth (2 * n)).extractLsb' n n := fun n x y => by
  rw [fMulhu, Int.natCast_ediv, Int.natCast_mul, Int.natCast_pow]
  refine (extract_high_ofInt n _).symm.trans ?_
  rw [BitVec.ofInt_mul, BitVec.ofInt_natCast, BitVec.ofInt_natCast, BitVec.ofNat_toNat, BitVec.ofNat_toNat]

/-! ### Quotients and remainders (R99) -/

theorem agrees_div : Agrees fDiv fun n x y => if y = 0 then BitVec.allOnes n else x.sdiv y := fun n x y => by
  simp only [fDiv, toNat_eq_zero_iff, sextN_eq_toInt]
  split
  · exact ofInt_neg_one n
  · apply BitVec.eq_of_toInt_eq
    rw [BitVec.toInt_ofInt, BitVec.toInt_sdiv]

theorem agrees_divu : Agrees fDivu fun n x y => if y = 0 then BitVec.allOnes n else x / y := fun n x y => by
  simp only [fDivu, toNat_eq_zero_iff]
  split
  · exact ofInt_neg_one n
  · rw [← BitVec.toNat_udiv, ofInt_toNat]

theorem agrees_rem : Agrees fRem fun _ x y => if y = 0 then x else x.srem y := fun n x y => by
  simp only [fRem, toNat_eq_zero_iff, sextN_eq_toInt]
  split
  · exact BitVec.ofInt_toInt
  · rw [← BitVec.toInt_srem, BitVec.ofInt_toInt]

theorem agrees_remu : Agrees fRemu fun _ x y => if y = 0 then x else x % y := fun n x y => by
  simp only [fRemu, toNat_eq_zero_iff]
  split
  · exact ofInt_toNat x
  · rw [← BitVec.toNat_umod, ofInt_toNat]

/-! ### Magnitudes, extrema, saturation (R100) -/

theorem agrees_abs : Agrees (fun n x _ => fAbs n x) fun _ x _ => if x.slt 0 then -x else x := fun n x _ => by
  have hneg : x.slt 0 = true ↔ x.toInt < 0 := by simp [BitVec.slt_iff_toInt_lt]
  simp only [fAbs, sextN_eq_toInt, hneg]
  split
  · rw [BitVec.ofInt_neg, BitVec.ofInt_toInt]
  · rw [BitVec.ofInt_toInt]

theorem agrees_min : Agrees fMin fun _ x y => if x.sle y then x else y := fun n x y => by
  simp only [fMin, sextN_eq_toInt, BitVec.sle_iff_toInt_le]
  split <;> exact ofInt_toNat _

theorem agrees_max : Agrees fMax fun _ x y => if y.sle x then x else y := fun n x y => by
  simp only [fMax, sextN_eq_toInt, BitVec.sle_iff_toInt_le, ge_iff_le]
  split <;> exact ofInt_toNat _

theorem agrees_minu : Agrees fMinu fun _ x y => if x ≤ y then x else y := fun n x y => by
  simp only [fMinu, BitVec.le_def]
  split <;> exact ofInt_toNat _

theorem agrees_maxu : Agrees fMaxu fun _ x y => if y ≤ x then x else y := fun n x y => by
  simp only [fMaxu, BitVec.le_def, ge_iff_le]
  split <;> exact ofInt_toNat _

theorem agrees_addsat_unsigned : Agrees (fAddsat true) fun n x y => if 2 ^ n ≤ x.toNat + y.toNat then BitVec.allOnes n else x + y :=
  fun n x y => by
  have hover : (2 ^ n : Int) ≤ x.toNat + y.toNat ↔ 2 ^ n ≤ x.toNat + y.toNat := by exact_mod_cast Iff.rfl
  simp only [fAddsat, if_true, satInt]
  rw [if_neg (by omega)]
  simp only [gt_iff_lt, Int.sub_one_lt_iff, hover]
  split
  · exact ofInt_two_pow_sub_one n
  · exact agrees_add n x y

theorem agrees_subsat_unsigned : Agrees (fSubsat true) fun _ x y => if x ≤ y then 0 else x - y := fun n x y => by
  have hx : (x.toNat : Int) < 2 ^ n := by exact_mod_cast x.isLt
  simp only [fSubsat, if_true, satInt_eq _ (show (0 : Int) ≤ 2 ^ n - 1 by omega), BitVec.le_def]
  rw [min_eq_right (by omega)]
  split
  · rw [max_eq_left (by omega)]; rfl
  · rw [max_eq_right (by omega)]
    exact agrees_sub n x y

theorem satInt_signed (v : Int) (n : Nat) :
    satInt v (-(2 ^ (n - 1))) (2 ^ (n - 1) - 1) = max (-2 ^ (n - 1)) (min (2 ^ (n - 1) - 1) v) := by
  have hpos : (0 : Int) < 2 ^ (n - 1) := by positivity
  exact satInt_eq v (by omega)

theorem agrees_addsat_signed : Agrees (fAddsat false) fun n x y =>
    BitVec.ofInt n (max (-2 ^ (n - 1)) (min (2 ^ (n - 1) - 1) (x.toInt + y.toInt))) := fun n x y => by
  rw [fAddsat, if_neg Bool.false_ne_true, satInt_signed, sextN_eq_toInt, sextN_eq_toInt]

theorem agrees_subsat_signed : Agrees (fSubsat false) fun n x y =>
    BitVec.ofInt n (max (-2 ^ (n - 1)) (min (2 ^ (n - 1) - 1) (x.toInt - y.toInt))) := fun n x y => by
  rw [fSubsat, if_neg Bool.false_ne_true, satInt_signed, sextN_eq_toInt, sextN_eq_toInt]

/-! ### Bitwise functions and shifts (R101, R102) -/

theorem agrees_and : Agrees fAnd fun _ x y => x &&& y := fun n x y => by
  rw [fAnd, ← BitVec.toNat_and, ofInt_toNat]

theorem agrees_or : Agrees fOr fun _ x y => x ||| y := fun n x y => by
  rw [fOr, ← BitVec.toNat_or, ofInt_toNat]

theorem agrees_xor : Agrees fXor fun _ x y => x ^^^ y := fun n x y => by
  rw [fXor, ← BitVec.toNat_xor, ofInt_toNat]

theorem agrees_andn : Agrees fAndn fun _ x y => x &&& ~~~y := fun n x y => by
  rw [fAndn, ← BitVec.toNat_not, ← BitVec.toNat_and, ofInt_toNat]

theorem agrees_orn : Agrees fOrn fun _ x y => x ||| ~~~y := fun n x y => by
  rw [fOrn, ← BitVec.toNat_not, ← BitVec.toNat_or, ofInt_toNat]

theorem agrees_xnor : Agrees fXnor fun _ x y => ~~~(x ^^^ y) := fun n x y => by
  rw [fXnor, ← BitVec.toNat_xor, ← BitVec.toNat_not, ofInt_toNat]

theorem agrees_shl : Agrees fShl fun _ x y => x <<< y.toNat := fun n x y => by
  refine Eq.trans ?_ (ofInt_shiftLeft x y.toNat)
  rw [fShl]
  push_cast
  rfl

theorem agrees_shr : Agrees fShr fun _ x y => x >>> y.toNat := fun n x y => by
  unfold fShr
  split
  · next h => exact (BitVec.ushiftRight_eq_zero h).symm
  · rw [← Nat.shiftRight_eq_div_pow, ← BitVec.toNat_ushiftRight, ofInt_toNat]

theorem agrees_sar : Agrees fSar fun _ x y => x.sshiftRight y.toNat := fun n x y => by
  refine Eq.trans ?_ BitVec.sshiftRight_eq.symm
  rw [fSar, sextN_eq_toInt, Int.shiftRight_eq_div_pow]
  push_cast
  split
  · next h => rw [toInt_ediv_eq_sign x le_rfl, toInt_ediv_eq_sign x (show n - 1 ≤ y.toNat by omega)]
  · rfl

theorem agrees_rotl : Agrees fRotl fun _ x y => x.rotateLeft y.toNat := fun n x y => by
  have hlow : x.toNat / 2 ^ (n - y.toNat % n) < 2 ^ (y.toNat % n) :=
    Nat.div_lt_of_lt_mul (x.isLt.trans_le (by rw [← Nat.pow_add]; exact Nat.pow_le_pow_right (by norm_num) (by omega)))
  refine ofInt_natCast_eq ?_
  rw [BitVec.toNat_rotateLeft, ← Nat.shiftLeft_eq, Nat.shiftLeft_add_eq_or_of_lt hlow, Nat.or_mod_two_pow, ← Nat.shiftRight_eq_div_pow,
    Nat.mod_eq_of_lt ((Nat.shiftRight_le _ _).trans_lt x.isLt)]

/-! ### Counts, reversal, extension, fields (R103 to R105) -/

theorem agrees_clz : Agrees (fun n x _ => fClz n x) fun n x _ =>
    BitVec.ofNat n ((List.range n).takeWhile fun i => !x.getMsbD i).length := fun n x _ => by
  simp only [length_takeWhile_leading_zeros, fClz, BitVec.ofInt_natCast]

theorem agrees_ctz : Agrees (fun n x _ => fCtz n x) fun n x _ =>
    BitVec.ofNat n ((List.range n).takeWhile fun i => !x.getLsbD i).length := fun n x _ => by
  simp only [getLsbD_eq_testBit, length_takeWhile_zeros, fCtz, BitVec.ofInt_natCast]

theorem agrees_popc : Agrees (fun n x _ => fPopc n x) fun n x _ =>
    BitVec.ofNat n ((List.range n).countP fun i => x.getLsbD i) := fun n x _ => by
  simp only [getLsbD_eq_testBit, countP_testBit, fPopc, BitVec.ofInt_natCast]

theorem agrees_brev : Agrees (fun n x _ => fBrev n x) fun _ x _ => x.reverse := fun n x _ => by
  simp only [fBrev, BitVec.ofInt_natCast]
  apply BitVec.eq_of_getLsbD_eq
  intro i hi
  rw [BitVec.getLsbD_reverse, BitVec.getLsbD_ofNat, testBit_revN]
  simp [hi, BitVec.getMsbD, getLsbD_eq_testBit]

theorem agrees_pattern : Agrees (fun _ x _ => x) fun _ x _ => x := fun _ x _ => ofInt_toNat x

theorem agrees_bfx (xs : Bool) (pos len : Nat) : Agrees (fun n x _ => fBfx xs pos len n x) fun n x _ =>
    if xs then (x.extractLsb' pos len).signExtend n else (x.extractLsb' pos len).setWidth n := fun n x _ => by
  have hfield : x.toNat / 2 ^ pos % 2 ^ len = (x.extractLsb' pos len).toNat := by
    rw [BitVec.extractLsb'_toNat, Nat.shiftRight_eq_div_pow]
  simp only [fBfx, hfield, sextN_eq_toInt]
  split
  · rfl
  · rw [BitVec.ofInt_natCast, BitVec.ofNat_toNat]

theorem agrees_bfi (pos len : Nat) : Agrees (fBfi pos len) fun n x y =>
    let ones := BitVec.ofNat n (2 ^ len - 1) <<< pos
    (x &&& ~~~ones) ||| (y <<< pos &&& ones) := fun n x y => by
  have h := ofInt_insert n x.toNat y.toNat pos len
  rwa [BitVec.ofNat_toNat, BitVec.ofNat_toNat, BitVec.setWidth_eq, BitVec.setWidth_eq] at h

end Sys2Proof.Machine
end

section
/-! PROOFS. The integer words that write a result (R92 to R94). -/

namespace Sys2Proof.Machine

theorem extendTo_ofInt (y : Int) (n : Nat) (xs : Bool) (c : Nat) :
    extendTo ((BitVec.ofInt n y).toNat : Int) n xs c = extendTo y n xs c := by
  simp only [extendTo, wrapN_eq_toNat, ofInt_toNat]

/-- Of the integers that a word computes, the strand holds the patterns (R92). -/
theorem writeInt_eq_intStrand {e : Env} {i : Instr} {w : Width} {xs : Bool} {d : Reg} {y : (n : Nat) → Nat → BitVec n} {f : Nat → Int}
    (h : ∀ j, BitVec.ofInt (w.bits (isLane e.st.latch.cls i)) (f j) = y (w.bits (isLane e.st.latch.cls i)) j) :
    e.writeInt (isLane e.st.latch.cls i) d (w.bits (isLane e.st.latch.cls i)) xs f = e.intStrand i w xs d y := by
  simp only [Env.intStrand, Env.writeInt, ← h, extendTo_ofInt]

/-- Once its sequencing raises nothing, exec ends the word with the strand `t`, where sequencing puts it. -/
def Leaves (s : State) (e : Env) (i : Instr) (t : Strand) : Prop :=
  ∀ out, e.sequence (e.put s t) t = .ok out → exec i s = .next (e.finish out.1 i out.2)

theorem leaves_of_regOp {s : State} {e : Env} {k : Ctl} {i : Instr} {f : Env → Strand} {t : Strand} (h : Issues s i k e)
    (hx : exec i s = runWord i k (regOp f) s) (hf : f e = t) : Leaves s e i t :=
  fun out ho => hx.trans (runWord_register h hf out ho)

theorem Agrees.at_pattern {f : Nat → Nat → Nat → Int} {g : Computes} (hf : Agrees f g) (e : Env) (a b : Reg) (n j : Nat) :
    BitVec.ofInt n (f n (e.st.pat n a j) (e.st.pat n b j)) = g n (e.pattern a n j) (e.pattern b n j) := by
  rw [← hf, e.pattern_toNat, e.pattern_toNat]

theorem Agrees.at_immPattern {f : Nat → Nat → Nat → Int} {g : Computes} (hf : Agrees f g) (e : Env) (a : Reg) (imm : BitVec 23)
    (n j : Nat) : BitVec.ofInt n (f n (e.st.pat n a j) (wrapN imm.toInt n)) = g n (e.pattern a n j) (immPattern imm n j) := by
  rw [← hf, e.pattern_toNat, immPattern_toNat]

section
variable {s : State} {e : Env} {k : Ctl} {d a b : Reg} {m : IntMod} {imm : BitVec 23} {r : Instr × Computes}
  {f : Nat → Nat → Nat → Int}

/-- Form R. A word of one source is one of two whose second source does not matter. -/
theorem intBin_leaves (hf : Agrees f r.2) (hx : exec r.1 s = runWord r.1 k (intBin (laneFor r.1) d a b m f) s) (h : Issues s r.1 k e) :
    Leaves s e r.1 (e.intStrand r.1 m.w m.xs d fun n j => r.2 n (e.pattern a n j) (e.pattern b n j)) :=
  leaves_of_regOp h hx (writeInt_eq_intStrand (hf.at_pattern e a b _))

/-- Form I, whose width is the full one. -/
theorem intImm_leaves (hf : Agrees f r.2) (hx : exec r.1 s = runWord r.1 k (intImm (laneFor r.1) d a imm f) s) (h : Issues s r.1 k e) :
    Leaves s e r.1 (e.intStrand r.1 .full false d fun n j => r.2 n (e.pattern a n j) (immPattern imm n j)) :=
  leaves_of_regOp h hx (writeInt_eq_intStrand (w := .full) (hf.at_immPattern e a imm _))

end

/-- Settles O1: each row by what its word computes on patterns. -/
theorem arithmeticWordsWriteTheirResult : Obligations.arithmetic_words_write_their_result := by
  intro s e k d a b m u imm
  exact ⟨List.forall_iff_forall_mem.1 ⟨intBin_leaves agrees_add rfl, intBin_leaves agrees_sub rfl, intBin_leaves (agrees_scadd u.val) rfl,
      intBin_leaves agrees_mul rfl, intBin_leaves agrees_mulh rfl, intBin_leaves agrees_mulhu rfl, intBin_leaves (b := b) agrees_abs rfl,
      intBin_leaves agrees_min rfl, intBin_leaves agrees_max rfl, intBin_leaves agrees_minu rfl, intBin_leaves agrees_maxu rfl,
      intBin_leaves agrees_addsat_unsigned rfl, intBin_leaves agrees_addsat_signed rfl, intBin_leaves agrees_subsat_unsigned rfl,
      intBin_leaves agrees_subsat_signed rfl⟩,
    List.forall_iff_forall_mem.1 ⟨intImm_leaves agrees_add rfl, intImm_leaves agrees_mul rfl, intImm_leaves agrees_min rfl,
      intImm_leaves agrees_max rfl, intImm_leaves agrees_minu rfl, intImm_leaves agrees_maxu rfl⟩⟩

/-- Settles O2: each row by what its word computes on patterns. -/
theorem logicAndShiftWordsWriteTheirResult : Obligations.logic_and_shift_words_write_their_result := by
  intro s e k d a b m imm
  exact ⟨List.forall_iff_forall_mem.1 ⟨intBin_leaves agrees_and rfl, intBin_leaves agrees_or rfl, intBin_leaves agrees_xor rfl,
      intBin_leaves agrees_andn rfl, intBin_leaves agrees_orn rfl, intBin_leaves agrees_xnor rfl, intBin_leaves agrees_shl rfl,
      intBin_leaves agrees_shr rfl, intBin_leaves agrees_sar rfl, intBin_leaves agrees_rotl rfl⟩,
    List.forall_iff_forall_mem.1 ⟨intImm_leaves agrees_and rfl, intImm_leaves agrees_or rfl, intImm_leaves agrees_xor rfl,
      intImm_leaves agrees_shl rfl, intImm_leaves agrees_shr rfl, intImm_leaves agrees_sar rfl, intImm_leaves agrees_rotl rfl⟩⟩

/-- Settles O3: each row by what its word computes on patterns. SEXT and ZEXT compute the pattern itself and extend it as XS would. -/
theorem bitCountAndFieldWordsWriteTheirResult : Obligations.bit_count_and_field_words_write_their_result := by
  intro s e k d a b m pos lenm
  exact ⟨List.forall_iff_forall_mem.1 ⟨intBin_leaves (b := b) agrees_clz rfl, intBin_leaves (b := b) agrees_ctz rfl,
      intBin_leaves (b := b) agrees_popc rfl, intBin_leaves (b := b) agrees_brev rfl,
      intBin_leaves (b := b) (agrees_bfx m.xs pos.val (lenm.val + 1)) rfl, intBin_leaves (agrees_bfi pos.val (lenm.val + 1)) rfl⟩,
    List.forall_iff_forall_mem.1 ⟨
      intBin_leaves (b := b) (m := ⟨m.w, true⟩) (r := (.sext k d a m.w, fun _ x _ => x)) agrees_pattern rfl,
      intBin_leaves (b := b) (m := ⟨m.w, false⟩) (r := (.zext k d a m.w, fun _ x _ => x)) agrees_pattern rfl⟩⟩

/-- Settles O4: each row by what its word computes on patterns. -/
theorem divisionWordsWriteTheirResult : Obligations.division_words_write_their_result := by
  intro s e k d a b m
  exact List.forall_iff_forall_mem.1 ⟨intBin_leaves agrees_div rfl, intBin_leaves agrees_divu rfl, intBin_leaves agrees_rem rfl,
    intBin_leaves agrees_remu rfl⟩

end Sys2Proof.Machine
end

section
/-! PROOFS. The words that write conditions and predicates (R89, R107, R112, R113). -/

namespace Sys2Proof.Machine

/-- Table 3.4 on patterns of `n` bits. -/
def condition : CmpCc → (n : Nat) → BitVec n → BitVec n → Bool
  | .eq, _, x, y => x = y
  | .ne, _, x, y => x ≠ y
  | .lt, _, x, y => x.slt y
  | .ge, _, x, y => y.sle x
  | .ltu, _, x, y => x < y
  | .geu, _, x, y => y ≤ x
  | .le, _, x, y => x.sle y
  | .gt, _, x, y => y.slt x
  | .leu, _, x, y => x ≤ y
  | .gtu, _, x, y => y < x
  | .any, _, x, y => x &&& y ≠ 0
  | .none, _, x, y => x &&& y = 0

theorem cmpHolds_eq_condition (cc : CmpCc) (n : Nat) (x y : BitVec n) : cmpHolds cc n x.toNat y.toNat = condition cc n x y := by
  have hzero : x.toNat &&& y.toNat = 0 ↔ x &&& y = 0 := by rw [← BitVec.toNat_and, toNat_eq_zero_iff]
  cases cc
  case eq | ne => simp [cmpHolds, condition, BitVec.toNat_inj]
  case lt | gt => simp [cmpHolds, condition, sextN_eq_toInt, BitVec.slt]
  case le | ge => simp [cmpHolds, condition, sextN_eq_toInt, BitVec.sle]
  case ltu | gtu | leu | geu => rfl
  case any | none => simp only [cmpHolds, condition, ne_eq, hzero]

/-- What CMP leaves, in its lane-wise and in its scalar shape (R107). -/
theorem writeCond_eq {e : Env} {l : Bool} {d : Reg} {n : Nat} {f holds : Nat → Bool} {t : Strand} (hf : ∀ j, f j = holds j)
    (hlane : l = true → t = e.st.putP d (maskOf ((List.range 64).map fun i =>
      let j := if n = 64 then i / 2 else i
      if e.lanes.getLsbD (if n = 64 then 2 * j else j) then holds j else (e.st.priorP d).getLsbD i)))
    (hscalar : l = false → t = e.st.putCond d (holds 0)) : e.writeCond l d n f = t := by
  obtain rfl : f = holds := funext hf
  cases l
  case false => exact (hscalar rfl).symm
  case true =>
    rw [hlane rfl]
    simp only [Env.writeCond, if_true, laneEnabled, decide_eq_true_eq]
    rfl

/-- Settles O5: the condition by `cmpHolds_eq_condition`, what it leaves by `writeCond_eq`. -/
theorem compareWordsWriteTheirCondition : Obligations.compare_words_write_their_condition := by
  intro s e k d a b w imm c hc
  have htable : c.2 = condition c.1 := by
    revert c
    exact List.forall_iff_forall_mem.1 ⟨rfl, rfl, rfl, rfl, rfl, rfl, rfl, rfl, rfl, rfl, rfl, rfl⟩
  have hreg : ∀ n j, cmpHolds c.1 n (e.st.pat n a j) (e.st.pat n b j) = c.2 n (e.pattern a n j) (e.pattern b n j) := fun n j => by
    rw [htable, ← cmpHolds_eq_condition, e.pattern_toNat, e.pattern_toNat]
  have himm : ∀ n j, cmpHolds c.1 n (e.st.pat n a j) (wrapN imm.toInt n) = c.2 n (e.pattern a n j) (immPattern imm n j) := fun n j => by
    rw [htable, ← cmpHolds_eq_condition, e.pattern_toNat, immPattern_toNat]
  exact List.forall_iff_forall_mem.1 ⟨
    fun h => leaves_of_regOp h rfl (writeCond_eq (hreg _) (fun hl => if_pos hl)
      fun hl => (if_neg (ne_true_of_eq_false hl)).trans (by cases d <;> rfl)),
    fun h => leaves_of_regOp h rfl (writeCond_eq (himm _) (fun hl => if_pos hl)
      fun hl => (if_neg (ne_true_of_eq_false hl)).trans (by cases d <;> rfl))⟩

theorem Strand.pred1_getLsbD (t : Strand) (r : Option Reg) (j : Nat) :
    (t.pred1 r).getLsbD j = (r.map fun x => (t.pred x).getLsbD j).getD (decide (j < 64)) := by
  cases r with
  | none => exact BitVec.getLsbD_allOnes
  | some x => rfl

theorem Strand.mask_eq (t : Strand) (r : Option Reg) : t.mask r = (r.map t.scalar).getD (BitVec.allOnes 64) := by
  cases r <;> rfl

/-- The place in PLOG's truth table, k = 4a + 2b + c (R112). -/
theorem plog_index : ∀ x y z : Bool,
    (if x then 4 else 0) + (if y then 2 else 0) + (if z then 1 else 0) = 4 * x.toNat + 2 * y.toNat + z.toNat := by
  decide

/-- Settles O7: the operands by `pred1_getLsbD` and `mask_eq`, the count by `countP_testBit`. -/
theorem predicateWordsWriteTheirResult : Obligations.predicate_words_write_their_result := by
  intro s e k d a b pa pb pc tt mask bitOf asCond
  have hcond : ∀ c, e.st.putCond d c = asCond c := fun c => by cases d <;> rfl
  have hmask : ∀ r, e.st.mask r = mask r := e.st.mask_eq
  have hbit : ∀ r j, (e.st.pred1 r).getLsbD j = bitOf r j := e.st.pred1_getLsbD
  refine List.forall_iff_forall_mem.1 ⟨fun h => ?plog, fun h => ?pany, fun h => ?pall, fun h => ?pcount⟩
  case plog =>
    refine leaves_of_regOp h rfl ?_
    simp only [hbit, plog_index]
    rfl
  case pany => exact leaves_of_regOp h rfl (by rw [hcond, hmask, hmask]; rfl)
  case pall => exact leaves_of_regOp h rfl (by rw [hcond, hmask, hmask]; rfl)
  case pcount => exact leaves_of_regOp h rfl (by rw [← countP_testBit, hmask, hmask]; rfl)

end Sys2Proof.Machine
end

section
/-! PROOFS. SEL, MOVW and MOV (R108 to R111), and a MOV of operands that no row of Table 3.5 has. -/

namespace Sys2Proof.Machine

section
variable {s : State} {e : Env} {k : Ctl} {d a b c : Reg} {w64 : Bool}

theorem ofInt_choice {n j : Nat} (x : Bool) :
    BitVec.ofInt n (if x then (e.st.pat n a j : Int) else e.st.pat n b j) = if x then e.pattern a n j else e.pattern b n j := by
  cases x <;> rfl

/-- SEL (R108). -/
theorem sel_leaves {m : IntMod} (h : Issues s (.sel k d a b c m) k e) :
    Leaves s e (.sel k d a b c m) (e.intStrand (.sel k d a b c m) m.w m.xs d fun n j =>
      if (e.st.pred c).getLsbD (if isLane e.st.latch.cls (.sel k d a b c m) && n = 64 then 2 * j else j) then e.pattern a n j
      else e.pattern b n j) :=
  leaves_of_regOp h rfl (writeInt_eq_intStrand (w := m.w) fun j => ofInt_choice
    (laneEnabled (e.st.pred c) (isLane e.st.latch.cls (.sel k d a b c m) && m.w.bits (isLane e.st.latch.cls (.sel k d a b c m)) = 64) j))

/-- MOV form I (R110). -/
theorem movI_leaves {imm : BitVec 23} (h : Issues s (.movI k d imm) k e) :
    Leaves s e (.movI k d imm) (e.intStrand (.movI k d imm) .full false d fun n _ => imm.signExtend n) :=
  leaves_of_regOp h rfl (writeInt_eq_intStrand (w := .full) fun _ => rfl)

theorem ofInt_insert_halfword (n old pos : Nat) (chunk : BitVec 16) :
    BitVec.ofInt n ((old - old / 2 ^ pos % 65536 * 2 ^ pos + chunk.toNat * 2 ^ pos : Nat) : Int) =
      (BitVec.ofNat n old &&& ~~~(BitVec.ofNat n 0xFFFF <<< pos)) ||| (chunk.setWidth n <<< pos) := by
  have h := ofInt_insert n old chunk.toNat pos 16
  rwa [shiftLeft_and_field chunk.isLt, Nat.mod_eq_of_lt chunk.isLt, BitVec.ofNat_toNat] at h

/-- MOVW (R111). -/
theorem movw_leaves {hw : Fin 4} {chunk : BitVec 16} (h : Issues s (.movw k d hw chunk) k e) :
    Leaves s e (.movw k d hw chunk) (e.intStrand (.movw k d hw chunk) .full false d fun n j =>
      let old := if hw = 0 then 0 else BitVec.ofNat n (e.st.oldElem (isLane e.st.latch.cls (.movw k d hw chunk)) d j)
      (old &&& ~~~(BitVec.ofNat n 0xFFFF <<< (16 * hw.val))) ||| (chunk.setWidth n <<< (16 * hw.val))) := by
  have hold : ∀ n x, BitVec.ofNat n (if hw.val = 0 then 0 else x) = if hw = 0 then 0 else BitVec.ofNat n x := fun n x => by
    simp only [Fin.val_eq_zero_iff, apply_ite (BitVec.ofNat n)]
    rfl
  refine leaves_of_regOp h rfl (writeInt_eq_intStrand (w := .full) fun j => ?_)
  rw [← hold]
  exact ofInt_insert_halfword _ _ _ chunk

/-! MOV form R, row by row of Table 3.5 (R109). -/

theorem movR_scalar_leaves (h : Issues s (.movR k d a w64) k e) (hp : movPred e.st.latch.cls d a = false)
    (hv : movW64 e.st.latch.cls d a = false) : Leaves s e (.movR k d a w64) (e.st.putS d (e.st.scalar a)) :=
  leaves_of_regOp h rfl (by simp [hp, hv])

theorem movR_vector_leaves (h : Issues s (.movR k d a w64) k e) (hp : movPred e.st.latch.cls d a = false)
    (hv : movW64 e.st.latch.cls d a = true) : Leaves s e (.movR k d a w64) (e.writeInt true d (if w64 then 64 else 32) false fun j =>
      ((e.pattern a (if w64 then 64 else 32) j).toNat : Int)) :=
  leaves_of_regOp h rfl (by simp [hp, hv, e.pattern_toNat])

/-- Of a handle, which no row of Table 3.5 moves to a predicate, exec copies no bit. -/
theorem movR_pred_leaves (h : Issues s (.movR k d a w64) k e) (hp : movPred e.st.latch.cls d a = true) (ha : a.isH = false) :
    Leaves s e (.movR k d a w64) (e.st.putP d (maskOf ((List.range 64).map fun j =>
      if e.lanes.getLsbD j then (e.st.scalar a).getLsbD j else (e.st.priorP d).getLsbD j))) := by
  refine leaves_of_regOp h rfl ?_
  cases a with
  | h n => cases ha
  | _ => simp only [hp, if_true]; rfl

end

/-- A MOV of a predicate to a vector register: a pair of classes that no row of Table 3.5 has. -/
def strayMove : Instr := .movR noCtl (.v 0) (.p 0) false

theorem strayMove_not_wellFormed (lc : LCls) : WellFormed lc strayMove = false := by cases lc <;> rfl

/-- A probe (log 19), and where its next word runs. -/
def strayState : State := State.reset.placeWord (encodeWord strayMove)

def strayEnv : Env :=
  { k := 0, u := 1, sl := { uid := 1, turned := true }, st := probeStrand, pn := 0, p := probePart, ta := probeTask
    w := encodeWord strayMove, ctl := noCtl, cond := true, lane := false }

theorem strayMove_issues : Issues strayState strayMove noCtl strayEnv :=
  ⟨rfl, by decide +kernel, by decide +kernel, rfl, rfl⟩

/-- What exec writes: a scalar, to L alone. -/
def strayScalar : Strand := strayEnv.st.putS (.v 0) (strayEnv.st.scalar (.p 0))

/-- What the statement says of every MOV to a vector register: a vector. -/
def strayVector : Strand := strayEnv.writeInt true (.v 0) 32 false fun j => ((strayEnv.pattern (.p 0) 32 j).toNat : Int)

theorem strayEnv_sequence {t : Strand} (h : t.widx ≠ lenOf t.header) :
    strayEnv.sequence (strayEnv.put strayState t) t = .ok (strayEnv.put strayState t, { t with widx := t.widx + 1 }) :=
  (sequence_next rfl).trans (if_neg h)

/-- Refutes O6, by the row of MOV form R alone: nothing there says that a row of Table 3.5 has the classes of D and A. Decoding refuses
a MOV of a predicate to a vector register (`strayMove_not_wellFormed`), but exec answers it as a MOV of a scalar, which leaves L a scalar,
and the statement has L hold a vector. SEL, MOV form I and MOVW hold as they stand (`sel_leaves`, `movI_leaves`, `movw_leaves`), and so
does MOV form R in each row of the table (`movR_scalar_leaves`, `movR_vector_leaves`, `movR_pred_leaves`). -/
theorem not_movesAndSelectionsWriteTheirResult : ¬ Obligations.moves_and_selections_write_their_result := by
  intro h
  obtain ⟨-, hmov, -, -⟩ := h strayState strayEnv noCtl (.v 0) (.p 0) (.s 0) (.s 0) ⟨.full, false⟩ false 0 0 0
  have hstated := hmov strayMove_issues strayVector rfl _ (strayEnv_sequence (by decide))
  have hactual := movR_scalar_leaves strayMove_issues rfl rfl _ (strayEnv_sequence (t := strayScalar) (by decide))
  obtain ⟨f, hf⟩ := finish_strand strayEnv (strayEnv.put strayState strayVector) strayMove { strayVector with widx := 2 }
  obtain ⟨g, hg⟩ := finish_strand strayEnv (strayEnv.put strayState strayScalar) strayMove { strayScalar with widx := 2 }
  have hsame := Host.Outcome.next.inj (hstated.symm.trans hactual)
  have hstrand := Option.some.inj ((hf.symm.trans (congrArg (fun x => tget x.strands strayEnv.u) hsame)).trans hg)
  have hcls : LCls.vector = LCls.scalar := congrArg (fun t => t.latch.cls) hstrand
  cases hcls

end Sys2Proof.Machine
end

section
/-! PROOFS. What a write to memory leaves: the canonical form, and the entries of every store buffer (R119, R130). -/

namespace Sys2Proof.Machine

-- Proofs are elaborated one after another, as the tests are: the whole text has to fit the check's memory.
set_option Elab.async false

/-- The memory of a state has its canonical form (log 3). -/
structure Canonical (s : State) : Prop where
  wf : Mem.wf s.mem = true

/-- What the store buffer of each slot that holds a strand has posted. -/
def State.bufOf (s : State) (k : Nat) : Option (List StoreEntry) := (tget s.slots k).map (·.buf)

/-- From `s` to `t` no store buffer changes, and memory keeps its canonical form. -/
structure Quiet (s t : State) : Prop where
  canonical : Canonical s → Canonical t
  buf : t.bufOf = s.bufOf

namespace Quiet

theorem refl (s : State) : Quiet s s := ⟨id, rfl⟩

theorem trans {a b c : State} (h : Quiet a b) (g : Quiet b c) : Quiet a c := ⟨g.1 ∘ h.1, g.2.trans h.2⟩

section
variable {s t u : State}

/-- A change of other fields. -/
theorem same (h : Quiet s t) (hm : u.mem = t.mem := by rfl) (hs : u.slots = t.slots := by rfl) : Quiet s u :=
  ⟨fun hc => ⟨hm ▸ (h.canonical hc).wf⟩, by rw [← h.buf]; funext k; rw [State.bufOf, hs, State.bufOf]⟩

theorem setStrand {u : Nat} {x : Strand} (h : Quiet s t) : Quiet s (t.setStrand u x) := h.same rfl rfl
theorem modStrand {u : Nat} {f : Strand → Strand} (h : Quiet s t) : Quiet s (t.modStrand u f) := h.same rfl rfl
theorem setTask {n : Nat} {x : Task} (h : Quiet s t) : Quiet s (t.setTask n x) := h.same rfl rfl
theorem setPart {n : Nat} {x : Partition} (h : Quiet s t) : Quiet s (t.setPart n x) := h.same rfl rfl
theorem modPart {n : Nat} {f : Partition → Partition} (h : Quiet s t) : Quiet s (t.modPart n f) := h.same rfl rfl
theorem setCore {n : Nat} {x : Core} (h : Quiet s t) : Quiet s (t.setCore n x) := h.same rfl rfl
theorem modCore {n : Nat} {f : Core → Core} (h : Quiet s t) : Quiet s (t.modCore n f) := h.same rfl rfl
theorem modTile {n : Nat} {f : Tile → Tile} (h : Quiet s t) : Quiet s (t.modTile n f) := h.same rfl rfl
theorem setField {n : Nat} {x : Field} (h : Quiet s t) : Quiet s (t.setField n x) := h.same rfl rfl
theorem modField {n : Nat} {f : Field → Field} (h : Quiet s t) : Quiet s (t.modField n f) := h.same rfl rfl
theorem postAt {d : Nat} {i : Instr} (h : Quiet s t) : Quiet s (t.postAt d i) := h.same rfl rfl
theorem setPoison {pa : Nat} (h : Quiet s t) : Quiet s (t.setPoison pa) := h.same rfl rfl
theorem dropRdc {f : Nat} {va : Word} {ctx : Nat} (h : Quiet s t) : Quiet s (t.dropRdc f va ctx) := h.same rfl rfl

theorem foldl {α : Type} {f : State → α → State} (hf : ∀ x a, Quiet s x → Quiet s (f x a)) {l : List α} (h : Quiet s t) :
    Quiet s (l.foldl f t) := by
  induction l generalizing t with
  | nil => exact h
  | cons a l ih => exact ih (hf t a h)

theorem modSlot {k : Nat} {f : Slot → Slot} (h : Quiet s t) (hf : ∀ x, (f x).buf = x.buf := by exact fun _ => rfl) : Quiet s (t.modSlot k f) := by
  refine h.trans ⟨fun h => ⟨h.wf⟩, funext fun j => ?_⟩
  unfold State.bufOf State.modSlot
  rw [tget_tmod]
  split
  · next hj =>
    subst hj
    simp [Option.map_map, Function.comp_def, hf]
  · rfl

theorem setSlot {k : Nat} {sl x : Slot} (h : Quiet s t) (hs : tget t.slots k = some sl) (hx : x.buf = sl.buf := by rfl) : Quiet s (t.setSlot k x) := by
  refine h.trans ⟨fun h => ⟨h.wf⟩, funext fun j => ?_⟩
  unfold State.bufOf State.setSlot
  rw [tget_tput]
  split
  · next hj =>
    subst hj
    simp [hs, hx]
  · rfl

theorem putAt {pa : Nat} {bs : List Byte} (h : Quiet s t) : Quiet s (t.putAt pa bs) :=
  h.trans ⟨fun h => ⟨t.putAt_wf h.wf pa bs⟩, rfl⟩

theorem putDw {pa : Nat} {w : Word} (h : Quiet s t) : Quiet s (t.putDw pa w) := h.putAt

theorem postOnce {i : Instr} (h : Quiet s t) : Quiet s (t.postOnce i) := h.same (by simp) (by simp)

theorem postSlot {k : Nat} (h : Quiet s t) : Quiet s (t.postSlot k) := h.same (by simp) (by simp)

theorem postAll {l : List Instr} (h : Quiet s t) : Quiet s (t.postAll l) := by
  induction l generalizing t with
  | nil => exact h
  | cons i l ih => exact ih h.postOnce

/-! #### Records and ready queues -/

theorem restat {u : Nat} (h : Quiet s t) : Quiet s (t.restat u) := by
  unfold State.restat
  split
  · exact h
  · split
    · exact h.same
    · exact h.setStrand.putDw.putDw.putDw

theorem relink {l : List Nat} (h : Quiet s t) : Quiet s (t.relink l) := by
  induction l generalizing t with
  | nil => exact h
  | cons u l ih =>
    refine ih ?_
    split
    · exact h.putDw
    · exact h

theorem toReady {u tile : Nat} (h : Quiet s t) : Quiet s (t.toReady u tile) := by
  unfold State.toReady
  split
  · exact h
  · exact h.postAt.postAt.postAt.setStrand.restat.modTile.relink.postOnce

theorem queueRecords {l : List Nat} (h : Quiet s t) : Quiet s (t.queueRecords l) := by
  induction l generalizing t with
  | nil => exact h
  | cons u l ih =>
    refine ih ?_
    split
    · split
      · exact h.toReady
      · exact h
    · exact h

theorem queueTogether (h : Quiet s t) : Quiet s t.queueTogether := by
  unfold State.queueTogether
  split
  · exact h
  · exact h.same.queueRecords

theorem makeReady {u : Nat} (h : Quiet s t) : Quiet s (t.makeReady u) := by
  unfold State.makeReady
  split
  · exact h
  · simp only
    split
    · split
      · exact h.same
      · exact h.setStrand.modPart.modSlot.postSlot.queueTogether
    · exact h.setStrand.toReady
    · exact h

theorem wakeAll {l : List Monitor} (h : Quiet s t) : Quiet s (t.wakeAll l) := by
  induction l generalizing t with
  | nil => exact h
  | cons m l ih => exact ih h.modStrand.makeReady

/-! #### Writes at home slices -/

theorem orphanTrees {x : State} (h : Quiet s t) : Quiet s (x.orphanTrees t) := by
  unfold State.orphanTrees
  simp only
  split
  · exact h.same
  · exact h.same

theorem slicePut {pa : Nat} {bs : List Byte} (h : Quiet s t) : Quiet s (t.slicePut pa bs) := by
  unfold State.slicePut
  split
  · exact h.putAt
  · simp only
    split
    · exact h.putAt.orphanTrees
    · exact h.putAt.orphanTrees.modField.wakeAll

theorem sliceDw {pa : Nat} {w : Word} (h : Quiet s t) : Quiet s (t.sliceDw pa w) := h.slicePut

theorem noticeQueues {pa : Nat} {v : Word} (h : Quiet s t) : Quiet s (t.noticeQueues pa v) := by
  unfold State.noticeQueues
  exact foldl (fun _ _ h => h.same.postOnce) (foldl (fun _ _ h => h.postOnce) (foldl (fun _ _ h => h.same) h))

theorem noticeEgress {pa : Nat} (h : Quiet s t) : Quiet s (t.noticeEgress pa) := h.postAll

theorem counterAdd {pa : Nat} {d : Word} (h : Quiet s t) : Quiet s (t.counterAdd pa d) := by
  have hsweep : ∀ (x : State) (c : Prop) [Decidable c] (i : Instr), Quiet s x → Quiet s (if c then x else x.postOnce i) := by
    intro x c _ i hx
    split
    · exact hx
    · exact hx.postOnce
  unfold State.counterAdd
  split
  · exact h
  · refine (noticeQueues ?_).noticeEgress
    split
    · split
      · exact (hsweep _ _ _ h.sliceDw).postOnce
      · exact hsweep _ _ _ h.sliceDw
    · exact hsweep _ _ _ h.sliceDw

theorem touchL2 {pa ctx : Nat} (h : Quiet s t) : Quiet s (t.touchL2 pa ctx) := by
  unfold State.touchL2
  split
  · exact h
  · simp only
    split
    · exact h.setField
    · split
      · exact h
      · exact h.setField

theorem addAt {ctx pa : Nat} {d : Word} (h : Quiet s t) : Quiet s (t.addAt ctx pa d) := h.touchL2.counterAdd

theorem noteFault {n : Nat} {r : Vector Word 7} (h : Quiet s t) : Quiet s (t.noteFault n r) := by
  unfold State.noteFault
  split
  · exact h
  · split
    · exact h.setTask.postOnce
    · exact h.setTask

/-! #### Places -/

theorem findLeaf {p : Partition} {f : Nat} {r : Req} {x : State × Word × Bool × Nat} (h : Quiet s t) (hx : t.findLeaf p f r = .ok x) :
    Quiet s x.1 := by
  unfold State.findLeaf at hx
  simp only at hx
  split at hx
  · obtain rfl := Except.ok.inj hx
    exact h
  · split at hx
    · cases hx
    · cases hx
    · cases hx
    · split at hx
      · obtain rfl := Except.ok.inj hx
        exact h.setField
      · cases hx

theorem touchLeaf {f slot : Nat} {e : Word} {acc : Acc} (h : Quiet s t) : Quiet s (t.touchLeaf f slot e acc).1 := by
  have hput : ∀ (c : Prop) [Decidable c] (w : Word), Quiet s (if c then t else t.sliceDw slot w) := by
    intro c _ w
    split
    · exact h
    · exact h.sliceDw
  unfold State.touchLeaf
  simp only
  split
  all_goals
    split
    · exact h
    · dsimp only
      exact modField (hput _ _)

theorem postDev {part : Nat} {d : DevOp} (h : Quiet s t) : Quiet s (t.postDev part d) := by
  unfold State.postDev
  split
  · exact h
  · exact h.setPart.postOnce

theorem recordDirty {part ctx : Nat} {page : Word × Bool} (h : Quiet s t) : Quiet s (t.recordDirty part ctx page) := by
  unfold State.recordDirty
  split
  · exact h
  · split
    · exact h
    · exact h.postDev

theorem translateAt {f : Nat} {r : Req} {x : State × Nat × Option (Word × Bool)} (h : Quiet s t) (hx : t.translateAt f r = .ok x) :
    Quiet s x.1 := by
  unfold State.translateAt at hx
  split at hx
  · cases hx
  · split at hx
    · cases hx
    · split at hx
      · cases hx
      · next hl =>
        split at hx
        · cases hx
        · obtain rfl := Except.ok.inj hx
          exact (h.findLeaf hl).touchLeaf

theorem translate {f : Nat} {r : Req} {x : State × Nat} (h : Quiet s t) (hx : t.translate f r = .ok x) : Quiet s x.1 := by
  unfold State.translate at hx
  split at hx
  · cases hx
  · next ht =>
    obtain rfl := Except.ok.inj hx
    exact h.translateAt ht
  · next ht =>
    obtain rfl := Except.ok.inj hx
    exact (h.translateAt ht).recordDirty

theorem place {user : Bool} {r : Req} {x : State × Nat} (h : Quiet s t) (hx : t.place user r = .ok x) : Quiet s x.1 := by
  unfold State.place at hx
  split at hx
  · cases hx
  · split at hx
    · cases hx
    · obtain rfl := Except.ok.inj hx
      exact h
    · exact h.translate hx

theorem devPlace {part ctx : Nat} {va : Word} {acc : Acc} {x : State × Nat} (h : Quiet s t) (hx : t.devPlace part ctx va acc = some x) :
    Quiet s x.1 := by
  unfold State.devPlace at hx
  split at hx
  · cases hx
  · split at hx
    · next hp =>
      obtain rfl := Option.some.inj hx
      exact h.place hp
    · cases hx

theorem devPut {part ctx : Nat} {va : Word} {bs : List Byte} (h : Quiet s t) : Quiet s (t.devPut part ctx va bs) := by
  have hput : ∀ (x : State) (a : Word) (l : List Byte), Quiet s x → Quiet s (match x.devPlace part ctx a .write with
      | some (s1, pa) => s1.slicePut pa l
      | none => x) := by
    intro x a l hx
    split
    · next hp => exact (hx.devPlace hp).slicePut
    · exact hx
  unfold State.devPut
  simp only
  split
  · exact hput _ _ _ h
  · exact hput _ _ _ (hput _ _ _ h)

/-! #### The undo log, lines and the store buffer -/

theorem undoLogWith {w : Writer} {va : Word} {pre : List Byte} {marks : List Nat} (h : Quiet s t)
    (hu : t.undoLogWith w va pre marks = some (some u)) : Quiet s u := by
  unfold State.undoLogWith at hu
  split at hu
  · cases hu
  · split at hu
    · cases hu
    · split at hu
      · cases hu
      · split at hu
        · cases hu
        · obtain rfl := Option.some.inj (Option.some.inj hu)
          refine foldl (fun x i hx => ?_) h.devPut.setTask
          split
          · next hp => exact (hx.devPlace hp).setPoison
          · exact hx

theorem undoLog {w : Writer} {va : Word} {pa : Nat} (h : Quiet s t) (hu : t.undoLog w va pa = some (some u)) : Quiet s u :=
  h.undoLogWith hu

theorem logFull {w : Writer} (h : Quiet s t) : Quiet s (t.logFull w) := by
  unfold State.logFull
  split
  · exact h.noteFault
  · exact h

theorem homeWrite {w : Writer} {va : Word} {pa : Nat} {bs : List Byte} (h : Quiet s t) : Quiet s (t.homeWrite w va pa bs) := by
  unfold State.homeWrite
  have h0 : Quiet s (match w.fld with
      | some f => t.dropRdc f va w.ctx
      | none => t) := by
    split
    · exact h.dropRdc
    · exact h
  simp only
  split
  · exact h0.touchL2.slicePut
  · next hu => exact (h0.undoLog hu).touchL2.slicePut
  · exact h0.logFull

theorem homeWriteBy {va : Word} {pa : Nat} {bs : List Byte} {ws : List Writer} (h : Quiet s t) :
    Quiet s (t.homeWriteBy va pa bs ws) := by
  induction ws generalizing t with
  | nil => exact h
  | cons w ws ih =>
    cases ws with
    | nil => exact h.homeWrite
    | cons w' ws =>
      simp only [State.homeWriteBy]
      split
      · exact ih h
      · next hu => exact ih (h.undoLog hu)
      · exact h.logFull

theorem writeBackMark {c : Nat} {l : L1Line} {i : Nat} (h : Quiet s t) : Quiet s (t.writeBackMark c l i) := by
  unfold State.writeBackMark
  split
  · exact h.setPoison.modCore.postOnce
  · exact h

theorem writeBack {c : Nat} {l : L1Line} (h : Quiet s t) : Quiet s (t.writeBack c l) := by
  unfold State.writeBack
  exact foldl (fun _ _ h => (foldl (fun _ _ h => h.homeWriteBy) h).writeBackMark.writeBackMark) h

theorem writeBackDirty {c : Nat} {l : L1Line} (h : Quiet s t) : Quiet s (if l.dirty = 0 then t else t.writeBack c l) := by
  split
  · exact h
  · exact h.writeBack

theorem evict {c : Nat} {l : L1Line} (h : Quiet s t) : Quiet s (t.evict c l) := h.modCore.writeBackDirty

theorem putLine {c : Nat} {l : L1Line} (h : Quiet s t) : Quiet s (t.putLine c l) := by
  unfold State.putLine
  cases isGateway (tileOfCore c)
  all_goals
    simp only [Bool.false_eq_true, if_true, if_false]
    split
    · exact h.writeBackDirty
    · split
      · exact h.setCore
      · split
        · exact h.setCore
        · exact h.setCore.writeBackDirty

theorem refetch {c : Nat} {l : L1Line} {m : BitVec 32} (h : Quiet s t) : Quiet s (t.refetch c l m).1 := by
  unfold State.refetch
  simp only
  split
  · exact h
  · exact h.modCore.postOnce

theorem openLine {c : Nat} {l : L1Line} (h : Quiet s t) : Quiet s (t.openLine c l).1 := by
  unfold State.openLine
  split
  · exact h.evict
  · exact h

theorem fillLine {f : Nat} {va : Word} {ctx : Nat} {gen : BitVec 16} {pa : Nat} (h : Quiet s t) :
    Quiet s (t.fillLine f va ctx gen pa).1 := by
  unfold State.fillLine
  split
  · exact h.touchL2
  · simp only
    split
    · exact h
    · exact h.setField.touchL2

theorem storeFill {k : Nat} {va : Word} {ctx : Nat} {gen : BitVec 16} {pa n : Nat} (h : Quiet s t) :
    Quiet s (t.storeFill k va ctx gen pa n).1 := by
  unfold State.storeFill
  simp only
  split
  · exact h
  · split
    · exact h.refetch
    · exact h.refetch.evict.dropRdc.fillLine

theorem endGrid {k : Nat} {tval tpc hdr : Word} (h : Quiet s t) : Quiet s (t.endGrid k tval tpc hdr) := by
  unfold State.endGrid
  split
  · exact h
  · next hs =>
    split
    · exact h
    · split
      · exact h
      · exact (h.setStrand.setSlot hs).noteFault

theorem assayAt {pa : Nat} (h : Quiet s t) : Quiet s (t.assayAt pa) := by
  unfold State.assayAt
  split
  · exact h.postOnce
  · exact h

theorem storeLost {k : Nat} {va : Word} {pa : Nat} {org : Origin} (h : Quiet s t) : Quiet s (t.storeLost k va pa org) :=
  h.endGrid.assayAt

theorem l1Store {k : Nat} {va : Word} {ctx : Nat} {gen : BitVec 16} {pa : Nat} {org : Origin} {bs : List Byte} (h : Quiet s t) :
    Quiet s (t.l1Store k va ctx gen pa org bs) := by
  unfold State.l1Store
  simp only
  split
  · exact h.storeFill.storeLost
  · split
    · exact h.storeFill.evict
    · exact h.storeFill.putLine

theorem flushLine {c : Nat} {va : Word} {ctx : Nat} (h : Quiet s t) : Quiet s (t.flushLine c va ctx) :=
  foldl (fun _ _ h => h.evict) h

theorem writeBackSlot {k : Nat} (h : Quiet s t) : Quiet s (t.writeBackSlot k) := by
  unfold State.writeBackSlot
  exact modCore (foldl (fun _ _ h => h.writeBack) h)

theorem performEntry {k ctx : Nat} {gen : BitVec 16} {e : StoreEntry} (h : Quiet s t) : Quiet s (t.performEntry k ctx gen e) := by
  cases e with
  | store org es =>
    refine foldl (fun x el hx => ?_) h
    split
    · exact hx.homeWrite
    · split
      · exact hx.flushLine.homeWrite
      · exact hx.l1Store
  | cadd va pa v => exact h.writeBackSlot.flushLine.dropRdc.addAt

end
end Quiet

/-- A drain takes the entries out of the buffer and performs them in order. -/
theorem drain_eq {s : State} {k : Nat} {sl : Slot} (hs : tget s.slots k = some sl) :
    s.drain k = sl.buf.foldl (fun x e => x.performEntry k (s.ctxOfSlot k).1 (s.ctxOfSlot k).2 e) (s.setSlot k { sl with buf := [] }) := by
  simp [State.drain, hs]

theorem drain_none {s : State} {k : Nat} (hs : tget s.slots k = none) : s.drain k = s := by
  simp [State.drain, hs]

/-- Entries performed in order. -/
theorem Quiet.performEntries {s t : State} {k ctx : Nat} {gen : BitVec 16} {l : List StoreEntry} (h : Quiet s t) :
    Quiet s (l.foldl (fun x e => x.performEntry k ctx gen e) t) := foldl (fun _ _ h => h.performEntry) h

/-- A drain performs everything that the slot has posted. -/
theorem drain_bufOf (s : State) (k : Nat) : (s.drain k).bufOf k = (s.bufOf k).map fun _ => [] := by
  cases hs : tget s.slots k with
  | none => simp [drain_none hs, State.bufOf, hs]
  | some sl =>
    rw [drain_eq hs, (Quiet.refl _).performEntries.buf]
    simp [State.bufOf, hs]

theorem release_bufOf (s : State) (k : Nat) (sc : Scope) : (s.release k sc).bufOf k = (s.bufOf k).map fun _ => [] := by
  have hback : ((s.drain k).writeBackSlot k).bufOf = (s.drain k).bufOf := (Quiet.refl _).writeBackSlot.buf
  cases sc <;> simp [State.release, hback, drain_bufOf]

end Sys2Proof.Machine
end

section
/-! PROOFS. FENCE: what a release and an acquire leave (R143, R144, R252, R385). -/

namespace Sys2Proof.Machine

-- Proofs are elaborated one after another, as the tests are: the whole text has to fit the check's memory.
set_option Elab.async false

/-! ### Releases and acquires -/

theorem release_buf_nil {s : State} {j : Nat} {sc : Scope} {sl : Slot} (h : tget (s.release j sc).slots j = some sl) : sl.buf = [] := by
  have hb := release_bufOf s j sc
  rw [State.bufOf, h, Option.map_some] at hb
  obtain ⟨_, -, hnil⟩ := Option.map_eq_some_iff.1 hb.symm
  exact hnil.symm

/-- After a write-back no line of the core is dirty in the slot's name. -/
theorem writeBackSlot_mask {s : State} {k : Nat} {l : L1Line} (h : l ∈ ((s.writeBackSlot k).core (coreOfSlot k)).l1) :
    l.mask.getLsbD (k % 4) = false := by
  rw [State.writeBackSlot, State.modCore_core] at h
  obtain ⟨x, -, rfl⟩ := List.mem_map.1 h
  split
  · simp [L1Line.cleaned]
  · next hx => simpa using hx

theorem release_mask {s : State} {j : Nat} {sc : Scope} (hsc : sc ≠ .strand) {l : L1Line}
    (h : l ∈ ((s.release j sc).core (coreOfSlot j)).l1) : l.mask.getLsbD (j % 4) = false := by
  cases sc
  case strand => exact absurd rfl hsc
  all_goals exact writeBackSlot_mask h

theorem dropClean_dirty {s : State} {c : Nat} {l : L1Line} (h : l ∈ ((s.dropClean c).core c).l1) : l.valid = l.dirty := by
  rw [State.dropClean, State.modCore_core] at h
  obtain ⟨x, -, rfl⟩ := List.mem_map.1 (List.mem_filter.1 h).1
  rfl

theorem acquire_dirty {s : State} {j : Nat} {sc : Scope} (hsc : sc ≠ .strand) {l : L1Line}
    (h : l ∈ ((s.acquire j sc).core (coreOfSlot j)).l1) : l.valid = l.dirty := by
  cases sc
  case strand => exact absurd rfl hsc
  all_goals exact dropClean_dirty h

theorem acquire_rdc {s : State} {j : Nat} {sc : Scope} (hsc : beyondField sc = true) : ((s.acquire j sc).field (fieldOfSlot j)).rdc = [] := by
  cases sc
  case strand | tile | field => cases hsc
  all_goals simp [State.acquire, beyondField, State.flashRdc]

/-- Settles O25. -/
theorem fencesReleaseAndAcquire : Obligations.fences_release_and_acquire := by
  intro s e k sc
  refine ⟨fun r hr h => ?_, fun hsc j => ⟨fun sl hsl => release_buf_nil hsl, fun l hl => release_mask hsc hl, fun l hl => acquire_dirty hsc hl⟩,
    fun hsc j => acquire_rdc ?_⟩
  · simp only [List.mem_cons, List.not_mem_nil, or_false] at hr
    rcases hr with rfl | rfl | rfl | rfl
    all_goals exact fun t ht out hs => runWord_completes h rfl ht hs
  · rcases hsc with rfl | rfl | rfl <;> rfl

end Sys2Proof.Machine
end

section
/-! PROOFS. Vector loads: the elements that are accessed, and the register that holds them (R93, R124, R126, R131). -/

namespace Sys2Proof.Machine

-- Proofs are elaborated one after another, as the tests are: the whole text has to fit the check's memory.
set_option Elab.async false

theorem vwide_eq (sz : VecSz) : vwide sz = decide (vsize sz = 8) := by cases sz <;> rfl

/-- The elements that a vector access makes, by the size of an element (R131). -/
theorem enabledElems_eq (e : Env) (sz : VecSz) : e.enabledElems sz =
    (List.range (if decide (vsize sz = 8) then 32 else 64)).filter fun j => e.lanes.getLsbD (if decide (vsize sz = 8) then 2 * j else j) := by
  simp only [Env.enabledElems, vwide_eq]
  rfl

theorem elems_length (v : VReg) (w64 : Bool) : (elems v w64).length = if w64 then 32 else 64 := by
  cases w64 <;> simp [elems]

theorem contains_enabledElems {e : Env} {sz : VecSz} {j : Nat} (hj : j < if vwide sz then 32 else 64) :
    (e.enabledElems sz).contains j = laneEnabled e.lanes (vwide sz) j := by
  rw [Bool.eq_iff_iff, List.contains_iff_mem, Env.enabledElems, List.mem_filter]
  exact and_iff_right (List.mem_range.2 hj)

/-- The elements that a vector access makes are those that it changes (R93). -/
theorem blend_enabledElems (e : Env) (sz : VecSz) (prior : VReg) (f : Nat → Nat) :
    blend e.lanes (vwide sz) prior f =
      ofElems ((elems prior (vwide sz)).mapIdx fun j old => if (e.enabledElems sz).contains j then f j else old) (vwide sz) := by
  refine congrArg (ofElems · _) (List.ext_getElem (by simp) fun j hj _ => ?_)
  rw [List.length_mapIdx, elems_length] at hj
  simp only [List.getElem_mapIdx, contains_enabledElems hj]

/-- The register after a vector load that has read the values `l`, each under its element's number (R93, R131). -/
def Env.loadedV (e : Env) (d : Reg) (sz : VecSz) (sx : Bool) (l : List (Nat × Nat)) : VReg :=
  ofElems ((elems (e.st.priorV d) (vwide sz)).mapIdx fun j old =>
    if (e.enabledElems sz).contains j then extendTo ((tgetD l j 0 : Nat) : Int) (8 * vsize sz) sx (if vwide sz then 64 else 32)
    else old) (vwide sz)

section
variable {s : State} {e : Env} {i : Instr} {k : Ctl} {va : Env → Nat → Word} {d : Reg} {sz : VecSz} {sx : Bool} {q : State × List (Nat × Nat)}

theorem opLoadV_ok (h : e.loadElems (va e) (vsize sz) (e.enabledElems sz) s = .ok q) :
    opLoadV va d sz sx e s = .ok (e.put q.1 (e.st.putV d (e.loadedV d sz sx q.2))) := by
  simp only [opLoadV, h, bind, Except.bind, pure, Except.pure, blend_enabledElems, Env.loadedV]

/-- A vector load whose accesses succeed writes the elements and sequences. -/
theorem vectorLoad_completes (h : Issues s i k e) (hq : e.loadElems (va e) (vsize sz) (e.enabledElems sz) s = .ok q) {out : State × Strand}
    (hs : e.sequence (e.put q.1 (e.st.putV d (e.loadedV d sz sx q.2))) (e.st.putV d (e.loadedV d sz sx q.2)) = .ok out) :
    runWord i k (opLoadV va d sz sx) s = .next (e.finish out.1 i out.2) :=
  runWord_completes h (opLoadV_ok hq) (put_strand _ _ _) hs
end

/-- Settles O21. -/
theorem vectorLoadsWriteTheElementsRead : Obligations.vector_loads_write_the_elements_read := by
  intro s e k d a b imm sh sz sx n wide on r hr h
  have hon : on = e.enabledElems sz := (enabledElems_eq e sz).symm
  have hwide : wide = vwide sz := (vwide_eq sz).symm
  have hrun : ∃ va : Env → Nat → Word, va e = r.2 ∧ exec r.1 s = runWord r.1 k (opLoadV va d sz sx) s := by
    rcases List.mem_pair.1 hr with rfl | rfl
    · exact ⟨fun e => e.vaRun a imm sz, rfl, rfl⟩
    · exact ⟨fun e => e.vaGather a b sh.val sz, by rw [hwide]; rfl, rfl⟩
  obtain ⟨va, hva, hexec⟩ := hrun
  rw [← hva, hexec, hon, hwide]
  exact ⟨fun q hq out hs => vectorLoad_completes h hq hs, fun hnil => by rw [hnil]; rfl⟩

end Sys2Proof.Machine
end

section
/-! PROOFS. Stores and prefetches: the entries that they post, the stall of a full buffer, the line that PREF leaves (R123, R124, R129,
R130, R132, R133). -/

namespace Sys2Proof.Machine

-- Proofs are elaborated one after another, as the tests are: the whole text has to fit the check's memory.
set_option Elab.async false

/-! ### The elements of a store -/

section
variable {s : State} {e : Env}

/-- An element of a store has its address and its bytes, whatever its place. -/
theorem storeElem_spec {va : Word} {n v : Nat} {q : State × StoreElem} (h : e.storeElem s va n v = .ok q) :
    q.2.va = va ∧ q.2.bytes = bytesOf n v := by
  unfold Env.storeElem at h
  simp only [bind, Except.bind, pure, Except.pure] at h
  split at h
  · cases h
  · split at h
    · cases h
    · obtain rfl := Except.ok.inj h
      exact ⟨rfl, rfl⟩

theorem storeElems_spec {va : Nat → Word} {n : Nat} {data : Nat → Nat} {l : List Nat} {q : State × List StoreElem}
    (h : e.storeElems va n data l s = .ok q) : q.2.map (fun x => (x.va, x.bytes)) = l.map fun j => (va j, bytesOf n (data j)) := by
  induction l generalizing s q with
  | nil =>
    obtain rfl := Except.ok.inj h
    rfl
  | cons j l ih =>
    rw [Env.storeElems] at h
    split at h
    · cases h
    · next hx =>
      split at h
      · cases h
      · next hl =>
        obtain rfl := Except.ok.inj h
        rw [List.map_cons, List.map_cons, ih hl, (storeElem_spec hx).1, (storeElem_spec hx).2]

/-! ### Posting an entry -/

/-- The slot with an entry at the tail of its store buffer, whose drain falls due (R130). -/
def State.withPosted (s : State) (k : Nat) (sl : Slot) (x : StoreEntry) : State :=
  (s.setSlot k { sl with buf := sl.buf ++ [x] }).postOnce (.storeBufferDrain k)

theorem postEntry_room {sl : Slot} {x : StoreEntry} (hs : tget s.slots e.k = some sl) (h : sl.buf.length < 32) :
    e.postEntry s x = .ok (s.withPosted e.k sl x) := by
  have hroom : ¬ bufferSize < sl.buf.length + 1 := not_lt.2 h
  simp [Env.postEntry, Env.postEntries, hs, hroom, State.withPosted]

theorem postEntry_full {sl : Slot} {x : StoreEntry} (hs : tget s.slots e.k = some sl) (h : 32 ≤ sl.buf.length) :
    e.postEntry s x = .error (.become (s.setSlot e.k { sl with stalled := true })) := by
  have hfull : bufferSize < sl.buf.length + 1 := Nat.lt_succ_of_le h
  simp [Env.postEntry, Env.postEntries, hs, hfull]

/-- A word whose operation posts an entry: with room it is posted and the word sequences; without, the word stalls on its slot (R130,
R187). -/
theorem runWord_posts {i : Instr} {k : Ctl} {op : Op} {s1 : State} {x : StoreEntry} {sl : Slot} (h : Issues s i k e)
    (hop : op e s = e.postEntry s1 x) (hs : tget s1.slots e.k = some sl) :
    (sl.buf.length < 32 → ∀ t, tget (s1.withPosted e.k sl x).strands e.u = some t →
      ∀ out, e.sequence (s1.withPosted e.k sl x) t = .ok out → runWord i k op s = .next (e.finish out.1 i out.2)) ∧
    (32 ≤ sl.buf.length → e.settled s i = true → runWord i k op s = .next (s1.setSlot e.k { sl with stalled := true })) :=
  ⟨fun hroom _ ht _ hout => runWord_completes h (hop.trans (postEntry_room hs hroom)) ht hout,
    fun hfull hset => runWord_becomes h (hop.trans (postEntry_full hs hfull)) hset⟩

/-! ### ST, STV and STSC -/

theorem opSt_relaxed {d a : Reg} {imm : BitVec 23} {sz : ScalarSz} {q : State × StoreElem}
    (h : e.storeElem s (e.vaImm a imm) (ssize sz) (e.st.scalar d).toNat = .ok q) :
    opSt d a imm sz none e s = e.postEntry q.1 (.store e.org [q.2]) := by
  simp only [opSt, h, bind, Except.bind]

/-- A store that releases writes its bytes at the home slice, past the L1 data cache (R253). -/
theorem opSt_release {d a : Reg} {imm : BitVec 23} {sz : ScalarSz} {sc : Scope} {q : State × StoreElem}
    (h : e.storeElem s (e.vaImm a imm) (ssize sz) (e.st.scalar d).toNat = .ok q) :
    opSt d a imm sz (some sc) e s = .ok (e.writeHome (q.1.release e.k sc) (e.vaImm a imm) q.2.pa q.2.bytes) := by
  simp only [opSt, h, bind, Except.bind, pure, Except.pure, (storeElem_spec h).1]

section
variable {va : Env → Nat → Word} {src : Reg} {sz : VecSz}

/-- The elements of the register that a vector store writes (R131). -/
def Env.storeData (e : Env) (src : Reg) (sz : VecSz) (j : Nat) : Nat := ((elems (e.st.vector src) (vwide sz))[j]?).getD 0

theorem opStoreV_posts {q : State × List StoreElem} (hon : e.enabledElems sz ≠ [])
    (h : e.storeElems (va e) (vsize sz) (e.storeData src sz) (e.enabledElems sz) s = .ok q) :
    opStoreV va src sz e s = e.postEntry q.1 (.store e.org q.2) := by
  have hne : q.2.isEmpty = false := by
    have hlen := congrArg List.length (storeElems_spec h)
    simp only [List.length_map] at hlen
    rw [List.isEmpty_eq_false_iff]
    intro hnil
    rw [hnil] at hlen
    exact hon (List.length_eq_zero_iff.1 hlen.symm)
  unfold Env.storeData at h
  simp [opStoreV, h, bind, Except.bind, hne]

/-- A vector store with every lane off does nothing (R132). -/
theorem opStoreV_nil (hon : e.enabledElems sz = []) : opStoreV va src sz e s = .ok s := by
  simp [opStoreV, hon, Env.storeElems, bind, Except.bind, pure, Except.pure]

end

/-! ### PREF (R133) -/

/-- The line into which PREF fills: what the core holds of it, opened. -/
def Env.prefLine (e : Env) (q : State × Nat) (va : Word) : State × L1Line :=
  q.1.openLine e.core (((q.1.core e.core).findLine va e.ctx e.gen).getD (emptyLine va e.ctx e.gen q.2))

section
variable {a : Reg} {imm : BitVec 23} {l2 : Bool} {q : State × Nat}

theorem opPref_unplaced {x : Stop} (h : e.placed s (e.vaImm a imm) .read = .error x) : opPref a imm l2 e s = .ok s := by
  simp [opPref, h]

theorem opPref_pad (h : e.placed s (e.vaImm a imm) .read = .ok q) (hp : isPad q.2 = true) : opPref a imm l2 e s = .ok s := by
  simp [opPref, h, hp]

theorem opPref_l2 (h : e.placed s (e.vaImm a imm) .read = .ok q) (hp : isPad q.2 = false) :
    opPref a imm true e s = .ok (q.1.fillLine e.fld (e.vaImm a imm) e.ctx e.gen q.2).1 := by
  simp [opPref, h, hp]

theorem opPref_l1 (h : e.placed s (e.vaImm a imm) .read = .ok q) (hp : isPad q.2 = false) :
    let o := e.prefLine q (e.vaImm a imm)
    let f := o.1.fillLine e.fld (e.vaImm a imm) e.ctx e.gen q.2
    opPref a imm false e s = .ok (f.1.putLine e.core (mergeFill o.2 f.2.1 f.2.2)) := by
  simp [opPref, h, hp, Env.prefLine]

end
end

/-- Every word that a fill brings is valid afterwards (R251). -/
theorem mergeFill_valid (l : L1Line) (v : BitVec 32) (d : BitVec 1024) : v &&& ~~~(mergeFill l v d).valid = 0#32 := by
  refine BitVec.eq_of_getLsbD_eq fun i hi => ?_
  simp only [mergeFill, BitVec.getLsbD_and, BitVec.getLsbD_not, BitVec.getLsbD_or, hi, decide_true, Bool.true_and, BitVec.getLsbD_zero]
  cases v.getLsbD i <;> cases l.valid.getLsbD i <;> rfl

/-- A fill leaves the words alone that were valid (R251). -/
theorem lineWord_mergeFill (l : L1Line) (v : BitVec 32) (d : BitVec 1024) {j : Nat} (hj : j < 32) (h : l.valid.getLsbD j = true) :
    lineWord (mergeFill l v d).data j = lineWord l.data j := by
  refine BitVec.eq_of_getLsbD_eq fun i hi => ?_
  have hlt : 32 * j + i < 1024 := by omega
  have hword : (32 * j + i) / 32 = j := by omega
  have hbit : (wordBits (v &&& ~~~l.valid)).getLsbD (32 * j + i) = false := by
    rw [getLsbD_wordBits _ _ hlt, hword, BitVec.getLsbD_and, BitVec.getLsbD_not, h]
    simp
  rw [BitVec.getLsbD_eq_getElem hlt] at hbit
  simp [lineWord, mergeFill, hi, hbit, hlt]

/-- Settles O22. -/
theorem storesArePostedOrPerformed : Obligations.stores_are_posted_or_performed := by
  intro s e k d a b c imm sh sz vz sc l2 va wide on org posted completes buffered
  have hon : on = e.enabledElems vz := (enabledElems_eq e vz).symm
  have hwide : wide = vwide vz := (vwide_eq vz).symm
  refine ⟨?_, ?_, ?_⟩
  · intro q hq
    exact ⟨(storeElem_spec hq).1, (storeElem_spec hq).2, fun sl h hs => runWord_posts h (opSt_relaxed hq) hs,
      fun h t ht out hs => runWord_completes h (opSt_release hq) ht hs⟩
  · intro r hr h data
    have hrun : ∃ va : Env → Nat → Word, va e = r.2.2 ∧ exec r.1 s = runWord r.1 k (opStoreV va r.2.1 vz) s := by
      rcases List.mem_pair.1 hr with rfl | rfl
      · exact ⟨fun e => e.vaRun a imm vz, rfl, rfl⟩
      · exact ⟨fun e => e.vaGather a b sh.val vz, by rw [hwide]; rfl, rfl⟩
    obtain ⟨va, hva, hexec⟩ := hrun
    have hdata : data = e.storeData r.2.1 vz := by
      simp only [data, hwide]
      rfl
    simp only [buffered, completes, posted, hexec]
    rw [← hva, hon, hdata]
    exact ⟨fun q hq => ⟨storeElems_spec hq, fun sl hne hs => runWord_posts h (opStoreV_posts hne hq) hs⟩,
      fun hnil t ht out hs => runWord_completes h (opStoreV_nil hnil) ht hs⟩
  · intro h
    refine ⟨fun x hx t ht out hs => runWord_completes h (opPref_unplaced hx) ht hs, fun q hq =>
      ⟨fun hp t ht out hs => runWord_completes h (opPref_pad hq hp) ht hs, fun hp => ⟨?_, ?_⟩⟩⟩
    · rintro rfl t ht out hs
      exact runWord_completes h (opPref_l2 hq hp) ht hs
    · rintro rfl
      exact ⟨fun t ht out hs => runWord_completes h (opPref_l1 hq hp) ht hs, mergeFill_valid _ _ _,
        fun j hj hv => lineWord_mergeFill _ _ _ hj hv⟩

end Sys2Proof.Machine
end

section
/-! PROOFS. Bytes written and read back, and the atomics (R134, R135, R252, R253, R384). -/

namespace Sys2Proof.Machine

-- Proofs are elaborated one after another, as the tests are: the whole text has to fit the check's memory.
set_option Elab.async false

/-! ### Bytes written and read back -/

theorem Mem.from_below_append (m l : Mem) (a : Nat) : Mem.from (Mem.below m a ++ l) a = Mem.from l a := by
  induction m with
  | nil => rfl
  | cons c t ih =>
    obtain ⟨i, b⟩ := c
    simp only [Mem.below]
    split
    · next hi => simpa [Mem.from, hi] using ih
    · rfl

theorem Mem.from_of_head {l : Mem} {a : Nat} (h : ∀ c ∈ l.head?, a ≤ c.1) : Mem.from l a = l := by
  cases l with
  | nil => rfl
  | cons c t =>
    obtain ⟨i, b⟩ := c
    exact if_neg (not_lt.2 (h (i, b) rfl))

/-- A byte below the first cell reads 0. -/
theorem Mem.run_of_above {l : Mem} {a : Nat} (h : Mem.above l a) (n : Nat) : Mem.run l a (n + 1) = 0 :: Mem.run l (a + 1) n := by
  cases l with
  | nil => rfl
  | cons c t =>
    obtain ⟨i, b⟩ := c
    exact if_neg (Nat.ne_of_gt (h (i, b) rfl))

/-- The first cell of bytes and of what follows them. -/
theorem Mem.head_cells_append {a : Nat} {bs : List Byte} {r : Mem} (h : ∀ c ∈ r.head?, a + bs.length ≤ c.1) :
    ∀ c ∈ (Mem.cells a bs ++ r).head?, a ≤ c.1 := by
  intro c hc
  cases hl : Mem.cells a bs with
  | nil =>
    rw [hl] at hc
    exact le_trans (Nat.le_add_right _ _) (h c hc)
  | cons d t =>
    have hd : c ∈ Mem.cells a bs := by
      rw [hl] at hc ⊢
      simp_all
    exact (Mem.cells_bound a bs c hd).1

theorem Mem.run_cells_append (a : Nat) (bs : List Byte) {r : Mem} (h : ∀ c ∈ r.head?, a + bs.length ≤ c.1) :
    Mem.run (Mem.cells a bs ++ r) a bs.length = bs := by
  induction bs generalizing a with
  | nil => cases r <;> rfl
  | cons b t ih =>
    have ht : ∀ c ∈ r.head?, a + 1 + t.length ≤ c.1 := fun c hc => by
      have := h c hc
      simp only [List.length_cons] at this
      omega
    simp only [Mem.cells, List.length_cons]
    split
    · next hb => rw [Mem.run_of_above (Mem.head_cells_append ht), ih _ ht, hb]
    · simp [Mem.run, ih _ ht]

/-- What is written is read back, in whatever memory. -/
theorem Mem.bytes_write_same (m : Mem) (a : Nat) (bs : List Byte) : Mem.bytes (Mem.write m a bs) a bs.length = bs := by
  have hrest := Mem.from_head m (a + bs.length)
  rw [Mem.bytes, Mem.write, List.append_assoc, Mem.from_below_append, Mem.from_of_head (Mem.head_cells_append hrest)]
  exact Mem.run_cells_append a bs hrest

@[simp] theorem length_bytesOf (n x : Nat) : (bytesOf n x).length = n := by
  induction n generalizing x with
  | zero => rfl
  | succ n ih => simp [bytesOf, ih]

theorem natOf_lt (l : List Byte) : natOf l < 256 ^ l.length := by
  induction l with
  | nil => simp [natOf]
  | cons b l ih =>
    have hb := b.isLt
    rw [natOf, List.length_cons, pow_succ]
    omega

theorem natOf_bytesOf (n x : Nat) : natOf (bytesOf n x) = x % 256 ^ n := by
  induction n generalizing x with
  | zero => simp [bytesOf, natOf, Nat.mod_one]
  | succ n ih => simp [bytesOf, natOf, ih, pow_succ', Nat.mod_mul]

theorem wordOfBytes_bytesOf (w : Word) : wordOfBytes (bytesOf 8 w.toNat) = w := by
  rw [wordOfBytes, natOf_bytesOf, Nat.mod_eq_of_lt (by simpa using w.isLt), BitVec.ofNat_toNat, BitVec.setWidth_eq]

/-! ### Writes at a home slice -/

@[simp] theorem orphanTrees_mem (s t : State) : (s.orphanTrees t).mem = t.mem := by
  unfold State.orphanTrees
  simp only
  split <;> rfl

@[simp] theorem touchL2_mem (s : State) (pa ctx : Nat) : (s.touchL2 pa ctx).mem = s.mem := by
  unfold State.touchL2
  split
  · rfl
  · simp only
    split
    · rfl
    · split <;> rfl

/-- A write changes bytes of memory, and where no strand waits at the slice nothing else of it. -/
theorem slicePut_mem {s : State} {pa : Nat} (bs : List Byte)
    (h : isPad pa = true ∨ ((s.field (fieldOfPa pa)).monitors[sliceOf pa]?).getD [] = []) :
    (s.slicePut pa bs).mem = Mem.write s.mem pa bs := by
  unfold State.slicePut
  split
  · rfl
  · next hp =>
    have hm := h.resolve_left hp
    simp only [hm, metMonitors, List.filter_nil, List.isEmpty_nil, if_true, orphanTrees_mem]
    rfl

theorem touchL2_monitors (s : State) (pa ctx f : Nat) : ((s.touchL2 pa ctx).field f).monitors = (s.field f).monitors := by
  have hset : ∀ x : Field, x.monitors = (s.field (fieldOfPa pa)).monitors →
      ((s.setField (fieldOfPa pa) x).field f).monitors = (s.field f).monitors := by
    intro x hx
    by_cases hf : f = fieldOfPa pa
    · subst hf
      simpa using hx
    · rw [State.setField_field_other _ _ _ _ hf]
  unfold State.touchL2
  split
  · rfl
  · simp only
    split
    · exact hset _ rfl
    · split
      · rfl
      · exact hset _ rfl

theorem dropRdc_monitors (s : State) (g : Nat) (va : Word) (ctx f : Nat) : ((s.dropRdc g va ctx).field f).monitors = (s.field f).monitors := by
  by_cases hf : f = g
  · subst hf
    simp [State.dropRdc]
  · simp [State.dropRdc, State.modField_field_other _ _ _ _ hf]

/-- A write that no task logs changes the bytes at its place, where no strand waits at the slice. -/
theorem homeWrite_mem {s : State} {w : Writer} (va : Word) {pa : Nat} (bs : List Byte) (hw : w.task = none)
    (h : isPad pa = true ∨ ((s.field (fieldOfPa pa)).monitors[sliceOf pa]?).getD [] = []) :
    (s.homeWrite w va pa bs).mem = Mem.write s.mem pa bs := by
  cases hf : w.fld with
  | none =>
    simp only [State.homeWrite, State.undoLog, State.undoLogWith, hf, hw]
    rw [slicePut_mem bs (by rwa [touchL2_monitors]), touchL2_mem]
  | some f =>
    simp only [State.homeWrite, State.undoLog, State.undoLogWith, hf, hw]
    rw [slicePut_mem bs (by rwa [touchL2_monitors, dropRdc_monitors]), touchL2_mem]
    rfl

/-! ### Atomics -/

section
variable {s : State} {e : Env}

/-- The state at the ordering point of an atomic: the release that ORD asks for, and no copy of the line in the core (R134, R252). -/
def Env.atomicPoint (e : Env) (s : State) (va : Word) (pa nb : Nat) (ord : Ord4) (sc : Scope) : State :=
  e.flush (if ordRel ord then s.release e.k sc else s) va pa nb

/-- The state after an atomic has written `v`, if it writes (R135, R500). -/
def Env.atomicWrite (e : Env) (s : State) (va : Word) (pa nb : Nat) (v : Option Nat) : State :=
  match v with
  | some v => s.homeWrite { s.writerFrom e.k e.ctx e.org with task := none } va pa (bytesOf nb v)
  | none => s

theorem homeRead_ok {va : Word} {pa n : Nat} (h : s.lostAt pa n = false) :
    e.homeRead s va pa n = .ok (s.touchL2 pa e.ctx, natOf (s.bytesAt pa n)) := by
  simp [Env.homeRead, h, State.valAt]

/-- What an atomic answers, by the state at its ordering point and the value that it writes. -/
theorem opAtomic_ok {d a : Reg} {ord : Ord4} {sc : Scope} {w32 sx : Bool} {f : Env → Nat → Nat → Option Nat} {q : State × Nat} {nb : Nat}
    {s2 : State} {o : Option Nat} (hnb : nb = if w32 then 4 else 8) (hq : e.placeOf s (e.st.scalar a) nb .rmw = .ok q)
    (hs2 : e.atomicPoint q.1 (e.st.scalar a) q.2 nb ord sc = s2) (hl : s2.lostAt q.2 nb = false)
    (hf : f e (8 * nb) (natOf (s2.bytesAt q.2 nb)) = o) :
    opAtomic d a ord sc w32 sx f e s = .ok (e.put
      (if ordAcq ord then (e.atomicWrite (s2.touchL2 q.2 e.ctx) (e.st.scalar a) q.2 nb o).acquire e.k sc
        else e.atomicWrite (s2.touchL2 q.2 e.ctx) (e.st.scalar a) q.2 nb o)
      (e.st.putS d (BitVec.ofNat 64 (extendTo (natOf (s2.bytesAt q.2 nb)) (8 * nb) sx 64)))) := by
  subst hnb hs2 hf
  have hread := homeRead_ok (e := e) (va := e.st.scalar a) hl
  unfold Env.atomicPoint at hread
  simp only [opAtomic, hq, bind, Except.bind, hread, pure, Except.pure]
  rfl

/-- Where no strand waits by the slice, the bytes at the place are the new value, and in canonical memory every other byte is as before
it. -/
theorem atomicWrite_mem {va : Word} {pa nb : Nat}
    (h : isPad pa = true ∨ ((s.field (fieldOfPa pa)).monitors[sliceOf pa]?).getD [] = []) (o : Option Nat) :
    (∀ v, o = some v → (e.atomicWrite s va pa nb o).bytesAt pa nb = bytesOf nb v) ∧
    (Mem.wf s.mem = true → ∀ j, (j < pa ∨ pa + nb ≤ j) → Mem.read (e.atomicWrite s va pa nb o).mem j = Mem.read s.mem j) := by
  cases o with
  | none =>
    refine ⟨fun v hv => ?_, fun _ _ _ => rfl⟩
    cases hv
  | some v =>
    have hmem : (e.atomicWrite s va pa nb (some v)).mem = Mem.write s.mem pa (bytesOf nb v) := homeWrite_mem va _ rfl h
    refine ⟨fun w hw => ?_, fun hwf j hj => ?_⟩
    · obtain rfl := Option.some.inj hw
      rw [State.bytesAt, hmem]
      exact (congrArg (Mem.bytes _ pa) (length_bytesOf nb v)).symm.trans (Mem.bytes_write_same _ _ _)
    · rw [hmem, Mem.read_write_other hwf _ _ _ (by rwa [length_bytesOf])]

end

/-! ### The operations of AOP (Table 4.8) -/

theorem sextN_le_iff (n x y : Nat) : sextN x n ≤ sextN y n ↔ (BitVec.ofNat n x).sle (BitVec.ofNat n y) = true := by
  have hofNat : ∀ z, sextN z n = (BitVec.ofNat n z).toInt := fun z => by
    rw [← sextN_eq_toInt, BitVec.toNat_ofNat]
    simp [sextN]
  rw [hofNat, hofNat, BitVec.sle_iff_toInt_le]

theorem aopNew_min (n old b : Nat) : aopNew .min n old b = if (BitVec.ofNat n old).sle (BitVec.ofNat n b) then old else b := by
  simp only [aopNew, sextN_le_iff]

theorem aopNew_max (n old b : Nat) : aopNew .max n old b = if (BitVec.ofNat n b).sle (BitVec.ofNat n old) then old else b := by
  simp only [aopNew, ge_iff_le, sextN_le_iff]

/-- Settles O23. -/
theorem atomicsReadModifyAndWriteAtTheHomeSlice : Obligations.atomics_read_modify_and_write_at_the_home_slice := by
  intro s e k d a b c ord sc w32 sx va nb pb fmt signedLe r hr h q hq s1 s2 hl old s3 s4 s5 t
  have hrun : ∃ f : Env → Nat → Nat → Option Nat, f e (8 * nb) old = r.2.2 old ∧
      exec r.1 s = runWord r.1 k (opAtomic d a ord sc w32 r.2.1 f) s := by
    simp only [List.mem_cons, List.not_mem_nil, or_false] at hr
    rcases hr with rfl | rfl | rfl | rfl | rfl | rfl | rfl | rfl | rfl | rfl | rfl
    case inr.inr.inr.inr.inl => exact ⟨_, congrArg some (aopNew_min _ _ _), rfl⟩
    case inr.inr.inr.inr.inr.inl => exact ⟨_, congrArg some (aopNew_max _ _ _), rfl⟩
    case inr.inr.inr.inr.inr.inr.inr.inr.inr.inr =>
      refine ⟨_, ?_, rfl⟩
      cases w32 <;> rfl
    all_goals exact ⟨_, rfl, rfl⟩
  obtain ⟨f, hf, hexec⟩ := hrun
  have hpoint : e.atomicPoint q.1 va q.2 nb ord sc = s2 := by cases ord <;> rfl
  have hwrite : e.atomicWrite s3 va q.2 nb (r.2.2 old) = s4 := rfl
  have hacq : (if ordAcq ord then s4.acquire e.k sc else s4) = s5 := by cases ord <;> rfl
  have hop := opAtomic_ok (d := d) (sx := r.2.1) rfl hq hpoint hl hf
  rw [hwrite, hacq] at hop
  refine ⟨fun out hs => hexec.trans (runWord_completes h hop (put_strand _ _ _) hs), fun hm => ?_⟩
  have hmem := atomicWrite_mem (e := e) (va := va) (nb := nb) hm (r.2.2 old)
  rwa [hwrite, touchL2_mem] at hmem

end Sys2Proof.Machine
end

section
/-! PROOFS. Counters: CADD, CWAIT and CTEST (R136 to R142). -/

namespace Sys2Proof.Machine

-- Proofs are elaborated one after another, as the tests are: the whole text has to fit the check's memory.
set_option Elab.async false

section
variable {s : State} {e : Env} {k : Ctl} {d a b : Reg} {sc : Scope} {q : State × Nat}

theorem counterPlace_ok {va : Word} {acc : Acc} (h : e.placeOf s va 8 acc = .ok q) (hp : isPad q.2 = false) :
    e.counterPlace s va acc = .ok q := by
  simp [Env.counterPlace, h, hp]

/-- A counter in a scratchpad raises BADADDR (R136). -/
theorem counterPlace_pad {va : Word} {acc : Acc} (h : e.placeOf s va 8 acc = .ok q) (hp : isPad q.2 = true) :
    e.counterPlace s va acc = .error (.fault .badaddr va) := by
  simp [Env.counterPlace, h, hp, failWith]

/-- The state at which a counter word finds its counter: no copy of the line in the core (R252). -/
def Env.counterPoint (e : Env) (q : State × Nat) (va : Word) : State := e.flush q.1 va q.2 8

/-- The counter's value there. -/
def Env.counterVal (e : Env) (q : State × Nat) (va : Word) : Word := BitVec.ofNat 64 (natOf ((e.counterPoint q va).bytesAt q.2 8))

theorem counterVal_toNat (e : Env) (q : State × Nat) (va : Word) :
    (e.counterVal q va).toNat = natOf ((e.counterPoint q va).bytesAt q.2 8) := by
  have hlt : natOf ((e.counterPoint q va).bytesAt q.2 8) < 2 ^ 64 := by
    simpa [State.bytesAt] using natOf_lt ((e.counterPoint q va).bytesAt q.2 8)
  exact (BitVec.toNat_ofNat _ _).trans (Nat.mod_eq_of_lt hlt)

/-! ### CADD (R137) -/

theorem opCadd_ok (hq : e.placeOf s (e.st.scalar a) 8 .rmw = .ok q) (hp : isPad q.2 = false)
    (hl : (e.counterPoint q (e.st.scalar a)).lostAt q.2 8 = false) :
    opCadd a b e s = e.postEntry (e.counterPoint q (e.st.scalar a)) (.cadd (e.st.scalar a) q.2 (e.st.scalar b)) := by
  unfold Env.counterPoint at hl ⊢
  simp [opCadd, counterPlace_ok hq hp, bind, Except.bind, faultIf, hl]

theorem opCadd_pad (hq : e.placeOf s (e.st.scalar a) 8 .rmw = .ok q) (hp : isPad q.2 = true) :
    opCadd a b e s = .error (.fault .badaddr (e.st.scalar a)) := by
  simp [opCadd, counterPlace_pad hq hp, bind, Except.bind]

theorem opCwait_pad (hq : e.placeOf s (e.st.scalar a) 8 .read = .ok q) (hp : isPad q.2 = true) (hm : e.st.met = none) :
    opCwait d a b sc e s = .error (.fault .badaddr (e.st.scalar a)) := by
  simp [opCwait, counterPlace_pad hq hp, hm]

theorem opCtest_pad {acq : Bool} (hq : e.placeOf s (e.st.scalar a) 8 .read = .ok q) (hp : isPad q.2 = true) :
    opCtest d a b acq sc e s = .error (.fault .badaddr (e.st.scalar a)) := by
  simp [opCtest, counterPlace_pad hq hp, bind, Except.bind]

/-! ### CWAIT (R138 to R140) -/

section
variable (hq : e.placeOf s (e.st.scalar a) 8 .read = .ok q) (hp : isPad q.2 = false)
  (hl : (e.counterPoint q (e.st.scalar a)).lostAt q.2 8 = false)
include hq hp hl

/-- A counter that has reached the threshold: its value, and the acquire (R138). -/
theorem opCwait_met (h : (e.st.scalar b).toNat ≤ (e.counterVal q (e.st.scalar a)).toNat) :
    opCwait d a b sc e s = .ok (e.cwaitDone ((e.counterPoint q (e.st.scalar a)).touchL2 q.2 e.ctx) d (e.counterVal q (e.st.scalar a)) sc) := by
  rw [counterVal_toNat] at h
  have hread := homeRead_ok (e := e) (va := e.st.scalar a) hl
  unfold Env.counterPoint at hread h
  cases hm : e.st.met <;> simp [opCwait, hm, counterPlace_ok hq hp, hread, bind, Except.bind, pure, Except.pure, h] <;> rfl

/-- A counter below the threshold: the strand waits (R138). -/
theorem opCwait_waits (hm : e.st.met = none) (h : (e.counterVal q (e.st.scalar a)).toNat < (e.st.scalar b).toNat) :
    opCwait d a b sc e s = .error (.become (e.cwaitSuspend ((e.counterPoint q (e.st.scalar a)).touchL2 q.2 e.ctx) (e.st.scalar a) q.2
      (e.st.scalar b))) := by
  rw [counterVal_toNat] at h
  have hread := homeRead_ok (e := e) (va := e.st.scalar a) hl
  unfold Env.counterPoint at hread h
  simp [opCwait, hm, counterPlace_ok hq hp, hread, bind, Except.bind, not_le.2 h]
  rfl

/-! ### CTEST (R142) -/

/-- The strand after a CTEST (R142). -/
def Env.ctestStrand (e : Env) (d b : Reg) (v : Word) : Strand :=
  match d with
  | .p j => e.st.putP (.p j) (if (e.st.scalar b).toNat ≤ v.toNat then BitVec.allOnes 64 else 0)
  | _ => e.st.putS d v

theorem opCtest_ok {acq : Bool} :
    opCtest d a b acq sc e s =
      let x := e.put ((e.counterPoint q (e.st.scalar a)).touchL2 q.2 e.ctx) (e.ctestStrand d b (e.counterVal q (e.st.scalar a)))
      .ok (if acq then x.acquire e.k sc else x) := by
  have hread := homeRead_ok (e := e) (va := e.st.scalar a) hl
  have hv := counterVal_toNat e q (e.st.scalar a)
  unfold Env.counterPoint at hread hv
  simp only [opCtest, counterPlace_ok hq hp, hread, bind, Except.bind, pure, Except.pure, Env.ctestStrand, hv]
  cases d
  case p j =>
    simp only [Strand.putCond, ones, decide_eq_true_eq]
    rfl
  all_goals rfl
end
end

theorem put_acquire_strand (e : Env) (s : State) (t : Strand) (k : Nat) (sc : Scope) :
    tget ((e.put s t).acquire k sc).strands e.u = some t := by
  rw [acquire_strands, put_strand]

/-- Settles O24. -/
theorem counterWordsAddWaitAndTest : Obligations.counter_words_add_wait_and_test := by
  intro s e k d a b acq sc va rb
  refine ⟨?_, ?_, ?_⟩
  · intro q sl hq hp h s1 hl hs hroom s2 t ht out hout
    exact (runWord_posts h (opCadd_ok hq hp hl) hs).1 hroom t ht out hout
  · intro q hq hp s1 hl v s2
    refine ⟨?_, fun h hset hm hlow => runWord_becomes h (opCwait_waits hq hp hl hm hlow) hset, ?_⟩
    · intro h hmet t out hs
      exact runWord_completes h (opCwait_met hq hp hl hmet) (put_acquire_strand _ _ _ _ _) hs
    · intro h t s3 out hs
      refine runWord_completes h (opCtest_ok hq hp hl) ?_ hs
      cases acq
      · exact put_strand _ _ _
      · exact put_acquire_strand _ _ _ _ _
  · intro i hi q hq hp h hb hm
    simp only [List.mem_cons, List.not_mem_nil, or_false] at hi
    have hraise : s.stopped e.k e.busy false (.fault .badaddr va) = s.raise e.k .badaddr va false false := by rw [hb]; rfl
    rw [← hraise]
    rcases hi with rfl | rfl | rfl
    · exact runWord_stops h (opCadd_pad hq hp) fun _ => Stop.noConfusion
    · exact runWord_stops h (opCwait_pad hq hp hm) fun _ => Stop.noConfusion
    · exact runWord_stops h (opCtest_pad hq hp) fun _ => Stop.noConfusion

end Sys2Proof.Machine
end

section
/-! PROOFS. The acts of the store buffers and of the home slices: drains, evictions, additions, sweeps (R130, R136, R137, R140, R149, R163,
R250, R252, R398). -/

namespace Sys2Proof.Machine

-- Proofs are elaborated one after another, as the tests are: the whole text has to fit the check's memory.
set_option Elab.async false

/-! ### The drain of an entry (R130) -/

section
variable {s : State} {slot : Nat} {sl : Slot}

theorem exec_drain_unslotted (h : tget s.slots slot = none) : exec (.storeBufferDrain slot) s = .next s := by
  change execStoreBufferDrain slot s = _
  simp [execStoreBufferDrain, h]

theorem exec_drain_empty (h : tget s.slots slot = some sl) (hb : sl.buf = []) : exec (.storeBufferDrain slot) s = .next s := by
  change execStoreBufferDrain slot s = _
  simp [execStoreBufferDrain, h, hb]

/-- The entry of a vector-side store that has not started stays (R220, R221). -/
theorem exec_drain_unstarted {x : StoreEntry} (h : tget s.slots slot = some sl) (hb : sl.buf = [x]) (hf : ∃ f ∈ sl.fwd, f.store = true) :
    exec (.storeBufferDrain slot) s = .next s := by
  change execStoreBufferDrain slot s = _
  simp [execStoreBufferDrain, h, hb, hf]

/-- The eviction that falls due with a store to the cache (log 53). -/
def State.drained (s : State) (slot : Nat) : StoreEntry → State
  | .store _ (el :: _) => if isPad el.pa then s else s.postOnce (.homeSliceWrite (coreOfSlot slot) (lineVa el.va))
  | _ => s

theorem exec_drain_entry {x : StoreEntry} {t : List StoreEntry} (h : tget s.slots slot = some sl) (hb : sl.buf = x :: t)
    (hf : t ≠ [] ∨ ∀ f ∈ sl.fwd, f.store = false) :
    let s1 := ((s.setSlot slot { sl with buf := t }).performEntry slot (s.ctxOfSlot slot).1 (s.ctxOfSlot slot).2 x).drained slot x
    exec (.storeBufferDrain slot) s = .next (if t = [] then s1 else s1.postOnce (.storeBufferDrain slot)) := by
  have hgo : (t.isEmpty && sl.fwd.any (·.store)) = false := by
    rcases hf with ht | hf
    · simp [ht]
    · simp only [Bool.and_eq_false_iff, List.any_eq_false]
      exact .inr fun f hmem => by simp [hf f hmem]
  intro s1
  change execStoreBufferDrain slot s = _
  simp only [execStoreBufferDrain, h, hb, hgo, Bool.false_eq_true, if_false, List.isEmpty_iff]
  rfl
end

/-! ### Evictions (R252) -/

theorem lineVa_lineVa (va : Word) : lineVa (lineVa va) = lineVa va := by
  have hlt : va.toNat / 128 * 128 < 2 ^ 64 := lt_of_le_of_lt (Nat.div_mul_le_self _ _) va.isLt
  simp only [lineVa, BitVec.toNat_ofNat, Nat.mod_eq_of_lt hlt]
  congr 1
  omega

theorem exec_evict_absent {s : State} {core : Nat} {line : Word} (h : ∀ l ∈ (s.core core).l1, l.va ≠ lineVa line) :
    exec (.homeSliceWrite core line) s = .next s := by
  have hnone : (s.core core).l1.find? (fun l => l.va = lineVa line) = none := List.find?_eq_none.2 fun l hl => by simpa using h l hl
  change execHomeSliceWrite core line s = _
  simp [execHomeSliceWrite, hnone]

/-- A line of a core evicted is gone from it; a dirty one is written back. -/
theorem exec_evict {s : State} {core : Nat} {line : Word} {l : L1Line} (h : (s.core core).l1.find? (fun l => l.va = lineVa line) = some l) :
    let s1 := s.modCore core fun c => { c with l1 := c.l1.filter fun x => ¬ (x.va = l.va ∧ x.ctx = l.ctx ∧ x.gen = l.gen) }
    exec (.homeSliceWrite core line) s = .next (if l.dirty = 0 then s1 else s1.writeBack core l) := by
  have hva : l.va = lineVa line := by simpa using List.find?_some h
  have his : ∀ x : L1Line, (!x.is l.va l.ctx l.gen) = decide (¬ (x.va = l.va ∧ x.ctx = l.ctx ∧ x.gen = l.gen)) := by
    intro x
    simp [L1Line.is, hva, lineVa_lineVa, Bool.or_assoc]
  intro s1
  change execHomeSliceWrite core line s = _
  simp only [execHomeSliceWrite, h, State.evict, his]
  rfl

/-! ### Additions (R136, R163) -/

theorem foldl_mem {α : Type} {f : State → α → State} (h : ∀ x a, (f x a).mem = x.mem) (l : List α) (s : State) :
    (l.foldl f s).mem = s.mem := by
  induction l generalizing s with
  | nil => rfl
  | cons a l ih => rw [List.foldl_cons, ih, h]

theorem postAll_mem (s : State) (l : List Instr) : (s.postAll l).mem = s.mem := by
  induction l generalizing s with
  | nil => rfl
  | cons i l ih => rw [State.postAll, ih, State.postOnce_mem]

theorem noticeQueues_mem (s : State) (pa : Nat) (v : Word) : (s.noticeQueues pa v).mem = s.mem := by
  unfold State.noticeQueues
  refine (foldl_mem (fun x a => ?_) _ _).trans ((foldl_mem (fun x a => ?_) _ _).trans (foldl_mem (fun x a => ?_) _ s))
  · exact State.postOnce_mem _ _
  · exact State.postOnce_mem _ _
  · rfl

/-- An addition writes the sum, and where no strand waits at the slice nothing else of memory. -/
theorem counterAdd_mem {s : State} {pa : Nat} (d : Word) (hl : s.lostAt pa 8 = false)
    (h : isPad pa = true ∨ ((s.field (fieldOfPa pa)).monitors[sliceOf pa]?).getD [] = []) :
    (s.counterAdd pa d).mem = Mem.write s.mem pa (bytesOf 8 (s.dwAt pa + d).toNat) := by
  have hpost : ∀ (x : State) (c : Prop) [Decidable c] (i : Instr), (if c then x else x.postOnce i).mem = x.mem := by
    intro x c _ i
    split <;> simp
  simp only [State.counterAdd, hl, Bool.false_eq_true, if_false, State.noticeEgress, postAll_mem, noticeQueues_mem]
  split
  · split
    · rw [State.postOnce_mem, hpost]
      exact slicePut_mem _ h
    · rw [hpost]
      exact slicePut_mem _ h
  · rw [hpost]
    exact slicePut_mem _ h

theorem touchL2_lostAt (s : State) (pa ctx a n : Nat) : (s.touchL2 pa ctx).lostAt a n = s.lostAt a n := by
  have hmarks : (s.touchL2 pa ctx).uncorr = s.uncorr ∧ (s.touchL2 pa ctx).poison = s.poison := by
    unfold State.touchL2
    split
    · exact ⟨rfl, rfl⟩
    · simp only
      split
      · exact ⟨rfl, rfl⟩
      · split <;> exact ⟨rfl, rfl⟩
  rw [State.lostAt, hmarks.1, hmarks.2, State.lostAt]

theorem dwAt_of_write {s t : State} {pa : Nat} {w : Word} (h : t.mem = Mem.write s.mem pa (bytesOf 8 w.toNat)) : t.dwAt pa = w := by
  have hread := Mem.bytes_write_same s.mem pa (bytesOf 8 w.toNat)
  rw [length_bytesOf] at hread
  rw [State.dwAt, State.bytesAt, h, hread, wordOfBytes_bytesOf]

/-- An addition leaves the sum in a counter that is not lost. -/
theorem addAt_dwAt {s : State} {ctx pa : Nat} (d : Word) (hl : s.lostAt pa 8 = false)
    (h : isPad pa = true ∨ ((s.field (fieldOfPa pa)).monitors[sliceOf pa]?).getD [] = []) : (s.addAt ctx pa d).dwAt pa = s.dwAt pa + d := by
  have hsame : (s.touchL2 pa ctx).dwAt pa = s.dwAt pa := by rw [State.dwAt, State.bytesAt, touchL2_mem]; rfl
  rw [State.addAt, dwAt_of_write (counterAdd_mem d (by rwa [touchL2_lostAt]) (by rwa [touchL2_monitors])), hsame]

theorem exec_addition {s : State} {field : Nat} {x : Adding} {t : List Adding} (h : (s.field field).adds = x :: t) :
    exec (.counterAddition field) s =
      .next (((s.modField field fun y => { y with adds := t }).addAt x.ctx x.pa x.val).postOnce (.counterAddition field)) := by
  change execCounterAddition field s = _
  simp [execCounterAddition, h]

/-- With no addition on its way the virtual functions' additions have their turn (R541). -/
theorem exec_addition_none {s : State} {field : Nat} (h : (s.field field).adds = []) :
    exec (.counterAddition field) s = .next (s.devTurn field) := by
  change execCounterAddition field s = _
  simp [execCounterAddition, h]

theorem devTurn_idle {s : State} {field : Nat} (h : ∀ n p, s.partOfField field = some (n, p) → p.phys 0 ≠ some field ∨ p.devs = []) :
    s.devTurn field = s := by
  unfold State.devTurn
  split
  · next n p hp =>
    split
    · next hf =>
      rw [(h n p hp).resolve_left (not_not_intro hf)]
      rfl
    · rfl
  · rfl

/-! ### Sweeps of overflow lists (R140) -/

/-- One record of a sweep, with the records that are kept. -/
def State.sweepStep (field slice : Nat) (y : State × List Monitor) (m : Monitor) : State × List Monitor :=
  ((y.1.sweepOne field slice m).1, y.2 ++ (y.1.sweepOne field slice m).2.toList)

theorem foldl_sweepStep (field slice : Nat) (l : List Monitor) (s : State) (kept : List Monitor) :
    l.foldl (State.sweepStep field slice) (s, kept) = ((s.sweepAll field slice l).1, kept ++ (s.sweepAll field slice l).2) := by
  induction l generalizing s kept with
  | nil => simp [State.sweepAll]
  | cons m l ih => simp [State.sweepStep, State.sweepAll, ih]

/-- What a sweep keeps are records of the list, in order. -/
theorem sweepAll_sublist (s : State) (field slice : Nat) (l : List Monitor) : (s.sweepAll field slice l).2.Sublist l := by
  induction l generalizing s with
  | nil => exact List.Sublist.slnil
  | cons m l ih =>
    have hkept : (s.sweepOne field slice m).2 = none ∨ (s.sweepOne field slice m).2 = some m := by
      unfold State.sweepOne
      split
      · exact .inl rfl
      · simp only
        split
        · exact .inl rfl
        · exact .inr rfl
    rcases hkept with h | h
    · simpa [State.sweepAll, h] using (ih _).cons m
    · simpa [State.sweepAll, h] using ih _

section
variable {s : State} {field slice : Nat}

theorem exec_sweep_linking (h : ∃ m ∈ ((s.field field).overflow[slice]?).getD [], s.stillLinking m.uid = true) :
    exec (.overflowSweep field slice) s = .next (s.postAt (s.time + 1) (.overflowSweep field slice)) := by
  change execOverflowSweep field slice s = _
  simp only [execOverflowSweep, List.any_eq_true.2 h, if_true]

/-- The state from which the records of a list are swept, their list empty. -/
def State.sweeping (s : State) (field slice : Nat) : State :=
  s.modField field fun x => { x with overflow := x.overflow.mapIdx fun i r => if i = slice then [] else r }

theorem exec_sweep (h : ∀ m ∈ ((s.field field).overflow[slice]?).getD [], s.stillLinking m.uid = false) :
    let r := (s.sweeping field slice).sweepAll field slice (((s.field field).overflow[slice]?).getD [])
    exec (.overflowSweep field slice) s = .next ((r.1.modField field fun x =>
      { x with overflow := x.overflow.mapIdx fun i q => if i = slice then r.2 ++ q else q }).putLists field) := by
  have hany : ((((s.field field).overflow[slice]?).getD []).any fun m => s.stillLinking m.uid) = false :=
    List.any_eq_false.2 fun m hm => by simp [h m hm]
  intro r
  change execOverflowSweep field slice s = _
  simp only [execOverflowSweep, hany, Bool.false_eq_true, if_false]
  rfl
end

/-! #### One record -/

theorem relink_strands (s : State) (l : List Nat) : (s.relink l).strands = s.strands := by
  induction l generalizing s with
  | nil => rfl
  | cons u l ih =>
    rw [State.relink, ih]
    split <;> rfl

/-- A record brought up to date changes STAT of its strand alone. -/
theorem restat_strand {s : State} {u : Nat} {t : Strand} (h : tget s.strands u = some t) :
    ∃ w, tget (s.restat u).strands u = some { t with stat := w } := by
  unfold State.restat
  simp only [h]
  split
  · exact ⟨_, tget_tput_same _ _ _⟩
  · exact ⟨_, tget_tput_same _ _ _⟩

theorem restat_field (s : State) (u n : Nat) : (s.restat u).field n = s.field n := by
  unfold State.restat
  split
  · rfl
  · split <;> rfl

theorem withPrio_waits (t : Strand) (w : Word) : (t.withPrio w).waitK = t.waitK ∧ (t.withPrio w).met = t.met := by
  unfold Strand.withPrio
  split <;> exact ⟨rfl, rfl⟩

/-- A strand whose record goes onto a ready queue waits for what it waited for. -/
theorem toReady_strand {s : State} {u : Nat} {t : Strand} (h : tget s.strands u = some t) (tile : Nat) :
    ∃ y, tget (s.toReady u tile).strands u = some y ∧ y.waitK = t.waitK ∧ y.met = t.met := by
  have hrest : ∀ (x : State) (z : Strand), ∃ w, tget ((x.setStrand u z).restat u).strands u = some { z with stat := w } :=
    fun x z => restat_strand (tget_tput_same _ _ _)
  unfold State.toReady
  simp only [h, State.postOnce_strands, relink_strands, State.modTile_strands]
  obtain ⟨w, hw⟩ := hrest _ _
  exact ⟨_, hw, withPrio_waits t _⟩

/-- A waiting strand that is made ready waits for nothing. -/
theorem makeReady_waiting {s : State} {u : Nat} {t : Strand} (h : tget s.strands u = some t) (hp : t.place = .waiting) :
    ∃ y, tget (s.makeReady u).strands u = some y ∧ y.waitK = .none ∧ y.met = t.met := by
  have hready : ∀ z : Strand, ∃ y, tget ((s.setStrand u z).toReady u t.home).strands u = some y ∧ y.waitK = z.waitK ∧ y.met = z.met :=
    fun z => toReady_strand (tget_tput_same _ _ _) _
  unfold State.makeReady
  simp only [h, hp]
  exact hready _

section
variable {s : State} {field slice : Nat} {m : Monitor}

theorem sweepOne_met (h : m.thr.toNat ≤ (s.dwAt m.pa).toNat) :
    s.sweepOne field slice m = ((s.modStrand m.uid fun x => { x with met := some m.pa }).makeReady m.uid, none) := by
  simp [State.sweepOne, h]

/-- A record whose counter meets its threshold is made ready, and remembers that it does (R140). -/
theorem sweepOne_met_strand {x : Strand} (h : m.thr.toNat ≤ (s.dwAt m.pa).toNat) (hx : tget s.strands m.uid = some x) (hp : x.place = .waiting) :
    ∃ y, tget (s.sweepOne field slice m).1.strands m.uid = some y ∧ y.waitK = .none ∧ y.met = some m.pa := by
  rw [sweepOne_met h]
  exact makeReady_waiting (t := { x with met := some m.pa }) (by simp [hx]) hp

theorem sweepOne_moved (h : (s.dwAt m.pa).toNat < m.thr.toNat) (hl : (((s.field field).monitors[slice]?).getD []).length < 256) :
    s.sweepOne field slice m =
      (((s.modField field fun x => { x with monitors := x.monitors.mapIdx fun i r => if i = slice then r ++ [m] else r }).modStrand m.uid
        fun x => { x with waitK := .cwaitMon }).restat m.uid, none) := by
  have hroom : (((s.field field).monitors[slice]?).getD []).length < monitorSize := hl
  simp only [State.sweepOne, not_le.2 h, if_false, hroom, if_true]
  rfl

theorem sweepOne_kept (h : (s.dwAt m.pa).toNat < m.thr.toNat) (hl : 256 ≤ (((s.field field).monitors[slice]?).getD []).length) :
    s.sweepOne field slice m = (s, some m) := by
  have hfull : ¬ (((s.field field).monitors[slice]?).getD []).length < monitorSize := not_lt.2 hl
  simp only [State.sweepOne, not_le.2 h, if_false, hfull]

theorem getD_mapIdx_append (l : List (List Monitor)) (h : slice < l.length) :
    ((l.mapIdx fun i r => if i = slice then r ++ [m] else r)[slice]?).getD [] = (l[slice]?).getD [] ++ [m] := by
  simp [List.getElem?_eq_getElem h]

/-- A record that moves takes a monitor entry of the slice (R140). -/
theorem sweepOne_moved_monitors (h : (s.dwAt m.pa).toNat < m.thr.toNat) (hl : (((s.field field).monitors[slice]?).getD []).length < 256)
    (hs : slice < (s.field field).monitors.length) :
    (((s.sweepOne field slice m).1.field field).monitors[slice]?).getD [] = ((s.field field).monitors[slice]?).getD [] ++ [m] := by
  rw [sweepOne_moved h hl, restat_field, State.modStrand_field, State.modField_field]
  exact getD_mapIdx_append _ hs

theorem sweeping_dwAt (s : State) (field slice pa : Nat) : (s.sweeping field slice).dwAt pa = s.dwAt pa := rfl

theorem sweeping_monitors (s : State) (field slice : Nat) : ((s.sweeping field slice).field field).monitors = (s.field field).monitors := by
  simp [State.sweeping]

end

/-- A step of the statement's sweep is a step of the model's. -/
theorem sweepStep_eq (field slice : Nat) (y : State × List Monitor) (m : Monitor) :
    (if m.thr.toNat ≤ (y.1.dwAt m.pa).toNat then
        ((y.1.modStrand m.uid fun x => { x with met := some m.pa }).makeReady m.uid, y.2)
      else if (((y.1.field field).monitors[slice]?).getD []).length < 256 then
        (((y.1.modField field fun x => { x with monitors := x.monitors.mapIdx fun i r => if i = slice then r ++ [m] else r }).modStrand
          m.uid fun x => { x with waitK := .cwaitMon }).restat m.uid, y.2)
      else (y.1, y.2 ++ [m])) = State.sweepStep field slice y m := by
  split
  · next h => simp [State.sweepStep, sweepOne_met h]
  · next h =>
    split
    · next hl => simp [State.sweepStep, sweepOne_moved (not_le.1 h) hl]
    · next hl => simp [State.sweepStep, sweepOne_kept (not_le.1 h) (not_lt.1 hl)]

theorem modField_monitors {s : State} {n : Nat} {f : Field → Field} (hf : (f (s.field n)).monitors = (s.field n).monitors) (g : Nat) :
    ((s.modField n f).field g).monitors = (s.field g).monitors := by
  by_cases hg : g = n
  · subst hg
    simpa using hf
  · rw [State.modField_field_other _ _ _ _ hg]

/-! ### Sweeps of fault lists (R398) -/

/-- The page of a waiter's address is there. -/
def State.pagePresent (s : State) (field : Nat) (w : FaultWait) : Bool :=
  match tget s.parts w.part with
  | none => true
  | some p =>
    match s.walk p field w.ctx w.va with
    | .notPresent | .malformed => false
    | _ => true

/-- Settles O42. -/
theorem memoryActsPerformWhatIsPosted : Obligations.memory_acts_perform_what_is_posted := by
  intro s slot core field slice line
  refine ⟨exec_drain_unslotted, ?_, exec_evict_absent, ?_, ?_, ?_, ?_, ?_⟩
  · intro sl hs
    refine ⟨exec_drain_empty hs, fun x => exec_drain_unstarted hs, ?_⟩
    intro x t hb hf ctx gen s0 again
    have hx := exec_drain_entry hs hb hf
    refine ⟨?_, ?_, ?_⟩
    · rintro va pa v rfl
      exact hx
    · rintro org rfl
      exact hx
    · rintro org el es rfl
      exact hx
  · intro l hl s1
    have h := exec_evict hl
    exact ⟨fun hd => h.trans (by rw [if_pos hd]), fun hd => h.trans (by rw [if_neg hd])⟩
  · intro x t h s1
    exact ⟨exec_addition h, fun hl hm => addAt_dwAt _ hl (by rwa [modField_monitors rfl])⟩
  · intro h
    exact ⟨exec_addition_none h, devTurn_idle⟩
  · intro l keep emptied one r
    have hr : r = State.sweepAll (s.sweeping field slice) field slice l := by
      have hone : one = State.sweepStep field slice := funext fun y => funext fun m => sweepStep_eq field slice y m
      simp only [r, hone]
      exact foldl_sweepStep field slice l _ []
    have hone_record : ∀ m, l = [m] → r = ((State.sweepOne (s.sweeping field slice) field slice m).1,
        (State.sweepOne (s.sweeping field slice) field slice m).2.toList) := by
      intro m hm
      rw [hr, hm]
      simp [State.sweepAll]
    refine ⟨exec_sweep_linking, fun h => ⟨?_, ?_⟩, fun m hm hw => ⟨fun hmet => ?_, fun hlow hl hs => ?_, fun hlow hl => ?_⟩⟩
    · rw [hr]
      exact exec_sweep h
    · rw [hr]
      exact sweepAll_sublist _ _ _ _
    · rw [← sweeping_dwAt s field slice] at hmet
      rw [hone_record m hm]
      exact ⟨by rw [sweepOne_met hmet]; rfl, fun x hx => sweepOne_met_strand hmet hx (hw x hx)⟩
    · rw [← sweeping_dwAt s field slice] at hlow
      rw [← sweeping_monitors s field slice] at hl hs ⊢
      rw [hone_record m hm]
      exact ⟨by rw [sweepOne_moved hlow hl]; rfl, sweepOne_moved_monitors hlow hl hs⟩
    · rw [← sweeping_dwAt s field slice] at hlow
      rw [← sweeping_monitors s field slice] at hl
      rw [hone_record m hm, sweepOne_kept hlow hl]
      rfl
  · intro absent stay go
    have habsent : absent = fun w => !s.pagePresent field w := funext fun w => by
      simp only [absent, State.pagePresent]
      cases tget s.parts w.part with
      | none => rfl
      | some p =>
        simp only
        cases s.walk p field w.ctx w.va <;> rfl
    simp only [stay, go, habsent, Bool.not_not]
    rfl

end Sys2Proof.Machine
end

section
/-! PROOFS. Canonical memory (log 3): every operation on a state keeps it. The writes go through `Mem.wf_write` (R119); here the
operations of the scalar side, of the records and of the arena. -/

namespace Sys2Proof.Machine

-- Proofs are elaborated one after another, as the tests are: the whole text has to fit the check's memory.
set_option Elab.async false

namespace Canonical

section
variable {s t : State}

/-- A change of other fields. -/
theorem same (h : Canonical s) (hm : t.mem = s.mem := by rfl) : Canonical t := ⟨hm ▸ h.wf⟩

theorem setCore {n : Nat} {x : Core} (h : Canonical s) : Canonical (s.setCore n x) := ⟨h.wf⟩
theorem modCore {n : Nat} {f : Core → Core} (h : Canonical s) : Canonical (s.modCore n f) := ⟨h.wf⟩
theorem setTile {n : Nat} {x : Tile} (h : Canonical s) : Canonical (s.setTile n x) := ⟨h.wf⟩
theorem modTile {n : Nat} {f : Tile → Tile} (h : Canonical s) : Canonical (s.modTile n f) := ⟨h.wf⟩
theorem setField {n : Nat} {x : Field} (h : Canonical s) : Canonical (s.setField n x) := ⟨h.wf⟩
theorem modField {n : Nat} {f : Field → Field} (h : Canonical s) : Canonical (s.modField n f) := ⟨h.wf⟩
theorem setStrand {n : Nat} {x : Strand} (h : Canonical s) : Canonical (s.setStrand n x) := ⟨h.wf⟩
theorem modStrand {n : Nat} {f : Strand → Strand} (h : Canonical s) : Canonical (s.modStrand n f) := ⟨h.wf⟩
theorem setSlot {n : Nat} {x : Slot} (h : Canonical s) : Canonical (s.setSlot n x) := ⟨h.wf⟩
theorem modSlot {n : Nat} {f : Slot → Slot} (h : Canonical s) : Canonical (s.modSlot n f) := ⟨h.wf⟩
theorem setPart {n : Nat} {x : Partition} (h : Canonical s) : Canonical (s.setPart n x) := ⟨h.wf⟩
theorem modPart {n : Nat} {f : Partition → Partition} (h : Canonical s) : Canonical (s.modPart n f) := ⟨h.wf⟩
theorem setTask {n : Nat} {x : Task} (h : Canonical s) : Canonical (s.setTask n x) := ⟨h.wf⟩
theorem modTask {n : Nat} {f : Task → Task} (h : Canonical s) : Canonical (s.modTask n f) := ⟨h.wf⟩
theorem modPort {n : Nat} {f : Port → Port} (h : Canonical s) : Canonical (s.modPort n f) := ⟨h.wf⟩
theorem post {a : Turn} (h : Canonical s) : Canonical (s.post a) := ⟨h.wf⟩
theorem postAt {d : Nat} {i : Instr} (h : Canonical s) : Canonical (s.postAt d i) := ⟨h.wf⟩
theorem postOnce {i : Instr} (h : Canonical s) : Canonical (s.postOnce i) := h.same (by simp)
theorem postSlot {k : Nat} (h : Canonical s) : Canonical (s.postSlot k) := h.same (by simp)
theorem postAll {l : List Instr} (h : Canonical s) : Canonical (s.postAll l) := h.same (postAll_mem s l)
theorem putAt {pa : Nat} {bs : List Byte} (h : Canonical s) : Canonical (s.putAt pa bs) := ⟨s.putAt_wf h.wf pa bs⟩
theorem putDw {pa : Nat} {w : Word} (h : Canonical s) : Canonical (s.putDw pa w) := h.putAt
theorem setPoison {pa : Nat} (h : Canonical s) : Canonical (s.setPoison pa) := ⟨h.wf⟩
theorem zeroRange {lo n : Nat} (h : Canonical s) : Canonical (s.zeroRange lo n) := ⟨s.zeroRange_wf h.wf lo n⟩

theorem foldl {α : Type} {f : State → α → State} (hf : ∀ x a, Canonical x → Canonical (f x a)) {l : List α} (h : Canonical s) :
    Canonical (l.foldl f s) := by
  induction l generalizing s with
  | nil => exact h
  | cons a l ih => exact ih (hf s a h)

theorem postUnless {c : Prop} [Decidable c] {i : Instr} (h : Canonical s) : Canonical (if c then s else s.postOnce i) := by
  split
  · exact h
  · exact h.postOnce

theorem postWhen {c : Prop} [Decidable c] {i : Instr} (h : Canonical s) : Canonical (if c then s.postOnce i else s) := by
  split
  · exact h.postOnce
  · exact h

/-! ### What changes no store buffer -/

theorem restat {u : Nat} (h : Canonical s) : Canonical (s.restat u) := (Quiet.refl s).restat.canonical h
theorem relink {l : List Nat} (h : Canonical s) : Canonical (s.relink l) := (Quiet.refl s).relink.canonical h
theorem toReady {u tile : Nat} (h : Canonical s) : Canonical (s.toReady u tile) := (Quiet.refl s).toReady.canonical h
theorem queueTogether (h : Canonical s) : Canonical s.queueTogether := (Quiet.refl s).queueTogether.canonical h
theorem makeReady {u : Nat} (h : Canonical s) : Canonical (s.makeReady u) := (Quiet.refl s).makeReady.canonical h
theorem slicePut {pa : Nat} {bs : List Byte} (h : Canonical s) : Canonical (s.slicePut pa bs) := (Quiet.refl s).slicePut.canonical h
theorem sliceDw {pa : Nat} {w : Word} (h : Canonical s) : Canonical (s.sliceDw pa w) := h.slicePut
theorem counterAdd {pa : Nat} {d : Word} (h : Canonical s) : Canonical (s.counterAdd pa d) := (Quiet.refl s).counterAdd.canonical h
theorem touchL2 {pa ctx : Nat} (h : Canonical s) : Canonical (s.touchL2 pa ctx) := (Quiet.refl s).touchL2.canonical h
theorem addAt {ctx pa : Nat} {d : Word} (h : Canonical s) : Canonical (s.addAt ctx pa d) := (Quiet.refl s).addAt.canonical h
theorem noteFault {n : Nat} {r : Vector Word 7} (h : Canonical s) : Canonical (s.noteFault n r) := (Quiet.refl s).noteFault.canonical h
theorem postDev {n : Nat} {d : DevOp} (h : Canonical s) : Canonical (s.postDev n d) := (Quiet.refl s).postDev.canonical h
theorem place {user : Bool} {r : Req} {x : State × Nat} (h : Canonical s) (hx : s.place user r = .ok x) : Canonical x.1 :=
  ((Quiet.refl s).place hx).canonical h
theorem undoLogWith {w : Writer} {va : Word} {pre : List Byte} {marks : List Nat} (h : Canonical s)
    (hu : s.undoLogWith w va pre marks = some (some t)) : Canonical t := ((Quiet.refl s).undoLogWith hu).canonical h
theorem logFull {w : Writer} (h : Canonical s) : Canonical (s.logFull w) := (Quiet.refl s).logFull.canonical h
theorem dropRdc {f : Nat} {va : Word} {ctx : Nat} (h : Canonical s) : Canonical (s.dropRdc f va ctx) := ⟨h.wf⟩
theorem dropRdcOver {f : Nat} {va : Word} {n ctx : Nat} (h : Canonical s) : Canonical (s.dropRdcOver f va n ctx) := ⟨h.wf⟩
theorem homeWrite {w : Writer} {va : Word} {pa : Nat} {bs : List Byte} (h : Canonical s) : Canonical (s.homeWrite w va pa bs) :=
  (Quiet.refl s).homeWrite.canonical h
theorem writeBack {c : Nat} {l : L1Line} (h : Canonical s) : Canonical (s.writeBack c l) := (Quiet.refl s).writeBack.canonical h
theorem evict {c : Nat} {l : L1Line} (h : Canonical s) : Canonical (s.evict c l) := (Quiet.refl s).evict.canonical h
theorem putLine {c : Nat} {l : L1Line} (h : Canonical s) : Canonical (s.putLine c l) := (Quiet.refl s).putLine.canonical h
theorem refetch {c : Nat} {l : L1Line} {m : BitVec 32} (h : Canonical s) : Canonical (s.refetch c l m).1 :=
  (Quiet.refl s).refetch.canonical h
theorem openLine {c : Nat} {l : L1Line} (h : Canonical s) : Canonical (s.openLine c l).1 := (Quiet.refl s).openLine.canonical h
theorem fillLine {f : Nat} {va : Word} {ctx : Nat} {gen : BitVec 16} {pa : Nat} (h : Canonical s) :
    Canonical (s.fillLine f va ctx gen pa).1 := (Quiet.refl s).fillLine.canonical h
theorem storeFill {k : Nat} {va : Word} {ctx : Nat} {gen : BitVec 16} {pa n : Nat} (h : Canonical s) :
    Canonical (s.storeFill k va ctx gen pa n).1 := (Quiet.refl s).storeFill.canonical h
theorem endGrid {k : Nat} {tval tpc hdr : Word} (h : Canonical s) : Canonical (s.endGrid k tval tpc hdr) := (Quiet.refl s).endGrid.canonical h
theorem assayAt {pa : Nat} (h : Canonical s) : Canonical (s.assayAt pa) := (Quiet.refl s).assayAt.canonical h
theorem flushLine {c : Nat} {va : Word} {ctx : Nat} (h : Canonical s) : Canonical (s.flushLine c va ctx) :=
  (Quiet.refl s).flushLine.canonical h
theorem writeBackSlot {k : Nat} (h : Canonical s) : Canonical (s.writeBackSlot k) := (Quiet.refl s).writeBackSlot.canonical h
theorem performEntry {k ctx : Nat} {gen : BitVec 16} {e : StoreEntry} (h : Canonical s) : Canonical (s.performEntry k ctx gen e) :=
  (Quiet.refl s).performEntry.canonical h

/-! ### Store buffers, releases and acquires -/

theorem drain {k : Nat} (h : Canonical s) : Canonical (s.drain k) := by
  cases hs : tget s.slots k with
  | none => rwa [drain_none hs]
  | some sl =>
    rw [drain_eq hs]
    exact foldl (fun _ _ h => h.performEntry) h.setSlot

theorem release {k : Nat} {sc : Scope} (h : Canonical s) : Canonical (s.release k sc) := by
  cases sc
  case strand => exact h.drain
  all_goals exact h.drain.writeBackSlot

theorem acquire {k : Nat} {sc : Scope} (h : Canonical s) : Canonical (s.acquire k sc) := by
  cases sc <;> exact h.same

/-! ### The arena and the streams -/

theorem setPinDw {p : Partition} {va : Word} {o : Nat} {w : Word} (h : Canonical s) : Canonical (s.setPinDw p va o w) := by
  unfold State.setPinDw
  split
  · exact h.sliceDw
  · exact h

theorem putDws {pa : Nat} {l : List Word} (h : Canonical s) : Canonical (s.putDws pa l) := by
  induction l generalizing s pa with
  | nil => exact h
  | cons w l ih => exact ih h.putDw

theorem writeRecord {u : Nat} (h : Canonical s) : Canonical (s.writeRecord u) := by
  unfold State.writeRecord
  split
  · exact h
  · split
    · exact h
    · exact h.putDws

theorem reprio {u n : Nat} (h : Canonical s) : Canonical (s.reprio u n) := by
  unfold State.reprio
  split
  · exact h
  · simp only
    split
    · exact h
    · split
      · exact h.setStrand
      · exact h.setStrand.putDw

theorem relinkWaits {u : Nat} (h : Canonical s) : Canonical (s.relinkWaits u) := foldl (fun _ _ h => h.relink) h

theorem offReady {u tile : Nat} (h : Canonical s) : Canonical (s.offReady u tile) := by
  unfold State.offReady
  exact foldl (fun _ _ h => h.relink) h.modTile

theorem retrySpill {u : Nat} (h : Canonical s) : Canonical (s.retrySpill u) := by
  unfold State.retrySpill
  split
  · exact h
  · split
    · split
      · split
        · exact h.setSlot.postOnce
        · exact h
      · exact h
    · exact h

theorem wakeStrand {w : Waiter} (h : Canonical s) : Canonical (s.wakeStrand w) := by
  unfold State.wakeStrand
  split
  · exact h.makeReady
  · exact h.retrySpill
  · exact h

theorem noteFree {n : Nat} (h : Canonical s) : Canonical (s.noteFree n) := by
  unfold State.noteFree
  split
  · exact h
  · exact h.setPinDw

theorem allocArena {part n al : Nat} {low : Bool} {x : State × Word} (h : Canonical s) (hx : s.allocArena part n al low = some x) :
    Canonical x.1 := by
  unfold State.allocArena at hx
  split at hx
  · cases hx
  · cases low
    all_goals
      simp only [Bool.false_eq_true, if_true, if_false] at hx
      split at hx
      · cases hx
      · split at hx
        · cases hx
        · obtain rfl := Option.some.inj hx
          exact h.setPart.noteFree

theorem creationTurns (h : Canonical s) : Canonical s.creationTurns := h.postAll

theorem freeArena {part : Nat} {a : Word} {n : Nat} (h : Canonical s) : Canonical (s.freeArena part a n) := by
  unfold State.freeArena
  split
  · exact h
  · exact h.setPart.noteFree.postUnless.creationTurns

theorem bumpArena {part o : Nat} (h : Canonical s) : Canonical (s.bumpArena part o) := by
  unfold State.bumpArena
  split
  · exact h
  · split
    · exact h.counterAdd
    · exact h

theorem arenaPut {part : Nat} {va : Word} {bs : List Byte} (h : Canonical s) : Canonical (s.arenaPut part va bs) := by
  unfold State.arenaPut
  split
  · exact h
  · split
    · exact h.slicePut
    · exact h

theorem leaveStream {k : Nat} (h : Canonical s) : Canonical (s.leaveStream k) := h.modTile

theorem dropEntry {tile u : Nat} (h : Canonical s) : Canonical (s.dropEntry tile u) := h.modTile

theorem detach {k u : Nat} {a w : Word} (h : Canonical s) : Canonical (s.detach k u a w) := by
  unfold State.detach
  simp only
  split
  · exact h.leaveStream.modStrand
  · split
    · exact h.leaveStream.modStrand
    · exact h.leaveStream.modStrand.modTile

theorem passedWord {k u : Nat} {w a b hdr : Word} {widx : Nat} {taken : Bool} (h : Canonical s) :
    Canonical (s.passedWord k u w a b hdr widx taken) := by
  unfold State.passedWord
  simp only
  split
  · exact h
  · split
    · exact h
    · split
      · exact h.modSlot.modTile
      · split
        · exact h.modSlot.modTile
        · exact h.modSlot.detach

theorem discard {k : Nat} (h : Canonical s) : Canonical (s.discard k) := by
  unfold State.discard
  split
  · exact h
  · split
    · exact h
    · exact h.modStrand.setSlot

/-! ### Faults, suspensions, lists of waiters -/

theorem bumpPin {p : Partition} {va d : Word} (h : Canonical s) : Canonical (s.bumpPin p va d) := by
  unfold State.bumpPin
  split
  · exact h.counterAdd
  · exact h

theorem putPins {p : Partition} {va : Word} {l : List Word} (h : Canonical s) : Canonical (s.putPins p va l) := by
  induction l generalizing s va with
  | nil => exact h
  | cons w l ih => exact ih h.setPinDw

theorem flushDescs {p : Partition} {f : Nat} {l : List (List Word)} (h : Canonical s) : Canonical (s.flushDescs p f l) := by
  induction l generalizing s with
  | nil => exact h.modField
  | cons d l ih =>
    simp only [State.flushDescs]
    split
    · exact ih h.putPins.bumpPin
    · exact h.modField

theorem postDesc {f : Nat} {d : List Word} (h : Canonical s) : Canonical (s.postDesc f d) := by
  unfold State.postDesc
  split
  · exact h
  · exact h.flushDescs

theorem putLists {f : Nat} (h : Canonical s) : Canonical (s.putLists f) := by
  have hlink : Canonical ((s.field f).arenaLists.foldl State.relink s) := foldl (fun _ _ h => h.relink) h
  unfold State.putLists
  simp only
  split
  · exact hlink
  · split
    · exact hlink.arenaPut
    · split
      · exact hlink
      · split
        · next ha => exact (hlink.allocArena ha).modPart.arenaPut
        · exact hlink

theorem relist {x : State} {u : Nat} (h : Canonical s) : Canonical (s.relist x u) := foldl (fun _ _ h => h.putLists) h

theorem linkFault {f : Nat} {w : FaultWait} {d : List Word} (h : Canonical s) : Canonical (s.linkFault f w d) := h.modField.postDesc

theorem poisonBack {c : Nat} {va : Word} (h : Canonical s) : Canonical (s.poisonBack c va) :=
  foldl (fun _ _ h => h.writeBack.modCore) h

theorem assayAfter {part : Option AssayPart} {core : Nat} {c : FaultCode} {va : Word} (h : Canonical s) :
    Canonical (s.assayAfter part core c va) := by
  unfold State.assayAfter
  split
  · cases part with
    | none =>
      simp only
      split
      · exact h.poisonBack
      · exact h
    | some a =>
      simp only
      split
      · exact h.postOnce.poisonBack
      · exact h.postOnce
  · exact h

theorem raise {k : Nat} {c : FaultCode} {v : Word} {entry lost : Bool} (h : Canonical s) : Canonical (s.raise k c v entry lost) := by
  unfold State.raise
  split
  · exact h
  · split
    · exact h
    · simp only
      split
      · exact h.setStrand.setSlot
      · split
        · exact h.setStrand.setSlot.setTask.noteFault.assayAfter
        · exact h.setStrand.setSlot.noteFault.assayAfter

theorem suspend {k : Nat} {w : WaitKind} {a v : Word} (h : Canonical s) : Canonical (s.suspend k w a v) := h.same (suspend_mem s k w a v)

theorem putJob {tile : Nat} {j : Job} (h : Canonical s) : Canonical (s.putJob tile j) := h.modTile

theorem haltJob {tile : Nat} {j : Job} {w : JobStop} (h : Canonical s) : Canonical (s.haltJob tile j w) := h.putJob.postSlot.postOnce

theorem haltPreempted {tile : Nat} (h : Canonical s) : Canonical (s.haltPreempted tile) := by
  unfold State.haltPreempted
  split
  · exact h
  · exact foldl (fun _ _ h => h.haltJob) h

theorem pageFault {k : Nat} {va : Word} {f : Nat} {acc : Acc} {m : Bool} (h : Canonical s) : Canonical (s.pageFault k va f acc m) := by
  unfold State.pageFault
  split
  · exact h
  · split
    · exact h
    · split
      · exact h
      · exact h.suspend.linkFault

theorem joinPromo {f : Nat} {entry : Word} {big : Bool} {slot : Nat} {w : Held} (h : Canonical s) :
    Canonical (s.joinPromo f entry big slot w) := by
  unfold State.joinPromo
  simp only
  split
  · exact h.setField
  · exact h.setField.postOnce

theorem tierMiss {k : Nat} {va : Word} {f : Nat} {acc : Acc} {entry : Word} {big : Bool} {slot : Nat} {at_ : Bool} (h : Canonical s) :
    Canonical (s.tierMiss k va f acc entry big slot at_) := by
  unfold State.tierMiss
  split
  · exact h
  · split
    · exact h
    · split
      · split
        · exact h.suspend.joinPromo
        · exact h.raise
      · exact h

/-! ### What stops a word -/

theorem carryStop {k : Nat} {w : JobStop} {b : Bool} (h : Canonical s) : Canonical (s.carryStop k w b) := by
  unfold State.carryStop
  split
  · exact h.pageFault
  · exact h.tierMiss
  · exact h

theorem strikeStop {k : Nat} {w : JobStop} {b : Bool} (h : Canonical s) : Canonical (s.strikeStop k w b) := by
  unfold State.strikeStop
  simp only
  split
  · exact h.discard.modSlot
  · exact h.discard.carryStop

theorem awaitReply {k : Nat} {l : Lost} (h : Canonical s) : Canonical (s.awaitReply k l) := h.modSlot.postAt

end
end Canonical

/-! ### Results -/

/-- A result keeps memory canonical: by `P` what it answers, and the state of a word that has only begun. -/
def Keeps {α : Type} (P : α → Prop) : Res α → Prop
  | .ok a => P a
  | .error (.become s) => Canonical s
  | .error _ => True

namespace Keeps

section
variable {α β : Type} {P : α → Prop} {Q : β → Prop} {r : Res α}

/-- What stops one result stops another. -/
theorem error {x : Stop} (h : Keeps P r) (hx : r = .error x) : Keeps Q (.error x : Res β) := by
  subst hx
  cases x <;> exact h

theorem ok {a : α} (h : Keeps P r) (ha : r = .ok a) : P a := by
  subst ha
  exact h

theorem bind {f : α → Res β} (h : Keeps P r) (hf : ∀ a, P a → Keeps Q (f a)) : Keeps Q (r >>= f) := by
  cases r with
  | error x => exact h.error rfl
  | ok a => exact hf a h

theorem map {f : α → β} (h : Keeps P r) (hf : ∀ a, P a → Q (f a)) : Keeps Q (r.map f) := by
  cases r with
  | error x => exact h.error rfl
  | ok a => exact hf a h

/-- A check changes no state. -/
theorem of_faultIf {b : Bool} {c : FaultCode} {v : Word} : Keeps (fun _ => True) (faultIf b c v) := by
  unfold faultIf
  split <;> exact trivial

theorem fault {c : FaultCode} {v : Word} : Keeps P (failWith c v) := trivial

end

end Keeps

end Sys2Proof.Machine
end

section
/-! PROOFS. Canonical memory, the words: places, window actions, sequencing, operations, and what a word leaves however it goes. -/

namespace Sys2Proof.Machine

-- Proofs are elaborated one after another, as the tests are: the whole text has to fit the check's memory.
set_option Elab.async false

section
variable {s : State} {e : Env}

/-! ### Places and the register stack -/

theorem Keeps.of_findLeaf {p : Partition} {f : Nat} {r : Req} (h : Canonical s) : Keeps (fun x => Canonical x.1) (s.findLeaf p f r) := by
  unfold State.findLeaf
  simp only
  split
  · exact h
  · split
    · exact trivial
    · exact trivial
    · exact trivial
    · split
      · exact h.setField
      · exact Keeps.fault

theorem Canonical.touchLeaf {f slot : Nat} {w : Word} {acc : Acc} (h : Canonical s) : Canonical (s.touchLeaf f slot w acc).1 :=
  (Quiet.refl s).touchLeaf.canonical h

theorem Keeps.of_translateAt {f : Nat} {r : Req} (h : Canonical s) : Keeps (fun x => Canonical x.1) (s.translateAt f r) := by
  unfold State.translateAt
  split
  · exact Keeps.fault
  · split
    · exact Keeps.fault
    · split
      · next hx => exact (Keeps.of_findLeaf h).error hx
      · next hx =>
        split
        · exact trivial
        · exact ((Keeps.of_findLeaf h).ok hx).touchLeaf

theorem Keeps.of_translate {f : Nat} {r : Req} (h : Canonical s) : Keeps (fun x => Canonical x.1) (s.translate f r) := by
  unfold State.translate
  split
  · next hx => exact (Keeps.of_translateAt h).error hx
  · next hx => exact (Keeps.of_translateAt h).ok hx
  · next hx => exact ((Quiet.refl _).recordDirty).canonical ((Keeps.of_translateAt h).ok hx)

theorem Keeps.of_resolve {p : Partition} {user : Bool} {va : Word} : Keeps (fun _ => True) (s.resolve p user va) := by
  unfold State.resolve
  simp only
  split
  · exact Keeps.fault
  · split
    · exact Keeps.fault
    · split
      · split
        · exact Keeps.fault
        · split
          · exact Keeps.fault
          · split
            · exact Keeps.fault
            · exact trivial
      · split
        · exact Keeps.fault
        · exact trivial

theorem Keeps.of_place {user : Bool} {r : Req} (h : Canonical s) : Keeps (fun x => Canonical x.1) (s.place user r) := by
  unfold State.place
  split
  · exact Keeps.fault
  · split
    · next hx => exact Keeps.of_resolve.error hx
    · exact h
    · exact Keeps.of_translate h

theorem Canonical.put {t : Strand} (h : Canonical s) : Canonical (e.put s t) := h.setStrand

theorem Keeps.of_placed {va : Word} {acc : Acc} (h : Canonical s) : Keeps (fun x => Canonical x.1) (e.placed s va acc) := by
  unfold Env.placed
  split
  · next hx => exact (Keeps.of_place h).error hx
  · next hx =>
    unfold Env.lostReply
    cases replyNow s.time e.sl.lost with
    | came => exact (Keeps.of_place h).ok hx
    | sent l => exact h.awaitReply
    | waits => exact h
    | timeout => exact trivial

/-- The copies of a line that the core holds are flushed, where the line has any. -/
theorem Canonical.flushUnlessPad {pa c : Nat} {va : Word} {ctx : Nat} (h : Canonical s) :
    Canonical (if isPad pa then s else s.flushLine c va ctx) := by
  split
  · exact h
  · exact h.flushLine

theorem Keeps.of_stackWrite {va : Word} {bs : List Byte} (h : Canonical s) : Keeps Canonical (e.stackWrite s va bs) := by
  unfold Env.stackWrite
  split
  · next hx => exact (Keeps.of_placed h).error hx
  · next hx => exact ((Keeps.of_placed h).ok hx).drain.flushUnlessPad.homeWrite

theorem Keeps.of_stackRead {va : Word} (h : Canonical s) : Keeps (fun x => Canonical x.1) (e.stackRead s va) := by
  unfold Env.stackRead
  split
  · next hx => exact (Keeps.of_placed h).error hx
  · next hx =>
    simp only
    split
    · exact Keeps.fault
    · exact ((Keeps.of_placed h).ok hx).drain.flushUnlessPad.dropRdc.touchL2

theorem Keeps.of_spill {t : Strand} (h : Canonical s) : Keeps Canonical (e.spill s t) :=
  Keeps.of_faultIf.bind fun _ _ => (Keeps.of_stackWrite h).bind fun _ h => h.same

theorem Keeps.of_fill {t : Strand} (h : Canonical s) : Keeps (fun x => Canonical x.1) (e.fill s t) :=
  Keeps.of_faultIf.bind fun _ _ => Keeps.of_stackRead h

theorem Keeps.of_windowCall {t : Strand} (h : Canonical s) : Keeps (fun x => Canonical x.1) (e.windowCall s t) := by
  unfold Env.windowCall
  split
  · dsimp only
    split
    · exact h
    · exact (Keeps.of_spill h).bind fun _ h => h
  · exact h

theorem Keeps.of_windowRet {t : Strand} (h : Canonical s) : Keeps (fun x => Canonical x.1) (e.windowRet s t) := by
  unfold Env.windowRet
  split
  · dsimp only
    split
    · exact h
    · exact (Keeps.of_fill h).bind fun _ h => h
  · exact h

/-! ### Sequencing -/

theorem Keeps.of_goto {t : Strand} {a : Word} : Keeps (fun _ => True) (t.goto a) := by
  unfold Strand.goto
  split
  · exact Keeps.fault
  · exact trivial

theorem Keeps.of_advance {t : Strand} : Keeps (fun _ => True) t.advance := by
  unfold Strand.advance
  split
  · exact Keeps.of_goto
  · exact trivial

theorem Keeps.of_call {t : Strand} {a : Word} (h : Canonical s) : Keeps (fun x => Canonical x.1) (e.call s t a) :=
  Keeps.of_goto.bind fun _ _ => (Keeps.of_windowCall h).bind fun _ h => h

/-- A word that stays where it is, or goes to another block, changes no state. -/
theorem Keeps.stay {r : Res Strand} (h : Canonical s) (hr : Keeps (fun _ => True) r) :
    Keeps (fun x => Canonical x.1) (r.map fun x => (s, x)) := hr.map fun _ _ => h

theorem Keeps.of_sequence {t : Strand} (h : Canonical s) : Keeps (fun x => Canonical x.1) (e.sequence s t) := by
  unfold Env.sequence
  simp only
  split
  · exact Keeps.stay h Keeps.of_advance
  · split
    · exact Keeps.stay h Keeps.of_advance
    · exact Keeps.stay h Keeps.of_goto
    · exact Keeps.stay h Keeps.of_goto
    · exact Keeps.stay h Keeps.of_goto
    · exact Keeps.of_call h
    · split
      · exact Keeps.fault
      · exact Keeps.of_call h
    · split
      · exact Keeps.fault
      · exact Keeps.stay h Keeps.of_goto
    · split
      · exact Keeps.fault
      · split
        · next hx => exact Keeps.of_goto.error hx
        · exact Keeps.of_windowRet h
    · split
      · exact Keeps.stay h Keeps.of_advance
      · exact Keeps.stay h Keeps.of_goto

theorem Keeps.of_presequence {i : Instr} (h : Canonical s) : Keeps (fun x => Canonical x.1) (e.presequence s i) := by
  unfold Env.presequence
  split
  · exact h
  · split
    · split
      · exact Keeps.of_windowCall h
      · exact Keeps.of_windowRet h
      · exact h
    · exact Keeps.of_sequence h

/-! ### The end of a word -/

theorem Canonical.finish {i : Instr} {t : Strand} (h : Canonical s) : Canonical (e.finish s i t) := h.same (finish_mem e s i t)

theorem Canonical.pushFwd {i : Instr} {t : Strand} {o : Bool} (h : Canonical s) : Canonical (e.pushFwd s i t o) := by
  unfold Env.pushFwd
  simp only
  split
  · exact h.modSlot.postOnce
  · exact h

theorem Canonical.keepUnit {i : Instr} (h : Canonical s) : Canonical (e.keepUnit s i) := by
  unfold Env.keepUnit
  split
  · exact h
  · exact h.modCore

theorem Canonical.popFull (h : Canonical s) : Canonical (e.popFull s) := by
  unfold Env.popFull
  split
  · exact h.modSlot
  · exact h

theorem Canonical.launch {i : Instr} (h : Canonical s) : Canonical (e.launch s i) := by
  have hrel : Canonical (if kindOf i = .engine then s.release e.k .module else s) := by
    split
    · exact h.release
    · exact h
  have hpush : ∀ (x : State) (c : Bool) (t : Strand) (o : Bool), Canonical x → Canonical (if c then e.pushFwd x i t o else e.keepUnit x i) := by
    intro x c t o hx
    split
    · exact hx.pushFwd
    · exact hx.keepUnit
  unfold Env.launch
  split
  · exact h
  · simp only
    split
    · exact Canonical.passedWord (hpush _ _ _ _ hrel.put.modSlot)
    · exact Canonical.post (Canonical.passedWord (hpush _ _ _ _ hrel.put.modSlot))

/-- What stops a word keeps memory canonical, where what it has begun does. -/
theorem Canonical.stopped {k : Nat} {b a : Bool} {x : Stop} (h : Canonical s) {α : Type} {P : α → Prop} (hx : Keeps P (.error x)) :
    Canonical (s.stopped k b a x) := by
  unfold State.stopped
  split
  · split
    · exact h
    · exact h.raise
  · split
    · exact h
    · exact h.raise
  · exact h.strikeStop
  · exact h.strikeStop
  · exact h
  · exact hx

/-! ### A word -/

theorem Canonical.conclude {i : Instr} {r : Res State} (h : Canonical s) (hr : Keeps Canonical r) : Canonical (e.conclude s i r) := by
  unfold Env.conclude
  split
  · exact h.stopped hr
  · split
    · exact hr
    · split
      · next hx => exact h.stopped ((Keeps.of_sequence hr).error hx : Keeps (fun _ : Unit => True) _)
      · next hx => exact ((Keeps.of_sequence hr).ok hx).finish

/-- An operation keeps memory canonical. -/
def Sound (op : Op) : Prop := ∀ (e : Env) (s : State), Canonical s → Keeps Canonical (op e s)

theorem Keeps.of_opRes {op : Op} (hop : Sound op) (h : Canonical s) : Keeps Canonical (e.opRes s op) := by
  unfold Env.opRes
  split
  · exact hop e s h
  · exact h

theorem Canonical.perform {i : Instr} {op : Op} (hop : Sound op) (h : Canonical s) : Canonical (e.perform s i op) := by
  unfold Env.perform
  split
  · next hx =>
    split
    · next hq => exact h.stopped ((Keeps.of_presequence h).error hq : Keeps (fun _ : Unit => True) _)
    · next hq =>
      split
      · have hk : Canonical (e.keepStack _) := ((Keeps.of_presequence h).ok hq).modSlot
        simp only
        split
        · exact hk.conclude (Keeps.of_opRes hop hk)
        · exact hk
      · exact (Keeps.of_opRes hop h).error (Q := fun _ : Unit => True) hx
  · exact h.conclude (Keeps.of_opRes hop h)

theorem Canonical.run {i : Instr} {op : Op} (hop : Sound op) (h : Canonical s) : Canonical (e.run s i op) := by
  unfold Env.run
  split
  · exact h.popFull
  · split
    · split
      · exact h
      · exact h.raise
    · split
      · exact h.launch
      · exact h.perform hop

theorem Canonical.runJump {i : Instr} {op : Op} (hop : Sound op) (h : Canonical s) : Canonical (e.runJump s i op) := by
  unfold Env.runJump
  split
  · exact h.popFull
  · split
    · split
      · exact h
      · exact h.raise
    · split
      · exact h.perform hop
      · split
        · next hx => exact h.stopped ((hop e s h).error hx : Keeps (fun _ : Unit => True) _)
        · next hx =>
          split
          · exact (hop e s h).ok hx
          · exact Canonical.finish ((hop e s h).ok hx)

end

/-- An outcome keeps memory canonical: its next state, where it is one. -/
def Lands : Host.Outcome State Fault Refusal → Prop
  | .next s => Canonical s
  | _ => True

theorem Lands.of_word {s : State} {i : Instr} {c : Ctl} {op : Op} (hop : Sound op) (h : Canonical s) : Lands (runWord i c op s) := by
  unfold runWord
  split
  · exact trivial
  · exact h.run hop

theorem Lands.of_jump {s : State} {i : Instr} {c : Ctl} {op : Op} (hop : Sound op) (h : Canonical s) : Lands (runJump i c op s) := by
  unfold runJump
  split
  · exact trivial
  · exact h.runJump hop

theorem Sound.reg (f : Env → Strand) : Sound (regOp f) := fun _ _ h => h.put

end Sys2Proof.Machine
end

section
/-! PROOFS. Canonical memory, the memory words and the accesses of agents that run no instruction. -/

namespace Sys2Proof.Machine

-- Proofs are elaborated one after another, as the tests are: the whole text has to fit the check's memory.
set_option Elab.async false

/-- The state of a pair. -/
theorem Canonical.fst {α : Type} {s : State} {a : α} {x : State × α} (h : Canonical x.1) (hx : x = (s, a)) : Canonical s := by
  subst hx
  exact h

section
variable {s : State} {e : Env}

/-! ### Accesses of a strand -/

theorem Keeps.of_placeOf {va : Word} {n : Nat} {acc : Acc} (h : Canonical s) : Keeps (fun x => Canonical x.1) (e.placeOf s va n acc) :=
  Keeps.of_faultIf.bind fun _ _ => Keeps.of_placed h

theorem Canonical.settle {pa n : Nat} (h : Canonical s) : Canonical (e.settle s pa n) := by
  unfold Env.settle
  split
  · split
    · exact h.drain
    · exact h
  · exact h

theorem Keeps.of_homeRead {va : Word} {pa n : Nat} (h : Canonical s) : Keeps (fun x => Canonical x.1) (e.homeRead s va pa n) := by
  unfold Env.homeRead
  split
  · exact Keeps.fault
  · exact h.touchL2

theorem Canonical.l1Hit {k : Nat} {l : L1Line} {off n : Nat} (h : Canonical s) : Canonical (s.l1Hit k l off n).1 := by
  unfold State.l1Hit
  dsimp only
  split
  · exact h.evict
  · exact h.putLine

theorem Keeps.of_lostOr {c : Nat} {l l0 : L1Line} {va : Word} (h : Canonical s) : Keeps (fun x => Canonical x.1) (s.lostOr c l l0 va) := by
  unfold State.lostOr
  split
  · exact Keeps.fault
  · exact h.putLine

theorem Keeps.of_l1Load {k : Nat} {va : Word} {ctx : Nat} {gen : BitVec 16} {pa n : Nat} (h : Canonical s) :
    Keeps (fun x => Canonical x.1) (s.l1Load k va ctx gen pa n) := by
  unfold State.l1Load
  simp only
  split
  · split
    · exact h.refetch.l1Hit
    · exact Keeps.fault
  · split
    · exact h.refetch.openLine.fillLine.l1Hit
    · exact Keeps.of_lostOr h.refetch

theorem Keeps.of_loadAt {va : Word} {pa n : Nat} (h : Canonical s) : Keeps (fun x => Canonical x.1) (e.loadAt s va pa n) := by
  unfold Env.loadAt
  simp only
  split
  · exact Keeps.of_homeRead h.settle
  · exact Keeps.of_l1Load h.settle

theorem Keeps.of_load {va : Word} {n : Nat} (h : Canonical s) : Keeps (fun x => Canonical x.1) (e.load s va n) := by
  unfold Env.load
  split
  · next hx => exact (Keeps.of_placeOf h).error hx
  · next hx => exact Keeps.of_loadAt ((Keeps.of_placeOf h).ok hx)

theorem Canonical.flush {va : Word} {pa n : Nat} (h : Canonical s) : Canonical (e.flush s va pa n) := by
  unfold Env.flush
  simp only
  split
  · exact h.settle
  · exact h.settle.flushLine.dropRdc

theorem Keeps.of_loadPast {va : Word} {n : Nat} (h : Canonical s) : Keeps (fun x => Canonical x.1) (e.loadPast s va n) := by
  unfold Env.loadPast
  split
  · next hx => exact (Keeps.of_placeOf h).error hx
  · next hx => exact Keeps.of_homeRead (Canonical.flush ((Keeps.of_placeOf h).ok hx))

theorem Keeps.of_loadAcq {va : Word} {n : Nat} {sc : Scope} (h : Canonical s) :
    Keeps (fun x => Canonical x.1) (e.loadAcq s va n sc) := by
  unfold Env.loadAcq
  split
  · next hx => exact (Keeps.of_loadPast h).error hx
  · next hx => exact Canonical.acquire ((Keeps.of_loadPast h).ok hx)

theorem Keeps.of_storeCheck {va : Word} {pa n : Nat} (h : Canonical s) : Keeps Canonical (e.storeCheck s va pa n) := by
  unfold Env.storeCheck
  split
  · exact h
  · simp only
    split
    · exact Keeps.fault
    · exact h.settle.storeFill.putLine

theorem Keeps.of_storeElem {va : Word} {n v : Nat} (h : Canonical s) : Keeps (fun x => Canonical x.1) (e.storeElem s va n v) :=
  (Keeps.of_placeOf h).bind fun _ h => (Keeps.of_storeCheck h).bind fun _ h => h

theorem Keeps.of_postEntries {l : List StoreEntry} (h : Canonical s) : Keeps Canonical (e.postEntries s l) := by
  unfold Env.postEntries
  split
  · exact h
  · split
    · exact h.setSlot
    · exact h.setSlot.postOnce

theorem Canonical.writeHome {va : Word} {pa : Nat} {bs : List Byte} (h : Canonical s) : Canonical (e.writeHome s va pa bs) :=
  h.flush.homeWrite

theorem Keeps.of_loadElems {va : Nat → Word} {n : Nat} {l : List Nat} (h : Canonical s) :
    Keeps (fun x => Canonical x.1) (e.loadElems va n l s) := by
  induction l generalizing s with
  | nil => exact h
  | cons j l ih =>
    unfold Env.loadElems
    split
    · next hx => exact (Keeps.of_load h).error hx
    · next hx =>
      have hr := (ih ((Keeps.of_load h).ok hx) :)
      split
      · next hy => exact hr.error hy
      · next hy => exact (hr.ok hy :)

theorem Keeps.of_storeElems {va : Nat → Word} {n : Nat} {data : Nat → Nat} {l : List Nat} (h : Canonical s) :
    Keeps (fun x => Canonical x.1) (e.storeElems va n data l s) := by
  induction l generalizing s with
  | nil => exact h
  | cons j l ih =>
    unfold Env.storeElems
    split
    · next hx => exact (Keeps.of_storeElem h).error hx
    · next hx =>
      have hr := ih ((Keeps.of_storeElem h).ok hx)
      split
      · next hy => exact hr.error hy
      · next hy => exact (hr.ok hy :)

theorem Keeps.of_counterPlace {va : Word} {acc : Acc} (h : Canonical s) : Keeps (fun x => Canonical x.1) (e.counterPlace s va acc) := by
  unfold Env.counterPlace
  split
  · next hx => exact (Keeps.of_placeOf h).error hx
  · next hx =>
    split
    · exact Keeps.fault
    · exact (Keeps.of_placeOf h).ok hx

theorem Canonical.cwaitDone {d : Reg} {v : Word} {sc : Scope} (h : Canonical s) : Canonical (e.cwaitDone s d v sc) :=
  h.put.acquire

theorem Canonical.cwaitSuspend {va : Word} {pa : Nat} {thr : Word} (h : Canonical s) : Canonical (e.cwaitSuspend s va pa thr) := by
  unfold Env.cwaitSuspend
  simp only
  split
  · exact h.setField.suspend
  · exact h.setField.suspend

theorem Canonical.acquireIf {b : Bool} {k : Nat} {sc : Scope} (h : Canonical s) : Canonical (if b then s.acquire k sc else s) := by
  split
  · exact h.acquire
  · exact h

theorem Canonical.releaseIf {b : Bool} {k : Nat} {sc : Scope} (h : Canonical s) : Canonical (if b then s.release k sc else s) := by
  split
  · exact h.release
  · exact h

end

/-! ### The memory words -/

namespace Sound

theorem load (va : Env → Word) (d : Reg) (sz : ScalarSz) (sx : Bool) (acq : Option Scope) : Sound (opLoad va d sz sx acq) := by
  intro e s h
  unfold opLoad
  cases acq with
  | none => exact (Keeps.of_load h).bind fun _ h => h.put
  | some sc => exact (Keeps.of_loadAcq h).bind fun _ h => h.put

theorem st (d a : Reg) (imm : BitVec 23) (sz : ScalarSz) (rel : Option Scope) : Sound (opSt d a imm sz rel) := by
  intro e s h
  refine (Keeps.of_storeElem h).bind fun x h => ?_
  cases rel with
  | none => exact Keeps.of_postEntries h
  | some sc => exact h.release.writeHome

theorem loadV (va : Env → Nat → Word) (d : Reg) (sz : VecSz) (sx : Bool) : Sound (opLoadV va d sz sx) :=
  fun _ _ h => (Keeps.of_loadElems h).bind fun _ h => h.put

theorem storeV (va : Env → Nat → Word) (src : Reg) (sz : VecSz) : Sound (opStoreV va src sz) := by
  intro e s h
  refine (Keeps.of_storeElems h).bind fun ⟨s1, l⟩ h => ?_
  dsimp only
  split
  · exact h
  · exact Keeps.of_postEntries h

theorem pref (a : Reg) (imm : BitVec 23) (l2 : Bool) : Sound (opPref a imm l2) := by
  intro e s h
  unfold opPref
  simp only
  split
  · exact h
  · next hx =>
    have hp := (Keeps.of_placed h).ok hx
    split
    · exact h
    · split
      · exact hp.fillLine
      · exact hp.openLine.fillLine.putLine

theorem atomic (d a : Reg) (ord : Ord4) (sc : Scope) (w32 sx : Bool) (f : Env → Nat → Nat → Option Nat) :
    Sound (opAtomic d a ord sc w32 sx f) := by
  intro e s h
  refine (Keeps.of_placeOf h).bind fun x h => ?_
  refine (Keeps.of_homeRead h.releaseIf.flush).bind fun y h => ?_
  refine Canonical.put (Canonical.acquireIf ?_)
  split
  · exact h.homeWrite
  · exact h

theorem cadd (a b : Reg) : Sound (opCadd a b) := fun _ _ h =>
  (Keeps.of_counterPlace h).bind fun _ h => Keeps.of_faultIf.bind fun _ _ => Keeps.of_postEntries h.flush

theorem cwait (d a b : Reg) (sc : Scope) : Sound (opCwait d a b sc) := by
  intro e s h
  unfold opCwait
  simp only
  split
  · exact h.cwaitDone
  · next hx => exact (Keeps.of_counterPlace h).error hx
  · next hx =>
    refine (Keeps.of_homeRead (Canonical.flush ((Keeps.of_counterPlace h).ok hx))).bind fun y h => ?_
    split
    · exact h.cwaitDone
    · exact h.cwaitSuspend

theorem ctest (d a b : Reg) (acq : Bool) (sc : Scope) : Sound (opCtest d a b acq sc) := fun _ _ h =>
  (Keeps.of_counterPlace h).bind fun _ h => (Keeps.of_homeRead h.flush).bind fun _ h => h.put.acquireIf

theorem fence (kind : FenceKind) (sc : Scope) : Sound (opFence kind sc) := by
  intro e s h
  cases kind
  case acq => exact h.acquire
  case rel => exact h.release
  all_goals exact h.release.acquire

end Sound

/-! ### Accesses of agents -/

/-- The state in which an access leaves the machine. -/
abbrev Reach.state : Reach → State
  | .ok s _ => s
  | .held s => s
  | .bad s _ _ => s

/-- The state in which several accesses leave the machine. -/
abbrev Reached.state : Reached → State
  | .ok s _ => s
  | .held s => s
  | .bad s => s

/-- The state in which a piece of work leaves the machine. -/
abbrev DevTried.state : DevTried → State
  | .done s => s
  | .held s => s

namespace Canonical

section
variable {s t : State} {i : Instr}

theorem reach {user : Bool} {part ctx : Nat} {va : Word} {acc : Acc} (h : Canonical s) :
    Canonical (s.reach i user part ctx va acc).state := by
  unfold State.reach
  split
  · exact h
  · split
    · exact h.setPart
    · simp only
      split
      · next hx => exact h.place hx
      · split
        · exact h
        · exact h.linkFault
      · split
        · exact h
        · split
          · exact h
          · exact h.joinPromo
      · exact h
      · exact h
      · exact h

/-- The state of an access, from what the access answers. -/
theorem ofReach {user : Bool} {part ctx : Nat} {va : Word} {acc : Acc} {r : Reach} (h : Canonical s)
    (hr : s.reach i user part ctx va acc = r) : Canonical r.state := hr ▸ h.reach

theorem reachAll {part ctx : Nat} {l : List (Word × Acc)} (h : Canonical s) : Canonical (s.reachAll i part ctx l).1 := by
  induction l generalizing s with
  | nil => exact h
  | cons x l ih =>
    unfold State.reachAll
    split
    · next hr => exact h.ofReach hr
    · next hr => exact ih (h.ofReach hr)
    · next hr => exact ih (h.ofReach hr)

theorem putReach {ctx : Nat} {pa : Option (Option Nat)} {bs : List Byte} (h : Canonical s) : Canonical (s.putReach ctx pa bs) := by
  unfold State.putReach
  split
  · exact h.touchL2.slicePut
  · exact h

theorem reachEach {user : Bool} {part ctx : Nat} {l : List (Word × Acc)} (h : Canonical s) :
    Canonical (s.reachEach i user part ctx l).state := by
  induction l generalizing s with
  | nil => exact h
  | cons x l ih =>
    unfold State.reachEach
    split
    · next hr => exact h.ofReach hr
    · next hr => exact h.ofReach hr
    · next hr =>
      have hl := ih (h.ofReach hr)
      split
      · next hx => exact (congrArg Reached.state hx ▸ hl :)
      · exact hl

/-! ### Work of the device -/

theorem modVf {part v : Nat} {f : Vf → Vf} (h : Canonical s) : Canonical (s.modVf part v f) := h.modPart

theorem setOvf {part n : Nat} {f : Vf} {pa : Option Nat} (h : Canonical s) : Canonical (s.setOvf part n f pa) := h.modVf.putReach

theorem dirtyPage {part n : Nat} {f : Vf} {ent : Word} (h : Canonical s) : Canonical (s.dirtyPage i part n f ent).state := by
  unfold State.dirtyPage
  split
  · exact h
  · split
    · next hx =>
      have h1 := h.reachAll.fst hx
      simp only
      split
      · exact h1.setOvf
      · split
        · next hr => exact h1.ofReach hr
        · next hr => exact (h1.ofReach hr).setOvf
        · next hr =>
          have h2 := h1.ofReach hr
          split
          · exact setOvf (modVf h2.putReach.addAt)
          · exact modVf h2.putReach.addAt
    · next hx => exact (h.reachAll.fst hx).setOvf
    · next hx => exact h.reachAll.fst hx
    · next hx => exact h.reachAll.fst hx

theorem moveDone {part n : Nat} {f : Vf} {blk : Word} (h : Canonical s) : Canonical (s.moveDone i part n f blk).state := by
  unfold State.moveDone
  simp only
  split
  · next hx =>
    have h1 := h.reachAll.fst hx
    split
    · next hr => exact h1.ofReach hr
    · next hr => exact (h1.ofReach hr).putReach.modVf
    · next hr => exact (h1.ofReach hr).putReach.addAt.modVf
  · next hx => exact (h.reachAll.fst hx).putReach.modVf
  · next hx => exact h.reachAll.fst hx

theorem devTry {part : Nat} {d : DevOp} (h : Canonical s) : Canonical (s.devTry i part d).state := by
  unfold State.devTry
  split
  · exact h
  · simp only
    split
    · exact h.dirtyPage
    · exact h.moveDone

theorem devFirst {part : Nat} {l : List DevOp} (h : Canonical s) : Canonical (s.devFirst i part l) := by
  induction l generalizing s with
  | nil => exact h
  | cons d l ih =>
    have hd := h.devTry (i := i) (part := part) (d := d)
    unfold State.devFirst
    split
    · next hx => exact ih (hx ▸ hd :)
    · next hx => exact (hx ▸ hd : Canonical (DevTried.state (.done _))).modPart.postOnce

theorem devTurn {field : Nat} (h : Canonical s) : Canonical (s.devTurn field) := by
  unfold State.devTurn
  split
  · split
    · exact h.devFirst
    · exact h
  · exact h

end
end Canonical

/-! ### Acts of the memory -/

namespace Lands

section
variable {s : State}

theorem drain {k : Nat} (h : Canonical s) : Lands (execStoreBufferDrain k s) := by
  unfold execStoreBufferDrain
  split
  · exact h
  · split
    · exact h
    · next x l _ =>
      split
      · exact h
      · refine Canonical.postUnless (c := l.isEmpty = true) ?_
        cases x with
        | cadd => exact h.setSlot.performEntry
        | store o es =>
          cases es with
          | nil => exact h.setSlot.performEntry
          | cons el es => exact h.setSlot.performEntry.postUnless

theorem homeSliceWrite {core : Nat} {line : Word} (h : Canonical s) : Lands (execHomeSliceWrite core line s) := by
  unfold execHomeSliceWrite
  split
  · exact h
  · exact h.evict

theorem counterAddition {field : Nat} (h : Canonical s) : Lands (execCounterAddition field s) := by
  unfold execCounterAddition
  split
  · exact h.devTurn
  · exact h.modField.addAt.postOnce

end
end Lands

section
variable {s : State}

theorem Canonical.sweepOne {f sl : Nat} {m : Monitor} (h : Canonical s) : Canonical (s.sweepOne f sl m).1 := by
  unfold State.sweepOne
  split
  · exact h.modStrand.makeReady
  · simp only
    split
    · exact h.setField.modStrand.restat
    · exact h

theorem Canonical.sweepAll {f sl : Nat} {l : List Monitor} (h : Canonical s) : Canonical (s.sweepAll f sl l).1 := by
  induction l generalizing s with
  | nil => exact h
  | cons m l ih => exact ih h.sweepOne

theorem Lands.overflowSweep {f sl : Nat} (h : Canonical s) : Lands (execOverflowSweep f sl s) := by
  unfold execOverflowSweep
  simp only
  split
  · exact h.postAt
  · exact h.modField.sweepAll.modField.putLists

end

end Sys2Proof.Machine
end

section
/-! PROOFS. Canonical memory, the fetch of words, the records of strands and the second tier. -/

namespace Sys2Proof.Machine

-- Proofs are elaborated one after another, as the tests are: the whole text has to fit the check's memory.
set_option Elab.async false

/-- A result that answers a state and a value. -/
theorem Keeps.pair {α : Type} {s : State} {a : α} (h : Canonical s) : Keeps (fun x => Canonical x.1) (.ok (s, a)) := h

section
variable {s t : State} {e : Env}

/-! ### Fetch -/

theorem Keeps.of_fetch {va : Word} (h : Canonical s) : Keeps (fun x => Canonical x.1) (e.fetch s va) := by
  unfold Env.fetch
  split
  · exact Keeps.fault
  · split
    · next hx => exact Keeps.of_resolve.error hx
    · exact Keeps.fault
    · simp only
      split
      · exact h
      · split
        · next hx => exact (Keeps.of_translate h).error hx
        · next hx =>
          have ht := (Keeps.of_translate h).ok hx
          split
          · next hl =>
            unfold Env.lostReply at hl
            split at hl
            · cases hl
            · cases hl
              exact h.awaitReply
            · cases hl
              exact h
            · cases hl
              exact trivial
          · split
            · exact Keeps.pair ht.touchL2.modTile
            · exact Keeps.fault

theorem Canonical.enter (h : Canonical s) : Canonical (e.enter s) := by
  unfold Env.enter
  split
  · exact h
  · split
    · exact h.popFull
    · split
      · next hx => exact h.stopped ((Keeps.of_fetch h).error hx : Keeps (fun _ : Unit => True) _)
      · next hx =>
        have hf : Canonical _ := (Keeps.of_fetch h).ok hx
        split
        · exact hf.put
        · split
          · exact h.stopped (P := fun _ : Unit => True) trivial
          · exact hf.same

theorem Lands.blockEntry (h : Canonical s) : Lands (execBlockEntry s) := by
  unfold execBlockEntry
  split
  · exact trivial
  · exact h.enter

theorem Keeps.of_word (h : Canonical s) : Keeps (fun x => Canonical x.1) (e.word s) := by
  unfold Env.word
  split
  · exact h
  · split
    · exact h
    · exact Keeps.of_fetch h

theorem Lands.privateFetchTurn {tile : Nat} (h : Canonical s) : Lands (execPrivateFetchTurn tile s) := by
  unfold execPrivateFetchTurn
  simp only
  split
  · exact h
  · exact Canonical.postWhen h.modSlot.modTile

theorem Keeps.of_returnFromTrap {x y : Word} (h : Canonical s) : Keeps Canonical (e.returnFromTrap s x y) := by
  refine Keeps.of_faultIf.bind fun _ _ => Keeps.of_faultIf.bind fun _ _ => Keeps.of_faultIf.bind fun _ _ =>
    (Keeps.of_fetch h).bind fun ⟨s1, w⟩ h1 => Keeps.of_faultIf.bind fun _ _ => Keeps.of_faultIf.bind fun _ _ =>
    (Keeps.of_windowRet h1).bind fun ⟨s2, t⟩ h2 => ?_
  dsimp only
  split
  · exact Canonical.put h2
  · exact Canonical.same (s := s2) h2

/-! ### Records -/

namespace Canonical

theorem writeSave {pa : Nat} {l : List (Nat × List Byte)} (h : Canonical s) : Canonical (s.writeSave pa l) := by
  induction l generalizing s with
  | nil => exact h
  | cons x l ih => exact ih h.slicePut

/-- The spills of a strand that is put down: the state so far, and what stopped them. -/
theorem spillAll {t : Strand} {n : Nat} (h : Canonical s) :
    Canonical (e.spillAll s t n).1 ∧ Keeps (fun _ => True) (e.spillAll s t n).2 := by
  induction n generalizing s t with
  | zero => exact ⟨h, trivial⟩
  | succ n ih =>
    unfold Env.spillAll
    split
    · exact ⟨h, trivial⟩
    · have hw : Keeps Canonical ((checkRsp t).bind fun _ =>
          e.stackWrite s (t.rsp - 128) (t.frameBytes s.fresh (t.cwp + 8 - t.fres))) :=
        Keeps.of_faultIf.bind fun _ _ => Keeps.of_stackWrite h
      split
      · next hx => exact ⟨h, hw.error hx⟩
      · next hx => exact ih (hw.ok hx).same

theorem placeRecord {u : Nat} {t : Strand} (h : Canonical s) : Canonical (s.placeRecord u t) := by
  unfold State.placeRecord
  dsimp only
  split
  · exact h.setStrand.writeRecord.toReady.queueTogether
  · exact h.setStrand.writeRecord.toReady.queueTogether
  · exact h.setStrand.writeRecord.toReady.queueTogether
  · split
    · exact h.setStrand.writeRecord.queueTogether
    · exact h.setStrand.writeRecord.toReady
  · exact h.setStrand.writeRecord.relinkWaits.relist.queueTogether

theorem launchTurn {f : Nat} (h : Canonical s) : Canonical (s.launchTurn f) := by
  unfold State.launchTurn
  split
  · exact h.postWhen
  · exact h

theorem vacate {k : Nat} (h : Canonical s) : Canonical (s.vacate k) := by
  have hd : Canonical { s with slots := tdel s.slots k } := h.same
  unfold State.vacate
  dsimp only
  refine launchTurn (postOnce ?_)
  split
  · exact hd
  · exact postWhen hd.modCore.postUnless

theorem leaveSlot {t : Strand} {w : Word} (h : Canonical s) : Canonical (e.leaveSlot s t w) :=
  postWhen h.release.leaveStream.dropEntry.vacate.placeRecord

theorem stallSave (h : Canonical s) : Canonical (e.stallSave s) := by
  unfold Env.stallSave
  split
  · exact h
  · split
    · exact h.modSlot.postSlot
    · exact h.modPart.bumpArena.queueTogether

theorem spillStopped {x : Stop} {α : Type} {P : α → Prop} (h : Canonical s) (hx : Keeps P (.error x)) :
    Canonical (e.spillStopped s x) := by
  unfold Env.spillStopped
  split
  · exact h.raise
  · exact h.raise
  · exact h.modSlot.queueTogether.linkFault
  · split
    · exact h.modSlot.queueTogether.joinPromo
    · exact h.raise
  · exact h
  · exact hx

theorem save {t : Strand} {b : Bool} (h : Canonical s) : Canonical (e.save s t b) := by
  unfold Env.save
  split
  · exact h.stallSave
  · split
    · exact h.stallSave
    · next ha =>
      split
      · exact h.stallSave
      · exact (h.allocArena ha).writeSave.modPart.leaveSlot

theorem putDown {b : Bool} (h : Canonical s) : Canonical (e.putDown s b) := by
  obtain ⟨hs, hr⟩ := h.spillAll (e := e) (t := e.st) (n := 8)
  unfold Env.putDown
  split
  · split
    · next hx =>
      rw [hx] at hs hr
      exact hs.spillStopped hr
    · next hx =>
      rw [hx] at hs
      exact hs.save
  · exact h

theorem moreSaves {part n : Nat} (h : Canonical s) : Canonical (s.moreSaves part n) := by
  unfold State.moreSaves
  split
  · exact h.postWhen
  · exact h

theorem endGathers {tile : Nat} (h : Canonical s) : Canonical (s.endGathers tile) := h.modTile

theorem bindStream {k u task : Nat} {w : Word} (h : Canonical s) : Canonical (s.bind k u task w) := by
  unfold State.bind
  dsimp only
  split
  · exact h.setTile.modStrand.modSlot
  · split
    · exact h.setTile.modStrand.modSlot.postAt
    · exact h

theorem moveOverflow {tile : Nat} (h : Canonical s) : Canonical (s.moveOverflow tile) := by
  unfold State.moveOverflow
  dsimp only
  split
  · exact h
  · split
    · split
      · exact h.setTile
      · exact h.setTile.setStrand.toReady.freeArena
    · exact h

theorem movePending {tile : Nat} (h : Canonical s) : Canonical (s.movePending tile) :=
  (foldl (fun _ _ h => h.moveOverflow) h).creationTurns

/-- The header read again, and the state in which its fetch leaves the machine. -/
theorem fetchAgain {k : Nat} {va w : Word} (h : Canonical s) :
    Canonical (((s.envAt k .blockEntry noCtl).bind fun e => (e.fetch s va).toOption).getD (s, w)).1 := by
  cases s.envAt k .blockEntry noCtl with
  | none => exact h
  | some e =>
    have hf := Keeps.of_fetch (e := e) (va := va) h
    dsimp only [Option.bind_some]
    revert hf
    cases e.fetch s va with
    | error => exact fun _ => h
    | ok x => exact id

theorem restore {k u : Nat} {t : Strand} (h : Canonical s) : Canonical (s.restore k u t) := by
  unfold State.restore
  split
  · exact h
  · split
    · exact h
    · dsimp only
      split
      · exact h.fetchAgain.raise
      · refine freeArena ?_
        split
        · exact h.fetchAgain.same
        · exact h.fetchAgain.setStrand

theorem settleSlot {k u : Nat} {b : Bool} (h : Canonical s) : Canonical (s.settle k u b) := by
  unfold State.settle
  dsimp only
  split
  · split
    · exact h.modStrand.modSlot.bindStream
    · exact h.modStrand.modSlot
  · exact h.modStrand.modSlot

theorem takeSlot {k u : Nat} {t : Strand} (h : Canonical s) : Canonical (s.takeSlot k u t) := by
  unfold State.takeSlot
  dsimp only
  split
  · exact h.offReady.modTile.setSlot.setStrand.raise
  · split
    · exact h.offReady.modTile.setSlot.setStrand.acquire.restore.modStrand.settleSlot.post
    · exact h.offReady.modTile.setSlot.setStrand.acquire.restore

theorem resumeHeld {k : Nat} (h : Canonical s) : Canonical (s.resumeHeld k) := by
  unfold State.resumeHeld
  split
  · exact h.setSlot.acquire.modStrand.settleSlot.postSlot
  · exact h

end Canonical

namespace Lands

theorem putDown {k : Nat} (h : Canonical s) : Lands (execPutDown k s) := by
  unfold execPutDown
  split
  · exact h
  · exact h.putDown

theorem stalledSaveResume {part : Nat} (h : Canonical s) : Lands (execStalledSaveResume part s) := by
  unfold execStalledSaveResume
  split
  · exact h
  · split
    · exact h
    · dsimp only
      split
      · split
        · exact h.setPart
        · split
          · exact h.putDown.moreSaves
          · exact h.setPart.postOnce
      · exact h.setPart.postOnce

theorem gatherEnd {tile : Nat} {i : Fin 4} (h : Canonical s) : Lands (execGatherEnd tile i s) := by
  unfold execGatherEnd
  split
  · exact h
  · split
    · exact h.modTile
    · split
      · exact h.postAt
      · exact h

theorem pickUp {tile : Nat} (h : Canonical s) : Lands (execPickUp tile s) := by
  unfold execPickUp
  dsimp only
  split
  · exact h
  · split
    · exact h.offReady
    · split
      · exact h
      · split
        · split
          · exact h
          · exact h.takeSlot.movePending.endGathers.postOnce.postWhen
        · exact h

end Lands

/-! ### The second tier -/

namespace Canonical

theorem sealChunk {key : List Byte} {pa : Nat} {bs : List Byte} (h : Canonical s) : Canonical (s.sealChunk key pa bs) :=
  ⟨s.sealChunk_wf h.wf key pa bs⟩

theorem countTag {part : Nat} (h : Canonical s) : Canonical (s.countTag part) := h.modPart

theorem tierWrite {key : List Byte} {pa n : Nat} {bs : List Byte} (h : Canonical s) (ht : s.tierWrite key pa bs n = .ok t) :
    Canonical t := by
  induction n generalizing s pa bs with
  | zero =>
    cases ht
    exact h
  | succ n ih =>
    unfold State.tierWrite at ht
    split at ht
    · cases ht
      exact h
    · split at ht
      · cases ht
      · dsimp only at ht
        split at ht
        · cases ht
        · exact ih h.sealChunk ht

theorem gridAssay {task : Nat} {c : FaultCode} {va : Word} (h : Canonical s) : Canonical (s.gridAssay task c va) := by
  unfold State.gridAssay
  split
  · exact h
  · dsimp only
    split
    · exact h.postOnce
    · exact h

theorem gridFault {b : Blame} {c : FaultCode} {v : Word} (h : Canonical s) : Canonical (s.gridFault b c v) := h.gridAssay.noteFault

theorem wakeWaiter {w : Waiter} (h : Canonical s) : Canonical (s.wakeWaiter w) := by
  unfold State.wakeWaiter
  split
  · exact h.modTile.postOnce
  · exact h.modTile.postOnce
  · exact h.postOnce
  · exact h.postOnce
  · exact h.wakeStrand

theorem wakeWaiters {l : List Waiter} (h : Canonical s) : Canonical (s.wakeWaiters l) := by
  induction l generalizing s with
  | nil => exact h
  | cons w l ih => exact ih h.wakeWaiter

theorem popFrame {st : Nat} {x : State × Nat} (h : Canonical s) (hx : s.popFrame st = some x) : Canonical x.1 := by
  unfold State.popFrame at hx
  dsimp only at hx
  split at hx
  · cases hx
  · cases hx
    exact h.sliceDw

theorem pushFrame {st frame : Nat} (h : Canonical s) : Canonical (s.pushFrame st frame).1 := by
  unfold State.pushFrame
  dsimp only
  split
  · exact h.sliceDw.sliceDw
  · exact h

theorem zeroFrame {frame : Nat} {big : Bool} (h : Canonical s) : Canonical (s.zeroFrame frame big) := ⟨s.zeroFrame_wf h.wf frame big⟩

theorem fillFrame {key : List Byte} {src dst n i : Nat} (h : Canonical s) : Canonical (s.fillFrame key src dst n i).1 := by
  induction i generalizing s with
  | zero => exact h
  | succ i ih =>
    unfold State.fillFrame
    dsimp only
    split
    · exact h
    · exact ih h.slicePut

theorem nextPromo {f : Nat} (h : Canonical s) : Canonical (s.nextPromo f) := by
  unfold State.nextPromo
  split
  · exact h
  · split
    · exact h.postOnce
    · exact h.postOnce

theorem stallWaiter {f : Nat} {w : Held} (h : Canonical s) : Canonical (s.stallWaiter f w) := by
  unfold State.stallWaiter
  dsimp only
  split
  · exact h.modStrand.restat.linkFault.relink
  · exact h.linkFault.relink

theorem stallWaiters {f : Nat} {l : List Held} (h : Canonical s) : Canonical (s.stallWaiters f l) := by
  induction l generalizing s with
  | nil => exact h
  | cons w l ih => exact ih h.stallWaiter

theorem touchLost {w : Held} {va : Word} (h : Canonical s) : Canonical (s.touchLost w va) := by
  have hu : ∀ u : Nat, Canonical (match tget s.strands u with
      | some { place := .slot k, .. } => s.raise k .uncorr va false false
      | _ =>
        match s.blameStrand u with
        | some b => s.gridFault b .uncorr va
        | none => s) := by
    intro u
    split
    · exact h.raise
    · split
      · exact h.gridFault
      · exact h
  unfold State.touchLost
  split
  · exact hu _
  · exact hu _
  · split
    · split
      · exact h.gridFault
      · exact h
    · exact h
  · split
    · exact h.modTile.postOnce.gridFault
    · exact h
  · split
    · exact h.gridFault
    · exact h
  · exact h.modPart.postOnce

theorem flushProms {n : Nat} {p : Partition} {l : List (List Word)} (h : Canonical s) : Canonical (s.flushProms n p l) := by
  induction l generalizing s with
  | nil => exact h.modPart
  | cons d l ih =>
    unfold State.flushProms
    dsimp only
    split
    · exact ih h.putPins.bumpPin
    · exact h.modPart

end Canonical

namespace Lands

theorem faultSweep {f : Nat} (h : Canonical s) : Lands (execFaultSweep f s) := h.modField.putLists.wakeWaiters

theorem tierPromotion {f : Nat} (h : Canonical s) : Lands (execTierPromotion f s) := by
  unfold execTierPromotion
  split
  · exact h
  · split
    · exact h.postOnce
    · dsimp only
      split
      · exact h.modField.nextPromo
      · split
        · split
          · exact h.modField.modPart.stallWaiters.nextPromo
          · next hp =>
            have h1 := h.popFrame hp
            split
            · next hx => exact (h1.fillFrame.fst hx).modField.postOnce
            · next hx =>
              have h2 := h1.fillFrame.fst hx
              refine Canonical.nextPromo ?_
              split
              · exact h2.modField.countTag.zeroFrame.pushFrame
              · exact h2.modField.countTag.zeroFrame.pushFrame.touchLost.wakeWaiters
        · exact h.modField.modPart.stallWaiters.nextPromo
        · exact h.modField.wakeWaiters.nextPromo

theorem promotionComplete {f : Nat} (h : Canonical s) : Lands (execPromotionComplete f s) := by
  unfold execPromotionComplete
  split
  · exact h
  · dsimp only
    split
    · exact h.nextPromo
    · exact h.modField.wakeWaiters.nextPromo
    · split
      · exact h.modField.sliceDw.modField.flushProms.modPart.wakeWaiters.nextPromo
      · refine Canonical.nextPromo (Canonical.wakeWaiters ?_)
        split
        · exact h.modField.zeroFrame.pushFrame
        · exact h.modField.zeroFrame

theorem rowPrecharge {row : RowId} {n : Nat} {b : Bool} (h : Canonical s) : Lands (execRowPrecharge row n b s) := by
  unfold execRowPrecharge
  dsimp only
  split
  · exact h
  · split
    · exact Canonical.postOnce h.same
    · exact h.same

theorem refreshManagement {stack : Fin 40} {pch : Fin 64} {bank : Fin 16} (h : Canonical s) :
    Lands (execRefreshManagement stack pch bank s) := by
  unfold execRefreshManagement
  dsimp only
  split
  · exact h
  · exact Canonical.postWhen h.same

theorem refreshWindowEnd (h : Canonical s) : Lands (execRefreshWindowEnd s) := Canonical.postAt h.same

end Lands

end

end Sys2Proof.Machine
end

section
/-! PROOFS. Canonical memory, the words of groups, of strands and of traps. -/

namespace Sys2Proof.Machine

-- Proofs are elaborated one after another, as the tests are: the whole text has to fit the check's memory.
set_option Elab.async false

section
variable {s t : State} {e : Env}

/-! ### Groups -/

namespace Canonical

theorem putGroup {p : Partition} {f i : Nat} {g : Group} (h : Canonical s) : Canonical (s.putGroup p f i g) :=
  foldl (fun _ _ h => h.putPins) h.modField.putPins

theorem raiseTurns {g : Group} (h : Canonical s) : Canonical (s.raiseTurns g) := h.postAll

theorem settleGroup {part f i n : Nat} {p : Partition} {g : Group} (h : Canonical s) : Canonical (s.settleGroup part p f i n g) := by
  induction n generalizing s g with
  | zero => exact h.putGroup
  | succ n ih =>
    unfold State.settleGroup
    split
    · exact (ih (foldl (fun _ _ h => h.makeReady) (foldl (fun _ _ h => h.freeArena) h))).raiseTurns
    · exact h.putGroup

theorem groupWait {f i : Nat} {p : BitVec 32} (h : Canonical s) : Canonical (e.groupWait s f i p) := h.put.suspend.raiseTurns

theorem groupDone {f i : Nat} {d : Reg} {v : Group → Word} (h : Canonical s) : Canonical (e.groupDone s f i d v) := h.put.acquire

theorem arriveRelease (h : Canonical s) : Canonical (e.arriveRelease s) := h.release

theorem dropHandle {part ctx home : Nat} {p : Partition} {tid : Word} {b : Bool} {hd : BitVec 32} (h : Canonical s) :
    Canonical (s.dropHandle part p ctx tid home b hd) := by
  unfold State.dropHandle
  split
  · exact h
  · exact h.settleGroup

theorem dropGroups {u : Nat} {b : Bool} (h : Canonical s) : Canonical (s.dropGroups u b) := by
  unfold State.dropGroups
  split
  · exact h
  · split
    · exact foldl (fun _ _ h => h.dropHandle) h
    · exact h

theorem raisePrio {u n : Nat} (h : Canonical s) : Canonical (s.raisePrio u n) := by
  unfold State.raisePrio
  split
  · exact h
  · split
    · exact h
    · dsimp only
      split
      · exact h.offReady.setStrand.reprio.modTile.relink
      · exact h.setStrand.reprio
      · exact h.setStrand

end Canonical

theorem Keeps.of_member {hd : BitVec 32} : Keeps (fun _ => True) (e.member s hd) := by
  unfold Env.member
  split
  · exact trivial
  · exact Keeps.fault

namespace Sound

theorem openGroup (create : Bool) (d a b : Reg) : Sound (opOpen create d a b) := by
  intro e s h
  unfold opOpen
  dsimp only
  split
  · exact Keeps.fault
  · split
    · exact h.put
    · split
      · exact h.put
      · split
        · exact h.put
        · split
          · refine Canonical.put ?_
            split
            · exact h
            · exact h.putGroup
          · next ha =>
            split at ha
            · cases ha
            · exact (h.allocArena ha).settleGroup.put

theorem gleave (d : Reg) : Sound (opGleave d) := fun _ _ h => Keeps.of_member.bind fun _ _ => h.settleGroup.put

theorem gdrop (d : Reg) : Sound (opGdrop d) := by
  intro e s h
  refine Keeps.of_member.bind fun ⟨f, i, g, m⟩ _ => ?_
  dsimp only
  split
  · exact Keeps.fault
  · exact h.arriveRelease.settleGroup.put

theorem arriveWait (d a : Reg) (c : Env → Option Contrib) (v : Group → Word) : Sound (opArriveWait d a c v) := by
  intro e s h
  refine Keeps.of_member.bind fun ⟨f, i, g, m⟩ _ => ?_
  dsimp only
  split
  · exact h.groupDone
  · split
    · split
      · exact h.groupDone
      · exact h.groupWait
    · split
      · exact Keeps.fault
      · split
        · exact h.arriveRelease.settleGroup.groupWait
        · exact h.arriveRelease.settleGroup.groupDone

theorem garrive (a : Reg) : Sound (opGarrive a) := by
  intro e s h
  refine Keeps.of_member.bind fun ⟨f, i, g, m⟩ _ => ?_
  dsimp only
  split
  · exact Keeps.fault
  · exact h.arriveRelease.settleGroup

theorem ginfo (d a : Reg) (item : Fin 7) : Sound (opGinfo d a item) := fun _ _ h => Keeps.of_member.bind fun _ _ => h.put

end Sound

theorem Lands.groupPrioRaise {u : Nat} (h : Canonical s) : Lands (execGroupPrioRaise u s) := by
  unfold execGroupPrioRaise
  split
  · exact h
  · split
    · split
      · exact h
      · dsimp only
        split
        · exact h
        · exact h.raisePrio.modStrand
    · exact h

/-! ### Streams and the creation of strands -/

namespace Canonical

theorem attachAt {tile i u : Nat} (h : Canonical s) : Canonical (s.attachAt tile i u) := by
  unfold State.attachAt
  split
  · dsimp only
    split
    · exact h.modTile.modSlot.modStrand.modSlot
    · exact h.modTile.modSlot
  · exact h

theorem resolveWaiters {tile i : Nat} {x : Stream} {b : Word} (h : Canonical s) : Canonical (s.resolveWaiters tile i x b) :=
  foldl (fun _ _ h => h.attachAt) h

theorem completeJoin {tile i task : Nat} {b : Word} (h : Canonical s) : Canonical (s.completeJoin tile i task b) :=
  foldl (fun _ _ h => h.attachAt) h.modTile

theorem leadJoin {i : Nat} {x : Stream} {b : Word} (h : Canonical s) : Canonical (e.leadJoin s i x b).1 := by
  unfold Env.leadJoin
  dsimp only
  split
  · exact h.resolveWaiters
  · split
    · exact h.resolveWaiters.completeJoin
    · dsimp only
      exact h.resolveWaiters.modTile

theorem create {tile : Nat} {mk : Place → Strand} (h : Canonical s) (hc : e.create s tile mk = some t) : Canonical t := by
  have ht : ∀ f : Task → Task, Canonical ({ s with nextUid := s.nextUid + 1 }.modTask e.st.task f) := fun _ => modTask h.same
  unfold Env.create at hc
  dsimp only at hc
  split at hc
  · cases hc
    exact (ht _).setStrand.setTile.toReady
  · split at hc
    · cases hc
    · next ha =>
      cases hc
      exact ((ht _).allocArena ha).setStrand.writeRecord.modTile.relink

theorem denied (h : Canonical s) : Canonical (e.denied s) := by
  unfold Env.denied
  dsimp only
  split
  · exact h.modSlot
  · exact h.modSlot.bumpArena

theorem created {d : Reg} (h : Canonical s) : Canonical (e.created s d) := h.put.modSlot

theorem dropWaits {u : Nat} (h : Canonical s) : Canonical (s.dropWaits u) := ⟨h.wf⟩

theorem strandGone {u : Nat} (h : Canonical s) : Canonical (s.strandGone u) := by
  have hm : ∀ x : Strand, Canonical (if x.msg = 0 then { s with strands := tdel s.strands u }
      else { s with strands := tdel s.strands u }.freeArena x.part x.msg messageBytes) := by
    intro x
    split
    · exact h.same
    · exact freeArena h.same
  unfold State.strandGone
  split
  · exact h
  · exact queueTogether (postWhen (hm _).postUnless)

end Canonical

theorem Keeps.of_joinDone {d : Reg} {w : Word} (h : Canonical s) : Keeps Canonical (e.joinDone s d w) := h.put.modSlot

theorem Keeps.of_joinWait (h : Canonical s) : Keeps Canonical (e.joinWait s) := by
  unfold Env.joinWait
  split
  · exact trivial
  · exact h.modSlot

theorem Keeps.of_checkEntry {a : Word} : Keeps (fun _ => True) (e.checkEntry a) := Keeps.of_faultIf.bind fun _ _ => Keeps.of_faultIf

theorem Keeps.of_sendTarget {a : Word} : Keeps (fun _ => True) (e.sendTarget s a) := by
  unfold Env.sendTarget
  split
  · exact Keeps.fault
  · dsimp only
    split
    · exact Keeps.fault
    · exact trivial

theorem Keeps.of_readDwords {va : Word} {n : Nat} (h : Canonical s) : Keeps (fun x => Canonical x.1) (e.readDwords s va n) := by
  induction n generalizing s va with
  | zero => exact h
  | succ n ih => exact (Keeps.of_loadPast h).bind fun _ h => (ih h).bind fun _ h => h

namespace Sound

theorem split : Sound opSplit := by
  intro e s h
  unfold opSplit
  split
  · exact h.detach
  · exact h

theorem join (d : Reg) : Sound (opJoin d) := by
  intro e s h
  unfold opJoin
  dsimp only
  split
  · split
    · exact Keeps.of_joinDone h
    · split
      · exact Keeps.of_joinDone h
      · split
        · exact Keeps.of_joinDone h
        · split
          · next hx => exact Keeps.of_joinDone (h.leadJoin.fst hx)
          · next hx => exact h.leadJoin.fst hx
  · split
    · exact Keeps.of_joinWait h
    · exact Keeps.of_joinDone h
  · split
    · exact Keeps.of_joinDone h
    · split
      · exact Keeps.of_joinWait h
      · split
        · exact Keeps.of_joinDone h.setTile.modSlot.put
        · exact Keeps.of_joinDone h

theorem spawn (d a b c : Reg) : Sound (opSpawn d a b c) := by
  intro e s h
  refine Keeps.of_checkEntry.bind fun _ _ => Keeps.of_faultIf.bind fun _ _ => ?_
  split
  · exact h.denied
  · next hc => exact (h.release.create hc).created

theorem send (d a b c : Reg) (len8 : Fin 64) : Sound (opSend d a b c len8) := by
  intro e s h
  refine Keeps.of_sendTarget.bind fun _ _ => (Keeps.of_readDwords h).bind fun ⟨s1, msg⟩ h1 =>
    Keeps.of_checkEntry.bind fun _ _ => ?_
  dsimp only
  split
  · exact h.denied
  · next ha =>
    have h2 := h1.allocArena ha
    split
    · exact h.denied
    · next hc => exact (Canonical.create h2.release.dropRdcOver.arenaPut hc).created

theorem yield : Sound opYield := fun _ _ h => (Keeps.of_sequence h).bind fun _ h => h.put.suspend

theorem endOp : Sound opEnd := fun _ _ h => h.release.leaveStream.dropEntry.dropWaits.dropGroups.vacate.strandGone

end Sound

theorem Lands.strandCreationContinue {k : Nat} (h : Canonical s) : Lands (execStrandCreationContinue k s) := by
  unfold execStrandCreationContinue
  split
  · exact h.modSlot.postSlot
  · exact h

/-! ### Traps -/

namespace Canonical

theorem rewind {k : Nat} (h : Canonical s) : Canonical (s.rewind k) := by
  unfold State.rewind
  split
  · exact h
  · split
    · exact h
    · exact h.modStrand.setSlot

theorem startHalt {part n : Nat} {a b : Word} (h : Canonical s) : Canonical (s.startHalt part n a b) := by
  unfold State.startHalt
  split
  · exact h
  · split
    · exact h
    · exact postOnce (foldl (fun _ _ h => h.discard) h.setPart)

theorem trigger {n : Nat} (h : Canonical s) : Canonical (e.trigger s n) := h.modStrand.startHalt

end Canonical

theorem Keeps.of_takeTrap {b : Bool} {n : BitVec 16} (h : Canonical s) : Keeps Canonical (e.takeTrap s b n) :=
  Keeps.of_faultIf.bind fun _ _ => (Keeps.of_windowCall h).bind fun _ h => h.put

theorem Keeps.of_resumeWord (h : Canonical s) : Keeps Canonical (e.resumeWord s) := (Keeps.of_sequence h).bind fun _ h => h.put

namespace Sound

theorem mfs (d : Reg) (n : Nat) : Sound (opMfs d n) := by
  intro e s h
  unfold opMfs
  split
  · exact Keeps.fault
  · split
    · exact Keeps.fault
    · exact h.put

theorem readCounts (d : Reg) (b : Bool) : Sound (opReadCounts d b) := by
  intro e s h
  unfold opReadCounts
  split
  · exact trivial
  · exact h.put

theorem mts (n : Nat) (a : Reg) : Sound (opMts n a) := by
  intro e s h
  unfold opMts
  dsimp only
  split
  · exact Keeps.fault
  · split
    · exact h.put
    · exact h.put
    · exact h.put
    · exact h.put
    · exact h.put
    · exact Keeps.fault

theorem writeStatus (a : Reg) : Sound (opWriteStatus a) := fun _ _ h => h.put

theorem writeFpst (a : Reg) : Sound (opWriteFpst a) := fun _ _ h => h.put

theorem writeRsp (a : Reg) : Sound (opWriteRsp a) := by
  intro e s h
  unfold opWriteRsp
  dsimp only
  split
  · exact Keeps.fault
  · exact h.put

theorem writeClass (a : Reg) : Sound (opWriteClass a) := by
  intro e s h
  unfold opWriteClass
  dsimp only
  split
  · exact Keeps.fault
  · exact h.put

theorem writeDroopth (a : Reg) : Sound (opWriteDroopth a) := by
  intro e s h
  unfold opWriteDroopth
  split
  · exact Keeps.fault
  · exact h.modCore

theorem writeCpwt (a : Reg) : Sound (opWriteCpwt a) := by
  intro e s h
  unfold opWriteCpwt
  split
  · exact Keeps.fault
  · exact h.modCore

theorem trap (n : BitVec 16) : Sound (opTrap n) := fun _ _ h => Keeps.of_takeTrap h

theorem brk (n : BitVec 16) : Sound (opBrk n) := by
  intro e s h
  unfold opBrk
  split
  · exact Keeps.of_resumeWord h
  · split
    · exact h.trigger
    · exact Keeps.of_takeTrap h

theorem rft (a b : Reg) : Sound (opRft a b) := fun _ _ h => Keeps.of_returnFromTrap h

theorem halt : Sound opHalt := by
  intro e s h
  unfold opHalt
  split
  · exact h.put
  · split
    · exact h.trigger
    · exact h

/-- NOP changes nothing. -/
theorem nop : Sound fun _ s => .ok s := fun _ _ h => h

end Sound

theorem Lands.unassignedOpcode {w : Word} (h : Canonical s) : Lands (execUnassignedOpcode w s) := by
  unfold execUnassignedOpcode
  split
  · exact trivial
  · dsimp only [Lands]
    split
    · exact h
    · exact h.raise

end

end Sys2Proof.Machine
end

section
/-! PROOFS. Canonical memory, generations, the words of the supervisor, the scrubber and tensors. -/

namespace Sys2Proof.Machine

-- Proofs are elaborated one after another, as the tests are: the whole text has to fit the check's memory.
set_option Elab.async false

section
variable {s t : State} {e : Env}

namespace Canonical

/-! ### Generations -/

theorem genTurns {part : Nat} (h : Canonical s) : Canonical (s.genTurns part) := by
  unfold State.genTurns
  split
  · exact h
  · exact postWhen h.postWhen

theorem dropTags {p : Partition} {l : List Raise} (h : Canonical s) : Canonical (s.dropTags p l) := foldl (fun _ _ h => h.modField) h

theorem rejectHeld {part ctx : Nat} {p : Partition} (h : Canonical s) : Canonical (s.rejectHeld part ctx p) :=
  foldl (fun _ _ h => h.modField.wakeWaiters) h

theorem startRaises {part : Nat} (h : Canonical s) : Canonical (s.startRaises part) := by
  unfold State.startRaises
  split
  · exact h
  · exact foldl (fun _ _ h => h.rejectHeld) h.dropTags.setPart.genTurns

theorem ackCore {part ctx c : Nat} {g : BitVec 16} (h : Canonical s) : Canonical (s.ackCore part ctx c g) := by
  unfold State.ackCore
  refine modCore (foldl (fun x l h => ?_) (foldl (fun _ _ h => h.drain) h))
  split
  · exact h
  · exact h.writeBack

theorem ackAgent {part ctx a : Nat} {g : BitVec 16} (h : Canonical s) : Canonical (s.ackAgent part ctx a g) := by
  unfold State.ackAgent
  split
  · exact h.ackCore
  · split
    · exact h.modTile
    · split
      · exact h
      · exact h.modField

theorem migrationDone {part v : Nat} {w : Word} (h : Canonical s) : Canonical (s.migrationDone part v w) := h.postDev

theorem migrated {part v : Nat} (h : Canonical s) : Canonical (s.migrated part v) := by
  unfold State.migrated
  split
  · exact h
  · dsimp only
    split
    · exact h.setPart.migrationDone
    · exact h.migrationDone
    · exact h

end Canonical

namespace Lands

theorem generationAck {part : Nat} (h : Canonical s) : Lands (execGenerationAck part s) := by
  unfold execGenerationAck
  split
  · exact h
  · dsimp only
    split
    · exact h.genTurns
    · split
      · exact h
      · split
        · exact h.modPart.postAt
        · exact h.ackAgent.modPart.genTurns

theorem generationSwitch {part : Nat} (h : Canonical s) : Lands (execGenerationSwitch part s) := by
  unfold execGenerationSwitch
  split
  · exact h
  · split
    · exact h.genTurns
    · dsimp only
      split
      · exact h.postAll.postOnce
      · refine Canonical.startRaises (Canonical.rejectHeld ?_)
        split
        · exact Canonical.counterAdd (Canonical.foldl (fun _ _ h => h.setPinDw) h.setPart)
        · exact Canonical.migrated (Canonical.foldl (fun _ _ h => h.setPinDw) h.setPart)
        · exact Canonical.foldl (fun _ _ h => h.setPinDw) h.setPart

end Lands

/-! ### The words of the supervisor -/

theorem Keeps.of_checkCtr {a : Word} : Keeps (fun _ => True) (checkCtr a) := Keeps.of_faultIf.bind fun _ _ => Keeps.of_faultIf

namespace Sound

theorem tgen (d a b : Reg) : Sound (opTgen d a b) := fun _ _ h =>
  Keeps.of_faultIf.bind fun _ _ => Keeps.of_faultIf.bind fun _ _ => Keeps.of_faultIf.bind fun _ _ =>
    (Keeps.of_placed h).bind fun _ h => h.release.modPart.startRaises.put

/-- The words that a strand keeps change no memory. -/
theorem cinvCode : Sound opCinvCode := by
  intro e s h
  refine Canonical.modTile (Canonical.foldl (fun x u h => ?_) h)
  split
  · exact h
  · split
    · split
      · exact h.setStrand
      · exact h
    · exact h

theorem cinvLine (a : Reg) : Sound (opCinvLine a) := by
  intro e s h
  dsimp only [opCinvLine, Keeps]
  split
  · exact h.flushLine
  · exact h

theorem cinvRdc (a : Reg) : Sound (opCinvRdc a) := by
  intro e s h
  dsimp only [opCinvRdc, Keeps]
  split
  · split
    · exact h
    · exact h.dropRdc
  · exact h

theorem scrub (a : Reg) : Sound (opScrub a) := by
  intro e s h
  refine Keeps.of_faultIf.bind fun _ _ => (Keeps.of_readDwords h).bind fun ⟨s1, bs⟩ h1 => Keeps.of_faultIf.bind fun _ _ =>
    Keeps.of_faultIf.bind fun _ _ => Keeps.of_faultIf.bind fun _ _ => Keeps.of_faultIf.bind fun _ _ =>
    Keeps.of_checkCtr.bind fun _ _ => ?_
  dsimp only
  split <;>
  · split
    · exact trivial
    · exact Canonical.postOnce (Canonical.modField h1)

theorem route (d a : Reg) (c : TrafficClass) : Sound (opRoute d a c) := by
  intro e s h
  unfold opRoute
  dsimp only
  split
  · exact Keeps.fault
  · exact h.modPart.put

end Sound

/-! ### The scrubber -/

theorem Keeps.of_scrubPlace {c : Scrub} {va : Word} {acc : Acc} (h : Canonical s) :
    Keeps (fun x => Canonical x.1) (s.scrubPlace c va acc) := by
  unfold State.scrubPlace
  split
  · exact Keeps.fault
  · exact Keeps.of_place h

theorem Keeps.of_scrubPush {f : Nat} {c : Scrub} (h : Canonical s) : Keeps (fun x => Canonical x.1) (s.scrubPush f c) := by
  refine (Keeps.of_scrubPlace h).bind fun ⟨s1, pa⟩ h1 => Keeps.of_faultIf.bind fun _ _ => ?_
  dsimp only
  split
  · exact (Keeps.of_scrubPlace h1).bind fun ⟨_, _⟩ h => Keeps.pair h.homeWrite.homeWrite
  · exact h1

theorem Canonical.retireStuck {frame n : Nat} (h : Canonical s) : Canonical (s.retireStuck frame n) := by
  unfold State.retireStuck
  split
  · exact h
  · exact foldl (fun _ _ h => postOnce h.same) h

theorem Keeps.of_scrubStage {f : Nat} {c : Scrub} (h : Canonical s) : Keeps (fun x => Canonical x.1) (s.scrubStage f c) := by
  unfold State.scrubStage
  split
  · exact h.zeroFrame.retireStuck
  · split
    · exact h
    · exact (Keeps.of_scrubPush h).bind fun _ h => h
  · exact (Keeps.of_scrubPlace h).bind fun ⟨_, _⟩ h => Keeps.pair h.homeWrite
  · split
    · exact h
    · exact (Keeps.of_scrubPlace h).bind fun _ h => h.dropRdc.addAt

namespace Canonical

theorem scrubGone {f : Nat} {c : Scrub} (h : Canonical s) : Canonical (s.scrubGone f c) := h.modField.postUnless.postOnce

theorem scrubStopped {f : Nat} {c : Scrub} {x : Stop} (h : Canonical s) : Canonical (s.scrubStopped f c x) := by
  unfold State.scrubStopped
  split
  · split
    · exact h.scrubGone
    · exact h.linkFault
  · split
    · exact h.scrubGone
    · split
      · exact h.scrubGone
      · split
        · exact h.joinPromo
        · exact h.gridFault.scrubGone
  · split
    · exact h.scrubGone
    · exact h.gridFault.scrubGone
  · split
    · exact h.scrubGone
    · exact h.gridFault.scrubGone
  · exact h
  · exact h

end Canonical

namespace Lands

theorem scrubberRun {f : Nat} (h : Canonical s) : Lands (execScrubberRun f s) := by
  unfold execScrubberRun
  split
  · exact h
  · split
    · exact h
    · split
      · exact h.scrubStopped
      · next hx => exact Canonical.scrubGone ((Keeps.of_scrubStage h).ok hx :)
      · next hx => exact Canonical.postOnce (Canonical.modField ((Keeps.of_scrubStage h).ok hx :))

theorem haltRecord {part : Nat} (h : Canonical s) : Lands (execHaltRecord part s) := by
  unfold execHaltRecord
  split
  · exact h
  · split
    · exact h
    · exact h.putPins

end Lands

/-! ### Tensors -/

namespace Canonical

theorem tablePlace {part ctx : Nat} (h : Canonical s) : Canonical (s.tablePlace part ctx).1 := by
  unfold State.tablePlace
  split
  · exact h
  · split
    · next ha =>
      dsimp only
      exact (h.allocArena ha).modPart
    · exact h

theorem arenaZero {part n : Nat} {va : Word} (h : Canonical s) : Canonical (s.arenaZero part va n) := by
  unfold State.arenaZero
  split
  · exact h.zeroRange
  · exact h

theorem entryImage {part ctx id : Nat} {b : Bool} {x : Entry} (h : Canonical s) : Canonical (s.entryImage part ctx id b x) := by
  unfold State.entryImage
  split
  · next hx =>
    refine arenaPut ?_
    split
    · exact (h.tablePlace.fst hx).arenaZero
    · exact h.tablePlace.fst hx
  · next hx => exact h.tablePlace.fst hx

theorem setTensor {part ctx id : Nat} {x : Entry} (h : Canonical s) : Canonical (s.setTensor part ctx id x) := h.entryImage.modPart

end Canonical

theorem Keeps.of_entryStores {va : Word} {l : List Word} (h : Canonical s) : Keeps (fun x => Canonical x.1) (e.entryStores va l s) := by
  induction l generalizing s va with
  | nil => exact h
  | cons w l ih => exact (Keeps.of_storeElem h).bind fun _ h => (ih h).bind fun _ h => h

theorem Keeps.of_regId {r : Reg} : Keeps (fun _ => True) (e.regId r) := Keeps.of_faultIf.bind fun _ _ => trivial

theorem Keeps.of_tensorId {t : TensorId} : Keeps (fun _ => True) (e.tensorId t) := by
  cases t with
  | lit n => exact trivial
  | reg r => exact Keeps.of_regId

namespace Sound

theorem tdef (t : TensorId) (b : Reg) : Sound (opTdef t b) := fun _ _ h =>
  Keeps.of_tensorId.bind fun _ _ => Keeps.of_faultIf.bind fun _ _ => (Keeps.of_readDwords h).bind fun _ h =>
    Keeps.of_faultIf.bind fun _ _ => h.setTensor

theorem tget (t : TensorId) (b : Reg) : Sound (opTget t b) := fun _ _ h =>
  Keeps.of_tensorId.bind fun _ _ => Keeps.of_faultIf.bind fun _ _ => (Keeps.of_entryStores h).bind fun _ h => Keeps.of_postEntries h

theorem tdrop (t : TensorId) : Sound (opTdrop t) := fun _ _ h => Keeps.of_tensorId.bind fun _ _ => h.setTensor

end Sound

end

end Sys2Proof.Machine
end

section
/-! PROOFS. Canonical memory, the tokens of power. -/

namespace Sys2Proof.Machine

-- Proofs are elaborated one after another, as the tests are: the whole text has to fit the check's memory.
set_option Elab.async false

section
variable {s t : State} {e : Env}

namespace Canonical

/-! ### Grants and waiters -/

theorem addFree {f n : Nat} (h : Canonical s) : Canonical (s.addFree f n) := h.modField

theorem addGrant {tile n : Nat} (h : Canonical s) : Canonical (s.addGrant tile n) := h.modTile

theorem served {w : TokWait} (h : Canonical s) : Canonical (s.served w) := by
  unfold State.served
  split
  · exact h.modTile
  · exact h.makeReady

theorem serveList {f n : Nat} (h : Canonical s) : Canonical (s.serveList f n) := by
  induction n generalizing s with
  | zero => exact h
  | succ n ih =>
    unfold State.serveList
    split
    · exact h
    · split
      · exact h
      · dsimp only
        split
        · exact ih h.modField.addGrant.relink.served
        · exact h

theorem lightTile {tile : Nat} (h : Canonical s) : Canonical (s.lightTile tile) := h.modField.modTile.postAll

theorem serveFloors {f : Nat} {l : List Nat} (h : Canonical s) : Canonical (s.serveFloors f l) := by
  induction l generalizing s with
  | nil => exact h
  | cons x l ih =>
    unfold State.serveFloors
    split
    · exact ih h.lightTile
    · exact h.postAll

theorem postAtOnce {d : Nat} {i : Instr} (h : Canonical s) : Canonical (s.postAtOnce d i) := by
  unfold State.postAtOnce
  split
  · exact h
  · exact h.postAt

theorem reclaimTurns {f : Nat} (h : Canonical s) : Canonical (s.reclaimTurns f) := foldl (fun _ _ h => h.postAtOnce) h

theorem serveField {f : Nat} (h : Canonical s) : Canonical (s.serveField f) := h.serveFloors.serveList.postUnless.reclaimTurns

theorem serveFields {l : List Nat} (h : Canonical s) : Canonical (s.serveFields l) := by
  induction l generalizing s with
  | nil => exact h
  | cons f l ih => exact ih h.serveField

/-! ### Loans of fields and notices -/

theorem takeFields {f n : Nat} {l : List Nat} (h : Canonical s) : Canonical (s.takeFields f l n) := by
  induction l generalizing s n with
  | nil => exact h
  | cons g l ih =>
    unfold State.takeFields
    dsimp only
    split
    · exact ih h
    · exact ih h.same

theorem topUp {f n : Nat} (h : Canonical s) : Canonical (s.topUp f n) := by
  unfold State.topUp
  dsimp only
  split
  · exact h.modField.takeFields.modPart
  · exact h.modField.takeFields

theorem topWhole {f n : Nat} (h : Canonical s) (ht : s.topWhole f n = some t) : Canonical t := by
  unfold State.topWhole at ht
  dsimp only at ht
  split at ht
  · cases ht
    exact h.topUp
  · cases ht

theorem notify {tile : Nat} {n : Notice} (h : Canonical s) : Canonical (s.notify tile n) := by
  unfold State.notify
  split
  · exact h
  · exact h.modTile.postOnce

theorem revokeFrom {avail : State → Nat → Nat} {dest : Holder} {l : List Nat} {n : Nat} (h : Canonical s) :
    Canonical (s.revokeFrom avail dest l n).1 := by
  induction l generalizing s n with
  | nil => exact h
  | cons x l ih => exact ih h.notify

theorem revokeLeases {dest : Holder} {l : List Nat} {n : Nat} (h : Canonical s) : Canonical (s.revokeLeases dest l n).1 := by
  induction l generalizing s n with
  | nil => exact h
  | cons x l ih => exact ih h.notify

theorem revokeField {f n : Nat} {dest : Holder} {b : Bool} (h : Canonical s) : Canonical (s.revokeField f n dest b).1 := by
  unfold State.revokeField
  dsimp only
  split
  · exact h.revokeFrom.revokeFrom.revokeLeases
  · exact h.revokeFrom.revokeFrom

theorem untop {f n : Nat} (h : Canonical s) : Canonical (s.untop f n) := by
  unfold State.untop
  split
  · exact h.modPart
  · exact h

theorem settleLoans {l b n : Nat} (h : Canonical s) : Canonical (s.settleLoans l b n) := h.untop.same

theorem toReserve {f n : Nat} (h : Canonical s) : Canonical (s.toReserve f n) := h.modField.untop

theorem reclaimLoan {l : Loan} {c n : Nat} {dest : Holder} (h : Canonical s) : Canonical (s.reclaimLoan l c n dest).1 := by
  unfold State.reclaimLoan
  dsimp only
  split
  · dsimp only
    exact h.modField.settleLoans.toReserve.addFree.revokeField.revokeField
  · dsimp only
    exact h.modField.settleLoans.addFree.revokeField
  · exact h

theorem reclaimAll {dest : Loan → Holder} {out : Nat → Nat → Nat} {l : List Loan} {n : Nat} (h : Canonical s) :
    Canonical (s.reclaimAll dest out l n).1 := by
  induction l generalizing s n out with
  | nil => exact h
  | cons x l ih =>
    unfold State.reclaimAll
    split
    · exact h
    · exact ih h.reclaimLoan

/-! ### Loans of tiles -/

theorem backToLender {l n : Nat} (h : Canonical s) : Canonical (s.backToLender l n) := h.modTile.addFree

theorem returnLoans {tile n : Nat} {l : List Loan} (h : Canonical s) : Canonical (s.returnLoans tile l n).1 := by
  induction l generalizing s n with
  | nil => exact h
  | cons x l ih =>
    unfold State.returnLoans
    split
    · exact ih h
    · exact ih h.same

theorem returnGrant {tile n : Nat} (h : Canonical s) : Canonical (s.returnGrant tile n) := h.returnLoans.modTile.addFree

theorem convertLoans {tile : Nat} (h : Canonical s) : Canonical (s.convertLoans tile) := by
  unfold State.convertLoans
  refine foldl (fun x l h => ?_) h.same
  dsimp only
  split
  · exact h
  · exact h.modField.modField

theorem returnLease {c : Nat} (h : Canonical s) : Canonical (s.returnLease c) := h.modCore.addFree

theorem darken {tile : Nat} (h : Canonical s) : Canonical (s.darken tile) := by
  have hl := foldl (f := State.returnLease) (l := (upto 16).map fun i => tile * 16 + i) (fun _ _ h => h.returnLease) h
  refine postWhen (convertLoans (foldl (fun _ _ h => h.modCore) (modTile ?_)))
  split
  · exact hl.addFree
  · exact hl

theorem retireTokens {tile : Nat} (h : Canonical s) : Canonical (s.retireTokens tile) :=
  serveFields (darken (addFree (same (foldl (l := s.loans.filter fun l => l.borrower = tile) (f := fun x l => x.addFree (fieldOfTile l.lender) l.amount) (fun _ _ h => h.addFree) h))))

theorem recallLoans {tile n : Nat} {out : Nat → Nat} {l : List Loan} (h : Canonical s) : Canonical (s.recallLoans tile out l n).1 := by
  induction l generalizing s n out with
  | nil => exact h
  | cons x l ih =>
    unfold State.recallLoans
    split
    · exact ih h
    · exact ih h.notify

theorem joinList {f : Nat} {w : TokWait} (h : Canonical s) : Canonical (s.joinList f w) := h.modField.postAt.relinkWaits.postWhen

theorem joinUnless {c : Prop} [Decidable c] {f : Nat} {w : TokWait} (h : Canonical s) : Canonical (if c then s else s.joinList f w) := by
  split
  · exact h
  · exact h.joinList

/-- What a recall leaves short, taken from the field's top-up where it is granted whole. -/
theorem topRest {f rest tile : Nat} (h : Canonical s) : Canonical (if rest = 0 then (s, 0) else
    match s.topWhole f rest with
    | some y => (((y.modField f fun x => { x with free := x.free - rest }).addGrant tile rest).serveField f, 0)
    | none => (s, rest)).1 := by
  split
  · exact h
  · split
    · next hx =>
      dsimp only
      exact (h.topWhole hx).modField.addGrant.serveField
    · exact h

theorem refuseLeave {k u tile n : Nat} (h : Canonical s) : Canonical (s.refuseLeave k u tile n) := h.rewind.modSlot.suspend.joinList

theorem grantLeave {k tile n : Nat} (h : Canonical s) : Canonical (s.grantLeave k tile n) := h.modField.addGrant.modSlot.postSlot

theorem takeNotice {tile : Nat} {n : Notice} (h : Canonical s) : Canonical (s.takeNotice tile n) := by
  unfold State.takeNotice
  split
  · exact h.modCore.modTile
  · dsimp only
    split
    · exact h.same
    · exact h.modTile

theorem takeNotices {tile : Nat} {due : Notice → Bool} (h : Canonical s) : Canonical (s.takeNotices tile due) := by
  unfold State.takeNotices
  dsimp only
  split
  · exact postOnce (foldl (fun _ _ h => h.takeNotice) h.modTile)
  · exact h

theorem arrive {b : Nat} {n : Notice} (h : Canonical s) : Canonical (s.arrive b n) := by
  unfold State.arrive
  split
  · exact h.backToLender.postOnce
  · exact h.settleLoans.addFree
  · exact h.settleLoans.toReserve

theorem senseAtBroker {f : Nat} (h : Canonical s) : Canonical (s.senseAtBroker f) := by
  have hp : ∀ (c : Bool) (d : Nat) (i : Instr) (x : State), Canonical x → Canonical (if c then x.postAt d i else x) := by
    intro c d i x hx
    split
    · exact hx.postAt
    · exact hx
  exact hp _ _ _ _ h.setField

end Canonical

/-! ### Acts of the brokers -/

namespace Lands

theorem taskEndReturn {tile : Nat} (h : Canonical s) : Lands (execTaskEndReturn tile s) := by
  refine Canonical.serveFields ?_
  split
  · exact h.returnGrant.darken
  · exact h.returnGrant

theorem floorRequest {tile : Nat} (h : Canonical s) : Lands (execFloorRequest tile s) := by
  unfold execFloorRequest
  dsimp only
  split
  · exact h
  · split
    · exact h.lightTile
    · exact h.postWhen

theorem placementGrant {tile task : Nat} (h : Canonical s) : Lands (execPlacementGrant tile task s) := by
  unfold execPlacementGrant
  split
  · exact h
  · dsimp only
    split
    · exact h
    · exact h.modField.addGrant

theorem leaveRequest {k : Nat} (h : Canonical s) : Lands (execLeaveRequest k s) := by
  unfold execLeaveRequest
  split
  · exact h
  · split
    · exact h
    · split
      · exact h
      · dsimp only
        split
        · exact h.modSlot.postSlot
        · split
          · exact h.refuseLeave
          · split
            · exact h.grantLeave
            · split
              · exact h.recallLoans.topRest.rewind.modSlot.suspend.modTile.postOnce.joinUnless
              · split
                · next hx => exact (h.topWhole hx).grantLeave.serveField
                · exact h.refuseLeave

theorem recallComplete {tile : Nat} (h : Canonical s) : Lands (execRecallComplete tile s) := by
  unfold execRecallComplete
  split
  · exact h
  · refine Canonical.foldl (fun x r h => ?_) h.modTile
    split
    · exact h.makeReady
    · exact h

theorem revocationComplete {tile : Nat} (h : Canonical s) : Lands (execRevocationComplete tile s) :=
  Canonical.serveFields (Canonical.foldl (fun _ _ h => h.arrive) h.modTile)

theorem crucibleTopup {f : Nat} (h : Canonical s) : Lands (execCrucibleTopup f s) := by
  unfold execCrucibleTopup
  split
  · exact h
  · split
    · exact h
    · split
      · next hx => exact (h.topWhole hx).serveField
      · exact h

theorem crucibleReclaim {f : Nat} (h : Canonical s) : Lands (execCrucibleReclaim f s) := by
  unfold execCrucibleReclaim
  dsimp only
  split
  · exact h
  · exact h.reclaimAll.serveField

theorem leaseRequest {c : Nat} (h : Canonical s) : Lands (execLeaseRequest c s) := by
  unfold execLeaseRequest
  dsimp only
  split
  · exact h
  · exact h.modField.setCore

theorem leaseIdleReturn {c : Nat} (h : Canonical s) : Lands (execLeaseIdleReturn c s) := by
  unfold execLeaseIdleReturn
  dsimp only
  split
  · exact h.returnLease.serveField
  · split
    · exact h
    · exact h.postAtOnce

theorem droopHoldExit {f : Nat} (h : Canonical s) : Lands (execDroopHoldExit f s) := by
  unfold execDroopHoldExit
  dsimp only
  split
  · exact h
  · split
    · exact h.setField.serveField
    · exact h

end Lands

/-! ### The words of tokens -/

theorem Keeps.of_tokenTile : Keeps (fun _ => True) e.tokenTile := Keeps.of_faultIf

theorem Keeps.of_lendTarget {a : Word} : Keeps (fun _ => True) (e.lendTarget s a) := by
  unfold Env.lendTarget
  split
  · exact Keeps.fault
  · dsimp only
    split
    · exact Keeps.fault
    · exact trivial

namespace Sound

theorem treq (d a : Reg) (all : Bool) : Sound (opTreq d a all) := by
  intro e s h
  refine Keeps.of_tokenTile.bind fun _ _ => ?_
  dsimp only
  split
  · exact h.put
  · split
    · exact h.put
    · split
      · exact h.put
      · split
        · exact h.put
        · split
          · exact h.modField.addGrant.put
          · exact h.topUp.modField.addGrant.serveField.put

theorem trel (d a : Reg) : Sound (opTrel d a) := fun _ _ h => Keeps.of_tokenTile.bind fun _ _ => h.put.returnGrant.serveFields

theorem tlend (d a b : Reg) : Sound (opTlend d a b) := by
  intro e s h
  refine Keeps.of_tokenTile.bind fun _ _ => Keeps.of_lendTarget.bind fun dst _ => ?_
  dsimp only
  split
  · exact h.put
  · split
    · exact h.put
    · split
      · exact h.put
      · split
        · exact h.put
        · split
          · exact h.put
          · split
            · exact h.put
            · exact Canonical.put h.same

theorem tstat (d : Reg) (n : Nat) : Sound (opTstat d n) := fun _ _ h => Keeps.of_tokenTile.bind fun _ _ => h.put

end Sound

end

end Sys2Proof.Machine
end

section
/-! PROOFS. Canonical memory, the engines' work: reads, logs and writes as a monad over the state. -/

namespace Sys2Proof.Machine

-- Proofs are elaborated one after another, as the tests are: the whole text has to fit the check's memory.
set_option Elab.async false

theorem Canonical.logZero {s : State} {j : Job} {role id mask c1 c0 : Nat} {exp : Bool} (h : Canonical s) :
    Canonical (s.logZero j role id exp mask c1 c0) := h.arenaPut.setTile

theorem Canonical.putElems {s : State} {w : Writer} {l : List StoreElem} (h : Canonical s) : Canonical (s.putElems w l) :=
  foldl (fun _ _ h => h.homeWrite) h

/-- Engine work keeps memory canonical. -/
def Steady {α : Type} (m : Eng α) : Prop := ∀ s z, Canonical s → Keeps (fun x => Canonical x.2.1) (m (s, z))

namespace Steady

section
variable {α β : Type}

theorem pure {a : α} : Steady (Pure.pure a : Eng α) := fun _ _ h => h

theorem bind {m : Eng α} {f : α → Eng β} (hm : Steady m) (hf : ∀ a, Steady (f a)) : Steady (m >>= f) := fun s z h =>
  Keeps.bind (P := fun x => Canonical x.2.1) (hm s z h) fun x hx => hf x.1 x.2.1 x.2.2 hx

theorem mapM {f : α → Eng β} {l : List α} (hf : ∀ a, Steady (f a)) : Steady (l.mapM f) := by
  induction l with
  | nil => exact pure
  | cons a l ih =>
    rw [List.mapM_cons]
    exact bind (hf a) fun _ => bind ih fun _ => pure

/-- What reads the state and goes on. -/
theorem get_bind {f : State × Bool → Eng β} (hf : ∀ s z, Canonical s → Keeps (fun x => Canonical x.2.1) (f (s, z) (s, z))) :
    Steady (get >>= f) := hf

theorem fault {c : FaultCode} {v : Word} : Steady (liftM (failWith c v : Res α) : Eng α) := fun _ _ _ => trivial

end

/-! ### Accesses -/

section
variable {j : Job}

theorem engPlace {va : Word} {acc : Acc} : Steady (engPlace j va acc) := by
  intro s z h
  unfold Machine.engPlace
  dsimp only
  split
  · exact Keeps.fault
  · split
    · next hx =>
      split
      · exact Keeps.fault
      · exact (Keeps.of_place h).ok hx
    · next hx => exact (Keeps.of_place h).error hx

theorem engRead {va : Word} {n : Nat} : Steady (engRead j va n) := by
  refine bind engPlace fun pa => get_bind fun s z h => ?_
  dsimp only
  split
  · split
    · exact h.assayAt
    · exact h
  · split
    · exact h.fillLine.assayAt
    · exact h.fillLine

theorem engExact {va : Word} {n : Nat} : Steady (engExact j va n) := by
  refine bind engRead fun ⟨v, l⟩ => ?_
  dsimp only
  split
  · exact fault
  · exact pure

theorem engWrite {va : Word} {n v : Nat} : Steady (engWrite j va n v) := bind engPlace fun _ => pure

theorem engLog {role id mask c1 c0 : Nat} {exp : Bool} : Steady (engLog j role id exp mask c1 c0) := by
  unfold Machine.engLog
  split
  · exact get_bind fun s z h => h.logZero
  · exact pure

/-! ### Rows of tensors -/

theorem readElems {f n lo role id c1 c0 : Nat} {va : Nat → Word} : Steady (readElems j f va n lo role id c1 c0) :=
  bind (mapM fun _ => bind engRead fun _ => pure) fun _ => bind engLog fun _ => pure

theorem readPiece {x : Entry} {role id b i1 i2 i3 n : Nat} : Steady (readPiece j x role id b i1 i2 i3 n) := by
  unfold Machine.readPiece
  split
  · exact bind engRead fun _ => bind (mapM fun _ => engRead) fun _ => bind engLog fun _ => pure
  · exact readElems

theorem readRow {x : Entry} {role id b0 i1 i2 i3 n : Nat} : Steady (readRow j x role id b0 i1 i2 i3 n) :=
  bind (mapM fun _ => readPiece) fun _ => pure

theorem writeBlock {x : Entry} {b i1 i2 i3 : Nat} {blk : Block} : Steady (writeBlock j x b i1 i2 i3 blk) :=
  bind (mapM fun _ => engWrite) fun _ => bind engWrite fun _ => pure

/-! ### Matrix words -/

theorem accRow {i m b n : Nat} : Steady (accRow j i m b n) := by
  unfold Machine.accRow
  split
  · exact pure
  · exact readRow

theorem matBlock {dist acc : Bool} {w mm nn nk : Nat} {loadA : List Nat → List Nat → Eng (List (List Block))}
    (hA : ∀ ms ks, Steady (loadA ms ks)) : Steady (matBlock j dist acc w mm nn nk loadA) := by
  refine bind (hA _ _) fun as => bind (mapM fun n => mapM fun k => bind readPiece fun _ => pure) fun bs =>
    bind (mapM fun ⟨m, i⟩ => ?_) fun cs => bind (mapM fun ⟨m, n, v⟩ => engWrite) fun ws => pure
  dsimp only
  split
  · exact pure
  · exact accRow

theorem denseA {ms ks : List Nat} : Steady (denseA j ms ks) := mapM fun _ => mapM fun _ => bind readPiece fun _ => pure

theorem mmBlock {dist acc : Bool} : Steady (mmBlock j dist acc) := matBlock fun _ _ => denseA

theorem readList {m kk : Nat} : Steady (readList j m kk) :=
  bind (mapM fun _ => bind engExact fun _ => bind engExact fun _ => pure) fun _ => pure

theorem listRow {i m kk : Nat} : Steady (listRow j i m kk) := by
  unfold Machine.listRow
  split
  · exact pure
  · exact readList

theorem topkBlock {dist : Bool} : Steady (topkBlock j dist) := by
  refine bind denseA fun as => bind (mapM fun n => mapM fun k => bind readPiece fun _ => pure) fun bs =>
    bind (mapM fun ⟨m, a, i⟩ => ?_) fun lists =>
    bind (mapM fun ⟨m, l⟩ => mapM fun ⟨⟨n, v⟩, i⟩ => bind engWrite fun _ => bind engWrite fun _ => pure) fun ws => pure
  dsimp only
  split
  · exact pure
  · exact bind listRow fun _ => pure

theorem spcompWork : Steady (spcompWork j) :=
  bind (mapM fun _ => readRow) fun _ => bind (mapM fun ⟨_, _⟩ => writeBlock) fun _ => pure

theorem sparseA {kk : Nat} {ms ks : List Nat} : Steady (sparseA j kk ms ks) :=
  bind (mapM fun _ => bind readPiece fun _ => pure) fun _ => pure

theorem spmmBlock {acc : Bool} : Steady (spmmBlock j acc) := matBlock fun _ _ => sparseA

/-! ### Attention and caches of keys and values -/

theorem kvPage {x : Entry} {p : Nat} : Steady (kvPage j x p) := by
  refine bind engExact fun v => ?_
  dsimp only
  split
  · exact pure
  · exact fault

theorem readKey {x : Entry} {c : Nat} {k : Key} : Steady (readKey j x c k) := by
  cases k with
  | pos p => exact bind kvPage fun _ => mapM fun _ => readElems
  | node i => exact mapM fun _ => readPiece

theorem loadKey {x : Entry} {k : Option Key} : Steady (loadKey j x k) := by
  cases k with
  | none => exact pure
  | some y => exact bind readKey fun _ => bind readKey fun _ => pure

theorem loadChunk {x : Entry} {d c : Nat} {ks : Keys} : Steady (loadChunk j x d ks c) :=
  bind (mapM fun _ => loadKey) fun _ => pure

theorem attnStart {d c0 i r : Nat} : Steady (attnStart j d c0 i r) := by
  unfold Machine.attnStart
  split
  · exact pure
  · split
    · exact pure
    · exact bind readRow fun _ => bind readRow fun _ => pure

theorem attnWrites {r m l : Nat} {vals : List Nat} : Steady (attnWrites j r vals m l) :=
  bind (mapM fun ⟨_, _⟩ => engWrite) fun _ => bind engWrite fun _ => bind engWrite fun _ => pure

theorem attnTree {t : Tree} : Steady (attnTree j t) := by
  unfold Machine.attnTree
  split
  · exact pure
  · split
    · exact fault
    · split
      · exact pure
      · split
        · exact fault
        · split
          · exact fault
          · exact pure

theorem attnBlock {causal : Bool} : Steady (attnBlock j causal) := by
  refine get_bind fun s z h => ?_
  refine (bind attnTree fun _ => bind (mapM fun _ => mapM fun _ => bind readPiece fun _ => pure) fun _ =>
    bind (mapM fun _ => loadChunk) fun _ => bind (mapM fun ⟨_, _⟩ => attnStart) fun _ => bind (mapM fun ⟨_, _⟩ => attnWrites) fun _ =>
    pure) s z h

theorem mergeCheck : Steady (mergeCheck j) :=
  bind (mapM fun _ => bind (mapM fun _ => bind engPlace fun _ => bind engPlace fun _ => engPlace) fun _ =>
    mapM fun _ => bind engPlace fun _ => bind engPlace fun _ => engPlace) fun _ => pure

theorem mergeOne {r : Nat} : Steady (mergeOne j r) := by
  refine bind engExact fun _ => bind engExact fun _ => bind engExact fun _ => bind engExact fun _ =>
    bind (mapM fun _ => engExact) fun _ => bind (mapM fun _ => engExact) fun _ => ?_
  split
  · exact pure
  · exact bind (mapM fun ⟨_, _⟩ => engWrite) fun _ => bind engWrite fun _ => bind engWrite fun _ => pure

theorem pagesNeeded {x : Entry} {l : List Nat} : Steady (pagesNeeded j x l) := by
  induction l with
  | nil => exact pure
  | cons p l ih => exact bind engExact fun _ => bind ih fun _ => pure

theorem allocPages {x : Entry} {pool : Word} {need : List Nat} : Steady (allocPages j x pool need) := by
  unfold Machine.allocPages
  dsimp only
  split
  · exact pure
  · refine bind engPlace fun base => bind engExact fun used => bind engExact fun quota => bind engExact fun count => ?_
    split
    · exact pure
    · split
      · exact pure
      · refine bind (mapM fun _ => engExact) fun pages => bind (mapM fun ⟨_, _⟩ => engWrite) fun ws => get_bind fun s z h => ?_
        exact h.homeWrite.homeWrite.putElems

theorem appendOne {x : Entry} {p : Nat} {src : Nat → Eng (List Fp)} (hs : ∀ c, Steady (src c)) : Steady (appendOne j x p src) :=
  bind kvPage fun _ => bind (mapM fun _ => bind (hs _) fun _ => mapM fun ⟨_, _⟩ => engWrite) fun _ => pure

theorem kvRow {x : Entry} {p el : Nat} {v : Bool} : Steady (kvRow j x p el v) := by
  refine bind kvPage fun pe => mapM fun i => ?_
  split
  · exact bind engExact fun _ => pure
  · exact pure

/-! ### Element words -/

theorem readSeg {x : Entry} {role id : Nat} {g : Seg} {c : Nat × Nat × Nat} : Steady (readSeg j x role id g c) := by
  unfold Machine.readSeg
  dsimp only
  split
  · exact bind readPiece fun _ => pure
  · exact bind readElems fun _ => pure

theorem readOther {y : Entry} {id : Nat} {g : Seg} {c : Nat × Nat × Nat} : Steady (readOther j y id g c) := by
  unfold Machine.readOther
  dsimp only
  split
  · exact bind readSeg fun _ => pure
  · exact readSeg

theorem writeSeg {y : Entry} {md : RoundMode} {g : Seg} {vals : List Fp} : Steady (writeSeg j y md g vals) := by
  unfold Machine.writeSeg
  dsimp only
  split
  · exact writeBlock
  · exact mapM fun ⟨_, _⟩ => engWrite

theorem writeRow {y : Entry} {r : Nat} {vals : List Fp} : Steady (writeRow j y r vals) := bind (mapM fun _ => writeSeg) fun _ => pure

theorem mapBlock {r : Nat} {md : RoundMode} {val : Seg → Nat × Nat × Nat → Eng (List Fp)} (hv : ∀ g c, Steady (val g c)) :
    Steady (mapBlock j r md val) := bind (mapM fun _ => bind (hv _ _) fun _ => writeSeg) fun _ => pure

theorem rowsBlock {cost : Nat → Nat} {row : Nat → Eng (List StoreElem)} (hr : ∀ r, Steady (row r)) : Steady (rowsBlock j cost row) :=
  bind (mapM fun _ => hr _) fun _ => pure

theorem sourceRow {r : Nat} : Steady (sourceRow j r) := bind readRow fun _ => pure

theorem redBlock {f : Nat} {acc : Bool} : Steady (redBlock j f acc) := by
  unfold Machine.redBlock
  refine rowsBlock fun r => bind sourceRow fun l => ?_
  dsimp only
  split
  · exact bind readRow fun _ => writeRow
  · exact writeRow

theorem normBlock {gain mean : Bool} : Steady (normBlock j gain mean) := by
  unfold Machine.normBlock
  refine rowsBlock fun r => bind sourceRow fun l => ?_
  dsimp only
  split
  · exact bind readRow fun _ => writeRow
  · exact writeRow

theorem softBlock : Steady (softBlock j) := by
  unfold Machine.softBlock
  exact rowsBlock fun _ => bind sourceRow fun _ => writeRow

theorem emapBlock : Steady (emapBlock j) := by
  unfold Machine.emapBlock
  exact mapBlock fun _ _ => bind readSeg fun _ => pure

theorem ezipBlock : Steady (ezipBlock j) := by
  unfold Machine.ezipBlock
  exact mapBlock fun _ _ => bind readSeg fun _ => bind readOther fun _ => pure

theorem ecvtBlock {md : RoundMode} : Steady (ecvtBlock j md) := mapBlock fun _ _ => readSeg

/-- The work of a row block. -/
theorem block : Steady j.block := by
  unfold Job.block
  split
  · exact mmBlock
  · exact mmBlock
  · exact topkBlock
  · exact spmmBlock
  · exact attnBlock
  · exact emapBlock
  · exact ezipBlock
  · exact redBlock
  · exact normBlock
  · exact softBlock
  · exact ecvtBlock
  · exact pure

end
end Steady

end Sys2Proof.Machine
end

section
/-! PROOFS. Canonical memory, the words of the engines and the row blocks. -/

namespace Sys2Proof.Machine

-- Proofs are elaborated one after another, as the tests are: the whole text has to fit the check's memory.
set_option Elab.async false

section
variable {s t : State} {e : Env}

/-! ### Jobs -/

namespace Canonical

theorem freeRecord (h : Canonical s) : Canonical (e.freeRecord s) := by
  unfold Env.freeRecord
  split
  · exact h
  · exact h.freeArena

theorem dropJob {tile u : Nat} (h : Canonical s) : Canonical (s.dropJob tile u) := h.modTile

theorem dropClean {c : Nat} (h : Canonical s) : Canonical (s.dropClean c) := ⟨h.wf⟩

theorem bracket (h : Canonical s) : Canonical (e.bracket s) := h.release

theorem enqueueJob {j : Job} (h : Canonical s) : Canonical (e.enqueueJob s j) := h.modTile.postOnce

theorem takeRecord {x : State × Word} (h : Canonical s) (hx : e.takeRecord s = some x) : Canonical x.1 := by
  unfold Env.takeRecord at hx
  split at hx
  · cases hx
    exact h
  · exact h.allocArena hx

end Canonical

theorem Keeps.of_stopJob {j : Job} {why : State → State} (hw : ∀ x, Canonical x → Canonical (why x)) (h : Canonical s) :
    Keeps Canonical (e.stopJob s j why) := by
  unfold Env.stopJob
  split
  · exact trivial
  · next hx => exact hw _ (h.dropJob.takeRecord hx).arenaPut.put.dropClean

theorem Keeps.of_jobFault {c : FaultCode} {v : Word} {b : Bool} (h : Canonical s) : Keeps Canonical (e.jobFault s c v b) := by
  unfold Env.jobFault
  split
  · exact trivial
  · exact h.dropJob.dropClean.raise

theorem Keeps.of_jobStopped {j : Job} {w : JobStop} (h : Canonical s) : Keeps Canonical (e.jobStopped s j w) := by
  unfold Env.jobStopped
  split
  · exact Keeps.of_jobFault h
  · exact Keeps.of_jobFault h
  · exact Keeps.of_stopJob (fun _ h => h.pageFault) h
  · split
    · exact Keeps.of_stopJob (fun _ h => h.tierMiss) h
    · exact Keeps.of_jobFault h
  · exact Keeps.of_stopJob (fun _ h => h.refuseLeave) h
  · exact Keeps.of_stopJob (fun _ h => h.suspend) h

theorem Keeps.of_leave (h : Canonical s) : Keeps (fun _ => True) (e.leave s) := by
  unfold Env.leave
  split
  · exact trivial
  · split
    · exact trivial
    · exact h.modSlot.postOnce

theorem Keeps.of_engRun {α : Type} {m : Eng α} (hm : Steady m) (h : Canonical s) : Keeps (fun x => Canonical x.2.1) (engRun m s) :=
  hm s false h

theorem Keeps.of_resumeRecord : Keeps (fun _ => True) (e.resumeRecord s) := by
  unfold Env.resumeRecord
  split
  · exact trivial
  · split
    · exact Keeps.fault
    · exact trivial

theorem Keeps.of_checkRecord {j : Job} {r : List Word} : Keeps (fun _ => True) (e.checkRecord j r) := Keeps.of_faultIf

theorem Keeps.of_resumed {j : Job} : Keeps (fun _ => True) (e.resumed s j) := by
  refine Keeps.of_resumeRecord.bind fun r _ => ?_
  cases r with
  | none => exact trivial
  | some r => exact Keeps.of_checkRecord.bind fun _ _ => trivial

theorem Keeps.of_heavyClass : Keeps (fun _ => True) e.heavyClass := Keeps.of_faultIf

/-! ### An engine's word -/

/-- The preparation of a job keeps memory canonical. -/
def Prepares (prep : Env → State → Res (State × Job)) : Prop :=
  ∀ (e : Env) (s : State), Canonical s → Keeps (fun x => Canonical x.1) (prep e s)

/-- Work that is done at once keeps memory canonical. -/
def Works (work : Job → Env → State → Res (State × Strand)) : Prop :=
  ∀ (j : Job) (e : Env) (s : State), Canonical s → Keeps (fun x => Canonical x.1) (work j e s)

theorem Sound.engine {prep : Env → State → Res (State × Job)} (hp : Prepares prep) : Sound (engineOp prep) := by
  intro e s h
  unfold engineOp
  split
  · split
    · exact trivial
    · exact trivial
    · exact h.dropJob.freeRecord.put.dropClean
    · exact Keeps.of_jobStopped h
  · refine (hp e _ h.bracket).bind fun ⟨s1, j⟩ h1 => ?_
    dsimp only
    split
    · exact (Keeps.of_leave h1).bind fun _ _ => Canonical.enqueueJob h1
    · exact Canonical.enqueueJob h1

theorem Sound.engineNow {i : Instr} {work : Job → Env → State → Res (State × Strand)} {ids : List Nat} (hw : Works work) :
    Sound (engineNow i work ids) := fun e _ h => (hw _ e _ h.bracket).bind fun _ h => h.put.dropClean

/-! ### Matrix words -/

theorem Prepares.mm {i : Instr} {a : Reg} {tx ty : Nat} : Prepares (prepMm i a tx ty) := fun _ _ h =>
  Keeps.of_regId.bind fun _ _ => Keeps.of_faultIf.bind fun _ _ => Keeps.of_heavyClass.bind fun _ _ => Keeps.of_resumed.bind fun _ _ => h

theorem Prepares.topk {i : Instr} {a b : Reg} {tx ty : Nat} : Prepares (prepTopk i a b tx ty) := fun _ _ h =>
  Keeps.of_regId.bind fun _ _ => Keeps.of_regId.bind fun _ _ => Keeps.of_faultIf.bind fun _ _ => Keeps.of_heavyClass.bind fun _ _ =>
    Keeps.of_resumed.bind fun _ _ => h

theorem Prepares.spmm {i : Instr} {a b : Reg} {tx ty : Nat} : Prepares (prepSpmm i a b tx ty) := by
  intro e s h
  refine Keeps.of_regId.bind fun _ _ => Keeps.of_faultIf.bind fun _ _ => ?_
  dsimp only
  split
  · exact Keeps.fault
  · exact Keeps.of_heavyClass.bind fun _ _ => Keeps.of_resumed.bind fun _ _ => h

theorem Sound.spcomp (i : Instr) (d : Reg) (tx ty : Nat) : Sound (opSpcomp i d tx ty) := Sound.engineNow fun _ _ _ h =>
  Keeps.of_faultIf.bind fun _ _ => Keeps.of_resumed.bind fun _ _ => (Keeps.of_engRun Steady.spcompWork h).bind fun ⟨_, _, _⟩ h =>
    Keeps.pair h.putElems

/-! ### Attention and caches of keys and values -/

theorem Keeps.of_kvHeader {x : Entry} (h : Canonical s) : Keeps (fun x => Canonical x.1) (e.kvHeader s x) :=
  (Keeps.of_place h).bind fun _ h => Keeps.of_faultIf.bind fun _ _ => Keeps.of_faultIf.bind fun _ _ =>
    Keeps.pair h.acquire

theorem Canonical.setTree {tile n : Nat} {x : Tree} (h : Canonical s) : Canonical (s.setTree tile n x) := h.modTile

theorem Keeps.of_checkGen {x : Entry} {l : Nat} : Keeps (fun _ => True) (checkGen x l) := Keeps.of_faultIf

theorem Keeps.of_attnResume {j : Job} {x : Entry} {l : Nat} {r : List Word} : Keeps (fun _ => True) (attnResume j x l r) :=
  Keeps.of_faultIf.bind fun _ _ => trivial

theorem Prepares.attn {i : Instr} {d a b : Reg} {tx ty : Nat} {c : Bool} : Prepares (prepAttn i d a b tx ty c) := by
  intro e s h
  refine Keeps.of_regId.bind fun _ _ => Keeps.of_regId.bind fun _ _ => Keeps.of_faultIf.bind fun _ _ => Keeps.of_faultIf.bind fun _ _ =>
    Keeps.of_faultIf.bind fun _ _ => Keeps.of_faultIf.bind fun _ _ => Keeps.of_heavyClass.bind fun _ _ =>
    Keeps.of_resumeRecord.bind fun r _ => ?_
  cases r with
  | none =>
    exact (Keeps.of_kvHeader h).bind fun _ h => Keeps.of_checkGen.bind fun _ _ => Keeps.of_faultIf.bind fun _ _ =>
      Keeps.of_faultIf.bind fun _ _ => h
  | some y =>
    exact Keeps.of_checkRecord.bind fun _ _ => (Keeps.of_kvHeader h).bind fun _ h => Keeps.of_checkGen.bind fun _ _ =>
      Keeps.of_attnResume.bind fun _ _ => h

theorem Keeps.of_mergeRows {j : Job} {k : Nat} {l : List Nat} (h : Canonical s) : Keeps Canonical (mergeRows j k l s) := by
  induction l generalizing s with
  | nil => exact h
  | cons r l ih =>
    have hm := Keeps.of_engRun (Steady.mergeOne (j := j) (r := r)) h
    unfold mergeRows
    split
    · next hx => exact h.stopped (hm.error hx : Keeps (fun _ : Unit => True) _)
    · next hx => exact ih (Canonical.putElems (hm.ok hx :))

theorem Sound.attmerge (i : Instr) (a b : Reg) (tx ty : Nat) : Sound (opAttmerge i a b tx ty) := fun e s h =>
  Keeps.of_regId.bind fun _ _ => Keeps.of_regId.bind fun _ _ => Sound.engineNow (fun _ _ _ h =>
    Keeps.of_faultIf.bind fun _ _ => (Keeps.of_engRun Steady.mergeCheck h).bind fun ⟨_, _, _⟩ h =>
      (Keeps.of_mergeRows h).bind fun _ h => Keeps.pair h) e s h

theorem Keeps.of_appendRows {j : Job} {k l : Nat} {x : Entry} {src : Nat → Nat → Eng (List Fp)} {ts : List Nat} {z : Bool}
    (hs : ∀ a b, Steady (src a b)) (h : Canonical s) : Keeps (fun x => Canonical x.1) (appendRows j k x l src ts s z) := by
  induction ts generalizing s z with
  | nil => exact h
  | cons a ts ih =>
    have hm := Steady.appendOne (j := j) (x := x) (p := l + a) (hs a) s z h
    unfold appendRows
    split
    · next hx => exact h.stopped (hm.error hx : Keeps (fun _ : Unit => True) _)
    · next hx => exact ih (Canonical.putElems (hm.ok hx :))

theorem Keeps.of_append {j : Job} {x : Entry} {pool : Word} {l n : Nat} {src : Nat → Nat → Eng (List Fp)}
    (hs : ∀ a b, Steady (src a b)) (h : Canonical s) : Keeps (fun r => Canonical r.state) (e.append j x pool l n src s) := by
  have hgo : ∀ (r : Option Word) (x2 : State), Canonical x2 → Keeps (fun r : Append => Canonical r.state) (match r with
      | some st => .ok { status := st, state := s, zsub := false }
      | none => do
        let (s3, z) ← appendRows j e.k x l src (upto n) x2 false
        match s3.place e.user (e.req (tPtab x) .rmw) with
        | .error y => .error (.become (s3.stopped e.k false false y))
        | .ok (s4, pa) => return { status := kvOkStatus n, state := (s4.dropRdc e.fld (tPtab x) e.ctx).addAt e.ctx pa (BitVec.ofNat 64 n), zsub := z }) := by
    intro r x2 h2
    cases r with
    | some st => exact h
    | none =>
      refine (Keeps.of_appendRows hs h2).bind fun ⟨s3, z⟩ h3 => ?_
      have hp := Keeps.of_place (user := e.user) (r := e.req (tPtab x) .rmw) h3
      dsimp only at hp ⊢
      split
      · next hx => exact Canonical.stopped h3 (hp.error hx : Keeps (fun _ : Unit => True) _)
      · next hx => exact Canonical.addAt (Canonical.dropRdc (hp.ok hx :))
  unfold Env.append
  refine Keeps.of_faultIf.bind fun _ _ => (Keeps.of_engRun Steady.pagesNeeded h).bind fun ⟨need, s1, z1⟩ h1 => ?_
  dsimp only
  split
  · exact hgo none s1 h1
  · exact (Keeps.of_engRun Steady.allocPages h1).bind fun ⟨r, s2, z2⟩ h2 => hgo r s2 h2

theorem Sound.kvapp (i : Instr) (d : Reg) (tx ty : Nat) : Sound (opKvapp i d tx ty) := Sound.engineNow fun _ _ _ h =>
  Keeps.of_faultIf.bind fun _ _ => (Keeps.of_kvHeader h).bind fun ⟨_, _, _⟩ h => Keeps.of_checkGen.bind fun _ _ =>
    (Keeps.of_append (fun _ _ => Steady.readRow) h).bind fun _ h => h

theorem Sound.kvlook (i : Instr) (d a b : Reg) (tx : Nat) (v : Bool) : Sound (opKvlook i d a b tx v) := Sound.engineNow fun _ _ _ h =>
  Keeps.of_faultIf.bind fun _ _ => (Keeps.of_kvHeader h).bind fun ⟨_, _, _⟩ h => Keeps.of_checkGen.bind fun _ _ =>
    Keeps.of_faultIf.bind fun _ _ => (Keeps.of_engRun Steady.kvRow h).bind fun _ h => h

/-! ### Trees -/

theorem Keeps.of_readTree : Keeps (fun _ => True) (e.readTree s) := Keeps.of_faultIf.bind fun _ _ => trivial

theorem Sound.ttset (i : Instr) (a : Reg) (tx : Nat) : Sound (opTtset i a tx) := by
  refine Sound.engineNow fun j e s h => Keeps.of_faultIf.bind fun _ _ => Keeps.of_faultIf.bind fun _ _ =>
    (Keeps.of_engRun (Steady.mapM fun _ => Steady.engExact) h).bind fun ⟨ps, s1, z⟩ h1 => ?_
  dsimp only
  split
  · exact Keeps.fault
  · exact Keeps.of_faultIf.bind fun _ _ => Keeps.pair (Canonical.setTree h1)

theorem Sound.ttmask (i : Instr) (d a : Reg) : Sound (opTtmask i d a) := Sound.engineNow fun _ _ _ h => Keeps.of_readTree.bind fun _ _ => h

theorem Sound.ttpos (i : Instr) (d a : Reg) (b : Bool) : Sound (opTtpos i d a b) := Sound.engineNow fun _ _ _ h =>
  Keeps.of_readTree.bind fun _ _ => h

theorem Sound.ttprune (i : Instr) (d a : Reg) (tx : Nat) (clr : Bool) : Sound (opTtprune i d a tx clr) := by
  refine Sound.engineNow fun j e s h => Keeps.of_faultIf.bind fun _ _ => Keeps.of_faultIf.bind fun _ _ => Keeps.of_faultIf.bind fun _ _ =>
    Keeps.of_faultIf.bind fun _ _ => (Keeps.of_kvHeader h).bind fun ⟨s1, l, pool⟩ h1 => Keeps.of_checkGen.bind fun _ _ =>
    Keeps.of_faultIf.bind fun _ _ => (Keeps.of_append (fun _ _ => Steady.readRow) h1).bind fun r hr => ?_
  refine Keeps.pair ?_
  split
  · exact hr.setTree
  · exact hr

theorem Sound.ttclr (i : Instr) : Sound (opTtclr i) := Sound.engineNow fun _ _ _ h => Keeps.of_faultIf.bind fun _ _ => h.setTree

/-! ### Element words -/

theorem Prepares.ve {i : Instr} {a : Reg} {p : Option Reg} {tx : Nat} {ty : Option Nat} {ok : Job → Bool} :
    Prepares (prepVe i a p tx ty ok) := fun _ _ h =>
  Keeps.of_regId.bind fun _ _ => Keeps.of_faultIf.bind fun _ _ => Keeps.of_heavyClass.bind fun _ _ => Keeps.of_resumed.bind fun _ _ => h

/-! ### Row blocks -/

theorem Canonical.idleFor {tile : Nat} {j : Job} (h : Canonical s) : Canonical (s.idleFor tile j) := h.modTile.postAt

namespace Lands

theorem rowBlockStart {tile : Nat} (h : Canonical s) : Lands (execRowBlockStart tile s) := by
  unfold execRowBlockStart
  dsimp only
  split
  · exact h.haltPreempted
  · split
    · exact h.haltPreempted.takeNotices
    · next j _ =>
      have hn := h.haltPreempted (tile := tile) |>.takeNotices (tile := tile) (due := fun n => n.core.isNone)
      have hb := Keeps.of_engRun (Steady.block (j := j)) hn
      split
      · exact hn.haltJob
      · split
        · exact hn.haltJob
        · next hx =>
          split
          · exact hn.putJob.postAt.postOnce
          · exact Canonical.postOnce (Canonical.putJob (hb.ok hx :))

theorem rowBlockEnd {tile : Nat} (h : Canonical s) : Lands (execRowBlockEnd tile s) := by
  unfold execRowBlockEnd
  split
  · exact h
  · dsimp only [Lands]
    split
    · exact (Canonical.postUnless h.putElems.modTile.postSlot).haltPreempted.postOnce
    · exact (Canonical.postUnless h.putElems.modTile.postSlot).haltPreempted.idleFor

theorem engineIdleEnd {tile : Nat} (h : Canonical s) : Lands (execEngineIdleEnd tile s) := by
  unfold execEngineIdleEnd
  dsimp only
  split
  · exact h.postAt
  · exact h.modTile.postOnce

end Lands

end

end Sys2Proof.Machine
end

section
/-! PROOFS. Canonical memory, the words of the gateway, completions and copies. -/

namespace Sys2Proof.Machine

-- Proofs are elaborated one after another, as the tests are: the whole text has to fit the check's memory.
set_option Elab.async false

section
variable {s t : State} {e : Env}

/-! ### The gateway -/

theorem Keeps.of_placeAll {acc : Acc} {l : List (Word × Nat)} (h : Canonical s) : Keeps (fun x => Canonical x.1) (e.placeAll acc l s) := by
  induction l generalizing s with
  | nil => exact h
  | cons x l ih => exact (Keeps.of_placeOf h).bind fun _ h => (ih h).bind fun _ h => h

theorem Canonical.readHomes {l : List (Word × Nat × Nat)} (h : Canonical s) : Canonical (e.readHomes s l) := by
  refine foldl (fun x p h => ?_) h
  split
  · exact h
  · exact h.dropRdcOver.touchL2

theorem Canonical.baddqLoop {x y : Entry} {b : Bool} {l : List (List (Word × Nat × Nat) × List (Word × Nat × Nat))} {n : Nat}
    (h : Canonical s) : Canonical (e.baddqLoop x y b l s n).1 := by
  induction l generalizing s n with
  | nil => exact h
  | cons p l ih => exact ih (foldl (fun _ _ h => h.homeWrite) h.readHomes)

theorem Keeps.of_baddqPlaces {x y : Entry} {l : List Nat} (h : Canonical s) : Keeps (fun x => Canonical x.1) (e.baddqPlaces x y l s) := by
  induction l generalizing s with
  | nil => exact h
  | cons k l ih => exact (Keeps.of_placeAll h).bind fun _ h => (Keeps.of_placeAll h).bind fun _ h => (ih h).bind fun _ h => h

namespace Sound

theorem gwnext (d : Reg) : Sound (opGwnext d) := by
  intro e s h
  unfold opGwnext
  split
  · exact Keeps.fault
  · split
    · exact h.put
    · exact h.modPort.put.acquire

theorem baddq (d a : Reg) (tx ty : Fin 1024) (b : Bool) : Sound (opBaddq d a tx ty b) := by
  intro e s h
  refine Keeps.of_faultIf.bind fun _ _ => (Keeps.of_baddqPlaces h.release).bind fun ⟨s1, l⟩ h1 => ?_
  dsimp only
  split
  · exact Keeps.fault
  · exact (Canonical.put (Canonical.baddqLoop h1)).dropClean

end Sound

/-! ### Turns -/

namespace Canonical

theorem nextTurn (h : Canonical s) : Canonical s.nextTurn.2 := by
  unfold State.nextTurn
  split
  · split
    · exact h.same
    · exact h.same
  · split
    · exact h.same
    · exact h

theorem resumeStop {k : Nat} (h : Canonical s) : Canonical (s.resumeStop k) := by
  unfold State.resumeStop
  split
  · split
    · exact h.modSlot.carryStop
    · exact h
  · exact h

theorem again {k : Nat} (h : Canonical s) : Canonical (s.again k) := by
  unfold State.again
  split
  · split
    · exact h
    · exact h.postSlot
  · exact h

end Canonical

/-! ### Completions -/

/-- A long-latency word's operation. -/
theorem Sound.ll (i : Instr) : Sound (llOp i) := by
  unfold llOp
  split
  · exact Sound.reg _
  · exact Sound.reg _
  · exact Sound.reg _
  · exact Sound.reg _
  · exact Sound.reg _
  · exact Sound.reg _
  · exact Sound.reg _
  · exact Sound.reg _
  · exact Sound.reg _
  · exact Sound.reg _
  · exact Sound.reg _
  · exact Sound.reg _
  · exact Sound.reg _
  · exact Sound.reg _
  · exact Sound.reg _
  · exact Sound.load _ _ _ _ _
  · exact Sound.load _ _ _ _ _
  · exact Sound.loadV _ _ _ _
  · exact Sound.loadV _ _ _ _
  · exact Sound.atomic _ _ _ _ _ _ _
  · exact Sound.atomic _ _ _ _ _ _ _
  · exact Sound.atomic _ _ _ _ _ _ _
  · exact Sound.ctest _ _ _ _ _
  · exact Sound.engine Prepares.mm
  · exact Sound.engine Prepares.mm
  · exact Sound.engine Prepares.topk
  · exact Sound.spcomp _ _ _ _
  · exact Sound.engine Prepares.spmm
  · exact Sound.engine Prepares.attn
  · exact Sound.attmerge _ _ _ _ _
  · exact Sound.kvapp _ _ _ _
  · exact Sound.kvlook _ _ _ _ _ _
  · exact Sound.ttprune _ _ _ _ _
  · exact Sound.engine Prepares.ve
  · exact Sound.engine Prepares.ve
  · exact Sound.engine Prepares.ve
  · exact Sound.engine Prepares.ve
  · exact Sound.engine Prepares.ve
  · exact Sound.engine Prepares.ve
  · exact Sound.baddq _ _ _ _ _
  · exact Sound.nop

namespace Canonical

theorem atFlight {k : Nat} {sl : Slot} {f : Inflight} (h : Canonical s) : Canonical (s.atFlight k sl f) := h.modStrand.setSlot

theorem retire {k : Nat} {sl : Slot} {f : Inflight} {r : Strand} (h : Canonical t) : Canonical (s.retire t k sl f r) := by
  unfold State.retire
  split
  · dsimp only
    split
    · exact h.setStrand.setSlot
    · exact h.setStrand.setSlot.postOnce
  · exact h

theorem keepFlight {k : Nat} {sl : Slot} (h : Canonical t) : Canonical (s.keepFlight t k sl) := by
  unfold State.keepFlight
  split
  · exact h.setStrand.setSlot
  · exact h

theorem dropLater {k : Nat} {f : Inflight} (h : Canonical s) : Canonical (s.dropLater k f) := h.modSlot

theorem flightLost {k : Nat} {sl : Slot} {f : Inflight} (h : Canonical s) : Canonical (s.flightLost k sl f) := by
  unfold State.flightLost
  split
  · exact h.setSlot.postAt
  · split
    · exact h.postAt
    · exact h
  · exact h

theorem completeFlight {k : Nat} {sl : Slot} {f : Inflight} {c : Ctl} (h : Canonical s) : Canonical (s.completeFlight k sl f c) := by
  unfold State.completeFlight
  dsimp only
  split
  · exact h.post
  · split
    · exact h.flightLost
    · split
      · exact h
      · next e _ =>
        have hr : Keeps Canonical (if e.cond || e.lane then llOp f.instr e (s.atFlight k sl f) else .ok (s.atFlight k sl f)) := by
          split
          · exact Sound.ll _ e _ h.atFlight
          · exact h.atFlight
        split
        · next hx =>
          have h1 := hr.ok hx
          split
          · exact h1.retire
          · exact h1
        · exact h.post
        · next hx =>
          have h1 : Canonical _ := hr.error (Q := fun _ : Unit => True) hx
          split
          · exact h1.keepFlight.post
          · split
            · exact h1.dropLater
            · exact h.post
        · next hx =>
          split
          · exact h.rewind.stopped (hr.error hx : Keeps (fun _ : Unit => True) _)
          · exact h.post

theorem complete {k : Nat} {mine : Inflight → Bool} (h : Canonical s) : Canonical (s.complete k mine) := by
  unfold State.complete
  split
  · exact h
  · split
    · exact h
    · split
      · exact h
      · exact h.completeFlight.again

theorem endReply {k : Nat} (h : Canonical s) : Canonical (s.endReply k) := by
  unfold State.endReply
  split
  · exact h
  · split
    · exact h
    · split
      · exact h
      · refine postWhen ?_
        split
        · exact h.setSlot.postOnce
        · exact h.setSlot.again

end Canonical

theorem Lands.memoryReply {k : Nat} (h : Canonical s) : Lands (execMemoryReply k s) := h.endReply.complete

theorem Lands.longLatencyComplete {k : Nat} (h : Canonical s) : Lands (execLongLatencyComplete k s) := h.complete

/-! ### Copies -/

theorem Keeps.of_enqueueCopy {c : CopyCmd} (h : Canonical s) : Keeps Canonical (e.enqueueCopy s c) := by
  refine Keeps.of_checkCtr.bind fun _ _ => ?_
  dsimp only
  split
  · exact trivial
  · exact h.release.writeBackSlot.modTile.postOnce

theorem Keeps.of_controlBlock {a : Word} (h : Canonical s) : Keeps (fun x => Canonical x.1) (e.controlBlock s a) :=
  Keeps.of_faultIf.bind fun _ _ => (Keeps.of_readDwords h).bind fun _ h => h

theorem Keeps.of_checkRun {a : Word} {n : Nat} : Keeps (fun _ => True) (e.checkRun s a n) :=
  Keeps.of_resolve.bind fun _ _ => Keeps.of_resolve.bind fun _ _ => Keeps.of_faultIf

namespace Sound

theorem copy (a : Reg) (sc : Scope) : Sound (opCopy a sc) := by
  intro e s h
  refine (Keeps.of_controlBlock h).bind fun ⟨s1, b⟩ h1 => Keeps.of_faultIf.bind fun _ _ => Keeps.of_faultIf.bind fun _ _ =>
    Keeps.of_faultIf.bind fun _ _ => Keeps.of_faultIf.bind fun _ _ => ?_
  dsimp only
  split
  · exact Keeps.of_checkRun.bind fun _ _ => Keeps.of_checkRun.bind fun _ _ => Keeps.of_enqueueCopy h1
  · exact Keeps.of_enqueueCopy h1

theorem copys (a b c : Reg) (sc : Scope) : Sound (opCopys a b c sc) := fun _ _ h =>
  (Keeps.of_controlBlock h).bind fun ⟨_, _⟩ h => Keeps.of_regId.bind fun _ _ => Keeps.of_regId.bind fun _ _ =>
    Keeps.of_faultIf.bind fun _ _ => Keeps.of_enqueueCopy h

end Sound

theorem Canonical.recordDirty {part ctx : Nat} {w : Word × Bool} (h : Canonical s) : Canonical (s.recordDirty part ctx w) :=
  (Quiet.refl s).recordDirty.canonical h

theorem Keeps.of_copyPlace {c : CopyCmd} {va : Word} {acc : Acc} (h : Canonical s) :
    Keeps (fun x => Canonical x.1) (s.copyPlace c va acc) := by
  unfold State.copyPlace
  split
  · exact Keeps.fault
  · split
    · next hx => exact h.place hx
    · split
      · exact Keeps.fault
      · split
        · exact Keeps.fault
        · split
          · exact trivial
          · dsimp only
            split
            · exact Keeps.pair h.touchLeaf.recordDirty
            · exact Keeps.pair h.touchLeaf
    · next hx => exact (Keeps.of_place h).error hx

theorem Keeps.of_copyRead {c : CopyCmd} {va : Word} {n : Nat} {acc : Acc} (h : Canonical s) :
    Keeps (fun x => Canonical x.1) (s.copyRead c va n acc) := by
  refine (Keeps.of_copyPlace h).bind fun ⟨s1, pa, key⟩ h1 => ?_
  dsimp only
  split
  · split
    · exact Keeps.fault
    · exact Keeps.pair (Canonical.dropRdcOver h1).touchL2
  · split
    · exact h1
    · exact Keeps.fault
    · exact Keeps.fault

theorem Canonical.logTier {w : Writer} {key : List Byte} {va : Word} {pa n : Nat} (h : Canonical s) :
    Canonical (s.logTier w key va pa n).1 := by
  induction n generalizing s with
  | zero => exact h
  | succ n ih =>
    unfold State.logTier
    dsimp only
    split
    · split
      · exact ih h
      · next hx => exact ih (h.undoLogWith hx)
      · exact h
    · exact ih h

theorem Keeps.of_copyWrite {c : CopyCmd} {va : Word} {pa : Nat} {key : Option (List Byte)} {bs : List Byte} (h : Canonical s) :
    Keeps Canonical (s.copyWrite c va pa key bs) := by
  unfold State.copyWrite
  split
  · refine Canonical.foldl (fun x i h => ?_) h
    dsimp only
    split
    · split
      · exact h
      · exact h.homeWrite
    · split
      · exact h
      · exact h.homeWrite
  · dsimp only
    split
    · next hx => exact (h.logTier.fst hx).logFull
    · next hx =>
      split
      · next hy => exact (h.logTier.fst hx).dropRdcOver.tierWrite hy
      · exact Keeps.fault
      · exact Keeps.fault

theorem Keeps.of_moveChunk {c : CopyCmd} {m : ChunkMove} (h : Canonical s) : Keeps Canonical (s.moveChunk c m) := by
  refine (Keeps.of_copyRead h).bind fun ⟨s1, bs⟩ h1 => (Keeps.of_copyPlace h1).bind fun ⟨s2, pa, key⟩ h2 => ?_
  dsimp only
  split
  · exact Keeps.of_copyWrite h2
  · exact (Keeps.of_copyPlace h2).bind fun _ h3 => (Keeps.of_copyWrite h3).bind fun _ h4 => Keeps.of_copyWrite h4

theorem Canonical.modCopies {tile q : Nat} {f : CopyQueue → CopyQueue} (h : Canonical s) : Canonical (s.modCopies tile q f) := h.modTile

theorem Canonical.holdCopy {tile q : Nat} (h : Canonical s) : Canonical (s.holdCopy tile q) := h.modCopies.modTile

theorem Keeps.of_tryChunk {tile q : Nat} {c : CopyCmd} {m : ChunkMove} (h : Canonical s) : Keeps Canonical (s.tryChunk tile q c m) := by
  unfold State.tryChunk
  dsimp only
  split
  · exact Keeps.fault
  · exact h.holdCopy
  · exact (Keeps.of_moveChunk h).map fun _ h => h.modCopies
  · split
    · next hx => exact (Keeps.of_moveChunk h).error hx
    · exact h.holdCopy.modCopies.postAt

namespace Canonical

theorem endReplies {tile : Nat} (h : Canonical s) : Canonical (s.endReplies tile) := h.modTile

theorem popCopy {tile q : Nat} (h : Canonical s) : Canonical (s.popCopy tile q) := by
  unfold State.popCopy
  dsimp only
  split
  · exact h.modCopies.modTile
  · exact h.modCopies

theorem copyTurn {tile : Nat} (h : Canonical s) : Canonical (s.copyTurn tile) := h.postWhen

theorem copyFault {c : CopyCmd} {code : FaultCode} {va : Word} (h : Canonical s) : Canonical (s.copyFault c code va) := h.gridFault

theorem copyHold {c : CopyCmd} {w : Waiter} {va : Word} {f : Nat} {acc : Acc} {m : Bool} (h : Canonical s) :
    Canonical (s.copyHold c w va f acc m) := h.linkFault

theorem copyJoin {c : CopyCmd} {w : Waiter} {va : Word} {f : Nat} {acc : Acc} {en : Word} {big : Bool} {slot : Nat} (h : Canonical s) :
    Canonical (s.copyJoin c w va f acc en big slot) := h.joinPromo

theorem chunkStopped {tile q : Nat} {c : CopyCmd} {x : Stop} {α : Type} {P : α → Prop} (h : Canonical s) (hx : Keeps P (.error x)) :
    Canonical (s.chunkStopped tile q c x) := by
  unfold State.chunkStopped
  split
  · exact h.holdCopy.copyHold
  · exact h.holdCopy.copyJoin
  · dsimp only
    split
    · exact h.countTag.popCopy.copyFault
    · exact h.popCopy.copyFault
  · exact h.popCopy.copyFault
  · exact h
  · exact hx

theorem copyGone {tile : Nat} {c : CopyCmd} (h : Canonical s) : Canonical (s.copyGone tile c) := h.modTile.postOnce

end Canonical

theorem Keeps.of_copyAdd {c : CopyCmd} (h : Canonical s) : Keeps Canonical (s.copyAdd c) := by
  unfold State.copyAdd
  refine Keeps.bind (P := fun _ => True) ?_ fun p _ => Keeps.bind (P := fun x => Canonical x.1) ?_ fun ⟨s1, pa⟩ h1 => ?_
  · split
    · exact Keeps.fault
    · exact trivial
  · split
    · split
      · exact trivial
      · exact Keeps.fault
    · exact Keeps.of_place h
  · dsimp only
    split
    · exact Keeps.fault
    · exact (Canonical.dropRdc h1).addAt

theorem Keeps.of_tryAdd {tile : Nat} {c : CopyCmd} (h : Canonical s) : Keeps Canonical (s.tryAdd tile c) := by
  unfold State.tryAdd
  dsimp only
  split
  · exact Keeps.of_copyAdd h.modTile
  · exact h
  · exact Keeps.fault
  · split
    · next hx => exact (Keeps.of_copyAdd h).error hx
    · exact h.modTile.postAt

namespace Lands

theorem copyChunk {tile : Nat} (h : Canonical s) : Lands (execCopyChunk tile s) := by
  unfold execCopyChunk
  dsimp only
  split
  · exact h.endReplies
  · split
    · exact h.endReplies
    · split
      · exact h.endReplies.setTile.popCopy.modTile.postOnce.copyTurn
      · split
        · next hx =>
          exact (h.endReplies.setTile.chunkStopped ((Keeps.of_tryChunk h.endReplies.setTile).error hx : Keeps (fun _ : Unit => True) _)).copyTurn
        · next hx =>
          have h2 : Canonical _ := (Keeps.of_tryChunk h.endReplies.setTile).ok hx
          refine Canonical.copyTurn ?_
          split
          · exact h2.modCopies.popCopy.modTile.postOnce
          · exact h2.modCopies

theorem copyCompletion {tile : Nat} (h : Canonical s) : Lands (execCopyCompletion tile s) := by
  unfold execCopyCompletion
  split
  · exact h
  · dsimp only
    refine Canonical.postWhen ?_
    split
    · exact h.copyGone
    · have ha := fun c => Keeps.of_tryAdd (tile := tile) (c := c) h
      split
      · next hx => exact Canonical.copyGone ((ha _).ok hx)
      · exact h.modTile.copyHold
      · exact h.modTile.copyJoin
      · exact h.modTile.copyGone.copyFault
      · exact h.copyGone.copyFault
      · next hx => exact (ha _).error (Q := fun _ : Unit => True) hx
      · exact h

end Lands

end

end Sys2Proof.Machine
end

section
/-! PROOFS. Canonical memory, the scheduler and the failures of parts. -/

namespace Sys2Proof.Machine

-- Proofs are elaborated one after another, as the tests are: the whole text has to fit the check's memory.
set_option Elab.async false

/-- The state in which the restoring of a line leaves the machine. -/
abbrev Restored.state : Restored → State
  | .ok s => s
  | .lost s _ => s
  | .held s => s

section
variable {s t : State} {e : Env}

namespace Canonical

/-! ### Headers of tasks -/

theorem modTaskQueue {n v q : Nat} {f : Queue → Queue} (h : Canonical s) : Canonical (s.modTaskQueue n v q f) := h.modPart

theorem newTask {part : Nat} {mk : BitVec 32 → Task} (h : Canonical s) : Canonical (s.newTask part mk).1 := ⟨h.wf⟩

theorem endUnlaunched {part vf ctx q i : Nat} {a : Word} {hd : Header} {c : FaultCode} {v : Word} (h : Canonical s) :
    Canonical (s.endUnlaunched part vf ctx q i a hd c v) := by
  unfold State.endUnlaunched
  dsimp only
  exact h.newTask.postOnce

theorem readTail {i : Instr} {part vf q ctx : Nat} {va : Word} (h : Canonical s) : Canonical (s.readTail i part vf q ctx va).1 := by
  unfold State.readTail
  dsimp only
  split
  · next hr => exact h.ofReach hr
  · next hr =>
    dsimp only
    exact (h.ofReach hr).modTaskQueue
  · next hr =>
    dsimp only
    exact (h.ofReach hr).touchL2.modTaskQueue

theorem headerRead {part vf q ctx slot : Nat} {a : Word} {dp : Nat} {hd : Header} {p : Partition} (h : Canonical s) :
    Canonical (s.headerRead part vf q ctx slot a dp hd p).1 := by
  unfold State.headerRead
  dsimp only
  split
  · exact h.endUnlaunched
  · split
    · exact h.modTaskQueue.postOnce
    · split
      · next hr => exact h.ofReach hr
      · next hr => exact (h.ofReach hr).modTaskQueue.postOnce
      · next hr => exact (h.ofReach hr).touchL2.modTaskQueue.postOnce

end Canonical

theorem Lands.taskHeaderRead {part vf : Nat} {q : Fin 8} (h : Canonical s) : Lands (execTaskHeaderRead part vf q s) := by
  unfold execTaskHeaderRead
  dsimp only
  split
  · exact h
  · split
    · exact h
    · split
      · next hx =>
        have h1 := h.reachAll.fst hx
        split
        · exact h1.assayAt
        · split
          · next hy => exact h1.readTail.fst hy
          · next hy =>
            have h2 := h1.readTail.fst hy
            split
            · exact h2
            · split
              · next hr => exact h2.ofReach hr
              · next hr => exact (h2.ofReach hr).endUnlaunched.putReach.postOnce
              · next hr =>
                have h3 := h2.ofReach hr
                split
                · exact h3.assayAt.endUnlaunched.putReach.postOnce
                · split
                  · next hz => exact (h3.touchL2.headerRead.fst hz).putReach.postOnce
                  · next hz => exact h3.touchL2.headerRead.fst hz
      · next hx => exact h.reachAll.fst hx

namespace Canonical

/-! ### Launches -/

theorem launchRecord {x : Strand} (h : Canonical s) : Canonical (s.launchRecord x) :=
  toReady (writeRecord (setStrand h.same))

theorem dropCode {ctx : Nat} {l : List Nat} (h : Canonical s) : Canonical (s.dropCode ctx l) := foldl (fun _ _ h => h.modTile) h

theorem placeStrands {n : Nat} {ta : Task} {l : List Nat} (h : Canonical s) : Canonical (s.placeStrands n ta l) :=
  postAll (foldl (fun _ _ h => h.launchRecord) h.dropCode)

theorem launchHead {part v j : Nat} {p : Partition} {r : ReadHeader} (h : Canonical s) : Canonical (s.launchHead part p v j r) := by
  unfold State.launchHead
  dsimp only
  split
  · exact h.newTask.modPart.placeStrands
  · exact h.newTask.modPart

theorem endPause {part v : Nat} {p : Partition} {blk : Word} (h : Canonical s) : Canonical (s.endPause part p v blk) := by
  unfold State.endPause
  dsimp only
  split
  · next hr => exact h.ofReach hr
  · next hr => exact (h.ofReach hr).modPart.migrationDone
  · next hr =>
    have h1 := h.ofReach hr
    split
    · exact h1.modPart.migrationDone
    · split
      · next hx => exact h1.reachAll.fst hx
      · next hx => exact (foldl (fun _ _ h => h.putReach) (h1.reachAll.fst hx)).modPart.migrationDone

theorem pauseTurns {part : Nat} {p : Partition} (h : Canonical s) : Canonical (s.pauseTurns part p) := by
  refine foldl (fun x ⟨v, f⟩ h => ?_) h
  dsimp only
  split
  · split
    · exact h.postAt
    · exact h.modPart.endPause
  · exact h.endPause
  · exact h

end Canonical

theorem Lands.taskLaunch {part : Nat} (h : Canonical s) : Lands (execTaskLaunch part s) := by
  have hp : Canonical (match tget s.parts part with
      | some p => s.pauseTurns part p
      | none => s) := by
    split
    · exact h.pauseTurns
    · exact h
  unfold execTaskLaunch
  dsimp only
  split
  · exact hp
  · split
    · exact hp
    · split
      · exact hp
      · split
        · exact hp
        · exact hp.launchHead.postOnce

theorem Lands.aging {u : Nat} (h : Canonical s) : Lands (execAging u s) := by
  unfold execAging
  split
  · exact h
  · dsimp only
    split
    · exact h
    · split
      · exact h.postAt.modStrand
      · dsimp only [Lands]
        split
        · exact h.postAt.raisePrio.modStrand.postOnce.postOnce
        · split
          · exact h.postAt.raisePrio.modStrand
          · exact h.postAt.raisePrio.modStrand.serveField

/-! ### Pre-emption -/

namespace Canonical

theorem stopIssue {k : Nat} (h : Canonical s) : Canonical (s.stopIssue k) := by
  unfold State.stopIssue
  split
  · split
    · exact h
    · refine haltPreempted ?_
      split
      · exact h.setSlot
      · exact h.setSlot.discard
  · exact h

theorem preemptSlot {k : Nat} (h : Canonical s) : Canonical (s.preemptSlot k) := by
  unfold State.preemptSlot
  split
  · split
    · exact h
    · exact h.stopIssue.postOnce
  · exact h

theorem preemptStrand {u : Nat} (h : Canonical s) : Canonical (s.preemptStrand u) := by
  have hl : ∀ l : List Nat, Canonical (l.foldl (fun x v =>
      match x.slotOf v with
      | some k => x.preemptSlot k
      | none => x) s) := by
    intro l
    refine foldl (fun x v h => ?_) h
    split
    · exact h.preemptSlot
    · exact h
  unfold State.preemptStrand
  dsimp only
  split
  · exact same (hl _)
  · exact hl _

end Canonical

namespace Lands

theorem priorityPreemption {tile : Nat} (h : Canonical s) : Lands (execPriorityPreemption tile s) := by
  unfold execPriorityPreemption
  split
  · exact h
  · split
    · split
      · exact h.preemptStrand.postOnce
      · exact h
    · exact h

theorem timeSlicePreemption {tile : Nat} (h : Canonical s) : Lands (execTimeSlicePreemption tile s) := by
  unfold execTimeSlicePreemption
  dsimp only
  split
  · exact h
  · split
    · exact h
    · split
      · exact h.preemptStrand.postOnce
      · split
        · dsimp only [Lands]
          split
          · exact h
          · exact h.postAt
        · exact h

theorem preemption {k : Nat} (h : Canonical s) : Lands (execPreemption k s) := by
  unfold execPreemption
  split
  · exact h
  · extract_lets halted atEngine
    split
    · exact h
    · split
      case h_3 => exact h
      all_goals
        split
        · exact h.postAt
        · split
          · exact h.postOnce
          · exact h.discard.suspend

end Lands

/-! ### The end of tasks -/

namespace Canonical

theorem dropRecord {x : Strand} (h : Canonical s) : Canonical (s.dropRecord x) := by
  have hr : ∀ w : Word, Canonical (if bits w 3 0 = 0 then s else s.freeArena x.part (rrec w) resumeBytes) := by
    intro w
    split
    · exact h
    · exact h.freeArena
  exact hr _

theorem stopSlot {u : Nat} {p : Place} (h : Canonical s) : Canonical (s.stopSlot u p) := by
  cases p
  case slot k => exact h.discard.release.leaveStream.dropEntry.vacate
  all_goals exact h

theorem freeUnless {c : Prop} [Decidable c] {part n : Nat} {a : Word} (h : Canonical s) :
    Canonical (if c then s else s.freeArena part a n) := by
  split
  · exact h
  · exact h.freeArena

theorem emptyFlight {p : Place} (h : Canonical s) : Canonical (match p with
    | .slot k => s.modSlot k fun sl => { sl with flight := [], windows := [] }
    | _ => s) := by
  split
  · exact h.modSlot
  · exact h

theorem stopStrand {u : Nat} (h : Canonical s) : Canonical (s.stopStrand u) := by
  have hd : ∀ (c : Bool) (k : Nat) (x : State), Canonical x → Canonical (if c then x.dropClean k else x) := by
    intro c k x hx
    split
    · exact hx.dropClean
    · exact hx
  unfold State.stopStrand
  split
  · exact h
  · exact (freeUnless (freeUnless (hd _ _ _ h.emptyFlight).dropWaits.relist.dropGroups.dropRecord.stopSlot.offReady.modTile)).modPart.strandGone.movePending.postOnce

theorem dropCopies {task : Nat} (h : Canonical s) : Canonical (s.dropCopies task) := foldl (fun _ _ h => h.copyTurn) h.same

theorem dropScrubs {task : Nat} (h : Canonical s) : Canonical (s.dropScrubs task) := postAll h.same

theorem reportPlaces {i : Instr} {p : Partition} {ta : Task} (h : Canonical s) : Canonical (s.reportPlaces i p ta).1 := by
  unfold State.reportPlaces
  split
  · exact h
  · split
    · next hr => exact h.ofReach hr
    · next hr => exact h.ofReach hr
    · next hr => exact h.ofReach hr

theorem taskGone {n : Nat} {ta : Task} (h : Canonical s) : Canonical (s.taskGone n ta) := by
  have hq : ∀ (c : Prop) [Decidable c] (f : Queue → Queue), Canonical (if c then ({ s with tasks := tdel s.tasks n } : State)
      else ({ s with tasks := tdel s.tasks n } : State).modTaskQueue ta.part ta.vf ta.queue f) := by
    intro c _ f
    split
    · exact h.same
    · exact modTaskQueue h.same
  exact postWhen (postOnce (hq _ _))

theorem sendAdd {a : Adding} (h : Canonical s) : Canonical (s.sendAdd a) := h.modField.postOnce

end Canonical

namespace Lands

theorem gridStop {n : Nat} (h : Canonical s) : Lands (execGridStop n s) := by
  unfold execGridStop
  split
  · exact h
  · extract_lets halted ks s1
    have h1 : Canonical s1 := Canonical.foldl (fun _ _ h => h.stopIssue) h
    split
    · exact h
    · split
      · dsimp only [Lands]
        split
        · exact h1.postAt
        · exact h1.postOnce
      · exact (Canonical.foldl (fun _ _ h => h.stopStrand) h1).dropCopies.dropScrubs.modTask.postOnce

theorem taskCompletion {n : Nat} (h : Canonical s) : Lands (execTaskCompletion n s) := by
  unfold execTaskCompletion
  split
  · exact h
  · split
    · exact h.same
    · split
      · exact h
      · split
        · exact h.postOnce
        · split
          · exact h.postOnce
          · dsimp only
            split
            · next hx => exact h.reportPlaces.fst hx
            · next hx =>
              have h1 := h.reportPlaces.fst hx
              split
              · next hy => exact h1.reachAll.fst hy
              · next hy =>
                have h2 := h1.reachAll.fst hy
                split
                · next hz => exact h2.reachAll.fst hz
                · next hz =>
                  have h3 := h2.reachAll.fst hz
                  refine Canonical.taskGone ?_
                  split
                  · refine Canonical.sendAdd ?_
                    split
                    · exact h3.putReach.putReach
                    · exact h3.putReach
                  · split
                    · exact h3.putReach.putReach
                    · exact h3.putReach

end Lands

/-! ### Rollback -/

namespace Canonical

theorem restoreTier {p : Partition} {part ctx pa : Nat} {va : Word} {bs : List Byte} (h : Canonical s) :
    Canonical (s.restoreTier p part ctx pa va bs).state := by
  unfold State.restoreTier
  split
  · exact h
  · split
    · next ht => exact h.tierWrite ht
    · exact h.countTag
    · exact h

theorem putMarks {pa : Nat} {l : List Nat} (h : Canonical s) : Canonical (l.foldl (fun y m => y.setPoison (pa + 4 * m)) s) :=
  foldl (fun _ _ h => h.setPoison) h

theorem restoreLine {i : Instr} {part ctx : Nat} {va : Word} {bs : List Byte} {l : List Nat} {p : Partition} (h : Canonical s) :
    Canonical (s.restoreLine i part ctx va bs l p).state := by
  unfold State.restoreLine
  dsimp only
  split
  · next hx => exact (h.place hx).touchL2.slicePut.putMarks
  · split
    · next hx =>
      have h1 : Canonical _ := (congrArg Restored.state hx ▸ h.restoreTier :)
      split
      · exact h1.touchLeaf.recordDirty
      · exact h1.touchLeaf
    · exact h.restoreTier
  · split
    · next hr => exact h.ofReach hr
    · exact h
  · exact h

theorem restoreAt {n : Nat} {ta : Task} {p : Partition} {v : Word} {l : List Nat} (h : Canonical s) :
    Canonical (s.restoreAt n ta p v l).state := by
  unfold State.restoreAt
  split
  · exact h
  · exact h.restoreLine

theorem restoreAll {k n : Nat} {ta : Task} {p : Partition} (h : Canonical s) : Canonical (s.restoreAll k ta p n).state := by
  induction n generalizing s with
  | zero => exact h
  | succ n ih =>
    unfold State.restoreAll
    dsimp only
    split
    · next hx => exact h.reachAll.fst hx
    · next hx =>
      have h1 := h.reachAll.fst hx
      split
      · exact h1
      · split
        · next hy => exact ih (modTask (congrArg Restored.state hy ▸ h1.restoreAt :))
        · exact h1.restoreAt

end Canonical

theorem Lands.rollback {n : Nat} (h : Canonical s) : Lands (execRollback n s) := by
  unfold execRollback
  split
  · exact h
  · split
    · exact h
    · split
      · exact h
      · split
        · next hx => exact (congrArg Restored.state hx ▸ h.restoreAll :)
        · next hx => exact Canonical.postOnce (Canonical.setTask (congrArg Restored.state hx ▸ h.restoreAll :))
        · next hx =>
          have h1 : Canonical _ := (congrArg Restored.state hx ▸ h.restoreAll :)
          dsimp only
          split
          · exact h1.postAt
          · exact h1.setTask.placeStrands

end

end Sys2Proof.Machine
end

section
/-! PROOFS. Canonical memory, the failures of parts and the tests of rows. -/

namespace Sys2Proof.Machine

-- Proofs are elaborated one after another, as the tests are: the whole text has to fit the check's memory.
set_option Elab.async false

section
variable {s t : State} {e : Env}

namespace Canonical

/-! ### Retirement -/

theorem islandFault {n : Nat} {i : BitVec 32} {v : Word} (h : Canonical s) : Canonical (s.islandFault n i v) := by
  unfold State.islandFault
  split
  · exact h
  · exact h.noteFault

theorem afterRetirement {f : Nat} (h : Canonical s) : Canonical (s.afterRetirement f) := h.postAt.postOnce

theorem retireTile {tile : Nat} (h : Canonical s) : Canonical (s.retireTile tile) :=
  afterRetirement (retireTokens (foldl (fun _ _ h => h.islandFault) h.modTile))

theorem retireCore {c : Nat} (h : Canonical s) : Canonical (s.retireCore c) := by
  have hp : ∀ (l : List Nat) (x : State), Canonical x → Canonical (l.foldl (fun x k =>
      match tget x.slots k with
      | some sl => x.preemptStrand sl.uid
      | none => x) x) := by
    intro l x hx
    refine foldl (fun x k h => ?_) hx
    split
    · exact h.preemptStrand
    · exact h
  unfold State.retireCore
  extract_lets s1 s2 s3 tile
  have h3 : Canonical s3 := postUnless (hp _ _ h.modCore)
  split
  · exact h3.afterRetirement
  · exact h3.retireTile

theorem endFieldLoans {f : Nat} (h : Canonical s) : Canonical (s.endFieldLoans f) := by
  refine foldl (fun x l h => ?_) h.same
  split
  · exact h.modField.modField.untop
  · exact h.modField.modField

theorem retireField {f : Nat} (h : Canonical s) : Canonical (s.retireField f) := by
  have ht : ∀ (l : List Nat) (x : State), Canonical x → Canonical (l.foldl (fun x t => if (x.tile t).good then x.retireTile t else x) x) := by
    intro l x hx
    refine foldl (fun x k h => ?_) hx
    split
    · exact h.retireTile
    · exact h
  unfold State.retireField
  extract_lets s1 s2
  have h2 : Canonical s2 := ht _ _ h.endFieldLoans.modField
  split
  · exact h2
  · exact postWhen (modPart (foldl (fun _ _ h => h.islandFault) h2))

/-! ### Buckets and tests -/

theorem modBucket {n : Nat} {w : Bool} {f : Bucket → Bucket} (h : Canonical s) : Canonical (s.modBucket n w f) := by
  unfold State.modBucket
  split
  · exact h.modTile
  · exact h.modCore

theorem decayFrom {o n : Nat} {w : Bool} (h : Canonical s) : Canonical (s.decayFrom o n w) := by
  unfold State.decayFrom
  split
  · exact h.postAt
  · exact h

theorem testWhole {n : Nat} {w : Bool} (h : Canonical s) : Canonical (s.testWhole n w) := h.postWhen

theorem startAssay {p : AssayPart} {d : Nat} (h : Canonical s) : Canonical (s.startAssay p d) := by
  unfold State.startAssay
  extract_lets s1 s2
  have h1 : Canonical s1 := by
    unfold s1
    split
    · exact h.modBucket
    · exact h
  have h2 : Canonical s2 := by
    unfold s2
    split
    · exact h1.modCore
    · exact h1
  exact postAt h2.same

theorem retireRow {pa : Nat} (h : Canonical s) : Canonical (s.retireRow pa) := by
  unfold State.retireRow
  dsimp only
  split
  · exact h.same
  · exact h.same

theorem testOver {p : AssayPart} (h : Canonical s) : Canonical (s.testOver p) := by
  unfold State.testOver
  split
  · exact h.modCore.postOnce
  · exact h

theorem retireWay {f sl n : Nat} (h : Canonical s) : Canonical (s.retireWay f sl n) := by
  unfold State.retireWay
  dsimp only
  split
  · exact h.setField
  · exact h.setField

theorem retireCoreIf {b : Prop} [Decidable b] {c : Nat} (h : Canonical s) : Canonical (if b then s.retireCore c else s) := by
  split
  · exact h.retireCore
  · exact h

theorem retireTileIf {b : Prop} [Decidable b] {c : Nat} (h : Canonical s) : Canonical (if b then s.retireTile c else s) := by
  split
  · exact h.retireTile
  · exact h

end Canonical

namespace Lands

theorem islandRetirement {f : Nat} (h : Canonical s) : Lands (execIslandRetirement f s) := by
  unfold execIslandRetirement
  dsimp only
  split
  · exact h
  · split
    · exact h.retireField
    · exact Canonical.foldl (fun _ _ h => h.retireTile) h

theorem detourRoute (h : Canonical s) : Lands (execDetourRoute s) := h

theorem bucketDecay {c : Nat} {w : Bool} (h : Canonical s) : Lands (execBucketDecay c w s) := by
  unfold execBucketDecay
  dsimp only
  split
  · exact h
  · dsimp only [Lands]
    split
    · exact h.modBucket
    · exact h.modBucket.postAt

theorem assay {p : AssayPart} (h : Canonical s) : Lands (execAssay p s) := h.startAssay

theorem wholeCoreAssay {c : Nat} {w : Bool} (h : Canonical s) : Lands (execWholeCoreAssay c w s) := by
  unfold execWholeCoreAssay
  extract_lets free
  split
  · exact h.startAssay
  · exact h

theorem assayEnd {p : AssayPart} {b : Bool} (h : Canonical s) : Lands (execAssayEnd p b s) := by
  unfold execAssayEnd
  dsimp only
  split
  · cases p
    case coreBank => exact h.testOver.modBucket.decayFrom.testWhole
    case tileBank => exact h.testOver.modBucket.decayFrom.testWhole
    case wholeCore => exact h.testOver.modBucket.decayFrom.postOnce
    case wholeTile => exact h.testOver.modBucket.decayFrom.postOnce.launchTurn
    all_goals exact h.testOver
  · cases p
    case coreBank => exact h.testOver.retireCoreIf
    case tileBank => exact h.testOver.retireTileIf
    case wholeCore => exact h.testOver.retireCoreIf
    case wholeTile => exact h.testOver.retireTileIf
    case dramRow => exact h.testOver.retireRow
    case sliceRow => exact h.testOver.retireWay
    case rdcRow => exact h.testOver.modField

theorem occupancySnapshot {f : Nat} (h : Canonical s) : Lands (execOccupancySnapshot f s) := by
  unfold execOccupancySnapshot
  split
  · exact h
  · dsimp only
    split
    · exact trivial
    · exact h.putPins.postAt

end Lands

end

end Sys2Proof.Machine
end

section
/-! PROOFS. Canonical memory, management and the vector side. -/

namespace Sys2Proof.Machine

-- Proofs are elaborated one after another, as the tests are: the whole text has to fit the check's memory.
set_option Elab.async false

section
variable {s t : State} {e : Env}

namespace Canonical

/-! ### Power and partitions -/

theorem powerless (h : Canonical s) : Canonical s.powerless := ⟨State.powerless_wf h.wf⟩

theorem dropTile {n : Nat} (h : Canonical s) : Canonical (s.dropTile n) := by
  unfold State.dropTile
  dsimp only
  split
  · exact h.modTile
  · exact modField (foldl (fun _ _ h => h.modTile) h.modTile)

theorem applyFuses (h : Canonical s) : Canonical s.applyFuses := foldl (fun _ _ h => h.dropTile) (foldl (fun _ _ h => h.modCore) h)

theorem afterBoot {l : List Nat} (h : Canonical s) : Canonical (s.afterBoot l) := foldl (fun _ _ h => h.afterRetirement) h

theorem emptyL1 {l : List Nat} (h : Canonical s) :
    Canonical (l.foldl (fun x c => if (x.core c).l1.isEmpty then x else x.modCore c fun y => { y with l1 := [] }) s) := by
  refine foldl (fun x c h => ?_) h
  split
  · exact h
  · exact h.modCore

theorem cleanField {p : Partition} {f : Nat} (h : Canonical s) : Canonical (s.cleanField p f) := by
  have h1 : ∀ l : List Nat, Canonical (l.foldl (fun x t => x.modTile t fun y => { y with trees := [], icache := [] })
      (s.zeroRange (padKey (f * 16) 0) (2 ^ 27))) := fun _ => foldl (fun _ _ h => h.modTile) h.zeroRange
  unfold State.cleanField
  dsimp only
  split
  · exact (h1 _).emptyL1.modField.zeroRange
  · exact (h1 _).emptyL1.modField

theorem cleanFields {p : Partition} (h : Canonical s) : Canonical (s.cleanFields p) := foldl (fun _ _ h => h.cleanField) h

theorem takeRings {part : Nat} {l : List Nat} (h : Canonical s) (ht : s.takeRings part l = some t) : Canonical t := by
  induction l generalizing s with
  | nil =>
    cases ht
    exact h
  | cons x l ih =>
    unfold State.takeRings at ht
    split at ht
    · cases ht
    · next ha => exact ih (modTile (h.allocArena ha)) ht

theorem returnRings {part : Nat} {p : Partition} (h : Canonical s) : Canonical (s.returnRings part p) := by
  refine foldl (fun x t h => ?_) h
  dsimp only
  split
  · exact h
  · exact h.freeArena.modTile

theorem firstTails {n : Nat} {p : Partition} (h : Canonical s) : Canonical (s.firstTails n p) := by
  refine foldl (fun x v h => foldl (fun y q h => ?_) h.modPart) h
  split
  · exact h.modTaskQueue.postOnce
  · exact h

theorem endPartition {part : Nat} {p : Partition} (h : Canonical s) : Canonical (s.endPartition part p) := h.cleanFields.returnRings.same

/-! ### Pools -/

theorem raisePool {f n : Nat} (h : Canonical s) : Canonical (s.raisePool f n) := h.modField.serveField

theorem recallField {l : List Nat} {n : Nat} (h : Canonical s) : Canonical (s.recallField l n) := by
  induction l generalizing s n with
  | nil => exact h
  | cons x l ih => exact ih h.recallLoans

theorem lowerPool {f n : Nat} (h : Canonical s) : Canonical (s.lowerPool f n) :=
  h.modField.toReserve.reclaimAll.revokeField.recallField.serveField

theorem endRaised {l : List Nat} {n : Nat} (h : Canonical s) : Canonical (s.endRaised l n) := by
  induction l generalizing s n with
  | nil => exact h
  | cons f l ih =>
    unfold State.endRaised
    dsimp only
    split
    · exact ih h
    · exact ih h.lowerPool

theorem putAllow {part a : Nat} (h : Canonical s) : Canonical (s.putAllow part a) := by
  unfold State.putAllow
  split
  · exact h.slicePut
  · exact h

theorem setAllow {a : Option (Nat × Nat)} (h : Canonical s) : Canonical (s.setAllow a) := by
  unfold State.setAllow
  split
  · dsimp only
    split
    · exact h.putAllow
    · exact h.putAllow.reclaimAll.endRaised.serveFields
  · exact h

theorem lowerTo {a : Option (Nat × Nat)} (h : Canonical s) : Canonical (s.lowerTo a) := by
  unfold State.lowerTo
  split
  · split
    · exact h
    · exact h.lowerPool
  · exact h

theorem raiseTo {a : Option (Nat × Nat)} (h : Canonical s) : Canonical (s.raiseTo a) := by
  unfold State.raiseTo
  split
  · split
    · exact h.raisePool
    · exact h
  · exact h

theorem resumeTurns {n : Nat} {p : Partition} (h : Canonical s) : Canonical (s.resumeTurns n p) :=
  postOnce (postAll (postAll (postAll (postAll (foldl (fun _ _ h => h.again.postOnce) h)))))

theorem endHalt {n : Nat} (h : Canonical s) : Canonical (s.endHalt n) := by
  unfold State.endHalt
  split
  · exact h
  · split
    · exact h.setPart.resumeTurns
    · exact h

end Canonical

namespace Lands

/-! ### Commands -/

theorem powerGood {l : List LinkReport} {f : List Nat} (h : Canonical s) : Lands (execPowerGood l f s) := by
  have hd := Canonical.foldl (f := State.dropTile) (l := f) (fun _ _ h => h.dropTile) h.powerless.applyFuses
  unfold execPowerGood
  dsimp only
  split
  · exact h.powerless.same
  · exact Canonical.afterBoot (Canonical.postAt hd.same)

theorem thermalWarning (h : Canonical s) : Lands (execThermalWarning s) := by
  dsimp only [execThermalWarning, Lands]
  split
  · exact h
  · exact h.same

theorem thermalShutdown (h : Canonical s) : Lands (execThermalShutdown s) := h.powerless

theorem answer {r : Reply} (h : Canonical s) : Lands (answer s r) := h.same

theorem doLoadfw {i : FwImage} (h : Canonical s) : Lands (doLoadfw i s) := by
  unfold Machine.doLoadfw
  split
  · exact answer h.same
  · exact answer h

theorem doAttest {n : List Byte} (h : Canonical s) : Lands (doAttest n s) := by
  unfold Machine.doAttest
  split
  · exact answer h
  · exact answer h

theorem doSetrth {n v : Nat} (h : Canonical s) : Lands (doSetrth n v s) := by
  unfold Machine.doSetrth
  split
  · exact answer h.same
  · exact answer h

theorem doLoadkey {n : Nat} {k : BitVec 256} (h : Canonical s) : Lands (doLoadkey n k s) := by
  unfold Machine.doLoadkey
  split
  · exact answer h.same
  · exact answer h

theorem doActivate {a : Word} (h : Canonical s) : Lands (doActivate a s) := by
  unfold Machine.doActivate
  split
  · exact answer h
  · dsimp only
    split
    · exact trivial
    · split
      · exact answer h
      · next ht => exact answer (Canonical.foldl (fun _ _ h => h.postAt) (h.setPart.takeRings ht).cleanFields.firstTails)

theorem doDeactivate {n : Nat} (h : Canonical s) : Lands (doDeactivate n s) := by
  have h1 : Canonical ({ (s.modPart n fun p => { p with closing := true }) with command := some (.deactivate n) } : State) := h.same
  unfold Machine.doDeactivate
  split
  · exact answer h
  · exact h1.postUnless

theorem doSetpool {p a : Option (Nat × Nat)} (h : Canonical s) : Lands (doSetpool p a s) := by
  unfold Machine.doSetpool
  extract_lets missing
  split
  · exact answer h
  · split
    · exact answer h.setAllow.raiseTo
    · exact Canonical.postOnce (Canonical.same h.setAllow.lowerTo)

theorem doHalt {n : Option Nat} (h : Canonical s) : Lands (doHalt n s) := by
  unfold Machine.doHalt
  split
  · exact answer h
  · exact answer (Canonical.foldl (fun _ _ h => h.startHalt) h)

theorem doResume {n : Option Nat} (h : Canonical s) : Lands (doResume n s) := by
  unfold Machine.doResume
  split
  · exact answer h
  · exact answer (Canonical.foldl (fun _ _ h => h.endHalt) h)

theorem perform {c : Command} (h : Canonical s) : Lands (perform c s) := by
  cases c with
  | readfuse => exact answer h
  | loadfw => exact doLoadfw h
  | attest => exact doAttest h
  | setrth => exact doSetrth h
  | loadkey => exact doLoadkey h
  | activate => exact doActivate h
  | deactivate => exact doDeactivate h
  | setpool => exact doSetpool h
  | links => exact answer h
  | halt => exact doHalt h
  | resume => exact doResume h
  | readbkt => exact answer h

theorem arrive {c : Command} (h : Canonical s) : Lands (arrive c s) := by
  unfold Machine.arrive
  split
  · exact h
  · split
    · exact h.same
    · split
      · exact answer h
      · exact perform h

theorem performAll {l : List Command} (h : Canonical s) : Lands (performAll l s) := by
  induction l generalizing s with
  | nil => exact h
  | cons c l ih =>
    have hc := perform (c := c) h
    unfold Machine.performAll
    split
    · next hx =>
      rw [hx] at hc
      split
      · exact Canonical.same hc
      · exact ih hc
    · exact trivial
    · exact trivial

theorem completed (h : Canonical s) : Lands (completed s) := performAll h.same

theorem deactivate {n : Nat} (h : Canonical s) : Lands (execDeactivate n s) := by
  unfold execDeactivate
  split
  · exact arrive h
  · split
    · dsimp only
      split
      · exact completed h.endPartition
      · exact h.endPartition
    · exact arrive h

theorem setpool {f : Nat} {n : Option Nat} {a : Option (Nat × Nat)} (h : Canonical s) : Lands (execSetpool f n a s) := by
  unfold execSetpool
  dsimp only
  split
  · split
    · exact h.postAt
    · split
      · exact h.setAllow.postAt
      · split
        · exact h.lowerTo.postAt
        · exact completed h.raiseTo
  · exact arrive h

end Lands

/-! ### The vector side -/

namespace Canonical

theorem droopTimers {c : Nat} (h : Canonical s) : Canonical (s.droopTimers c) := h.postAt.postAt

theorem askLease {core cls c : Nat} (h : Canonical s) : Canonical (s.askLease core cls c) := by
  unfold State.askLease
  extract_lets x again
  split
  · exact h
  · exact h.setCore.postOnce

theorem takePreds {c : Nat} (h : Canonical s) : Canonical (s.takePreds c) := foldl (fun _ _ h => h.modSlot) h

theorem openDivision {k : Nat} {sl : Slot} {f : FwdEntry} (h : Canonical s) : Canonical (s.openDivision k sl f) := by
  unfold State.openDivision
  dsimp only
  split
  · exact h
  · exact h.modSlot.post

theorem startEntry {k c : Nat} {x : Core} {sl : Slot} {f : FwdEntry} {l : List FwdEntry} (h : Canonical s) :
    Canonical (s.startEntry k c x sl f l) := by
  have ha : ∀ (b : Bool) (core cls c : Nat) (y : State), Canonical y → Canonical (if b then y else y.askLease core cls c) := by
    intro b core cls c y hy
    split
    · exact hy
    · exact hy.askLease
  have hd : ∀ (b : Bool) (core : Nat) (y : State), Canonical y → Canonical (if b then y.droopTimers core else y) := by
    intro b core y hy
    split
    · exact hy.droopTimers
    · exact hy
  exact postOnce (postAt (takeNotices (ha _ _ _ _ _ (postWhen (openDivision (setSlot (hd _ _ _ h.setCore)))))))

end Canonical

namespace Lands

theorem senseEvent {c : Nat} (h : Canonical s) : Lands (execSenseEvent c s) := by
  unfold execSenseEvent
  split
  · exact h
  · exact h.modCore.droopTimers.senseAtBroker

theorem droopWindowExpiry {c : Nat} (h : Canonical s) : Lands (execDroopWindowExpiry c s) := h.modCore

theorem revocationNotice {tile : Nat} (h : Canonical s) : Lands (execRevocationNotice tile s) := h.takeNotices.postUnless

theorem vectorSideStart {c : Nat} (h : Canonical s) : Lands (execVectorSideStart c s) := by
  unfold execVectorSideStart
  split
  · exact h
  · dsimp only
    split
    · exact h.takePreds.postWhen
    · exact h.takePreds.startEntry

theorem vectorResultReturn {k : Nat} (h : Canonical s) : Lands (execVectorResultReturn k s) := by
  unfold execVectorResultReturn
  split
  · exact h
  · split
    · exact h
    · split
      · exact h.postOnce
      · exact h.setSlot.postUnless

end Lands

end

end Sys2Proof.Machine
end

section
/-! PROOFS. Canonical memory, the ports: sessions, packets, and the migration of virtual functions. -/

namespace Sys2Proof.Machine

-- Proofs are elaborated one after another, as the tests are: the whole text has to fit the check's memory.
set_option Elab.async false

/-- The state in which performing a packet leaves the machine. -/
abbrev Performed.state : Performed → State
  | .ack s _ => s
  | .rsp s _ => s
  | .held s => s
  | .again s => s

section
variable {s t : State} {e : Env}

namespace Canonical

theorem ofReached {i : Instr} {user : Bool} {part ctx : Nat} {l : List (Word × Acc)} {r : Reached} (h : Canonical s)
    (hr : s.reachEach i user part ctx l = r) : Canonical r.state := hr ▸ h.reachEach

theorem flashRdc {f : Nat} (h : Canonical s) : Canonical (s.flashRdc f) := h.modField

/-! ### Sessions -/

theorem emit {n : Nat} {pk : Packet} (h : Canonical s) : Canonical (s.emit n pk) := h.modPort

theorem setSession {n ses : Nat} {x : Session} (h : Canonical s) : Canonical (s.setSession n ses x) := h.modPort

theorem armTimeout {n ses : Nat} {x : Session} (h : Canonical s) : Canonical (s.armTimeout n ses x) := h.setSession.postAt

theorem sendWaiting {n ses : Nat} {x : Session} {l : List Packet} (h : Canonical s) : Canonical (s.sendWaiting n ses x l) := by
  induction l generalizing s x with
  | nil => exact h.setSession
  | cons pk l ih =>
    unfold State.sendWaiting
    split
    · exact h.setSession
    · dsimp only
      split
      · exact ih h.armTimeout.emit
      · exact ih h.emit

theorem sendNumbered {n ses k : Nat} {a b : Word} {bs : List Byte} (h : Canonical s) : Canonical (s.sendNumbered n ses k a b bs) := by
  unfold State.sendNumbered
  split
  · exact h
  · exact h.sendWaiting

theorem egressDone {n r : Nat} (h : Canonical s) : Canonical (s.egressDone n r) := by
  unfold State.egressDone
  split
  · exact h
  · exact h.modPort.postOnce

theorem checkEgress {n ses : Nat} (h : Canonical s) : Canonical (s.checkEgress n ses) := by
  unfold State.checkEgress
  split
  · split
    · exact h.egressDone
    · exact h
  · exact h

theorem advance {n ses : Nat} {a : BitVec 32} (h : Canonical s) : Canonical (s.advance n ses a) := by
  have hs : ∀ (c : Bool) (x : Session), Canonical (if c then s.setSession n ses x else s.armTimeout n ses x) := by
    intro c x
    split
    · exact h.setSession
    · exact h.armTimeout
  unfold State.advance
  split
  · exact h
  · dsimp only
    split
    · exact h
    · split
      · exact hs _ _
      · exact (hs _ _).sendWaiting.checkEgress

theorem closeSession {n ses r : Nat} (h : Canonical s) : Canonical (s.closeSession n ses r) := by
  unfold State.closeSession
  dsimp only
  split
  · split
    · exact h.egressDone.modPort
    · exact h.modPort
  · exact h.modPort

/-! ### Accesses of a port -/

theorem putPieces {w : Writer} {bs : List Byte} {l : List ((Word × Nat × Nat) × Nat)} (h : Canonical s) : Canonical (s.putPieces w bs l) :=
  foldl (fun _ _ h => h.homeWrite) h

theorem assayIn {l : List (Nat × Nat)} (h : Canonical s) : Canonical (s.assayIn l) := foldl (fun _ _ h => h.assayAt) h

theorem portAdd {n ctx : Nat} {va : Word} {pa : Nat} {d : Word} (h : Canonical s) : Canonical (s.portAdd n ctx va pa d) := h.dropRdc.addAt

theorem portWrite {n ses : Nat} {b : Behalf} {va : Word} {bs : List Byte} {k : State → Performed}
    (hk : ∀ x, Canonical x → Canonical (k x).state) (h : Canonical s) : Canonical (s.portWrite n ses b va bs k).state := by
  unfold State.portWrite
  dsimp only
  split
  · next hr => exact h.ofReached hr
  · next hr => exact h.ofReached hr
  · next hr => exact hk _ (h.ofReached hr).putPieces

end Canonical

/-! ### Packets -/

/-- What a packet does keeps memory canonical. -/
def Serves (f : State → Performed) : Prop := ∀ s, Canonical s → Canonical (f s).state

namespace Serves

section
variable {n ses : Nat} {b : Behalf} {pk : Packet}

theorem write : Serves (doWrite n ses b pk) := by
  intro s h
  unfold doWrite
  split
  · exact h
  · exact h.portWrite fun _ h => h

theorem read : Serves (doRead n ses b pk) := by
  intro s h
  unfold doRead
  dsimp only
  split
  · exact h
  · split
    · next hr => exact h.ofReached hr
    · next hr => exact h.ofReached hr
    · next hr =>
      split
      · exact (h.ofReached hr).assayIn
      · exact Canonical.foldl (fun _ _ h => h.touchL2) (h.ofReached hr)

theorem atomic : Serves (doAtomic n ses b pk) := by
  intro s h
  unfold doAtomic
  extract_lets sz nb m
  split
  · exact h
  · split
    · next hr => exact h.ofReach hr
    · next hr => exact h.ofReach hr
    · next hr =>
      have h1 := h.ofReach hr
      split
      · exact h1.assayAt
      · dsimp only
        refine Canonical.flashRdc ?_
        split
        · exact h1.touchL2.homeWrite
        · exact h1.touchL2.dropRdc

theorem cadd : Serves (doCadd n ses b pk) := by
  intro s h
  unfold doCadd
  split
  · exact h
  · split
    · next hr => exact h.ofReach hr
    · next hr => exact h.ofReach hr
    · next hr =>
      split
      · exact (h.ofReach hr).assayAt
      · exact (h.ofReach hr).portAdd

theorem append : Serves (doAppend n ses b pk) := by
  intro s h
  unfold doAppend
  split
  · dsimp only
    split
    · exact h
    · split
      · next hr => exact h.ofReached hr
      · next hr => exact h.ofReached hr
      · next hr =>
        have h1 := h.ofReached hr
        split
        · exact h1.assayIn
        · split
          · next hr => exact h1.ofReached hr
          · next hr => exact h1.ofReached hr
          · next hr =>
            have h2 := h1.ofReached hr
            split
            · exact h2.assayAt
            · split
              · exact h2
              · split
                · next hr => exact h2.ofReached hr
                · next hr => exact h2.ofReached hr
                · next hr => exact (h2.ofReached hr).homeWrite.portAdd
  · exact h

theorem block : Serves (doBlock n ses b pk) := by
  intro s h
  unfold doBlock
  split
  · exact h
  · split
    · exact h
    · split
      · exact h
      · split
        · exact h.portWrite fun _ h => h
        · split
          · next hr => exact h.ofReached hr
          · next hr => exact h.ofReached hr
          · next hr =>
            dsimp only
            split
            · exact (h.ofReached hr).assayAt
            · exact (h.ofReached hr).portWrite fun _ h => h.modPort.portAdd

end
end Serves

/-! ### Bindings -/

namespace Canonical

theorem placeGateway {n part tile : Nat} {hd : Header} (h : Canonical s) : Canonical (s.placeGateway n part tile hd) :=
  foldl (fun _ _ h => h.launchRecord) h

theorem launchGateway {n part : Nat} {b : Binding} {w : Word} {hd : Header} (h : Canonical s) :
    Canonical (s.launchGateway n part b w hd).1 := by
  unfold State.launchGateway
  dsimp only
  exact h.newTask.dropCode.placeGateway

theorem makeBinding {n : Nat} {b : Binding} (h : Canonical s) : Canonical (s.makeBinding n b) := h.modPort.postOnce

theorem endBinding {n : Nat} {l : Option (Nat × Nat)} (h : Canonical s) : Canonical (s.endBinding n l) := h.modPort

theorem bindTask {n ses m : Nat} {p : Partition} {b : Binding} {w : Word} (h : Canonical s) :
    Canonical (s.bindTask n ses m p b w).state := by
  unfold State.bindTask
  split
  · next hr => exact h.ofReached hr
  · next hr => exact h.ofReached hr
  · next hr =>
    have h1 := h.ofReached hr
    dsimp only
    split
    · exact h1.endUnlaunched.makeBinding
    · split
      · exact h1.launchGateway.makeBinding
      · split
        · next hr => exact h1.ofReach hr
        · next hr => exact h1.ofReach hr
        · next hr =>
          split
          · exact (h1.ofReach hr).launchGateway.makeBinding
          · exact h1.ofReach hr

/-! ### Migration -/

theorem clearD {a : Nat} (h : Canonical s) : Canonical (s.clearD a) := by
  unfold State.clearD
  dsimp only
  split
  · exact h.sliceDw
  · exact h

theorem raiseFor {part ctx v : Nat} (h : Canonical s) : Canonical (s.raiseFor part ctx v) := by
  unfold State.raiseFor
  split
  · exact h
  · exact h.modPart.startRaises

theorem dropDirty {part v : Nat} (h : Canonical s) : Canonical (s.dropDirty part v) := h.modPart

theorem migrationBlock {n ses : Nat} {b : Behalf} {pk : Packet} {k : State → Partition → Nat → List Word → Performed}
    (hk : ∀ x p v ws, Canonical x → Canonical (k x p v ws).state) (h : Canonical s) : Canonical (s.migrationBlock n ses b pk k).state := by
  unfold State.migrationBlock
  split
  · exact h
  · split
    · exact h
    · split
      · next hr => exact h.ofReached hr
      · next hr => exact h.ofReached hr
      · next hr =>
        dsimp only
        split
        · exact h
        · exact hk _ _ _ _ (h.ofReached hr)

end Canonical

namespace Serves

section
variable {n ses : Nat} {b : Behalf} {pk : Packet}

theorem bind : Serves (doBind n ses b pk) := by
  intro s h
  unfold doBind
  dsimp only
  split
  · exact h
  · split
    · exact h
    · split
      · next hr => exact h.ofReached hr
      · next hr => exact h.ofReached hr
      · next hr =>
        split
        · exact h
        · split
          · exact (h.ofReached hr).makeBinding
          · exact (h.ofReached hr).bindTask

theorem unbind : Serves (doUnbind b pk) := by
  intro s h
  unfold doUnbind
  dsimp only
  split
  · exact h
  · split
    · exact h
    · split
      · exact h.endBinding
      · exact h

theorem attest : Serves (doGibenAttest pk) := by
  intro s h
  unfold doGibenAttest
  split
  · exact h
  · exact h

theorem track : Serves (doTrack n ses b pk) := by
  intro s h
  refine h.migrationBlock fun x p v ws hx => ?_
  dsimp only
  split
  · exact h
  · exact (Canonical.foldl (fun _ _ h => h.clearD) hx).modVf.dropDirty.raiseFor

theorem collect : Serves (doCollect n ses b pk) := by
  intro s h
  refine h.migrationBlock fun x p v ws hx => ?_
  exact (Canonical.foldl (fun _ _ h => h.clearD) hx).modVf.raiseFor

theorem pause : Serves (doPause n ses b pk) := fun _ h => h.migrationBlock fun _ _ _ _ hx => hx.modVf.postOnce

theorem release : Serves (doRelease n ses b pk) := by
  intro s h
  refine h.migrationBlock fun x p v ws hx => ?_
  dsimp only
  split
  · exact h
  · exact (Canonical.foldl (fun _ _ h => h.endBinding) hx).modVf.migrationDone

theorem mgmt : Serves (doMgmt n ses b pk) := by
  intro s h
  unfold doMgmt
  split
  · exact h
  · split
    · exact bind s h
    · exact unbind s h
    · exact attest s h
    · exact track s h
    · exact collect s h
    · exact pause s h
    · exact release s h
    · exact h

theorem kind : Serves (doKind n ses b pk) := by
  intro s h
  unfold doKind
  split
  · exact write s h
  · exact read s h
  · exact h
  · exact atomic s h
  · exact cadd s h
  · exact append s h
  · exact block s h
  · exact mgmt s h
  · exact h

end
end Serves

/-! ### The turn of a packet -/

namespace Canonical

theorem performPacket {n ses : Nat} {x : Session} {pk : Packet} (h : Canonical s) : Canonical (s.performPacket n ses x pk).state := by
  unfold State.performPacket
  split
  · exact h
  · split
    · exact h
    · extract_lets off
      split
      · exact h
      · split
        · exact h
        · exact Serves.kind s h

theorem answered {n ses : Nat} {pk : Packet} {r : Performed} (h : Canonical r.state) : Canonical (answered n ses pk r) := by
  cases r with
  | held => exact h
  | again => exact h.postAt
  | ack s code =>
    dsimp only [Machine.answered]
    split
    · exact h
    · exact h.setSession.emit
  | rsp s bs =>
    dsimp only [Machine.answered]
    split
    · exact h
    · exact h.setSession.sendNumbered

theorem runHeld {n ses m : Nat} (h : Canonical s) : Canonical (State.runHeld n ses m s) := by
  induction m generalizing s with
  | zero => exact h
  | succ m ih =>
    unfold State.runHeld
    split
    · exact h
    · split
      · exact h
      · dsimp only
        split
        · exact h.performPacket.answered
        · split
          · exact h.performPacket.answered
          · exact ih h.performPacket.answered

theorem sessionTurn {n ses : Nat} (h : Canonical s) : Canonical (s.sessionTurn n ses) := by
  unfold State.sessionTurn
  split
  · exact h
  · exact h.runHeld

theorem advanceBy {n : Nat} {pk : Packet} (h : Canonical s) : Canonical (s.advanceBy n pk) := by
  unfold State.advanceBy
  split
  · split
    · exact h.advance
    · exact h
  · exact h

end Canonical

namespace Lands

theorem numbered {n : Nat} {pk : Packet} {b : Bool} (h : Canonical s) : Lands (s.numbered n pk b) := by
  unfold State.numbered
  dsimp only
  split
  · exact h
  · split
    · exact h.advanceBy.emit
    · split
      · exact h.advanceBy.emit
      · split
        · exact h.advanceBy
        · exact h.advanceBy.setSession.sessionTurn

theorem hello {n : Nat} {pk : Packet} (h : Canonical s) : Lands (execHello n pk s) := by
  unfold execHello
  dsimp only
  split
  · exact h
  · split
    · split
      · exact h.emit
      · split
        · exact h.emit
        · exact h.closeSession.setSession.modPort.emit.postOnce
    · exact h.emit

theorem gibenAck {n : Nat} {pk : Packet} (h : Canonical s) : Lands (execGibenAck n pk s) := by
  unfold execGibenAck
  dsimp only
  split
  · exact h
  · split
    · exact h.emit
    · split
      · exact h.emit
      · split
        · exact h.setSession
        · exact h.closeSession
        · exact h.modPort.advance
        · exact h.advance

theorem retransmitTimeout {n ses : Nat} (h : Canonical s) : Lands (execRetransmitTimeout n ses s) := by
  unfold execRetransmitTimeout
  extract_lets s1
  have h1 : Canonical s1 := h.sessionTurn
  split
  · exact h1
  · split
    · exact h1
    · split
      · exact h1
      · extract_lets tries
        split
        · exact h1.modPort.closeSession.postOnce
        · exact Canonical.foldl (fun _ _ h => h.emit) h1.armTimeout

end Lands

/-! ### Egress -/

namespace Canonical

theorem sendEgress {n : Nat} {g : Egress} {bs : List Byte} (h : Canonical s) : Canonical (s.sendEgress n g bs) := by
  have hs : ∀ l : List (Nat × Word × Word × List Byte),
      Canonical (l.foldl (fun x (k, a, va, b) => x.sendNumbered n g.session k a va b) s) := fun l =>
    foldl (fun _ ⟨_, _, _, _⟩ h => h.sendNumbered) h
  unfold State.sendEgress
  dsimp only
  split
  · exact hs _
  · exact (hs _).modPort.checkEgress

theorem portRead {n ctx : Nat} {l : List (Word × Nat × Nat)} (h : Canonical s) : Canonical (s.portRead n ctx l) := by
  refine foldl (fun x p h => ?_) h
  split
  · exact h
  · exact h.dropRdcOver.touchL2

theorem egressRun {n : Nat} {b : Binding} {g : Egress} (h : Canonical s) : Canonical (s.egressRun n b g) := by
  unfold State.egressRun
  split
  · exact h.egressDone
  · split
    · exact h.egressDone
    · split
      · exact h.sendEgress
      · dsimp only
        split
        · next hr => exact (h.ofReached hr).egressDone
        · next hr => exact h.ofReached hr
        · next hr =>
          split
          · exact (h.ofReached hr).assayIn.egressDone
          · exact (h.ofReached hr).portRead.sendEgress

end Canonical

namespace Lands

theorem egressDescriptor {n : Nat} (h : Canonical s) : Lands (execEgressDescriptor n s) := by
  unfold execEgressDescriptor
  extract_lets x act
  split
  · exact h
  · split
    · dsimp only [Lands]
      split
      · exact h
      · exact h.egressRun
    · extract_lets ses
      split
      · exact h
      · split
        · next hr =>
          have h1 := h.ofReached hr
          dsimp only
          split
          · exact h1.touchL2.flashRdc.assayAt
          · split
            · exact h1.touchL2.flashRdc
            · split
              · next hx => exact (h1.touchL2.flashRdc.reachAll.fst hx).portRead.modPort.assayIn.dropRdc.putReach.egressRun
              · next hx => exact h1.touchL2.flashRdc.reachAll.fst hx
        · next hr => exact h.ofReached hr
        · next hr => exact h.ofReached hr
        · exact h

theorem egressComplete {n : Nat} {r : Fin 4} (h : Canonical s) : Lands (execEgressComplete n r s) := by
  unfold execEgressComplete
  split
  · split
    · exact h
    · dsimp only
      split
      · next hx => exact h.reachAll.fst hx
      · next hx =>
        have h1 := h.reachAll.fst hx
        refine Canonical.postOnce (Canonical.modPort ?_)
        split
        · exact h1.dropRdc.putReach.portAdd
        · exact h1.dropRdc.putReach
  · exact h

theorem portLinkDown {n : Nat} (h : Canonical s) : Lands (execPortLinkDown n s) := by
  dsimp only [execPortLinkDown, Lands]
  split
  · exact h
  · exact h.modPort

theorem portLinkUp {n : Nat} (h : Canonical s) : Lands (execPortLinkUp n s) := by
  dsimp only [execPortLinkUp, Lands]
  split
  · exact h
  · exact h.modPort.postOnce

end Lands

end

end Sys2Proof.Machine
end

section
/-! PROOFS. Canonical memory, every step (log 3): time, the instructions and acts, and the turns. -/

namespace Sys2Proof.Machine

-- Proofs are elaborated one after another, as the tests are: the whole text has to fit the check's memory.
set_option Elab.async false

section
variable {s t : State} {e : Env}

namespace Canonical

/-! ### Time -/

theorem fire (h : Canonical s) : Canonical s.fire := postAll h.same

theorem flushRings (h : Canonical s) : Canonical s.flushRings := by
  refine foldl (fun _ _ h => h.flushProms) (foldl (fun x e h => ?_) h)
  split
  · exact h.flushDescs
  · exact h

theorem loseTag {c : Nat} {l : L1Line} (h : Canonical s) : Canonical (s.loseTag c l) := by
  refine foldl (fun x i h => ?_) h.modCore.postOnce
  dsimp only
  split
  · exact h.endGrid
  · exact h

theorem strikeSymbols {l : List Nat} (h : Canonical s) : Canonical (s.strikeSymbols l) := by
  unfold State.strikeSymbols
  split
  · exact h
  · exact h.modField
  · exact h.same

theorem strike {u : Upset} (h : Canonical s) : Canonical (s.strike u) := by
  unfold State.strike
  split
  · exact h.modCore
  · exact h.modField
  · exact h.modCore
  · split
    · exact h.loseTag
    · exact h
  · exact h.modSlot
  · exact h.same
  · exact h.modField.postOnce
  · exact h.modField
  · exact h.strikeSymbols
  · exact h.same
  · exact h.same
  · exact h.modTile
  · exact h.modSlot
  · exact h.modTile
  · exact h.modTile
  · exact h.modTile

theorem strikeNext (h : Canonical s) : Canonical s.strikeNext := by
  unfold State.strikeNext
  split
  · exact h
  · exact strike h.same

theorem moveRecord {u tile : Nat} (h : Canonical s) : Canonical (s.moveRecord u tile) := by
  unfold State.moveRecord
  split
  · exact h
  · split
    · exact h
    · refine postUnless ?_
      split
      · exact h.offReady.setStrand.toReady.modStrand
      · exact h.offReady.setStrand

theorem moveNext (h : Canonical s) : Canonical s.moveNext := by
  unfold State.moveNext
  split
  · exact h
  · exact moveRecord h.same

end Canonical

theorem Lands.timeTick (h : Canonical s) : Lands (execTimeTick s) := by
  have ht : Canonical { s with time := s.time + 1 } := h.same
  exact ht.fire.flushRings.strikeNext.moveNext.postOnce

/-! ### Instructions and acts -/

namespace Lands

/-- Each instruction and each act keeps memory canonical. -/
theorem exec (i : Instr) (h : Canonical s) : Lands (exec i s) := by
  cases i
  case addR | addI | sub | mulR | mulI | mulh | mulhu | div | divu | rem | remu | andR | andI | orR | orI | xorR | xorI | andn |
      orn | xnor | shlR | shlI | shrR | shrI | sarR | sarI | rotlR | rotlI | clz | ctz | popc | brev | minR | minI | maxR | maxI
      | minuR | minuI | maxuR | maxuI | abs | addsat | subsat | sext | zext | bfx | bfi | movR | movI | sel | cmpR | cmpI |
      scadd | movw | plog | pany | pall | pcount | fadd | fsub | fmul | fma | fms | fnma | fnms | fdiv | fsqrt | frcp | frsq |
      fexp2 | flog2 | ftanh | fmin | fmax | fabs | fneg | fcpys | fcmp | fclass | fcvt | ftoi | itof | fround | vbcast | vshuf |
      vperm | vslide | vextr | vins | vred | vscan | vcompress | viota | bquant | bdeq => exact of_word (Sound.reg _) h
  case ld | ldx => exact of_word (Sound.load _ _ _ _ _) h
  case st => exact of_word (Sound.st _ _ _ _ _) h
  case ldv | ldg => exact of_word (Sound.loadV _ _ _ _) h
  case stv | stsc => exact of_word (Sound.storeV _ _ _) h
  case pref => exact of_word (Sound.pref _ _ _) h
  case aop | acas | afadd => exact of_word (Sound.atomic _ _ _ _ _ _ _) h
  case cadd => exact of_word (Sound.cadd _ _) h
  case cwait => exact of_word (Sound.cwait _ _ _ _) h
  case ctest => exact of_word (Sound.ctest _ _ _ _ _) h
  case fence => exact of_word (Sound.fence _ _) h
  case split => exact of_word Sound.split h
  case join => exact of_word (Sound.join _) h
  case spawn => exact of_word (Sound.spawn _ _ _ _) h
  case send => exact of_word (Sound.send _ _ _ _ _) h
  case gcreate | gopen => exact of_word (Sound.openGroup _ _ _ _) h
  case gleave => exact of_word (Sound.gleave _) h
  case gbar | gvote | gred => exact of_word (Sound.arriveWait _ _ _ _) h
  case garrive => exact of_word (Sound.garrive _) h
  case gdrop => exact of_word (Sound.gdrop _) h
  case ginfo => exact of_word (Sound.ginfo _ _ _) h
  case treq => exact of_word (Sound.treq _ _ _) h
  case trel => exact of_word (Sound.trel _ _) h
  case tlend => exact of_word (Sound.tlend _ _ _) h
  case tstat => exact of_word (Sound.tstat _ _) h
  case tdef => exact of_word (Sound.tdef _ _) h
  case tget => exact of_word (Sound.tget _ _) h
  case tdrop => exact of_word (Sound.tdrop _) h
  case copy => exact of_word (Sound.copy _ _) h
  case copys => exact of_word (Sound.copys _ _ _ _) h
  case spcomp => exact of_word (Sound.spcomp _ _ _ _) h
  case attmerge => exact of_word (Sound.attmerge _ _ _ _ _) h
  case kvapp => exact of_word (Sound.kvapp _ _ _ _) h
  case kvlook => exact of_word (Sound.kvlook _ _ _ _ _ _) h
  case ttset => exact of_word (Sound.ttset _ _ _) h
  case ttmask => exact of_word (Sound.ttmask _ _ _) h
  case ttpos => exact of_word (Sound.ttpos _ _ _ _) h
  case ttprune => exact of_word (Sound.ttprune _ _ _ _ _) h
  case ttclr => exact of_word (Sound.ttclr _) h
  case baddq => exact of_word (Sound.baddq _ _ _ _ _) h
  case gwnext => exact of_word (Sound.gwnext _) h
  case mfs => exact of_word (Sound.mfs _ _) h
  case mts => exact of_word (Sound.mts _ _) h
  case writeClass => exact of_word (Sound.writeClass _) h
  case writeFpst => exact of_word (Sound.writeFpst _) h
  case writeRsp => exact of_word (Sound.writeRsp _) h
  case writeStatus => exact of_word (Sound.writeStatus _) h
  case writeDroopth => exact of_word (Sound.writeDroopth _) h
  case writeCpwt => exact of_word (Sound.writeCpwt _) h
  case readDroopcntCecnt => exact of_word (Sound.readCounts _ _) h
  case halt => exact of_word Sound.halt h
  case nop => exact of_word Sound.nop h
  case tgen => exact of_word (Sound.tgen _ _ _) h
  case cinvCode => exact of_word Sound.cinvCode h
  case cinvLine => exact of_word (Sound.cinvLine _) h
  case cinvRdc => exact of_word (Sound.cinvRdc _) h
  case scrub => exact of_word (Sound.scrub _) h
  case route => exact of_word (Sound.route _ _ _) h
  case mm | mmdist => exact of_word (Sound.engine Prepares.mm) h
  case mmtopk => exact of_word (Sound.engine Prepares.topk) h
  case spmm => exact of_word (Sound.engine Prepares.spmm) h
  case attn => exact of_word (Sound.engine Prepares.attn) h
  case vemap | vezip | vered | venorm | vesoft | vecvt => exact of_word (Sound.engine Prepares.ve) h
  case yieldOp => exact of_jump Sound.yield h
  case endOp => exact of_jump Sound.endOp h
  case trap => exact of_jump (Sound.trap _) h
  case brk => exact of_jump (Sound.brk _) h
  case rft => exact of_jump (Sound.rft _ _) h
  case unassignedOpcode => exact unassignedOpcode h
  case blockEntry => exact blockEntry h
  case longLatencyComplete => exact longLatencyComplete h
  case vectorSideStart => exact vectorSideStart h
  case vectorResultReturn => exact vectorResultReturn h
  case leaseRequest => exact leaseRequest h
  case leaseIdleReturn => exact leaseIdleReturn h
  case droopWindowExpiry => exact droopWindowExpiry h
  case droopHoldExit => exact droopHoldExit h
  case memoryReply => exact memoryReply h
  case homeSliceWrite => exact homeSliceWrite h
  case counterAddition => exact counterAddition h
  case overflowSweep => exact overflowSweep h
  case faultSweep => exact faultSweep h
  case tierPromotion => exact tierPromotion h
  case promotionComplete => exact promotionComplete h
  case generationAck => exact generationAck h
  case generationSwitch => exact generationSwitch h
  case pickUp => exact pickUp h
  case putDown => exact putDown h
  case stalledSaveResume => exact stalledSaveResume h
  case gatherEnd => exact gatherEnd h
  case privateFetchTurn => exact privateFetchTurn h
  case strandCreationContinue => exact strandCreationContinue h
  case copyChunk => exact copyChunk h
  case copyCompletion => exact copyCompletion h
  case scrubberRun => exact scrubberRun h
  case rowBlockStart => exact rowBlockStart h
  case rowBlockEnd => exact rowBlockEnd h
  case engineIdleEnd => exact engineIdleEnd h
  case groupPrioRaise => exact groupPrioRaise h
  case floorRequest => exact floorRequest h
  case placementGrant => exact placementGrant h
  case leaveRequest => exact leaveRequest h
  case recallComplete => exact recallComplete h
  case revocationNotice => exact revocationNotice h
  case revocationComplete => exact revocationComplete h
  case crucibleTopup => exact crucibleTopup h
  case crucibleReclaim => exact crucibleReclaim h
  case taskEndReturn => exact taskEndReturn h
  case taskHeaderRead => exact taskHeaderRead h
  case taskLaunch => exact taskLaunch h
  case aging => exact aging h
  case priorityPreemption => exact priorityPreemption h
  case timeSlicePreemption => exact timeSlicePreemption h
  case preemption => exact preemption h
  case gridStop => exact gridStop h
  case taskCompletion => exact taskCompletion h
  case rollback => exact rollback h
  case assay => exact assay h
  case bucketDecay => exact bucketDecay h
  case wholeCoreAssay => exact wholeCoreAssay h
  case detourRoute => exact detourRoute h
  case islandRetirement => exact islandRetirement h
  case occupancySnapshot => exact occupancySnapshot h
  case refreshManagement => exact refreshManagement h
  case refreshWindowEnd => exact refreshWindowEnd h
  case haltRecord => exact haltRecord h
  case timeTick => exact timeTick h
  case assayEnd => exact assayEnd h
  case deactivate => exact deactivate h
  case retransmitTimeout => exact retransmitTimeout h
  case egressDescriptor => exact egressDescriptor h
  case egressComplete => exact egressComplete h
  case setpool => exact setpool h
  case powerGood => exact powerGood h
  case thermalWarning => exact thermalWarning h
  case thermalShutdown => exact thermalShutdown h
  case hello => exact hello h
  case portLinkDown => exact portLinkDown h
  case portLinkUp => exact portLinkUp h
  case senseEvent => exact senseEvent h
  case rowPrecharge => exact rowPrecharge h
  case storeBufferDrain => exact drain h
  case gibenAck => exact gibenAck h
  case readfuse | loadfw | attest | setrth | loadkey | activate | links | mgmtHalt | mgmtResume | readbkt => exact arrive h
  case gibenWrite | gibenRead | readrsp | gibenAtomic | gibenCadd | append | gibenBlock | bind | unbind | gibenAttest | track |
      collect | pause | release | gibenUnassignedKind => exact numbered h

end Lands

/-! ### Turns -/

/-- What the turn of a slot comes to keeps memory canonical. -/
def Rests : Task1 → Prop
  | .done s => Canonical s
  | .later s => Canonical s
  | .enter => True
  | .word _ s => Canonical s

theorem Rests.issueWord {k : Nat} {i : Instr} (h : Canonical s) : Rests (s.issueWord k i) := by
  unfold State.issueWord
  dsimp only
  split
  · exact h
  · split
    · exact h
    · exact h.modCore

theorem Rests.slotTask {k : Nat} (h : Canonical s) : Rests (s.slotTask k) := by
  have hf : ∀ (x : State) (b a : Bool) (c : FaultCode) (v : Word), Canonical x → Canonical (x.stopped k b a (.fault c v)) :=
    fun _ _ _ _ _ hx => hx.stopped (P := fun _ : Unit => True) trivial
  unfold State.slotTask
  split
  · exact h
  · split
    · exact h.resumeHeld
    · split
      · exact h
      · split
        · split
          · exact h.resumeStop
          · exact h
        · split
          · exact h
          · split
            · exact trivial
            · split
              · exact h.postOnce
              · split
                · next hx => exact h.stopped ((Keeps.of_word h).error hx : Keeps (fun _ : Unit => True) _)
                · next hx =>
                  have h1 : Canonical _ := (Keeps.of_word h).ok hx
                  split
                  · exact hf _ _ _ _ _ h1
                  · split
                    · exact hf _ _ _ _ _ h1
                    · exact hf _ _ _ _ _ h1
                    · exact Rests.issueWord h1

theorem Lands.andAgain {k j : Nat} {o : Host.Outcome State Fault Refusal} (h : Lands o) : Lands (andAgain k j o) := by
  cases o with
  | next s => exact Canonical.again (Canonical.again h)
  | fault => exact trivial
  | refused => exact trivial

theorem Lands.slotStep {k : Nat} (h : Canonical s) : Lands (slotStep s k) := by
  have ht := Rests.slotTask (k := s.servedSlot k) (s := { s with cur := s.servedSlot k }) h.same
  unfold Machine.slotStep
  dsimp only
  revert ht
  cases ({ s with cur := s.servedSlot k } : State).slotTask (s.servedSlot k) with
  | done s1 =>
    intro h1
    dsimp only [Lands]
    split
    · exact h1
    · exact Canonical.again h1
  | later s1 => exact fun h1 => Canonical.again (Canonical.again h1)
  | enter => exact fun _ => (Lands.exec _ (Canonical.same h)).andAgain
  | word i s1 => exact fun h1 => (Lands.exec i h1).andAgain

/-- A step keeps memory canonical. -/
theorem Lands.step (h : Canonical s) : Lands (step s) := by
  have hn := h.nextTurn
  unfold Machine.step
  split
  · next hx => exact Lands.exec _ (hx ▸ hn :)
  · next hx => exact Lands.exec _ (hx ▸ hn :)
  · next hx => exact Lands.slotStep (hx ▸ hn :)

end

/-- Settles O59: every operation writes memory through a canonical write or removes cells from it. -/
theorem everyStepKeepsMemoryCanonical : Obligations.every_step_keeps_memory_canonical := by
  unfold Obligations.every_step_keeps_memory_canonical
  intro s t hs ht
  have h := Lands.step (s := s) ⟨hs⟩
  rw [ht] at h
  exact h.wf

end Sys2Proof.Machine
end

section
/-! PROOFS. Numbered packets: their turn (R529 to R531), and what each kind of Table 21.4 does (R165, R533, R534, R538, R544, R545). -/

namespace Sys2Proof.Machine

set_option Elab.async false

/-! ### The turn of a packet (R531) -/

@[simp] theorem modPort_session (s : State) (n ses : Nat) (f : Port → Port) :
    (s.modPort n f).session n ses = tget (f (s.port n)).sessions ses := by simp [State.session, State.modPort, State.setPort, State.port]

@[simp] theorem setSession_session (s : State) (n ses : Nat) (x : Session) : (s.setSession n ses x).session n ses = some x := by
  simp [State.setSession]

section
variable {s : State} {n ses : Nat} {x : Session}

/-- A session that holds no packet whose turn it is stays as it is. -/
theorem sessionTurn_gap (hx : s.session n ses = some x) (hh : ∀ k ∈ x.held, k.seq ≠ x.next) : s.sessionTurn n ses = s := by
  have hfind : x.held.find? (fun k => k.seq = x.next) = none := List.find?_eq_none.2 fun k hk => by simpa using hh k hk
  simp [State.sessionTurn, State.runHeld, hx, hfind]

/-- The packet whose turn it is has its effect; unless the session stands where it stood, what it holds follows. -/
theorem sessionTurn_performs {pk : Packet} (hx : s.session n ses = some x) (hf : x.held.find? (fun k => k.seq = x.next) = some pk) :
    let t := answered n ses pk (s.performPacket n ses x pk)
    s.sessionTurn n ses = if (t.session n ses).all (fun y => y.next = x.next) then t else State.runHeld n ses x.held.length t := by
  intro t
  simp only [State.sessionTurn, State.runHeld, hx, hf]
  change (match t.session n ses with
    | none => t
    | some y => if y.next = x.next then t else State.runHeld n ses x.held.length t) = _
  cases t.session n ses <;> simp
end

section
variable {s : State} {n : Nat} {pk : Packet} {mine : Bool}

theorem numbered_off (h : s.portOff n = true ∨ mine = false) : s.numbered n pk mine = .next s := by
  rcases h with h | h <;> simp [State.numbered, h]

variable (ho : s.portOff n = false) (hm : mine = true) {x : Session}
include ho hm

theorem numbered_closed (hx : (s.advanceBy n pk).session n pk.session.toNat = none) :
    s.numbered n pk mine = .next ((s.advanceBy n pk).emit n (refusal pk)) := by simp [State.numbered, ho, hm, hx]

variable (hx : (s.advanceBy n pk).session n pk.session.toNat = some x)
include hx

theorem numbered_below (hb : seqBelow pk.seq x.next = true) :
    s.numbered n pk mine = .next ((s.advanceBy n pk).emit n (x.ackPacket pk.session.toNat 0)) := by
  simp [State.numbered, ho, hm, hx, hb, ackOk]

theorem numbered_again (hb : seqBelow pk.seq x.next = false) (hh : ∃ k ∈ x.held, k.seq = pk.seq) :
    s.numbered n pk mine = .next (s.advanceBy n pk) := by simp [State.numbered, ho, hm, hx, hb, hh]

theorem numbered_new (hb : seqBelow pk.seq x.next = false) (hh : ∀ k ∈ x.held, k.seq ≠ pk.seq) :
    s.numbered n pk mine =
      .next (((s.advanceBy n pk).setSession n pk.session.toNat { x with held := x.held ++ [pk] }).sessionTurn n pk.session.toNat) := by
  have hnew : (x.held.any fun k => k.seq = pk.seq) = false := List.any_eq_false.2 fun k hk => by simpa using hh k hk
  simp [State.numbered, ho, hm, hx, hb, hnew]

theorem numbered_ahead (hb : seqBelow pk.seq x.next = false) (hne : pk.seq ≠ x.next)
    (hh : ∀ k ∈ x.held, k.seq ≠ pk.seq ∧ k.seq ≠ x.next) :
    s.numbered n pk mine = .next ((s.advanceBy n pk).setSession n pk.session.toNat { x with held := x.held ++ [pk] }) := by
  have hgap : ∀ k ∈ x.held ++ [pk], k.seq ≠ x.next := by
    simpa [or_imp, forall_and] using And.intro (fun k hk => (hh k hk).2) hne
  rw [numbered_new ho hm hx hb fun k hk => (hh k hk).1, sessionTurn_gap (setSession_session _ _ _ _) hgap]

theorem numbered_next (hn : pk.seq = x.next) (hh : ∀ k ∈ x.held, k.seq ≠ pk.seq) :
    let x1 := { x with held := x.held ++ [pk] }
    let s2 := (s.advanceBy n pk).setSession n pk.session.toNat x1
    let t := answered n pk.session.toNat pk (s2.performPacket n pk.session.toNat x1 pk)
    s.numbered n pk mine = .next (if (t.session n pk.session.toNat).all (fun y => y.next = x.next) then t
      else State.runHeld n pk.session.toNat x1.held.length t) := by
  intro x1 s2 t
  have hbelow : seqBelow pk.seq x.next = false := by simp [seqBelow, hn]
  have hfirst : x1.held.find? (fun k => k.seq = x1.next) = some pk := by
    have hnone : x.held.find? (fun k => k.seq = x.next) = none := List.find?_eq_none.2 fun k hk => by simpa [← hn] using hh k hk
    simp [x1, List.find?_append, hnone, hn]
  rw [numbered_new ho hm hx hbelow hh, sessionTurn_performs (setSession_session _ _ _ _) hfirst]
end

/-! ### What a packet acknowledges (R531) -/

section
variable {s : State} {n : Nat} {pk : Packet} {x : Session} (hx : s.session n pk.session.toNat = some x)
include hx

theorem advanceBy_good (hb : badHeader pk n = false) (hv : pk.ver.toNat = x.ver) :
    s.advanceBy n pk = s.advance n pk.session.toNat pk.ack := by simp [State.advanceBy, hx, goodPacket, hb, hv]

theorem advanceBy_bad (h : badHeader pk n = true ∨ pk.ver.toNat ≠ x.ver) : s.advanceBy n pk = s := by
  rcases h with h | h <;> simp [State.advanceBy, hx, goodPacket, h]
end

/-! ### Whose packet it is (R529, R530, R544, R545) -/

/-- A session takes no packet that is bad on its face, nor one of a feature that is off. -/
def Session.Rejects (x : Session) (n : Nat) (pk : Packet) : Prop :=
  badHeader pk n = true ∨ pk.ver.toNat ≠ x.ver ∨ ∃ f, featureOf pk = some f ∧ x.feat.getLsbD f = false

section
variable {s : State} {n ses : Nat} {x : Session} {pk : Packet}

theorem performPacket_moved (h : s.moved n x = true) : s.performPacket n ses x pk = .ack s 2 := by
  simp [State.performPacket, h, ackMoved]

variable (hm : s.moved n x = false)
include hm

theorem performPacket_nobody (h : s.behalf n x = none) : s.performPacket n ses x pk = .ack s 3 := by
  simp [State.performPacket, hm, h, ackRefused]

variable {b : Behalf} (hb : s.behalf n x = some b)
include hb

theorem performPacket_open : s.performPacket n ses x pk =
    if badHeader pk n || pk.ver.toNat != x.ver || (featureOf pk).any (fun f => !x.feat.getLsbD f) then .ack s 3
    else if s.paused b && pausable pk.kind.toNat then .ack s 1 else doKind n ses b pk s := by
  simp only [State.performPacket, hm, hb, Bool.false_eq_true, if_false]
  cases featureOf pk <;> rfl

theorem performPacket_rejected (h : x.Rejects n pk) : s.performPacket n ses x pk = .ack s 3 := by
  rw [performPacket_open hm hb, if_pos (by simpa [Session.Rejects, or_assoc, Option.any_eq_true] using h)]

theorem performPacket_taken (h : ¬ x.Rejects n pk) : s.performPacket n ses x pk =
    if s.paused b && pausable pk.kind.toNat then .ack s 1 else doKind n ses b pk s := by
  rw [performPacket_open hm hb, if_neg (by simpa [Session.Rejects, or_assoc, Option.any_eq_true, Option.any_eq_false] using h)]

theorem performPacket_paused (h : ¬ x.Rejects n pk) (hp : s.paused b = true)
    (hk : pk.kind.toNat = 0x10 ∨ pk.kind.toNat = 0x14 ∨ pk.kind.toNat = 0x15 ∨ pk.kind.toNat = 0x16) :
    s.performPacket n ses x pk = .ack s 1 := by
  have hpk : pausable pk.kind.toNat = true := by rcases hk with hk | hk | hk | hk <;> simp [hk] <;> rfl
  simp [performPacket_taken hm hb h, hp, hpk]

theorem performPacket_serves (h : ¬ x.Rejects n pk) (hp : s.paused b = false) : s.performPacket n ses x pk = doKind n ses b pk s := by
  simp [performPacket_taken hm hb h, hp]
end

/-! ### The kinds (Table 21.4) -/

section
variable {s s1 : State} {n ses : Nat} {b : Behalf} {pk : Packet}

theorem kind_eq {k : Nat} (h : isKind pk k = true) : pk.kind.toNat = k := by simpa [isKind] using h

theorem doKind_write (h : isKind pk 0x10 = true) : doKind n ses b pk s = doWrite n ses b pk s := by simp [doKind, kind_eq h]
theorem doKind_read (h : isKind pk 0x11 = true) : doKind n ses b pk s = doRead n ses b pk s := by simp [doKind, kind_eq h]
theorem doKind_readrsp (h : isKind pk 0x12 = true) : doKind n ses b pk s = .ack s 0 := by simp [doKind, kind_eq h, ackOk]
theorem doKind_atomic (h : isKind pk 0x13 = true) : doKind n ses b pk s = doAtomic n ses b pk s := by simp [doKind, kind_eq h]
theorem doKind_cadd (h : isKind pk 0x14 = true) : doKind n ses b pk s = doCadd n ses b pk s := by simp [doKind, kind_eq h]
theorem doKind_append (h : isKind pk 0x15 = true) : doKind n ses b pk s = doAppend n ses b pk s := by simp [doKind, kind_eq h]
theorem doKind_block (h : isKind pk 0x16 = true) : doKind n ses b pk s = doBlock n ses b pk s := by simp [doKind, kind_eq h]

/-- A MGMT subcode that Table 21.7 does not have is refused. -/
theorem doMgmt_unassigned (h : bits pk.arg 7 0 = 0 ∨ 7 < bits pk.arg 7 0) : doMgmt n ses b pk s = .ack s 3 := by
  unfold doMgmt
  split
  · rfl
  · split
    case h_8 => rfl
    all_goals omega

theorem doKind_unassigned (h : noKind pk = true) : doKind n ses b pk s = .ack s 3 := by
  by_cases hm : pk.kind.toNat = 0x20
  · have hsub : bits pk.arg 7 0 = 0 ∨ 7 < bits pk.arg 7 0 := by simpa [noKind, isKind, kindMgmt, hm] using h
    rw [← doMgmt_unassigned (n := n) (ses := ses) (b := b) (s := s) hsub]
    simp [doKind, hm]
  · have hnot : [0x10, 0x11, 0x12, 0x13, 0x14, 0x15, 0x16].contains pk.kind.toNat = false := by
      simp [noKind, isKind, kindMgmt, hm, kindHello, kindAck, kindWrite, kindRead, kindReadrsp, kindAtomic, kindCadd, kindAppend, kindBlock] at h ⊢
      omega
    unfold doKind
    split <;> simp_all [ackRefused]

/-! #### WRITE and READ -/

theorem portWrite_reached {va : Word} {bs : List Byte} {k : State → Performed} {l : List Nat}
    (h : s.reachEach (turnOf n ses) b.vf.isSome b.part b.ctx ((pieces va bs.length).map fun y => (y.1, .write)) = .ok s1 l) :
    s.portWrite n ses b va bs k = k (s1.putPieces (portWriter n b.part b.ctx) bs ((pieces va bs.length).zip l)) := by
  simp [State.portWrite, h]

theorem portWrite_bad {va : Word} {bs : List Byte} {k : State → Performed}
    (h : s.reachEach (turnOf n ses) b.vf.isSome b.part b.ctx ((pieces va bs.length).map fun y => (y.1, .write)) = .bad s1) :
    s.portWrite n ses b va bs k = .ack s1 3 := by simp [State.portWrite, h, ackRefused]

theorem portWrite_held {va : Word} {bs : List Byte} {k : State → Performed}
    (h : s.reachEach (turnOf n ses) b.vf.isSome b.part b.ctx ((pieces va bs.length).map fun y => (y.1, .write)) = .held s1) :
    s.portWrite n ses b va bs k = .held s1 := by simp [State.portWrite, h]

theorem doWrite_good (ha : pk.arg = 0) (hl : pk.payload.length % 4 = 0) :
    doWrite n ses b pk s = s.portWrite n ses b pk.addr pk.payload fun s1 => .ack s1 0 := by simp [doWrite, ha, hl, ackOk]

section
variable (ha : pk.arg.toNat % 4 = 0) (hm : pk.arg.toNat ≤ 8192) (hp : pk.payload = [])
include ha hm hp

theorem doRead_bad (h : s.reachEach (turnOf n ses) b.vf.isSome b.part b.ctx ((pieces pk.addr pk.arg.toNat).map fun y => (y.1, .read)) = .bad s1) :
    doRead n ses b pk s = .ack s1 3 := by simp [doRead, ha, hp, maxPayload, Nat.not_lt.2 hm, h, ackRefused]

theorem doRead_held (h : s.reachEach (turnOf n ses) b.vf.isSome b.part b.ctx ((pieces pk.addr pk.arg.toNat).map fun y => (y.1, .read)) = .held s1) :
    doRead n ses b pk s = .held s1 := by simp [doRead, ha, hp, maxPayload, Nat.not_lt.2 hm, h]

variable {l : List Nat}
  (h : s.reachEach (turnOf n ses) b.vf.isSome b.part b.ctx ((pieces pk.addr pk.arg.toNat).map fun y => (y.1, .read)) = .ok s1 l)
include h

theorem doRead_lost (hl : s1.lostIn (l.zip ((pieces pk.addr pk.arg.toNat).map fun y => y.2.2)) = true) :
    doRead n ses b pk s = .ack (s1.assayIn (l.zip ((pieces pk.addr pk.arg.toNat).map fun y => y.2.2))) 3 := by
  simp [doRead, ha, hp, maxPayload, Nat.not_lt.2 hm, h, hl, ackRefused]

theorem doRead_answers (hl : s1.lostIn (l.zip ((pieces pk.addr pk.arg.toNat).map fun y => y.2.2)) = false) :
    let s2 := l.foldl (fun y pa => y.touchL2 pa b.ctx) s1
    doRead n ses b pk s = .rsp s2 (((pieces pk.addr pk.arg.toNat).zip l).flatMap fun y => s2.bytesAt y.2 y.1.2.2) := by
  simp [doRead, ha, hp, maxPayload, Nat.not_lt.2 hm, h, hl]
end

/-! #### ATOMIC -/

/-- Bytes of an ATOMIC's operand. -/
def atomicBytes (pk : Packet) : Nat := if bits pk.arg 1 0 = 3 then 4 else 8

/-- An ATOMIC is one of Table 21.4, at an aligned address. -/
structure GoodAtomic (pk : Packet) : Prop where
  high : pk.arg.toNat < 2 ^ 16
  reserved : bits pk.arg 11 2 = 0
  size : bits pk.arg 1 0 = 0 ∨ bits pk.arg 1 0 = 3
  aligned : pk.addr.toNat % atomicBytes pk = 0
  op : (atomicNew pk (8 * atomicBytes pk) 0).isSome = true

section
variable (hg : GoodAtomic pk)
include hg

/-- No check refuses an ATOMIC that is good. -/
theorem GoodAtomic.passes : (pk.arg.toNat / 2 ^ 16 != 0 || bits pk.arg 11 2 != 0 || (bits pk.arg 1 0 != 0 && bits pk.arg 1 0 != 3) ||
    pk.addr.toNat % atomicBytes pk != 0 || (atomicNew pk (8 * atomicBytes pk) 0).isNone) = false := by
  obtain ⟨high, reserved, size, aligned, op⟩ := hg
  have hnone : (atomicNew pk (8 * atomicBytes pk) 0).isNone = false := by rw [Option.isNone_eq_false_iff, op]
  have hhigh : pk.arg.toNat / 2 ^ 16 = 0 := Nat.div_eq_of_lt high
  rcases size with size | size <;> simp only [hhigh, reserved, size, aligned, hnone] <;> rfl

theorem doAtomic_bad {c : FaultCode} {va : Word} (h : s.reach (turnOf n ses) b.vf.isSome b.part b.ctx pk.addr .rmw = .bad s1 c va) :
    doAtomic n ses b pk s = .ack s1 3 := by
  unfold doAtomic
  exact (if_neg (Bool.eq_false_iff.1 hg.passes)).trans (by simp [h, ackRefused])

theorem doAtomic_held (h : s.reach (turnOf n ses) b.vf.isSome b.part b.ctx pk.addr .rmw = .held s1) :
    doAtomic n ses b pk s = .held s1 := by
  unfold doAtomic
  exact (if_neg (Bool.eq_false_iff.1 hg.passes)).trans (by simp [h])

variable {pa : Nat} (h : s.reach (turnOf n ses) b.vf.isSome b.part b.ctx pk.addr .rmw = .ok s1 pa)
include h

theorem doAtomic_lost (hl : s1.lostAt pa (atomicBytes pk) = true) : doAtomic n ses b pk s = .ack (s1.assayAt pa) 3 := by
  unfold doAtomic
  exact (if_neg (Bool.eq_false_iff.1 hg.passes)).trans (by simp_all [atomicBytes, ackRefused])

/-- The old value is answered; the new one is written, or the serving port's field drops its copy (R384, R533). -/
theorem doAtomic_answers {new : Option Nat} (hl : s1.lostAt pa (atomicBytes pk) = false)
    (hnew : atomicNew pk (8 * atomicBytes pk) (s1.valAt pa (atomicBytes pk)) = some new) :
    let m := s.servingPort b.part
    let s2 := s1.touchL2 pa b.ctx
    doAtomic n ses b pk s = .rsp (((new.map fun v => s2.homeWrite (portWriter m b.part b.ctx) pk.addr pa (bytesOf (atomicBytes pk) v)).getD
      (s2.dropRdc (fieldOfPort m) pk.addr b.ctx)).flashRdc (fieldOfPort m)) (bytesOf 8 (s1.valAt pa (atomicBytes pk))) := by
  unfold doAtomic
  refine (if_neg (Bool.eq_false_iff.1 hg.passes)).trans ?_
  cases new <;> simp_all [atomicBytes]
end

/-! #### CADD -/

theorem doCadd_window (h : inWindow pk.addr = true) : doCadd n ses b pk s = .ack s 3 := by simp [doCadd, h, ackRefused]

section
variable (hp : pk.payload = []) (ha : bits pk.addr 2 0 = 0) (hw : inWindow pk.addr = false)
include hp ha hw

theorem doCadd_bad {c : FaultCode} {va : Word} (h : s.reach (turnOf n ses) b.vf.isSome b.part b.ctx pk.addr .rmw = .bad s1 c va) :
    doCadd n ses b pk s = .ack s1 3 := by simp [doCadd, hp, ha, hw, h, ackRefused]

theorem doCadd_held (h : s.reach (turnOf n ses) b.vf.isSome b.part b.ctx pk.addr .rmw = .held s1) :
    doCadd n ses b pk s = .held s1 := by simp [doCadd, hp, ha, hw, h]

variable {pa : Nat} (h : s.reach (turnOf n ses) b.vf.isSome b.part b.ctx pk.addr .rmw = .ok s1 pa)
include h

theorem doCadd_lost (hl : s1.lostAt pa 8 = true) : doCadd n ses b pk s = .ack (s1.assayAt pa) 3 := by
  simp [doCadd, hp, ha, hw, h, hl, ackRefused]

theorem doCadd_adds (hl : s1.lostAt pa 8 = false) :
    doCadd n ses b pk s = .ack ((s1.dropRdc (fieldOfPort n) pk.addr b.ctx).addAt b.ctx pa pk.arg) 0 := by
  simp [doCadd, hp, ha, hw, h, hl, ackOk, State.portAdd]
end

/-! #### APPEND (R534) -/

section
variable {v : Nat} {p : Partition} (hv : b.vf = some v) (hp : tget s.parts b.part = some p) (ha : pk.arg.toNat < 8)
  (hl : pk.payload.length = 64) (hq : bits pk.arg 2 0 < s.vfQueues p v) {dp hd tp : Nat} {s2 : State}
  (h1 : s.reachEach (turnOf n ses) true b.part b.ctx
    [(s.qdesc p v (bits pk.arg 2 0), .read), (s.qdesc p v (bits pk.arg 2 0) + 0x18, .read)] = .ok s1 [dp, hd])
  (hd1 : s1.lostIn [(dp, 24), (hd, 8)] = false)
  (h2 : s1.reachEach (turnOf n ses) true b.part b.ctx [(s1.dwAt (dp + 0x10), .rmw)] = .ok s2 [tp])
include ha hl hq in
/-- No check refuses the packet. -/
theorem append_passes : (pk.arg.toNat / 8 != 0 || pk.payload.length != 64 || decide (s.vfQueues p v ≤ bits pk.arg 2 0)) = false := by
  simp [ha, hl, hq]

include hv hp ha hl hq h1 hd1 h2

theorem doAppend_lost (hx : s2.lostAt tp 8 = true) : doAppend n ses b pk s = .ack (s2.assayAt tp) 3 := by
  simp only [doAppend, hv, hp, append_passes ha hl hq, h1, hd1, h2, hx, ackRefused, Bool.false_eq_true, if_false, if_true,
    List.getElem?_cons_zero, List.getElem?_cons_succ, Option.getD_some]

variable (hx : s2.lostAt tp 8 = false)
include hx

theorem doAppend_full (hf : bits (s1.dwAt (dp + 8)) 16 0 ≤ (s2.dwAt tp - s1.dwAt hd).toNat) : doAppend n ses b pk s = .ack s2 1 := by
  simp only [doAppend, hv, hp, append_passes ha hl hq, h1, hd1, h2, hx, hf, ackBusy, Bool.false_eq_true, if_false, if_true,
    List.getElem?_cons_zero, List.getElem?_cons_succ, Option.getD_some]

theorem doAppend_writes (hf : (s2.dwAt tp - s1.dwAt hd).toNat < bits (s1.dwAt (dp + 8)) 16 0) {s3 : State} {sp : Nat} :
    let va := s2.dwAt dp + BitVec.ofNat 64 (64 * ((s2.dwAt tp).toNat % bits (s1.dwAt (dp + 8)) 16 0))
    s2.reachEach (turnOf n ses) true b.part b.ctx [(va, .write)] = .ok s3 [sp] →
      doAppend n ses b pk s = .ack (((s3.homeWrite (portWriter n b.part b.ctx) va sp pk.payload).dropRdc (fieldOfPort n)
        (s1.dwAt (dp + 0x10)) b.ctx).addAt b.ctx tp 1) 0 := by
  intro va h3
  simp only [doAppend, hv, hp, append_passes ha hl hq, h1, hd1, h2, hx, Nat.not_le.2 hf, h3, va, ackOk, State.portAdd,
    Bool.false_eq_true, if_false, List.getElem?_cons_zero, List.getElem?_cons_succ, Option.getD_some]
end

/-! #### BLOCK (R538) -/

section
variable {bd : Binding} (hb : (s.port n).bind = some bd) (hl : pk.payload.length % 4 = 0)
include hb hl

theorem doBlock_full (hf : 256 ≤ (s.port n).blocks.length) (ha : pk.arg = 0 ∨ bit pk.arg 63 = true) : doBlock n ses b pk s = .ack s 1 := by
  rcases ha with ha | ha <;> simp [doBlock, hb, hl, ha, blockQueueSize, hf, ackBusy]

variable (hf : (s.port n).blocks.length < 256)
include hf

theorem doBlock_plain (ha : pk.arg = 0) :
    doBlock n ses b pk s = s.portWrite n ses b pk.addr pk.payload fun s1 => .ack s1 0 := by
  simp [doBlock, hb, hl, ha, blockQueueSize, Nat.not_le.2 hf, ackOk]

theorem doBlock_queues (ha : bit pk.arg 63 = true) {gp : Nat}
    (h : s.reachEach (turnOf n ses) false bd.part bd.ctx [(bd.garr, .rmw)] = .ok s1 [gp]) (hx : s1.lostAt gp 8 = false) :
    doBlock n ses b pk s = s1.portWrite n ses b pk.addr pk.payload fun s2 =>
      .ack (((s2.modPort n fun y => { y with blocks := y.blocks ++ [pk.arg] }).dropRdc (fieldOfPort n) bd.garr bd.ctx).addAt bd.ctx gp 1) 0 := by
  have hne : ¬ pk.arg = 0#64 := by
    intro h0
    simp [h0, bit] at ha
  simp [doBlock, hb, hl, ha, hne, blockQueueSize, Nat.not_le.2 hf, h, hx, ackOk, State.portAdd]
end
end

/-! ### The acts of packets -/

/-- Each act of a numbered packet is its arrival, for packets of the act's own kind. -/
theorem exec_numbered (s : State) (n : Nat) (pk : Packet) :
    ∀ e ∈ ([(.gibenWrite n pk, isKind pk 0x10), (.gibenRead n pk, isKind pk 0x11), (.readrsp n pk, isKind pk 0x12),
      (.gibenAtomic n pk, isKind pk 0x13), (.gibenCadd n pk, isKind pk 0x14), (.append n pk, isKind pk 0x15),
      (.gibenBlock n pk, isKind pk 0x16), (.bind n pk, isSub pk 1), (.unbind n pk, isSub pk 2), (.gibenAttest n pk, isSub pk 3),
      (.track n pk, isSub pk 4), (.collect n pk, isSub pk 5), (.pause n pk, isSub pk 6), (.release n pk, isSub pk 7),
      (.gibenUnassignedKind n pk, noKind pk)] : List (Instr × Bool)), exec e.1 s = s.numbered n pk e.2 :=
  List.forall_iff_forall_mem.1 ⟨rfl, rfl, rfl, rfl, rfl, rfl, rfl, rfl, rfl, rfl, rfl, rfl, rfl, rfl, rfl⟩

/-- Settles O52: the turn by `State.numbered`, whose packet it is by `performPacket_open`, and each kind by what its own accesses
come to. -/
theorem numberedPacketsArePerformedInTheirTurn : Obligations.numbered_packets_are_performed_in_their_turn := by
  unfold Obligations.numbered_packets_are_performed_in_their_turn
  intro s port pk ses kinds
  refine ⟨fun e he => ?_, fun x hx => ⟨advanceBy_good hx, advanceBy_bad hx⟩, fun n ses x => ?_⟩
  · rw [exec_numbered s port pk e he]
    refine ⟨numbered_off, fun ho hm => ⟨numbered_closed ho hm, fun x hx => ⟨numbered_below ho hm hx, numbered_again ho hm hx,
      numbered_ahead ho hm hx, fun hn hh => ⟨_, numbered_next ho hm hx hn hh⟩⟩⟩⟩
  · refine ⟨performPacket_moved, performPacket_nobody, fun b hm hb => ⟨performPacket_rejected hm hb, performPacket_paused hm hb,
      fun hbad hp => ?_⟩⟩
    rw [performPacket_serves hm hb hbad hp]
    intro i user w one
    refine ⟨fun hk ha hl => ?_, fun hk ha hmax hpl => ?_, doKind_readrsp, fun hk ha hz hsz hal hop => ?_, fun hk hw => ?_,
      fun hk hpl hal hw => ?_, fun v p hk hv hpt ha hl hq s1 dp hd s2 tp h1 hd1 h2 => ?_, fun bd hk hbd hl => ?_, doKind_unassigned⟩
    · rw [doKind_write hk, doWrite_good ha hl]
      exact ⟨fun _ _ => portWrite_reached, fun _ => portWrite_bad, fun _ => portWrite_held⟩
    · rw [doKind_read hk]
      exact ⟨fun _ _ h => ⟨doRead_lost ha hmax hpl h, doRead_answers ha hmax hpl h⟩, fun _ => doRead_bad ha hmax hpl,
        fun _ => doRead_held ha hmax hpl⟩
    · have hg : GoodAtomic pk := ⟨ha, hz, hsz, hal, hop⟩
      rw [doKind_atomic hk]
      exact ⟨fun _ _ h => doAtomic_lost hg h, fun _ _ _ h hl hnew => doAtomic_answers hg h hl hnew, fun _ _ _ => doAtomic_bad hg,
        fun _ => doAtomic_held hg⟩
    · rw [doKind_cadd hk, doCadd_window hw]
    · rw [doKind_cadd hk]
      exact ⟨fun _ _ => doCadd_lost hpl hal hw, fun _ _ => doCadd_adds hpl hal hw, fun _ _ _ => doCadd_bad hpl hal hw,
        fun _ => doCadd_held hpl hal hw⟩
    · rw [doKind_append hk]
      exact ⟨doAppend_lost hv hpt ha hl hq h1 hd1 h2, doAppend_full hv hpt ha hl hq h1 hd1 h2,
        fun hx hf _ _ => doAppend_writes hv hpt ha hl hq h1 hd1 h2 hx hf⟩
    · rw [doKind_block hk]
      exact ⟨doBlock_full hbd hl, doBlock_plain hbd hl, fun hf ha _ _ => doBlock_queues hbd hl hf ha⟩

end Sys2Proof.Machine
end

section
/-! PROOFS. Records at launch: what a write to memory leaves below it, and the strand that a launch makes (R28, R49, R164, R269). -/

namespace Sys2Proof.Machine

-- Proofs are elaborated one after another, as the tests are: the whole text has to fit the check's memory.
set_option Elab.async false

/-! ### Bytes below a write -/

/-- Bytes below every cell read 0. -/
theorem Mem.run_far {l : Mem} {x n : Nat} (h : ∀ c ∈ l.head?, x + n ≤ c.1) : Mem.run l x n = List.replicate n 0 := by
  induction n generalizing x with
  | zero => cases l <;> rfl
  | succ n ih =>
    rw [Mem.run_of_above fun c hc => Nat.lt_of_lt_of_le (by omega) (h c hc), ih fun c hc => by have := h c hc; omega, List.replicate_succ]

theorem Mem.from_below_append_of_le {a b : Nat} (hb : b ≤ a) (m : Mem) {r : Mem} (h : ∀ c ∈ r.head?, a ≤ c.1) :
    Mem.from (Mem.below m a ++ r) b = Mem.below (Mem.from m b) a ++ r := by
  have hr : Mem.from r b = r := Mem.from_of_head fun c hc => le_trans hb (h c hc)
  induction m with
  | nil => exact hr
  | cons c t ih =>
    obtain ⟨i, y⟩ := c
    by_cases hi : i < b
    · simpa [Mem.below, Mem.from, hi, lt_of_lt_of_le hi hb] using ih
    · by_cases hia : i < a
      · simp [Mem.below, Mem.from, hi, hia]
      · simpa [Mem.below, Mem.from, hi, hia] using hr

theorem Mem.run_below_append {a x n : Nat} (hx : x + n ≤ a) (l : Mem) {r : Mem} (h : ∀ c ∈ r.head?, a ≤ c.1) :
    Mem.run (Mem.below l a ++ r) x n = Mem.run l x n := by
  induction n generalizing x l with
  | zero => cases l <;> cases (Mem.below _ a ++ r) <;> rfl
  | succ n ih =>
    cases l with
    | nil => rw [Mem.run_far (l := []) (by simp)]; exact Mem.run_far fun c hc => le_trans hx (h c hc)
    | cons c t =>
      obtain ⟨i, y⟩ := c
      by_cases hi : i < a
      · have hmatch := ih (x := x + 1) (by omega) t
        have hskip := ih (x := x + 1) (by omega) ((i, y) :: t)
        by_cases hix : i = x
        · simpa [Mem.below, Mem.run, hi, hix, hix ▸ hi] using hmatch
        · simpa [Mem.below, Mem.run, hi, hix] using hskip
      · rw [Mem.run_far (l := (i, y) :: t) (by simp; omega)]
        simpa [Mem.below, hi] using Mem.run_far fun c hc => le_trans hx (h c hc)

/-- A write changes no byte below it, in whatever memory. -/
theorem Mem.bytes_write_below (m : Mem) {a b n : Nat} (bs : List Byte) (h : b + n ≤ a) : Mem.bytes (Mem.write m a bs) b n = Mem.bytes m b n := by
  have hrest := Mem.head_cells_append (bs := bs) (Mem.from_head m (a + bs.length))
  rw [Mem.bytes, Mem.write, List.append_assoc, Mem.from_below_append_of_le (by omega) m hrest, Mem.run_below_append h _ hrest, Mem.bytes]

theorem putDw_dwAt_same (s : State) (pa : Nat) (w : Word) : (s.putDw pa w).dwAt pa = w := dwAt_of_write rfl

theorem putDw_dwAt_below (s : State) {pa b : Nat} (w : Word) (h : b + 8 ≤ pa) : (s.putDw pa w).dwAt b = s.dwAt b :=
  congrArg wordOfBytes (Mem.bytes_write_below s.mem _ h)

theorem putDws_dwAt_below (s : State) {pa b : Nat} (l : List Word) (h : b + 8 ≤ pa) : (s.putDws pa l).dwAt b = s.dwAt b := by
  induction l generalizing s pa with
  | nil => rfl
  | cons w l ih => rw [State.putDws, ih _ (by omega), putDw_dwAt_below _ _ h]

/-! ### Records -/

/-- Dwords written change no table of the state. -/
theorem putDws_frame (s : State) (pa : Nat) (l : List Word) :
    (s.putDws pa l).strands = s.strands ∧ (s.putDws pa l).parts = s.parts ∧ (s.putDws pa l).nextUid = s.nextUid := by
  induction l generalizing s pa with
  | nil => exact ⟨rfl, rfl, rfl⟩
  | cons w l ih => exact ih _ _

theorem writeRecord_frame (s : State) (u : Nat) :
    (s.writeRecord u).strands = s.strands ∧ (s.writeRecord u).parts = s.parts ∧ (s.writeRecord u).nextUid = s.nextUid := by
  unfold State.writeRecord
  split
  · exact ⟨rfl, rfl, rfl⟩
  · split
    · exact ⟨rfl, rfl, rfl⟩
    · exact putDws_frame _ _ _

theorem recordPa_of_parts {s t : State} (h : t.parts = s.parts) (x : Strand) : t.recordPa x = s.recordPa x := by
  simp [State.recordPa, h]

/-- A record that has been written holds its STAT. -/
theorem statOf_writeRecord {s : State} {u : Nat} {t : Strand} (h : tget s.strands u = some t) : (s.writeRecord u).statOf t = t.stat := by
  have hpa := recordPa_of_parts (writeRecord_frame s u).2.1 t
  cases hr : s.recordPa t with
  | none => simp [State.statOf, hpa, hr]
  | some pa =>
    rw [statOf_at (hpa.trans hr)]
    simp only [State.writeRecord, h, hr, Strand.image, State.putDws]
    iterate 5 rw [putDw_dwAt_below _ _ (by omega)]
    exact putDw_dwAt_same _ _ _

theorem lclsNum_le (c : LCls) : LCls.num c ≤ 4 := by cases c <;> decide
theorem waitNum_le (w : WaitKind) : WaitKind.num w ≤ 9 := by cases w <;> decide
theorem fmodeNum_le (m : FMode) : FMode.num m ≤ 2 := by cases m <;> decide

/-- STAT holds PRIO (Table 1.3). -/
theorem packStat_prio {t : Strand} (h : t.prio < 8) : bits (packStat t) 16 14 = t.prio := by
  have hl := lclsNum_le t.latch.cls
  have hw := waitNum_le t.waitK
  have hf := fmodeNum_le t.fmode
  have hap : (if t.ap then 64 else 0) ≤ 64 := by split <;> decide
  simp only [bits, packStat, BitVec.toNat_ofNat]
  omega

theorem withPrio_same {t : Strand} {w : Word} (h : bits w 16 14 = t.prio) : t.withPrio w = t := if_pos h

theorem relink_nextUid (s : State) (l : List Nat) : (s.relink l).nextUid = s.nextUid := by
  induction l generalizing s with
  | nil => rfl
  | cons u l ih =>
    rw [State.relink, ih]
    split <;> rfl

theorem restat_nextUid (s : State) (u : Nat) : (s.restat u).nextUid = s.nextUid := by
  unfold State.restat
  split
  · rfl
  · split <;> rfl

theorem toReady_nextUid (s : State) (u tile : Nat) : (s.toReady u tile).nextUid = s.nextUid := by
  unfold State.toReady
  split
  · rfl
  · simp [relink_nextUid, restat_nextUid]

/-- A strand on a ready queue: its PRIO is that of its record (R269). -/
theorem toReady_record {s : State} {u : Nat} {t : Strand} (h : tget s.strands u = some t) (tile : Nat) :
    ∃ w, tget (s.toReady u tile).strands u =
      some { t.withPrio (s.statOf t) with place := .ready tile, since := s.time, aged := 0, stat := w } := by
  have hrest : ∀ (x : State) (z : Strand), ∃ w, tget ((x.setStrand u z).restat u).strands u = some { z with stat := w } :=
    fun x z => restat_strand (tget_tput_same _ _ _)
  unfold State.toReady
  simp only [h, State.postOnce_strands, relink_strands, State.modTile_strands]
  exact hrest _ _

/-- The strand of a launch as its record is written (R28). -/
def State.launched (s : State) (t : Strand) : Strand :=
  let t1 := { t with area := s.newRecord t.part, acq := .system }
  { t1 with stat := packStat t1 }

/-- A launch with its strand written down, its record not queued yet. -/
def State.launching (s : State) (t : Strand) : State :=
  (({ s with nextUid := s.nextUid + 1 } : State).setStrand s.nextUid (s.launched t)).writeRecord s.nextUid

theorem launchRecord_eq (s : State) (t : Strand) : s.launchRecord t = (s.launching t).toReady s.nextUid t.home := rfl

theorem launching_strand (s : State) (t : Strand) : tget (s.launching t).strands s.nextUid = some (s.launched t) := by
  rw [State.launching, (writeRecord_frame _ _).1]
  exact tget_tput_same _ _ _

theorem launching_statOf (s : State) (t : Strand) : (s.launching t).statOf (s.launched t) = (s.launched t).stat :=
  statOf_writeRecord (tget_tput_same _ _ _)

theorem launched_prio (s : State) {t : Strand} (hp : t.prio < 8) : bits (s.launched t).stat 16 14 = (s.launched t).prio := by
  rw [State.launched]
  exact packStat_prio (t := { t with area := s.newRecord t.part, acq := .system }) hp

/-- The strand that a launch makes stands on the ready queue of its tile, its first acquire at .system (R49, R164). -/
theorem launchRecord_strand (s : State) {t : Strand} (hp : t.prio < 8) :
    ∃ w since, tget (s.launchRecord t).strands s.nextUid =
      some { t with area := s.newRecord t.part, acq := .system, stat := w, place := .ready t.home, since := since, aged := 0 } := by
  obtain ⟨w, hw⟩ := toReady_record (launching_strand s t) t.home
  rw [launching_statOf, withPrio_same (launched_prio s hp)] at hw
  rw [State.launched] at hw
  exact ⟨w, _, hw⟩

theorem launchRecord_nextUid (s : State) (t : Strand) : (s.launchRecord t).nextUid = s.nextUid + 1 := by
  rw [launchRecord_eq, toReady_nextUid, State.launching, (writeRecord_frame _ _).2.2]
  rfl

end Sys2Proof.Machine
end

section
/-! PROOFS. Task queues and tasks: headers read, launches, the end of grids and of tasks, rollback (R164, R184, R491 to R496, R502). -/

namespace Sys2Proof.Machine

-- Proofs are elaborated one after another, as the tests are: the whole text has to fit the check's memory.
set_option Elab.async false

/-! ### A header that has been read (R492) -/

/-- A header put on its queue's list, and the launch due. -/
def State.listHeader (s : State) (part vf q : Nat) (r : ReadHeader) : State :=
  (s.modTaskQueue part vf q fun y => { y with headers := y.headers ++ [r] }).postOnce (.taskLaunch part)

section
variable {s : State} {part vf ctx slot dp : Nat} {q : Fin 8} {addr : Word} {h : Header} {p : Partition}

theorem headerRead_reserved {w : Word} (hw : s.queueReserved p vf dp = some w) :
    s.headerRead part vf q ctx slot addr dp h p = (s.endUnlaunched part vf ctx q slot addr h .illop w, true) := by
  simp [State.headerRead, hw]

variable (hw : s.queueReserved p vf dp = none)
include hw

theorem headerRead_faults {c : FaultCode} {v : Word} (hf : s.headerFault p h (s.dwAt (dp + 0x30) != 0) = some (c, v)) :
    s.headerRead part vf q ctx slot addr dp h p = (s.endUnlaunched part vf ctx q slot addr h c v, true) := by
  simp only [State.headerRead, hw, hf, Option.map_none, Option.none_or]

variable (hf : s.headerFault p h (s.dwAt (dp + 0x30) != 0) = none)
include hf

/-- The header as the queue's list holds it, with the value of its dependence counter. -/
def listing (s : State) (slot dp : Nat) (addr : Word) (h : Header) (seen : Option Word) : ReadHeader :=
  { qslot := slot, header := h, addr := addr, log := s.dwAt (dp + 0x30), logCap := (s.dwAt (dp + 0x38)).toNat / 144, depSeen := seen }

theorem headerRead_listed (hd : hDep h = 0) : s.headerRead part vf q ctx slot addr dp h p =
    (s.listHeader part vf q (listing s slot dp addr h none), true) := by
  simp only [State.headerRead, hw, hf, hd, Option.map_none, Option.none_or, if_true]
  rfl

variable (hd : hDep h ≠ 0) {s1 : State}
include hd

theorem headerRead_counted {pa : Nat} (hr : s.reach (.taskHeaderRead part vf q) false part ctx (hDep h) .read = .ok s1 pa) :
    s.headerRead part vf q ctx slot addr dp h p =
      ((s1.touchL2 pa ctx).listHeader part vf q (listing s slot dp addr h (if s1.lostAt pa 8 then none else some (s1.dwAt pa))), true) := by
  simp only [State.headerRead, hw, hf, hd, Option.map_none, Option.none_or, if_false, Fin.ofNat_val_eq_self, hr]
  rfl

theorem headerRead_held (hr : s.reach (.taskHeaderRead part vf q) false part ctx (hDep h) .read = .held s1) :
    s.headerRead part vf q ctx slot addr dp h p = (s1, false) := by
  simp only [State.headerRead, hw, hf, hd, Option.map_none, Option.none_or, if_false, Fin.ofNat_val_eq_self, hr]

theorem headerRead_uncounted {c : FaultCode} {v : Word}
    (hr : s.reach (.taskHeaderRead part vf q) false part ctx (hDep h) .read = .bad s1 c v) :
    s.headerRead part vf q ctx slot addr dp h p = (s1.listHeader part vf q (listing s slot dp addr h none), true) := by
  simp only [State.headerRead, hw, hf, hd, Option.map_none, Option.none_or, if_false, Fin.ofNat_val_eq_self, hr]
  rfl
end

/-! ### TASK_HEADER_READ (R492) -/

/-- The queue exists, and its descriptor and HEAD have their places, `dp` and `hp`. -/
structure QueueReached (s : State) (part vf : Nat) (q : Fin 8) (p : Partition) (s1 : State) (dp hp : Nat) : Prop where
  active : tget s.parts part = some p
  valid : s.vfValid p vf = true
  queue : q.val < s.vfQueues p vf
  places : s.reachAll (.taskHeaderRead part vf q) part (s.vfCtx p vf)
    [(s.qdesc p vf q.val, .read), (s.qdesc p vf q.val + 0x18, .write)] = (s1, some [some dp, some hp])

/-- The descriptor holds, TAIL has been read, and it covers HEAD. -/
structure HeaderDue (s : State) (part vf : Nat) (q : Fin 8) (p : Partition) (s1 : State) (dp hp : Nat) (s2 : State) : Prop
    extends QueueReached s part vf q p s1 dp hp where
  whole : s1.lostAt dp 64 = false
  tail : s1.readTail (.taskHeaderRead part vf q) part vf q.val (s.vfCtx p vf) (s1.dwAt (dp + 0x10)) = (s2, true)
  covers : ¬ (((tget s2.parts part).map fun (x : Partition) => (x.queue vf q.val).tailSeen).getD 0).toNat ≤ (s2.dwAt hp).toNat

/-- The slot of the header at HEAD, and its address. -/
def headerSlot (s : State) (dp hp : Nat) : Nat := (s.dwAt hp).toNat % bits (s.dwAt (dp + 8)) 16 0
def headerAddr (s : State) (dp hp : Nat) : Word := s.dwAt dp + BitVec.ofNat 64 (64 * headerSlot s dp hp)

/-- HEAD moved past the header at `head`, and the queue's turn again. -/
def State.headPast (s : State) (i : Instr) (ctx hp : Nat) (head : Word) : State :=
  (s.putReach ctx (some (some hp)) (bytesOf 8 (head + 1).toNat)).postOnce i

section
variable {s s1 s2 s3 s4 : State} {part vf dp hp sp : Nat} {q : Fin 8} {p : Partition}

theorem QueueReached.passes (h : QueueReached s part vf q p s1 dp hp) :
    (!s.vfValid p vf || decide (s.vfQueues p vf ≤ q.val)) = false := by simp [h.valid, h.queue]

theorem exec_header_lostQueue (h : QueueReached s part vf q p s1 dp hp) (hl : s1.lostAt dp 64 = true) :
    exec (.taskHeaderRead part vf q) s = .next (s1.assayAt dp) := by
  change execTaskHeaderRead part vf q s = _
  simp only [execTaskHeaderRead, h.active, h.passes, h.places, hl, Bool.false_eq_true, if_false, if_true]

theorem exec_header_tailHeld (h : QueueReached s part vf q p s1 dp hp) (hl : s1.lostAt dp 64 = false)
    (ht : s1.readTail (.taskHeaderRead part vf q) part vf q.val (s.vfCtx p vf) (s1.dwAt (dp + 0x10)) = (s2, false)) :
    exec (.taskHeaderRead part vf q) s = .next s2 := by
  change execTaskHeaderRead part vf q s = _
  simp only [execTaskHeaderRead, h.active, h.passes, h.places, hl, ht, Bool.false_eq_true, if_false]

theorem exec_header_none (h : QueueReached s part vf q p s1 dp hp) (hl : s1.lostAt dp 64 = false)
    (ht : s1.readTail (.taskHeaderRead part vf q) part vf q.val (s.vfCtx p vf) (s1.dwAt (dp + 0x10)) = (s2, true))
    {p2 : Partition} (hp2 : tget s2.parts part = some p2) (hc : (p2.queue vf q.val).tailSeen.toNat ≤ (s2.dwAt hp).toNat) :
    exec (.taskHeaderRead part vf q) s = .next s2 := by
  change execTaskHeaderRead part vf q s = _
  simp only [execTaskHeaderRead, h.active, h.passes, h.places, hl, ht, hp2, hc, Bool.false_eq_true, if_false, if_true, Option.map_some,
    Option.getD_some]

variable (h : HeaderDue s part vf q p s1 dp hp s2)
include h

theorem exec_header_held
    (hx : s2.reach (.taskHeaderRead part vf q) false part (s.vfCtx p vf) (headerAddr s2 dp hp) .read = .held s3) :
    exec (.taskHeaderRead part vf q) s = .next s3 := by
  change execTaskHeaderRead part vf q s = _
  rw [headerAddr, headerSlot] at hx
  simp only [execTaskHeaderRead, h.active, h.passes, h.places, h.whole, h.tail, h.covers, hx, Bool.false_eq_true, if_false]

theorem exec_header_bad {c : FaultCode} {v : Word}
    (hx : s2.reach (.taskHeaderRead part vf q) false part (s.vfCtx p vf) (headerAddr s2 dp hp) .read = .bad s3 c v) :
    exec (.taskHeaderRead part vf q) s = .next ((s3.endUnlaunched part vf (s.vfCtx p vf) q.val (headerSlot s2 dp hp) (headerAddr s2 dp hp)
      (Vector.replicate 8 0) c v).headPast (.taskHeaderRead part vf q) (s.vfCtx p vf) hp (s2.dwAt hp)) := by
  change execTaskHeaderRead part vf q s = _
  rw [headerAddr, headerSlot] at hx
  simp only [execTaskHeaderRead, h.active, h.passes, h.places, h.whole, h.tail, h.covers, hx, Bool.false_eq_true, if_false]
  rfl

variable (hx : s2.reach (.taskHeaderRead part vf q) false part (s.vfCtx p vf) (headerAddr s2 dp hp) .read = .ok s3 sp)
include hx

theorem exec_header_lost (hs : s3.lostAt sp 64 = true) :
    exec (.taskHeaderRead part vf q) s = .next (((s3.assayAt sp).endUnlaunched part vf (s.vfCtx p vf) q.val (headerSlot s2 dp hp)
      (headerAddr s2 dp hp) (Vector.replicate 8 0) .uncorr (headerAddr s2 dp hp)).headPast (.taskHeaderRead part vf q) (s.vfCtx p vf) hp
        (s2.dwAt hp)) := by
  change execTaskHeaderRead part vf q s = _
  rw [headerAddr, headerSlot] at hx
  simp only [execTaskHeaderRead, h.active, h.passes, h.places, h.whole, h.tail, h.covers, hx, hs, Bool.false_eq_true, if_false, if_true]
  rfl

variable (hs : s3.lostAt sp 64 = false)
include hs

theorem exec_header_read (hh : (s3.touchL2 sp (s.vfCtx p vf)).headerRead part vf q.val (s.vfCtx p vf) (headerSlot s2 dp hp)
      (headerAddr s2 dp hp) dp (headerOf (s3.bytesAt sp 64)) p = (s4, true)) :
    exec (.taskHeaderRead part vf q) s = .next (s4.headPast (.taskHeaderRead part vf q) (s.vfCtx p vf) hp (s2.dwAt hp)) := by
  change execTaskHeaderRead part vf q s = _
  rw [headerAddr, headerSlot] at hx hh
  simp only [execTaskHeaderRead, h.active, h.passes, h.places, h.whole, h.tail, h.covers, hx, hs, hh, Bool.false_eq_true, if_false]
  rfl

theorem exec_header_depHeld (hh : (s3.touchL2 sp (s.vfCtx p vf)).headerRead part vf q.val (s.vfCtx p vf) (headerSlot s2 dp hp)
      (headerAddr s2 dp hp) dp (headerOf (s3.bytesAt sp 64)) p = (s4, false)) : exec (.taskHeaderRead part vf q) s = .next s4 := by
  change execTaskHeaderRead part vf q s = _
  rw [headerAddr, headerSlot] at hx hh
  simp only [execTaskHeaderRead, h.active, h.passes, h.places, h.whole, h.tail, h.covers, hx, hs, hh, Bool.false_eq_true, if_false]
end

/-- A new task has the partition's next sequence number (R494). -/
theorem newTask_task {s : State} {part : Nat} {p : Partition} (hp : tget s.parts part = some p) (mk : BitVec 32 → Task) :
    tget (s.newTask part mk).1.tasks s.nextUid = some (mk p.nextSeq) := by
  simp only [State.newTask, hp]
  exact tget_tput_same _ _ _

/-- The task of a header that a check refuses. -/
def unlaunched (part vf ctx q slot : Nat) (addr : Word) (h : Header) (c : FaultCode) (v time : Word) (seq : BitVec 32) : Task :=
  { part := part, vf := vf, ctx := ctx, queue := q, qslot := slot, seq := seq, addr := addr, header := h, next := BitVec.ofNat 32 (hN h),
    fault := some #v[causeOf c false, v, 0, 0, seq ++ (0 : BitVec 32), 0, time], stopping := true }

theorem endUnlaunched_eq (s : State) (part vf ctx q slot : Nat) (addr : Word) (h : Header) (c : FaultCode) (v : Word) :
    s.endUnlaunched part vf ctx q slot addr h c v =
      (s.newTask part (unlaunched part vf ctx q slot addr h c v (BitVec.ofNat 64 s.time))).1.postOnce (.taskCompletion s.nextUid) := rfl

/-- A task that a check ends: no strand of it, its fault, and its completion due (R492, R494). -/
theorem endUnlaunched_ends {s : State} {part : Nat} {p : Partition} (hp : tget s.parts part = some p) (vf q ctx slot : Nat) (addr : Word)
    (h : Header) (c : FaultCode) (v : Word) :
    let t := s.endUnlaunched part vf ctx q slot addr h c v
    t.strands = s.strands ∧ .event (.taskCompletion s.nextUid) ∈ t.agenda ∧
      ∃ x r, tget t.tasks s.nextUid = some x ∧ x.fault = some r ∧ r[0] = causeOf c false ∧ r[1] = v ∧ x.stopping = true ∧ x.seq = p.nextSeq := by
  dsimp only
  rw [endUnlaunched_eq, State.postOnce_strands, State.postOnce_tasks, newTask_task hp]
  exact ⟨rfl, State.mem_postOnce _ _, _, _, rfl, rfl, rfl, rfl, rfl, rfl⟩

/-! ### Launch (R493, R494) -/

/-- Virtual functions that no PAUSE has begun on have no turn in it. -/
theorem pauseTurns_idle {s : State} {part : Nat} {p : Partition} (h : ∀ e ∈ p.vfs, e.2.pause = 0) : s.pauseTurns part p = s := by
  unfold State.pauseTurns
  generalize p.vfs = vfs at h
  induction vfs with
  | nil => rfl
  | cons e l ih =>
    obtain ⟨v, f⟩ := e
    obtain ⟨hf, hl⟩ := List.forall_mem_cons.1 h
    simp only at hf
    simp only [List.foldl_cons, hf]
    exact ih hl

theorem exec_launch {s : State} {part v j : Nat} {p : Partition} {r : ReadHeader} {l : List ReadHeader} (hp : tget s.parts part = some p)
    (hh : p.halt = none) (hc : p.closing = false) (hv : ∀ e ∈ p.vfs, e.2.pause = 0) (hn : nextQueue p (s.launchable p) = some (v, j))
    (hq : (p.queue v j).headers = r :: l) :
    exec (.taskLaunch part) s = .next ((s.launchHead part p v j r).postOnce (.taskLaunch part)) := by
  change execTaskLaunch part s = _
  simp [execTaskLaunch, hp, pauseTurns_idle hv, hh, hc, hn, hq]

/-! ### The end of a grid (R184) -/

/-- The slots of a grid issue nothing more. -/
def State.stopSlots (s : State) (task : Nat) : State := (s.slotsOfTask task).foldl (fun x e => x.stopIssue e.1) s

section
variable {s : State} {task : Nat} {ta : Task} {p : Partition} (ht : tget s.tasks task = some ta) (hp : tget s.parts ta.part = some p)
  (hh : p.halt = none) (hs : ta.stopping = false) (hf : ta.fault.isSome = true)
include ht hp hh hs hf

theorem exec_gridStop_waits (hb : ∃ e ∈ (s.stopSlots task).slotsOfTask task, (s.stopSlots task).atBoundary e.1 e.2 = false) :
    exec (.gridStop task) s = .next (if (s.slotsOfTask task).any fun e => replyNow s.time e.2.lost = .waits
      then (s.stopSlots task).postAt (s.time + 1) (.gridStop task) else (s.stopSlots task).postOnce (.gridStop task)) := by
  have hany : (((s.stopSlots task).slotsOfTask task).any fun e => !(s.stopSlots task).atBoundary e.1 e.2) = true := by simpa using hb
  have hnone : ta.fault.isNone = false := by rwa [Option.isNone_eq_false_iff]
  change execGridStop task s = _
  simp only [execGridStop, ht, hp, hh, hs, hnone, Option.isSome_none, Bool.or_self, Bool.false_eq_true, if_false]
  exact if_pos hany

theorem exec_gridStop_ends (hb : ∀ e ∈ (s.stopSlots task).slotsOfTask task, (s.stopSlots task).atBoundary e.1 e.2 = true) :
    let s1 := s.stopSlots task
    let s2 := ((s1.strands.filter fun e => e.2.task = task).map (·.1)).foldl State.stopStrand s1
    exec (.gridStop task) s =
      .next ((((s2.dropCopies task).dropScrubs task).modTask task fun x => { x with stopping := true }).postOnce (.taskCompletion task)) := by
  have hany : (((s.stopSlots task).slotsOfTask task).any fun e => !(s.stopSlots task).atBoundary e.1 e.2) = false :=
    List.any_eq_false.2 fun e he => by simp [hb e he]
  have hnone : ta.fault.isNone = false := by rwa [Option.isNone_eq_false_iff]
  change execGridStop task s = _
  simp only [execGridStop, ht, hp, hh, hs, hnone, Option.isSome_none, Bool.or_self, Bool.false_eq_true, if_false]
  exact if_neg (Bool.eq_false_iff.1 hany)
end

/-! ### The end of a task (R164, R495) -/

/-- Nothing is left of a task, and nothing of it is to be stopped or returned. -/
structure Finished (s : State) (task : Nat) (ta : Task) : Prop where
  strands : ∀ e ∈ s.strands, e.2.task ≠ task
  commands : s.commandsLeft task = false
  stopped : ta.fault = none ∨ ta.stopping = true
  returned : s.returnsDue = false

theorem Finished.passes {s : State} {task : Nat} {ta : Task} (h : Finished s task ta) :
    (!s.taskEmpty task || s.commandsLeft task || (ta.fault.isSome && !ta.stopping)) = false := by
  have hempty : s.taskEmpty task = true := List.all_eq_true.2 fun e he => by simpa using h.strands e he
  rcases h.stopped with hf | hf <;> simp [hempty, h.commands, hf]

/-- The status word and the fault record written at their places. -/
def State.reported (s : State) (ta : Task) (places : List (Option Nat)) : State :=
  let s1 := s.putReach ta.ctx places[0]? (bytesOf 8 ta.status.toNat)
  match ta.faultRecord with
  | some bs => s1.putReach ta.ctx places[1]? bs
  | none => s1

section
variable {s : State} {task : Nat} {ta : Task} {p : Partition} (ht : tget s.tasks task = some ta) (hp : tget s.parts ta.part = some p)
  (hf : Finished s task ta)
include ht hp hf

theorem exec_completion_rollsBack (hr : ta.rollsBack = true) : exec (.taskCompletion task) s = .next (s.postOnce (.rollback task)) := by
  change execTaskCompletion task s = _
  simp only [execTaskCompletion, ht, hp, hf.passes, hf.returned, hr, Bool.false_eq_true, if_false, if_true]

variable (hr : ta.rollsBack = false) {s1 : State}
include hr

theorem exec_completion_placesHeld (h1 : s.reportPlaces (.taskCompletion task) p ta = (s1, none)) :
    exec (.taskCompletion task) s = .next s1 := by
  change execTaskCompletion task s = _
  simp only [execTaskCompletion, ht, hp, hf.passes, hf.returned, hr, h1, Bool.false_eq_true, if_false]

variable {report : Option (Word × Word)} (h1 : s.reportPlaces (.taskCompletion task) p ta = (s1, some report)) {s2 : State}
include h1

theorem exec_completion_reportHeld (h2 : s1.reachAll (.taskCompletion task) ta.part ta.ctx (ta.reports report) = (s2, none)) :
    exec (.taskCompletion task) s = .next s2 := by
  change execTaskCompletion task s = _
  simp only [execTaskCompletion, ht, hp, hf.passes, hf.returned, hr, h1, h2, Bool.false_eq_true, if_false]

variable {places : List (Option Nat)}
  (h2 : s1.reachAll (.taskCompletion task) ta.part ta.ctx (ta.reports report) = (s2, some places))
include h2

/-- A task that names no DONE counter. -/
theorem exec_completion_plain (hd : ¬ (hDone ta.header ≠ 0 ∧ ctrBad (hDone ta.header) = false)) :
    exec (.taskCompletion task) s = .next ((s2.reported ta places).taskGone task ta) := by
  have hc : (hDone ta.header = 0 || ctrBad (hDone ta.header)) = true := by
    by_cases h0 : hDone ta.header = 0 <;> simp_all
  change execTaskCompletion task s = _
  simp only [execTaskCompletion, ht, hp, hf.passes, hf.returned, hr, h1, h2, hc, State.reachAll, Bool.false_eq_true, if_false, if_true]
  rfl

variable (hd : hDone ta.header ≠ 0 ∧ ctrBad (hDone ta.header) = false) {s3 : State}
include hd

theorem exec_completion_doneHeld (h3 : s2.reachAll (.taskCompletion task) ta.part ta.ctx [(hDone ta.header, .rmw)] = (s3, none)) :
    exec (.taskCompletion task) s = .next s3 := by
  change execTaskCompletion task s = _
  simp only [execTaskCompletion, ht, hp, hf.passes, hf.returned, hr, h1, h2, hd, h3, decide_false, Bool.or_self, Bool.false_eq_true, if_false]

/-- A DONE counter that has no place gets nothing. -/
theorem exec_completion_doneBad (h3 : s2.reachAll (.taskCompletion task) ta.part ta.ctx [(hDone ta.header, .rmw)] = (s3, some [none])) :
    exec (.taskCompletion task) s = .next ((s3.reported ta places).taskGone task ta) := by
  change execTaskCompletion task s = _
  simp only [execTaskCompletion, ht, hp, hf.passes, hf.returned, hr, h1, h2, hd, h3, decide_false, Bool.or_self, Bool.false_eq_true, if_false]
  rfl

theorem exec_completion_counts {pa : Nat}
    (h3 : s2.reachAll (.taskCompletion task) ta.part ta.ctx [(hDone ta.header, .rmw)] = (s3, some [some pa])) :
    exec (.taskCompletion task) s = .next (((s3.reported ta places).sendAdd
      { pa := pa, val := hDonev ta.header, ctx := ta.ctx, owner := some (ta.part, ta.vf) }).taskGone task ta) := by
  change execTaskCompletion task s = _
  simp only [execTaskCompletion, ht, hp, hf.passes, hf.returned, hr, h1, h2, hd, h3, decide_false, Bool.or_self, Bool.false_eq_true, if_false]
  rfl
end

/-! ### Rollback (R502) -/

/-- A task as it runs again. -/
def Task.again (ta : Task) : Task :=
  { ta with relaunched := true, fault := none, fcount := 0, stopping := false, logged := [], next := BitVec.ofNat 32 (hN ta.header) }

section
variable {s : State} {task : Nat} {ta : Task} {p : Partition} (ht : tget s.tasks task = some ta) (hp : tget s.parts ta.part = some p)
  (hh : p.halt = none) (hr : ta.rollsBack = true) (hs : ta.stopping = true) {s1 : State}
include ht hp hh hr hs

theorem exec_rollback_held (h1 : s.restoreAll task ta p ta.logged.length = .held s1) : exec (.rollback task) s = .next s1 := by
  change execRollback task s = _
  simp only [execRollback, ht, hp, hh, hr, hs, h1, Bool.not_true, Option.isSome_none, Bool.or_self, Bool.false_eq_true, if_false]

theorem exec_rollback_lost {va : Word} (h1 : s.restoreAll task ta p ta.logged.length = .lost s1 va) : ∃ t, exec (.rollback task) s = .next t ∧
    ∃ x r, tget t.tasks task = some x ∧ x.fault = some r ∧ r[0] = causeOf .rollback false ∧ r[1] = va ∧
      .event (.taskCompletion task) ∈ t.agenda := by
  refine ⟨(s1.setTask task { ta with
    fault := some #v[causeOf .rollback false, va, 0, 0, taskIdOf ta 0, 0, BitVec.ofNat 64 s.time], logged := [] }).postOnce (.taskCompletion task),
    ?_, _, _, by rw [State.postOnce_tasks]; exact tget_tput_same _ _ _, rfl, rfl, rfl, State.mem_postOnce _ _⟩
  change execRollback task s = _
  simp only [execRollback, ht, hp, hh, hr, hs, h1, Bool.not_true, Option.isSome_none, Bool.or_self, Bool.false_eq_true, if_false]

variable (h1 : s.restoreAll task ta p ta.logged.length = .ok s1)
include h1

theorem exec_rollback_places (hc : s1.candidates p ta.header true ≠ [])
    (hroom : s1.roomFor ta.header (s1.candidates p ta.header true) true = true) : exec (.rollback task) s =
      .next ((s1.setTask task ta.again).placeStrands task ta.again (s1.candidates p ta.header true)) := by
  have hgo : ((s1.candidates p ta.header true).isEmpty || !s1.roomFor ta.header (s1.candidates p ta.header true) true) = false := by
    simp [hc, hroom]
  change execRollback task s = _
  simp only [execRollback, ht, hp, hh, hr, hs, h1, hgo, Bool.not_true, Option.isSome_none, Bool.or_self, Bool.false_eq_true, if_false]
  rfl

theorem exec_rollback_waits (hc : s1.candidates p ta.header true = [] ∨ s1.roomFor ta.header (s1.candidates p ta.header true) true = false) :
    exec (.rollback task) s = .next (s1.postAt (s1.time + 1) (.rollback task)) := by
  have hstay : ((s1.candidates p ta.header true).isEmpty || !s1.roomFor ta.header (s1.candidates p ta.header true) true) = true := by
    rcases hc with hc | hc <;> simp [hc]
  change execRollback task s = _
  simp only [execRollback, ht, hp, hh, hr, hs, h1, hstay, Bool.not_true, Option.isSome_none, Bool.or_self, Bool.false_eq_true, if_false, if_true]
end

/-- Settles O49: each act by the outcome of its exec, and the strand of a launch by `launchRecord_strand`. -/
theorem tasksAreReadLaunchedAndEnded : Obligations.tasks_are_read_launched_and_ended := by
  unfold Obligations.tasks_are_read_launched_and_ended
  intro s part vf task queue
  refine ⟨fun p s1 dp hp hpt hv hq => ?_, fun p v j r l hp hh hc hv hn hq => ⟨exec_launch hp hh hc hv hn hq, fun _ _ => rfl⟩, fun t ht => ?_,
    fun ta p ht hp hh hs hf => ?_, fun ta p ht hp hstr hcmd hst hret => ?_, fun ta p ht hp hh hr hs => ?_⟩
  · intro act ctx d hr
    have hq : QueueReached s part vf queue p s1 dp hp := ⟨hpt, hv, hq, hr⟩
    refine ⟨exec_header_lostQueue hq, fun hl => ⟨fun _ => exec_header_tailHeld hq hl, fun s2 p2 ht hp2 => ?_⟩,
      endUnlaunched_ends hpt vf queue.val⟩
    refine ⟨exec_header_none hq hl ht hp2, fun hc => ?_⟩
    have h : HeaderDue s part vf queue p s1 dp hp s2 := ⟨hq, hl, ht, by simpa [hp2] using hc⟩
    refine ⟨fun _ => exec_header_held h, fun _ _ _ => exec_header_bad h, fun _ _ => exec_header_lost h, fun s3 sp hx hs => ?_⟩
    have hread := fun s4 => exec_header_read h hx hs (s4 := s4)
    exact ⟨fun w hw => hread _ (headerRead_reserved hw), fun c v hw hf => hread _ (headerRead_faults hw hf),
      fun hw hf => ⟨fun hd => hread _ (headerRead_listed hw hf hd), fun hd => ⟨fun _ _ hr => hread _ (headerRead_counted hw hf hd hr),
        fun _ hr => exec_header_depHeld h hx hs (headerRead_held hw hf hd hr),
        fun _ _ _ hr => hread _ (headerRead_uncounted hw hf hd hr)⟩⟩⟩
  · obtain ⟨w, since, hw⟩ := launchRecord_strand s ht
    exact ⟨_, hw, rfl, rfl, rfl, rfl, rfl, rfl, rfl, rfl, launchRecord_nextUid s t⟩
  · refine ⟨fun hb => ⟨fun hnone => ?_, fun hsome => ?_⟩, exec_gridStop_ends ht hp hh hs hf⟩
    · rw [exec_gridStop_waits ht hp hh hs hf hb, if_neg (by simpa using hnone)]
      rfl
    · rw [exec_gridStop_waits ht hp hh hs hf hb, if_pos (by simpa using hsome)]
      rfl
  · have hfin : Finished s task ta := ⟨hstr, hcmd, hst, hret⟩
    refine ⟨exec_completion_rollsBack ht hp hfin, fun hr => ⟨fun _ => exec_completion_placesHeld ht hp hfin hr, fun s1 report h1 => ?_⟩⟩
    refine ⟨fun _ => exec_completion_reportHeld ht hp hfin hr h1, fun s2 places h2 => ?_⟩
    exact ⟨exec_completion_plain ht hp hfin hr h1 h2, fun hd => ⟨fun _ => exec_completion_doneHeld ht hp hfin hr h1 h2 hd,
      fun _ => exec_completion_doneBad ht hp hfin hr h1 h2 hd, fun _ _ => exec_completion_counts ht hp hfin hr h1 h2 hd⟩⟩
  · exact ⟨fun _ h1 => ⟨exec_rollback_places ht hp hh hr hs h1, exec_rollback_waits ht hp hh hr hs h1⟩,
      fun _ => exec_rollback_held ht hp hh hr hs, fun _ _ => exec_rollback_lost ht hp hh hr hs⟩

end Sys2Proof.Machine
end

section
/-! PROOFS. Taking a trap and returning from one (R35, R168, R177, R178). -/

namespace Sys2Proof.Machine

/-! ### Checks that an operation makes first -/

theorem faultIf_bind_passes {α : Type} {b : Bool} {c : FaultCode} {v : Word} {f : Unit → Res α} (hb : b = false) :
    (faultIf b c v >>= f) = f () := by
  subst hb
  rfl

theorem faultIf_bind_faults {α : Type} {b : Bool} {c : FaultCode} {v : Word} {f : Unit → Res α} (hb : b = true) :
    (faultIf b c v >>= f) = failWith c v := by
  subst hb
  rfl

/-- A word that places its strand itself and whose operation raises a fault while nothing of its slot is outstanding. -/
theorem runJump_faults {s : State} {i : Instr} {k : Ctl} {e : Env} {op : Op} {c : FaultCode} {v : Word} (h : Issues s i k e)
    (hc : e.cond = true) (hb : e.busy = false) (hop : op e s = failWith c v) :
    runJump i k op s = .next (s.raise e.k c v false false) := by
  rw [runJump_stops h hc hop, State.stopped, hb]
  rfl

/-! ### Taking a trap (R177) -/

/-- The header of the handler: TVEC[63:3] followed by zeros. -/
def Partition.handler (p : Partition) : Word := BitVec.ofNat 64 (p.tvec.toNat / 8 * 8)

/-- The handler stands in the half of TVEC (R168). -/
theorem handler_half (p : Partition) : bit p.handler 63 = bit p.tvec 63 := by
  simp only [bit, Partition.handler, BitVec.getLsbD_ofNat, show (8 : Nat) = 2 ^ 3 from rfl, Nat.testBit_mul_two_pow,
    Nat.testBit_div_two_pow]
  rfl

theorem pc_at_header {t : Strand} (h : t.widx = 0) : t.pc = t.hdr := by simp [Strand.pc, h]

section
variable {e : Env} {s : State}

/-- The strand before the window action: what the trap records of the word in CAUSE, TVAL and TPC. -/
def Env.trapped (e : Env) (cause : Word) : Strand := { e.st with cause := cause, tval := e.w, tpc := e.st.pc }

/-- Strand `t`, after the window action, at the header of the handler, with what the new window tells it. -/
def Env.inHandler (e : Env) (cause : Word) (t : Strand) : Strand :=
  { ((t.putPhys (physIdx t.cwp 13) cause).putPhys (physIdx t.cwp 14) e.st.hdr).putPhys (physIdx t.cwp 15) e.st.pc with
    hdr := e.p.handler, widx := 0 }

theorem takeTrap_enters {brk : Bool} {n : BitVec 16} (hv : bit e.p.tvec 63 = true) {x : State × Strand}
    (hx : e.windowCall s (e.trapped (trapCause brk n)) = .ok x) :
    e.takeTrap s brk n = .ok (e.put x.1 (e.inHandler (trapCause brk n) x.2)) := by
  rw [Env.trapped] at hx
  rw [Env.takeTrap, faultIf_bind_passes (by rw [hv]; rfl)]
  simp only [hx]
  rfl

theorem takeTrap_user {brk : Bool} {n : BitVec 16} (hv : bit e.p.tvec 63 = false) : e.takeTrap s brk n = failWith .priv e.w := by
  rw [Env.takeTrap, faultIf_bind_faults (by rw [hv]; rfl)]

/-- TRAP, and a BRK that neither halts nor resumes from a halt, take a trap of their kind. -/
theorem trap_word_takes_trap {k : Ctl} {n : BitVec 16} {r : Instr × Nat} (hr : r ∈ ([(.trap k n, 2), (.brk k n, 3)] : List (Instr × Nat)))
    (hbrk : r.2 = 3 → e.st.asNop = false ∧ bit e.p.tvec 0 = false) :
    ∃ op brk, exec r.1 s = runJump r.1 k op s ∧ op e s = e.takeTrap s brk n ∧
      trapCause brk n = BitVec.ofNat 64 (r.2 * 64 + n.toNat * 65536) := by
  simp only [List.mem_cons, List.not_mem_nil, or_false] at hr
  rcases hr with rfl | rfl
  · exact ⟨opTrap n, false, rfl, rfl, rfl⟩
  · obtain ⟨hnop, hdbg⟩ := hbrk rfl
    exact ⟨opBrk n, true, rfl, by simp [opBrk, hnop, hdbg], rfl⟩

end

/-- Settles O18: both words come to `takeTrap`, which enters the handler (`takeTrap_enters`) or raises PRIV (`takeTrap_user`). -/
theorem trapsEnterTheHandler : Obligations.traps_enter_the_handler := by
  unfold Obligations.traps_enter_the_handler
  intro s e k n r hr h hc hbrk c t0 entered
  obtain ⟨op, brk, hexec, hop, hcause⟩ := trap_word_takes_trap (s := s) hr hbrk
  have ht0 : e.trapped (trapCause brk n) = t0 := by rw [Env.trapped, hcause, h.env_word]
  refine ⟨fun hv x hx => ?_, fun hf => windowCall_resident (t := t0) hf, fun hv t1 => ⟨?_, pc_at_header rfl⟩, fun hv hb => ?_⟩
  · have htake := takeTrap_enters hv (ht0 ▸ hx)
    rw [hcause] at htake
    rw [hexec]
    exact runJump_completes h hc (hop.trans htake) (put_strand _ _ _)
  · exact (handler_half e.p).trans hv
  · rw [hexec, runJump_faults h hc hb (hop.trans (takeTrap_user hv)), h.env_word]

/-! ### Returning from a trap (R178) -/

section
variable {e : Env} {s : State} {x y : Word}

theorem returnFromTrap_misaligned_header (hx : bits x 2 0 ≠ 0) : e.returnFromTrap s x y = failWith .align x := by
  rw [Env.returnFromTrap, faultIf_bind_faults (by simpa using hx)]

variable (hx : bits x 2 0 = 0)
include hx

theorem returnFromTrap_misaligned_word (hy : bits y 2 0 ≠ 0) : e.returnFromTrap s x y = failWith .align y := by
  rw [Env.returnFromTrap, faultIf_bind_passes (by simpa using hx), faultIf_bind_faults (by simpa using hy)]

variable (hy : bits y 2 0 = 0)
include hy

theorem returnFromTrap_outOfRange (hr : y.toNat < x.toNat + 8 ∨ 63 < (y.toNat - x.toNat) / 8) :
    e.returnFromTrap s x y = failWith .illop e.w := by
  rw [Env.returnFromTrap, faultIf_bind_passes (by simpa using hx), faultIf_bind_passes (by simpa using hy),
    faultIf_bind_faults (by simpa using hr)]

/-- Strand `t` at word `n` of the block at `x`, under the masks of its header `h`; `fresh` numbers the free values (R38). -/
def Strand.resumedAt (t : Strand) (x h : Word) (n fresh : Nat) : Strand := { (t.applyMasks h fresh) with hdr := x, widx := n }

/-- With its checks passed, RFT leaves the strand `w.2` of the window action after word `n` of the block whose header is `f.2`. -/
theorem returnFromTrap_resumes {n : Nat} (hn : (y.toNat - x.toNat) / 8 = n) (hlo : x.toNat + 8 ≤ y.toNat) (hhi : n ≤ 63)
    {f : State × Word} (hf : e.fetch s x = .ok f) (hop : bits f.2 63 56 = 0xFF) (hlen : n ≤ lenOf f.2) {w : State × Strand}
    (hw : e.windowRet f.1 e.st = .ok w) : e.returnFromTrap s x y =
      .ok (if n = lenOf f.2 then e.put w.1 (w.2.entering (x + BitVec.ofNat 64 (8 * (n + 1))))
        else { (e.put w.1 (w.2.resumedAt x f.2 (n + 1) w.1.fresh)) with fresh := w.1.fresh + 1 }) := by
  have hrange : (decide (y.toNat < x.toNat + 8) || decide (63 < n)) = false := by simp [hlo, hhi]
  have hheader : (bits f.2 63 56 != 0xFF || decide (lenOf f.2 = 0)) = false := by
    have hpos : lenOf f.2 ≠ 0 := by omega
    simp [hop, hpos]
  rw [Env.returnFromTrap, faultIf_bind_passes (by simpa using hx), faultIf_bind_passes (by simpa using hy), hn,
    faultIf_bind_passes hrange, hf]
  show (faultIf _ _ _ >>= _) = _
  rw [faultIf_bind_passes hheader, faultIf_bind_passes (decide_eq_false (Nat.not_lt.2 hlen)), hw]
  show (if n = lenOf f.2 then _ else _) = _
  rw [apply_ite Except.ok]
  rfl

end

/-- Settles O19: where the strand resumes by `returnFromTrap_resumes`, each fault by the check of `returnFromTrap` that it fails. -/
theorem returnFromTrapResumesAfterTheTrappingWord : Obligations.return_from_trap_resumes_after_the_trapping_word := by
  unfold Obligations.return_from_trap_resumes_after_the_trapping_word
  intro s e k a b i x y n h hc
  refine ⟨fun hx hy hlo hhi f hf hop hlen w hw => ?_, fun hb hx => ?_, fun hb hx hy => ?_, fun hb hx hy hr => ?_⟩
  · have hres := returnFromTrap_resumes hx hy (n := n) rfl hlo hhi hf hop hlen hw
    refine ⟨fun hlast => ?_, fun hinside => ?_⟩
    · rw [if_pos hlast] at hres
      exact runJump_completes (op := opRft a b) h hc hres (put_strand _ _ _)
    · rw [if_neg hinside.ne] at hres
      exact runJump_completes (op := opRft a b) h hc hres (put_strand _ _ _)
  · exact runJump_faults (op := opRft a b) h hc hb (returnFromTrap_misaligned_header hx)
  · exact runJump_faults (op := opRft a b) h hc hb (returnFromTrap_misaligned_word hx hy)
  · have hop : opRft a b e s = failWith .illop (encodeWord i) := h.env_word ▸ returnFromTrap_outOfRange hx hy hr
    exact runJump_faults h hc hb hop

end Sys2Proof.Machine
end

section
/-! PROOFS. Rounding a value that its format holds (R189, R190, R195). -/

namespace Sys2Proof.Machine

/-! ### The fields of a pattern (R189) -/

/-- S of the pattern. -/
def signOf (f : FpFmt) (x : Nat) : Bool := x / 2 ^ (fmtBits f - 1) % 2 = 1

/-- E of the pattern. -/
def expOf (f : FpFmt) (x : Nat) : Nat := x / 2 ^ fmtFrac f % 2 ^ fmtExp f

/-- F of the pattern. -/
def fracOf (f : FpFmt) (x : Nat) : Nat := x % 2 ^ fmtFrac f

theorem fmtBits_pred (f : FpFmt) : fmtBits f - 1 = fmtFrac f + fmtExp f := by cases f <;> rfl

theorem fmtBits_eq (f : FpFmt) : fmtBits f = fmtFrac f + fmtExp f + 1 := by cases f <;> rfl

theorem fmtBias_double (f : FpFmt) : 2 * fmtBias f + 2 = 2 ^ fmtExp f := by cases f <;> rfl

theorem fracOf_lt (f : FpFmt) (x : Nat) : fracOf f x < 2 ^ fmtFrac f := Nat.mod_lt _ (Nat.two_pow_pos _)

theorem expOf_lt (f : FpFmt) (x : Nat) : expOf f x < 2 ^ fmtExp f := Nat.mod_lt _ (Nat.two_pow_pos _)

theorem signBit_signOf {f : FpFmt} {x : Nat} (hx : x < 2 ^ fmtBits f) :
    signBit f (signOf f x) = 2 ^ fmtFrac f * 2 ^ fmtExp f * (x / (2 ^ fmtFrac f * 2 ^ fmtExp f)) := by
  rw [fmtBits_eq, Nat.pow_succ, Nat.pow_add] at hx
  have hbit := Nat.div_lt_of_lt_mul hx
  unfold signBit signOf
  rw [fmtBits_pred, Nat.pow_add]
  obtain h | h := Nat.le_one_iff_eq_zero_or_eq_one.1 (Nat.le_of_lt_succ hbit)
  all_goals simp [h]

/-- The layout of Table 7.1. -/
theorem fields_of_pattern {f : FpFmt} {x : Nat} (hx : x < 2 ^ fmtBits f) :
    signBit f (signOf f x) + (expOf f x * 2 ^ fmtFrac f + fracOf f x) = x :=
  calc signBit f (signOf f x) + (expOf f x * 2 ^ fmtFrac f + fracOf f x)
    _ = x % (2 ^ fmtFrac f * 2 ^ fmtExp f) + 2 ^ fmtFrac f * 2 ^ fmtExp f * (x / (2 ^ fmtFrac f * 2 ^ fmtExp f)) := by
      rw [signBit_signOf hx, Nat.mod_mul, expOf, fracOf]
      ring
    _ = x := Nat.mod_add_div ..

/-! ### The patterns of finite values (R189, R190) -/

theorem readFp_fields (f : FpFmt) (x : Nat) :
    readFp f x =
      if expOf f x = 2 ^ fmtExp f - 1 && (f != .e4m3 || fracOf f x = 7) then
        (if f = .e4m3 then .nan false
         else if fracOf f x = 0 then .inf (signOf f x) else .nan (fracOf f x / 2 ^ (fmtFrac f - 1) = 0))
      else if expOf f x = 0 then .fin (signOf f x) (fracOf f x) (fmtMin f - fmtFrac f)
      else .fin (signOf f x) (2 ^ fmtFrac f + fracOf f x) ((expOf f x : Int) - fmtBias f - fmtFrac f) := rfl

/-- A finite datum is subnormal or zero, or it is normal, with E all ones in E4M3 alone. -/
theorem readFp_finite {f : FpFmt} {x : Nat} {neg : Bool} {m : Nat} {e : Int} (h : readFp f x = .fin neg m e) :
    neg = signOf f x ∧
      (expOf f x = 0 ∧ m = fracOf f x ∧ e = fmtMin f - fmtFrac f ∨
        0 < expOf f x ∧ m = 2 ^ fmtFrac f + fracOf f x ∧ e = (expOf f x : Int) - fmtBias f - fmtFrac f ∧
          (expOf f x = 2 ^ fmtExp f - 1 → f = .e4m3 ∧ fracOf f x ≠ 7)) := by
  rw [readFp_fields] at h
  split at h
  · split at h
    · nomatch h
    · split at h <;> nomatch h
  next hones =>
    split at h
    next hzero =>
      obtain ⟨rfl, rfl, rfl⟩ := Fp.fin.inj h
      exact ⟨rfl, .inl ⟨hzero, rfl, rfl⟩⟩
    next hzero =>
      obtain ⟨rfl, rfl, rfl⟩ := Fp.fin.inj h
      refine ⟨rfl, .inr ⟨Nat.pos_of_ne_zero hzero, rfl, rfl, fun htop => ?_⟩⟩
      simpa [htop] using hones

/-! ### Rounding on the grid (R195) -/

theorem logFloor_natural {m : Nat} (hm : m ≠ 0) (e : Int) : logFloor m 1 e = e + Nat.log2 m := by
  have hle := Nat.log2_self_le hm
  simp [logFloor, show Nat.log2 1 = 0 from rfl, hle]

theorem scaleFrac_zero (n d : Nat) : scaleFrac n d 0 = (n, d) := by simp [scaleFrac]

theorem roundsUp_exact (md : RoundMode) (neg : Bool) (k : Nat) : roundsUp md neg k 0 1 = false := by
  cases md <;> simp [roundsUp]

/-- What `roundTo` does with a multiple of the spacing at its magnitude that the format holds: no neighbour is taken. -/
theorem roundTo_on_grid {f : FpFmt} {m : Nat} {e : Int} (md : RoundMode) (neg : Bool) (hm : m ≠ 0)
    (hgrid : max (e + Nat.log2 m) (fmtMin f) = e + fmtFrac f) (hwidth : m < 2 ^ (fmtFrac f + 1))
    (hmax : e + fmtFrac f ≤ if f = .e4m3 then 8 else (fmtBias f : Int)) (hnan : ¬ ((f = .e4m3 ∧ e + fmtFrac f = 8) ∧ m = 15)) :
    roundTo f md false neg m 1 e =
      (signBit f neg +
        if m < 2 ^ fmtFrac f then m else (e + fmtFrac f + fmtBias f).toNat * 2 ^ fmtFrac f + (m - 2 ^ fmtFrac f), 0) := by
  have hfits : ¬ ((if f = .e4m3 then 8 else (fmtBias f : Int)) < e + fmtFrac f) := not_lt.2 hmax
  simp [roundTo, logFloor_natural hm, hgrid, scaleFrac_zero, Nat.mod_one, roundsUp_exact, hwidth.ne, hfits, hnan]

/-! ### The values of a format lie on its grid -/

theorem roundTo_subnormal {f : FpFmt} {m : Nat} (md : RoundMode) (neg : Bool) (hm : m ≠ 0) (hlt : m < 2 ^ fmtFrac f) :
    roundTo f md false neg m 1 (fmtMin f - fmtFrac f) = (signBit f neg + m, 0) := by
  have hlog : Nat.log2 m < fmtFrac f := (Nat.log2_lt hm).2 hlt
  rw [roundTo_on_grid md neg hm, if_pos hlt]
  · omega
  · omega
  · cases f <;> decide
  · rintro ⟨⟨rfl, h⟩, -⟩
    exact absurd h (by decide)

theorem log2_significand {w n : Nat} (hn : n < 2 ^ w) : Nat.log2 (2 ^ w + n) = w :=
  (Nat.log2_eq_iff (by omega)).2 ⟨by omega, by omega⟩

theorem roundTo_normal {f : FpFmt} {ex fr : Nat} (md : RoundMode) (neg : Bool) (hpos : 0 < ex) (hex : ex < 2 ^ fmtExp f)
    (hfr : fr < 2 ^ fmtFrac f) (hones : ex = 2 ^ fmtExp f - 1 → f = .e4m3 ∧ fr ≠ 7) :
    roundTo f md false neg (2 ^ fmtFrac f + fr) 1 ((ex : Int) - fmtBias f - fmtFrac f) =
      (signBit f neg + (ex * 2 ^ fmtFrac f + fr), 0) := by
  have hlog := log2_significand hfr
  have hbias := fmtBias_double f
  rw [roundTo_on_grid md neg (by omega), if_neg (by omega)]
  · simp
  · rw [hlog, fmtMin]
    omega
  · omega
  · split
    next hf =>
      subst hf
      simp [fmtBias, fmtExp, fmtBits, fmtFrac] at hex ⊢
      omega
    next hf =>
      have hne : ex ≠ 2 ^ fmtExp f - 1 := fun h => hf (hones h).1
      omega
  · rintro ⟨⟨rfl, h⟩, hm⟩
    have htop : ex = 15 := by
      simp [fmtBias, fmtExp, fmtBits, fmtFrac] at h
      omega
    have hne := (hones htop).2
    simp [fmtFrac] at hm
    omega

/-- Settles O12: a finite datum is subnormal or normal, and either lies on the grid that `roundTo` rounds to. -/
theorem roundingKeepsRepresentableValues : Obligations.rounding_keeps_representable_values := by
  unfold Obligations.rounding_keeps_representable_values
  intro f md x neg m e hx h hm
  obtain ⟨rfl, ⟨hzero, rfl, rfl⟩ | ⟨hpos, rfl, rfl, hones⟩⟩ := readFp_finite h
  · have hfields := fields_of_pattern hx
    rw [hzero, Nat.zero_mul, Nat.zero_add] at hfields
    rw [roundTo_subnormal md _ hm (fracOf_lt f x), hfields]
  · rw [roundTo_normal md _ hpos (expOf_lt f x) (fracOf_lt f x) hones, fields_of_pattern hx]

end Sys2Proof.Machine
end

section
/-! PROOFS. The floating-point words that write a vector or a scalar (R223, R226, R227, R229, R230, R232, R234). -/

namespace Sys2Proof.Machine

/-- What an operation on data leaves: each element holds its result for the data of three sources. -/
def Env.floatStrand (e : Env) (i : Instr) (d a b c : Reg) (rnd : Option RoundMode) (ft : Option FpFmt)
    (g : FpFmt → Rnd → Fp → Fp → Fp → FpRes) : Strand :=
  let l := isLane e.st.latch.cls i
  let f := fmtOr ft l
  let m := e.st.rnd rnd
  let datum := fun (q : Reg) (j : Nat) => readIn f m.fz (e.st.patAt (f = .fp64) (fmtBits f) q j)
  e.writeFp l d (f = .fp64) fun j => g f m (datum a j) (datum b j) (datum c j)

section
variable {s : State} {e : Env} {k : Ctl} {d a b c : Reg} {ft : Option FpFmt}
  {r : Instr × Option RoundMode × (FpFmt → Rnd → Fp → Fp → Fp → FpRes)}

theorem fp1_leaves {g : FpFmt → Rnd → Fp → FpRes} (hg : r.2.2 = fun f m x _ _ => g f m x)
    (hx : exec r.1 s = runWord r.1 k (fpOp (laneFor r.1) d [a] r.2.1 ft (fp1 g)) s) (h : Issues s r.1 k e) :
    Leaves s e r.1 (e.floatStrand r.1 d a b c r.2.1 ft r.2.2) :=
  leaves_of_regOp h hx (by rw [hg]; rfl)

theorem fp2_leaves {g : FpFmt → Rnd → Fp → Fp → FpRes} (hg : r.2.2 = fun f m x y _ => g f m x y)
    (hx : exec r.1 s = runWord r.1 k (fpOp (laneFor r.1) d [a, b] r.2.1 ft (fp2 g)) s) (h : Issues s r.1 k e) :
    Leaves s e r.1 (e.floatStrand r.1 d a b c r.2.1 ft r.2.2) :=
  leaves_of_regOp h hx (by rw [hg]; rfl)

theorem fp3_leaves (hx : exec r.1 s = runWord r.1 k (fpOp (laneFor r.1) d [a, b, c] r.2.1 ft (fp3 r.2.2)) s) (h : Issues s r.1 k e) :
    Leaves s e r.1 (e.floatStrand r.1 d a b c r.2.1 ft r.2.2) :=
  leaves_of_regOp h hx rfl

end

/-- Settles O8: each row is its operation on one, two or three data read from the patterns. -/
theorem floatArithmeticWordsWriteTheirResult : Obligations.float_arithmetic_words_write_their_result := by
  intro s e k d a b c rnd ft
  exact List.forall_iff_forall_mem.1 ⟨fp2_leaves (g := gAdd) rfl rfl, fp2_leaves (g := gSub) rfl rfl, fp2_leaves (g := mulFp) rfl rfl,
    fp3_leaves rfl, fp3_leaves rfl, fp3_leaves rfl, fp3_leaves rfl, fp2_leaves (g := divFp) rfl rfl, fp1_leaves (g := sqrtFp) rfl rfl,
    fp1_leaves (g := gRcp) rfl rfl, fp1_leaves (g := fun f m => froundFp f m.md) rfl rfl,
    fp2_leaves (g := fun f _ => minMaxFp f false) rfl rfl, fp2_leaves (g := fun f _ => minMaxFp f true) rfl rfl⟩

/-- Settles O10: each row is its operation on the bits of one or two patterns, with no flag. -/
theorem floatSignAndClassWordsWriteTheirResult : Obligations.float_sign_and_class_words_write_their_result := by
  intro s e k d a b ft
  exact List.forall_iff_forall_mem.1 ⟨fun h => leaves_of_regOp h rfl rfl, fun h => leaves_of_regOp h rfl rfl,
    fun h => leaves_of_regOp h rfl rfl, fun h => leaves_of_regOp h rfl rfl⟩

end Sys2Proof.Machine
end

section
/-! PROOFS. FCMP and the conversions (R202 to R204, R231, R233). -/

namespace Sys2Proof.Machine

/-- The flags of elements that are on, gathered: those that are off set none. -/
theorem foldl_flags_where_on (l : List Nat) (on : Nat → Bool) (g : Nat → Bool × Flags) (z : Flags) :
    (l.map fun j => if on j then g j else (false, 0)).foldl (fun x r => x ||| r.2) z =
      (l.filter on).foldl (fun x j => x ||| (g j).2) z := by
  induction l generalizing z with
  | nil => rfl
  | cons j l ih =>
    rw [List.map_cons, List.foldl_cons, ih]
    cases h : on j
    case false => simp [h]
    case true => simp [h]

/-- A conversion of elements of `sb l` bits to elements of `db l` bits (R233). -/
theorem conversion_leaves {s : State} {e : Env} {i : Instr} {k : Ctl} {d a : Reg} {rnd : Option RoundMode} {sb db : Bool → Nat}
    {g : Bool → Rnd → Nat → FpRes}
    (hx : exec i s = runWord i k (fun e s =>
      let l := laneFor i e.st.latch.cls
      opConvert d a l (sb l) (db l) (g l) rnd e s) s)
    (h : Issues s i k e) :
    let l := isLane e.st.latch.cls i
    let wide : Bool := sb l = 64 || db l = 64
    Leaves s e i (e.writeFp l d wide fun j => g l (e.st.rnd rnd) (e.st.patAt wide (sb l) a j)) :=
  leaves_of_regOp h hx rfl

/-- The conditions of elements, lane by lane: only those of elements that are on are read. -/
theorem conditions_where_on {wide : Prop} [Decidable wide] {on : Nat → Bool} (prior : Word) (g : Nat → Bool × Flags) :
    ((List.range 64).map fun i =>
      let j := if wide then i / 2 else i
      if on j then ((((List.range (if wide then 32 else 64)).map fun j => if on j then g j else (false, 0))[j]?).getD (false, 0)).1
      else prior.getLsbD i) =
    (List.range 64).map fun i =>
      let j := if wide then i / 2 else i
      if on j then (g j).1 else prior.getLsbD i := by
  refine List.map_congr_left fun i hi => ?_
  have hj : (if wide then i / 2 else i) < if wide then 32 else 64 := by
    have := List.mem_range.1 hi
    split <;> omega
  by_cases hon : on (if wide then i / 2 else i) = true
  · simp [hon, hj]
  · simp [hon]

/-- The element is on, of 64 bits or of 32. -/
theorem laneEnabled_decide (lanes : Word) (wide : Prop) [Decidable wide] :
    laneEnabled lanes (decide wide) = fun j => lanes.getLsbD (if wide then 2 * j else j) := by
  funext j
  simp only [laneEnabled, decide_eq_true_eq]

/-- What FCMP leaves in its lane-wise shape (R231). -/
theorem laneConditions_eq {t : Strand} {d : Reg} {lanes : Word} {wide : Prop} [Decidable wide] {g : Nat → Bool × Flags} :
    let rs := (upto (if wide then 32 else 64)).map fun j => if laneEnabled lanes wide j then g j else (false, 0)
    let on := fun j => lanes.getLsbD (if wide then 2 * j else j)
    (t.putP d (maskOf ((upto 64).map fun i =>
      let j := if wide then i / 2 else i
      if laneEnabled lanes wide j then ((rs[j]?).getD (false, 0)).1 else (t.priorP d).getLsbD i))).setFlags
      (rs.foldl (fun x r => x ||| r.2) 0) =
    (t.putP d (maskOf ((List.range 64).map fun i =>
      let j := if wide then i / 2 else i
      if on j then (g j).1 else (t.priorP d).getLsbD i))).setFlags
      (((List.range (if wide then 32 else 64)).filter on).foldl (fun x j => x ||| (g j).2) 0) := by
  intro rs on
  rw [← conditions_where_on, ← foldl_flags_where_on]
  simp only [rs, on, laneEnabled_decide, upto]

/-- Settles O11: FCMP by `laneConditions_eq`, the conversions by `conversion_leaves`. -/
theorem floatCompareAndConvertWordsWriteTheirResult : Obligations.float_compare_and_convert_words_write_their_result := by
  intro s e k d a b rnd ft fs cc iw u
  refine ⟨fun h => ?_, List.forall_iff_forall_mem.1 ⟨conversion_leaves rfl, conversion_leaves rfl, conversion_leaves rfl⟩⟩
  intro l f datum on holds t
  refine leaves_of_regOp h rfl ?_
  show (if l then _ else _) = t
  cases hl : l
  case false =>
    show (e.st.putCond d (holds 0).1).setFlags (holds 0).2 = t
    simp only [t, hl]
    cases d <;> rfl
  case true => exact laneConditions_eq.trans (if_pos hl).symm

end Sys2Proof.Machine
end

section
/-! PROOFS. The words that move lanes (R235 to R239). -/

namespace Sys2Proof.Machine

theorem at0_ite (c : Prop) [Decidable c] (x y : List Nat) (j : Nat) : at0 (if c then x else y) j = if c then at0 x j else at0 y j :=
  apply_ite (fun l => at0 l j) c x y

/-- Settles O13: each row is the meaning of its word; a selection of vectors is one of their elements (`at0_ite`). -/
theorem laneWordsMoveElements : Obligations.lane_words_move_elements := by
  intro s e k d a b c pm x flag w64 ne n el on enabled write
  refine List.forall_iff_forall_mem.1 ⟨?vbcast, ?xor, ?ziplo, ?ziphi, ?unze, ?unzo, ?vperm, ?up, ?down, ?vextr, ?vins, ?viota, ?vcompress⟩
  case vbcast | xor | vperm | up | down | unze | unzo | vextr | vins => exact fun h => leaves_of_regOp h rfl rfl
  case ziplo | ziphi =>
    refine fun h => leaves_of_regOp h rfl ?_
    simp only [at0_ite]
    rfl
  case viota =>
    refine fun h => leaves_of_regOp h rfl ?_
    cases pm <;> rfl
  case vcompress =>
    refine fun h => leaves_of_regOp h rfl ?_
    simp only [List.length_map]
    rfl

end Sys2Proof.Machine
end

section
/-! PROOFS. The blocks of the core (R244 to R246). -/

namespace Sys2Proof.Machine

theorem range_halves : List.range 64 = List.range 32 ++ (List.range 32).map (32 + ·) := List.range_add (n := 32) (m := 32)

theorem elems_lanes {t : Strand} {a : Reg} (h : t.holdsV a = true) : elems (t.vector a) false = (List.range 64).map (t.pat 32 a) := by
  refine List.map_congr_left fun j _ => ?_
  rw [BitVec.extractLsb'_toNat, Nat.shiftRight_eq_div_pow]
  exact (if_pos h).symm

/-- The two halves of a vector's lanes, of which BQUANT makes a block each. -/
theorem lanes_halves {t : Strand} {a : Reg} (h : t.holdsV a = true) (g : Nat → Fp) :
    let xs := (elems (t.vector a) false).map g
    xs.take 32 = (List.range 32).map (fun j => g (t.pat 32 a (32 * 0 + j))) ∧
      xs.drop 32 = (List.range 32).map (fun j => g (t.pat 32 a (32 * 1 + j))) := by
  have hlen : ((List.range 32).map fun j => g (t.pat 32 a j)).length = 32 := by simp
  simp [elems_lanes h, range_halves, Function.comp_def, List.take_left' hlen, List.drop_left' hlen]

theorem map_by_block {α : Type} (g : Nat → Nat → α) :
    (List.range 64).map (fun j => g (j / 32) (j % 32)) = (List.range 32).map (g 0) ++ (List.range 32).map (g 1) := by
  rw [range_halves, List.map_append, List.map_map]
  refine congrArg₂ (· ++ ·) ?_ ?_
  · refine List.map_congr_left fun j hj => ?_
    have hj := List.mem_range.1 hj
    rw [Nat.div_eq_of_lt hj, Nat.mod_eq_of_lt hj]
  · refine List.map_congr_left fun j hj => ?_
    have hj := List.mem_range.1 hj
    show g ((32 + j) / 32) ((32 + j) % 32) = g 1 j
    congr 1 <;> omega

/-- Settles O15: BQUANT's blocks by `lanes_halves`, BDEQ's lanes by `map_by_block`. -/
theorem blockWordsQuantiseTwoBlocks : Obligations.block_words_quantise_two_blocks := by
  intro s e k d a rnd ft wq w f half img back
  refine ⟨fun h hv => ?bquant, fun h => ?bdeq⟩
  case bquant =>
    obtain ⟨hlow, hhigh⟩ := lanes_halves hv fun x => readFp f (x % 2 ^ fmtBits f)
    refine leaves_of_regOp h rfl ?_
    simp only [half, ← hlow, ← hhigh]
    rfl
  case bdeq =>
    have hback := map_by_block fun i j =>
      dequant f (e.st.rnd rnd).md w (blockOf w (img / 2 ^ (512 + 8 * i) % 256) (img / 2 ^ (32 * w * i))) j
    refine leaves_of_regOp h rfl ?_
    have hvalues : ((List.range 64).map fun j => (back j).1) = ((List.range 64).map back).map (·.1) := List.map_map.symm
    rw [hvalues, show (List.range 64).map back = _ from hback]
    rfl

end Sys2Proof.Machine
end

section
/-! PROOFS. Reductions and scans (R240 to R243). -/

namespace Sys2Proof.Machine

/-! ### Operations in which the order of combination does not matter -/

/-- `g` is associative, and `z` is its identity for patterns of `n` bits. -/
structure Combines (n : Nat) (g : Nat → Nat → Nat) (z : Nat) : Prop where
  assoc : ∀ x y w, g (g x y) w = g x (g y w)
  ident : ∀ x < 2 ^ n, g z x = x

/-- `g` as a combination that raises no flag. -/
def quietly (g : Nat → Nat → Nat) (x y : Nat) : FpRes := (g x y, 0)

theorem sextN_toInt (n x : Nat) : sextN x n = (BitVec.ofNat n x).toInt := by
  rw [← sextN_eq_toInt, BitVec.toNat_ofNat]
  simp only [sextN, Nat.mod_mod]

/-- The lesser by a key, the left one of equals. -/
theorem choose_assoc (key : Nat → Int) (x y w : Nat) :
    (if key (if key x ≤ key y then x else y) ≤ key w then (if key x ≤ key y then x else y) else w) =
      if key x ≤ key (if key y ≤ key w then y else w) then x else if key y ≤ key w then y else w := by
  by_cases hxy : key x ≤ key y
  · by_cases hyw : key y ≤ key w
    · simp [hxy, hyw, hxy.trans hyw]
    · simp [hxy, hyw]
  · by_cases hyw : key y ≤ key w
    · simp [hxy, hyw]
    · have hxw : ¬ key x ≤ key w := by omega
      simp [hxy, hyw, hxw]

theorem choose_ident {n z : Nat} {key : Nat → Int} (hkey : ∀ x < 2 ^ n, key x ≤ key z) (hinj : ∀ x < 2 ^ n, key z = key x → z = x)
    (x : Nat) (hx : x < 2 ^ n) : (if key z ≤ key x then z else x) = x := by
  split
  next h => exact hinj x hx (le_antisymm h (hkey x hx))
  next => rfl

theorem toInt_ofNat_inj {n x y : Nat} (hx : x < 2 ^ n) (hy : y < 2 ^ n) (h : (BitVec.ofNat n x).toInt = (BitVec.ofNat n y).toInt) :
    x = y := by
  have := congrArg BitVec.toNat (BitVec.toInt_inj.1 h)
  rwa [BitVec.toNat_ofNat, BitVec.toNat_ofNat, Nat.mod_eq_of_lt hx, Nat.mod_eq_of_lt hy] at this

theorem combines_add (n : Nat) : Combines n (fun x y => (x + y) % 2 ^ n) 0 where
  assoc x y w := by simp only [Nat.mod_add_mod, Nat.add_mod_mod, Nat.add_assoc]
  ident x hx := by rw [Nat.zero_add, Nat.mod_eq_of_lt hx]

theorem combines_and (n : Nat) : Combines n (fun x y => x &&& y) (2 ^ n - 1) where
  assoc := Nat.and_assoc
  ident x hx := by rw [Nat.and_comm, Nat.and_two_pow_sub_one_eq_mod, Nat.mod_eq_of_lt hx]

theorem combines_or (n : Nat) : Combines n (fun x y => x ||| y) 0 := ⟨Nat.or_assoc, fun x _ => Nat.zero_or x⟩

theorem combines_xor (n : Nat) : Combines n (fun x y => x ^^^ y) 0 := ⟨Nat.xor_assoc, fun x _ => Nat.zero_xor x⟩

theorem combines_minu (n : Nat) : Combines n (fun x y => min x y) (2 ^ n - 1) :=
  ⟨Nat.min_assoc, fun x hx => Nat.min_eq_right (by omega)⟩

theorem combines_maxu (n : Nat) : Combines n (fun x y => max x y) 0 := ⟨Nat.max_assoc, fun x _ => Nat.zero_max x⟩

theorem two_pow_eq_double {n : Nat} (hn : 0 < n) : (2 : Int) ^ n = 2 * ((2 ^ (n - 1) : Nat) : Int) := by
  push_cast
  exact (mul_pow_sub_one hn.ne' 2).symm

theorem combines_min {n : Nat} (hn : 0 < n) :
    Combines n (fun x y => if (BitVec.ofNat n x).sle (BitVec.ofNat n y) then x else y) (2 ^ (n - 1) - 1) := by
  have htwo : 2 * 2 ^ (n - 1) = 2 ^ n := mul_pow_sub_one hn.ne' 2
  have hpos := Nat.two_pow_pos (n - 1)
  have hz : 2 ^ (n - 1) - 1 < 2 ^ n := by omega
  simp only [BitVec.sle_iff_toInt_le]
  refine ⟨choose_assoc _, choose_ident (fun x _ => ?_) fun x hx => toInt_ofNat_inj hz hx⟩
  have htop := BitVec.two_mul_toInt_lt (x := BitVec.ofNat n x)
  rw [two_pow_eq_double hn] at htop
  rw [BitVec.toInt_eq_toNat_cond (BitVec.ofNat n (2 ^ (n - 1) - 1)), BitVec.toNat_ofNat, Nat.mod_eq_of_lt hz, if_pos (by omega)]
  omega

theorem combines_max {n : Nat} (hn : 0 < n) :
    Combines n (fun x y => if (BitVec.ofNat n y).sle (BitVec.ofNat n x) then x else y) (2 ^ (n - 1)) := by
  have htwo : 2 * 2 ^ (n - 1) = 2 ^ n := mul_pow_sub_one hn.ne' 2
  have hpos := Nat.two_pow_pos (n - 1)
  have hz : 2 ^ (n - 1) < 2 ^ n := by omega
  simp only [BitVec.sle_iff_toInt_le, ← neg_le_neg_iff (a := (BitVec.ofNat n _).toInt)]
  refine ⟨choose_assoc _, choose_ident (fun x _ => ?_) fun x hx h => toInt_ofNat_inj hz hx (neg_inj.1 h)⟩
  have hbottom := BitVec.le_two_mul_toInt (x := BitVec.ofNat n x)
  rw [two_pow_eq_double hn] at hbottom
  rw [BitVec.toInt_eq_toNat_cond (BitVec.ofNat n (2 ^ (n - 1))), BitVec.toNat_ofNat, Nat.mod_eq_of_lt hz, if_neg (by omega)]
  omega

/-! ### The tree of R241 -/

/-- The combination of the elements that are there. -/
def combined (g : Nat → Nat → Nat) (l : List (Option Nat)) : Option Nat := l.foldr (Option.merge g) none

section
variable {n z : Nat} {g : Nat → Nat → Nat}

theorem merge_assoc (hg : Combines n g z) (x y w : Option Nat) :
    Option.merge g (Option.merge g x y) w = Option.merge g x (Option.merge g y w) := by
  cases x <;> cases y <;> cases w <;> simp [hg.assoc]

/-- One level combines neighbours. -/
theorem treeLevel_quietly (hg : Combines n g z) : ∀ l : List (Option Nat),
    (treeLevel (quietly g) l).2 = 0 ∧ combined g (treeLevel (quietly g) l).1 = combined g l ∧
      (treeLevel (quietly g) l).1.length = (l.length + 1) / 2
  | [] => ⟨rfl, rfl, rfl⟩
  | [x] => by cases x <;> exact ⟨rfl, rfl, by simp [treeLevel]⟩
  | x :: y :: t => by
    obtain ⟨hflags, hsum, hlen⟩ := treeLevel_quietly hg t
    have hstep : treeLevel (quietly g) (x :: y :: t) =
        (Option.merge g x y :: (treeLevel (quietly g) t).1, (treeLevel (quietly g) t).2) := by
      cases x <;> cases y <;> simp [treeLevel, quietly]
    rw [hstep]
    refine ⟨hflags, ?_, by simp [hlen]; omega⟩
    simp only [combined, List.foldr_cons, ← merge_assoc hg] at hsum ⊢
    rw [hsum]

/-- All levels together combine all elements. -/
theorem treeOf_quietly (hg : Combines n g z) {k : Nat} {l : List (Option Nat)} (hl : l.length ≤ 2 ^ k) :
    treeOf (quietly g) k l = (combined g l, 0) := by
  induction k generalizing l with
  | zero =>
    match l with
    | [] => rfl
    | [x] => cases x <;> rfl
  | succ k ih =>
    obtain ⟨hflags, hsum, hlen⟩ := treeLevel_quietly hg l
    have hrest := ih (l := (treeLevel (quietly g) l).1) (by rw [hlen]; omega)
    simp only [treeOf, hrest, hflags, hsum]
    rfl

/-- From the left and starting from the identity, the combination is the same. -/
theorem merge_combined (hg : Combines n g z) (x : Nat) (l : List (Option Nat)) :
    Option.merge g (some x) (combined g l) = some ((l.filterMap id).foldl g x) := by
  induction l generalizing x with
  | nil => rfl
  | cons y l ih =>
    cases y with
    | none => simpa [combined] using ih x
    | some y => simpa [combined, ← merge_assoc hg] using ih (g x y)

theorem combined_eq_foldl (hg : Combines n g z) {l : List (Option Nat)} (hl : ∀ x, some x ∈ l → x < 2 ^ n) :
    combined g l = if l.any Option.isSome then some ((l.filterMap id).foldl g z) else none := by
  induction l with
  | nil => rfl
  | cons y l ih =>
    cases y with
    | none => simpa [combined] using ih fun x hx => hl x (List.mem_cons_of_mem _ hx)
    | some y =>
      have hy := hg.ident y (hl y List.mem_cons_self)
      simpa [combined, hy] using merge_combined hg y l


/-! ### The running combination of R242 -/

/-- The patterns of the enabled elements. -/
def enabledPatterns (xs : List (Nat × Bool)) : List Nat := (xs.filter (·.2)).map (·.1)

theorem scanFrom_off (c : Nat → Nat → FpRes) (ex : Bool) (z x : Nat) (xs : List (Nat × Bool)) (run : Option Nat) :
    scanFrom c ex z ((x, false) :: xs) run = (none :: (scanFrom c ex z xs run).1, (scanFrom c ex z xs run).2) := rfl

theorem scanFrom_quietly_on (hg : Combines n g z) {x : Nat} (hx : x < 2 ^ n) (ex : Bool) (xs : List (Nat × Bool)) (run : Option Nat) :
    scanFrom (quietly g) ex z ((x, true) :: xs) run =
      let y := g (run.getD z) x
      let rest := scanFrom (quietly g) ex z xs (some y)
      (some (if ex then run.getD z else y) :: rest.1, rest.2) := by
  cases run with
  | none => simp [scanFrom, hg.ident x hx]
  | some y => simp [scanFrom, quietly]

theorem scanFrom_quietly_flags (hg : Combines n g z) (ex : Bool) {xs : List (Nat × Bool)} (hxs : ∀ p ∈ xs, p.1 < 2 ^ n)
    (run : Option Nat) : (scanFrom (quietly g) ex z xs run).2 = 0 := by
  induction xs generalizing run with
  | nil => rfl
  | cons p xs ih =>
    obtain ⟨hp, hrest⟩ := List.forall_mem_cons.1 hxs
    obtain ⟨x, on⟩ := p
    cases on
    case false => rw [scanFrom_off, ih hrest]
    case true => rw [scanFrom_quietly_on hg hp, ih hrest]

/-- An enabled element takes the combination of the enabled elements up to it, or of those below it. -/
theorem scanFrom_quietly_get (hg : Combines n g z) (ex : Bool) {xs : List (Nat × Bool)} (hxs : ∀ p ∈ xs, p.1 < 2 ^ n)
    (run : Option Nat) {j x : Nat} (hj : xs[j]? = some (x, true)) :
    (scanFrom (quietly g) ex z xs run).1[j]? =
      some (some ((enabledPatterns (xs.take (if ex then j else j + 1))).foldl g (run.getD z))) := by
  induction xs generalizing run j with
  | nil => cases hj
  | cons p xs ih =>
    obtain ⟨hp, hrest⟩ := List.forall_mem_cons.1 hxs
    cases j with
    | zero =>
      obtain rfl : p = (x, true) := by simpa using hj
      rw [scanFrom_quietly_on hg hp]
      cases ex <;> simp [enabledPatterns]
    | succ j =>
      have hnext := fun run => ih hrest run (j := j) (by simpa using hj)
      obtain ⟨y, on⟩ := p
      cases on
      case false =>
        rw [scanFrom_off, List.getElem?_cons_succ, hnext]
        cases ex <;> simp [enabledPatterns]
      case true =>
        rw [scanFrom_quietly_on hg hp, List.getElem?_cons_succ, hnext]
        cases ex <;> simp [enabledPatterns]

end

theorem filterMap_where_on (l : List Nat) (on : Nat → Bool) (p : Nat → Nat) :
    (l.map fun j => if on j then some (p j) else none).filterMap id = (l.filter on).map p := by
  induction l with
  | nil => rfl
  | cons j l ih => cases h : on j <;> simp_all

theorem any_where_on (l : List Nat) (on : Nat → Bool) (p : Nat → Nat) :
    (l.map fun j => if on j then some (p j) else none).any Option.isSome = l.any on := by
  rw [List.any_map]
  congr 1
  funext j
  cases h : on j <;> simp [h]

theorem enabledPatterns_map (l : List Nat) (on : Nat → Bool) (p : Nat → Nat) :
    enabledPatterns (l.map fun j => (p j, on j)) = (l.filter on).map p := by
  simp [enabledPatterns, List.filter_map, Function.comp_def]


/-! ### VRED and VSCAN (R240 to R243) -/

/-- The operation `op` combines integers: by `g`, with the identity `z`. -/
structure IntegerRop (n : Nat) (op : Rop) (z : Nat) (g : Nat → Nat → Nat) : Prop where
  integer : isFloatRop op = false
  combine : ∀ f md, ropCombine op n f md = quietly g
  identity : ∀ f, ropIdentity op n f = z
  laws : Combines n g z

theorem ropCombine_min (n : Nat) (f : FpFmt) (md : RoundMode) :
    ropCombine .min n f md = quietly fun x y => if (BitVec.ofNat n x).sle (BitVec.ofNat n y) then x else y := by
  funext x y
  simp only [ropCombine, quietly, fMin, sextN_toInt, BitVec.sle_iff_toInt_le]
  split <;> rfl

theorem ropCombine_max (n : Nat) (f : FpFmt) (md : RoundMode) :
    ropCombine .max n f md = quietly fun x y => if (BitVec.ofNat n y).sle (BitVec.ofNat n x) then x else y := by
  funext x y
  simp only [ropCombine, quietly, fMax, sextN_toInt, BitVec.sle_iff_toInt_le]
  split <;> rfl

theorem width_bits_pos (w : Width) (l : Bool) : 0 < w.bits l := by cases w <;> cases l <;> decide

theorem setFlags_zero (t : Strand) : t.setFlags 0 = t := by simp [Strand.setFlags]

/-- The element is on, in a vector of elements of `n` bits. -/
def Env.onElem (e : Env) (n j : Nat) : Bool := e.lanes.getLsbD (if n = 64 then 2 * j else j)

/-- Number of elements of `n` bits that the word combines (R235). -/
def countOf (n : Nat) : Nat := if n = 64 then 32 else 64

/-- The patterns of the enabled elements among `js`. -/
def Env.patternsOn (e : Env) (a : Reg) (n : Nat) (js : List Nat) : List Nat := (js.filter (e.onElem n)).map (e.st.pat n a)

/-- The tree of R241 over the elements of `n` bits. -/
def Env.treeOn (e : Env) (a : Reg) (n : Nat) (c : Nat → Nat → FpRes) : Option Nat × Flags :=
  treeOf c (if n = 64 then 5 else 6) ((List.range (countOf n)).map fun j => if e.onElem n j then some (e.st.pat n a j) else none)

/-- The running combination of R242 over the elements of `n` bits. -/
def Env.scanOn (e : Env) (a : Reg) (n : Nat) (c : Nat → Nat → FpRes) (ex : Bool) (z : Nat) : List (Option Nat) × Flags :=
  scanFrom c ex z ((List.range (countOf n)).map fun j => (e.st.pat n a j, e.onElem n j)) none

/-- What VRED leaves when its tree gives `r` (R241). -/
def Env.reduced (e : Env) (d a : Reg) (op : Rop) (f : FpFmt) (n : Nat) (xs : Bool) (r : Option Nat × Flags) : Strand :=
  match r.1 with
  | none => e.st.putS d (e.st.priorS d)
  | some y => (e.st.putS d (BitVec.ofNat 64 (extendTo (ropOut op f y) n xs 64))).setFlags
      (r.2 ||| ropFlags op f (e.patternsOn a n (List.range (countOf n))))

/-- What VSCAN leaves when its elements take `r` (R242). -/
def Env.scanned (e : Env) (d a : Reg) (op : Rop) (f : FpFmt) (n : Nat) (r : List (Option Nat) × Flags) : Strand :=
  (e.st.putV d (ofElems ((elems (e.st.priorV d) (n = 64)).mapIdx fun j old =>
    if e.onElem n j then ropOut op f (((r.1[j]?).getD none).getD 0) else old) (n = 64))).setFlags
    (r.2 ||| ropFlags op f (e.patternsOn a n (List.range (countOf n))))

section
variable {s : State} {e : Env} {k : Ctl} {d a : Reg} {rnd : Option RoundMode} {w : Width} {xs ex : Bool} {op : Rop} {n : Nat}

theorem vred_leaves (hn : (if isFloatRop op then fmtBits (ropFmt w) else w.bits true) = n)
    (h : Issues s (.vred k d a op rnd ⟨w, xs⟩) k e) :
    Leaves s e (.vred k d a op rnd ⟨w, xs⟩)
      (e.reduced d a op (ropFmt w) n xs (e.treeOn a n (ropCombine op n (ropFmt w) (e.st.rnd rnd).md))) := by
  refine leaves_of_regOp h rfl ?_
  simp only [hn, laneEnabled_decide, elemCount, decide_eq_true_eq, filterMap_where_on, upto]
  rfl

theorem vscan_leaves (hn : (if isFloatRop op then fmtBits (ropFmt w) else w.bits true) = n)
    (h : Issues s (.vscan k d a op rnd ex w) k e) :
    Leaves s e (.vscan k d a op rnd ex w)
      (e.scanned d a op (ropFmt w) n (e.scanOn a n (ropCombine op n (ropFmt w) (e.st.rnd rnd).md) ex (ropIdentity op n (ropFmt w)))) := by
  refine leaves_of_regOp h rfl ?_
  simp only [hn, Env.writeLanes, blend, laneEnabled_decide, elemCount, decide_eq_true_eq, upto]
  rw [← enabledPatterns, enabledPatterns_map]
  rfl

end

section
variable {e : Env} {a d : Reg} {n : Nat} {op : Rop} {z : Nat} {g : Nat → Nat → Nat} {xs ex : Bool} {f : FpFmt} {md : RoundMode}

theorem countOf_le (n : Nat) : countOf n ≤ 2 ^ (if n = 64 then 5 else 6) := by
  unfold countOf
  split <;> decide

theorem treeOn_quietly (hg : Combines n g z) : e.treeOn a n (quietly g) =
    (if (List.range (countOf n)).any (e.onElem n) then some ((e.patternsOn a n (List.range (countOf n))).foldl g z) else none, 0) := by
  have hlt : ∀ x, some x ∈ ((List.range (countOf n)).map fun j => if e.onElem n j then some (e.st.pat n a j) else none) →
      x < 2 ^ n := by
    intro x hx
    obtain ⟨j, -, hj⟩ := List.mem_map.1 hx
    split at hj
    · exact Option.some.inj hj ▸ e.st.pat_lt n a j
    · cases hj
  rw [Env.treeOn, treeOf_quietly hg (by simpa using countOf_le n), combined_eq_foldl hg hlt, any_where_on, filterMap_where_on]
  rfl

theorem scanOn_quietly_flags (hg : Combines n g z) : (e.scanOn a n (quietly g) ex z).2 = 0 :=
  scanFrom_quietly_flags hg ex (by simp [e.st.pat_lt]) none

theorem scanOn_quietly_get (hg : Combines n g z) {j : Nat} (hj : j < countOf n) (hon : e.onElem n j = true) :
    (e.scanOn a n (quietly g) ex z).1[j]? = some (some ((e.patternsOn a n (List.range (if ex then j else j + 1))).foldl g z)) := by
  have hfirst : (if ex then j else j + 1) ≤ countOf n := by split <;> omega
  rw [Env.scanOn, scanFrom_quietly_get hg ex (by simp [e.st.pat_lt]) none (x := e.st.pat n a j) (by simp [hj, hon]), ← List.map_take,
    List.take_range, Nat.min_eq_left hfirst, enabledPatterns_map]
  rfl

theorem ropOut_integer (h : isFloatRop op = false) (y : Nat) : ropOut op f y = y := by simp [ropOut, h]

theorem ropFlags_integer (h : isFloatRop op = false) (l : List Nat) : ropFlags op f l = 0 := by simp [ropFlags, h]

/-- VRED of integers: the combination from the left, starting from the identity. -/
theorem reduced_integer (h : IntegerRop n op z g) : e.reduced d a op f n xs (e.treeOn a n (ropCombine op n f md)) =
    if (List.range (countOf n)).any (e.onElem n) then
      e.st.putS d (BitVec.ofNat 64 (extendTo ((e.patternsOn a n (List.range (countOf n))).foldl g z : Nat) n xs 64))
    else e.st.putS d (e.st.priorS d) := by
  rw [h.combine, treeOn_quietly h.laws, Env.reduced]
  cases (List.range (countOf n)).any (e.onElem n)
  case false => rfl
  case true =>
    simp only [if_true, ropOut_integer h.integer, ropFlags_integer h.integer]
    exact setFlags_zero _

/-- VSCAN of integers: each enabled element takes the combination from the left, starting from the identity. -/
theorem scanned_integer (h : IntegerRop n op z g) :
    e.scanned d a op f n (e.scanOn a n (ropCombine op n f md) ex (ropIdentity op n f)) =
      e.st.putV d (ofElems ((elems (e.st.priorV d) (n = 64)).mapIdx fun j old =>
        if e.onElem n j then (e.patternsOn a n (List.range (if ex then j else j + 1))).foldl g z else old) (n = 64)) := by
  rw [h.combine, h.identity, Env.scanned, scanOn_quietly_flags h.laws, ropFlags_integer h.integer]
  refine (setFlags_zero _).trans (congrArg (fun l => e.st.putV d (ofElems l _)) (List.ext_getElem (by simp) fun j hj _ => ?_))
  rw [List.length_mapIdx, elems_length] at hj
  rw [List.getElem_mapIdx, List.getElem_mapIdx]
  by_cases hon : e.onElem n j = true
  · rw [if_pos hon, if_pos hon, scanOn_quietly_get h.laws (by simpa [countOf] using hj) hon, ropOut_integer h.integer]
    rfl
  · rw [if_neg hon, if_neg hon]

end

/-- The integer operations of Table 8.9. -/
theorem integerRops {n : Nat} (hn : 0 < n) : ∀ r ∈ ([
    (.add, 0, fun x y => (x + y) % 2 ^ n), (.and, 2 ^ n - 1, fun x y => x &&& y), (.or, 0, fun x y => x ||| y),
    (.xor, 0, fun x y => x ^^^ y), (.minu, 2 ^ n - 1, fun x y => min x y), (.maxu, 0, fun x y => max x y),
    (.min, 2 ^ (n - 1) - 1, fun x y => if (BitVec.ofNat n x).sle (BitVec.ofNat n y) then x else y),
    (.max, 2 ^ (n - 1), fun x y => if (BitVec.ofNat n y).sle (BitVec.ofNat n x) then x else y)] :
    List (Rop × Nat × (Nat → Nat → Nat))), IntegerRop n r.1 r.2.1 r.2.2 :=
  List.forall_iff_forall_mem.1 ⟨
    ⟨rfl, fun _ _ => rfl, fun _ => rfl, combines_add n⟩, ⟨rfl, fun _ _ => rfl, fun _ => rfl, combines_and n⟩,
    ⟨rfl, fun _ _ => rfl, fun _ => rfl, combines_or n⟩, ⟨rfl, fun _ _ => rfl, fun _ => rfl, combines_xor n⟩,
    ⟨rfl, fun _ _ => rfl, fun _ => rfl, combines_minu n⟩, ⟨rfl, fun _ _ => rfl, fun _ => rfl, combines_maxu n⟩,
    ⟨rfl, ropCombine_min n, fun _ => rfl, combines_min hn⟩, ⟨rfl, ropCombine_max n, fun _ => rfl, combines_max hn⟩⟩

/-- The operation `op` combines data of the format `f`: by `g`, with the identity `z`. -/
structure FloatRop (f : FpFmt) (op : Rop) (z : Nat) (g : RoundMode → Fp → Fp → FpRes) : Prop where
  float : isFloatRop op = true
  combine : ∀ n md, ropCombine op n f md = fun x y => g md (readFp f x) (readFp f y)
  identity : ∀ n, ropIdentity op n f = z

/-- The floating-point operations of Table 8.9. -/
theorem floatRops (f : FpFmt) : ∀ r ∈ ([
    (.fadd, 0, fun md x y => addFp f (Rnd.mk md false) x y (x.isSig || y.isSig)),
    (.fmin, infOf f false, fun _ x y => minMaxFp f false x y),
    (.fmax, infOf f true, fun _ x y => minMaxFp f true x y)] : List (Rop × Nat × (RoundMode → Fp → Fp → FpRes))),
    FloatRop f r.1 r.2.1 r.2.2 :=
  List.forall_iff_forall_mem.1 ⟨⟨rfl, fun _ _ => rfl, fun _ => rfl⟩,
    ⟨rfl, fun _ _ => rfl, fun _ => rfl⟩, ⟨rfl, fun _ _ => rfl, fun _ => rfl⟩⟩

theorem ropOut_float {op : Rop} (h : isFloatRop op = true) (f : FpFmt) (y : Nat) :
    ropOut op f y = if (readFp f y).isNan then canonNan f else y := by simp [ropOut, h]

theorem ropFlags_float {op : Rop} (h : isFloatRop op = true) (e : Env) (a : Reg) (n : Nat) (f : FpFmt) (js : List Nat) :
    ropFlags op f (e.patternsOn a n js) = if js.any fun j => e.onElem n j && (readFp f (e.st.pat n a j)).isSig then flNV else 0 := by
  simp [ropFlags, h, Env.patternsOn]

/-- Settles O14: integers by `reduced_integer` and `scanned_integer`; of the floating-point operations each is what its word does. -/
theorem reductionsAndScansCombineTheEnabledElements : Obligations.reductions_and_scans_combine_the_enabled_elements := by
  intro s e k d a rnd w xs ex
  constructor
  case left =>
    intro n ne on r hr total
    have hop := integerRops (width_bits_pos w true) r hr
    have hn : (if isFloatRop r.1 then fmtBits (ropFmt w) else w.bits true) = n := by rw [hop.integer]; rfl
    exact ⟨fun h => reduced_integer hop ▸ vred_leaves hn h, fun h => scanned_integer hop ▸ vscan_leaves hn h⟩
  case right =>
    intro f n ne on r hr combine canon nv
    have hop := floatRops f r hr
    have hn : (if isFloatRop r.1 then fmtBits (ropFmt w) else w.bits true) = n := if_pos hop.float
    have hcombine : ropCombine r.1 n f (e.st.rnd rnd).md = combine := hop.combine n _
    have hout : ∀ y, ropOut r.1 f y = canon y := ropOut_float hop.float f
    have hflags : ropFlags r.1 f (e.patternsOn a n (List.range ne)) = nv := ropFlags_float hop.float e a n f _
    refine ⟨fun h => ?_, fun h => ?_⟩
    · have hred := vred_leaves hn h
      rw [show ropFmt w = f from rfl, hcombine, Env.reduced] at hred
      simp only [hout, show ropFlags r.1 f (e.patternsOn a n (List.range (countOf n))) = nv from hflags] at hred
      exact hred
    · have hscan := vscan_leaves hn h
      rw [show ropFmt w = f from rfl, hcombine, hop.identity, Env.scanned] at hscan
      simp only [hout, show ropFlags r.1 f (e.patternsOn a n (List.range (countOf n))) = nv from hflags] at hscan
      exact hscan

end Sys2Proof.Machine
end

section
/-! PROOFS. The approximated functions (R228): the binade of a fraction, the patterns of its two neighbours, powers of 2. -/

namespace Sys2Proof.Machine

/-! ### The binade of a positive fraction -/

/-- n/d times 2^e. -/
def fracValue (n d : Nat) (e : Int) : ℚ := (n : ℚ) / d * 2 ^ e

theorem log2_bounds {n : Nat} (hn : n ≠ 0) : (2 : ℚ) ^ (Nat.log2 n : Int) ≤ n ∧ (n : ℚ) < 2 ^ ((Nat.log2 n : Int) + 1) := by
  have hlow := Nat.log2_self_le hn
  have hhigh := Nat.lt_log2_self (n := n)
  constructor
  · exact_mod_cast hlow
  · exact_mod_cast hhigh

theorem logFloor_test {n d : Nat} (hd : d ≠ 0) (l : Int) :
    (if 0 ≤ l then d * 2 ^ l.toNat ≤ n else d ≤ n * 2 ^ (-l).toNat) ↔ (2 : ℚ) ^ l ≤ n / d := by
  have hd' : (0 : ℚ) < d := by positivity
  rw [le_div_iff₀ hd']
  split
  next h =>
    obtain ⟨k, rfl⟩ := Int.eq_ofNat_of_zero_le h
    rw [mul_comm]
    exact_mod_cast Iff.rfl
  next h =>
    obtain ⟨k, rfl⟩ := Int.exists_eq_neg_ofNat (show l ≤ 0 by omega)
    rw [zpow_neg, inv_mul_le_iff₀ (by positivity), mul_comm]
    simp only [neg_neg, Int.toNat_natCast]
    exact_mod_cast Iff.rfl

theorem logFloor_eq {n d : Nat} (hd : d ≠ 0) (e : Int) :
    let l : Int := Nat.log2 n - Nat.log2 d
    logFloor n d e = e + if (2 : ℚ) ^ l ≤ n / d then l else l - 1 :=
  congrArg (e + ·) (if_congr (logFloor_test hd _) rfl rfl)

theorem logFloor_bounds {n d : Nat} (hn : n ≠ 0) (hd : d ≠ 0) (e : Int) :
    (2 : ℚ) ^ logFloor n d e ≤ fracValue n d e ∧ fracValue n d e < 2 ^ (logFloor n d e + 1) := by
  obtain ⟨hnlow, hnhigh⟩ := log2_bounds hn
  obtain ⟨hdlow, hdhigh⟩ := log2_bounds hd
  have hd' : (0 : ℚ) < d := by positivity
  have hbelow : (n : ℚ) / d < 2 ^ ((Nat.log2 n : Int) - Nat.log2 d + 1) := by
    rw [div_lt_iff₀ hd']
    calc (n : ℚ) < 2 ^ ((Nat.log2 n : Int) + 1) := hnhigh
      _ = 2 ^ ((Nat.log2 n : Int) - Nat.log2 d + 1) * 2 ^ (Nat.log2 d : Int) := by rw [← zpow_add₀ two_ne_zero]; congr 1; omega
      _ ≤ _ := by gcongr
  have habove : 2 ^ ((Nat.log2 n : Int) - Nat.log2 d - 1) < (n : ℚ) / d := by
    rw [lt_div_iff₀ hd']
    calc (2 : ℚ) ^ ((Nat.log2 n : Int) - Nat.log2 d - 1) * d
      _ < 2 ^ ((Nat.log2 n : Int) - Nat.log2 d - 1) * 2 ^ ((Nat.log2 d : Int) + 1) := by gcongr
      _ = 2 ^ (Nat.log2 n : Int) := by rw [← zpow_add₀ two_ne_zero]; congr 1; omega
      _ ≤ _ := hnlow
  rw [logFloor_eq hd, fracValue]
  split
  next hge =>
    constructor
    · rw [zpow_add₀ two_ne_zero, mul_comm]
      gcongr
    · rw [add_assoc, zpow_add₀ two_ne_zero, mul_comm]
      gcongr
  next hlt =>
    have hlt := not_le.1 hlt
    constructor
    · rw [zpow_add₀ two_ne_zero, mul_comm]
      gcongr
    · rw [add_assoc, sub_add_cancel, zpow_add₀ two_ne_zero, mul_comm]
      gcongr

theorem logFloor_unique {n d : Nat} (hn : n ≠ 0) (hd : d ≠ 0) {e l : Int} (hlow : (2 : ℚ) ^ l ≤ fracValue n d e)
    (hhigh : fracValue n d e < 2 ^ (l + 1)) : logFloor n d e = l := by
  obtain ⟨hlow', hhigh'⟩ := logFloor_bounds hn hd e
  have h1 := (zpow_lt_zpow_iff_right₀ (one_lt_two (α := ℚ))).1 (hlow.trans_lt hhigh')
  have h2 := (zpow_lt_zpow_iff_right₀ (one_lt_two (α := ℚ))).1 (hlow'.trans_lt hhigh)
  omega

/-! ### Scaling by a power of 2 -/

theorem scaleFrac_pos {n d : Nat} (hd : d ≠ 0) (s : Int) : 0 < (scaleFrac n d s).2 := by
  unfold scaleFrac
  split
  · exact Nat.pos_of_ne_zero hd
  · positivity

theorem scaleFrac_value {n d : Nat} (hd : d ≠ 0) (s : Int) : ((scaleFrac n d s).1 : ℚ) / (scaleFrac n d s).2 = fracValue n d s := by
  unfold scaleFrac fracValue
  split
  next h =>
    obtain ⟨k, rfl⟩ := Int.eq_ofNat_of_zero_le h
    simp only [Int.toNat_natCast, zpow_natCast]
    push_cast
    ring
  next h =>
    obtain ⟨k, rfl⟩ := Int.exists_eq_neg_ofNat (show s ≤ 0 by omega)
    simp only [neg_neg, Int.toNat_natCast, zpow_neg, zpow_natCast]
    push_cast
    field_simp

theorem fracValue_sub (n d : Nat) (e t : Int) : fracValue n d (e - t) * 2 ^ t = fracValue n d e := by
  rw [fracValue, fracValue, mul_assoc, ← zpow_add₀ two_ne_zero, sub_add_cancel]

theorem scaleFrac_lt {n d : Nat} (hn : n ≠ 0) (hd : d ≠ 0) {e t : Int} {p : Nat} (h : logFloor n d e < p + t) :
    (scaleFrac n d (e - t)).1 < (scaleFrac n d (e - t)).2 * 2 ^ p := by
  have hpos : (0 : ℚ) < (scaleFrac n d (e - t)).2 := by exact_mod_cast scaleFrac_pos hd _
  have hvalue : fracValue n d e < 2 ^ (p + t) := (logFloor_bounds hn hd e).2.trans_le (zpow_le_zpow_right₀ one_le_two h)
  rw [← fracValue_sub n d e t, zpow_add₀ two_ne_zero, mul_lt_mul_iff_left₀ (by positivity), ← scaleFrac_value hd, div_lt_iff₀ hpos,
    mul_comm] at hvalue
  exact_mod_cast hvalue

theorem scaleFrac_ge {n d : Nat} (hn : n ≠ 0) (hd : d ≠ 0) {e t : Int} {p : Nat} (h : p + t ≤ logFloor n d e) :
    (scaleFrac n d (e - t)).2 * 2 ^ p ≤ (scaleFrac n d (e - t)).1 := by
  have hpos : (0 : ℚ) < (scaleFrac n d (e - t)).2 := by exact_mod_cast scaleFrac_pos hd _
  have hvalue : 2 ^ (p + t) ≤ fracValue n d e := (zpow_le_zpow_right₀ one_le_two h).trans (logFloor_bounds hn hd e).1
  rw [← fracValue_sub n d e t, zpow_add₀ two_ne_zero, mul_le_mul_iff_left₀ (by positivity), ← scaleFrac_value hd, le_div_iff₀ hpos,
    mul_comm] at hvalue
  exact_mod_cast hvalue

/-! ### The pattern that a rounding gives -/

/-- The pattern of `k` units of the last place at exponent `ex`, where it may lie above the largest value. -/
def gridPattern (f : FpFmt) (md : RoundMode) (neg : Bool) (ex : Int) (k : Nat) : Nat :=
  let fw := fmtFrac f
  let (k2, ex2) := if k = 2 ^ (fw + 1) then (2 ^ fw, ex + 1) else (k, ex)
  let emax : Int := if f = .e4m3 then 8 else fmtBias f
  if emax < ex2 || (f = .e4m3 && ex2 = 8 && k2 = 15) then overflowTo f md neg
  else signBit f neg + if k2 < 2 ^ fw then k2 else (ex2 + fmtBias f).toNat * 2 ^ fw + (k2 - 2 ^ fw)

/-- Exponent of the binade whose spacing a value rounds to. -/
def gridExp (f : FpFmt) (n d : Nat) (e : Int) : Int := max (logFloor n d e) (fmtMin f)

/-- The value in units of the last place there, as a fraction (R195). -/
def gridFrac (f : FpFmt) (n d : Nat) (e : Int) : Nat × Nat := scaleFrac n d (e - (gridExp f n d e - fmtFrac f))

theorem roundTo_fst (f : FpFmt) (md : RoundMode) (neg : Bool) (n d : Nat) (e : Int) :
    (roundTo f md false neg n d e).1 =
      let (a, b) := gridFrac f n d e
      gridPattern f md neg (gridExp f n d e) (if roundsUp md neg (a / b) (a % b) b then a / b + 1 else a / b) := by
  simp only [roundTo, gridPattern, gridFrac, gridExp, Bool.and_false, Bool.false_and, Bool.false_eq_true, if_false]
  exact apply_ite Prod.fst _ _ _

theorem gridPattern_below {f : FpFmt} (md : RoundMode) (neg : Bool) {ex : Int} {k : Nat} (hmax : ex ≤ fmtBias f)
    (hk : k ≠ 2 ^ (fmtFrac f + 1)) : gridPattern f md neg ex k =
      signBit f neg + if k < 2 ^ fmtFrac f then k else (ex + fmtBias f).toNat * 2 ^ fmtFrac f + (k - 2 ^ fmtFrac f) := by
  unfold gridPattern
  simp only [if_neg hk]
  refine if_neg ?_
  by_cases hf : f = .e4m3
  · have hmax : ex ≤ 7 := by subst hf; exact hmax
    simp [hf, show ¬ 8 < ex by omega, show ex ≠ 8 by omega]
  · simpa [hf] using hmax

theorem gridPattern_carry {f : FpFmt} {md : RoundMode} {neg : Bool} {ex : Int} (hmax : ex ≤ fmtBias f)
    (hover : overflowTo f md neg = infOf f neg) :
    gridPattern f md neg ex (2 ^ (fmtFrac f + 1)) = signBit f neg + (ex + 1 + fmtBias f).toNat * 2 ^ fmtFrac f := by
  unfold gridPattern
  simp only [if_true, lt_irrefl, if_false, Nat.sub_self, Nat.add_zero]
  by_cases hf : f = .e4m3
  · have hmax : ex ≤ 7 := by subst hf; exact hmax
    rw [if_neg]
    simp [hf, show ¬ 8 < ex + 1 by omega, fmtFrac]
  · by_cases htop : ex = fmtBias f
    · have hbias := fmtBias_double f
      rw [if_pos (by simp [hf, htop]), hover, infOf, if_neg hf, htop,
        show ((fmtBias f : Int) + 1 + fmtBias f).toNat = 2 ^ fmtExp f - 1 by omega]
    · rw [if_neg]
      simp only [hf, if_false, decide_false, Bool.false_and, Bool.or_false, decide_eq_true_eq]
      omega

/-- Of values up to the largest binade, the pattern counts the units of the last place, over the edge of a binade too. -/
theorem gridPattern_eq {f : FpFmt} {md : RoundMode} {neg : Bool} {ex : Int} {k : Nat} (hmin : fmtMin f ≤ ex)
    (hmax : ex ≤ fmtBias f) (hover : k = 2 ^ (fmtFrac f + 1) → overflowTo f md neg = infOf f neg) :
    gridPattern f md neg ex k =
      signBit f neg + if k < 2 ^ fmtFrac f then k else (ex + fmtBias f).toNat * 2 ^ fmtFrac f + (k - 2 ^ fmtFrac f) := by
  by_cases htop : k = 2 ^ (fmtFrac f + 1)
  · have hdouble : k = 2 * 2 ^ fmtFrac f := htop.trans Nat.pow_succ'
    have hnext : (ex + 1 + fmtBias f).toNat = (ex + fmtBias f).toNat + 1 := by
      unfold fmtMin at hmin
      omega
    rw [if_neg (by omega), htop, gridPattern_carry hmax (hover htop), hnext, Nat.succ_mul, ← htop]
    omega
  · exact gridPattern_below md neg hmax htop

theorem gridPattern_succ {f : FpFmt} {md up : RoundMode} {neg : Bool} {ex : Int} {k : Nat} (hmin : fmtMin f ≤ ex)
    (hmax : ex ≤ fmtBias f) (hk : k < 2 ^ (fmtFrac f + 1)) (hfirst : k + 1 = 2 ^ fmtFrac f → ex = fmtMin f)
    (hover : overflowTo f up neg = infOf f neg) :
    gridPattern f up neg ex (k + 1) = gridPattern f md neg ex k + 1 := by
  rw [gridPattern_eq hmin hmax fun _ => hover, gridPattern_below md neg hmax hk.ne]
  by_cases hnormal : 2 ^ fmtFrac f ≤ k
  · rw [if_neg (by omega), if_neg (by omega)]
    omega
  · rw [if_pos (show k < 2 ^ fmtFrac f by omega)]
    by_cases hedge : k + 1 = 2 ^ fmtFrac f
    · have hone : (ex + fmtBias f).toNat = 1 := by
        rw [hfirst hedge, fmtMin]
        omega
      rw [if_neg (by omega), hone]
      omega
    · rw [if_pos (by omega)]
      omega

/-! ### The two neighbours of R228 -/

theorem fmtMin_le_fmtBias (f : FpFmt) : fmtMin f ≤ fmtBias f := by cases f <;> decide

theorem gridFrac_pos (f : FpFmt) (n : Nat) {d : Nat} (hd : d ≠ 0) (e : Int) : 0 < (gridFrac f n d e).2 := scaleFrac_pos hd _

theorem gridFrac_zero (f : FpFmt) (d : Nat) (e : Int) : (gridFrac f 0 d e).1 = 0 := by
  unfold gridFrac scaleFrac
  split <;> simp

theorem gridFrac_lt (f : FpFmt) (n : Nat) {d : Nat} (hd : d ≠ 0) (e : Int) :
    (gridFrac f n d e).1 < (gridFrac f n d e).2 * 2 ^ (fmtFrac f + 1) := by
  by_cases hn : n = 0
  · rw [hn, gridFrac_zero]
    exact Nat.mul_pos (gridFrac_pos f 0 hd e) (Nat.two_pow_pos _)
  · have hmax : logFloor n d e ≤ gridExp f n d e := le_max_left _ _
    exact scaleFrac_lt hn hd (by push_cast; omega)

theorem gridFrac_ge {f : FpFmt} {n d : Nat} (hn : n ≠ 0) (hd : d ≠ 0) {e : Int} (h : fmtMin f < gridExp f n d e) :
    (gridFrac f n d e).2 * 2 ^ fmtFrac f ≤ (gridFrac f n d e).1 := by
  have hmax : gridExp f n d e ≤ logFloor n d e := (max_choice _ _).elim le_of_eq fun hmin => absurd h hmin.not_gt
  exact scaleFrac_ge hn hd (by omega)

theorem roundsUp_away (neg : Bool) (k r d : Nat) : roundsUp (if neg then .rdn else .rup) neg k r d = (r != 0) := by
  cases neg <;> simp [roundsUp]

theorem overflowTo_away (f : FpFmt) (neg : Bool) : overflowTo f (if neg then .rdn else .rup) neg = infOf f neg := by
  cases neg <;> simp [overflowTo]

/-- The two results between which a free value chooses have neighbouring patterns, or the same. -/
def Neighbours (g : Bool → FpRes) : Prop := (g true).1 = (g false).1 ∨ (g true).1 = (g false).1 + 1

theorem neighbours_const (r : FpRes) : Neighbours fun _ => r := .inl rfl

theorem neighbours_ite {c : Prop} [Decidable c] {g h : Bool → FpRes} (hg : Neighbours g) (hh : Neighbours h) :
    Neighbours fun up => if c then g up else h up := by
  by_cases hc : c
  · simpa only [if_pos hc] using hg
  · simpa only [if_neg hc] using hh

theorem bracket_neighbours (f : FpFmt) (neg : Bool) (n : Nat) {d : Nat} (hd : d ≠ 0) (e : Int) :
    Neighbours fun up => bracket f false neg up n d e := by
  unfold Neighbours
  unfold bracket
  by_cases hover : (fmtBias f : Int) < logFloor n d e
  · simp only [if_pos hover, true_or]
  simp only [if_neg hover, if_true, Bool.false_eq_true, if_false, roundTo_fst, roundsUp_away]
  have hmin : fmtMin f ≤ gridExp f n d e := le_max_right _ _
  have hmax : gridExp f n d e ≤ fmtBias f := max_le (not_lt.1 hover) (fmtMin_le_fmtBias f)
  have hk := Nat.div_lt_of_lt_mul (gridFrac_lt f n hd e)
  by_cases hexact : (gridFrac f n d e).1 % (gridFrac f n d e).2 = 0
  · left
    simp only [hexact, roundsUp, bne_self_eq_false, Bool.false_eq_true, if_false]
    rw [gridPattern_below _ neg hmax hk.ne, gridPattern_below _ neg hmax hk.ne]
  · right
    simp only [roundsUp, bne_iff_ne.2 hexact, if_true, Bool.false_eq_true, if_false]
    refine gridPattern_succ hmin hmax hk (fun hedge => ?_) (overflowTo_away f neg)
    by_contra hnormal
    have hn : n ≠ 0 := by
      rintro rfl
      exact hexact (by rw [gridFrac_zero, Nat.zero_mod])
    have hle : 2 ^ fmtFrac f ≤ (gridFrac f n d e).1 / (gridFrac f n d e).2 := by
      rw [Nat.le_div_iff_mul_le (gridFrac_pos f n hd e), mul_comm]
      exact gridFrac_ge hn hd (lt_of_le_of_ne hmin (Ne.symm hnormal))
    omega

/-! ### Powers of 2 (Table 8.5) -/

theorem fracValue_power {d : Nat} (hd : d ≠ 0) (i : Nat) (t : Int) : fracValue (d * 2 ^ i) d (t - i) = 2 ^ t := by
  have hd' : (d : ℚ) ≠ 0 := by exact_mod_cast hd
  rw [fracValue, zpow_sub₀ two_ne_zero, zpow_natCast]
  push_cast
  field_simp

theorem logFloor_power {d : Nat} (hd : d ≠ 0) (i : Nat) (t : Int) : logFloor (d * 2 ^ i) d (t - i) = t := by
  have hn : d * 2 ^ i ≠ 0 := by positivity
  apply logFloor_unique hn hd
  · rw [fracValue_power hd]
  · rw [fracValue_power hd]
    exact zpow_lt_zpow_right₀ one_lt_two (by omega)

theorem scaleFrac_power {d : Nat} (hd : d ≠ 0) (i p : Nat) :
    (scaleFrac (d * 2 ^ i) d (p - i)).1 = (scaleFrac (d * 2 ^ i) d (p - i)).2 * 2 ^ p := by
  have hpos : (0 : ℚ) < (scaleFrac (d * 2 ^ i) d (p - i)).2 := by exact_mod_cast scaleFrac_pos hd _
  have hvalue := (scaleFrac_value hd (p - i)).trans (fracValue_power hd i p)
  rw [div_eq_iff hpos.ne'] at hvalue
  refine Eq.trans ?_ (Nat.mul_comm _ _)
  exact_mod_cast hvalue

theorem roundsUp_none (md : RoundMode) (neg : Bool) (k : Nat) {d : Nat} (hd : 0 < d) : roundsUp md neg k 0 d = false := by
  cases md <;> simp [roundsUp, hd.ne]

/-- A normal power of 2 is on the grid, however it is written. -/
theorem roundTo_power {f : FpFmt} (md : RoundMode) (fz neg : Bool) {d : Nat} (hd : d ≠ 0) (i : Nat) {t : Int} (hmin : fmtMin f ≤ t)
    (hmax : t ≤ fmtBias f) :
    roundTo f md fz neg (d * 2 ^ i) d (t - i) = (signBit f neg + (t + fmtBias f).toNat * 2 ^ fmtFrac f, 0) := by
  have hgrid := scaleFrac_power hd i (fmtFrac f)
  have hpos := scaleFrac_pos hd (n := d * 2 ^ i) (fmtFrac f - i)
  have hscale : t - i - (t - fmtFrac f) = fmtFrac f - i := by omega
  have hfits : ¬ (if f = .e4m3 then 8 else (fmtBias f : Int)) < t := by
    by_cases hf : f = .e4m3
    · subst hf
      simp [fmtBias, fmtExp, fmtBits, fmtFrac] at hmax ⊢
      omega
    · simpa [hf] using hmax
  have hnan : ¬ (f = .e4m3 ∧ t = 8) := by
    rintro ⟨rfl, rfl⟩
    exact absurd hmax (by decide)
  have hcarry : 2 ^ fmtFrac f ≠ 2 ^ (fmtFrac f + 1) := (Nat.pow_lt_pow_succ one_lt_two).ne
  simp [roundTo, logFloor_power hd, max_eq_left hmin, not_lt.2 hmin, hscale, hgrid, Nat.mul_div_cancel_left _ hpos,
    roundsUp_none _ _ _ hpos, hcarry, hfits, hnan]

/-! ### The functions of R228 -/

theorem isqrtFrom_bounds {i n r : Nat} (hlow : r * r ≤ n) (hhigh : n < (r + 2 ^ i) * (r + 2 ^ i)) :
    isqrtFrom i n r * isqrtFrom i n r ≤ n ∧ n < (isqrtFrom i n r + 1) * (isqrtFrom i n r + 1) := by
  induction i generalizing r with
  | zero => exact ⟨hlow, hhigh⟩
  | succ i ih =>
    rw [isqrtFrom]
    split
    next h =>
      refine ih h ?_
      rwa [Nat.add_assoc, ← Nat.two_mul, ← Nat.pow_succ']
    next h => exact ih hlow (not_le.1 h)

theorem isqrt_eq_sqrt (n : Nat) : isqrt n = Nat.sqrt n := by
  have hhigh : n < (0 + 2 ^ (Nat.log2 n / 2 + 1)) * (0 + 2 ^ (Nat.log2 n / 2 + 1)) := by
    rw [Nat.zero_add, ← Nat.pow_add]
    exact Nat.lt_log2_self.trans_le (Nat.pow_le_pow_right two_pos (by omega))
  exact Nat.eq_sqrt.2 (isqrtFrom_bounds (by simp) hhigh)

theorem isqrt_square (j : Nat) : isqrt (2 ^ j * 2 ^ j) = 2 ^ j := by rw [isqrt_eq_sqrt, Nat.sqrt_eq]

/-- A fraction that is a square, with an even exponent: its root. -/
theorem sqrtFrac_square {n d : Nat} {e : Int} {j : Nat} (hd : d ≠ 0)
    (hn : (if e % 2 = 1 then 2 * n else n) * 2 ^ (2 * 160 + 2 * Nat.log2 d) = d * (2 ^ j * 2 ^ j)) :
    sqrtFrac n d e = (2 * 2 ^ j, 2, (if e % 2 = 1 then e - 1 else e) / 2 - 160 - Nat.log2 d, true) := by
  simp only [sqrtFrac, hn, Nat.mul_div_cancel_left _ (Nat.pos_of_ne_zero hd), Nat.mul_mod_right, isqrt_square, decide_true, Bool.and_self,
    if_true]

/-- The root of a power of 2 with an even exponent, however the power is written, is its half. -/
theorem sqrtFrac_power (i : Nat) (t : Int) : ∃ j : Nat, sqrtFrac 1 (2 ^ i) (2 * t + i) = (2 * 2 ^ j, 2, t - j, true) := by
  have hd : 2 ^ i ≠ 0 := (Nat.two_pow_pos i).ne'
  obtain ⟨h, rfl | rfl⟩ := Nat.even_or_odd' i
  · refine ⟨160 + h, ?_⟩
    rw [sqrtFrac_square (j := 160 + h) hd, Nat.log2_two_pow, if_neg (by omega)]
    · simp only [Prod.mk.injEq, true_and, and_true]
      omega
    · rw [Nat.log2_two_pow, if_neg (by omega), Nat.one_mul, ← Nat.pow_add, ← Nat.pow_add]
      congr 1
      omega
  · refine ⟨161 + h, ?_⟩
    rw [sqrtFrac_square (j := 161 + h) hd, Nat.log2_two_pow, if_pos (by omega)]
    · simp only [Prod.mk.injEq, true_and, and_true]
      omega
    · rw [Nat.log2_two_pow, if_pos (by omega), Nat.mul_one, ← Nat.pow_succ', ← Nat.pow_add, ← Nat.pow_add]
      congr 1
      omega

theorem bracket_power {f : FpFmt} (fz neg up : Bool) {d : Nat} (hd : d ≠ 0) (i : Nat) {t : Int} (hmin : fmtMin f ≤ t)
    (hmax : t ≤ fmtBias f) :
    bracket f fz neg up (d * 2 ^ i) d (t - i) = (signBit f neg + (t + fmtBias f).toNat * 2 ^ fmtFrac f, 0) :=
  roundTo_power _ fz neg hd i hmin hmax

theorem rsqFp_power {f : FpFmt} (fz up : Bool) (i : Nat) {t : Int} (hmin : fmtMin f ≤ t) (hmax : t ≤ fmtBias f) :
    rsqFp f fz up (.fin false (2 ^ i) (-2 * t - i)) = ((t + fmtBias f).toNat * 2 ^ fmtFrac f, 0) := by
  obtain ⟨j, hroot⟩ := sqrtFrac_power i t
  have hexp : -(-2 * t - i) = 2 * t + i := by ring
  simp only [rsqFp, hexp, hroot, bracket_power fz false up two_ne_zero j hmin hmax]
  simp [signBit]

theorem log2Fp_power (f : FpFmt) (fz up : Bool) (i : Nat) (t : Int) :
    log2Fp f fz up (.fin false (2 ^ i) (t - i)) = roundInt f rneOnly false t 0 := by
  simp [log2Fp, Nat.log2_two_pow]

theorem exp2Frac_integer {t : Int} (ht : t.natAbs < 2 ^ 13) : exp2Frac (t < 0) t.natAbs 0 = (1, t) := by
  have hsmall : geqPow t.natAbs 0 13 = false := by
    by_cases hzero : t.natAbs = 0
    · simp [geqPow, hzero]
    · have hlog := (Nat.log2_lt hzero).2 ht
      simp only [geqPow, logFloor_natural hzero, Bool.and_eq_false_iff, decide_eq_false_iff_not]
      omega
  have hsigned : signed (decide (t < 0)) t.natAbs = t := by
    by_cases hneg : t < 0
    · simp only [signed, hneg, decide_true, if_true]
      omega
    · simp only [signed, hneg, decide_false, Bool.false_eq_true, if_false]
      omega
  simp [exp2Frac, hsmall, roundNat, scaleFrac_zero, roundsUp, Nat.mod_one, hsigned]

theorem exp2Fp_integer {f : FpFmt} (fz up : Bool) {t : Int} (hmin : fmtMin f ≤ t) (hmax : t ≤ fmtBias f) :
    exp2Fp f fz up (.fin (t < 0) t.natAbs 0) = ((t + fmtBias f).toNat * 2 ^ fmtFrac f, 0) := by
  have hbias : fmtBias f ≤ 1023 := by cases f <;> decide
  have hpower := bracket_power fz false up one_ne_zero 0 hmin hmax
  have ht : t.natAbs < 2 ^ 13 := by
    unfold fmtMin at hmin
    omega
  simp only [exp2Fp, exp2Frac_integer ht]
  simpa [signBit] using hpower

theorem rsqFp_neighbours (f : FpFmt) (x : Fp) : Neighbours fun up => rsqFp f false up x :=
  match x with
  | .nan _ | .inf _ => neighbours_const _
  | .fin _ m e => neighbours_ite (neighbours_const _) (neighbours_ite (neighbours_const _)
      (bracket_neighbours f false (sqrtFrac 1 m (-e)).1 two_ne_zero (sqrtFrac 1 m (-e)).2.2.1))

theorem exp2Fp_neighbours (f : FpFmt) (x : Fp) : Neighbours fun up => exp2Fp f false up x :=
  match x with
  | .nan _ | .inf _ => neighbours_const _
  | .fin n m e => bracket_neighbours f false (exp2Frac n m e).1 one_ne_zero (exp2Frac n m e).2

theorem log2Fp_neighbours (f : FpFmt) (x : Fp) : Neighbours fun up => log2Fp f false up x :=
  match x with
  | .nan _ | .inf _ => neighbours_const _
  | .fin _ _ _ => neighbours_ite (neighbours_const _) (neighbours_ite (neighbours_const _)
      (neighbours_ite (neighbours_const _) (bracket_neighbours f _ _ one_ne_zero _)))

theorem tanhFp_neighbours (f : FpFmt) (x : Fp) : Neighbours fun up => tanhFp f false up x :=
  match x with
  | .nan _ | .inf _ => neighbours_const _
  | .fin _ _ _ => neighbours_ite (neighbours_const _) (neighbours_ite (neighbours_const _)
      (neighbours_ite (bracket_neighbours f _ _ (Nat.add_pos_right _ (Nat.two_pow_pos fixP)).ne' _)
        (bracket_neighbours f _ _ one_ne_zero _)))

theorem tanhFp_large {f : FpFmt} (fz up neg : Bool) {m : Nat} (hm : (if f = .fp64 then 40 else 20) ≤ m) :
    tanhFp f fz up (.fin neg m 0) = (signBit f neg + fmtBias f * 2 ^ fmtFrac f, flNX) := by
  have hzero : m ≠ 0 := by split at hm <;> omega
  have hlarge : ¬ ((m : Int) < if f = .fp64 then 40 else 20) := by split at hm <;> simp_all
  simp [tanhFp, hzero, align2, hlarge]

/-- Settles O9: the two values by `bracket_neighbours`, the powers of 2 by `bracket_power`. -/
theorem approximatedWordsWriteABracketingResult : Obligations.approximated_words_write_a_bracketing_result := by
  refine ⟨fun s e k d a ft => ?_, fun f fz up => ?_⟩
  · exact List.forall_iff_forall_mem.1 ⟨fun h => leaves_of_regOp h rfl rfl, fun h => leaves_of_regOp h rfl rfl,
      fun h => leaves_of_regOp h rfl rfl, fun h => leaves_of_regOp h rfl rfl⟩
  refine ⟨?neighbours, ?zeros, rfl, rfl, rfl, rfl, fun _ => rfl, ?negative, ?powers, fun neg m hm => tanhFp_large fz up neg hm⟩
  case neighbours =>
    exact List.forall_iff_forall_mem.1 ⟨⟨rsqFp_neighbours f, rfl, rfl⟩, ⟨exp2Fp_neighbours f, rfl, rfl⟩,
      ⟨log2Fp_neighbours f, rfl, rfl⟩, ⟨tanhFp_neighbours f, rfl, rfl⟩⟩
  case zeros => exact fun neg e => ⟨rfl, rfl, rfl⟩
  case negative =>
    rintro x (rfl | ⟨m, e, rfl, hm⟩)
    · exact ⟨rfl, rfl⟩
    · simp [rsqFp, log2Fp, hm]
  case powers =>
    exact fun i n hmin hmax => ⟨rsqFp_power fz up i hmin hmax, log2Fp_power f fz up i n, exp2Fp_integer fz up hmin hmax⟩

end Sys2Proof.Machine
end

section
/-! PROOFS. The acts of a core's vector side: starts, returns, leases and droops (R214 to R219, R260 to R264, R434, R435, R448). -/

namespace Sys2Proof.Machine

/-! ### Results, leases and holds (R218, R434, R448) -/

section
variable {s : State} {core slot field : Nat}

theorem vectorResult_returns {sl : Slot} {r : Nat × Reg} {rest : List (Nat × Reg)} (h : tget s.slots slot = some sl)
    (hs : sl.started = r :: rest) (hroom : sl.ret.length < 8) :
    exec (.vectorResultReturn slot) s =
      let s1 := s.setSlot slot { sl with started := rest, ret := sl.ret ++ [r] }
      .next (if rest = [] then s1 else s1.postOnce (.vectorResultReturn slot)) := by
  show execVectorResultReturn slot s = _
  simp [execVectorResultReturn, h, hs, retSize, hroom]

theorem vectorResult_waits {sl : Slot} {r : Nat × Reg} {rest : List (Nat × Reg)} (h : tget s.slots slot = some sl)
    (hs : sl.started = r :: rest) (hfull : 8 ≤ sl.ret.length) :
    exec (.vectorResultReturn slot) s = .next (s.postOnce (.vectorResultReturn slot)) := by
  show execVectorResultReturn slot s = _
  simp [execVectorResultReturn, h, hs, retSize, hfull]

/-- A core holds a strand. -/
def State.holdsStrand (s : State) (core : Nat) : Prop := ∃ x ∈ s.slots, coreOfSlot x.1 = core

theorem holdsStrand_iff : (s.slots.any fun e => coreOfSlot e.1 = core) = true ↔ s.holdsStrand core := by
  simp [State.holdsStrand, List.any_eq_true]

/-- The state after a request for a lease that `got` tokens answer. -/
def State.leaseAnswered (s : State) (core got : Nat) : State :=
  let c := s.core core
  (s.modField (core / 256) fun x => { x with free := x.free - got }).setCore core
    { c with lease := c.lease + got, leaseAsk := 0, refused := if got < c.leaseAsk then some (s.cycleOf core) else none }

/-- The broker may serve a core's request (R434). -/
def State.leaseServed (s : State) (core : Nat) : Prop :=
  s.holdsStrand core ∧ (s.tile (tileOfCore core)).lit = true ∧ (s.field (core / 256)).waiters = [] ∧ (s.field (core / 256)).hold = none

theorem leaseRequest_answered {got : Nat} (hask : (s.core core).leaseAsk ≠ 0)
    (hgot : (s.leaseServed core ∧ got = min (s.core core).leaseAsk (s.field (core / 256)).free) ∨ (¬ s.leaseServed core ∧ got = 0)) :
    exec (.leaseRequest core) s = .next (s.leaseAnswered core got) := by
  have hopen : ((s.slots.any fun e => coreOfSlot e.1 = core) && (s.tile (tileOfCore core)).lit && (s.field (core / 256)).waiters.isEmpty &&
      !s.holdIn (core / 256)) = true ↔ s.leaseServed core := by
    simp [State.leaseServed, ← holdsStrand_iff, State.holdIn, and_assoc]
  show execLeaseRequest core s = _
  unfold execLeaseRequest
  rw [if_neg hask]
  rcases hgot with ⟨h, rfl⟩ | ⟨h, rfl⟩
  · simp only [hopen.2 h, if_true, State.leaseAnswered]
  · simp only [Bool.not_eq_true _ ▸ mt hopen.1 h, State.leaseAnswered]
    rfl

theorem leaseIdleReturn_none (h : (s.core core).lease = 0) : exec (.leaseIdleReturn core) s = .next s := by
  show execLeaseIdleReturn core s = _
  simp [execLeaseIdleReturn, h]

theorem leaseIdleReturn_later (h : (s.core core).lease ≠ 0) (hheld : s.holdsStrand core)
    (hbusy : s.cycleOf core < (s.core core).started + 4096) :
    exec (.leaseIdleReturn core) s =
      .next (s.postAtOnce (max (s.time + 1) (s.cycleEnds core ((s.core core).started + 4096))) (.leaseIdleReturn core)) := by
  have hidle : ¬ (s.core core).started + leaseIdle ≤ s.cycleOf core := not_le.2 hbusy
  show execLeaseIdleReturn core s = _
  simp only [execLeaseIdleReturn, holdsStrand_iff.2 hheld, hidle, h, decide_false, Bool.not_true, Bool.or_self, Bool.and_false,
    Bool.false_eq_true, if_false]
  rfl

theorem leaseIdleReturn_returns (h : (s.core core).lease ≠ 0)
    (hidle : ¬ s.holdsStrand core ∨ (s.core core).started + 4096 ≤ s.cycleOf core) :
    exec (.leaseIdleReturn core) s = .next ((s.returnLease core).serveField (core / 256)) := by
  show execLeaseIdleReturn core s = _
  refine if_pos ?_
  rw [← holdsStrand_iff, Bool.not_eq_true] at hidle
  rw [Bool.and_eq_true, Bool.or_eq_true, Bool.not_eq_true', decide_eq_true_iff]
  exact ⟨bne_iff_ne.2 h, hidle⟩

theorem returnLease_pool (h : (s.field (core / 256)).retired = false) : s.returnLease core =
    (s.modCore core fun x => { x with lease := 0 }).modField (core / 256) fun x => { x with free := x.free + (s.core core).lease } := by
  simp [State.returnLease, State.addFree, State.modField, h]

theorem returnLease_retired (h : (s.field (core / 256)).retired = true) : s.returnLease core =
    (s.modCore core fun x => { x with lease := 0 }).modField (core / 256) fun x => { x with total := x.total - (s.core core).lease } := by
  simp [State.returnLease, State.addFree, State.modField, h]

theorem droopHoldExit_ends {t0 : Nat} (h : (s.field field).hold = some t0) (hlong : t0 + 20000 ≤ s.time)
    (hfew : ((s.field field).senses.filter fun t => s.time < t + 20000).length ≤ 64) :
    exec (.droopHoldExit field) s = .next ((s.setField field { (s.field field) with
      hold := none, senses := (s.field field).senses.filter fun t => s.time < t + 20000 }).serveField field) := by
  show execDroopHoldExit field s = _
  unfold execDroopHoldExit
  simp only [h]
  refine if_pos ?_
  rw [Bool.and_eq_true, decide_eq_true_iff, decide_eq_true_iff]
  exact ⟨hlong, hfew⟩

theorem droopHoldExit_stays {t0 : Nat} (h : (s.field field).hold = some t0)
    (hmore : s.time < t0 + 20000 ∨ 64 < ((s.field field).senses.filter fun t => s.time < t + 20000).length) :
    exec (.droopHoldExit field) s = .next s := by
  show execDroopHoldExit field s = _
  unfold execDroopHoldExit
  simp only [h]
  refine if_neg ?_
  rw [Bool.and_eq_true, decide_eq_true_iff, decide_eq_true_iff, not_and_or, not_le, not_le]
  exact hmore

/-! ### Sense events and windows (R261, R263) -/

/-- The lease count alone is brought up to date. -/
theorem countTo_eq (x : Core) (c : Nat) : ∃ n m, c ≤ m ∧ x.countTo c = { x with leaseK := n, leaseC := m } := by
  unfold Core.countTo
  split
  · exact ⟨_, _, le_refl c, rfl⟩
  · next h => exact ⟨_, _, not_lt.1 h, rfl⟩

theorem senseAtBroker_frame (s : State) (f : Nat) : (s.senseAtBroker f).mem = s.mem ∧ (s.senseAtBroker f).strands = s.strands ∧
    (s.senseAtBroker f).cores = s.cores ∧ ((s.senseAtBroker f).field f).senses.head? = some s.time := by
  unfold State.senseAtBroker
  extract_lets fd l n start s1
  have hsenses : (s1.field f).senses.head? = some s.time := by simp [s1, l]
  split <;> exact ⟨rfl, rfl, rfl, hsenses⟩

/-- What a droop event in cycle `c` does to the core's windows and counts (R263). -/
theorem droop_windows (x : Core) (c : Nat) :
    (x.droop c).stretchEnd = max x.stretchEnd (c + 6) ∧ (x.droop c).halfEnd = max x.halfEnd (max x.stretchEnd (c + 6) + 64) ∧
      (x.droop c).stretch = x.stretch + BitVec.ofNat 32 (c + 6 - max x.stretchEnd c) ∧
      (x.droop c).baseCycle = if x.stretchEnd < c then c + 1 else x.baseCycle := by
  obtain ⟨n, m, -, hcount⟩ := countTo_eq x c
  simp only [Core.droop, hcount, stretchSpan, halfSpan]
  by_cases h : x.stretchEnd < c + 6
  · simp only [if_pos h, max_eq_right h.le, and_self]
  · have hzero : c + 6 - max x.stretchEnd c = 0 := by omega
    simp only [if_neg h, max_eq_left (not_lt.1 h), hzero, BitVec.add_zero, and_self]

/-- The state after a sense event of a working core. -/
def State.sensed (s : State) (core : Nat) : State :=
  ((s.modCore core fun x => { (x.droop (s.cycleOf core)) with sense := sat16 (x.sense + 1) }).droopTimers core).senseAtBroker (core / 256)

theorem exec_senseEvent (hboot : s.boot = .ready) (hgood : (s.core core).good = true) :
    exec (.senseEvent core) s = .next (s.sensed core) := by
  show execSenseEvent core s = _
  refine if_neg ?_
  simp [hboot, hgood]

theorem exec_senseEvent_idle (h : s.boot ≠ .ready ∨ (s.core core).good = false) : exec (.senseEvent core) s = .next s := by
  show execSenseEvent core s = _
  refine if_pos ?_
  simpa using h

theorem sensed_core : (s.sensed core).core core =
    { ((s.core core).droop (s.cycleOf core)) with sense := sat16 ((s.core core).sense + 1) } := by
  obtain ⟨-, -, hcores, -⟩ := senseAtBroker_frame
    ((s.modCore core fun x => { (x.droop (s.cycleOf core)) with sense := sat16 (x.sense + 1) }).droopTimers core) (core / 256)
  show tgetD (s.sensed core).cores core {} = _
  rw [State.sensed, hcores]
  exact State.setCore_core _ _ _

theorem exec_droopWindowExpiry : ∃ t, exec (.droopWindowExpiry core) s = .next t ∧ t.mem = s.mem ∧ t.strands = s.strands ∧
    (t.core core).stretchEnd = (s.core core).stretchEnd ∧ (t.core core).halfEnd = (s.core core).halfEnd ∧
    (∀ c, c ≠ core → t.core c = s.core c) ∧ s.cycleOf core ≤ (t.core core).leaseC := by
  obtain ⟨n, m, hle, hcount⟩ := countTo_eq (s.core core) (s.cycleOf core)
  refine ⟨_, rfl, rfl, rfl, ?_, ?_, fun c hc => State.modCore_core_other _ _ _ _ hc, ?_⟩ <;> simp only [State.modCore_core, hcount]
  · split <;> rfl
  · split <;> rfl
  · split <;> exact hle

end

/-! ### Predicates at the heads of the forward queues (R219) -/

/-- The vector side's copy after the predicate write of an entry. -/
def takenPred (v : Vector Word 8) (f : FwdEntry) : Vector Word 8 :=
  match f.pred with
  | some (n, w) => v.set n.val w n.isLt
  | none => v

theorem takePreds_go_pred {f : FwdEntry} (h : f.instr = none) (vp : Vector Word 8) (l : List FwdEntry) :
    Slot.takePreds.go vp (f :: l) = Slot.takePreds.go (takenPred vp f) l := by
  cases hp : f.pred <;> simp [Slot.takePreds.go, takenPred, h, hp]

theorem takePreds_go_word {l : List FwdEntry} (h : ∀ f, l.head? = some f → f.instr ≠ none) (vp : Vector Word 8) :
    Slot.takePreds.go vp l = (vp, l) := by
  cases l with
  | nil => rfl
  | cons f l =>
    obtain ⟨w, hw⟩ := Option.ne_none_iff_exists'.1 (h f rfl)
    simp [Slot.takePreds.go, hw]

theorem takePreds_go {ps rest : List FwdEntry} (hps : ∀ f ∈ ps, f.instr = none) (hrest : ∀ f, rest.head? = some f → f.instr ≠ none)
    (vp : Vector Word 8) : Slot.takePreds.go vp (ps ++ rest) = (ps.foldl takenPred vp, rest) := by
  induction ps generalizing vp with
  | nil => exact takePreds_go_word hrest vp
  | cons f ps ih =>
    obtain ⟨hf, hps⟩ := List.forall_mem_cons.1 hps
    rw [List.cons_append, takePreds_go_pred hf, ih hps, List.foldl_cons]

theorem slot_takePreds {sl : Slot} {ps rest : List FwdEntry} (h : sl.fwd = ps ++ rest) (hps : ∀ f ∈ ps, f.instr = none)
    (hrest : ∀ f, rest.head? = some f → f.instr ≠ none) :
    sl.takePreds = { sl with fwd := rest, vp := ps.foldl takenPred sl.vp } := by
  rw [Slot.takePreds, h, takePreds_go hps hrest]

section
variable (s : State) (core : Nat)

theorem tget_foldl_modSlot (f : Slot → Slot) (js : List Nat) (hjs : js.Nodup) (k : Nat) :
    tget (js.foldl (fun y j => y.modSlot j f) s).slots k = if k ∈ js then (tget s.slots k).map f else tget s.slots k := by
  induction js generalizing s with
  | nil => simp
  | cons j js ih =>
    obtain ⟨hj, hjs⟩ := List.nodup_cons.1 hjs
    rw [List.foldl_cons, ih _ hjs, State.modSlot_slots, tget_tmod]
    by_cases hk : k = j
    · subst hk
      simp [hj]
    · simp [hk]

theorem takePreds_eq_foldl : s.takePreds core =
    ((upto 4).map (core * 4 + ·)).foldl (fun y j => y.modSlot j fun sl => if sl.preempt then sl else sl.takePreds) s := by
  rw [List.foldl_map]
  rfl

theorem tget_takePreds {i : Nat} (hi : i < 4) : tget (s.takePreds core).slots (core * 4 + i) =
    (tget s.slots (core * 4 + i)).map fun sl => if sl.preempt then sl else sl.takePreds := by
  rw [takePreds_eq_foldl, tget_foldl_modSlot, if_pos]
  · exact List.mem_map.2 ⟨i, List.mem_range.2 hi, rfl⟩
  · exact (List.nodup_map_iff (add_right_injective _)).2 List.nodup_range

theorem foldl_modSlot_slots (f : Slot → Slot) (js : List Nat) : ∃ l, js.foldl (fun y j => y.modSlot j f) s = { s with slots := l } := by
  induction js generalizing s with
  | nil => exact ⟨s.slots, rfl⟩
  | cons j js ih => exact ih (s.modSlot j f)

/-- Slots alone change. -/
theorem takePreds_slots : ∃ l, s.takePreds core = { s with slots := l } :=
  takePreds_eq_foldl s core ▸ foldl_modSlot_slots s _ _

end

/-! ### The entry that starts (R214, R217, R218, R115) -/

theorem canStart_iff {sl : Slot} {x : Core} {c : Nat} {f : FwdEntry} {rest : List FwdEntry} (h : sl.fwd = f :: rest) :
    sl.canStart x c = true ↔ sl.preempt = false ∧ sl.ret.length + sl.started.length < 8 ∧
      ∀ w j n, f.instr = some w → unitOf f.before.latch.cls w = some (j, n) → x.unitFree[j] ≤ c := by
  unfold Slot.canStart
  rw [h]
  simp only [Bool.and_eq_true, Bool.not_eq_true', decide_eq_true_eq, and_assoc]
  refine and_congr_right fun _ => and_congr_right fun _ => ?_
  cases hw : f.instr with
  | none => simp
  | some w =>
    rw [Option.bind_some]
    refine ⟨fun h w' j n hw' hu => ?_, fun h => ?_⟩
    · obtain rfl := Option.some.inj hw'
      simpa [hu] using h
    · split
      next j n hu => exact decide_eq_true (h w j n rfl hu)
      next => rfl

/-- The slot `k` can start its oldest entry in cycle `cy`, the first one open for it among the `n` from `c0` on. -/
def StartsIn (s : State) (x : Core) (c0 n k cy : Nat) (y : Core) (sl : Slot) (f : FwdEntry) (rest : List FwdEntry) : Prop :=
  (tget s.slots k = some sl ∧ sl.fwd = f :: rest ∧ sl.preempt = false ∧ sl.ret.length + sl.started.length < 8 ∧
    ∀ w j n, f.instr = some w → unitOf f.before.latch.cls w = some (j, n) → x.unitFree[j] ≤ c0) ∧
  x.openCycle (if isGateway (tileOfSlot k) then 7 else leaseClass x.lease f.before.cls) c0 n = some (cy, y)

theorem nextStart_eq_some {s : State} {x : Core} {c0 n k : Nat} {r : Nat × Nat × Core × Slot × FwdEntry × List FwdEntry} :
    s.nextStart x c0 n k = some r ↔ ∃ cy y sl f rest, r = (cy, k, y, sl, f, rest) ∧ StartsIn s x c0 n k cy y sl f rest := by
  unfold State.nextStart
  cases hsl : tget s.slots k with
  | none => simp [StartsIn, hsl]
  | some sl =>
    cases hf : sl.fwd with
    | nil => simp [StartsIn, hsl, hf]
    | cons f rest =>
      have hcan := canStart_iff (x := x) (c := c0) hf
      simp only [Option.bind_eq_bind, Option.bind_some, hf]
      constructor
      · intro h
        split at h
        next hstart =>
          obtain ⟨⟨cy, y⟩, hopen, rfl⟩ := Option.map_eq_some_iff.1 h
          exact ⟨cy, y, sl, f, rest, rfl, ⟨hsl, hf, hcan.1 hstart⟩, hopen⟩
        next => cases h
      · rintro ⟨cy, y, sl', f', rest', rfl, ⟨hsl', hf', hstart⟩, hopen⟩
        obtain rfl := Option.some.inj (hsl.symm.trans hsl')
        obtain ⟨rfl, rfl⟩ := List.cons.inj (hf.symm.trans hf')
        rw [if_pos (hcan.2 hstart), hopen]
        rfl

/-- Of what the numbers of a list give, the one of the least cycle, and of equals the first. -/
theorem find_earliest {α : Type} {g : Nat → Option (Nat × α)} {before after : List Nat} {i : Nat} {r : Nat × α} (hr : g i = some r)
    (hbefore : ∀ j ∈ before, ∀ q, g j = some q → r.1 < q.1) (hafter : ∀ j ∈ after, ∀ q, g j = some q → r.1 ≤ q.1) :
    let ready := (before ++ i :: after).filterMap g
    ready.find? (fun q => (ready.map (·.1)).all (q.1 ≤ ·)) = some r := by
  intro ready
  have hready : ready = before.filterMap g ++ r :: after.filterMap g := by simp [ready, hr]
  have hb : ∀ q ∈ before.filterMap g, r.1 < q.1 := fun q hq => by
    obtain ⟨j, hj, hg⟩ := List.mem_filterMap.1 hq
    exact hbefore j hj q hg
  have ha : ∀ q ∈ after.filterMap g, r.1 ≤ q.1 := fun q hq => by
    obtain ⟨j, hj, hg⟩ := List.mem_filterMap.1 hq
    exact hafter j hj q hg
  have hleast : ∀ q ∈ ready, r.1 ≤ q.1 := fun q hq => by
    rw [hready, List.mem_append, List.mem_cons] at hq
    rcases hq with hq | rfl | hq
    · exact (hb q hq).le
    · exact le_refl _
    · exact ha q hq
  have hmem : r ∈ ready := by simp [hready]
  have hp : ∀ q : Nat × α, (ready.map (·.1)).all (q.1 ≤ ·) = true ↔ ∀ q' ∈ ready, q.1 ≤ q'.1 := by simp
  refine List.find?_eq_some_iff_append.2 ⟨(hp r).2 hleast, before.filterMap g, after.filterMap g, hready, fun q hq => ?_⟩
  rw [Bool.not_eq_true', Bool.eq_false_iff, Ne, hp]
  exact fun hle => absurd (hle r hmem) (not_le.2 (hb q hq))

/-! ### What a start leaves (R217, R262, R434) -/

theorem droop_lanes (x : Core) (c : Nat) : (x.droop c).lanes = x.lanes := by
  obtain ⟨n, m, -, hcount⟩ := countTo_eq x c
  simp only [Core.droop, hcount]

theorem wake_lanes (x : Core) (l : Word) (c : Nat) : (x.wake l c).1.lanes = l :: x.lanes.take 15 := by
  unfold Core.wake
  dsimp only
  split
  · rfl
  split
  · rfl
  · exact droop_lanes _ _

theorem useUnit_lanes (x : Core) (lc : LCls) (i : Instr) (c : Nat) : (x.useUnit lc i c).lanes = x.lanes := by
  unfold Core.useUnit
  split <;> rfl

theorem openCycle_lanes {x y : Core} {cls c n cy : Nat} (h : x.openCycle cls c n = some (cy, y)) : y.lanes = x.lanes := by
  induction n generalizing x c with
  | zero => cases h
  | succ n ih =>
    obtain ⟨a, b, -, hcount⟩ := countTo_eq x c
    have hsame : (x.countTo c).lanes = x.lanes := by rw [hcount]
    rw [Core.openCycle] at h
    split at h
    · obtain ⟨-, rfl⟩ := Prod.mk.inj (Option.some.inj h)
      exact hsame
    · exact (ih h).trans hsame

/-- What the broker's part of a start leaves as it is: memory, strands, slots, and of each core the slot served last and the
lanes of its starts. -/
structure StartFrame (s t : State) : Prop where
  mem : t.mem = s.mem
  strands : t.strands = s.strands
  slots : t.slots = s.slots
  lastV : ∀ c, (t.core c).lastV = (s.core c).lastV
  lanes : ∀ c, (t.core c).lanes = (s.core c).lanes

namespace StartFrame
variable {r s t : State}

theorem refl (s : State) : StartFrame s s := ⟨rfl, rfl, rfl, fun _ => rfl, fun _ => rfl⟩

theorem trans (h : StartFrame r s) (g : StartFrame s t) : StartFrame r t :=
  ⟨g.mem.trans h.mem, g.strands.trans h.strands, g.slots.trans h.slots, fun c => (g.lastV c).trans (h.lastV c),
    fun c => (g.lanes c).trans (h.lanes c)⟩

theorem setCore (s : State) (n : Nat) (x : Core) (hlast : x.lastV = (s.core n).lastV) (hlanes : x.lanes = (s.core n).lanes) :
    StartFrame s (s.setCore n x) := by
  refine ⟨rfl, rfl, rfl, fun c => ?_, fun c => ?_⟩ <;> by_cases hc : c = n
  · rw [hc, State.setCore_core, hlast]
  · rw [State.setCore_core_other _ _ _ _ hc]
  · rw [hc, State.setCore_core, hlanes]
  · rw [State.setCore_core_other _ _ _ _ hc]

theorem modTile (s : State) (n : Nat) (f : Tile → Tile) : StartFrame s (s.modTile n f) :=
  ⟨rfl, rfl, rfl, fun _ => rfl, fun _ => rfl⟩

theorem postOnce (s : State) (i : Instr) : StartFrame s (s.postOnce i) := by
  constructor <;> simp

theorem postAt (s : State) (d : Nat) (i : Instr) : StartFrame s (s.postAt d i) := ⟨rfl, rfl, rfl, fun _ => rfl, fun _ => rfl⟩

theorem postWhen (s : State) (c : Prop) [Decidable c] (i : Instr) : StartFrame s (if c then s.postOnce i else s) := by
  split
  · exact postOnce s i
  · exact refl s

theorem askLease (s : State) (core cls c : Nat) : StartFrame s (s.askLease core cls c) := by
  unfold State.askLease
  extract_lets x again
  split
  · exact refl s
  · exact (setCore s core { x with leaseAsk := vcost cls - x.lease } rfl rfl).trans (postOnce _ _)

theorem askLeaseUnless (s : State) (b : Prop) [Decidable b] (core cls c : Nat) : StartFrame s (if b then s else s.askLease core cls c) := by
  split
  · exact refl s
  · exact askLease s core cls c

theorem takeNotice (s : State) (tile : Nat) (n : Notice) : StartFrame s (s.takeNotice tile n) := by
  unfold State.takeNotice
  split
  next c _ =>
    exact (setCore s c { (s.core c) with lease := (s.core c).lease - min n.amount (s.core c).lease } rfl rfl).trans (modTile _ _ _)
  next =>
    extract_lets lim m s1
    split <;> exact ⟨rfl, rfl, rfl, fun _ => rfl, fun _ => rfl⟩

theorem foldl_takeNotice (tile : Nat) (l : List Notice) (s : State) : StartFrame s (l.foldl (fun x n => x.takeNotice tile n) s) := by
  induction l generalizing s with
  | nil => exact refl s
  | cons n l ih => exact (takeNotice s tile n).trans (ih _)

theorem takeNotices (s : State) (tile : Nat) (due : Notice → Bool) : StartFrame s (s.takeNotices tile due) := by
  unfold State.takeNotices
  extract_lets l
  split
  · exact ((modTile _ _ _).trans (foldl_takeNotice tile _ _)).trans (postOnce _ _)
  · exact refl s

end StartFrame

theorem openDivision_none {s : State} {k : Nat} {sl : Slot} {f : FwdEntry} (h : f.opens = false) : s.openDivision k sl f = s := by
  simp [State.openDivision, h]

/-- The long-latency instruction that a division with a window becomes (R75, R115). -/
def flightOf (sl : Slot) (f : FwdEntry) (w : Instr) (c : Ctl) : Inflight :=
  { n := f.n, instr := w, before := f.before, pos := f.pos, windows := f.windows, left := c.la.val, wroteL := false
    needL := sl.flight.any fun g => (dstOf g.instr).isSome && f.ahead.any fun a => a.n = g.n && !a.wroteL }

theorem openDivision_some {s : State} {k : Nat} {sl : Slot} {f : FwdEntry} {w : Instr} {c : Ctl} (h : f.opens = true)
    (hw : f.instr = some w) (hc : w.ctl = some c) : s.openDivision k sl f =
      (s.modSlot k fun x => { x with windows := x.windows ++ windowOf w c, flight := x.flight ++ [flightOf sl f w c] }).post
        (.event (replyOf w k)) := by
  simp only [State.openDivision, h, if_true, hw, hc]
  rfl

theorem openDivision_frame (s : State) (k : Nat) (sl : Slot) (f : FwdEntry) :
    (s.openDivision k sl f).mem = s.mem ∧ (s.openDivision k sl f).strands = s.strands ∧ (s.openDivision k sl f).cores = s.cores ∧
      ∀ j, j ≠ k → tget (s.openDivision k sl f).slots j = tget s.slots j := by
  unfold State.openDivision
  dsimp only
  split
  · exact ⟨rfl, rfl, rfl, fun _ _ => rfl⟩
  · exact ⟨rfl, rfl, rfl, fun j hj => tget_tmod_other _ _ _ _ hj⟩

/-- The slot once its oldest entry has left the forward queue. -/
def begunSlot (sl : Slot) (f : FwdEntry) (rest : List FwdEntry) : Slot :=
  { sl with fwd := rest, vp := takenPred sl.vp f, started := sl.started ++ (f.returns.map fun r => (f.n, r)).toList }

/-- The core after a start in cycle `c`. -/
def begunCore (k c : Nat) (x : Core) (f : FwdEntry) : Core :=
  let x1 := (x.wake f.lanes c).1
  let x2 := match f.instr with
    | some i => x1.useUnit f.before.latch.cls i c
    | none => x1
  { x2 with lastV := k % 4 }

theorem begunCore_lanes (k c : Nat) (x : Core) (f : FwdEntry) : (begunCore k c x f).lanes = f.lanes :: x.lanes.take 15 := by
  unfold begunCore
  cases f.instr with
  | none => exact wake_lanes x f.lanes c
  | some i => exact (useUnit_lanes _ _ _ _).trans (wake_lanes x f.lanes c)

/-- Core and slot as a start leaves them, before its broker and its turns are looked at. -/
def State.begun (s : State) (k c : Nat) (x : Core) (sl : Slot) (f : FwdEntry) (rest : List FwdEntry) : State :=
  let s1 := s.setCore (coreOfSlot k) (begunCore k c x f)
  let s2 := if (x.wake f.lanes c).2 then s1.droopTimers (coreOfSlot k) else s1
  s2.setSlot k (begunSlot sl f rest)

theorem droopTimersWhen_frame (s : State) (core : Nat) (b : Bool) :
    let t := if b then s.droopTimers core else s
    t.mem = s.mem ∧ t.strands = s.strands ∧ t.cores = s.cores ∧ t.slots = s.slots := by
  cases b <;> exact ⟨rfl, rfl, rfl, rfl⟩

theorem begun_frame (s : State) (k c : Nat) (x : Core) (sl : Slot) (f : FwdEntry) (rest : List FwdEntry) :
    (s.begun k c x sl f rest).mem = s.mem ∧ (s.begun k c x sl f rest).strands = s.strands ∧
      (s.begun k c x sl f rest).cores = tput s.cores (coreOfSlot k) (begunCore k c x f) ∧
      (s.begun k c x sl f rest).slots = tput s.slots k (begunSlot sl f rest) := by
  obtain ⟨hmem, hstrands, hcores, hslots⟩ := droopTimersWhen_frame
    (s.setCore (coreOfSlot k) (begunCore k c x f)) (coreOfSlot k) (x.wake f.lanes c).2
  exact ⟨hmem, hstrands, hcores, congrArg (tput · k _) hslots⟩

/-- What follows a start: its result falls due, the broker is asked for tokens, notices are taken, and the next start is due. -/
def State.brokered (s : State) (k c started : Nat) (f : FwdEntry) : State :=
  let core := coreOfSlot k
  let s4 := if f.returns.isSome then s.postOnce (.vectorResultReturn k) else s
  let s5 := if isGateway (tileOfCore core) then s4 else s4.askLease core f.before.cls c
  let s6 := s5.takeNotices (tileOfCore core) fun n => n.core = some core
  (s6.postAt (s6.cycleEnds core (started + leaseIdle)) (.leaseIdleReturn core)).postOnce (.vectorSideStart core)

theorem startEntry_eq (s : State) (k c : Nat) (x : Core) (sl : Slot) (f : FwdEntry) (rest : List FwdEntry) :
    s.startEntry k c x sl f rest =
      ((s.begun k c x sl f rest).openDivision k sl f).brokered k c (begunCore k c x f).started f := by
  unfold State.startEntry State.begun begunCore
  cases x.wake f.lanes c
  rfl

theorem brokered_frame (s : State) (k c started : Nat) (f : FwdEntry) : StartFrame s (s.brokered k c started f) := by
  unfold State.brokered
  extract_lets core s4 s5 s6
  have h4 : StartFrame s s4 := StartFrame.postWhen _ _ _
  have h5 : StartFrame s4 s5 := StartFrame.askLeaseUnless _ _ _ _ _
  have h6 : StartFrame s5 s6 := StartFrame.takeNotices _ _ _
  exact (((h4.trans h5).trans h6).trans (StartFrame.postAt _ _ _)).trans (StartFrame.postOnce _ _)

theorem brokered_due (s : State) (k c started : Nat) (f : FwdEntry) :
    .event (.vectorSideStart (coreOfSlot k)) ∈ (s.brokered k c started f).agenda :=
  State.mem_postOnce _ _

/-! ### The act of the vector side's start (R214, R219) -/

section
variable (s : State) (core : Nat)

theorem takePreds_frame : (s.takePreds core).mem = s.mem ∧ (s.takePreds core).strands = s.strands ∧
    (s.takePreds core).agenda = s.agenda ∧ (s.takePreds core).cores = s.cores := by
  obtain ⟨l, hl⟩ := takePreds_slots s core
  rw [hl]
  exact ⟨rfl, rfl, rfl, rfl⟩

theorem takePreds_core (c : Nat) : (s.takePreds core).core c = s.core c := by
  obtain ⟨l, hl⟩ := takePreds_slots s core
  rw [hl]
  rfl

theorem takePreds_cycleOf (c : Nat) : (s.takePreds core).cycleOf c = s.cycleOf c := by
  obtain ⟨l, hl⟩ := takePreds_slots s core
  rw [hl]
  rfl

theorem takePreds_cycleLimit (c : Nat) : (s.takePreds core).cycleLimit c = s.cycleLimit c := by
  obtain ⟨l, hl⟩ := takePreds_slots s core
  rw [hl]
  rfl

/-- The first cycle in which the core may start an entry (R214). -/
def State.firstCycle : Nat := max ((s.core core).started + 1) (s.cycleOf core)

/-- In the present nanosecond the slot number `i` of the core can start its oldest entry, in cycle `cy`. -/
def State.StartsNow (i cy : Nat) (y : Core) (sl : Slot) (f : FwdEntry) (rest : List FwdEntry) : Prop :=
  StartsIn (s.takePreds core) (s.core core) (s.firstCycle core) (s.cycleLimit core - s.firstCycle core) (core * 4 + i) cy y sl f rest

end

section
variable {s : State} {core : Nat}

theorem rotation_lt {last i : Nat} (h : i ∈ rotation last) : i < 4 := by
  obtain ⟨j, -, rfl⟩ := List.mem_map.1 h
  exact Nat.mod_lt _ (by decide)

theorem exec_vectorSideStart_dark (h : s.awake (tileOfCore core) = false) : exec (.vectorSideStart core) s = .next s := by
  show execVectorSideStart core s = _
  refine if_pos ?_
  rw [h]
  rfl

/-- The slots that can start, as the act finds them. -/
def State.readyStarts (s : State) (core : Nat) (order : List Nat) : List (Nat × Nat × Core × Slot × FwdEntry × List FwdEntry) :=
  order.filterMap fun i =>
    (s.takePreds core).nextStart (s.core core) (s.firstCycle core) (s.cycleLimit core - s.firstCycle core) (core * 4 + i)

theorem exec_vectorSideStart_awake (h : s.awake (tileOfCore core) = true) : exec (.vectorSideStart core) s =
    let s0 := s.takePreds core
    let ready := s.readyStarts core (rotation (s.core core).lastV)
    match ready.find? fun r => (ready.map (·.1)).all (r.1 ≤ ·) with
    | none => .next (if s0.vectorWaits core then s0.postOnce (.vectorSideStart core) else s0)
    | some (c, k, x, sl, f, rest) => .next (s0.startEntry k c x sl f rest) := by
  have hcore := takePreds_core s core core
  have hcycle := takePreds_cycleOf s core core
  have hlimit := takePreds_cycleLimit s core core
  show execVectorSideStart core s = _
  unfold execVectorSideStart State.readyStarts State.firstCycle
  rw [h]
  generalize s.takePreds core = s0 at hcore hcycle hlimit ⊢
  simp only [hcore, hcycle, hlimit] <;> rfl

theorem exec_vectorSideStart_starts {before after : List Nat} {i cy : Nat} {y : Core} {sl : Slot} {f : FwdEntry} {rest : List FwdEntry}
    (h : s.awake (tileOfCore core) = true) (horder : rotation (s.core core).lastV = before ++ i :: after)
    (hi : s.StartsNow core i cy y sl f rest)
    (hbefore : ∀ j ∈ before, ∀ n y sl f rest, s.StartsNow core j n y sl f rest → cy < n)
    (hafter : ∀ j ∈ after, ∀ n y sl f rest, s.StartsNow core j n y sl f rest → cy ≤ n) :
    exec (.vectorSideStart core) s = .next ((s.takePreds core).startEntry (core * 4 + i) cy y sl f rest) := by
  rw [exec_vectorSideStart_awake h, horder]
  have hfind := find_earliest (before := before) (after := after) (g := fun i =>
    (s.takePreds core).nextStart (s.core core) (s.firstCycle core) (s.cycleLimit core - s.firstCycle core) (core * 4 + i))
    (nextStart_eq_some.2 ⟨cy, y, sl, f, rest, rfl, hi⟩) ?_ ?_
  · simp only [State.readyStarts, hfind]
  · intro j hj q hq
    obtain ⟨n, y', sl', f', rest', rfl, hstart⟩ := nextStart_eq_some.1 hq
    exact hbefore j hj n y' sl' f' rest' hstart
  · intro j hj q hq
    obtain ⟨n, y', sl', f', rest', rfl, hstart⟩ := nextStart_eq_some.1 hq
    exact hafter j hj n y' sl' f' rest' hstart

theorem vectorWaits_iff (t : State) : t.vectorWaits core = true ↔ ∃ i < 4, ∃ sl, tget t.slots (core * 4 + i) = some sl ∧ sl.fwd ≠ [] := by
  unfold State.vectorWaits upto
  rw [List.any_eq_true]
  simp only [List.mem_range]
  refine exists_congr fun i => and_congr_right fun _ => ?_
  cases tget t.slots (core * 4 + i) <;> simp

theorem exec_vectorSideStart_none (h : s.awake (tileOfCore core) = true)
    (hnone : ∀ i < 4, ∀ n y sl f rest, ¬ s.StartsNow core i n y sl f rest) :
    exec (.vectorSideStart core) s = .next (if (s.takePreds core).vectorWaits core then (s.takePreds core).postOnce (.vectorSideStart core)
      else s.takePreds core) := by
  have hready : s.readyStarts core (rotation (s.core core).lastV) = [] := by
    refine List.filterMap_eq_nil_iff.2 fun i hi => ?_
    by_contra hstart
    obtain ⟨r, hr⟩ := Option.ne_none_iff_exists'.1 hstart
    obtain ⟨n, y, sl, f, rest, -, hnow⟩ := nextStart_eq_some.1 hr
    exact hnone i (rotation_lt hi) n y sl f rest hnow
  rw [exec_vectorSideStart_awake h, hready]
  rfl

/-- What a start leaves: the slot without its oldest entry, its core's lanes, and the next start due. -/
theorem startEntry_leaves {i : Nat} (hi : i < 4) (cy : Nat) (y : Core) (sl : Slot) (f : FwdEntry) (rest : List FwdEntry) :
    let k := core * 4 + i
    let t := s.startEntry k cy y sl f rest
    (f.opens = false → tget t.slots k = some (begunSlot sl f rest)) ∧
    (∀ w c, f.opens = true → f.instr = some w → w.ctl = some c → tget t.slots k = some { (begunSlot sl f rest) with
      windows := sl.windows ++ windowOf w c, flight := sl.flight ++ [flightOf sl f w c] }) ∧
    (∀ j, j ≠ k → tget t.slots j = tget s.slots j) ∧
    (t.core core).lastV = i ∧ (t.core core).lanes = f.lanes :: y.lanes.take 15 ∧ t.mem = s.mem ∧ t.strands = s.strands ∧
    .event (.vectorSideStart core) ∈ t.agenda := by
  intro k t
  have hcore : coreOfSlot k = core := by
    simp only [coreOfSlot, k]
    omega
  have hframe : StartFrame ((s.begun k cy y sl f rest).openDivision k sl f) t := by
    rw [show t = _ from startEntry_eq s k cy y sl f rest]
    exact brokered_frame _ _ _ _ _
  obtain ⟨hmem, hstrands, hcores, hslots⟩ := begun_frame s k cy y sl f rest
  obtain ⟨hmem', hstrands', hcores', hother⟩ := openDivision_frame (s.begun k cy y sl f rest) k sl f
  have hbegun : (((s.begun k cy y sl f rest).openDivision k sl f).core core) = begunCore k cy y f := by
    rw [hcore] at hcores
    rw [State.core, hcores', hcores, tgetD_tput_same]
  refine ⟨fun ho => ?_, fun w c ho hw hc => ?_, fun j hj => ?_, ?_, ?_, ?_, ?_, ?_⟩
  · rw [hframe.slots, openDivision_none ho, hslots, tget_tput_same]
  · rw [hframe.slots, openDivision_some ho hw hc]
    show tget (tmod _ _ _) _ = _
    rw [tget_tmod_same, hslots, tget_tput_same]
    rfl
  · rw [hframe.slots, hother j hj, hslots, tget_tput_other _ _ _ _ hj]
  · rw [hframe.lastV, hbegun]
    show k % 4 = i
    omega
  · rw [hframe.lanes, hbegun, begunCore_lanes]
  · rw [hframe.mem, hmem', hmem]
  · rw [hframe.strands, hstrands', hstrands]
  · have hdue := brokered_due ((s.begun k cy y sl f rest).openDivision k sl f) k cy (begunCore k cy y f).started f
    rwa [hcore, ← startEntry_eq] at hdue

theorem startsNow_iff {i : Nat} (hi : i < 4) {cy : Nat} {y : Core} {sl : Slot} {f : FwdEntry} {rest : List FwdEntry} :
    s.StartsNow core i cy y sl f rest ↔
      (tget (s.takePreds core).slots (core * 4 + i) = some sl ∧ sl.fwd = f :: rest ∧ sl.preempt = false ∧
        sl.ret.length + sl.started.length < 8 ∧
        ∀ w j n, f.instr = some w → unitOf f.before.latch.cls w = some (j, n) → (s.core core).unitFree[j] ≤ s.firstCycle core) ∧
      (s.core core).openCycle (if isGateway (tileOfCore core) then 7 else leaseClass (s.core core).lease f.before.cls) (s.firstCycle core)
        (s.cycleLimit core - s.firstCycle core) = some (cy, y) := by
  have htile : tileOfSlot (core * 4 + i) = tileOfCore core := by
    simp only [tileOfSlot, tileOfCore]
    omega
  rw [State.StartsNow, StartsIn, htile]

end

theorem windowOf_eq (i : Instr) (c : Ctl) :
    windowOf i c = if i.isLL = true ∧ c.la.val ≠ 0 then [{ dst := dstOf i, left := c.la.val, wroteL := false }] else [] := by
  simp [windowOf]

/-- Settles O44: the starts by `exec_vectorSideStart_starts` and `startEntry_leaves`, the sense events by `droop_windows`. -/
theorem theVectorSideStartsLeasesAndDroops : Obligations.the_vector_side_starts_leases_and_droops := by
  refine ⟨fun s core slot => ?_, fun s core field => ?_⟩
  · intro c taken
    refine ⟨?starts, ?returns, ?leases⟩
    case starts =>
      intro s0 c0 last due canStart starts startsAt waits order
      have hstarts : ∀ i < 4, ∀ cy y sl f rest, s.StartsNow core i cy y sl f rest ↔ starts i cy y sl f rest :=
        fun i hi cy y sl f rest => startsNow_iff hi
      refine ⟨takePreds_frame s core, fun i hi sl hsl => ⟨fun hp => ?_, fun ps rest hp hf hps hrest => ?_⟩,
        exec_vectorSideStart_dark, ?_, fun hawake hnone => ?_⟩
      · simp only [s0, tget_takePreds s core hi, hsl, Option.map_some, hp, if_true]
      · simp only [s0, tget_takePreds s core hi, hsl, Option.map_some, hp, Bool.false_eq_true, if_false, slot_takePreds hf hps hrest]
        rfl
      · intro before i after cy y sl f rest hawake horder hi hbefore hafter
        have hlt : ∀ j ∈ before ++ i :: after, j < 4 := fun j hj => rotation_lt (last := c.lastV) (show j ∈ order from horder ▸ hj)
        have hi4 : i < 4 := hlt i (by simp)
        refine ⟨_, exec_vectorSideStart_starts hawake horder ((hstarts i hi4 _ _ _ _ _).2 hi) ?_ ?_, ?_⟩
        · exact fun j hj n y sl f rest h => hbefore j hj n ⟨y, sl, f, rest, (hstarts j (hlt j (by simp [hj])) _ _ _ _ _).1 h⟩
        · exact fun j hj n y sl f rest h => hafter j hj n ⟨y, sl, f, rest, (hstarts j (hlt j (by simp [hj])) _ _ _ _ _).1 h⟩
        · obtain ⟨hclosed, hopens, hother, hlast, hlanes, hmem, hstrands, hdue⟩ :=
            startEntry_leaves (s := s.takePreds core) (core := core) hi4 cy y sl f rest
          obtain ⟨hmem0, hstrands0, -, -⟩ := takePreds_frame s core
          refine ⟨⟨hclosed, fun w k ho hw hk => ⟨flightOf sl f w k, ?_, rfl, rfl, rfl, rfl⟩⟩, hother, hlast,
            openCycle_lanes hi.2 ▸ hlanes, hmem.trans hmem0, hstrands.trans hstrands0, hdue⟩
          rw [← windowOf_eq]
          exact hopens w k ho hw hk
      · rw [exec_vectorSideStart_none hawake fun i hi n y sl f rest h => hnone i hi n ⟨y, sl, f, rest, (hstarts i hi _ _ _ _ _).1 h⟩]
        have hwaits : (s.takePreds core).vectorWaits core = true ↔ waits := vectorWaits_iff _
        exact ⟨fun h => by rw [if_pos (hwaits.2 h)], fun h => by rw [if_neg (mt hwaits.1 h)]⟩
    case returns => exact fun sl r rest hsl hs => ⟨vectorResult_returns hsl hs, vectorResult_waits hsl hs⟩
    case leases =>
      intro f holds served answer
      refine ⟨fun hask h => leaseRequest_answered hask (.inl ⟨h, rfl⟩), fun hask h => leaseRequest_answered hask (.inr ⟨h, rfl⟩),
        leaseIdleReturn_none, leaseIdleReturn_later, fun hlease hidle => ⟨fun hret => ?_, fun hret => ?_⟩⟩
      · rw [leaseIdleReturn_returns hlease hidle, returnLease_pool hret]
      · rw [leaseIdleReturn_returns hlease hidle, returnLease_retired hret]
  · refine ⟨fun hboot hgood => ?_, exec_senseEvent_idle, exec_droopWindowExpiry,
      fun t0 hold => ⟨droopHoldExit_ends hold, droopHoldExit_stays hold⟩⟩
    intro c x
    obtain ⟨hstretch, hhalf, hcount, hbase⟩ := droop_windows x c
    obtain ⟨hmem, hstrands, -, hsenses⟩ := senseAtBroker_frame
      ((s.modCore core fun x => { (x.droop (s.cycleOf core)) with sense := sat16 (x.sense + 1) }).droopTimers core) (core / 256)
    refine ⟨s.sensed core, exec_senseEvent hboot hgood, ?_⟩
    rw [sensed_core]
    exact ⟨rfl, hstretch, hcount, hhalf, fun h => hbase.trans (if_pos h), fun h => hbase.trans (if_neg (not_lt.2 h)), hsenses,
      hmem, hstrands⟩

end Sys2Proof.Machine
end
